-- ==== Sys2Proof/Word.lean ====
section
/-! DEFINITION. The word types of the Yarbustra block and their plainest arithmetic (spec/00_scope.md R9, R17). -/

namespace Sys2Proof

/-- A byte of host memory, on-die memory or LPDDR5. -/
abbrev Byte := BitVec 8

/-- A dword (R9): 32 bits. -/
abbrev Dword := BitVec 32

/-- A 64-bit value: a halyard time or a host address as software sees it. -/
abbrev Qword := BitVec 64

/-- A site word (R17). -/
abbrev Site := BitVec 32

/-- A halyard time in fc, counted from the first lock of the root PLL (R33). -/
abbrev Fc := Nat

/-- Data read by the part from host memory: `none` when the read fails (R356). -/
abbrev HostData := Option (List Byte)

/-- What the host memory holds of a file that a command names (R351): its chunk list, which is read only where the packet asks for one, and its bytes. -/
structure HostFile where
  list : HostData
  bytes : HostData
  deriving DecidableEq, Repr

/-- Bits [hi:lo] of a dword, as a natural number. -/
def dbits (w : Dword) (hi lo : Nat) : Nat := (w.toNat >>> lo) % 2 ^ (hi + 1 - lo)

/-- Bit k of a dword. -/
def dbit (w : Dword) (k : Nat) : Bool := w.getLsbD k

/-- A natural number as a dword. -/
def dw (n : Nat) : Dword := BitVec.ofNat 32 n

/-- Bit range [hi:lo] of a natural number. -/
def nbits (n hi lo : Nat) : Nat := (n >>> lo) % 2 ^ (hi + 1 - lo)

/-- A Bool as 0 or 1. -/
def b2n (b : Bool) : Nat := if b then 1 else 0

/-- Two dwords, low first, as one 64-bit number (R9: little-endian). -/
def lohi (lo hi : Dword) : Nat := lo.toNat + hi.toNat * 2 ^ 32

/-- The low 32 bits of a number. -/
def lo32 (n : Nat) : Dword := BitVec.ofNat 32 n

/-- Bits [63:32] of a number. -/
def hi32 (n : Nat) : Dword := BitVec.ofNat 32 (n / 2 ^ 32)

end Sys2Proof
end

