-- ==== Sys2Proof/Syntax.lean ====
section
/-! DEFINITION. The commands of the block: one constructor of `Instr` per row of spec/opcode_table.json.
A host command's row carries the packet that firmware takes and the ring it came from (spec/12_host_commands.md R343); an event's row
carries the unit it happens at and what the outside supplies (a block received on a lane, the outcome of an ECC check, a measured value). -/

namespace Sys2Proof

/-- A command packet: dwords 0 to 15 (R343). -/
abbrev Packet := List Dword

/-- A command as firmware takes it: the ring and the packet. -/
structure HostCmd where
  ring : Nat
  pkt : Packet
  deriving DecidableEq, Repr

/-- What a check of a protected word finds (R54, R94): the damage is the outside's doing, the response is the part's. -/
inductive Ecc where
  | good
  | single
  | uncorrectable
  deriving DecidableEq, Repr

/-- What link ECC meets in a transfer with a DRAM (R198): nothing, a corrected error, or a repeat that is clean, corrected, or fails as well. -/
inductive LinkEcc where
  | clean
  | corrected
  | repeated
  | repeatedCorrected
  | failed
  deriving DecidableEq, Repr

/-- What the upset of a beat on its way changes, and which checker it comes before (R59): 0 the first boundary FIFO on the way, and so on to the input
port. -/
structure ArriveUpset where
  bits : BitVec 544
  place : Nat
  deriving DecidableEq, Repr

/-- A line that LPDDR5 returns: what its check words say (R197), and what link ECC met in the transfer (R198). -/
structure ReturnedLine where
  ecc : Ecc
  link : LinkEcc
  deriving DecidableEq, Repr

/-- A burst slot of a channel, and what link ECC meets in its transfer, in that of the request's check line and in that of the one written back
(R197, R198, R217). `line` is what the check words say of a line that work beside the queues reads, `mirror` of its mirror copy (R226). -/
structure BurstSlot where
  channel : Nat
  link : LinkEcc
  check : LinkEcc
  evict : LinkEcc
  line : Ecc
  mirror : Ecc
  deriving DecidableEq, Repr

/-- A queue whose storage is accessed, and whether the access meets a parity error (R227). -/
structure StorageAccess where
  queue : Nat
  parity : Bool
  deriving DecidableEq, Repr

/-- A FRAME_START stripe: its payload, and whether all of its lanes carry the block (R309). -/
structure StartStripe where
  payload : BitVec 64
  whole : Bool
  deriving DecidableEq, Repr

/-- A stripe of IDLE blocks of a stream, and whether all of its lanes carry one (R309). -/
structure IdleStripe where
  stream : Nat
  whole : Bool
  deriving DecidableEq, Repr

/-- Where a tile operation meets a parity error (R98): a staging line that it reads (the second one of an INT4 MAC), its accumulator set, or the side
set. -/
inductive TileParity where
  | clean
  | line (second : Bool)
  | set
  | side
  deriving DecidableEq, Repr

/-- A beat: 512 data bits and 32 sideband bits (R55, R56). -/
structure Beat where
  data : BitVec 512
  side : BitVec 32
  deriving DecidableEq, Repr

/-- An end of a link: the site word of the unit (sub 0; for streams and span ports kinds 6, 7 and 8 with the number in sub) and the port number within it. -/
structure EndPoint where
  site : Site
  port : Nat
  deriving DecidableEq, Repr

/-- A PMBus transaction on a readable and writable command: a read, or a write of a word (R379). -/
inductive PmOp where
  | read
  | write (v : BitVec 16)
  deriving DecidableEq, Repr

/-- Why a lane is lost inside a frame (R317, code 0x0B06). -/
inductive LaneLoss where
  | blockLock
  | highBer
  | skew
  deriving DecidableEq, Repr

/-- The conditions of R377, codes 0x0D10 to 0x0D15, with the sector or rail that detail word 1 names and what was measured there: a junction
temperature in 1/16 °C, a rail's voltage in mV. -/
inductive StageFault where
  | undervoltage
  | overvoltage
  | overcurrent
  | junction (sector : Nat) (temp : Int)
  | rail (index : Nat) (mv : Nat)
  | overtemperature
  deriving DecidableEq, Repr

/-- The warn limits of R379. -/
inductive WarnLimit where
  | otWarn
  | vinOvWarn
  | vinUvWarn
  | iinOcWarn
  | pinOpWarn
  deriving DecidableEq, Repr

/-- What the power stage measures (R377, R379, R397): VIN in mV, IIN in mA, input power in 1/16 W averaged over 1 ms, stage temperature in 1/16 °C. -/
structure Telemetry where
  vin : Nat
  iin : Nat
  pin : Nat
  temp : Int
  deriving DecidableEq, Repr

/-- The commands of the block, in the order of the table. -/
inductive Instr where
  -- host commands
  | nop (c : HostCmd)
  | identify (c : HostCmd)
  | attestReport (c : HostCmd)
  | attestCertificate (c : HostCmd)
  | imageLoad (c : HostCmd) (file : HostFile)
  | imageLoadSection (c : HostCmd)
  | imageLoadDone
  | imageVerify (c : HostCmd) (file : HostFile)
  | imageVerifyDone
  | hoistArmTarget (c : HostCmd)
  | hoistArmMirror (c : HostCmd)
  | mirrorCopyDone
  | hoistSwitch (c : HostCmd)
  | hoistSwitchLands
  | hoistRelease (c : HostCmd)
  | hoistReleaseImageOnly (c : HostCmd)
  | streamOpen (c : HostCmd)
  | streamClose (c : HostCmd)
  | streamCloseDrained (stream : Nat)
  | streamCloseTimeout (stream : Nat)
  | streamMode (c : HostCmd)
  | streamModeLands (stream : Nat)
  | descArm (c : HostCmd)
  | descDisarm (c : HostCmd)
  | scaleSet (c : HostCmd) (table : HostData)
  | scaleBankLive (site : Site)
  | scaleBankRetireDone (site : Site)
  | scaleRead (c : HostCmd)
  | selfTestProveUnit (c : HostCmd)
  | selfTestRequestWindow (c : HostCmd)
  | selfTestGrantWindow (c : HostCmd)
  | selfTestReport (c : HostCmd)
  | fullWindowStart
  | fullWindowEnd (failed : List Site)
  | calibrateChannel (c : HostCmd)
  | calibrateAllChannels (c : HostCmd)
  | calibrateLane (c : HostCmd) (eyeHeight eyeWidth : Nat)
  | unitDisable (c : HostCmd)
  | unitEnable (c : HostCmd)
  | unitDrainDone (site : Site)
  | unitDrainTimeout (site : Site)
  | haltAt (c : HostCmd)
  | haltLands
  | resume (c : HostCmd)
  | resumeLands
  | snapshotCapture (c : HostCmd)
  | snapshotCaptureDone
  | snapshotCopy (c : HostCmd)
  | snapshotRelease (c : HostCmd)
  | traceConfigure (c : HostCmd)
  | traceStart (c : HostCmd)
  | traceStop (c : HostCmd)
  | traceStopFlushDone
  | traceTrigger (c : HostCmd)
  | traceMarker (c : HostCmd)
  | traceRelease (c : HostCmd)
  | traceCopy (c : HostCmd)
  | counterConfigure (c : HostCmd)
  | counterRunMask (c : HostCmd)
  | counterClearMask (c : HostCmd)
  | counterSampleAll (c : HostCmd)
  | counterGrant (c : HostCmd)
  | spanOpen (c : HostCmd)
  | spanClose (c : HostCmd)
  | spanMeasure (c : HostCmd)
  | fwStage (c : HostCmd) (package : HostData)
  | fwStageDone
  | fwSwitch (c : HostCmd)
  | fwSwitchLands
  | fwCoreReady (core : Nat)
  | fwReadyTimeout (core : Nat)
  | lifecycleTransition (c : HostCmd) (auth : HostData)
  | lifecycleAddKey (c : HostCmd) (auth : HostData)
  | lifecycleRevokeImageKey (c : HostCmd) (auth : HostData)
  | lifecycleRevokeFwKey (c : HostCmd) (auth : HostData)
  | wipeFreeSpace (c : HostCmd)
  | wipeFreeSpaceDone
  | wipeDevice (c : HostCmd)
  | wipeStagedFirmware (c : HostCmd)
  | powerSetOperatingPoint (c : HostCmd)
  | powerSetCap (c : HostCmd)
  | powerSetThermal (c : HostCmd)
  | powerSetSleep (c : HostCmd)
  | powerSetWake (c : HostCmd)
  | powerSetReset (c : HostCmd)
  | delayedDeviceReset
  | thermalRead (c : HostCmd)
  -- host interface
  | hifDbSqTail (ring : Nat) (value : Dword)
  | hifDbCqHead (ring : Nat) (value : Dword)
  | ringEnable (ring : Nat) (value : Dword)
  | ringDisable (ring : Nat) (value : Dword)
  | ringDrainDone (ring : Nat)
  | packetFetch (ring : Nat) (packets : Option (List Packet))
  | functionLevelReset
  | hotReset
  | linkDown
  | busMasterEnableClear
  | busMasterEnableSet
  | powerStateD3hot
  | msixVectorUnmask (vector : Nat) (functionMask : Bool)
  | registerWrite (bar offset : Nat) (value : Dword)
  | malformedRegisterAccess (bar offset size : Nat) (write : Option Nat)
  | latchedLoRead (bar offset : Nat)
  | rcRead (bar offset : Nat)
  | evtPendAck (fast hi : Bool) (value : Dword)
  | evtIdleArm (hi : Bool) (value : Dword)
  | evtLogEnable (fast : Bool) (value : Dword)
  | evtLogDisable (fast : Bool) (value : Dword)
  | evtLogHead (fast : Bool) (value : Dword)
  | evtVecMod (vector : Nat) (value : Dword)
  | halProofCtrl (value : Dword)
  | memMaintCtrl (value : Dword)
  | cntPageSample (bar2 : Bool) (page : Nat) (value : Dword)
  | cntPageClear (bar2 : Bool) (page : Nat) (value : Dword)
  | cntPageRun (bar2 : Bool) (page : Nat) (value : Dword)
  | moderationTimerExpiry (vector : Nat)
  | heldRecordWrite (fast : Bool)
  -- fabric and hoists
  | configScrub (site : Site) (hoist dword : Nat) (found : Ecc)
  | autoMirrorSwitch
  | configRewriteDone (site : Site) (hoist : Nat) (readable rechecked : Bool)
  | beatSend (producer : EndPoint)
  | beatArrive (consumer : EndPoint) (upset : ArriveUpset)
  | creditReturnArrive (producer : EndPoint)
  | segmentContention (segment : Site)
  | voidTackLineReceive (input : EndPoint) (stream : Nat)
  -- matrix tile
  | slotBind (site : Site)
  | operationIssue (site : Site)
  | aloadBeat (site : Site) (slot port : Nat)
  | rowExponentFix (site : Site) (slot : Nat) (historyParity : Bool)
  | macFire (site : Site) (slot : Nat) (weight : Ecc) (parity : TileParity)
  | omacFire (site : Site) (slot : Nat) (weights : Ecc × Ecc) (parity : TileParity)
  | clipCheck (site : Site) (slot : Nat)
  | drainFire (site : Site) (slot : Nat) (parity : TileParity)
  | fetchFire (site : Site) (slot : Nat)
  | fetchBeatWrite (site : Site) (port : Nat)
  | waitComplete (site : Site) (slot : Nat)
  | releaseFire (site : Site) (slot : Nat)
  | tileWatchdogExpiry (site : Site) (slot index : Nat)
  | weightScrub (site : Site) (word : Nat) (found : Ecc)
  | weightRewriteDone (site : Site) (region : Nat) (rechecked : Bool)
  -- vector tile
  | vloadBeat (site : Site) (slot : Nat)
  | vsendBeat (site : Site) (slot : Nat) (found : Ecc)
  | vopFire (site : Site) (slot : Nat) (found : Ecc)
  | constantRewriteDone (site : Site) (region : Nat) (readable rechecked : Bool)
  | vfuncFire (site : Site) (slot : Nat) (found : Ecc)
  | vredFire (site : Site) (slot : Nat) (found : Ecc)
  -- window tile
  | windowBeatIn (site : Site) (parity : Bool)
  | windowRowEmit (site : Site) (slot : Nat) (parity : Bool)
  | poolRowEmit (site : Site) (slot : Nat) (parity : Bool)
  -- glue block
  | glueFcEval (site : Site)
  | glueDrainDone (site : Site)
  | glueDrainTimeout (site : Site)
  -- steering unit
  | skewEnqueue (site : Site) (port : Nat)
  | steerSend (site : Site) (port : Nat) (parity : Option Nat)
  | pennantPair (site : Site) (port : Nat)
  | frameEndSettle (site : Site) (port stream : Nat)
  | spillWriteRun (site : Site) (queue : Nat)
  | spillReadRequest (site : Site) (queue : Nat)
  | refillReturn (site : Site) (queue beats : Nat)
  | steerWatchdogExpiry (site : Site)
  -- memory feed and descriptors
  | queueReadIssue (queue : Nat)
  | generatorStep (queue : Nat)
  | generatorFrameResume (queue : Nat)
  | channelBurstDecision (slot : BurstSlot)
  | readReturn (queue entry : Nat) (cacheWord : Ecc) (line : ReturnedLine) (mirror : Ecc)
  | fetchRequestArrive (queue : Nat)
  | feedBeatSend (queue : Nat) (parity : Bool)
  | streamInBeatSend (queue : Nat) (parity : Bool)
  | streamOutBeatWrite (access : StorageAccess)
  | spillQueueWrite (access : StorageAccess)
  | spillQueueRead (access : StorageAccess)
  | circularWaitExpiry
  | refresh (channel bank : Nat)
  | zqCalibration (channel : Nat)
  | dqsOscillatorRead (channel value : Nat)
  | patrolBlock (channel : Nat) (found : List ReturnedLine) (mirror : Ecc)
  | retrainingWindowStart (channel : Nat)
  | retrainingWindowEnd (channel : Nat) (success : Bool)
  | descStoreScrub (word : Nat) (found : Ecc)
  | descRewriteDone (word : Nat) (success : Bool)
  | hostRecordWrite (stream : Nat)
  | hostSlotSeal (stream : Nat)
  -- span
  | spanCodewordSend (port : Nat)
  | spanCodewordReceive (port : Nat) (fec : Ecc) (payload : BitVec 5140)
  | spanAckTimeout (port : Nat)
  | spanLockLoss (port wavelength : Nat)
  | spanTrainingTimeout (port : Nat)
  | spanProbeTimer (port : Nat)
  | spanProbeReplace (port probe : Nat)
  | spanCloseDrained (port : Nat)
  | spanCloseTimeout (port : Nat)
  -- stream lanes
  | frameStartReceive (stream : Nat) (start : StartStripe)
  | lineStartReceive (stream : Nat) (payload : BitVec 64)
  | dataBlockReceive (stream : Nat) (payload : BitVec 64)
  | lineEndReceive (stream : Nat) (payload : BitVec 64)
  | frameEndReceive (stream : Nat) (payload : BitVec 64)
  | idleStripeReceive (stripe : IdleStripe)
  | laneLockLoss (lane : Nat) (cause : LaneLoss)
  | laneLockRegain (lane : Nat)
  | ingressBeatSend (stream : Nat)
  | egressFrameStart (stream : Nat)
  | egressResultBeat (stream : Nat)
  | courierFrameForward (stream : Nat)
  | deadlineExpiry (stream frame : Nat)
  -- power and clocks
  | vinRise
  | powerStageFault (cause : StageFault) (t : Telemetry)
  | powerStageRestart
  | vinBelow36V
  | pmbusWarnCrossing (limit : WarnLimit) (crossed : Bool) (t : Telemetry)
  | refClockLoss
  | refClockRestore
  | stagedStartPhaseEnd (failedUnits failedChannels : List Site)
  | sectorWakeGroup (sector : Nat)
  | perstAssert
  | perstDeassert
  | dividerSwitchPoint (sector : Nat)
  | vddSlewDone (sector : Nat)
  | thermalSample (sector : Nat) (sensors : List Int)
  | powerCapAverage (pin : Nat)
  | neighbourDiffExpiry (hotter cooler : Nat)
  -- availability
  | heartbeatMiss (core : Nat)
  | coreRestartDone (core : Nat)
  | halyardParityError
  | proofArm
  | proofUnitIdle (site : Site)
  | proofMaxWaitExpiry (site : Site)
  | bistRunDone (site : Site) (pass : Bool)
  | proofRestoreDone (site : Site)
  -- trace
  | traceLineWrite (buffer : Nat)
  | traceBufferFlushTimer (buffer : Nat)
  -- boundary scan
  | extest
  | samplePreload
  | idcode
  | highz
  | clamp
  | extestPulse
  | extestTrain
  | bypass (code : BitVec 8)
  | tapReset
  -- PMBus
  | clearFaults
  | writeProtect (op : PmOp)
  | capability
  | otFaultLimit (op : PmOp)
  | otWarnLimit (op : PmOp)
  | vinOvFaultLimit (op : PmOp)
  | vinOvWarnLimit (op : PmOp)
  | vinUvWarnLimit (op : PmOp)
  | vinUvFaultLimit (op : PmOp)
  | iinOcFaultLimit (op : PmOp)
  | iinOcWarnLimit (op : PmOp)
  | pinOpWarnLimit (op : PmOp)
  | statusWord
  | statusInput (op : PmOp)
  | statusTemperature (op : PmOp)
  | statusCml (op : PmOp)
  | readVin (t : Telemetry)
  | readIin (t : Telemetry)
  | readTemperature1 (t : Telemetry)
  | readPin (t : Telemetry)
  | pmbusRevision
  | mfrRestartCount
  | pmbusUnsupportedCommand (code : BitVec 8)
  -- rows added to the end of the table
  | powerStateD0
  | spanLockAcquire (port wavelength : Nat)
  | snapshotCopyDone
  | traceCopyDone
  | attestDone
  | vinAbove36V (addrPins : Nat)
  deriving DecidableEq, Repr

end Sys2Proof
end

