-- ==== Sys2Proof/Config.lean ====
section
/-! DEFINITION. What a part fixes for its whole life (variant, stepping, latency table, capability words: spec/00_scope.md R3, R509,
spec/10_compiler_contract.md R293, spec/19_register_map.md R501 to R503) and the free values: constants without a body, for what spec/ does not give. -/

namespace Sys2Proof

/-- The three parts of R3. -/
inductive Variant where
  | yb832S | yb832E | yb416E
  deriving DecidableEq, Repr

namespace Config

/-- The part this model is of: the fullest one, with every unit of the family. DESIGN CHOICE (notes/assumptions/2.md). -/
def variant : Variant := .yb832S

/-- The stepping: the first (R509). DESIGN CHOICE (notes/assumptions/2.md). -/
def stepping : Nat := 0

/-! ### Resources by part (R3, R195, R502) -/

def sectorsOf (v : Variant) : Nat := match v with | .yb832S => 8 | .yb832E => 8 | .yb416E => 4
def streamsOf (v : Variant) : Nat := match v with | .yb832S => 32 | .yb832E => 32 | .yb416E => 16
def portsOf (v : Variant) : Nat := match v with | .yb832S => 64 | .yb832E => 64 | .yb416E => 32
def channelsOf (v : Variant) : Nat := match v with | .yb832S => 32 | .yb832E => 32 | .yb416E => 16
def spanPortsOf (v : Variant) : Nat := match v with | .yb832S => 8 | .yb832E => 0 | .yb416E => 0
def deviceIdOf (v : Variant) : Nat := match v with | .yb832S => 0x0832 | .yb832E => 0x0833 | .yb416E => 0x0416
/-- usable LPDDR5 bytes: the highest usable DPA of R195 plus 1 -/
def memTopOf (v : Variant) : Nat := match v with | .yb832S => 0xD09DC3000 | .yb832E => 0xD09DC3000 | .yb416E => 0x684EE1800
def nameOf (v : Variant) : String := match v with | .yb832S => "YB8-32S" | .yb832E => "YB8-32E" | .yb416E => "YB4-16E"

def sectors : Nat := sectorsOf variant
def streams : Nat := streamsOf variant
def memPorts : Nat := portsOf variant
def channels : Nat := channelsOf variant
def spanPorts : Nat := spanPortsOf variant
def deviceId : Nat := deviceIdOf variant

/-- PCIe class code, and the Revision ID, which is the stepping (R332, R509). -/
def classCode : Nat := 0x120000
def revisionId : Nat := stepping
/-- Link rates in GT/s and lane counts, and the payload sizes that the part can be programmed to (R332). -/
def linkRates : List Nat := [8, 16, 32]
def linkLanes : List Nat := [4, 2, 1]
def payloadSizes : List Nat := [128, 256, 512]
def readSizes : List Nat := [128, 256, 512, 1024, 2048, 4096]
/-- Non-posted requests that the part has outstanding at most (R332). -/
def maxRequests : Nat := 256
def memTop : Nat := memTopOf variant

/-- The integer limit of R219. -/
def rateLimit : Nat := if channels = 32 then 16128 else 8064

/-- The pin way size of R214. -/
def pinWay : Nat := if channels = 32 then 0x200000 else 0x100000

/-! ### The latency table of the first stepping (R293, R503) -/

/-- Entry ID, unit is ac, mask of kinds allowed, value. -/
def latencyTable : List (Nat × Bool × Nat × Nat) :=
  [(0x01, false, 7, 6), (0x02, true, 3, 9), (0x03, true, 3, 4), (0x04, false, 3, 14), (0x05, true, 3, 4), (0x06, true, 3, 8),
   (0x07, true, 3, 12), (0x08, false, 3, 2), (0x09, false, 3, 6), (0x0A, false, 3, 48), (0x0B, false, 3, 1300),
   (0x0C, false, 3, 5200), (0x0D, false, 3, 520)]

def latB : Nat := 6
def latD : Nat := 9
def latF : Nat := 4
def latG : Nat := 14
def latLv : Nat := 4
def latLred : Nat := 8
def latLt : Nat := 12
def latP : Nat := 2
def latQr : Nat := 6
def latLc : Nat := 48
def latLm : Nat := 1300
def latLw : Nat := 5200
def latLs : Nat := 520

/-- fc per microsecond (R10). -/
def us : Nat := 1300

/-! ### Values the manual leaves to the part or to the outside: no body, so that no proof can see them -/

/-- Wairan's PCI-SIG vendor ID (R501: the manual does not restate it). -/
opaque pciVendor : BitVec 16
/-- Wairan's JEP106 code, 11 bits (R501). -/
opaque jep106 : BitVec 11
/-- Device serial number (R351: unique to each part): 64 bits, as PCIe's Device Serial Number capability has it (PRESUMED, notes/assumptions/77.md). -/
opaque serial : BitVec 64
/-- The serial number in a field of 16 bytes: then 0 (R352). -/
def serialField : BitVec 128 := serial.setWidth 128
/-- Version of the boot ROM (R351). -/
opaque bootRomVersion : BitVec 32
/-- Version of the courier firmware installed (R351). -/
opaque courierVersion : BitVec 32
/-- Version of the main firmware installed (R351). -/
opaque mainVersion : BitVec 32
/-- Which error fails a host read (R356): unsupported request, completer abort, poisoned completion or timeout. -/
opaque readError : Nat → Fin 4
/-- Where a failed host read failed, in bytes from its first one (R356). -/
opaque failOffset : Nat → Nat
/-- Digest of the installed package: 0 courier, 1 main (R472). -/
opaque packageDigest : Nat → BitVec 512
/-- key_id of a fused firmware-signing key (R454). -/
opaque firmwareKeyId : Nat → BitVec 128
/-- key_id of a fused factory key (R454). -/
opaque factoryKeyId : Nat → BitVec 128
/-- ML-DSA-87 verification (FIPS 204) of a signature over a digest under the key a key_id names (R289). -/
opaque mlDsaVerify : BitVec 128 → BitVec 512 → List (BitVec 8) → Bool
/-- ML-DSA-87 signing with the identity key (R472): 4,627 bytes. -/
opaque mlDsaSign : BitVec 128 → BitVec 512 → List (BitVec 8)
/-- The public key of an identity key pair, 2,592 bytes, by its key_id (R473). -/
opaque publicKey : BitVec 128 → List (BitVec 8)
/-- Fresh entropy (R466, R460): the n-th draw. -/
opaque entropy : Nat → BitVec 256
/-- The device secret, burned from on-die entropy at MANUFACTURE (R454). -/
opaque deviceSecret : BitVec 256
/-- The key_id of the identity key pair generated at the n-th draw (R460). -/
opaque identityKey : Nat → BitVec 128
/-- Check bits of a 64-bit word of LPDDR5 over the word and bits [35:3] of its address (R197): the code itself is not stated (notes/assumptions/73.md). -/
opaque secded : Nat → Nat → BitVec 8
/-- Whether a request hits an open row of its bank (R217: the manual gives no bank layout): channel, DPA, draw. -/
opaque rowHit : Nat → Nat → Nat → Bool
/-- Whether a bank can accept an access in a burst slot (R217): channel, DPA, draw. -/
opaque bankReady : Nat → Nat → Nat → Bool
/-- The LINEAR11 exponent that the part uses when it answers a PMBus telemetry read (R379 fixes none). -/
opaque readExponent : Nat → BitVec 5
/-- A 32-bit value the manual leaves open, by draw. -/
opaque free32 : Nat → BitVec 32

/-! ### PMBus limits (R379), in LINEAR11: exponent [15:11], mantissa [10:0], both two's complement -/

/-- The LINEAR11 word of a whole number below 1,024, with exponent 0. DESIGN CHOICE of the exponent (notes/assumptions/9.md). -/
def linear11 (n : Nat) : BitVec 16 := BitVec.ofNat 16 (n % 1024)

/-- Default, least and greatest value of a limit command, in the unit of R379 (°C, V, A, W). -/
def limitRange (code : Nat) : Nat × Nat × Nat :=
  match code with
  | 0x4F => (125, 90, 125)
  | 0x51 => (110, 80, 120)
  | 0x55 => (62, 52, 62)
  | 0x57 => (60, 50, 61)
  | 0x58 => (41, 39, 48)
  | 0x59 => (38, 36, 40)
  | 0x5B => (16, 2, 16)
  | 0x5D => (15, 2, 15)
  | 0x6B => (560, 100, 600)
  | _ => (0, 0, 0)

def limitDefault (code : Nat) : BitVec 16 := linear11 (limitRange code).1

end Config
end Sys2Proof
end

