-- ==== Sys2Proof/Machine/State.lean ====
section
/-! DEFINITION. The state of the block: every register, store, queue, mode and pin that spec/ gives it, as plain data; the reasons a step can
stop; and the state right after reset. Sparse stores are association lists; what is not listed reads as the default its access operation names. -/

namespace Sys2Proof.Machine

/-- An association list; the access operations stand in Machine/Assoc.lean. -/
abbrev AMap (κ ν : Type) := List (κ × ν)

/-- A byte memory in canonical form: rising addresses, no entry equal to 0, the value an unlisted byte reads as (R388 phase 4 and R390 write zeros). -/
abbrev Mem := List Host.Cell

/-! ### Outputs -/

/-- What the part sends to the outside, in order. -/
inductive Output where
  /-- a posted write to host memory (R354, R510) -/
  | hostWrite (addr : Nat) (bytes : List Byte)
  /-- an MSI-X message (R372) -/
  | msix (vector addr : Nat) (data : Dword)
  /-- a 66-bit block sequence element of stream s's egress lanes: control (true) or data, and its payload (R310, R318) -/
  | egressBlock (stream : Nat) (control : Bool) (payload : BitVec 64)
  /-- a codeword payload sent by a span port (R265) -/
  | spanCodeword (port : Nat) (payload : BitVec 5140)
  deriving DecidableEq, Repr

/-! ### Host interface (spec/12_host_commands.md) -/

inductive RingState where
  | disabled | enabled | draining | error
  deriving DecidableEq, Repr

/-- A ring pair (R337 to R341, R359). -/
structure Ring where
  state : RingState := .disabled
  /-- the enable bit of HIF_RING_CFG_r as it reads -/
  enable : Bool := false
  sqLo : Dword := 0
  sqHi : Dword := 0
  cqLo : Dword := 0
  cqHi : Dword := 0
  sqLog2 : Nat := 0
  cqLog2 : Nat := 0
  maxPriority : Nat := 0
  privileged : Bool := false
  cause : Nat := 0
  sqHead : Nat := 0
  sqTail : Nat := 0
  cqHead : Nat := 0
  cqTail : Nat := 0
  /-- completion entries reserved by fetched packets whose final completion is not written (R339) -/
  reserved : Nat := 0
  /-- fetched packets whose final completion is not written (R340 DRAINING, R348 fence) -/
  open_ : Nat := 0
  deriving DecidableEq, Repr

/-- A packet in the intake FIFO (R348). -/
structure Intake where
  ring : Nat
  pkt : Packet
  deriving DecidableEq, Repr

/-- What a pending command waits for, with the data its landing needs. -/
inductive PendKind where
  | attest (addr : Nat) (data : List Byte)
  | imageLoad
  | imageVerify
  | hoistMirror (hoist : Nat)
  | hoistSwitch
  | streamClose (stream : Nat) (abort : Bool)
  | streamMode (stream : Nat)
  | descArm (stream : Nat)
  | descDisarm (stream : Nat)
  | scaleSet (site : Site)
  | proveUnit (site : Site)
  | window
  | windowGrant
  | calibrate (channel : Nat)
  | calibrateAll
  | unitDisable (site : Site)
  | haltAt
  | snapshotCapture
  | snapshotCopy
  | traceStop
  | traceCopy
  | spanOpen (port : Nat)
  | spanClose (port : Nat)
  | spanMeasure (port : Nat)
  | fwStage
  | fwSwitch
  | wipeFree
  | powerOp (sectors : Nat)
  | powerSleep (sectors : Nat)
  | powerWake (sectors : Nat)
  deriving DecidableEq, Repr

/-- A pending command (R344): its packet's ring, tag and opcode, and what it waits for. `discarded` when a reset of the host interface dropped its completion (R357). -/
structure PendCmd where
  id : Nat
  ring : Nat
  tag : Nat
  opcode : Nat
  priority : Nat
  acked : Bool
  kind : PendKind
  takenAt : Fc
  discarded : Bool := false
  deriving DecidableEq, Repr

/-- A completion held while Bus Master Enable is 0 (R358). -/
structure HeldCompletion where
  ring : Nat
  tag : Nat
  status : Nat
  opcode : Nat
  detail : Dword
  time : Fc
  interim : Bool
  /-- the packet's priority field, for the trace record of the write (R436) -/
  priority : Nat
  /-- completion entries its writing releases (R339) -/
  release : Nat
  /-- host memory writes of the command's data, held with it (R358) -/
  writes : List (Nat × List Byte) := []
  /-- the completion itself is discarded, its data is not (R341, R357) -/
  discarded : Bool := false
  deriving DecidableEq, Repr

/-- An MSI-X table entry (R335): address, data, vector control; all registers of the PCIe specification. -/
structure MsixEntry where
  addrLo : Dword := 0
  addrHi : Dword := 0
  data : Dword := 0
  masked : Bool := true
  deriving DecidableEq, Repr

/-- The errors that AER reports, and the classes under which it reports them (R333). -/
inductive PcieError where
  | receiver | badTlp | badDllp | replayRollover | replayTimeout
  | poisonedTlp | completionTimeout | completerAbort | unexpectedCompletion | unsupportedRequest
  | dataLinkProtocol | malformedTlp | receiverOverflow | flowControl | surpriseDown
  deriving DecidableEq, Repr

inductive AerClass where
  | correctable | nonFatal | fatal
  deriving DecidableEq, Repr

/-- AER's status: the errors reported in each class. -/
structure Aer where
  correctable : List PcieError := []
  nonFatal : List PcieError := []
  fatal : List PcieError := []
  deriving DecidableEq, Repr

/-- What the host programs in the configuration space (R332, R335): bases of BAR0 and BAR2, payload and read request sizes in bytes, ASPM L1, the
completion timeout range and its disable bit. Reset values PRESUMED (notes/assumptions/77.md). -/
structure PciConfig where
  bar0 : Nat := 0
  bar2 : Nat := 0
  maxPayload : Nat := 128
  maxRead : Nat := 512
  aspmL1 : Bool := false
  timeoutRange : Nat := 0
  timeoutOff : Bool := false
  deriving DecidableEq, Repr

structure Hif where
  fwStage : Nat := 0
  rings : List Ring := List.replicate 16 {}
  intake : List Intake := []
  pendings : List PendCmd := []
  nextPend : Nat := 0
  heldCompletions : List HeldCompletion := []
  /-- the ring the fetcher visited last (R348) -/
  lastVisited : Nat := 15
  busMaster : Bool := false
  d3hot : Bool := false
  aer : Aer := {}
  pci : PciConfig := {}
  linkUp : Bool := false
  pcieHeld : Bool := true
  functionMask : Bool := false
  msix : List MsixEntry := List.replicate 64 {}
  pba : List Bool := List.replicate 64 false
  /-- the value the last register read returned, and its width in bytes -/
  readData : Nat := 0
  readSize : Nat := 4
  /-- set from a class 3 record until device reset: the part fetches no further commands (R408) -/
  fetchStopped : Bool := false
  deriving DecidableEq, Repr

/-! ### Event controller (spec/13_events.md) -/

/-- A record as it stands in a log: event record or fault record (R365, R366). `seq` is taken when the source fires (R367). -/
structure LogRecord where
  source : Nat
  fault : Bool
  seq : Nat
  code : Nat
  cls : Nat
  stream : Option Nat
  site : Site
  frame : Dword
  time : Fc
  detail0 : Dword
  detail1 : Dword
  deriving DecidableEq, Repr

structure EvtLog where
  baseLo : Dword := 0
  baseHi : Dword := 0
  enabled : Bool := false
  sizeLog2 : Nat := 0
  head : Nat := 0
  tail : Nat := 0
  lost : Nat := 0
  seq : Nat := 0
  held : List LogRecord := []
  /-- records lost since the last gap record and the time of the first of them (R367) -/
  gapLost : Nat := 0
  gapTime : Fc := 0
  deriving DecidableEq, Repr

structure EvtSource where
  vector : Nat
  fast : Bool
  irqEnable : Bool := true
  pending : Bool := false
  fastPending : Bool := false
  count : Nat := 0
  /-- the last fc in which the source fired, with the firings of that fc, and whether its pending bit stood before them (R371) -/
  firedAt : Fc := 0
  firedIn : Nat := 0
  stoodBefore : Bool := false
  /-- the vector and the class under which it last fired (R362) -/
  firedVector : Nat := 0
  firedFast : Bool := false
  deriving DecidableEq, Repr

structure EvtVector where
  countThr : Nat := 1
  time : Nat := 0
  count : Nat := 0
  /-- the fc in which the moderation timer started, while it runs (R369) -/
  timerFrom : Option Fc := none
  idleArmed : Bool := false
  /-- the fc of its last firing, with the firings of that fc and the messages they have sent (R370) -/
  firedAt : Fc := 0
  firedIn : Nat := 0
  sentIn : Nat := 0
  /-- the held record (log, seq) behind which its message goes: none when some counted firing has its write behind it (R373) -/
  waits : Option (Bool × Nat) := none
  deriving DecidableEq, Repr

/-- The EVT_SRC_CFG_n reset values of R375. -/
def EvtSource.resetOf (n : Nat) : EvtSource := { vector := n, fast := n == 0x13 }

structure Evt where
  normal : EvtLog := {}
  fastLog : EvtLog := {}
  sources : List EvtSource := (List.range 64).map EvtSource.resetOf
  vectors : List EvtVector := List.replicate 64 {}
  fastLast : List Dword := List.replicate 16 0
  /-- messages that wait for a held record to be written: vector, log and seq (R368, R370, R373) -/
  waiting : List (Nat × Bool × Nat) := []
  /-- for the BAR0 offset of an RC field, the fc of its last update and the value ahead of that fc's updates (R15, R505) -/
  rcAt : AMap Nat (Fc × Nat) := []
  deriving DecidableEq, Repr

/-! ### Hoists, images and the halyard-timed actions (spec/02, 09, 10, 15) -/

inductive HoistState where
  | free | loading | loaded | armed | active | mirror | reloading
  deriving DecidableEq, Repr

structure Hoist where
  state : HoistState := .free
  /-- the state before RELOADING, to which the rewrite returns (R69, R76) -/
  prior : HoistState := .free
  image : Option Nat := none
  section_ : Nat := 0
  /-- configuration words by unit: site word (sub 0; memory port slots with sub = slot) and dwords; a unit not listed has every dword 0 (R288) -/
  words : AMap Site (List Dword) := []
  /-- boundary pad (R296) -/
  pad : Nat := 0
  /-- units that hold an uncorrectable dword: the site and the dword index (R76, R512) -/
  damaged : List (Site × Nat) := []
  deriving DecidableEq, Repr

/-- A scheduled host switch (R75). -/
structure HostSwitch where
  target : Nat
  boundary : Bool
  time : Fc
  deriving DecidableEq, Repr

/-- A scheduled automatic switch to the mirror (R76): the fc at which it lands and the damaged unit's hoist. -/
structure AutoSwitch where
  time : Fc
  mirror : Nat
  damagedHoist : Nat
  /-- damaged elements whose record tells, once it is known, how they were recovered, with the fc of detection (R78) -/
  records : List (Site × Fc) := []
  /-- later records of class 0, which wait behind those so that the records of their source stand in the order of their times (R373) -/
  behind : List LogRecord := []
  deriving DecidableEq, Repr

/-- A hoist switch that has landed while the part stands still (R75, R422): its effect on what the elements hold is applied when they move again, from
the hoists as they stood ahead of the landing. -/
structure LateSwitch where
  hoists : List Hoist
  active : Option Nat
  target : Nat
  boundary : Bool
  deriving DecidableEq, Repr

/-- A resident image (R353) as firmware keeps it beside the image region. -/
structure Image where
  handle : Nat
  keyId : BitVec 128
  digest : BitVec 512
  spanKey : Nat
  sectioned : Bool
  mirrored : Bool
  sections : Nat
  batch : Nat
  sectorMask : Nat
  spanMask : Nat
  streamMask : Nat
  portMask : Nat
  fileLength : Nat
  imageBase : Nat
  imageSize : Nat
  mirrorBase : Nat
  spillBase : Nat
  spillSize : Nat
  elasticBase : Nat
  elasticSize : Nat
  /-- per network section: dwords by unit, after relocation -/
  config : List (AMap Site (List Dword)) := []
  /-- per network section: scale entries, tile site and entry index -/
  scales : List (AMap (Site × Nat) Dword) := []
  /-- per network section: constant entries, vector tile site and entry, 64 dwords -/
  constants : List (AMap (Site × Nat) (List Dword)) := []
  /-- resident weight ranges: network section (255 for image-wide), tile site, first fetch beat, region offset of the data, lines -/
  weights : List (Nat × Site × Nat × Nat × Nat) := []
  /-- ranges of the WEIGHTS records that name a tile and are not resident, as above -/
  fetched : List (Nat × Site × Nat × Nat × Nat) := []
  /-- chunks of the file: type, network section, file offset, bytes -/
  chunksAt : List (Nat × Nat × Nat × Nat) := []
  /-- programs by image program number: instructions of four dwords -/
  programs : AMap Nat (List (List Dword)) := []
  pins : List (Nat × Nat) := []
  drivers : List (List (Site × Site × Nat)) := []
  /-- region offset of the desc_index word of each queue that the file sets, by network section and slot site (R291) -/
  indexAt : List (Nat × Site × Nat) := []
  dwells : List Nat := []
  pad : Nat := 0
  deriving DecidableEq, Repr

/-- A check that an image fails (R299, R303): the status, the check code, the record's site and detail words. -/
structure LoadFail where
  status : Nat
  code : Nat
  site : Site := 0xFFFFFFFF
  d0 : Nat := 0
  d1 : Nat := 0
  deriving DecidableEq, Repr

/-- An IMAGE_LOAD or IMAGE_VERIFY in progress (R298, R300, R301): the image, the section, the hoist chosen; for a verify, the check that failed. -/
structure LoadJob where
  verify : Bool
  sectionForm : Bool
  image : Image
  section_ : Nat
  hoist : Nat
  fail : Option LoadFail := none
  deriving DecidableEq, Repr

inductive HaltState where
  | running | pending | halted | resuming
  deriving DecidableEq, Repr

inductive ProofState where
  | none | wait | proof | restore
  deriving DecidableEq, Repr

/-- The rolling proof (R409 to R417, R432). -/
structure Proof where
  enable : Bool := true
  spacingUs : Nat := 0x03E8
  maxWaitMs : Nat := 0x64
  state : ProofState := .none
  site : Site := 0xFFFFFFFF
  /-- the last unit proven (R432) -/
  lastSite : Site := 0xFFFFFFFF
  rounds : Nat := 0
  deferred : Nat := 0
  /-- 1 after the first BIST run failed -/
  repeated : Bool := false
  /-- the fc in which the unit was armed, and the end of the last proof -/
  armedAt : Fc := 0
  lastEnd : Fc := 0
  /-- a SELF_TEST op 0 that goes ahead of the round (R417): its site and force bit -/
  forced : Option (Site × Bool) := none
  /-- whether the proof in progress is that of a SELF_TEST op 0 -/
  serving : Bool := false
  /-- the unit that the round visited last -/
  roundAt : Site := 0xFFFFFFFF
  deriving DecidableEq, Repr

/-- The full-array window (R418). -/
inductive Window where
  | none
  | requested
  | scheduled (time : Fc)
  | running (since : Fc)
  deriving DecidableEq, Repr

structure Hal where
  hoists : List Hoist := List.replicate 4 {}
  active : Option Nat := none
  hostSwitch : Option HostSwitch := none
  autoSwitch : Option AutoSwitch := none
  /-- switches that landed in the halt, in order (R422) -/
  late : List LateSwitch := []
  images : List Image := []
  load : Option LoadJob := none
  /-- the hoist a HOIST_ARM role 1 copy is being written into (R70) -/
  mirrorCopy : Option Nat := none
  /-- the image loaded most recently (R268) -/
  lastImage : Option Nat := none
  halt : HaltState := .running
  haltTime : Fc := 0
  resumeTime : Fc := 0
  proof : Proof := {}
  window : Window := .none
  timeHiLatch : Dword := 0
  switchHiLatch : Dword := 0
  haltHiLatch : Dword := 0
  /-- every element stopped after a class 3 record (R408) -/
  stopped : Bool := false
  deriving DecidableEq, Repr

/-! ### Fabric (spec/02_fabric_hoists.md) -/

/-- A beat waiting at an output port: not before its fc; for a beat of a scoreboard entry that entry, whether it is the entry's last, which
releases it (R107), and the lanes whose saturation counts as it leaves (R89). -/
structure OutBeat where
  beat : Beat
  notBefore : Fc := 0
  entry : Option Nat := none
  last : Bool := false
  sats : Nat := 0
  deriving DecidableEq, Repr

/-- A box output on a beat's way (R47, R49): the fc in which its register holds the beat and, where its segment crosses a sector boundary, that
segment and the fc in which the beat leaves the boundary FIFO behind it. -/
structure Hop where
  box : Site
  out : Nat
  at_ : Fc
  fifo : Option (Site × Fc) := none
  deriving DecidableEq, Repr

/-- A beat on its way to one consumer of a link: the fc in which it was sent, the outputs it passes and the fc in which it arrives. Copies of one
sending have one `sent`. `lost`: the box at whose damaged output it has been lost (R76). -/
structure Flight where
  consumer : EndPoint
  beat : Beat
  sent : Fc := 0
  hops : List Hop := []
  arrives : Fc
  lost : Option Site := none
  deriving DecidableEq, Repr

/-- A credit on its way back along one branch of a link (R48, R61). -/
structure CreditFlight where
  consumer : EndPoint
  arrives : Fc
  deriving DecidableEq, Repr

/-- A link, kept by its producer (R60 to R65). -/
structure Link where
  /-- the free-space semaphore -/
  free : Nat
  depth : Nat
  flights : List Flight := []
  credits : List CreditFlight := []
  /-- credits received from each branch and not yet matched by every other branch (R48) -/
  branch : AMap EndPoint Nat := []
  lastSend : Option Fc := none
  deriving DecidableEq, Repr

/-- Contention history of a segment (R81 to R83): the fc in which its drivers were mended, none while they are damaged. -/
structure Contention where
  recoveredAt : Option Fc := none
  /-- links through the segment stay stopped (code 0x0211) -/
  dead : Bool := false
  deriving DecidableEq, Repr

/-- What later tack lines of a frame repeat of its open one (R172). -/
structure TackInfo where
  arrival : Nat := 0
  first : Nat := 0
  deriving DecidableEq, Repr

structure Fabric where
  links : AMap EndPoint Link := []
  /-- consumer buffers; the filled semaphore of an input is the length of its list -/
  inBufs : AMap EndPoint (List Beat) := []
  outQs : AMap EndPoint (List OutBeat) := []
  /-- frame ID, arrival and first tag of the last tack line received, by input and stream (R59) -/
  lastTack : AMap (EndPoint × Nat) (Nat × TackInfo) := []
  /-- frame of the last tack line that the consumer removed from an input's buffer, and that left an output's queue, by stream -/
  headTack : AMap (EndPoint × Nat) Nat := []
  /-- arrival and first tag of the last tack line that the consumer removed, with its frame (R172) -/
  headInfo : AMap (EndPoint × Nat) (Nat × TackInfo) := []
  outTack : AMap (EndPoint × Nat) Nat := []
  /-- frames of a stream whose beats an input still discards as they arrive -/
  discarding : AMap (EndPoint × Nat) (List Nat) := []
  /-- frames for which an output has already sent the open tack line and the void tack line (R173) -/
  openSent : AMap (EndPoint × Nat) Nat := []
  voidSent : AMap (EndPoint × Nat) Nat := []
  contention : AMap Site Contention := []
  /-- damaged dwords of switch boxes of the active hoist, with the fc since which their outputs carry no-token (R76) -/
  deadDwords : List (Site × Nat × Fc) := []
  /-- frames that a damaged or lost box has cost: the box, the stream and the frame, each recorded once (R402) -/
  lostFrames : List (Site × Nat × Nat) := []
  /-- per boundary FIFO, by the box output ahead of it: the read pointer as of the last beat taken off a link (R168) -/
  fifoRp : AMap (Site × Nat) Nat := []
  /-- units that hold their buffers and fire nothing, with the reason: a configuration, weight, constant or store rewrite (R76, R96, R166) -/
  held : List Site := []
  deriving DecidableEq, Repr

/-- Unit states of R111. -/
inductive UnitState where
  | enabled | draining | disabled | lost
  deriving DecidableEq, Repr

/-- A unit's place in R111: its state, the drain timeout in fc and the start of the drain, and whether a drain waits for a proof to end (R420). -/
structure UnitCtl where
  state : UnitState := .enabled
  drainFrom : Fc := 0
  drainLimit : Fc := 0
  disableAfterProof : Bool := false
  deriving DecidableEq, Repr

/-! ### Tiles (spec/03 to 05) -/

/-- A bound slot (R102): the stream and frame of the tack line, its arrival field, the counters and the place in the operation list. -/
structure Slot where
  stream : Nat
  frame : Nat
  tack : TackInfo := {}
  bank : Nat := 0
  c0 : Nat := 0
  c1 : Nat := 0
  c2 : Nat := 0
  c3 : Nat := 0
  opIdx : Nat := 0
  nestDone : Bool := false
  lastTag : Nat := 0
  /-- WIDE (R130) -/
  wide : Bool := false
  /-- numbering of lines and rows (R118): the next order index, the row of the next line, and ALOADs issued and not yet fully numbered (entry id, done, lines written) -/
  nextOrd : Nat := 0
  nextRow : Nat := 0
  loads : List (Nat × Bool × List Nat) := []
  /-- per order index: clipped lanes of the line, none while its exponent is not fixed; and the lines that wait for it, by order index: row and data,
  which the count needs although a RELEASE may have cleared the line (R128) -/
  clips : List (Option Nat) := []
  uncounted : AMap Nat (Nat × BitVec 512) := []
  outlierOrds : List Nat := []
  /-- statistics of the row being numbered: lo, hi as BF16 patterns when some lane took part (R121) -/
  rowLo : Option (BitVec 16) := none
  rowHi : Option (BitVec 16) := none
  /-- history store records: channel, group, row minimum and maximum (R121) -/
  history : List (Nat × Nat × BitVec 16 × BitVec 16) := []
  /-- groups whose exponent is fixed: group, e, zero points by channel (R122) -/
  groups : List (Nat × Int × List Int) := []
  deriving DecidableEq, Repr

/-- A scoreboard entry (R107, R146): the slot, the operation, the addresses taken at issue (R101) and the progress of a load or drain. -/
structure Issued where
  id : Nat
  slot : Nat
  stream : Nat := 0
  frame : Nat := 0
  index : Nat
  op : Dword
  a : Nat := 0
  b : Nat := 0
  d : Nat := 0
  f : Nat := 0
  c0 : Nat := 0
  c1 : Nat := 0
  c2 : Nat := 0
  c3 : Nat := 0
  clear : Bool := false
  /-- a MAC issued while its slot is WIDE (R130) -/
  wide : Bool := false
  /-- the tag that a DRAIN's beats carry (R104) -/
  tag : Nat := 0
  progress : Nat := 0
  /-- a DRAIN whose beats stand in the output queue; a FETCH that has been accepted -/
  fired : Bool := false
  /-- the fc since which it has been at the head of its class without firing (R109) -/
  headSince : Fc := 0
  deriving DecidableEq, Repr

/-- What the tile holds with a line whose group is fixed (R123): the group, the channel and whether it is an outlier channel, e and z[c]. -/
structure FixedLine where
  group : Nat
  chan : Nat
  outlier : Bool
  exp : Int
  zp : Int
  deriving DecidableEq, Repr

/-- A staging line (R97): 32 BF16 values, stream, tag, last_of_row, filled, its slot, and once numbered (R118) its order index and row. Slot 4 marks a line whose slot has unbound: what it held of its group then stands in fixed. -/
structure StagingLine where
  data : BitVec 512 := 0
  stream : Nat := 0
  tag : Nat := 0
  lastOfRow : Bool := false
  filled : Bool := false
  slot : Nat := 0
  ord : Option Nat := none
  row : Nat := 0
  fixed : Option FixedLine := none
  deriving DecidableEq, Repr

/-- A MAC of the replay log (R131): addresses as taken at issue. -/
structure LogMac where
  lines : List Nat
  unit : Nat
  deriving DecidableEq, Repr

/-- A wide MAC that has fired (R93): the BF16 lines it read, in channel order, zero for outlier lines, and its weight unit. The sums are formed
when the set drains, which is when the weight zero points are known (R115). -/
structure WideMac where
  lines : List (BitVec 512)
  weights : BitVec 256
  deriving DecidableEq, Repr

/-- An accumulator set (R89, R90): INT32 accumulators, or FP32 patterns in the float modes and the wide path. -/
structure AccSet where
  acc : List Dword := List.replicate 1024 0
  sat : List Bool := List.replicate 1024 false
  pos : List Int := List.replicate 32 0
  col : List Int := List.replicate 32 0
  zp : Int := 0
  /-- the exponent and group of the set's lines since the clearing MAC -/
  group : Option Nat := none
  exp : Int := 0
  /-- the set is computed in the wide path, with the wide MACs since the clear -/
  isWide : Bool := false
  wide : List WideMac := []
  anyNarrow : Bool := false
  log : List LogMac := []
  /-- staging lines read since the clear whose clip check the set has not passed (R133) -/
  lines : List Nat := []
  /-- one more than the latest order index read since the clear -/
  ordEnd : Nat := 0
  owner : Nat := 0
  checked : Bool := false
  /-- entries of the log whose wide MAC of a replay has not fired yet (R131, R133) -/
  todo : List LogMac := []
  /-- the RCLK cycle by which the last MAC into the set has written back, and that in which F ac have passed since it fired (R107) -/
  writtenBack : Nat := 0
  nextFire : Nat := 0
  deriving DecidableEq, Repr

inductive BankState where
  | live | spare | next | retired
  deriving DecidableEq, Repr

/-- One bank of a scale file (R116, R136). -/
structure ScaleBank where
  state : BankState
  entries : AMap Nat Dword := []
  deriving DecidableEq, Repr

/-- An outstanding FETCH of a tile (R208): its queue, its entry's slot, fetch-generator beat, count and beats written. -/
structure FetchRec where
  queue : Nat
  slot : Nat
  id : Nat
  frame : Nat
  first : Nat
  count : Nat
  /-- the count that was asked for: an error may cut `count` (R211) -/
  asked : Nat
  written : Nat := 0
  accepted : Bool := false
  number : Nat := 0
  /-- the DPA of each beat that the queue has sent, oldest first (R96) -/
  homes : List Nat := []
  deriving DecidableEq, Repr

/-- A fetch write that waits in the write buffer (R95): its fetch beat, the RCLK cycle in which it is due, and its FETCH. -/
structure FetchWrite where
  beat : Nat
  data : BitVec 512
  due : Nat
  queue : Nat
  id : Nat
  stream : Nat
  deriving DecidableEq, Repr

/-- A 4 KiB weight region being rewritten (R96): its number, the bank of the word, and the fc of detection. -/
structure Rewrite where
  region : Nat
  /-- the fetch beat of the word that was found damaged -/
  beat : Nat
  bank : Nat
  found : Fc
  deriving DecidableEq, Repr

structure MatrixTile where
  ctl : UnitCtl := {}
  slots : List (Option Slot) := List.replicate 4 none
  board : List Issued := []
  nextId : Nat := 0
  lastSlot : Nat := 3
  staging : AMap Nat StagingLine := []
  sets : AMap Nat AccSet := []
  side : AMap Nat (List Dword) := []
  /-- the RCLK cycle up to which the array and the side path are occupied (R87, R92, R93, R131), 8 to an fc -/
  arrayUntil : Nat := 0
  sideUntil : Nat := 0
  /-- sets that are replayed, in the order in which their clip checks failed (R131) -/
  replays : List Nat := []
  weights : Mem := []
  bank0 : ScaleBank := { state := .live }
  bank1 : ScaleBank := { state := .spare }
  /-- T and entries of a SCALE_SET whose bank is NEXT, and the T of the last bank that became LIVE (R136) -/
  nextTime : Fc := 0
  liveTime : Fc := 0
  fetches : List FetchRec := []
  /-- the write buffer of fetch beats; the RCLK cycle in which each group of four weight banks was last read (R94, R95) -/
  writeBuf : List FetchWrite := []
  reads : AMap Nat Nat := []
  /-- ranges of fetch beats written since the scrub pass began (first, count), the word that the scrubber reads next and the fc from which it may, and
  the DPA of each beat that was fetched at run time (R96) -/
  passWrites : List (Nat × Nat) := []
  scrubWord : Nat := 0
  scrubFc : Fc := 0
  homes : AMap Nat Nat := []
  /-- the RCLK cycle from which the sequencer may issue again, and the fc from which each input port may write staging again (R107) -/
  nextIssue : Nat := 0
  portFc : AMap Nat Fc := []
  /-- the regions being rewritten, and those whose rewrite stalls the tile (R96) -/
  rewriting : List Rewrite := []
  stalledOn : List Nat := []
  deriving DecidableEq, Repr

structure VectorTile where
  ctl : UnitCtl := {}
  slots : List (Option Slot) := List.replicate 4 none
  board : List Issued := []
  nextId : Nat := 0
  lastSlot : Nat := 3
  /-- the RCLK cycle from which the sequencer may issue again (R146) -/
  nextIssue : Nat := 0
  /-- scratch entries of 64 FP32 patterns (R142) -/
  scratch : AMap Nat (List Dword) := []
  /-- the RCLK cycle, 8 to an fc, in which an entry's last write is back, and those up to which lanes and table are occupied (R146) -/
  ready : AMap Nat Nat := []
  laneUntil : Nat := 0
  tableUntil : Nat := 0
  /-- the 4 KiB regions of the scratch being rewritten, by number: the tile stalls (R166) -/
  rewriting : List Nat := []
  deriving DecidableEq, Repr

/-- A bound slot of a window tile (R153 to R157): rows received per channel, the row being received, and the output position. -/
structure WinSlot where
  stream : Nat
  frame : Nat
  tack : TackInfo := {}
  lastTag : Nat := 0
  inRow : Nat := 0
  inChan : Nat := 0
  inBeat : Nat := 0
  outRow : Nat := 0
  /-- output rows whose beats have all left, and the fc since which no beat has been taken or has left (R109, R153) -/
  sentRows : Nat := 0
  since : Fc := 0
  /-- next quantization row of the output row being emitted -/
  outIdx : Nat := 0
  deriving DecidableEq, Repr

structure WindowTile where
  ctl : UnitCtl := {}
  slots : List (Option WinSlot) := List.replicate 4 none
  lastSlot : Nat := 3
  /-- frames whose slot has unbound, with input rows still to come (R156, R157) -/
  tails : List WinSlot := []
  /-- the fc from which the next beat may leave in the interleaved layout (R153) -/
  nextOut : Fc := 0
  /-- line-beats of 64 bytes (R151) -/
  lines : AMap Nat (BitVec 512) := []
  deriving DecidableEq, Repr

structure GlueBlock where
  ctl : UnitCtl := {}
  /-- flip-flops of the cells, those that are 1 (R160) -/
  flops : List Nat := []
  /-- the first fc that the block has not run in (R161) -/
  nextFc : Fc := 0
  /-- stream and frame of the last tack line that each input port took, with what it carried (R164) -/
  tacks : AMap Nat (Nat × Nat × TackInfo) := []
  /-- input ports that have taken a tack line since UNIT_DISABLE (R164) -/
  drained : List Nat := []
  /-- frames whose discard has been reported (code 0x0540) -/
  reported : List (Nat × Nat) := []
  deriving DecidableEq, Repr

/-! ### Steering (spec/06_tokens_steering.md) -/

/-- A beat in a skew queue, with the fc in which it entered (R179). -/
structure SkewBeat where
  beat : Beat
  entered : Fc
  frame : Nat := 0
  deriving DecidableEq, Repr

inductive SpillState where
  | direct | spilling
  deriving DecidableEq, Repr

/-- A skew queue (R167, R168, R187). -/
structure SkewQueue where
  wp : Nat := 0
  rp : Nat := 0
  beats : List SkewBeat := []
  /-- frame of the last tack line that entered -/
  tailFrame : Nat := 0
  spill : SpillState := .direct
  subWp : Nat := 0
  subRp : Nat := 0
  /-- frames of the beats from subRp to subWp; none for a beat that a discard has passed -/
  subFrames : List (Option Nat) := []
  /-- the open write run: beats not yet sent, and the fc of the last of them (R188) -/
  run : List Beat := []
  runAt : Fc := 0
  /-- entries reserved for the read outstanding -/
  reading : Option Nat := none
  /-- frame of the first beat of that read -/
  readFrame : Nat := 0
  /-- a read whose reservation a discard has freed is still to return, and is not taken (R187) -/
  voidRead : Bool := false
  /-- the fc of the last read of the queue (R169) -/
  lastRead : Option Fc := none
  /-- entries that a discard frees from fc dropAt, 8 an fc (R171) -/
  dropAt : Fc := 0
  dropN : Nat := 0
  deriving DecidableEq, Repr

/-- A pennant held unpaired (R183). -/
structure Pennant where
  port : Nat
  stream : Nat
  tag : Nat
  action : Nat
  mask : Nat
  count : Nat
  frame : Nat
  arrived : Fc
  deriving DecidableEq, Repr

/-- Turn position of a stream in a join, split or reorder (R181). -/
structure Turn where
  port : Nat := 0
  done : Nat := 0
  tag : Nat := 0
  frame : Nat := 0
  inFrame : Bool := false
  deriving DecidableEq, Repr

/-- A run of a route's data input, from its first beat's entry until its last beat has left: the beats that have entered, its pennant's action,
mask and count once paired, the fc of the pairing, and the beats sent (R183). -/
structure Run where
  port : Nat
  stream : Nat
  frame : Nat
  tag : Nat
  beats : Nat
  pen : Option (Nat × Nat × Nat) := none
  pairedAt : Fc := 0
  sent : Nat := 0
  /-- an unpaired run whose item a watchdog has cleared: nothing pairs with it any more (R190) -/
  cleared : Bool := false
  deriving DecidableEq, Repr

structure SteeringUnit where
  ctl : UnitCtl := {}
  queues : AMap Nat SkewQueue := []
  pennants : List Pennant := []
  runs : List Run := []
  turns : AMap Nat Turn := []
  lastQueue : Nat := 15
  /-- the fc since which no beat was sent while something is held (R190) -/
  idleSince : Fc := 0
  /-- current frame of each stream in the unit, and what its open tack line carried -/
  frames : AMap Nat Nat := []
  tacks : AMap Nat TackInfo := []
  /-- a read return being taken: its skew queue, the beats still to come, and the address of the next -/
  refill : Option (Nat × Nat × Nat) := none
  /-- addresses of returned beats that memory could not correct (R188) -/
  badLines : List Nat := []
  /-- the fc from which an input port may move its next beat (R178) -/
  portFc : AMap Nat Fc := []
  deriving DecidableEq, Repr

/-! ### Memory feed and descriptors (spec/07, 08) -/

inductive GenState where
  | idle | running | frameWait | done
  deriving DecidableEq, Repr

/-- A RUN in progress: the base, the dimensions it took, and how many addresses it has yielded (R238). -/
structure RunState where
  base : Int
  dims : List (Nat × Int)
  yielded : Nat
  deriving DecidableEq, Repr

/-- A descriptor generator (R236 to R240, R245). -/
structure Generator where
  state : GenState := .idle
  pc : Nat := 0
  bases : List Int := [0, 0, 0, 0]
  dims : List (Nat × Int) := [(0, 0), (0, 0), (0, 0), (0, 0)]
  lc : List Nat := [0, 0]
  active : List Bool := [false, false]
  run : Option RunState := none
  yielded : Nat := 0
  left : Nat := 0
  stalled : Bool := false
  deriving DecidableEq, Repr

/-- One entry of a read-side queue between rp and wp (R204). -/
structure QEntry where
  /-- the entry's number among the reads of the queue -/
  num : Nat
  dpa : Nat
  filled : Bool := false
  data : BitVec 512 := 0
  /-- the sideband of a spilled beat (R188) -/
  side : BitVec 32 := 0
  /-- the line was not readable -/
  bad : Bool := false
  /-- line index in the segment (R241) -/
  segLine : Nat := 0
  /-- the read hit the feed cache, and returns at `due` (R213) -/
  cached : Bool := false
  due : Fc := 0
  /-- the address was out of range: no read was issued for it (R199) -/
  range : Bool := false
  /-- line 0 of a segment whose frame has been given up while it waited, with the code -/
  dropCode : Option Nat := none
  deriving DecidableEq, Repr

/-- A beat that a STREAM_OUT or SPILL queue holds until it is written: its number, the address, the frame, and whether it still waits in the queue
behind a channel's full write buffer (R224). -/
structure WBeat where
  num : Nat
  addr : Nat
  beat : Beat
  frame : Nat
  waiting : Bool := false
  deriving DecidableEq, Repr

/-- A FETCH held by a FEED queue (R209). -/
structure Grant where
  tile : Site
  slot : Nat
  stream : Nat
  frame : Nat
  count : Nat
  left : Nat
  number : Nat
  discard : Bool := false
  /-- the fc in which a request reaches its queue (R209) -/
  due : Fc := 0
  deriving DecidableEq, Repr

/-- A spill read request held by a SPILL queue (R206). -/
structure SpillReq where
  site : Site
  queue : Nat
  stream : Nat
  count : Nat
  addr : Nat
  issued : Nat := 0
  sent : Nat := 0
  deriving DecidableEq, Repr

/-- A STREAM_OUT queue's place in its segment (R241, R242). -/
structure SegState where
  stream : Option Nat := none
  /-- DPA of line 0 of the open or last segment, the frame in it, its tack data, and the next line index -/
  line0 : Nat := 0
  frame : Nat := 0
  tack : BitVec 512 := 0
  next : Nat := 0
  open_ : Bool := false
  voided : Bool := false
  /-- kind of the segment being sent by a STREAM_IN queue: 0 none, 1 open, 2 void, 3 anything else -/
  sendKind : Nat := 0
  firstTag : Nat := 0
  deriving DecidableEq, Repr

/-- The void tack line still to be written over line 0 of a segment: its address, its frame, and the line as a beat (R242). -/
structure OwedLine where
  addr : Nat
  frame : Nat
  beat : Beat
  deriving DecidableEq, Repr

structure MemQueue where
  wp : Nat := 0
  rp : Nat := 0
  entries : List QEntry := []
  /-- reads reserved since the queue became active: the number of the next entry -/
  issued : Nat := 0
  /-- beats taken by a STREAM_OUT or SPILL queue and not yet written, and the number of the next -/
  beats : List WBeat := []
  taken : Nat := 0
  grants : List Grant := []
  requests : List SpillReq := []
  fetchOffers : List Grant := []
  nextFetch : Nat := 0
  /-- the regulator's counter at fc `regulatorAt` (R218) -/
  regulator : Nat := 0
  regulatorAt : Fc := 0
  gen : Generator := {}
  seg : SegState := {}
  /-- a write run being taken by a SPILL queue: address and beats left -/
  spillWrite : Option (Nat × Nat) := none
  /-- streams whose beats a SPILL queue discards up to their next tack line (R171) -/
  spillDrop : List Nat := []
  voidOwed : Option OwedLine := none
  /-- the mode of a queue that a cut switch has not kept, while its reads return: it is flushed then (R228) -/
  leaving : Option Nat := none
  /-- entries that a discard frees from fc dropAt, 8 an fc (R171) -/
  dropAt : Fc := 0
  dropN : Nat := 0
  /-- the fc of the last not-valid read (R207) -/
  missAt : Option Fc := none
  deriving DecidableEq, Repr

/-- A request in a channel's request queue (R216). -/
structure MemReq where
  queue : Nat
  entry : Nat
  dpa : Nat
  write : Option (BitVec 512)
  deadline : Nat
  background : Bool
  entered : Fc
  deriving DecidableEq, Repr

/-- Work of firmware and the trace engine that takes burst slots as requests of interval 0 (R217). -/
inductive JobKind where
  | load | copy | trace | traceCopy | snapshot | wipe
  deriving DecidableEq, Repr

/-- The lines of a range that such work reads or writes, and how many each channel has issued. -/
structure MemJob where
  kind : JobKind
  write : Bool
  base : Nat
  size : Nat
  entered : Fc
  issued : List Nat := List.replicate 32 0
  deriving DecidableEq, Repr

inductive ChanState where
  | serving | retraining | lost
  deriving DecidableEq, Repr

structure Channel where
  state : ChanState := .serving
  /-- waits its turn to retrain (R223) -/
  needsTraining : Bool := false
  secondWindow : Bool := false
  /-- oscillator value at the last training, and the last one read (R223) -/
  trained : Option Nat := none
  osc : Nat := 0
  requests : List MemReq := []
  /-- reads issued whose data has not returned: queue, entry, DPA -/
  inFlight : List (Nat × Nat × Nat) := []
  burstSlot : Nat := 0
  /-- a 16th burst slot has gone to a burst ahead of queue traffic, and the next decision stands for it (R217) -/
  owed : Bool := false
  /-- ECC blocks whose check lines are in the check buffer, most recent first, and whether each is still to be written back (R197) -/
  checkBuf : List (Nat × Bool) := []
  /-- ECC blocks patrolled since reset (R223) -/
  patrolled : Nat := 0
  refreshes : Nat := 0
  zqRuns : Nat := 0
  oscReads : Nat := 0
  deriving DecidableEq, Repr

structure CacheLine where
  line : Nat
  pinned : Bool := false
  used : Nat := 0
  deriving DecidableEq, Repr

/-- A descriptor program in the store (R234). -/
structure StoredProgram where
  dir : Nat
  first : Nat
  code : List (List Dword)
  hoists : List Nat
  image : Nat
  number : Nat
  deriving DecidableEq, Repr

structure Feed where
  lpddr : Mem := []
  poisoned : List Nat := []
  /-- sidebands of the beats that SPILL queues wrote, by DPA (notes/assumptions/14.md) -/
  spillSide : AMap Nat (BitVec 32) := []
  /-- image lines already reported unrecoverable (R226: 0x0704 at first detection) -/
  reported : List Nat := []
  channels : List Channel := List.replicate 32 {}
  cache : List CacheLine := []
  cacheClock : Nat := 0
  /-- pinned ranges with their hoists: region base DPA, bytes (R214) -/
  pins : List (Nat × Nat × List Nat) := []
  ports : AMap Site UnitCtl := []
  queues : AMap Nat MemQueue := []
  /-- the fc from which each memory port may issue its next read or write (R205) -/
  portNext : AMap Nat Fc := []
  jobs : List MemJob := []
  programs : List StoredProgram := []
  /-- wait edges: waiting stream, holding stream, port, formed at (R221) -/
  edges : List (Nat × Nat × Nat × Fc) := []
  driftThreshold : Nat := 0x10
  cycleWindow : Nat := 0x10
  /-- the channel that a CALIBRATE of every channel waits for (R416) -/
  calibrating : Option Nat := none
  patrolPasses : Nat := 0
  mirrorOffset : Nat := 0
  /-- store words being rewritten: program's dir (R253) -/
  rewriting : List Nat := []
  /-- a WIPE op 0 runs (R468) -/
  wipeRunning : Bool := false
  deriving DecidableEq, Repr

/-! ### Streams (spec/11_stream_lanes.md, 08) -/

inductive StreamState where
  | closed | courier | infer | dip | closing
  deriving DecidableEq, Repr

/-- One entry of the ingress buffer (R316): a beat or tack line with its frame and line, or 64 payload bytes of a courier frame. -/
structure BufEntry where
  frame : Nat
  line : Nat
  beat : Option Beat
  payload : BitVec 512 := 0
  bytes : Nat := 64
  released : Bool := false
  /-- a tack line of a frame that the ingress has given up: it takes no entry of the circular queue -/
  owed : Bool := false
  /-- the fc in which the entry is written (R168) -/
  entered : Fc := 0
  deriving DecidableEq, Repr

/-- A frame of a stream: from its FRAME_START, or from its open tack line at an egress fed over the span, until it has left on every path. -/
structure Frame where
  id : Nat
  arrival : Fc
  courier : Bool
  /-- arrived in DIP, and waits for infer (R322) -/
  dip : Bool := false
  /-- admitted to section 0 (R258) -/
  admitted : Bool := false
  /-- held at the dip (R323) -/
  held : Bool := false
  receiving : Bool := true
  /-- its open tack line has entered the fabric -/
  tackSent : Bool := false
  aborted : Bool := false
  voidCode : Nat := 0
  missed : Bool := false
  /-- its record has ended at the fabric attachment, or it is aborted there -/
  ended : Bool := false
  /-- the path is over for the frame, or not used -/
  egressDone : Bool := false
  hostDone : Bool := false
  /-- the received FRAME_START payload (R319) -/
  start : BitVec 64 := 0
  deriving DecidableEq, Repr

/-- The frame being received (R312, R313). -/
structure Reception where
  frame : Nat
  lineOpen : Bool := false
  /-- index of the open line, or of the next one -/
  line : Nat := 0
  lineBytes : List Byte := []
  /-- buffer entries made of the open line -/
  lineEntries : Nat := 0
  lineCrc : BitVec 32 := 0xFFFFFFFF
  frameCrc : BitVec 32 := 0xFFFFFFFF
  deriving DecidableEq, Repr

/-- A frame being sent by the egress (R318 to R321): the next line index, and the CRC registers of the open line, of the lines sent whole, and of
both together. -/
structure EgressRec where
  frame : Nat
  line : Nat := 1
  rowOpen : Bool := false
  lineCrc : BitVec 32 := 0xFFFFFFFF
  frameCrc : BitVec 32 := 0xFFFFFFFF
  runCrc : BitVec 32 := 0xFFFFFFFF
  /-- blocks sent since the FRAME_START stripe -/
  pos : Nat := 0
  deriving DecidableEq, Repr

/-- The record at the fabric attachment of the results (R320). `dead`: the rest of the frame's beats are discarded. -/
structure ResRec where
  frame : Nat
  arrival : Nat
  rows : Nat := 0
  ended : Bool := false
  dead : Bool := false
  deriving DecidableEq, Repr

inductive DescState where
  | idle | active | pending | exhausted
  deriving DecidableEq, Repr

/-- A host descriptor buffer (R250). -/
structure DescBuf where
  addr : Nat
  slotLog2 : Nat
  slots : Nat
  eventRecord : Bool
  eventBuffer : Bool
  deriving DecidableEq, Repr

/-- A result record being written to host memory (R247, R248). -/
structure HostRec where
  frame : Nat
  arrival : Nat
  slot : Nat
  written : Nat := 0
  lastWrite : Fc := 0
  truncated : Bool := false
  failed : Bool := false
  ended : Bool := false
  deriving DecidableEq, Repr

structure HostDesc where
  state : DescState := .idle
  buf : Option DescBuf := none
  heldBuf : Option DescBuf := none
  nextSlot : Nat := 0
  seq : Nat := 0
  record : Option HostRec := none
  disarming : Bool := false
  deriving DecidableEq, Repr

structure StreamCtx where
  state : StreamState := .closed
  lanesLog2 : Nat := 0
  path : Nat := 0
  realtime : Bool := false
  lateAction : Bool := false
  width : Nat := 1
  height : Nat := 1
  planes : Nat := 1
  format : Nat := 0
  interleaved : Bool := false
  recordRows : Nat := 1
  inScale : Dword := 0
  inOffset : Dword := 0
  budget : Nat := 0
  nextId : Nat := 0
  misses : Nat := 0
  /-- pending STREAM_MODE: target mode 0 courier, 1 infer, 2 dip, and T (R327) -/
  modePending : Option (Nat × Fc) := none
  closeHow : Option (Bool × Fc) := none
  closeAborted : Nat := 0
  buffer : List BufEntry := []
  /-- write pointer of the buffer; its read pointer is as far behind as it holds entries (R168) -/
  bufWp : Nat := 0
  /-- the fc from which the buffer takes its next write and gives its next read, one of each an fc (R168) -/
  nextWrite : Fc := 0
  nextRead : Fc := 0
  /-- entries that a discard frees from fc dropAt, 8 an fc (R171) -/
  dropAt : Fc := 0
  dropN : Nat := 0
  frames : List Frame := []
  reception : Option Reception := none
  egress : Option EgressRec := none
  res : Option ResRec := none
  /-- the beat at the head of the results' input has been counted, and the paths that have taken it -/
  headSeen : Bool := false
  headTaken : Nat := 0
  /-- stage fed by the stream is held by the rolling proof (R413) -/
  proofHold : Bool := false
  /-- frames admitted in this activation of section 0 (R258) -/
  batchCount : Nat := 0
  desc : HostDesc := {}
  deriving DecidableEq, Repr

structure Lanes where
  lock : List Bool := List.replicate 32 false
  hiBer : List Bool := List.replicate 32 false
  deriving DecidableEq, Repr

/-! ### Span (spec/09_sections_span.md) -/

inductive SpanState where
  | closed | training | measuring | up | closing | down
  deriving DecidableEq, Repr

/-- A codeword kept in the replay buffer (R269): its sequence number, payload and the fc of its last sending. -/
structure Kept where
  seq : Nat
  payload : BitVec 5140
  sentAt : Fc
  deriving DecidableEq, Repr

/-- A probe outstanding: its identifier, t1 and the fc it was sent (R275). -/
structure Probe where
  id : Nat
  t1 : Nat
  sentAt : Fc
  measure : Bool
  deriving DecidableEq, Repr

/-- A message waiting to be sent: kind, probe_id, word_a, word_b (R266). -/
structure SpanMsg where
  kind : Nat
  id : Nat
  a : Nat
  b : Nat
  deriving DecidableEq, Repr

/-- A span sub-port (R272). Its transmit buffer is the buffer of its fabric input. -/
structure SpanSub where
  share : Nat := 0
  credit : Nat := 0
  owed : Nat := 0
  /-- beats that the transmit side sends ahead of its buffer (R278), and the halt echo to be sent (R426) -/
  tx : List Beat := []
  echo : Option Beat := none
  /-- the receive share: each beat with whether it holds a place in the share -/
  rx : List (Beat × Bool) := []
  /-- beats sent since MEASURING -/
  sent : Nat := 0
  /-- frame and tack line fields of the last open tack line received, of the last one handed to the fabric, and of the last one sent, by stream -/
  rxTack : AMap Nat (Nat × TackInfo) := []
  fedTack : AMap Nat (Nat × TackInfo) := []
  /-- frames given up in the receive share of which beats may still come, by stream (R171, R276, R278) -/
  dropping : AMap Nat Nat := []
  txTack : AMap Nat (Nat × TackInfo) := []
  /-- the last tack line of a foreign epoch, by stream, and the frames that were aborted for such beats (R274) -/
  foreign : AMap Nat (Nat × TackInfo) := []
  foreignGone : List (Nat × Nat) := []
  /-- CLOSING: streams whose tack line has passed, and no more beats accepted (R279) -/
  passed : List Nat := []
  closed : Bool := false
  deriving DecidableEq, Repr

structure SpanPort where
  state : SpanState := .closed
  lock : List Bool := List.replicate 4 false
  epoch : Nat := 0
  measuring : Bool := false
  offset : Int := 0
  delay : Nat := 0
  spread : Nat := 0
  offsetHiLatch : Dword := 0
  subs : List SpanSub := List.replicate 4 {}
  lastSub : Nat := 3
  nextSeq : Nat := 0
  lastSeq : Nat := 0
  expected : Nat := 0
  accepted : Nat := 0xFFFF
  nak : Bool := false
  nakServed : Option Nat := none
  replay : List Kept := []
  /-- seqs to retransmit, in order -/
  resend : List Nat := []
  retries : Nat := 0
  retryAck : Option Nat := none
  msgs : List SpanMsg := []
  codewords : Nat := 0
  probes : List Probe := []
  nextProbe : Nat := 0
  probesLeft : Nat := 0
  pairs : List (Int × Int) := []
  drift : Nat := 0
  /-- blocks of 65,536 codewords for which a probe has been sent (R277) -/
  probeBlock : Nat := 0
  epochRaised : Bool := false
  switchedAt : Fc := 0
  openedAt : Fc := 0
  closingAt : Fc := 0
  /-- halt echoes received: sub-port, T, beats sent (R426) -/
  echoes : List (Nat × Nat × Nat) := []
  deriving DecidableEq, Repr

/-! ### Power, clocks, pins (spec/14, 18) -/

inductive SectorState where
  | off | waking | active | sleep
  deriving DecidableEq, Repr

inductive OpState where
  | steady | raising | lowering
  deriving DecidableEq, Repr

structure Sector where
  state : SectorState := .off
  op : OpState := .steady
  requested : Nat := 0
  actual : Nat := 0
  /-- floors set by thermal (cause 1), power cap (cause 3) and neighbour difference (cause 5); the floor is the slowest (R393) -/
  floorThermal : Nat := 0
  floorCap : Nat := 0
  floorNeighbour : Nat := 0
  cause : Nat := 0
  /-- cause of the change under way (event 0x0031) -/
  nextCause : Nat := 0
  /-- the divider the multiplexer is to switch to at the next switch point, and the decision's fc (R384) -/
  switchTo : Option Nat := none
  decidedAt : Fc := 0
  /-- VDD_Sk at the fc in which its slew began, that fc, and the voltage it slews to at 1 mV/µs, all in 1/1300 mV, one of which passes in an fc (R384) -/
  vdd : Nat := 1027000
  vddAt : Fc := 0
  vddGoal : Nat := 1027000
  groups : Nat := 0
  /-- the fc in which the first group wakes (R389) -/
  wokeAt : Fc := 0
  /-- waking from SLEEP: not wiped (R391) -/
  fromSleep : Bool := false
  temp : Option Int := none
  peak : Option Int := none
  /-- tj_peak has been read, and no sample has followed (R400, R14) -/
  peakRead : Bool := false
  hotSamples : Nat := 0
  coolSince : Option Fc := none
  /-- when the thermal floor last moved slower (R392) -/
  floorMovedAt : Option Fc := none
  /-- cooler neighbours for whose sake cause 5 holds steps, and since when none of them is more than 25 °C cooler (R387) -/
  coolers : List Nat := []
  neighbourCool : Option Fc := none
  deriving DecidableEq, Repr

/-- The VDD_Sk set point of a divider field (R383), in 1/1300 mV. -/
def vddPoint (d : Nat) : Nat := 1300 * (790 - 30 * min d 3)

/-- VDD_Sk at fc t (R384). -/
def vddNow (x : Sector) (t : Fc) : Nat :=
  if x.vdd ≤ x.vddGoal then min x.vddGoal (x.vdd + (t - x.vddAt)) else max x.vddGoal (x.vdd - (t - x.vddAt))

structure PmBus where
  writeProtect : BitVec 8 := 0
  otFault : BitVec 16 := Config.limitDefault 0x4F
  otWarn : BitVec 16 := Config.limitDefault 0x51
  vinOvFault : BitVec 16 := Config.limitDefault 0x55
  vinOvWarn : BitVec 16 := Config.limitDefault 0x57
  vinUvWarn : BitVec 16 := Config.limitDefault 0x58
  vinUvFault : BitVec 16 := Config.limitDefault 0x59
  iinOcFault : BitVec 16 := Config.limitDefault 0x5B
  iinOcWarn : BitVec 16 := Config.limitDefault 0x5D
  pinOpWarn : BitVec 16 := Config.limitDefault 0x6B
  statusInput : BitVec 8 := 0
  statusTemperature : BitVec 8 := 0
  statusCml : BitVec 8 := 0
  /-- the word the last read returned, none after a NACK -/
  reply : Option (BitVec 16) := none
  nack : Bool := false
  restarts : Nat := 0
  addr : BitVec 7 := 0x40
  up : Bool := true
  crossed : List WarnLimit := []
  deriving DecidableEq, Repr

/-- The rails of R380 that a part has: VDD and VSRAM of its sectors, the optical supply on a YB8-32S alone, and the others. -/
def fittedRails : List Nat :=
  List.range Config.sectors ++ (List.range Config.sectors).map (· + 8) ++ [16, 17] ++ (if Config.variant = .yb832S then [18] else []) ++ [19, 20, 21, 22]

structure Power where
  /-- the rails in regulation, in the order in which they started (R376, R380) -/
  rails : List Nat := fittedRails
  powerGood : Bool := true
  /-- staged-start phases ended, 0 to 7 (R388) -/
  phasesEnded : Nat := 0
  /-- the end of phase 1, from which the sectors wake (R389) -/
  wakeFrom : Fc := 0
  vin : Nat := 0
  iin : Nat := 0
  pin : Nat := 0
  stageTemp : Int := 0
  holdover : Bool := false
  sectors : List Sector := List.replicate 8 {}
  cap : Nat := 560
  threshold : Nat := 100
  hysteresis : Nat := 5
  capCoolSince : Option Fc := none
  capMovedAt : Option Fc := none
  floorSteps : Nat := 0
  /-- neighbour pairs, hotter and cooler, more than 30 °C apart, and since when (R387) -/
  neighbours : AMap (Nat × Nat) Fc := []
  sampledAt : Fc := 0
  shutdown : Option StageFault := none
  /-- since when the input has been within 40 V to 60 V, and the power stage below OT_WARN_LIMIT (R378) -/
  inputSince : Option Fc := none
  stageCool : Option Fc := none
  pmbus : PmBus := {}
  deriving DecidableEq, Repr

/-- TAP instructions (R486). -/
inductive TapInstr where
  | extest | sample | idcode | highz | clamp | extestPulse | extestTrain | bypass
  deriving DecidableEq, Repr

/-- The IDCODE register of R486: version, part number, manufacturer code, 1. -/
def idcodeWord : Dword :=
  BitVec.ofNat 32 (Config.stepping % 16 * 2 ^ 28 + Config.deviceId * 2 ^ 12 + Config.jep106.toNat * 2 + 1)

structure Pins where
  /-- PERST# asserted -/
  perst : Bool := true
  /-- FAULT# low since a class 3 record (R485) -/
  faultLatched : Bool := false
  tap : TapInstr := .idcode
  /-- what the selected identification or bypass register shifts out first (R486) -/
  tapData : Dword := idcodeWord
  /-- covered pins out of mission use (R487) -/
  pinsTaken : Bool := false
  deriving DecidableEq, Repr

/-! ### Management cores, root of trust (spec/15, 17) -/

/-- A firmware package as it stands in the flash (R457): the header fields and the outcome of the signature check of its bytes. -/
structure FwPkg where
  kind : Nat
  version : Dword
  securityVersion : Nat
  steppings : BitVec 16
  keyId : BitVec 128
  digest : BitVec 512
  intact : Bool
  deriving DecidableEq, Repr

inductive LifeState where
  | manufacture | provisioned | deployed | returned | scrapped
  deriving DecidableEq, Repr

inductive KeySlot where
  | empty
  | valid (keyId : BitVec 128)
  | revoked (keyId : BitVec 128)
  deriving DecidableEq, Repr

/-- A scheduled or running firmware swap (R429, R470). -/
structure Swap where
  time : Fc
  raiseFloor : Bool
  /-- 0 scheduled, 1 MC1 starting, 2 MC0 starting -/
  phase : Nat := 0
  since : Fc := 0
  deriving DecidableEq, Repr

structure Sec where
  life : LifeState := .manufacture
  cycle : Nat := 0
  floor : Nat := 0
  fwKeys : List (Option (BitVec 128)) := [some (Config.firmwareKeyId 0), none, none, none]
  fwRevoked : List Bool := List.replicate 4 false
  factoryKeys : List (BitVec 128) := [Config.factoryKeyId 0, Config.factoryKeyId 1]
  ownerKey : Option (BitVec 128) := none
  imageKeys : List KeySlot := List.replicate 8 .empty
  identity : Option (BitVec 128) := none
  certificate : Option (List Byte) := none
  courier0 : Option FwPkg := some (FwPkg.mk 0 (Config.courierVersion) 0 0xFFFF (Config.firmwareKeyId 0) (Config.packageDigest 0) true)
  courier1 : Option FwPkg := some (FwPkg.mk 0 (Config.courierVersion) 0 0xFFFF (Config.firmwareKeyId 0) (Config.packageDigest 0) true)
  slotA : Option FwPkg := some (FwPkg.mk 1 (Config.mainVersion) 0 0xFFFF (Config.firmwareKeyId 0) (Config.packageDigest 1) true)
  slotB : Option FwPkg := none
  committedB : Bool := false
  staged : Option FwPkg := none
  running : Option FwPkg := none
  courierRunning : Option FwPkg := none
  /-- packages being staged: read and verified, not yet written whole, oldest first (R469) -/
  staging : List FwPkg := []
  swap : Option Swap := none
  bootError : Bool := false
  fallback : Bool := false
  challenge : BitVec 256 := Config.entropy 0
  /-- the device secret in the fuses, under which the identity's private key is wrapped; no register or command reads it (R454) -/
  deviceSecret : BitVec 256 := Config.deviceSecret
  /-- an erase record outstanding: the state named (R464) -/
  erase : Option LifeState := none
  deriving DecidableEq, Repr

structure Mgmt where
  mc0Down : Bool := false
  mc1Down : Bool := false
  /-- fc in which each core's last restart began (R407) -/
  restarts : AMap Nat Fc := []
  /-- a device reset due at this fc (R390, R395, R464, R468) -/
  resetDue : Option Fc := none
  deriving DecidableEq, Repr

/-! ### Trace and counters (spec/16_observation.md) -/

structure TraceRec where
  time : Fc
  site : Site
  frame : Dword
  type : Nat
  stream : Option Nat
  buffer : Nat
  d0 : Dword
  d1 : Dword
  d2 : Dword
  deriving DecidableEq, Repr

inductive TraceState where
  | off | ready | running | post | stopped
  deriving DecidableEq, Repr

/-- A trace buffer (R437, R440): its records and the losses since its last gap record. -/
structure TraceBuf where
  recs : List TraceRec := []
  lost : Nat := 0
  lostTime : Fc := 0
  /-- the fc since which the buffer holds a single record, when it does (R438) -/
  aloneSince : Fc := 0
  deriving DecidableEq, Repr

/-- The configuration of TRACE_SET op 0 (R442). -/
structure TraceCfg where
  mode : Nat := 0
  postShare : Nat := 0
  privilege : Nat := 0
  triggerSrc : Nat := 0
  filtersUsed : Nat := 0
  groups : Nat := 0
  streams : Dword := 0
  filters : List (Dword × Dword) := []
  triggerType : Nat := 0
  triggerClass : Nat := 0
  deriving DecidableEq, Repr

structure Trace where
  state : TraceState := .off
  cfg : TraceCfg := {}
  units : Nat := 0
  base : Nat := 0
  wp : Nat := 0
  wrap : Bool := false
  stopReason : Nat := 0
  triggered : Bool := false
  trigTime : Fc := 0
  trigLine : Nat := 0
  /-- records written since the trigger record (R441) -/
  sinceTrigger : Nat := 0
  /-- a trigger record waits to be written next from the control buffer -/
  trigPending : Option TraceRec := none
  /-- the buffer of the record that fired the trigger (R443) -/
  trigBuf : Nat := 8
  /-- the fc from which the engine may write its next line: one line per 4 fc (R438) -/
  nextLine : Fc := 0
  lost : Nat := 0
  bufs : List TraceBuf := List.replicate 9 {}
  lastBuf : Nat := 8
  flushing : Bool := false
  trigHiLatch : Dword := 0
  /-- copies in progress, oldest first: address, length, host address, the fc of take -/
  copies : List (Nat × Nat × Nat × Fc) := []
  deriving DecidableEq, Repr

/-- A programmable counter (R449): dwords 3 to 10 of the last configure, the run bit. -/
structure ProgCounter where
  cfg : List Dword := List.replicate 8 0
  run : Bool := false
  deriving DecidableEq, Repr

/-- One view of a counter page (R446, R448). -/
structure PageView where
  sampledView : Bool := false
  sample : AMap Nat Nat := []
  sampleTime : Fc := 0
  timeHi : Dword := 0
  latches : AMap Nat Dword := []
  deriving DecidableEq, Repr

/-- What a happening counts for: a unit counter of a page (R447), or a programmable counter's event with what its filters look at (R450). -/
inductive Tally where
  | unit (page off amount : Nat)
  | event (ev : Nat) (site : Site) (stream : Option Nat) (addr cls : Nat) (priv : Bool)
  deriving DecidableEq, Repr

structure Counters where
  /-- counter values by page and offset, of the happenings ahead of fc `foldedTo` -/
  vals : AMap (Nat × Nat) Nat := []
  /-- happenings of fc `foldedTo` and later, oldest first: they count 64 fc later (R444) -/
  recent : List (Fc × Tally) := []
  foldedTo : Fc := 0
  /-- what each programmable counter got from the happenings of the last fc counted, which a clear in the same fc leaves (R444) -/
  newest : List Nat := []
  progs : List ProgCounter := List.replicate 64 {}
  bar0 : AMap Nat PageView := []
  bar2 : AMap Nat PageView := []
  /-- granted pages, with write_enable (R451) -/
  grants : AMap Nat Bool := []
  deriving DecidableEq, Repr

/-- SNAPSHOT (R427, R428). -/
structure Snapshot where
  region : Option (Nat × Nat) := none
  flags : Nat := 0
  /-- a capture waits for reads in flight and halt echoes -/
  capturing : Bool := false
  capturedAt : Fc := 0
  copy : Option (Nat × Nat × Nat) := none
  deriving DecidableEq, Repr

/-! ### The machine -/

structure State where
  /-- the halyard (R33) -/
  now : Fc
  out : List Output
  hif : Hif
  evt : Evt
  hal : Hal
  fabric : Fabric
  tiles : AMap Site MatrixTile
  vtiles : AMap Site VectorTile
  wtiles : AMap Site WindowTile
  glue : AMap Site GlueBlock
  steer : AMap Site SteeringUnit
  feed : Feed
  streams : List StreamCtx
  lanes : Lanes
  span : List SpanPort
  power : Power
  pins : Pins
  sec : Sec
  mgmt : Mgmt
  trace : Trace
  cnt : Counters
  snap : Snapshot
  /-- units LOST that keep no state of their own: switch boxes (R410) -/
  lostBoxes : List Site
  /-- the model's own counter for free values (DESIGN CHOICE, notes/assumptions/3.md) -/
  fresh : Nat
  /-- the commands that are waiting, first in, first out -/
  pending : List Instr
  deriving DecidableEq, Repr

/-- The reasons a command stops the machine. No meaning of this model raises one: every row of the table has an effect that the spec gives. Safe. -/
inductive Fault where
  /-- raised by nobody; kept so that the type has a name for a stop that a later mending may need. Safe. -/
  | unreachable
  deriving DecidableEq, Repr

/-- The reasons a command is refused. -/
inductive Refusal where
  /-- raised by exec's arm of a command whose meaning is not written yet. Safe. -/
  | notModelled (mnemonic : String)
  deriving DecidableEq, Repr

/-- The machine right after reset: power-good, halyard at 0, staged-start phase 0 in progress, every register at the reset value of its table. -/
def State.reset : State where
  now := 0
  out := []
  hif := {}
  evt := {}
  hal := {}
  fabric := {}
  tiles := []
  vtiles := []
  wtiles := []
  glue := []
  steer := []
  feed := {}
  streams := List.replicate 32 {}
  lanes := {}
  span := List.replicate 8 {}
  power := {}
  pins := {}
  sec := {}
  mgmt := {}
  trace := {}
  cnt := {}
  snap := {}
  lostBoxes := []
  fresh := 1
  pending := []

end Sys2Proof.Machine
end

