-- ==== Sys2Proof/Machine/Assoc.lean ====
section
/-! DEFINITION. Access to the stores: association lists, lists by index, byte memories in canonical form, and little-endian bytes (spec/00_scope.md R9). -/

namespace Sys2Proof.Machine

/-! ### Association lists -/

def amGet {κ ν : Type} [DecidableEq κ] (m : AMap κ ν) (k : κ) : Option ν :=
  (m.find? (fun p => decide (p.1 = k))).map Prod.snd

def amGetD {κ ν : Type} [DecidableEq κ] (m : AMap κ ν) (k : κ) (d : ν) : ν := (amGet m k).getD d

def amErase {κ ν : Type} [DecidableEq κ] (m : AMap κ ν) (k : κ) : AMap κ ν :=
  m.filter (fun p => decide (p.1 ≠ k))

def amSet {κ ν : Type} [DecidableEq κ] (m : AMap κ ν) (k : κ) (v : ν) : AMap κ ν := (k, v) :: amErase m k

/-- Replace the value at k by f of it, d when k is not listed. -/
def amMod {κ ν : Type} [DecidableEq κ] (m : AMap κ ν) (k : κ) (d : ν) (f : ν → ν) : AMap κ ν := amSet m k (f (amGetD m k d))

def amKeys {κ ν : Type} (m : AMap κ ν) : List κ := m.map Prod.fst

/-- The same function on every listed value. -/
def amMap {κ ν : Type} (m : AMap κ ν) (f : κ → ν → ν) : AMap κ ν := m.map (fun p => (p.1, f p.1 p.2))

/-! ### Lists by index -/

def lget {α : Type} (l : List α) (i : Nat) (d : α) : α := l.getD i d

def lmod {α : Type} (l : List α) (i : Nat) (f : α → α) : List α :=
  match l[i]? with
  | some x => l.set i (f x)
  | none => l

/-- Insertion by a key, ascending. -/
def insertBy {α : Type} (key : α → Nat) (x : α) : List α → List α
  | [] => [x]
  | y :: l => if key x ≤ key y then x :: y :: l else y :: insertBy key x l

def sortBy {α : Type} (key : α → Nat) (l : List α) : List α := l.foldr (insertBy key) []

/-- The first k with p, counting up from `from` over n candidates. -/
def firstFrom (start n : Nat) (p : Nat → Bool) : Option Nat := (List.range' start n).find? p

/-- The next index after `last` in a round of n, for which p holds (round robin). -/
def nextRound (last n : Nat) (p : Nat → Bool) : Option Nat :=
  ((List.range n).map (fun k => (last + 1 + k) % n)).find? p

/-! ### Bytes -/

/-- n as k bytes, least significant first. -/
def leBytes : Nat → Nat → List Byte
  | 0, _ => []
  | k + 1, n => BitVec.ofNat 8 n :: leBytes k (n / 256)

/-- Bytes, least significant first, as a number. -/
def leNat : List Byte → Nat
  | [] => 0
  | b :: l => b.toNat + 256 * leNat l

def dwBytes (d : Dword) : List Byte := leBytes 4 d.toNat

/-- Dwords of a byte list; missing bytes of the last dword read 0. -/
def dwordsOf (n : Nat) (bytes : List Byte) : List Dword :=
  (List.range n).map (fun k => dw (leNat ((bytes.drop (4 * k)).take 4)))

/-- k bytes from offset o, as a number. -/
def leAt (bytes : List Byte) (o k : Nat) : Nat := leNat ((bytes.drop o).take k)

def padTo (n : Nat) (bytes : List Byte) : List Byte := (bytes ++ List.replicate (n - bytes.length) 0).take n

/-! ### Byte memories -/

/-- Addresses strictly rising, and no entry equal to 0, which is what an unlisted byte reads as. -/
def Memory.wf : Mem → Bool
  | [] => true
  | [c] => decide (c.2 ≠ 0)
  | c :: d :: m => decide (c.2 ≠ 0) && decide (c.1 < d.1) && Memory.wf (d :: m)

/-- What an unlisted byte reads as: the wipes of R388 and R390 write zeros. -/
def memDefault : Byte := 0

def memGet (m : Mem) (a : Nat) : Byte := ((m.find? (fun c => decide (c.1 = a))).map Prod.snd).getD memDefault

def memSet : Mem → Nat → Byte → Mem
  | [], a, b => if b = memDefault then [] else [(a, b)]
  | c :: m, a, b =>
    if a < c.1 then (if b = memDefault then c :: m else (a, b) :: c :: m)
    else if a = c.1 then (if b = memDefault then m else (a, b) :: m)
    else c :: memSet m a b

def memRead (m : Mem) (a n : Nat) : List Byte := (List.range n).map (fun k => memGet m (a + k))

def memWrite : Mem → Nat → List Byte → Mem
  | m, _, [] => m
  | m, a, b :: l => memWrite (memSet m a b) (a + 1) l

/-- The cells of a run of bytes from an address. -/
def memCells : Nat → List Byte → Mem
  | _, [] => []
  | a, b :: l => if b = memDefault then memCells (a + 1) l else (a, b) :: memCells (a + 1) l

/-- A long run of bytes written at once. -/
def memPut (m : Mem) (a : Nat) (l : List Byte) : Mem :=
  m.filter (fun c => decide (c.1 < a)) ++ memCells a l ++ m.filter (fun c => decide (a + l.length ≤ c.1))

/-- Zeros over a range: the entries in it go. -/
def memZero (m : Mem) (a n : Nat) : Mem := m.filter (fun c => decide (c.1 < a) || decide (a + n ≤ c.1))

/-- Keep only the bytes that p keeps. -/
def memKeep (m : Mem) (p : Nat → Bool) : Mem := m.filter (fun c => p c.1)

/-- A 64-byte line as 512 bits, byte 0 in bits [7:0]. -/
def memLine (m : Mem) (a : Nat) : BitVec 512 := BitVec.ofNat 512 (leNat (memRead m a 64))

def memSetLine (m : Mem) (a : Nat) (d : BitVec 512) : Mem := memWrite m a (leBytes 64 d.toNat)

/-! ### Small arithmetic -/

def ceilDiv (a b : Nat) : Nat := (a + b - 1) / b

def roundUp (a b : Nat) : Nat := ceilDiv a b * b

/-- 14 MiB, the unit of every region (R290). -/
def regionUnit : Nat := 0xE00000

/-- n saturating at limit. -/
def sat (limit n : Nat) : Nat := min limit n

/-- The number of beats or bytes between a head and a tail of w-bit pointers (R168). -/
def ptrCount (w head tail : Nat) : Nat := (tail + 2 ^ w - head % 2 ^ w) % 2 ^ w

def addNew {α : Type} [DecidableEq α] (l : List α) (x : α) : List α := if x ∈ l then l else l ++ [x]

end Sys2Proof.Machine
end

