-- ==== Sys2Proof/Machine/Digest.lean ====
section
/-! DEFINITION. SHA3-512 (FIPS 202), and the signature block (spec/10_compiler_contract.md R289). -/

namespace Sys2Proof.Machine

/-! ### Keccak-f[1600]: the state as 25 lanes of 64 bits, lane x + 5y -/

def lane64 (st : List (BitVec 64)) (x y : Nat) : BitVec 64 := st.getD (x % 5 + 5 * (y % 5)) 0

def kTheta (st : List (BitVec 64)) : List (BitVec 64) :=
  let c := (List.range 5).map (fun x => lane64 st x 0 ^^^ lane64 st x 1 ^^^ lane64 st x 2 ^^^ lane64 st x 3 ^^^ lane64 st x 4)
  let d := (List.range 5).map (fun x => c.getD ((x + 4) % 5) 0 ^^^ (c.getD ((x + 1) % 5) 0).rotateLeft 1)
  (List.range 25).map (fun k => st.getD k 0 ^^^ d.getD (k % 5) 0)

/-- The lane that ρ turns in its step n: (1, 0), and from (x, y) on to (y, 2x + 3y). -/
def kWalk : Nat → Nat × Nat
  | 0 => (1, 0)
  | n + 1 => let p := kWalk n; (p.2, (2 * p.1 + 3 * p.2) % 5)

/-- Rotation offsets of ρ, by x + 5y: step n turns its lane by the triangular number of n + 1. -/
def kRho : List Nat :=
  (List.range 24).foldl (fun l n => let p := kWalk n; l.set (p.1 + 5 * p.2) ((n + 1) * (n + 2) / 2 % 64)) (List.replicate 25 0)

/-- ρ then π: lane (x, y) of the result is lane (x + 3y, x) rotated. -/
def kRhoPi (st : List (BitVec 64)) : List (BitVec 64) :=
  (List.range 25).map fun k =>
    let x := k % 5
    let y := k / 5
    let j := (x + 3 * y) % 5 + 5 * x
    (st.getD j 0).rotateLeft (kRho.getD j 0)

def kChi (st : List (BitVec 64)) : List (BitVec 64) :=
  (List.range 25).map fun k =>
    let x := k % 5
    let y := k / 5
    lane64 st x y ^^^ (~~~ (lane64 st (x + 1) y) &&& lane64 st (x + 2) y)

/-- The shift register behind ι after n steps: x^8 + x^6 + x^5 + x^4 + 1 from 1. -/
def kShift : Nat → Nat
  | 0 => 1
  | n + 1 => let d := 2 * kShift n; if d < 256 then d else d ^^^ 0x171

/-- The constant that ι adds in round r: bit 2^j - 1 is what the register gives out in its step 7r + j. -/
def kIota (r : Nat) : BitVec 64 :=
  BitVec.ofNat 64 ((List.range 7).foldl (fun m j => m + kShift (7 * r + j) % 2 * 2 ^ (2 ^ j - 1)) 0)

def kRound (st : List (BitVec 64)) (rc : BitVec 64) : List (BitVec 64) :=
  let t := kChi (kRhoPi (kTheta st))
  t.set 0 (t.getD 0 0 ^^^ rc)

def keccakF (st : List (BitVec 64)) : List (BitVec 64) := ((List.range 24).map kIota).foldl kRound st

/-- One block of 72 bytes into the state. -/
def absorb (st : List (BitVec 64)) (block : List Byte) : List (BitVec 64) :=
  keccakF (st.zipIdx.map (fun p => if p.2 < 9 then p.1 ^^^ BitVec.ofNat 64 (leAt block (8 * p.2) 8) else p.1))

def absorbAll : Nat → List (BitVec 64) → List Byte → List (BitVec 64)
  | 0, st, _ => st
  | n + 1, st, bytes => absorbAll n (absorb st (bytes.take 72)) (bytes.drop 72)

/-- The padding of SHA-3: 0x06, zeros, and bit 7 of the block's last byte. -/
def sha3Pad (bytes : List Byte) : List Byte :=
  let k := 72 - bytes.length % 72
  if k = 1 then bytes ++ [0x86] else bytes ++ [0x06] ++ List.replicate (k - 2) 0 ++ [0x80]

def sha3512 (bytes : List Byte) : BitVec 512 :=
  let p := sha3Pad bytes
  let st := absorbAll (p.length / 72) (List.replicate 25 0) p
  BitVec.ofNat 512 (leNat ((st.take 8).flatMap (fun l => leBytes 8 l.toNat)))

/-- key_id of a public key: the first 16 bytes of its digest. -/
def keyIdOf (key : List Byte) : BitVec 128 := BitVec.ofNat 128 (sha3512 key).toNat

end Sys2Proof.Machine
end

