-- ==== Sys2Proof/Machine/Operands.lean ====
section
/-! DEFINITION. The operand forms of commands: site words (spec/00_scope.md R16 to R19), packets (spec/12_host_commands.md R343), register
addresses (spec/19_register_map.md R495), and counter pages (spec/16_observation.md R447). -/

namespace Sys2Proof.Machine

/-! ### Site words (R17, R18) -/

def siteOf (kind sector y x sub : Nat) : Site :=
  BitVec.ofNat 32 (kind * 2 ^ 27 + sector * 2 ^ 24 + y * 2 ^ 20 + x * 2 ^ 16 + sub)

def siteKind (s : Site) : Nat := dbits s 31 27
def siteSector (s : Site) : Nat := dbits s 26 24
def siteY (s : Site) : Nat := dbits s 23 20
def siteX (s : Site) : Nat := dbits s 19 16
def siteSub (s : Site) : Nat := dbits s 15 0

/-- The site word that means no site (R19). -/
def noSite : Site := 0xFFFFFFFF

/-- The site of the whole element: sub 0. -/
def siteElem (s : Site) : Site := siteOf (siteKind s) (siteSector s) (siteY s) (siteX s) 0

def siteWithSub (s : Site) (sub : Nat) : Site := siteOf (siteKind s) (siteSector s) (siteY s) (siteX s) sub

def laneSite (n : Nat) : Site := siteOf 6 0 0 0 n
def egressSite (n : Nat) : Site := siteOf 7 0 0 0 n
def spanSite (p : Nat) : Site := siteOf 8 0 0 0 p
def channelSite (c : Nat) : Site := siteOf 11 0 0 0 c
def mgmtSite (k : Nat) : Site := siteOf 12 0 0 0 k

/-- The memory port of a number (R16), with a sub field. -/
def portSite (port sub : Nat) : Site := siteOf 5 (port / 8) 0 (port % 8) sub

/-- The site of a queue: its port with the slot in sub. -/
def queueSite (q : Nat) : Site := portSite (q / 8) (q % 8)

/-- The memory-port number of a kind 5 site, and a queue ID. -/
def sitePort (s : Site) : Nat := siteSector s * 8 + siteX s
def siteQueue (s : Site) : Nat := sitePort s * 8 + siteSub s % 8

/-- Whether the grid position of a kind exists in a sector (R18, R42). -/
def gridOk (kind y x : Nat) : Bool :=
  match kind with
  | 0 => decide (y < 8) && decide (x < 8)
  | 1 => decide (y < 2) && decide (x < 8)
  | 2 => y == 0 && decide (x < 8)
  | 3 => decide (y < 4) && decide (x < 8)
  | 4 => y == 0 && x == 0
  | 5 => y == 0 && decide (x < 8)
  | 9 => decide (x < 8)
  | 10 => decide (x < 8)
  | _ => y == 0 && x == 0

/-- Whether a site word names a unit that this part has (R5, R18). -/
def sitePresent (s : Site) : Bool :=
  let k := siteKind s
  if k ≤ 5 || k = 9 || k = 10 then decide (siteSector s < Config.sectors) && gridOk k (siteY s) (siteX s)
  else if k = 6 || k = 7 then gridOk k (siteY s) (siteX s) && siteSector s == 0 && decide (siteSub s < Config.streams)
  else if k = 8 then gridOk k (siteY s) (siteX s) && siteSector s == 0 && decide (siteSub s < Config.spanPorts)
  else if k = 11 then gridOk k (siteY s) (siteX s) && siteSector s == 0 && decide (siteSub s < Config.channels)
  else if k = 12 then gridOk k (siteY s) (siteX s) && siteSector s == 0 && decide (siteSub s < 4)
  else false

/-- The fields that a kind fixes hold what R18 gives them, as on the largest part of the family. -/
def siteFormed (s : Site) : Bool :=
  let k := siteKind s
  if k ≤ 5 || k = 9 || k = 10 then gridOk k (siteY s) (siteX s)
  else if k = 6 || k = 7 || k = 11 then gridOk k (siteY s) (siteX s) && siteSector s == 0 && decide (siteSub s < 32)
  else if k = 8 then gridOk k (siteY s) (siteX s) && siteSector s == 0 && decide (siteSub s < 8)
  else if k = 12 then gridOk k (siteY s) (siteX s) && siteSector s == 0 && decide (siteSub s < 4)
  else false

/-- R6, R7: the command names a unit of the family that this part does not have. A position outside the grid names no unit at all and is BAD_PARAM (R138). -/
def siteAbsent (s : Site) : Bool := siteFormed s && !sitePresent s

/-- Sites of every element of a kind, in ascending site-word order. -/
def sitesOfKind (kind : Nat) : List Site :=
  (List.range Config.sectors).flatMap fun sec =>
    (List.range 16).flatMap fun y =>
      (List.range 8).filterMap fun x => if gridOk kind y x then some (siteOf kind sec y x 0) else none

/-! ### Packets (R343) -/

/-- The first dword of a packet. -/
def pkt0 (p : Packet) : Dword := p.getD 0 0

def pktOpcode (p : Packet) : Nat := dbits (pkt0 p) 7 0
def pktPriority (p : Packet) : Nat := dbits (pkt0 p) 9 8
def pktFence (p : Packet) : Bool := dbit (pkt0 p) 10
def pktAck (p : Packet) : Bool := dbit (pkt0 p) 11
def pktLength (p : Packet) : Nat := dbits (pkt0 p) 23 16

/-- The dwords the part reads: 4 × length, or one unit of 16 bytes when length is 0 or above 4. -/
def pktTaken (p : Packet) : Nat := if 1 ≤ pktLength p && decide (pktLength p ≤ 4) then 4 * pktLength p else 4

/-- Dword i as firmware sees it: 0 from dword 4 × length onward. -/
def pktDw (p : Packet) (i : Nat) : Dword := if i < pktTaken p then p.getD i 0 else 0

def pktTag (p : Packet) : Nat := dbits (pktDw p 1) 15 0

/-- Dwords lo and hi as one number. -/
def pktQ (p : Packet) (i : Nat) : Nat := lohi (pktDw p i) (pktDw p (i + 1))

/-- Whether all bits of dword i outside the mask are 0, and dwords from j to 15 are 0. -/
def pktOnly (p : Packet) (masks : List (Nat × Dword)) : Bool :=
  (List.range 14).all fun k =>
    let i := k + 2
    let m := ((masks.find? (fun q => q.1 = i)).map Prod.snd).getD 0
    pktDw p i &&& (~~~ m) = 0

/-- Reserved bits of dwords 0 and 1, and the length (step 3 of R347). -/
def pktFormed (p : Packet) : Bool :=
  1 ≤ pktLength p && decide (pktLength p ≤ 4) && dbits (pkt0 p) 15 12 == 0 && dbits (pkt0 p) 31 24 == 0 && dbits (pktDw p 1) 31 16 == 0

/-! ### Opcodes (R350) -/

def opcodes : List Nat :=
  [0x01, 0x02, 0x03, 0x10, 0x11, 0x12, 0x13, 0x14, 0x20, 0x21, 0x22, 0x23, 0x28, 0x29, 0x30, 0x31, 0x32, 0x33, 0x38, 0x39, 0x3A,
   0x40, 0x41, 0x42, 0x48, 0x49, 0x50, 0x51, 0x58, 0x59, 0x60, 0x61]

/-- Opcodes that an unprivileged ring may send (R350). -/
def opcodeUnprivileged (op : Nat) : Bool := op == 0x01 || op == 0x02 || op == 0x29 || op == 0x61

/-- What stage 1 serves (R346): STREAM_OPEN with mode 0 and STREAM_MODE to courier are told by the mode field, dword 2 of R326 and R327. -/
def stage1Serves (op mode : Nat) : Bool :=
  op == 0x01 || op == 0x02 || op == 0x61 || op == 0x21 || (op == 0x20 && mode == 0) || (op == 0x22 && mode == 0)

/-! ### Register addresses (R495) -/

inductive Block where
  | cap | hif | evt | hal | pwr | sec | lane | span | mem | trc | cnt | none_
  deriving DecidableEq, Repr

/-- The block of a BAR0 offset, and the offset within it. -/
def blockOf (off : Nat) : Block × Nat :=
  if off < 0x10000 then (.cap, off)
  else if off < 0x20000 then (.hif, off - 0x10000)
  else if off < 0x30000 then (.evt, off - 0x20000)
  else if off < 0x40000 then (.hal, off - 0x30000)
  else if off < 0x50000 then (.pwr, off - 0x40000)
  else if off < 0x60000 then (.sec, off - 0x50000)
  else if off < 0x80000 then (.none_, off)
  else if off < 0xA0000 then (.lane, off - 0x80000)
  else if off < 0xC0000 then (.span, off - 0xA0000)
  else if off < 0x100000 then (.mem, off - 0xC0000)
  else if off < 0x200000 then (.trc, off - 0x100000)
  else if off < 0x264000 then (.cnt, off - 0x200000)
  else (.none_, off)

/-! ### Counter pages (R447) -/

/-- kind of a page as CNT_PAGE_ID shows it: 0 programmable, 1 matrix, 2 vector and window, 3 steering, 4 queues, 5 channels, 6 streams, 7 span, 8 trace. -/
def pageKind (g : Nat) : Nat :=
  if g < 64 then 0 else if g < 96 then 1 + (g - 64) % 4 else g - 91

def pageSector (g : Nat) : Nat := if 64 ≤ g && decide (g < 96) then (g - 64) / 4 else 0

/-- Page g exists on this part. -/
def pagePresent (g : Nat) : Bool := decide (g < 100) && decide (pageSector g < Config.sectors)

/-- Counter page and offset of an element's counter j (8 bytes each): matrix tile, vector tile, window tile, steering unit, queue slot. -/
def unitCounter (s : Site) (j : Nat) : Nat × Nat :=
  let sec := siteSector s
  match siteKind s with
  | 0 => (64 + 4 * sec, 0x40 + 0x30 * (8 * siteY s + siteX s) + 8 * j)
  | 1 => (65 + 4 * sec, 0x40 + 0x10 * (8 * siteY s + siteX s) + 8 * j)
  | 2 => (65 + 4 * sec, 0x140 + 8 * siteX s)
  | 3 => (66 + 4 * sec, 0x40 + 0x30 * (8 * siteY s + siteX s) + 8 * j)
  | 5 => (67 + 4 * sec, 0x40 + 0x30 * (8 * siteX s + siteSub s) + 8 * j)
  | 11 => (96, 0x40 + 0x30 * siteSub s + 8 * j)
  | 8 => (98, 0x40 + 0x20 * siteSub s + 8 * j)
  | _ => (99, 0x40 + 8 * j)

def streamCounter (stream j : Nat) : Nat × Nat := (97, 0x40 + 0x30 * stream + 8 * j)

end Sys2Proof.Machine
end

