-- ==== Sys2Proof/Machine/Ops.lean ====
section
/-! DEFINITION. The operations that every family shares: time, what goes to the host, the event controller (spec/13_events.md), trace records
and counters (spec/16_observation.md), fault records (spec/15_availability.md R401 to R408) and completions (spec/12_host_commands.md R338 to R345). -/

namespace Sys2Proof.Machine

/-- The outcome of every meaning of this model. -/
def done (s : State) : Host.Outcome State Fault Refusal := .next s

/-- An effect that takes place at a given fc: the halyard moves on to it, and never back (notes/assumptions/4.md). -/
def advance (s : State) (t : Fc) : State := { s with now := max s.now t }

/-! ### Landings (R35, R36, R38) -/

/-- The T of a SCALE_SET that a tile holds (R136). -/
def scaleLanding (t : MatrixTile) : Option Fc := if t.bank0.state = .next ∨ t.bank1.state = .next then some t.nextTime else none

/-- What is scheduled to land, with its fc and its rank among landings of one fc (R38): the automatic switch, the host switch, the halt or the
resume, the firmware swap, the full-array window, scale banks, and stream modes. The ranks of the last three are a DESIGN CHOICE
(notes/assumptions/4.md). -/
def landings (s : State) : List (Fc × Nat) :=
  s.hal.autoSwitch.toList.map (fun a => (a.time, 0)) ++ s.hal.hostSwitch.toList.map (fun w => (w.time, 1))
    ++ (match s.hal.halt with | .pending => [(s.hal.haltTime, 2)] | .resuming => [(s.hal.resumeTime, 2)] | _ => [])
    ++ (match s.sec.swap with | some w => if w.phase = 0 then [(w.time, 3)] else [] | none => [])
    ++ (match s.hal.window with | .scheduled t => [(t, 4)] | _ => [])
    ++ s.tiles.filterMap (fun p => (scaleLanding p.2).map (fun t => (t, 5)))
    ++ s.streams.filterMap (fun c => c.modePending.map (fun m => (m.2, 6)))

/-- The halyard may stand at fc t ahead of every landing: from a landing's fc on everything waits until it has landed (R36). -/
def reaches (s : State) (t : Fc) : Bool := (landings s).all (fun x => decide (max s.now t < x.1))

/-- The part stands still (R421). -/
def haltedNow (s : State) : Bool := s.hal.halt == .halted || s.hal.halt == .resuming

/-- The landing of rank k at fc t is the next. -/
def landsNext (s : State) (t : Fc) (k : Nat) : Bool := (landings s).all (fun x => decide (t < x.1) || (t == x.1 && decide (k ≤ x.2)))

def emit (s : State) (o : Output) : State := { s with out := s.out ++ [o] }

/-- One draw of the model's counter for free values (notes/assumptions/3.md). -/
def drawn (s : State) : State := { s with fresh := s.fresh + 1 }

/-- Whether the part may access host memory (R358). -/
def hostUp (s : State) : Bool := s.hif.busMaster && !s.hif.d3hot

def emitWrites (s : State) (ws : List (Nat × List Byte)) : State :=
  { s with out := s.out ++ ws.map (fun w => Output.hostWrite w.1 w.2) }

/-! ### RC fields (R15, R505) -/

/-- An RC field of BAR0 offset `off`, which reads `old`, is about to be updated. -/
def rcNote (s : State) (off old : Nat) : State :=
  if (amGet s.evt.rcAt off).any (fun x => x.1 == s.now) then s
  else { s with evt := { s.evt with rcAt := amSet s.evt.rcAt off (s.now, old) } }

/-- What an RC field read ahead of the updates of this fc, if there were any. -/
def rcBefore (s : State) (off : Nat) : Option Nat :=
  match amGet s.evt.rcAt off with
  | some x => if x.1 = s.now then some x.2 else none
  | none => none

/-- BAR0 offsets of the RC fields. -/
def rcLogLost (fast : Bool) : Nat := if fast then 0x20074 else 0x20054
def rcDeferred : Nat := 0x30310
def rcPeak (k : Nat) : Nat := 0x40104 + 0x10 * k
def rcMisses (st : Nat) : Nat := 0x8000C + 0x20 * st
def rcTraceLost : Nat := 0x100030

/-! ### MSI-X (R372) -/

/-- A message on vector v: held in the pending bit array while masked or while host access is held. -/
def sendMessage (s : State) (v : Nat) : State :=
  let e := lget s.hif.msix v {}
  if e.masked || s.hif.functionMask || !hostUp s then
    { s with hif := { s.hif with pba := s.hif.pba.set v true } }
  else
    { s with hif := { s.hif with pba := s.hif.pba.set v false },
             out := s.out ++ [Output.msix v (lohi e.addrLo e.addrHi) e.data] }

/-! ### Records (R365, R366) -/

def recStream (st : Option Nat) : Nat := match st with | some n => n * 2 ^ 16 + 2 ^ 21 | none => 0

/-- Dword k of a record's first entry; the phase bit is given. -/
def recFirst (r : LogRecord) (phase : Bool) : List Dword :=
  [ dw (r.source + (if r.fault then 2 ^ 8 else 0) + b2n phase * 2 ^ 31),
    dw r.seq,
    dw (r.code + recStream r.stream + (if r.fault then r.cls * 2 ^ 24 else 0)),
    r.site, r.frame, lo32 r.time, hi32 r.time, r.detail0 ]

/-- A fault record's second entry. -/
def recSecond (r : LogRecord) (phase : Bool) : List Dword :=
  [ dw (r.source + 2 * 2 ^ 8 + b2n phase * 2 ^ 31), dw r.seq, r.detail1, 0, 0, 0, 0, 0 ]

/-- A pad entry ahead of a fault record. -/
def recPad (r : LogRecord) (phase : Bool) : List Dword :=
  [ dw (r.source + 3 * 2 ^ 8 + b2n phase * 2 ^ 31), 0, 0, 0, 0, 0, 0, 0 ]

def entryBytes (l : List Dword) : List Byte := l.flatMap dwBytes

/-! ### Event logs (R364, R367) -/

def setNormal (s : State) (l : EvtLog) : State := { s with evt := { s.evt with normal := l } }
def setFastLog (s : State) (l : EvtLog) : State := { s with evt := { s.evt with fastLog := l } }
def logOf (s : State) (fast : Bool) : EvtLog := if fast then s.evt.fastLog else s.evt.normal
def setLog (s : State) (fast : Bool) (l : EvtLog) : State := if fast then setFastLog s l else setNormal s l

def logBase (l : EvtLog) : Nat := lohi l.baseLo l.baseHi

/-- Phase of the entry at the log's tail: the inverse of bit a of the tail. -/
def logPhase (l : EvtLog) (tail : Nat) : Bool := !(tail / 2 ^ l.sizeLog2 % 2 == 1)

/-- Free entries of an enabled log. -/
def logFree (l : EvtLog) : Nat := 2 ^ l.sizeLog2 - ptrCount (l.sizeLog2 + 1) l.head l.tail

/-- Entries that a record needs at the log's tail: a fault record begins at an even entry. -/
def logNeeds (l : EvtLog) (r : LogRecord) : Nat := if r.fault then 2 + l.tail % 2 else 1

def logRoom (s : State) (l : EvtLog) (r : LogRecord) : Bool := hostUp s && l.enabled && decide (logNeeds l r ≤ logFree l)

/-- Address of entry `tail` of the log. -/
def logAddr (l : EvtLog) (tail : Nat) : Nat := logBase l + 32 * (tail % 2 ^ l.sizeLog2)

/-- The writes of a record at the log's tail, and the log after them. -/
def logWrite (l : EvtLog) (r : LogRecord) : List (Nat × List Byte) × EvtLog :=
  let w := 2 ^ (l.sizeLog2 + 1)
  if r.fault then
    let odd := l.tail % 2 == 1
    let t := if odd then (l.tail + 1) % w else l.tail
    let pad := if odd then [(logAddr l l.tail, entryBytes (recPad r (logPhase l l.tail)))] else []
    (pad ++ [(logAddr l t, entryBytes (recFirst r (logPhase l t)) ++ entryBytes (recSecond r (logPhase l t)))],
     { l with tail := (t + 2) % w })
  else
    ([(logAddr l l.tail, entryBytes (recFirst r (logPhase l l.tail)))], { l with tail := (l.tail + 1) % w })

/-- Entries that the on-die buffer holds: one for an event record, two for a fault record. -/
def heldEntries (l : EvtLog) : Nat := (l.held.map (fun r => if r.fault then 2 else 1)).foldl (· + ·) 0

/-- A record meets its log: written, held, or lost (R367). A record never passes held records or an unwritten gap record. -/
def logPut (s : State) (fast : Bool) (r : LogRecord) : State :=
  let l := logOf s fast
  let need := if r.fault then 2 else 1
  if logRoom s l r && l.held.isEmpty && l.gapLost == 0 then emitWrites (setLog s fast (logWrite l r).2) (logWrite l r).1
  else if heldEntries l + need ≤ 64 then setLog s fast { l with held := l.held ++ [r] }
  else setLog (rcNote s (rcLogLost fast) l.lost) fast { l with
    lost := sat 0xFFFFFFFF (l.lost + 1), gapLost := l.gapLost + 1, gapTime := if l.gapLost = 0 then r.time else l.gapTime }

/-! ### Firing a source (R363, R368 to R370) -/

/-- The record of a log (fast or normal) with a seq is held. -/
def recordHeld (s : State) (r : Bool × Nat) : Bool := (logOf s r.1).held.any (fun x => x.seq == r.2)

/-- A message on vector v goes behind the write of the record that caused it: while that record is held it waits (R368, R370, R373), and shows as held
while host access is held (R372). -/
def sendBehind (s : State) (v : Nat) (r : Option (Bool × Nat)) : State :=
  match r with
  | some x =>
    if recordHeld s x then
      { s with evt := { s.evt with waiting := addNew s.evt.waiting (v, x) }, hif := if hostUp s then s.hif else { s.hif with pba := s.hif.pba.set v true } }
    else sendMessage s v
  | none => sendMessage s v

/-- The messages that waited for a record go out. -/
def messagesDue (s : State) (r : Bool × Nat) : State :=
  (s.evt.waiting.filter (fun x => x.2 == r)).foldl (fun st x => sendMessage st x.1)
    { s with evt := { s.evt with waiting := s.evt.waiting.filter (fun x => x.2 != r) } }

/-- Delivery of a fast source whose pending bit went from `was` to 1. -/
def deliverFast (s : State) (v : Nat) (was : Bool) (r : Option (Bool × Nat)) : State := if was then s else sendBehind s v r

/-- A firing on a vector in this fc. -/
def firedOn (s : State) (e : EvtVector) : EvtVector :=
  if e.firedAt = s.now then { e with firedIn := e.firedIn + 1 } else { e with firedAt := s.now, firedIn := 1, sentIn := 0 }

/-- Delivery of a normal source on vector v, whose record is r: the idle wait first, else the firing count and the timer. -/
def deliverNormal (s : State) (v : Nat) (r : Option (Bool × Nat)) : State :=
  let e := firedOn s (lget s.evt.vectors v {})
  let put (st : State) (e' : EvtVector) : State := { st with evt := { st.evt with vectors := st.evt.vectors.set v e' } }
  let n := e.count + 1
  if e.idleArmed || decide (max 1 e.countThr ≤ n) then
    sendBehind (put s { e with idleArmed := false, count := 0, timerFrom := none, waits := none, sentIn := e.sentIn + 1 }) v r
  else
    let behind := r.filter (recordHeld s)
    put s { e with count := n, timerFrom := if e.time = 0 then none else some (e.timerFrom.getD s.now)
                   waits := if e.count = 0 then behind else if behind.isSome then e.waits else none }

/-- The record of the fast source that fired most recently (R375). -/
def noteFast (s : State) (l : List Dword) : State := { s with evt := { s.evt with fastLast := l } }

/-- Source n fires, with the record given (its seq is taken here). A source of an absent stream never fires (R361). -/
def fireSource (s : State) (n : Nat) (rec : Option LogRecord) : State :=
  if 0x20 + Config.streams ≤ n then s else
  let c := lget s.evt.sources n (EvtSource.resetOf n)
  let tag := rec.map (fun _ => (c.fast, (logOf s c.fast).seq))
  -- 1: the record
  let s1 :=
    match rec with
    | none => s
    | some r0 =>
      let l := logOf s c.fast
      let r := { r0 with seq := l.seq }
      let s0 := setLog s c.fast { l with seq := (l.seq + 1) % 2 ^ 32 }
      logPut (if c.fast then noteFast s0 (recFirst r false ++ (if r.fault then recSecond r false else List.replicate 8 0)) else s0) c.fast r
  -- 2: the pending bit of the source's class, and the count
  let again := c.firedIn != 0 && c.firedAt == s.now
  let c' := { c with pending := c.pending || !c.fast, fastPending := c.fastPending || c.fast, count := sat 255 (c.count + 1), firedAt := s.now,
                     firedIn := if again then c.firedIn + 1 else 1
                     stoodBefore := if again then c.stoodBefore else if c.fast then c.fastPending else c.pending
                     firedVector := c.vector, firedFast := c.fast }
  let s2 := { s1 with evt := { s1.evt with sources := s1.evt.sources.set n c' } }
  -- 3: delivery
  if !c.irqEnable then s2
  else if c.fast then deliverFast s2 c.vector c.fastPending tag
  else deliverNormal s2 c.vector tag

/-- Post an event record (R365). -/
def postEvent (s : State) (source code : Nat) (stream : Option Nat) (site : Site) (frame : Dword) (time : Fc) (detail : Dword) : State :=
  fireSource s source (some ⟨source, false, 0, code, 0, stream, site, frame, time, detail, 0⟩)

def noFrame : Dword := 0xFFFFFFFF

/-- Post an event of a source that names no stream. -/
def postDev (s : State) (source code : Nat) (site : Site) (time : Fc) (detail : Nat) : State :=
  postEvent s source code none site noFrame time (dw detail)

/-- Post an event of stream st (source 0x20 + st). -/
def postStream (s : State) (st code : Nat) (frame : Dword) (time : Fc) (detail : Nat) : State :=
  postEvent s (0x20 + st) code (some st) noSite frame time (dw detail)

/-- The part writes held records and, behind them, the gap record, as far as there is room (R367); one record. -/
def heldStep (s : State) (fast : Bool) : State :=
  let l := logOf s fast
  match l.held with
  | r :: rest =>
    if logRoom s l r then
      let (ws, l') := logWrite { l with held := rest } r
      messagesDue (emitWrites (setLog s fast l') ws) (fast, r.seq)
    else s
  | [] =>
    if 0 < l.gapLost then
      let r : LogRecord := ⟨0x1F, false, l.seq, 0x00F0, 0, none, noSite, noFrame, l.gapTime, dw (sat 0xFFFFFFFF l.gapLost), 0⟩
      if logRoom s l r then
        let (ws, l') := logWrite { l with seq := (l.seq + 1) % 2 ^ 32, gapLost := 0 } r
        let s1 := emitWrites (setLog s fast l') ws
        let s2 := if (lget s1.evt.sources 0x1F (EvtSource.resetOf 0x1F)).fast then noteFast s1 (recFirst r false ++ List.replicate 8 0) else s1
        fireSource s2 0x1F none
      else s
    else s

def heldLoop : Nat → State → Bool → State
  | 0, s, _ => s
  | n + 1, s, fast => heldLoop n (heldStep s fast) fast

/-- All that fits: the buffer holds at most 64 records, and one gap record. -/
def heldDrain (s : State) (fast : Bool) : State := heldLoop 65 s fast

/-! ### Counters (R444 to R450) -/

def counterMax : Nat := 2 ^ 64 - 1

/-- Event number and filters of a programmable counter as configured (R449): dwords 3 to 10. -/
def progEvent (c : ProgCounter) : Nat := dbits (lget c.cfg 0 0) 7 0

/-- Whether a happening matches a programmable counter's filters. A request without a master matches a site mask of 0 alone. -/
def progMatches (c : ProgCounter) : Tally → Bool
  | .unit _ _ _ => false
  | .event ev site stream addr cls priv =>
    let d (i : Nat) : Dword := lget c.cfg (i - 3) 0
    let pf := dbits (d 3) 17 16
    let low := lohi (d 7) (d 8)
    let lim := lohi (d 9) (d 10)
    c.run && progEvent c == ev
      && (ev != 2 || dbit (d 3) (8 + cls))
      && (ev != 3 || pf == 0 || (pf == 1 && priv) || (pf == 2 && !priv))
      && (match stream with | some st => dbit (d 4) st | none => d 4 == 0xFFFFFFFF || d 4 == 0)
      && (site &&& d 6) == (d 5 &&& d 6)
      && (site != noSite || d 6 == 0 || !(ev == 4 || ev == 5 || ev == 6))
      && (lim == 0 || (decide (low ≤ addr) && decide (addr < lim)))

def addVal (vals : AMap (Nat × Nat) Nat) (k : Nat × Nat) (n : Nat) : AMap (Nat × Nat) Nat :=
  amSet vals k (sat counterMax (amGetD vals k 0 + n))

/-- One happening counted, 64 fc after it. -/
def applyTally (c : Counters) (t : Tally) : Counters :=
  match t with
  | .unit page off n => { c with vals := addVal c.vals (page, off) n }
  | ev => { c with vals := ((List.range 64).filter (fun k => progMatches (lget c.progs k {}) ev)).foldl (fun m k => addVal m (k, 0x40) 1) c.vals }

/-- The counters that event 0x01 makes count fc. -/
def fcCounters (c : Counters) : List Nat :=
  (List.range 64).filter (fun k => (lget c.progs k {}).run && progEvent (lget c.progs k {}) == 1)

/-- The fcs of the waiting happenings that match programmable counter k, oldest first. -/
def matchTimes (c : Counters) (k : Nat) : List Fc := (c.recent.filter (fun h => progMatches (lget c.progs k {}) h.2)).map (·.1)

/-- What programmable counter k gets from the happenings of fc t. -/
def gainOf (c : Counters) (k : Nat) (t : Fc) : Nat := ((matchTimes c k).filter (· == t)).length + b2n ((fcCounters c).contains k)

/-- Counters brought up to what they show at fc t: every happening of fc t − 64 or earlier counted. -/
def foldTallies (c : Counters) (t : Fc) : Counters :=
  let upTo := t + 1 - 64
  if upTo ≤ c.foldedTo then c else
  let due := c.recent.filter (fun h => decide (h.1 < upTo))
  let c1 := due.foldl (fun c h => applyTally c h.2) c
  { c1 with
    recent := c.recent.filter (fun h => decide (upTo ≤ h.1))
    foldedTo := upTo
    newest := (List.range 64).map (fun k => gainOf c k (upTo - 1))
    vals := (fcCounters c).foldl (fun m k => addVal m (k, 0x40) (upTo - c.foldedTo)) c1.vals }

/-- The fc in which programmable counter k, which is not at its limit, comes to show it. -/
def limitAt (c : Counters) (k : Nat) : Fc :=
  let need := counterMax - amGetD c.vals (k, 0x40) 0
  64 + (if (fcCounters c).contains k then c.foldedTo + need - 1 else lget (matchTimes c k) (need - 1) 0)

/-- Fold, with event 0x0043 for each programmable counter that reaches its limit, with the fc in which it does as its time (R452, notes/assumptions/23.md). -/
def foldCounters (s : State) : State :=
  let c := foldTallies s.cnt s.now
  let full := (List.range 64).filter (fun k => amGetD c.vals (k, 0x40) 0 == counterMax && amGetD s.cnt.vals (k, 0x40) 0 != counterMax)
  full.foldl (fun st k => postDev st 0x18 0x0043 noSite (limitAt s.cnt k) k) { s with cnt := c }

def tally (s : State) (t : Tally) : State :=
  let s1 := foldCounters s
  { s1 with cnt := { s1.cnt with recent := s1.cnt.recent ++ [(s1.now, t)] } }

/-- Add n to a unit counter. -/
def count (s : State) (k : Nat × Nat) (n : Nat) : State := if n = 0 then s else tally s (.unit k.1 k.2 n)

/-- A happening for programmable counters (R450). -/
def countEvent (s : State) (ev : Nat) (site : Site) (stream : Option Nat) (addr cls : Nat) (priv : Bool) : State :=
  tally s (.event ev site stream addr cls priv)

/-- The value a counter shows now. -/
def counterNow (s : State) (page off : Nat) : Nat := amGetD (foldTallies s.cnt s.now).vals (page, off) 0

/-! ### Trace (R435 to R443) -/

/-- Records are admitted in RUNNING and POST, until TRACE_SET op 2 is taken (R441). -/
def tracing (s : State) : Bool := (s.trace.state == .running || s.trace.state == .post) && !s.trace.flushing

/-- The buffer of a site: its sector's for tiles, steering units, memory ports and switch boxes, else the control buffer. -/
def traceBufOf (site : Site) : Nat :=
  if site == noSite then 8
  else match siteKind site with
    | 0 | 1 | 2 | 3 | 5 | 10 => siteSector site
    | _ => 8

/-- The group bit of a record type; none: always written (R436). -/
def traceGroup (type : Nat) : Option Nat :=
  match type with
  | 0x0001 => some 0 | 0x0002 => some 0
  | 0x0010 => some 1 | 0x0011 => some 1
  | 0x0012 => some 2 | 0x0013 => some 2
  | 0x0014 => some 3
  | 0x0017 => some 4 | 0x0018 => some 4
  | 0x0019 => some 5 | 0x001A => some 5
  | 0x001B => some 6 | 0x001C => some 6
  | 0x0020 => some 7 | 0x0021 => some 7 | 0x0022 => some 7 | 0x0025 => some 7
  | 0x0023 => some 8
  | _ => none

def siteFilterHit (cfg : TraceCfg) (site : Site) (i : Nat) : Bool :=
  let f := lget cfg.filters i (0, 0)
  cfg.filtersUsed / 2 ^ i % 2 == 1 && (site &&& f.2) == (f.1 &&& f.2)

/-- Whether a record is admitted (R437). -/
def traceAdmits (t : Trace) (r : TraceRec) : Bool :=
  match traceGroup r.type with
  | none => true
  | some g =>
    t.cfg.groups / 2 ^ g % 2 == 1
      && (g != 0 || t.cfg.privilege == 0 || (t.cfg.privilege == 1 && dbit r.d0 14) || (t.cfg.privilege == 2 && !dbit r.d0 14))
      && (match r.stream with | some st => dbit t.cfg.streams st | none => true)
      && (t.cfg.filtersUsed == 0 || (List.range 4).any (siteFilterHit t.cfg r.site))

/-- A record takes its place in its buffer: in the order of times, and in one fc of sites; never ahead of a gap record (R438, R440). -/
def tracePlaced (l : List TraceRec) (r : TraceRec) : List TraceRec :=
  let later (q : TraceRec) : Bool := q.type != 0x0031 && (decide (r.time < q.time) || (q.time == r.time && decide (r.site.toNat < q.site.toNat)))
  let tail := (l.reverse.takeWhile later).reverse
  l.take (l.length - tail.length) ++ r :: tail

/-- The gap record of a buffer that has lost records since its last one (R440). -/
def gapRecord (k : Nat) (b : TraceBuf) : List TraceRec :=
  if 0 < b.lost then [⟨b.lostTime, noSite, noFrame, 0x0031, none, k, dw (sat 0xFFFFFFFF b.lost), 0, 0⟩] else []

/-- A record enters its buffer, or is lost and counted (R438, R440). -/
def traceEnter (s : State) (r : TraceRec) : State :=
  let b := lget s.trace.bufs r.buffer {}
  let gap := gapRecord r.buffer b
  if b.recs.length + gap.length < 1024 then
    let s1 := { s with trace := { s.trace with
      bufs := s.trace.bufs.set r.buffer { recs := tracePlaced (b.recs ++ gap) r, lost := 0, lostTime := 0, aloneSince := s.now } } }
    if 0 < b.lost then count s1 (99, 0x50) 1 else s1
  else
    let b' := { b with lost := b.lost + 1, lostTime := if b.lost = 0 then r.time else b.lostTime }
    let s0 := rcNote s rcTraceLost s.trace.lost
    let s1 := { s0 with trace := { s0.trace with bufs := s0.trace.bufs.set r.buffer b', lost := sat 0xFFFFFFFF (s0.trace.lost + 1) } }
    let s2 := count s1 (99, 0x48) 1
    if b.lost = 0 then postDev s2 0x18 0x0044 noSite r.time r.buffer else s2

/-- The trigger (R441, R443): in mode 2 the engine goes to POST and the trigger record is the next record written; in modes 0 and 1 there is the record
only. Of two triggers in one fc, the one from the lower buffer number fires. -/
def traceTrigger (s : State) (src byType buf : Nat) : State :=
  let r : TraceRec := ⟨s.now, noSite, noFrame, 0x0030, none, 8, dw src, dw byType, 0⟩
  match s.trace.state with
  | .running =>
    if s.trace.cfg.mode == 2 then
      let s1 := { s with trace := { s.trace with state := .post, triggered := true, trigTime := s.now, trigLine := s.trace.wp,
                                                 sinceTrigger := 0, trigPending := some r, trigBuf := buf } }
      postDev s1 0x18 0x0042 noSite s.now s.trace.wp
    else traceEnter s r
  | .post =>
    let first := s.trace.trigPending.isSome && s.trace.trigTime == s.now && decide (buf < s.trace.trigBuf)
    count (if first then { s with trace := { s.trace with trigPending := some r, trigBuf := buf } } else s) (99, 0x58) 1
  | _ => s

/-- A trace record of a happening at fc `time`. -/
def traceAt (s : State) (type : Nat) (site : Site) (stream : Option Nat) (frame : Dword) (d0 d1 d2 : Dword) (time : Fc) : State :=
  let r : TraceRec := ⟨time, site, frame, type, stream, traceBufOf site, d0, d1, d2⟩
  if tracing s && traceAdmits s.trace r then
    let s1 := traceEnter s r
    if s.trace.cfg.mode == 2 && s.trace.cfg.triggerSrc == 1 && s.trace.cfg.triggerType == type && siteFilterHit s.trace.cfg site 0
    then traceTrigger s1 1 type (traceBufOf site) else s1
  else s

def traceNow (s : State) (type : Nat) (site : Site) (stream : Option Nat) (frame : Dword) (d0 d1 d2 : Nat) : State :=
  traceAt s type site stream frame (dw d0) (dw d1) (dw d2) s.now

/-! ### Fault records (R401, R402, R408) -/

/-- What a class 3 record outside R377 does (R408): every element stops, egress lanes send IDLE, span ports send bye and close, fetching ends. -/
def fatalStop (s : State) : State :=
  { s with
    hal := { s.hal with stopped := true }
    hif := { s.hif with fetchStopped := true }
    streams := s.streams.map (fun c => { c with egress := none })
    span := s.span.map (fun p => if p.state = .closed then p else
      { p with state := .closed, msgs := [{ kind := 4, id := 0, a := 0, b := 0 }], resend := [], replay := [] }) }

/-- Event 0x0020 of every span port that a class 3 record has closed (R365). -/
def spanClosed (before s : State) : State :=
  (List.range Config.spanPorts).foldl (fun st p =>
    if (lget before.span p {}).state = .closed then st else postDev st 0x16 0x0020 (spanSite p) st.now 0) s

/-- The record of a damaged element waits until its recovery is known; records of class 0 wait behind it (R78, R373). -/
def recordsWait (s : State) : Bool := s.hal.autoSwitch.any (fun a => !a.records.isEmpty)

/-- What a fault record enters beside its source: the performance count, the trace record and the trigger (R436, R441). -/
def faultTraced (s1 : State) (code cls : Nat) (site : Site) (stream : Option Nat) (frame : Dword) (d0 d1 : Dword) (time : Fc) : State :=
  let s2 := countEvent s1 0x02 site stream 0 cls false
  let s3 := traceAt s2 0x0023 site stream frame (dw (code + cls * 2 ^ 16)) d0 d1 time
  if tracing s3 && s3.trace.cfg.mode == 2 && s3.trace.cfg.triggerSrc == 2 && s3.trace.cfg.triggerClass / 2 ^ cls % 2 == 1
    then traceTrigger s3 2 0x0023 (traceBufOf site) else s3

/-- A fault record of a class that neither waits behind a recovery nor stops the elements: 1, 2 and 4. -/
def faultPlain (s : State) (code cls : Nat) (site : Site) (stream : Option Nat) (frame : Dword) (d0 d1 : Dword) (time : Fc) : State :=
  faultTraced (fireSource s (0x10 + cls) (some ⟨0x10 + cls, true, 0, code, cls, stream, site, frame, time, d0, d1⟩))
    code cls site stream frame d0 d1 time

/-- A fault record: code, class, site, stream and frame, detail words; detected at fc `time`. -/
def faultAt (s : State) (code cls : Nat) (site : Site) (stream : Option Nat) (frame : Dword) (d0 d1 : Dword) (time : Fc) : State :=
  let r : LogRecord := ⟨0x10 + cls, true, 0, code, cls, stream, site, frame, time, d0, d1⟩
  let s1 := if cls = 0 ∧ recordsWait s then { s with hal := { s.hal with autoSwitch := s.hal.autoSwitch.map (fun a => { a with behind := a.behind ++ [r] }) } }
    else fireSource s (0x10 + cls) (some r)
  let s4 := faultTraced s1 code cls site stream frame d0 d1 time
  if cls = 3 then
    let s5 := { s4 with pins := { s4.pins with faultLatched := true } }
    if 0x0D10 ≤ code && decide (code ≤ 0x0D15) then s5 else spanClosed s5 (fatalStop s5)
  else s4

/-- A fault record of this fc that names no frame. -/
def fault (s : State) (code cls : Nat) (site : Site) (d0 d1 : Dword) : State :=
  faultAt s code cls site none noFrame d0 d1 s.now

/-- A fault record of this fc that names a frame of a stream. -/
def faultFrame (s : State) (code cls : Nat) (site : Site) (stream frame : Nat) (d0 d1 : Dword) : State :=
  faultAt s code cls site (some stream) (dw frame) d0 d1 s.now

/-! ### Completions (R338, R339, R345) -/

def ringOf (s : State) (r : Nat) : Ring := lget s.hif.rings r {}

def setRing (s : State) (r : Nat) (x : Ring) : State := { s with hif := { s.hif with rings := s.hif.rings.set r x } }

def modRing (s : State) (r : Nat) (f : Ring → Ring) : State := { s with hif := { s.hif with rings := lmod s.hif.rings r f } }

/-- Phase at the completion tail: the inverse of bit c. -/
def cqPhase (x : Ring) : Bool := !(x.cqTail / 2 ^ x.cqLog2 % 2 == 1)

/-- Address of the completion entry at the tail. -/
def cqAddr (x : Ring) : Nat := lohi x.cqLo x.cqHi + 32 * (x.cqTail % 2 ^ x.cqLog2)

/-- The 32 bytes of a completion (R345). -/
def completionBytes (x : Ring) (c : HeldCompletion) : List Byte :=
  entryBytes
    [ dw (c.tag + c.status * 2 ^ 16 + c.opcode * 2 ^ 24),
      dw (x.sqHead + c.ring * 2 ^ 16 + b2n c.interim * 2 ^ 30 + b2n (cqPhase x) * 2 ^ 31),
      c.detail, 0, lo32 c.time, hi32 c.time, 0, 0 ]

/-- detail0 of the trace records of a host command (R436). -/
def cmdKey (x : Ring) (ring tag opcode priority : Nat) : Dword :=
  dw (opcode + ring * 2 ^ 8 + priority * 2 ^ 12 + b2n x.privileged * 2 ^ 14 + tag * 2 ^ 16)

/-- A data write of a command fails: the record names the ring, the tag and the address (R356, R510). -/
def dataFails (s : State) (ring tag addr : Nat) : State :=
  faultPlain s 0x0C05 4 noSite none noFrame (dw (ring + tag * 2 ^ 16)) (lo32 addr) s.now

/-- A completion reaches the link: the command's data writes, then the entry at the tail, then the ring's source. A ring that is DISABLED or in ERROR discards it (R341, R357). -/
def writeCompletion (s : State) (c : HeldCompletion) : State :=
  let x := ringOf s c.ring
  let s0 := emitWrites s c.writes
  if c.discarded ∨ x.state = .disabled ∨ x.state = .error then s0 else
  let s1 := emit s0 (.hostWrite (cqAddr x) (completionBytes x c))
  let s2 := setRing s1 c.ring { x with cqTail := (x.cqTail + 1) % 2 ^ (x.cqLog2 + 1), reserved := x.reserved - c.release,
                                       open_ := x.open_ - b2n (!c.interim) }
  let s3 := if c.interim then s2 else
    countEvent (traceNow s2 0x0002 (mgmtSite 0) none noFrame (cmdKey x c.ring c.tag c.opcode c.priority).toNat c.status c.detail.toNat)
      0x03 noSite none 0 0 x.privileged
  fireSource s3 c.ring none

/-- A completion is written, or held while host access is held (R358). Of one that is discarded only the data is left, which fails while the link is
down (R510). -/
def complete (s : State) (c : HeldCompletion) : State :=
  if c.discarded && c.writes.isEmpty then s
  else if c.discarded && !s.hif.linkUp then dataFails s c.ring c.tag (c.writes.headD (0, [])).1
  else if hostUp s && s.hif.heldCompletions.isEmpty then writeCompletion s c
  else { s with hif := { s.hif with heldCompletions := s.hif.heldCompletions ++ [c] } }

/-- The held completions for which p holds are discarded: what is left of them is their data (R341, R357). -/
def discardHeld (l : List HeldCompletion) (p : HeldCompletion → Bool) : List HeldCompletion :=
  (l.filter (fun c => !p c || !c.writes.isEmpty)).map (fun c => if p c then { c with discarded := true } else c)

/-- Held completions and their data go out in order (R358). -/
def releaseHeld (s : State) : State :=
  s.hif.heldCompletions.foldl writeCompletion { s with hif := { s.hif with heldCompletions := [] } }

/-- A device reset 100 µs after the completion write of the command that asks for it (R395, R464, R468). -/
def askReset (s : State) : State :=
  let t := s.now + 100 * Config.us
  { s with mgmt := { s.mgmt with resetDue := some (min t (s.mgmt.resetDue.getD t)) } }

/-- A held completion is that of the command which asked for the reset due at t: it has not been written. -/
def asksReset (c : HeldCompletion) (t : Fc) : Bool :=
  !c.interim && !c.discarded && c.status == 0 && [0x58, 0x59, 0x60].contains c.opcode && c.time + 100 * Config.us == t

/-- The completion goes out now, so the reset comes 100 µs from now. -/
def resetFrom (s : State) : State :=
  match s.mgmt.resetDue with
  | some t => if s.hif.heldCompletions.any (fun c => asksReset c t) then { s with mgmt := { s.mgmt with resetDue := some (s.now + 100 * Config.us) } } else s
  | none => s

/-! ### Status codes (R347) -/

def stOK : Nat := 0x00
def stPending : Nat := 0x01
def stBusy : Nat := 0x02
def stBadOpcode : Nat := 0x03
def stBadParam : Nat := 0x04
def stNotPresent : Nat := 0x05
def stDenied : Nat := 0x06
def stSignatureFail : Nat := 0x07
def stImageCheckFail : Nat := 0x08
def stTimeout : Nat := 0x09
def stAborted : Nat := 0x0A
def stQueueFull : Nat := 0x0B

/-! ### Pending commands (R344) -/

/-- The pending commands of a kind, in the order they were taken. -/
def pendsOf (s : State) (p : PendKind → Bool) : List PendCmd := s.hif.pendings.filter (fun c => p c.kind)

def isPending (s : State) (p : PendKind → Bool) : Bool := s.hif.pendings.any (fun c => p c.kind)

/-- The final completion of one pending command, at fc `time`, with data writes ahead of it. -/
def finishPend (s : State) (c : PendCmd) (status : Nat) (detail : Dword) (time : Fc) (writes : List (Nat × List Byte)) : State :=
  let s1 := { s with hif := { s.hif with pendings := s.hif.pendings.filter (fun q => decide (q.id ≠ c.id)) } }
  complete s1 { ring := c.ring, tag := c.tag, status := status, opcode := c.opcode, detail := detail, time := time,
                interim := false, priority := c.priority, release := 1, writes := writes, discarded := c.discarded }

/-- Finish the first pending command whose kind has p; nothing when none has. -/
def finishFirst (s : State) (p : PendKind → Bool) (status : Nat) (detail : Dword) (time : Fc) (writes : List (Nat × List Byte) := []) : State :=
  match (pendsOf s p).head? with
  | some c => finishPend s c status detail time writes
  | none => s

/-- Finish every pending command whose kind has p. -/
def finishEvery (s : State) (p : PendKind → Bool) (status : Nat) (detail : Dword) (time : Fc) : State :=
  (pendsOf s p).foldl (fun st c => finishPend st c status detail time []) s

end Sys2Proof.Machine
end

