-- ==== Sys2Proof/Machine/Flags.lean ====
section
/-! DEFINITION. The value of every status and configuration register, computed from the state (spec/19_register_map.md R495 to R505 and the rules
its index names), and the latches of R498. -/

namespace Sys2Proof.Machine

def bitsOf (l : List Bool) : Nat := l.foldr (fun b n => b2n b + 2 * n) 0

/-- The 32 Bools from index i as a dword. -/
def boolDw (l : List Bool) (i : Nat) : Dword := dw (bitsOf ((l.drop i).take 32))

/-! ### CAP (R501 to R503) -/

/-- The constant capability words of a part, by offset. -/
def capWord (v : Variant) (off : Nat) : Dword :=
  let small := v == .yb416E
  match off with
  | 0x00 => dw (Config.pciVendor.toNat + Config.jep106.toNat * 2 ^ 16)
  | 0x04 => dw (Config.deviceIdOf v + Config.stepping * 2 ^ 16 + 1 * 2 ^ 24)
  | 0x08 => if small then 0x0000040F else 0x000008FF
  | 0x0C => if small then 0x0000FFFF else 0xFFFFFFFF
  | 0x10 => if small then 0x00101010 else 0x00202020
  | 0x14 => 0xFFFFFFFF
  | 0x18 => if small then 0 else 0xFFFFFFFF
  | 0x1C => if small then 0x0000FFFF else 0xFFFFFFFF
  | 0x20 => if v == .yb832S then 0x000001FF else 0
  | 0x24 => if small then 0x20400100 else 0x40800200
  | 0x28 => if small then 0x20000080 else 0x40000100
  | 0x2C => if small then 0x41000020 else 0x82000040
  | 0x30 => if small then 0x84EE1800 else 0x09DC3000
  | 0x34 => if small then 0x00000006 else 0x0000000D
  | 0x38 => if small then 0x04001010 else 0x04001020
  | 0x3C => 0x01240084
  | 0x100 => dw Config.latencyTable.length
  | _ => 0

def latId (n : Nat) : Dword :=
  match Config.latencyTable[n]? with
  | some (id, ac, kinds, _) => dw (id + b2n ac * 2 ^ 8 + kinds * 2 ^ 16)
  | none => 0

def latValue (n : Nat) : Dword :=
  match Config.latencyTable[n]? with
  | some (_, _, _, v) => dw v
  | none => 0

/-- Bytes of the BARs: BAR0 with BAR1, BAR2 with BAR3; BAR4, BAR5 and the expansion ROM are not implemented (R335). -/
def barSize (bar : Nat) : Nat := match bar with | 0 => 0x4000000 | 2 => 0x1000000 | _ => 0

/-- The dwords of a 64-bit non-prefetchable memory BAR: its base and, in the low dword, the type. -/
def barDw (base : Nat) (hi : Bool) : Dword := if hi then hi32 base else lo32 base &&& 0xFFFFFFF0 ||| 0x4

/-- The part's PCI configuration header: IDs at 0x00, Revision ID and class code at 0x08, the BARs from 0x10 (R332, R335, R509; the places are PCI's:
PRESUMED, notes/assumptions/77.md). -/
def pciHeader (s : State) (off : Nat) : Dword :=
  match off with
  | 0x00 => dw (Config.pciVendor.toNat + Config.deviceId * 2 ^ 16)
  | 0x04 => dw (b2n s.hif.busMaster * 4)
  | 0x08 => dw (Config.revisionId + Config.classCode * 2 ^ 8)
  | 0x10 => barDw s.hif.pci.bar0 false
  | 0x14 => barDw s.hif.pci.bar0 true
  | 0x18 => barDw s.hif.pci.bar2 false
  | 0x1C => barDw s.hif.pci.bar2 true
  | _ => 0

/-- The capabilities of the function (R332), with what each says. -/
inductive PciCapability where
  | powerManagement (d3hot noSoftReset : Bool)
  | pciExpress (payloads reads rates lanes : List Nat) (aspmL1 aspmL0s flr timeoutDisable : Bool) (timeoutRanges : List Char)
  | msix (vectors table pba : Nat)
  | aer
  | secondary
  | physical16
  | physical32
  | laneMargining
  | serialNumber (serial : BitVec 64)
  deriving DecidableEq, Repr

def pciCapabilities : List PciCapability :=
  [.powerManagement true true,
   .pciExpress Config.payloadSizes Config.readSizes Config.linkRates Config.linkLanes true false true true ['A', 'B', 'C', 'D'],
   .msix 64 0x12000 0x13000, .aer, .secondary, .physical16, .physical32, .laneMargining, .serialNumber Config.serial]

/-- The answer to a configuration request of the header: Successful Completion once PERST# is deasserted and the PCIe core is up, and never
Configuration Request Retry Status (R334). -/
def configRead (s : State) (off : Nat) : Option Dword := if s.hif.pcieHeld || !s.hif.linkUp then none else some (pciHeader s off)

def capReg (off : Nat) : Dword :=
  if 0x200 ≤ off && decide (off < 0x400) then (if off % 8 = 0 then latId ((off - 0x200) / 8) else latValue ((off - 0x200) / 8))
  else capWord Config.variant off

/-! ### HIF (R359, R252, R335) -/

def ringStateCode (x : RingState) : Nat := match x with | .disabled => 0 | .enabled => 1 | .draining => 2 | .error => 3

def ringReg (x : Ring) (off : Nat) : Dword :=
  match off with
  | 0x00 => x.sqLo
  | 0x04 => x.sqHi
  | 0x08 => x.cqLo
  | 0x0C => x.cqHi
  | 0x10 => dw (b2n x.enable + x.sqLog2 * 2 ^ 4 + x.cqLog2 * 2 ^ 8 + x.maxPriority * 2 ^ 12 + b2n x.privileged * 2 ^ 16)
  | 0x14 => dw (ringStateCode x.state + x.cause * 2 ^ 2 + x.sqHead * 2 ^ 6 + x.cqTail * 2 ^ 19)
  | _ => 0

def descStateCode (d : DescState) : Nat := match d with | .idle => 0 | .active => 1 | .pending => 2 | .exhausted => 3

def hifReg (s : State) (off : Nat) : Dword :=
  if off = 0 then dw (s.hif.fwStage + s.hif.intake.length * 2 ^ 8 + s.hif.pendings.length * 2 ^ 16)
  else if off = 4 then dw (bitsOf (s.hif.rings.map (fun x => x.state == .error)))
  else if 0x100 ≤ off && decide (off < 0x500) then ringReg (ringOf s ((off - 0x100) / 0x40)) ((off - 0x100) % 0x40)
  else if 0x800 ≤ off && decide (off < 0x900) then
    let st := (off - 0x800) / 8
    if Config.streams ≤ st then 0 else
    let d := (lget s.streams st {}).desc
    if off % 8 = 0 then dw (descStateCode d.state + d.nextSlot * 2 ^ 16) else dw d.seq
  else if 0x2000 ≤ off && decide (off < 0x2400) then
    let e := lget s.hif.msix ((off - 0x2000) / 16) {}
    match off % 16 with | 0 => e.addrLo | 4 => e.addrHi | 8 => e.data | 12 => dw (b2n e.masked) | _ => 0
  else if off = 0x3000 then boolDw s.hif.pba 0
  else if off = 0x3004 then boolDw s.hif.pba 32
  else 0

/-! ### EVT (R375) -/

/-- A source of an absent stream: its registers read 0 (R361). -/
def sourceAbsent (n : Nat) : Bool := decide (0x20 + Config.streams ≤ n)

def logReg (l : EvtLog) (off : Nat) : Dword :=
  match off with
  | 0x00 => l.baseLo
  | 0x04 => l.baseHi
  | 0x08 => dw (b2n l.enabled + l.sizeLog2 * 2 ^ 8)
  | 0x0C => dw l.head
  | 0x10 => dw l.tail
  | 0x14 => dw l.lost
  | _ => 0

def evtReg (s : State) (off : Nat) : Dword :=
  let e := s.evt
  if off = 0x00 then boolDw (e.sources.map (·.pending)) 0
  else if off = 0x04 then boolDw (e.sources.map (·.pending)) 32
  else if off = 0x08 then boolDw (e.sources.map (·.fastPending)) 0
  else if off = 0x0C then boolDw (e.sources.map (·.fastPending)) 32
  else if off = 0x18 then boolDw (e.vectors.map (·.idleArmed)) 0
  else if off = 0x1C then boolDw (e.vectors.map (·.idleArmed)) 32
  else if 0x40 ≤ off && decide (off < 0x58) then logReg e.normal (off - 0x40)
  else if 0x60 ≤ off && decide (off < 0x78) then logReg e.fastLog (off - 0x60)
  else if 0x100 ≤ off && decide (off < 0x200) then
    let n := (off - 0x100) / 4
    let c := lget e.sources n (EvtSource.resetOf n)
    if sourceAbsent n then 0 else dw (c.vector + b2n c.fast * 2 ^ 8 + b2n c.irqEnable * 2 ^ 9)
  else if 0x200 ≤ off && decide (off < 0x300) then
    let n := (off - 0x200) / 4
    let c := lget e.sources n (EvtSource.resetOf n)
    if sourceAbsent n then 0 else dw (b2n (c.pending || c.fastPending) + c.count * 2 ^ 8)
  else if 0x300 ≤ off && decide (off < 0x400) then
    let v := lget e.vectors ((off - 0x300) / 4) {}
    dw (v.countThr + v.time * 2 ^ 8)
  else if 0x400 ≤ off && decide (off < 0x440) then lget e.fastLast ((off - 0x400) / 4) 0
  else 0

/-! ### HAL (R79, R432, R504) -/

def hoistCode (h : HoistState) : Nat :=
  match h with | .free => 0 | .loading => 1 | .loaded => 2 | .armed => 3 | .active => 4 | .mirror => 5 | .reloading => 6

/-- The pending switch that the registers show: target, boundary mode, T. The automatic one lands first (R79). -/
def shownSwitch (h : Hal) : Option (Nat × Bool × Fc) :=
  match h.autoSwitch, h.hostSwitch with
  | some a, _ => some (a.mirror, false, a.time)
  | none, some w => some (w.target, w.boundary, w.time)
  | none, none => none

def hoistStateReg (h : Hal) : Dword :=
  let st (k : Nat) : Nat := hoistCode (lget h.hoists k {}).state
  let sw := shownSwitch h
  dw (st 0 + st 1 * 2 ^ 4 + st 2 * 2 ^ 8 + st 3 * 2 ^ 12 + (h.active.getD 0) * 2 ^ 16 + b2n h.active.isSome * 2 ^ 18
    + b2n sw.isSome * 2 ^ 19 + (match sw with | some (t, b, _) => t * 2 ^ 20 + b2n b * 2 ^ 22 | none => 0))

def switchTime (h : Hal) : Fc := match shownSwitch h with | some (_, _, t) => t | none => 0

def haltCode (h : HaltState) : Nat := match h with | .running => 0 | .pending => 1 | .halted => 2 | .resuming => 3

def windowRunning (w : Window) : Bool := match w with | .running _ => true | _ => false

def proofCode (p : ProofState) : Nat := match p with | .none => 0 | .wait => 1 | .proof => 2 | .restore => 3

/-- The unit in proof, or the last one proven (R432). -/
def proofSite (p : Proof) : Site := if p.state = .none then p.lastSite else p.site

def halReg (s : State) (off : Nat) : Dword :=
  match off with
  | 0x000 => lo32 s.now
  | 0x004 => s.hal.timeHiLatch
  | 0x100 => hoistStateReg s.hal
  | 0x108 => lo32 (switchTime s.hal)
  | 0x10C => s.hal.switchHiLatch
  | 0x200 => dw (haltCode s.hal.halt + b2n (windowRunning s.hal.window) * 2 ^ 4)
  | 0x208 => lo32 s.hal.haltTime
  | 0x20C => s.hal.haltHiLatch
  | 0x300 => dw (b2n s.hal.proof.enable + s.hal.proof.spacingUs * 2 ^ 8 + s.hal.proof.maxWaitMs * 2 ^ 24)
  | 0x304 => dw (proofCode s.hal.proof.state)
  | 0x308 => proofSite s.hal.proof
  | 0x30C => dw s.hal.proof.rounds
  | 0x310 => dw s.hal.proof.deferred
  | _ => 0

/-! ### PWR (R400) -/

/-- The floor of a sector: the slowest that a cause asks for (R393). -/
def sectorFloor (x : Sector) : Nat := max x.floorThermal (max x.floorCap x.floorNeighbour)

def sectorStateCode (x : SectorState) : Nat := match x with | .off => 0 | .waking => 1 | .active => 2 | .sleep => 3
def opStateCode (x : OpState) : Nat := match x with | .steady => 0 | .raising => 1 | .lowering => 2

/-- A temperature in 1/16 °C as a 16-bit field; 0x8000 before the first sample. -/
def tempField (t : Option Int) : Nat := match t with | some x => (BitVec.ofInt 16 x).toNat | none => 0x8000

def sectorReg (x : Sector) : Dword :=
  dw (sectorStateCode x.state + opStateCode x.op * 2 ^ 4 + x.requested * 2 ^ 8 + sectorFloor x * 2 ^ 10 + x.actual * 2 ^ 12 + x.cause * 2 ^ 16)

def sectorTempReg (x : Sector) : Dword := dw (tempField x.temp + tempField x.peak * 2 ^ 16)

/-- The throttled bit of PWR_STATUS. -/
def throttled (s : State) : Bool := s.power.sectors.any (fun x => 0 < sectorFloor x)

/-- PWRGD is released (R485). -/
def pwrgdReleased (s : State) : Bool := s.power.powerGood

/-- THERM# is low (R485). -/
def thermLow (s : State) : Bool := throttled s

/-- FAULT# is low (R485). -/
def faultLow (s : State) : Bool := s.pins.faultLatched || !s.power.powerGood

def pwrReg (s : State) (off : Nat) : Dword :=
  let p := s.power
  if off = 0 then dw (b2n p.powerGood + b2n (!p.pmbus.crossed.isEmpty) * 2 ^ 1 + b2n (throttled s) * 2 ^ 2
    + (p.phasesEnded - 1) * 2 ^ 4 + b2n p.holdover * 2 ^ 8)
  else if off = 0x10 then dw (p.vin % 2 ^ 16)
  else if off = 0x14 then dw (p.iin % 2 ^ 16)
  else if off = 0x18 then dw (p.pin % 2 ^ 16)
  else if off = 0x20 then dw (p.cap + p.threshold * 2 ^ 16 + p.hysteresis * 2 ^ 24)
  else if 0x100 ≤ off && decide (off < 0x180) then
    let k := (off - 0x100) / 0x10
    if Config.sectors ≤ k then 0 else
    match off % 0x10 with
    | 0 => sectorReg (lget p.sectors k {})
    | 4 => sectorTempReg (lget p.sectors k {})
    | _ => 0
  else 0

/-! ### SEC (R476) -/

def lifeCode (l : LifeState) : Nat := match l with | .manufacture => 0 | .provisioned => 1 | .deployed => 2 | .returned => 3 | .scrapped => 4

def keyValid (k : KeySlot) : Bool := match k with | .valid _ => true | _ => false
def keyRevoked (k : KeySlot) : Bool := match k with | .revoked _ => true | _ => false

def secReg (s : State) (off : Nat) : Dword :=
  let c := s.sec
  if off = 0 then dw (lifeCode c.life + c.cycle * 2 ^ 4 + b2n c.bootError * 2 ^ 6 + b2n c.committedB * 2 ^ 7 + b2n c.staged.isSome * 2 ^ 8
    + b2n c.swap.isSome * 2 ^ 9 + b2n c.fallback * 2 ^ 10 + c.floor * 2 ^ 16)
  else if 0x10 ≤ off && decide (off < 0x30) then dw (nbits c.challenge.toNat (8 * (off - 0x10) + 31) (8 * (off - 0x10)))
  else if off = 0x40 then dw (bitsOf (c.imageKeys.map keyValid) + bitsOf (c.imageKeys.map keyRevoked) * 2 ^ 8
    + bitsOf (c.fwKeys.map Option.isSome) * 2 ^ 16 + bitsOf c.fwRevoked * 2 ^ 20 + b2n c.ownerKey.isSome * 2 ^ 24 + b2n c.identity.isSome * 2 ^ 25)
  else 0

/-! ### LANE (R330) -/

def streamCode (x : StreamState) : Nat := match x with | .closed => 0 | .courier => 1 | .infer => 2 | .dip => 3 | .closing => 4

/-- Frames of the stream held at the dip (R323). -/
def heldFrames (c : StreamCtx) : Nat := (c.frames.filter (·.held)).length

/-- Entries of the circular queue that a buffer holds (R316). -/
def bufferHeld (l : List BufEntry) : Nat := (l.filter (fun e => !e.owed)).length

/-- Entries that a discard has still to free at the start of an fc (R171). -/
def bufferFreeing (now : Fc) (c : StreamCtx) : Nat := c.dropN - 8 * (now - c.dropAt)

/-- The buffer's count: the entries written by an fc, and those that a discard has yet to free. -/
def bufferCount (now : Fc) (c : StreamCtx) : Nat := bufferHeld (c.buffer.filter (fun e => decide (e.entered ≤ now))) + bufferFreeing now c

def laneReg (s : State) (off : Nat) : Dword :=
  if off < 0x400 then
    let st := off / 0x20
    if Config.streams ≤ st then 0 else
    let c := lget s.streams st {}
    match off % 0x20 with
    | 0x00 => dw (streamCode c.state + c.lanesLog2 * 2 ^ 4 + c.path * 2 ^ 6 + b2n (0 < heldFrames c || c.proofHold) * 2 ^ 8
        + b2n c.modePending.isSome * 2 ^ 9 + sat 0xFFFF (heldFrames c) * 2 ^ 16)
    | 0x04 => dw c.nextId
    | 0x08 => dw (bufferCount s.now c)
    | 0x0C => dw c.misses
    | _ => 0
  else if off = 0x800 then boolDw (s.lanes.lock.take Config.streams) 0
  else if off = 0x804 then boolDw (s.lanes.hiBer.take Config.streams) 0
  else 0

/-! ### SPAN (R281) -/

def spanCode (x : SpanState) : Nat := match x with | .closed => 0 | .training => 1 | .measuring => 2 | .up => 3 | .closing => 4 | .down => 5

/-- θ as a 64-bit number. -/
def offsetBits (p : SpanPort) : Nat := (BitVec.ofInt 64 p.offset).toNat

def spanReg (s : State) (off : Nat) : Dword :=
  let k := off / 0x100
  if Config.spanPorts ≤ k then 0 else
  let p := lget s.span k {}
  match off % 0x100 with
  | 0x00 => dw (spanCode p.state + bitsOf p.lock * 2 ^ 4 + p.epoch * 2 ^ 8 + b2n p.measuring * 2 ^ 16)
  | 0x08 => lo32 (offsetBits p)
  | 0x0C => p.offsetHiLatch
  | 0x10 => dw (p.delay % 2 ^ 24)
  | 0x14 => dw (p.spread % 2 ^ 16)
  | _ => 0

/-! ### MEM (R231) -/

def memReg (s : State) (off : Nat) : Dword :=
  let f := s.feed
  match off with
  | 0x00 => boolDw ((f.channels.take Config.channels).map (fun c => c.state == .retraining)) 0
  | 0x04 => boolDw ((f.channels.take Config.channels).map (fun c => c.state == .lost)) 0
  | 0x10 => dw (f.driftThreshold + f.cycleWindow * 2 ^ 16)
  | 0x18 => dw f.patrolPasses
  | 0x20 => lo32 f.mirrorOffset
  | 0x24 => hi32 f.mirrorOffset
  | _ => 0

/-! ### TRC (R453) -/

def traceCode (x : TraceState) : Nat := match x with | .off => 0 | .ready => 1 | .running => 2 | .post => 3 | .stopped => 4

/-- Lines of the trace region (R439). -/
def traceLines (t : Trace) : Nat := t.units * 229376

def trcReg (s : State) (off : Nat) : Dword :=
  let t := s.trace
  match off with
  | 0x00 => dw (traceCode t.state + t.cfg.mode * 2 ^ 4 + t.stopReason * 2 ^ 8 + b2n t.triggered * 2 ^ 12)
  | 0x08 => if t.state = .off then 0 else lo32 t.base
  | 0x0C => if t.state = .off then 0 else hi32 t.base
  | 0x10 => dw (traceLines t)
  | 0x18 => dw (t.wp + b2n t.wrap * 2 ^ 31)
  | 0x20 => lo32 t.trigTime
  | 0x24 => t.trigHiLatch
  | 0x28 => dw t.trigLine
  | 0x30 => dw t.lost
  | _ => 0

/-! ### Counter pages (R446 to R448) -/

/-- A view of a page: BAR2 or BAR0. -/
def viewOf (s : State) (bar2 : Bool) (g : Nat) : PageView := amGetD (if bar2 then s.cnt.bar2 else s.cnt.bar0) g {}

/-- The value of the counter at offset off as a view shows it. -/
def viewCounter (s : State) (bar2 : Bool) (g off : Nat) : Nat :=
  if (viewOf s bar2 g).sampledView then amGetD (viewOf s bar2 g).sample off 0 else counterNow s g off

/-- A programmable page's run bit; 1 on unit pages. -/
def pageRun (s : State) (g : Nat) : Bool := if g < 64 then (lget s.cnt.progs g {}).run else true

/-- Whether an offset is a counter's LO dword: 8-byte steps from 0x040; on a programmable page only 0x040. -/
def isCounter (g off : Nat) : Bool := decide (0x40 ≤ off) && off % 8 == 0 && (decide (64 ≤ g) || off == 0x40)

def pageReg (s : State) (bar2 : Bool) (g off : Nat) : Dword :=
  let granted := (amGet s.cnt.grants g).isSome
  if !pagePresent g || (bar2 && !granted) then 0 else
  let v := viewOf s bar2 g
  if off = 0x000 then dw (b2n v.sampledView + b2n (pageRun s g) * 2 ^ 3)
  else if off = 0x008 then lo32 v.sampleTime
  else if off = 0x00C then v.timeHi
  else if off = 0x010 then dw (g + pageKind g * 2 ^ 12 + pageSector g * 2 ^ 16 + b2n granted * 2 ^ 24 + b2n ((amGet s.cnt.grants g).getD false) * 2 ^ 25)
  else if g < 64 && 0x48 ≤ off && decide (off < 0x68) then lget (lget s.cnt.progs g {}).cfg ((off - 0x48) / 4) 0
  else if isCounter g off then lo32 (viewCounter s bar2 g off)
  else if off % 8 = 4 && isCounter g (off - 4) then amGetD v.latches (off - 4) 0
  else 0

/-! ### Any register -/

/-- The value of the register at an offset of a block. -/
def blockReg (s : State) (b : Block) (off : Nat) : Dword :=
  match b with
  | .cap => capReg off
  | .hif => hifReg s off
  | .evt => evtReg s off
  | .hal => halReg s off
  | .pwr => pwrReg s off
  | .sec => secReg s off
  | .lane => laneReg s off
  | .span => spanReg s off
  | .mem => memReg s off
  | .trc => trcReg s off
  | .cnt => pageReg s false (off / 0x1000) (off % 0x1000)
  | .none_ => 0

/-- A dword read of BAR0 or BAR2 (R336, R496): the value alone. -/
def readReg (s : State) (bar off : Nat) : Dword :=
  if bar = 0 then blockReg s (blockOf off).1 (blockOf off).2
  else if bar = 2 && decide (0x800000 ≤ off) then pageReg s true ((off - 0x800000) / 0x1000) ((off - 0x800000) % 0x1000)
  else 0

end Sys2Proof.Machine
end

