-- ==== Sys2Proof/Machine/Take.lean ====
section
/-! DEFINITION. How firmware takes a command: the row a packet spells, the service order of the intake FIFO (spec/12_host_commands.md R348, R349),
the packet checks (R347), and the two ways a command ends (R344). -/

namespace Sys2Proof.Machine

/-- Which row of an opcode a packet spells: 0 for the first row, which also takes what no other row of the opcode spells. -/
def formOf (p : Packet) : Nat :=
  let d2 := pktDw p 2
  match pktOpcode p with
  | 0x03 => dbits d2 0 0
  | 0x10 => dbits d2 0 0
  | 0x12 => dbits d2 8 8
  | 0x14 => dbits d2 9 9
  | 0x23 => dbits d2 8 8
  | 0x30 => if dbits d2 2 0 ≤ 3 then dbits d2 2 0 else 0
  | 0x31 => if siteKind d2 = 6 then 2 else if siteSub d2 = 0xFFFF then 1 else 0
  | 0x3A => if dbits d2 1 0 ≤ 2 then dbits d2 1 0 else 0
  | 0x40 => if dbits d2 2 0 ≤ 6 then dbits d2 2 0 else 0
  | 0x41 => if dbits d2 2 0 ≤ 3 then dbits d2 2 0 else 0
  | 0x48 => if dbits d2 9 8 = 1 then 1 else 0
  | 0x59 => if dbits d2 1 0 ≤ 2 then dbits d2 1 0 else 0
  | 0x60 => if dbits d2 2 0 ≤ 5 then dbits d2 2 0 else 0
  | _ => 0

/-- A packet spells the row of opcode `op` and form `form`. NOP's row also takes the packets whose opcode is not in R350. -/
def spells (p : Packet) (op form : Nat) : Bool :=
  (pktOpcode p == op || (op == 0x01 && !opcodes.contains (pktOpcode p))) && formOf p == form

/-- The four rows of LIFECYCLE differ in the op of the authorisation they name (R465): byte 4. -/
def authOp (auth : HostData) : Nat :=
  match auth with
  | some bytes => if leAt bytes 4 1 ≤ 3 then leAt bytes 4 1 else 0
  | none => 0

/-! ### Service order (R349) -/

/-- A packet's priority counts as the lower of its field and its ring's max_priority. -/
def effPriority (s : State) (c : HostCmd) : Nat := min (pktPriority c.pkt) (ringOf s c.ring).maxPriority

/-- Commands that wait in the FIFO: HOIST_ARM, HOIST_RELEASE and SCALE_SET during a load (R300), LIFECYCLE and WIPE during a load, a verify or an FW_STAGE (R467). -/
def heldInFifo (s : State) (p : Packet) : Bool :=
  let op := pktOpcode p
  let loading := match s.hal.load with | some j => !j.verify | none => false
  ((op == 0x12 || op == 0x14 || op == 0x28) && loading)
    || ((op == 0x58 || op == 0x59) && (s.hal.load.isSome || isPending s (fun k => k == .fwStage)))

/-- The command that firmware takes next from a FIFO: the first of highest priority among those not held. -/
def nextInService (s : State) (q : List HostCmd) : Option HostCmd :=
  q.foldl (fun best c =>
    if heldInFifo s c.pkt then best else
    match best with
    | none => some c
    | some b => if effPriority s b < effPriority s c then some c else some b) none

def fifoOf (s : State) : List HostCmd := s.hif.intake.map (fun i => ⟨i.ring, i.pkt⟩)

def inFifo (s : State) (c : HostCmd) : Bool := (fifoOf s).contains c

/-- Completion entries that a packet reserves (R339). -/
def reserveOf (p : Packet) : Nat := 1 + b2n (pktAck p)

/-- Free completion entries of a ring that no fetched packet has reserved (R339). -/
def cqFree (x : Ring) : Nat := 2 ^ x.cqLog2 - ptrCount (x.cqLog2 + 1) x.cqHead x.cqTail - x.reserved

/-- A packet at the submission head may be fetched now: what R339, R348 and R408 ask. -/
def fetchable (s : State) (c : HostCmd) : Bool :=
  let x := ringOf s c.ring
  decide (c.ring < 16) && decide (0 < ptrCount (x.sqLog2 + 1) x.sqHead x.sqTail) && x.state == .enabled && hostUp s && !s.hif.fetchStopped && decide (s.hif.intake.length < 128)
    && decide (reserveOf c.pkt ≤ cqFree x) && (!pktFence c.pkt || x.open_ == 0)

/-- The packet is fetched: it leaves the submission ring, its completion entries reserved. -/
def fetched (s : State) (c : HostCmd) : State :=
  modRing s c.ring (fun x => { x with sqHead := (x.sqHead + 1) % 2 ^ (x.sqLog2 + 1), reserved := x.reserved + reserveOf c.pkt, open_ := x.open_ + 1 })

/-- Firmware takes this command now: a stage that serves commands, and the command next in service order, whether it stands in the FIFO or is fetched at this moment (notes/assumptions/6.md). -/
def takeable (s : State) (c : HostCmd) : Bool :=
  s.hif.fwStage != 0 && !(s.mgmt.mc0Down && s.mgmt.mc1Down) &&
    (if inFifo s c then nextInService s (fifoOf s) == some c
     else fetchable s c && nextInService s (fifoOf s ++ [c]) == some c)

/-- The state in which the command has left the FIFO, its completion entries reserved. -/
def taken (s : State) (c : HostCmd) : State :=
  if inFifo s c then { s with hif := { s.hif with intake := s.hif.intake.erase ⟨c.ring, c.pkt⟩ } }
  else fetched s c

/-! ### Outcomes of a taken command -/

/-- How a command's own rules end it at take: a final completion with the command's data writes, or a pending command. -/
inductive Verdict where
  | finish (status : Nat) (detail : Nat) (writes : List (Nat × List Byte)) (s : State)
  | pend (kind : PendKind) (s : State)

/-- Refused at take: no effect. -/
def refuse (s : State) (status : Nat) (detail : Nat := 0) : Verdict := .finish status detail [] s

/-- Completed OK at take. -/
def okAt (s : State) (detail : Nat := 0) : Verdict := .finish stOK detail [] s

/-- The final completion at take. -/
def finishTaken (s : State) (c : HostCmd) (status detail : Nat) (writes : List (Nat × List Byte)) : State :=
  complete s { ring := c.ring, tag := pktTag c.pkt, status := status, opcode := pktOpcode c.pkt, detail := dw detail, time := s.now,
               interim := false, priority := pktPriority c.pkt, release := reserveOf c.pkt, writes := writes }

/-- The command pends, with an interim completion when it asks for one (R344). -/
def pendTaken (s : State) (c : HostCmd) (kind : PendKind) : State :=
  let x : PendCmd := { id := s.hif.nextPend, ring := c.ring, tag := pktTag c.pkt, opcode := pktOpcode c.pkt, priority := pktPriority c.pkt,
                       acked := pktAck c.pkt, kind := kind, takenAt := s.now }
  let s1 := { s with hif := { s.hif with pendings := s.hif.pendings ++ [x], nextPend := s.hif.nextPend + 1 } }
  if pktAck c.pkt then
    complete s1 { ring := c.ring, tag := pktTag c.pkt, status := stPending, opcode := pktOpcode c.pkt, detail := 0, time := s.now,
                  interim := true, priority := pktPriority c.pkt, release := 1 }
  else s1

/-- The packet checks of R347, steps 1 to 4: the status and detail of the first that fails. -/
def precheck (s : State) (c : HostCmd) : Option (Nat × Nat) :=
  let op := pktOpcode c.pkt
  let mode := if op = 0x20 then dbits (pktDw c.pkt 2) 10 10 else dbits (pktDw c.pkt 2) 9 8
  if !opcodes.contains op then some (stBadOpcode, 0)
  else if !(ringOf s c.ring).privileged && !opcodeUnprivileged op then some (stDenied, 1)
  else if !pktFormed c.pkt then some (stBadParam, 0)
  else if s.hif.fwStage = 1 && !stage1Serves op mode then some (stBusy, 1)
  else none

/-- The command end of R344 for a verdict; a command that would pend while 64 are pending completes QUEUE_FULL with no effect (R347 step 6). -/
def conclude (s : State) (c : HostCmd) (v : Verdict) : State :=
  match v with
  | .finish status detail writes s' => finishTaken s' c status detail writes
  | .pend kind s' => if 64 ≤ s.hif.pendings.length then finishTaken s c stQueueFull 0 [] else pendTaken s' c kind

/-- The begin record of the command (R436). -/
def beginTrace (s : State) (c : HostCmd) : State :=
  traceNow s 0x0001 (mgmtSite 0) none noFrame (cmdKey (ringOf s c.ring) c.ring (pktTag c.pkt) (pktOpcode c.pkt) (pktPriority c.pkt)).toNat 0 0

/-- Firmware takes the command of a row: no effect when the packet spells another row or is not next in service; else the packet checks, then the command's own rules. -/
def takeCmd (s : State) (c : HostCmd) (op form : Nat) (body : State → Packet → Verdict) : Host.Outcome State Fault Refusal :=
  if spells c.pkt op form && takeable s c then
    let s1 := beginTrace (taken s c) c
    match precheck s1 c with
    | some (status, detail) => done (finishTaken s1 c status detail [])
    | none => done (conclude s1 c (body s1 c.pkt))
  else done s

/-- What a command reads of host memory: nothing while the part may not access it (R356, R358). -/
def hostRead (s : State) (d : HostData) : HostData := if hostUp s then d else none

/-! ### AER (R333) -/

/-- The class under which AER reports an error. -/
def aerClass (e : PcieError) : AerClass :=
  match e with
  | .receiver | .badTlp | .badDllp | .replayRollover | .replayTimeout => .correctable
  | .poisonedTlp | .completionTimeout | .completerAbort | .unexpectedCompletion | .unsupportedRequest => .nonFatal
  | .dataLinkProtocol | .malformedTlp | .receiverOverflow | .flowControl | .surpriseDown => .fatal

/-- An error reported: it stands in the status of its class. -/
def aerReport (s : State) (e : PcieError) : State :=
  let a := s.hif.aer
  let b : Aer := match aerClass e with
    | .correctable => { a with correctable := addNew a.correctable e }
    | .nonFatal => { a with nonFatal := addNew a.nonFatal e }
    | .fatal => { a with fatal := addNew a.fatal e }
  { s with hif := { s.hif with aer := b } }

/-- The error of a host read that has failed on the link: which of the four it was is a free value (notes/assumptions/77.md). -/
def readError (draw : Nat) : PcieError :=
  match Config.readError draw with
  | 0 => .unsupportedRequest
  | 1 => .completerAbort
  | 2 => .poisonedTlp
  | 3 => .completionTimeout

/-- A host read has failed: on the link, unless the part could not make it. -/
def readFailed (s : State) : State := if hostUp s then drawn (aerReport s (readError s.fresh)) else s

/-- The byte of a read of n bytes at which it failed: the first where the part could not begin it, a free one where the link failed it. -/
def failedAt (s : State) (n : Nat) : Nat := if hostUp s && decide (0 < n) then Config.failOffset s.fresh % n else 0

/-- R356: a host memory read of n bytes of the command failed; `addr` gives the address of each of them. -/
def hostAccessFailed (s : State) (c : HostCmd) (n : Nat) (addr : Nat → Nat) : Verdict :=
  .finish stAborted 0x0C05 [] (dataFails (readFailed s) c.ring (pktTag c.pkt) (addr (failedAt s n)))

/-- R37: T at least 2,048 fc after take. -/
def timeOk (s : State) (t : Nat) : Bool := decide (s.now + 2048 ≤ t)

end Sys2Proof.Machine
end

