-- ==== Sys2Proof/Machine/Beats.lean ====
section
/-! DEFINITION. Beats and their tokens (spec/02_fabric_hoists.md R55 to R58, spec/06_tokens_steering.md R172, R175, R176), the CRCs of the part, and
the frames that a list of beats belongs to. -/

namespace Sys2Proof.Machine

/-! ### CRC -/

/-- Bits n−1 down to 0 of x. -/
def bitsDown : Nat → Nat → List Bool
  | 0, _ => []
  | k + 1, x => x.testBit k :: bitsDown k x

/-- One bit into a w-bit CRC register, most significant bit first. -/
def crcStep (w poly crc : Nat) (b : Bool) : Nat :=
  let top := crc.testBit (w - 1) != b
  let sh := crc * 2 % 2 ^ w
  if top then sh ^^^ poly else sh

def crcBits (w poly crc : Nat) (l : List Bool) : Nat := l.foldl (crcStep w poly) crc

/-- CRC-9 of R57: data bits 511 down to 0, then sideband bits 31 down to 9. -/
def crc9 (data : BitVec 512) (side : BitVec 32) : Nat :=
  crcBits 9 0x139 (crcBits 9 0x139 0x1FF (bitsDown 512 data.toNat)) (bitsDown 23 (side.toNat / 2 ^ 9))

/-! ### Beat fields (R56) -/

def bType (b : Beat) : Nat := nbits b.side.toNat 31 28
def bTag (b : Beat) : Nat := nbits b.side.toNat 27 16
def bStream (b : Beat) : Nat := nbits b.side.toNat 15 11
def bLast (b : Beat) : Bool := b.side.getLsbD 10
def bOutlier (b : Beat) : Bool := b.side.getLsbD 9
def bCrc (b : Beat) : Nat := nbits b.side.toNat 8 0
def bField (b : Beat) (hi lo : Nat) : Nat := nbits b.data.toNat hi lo

/-- The sideband without its CRC. -/
def sideOf (type tag stream : Nat) (last outlier : Bool) : BitVec 32 :=
  BitVec.ofNat 32 (type * 2 ^ 28 + tag % 4096 * 2 ^ 16 + stream % 32 * 2 ^ 11 + b2n last * 2 ^ 10 + b2n outlier * 2 ^ 9)

/-- A beat with the CRC that the producing port computes. -/
def sealBeat (data : BitVec 512) (side : BitVec 32) : Beat := ⟨data, side ||| BitVec.ofNat 32 (crc9 data side)⟩

def mkBeat (type tag stream : Nat) (last outlier : Bool) (data : BitVec 512) : Beat := sealBeat data (sideOf type tag stream last outlier)

/-- The beat that a segment carries when nothing is sent (R58). -/
def noToken : Beat := ⟨0, BitVec.ofNat 32 (15 * 2 ^ 28)⟩

/-- Lane k of a data beat: 16 bits (R55). -/
def lane16 (d : BitVec 512) (k : Nat) : BitVec 16 := BitVec.ofNat 16 (d.toNat >>> (16 * k))

/-- 512 bits from 32 lanes of 16 bits. -/
def lanesTo (l : List (BitVec 16)) : BitVec 512 :=
  BitVec.ofNat 512 ((l.take 32).zipIdx.foldl (fun n p => n + p.1.toNat * 2 ^ (16 * p.2)) 0)

def tyData : Nat := 0
def tyPennant : Nat := 1
def tyTack : Nat := 2
def tyMarker : Nat := 3
def tyEcho : Nat := 4

/-! ### Tack lines (R172) -/

/-- kind 0 open, 1 void. -/
def mkTack (stream frame kind firstTag arrival code : Nat) : Beat :=
  mkBeat tyTack firstTag stream false false
    (BitVec.ofNat 512 (frame % 2 ^ 32 + kind * 2 ^ 32 + firstTag % 4096 * 2 ^ 48 + arrival % 2 ^ 64 * 2 ^ 64 + code % 2 ^ 16 * 2 ^ 128))

def isTack (b : Beat) : Bool := bType b == tyTack
def tackFrame (b : Beat) : Nat := bField b 31 0
def tackKind (b : Beat) : Nat := bField b 33 32
def tackFirst (b : Beat) : Nat := bField b 59 48
def tackArrival (b : Beat) : Nat := bField b 127 64
def tackCode (b : Beat) : Nat := bField b 143 128
def tackInfo (b : Beat) : TackInfo := ⟨tackArrival b, tackFirst b⟩
def isOpenTack (b : Beat) : Bool := isTack b && tackKind b == 0
def isVoidTack (b : Beat) : Bool := isTack b && tackKind b == 1

/-! ### Pennants and spill markers (R175, R176) -/

def penTag (b : Beat) : Nat := bField b 11 0
def penAction (b : Beat) : Nat := bField b 15 12
def penMask (b : Beat) : Nat := bField b 23 16
def penCount (b : Beat) : Nat := bField b 43 32 + 1
/-- Reserved fields of a pennant are 0. -/
def penReserved (b : Beat) : Bool := bField b 31 24 != 0 || bField b 511 44 != 0

def mkMarker (stream : Nat) (site : Site) (queue dir count addr : Nat) : Beat :=
  mkBeat tyMarker 0 stream false false
    (BitVec.ofNat 512 (site.toNat + queue % 16 * 2 ^ 32 + dir % 4 * 2 ^ 36 + (count - 1) % 16 * 2 ^ 40 + addr % 2 ^ 36 * 2 ^ 64))

def markSite (b : Beat) : Site := dw (bField b 31 0)
def markQueue (b : Beat) : Nat := bField b 35 32
def markDir (b : Beat) : Nat := bField b 37 36
def markCount (b : Beat) : Nat := bField b 43 40 + 1
def markAddr (b : Beat) : Nat := bField b 99 64

/-! ### Frames -/

/-- The frame before another, modulo 2^32. -/
def framePred (f : Nat) : Nat := (f + 2 ^ 32 - 1) % 2 ^ 32
def frameSucc (f : Nat) : Nat := (f + 1) % 2 ^ 32

/-- Frame b comes after frame a (R28). -/
def frameAfter (a b : Nat) : Bool :=
  let d := (b + 2 ^ 32 - a % 2 ^ 32) % 2 ^ 32
  1 ≤ d && decide (d < 2 ^ 31)

def dedup {α : Type} [DecidableEq α] (l : List α) : List α := l.foldl addNew []

/-- The frame of each beat of stream st in a list, oldest first; `cur` is the frame of the last tack line ahead of the list. -/
def frameRun (st : Nat) : Option Nat → List Beat → List (Option Nat)
  | _, [] => []
  | cur, b :: rest =>
    if bStream b = st ∧ bType b ≤ 2 then
      let c := if isTack b then some (tackFrame b) else cur
      c :: frameRun st c rest
    else frameRun st cur rest

/-- The frames of stream st with beats or tack lines in a list. -/
def framesIn (st : Nat) (cur : Option Nat) (beats : List Beat) : List Nat := dedup ((frameRun st cur beats).filterMap id)

/-- Remove a frame's beats; those that p keeps stay. What is left, and how many went. -/
def dropFrame (st frame : Nat) (keep : Beat → Bool) : Option Nat → List Beat → List Beat × Nat
  | _, [] => ([], 0)
  | cur, b :: rest =>
    if bStream b = st ∧ bType b ≤ 2 then
      let c := if isTack b then some (tackFrame b) else cur
      let r := dropFrame st frame keep c rest
      if c = some frame ∧ !keep b then (r.1, r.2 + 1) else (b :: r.1, r.2)
    else
      let r := dropFrame st frame keep cur rest
      (b :: r.1, r.2)

/-- The list holds the end of a frame: its void tack line, or a later frame's tack line. -/
def endsFrame (st frame : Nat) (beats : List Beat) : Bool :=
  beats.any (fun b => isTack b && bStream b == st && (frameAfter frame (tackFrame b) || (isVoidTack b && tackFrame b == frame)))

/-- Streams with beats in a list. -/
def streamsIn (beats : List Beat) : List Nat := dedup ((beats.filter (fun b => decide (bType b ≤ 2))).map bStream)

end Sys2Proof.Machine
end

