-- ==== Sys2Proof/Machine/Links.lean ====
section
/-! DEFINITION. The state of each element by its site, configuration words of the active hoist, the topology of the switch boxes, and the links with their credits
(spec/02_fabric_hoists.md R41 to R65, spec/10_compiler_contract.md R296). -/

namespace Sys2Proof.Machine

/-! ### The state of each element by its site -/

def tileOf (s : State) (u : Site) : MatrixTile := amGetD s.tiles u {}
def setTile (s : State) (u : Site) (t : MatrixTile) : State := { s with tiles := amSet s.tiles u t }
def vtileOf (s : State) (u : Site) : VectorTile := amGetD s.vtiles u {}
def setVtile (s : State) (u : Site) (t : VectorTile) : State := { s with vtiles := amSet s.vtiles u t }
def wtileOf (s : State) (u : Site) : WindowTile := amGetD s.wtiles u {}
def setWtile (s : State) (u : Site) (t : WindowTile) : State := { s with wtiles := amSet s.wtiles u t }
def glueOf (s : State) (u : Site) : GlueBlock := amGetD s.glue u {}
def setGlue (s : State) (u : Site) (t : GlueBlock) : State := { s with glue := amSet s.glue u t }
def steerOf (s : State) (u : Site) : SteeringUnit := amGetD s.steer u {}
def setSteer (s : State) (u : Site) (t : SteeringUnit) : State := { s with steer := amSet s.steer u t }
def queueOf (s : State) (q : Nat) : MemQueue := amGetD s.feed.queues q {}
def setQueue (s : State) (q : Nat) (x : MemQueue) : State := { s with feed := { s.feed with queues := amSet s.feed.queues q x } }
def channelOf (s : State) (c : Nat) : Channel := lget s.feed.channels c {}
def setChannel (s : State) (c : Nat) (x : Channel) : State := { s with feed := { s.feed with channels := s.feed.channels.set c x } }
def streamOf (s : State) (st : Nat) : StreamCtx := lget s.streams st {}
def setStream (s : State) (st : Nat) (c : StreamCtx) : State := { s with streams := s.streams.set st c }
def modStream (s : State) (st : Nat) (f : StreamCtx → StreamCtx) : State := { s with streams := lmod s.streams st f }
def spanOf (s : State) (p : Nat) : SpanPort := lget s.span p {}
def setSpan (s : State) (p : Nat) (x : SpanPort) : State := { s with span := s.span.set p x }
def sectorOf (s : State) (k : Nat) : Sector := lget s.power.sectors k {}
def setSector (s : State) (k : Nat) (x : Sector) : State := { s with power := { s.power with sectors := s.power.sectors.set k x } }

/-- The place of a unit in R111; a switch box is enabled or lost. -/
def ctlOf (s : State) (u : Site) : UnitCtl :=
  match siteKind u with
  | 0 => (tileOf s u).ctl
  | 1 => (vtileOf s u).ctl
  | 2 => (wtileOf s u).ctl
  | 3 => (steerOf s u).ctl
  | 4 => (glueOf s u).ctl
  | 5 => amGetD s.feed.ports (siteElem u) {}
  | _ => { state := if s.lostBoxes.contains u then .lost else .enabled }

def unitState (s : State) (u : Site) : UnitState := (ctlOf s u).state

/-- Add n to counter j of a unit; the counters of a DISABLED or LOST unit stop (R444). -/
def countUnit (s : State) (u : Site) (j n : Nat) : State :=
  if unitState s u = .disabled ∨ unitState s u = .lost then s else count s (unitCounter u j) n

/-! ### Configuration words (R50, R85, R141, R151, R158, R177, R202, R272) -/

def hoistOf (s : State) (h : Nat) : Hoist := lget s.hal.hoists h {}

def setHoist (s : State) (h : Nat) (x : Hoist) : State := { s with hal := { s.hal with hoists := s.hal.hoists.set h x } }

def imageOf (s : State) (handle : Nat) : Option Image := s.hal.images.find? (fun i => decide (i.handle = handle))

/-- The image whose configuration the active hoist holds. -/
def activeImage (s : State) : Option Image :=
  match s.hal.active with
  | some h => (hoistOf s h).image.bind (imageOf s)
  | none => none

/-- The words of a unit in a hoist's configuration; a unit not listed has every dword 0 (R288). -/
def hoistWords (s : State) (h : Nat) (u : Site) : List Dword := amGetD (hoistOf s h).words u []

/-- Dword i of a unit in the active hoist; 0 when none is active. -/
def cfgDw (s : State) (u : Site) (i : Nat) : Dword :=
  match s.hal.active with
  | some h => lget (hoistWords s h u) i 0
  | none => 0

/-- The unit whose words describe an end of a link, and the dword index of its port word; none for the ingress and egress of a stream. -/
def portWordAt (e : EndPoint) (output : Bool) : Option (Site × Nat) :=
  match siteKind e.site with
  | 0 | 1 | 2 | 3 => some (e.site, e.port)
  | 4 => some (e.site, 1 + e.port)
  | 5 => some (siteWithSub e.site e.port, 0)
  | 8 => some (e.site, if output then 4 + e.port else e.port)
  | _ => none

def portWord (s : State) (e : EndPoint) (output : Bool) : Dword :=
  match portWordAt e output with
  | some (u, i) => cfgDw s u i
  | none => 0

def pwUsed (w : Dword) : Bool := dbit w 0
def pwDepth (w : Dword) : Nat := dbits w 6 1

/-- Role bits of a port: bit 0 input, bit 1 output (R85). A queue slot's role follows its mode (R206); a glue port is both. -/
def portRole (s : State) (u : Site) (p : Nat) : Nat :=
  match siteKind u with
  | 0 | 2 => dbits (cfgDw s u 4) (9 + 2 * p) (8 + 2 * p)
  | 1 | 3 => dbits (cfgDw s u 8) (17 + 2 * p) (16 + 2 * p)
  | 4 => 3
  | 5 =>
    match dbits (cfgDw s (siteWithSub u p) 1) 2 1 with
    | 0 | 1 => 2
    | 2 => 1
    | _ => 3
  | _ => 0

def portCount (kind : Nat) : Nat := match kind with | 0 | 2 => 4 | 1 | 3 | 5 => 8 | 4 => 64 | _ => 0

/-- Output ports of an element that carry beats in the active hoist. -/
def outPorts (s : State) (u : Site) : List Nat :=
  (List.range (portCount (siteKind u))).filter (fun p => portRole s u p / 2 % 2 == 1 && pwUsed (portWord s ⟨u, p⟩ true))

def inPorts (s : State) (u : Site) : List Nat :=
  (List.range (portCount (siteKind u))).filter (fun p => portRole s u p % 2 == 1 && pwUsed (portWord s ⟨u, p⟩ false))

/-- The used bit of an element in the active hoist. -/
def unitUsed (s : State) (u : Site) : Bool :=
  match siteKind u with
  | 0 | 2 => dbit (cfgDw s u 4) 0
  | 1 | 3 => dbit (cfgDw s u 8) 0
  | 4 => dbit (cfgDw s u 0) 0
  | _ => true

/-! ### Where elements attach (R42 to R44) -/

def rowBox (sec y x : Nat) : Site := siteOf 10 sec y x 0
def colBox (sec y x : Nat) : Site := siteOf 10 sec (y + 8) x 0

/-- Box and local port of an end of a link. -/
def attachOf (e : EndPoint) : Option (Site × Nat) :=
  let u := e.site
  let sec := siteSector u
  let y := siteY u
  let x := siteX u
  let p := e.port
  match siteKind u with
  | 0 => if p < 2 then some (rowBox sec y x, p) else some (colBox sec y x, p - 2)
  | 1 => if p < 4 then some (rowBox sec (4 * y + 1) x, 2 + p) else some (colBox sec (4 * y + 1) x, p - 2)
  | 2 => if p < 2 then some (rowBox sec 0 x, 6 + p) else some (colBox sec 0 x, 4 + p)
  | 3 => if p < 4 then some (rowBox sec (2 * y) x, 2 + p) else some (colBox sec (2 * y) x, p - 2)
  | 4 => if p % 8 < 4 then some (rowBox sec 7 (p / 8), 2 + p % 8) else some (colBox sec 7 (p / 8), p % 8 - 2)
  | 5 => if p < 4 then some (rowBox sec 3 x, 2 + p) else some (colBox sec 3 x, p - 2)
  | 6 | 7 => let st := siteSub u; some (rowBox (st / 4) 1 (2 * (st % 4)), 6)
  | 8 => let q := siteSub u; if p < 2 then some (rowBox q 5 7, 6 + p) else some (colBox q 5 7, 4 + p)
  | _ => none

/-- The end of a link at local port l of a box: as consumer (local output) or producer (local input); none for an unattached port (R511). -/
def attachedAt (box : Site) (l : Nat) (producer : Bool) : Option EndPoint :=
  let sec := siteSector box
  let col := 8 ≤ siteY box
  let j := siteY box % 8
  let x := siteX box
  if l < 2 then some ⟨siteOf 0 sec j x 0, if col then l + 2 else l⟩
  else if l < 6 then
    let p := if col then l + 2 else l - 2
    if j % 2 = 0 then some ⟨siteOf 3 sec (j / 2) x 0, p⟩
    else if j = 1 ∨ j = 5 then some ⟨siteOf 1 sec (j / 4) x 0, p⟩
    else if j = 3 then some ⟨siteOf 5 sec 0 x 0, p⟩
    else some ⟨siteOf 4 sec 0 0 0, 8 * x + p⟩
  else if j = 0 then some ⟨siteOf 2 sec 0 x 0, if col then l - 4 else l - 6⟩
  else if j = 1 ∧ !col ∧ l = 6 ∧ x % 2 = 0 then
    let st := 4 * sec + x / 2
    if st < Config.streams then some ⟨if producer then laneSite st else egressSite st, 0⟩ else none
  else if j = 5 ∧ x = 7 ∧ sec < Config.spanPorts then
    some ⟨spanSite sec, if col then l - 4 else l - 6⟩
  else none

/-! ### Switch boxes (R45 to R52) -/

/-- The entry of output o of a box from its 12 dwords; 0x3F for a box that is not used. -/
def boxEntryOf (w : List Dword) (o : Nat) : Nat :=
  if dbit (lget w 11 0) 0 then dbits (lget w (o / 4) 0) (8 * (o % 4) + 7) (8 * (o % 4)) else 0x3F

def boxEntry (s : State) (box : Site) (o : Nat) : Nat :=
  match s.hal.active with
  | some h => boxEntryOf (hoistWords s h box) o
  | none => 0x3F

/-- The partner box of the same intersection. -/
def partnerBox (box : Site) : Site :=
  let y := siteY box
  siteOf 10 (siteSector box) (if y < 8 then y + 8 else y - 8) (siteX box) 0

/-- The sector east, west, south or north of another (R26); none at a package edge or toward an absent sector. -/
def sectorStep (sec : Nat) (south : Bool) (forward : Bool) : Option Nat :=
  let r :=
    if south then (if forward then (if sec < 4 then some (sec + 4) else none) else (if 4 ≤ sec then some (sec - 4) else none))
    else (if forward then (if sec % 4 < 3 then some (sec + 1) else none) else (if 0 < sec % 4 then some (sec - 1) else none))
  match r with
  | some k => if k < Config.sectors then some k else none
  | none => none

/-- The next box along the channel in the high-side direction (east or south), and whether the segment crosses a sector boundary. -/
def nextBox (box : Site) : Option (Site × Bool) :=
  let sec := siteSector box
  let y := siteY box
  let x := siteX box
  if y < 8 then
    if x < 7 then some (siteOf 10 sec y (x + 1) 0, false)
    else (sectorStep sec false true).map (fun k => (siteOf 10 k y 0 0, true))
  else
    if y < 15 then some (siteOf 10 sec (y + 1) x 0, false)
    else (sectorStep sec true true).map (fun k => (siteOf 10 k 8 x 0, true))

/-- The box before it along the channel (west or north), and whether the segment crosses a sector boundary. -/
def prevBox (box : Site) : Option (Site × Bool) :=
  let sec := siteSector box
  let y := siteY box
  let x := siteX box
  if y < 8 then
    if 0 < x then some (siteOf 10 sec y (x - 1) 0, false)
    else (sectorStep sec false false).map (fun k => (siteOf 10 k y 7 0, true))
  else
    if 8 < y then some (siteOf 10 sec (y - 1) x 0, false)
    else (sectorStep sec true false).map (fun k => (siteOf 10 k 15 x 0, true))

/-- Where output o of a box leads: the box and the source value there, the segment, and whether it crosses a boundary; none for local outputs and edges. -/
def outputLeads (box : Site) (o : Nat) : Option (Site × Nat × Site × Bool) :=
  if o < 16 then (prevBox box).map (fun p => (p.1, 0x10 + o, siteOf 9 (siteSector p.1) (siteY p.1) (siteX p.1) o, p.2))
  else if o < 32 then (nextBox box).map (fun p => (p.1, o - 16, siteOf 9 (siteSector box) (siteY box) (siteX box) (o - 16), p.2))
  else if o < 36 then some (partnerBox box, 0x20 + (o - 32), noSite, false)
  else none

/-- One branch of a link: its consumer, the boxes with the outputs taken, the segments, the boundary segments crossed. -/
structure LinkPath where
  consumer : EndPoint
  boxes : List (Site × Nat)
  segments : List Site
  crossings : List Site
  deriving DecidableEq, Repr

/-- A step on from a box's source value: every output driven from it (R47). Fuel is the number of boxes. -/
def branchesFrom (entry : Site → Nat → Nat) : Nat → Site → Nat → List (Site × Nat) → List Site → List Site → List LinkPath
  | 0, _, _, _, _, _ => []
  | fuel + 1, box, src, boxes, segs, cross =>
    ((List.range 44).filter (fun o => entry box o == src)).flatMap fun o =>
      let boxes' := boxes ++ [(box, o)]
      if 36 ≤ o then
        match attachedAt box (o - 36) false with
        | some c => [⟨c, boxes', segs, cross⟩]
        | none => []
      else
        match outputLeads box o with
        | some (b, v, seg, x) =>
          branchesFrom entry fuel b v boxes' (if seg = noSite then segs else segs ++ [seg]) (if x then cross ++ [seg] else cross)
        | none => []

/-- Boxes of the largest part. -/
def boxFuel : Nat := 1024

/-- The branches of the link that leaves a producer port. -/
def pathsBy (entry : Site → Nat → Nat) (producer : EndPoint) : List LinkPath :=
  match attachOf producer with
  | some (box, l) => branchesFrom entry boxFuel box (0x28 + l) [] [] []
  | none => []

def linkPaths (s : State) (producer : EndPoint) : List LinkPath := pathsBy (boxEntry s) producer

/-- The source of a box's input value: the box upstream with its output, or a producer port. -/
def sourceOf (box : Site) (v : Nat) : Option (Sum (Site × Nat) EndPoint) :=
  if v < 16 then (prevBox box).map (fun p => .inl (p.1, 16 + v))
  else if v < 32 then (nextBox box).map (fun p => .inl (p.1, v - 16))
  else if v < 36 then some (.inl (partnerBox box, v))
  else if 40 ≤ v ∧ v < 48 then (attachedAt box (v - 40) true).map .inr
  else none

/-- The producer port upstream of an output of a box. -/
def producerOf (entry : Site → Nat → Nat) : Nat → Site → Nat → Option EndPoint
  | 0, _, _ => none
  | fuel + 1, box, o =>
    match sourceOf box (entry box o) with
    | some (.inl (b, o')) => producerOf entry fuel b o'
    | some (.inr e) => some e
    | none => none

/-- The producer of the link that ends at a consumer port. -/
def producerBy (entry : Site → Nat → Nat) (consumer : EndPoint) : Option EndPoint :=
  match attachOf consumer with
  | some (box, l) => producerOf entry boxFuel box (36 + l)
  | none => none

def linkProducer (s : State) (consumer : EndPoint) : Option EndPoint := producerBy (boxEntry s) consumer

/-- Boundary pad of the active hoist (R296). -/
def activePad (s : State) : Nat := match s.hal.active with | some h => (hoistOf s h).pad | none => 0

/-- Fc of one crossing under the active hoist (R49, R296). The hoists between which a cut is allowed are of one image, and have one pad. -/
def crossing (s : State) : Nat := Config.latB + activePad s

/-- Lf = Lr of a branch (R62, R296). -/
def pathLatency (s : State) (p : LinkPath) : Nat := p.boxes.length + 1 + p.crossings.length * crossing s

/-- The boundary segment behind an output of a box. -/
def crossSegment (box : Site) (o : Nat) : Option Site := match outputLeads box o with | some (_, _, g, true) => some g | _ => none

/-- The way of a beat that enters the first output's register in fc t: one box per fc, and `cross` fc more through each boundary FIFO (R47, R49). -/
def hopsFrom (cross : Nat) (t : Fc) : List (Site × Nat) → List Hop
  | [] => []
  | (b, o) :: rest =>
    match crossSegment b o with
    | some g => ⟨b, o, t, some (g, t + 1 + cross)⟩ :: hopsFrom cross (t + 1 + cross) rest
    | none => ⟨b, o, t, none⟩ :: hopsFrom cross (t + 1) rest

/-! ### Whether beats move -/

/-- No halt, no full-array window, no device-fatal stop, a hoist is active, and no landing is due: elements fire and beats move
(R36, R38, R68, R408, R418, R421). -/
def fabricRuns (s : State) : Bool :=
  reaches s s.now && (s.hal.halt == .running || s.hal.halt == .pending) && !s.hal.stopped && !windowRunning s.hal.window && s.hal.active.isSome

/-- A unit in proof takes no beat and forwards nothing (R410); a memory port also waits idle. -/
def inProof (s : State) (u : Site) : Bool :=
  let p := s.hal.proof
  siteElem p.site == siteElem u &&
    (p.state == .proof || p.state == .restore || (p.state == .wait && siteKind u == 5))

/-- A unit waiting for a forced proof binds no new slot and begins no new frame (R417). -/
def bindStopped (s : State) (u : Site) : Bool :=
  let p := s.hal.proof
  p.state == .wait && p.serving && p.forced == some (siteElem u, true)

/-- A tile stalls while a region that an operation has found damaged is rewritten (R96, R166). -/
def tileStalls (s : State) (u : Site) : Bool :=
  match siteKind u with
  | 0 => !(amGetD s.tiles u {}).stalledOn.isEmpty
  | 1 => !(amGetD s.vtiles u {}).rewriting.isEmpty
  | _ => false

/-- The proof keeps the unit from its work; a DISABLED unit goes on discarding under its proof, which holds no stream (R417). -/
def proofStops (s : State) (u : Site) : Bool := inProof s u && unitState s (siteElem u) != .disabled

/-- A unit held while its words are rewritten, or in a sector that is not ACTIVE, or by its proof. -/
def heldBy (s : State) (u : Site) (proof : Bool) : Bool :=
  s.fabric.held.contains (siteElem u) || tileStalls s (siteElem u) || proof
    || (siteKind u ≤ 5 && (lget s.power.sectors (siteSector u) {}).state != .active)

def unitHeld (s : State) (u : Site) : Bool := heldBy s u (proofStops s u)

/-- What is already on its way out of a unit stays there: a memory port that waits for its proof still sends its grants (R410). -/
def unitMuted (s : State) (u : Site) : Bool := heldBy s u (proofStops s u && s.hal.proof.state != .wait)

/-- The fc up to which beats have moved: that of the halt while the part stands still (R421, R425). -/
def fabricNow (s : State) : Fc := if haltedNow s then s.hal.haltTime else s.now

/-! ### Links (R60 to R62) -/

def linkAt (s : State) (producer : EndPoint) : Option Link := amGet s.fabric.links producer

def setLink (s : State) (producer : EndPoint) (l : Link) : State :=
  { s with fabric := { s.fabric with links := amSet s.fabric.links producer l } }

def inBuf (s : State) (e : EndPoint) : List Beat := amGetD s.fabric.inBufs e []

def setInBuf (s : State) (e : EndPoint) (l : List Beat) : State :=
  { s with fabric := { s.fabric with inBufs := if l.isEmpty then amErase s.fabric.inBufs e else amSet s.fabric.inBufs e l } }

def outQ (s : State) (e : EndPoint) : List OutBeat := amGetD s.fabric.outQs e []

def setOutQ (s : State) (e : EndPoint) (l : List OutBeat) : State :=
  { s with fabric := { s.fabric with outQs := if l.isEmpty then amErase s.fabric.outQs e else amSet s.fabric.outQs e l } }

def pushOut (s : State) (e : EndPoint) (b : OutBeat) : State := setOutQ s e (outQ s e ++ [b])

/-- Depth of the link that leaves a producer port: its port word. An ingress has none: DESIGN CHOICE (notes/assumptions/69.md), its link takes the
depth of its first consumer, and 32 where that has no port word either. -/
def linkDepth (s : State) (producer : EndPoint) (paths : List LinkPath) : Nat :=
  match portWordAt producer true with
  | some _ => pwDepth (portWord s producer true)
  | none => match paths with
    | p :: _ => (match portWordAt p.consumer false with | some _ => pwDepth (portWord s p.consumer false) | none => 32)
    | [] => 0

/-- Beats that a consumer's buffer can hold. -/
def bufDepth (s : State) (consumer : EndPoint) (link : Link) : Nat :=
  match portWordAt consumer false with
  | some _ => pwDepth (portWord s consumer false)
  | none => link.depth

/-- A link as R60 loads it. -/
def freshLink (depth : Nat) : Link := { free := depth, depth := depth }

/-- The link of a producer port, loaded on its first use since the switch that activated it (R60). -/
def linkOr (s : State) (producer : EndPoint) (paths : List LinkPath) : Link :=
  (linkAt s producer).getD (freshLink (linkDepth s producer paths))

/-- The fc in which the next beat can leave: one per fc. -/
def sendSlot (s : State) (producer : EndPoint) : Fc :=
  match (linkAt s producer).bind (·.lastSend) with
  | some t => t + 1
  | none => 0

/-- A producer may send now: fabric running, credit, and one beat per fc (R61). -/
def maySend (s : State) (producer : EndPoint) : Bool :=
  let paths := linkPaths s producer
  fabricRuns (advance s (sendSlot s producer)) && !paths.isEmpty && decide (1 ≤ (linkOr s producer paths).free)

/-- An output holds no beat, and may send one. -/
def outFree (s : State) (e : EndPoint) : Bool := (outQ s e).isEmpty && maySend s e

/-- A port that forms the no-token sends nothing: no beat leaves, and no credit is taken (R58). -/
def formsNoToken (b : Beat) : Bool := b.data == 0 && b.side.toNat / 2 ^ 9 == 15 * 2 ^ 19

/-- A beat leaves: the free-space semaphore drops, and a copy is on its way to every consumer (R47, R61). The caller has checked `maySend`. -/
def sendOnLink (s : State) (producer : EndPoint) (b : Beat) : State :=
  let paths := linkPaths s producer
  let l := linkOr s producer paths
  let s1 := advance s (sendSlot s producer)
  let fl := paths.map (fun p =>
    ({ consumer := p.consumer, beat := b, sent := s1.now, hops := hopsFrom (crossing s) (s1.now + 1) p.boxes, arrives := s1.now + pathLatency s p } : Flight))
  if formsNoToken b then s1 else
  let s2 := setLink s1 producer { l with free := l.free - 1, flights := l.flights ++ fl, lastSend := some s1.now }
  (paths.flatMap (·.crossings)).foldl (fun st seg => countEvent st 0x08 seg (some (bStream b)) 0 0 false) s2

/-- A consumer frees an entry in fc t: a credit starts back along its branch (R61). -/
def creditFrom (s : State) (consumer : EndPoint) (t : Fc) : State :=
  match linkProducer s consumer with
  | some producer =>
    match (linkPaths s producer).find? (fun p => p.consumer = consumer), linkAt s producer with
    | some p, some l => setLink s producer { l with credits := l.credits ++ [⟨consumer, t + pathLatency s p⟩] }
    | _, _ => s
  | none => s

def returnCredit (s : State) (consumer : EndPoint) : State := creditFrom s consumer s.now

/-- The credits of n beats that a discard removes, at most 8 in an fc (R171). -/
def returnCredits (n : Nat) (s : State) (e : EndPoint) : State :=
  (List.range n).foldl (fun x i => creditFrom x e (s.now + i / 8)) s

/-- The consumer has removed a tack line: it is the current one of its stream there. -/
def noteHead (s : State) (e : EndPoint) (b : Beat) : State :=
  if isTack b then
    { s with fabric := { s.fabric with headTack := amSet s.fabric.headTack (e, bStream b) (tackFrame b)
                                       headInfo := amSet s.fabric.headInfo (e, bStream b) (tackFrame b, tackInfo b) } }
  else s

/-- Remove the first beat with p from a consumer's buffer, with its credit. -/
def takeBeat (s : State) (e : EndPoint) (p : Beat → Bool) : Option (Beat × State) :=
  match (inBuf s e).find? p with
  | some b => some (b, returnCredit (noteHead (setInBuf s e ((inBuf s e).eraseP p)) e b) e)
  | none => none

/-- The frame of the last tack line that a consumer removed on a stream. -/
def headFrame (s : State) (e : EndPoint) (st : Nat) : Option Nat := amGet s.fabric.headTack (e, st)

/-- Frames whose beats an input still discards. -/
def discardsAt (s : State) (e : EndPoint) (st : Nat) : List Nat := amGetD s.fabric.discarding (e, st) []

def setDiscards (s : State) (e : EndPoint) (st : Nat) (l : List Nat) : State :=
  { s with fabric := { s.fabric with discarding := if l.isEmpty then amErase s.fabric.discarding (e, st) else amSet s.fabric.discarding (e, st) l } }

/-- Discard a frame's beats of a stream at an input, up to its void tack line or the next frame's tack line (R113, R171, R174): what is there
goes, with its credits, and what still arrives goes. -/
def discardInput (s : State) (e : EndPoint) (st frame : Nat) : State :=
  let buf := inBuf s e
  let r := dropFrame st frame (fun _ => false) (headFrame s e st) buf
  let s1 := returnCredits r.2 (setInBuf s e r.1) e
  let s2 := if (headFrame s e st).any (frameAfter frame) then s1
    else { s1 with fabric := { s1.fabric with headTack := amSet s1.fabric.headTack (e, st) frame } }
  if endsFrame st frame buf || (headFrame s e st).any (frameAfter frame) then s2
  else setDiscards s2 e st (addNew (discardsAt s2 e st) frame)

/-- The frame of the last tack line an input received on a stream, with its arrival and first tag. -/
def lastTackAt (s : State) (e : EndPoint) (st : Nat) : Option (Nat × TackInfo) := amGet s.fabric.lastTack (e, st)

/-- What the tack line of a frame carries (R172), as an input knows it: of its tack line in the buffer, the last that it received or removed, one on
its way to it, or the stream's own note of the frame. -/
def tackOf (s : State) (e : EndPoint) (st frame : Nat) : TackInfo :=
  let mine (b : Beat) : Bool := isTack b && bStream b == st && tackFrame b == frame
  let noted (o : Option (Nat × TackInfo)) : Option TackInfo := o.bind (fun x => if x.1 = frame then some x.2 else none)
  let coming : List Beat := match (linkProducer s e).bind (linkAt s) with
    | some l => (l.flights.filter (fun f => f.consumer == e)).map (·.beat)
    | none => []
  let known : Option TackInfo := ((lget s.streams st {}).frames.find? (fun f => f.id == frame)).map (fun f => ⟨f.arrival, 0⟩)
  ((((((inBuf s e).find? mine).map tackInfo).or (noted (lastTackAt s e st))).or (noted (amGet s.fabric.headInfo (e, st)))).or
    ((coming.find? mine).map tackInfo)).or known |>.getD {}

/-! ### Tack lines at outputs (R173) -/

/-- The open tack line of a frame leaves by an output, once. -/
def sendOpen (s : State) (e : EndPoint) (b : Beat) : State :=
  let st := bStream b
  let sent := match amGet s.fabric.openSent (e, st) with
    | some g => g == tackFrame b || frameAfter (tackFrame b) g
    | none => false
  if sent then s
  else
    let s1 := pushOut s e { beat := b }
    { s1 with fabric := { s1.fabric with openSent := amSet s1.fabric.openSent (e, st) (tackFrame b) } }

/-- The open tack line if it has not been sent, then the void tack line, each at most once per frame and port (R173). -/
def sendVoid (s : State) (e : EndPoint) (st frame : Nat) (tk : TackInfo) (code : Nat) : State :=
  let s1 := sendOpen s e (mkTack st frame 0 tk.first tk.arrival 0)
  if (amGet s1.fabric.voidSent (e, st)).any (fun g => g == frame || frameAfter frame g) then s1
  else
    let s2 := pushOut s1 e { beat := mkTack st frame 1 tk.first tk.arrival code }
    { s2 with fabric := { s2.fabric with voidSent := amSet s2.fabric.voidSent (e, st) frame } }

end Sys2Proof.Machine
end

