-- ==== Sys2Proof/Machine/Units.lean ====
section
/-! DEFINITION. Unit states, shared by every kind of element (spec/03_matrix_tile.md R111, spec/15_availability.md R419, R420, R431). -/

namespace Sys2Proof.Machine

/-- The words of a unit that a hoist uses: its used bit, or that of one of its ports, is set (R50, R53, R82, R142, R150, R160, R170, R203). -/
def wordsUsed (w : Site × List Dword) : Bool :=
  let bit (i : Nat) : Bool := dbit (lget w.2 i 0) 0
  match siteKind w.1 with
  | 0 | 2 => bit 4 || (List.range 4).any bit
  | 1 | 3 => bit 8 || (List.range 8).any bit
  | 4 => (List.range 65).any bit
  | 5 => bit 0 || bit 1
  | 9 => (List.range 8).any bit
  | 10 => bit 11
  | _ => false

/-- A hoist's words of one unit use a sector (R391): those of an element, box, memory port or boundary FIFO of it. A boundary FIFO is used by the boxes
at its ends, which are used with it. -/
def usesSector (w : Site × List Dword) (sector : Nat) : Bool := siteSector w.1 == sector && wordsUsed w

def setCtl (s : State) (u : Site) (c : UnitCtl) : State :=
  match siteKind u with
  | 0 => setTile s u { tileOf s u with ctl := c }
  | 1 => setVtile s u { vtileOf s u with ctl := c }
  | 2 => setWtile s u { wtileOf s u with ctl := c }
  | 3 => setSteer s u { steerOf s u with ctl := c }
  | 4 => setGlue s u { glueOf s u with ctl := c }
  | 5 => { s with feed := { s.feed with ports := amSet s.feed.ports (siteElem u) c } }
  | _ => if c.state = .lost then { s with lostBoxes := addNew s.lostBoxes u } else s

def unitCode (c : UnitState) : Nat := match c with | .enabled => 0 | .draining => 1 | .disabled => 2 | .lost => 3

/-- A tile becomes LOST before the T of its SCALE_SET (R136): the NEXT bank becomes SPARE, and the command is aborted. -/
def scaleLost (s : State) (u : Site) : State :=
  let t := tileOf s u
  let spare (b : ScaleBank) : ScaleBank := if b.state = .next then { b with state := .spare } else b
  if siteKind u = 0 ∧ (t.bank0.state = .next ∨ t.bank1.state = .next) then
    finishFirst (setTile s u { t with bank0 := spare t.bank0, bank1 := spare t.bank1 }) (fun k => k == .scaleSet u) stAborted 0 s.now
  else s

def unitLost (s : State) (u : Site) : Bool := unitState s u == .lost

/-! ### The end of a proof (R409, R410, R417) -/

/-- Units that the rolling proof visits, in ascending site-word order (R409). -/
def proofUnits (s : State) : List Site :=
  ([0, 1, 2, 3, 5, 10].flatMap sitesOfKind).filter (fun u =>
    unitState s u != .lost && unitState s u != .disabled && (sectorOf s (siteSector u)).state == .active)

/-- The site by which commands, records and events name a unit: a memory port as a whole has sub 0x00FF (R18). -/
def unitName (u : Site) : Site := if siteKind u = 5 then siteWithSub u 0xFF else siteElem u

/-- A round that has reached its last unit is counted, with event 0x0070. -/
def roundOver (s : State) (time : Fc) : State :=
  let p := s.hal.proof
  if (proofUnits s).any (fun u => decide (p.roundAt.toNat < u.toNat)) then s
  else
    let n := (p.rounds + 1) % 2 ^ 32
    postDev { s with hal := { s.hal with proof := { p with rounds := n, roundAt := noSite } } } 0x1B 0x0070 noSite time n

/-- The proof in progress is over: a SELF_TEST op 0 that it served completes, or the round moves on. -/
def endProof (s : State) (status detail : Nat) : State :=
  let p := s.hal.proof
  let ended : Proof := { p with state := .none, lastEnd := s.now, repeated := false, serving := false }
  let s1 := { s with hal := { s.hal with proof := { ended with forced := if p.serving then none else p.forced } } }
  if p.serving then finishFirst s1 (fun k => k == .proveUnit (siteElem p.site)) status (dw detail) s.now
  else roundOver s1 s.now

/-- A unit has become LOST: its scale banks, its UNIT_DISABLE and a proof that waits for it or runs on it (notes/assumptions/13.md). -/
def unitGone (s : State) (u : Site) : State :=
  let s1 := finishEvery (scaleLost s u) (fun k => k == .unitDisable (siteElem u)) stDenied 0 s.now
  let p := s1.hal.proof
  if p.state ≠ .none ∧ siteElem p.site = siteElem u then endProof s1 stOK 2
  else if !p.serving && p.forced.any (fun f => decide (f.1 = siteElem u)) then
    finishFirst { s1 with hal := { s1.hal with proof := { p with forced := none } } } (fun k => k == .proveUnit (siteElem u)) stDenied 0 s.now
  else s1

/-- A change of unit state, with event 0x0076 (R420, R431). -/
def moveUnit (s : State) (u : Site) (c : UnitCtl) : State :=
  if (ctlOf s u).state = c.state then setCtl s u c
  else
    let s1 := postDev (setCtl s u c) 0x1B 0x0076 (unitName u) s.now (unitCode c.state)
    if c.state = .lost then unitGone s1 u else s1

/-- The element works: ENABLED or DRAINING, and not held. -/
def unitWorks (s : State) (u : Site) : Bool :=
  fabricRuns s && !unitHeld s u && (unitState s u == .enabled || unitState s u == .draining)

/-- The unit that a site names: of a cell, a port or a bank of an element, the element. -/
def unitKey (u : Site) : Site := if siteKind u ≤ 5 ∨ siteKind u = 10 then siteElem u else u

/-- A class 2 record that names a unit, or a part of one, makes it LOST (R111, R401). -/
def loseUnit (s : State) (code : Nat) (u : Site) (d0 d1 : Dword) : State :=
  let s1 := fault s code 2 u d0 d1
  let e := unitKey u
  if unitLost s1 e then s1 else moveUnit s1 e { ctlOf s1 e with state := .lost }

/-- A channel becomes LOST (R224). -/
def loseChannel (s : State) (code c : Nat) (d0 d1 : Dword) : State :=
  let s1 := fault s code 2 (channelSite c) d0 d1
  setChannel s1 c { channelOf s1 c with state := .lost }

end Sys2Proof.Machine
end

