-- ==== Sys2Proof/Machine/Boot.lean ====
section
/-! DEFINITION. Power-on, device reset and the staged start (spec/14_power_clocks_start.md R376, R378, R388 to R391, spec/17_security_lifecycle.md
R454 to R458, R462 to R464, spec/19_register_map.md R500). -/

namespace Sys2Proof.Machine

/-! ### Firmware packages (R457, R458) -/

/-- A key_id names a fused firmware-signing key that is not revoked. -/
def fwKeyGood (c : Sec) (key : BitVec 128) : Bool :=
  (List.range 4).any (fun k => lget c.fwKeys k none == some key && !lget c.fwRevoked k false)

/-- The first check of R458 that a package held in the flash fails; its bytes were checked when it was written, or are damaged. -/
def pkgFails (c : Sec) (kind : Nat) (p : FwPkg) : Option Nat :=
  if !p.intact then some 0x8F01
  else if !fwKeyGood c p.keyId then some 0x8F03
  else if p.securityVersion < c.floor then some 0x8F06
  else if p.kind ≠ kind ∨ !p.steppings.getLsbD Config.stepping then some 0x8F07
  else none

def pkgPasses (c : Sec) (kind : Nat) (p : Option FwPkg) : Bool := match p with | some x => pkgFails c kind x == none | none => false

/-! ### The root of trust at a reset (R463, R464, R466) -/

/-- Erase the flash items that a transition erases (R463). -/
def eraseFor (c : Sec) (life : LifeState) : Sec :=
  match life with
  | .returned => { c with ownerKey := none, imageKeys := List.replicate 8 .empty, erase := none }
  | .scrapped => { c with ownerKey := none, imageKeys := List.replicate 8 .empty, slotA := none, slotB := none, identity := none, erase := none }
  | _ => { c with erase := none }

/-- What the root of trust keeps over a reset: fuses and flash; the challenge is replaced. -/
def secAtReset (c : Sec) (draw : Nat) : Sec :=
  { c with staged := none, running := none, courierRunning := none, staging := [], swap := none, bootError := false, fallback := false,
           challenge := Config.entropy draw }

/-! ### Reset (R33, R390, R493, R500) -/

/-- Every register and store at its reset value; what the queue of commands, the outside's record and the counter of free values hold stays. -/
def wiped (s : State) : State :=
  { State.reset with
    out := s.out
    pending := s.pending
    fresh := s.fresh + 1
    pins := { perst := s.pins.perst, tap := s.pins.tap, tapData := s.pins.tapData }
    sec := secAtReset s.sec s.fresh }

/-- The PCIe core leaves reset in phase 1, PERST# allowing; the link trains then (R334, R493). -/
def releasePcie (s : State) : State :=
  if s.pins.perst then s else { s with hif := { s.hif with pcieHeld := false, linkUp := true } }

/-- Device reset: phases 1 to 6 follow; the halyard, the stage's measurements and the PMBus side are kept. -/
def deviceReset (s : State) : State :=
  let w := wiped s
  (fun r => if r.power.phasesEnded = 0 then r else releasePcie r)
    { w with
      now := s.now
      power := { w.power with powerGood := s.power.powerGood, phasesEnded := min 1 s.power.phasesEnded, vin := s.power.vin, iin := s.power.iin, pin := s.power.pin,
                              inputSince := s.power.inputSince, stageCool := s.power.stageCool, rails := s.power.rails,
                              stageTemp := s.power.stageTemp, holdover := s.power.holdover, pmbus := s.power.pmbus } }

/-- A rail comes into regulation, after those that have. The order is a DESIGN CHOICE (notes/assumptions/78.md): the rule names none. -/
def railUp (l : List Nat) (i : Nat) : List Nat := l ++ [i]

/-- Power-good: every rail of the part is in regulation (R376). -/
def inRegulation (l : List Nat) : Bool := fittedRails.all (fun i => l.contains i)

/-- Power-on: the halyard starts again from 0 in phase 0 (R33, R388). -/
def powerOn (s : State) : State :=
  let w := wiped s
  let rails := fittedRails.foldl railUp []
  { w with power := { w.power with rails := rails, powerGood := inRegulation rails, phasesEnded := 0, vin := s.power.vin, iin := s.power.iin, pin := s.power.pin,
                                   inputSince := s.power.inputSince.map (fun _ => 0), stageCool := s.power.stageCool.map (fun _ => 0),
                                   stageTemp := s.power.stageTemp, pmbus := s.power.pmbus } }

/-! ### Staged start (R388, R398) -/

/-- A phase ends with event 0x0030. -/
def endPhase (s : State) : State :=
  postDev { s with power := { s.power with phasesEnded := s.power.phasesEnded + 1 } } 0x17 0x0030 noSite s.now s.power.phasesEnded

/-- Phase 1 (R455): in SCRAPPED the boot ROM stops; else it completes an erase, verifies the courier copies, and starts the one that passes. -/
def bootCourier (s : State) : State :=
  if s.sec.life = .scrapped then s else
  let c := match s.sec.erase with | some l => eraseFor s.sec l | none => s.sec
  let start (p : Option FwPkg) : State :=
    endPhase { s with sec := { c with courierRunning := p }, hif := { s.hif with fwStage := 1 }, power := { s.power with wakeFrom := s.now } }
  if pkgPasses c 0 c.courier0 then start c.courier0
  else if pkgPasses c 0 c.courier1 then start c.courier1
  else { s with sec := { c with bootError := true } }

/-- Phase 6 (R456): the committed slot, else the other, else courier mode alone. -/
def bootMain (s : State) : State :=
  let c := s.sec
  let first := if c.committedB then c.slotB else c.slotA
  let other := if c.committedB then c.slotA else c.slotB
  if pkgPasses c 1 first then
    endPhase { s with sec := { c with running := first }, hif := { s.hif with fwStage := 2 } }
  else if pkgPasses c 1 other then
    let s1 := { s with sec := { c with running := other, committedB := !c.committedB, fallback := true }, hif := { s.hif with fwStage := 2 } }
    let s2 := fault s1 0x0F01 0 (mgmtSite 3) 0 0
    let v := match other with | some p => p.version.toNat | none => 0
    endPhase (postDev s2 0x1A 0x0063 (mgmtSite 3) s.now v)
  else endPhase (fault s 0x0F02 2 (mgmtSite 3) 0 0)

/-- Units that phase 5 tests; a memory port is named as a whole (R18). -/
def selfTested (u : Site) : Bool :=
  sitePresent (siteElem u) && u == unitName (siteElem u) && (siteKind u ≤ 5 || siteKind u == 10)

/-- The phase in progress ends. -/
def execStagedStartPhaseEnd (failedUnits failedChannels : List Site) (s : State) : Host.Outcome State Fault Refusal :=
  if !s.power.powerGood then done s else
  done <| match s.power.phasesEnded with
    | 0 => releasePcie (endPhase s)
    | 1 => bootCourier s
    | 2 => if (s.power.sectors.take Config.sectors).all (fun k => k.state == .active) then endPhase s else s
    | 3 => endPhase ((failedChannels.filter (fun c => siteKind c == 11 && sitePresent c)).foldl (fun st c => loseChannel st 0x0D31 (siteSub c) 0 0) s)
    | 4 => endPhase s
    | 5 => endPhase ((failedUnits.filter selfTested).foldl (fun st u => loseUnit st 0x0D30 u 0 0) s)
    | 6 => bootMain s
    | _ => s

/-- PERST# from deasserted to asserted starts a device reset; held from power-on it holds the PCIe core alone. -/
def execPerstAssert (s : State) : Host.Outcome State Fault Refusal :=
  if s.pins.perst then done s
  else
    let s1 := { s with pins := { s.pins with perst := true }, hif := { s.hif with pcieHeld := true, linkUp := false } }
    done (if s.power.powerGood then deviceReset s1 else s1)

/-- PERST# deasserted: the link trains once the core is out of reset. -/
def execPerstDeassert (s : State) : Host.Outcome State Fault Refusal :=
  let s1 := { s with pins := { s.pins with perst := false } }
  done (if s.pins.perst && s.power.powerGood && 1 ≤ s.power.phasesEnded then releasePcie s1 else s1)

/-- 100 µs after the completion of a command that asked for it (R395, R464, R468). -/
def execDelayedDeviceReset (s : State) : Host.Outcome State Fault Refusal :=
  match s.mgmt.resetDue with
  | some t => done (if reaches s t && !s.hif.heldCompletions.any (fun c => asksReset c t) then deviceReset (advance s t) else s)
  | none => done s

end Sys2Proof.Machine
end

