-- ==== Sys2Proof/Machine/Cores.lean ====
section
/-! DEFINITION. The management cores and the halyard network (spec/15_availability.md R406 to R408). -/

namespace Sys2Proof.Machine

def coreDown (s : State) (k : Nat) : Bool := if k = 0 then s.mgmt.mc0Down else s.mgmt.mc1Down

def setCore (s : State) (k : Nat) (down : Bool) : State :=
  if k = 0 then { s with mgmt := { s.mgmt with mc0Down := down } } else { s with mgmt := { s.mgmt with mc1Down := down } }

/-- One second in fc (R407). -/
def second : Fc := 1000000 * Config.us

/-- Core k has missed two heartbeats: the other restarts it, or the cores have failed (R406, R407). -/
def execHeartbeatMiss (core : Nat) (s : State) : Host.Outcome State Fault Refusal :=
  if 2 ≤ core ∨ s.hal.stopped then done s
  else
    let again := match amGet s.mgmt.restarts core with | some t => decide (s.now < t + second) | none => false
    let s1 := setCore s core true
    let s2 := { s1 with mgmt := { s1.mgmt with restarts := amSet s1.mgmt.restarts core s1.now } }
    if coreDown s (1 - core) || again then done (fault s2 0x0E30 3 (mgmtSite 0) 0 0) else done s2

/-- The core that a firmware swap is starting comes back by the swap, not by a restart (R429). -/
def swapStarts (s : State) (core : Nat) : Bool :=
  match s.sec.swap with
  | some w => (core == 1 && w.phase == 1) || (core == 0 && w.phase == 2)
  | none => false

def execCoreRestartDone (core : Nat) (s : State) : Host.Outcome State Fault Refusal :=
  if 2 ≤ core ∨ !coreDown s core ∨ s.hal.stopped ∨ swapStarts s core then done s
  else done (fault (setCore s core false) 0x0E21 0 (mgmtSite core) 0 0)

/-- Two sectors read different counts (R407). -/
def execHalyardParityError (s : State) : Host.Outcome State Fault Refusal := done (fault s 0x0E31 3 noSite 0 0)

end Sys2Proof.Machine
end

