-- ==== Sys2Proof/Machine/Numeric.lean ====
section
/-! DEFINITION. The arithmetic of the tiles, exact and then rounded once: the rounding of spec/04_quantization.md R124 with the special cases of
spec/03_matrix_tile.md R91, the formats FP32, BF16 and FP16, and the table functions of spec/05_vector_window_glue.md R147, R148. -/

namespace Sys2Proof.Machine

/-! ### Exact values -/

/-- A value: NaN, a signed infinity, or ± mag × 2^ex; a zero keeps its sign. -/
inductive Num where
  | nan
  | inf (neg : Bool)
  | fin (neg : Bool) (mag : Nat) (ex : Int)
  deriving DecidableEq, Repr

def zeroNum (neg : Bool) : Num := .fin neg 0 0

/-- A field layout of sign, eb exponent bits and fb fraction bits. -/
def decodeFloat (eb fb : Nat) (subnormal : Bool) (x : Nat) : Num :=
  let neg := x.testBit (eb + fb)
  let e := nbits x (eb + fb - 1) fb
  let f := x % 2 ^ fb
  let bias : Int := 2 ^ (eb - 1) - 1
  if e = 2 ^ eb - 1 then (if f = 0 then .inf neg else .nan)
  else if e = 0 then (if subnormal then .fin neg f (1 - bias - fb) else zeroNum neg)
  else .fin neg (2 ^ fb + f) (e - bias - fb)

/-- FP32; an exponent field of 0 is a zero of the same sign (R124). -/
def num32 (x : BitVec 32) : Num := decodeFloat 8 23 false x.toNat
/-- BF16; an exponent field of 0 is a zero of the same sign (R91). -/
def num16 (x : BitVec 16) : Num := decodeFloat 8 7 false x.toNat
/-- FP16; an exponent field of 0 is taken at its exact subnormal value (R91). -/
def numHalf (x : BitVec 16) : Num := decodeFloat 5 10 true x.toNat

def numInt (n : Int) : Num := .fin (decide (n < 0)) n.natAbs 0

def numNeg : Num → Num
  | .nan => .nan
  | .inf n => .inf (!n)
  | .fin n m e => .fin (!n) m e

/-- ± mag × 2^ex at a common exponent, as an integer. -/
def atExp (neg : Bool) (mag : Nat) (ex e : Int) : Int :=
  let m : Int := mag * 2 ^ (ex - e).toNat
  if neg then -m else m

/-- The exact sum; an infinity or NaN gives NaN (R91); an exact zero is +0 unless both terms are −0 (R124). -/
def numAdd (a b : Num) : Num :=
  match a, b with
  | .fin n1 m1 e1, .fin n2 m2 e2 =>
    let e := min e1 e2
    let t := atExp n1 m1 e1 e + atExp n2 m2 e2 e
    if t = 0 then zeroNum (m1 == 0 && m2 == 0 && n1 && n2) else .fin (decide (t < 0)) t.natAbs e
  | _, _ => .nan

/-- The exact product; the sign of a zero is the exclusive OR of the signs (R124). -/
def numMul (a b : Num) : Num :=
  match a, b with
  | .fin n1 m1 e1, .fin n2 m2 e2 => .fin (n1 != n2) (m1 * m2) (e1 + e2)
  | _, _ => .nan

/-- a < b for finite values and infinities. -/
def numLt (a b : Num) : Bool :=
  match a, b with
  | .nan, _ => false
  | _, .nan => false
  | .inf n1, .inf n2 => n1 && !n2
  | .inf n1, _ => n1
  | _, .inf n2 => !n2
  | .fin n1 m1 e1, .fin n2 m2 e2 => decide (atExp n1 m1 e1 (min e1 e2) < atExp n2 m2 e2 (min e1 e2))

def numIsZero : Num → Bool
  | .fin _ m _ => m == 0
  | _ => false

def numIsNeg : Num → Bool
  | .fin n _ _ => n
  | .inf n => n
  | .nan => false

/-! ### Rounding (R124, R91) -/

/-- sign(x) × ⌊|x| + 1/2⌋. -/
def rnaInt (neg : Bool) (mag : Nat) (ex : Int) : Int :=
  let m : Nat := if 0 ≤ ex then mag * 2 ^ ex.toNat else (mag * 2 + 2 ^ (-ex).toNat) / 2 ^ ((-ex).toNat + 1)
  if neg then -(m : Int) else m

/-- Rounding to p significand bits, to nearest, ties away: significand below 2^p and the exponent of its last bit. -/
def roundTo (p mag : Nat) (ex : Int) : Nat × Int :=
  let l := Nat.log2 mag + 1
  if l ≤ p then (mag * 2 ^ (p - l), ex - (p - l : Nat))
  else
    let k := l - p
    let m := (mag + 2 ^ (k - 1)) / 2 ^ k
    if m = 2 ^ p then (2 ^ (p - 1), ex + k + 1) else (m, ex + k)

/-- Encode with 8 exponent bits and fb fraction bits (FP32: 23, BF16: 7): the pattern, and whether it saturated. A NaN or infinity is the NaN 0x7FC0…. -/
def encode8 (fb : Nat) (x : Num) : Nat × Bool :=
  let nanPat := 0xFF * 2 ^ fb + 2 ^ (fb - 1)
  let top := 0xFE * 2 ^ fb + (2 ^ fb - 1)
  match x with
  | .nan => (nanPat, false)
  | .inf _ => (nanPat, false)
  | .fin neg mag ex =>
    let sg := b2n neg * 2 ^ (8 + fb)
    if mag = 0 then (sg, false)
    else
      let r := roundTo (fb + 1) mag ex
      let e := r.2 + fb
      if e < -126 then (sg, false)
      else if 127 < e then (sg + top, true)
      else (sg + (e + 127).toNat * 2 ^ fb + (r.1 - 2 ^ fb), false)

/-- rna32 with its saturation. -/
def enc32 (x : Num) : BitVec 32 × Bool := let r := encode8 23 x; (BitVec.ofNat 32 r.1, r.2)
def rna32 (x : Num) : BitVec 32 := (enc32 x).1
/-- rna16 with its saturation. -/
def enc16 (x : Num) : BitVec 16 × Bool := let r := encode8 7 x; (BitVec.ofNat 16 r.1, r.2)
def rna16 (x : Num) : BitVec 16 := (enc16 x).1

/-- BF16 to FP16 on the staging read of FP16 mode (R91): to nearest, ties away; saturated to 65,504; subnormals to a multiple of 2^−24. -/
def toHalf (v : BitVec 16) : Num :=
  match num16 v with
  | .nan => .nan
  | .inf n => .inf n
  | .fin neg mag ex =>
    if mag = 0 then zeroNum neg
    else
      let r := roundTo 11 mag ex
      if r.2 + 10 < -14 then .fin neg (rnaInt false mag (ex + 24)).natAbs (-24)
      else if numLt (.fin false 65504 0) (.fin false r.1 r.2) then .fin neg 65504 0
      else .fin neg r.1 r.2

/-- One fused multiply-add into FP32 (R91): acc + a × w, rounded once; whether it saturated. -/
def fma32 (acc : BitVec 32) (a w : Num) : BitVec 32 × Bool := enc32 (numAdd (num32 acc) (numMul a w))

/-- FP32 sum, rounded. -/
def add32 (a b : BitVec 32) : BitVec 32 × Bool := enc32 (numAdd (num32 a) (num32 b))
def sub32 (a b : BitVec 32) : BitVec 32 × Bool := enc32 (numAdd (num32 a) (numNeg (num32 b)))
def mul32 (a b : BitVec 32) : BitVec 32 × Bool := enc32 (numMul (num32 a) (num32 b))

/-- Exact widening of BF16 to FP32; an exponent field of 0 gives a zero of the same sign (R143). -/
def widen16 (v : BitVec 16) : BitVec 32 :=
  if nbits v.toNat 14 7 = 0 then BitVec.ofNat 32 (nbits v.toNat 15 15 * 2 ^ 31) else BitVec.ofNat 32 (v.toNat * 2 ^ 16)

def nan32 : BitVec 32 := 0x7FC00000
def max32 : BitVec 32 := 0x7F7FFFFF
def neg32 (x : BitVec 32) : BitVec 32 := x ^^^ 0x80000000
def isNan32 (x : BitVec 32) : Bool := num32 x == .nan
/-- An operand with exponent field 0 as the zero that it is taken for. -/
def flush32 (x : BitVec 32) : BitVec 32 := if nbits x.toNat 30 23 = 0 then BitVec.ofNat 32 (nbits x.toNat 31 31 * 2 ^ 31) else x

/-- INT32 saturating value of an exact integer, and whether it saturated (R89). -/
def satInt32 (n : Int) : Int × Bool :=
  if 2147483647 < n then (2147483647, true) else if n < -2147483648 then (-2147483648, true) else (n, false)

def clampInt (lo hi n : Int) : Int := if n < lo then lo else if hi < n then hi else n

/-! ### Table endpoints (R148): exact values rounded once -/

/-- A nonnegative real given as ⌊v × 2^k⌋ and whether that is exact, rounded to FP32: the sticky bit below decides no tie of its own. -/
def roundScaled (n k : Nat) (exact : Bool) : BitVec 32 := rna32 (.fin false (2 * n + b2n (!exact)) (-(k : Int) - 1))

/-- The greatest r with r^p ≤ n, below 2^b, bit by bit. -/
def rootBits (p n : Nat) : Nat → Nat → Nat
  | 0, r => r
  | b + 1, r => if (r + 2 ^ b) ^ p ≤ n then rootBits p n b (r + 2 ^ b) else rootBits p n b r

/-- rna32(2^(i/128)), i from 0 to 128: the 128th root of 2^(i + 128 × 40). -/
def tExp (i : Nat) : BitVec 32 :=
  let n := 2 ^ (i + 128 * 40)
  let r := rootBits 128 n 42 0
  roundScaled r 40 (r ^ 128 == n)

/-- rna32(1 / (1 + i/128)). -/
def tRecip (i : Nat) : BitVec 32 :=
  let n := 128 * 2 ^ 60
  roundScaled (n / (128 + i)) 60 (n % (128 + i) == 0)

/-- rna32(√(a/b)). -/
def sqrtRatio (a b : Nat) : BitVec 32 :=
  let q := a * 2 ^ 120 / b
  let r := Nat.sqrt q
  roundScaled r 60 (r * r * b == a * 2 ^ 120)

/-- rna32((1 + i/128)^−½) up to 128, then rna32((2 + (i − 128)/64)^−½). -/
def tRsqrt (i : Nat) : BitVec 32 := if i ≤ 128 then sqrtRatio 128 (128 + i) else sqrtRatio 64 i

/-- Fixed point with 512 fraction bits, for the two transcendental tables. -/
def fpBits : Nat := 512
def fpOne : Nat := 2 ^ fpBits
def fpMul (a b : Nat) : Nat := a * b / fpOne

/-- Σ x^k / k! from term k on, for x below 1: fuel terms. -/
def expSeries (x : Nat) : Nat → Nat → Nat → Nat
  | 0, _, _ => 0
  | fuel + 1, k, term => term + expSeries x fuel (k + 1) (fpMul term x / (k + 1))

/-- e^x for 0 ≤ x < 1. -/
def fpExpSmall (x : Nat) : Nat := expSeries x 100 0 fpOne

def fpPow (a : Nat) : Nat → Nat
  | 0 => fpOne
  | n + 1 => fpMul (fpPow a n) a

/-- e^(n/d) for n ≥ 0: the fraction by series, the whole part by powers of e. -/
def fpExp (n d : Nat) : Nat := fpMul (fpExpSmall (n % d * fpOne / d)) (fpPow (fpExpSmall (fpOne / 2)) (2 * (n / d)))

/-- e^(−n/d). -/
def fpExpNeg (n d : Nat) : Nat := fpOne * fpOne / fpExp n d

/-- rna32(1 / (1 + e^(−i/128))), i from 0 to 2,048. -/
def tSigmoid (i : Nat) : BitVec 32 := roundScaled (fpOne * fpOne / (fpOne + fpExpNeg i 128)) fpBits (i == 0)

/-- Σ of arctan(1/q) with alternating signs, in fixed point. -/
def atanInv (q : Nat) : Nat → Nat → Int → Int
  | 0, _, acc => acc
  | fuel + 1, k, acc =>
    let t : Int := ((fpOne / q ^ (2 * k + 1) / (2 * k + 1) : Nat) : Int)
    atanInv q fuel (k + 1) (if k % 2 = 0 then acc + t else acc - t)

/-- π by Machin's formula. -/
def fpPi : Nat := (4 * (4 * atanInv 5 130 0 0 - atanInv 239 40 0 0)).toNat

/-- √(2π). -/
def fpSqrt2Pi : Nat := Nat.sqrt (2 * fpPi * fpOne)

/-- Σ x^(2k+1) / (1 · 3 · … · (2k+1)) for x = n/128: fuel terms. -/
def phiSeries (n : Nat) : Nat → Nat → Nat → Nat
  | 0, _, _ => 0
  | fuel + 1, k, term => term + phiSeries n fuel (k + 1) (term * n * n / (16384 * (2 * k + 3)))

/-- Φ(n/128) − 1/2 for n ≥ 0. -/
def phiHalf (n : Nat) : Nat :=
  fpMul (phiSeries n 300 0 (n * fpOne / 128)) (fpExpNeg (n * n) 32768) * fpOne / fpSqrt2Pi

/-- rna32(Φ(−8 + i/128)), i from 0 to 2,048. -/
def tPhi (i : Nat) : BitVec 32 :=
  if 1024 ≤ i then roundScaled (fpOne / 2 + phiHalf (i - 1024)) fpBits (i == 1024)
  else roundScaled (fpOne / 2 - phiHalf (1024 - i)) fpBits false

/-! ### Table functions (R147, R148) -/

/-- The interpolation of R147 at an exact fraction. -/
def interp (t : Nat → BitVec 32) (i : Nat) (r : Num) : BitVec 32 :=
  let d := (sub32 (t (i + 1)) (t i)).1
  let p := rna32 (numMul (num32 d) r)
  (add32 (t i) p).1

/-- ⌊mag × 2^ex⌋ and the rest, over the same exponent. -/
def floorParts (mag : Nat) (ex : Int) : Nat × Num :=
  if 0 ≤ ex then (mag * 2 ^ ex.toNat, zeroNum false)
  else (mag / 2 ^ (-ex).toNat, .fin false (mag % 2 ^ (-ex).toNat) ex)

/-- Scale a value by 2^n. -/
def scaleNum (x : Num) (n : Int) : Num :=
  match x with
  | .fin s m e => .fin s m (e + n)
  | o => o

/-- A result pattern, and how many roundings saturated. -/
abbrev FuncOut := BitVec 32 × Nat

def saturated (r : BitVec 32 × Bool) : FuncOut := (r.1, b2n r.2)

/-- An infinite input takes the bounds of the edge table, y ≥ 128 and y < −126, and not the NaN of R91's infinite operand: DESIGN CHOICE
(notes/assumptions/46.md). -/
def funcExp (x : BitVec 32) : FuncOut :=
  match num32 x with
  | .nan => (nan32, 0)
  | .inf false => (max32, 1)
  | .inf true => (0, 0)
  | .fin n m e =>
    match num32 (rna32 (numMul (.fin n m e) (num32 0x3FB8AA3B))) with
    | .fin yn ym ye =>
      -- y, its floor and its fraction
      let p := floorParts ym ye
      let whole := numIsZero p.2
      let fl : Int := if yn then (if whole then -(p.1 : Int) else -(p.1 : Int) - 1) else p.1
      let f : Num := if yn && !whole then numAdd (.fin false 1 0) (numNeg p.2) else p.2
      if 128 ≤ fl then (max32, 1)
      else if fl < -126 then (0, 0)
      else
        match scaleNum f 7 with
        | .fin _ fm fe =>
          let q := floorParts fm fe
          saturated (enc32 (scaleNum (num32 (interp tExp q.1 q.2)) fl))
        | _ => (nan32, 0)
    | _ => (nan32, 0)

/-- |x| = m × 2^k with 1 ≤ m < 2: k and 128(m − 1) as floor and fraction. -/
def recipParts (m : Nat) (e : Int) : Int × Nat × Num :=
  let l := Nat.log2 m
  let k : Int := e + l
  let q := floorParts (128 * (m - 2 ^ l)) (-(l : Int))
  (k, q.1, q.2)

def funcRecip (x : BitVec 32) : FuncOut :=
  match num32 x with
  | .nan => (nan32, 0)
  | .inf n => (if n then 0x80000000 else 0, 0)
  | .fin n m e =>
    if m = 0 then (if n then neg32 max32 else max32, 1)
    else
      let p := recipParts m e
      match num32 (interp tRecip p.2.1 p.2.2) with
      | .fin _ vm ve => saturated (enc32 (.fin n vm (ve - p.1)))
      | _ => (nan32, 0)

def funcRsqrt (x : BitVec 32) : FuncOut :=
  match num32 x with
  | .nan => (nan32, 0)
  | .inf n => (if n then nan32 else 0, 0)
  | .fin n m e =>
    if m = 0 then (max32, 1)
    else if n then (nan32, 0)
    else
      let l := Nat.log2 m
      let k : Int := e + l
      -- x = m' × 2^(2j) with 1 ≤ m' < 4
      let j := k / 2
      if k % 2 = 0 then
        let p := recipParts m e
        saturated (enc32 (scaleNum (num32 (interp tRsqrt p.2.1 p.2.2)) (-j)))
      else
        -- m' = 2 × significand; 64(m' − 2) = 128(significand − 1)
        let p := recipParts m e
        saturated (enc32 (scaleNum (num32 (interp tRsqrt (128 + p.2.1) p.2.2)) (-j)))

def funcSigmoid (x : BitVec 32) : FuncOut :=
  match num32 x with
  | .nan => (nan32, 0)
  | .inf n => (if n then 0 else 0x3F800000, 0)
  | .fin n m e =>
    if n || m == 0 then
      let a := funcExp x
      let d := add32 0x3F800000 a.1
      let b := funcRecip d.1
      let r := mul32 a.1 b.1
      (r.1, a.2 + b2n d.2 + b.2 + b2n r.2)
    else if !numLt (.fin n m e) (.fin false 16 0) then (0x3F800000, 0)
    else
      let q := floorParts (128 * m) e
      (interp tSigmoid q.1 q.2, 0)

def funcGelu (x : BitVec 32) : FuncOut :=
  match num32 x with
  | .nan => (nan32, 0)
  | .inf n => if n then (0x80000000, 0) else (max32, 1)
  | .fin n m e =>
    let v : Num := .fin n m e
    if !numLt v (.fin false 8 0) then (x, 0)
    else if numLt v (.fin true 8 0) then (if n then 0x80000000 else 0, 0)
    else
      -- ⌊128x⌋ and the fraction of a value that may be negative
      let q := floorParts (128 * m) e
      let whole := numIsZero q.2
      let fl : Int := if n then (if whole then -(q.1 : Int) else -(q.1 : Int) - 1) else q.1
      let r : Num := if n && !whole then numAdd (.fin false 1 0) (numNeg q.2) else q.2
      saturated (mul32 x (interp tPhi (1024 + fl).toNat r))

/-- VFUNC func of one lane. -/
def vfuncLane (func : Nat) (x : BitVec 32) : FuncOut :=
  match func with
  | 0 => funcExp x
  | 1 => funcRecip x
  | 2 => funcRsqrt x
  | 3 => funcSigmoid x
  | _ => funcGelu x

end Sys2Proof.Machine
end

