-- ==== Sys2Proof/Machine/Abort.lean ====
section
/-! DEFINITION. Giving up a frame (spec/06_tokens_steering.md R171 to R174, spec/15_availability.md R401, R402): the class 1 record, the void tack
lines, and the beats that go. What each element drops of its own stands with the element. -/

namespace Sys2Proof.Machine

/-- RCLK cycles of an ac (R381, R383). -/
def dividerOf (field : Nat) : Nat := match field with | 0 => 4 | 1 => 5 | 2 => 6 | _ => 8

/-- n ac of a unit's sector, in whole fc. -/
def acFc (s : State) (u : Site) (n : Nat) : Nat := ceilDiv (n * dividerOf (sectorOf s (siteSector u)).actual) 8

/-- The stream's own note of an aborted frame, and the count of page 97, once. -/
def noteAbort (s : State) (st frame code : Nat) : State :=
  let c := streamOf s st
  if c.frames.any (fun f => f.id == frame && !f.aborted) then
    count (setStream s st { c with frames := c.frames.map (fun f => if f.id = frame then { f with aborted := true, voidCode := code } else f) })
      (streamCounter st 2) 1
  else s

/-- The class 1 record of an aborted frame. -/
def abortRecord (s : State) (code : Nat) (site : Site) (st frame : Nat) (d0 d1 : Dword) : State :=
  noteAbort (faultFrame s code 1 site st frame d0 d1) st frame code

/-- Unsent data beats of a frame go from an output's queue. -/
def dropUnsent (s : State) (e : EndPoint) (st frame : Nat) : State :=
  let rec go (cur : Option Nat) : List OutBeat → List OutBeat
    | [] => []
    | o :: rest =>
      let b := o.beat
      if bStream b = st ∧ bType b ≤ 2 then
        let c := if isTack b then some (tackFrame b) else cur
        if c = some frame ∧ !isTack b then go c rest else o :: go c rest
      else o :: go cur rest
  setOutQ s e (go (amGet s.fabric.outTack (e, st)) (outQ s e))

/-- Open and void tack lines of an aborted frame on outputs (R173), and no further beat of it. -/
def voidOn (s : State) (outs : List EndPoint) (st frame : Nat) (tk : TackInfo) (code : Nat) : State :=
  outs.foldl (fun x e => sendVoid (dropUnsent x e st frame) e st frame tk code) s

def discardOn (s : State) (ins : List EndPoint) (st frame : Nat) : State :=
  ins.foldl (fun x e => discardInput x e st frame) s

def endsOf (u : Site) (ports : List Nat) : List EndPoint := ports.map (fun p => ⟨u, p⟩)

/-- The fc that a limit of 2^n fc ends, for watchdogs. -/
def watchEnd (start : Fc) (log2 : Nat) : Fc := start + 2 ^ log2

end Sys2Proof.Machine
end

