-- ==== Sys2Proof/Machine/HostIf.lean ====
section
/-! DEFINITION. The host interface: doorbells, rings, the packet fetcher, the resets of the interface, Bus Master Enable and power states, and the
NOP and IDENTIFY commands (spec/12_host_commands.md R337 to R358, spec/13_events.md R372, R374). -/

namespace Sys2Proof.Machine

/-! ### NOP and IDENTIFY (R351) -/

/-- NOP completes OK with its value in detail; its fence is the fetcher's doing (R348). -/
def execNop (c : HostCmd) (s : State) : Host.Outcome State Fault Refusal :=
  takeCmd s c 0x01 0 fun s p => okAt s (pktDw p 2).toNat

def asciiBytes (t : String) : List Byte := t.toList.map (fun ch => BitVec.ofNat 8 ch.toNat)

/-- A latency record in the layout of R295: ID, kind 0, the mask of kinds, value. -/
def latRecord (e : Nat × Bool × Nat × Nat) : List Byte := leBytes 1 e.1 ++ leBytes 1 0 ++ leBytes 2 e.2.2.1 ++ leBytes 4 e.2.2.2

def pkgVersion (p : Option FwPkg) : Dword := match p with | some x => x.version | none => 0

/-- The running courier package: the one booted, or the copy in the flash. -/
def courierPkg (s : State) : Option FwPkg := s.sec.courierRunning.or s.sec.courier0

/-- The 4,096 bytes that IDENTIFY writes. -/
def identifyBytes (s : State) : List Byte :=
  padTo 4096
    (padTo 256
      (padTo 16 (asciiBytes (Config.nameOf Config.variant)) ++ leBytes 2 Config.stepping ++ leBytes 2 0
        ++ dwBytes Config.bootRomVersion ++ dwBytes (pkgVersion (courierPkg s))
        ++ dwBytes (if s.hif.fwStage = 2 then pkgVersion s.sec.running else 0) ++ dwBytes (pkgVersion s.sec.staged)
        ++ List.replicate 12 0 ++ leBytes 16 Config.serialField.toNat)
      ++ padTo 512 (Config.latencyTable.flatMap latRecord))

def execIdentify (c : HostCmd) (s : State) : Host.Outcome State Fault Refusal :=
  takeCmd s c 0x02 0 fun s p =>
    if pktQ p 2 % 64 ≠ 0 then refuse s stBadParam
    else .finish stOK 0 [(pktQ p 2, identifyBytes s)] s

/-! ### Rings (R340, R341) -/

/-- A ring enters ERROR: its packets not yet taken are discarded, and the completions of its commands already taken, but for the data of those. -/
def ringError (s : State) (r code cause : Nat) (value : Nat) : State :=
  let s1 := modRing s r (fun x => { x with state := .error, cause := cause, reserved := 0, open_ := 0 })
  let s2 := { s1 with hif := { s1.hif with
      intake := s1.hif.intake.filter (fun i => decide (i.ring ≠ r))
      heldCompletions := discardHeld s1.hif.heldCompletions (fun c => c.ring == r)
      pendings := s1.hif.pendings.map (fun c => if c.ring = r then { c with discarded := true } else c) } }
  fault s2 code 4 noSite (dw r) (dw value)

/-- A submission tail doorbell (R341, R342): bits [a:0] are taken; ignored while DISABLED or ERROR. -/
def doorbellTail (s : State) (r : Nat) (value : Dword) : State :=
  let x := ringOf s r
  if x.state = .disabled ∨ x.state = .error ∨ 16 ≤ r then s else
  let t := value.toNat % 2 ^ (x.sqLog2 + 1)
  if 2 ^ x.sqLog2 < ptrCount (x.sqLog2 + 1) x.sqHead t then ringError s r 0x0C01 1 t
  else setRing s r { x with sqTail := t }

/-- A completion head doorbell (R341, R342): past the tail or backwards is an error. -/
def doorbellHead (s : State) (r : Nat) (value : Dword) : State :=
  let x := ringOf s r
  if x.state = .disabled ∨ x.state = .error ∨ 16 ≤ r then s else
  let h := value.toNat % 2 ^ (x.cqLog2 + 1)
  if ptrCount (x.cqLog2 + 1) x.cqHead x.cqTail < ptrCount (x.cqLog2 + 1) x.cqHead h then ringError s r 0x0C02 2 h
  else setRing s r { x with cqHead := h }

/-- A write to HIF_RING_CFG_r (R340). -/
def ringCfgWrite (s : State) (r : Nat) (value : Dword) : State :=
  let x := ringOf s r
  if 16 ≤ r then s else
  match x.state with
  | .disabled =>
    let y := { x with sqLog2 := dbits value 7 4, cqLog2 := dbits value 11 8, maxPriority := dbits value 13 12, privileged := dbit value 16 }
    if dbit value 0 then
      if 4 ≤ y.sqLog2 ∧ y.sqLog2 ≤ 12 ∧ 4 ≤ y.cqLog2 ∧ y.cqLog2 ≤ 12 ∧ lohi y.sqLo y.sqHi % 4096 = 0 ∧ lohi y.cqLo y.cqHi % 4096 = 0 then
        setRing s r { y with state := .enabled, enable := true, cause := 0, sqHead := 0, sqTail := 0, cqHead := 0, cqTail := 0, reserved := 0, open_ := 0 }
      else setRing s r { y with cause := 5 }
    else setRing s r y
  | .enabled => if dbit value 0 then s else setRing s r { x with state := .draining, enable := false }
  | .draining => s
  | .error => if dbit value 0 then s else setRing s r { x with state := .disabled, enable := false }

def execHifDbSqTail (ring : Nat) (value : Dword) (s : State) : Host.Outcome State Fault Refusal := done (doorbellTail s ring value)

def execHifDbCqHead (ring : Nat) (value : Dword) (s : State) : Host.Outcome State Fault Refusal := done (doorbellHead s ring value)

/-- The row is a write with enable 1. -/
def execRingEnable (ring : Nat) (value : Dword) (s : State) : Host.Outcome State Fault Refusal :=
  done (if dbit value 0 then ringCfgWrite s ring value else s)

/-- The row is a write with enable 0. -/
def execRingDisable (ring : Nat) (value : Dword) (s : State) : Host.Outcome State Fault Refusal :=
  done (if dbit value 0 then s else ringCfgWrite s ring value)

/-- A DRAINING ring all of whose fetched commands have their final completion becomes DISABLED (R340). -/
def execRingDrainDone (ring : Nat) (s : State) : Host.Outcome State Fault Refusal :=
  let x := ringOf s ring
  done (if x.state = .draining ∧ x.open_ = 0 then setRing s ring { x with state := .disabled } else s)

/-! ### The fetcher (R339, R348) -/

/-- One packet at the submission head, when R339 and the fence allow it. -/
def fetchOne (s : State) (r : Nat) (p : Packet) : Option State :=
  if fetchable s ⟨r, p⟩ then
    let s1 := fetched s ⟨r, p⟩
    some { s1 with hif := { s1.hif with intake := s1.hif.intake ++ [⟨r, p⟩] } }
  else none

/-- Consecutive packets until one is not allowed. -/
def fetchMany (s : State) (r : Nat) : List Packet → State
  | [] => s
  | p :: rest => match fetchOne s r p with | some s' => fetchMany s' r rest | none => s

/-- A visit of the fetcher to the next enabled ring in round robin: up to 8 packets; a read that may be made and fails puts the ring in ERROR (R341). -/
def packetFetch (s : State) (r : Nat) (packets : Option (List Packet)) : State :=
  let x := ringOf s r
  if !hostUp s || s.hif.fetchStopped || s.hif.fwStage == 0 || x.state != .enabled
      || nextRound s.hif.lastVisited 16 (fun k => (ringOf s k).state == .enabled) != some r then s
  else
    let s1 := { s with hif := { s.hif with lastVisited := r } }
    match packets with
    | some l => fetchMany s1 r (l.take 8)
    | none => if 0 < ptrCount (x.sqLog2 + 1) x.sqHead x.sqTail ∧ s.hif.intake.length < 128 ∧ 0 < cqFree x then ringError (readFailed s1) r 0x0C03 3 x.sqHead else s1

def execPacketFetch (ring : Nat) (packets : Option (List Packet)) (s : State) : Host.Outcome State Fault Refusal :=
  done (packetFetch s ring packets)

/-! ### Resets of the host interface (R357, R374, R451, R500) -/

/-- A record in progress whose write cannot be made (R249): its class 1 record, and the frame counted as aborted. -/
def hostRecordFails (s : State) (st : Nat) : State :=
  let c := lget s.streams st {}
  match c.desc.record with
  | some r =>
    if r.failed then s else
    let n := b2n (c.frames.any (fun f => f.id == r.frame && !f.aborted))
    let c' := { c with desc := { c.desc with record := some { r with failed := true } },
                       frames := c.frames.map (fun f => if f.id = r.frame then { f with aborted := true, voidCode := 0x0812 } else f) }
    count (faultFrame { s with streams := s.streams.set st c' } 0x0812 1 noSite st r.frame 0 0) (streamCounter st 2) n
  | none => s

/-- One host descriptor at a reset of the interface: IDLE, a held DESC_ARM discarded, a record in progress under R249. HIF_DESC_SEQ stays. -/
def descToIdle (s : State) (st : Nat) : State :=
  let s1 := hostRecordFails s st
  let c := lget s1.streams st {}
  let ends (f : Frame) : Frame := match c.desc.record with | some r => if f.id = r.frame then { f with hostDone := true } else f | none => f
  { s1 with streams := s1.streams.set st { c with desc := { state := .idle, seq := c.desc.seq }, frames := c.frames.map ends } }

/-- EVT registers at their reset values; the on-die buffers and the sequence counts stay (R374). -/
def evtReset (e : Evt) : Evt :=
  { ({} : Evt) with
    normal := { held := e.normal.held, seq := e.normal.seq, gapLost := e.normal.gapLost, gapTime := e.normal.gapTime }
    fastLog := { held := e.fastLog.held, seq := e.fastLog.seq, gapLost := e.fastLog.gapLost, gapTime := e.fastLog.gapTime } }

/-- The reset of the host interface alone: Function Level Reset, hot reset, link down. No host memory is written in it: records find their log
disabled (R374), and the data of commands that are over stays held (R357, R358). -/
def hifReset (s : State) : State :=
  let s1 := (List.range 32).foldl descToIdle { s with hif := { s.hif with busMaster := false }, evt := evtReset s.evt }
  { s1 with
    hif := { s1.hif with
      rings := List.replicate 16 {}
      intake := []
      heldCompletions := discardHeld s1.hif.heldCompletions (fun _ => true)
      pendings := (s1.hif.pendings.filter (fun c => match c.kind with | .descArm _ => false | _ => true)).map (fun c => { c with discarded := true })
      busMaster := false
      d3hot := false
      aer := {}
      pci := {}
      functionMask := false
      msix := List.replicate 64 {}
      pba := List.replicate 64 false }
    evt := evtReset s1.evt
    cnt := { s1.cnt with bar2 := [], grants := [] } }

def execFunctionLevelReset (s : State) : Host.Outcome State Fault Refusal := done (hifReset s)

def execHotReset (s : State) : Host.Outcome State Fault Refusal := done (hifReset s)

/-- What is still held at a link down fails: a command's data (R356, R358), else the completion write of a ring that could take it (R510, R341). -/
def heldWriteFails (s : State) (c : HeldCompletion) : State :=
  match c.writes with
  | [] =>
    let x := ringOf s c.ring
    if x.state = .enabled ∨ x.state = .draining then ringError s c.ring 0x0C04 4 x.cqTail else s
  | w :: _ => dataFails s c.ring c.tag w.1

/-- The link goes down while it is in use: what is held fails, the interface is reset, and AER reports surprise down (R333). -/
def execLinkDown (s : State) : Host.Outcome State Fault Refusal :=
  let s0 := { s with hif := { s.hif with linkUp := false, busMaster := false } }
  let s1 := s.hif.heldCompletions.foldl heldWriteFails s0
  done (aerReport (hifReset { s1 with hif := { s1.hif with heldCompletions := [] } }) .surpriseDown)

/-! ### Bus Master Enable and power states (R358) -/

/-- A message is held for vector v that waits for no record. -/
def messageHeld (s : State) (v : Nat) : Bool := lget s.hif.pba v false && !s.evt.waiting.any (fun x => x.1 == v)

/-- Messages held as pending whose vectors are not masked go out (R372). -/
def releaseMessages (s : State) : State :=
  (List.range 64).foldl (fun st v => if messageHeld st v then sendMessage st v else st) s

/-- Host access is allowed again: held data and completions in order, held records as far as their logs have room, then held messages (R373). -/
def resumeHost (s : State) : State := if hostUp s then releaseMessages (heldDrain (heldDrain (releaseHeld (resetFrom s)) false) true) else s

def execBusMasterEnableClear (s : State) : Host.Outcome State Fault Refusal :=
  done { s with hif := { s.hif with busMaster := false } }

/-- The host can set the bit only over a trained link. -/
def execBusMasterEnableSet (s : State) : Host.Outcome State Fault Refusal :=
  if s.hif.pcieHeld then done s
  else done (resumeHost { s with hif := { s.hif with busMaster := true, linkUp := true } })

def execPowerStateD3hot (s : State) : Host.Outcome State Fault Refusal := done { s with hif := { s.hif with d3hot := true } }

def execPowerStateD0 (s : State) : Host.Outcome State Fault Refusal := done (resumeHost { s with hif := { s.hif with d3hot := false } })

/-- A vector's mask is cleared; a message held for it is sent once (R372). -/
def unmaskVector (s : State) (v : Nat) : State :=
  let s1 := { s with hif := { s.hif with msix := lmod s.hif.msix v (fun e => { e with masked := false }) } }
  if messageHeld s1 v then sendMessage s1 v else s1

/-- Function Mask is cleared (functionMask true), or one vector's mask. -/
def execMsixVectorUnmask (vector : Nat) (functionMask : Bool) (s : State) : Host.Outcome State Fault Refusal :=
  done (if functionMask then releaseMessages { s with hif := { s.hif with functionMask := false } } else unmaskVector s vector)

end Sys2Proof.Machine
end

