-- ==== Sys2Proof/Machine/StreamCtl.lean ====
section
/-! DEFINITION. What the ingress, the egress and the host descriptor of a stream share (spec/11_stream_lanes.md, spec/08_descriptors.md R246 to
R251, spec/09_sections_span.md R258): which image serves a stream, frames held at the dip, the end of a frame's records, and aborts. -/

namespace Sys2Proof.Machine

/-! ### Images and streams -/

/-- The active hoist's image serves the stream. -/
def servesStream (s : State) (st : Nat) : Bool :=
  match activeImage s with
  | some i => i.streamMask.testBit st
  | none => false

def ingressEnd (st : Nat) : EndPoint := ⟨laneSite st, 0⟩
def egressEnd (st : Nat) : EndPoint := ⟨egressSite st, 0⟩

/-- The stream's frames enter the fabric of this part. -/
def framesLocal (s : State) (st : Nat) : Bool := !(linkPaths s (ingressEnd st)).isEmpty

/-- The stream's results leave from this part (R324). -/
def resultsHere (s : State) (st : Nat) : Bool := (linkProducer s (egressEnd st)).isSome

def streamWidth (c : StreamCtx) : Nat := 2 ^ c.lanesLog2

/-- State of a stream, with event 0x0001 of each change (R365). -/
def moveStream (s : State) (st : Nat) (x : StreamState) : State :=
  if (streamOf s st).state = x then s
  else postStream (modStream s st (fun c => { c with state := x })) st 0x0001 noFrame s.now (streamCode x)

/-! ### Frames held at the dip (R258, R323, R413) -/

/-- The batch of the section that admits frames: no image or an unsectioned one admits every frame. -/
def admitsBatch (s : State) : Option Nat :=
  match s.hal.active with
  | none => none
  | some h =>
    match (hoistOf s h).image.bind (imageOf s) with
    | some i => if i.sectioned then some (if (hoistOf s h).section_ = 0 then i.batch else 0) else none
    | none => none

/-- Frames in frame-ID order are admitted, up to the batch of this activation of section 0. -/
def admitList (room : Option Nat) : Nat → List Frame → List Frame × Nat
  | n, [] => ([], n)
  | n, f :: rest =>
    if f.courier || f.admitted || f.tackSent then
      let r := admitList room n rest
      (f :: r.1, r.2)
    else
      let ok := match room with | some b => decide (n < b) | none => true
      let r := admitList room (if ok then n + 1 else n) rest
      ({ f with admitted := ok } :: r.1, r.2)

/-- A frame that waits at the dip: no tack line of it enters the fabric. -/
def frameHeld (s : State) (c : StreamCtx) (f : Frame) : Bool :=
  !f.courier && !f.tackSent && !f.aborted && (f.dip || !f.admitted || c.proofHold || haltedNow s || windowRunning s.hal.window)

/-- Frames admitted and held brought up to date, with the count of page 97. -/
def syncHolds (s : State) (st : Nat) : State :=
  let c := streamOf s st
  let a := admitList (admitsBatch s) c.batchCount c.frames
  let fs := a.1.map (fun f => { f with held := frameHeld s c f })
  let newly := (fs.filter (fun f => f.held && !(c.frames.any (fun g => g.id == f.id && g.held)))).length
  count (setStream s st { c with frames := fs, batchCount := a.2 }) (streamCounter st 4) newly

def syncAllHolds (s : State) : State := (List.range Config.streams).foldl syncHolds s

/-! ### Streams that stall behind a unit in proof (R413) -/

/-- The boxes that an output's link passes, and the elements it ends at. -/
def linkUnits (s : State) (e : EndPoint) : List Site :=
  dedup ((linkPaths s e).flatMap (fun p => p.boxes.map Prod.fst ++ [siteElem p.consumer.site]))

/-- Boxes and elements downstream of those in `todo`, and those in `seen`. -/
def downstream (s : State) : Nat → List Site → List Site → List Site
  | 0, seen, _ => seen
  | n + 1, seen, todo =>
    let next := (dedup (todo.flatMap (fun u => (outPorts s u).flatMap (fun p => linkUnits s ⟨u, p⟩)))).filter (fun u => !seen.contains u)
    if next.isEmpty then seen else downstream s n (seen ++ next) next

/-- Beats of the stream pass a unit that is in proof and was not out of service, or that a forced proof waits for (R413, R417). -/
def behindProof (s : State) (st : Nat) : Bool :=
  let u := siteElem s.hal.proof.site
  let first := linkUnits s (ingressEnd st)
  (proofStops s u || bindStopped s u) && (downstream s 1024 first first).contains u

/-- The proof's back-pressure has reached the ingress of a stream in INFER: it is held at the dip. -/
def proofHolds (s : State) (st : Nat) : State :=
  if (streamOf s st).state = .infer ∧ behindProof s st then syncHolds (modStream s st (fun c => { c with proofHold := true })) st else s

/-- The hold ends once the ingress has credit again (R413). -/
def liftHold (s : State) (st : Nat) : State :=
  let e := ingressEnd st
  if (streamOf s st).proofHold && decide (1 ≤ (linkOr s e (linkPaths s e)).free) then
    syncHolds (modStream s st (fun c => { c with proofHold := false })) st
  else s

def liftHolds (s : State) : State := (List.range Config.streams).foldl liftHold s

/-! ### CRC-32 (R313) -/

/-- One bit, least significant first. -/
def crc32Bit (crc : Nat) (b : Bool) : Nat :=
  if crc.testBit 0 != b then (crc / 2) ^^^ 0xEDB88320 else crc / 2

def crc32Byte (crc : Nat) (b : Byte) : Nat := (List.range 8).foldl (fun c k => crc32Bit c (b.getLsbD k)) crc

def crc32Bytes (crc : BitVec 32) (l : List Byte) : BitVec 32 := BitVec.ofNat 32 (l.foldl crc32Byte crc.toNat)

/-- The remainder inverted, as a block carries it. -/
def crcField (crc : BitVec 32) : Nat := (~~~ crc).toNat

/-! ### Blocks of the egress (R309, R310, R318, R321) -/

def emitBlock (s : State) (st : Nat) (ctl : Bool) (payload : Nat) : State := emit s (.egressBlock st ctl (BitVec.ofNat 64 payload))

def emitBlocks (s : State) (st : Nat) (l : List (Bool × Nat)) : State := l.foldl (fun x b => emitBlock x st b.1 b.2) s

def lineStartWord (line : Nat) : Nat := 0x2D + line % 2 ^ 24 * 2 ^ 8
def lineEndWord (crc : BitVec 32) (line : Nat) : Nat := 0x4B + crcField crc * 2 ^ 8 + line % 2 ^ 16 * 2 ^ 40
def frameEndWord (crc : BitVec 32) (lines : Nat) (aborted : Bool) : Nat :=
  0x87 + crcField crc * 2 ^ 8 + (lines - 1) % 2 ^ 20 * 2 ^ 40 + b2n aborted * 2 ^ 60
def resultStart (frame : Nat) : Nat := 0x78 + 31 * 2 ^ 8 + 0xFFFF * 2 ^ 24 + 15 * 2 ^ 44 + frame % 2 ^ 16 * 2 ^ 48
def idleWord : Nat := 0x1E

/-- Data blocks of bytes, eight to a block. -/
def dataWords (bytes : List Byte) : List (Bool × Nat) := (List.range (ceilDiv bytes.length 8)).map (fun k => (false, leAt bytes (8 * k) 8))

/-- The egress's record, once it has sent `bytes` of a line, with the LINE_START ahead and the LINE_END behind as asked. -/
def egressSend (s : State) (st : Nat) (r : EgressRec) (bytes : List Byte) (last : Bool) : State :=
  let head := if r.rowOpen then [] else [(true, lineStartWord r.line)]
  let lineCrc := crc32Bytes (if r.rowOpen then r.lineCrc else 0xFFFFFFFF) bytes
  let runCrc := crc32Bytes (if r.rowOpen then r.runCrc else r.frameCrc) bytes
  let tail := if last then [(true, lineEndWord lineCrc r.line)] else []
  let blocks := head ++ dataWords bytes ++ tail
  let r' : EgressRec := { r with
    line := if last then r.line + 1 else r.line
    rowOpen := !last
    lineCrc := lineCrc
    runCrc := runCrc
    frameCrc := if last then runCrc else r.frameCrc
    pos := r.pos + blocks.length }
  modStream (emitBlocks s st blocks) st (fun c => { c with egress := some r' })

/-- FRAME_END over the lines sent, and IDLE blocks to complete the stripe ahead of what follows (R309). -/
def egressFinish (s : State) (st : Nat) (r : EgressRec) (aborted : Bool) : State :=
  let w := streamWidth (streamOf s st)
  let fill := (w - (r.pos + 1) % w) % w
  modStream (emitBlocks s st ((true, frameEndWord r.frameCrc r.line aborted) :: List.replicate fill (true, idleWord))) st
    (fun c => { c with egress := none })

/-- The header line of R318. -/
def egressHeader (st : Nat) (f : Frame) (now : Fc) : List Byte :=
  padTo 64 (leBytes 4 f.id ++ leBytes 1 st ++ leBytes 1 (b2n f.courier) ++ leBytes 2 0 ++ leBytes 8 f.arrival ++ leBytes 8 now)

/-- FRAME_START stripe and header line of a frame. -/
def egressBegin (s : State) (st : Nat) (f : Frame) : State :=
  let c := streamOf s st
  let start := if f.courier then f.start.toNat else resultStart f.id
  let s1 := emitBlocks s st (List.replicate (streamWidth c) (true, start))
  egressSend s1 st { frame := f.id, line := 0 } (egressHeader st f s.now) true

/-! ### Host descriptor (R247 to R251) -/

def setDesc (s : State) (st : Nat) (d : HostDesc) : State := modStream s st (fun c => { c with desc := d })

def slotAddr (b : DescBuf) (k : Nat) : Nat := b.addr + k * 2 ^ b.slotLog2

/-- Bytes 0 to 59 of a slot's header (R247). -/
def slotHeader (st : Nat) (r : HostRec) (status code : Nat) (t : Fc) : List Byte :=
  padTo 60 (leBytes 4 r.frame ++ leBytes 4 r.written ++ leBytes 8 r.arrival ++ leBytes 8 t ++ leBytes 1 st ++ leBytes 1 status ++ leBytes 2 code)

/-- The stream's next buffer sequence number, 0 skipped. -/
def seqNext (n : Nat) : Nat := if n + 1 = 2 ^ 32 then 1 else n + 1

def modFrame (s : State) (st frame : Nat) (f : Frame → Frame) : State :=
  modStream s st (fun c => { c with frames := c.frames.map (fun x => if x.id = frame then f x else x) })

def frameOf (c : StreamCtx) (frame : Nat) : Option Frame := c.frames.find? (fun f => decide (f.id = frame))

/-- Blocks or buffer entries of a frame are still to come into the fabric. -/
def frameEntering (c : StreamCtx) (frame : Nat) : Bool :=
  (frameOf c frame).any (·.receiving) || c.buffer.any (fun e => e.frame == frame)

/-- A frame that is over goes from the context, once nothing of it is still to enter the fabric: what its ingress receives goes on being sent. -/
def removeFrame (s : State) (st frame : Nat) : State :=
  if frameEntering (streamOf s st) frame then s
  else modStream s st (fun c => { c with frames := c.frames.filter (fun f => decide (f.id ≠ frame)) })

/-- A frame whose record is over on every path: complete, unless a path gave it up (R324). -/
def settleFrame (s : State) (st frame : Nat) : State :=
  match frameOf (streamOf s st) frame with
  | some f =>
    if f.ended && f.egressDone && f.hostDone && !frameEntering (streamOf s st) frame then
      let s1 := removeFrame s st frame
      if f.aborted || f.courier then s1
      else countEvent (count s1 (streamCounter st 1) 1) 0x0E (egressSite st) (some st) 0 0 false
    else s
  | none => s

/-- A descriptor that was to stop does so once its record is over: IDLE, the held DESC_ARM completes ABORTED and the disarm OK (R251). -/
def descStops (s : State) (st : Nat) : State :=
  let s1 := finishEvery s (fun k => k == .descArm st) stAborted 0 s.now
  let s2 := finishEvery s1 (fun k => k == .descDisarm st) stOK 0 s.now
  let d := (streamOf s2 st).desc
  setDesc s2 st { d with state := .idle, buf := none, heldBuf := none, disarming := false }

/-- What follows the seal of the last slot of a buffer (R251). -/
def bufferDone (s : State) (st : Nat) (b : DescBuf) : State :=
  let d := (streamOf s st).desc
  let s1 := if b.eventBuffer then postStream s st 0x0004 noFrame s.now d.seq else s
  if d.disarming then s1
  else match d.heldBuf with
    | some nb =>
      let n := seqNext d.seq
      finishFirst (setDesc s1 st { d with state := .active, buf := some nb, heldBuf := none, nextSlot := 0, seq := n })
        (fun k => k == .descArm st) stOK (dw n) s.now
    | none => setDesc s1 st { d with state := .exhausted, buf := none }

/-- The host record of a frame is over: the path is done, and a disarm that waited for it completes. -/
def hostOver (s : State) (st frame : Nat) : State :=
  let s1 := modStream s st (fun c => { c with desc := { c.desc with record := none } })
  let s2 := if (streamOf s1 st).desc.disarming then descStops s1 st else s1
  settleFrame (modFrame s2 st frame (fun f => { f with hostDone := true })) st frame

/-- Header and seal of the record in progress (R247 to R249): status 0 complete, 1 aborted, 2 truncated. A record that could not be written gets neither. -/
def sealSlot (s : State) (st : Nat) (r : HostRec) (status code : Nat) : State :=
  let d := (streamOf s st).desc
  match d.buf with
  | none => hostOver s st r.frame
  | some b =>
    if r.failed then hostOver s st r.frame
    else if !hostUp s then hostOver (hostRecordFails s st) st r.frame
    else
      let a := slotAddr b r.slot
      let t := if status = 1 then s.now else r.lastWrite
      let s1 := emitWrites s [(a, slotHeader st r status code t), (a + 60, leBytes 4 d.seq)]
      let s2 := traceNow s1 0x001C noSite (some st) (dw r.frame) (1 + r.slot * 2 ^ 16) status 0
      let s3 := if b.eventRecord then postStream s2 st 0x0003 (dw r.frame) s.now (r.slot % 2 ^ 16 + status * 2 ^ 16) else s2
      let s4 := if r.slot + 1 = b.slots then bufferDone s3 st b else s3
      hostOver s4 st r.frame

/-! ### Frames given up -/

/-- The records of a frame end as aborted on every path (R30, R249, R321). -/
def endResults (s : State) (st frame code : Nat) : State :=
  let s1 := match (streamOf s st).egress with
    | some r =>
      if r.frame = frame then
        let x := egressFinish s st r true
        match frameOf (streamOf s st) frame with
        | some f => if f.courier then x else traceNow x 0x001C (egressSite st) (some st) (dw frame) 0 1 0
        | none => x
      else s
    | none => s
  let s2 := match (streamOf s1 st).desc.record with
    | some r => if r.frame = frame then sealSlot s1 st r 1 code else s1
    | none => s1
  let s3 := modStream s2 st (fun c =>
    match c.res with
    | some r => if r.frame = frame then { c with res := some { r with dead := true }, headSeen := false, headTaken := 0 } else c
    | none => c)
  modFrame s3 st frame (fun f => { f with ended := true, egressDone := true, hostDone := true })

/-- The ingress buffer becomes `l`: the entries that it gains advance wp, those that it loses advance rp (R168). -/
def withBuffer (c : StreamCtx) (l : List BufEntry) : StreamCtx :=
  { c with buffer := l, bufWp := (c.bufWp + (bufferHeld l - bufferHeld c.buffer)) % 2 ^ 15 }

/-- The ingress buffer becomes `l` by a discard: what it loses is freed from now on, 8 entries an fc (R171). -/
def withoutBuffer (now : Fc) (c : StreamCtx) (l : List BufEntry) : StreamCtx :=
  let gone := bufferHeld c.buffer - bufferHeld l
  { withBuffer c l with dropAt := if 0 < gone then now else c.dropAt, dropN := if 0 < gone then bufferFreeing now c + gone else c.dropN }

/-- Read pointer of the buffer. -/
def bufRp (now : Fc) (c : StreamCtx) : Nat := (c.bufWp + 2 ^ 16 - (bufferHeld c.buffer + bufferFreeing now c)) % 2 ^ 15

/-- Entries of the ingress buffer. -/
def bufferSize : Nat := 16384

/-- The buffer is full at the start of an fc: an entry read or freed in the fc counts still (R169). -/
def bufferFull (now : Fc) (c : StreamCtx) : Bool :=
  decide (bufferSize ≤ bufferHeld (c.buffer.filter (fun e => decide (e.entered < now))) + (c.nextRead - now) + bufferFreeing now c)

/-- Entries written one an fc from now on; none where one of them finds the buffer full (R168, R169, R316). -/
def writeEntries (now : Fc) : List BufEntry → StreamCtx → Option StreamCtx
  | [], c => some c
  | e :: rest, c =>
    let at_ := max now c.nextWrite
    if bufferFull at_ c then none
    else writeEntries now rest { withBuffer c (c.buffer ++ [{ e with entered := at_ }]) with nextWrite := at_ + 1 }

/-- Entries read from the head of the buffer, one an fc (R168). -/
def readEntries (now : Fc) (c : StreamCtx) (n : Nat) (rest : List BufEntry) : StreamCtx :=
  { withBuffer c rest with nextRead := max now c.nextRead + n }

/-- The fc from which the head of the buffer can be read: after the entry's own, after a discard, and after the last read (R168, R169, R171). -/
def readFrom (c : StreamCtx) : Fc :=
  match c.buffer with
  | e :: _ => if e.owed then 0 else max (e.entered + 1) (max c.nextRead (c.dropAt + ceilDiv c.dropN 8))
  | [] => 0

/-- The entries of a frame go from the ingress buffer; its open and void tack lines take their place when asked for (R173, R317). -/
def bufferVoid (buf : List BufEntry) (st : Nat) (f : Frame) (code : Nat) (openToo void : Bool) : List BufEntry :=
  let rest := buf.filter (fun e => decide (e.frame ≠ f.id))
  let before := rest.takeWhile (fun e => !frameAfter f.id e.frame)
  let after := rest.drop before.length
  let entry (kind c : Nat) : BufEntry := { frame := f.id, line := 0, beat := some (mkTack st f.id kind 0 f.arrival c), released := true, owed := true }
  before ++ (if void then (if openToo then [entry 0 0] else []) ++ [entry 1 code] else []) ++ after

/-- The ingress side aborts a frame (R316, R317, R324, R329): its record, its entries not yet sent, its tack lines, and its records on every path. An
open tack line not yet sent goes ahead of the void one, so that every path sees the open tack line of every frame (R173). -/
def ingressAbort (s : State) (st : Nat) (f : Frame) (code : Nat) : State :=
  let s1 := abortRecord s code (laneSite st) st f.id 0 0
  let s2 := if f.receiving then traceNow s1 0x0011 (laneSite st) (some st) (dw f.id) 0 code 0 else s1
  let void := !f.courier
  let c := streamOf s2 st
  let s3 := setStream s2 st { withoutBuffer s.now c (bufferVoid c.buffer st f code (!f.tackSent) void) with
    reception := if c.reception.any (fun r => r.frame == f.id) then none else c.reception }
  let s4 := endResults (modFrame s3 st f.id (fun x => { x with receiving := false, held := false, dip := false })) st f.id code
  if void then s4 else removeFrame s4 st f.id

/-- Every frame in flight has left on every path. -/
def allLeft (c : StreamCtx) : Bool := c.frames.all (fun f => f.ended && f.egressDone && f.hostDone)

/-- A frame still in flight. -/
def inFlight (f : Frame) : Bool := !(f.ended && f.egressDone && f.hostDone)

/-- Every frame of a stream still in flight, aborted by the ingress side with one code; how many. -/
def abortFrames (s : State) (st code : Nat) : State × Nat :=
  let fs := (streamOf s st).frames.filter inFlight
  (fs.foldl (fun x f => ingressAbort x st f code) s, fs.length)

end Sys2Proof.Machine
end

