-- ==== Sys2Proof/Machine/Streams.lean ====
section
/-! DEFINITION. Stream contexts: STREAM_OPEN, STREAM_MODE, STREAM_CLOSE, their landings and timeouts, deadlines, and the host descriptor's
DESC_ARM (spec/11_stream_lanes.md R322 to R329, spec/08_descriptors.md R250, R251). -/

namespace Sys2Proof.Machine

/-! ### STREAM_OPEN (R325, R326) -/

/-- An exponent field of all ones: NaN or infinity. -/
def notFinite32 (x : Dword) : Bool := dbits x 30 23 == 255

/-- Lanes of a stream. -/
def laneSpan (st width : Nat) : List Nat := (List.range width).map (st + ·)

/-- A lane of the range belongs to an open stream other than `st`. -/
def laneTaken (s : State) (st width : Nat) : Bool :=
  (List.range 32).any (fun k =>
    let c := streamOf s k
    k != st && c.state != .closed && (laneSpan k (streamWidth c)).any (fun l => decide (st ≤ l) && decide (l < st + width)))

/-- Tack lines that elements have noted of a stream belong to its last open period: frame IDs begin again (R28). -/
def forgetTacks (s : State) (st : Nat) : State :=
  { s with fabric := { s.fabric with
      lastTack := s.fabric.lastTack.filter (fun p => decide (p.1.2 ≠ st))
      headTack := s.fabric.headTack.filter (fun p => decide (p.1.2 ≠ st))
      headInfo := s.fabric.headInfo.filter (fun p => decide (p.1.2 ≠ st))
      outTack := s.fabric.outTack.filter (fun p => decide (p.1.2 ≠ st))
      discarding := s.fabric.discarding.filter (fun p => decide (p.1.2 ≠ st))
      openSent := s.fabric.openSent.filter (fun p => decide (p.1.2 ≠ st))
      voidSent := s.fabric.voidSent.filter (fun p => decide (p.1.2 ≠ st)) } }

/-- The context that STREAM_OPEN's parameters give. -/
def openedStream (c : StreamCtx) (p : Packet) : StreamCtx :=
  { lanesLog2 := dbits (pktDw p 2) 9 8
    path := dbits (pktDw p 2) 13 12
    realtime := dbit (pktDw p 2) 14
    lateAction := dbit (pktDw p 2) 15
    width := dbits (pktDw p 3) 15 0 + 1
    height := dbits (pktDw p 3) 31 16 + 1
    planes := dbits (pktDw p 4) 3 0 + 1
    format := dbits (pktDw p 4) 7 4
    interleaved := dbit (pktDw p 4) 8
    recordRows := dbits (pktDw p 4) 31 16 + 1
    inScale := pktDw p 5
    inOffset := pktDw p 6
    budget := (pktDw p 7).toNat
    misses := c.misses
    buffer := c.buffer
    bufWp := c.bufWp
    nextWrite := c.nextWrite
    nextRead := c.nextRead
    dropAt := c.dropAt
    dropN := c.dropN
    desc := c.desc }

/-- STREAM_OPEN (R326). A stream whose last lane would lie past 31, which no part of the family has, is taken as absent, ahead of BAD_PARAM: R7 names
absent lanes alone (DESIGN CHOICE, notes/assumptions/79.md). -/
def streamOpen (s : State) (p : Packet) : Verdict :=
  let st := dbits (pktDw p 2) 4 0
  let log2 := dbits (pktDw p 2) 9 8
  let w := 2 ^ log2
  let infer := dbit (pktDw p 2) 10
  let format := dbits (pktDw p 4) 7 4
  if Config.streams ≤ st ∨ (log2 ≠ 3 ∧ Config.streams < st + w) then refuse s stNotPresent
  else if !pktOnly p [(2, 0xF71F), (3, 0xFFFFFFFF), (4, 0xFFFF01FF), (5, 0xFFFFFFFF), (6, 0xFFFFFFFF), (7, 0xFFFFFFFF)] || log2 == 3
      || st % w != 0 || decide (4 < format) || notFinite32 (pktDw p 5) || notFinite32 (pktDw p 6)
      || (dbits (pktDw p 2) 13 12 == 0 && infer) || (dbit (pktDw p 2) 14 && pktDw p 7 == 0)
      || (infer && !servesStream s st) then refuse s stBadParam
  else if (streamOf s st).state ≠ .closed ∨ laneTaken s st w then refuse s stBusy
  else okAt (moveStream (setStream (forgetTacks s st) st (openedStream (streamOf s st) p)) st (if infer then .infer else .courier))

def execStreamOpen (c : HostCmd) (s : State) : Host.Outcome State Fault Refusal :=
  takeCmd s c 0x20 0 streamOpen

/-! ### STREAM_MODE (R322, R327) -/

def modeState (m : Nat) : StreamState := match m with | 0 => .courier | 1 => .infer | _ => .dip

/-- The change of mode is allowed from the state the stream is in. -/
def modeAllowed (s : State) (st m : Nat) : Bool :=
  match (streamOf s st).state, m with
  | .closed, _ => false
  | .closing, _ => false
  | .courier, 2 => false
  | .dip, 0 => false
  | _, 1 => servesStream s st
  | _, _ => true

/-- A frame that arrived at or after T and has given nothing to the fabric yet, under the new mode. -/
def remodeFrame (c : StreamCtx) (m : Nat) (t : Fc) (f : Frame) : Frame :=
  let fresh := c.reception.any (fun r => r.frame == f.id && r.line == 0 && !r.lineOpen)
  if t ≤ f.arrival ∧ !f.tackSent ∧ !f.aborted then
    if m = 0 then (if fresh then { f with courier := true, dip := false, egressDone := false, hostDone := true } else f)
    else if f.courier then
      (if fresh then { f with courier := false, dip := m == 2, egressDone := c.path % 2 == 0, hostDone := c.path / 2 % 2 == 0 } else f)
    else { f with dip := m == 2 }
  else f

/-- The open tack line of a frame, as the ingress writes it (R172, R315). -/
def openEntry (st : Nat) (f : Frame) : BufEntry := { frame := f.id, line := 0, beat := some (mkTack st f.id 0 0 f.arrival 0), released := true }

/-- The buffer after frames changed between courier and inferred: open tack lines added or taken away. -/
def remodeBuffer (st : Nat) (old new : List Frame) (buf : List BufEntry) : List BufEntry :=
  new.foldl (fun b f =>
    match old.find? (fun g => decide (g.id = f.id)) with
    | some g =>
      if g.courier && !f.courier then b ++ [openEntry st f]
      else if !g.courier && f.courier then b.filter (fun e => decide (e.frame ≠ f.id))
      else b
    | none => b) buf

/-- The mode changes at T: held frames go on when the stream leaves DIP for INFER. -/
def applyMode (s : State) (st m : Nat) (t : Fc) : State :=
  let c := streamOf s st
  if c.state = modeState m then s else
  let freed := if c.state = .dip then c.frames.map (fun f => { f with dip := false }) else c.frames
  let fs := freed.map (remodeFrame c m t)
  syncHolds (moveStream (setStream s st { withoutBuffer s.now c (remodeBuffer st freed fs c.buffer) with frames := fs }) st (modeState m)) st

/-- The pending STREAM_MODE of a stream lands (R327). -/
def modeLand (s : State) (st : Nat) : State :=
  match (streamOf s st).modePending with
  | none => s
  | some (m, t) =>
    let s1 := modStream s st (fun c => { c with modePending := none })
    if modeAllowed s1 st m then finishFirst (applyMode s1 st m t) (fun k => k == .streamMode st) stOK 0 t
    else finishFirst s1 (fun k => k == .streamMode st) stAborted 0 t

def streamMode (s : State) (p : Packet) : Verdict :=
  let st := dbits (pktDw p 2) 4 0
  let m := dbits (pktDw p 2) 9 8
  let c := streamOf s st
  let t := max (pktQ p 3) s.now
  if Config.streams ≤ st then refuse s stNotPresent
  else if !pktOnly p [(2, 0x31F), (3, 0xFFFFFFFF), (4, 0xFFFFFFFF)] || m == 3 || c.state == .closed
      || (m == 1 && !servesStream s st) || (c.state != .closing && !modeAllowed s st m) then refuse s stBadParam
  else if c.state = .closing ∨ c.modePending.isSome then refuse s stBusy
  else if c.state = modeState m then okAt s
  else if t = s.now then okAt (applyMode s st m t)
  else .pend (.streamMode st) (modStream s st (fun x => { x with modePending := some (m, t) }))

def execStreamMode (c : HostCmd) (s : State) : Host.Outcome State Fault Refusal :=
  takeCmd s c 0x22 0 streamMode

def execStreamModeLands (stream : Nat) (s : State) : Host.Outcome State Fault Refusal :=
  match (streamOf s stream).modePending with
  | some (_, t) => done (if landsNext s t 6 then modeLand (advance s t) stream else s)
  | none => done s

/-! ### STREAM_CLOSE (R328, R329) -/

/-- CLOSED: the lanes are released and the host descriptor is IDLE (R251, R329). Tack lines of aborted frames that wait for credit still go. -/
def closeStream (s : State) (st : Nat) : State :=
  let s1 := modStream (descStops s st) st (fun c => { c with
    frames := [], reception := none, egress := none, res := none, headSeen := false, headTaken := 0, modePending := none, closeHow := none,
    proofHold := false, batchCount := 0, lanesLog2 := 0, path := 0 })
  moveStream s1 st .closed

/-- What STREAM_CLOSE does as it is taken: a pending STREAM_MODE ends, and held frames go on. -/
def beginClose (s : State) (st : Nat) : State :=
  let s1 := finishEvery (modStream s st (fun c => { c with modePending := none, frames := c.frames.map (fun f => { f with dip := false }) }))
    (fun k => k == .streamMode st) stAborted 0 s.now
  syncHolds (moveStream s1 st .closing) st

/-- STREAM_CLOSE of a CLOSED stream leaves the stream as it is, and its host descriptor IDLE (R251, R322; DEDUCED, notes/assumptions/75.md). -/
def streamClose (s : State) (p : Packet) : Verdict :=
  let st := dbits (pktDw p 2) 4 0
  let how := dbit (pktDw p 2) 8
  let us := if pktDw p 3 = 0 then 10000 else (pktDw p 3).toNat
  let c := streamOf s st
  if Config.streams ≤ st then refuse s stNotPresent
  else if !pktOnly p [(2, 0x11F), (3, 0xFFFFFFFF)] || decide (1000000 < us) || c.state == .closing then refuse s stBadParam
  else if c.state = .closed then okAt (descStops s st)
  else
    let s1 := beginClose s st
    if how then
      let r := abortFrames s1 st 0x0B30
      okAt (closeStream r.1 st) r.2
    else if allLeft (streamOf s1 st) then okAt (closeStream s1 st)
    else .pend (.streamClose st false) (modStream s1 st (fun x => { x with closeHow := some (false, s.now + us * Config.us) }))

def execStreamClose (c : HostCmd) (s : State) : Host.Outcome State Fault Refusal :=
  takeCmd s c 0x21 0 streamClose

def isStreamClose (st : Nat) (k : PendKind) : Bool := match k with | .streamClose n _ => n == st | _ => false

/-- The last frame in flight has left on every path. -/
def execStreamCloseDrained (stream : Nat) (s : State) : Host.Outcome State Fault Refusal :=
  let c := streamOf s stream
  if c.state = .closing ∧ allLeft c then
    done (finishFirst (closeStream s stream) (isStreamClose stream) stOK 0 s.now)
  else done s

/-- The timeout, which does not advance during a halt: RESUME moves it (R329). -/
def execStreamCloseTimeout (stream : Nat) (s : State) : Host.Outcome State Fault Refusal :=
  let c := streamOf s stream
  match c.closeHow with
  | some (_, limit) =>
    if c.state = .closing ∧ !allLeft c ∧ !haltedNow s ∧ reaches s limit then
      let s1 := advance s limit
      let r := abortFrames s1 stream 0x0B30
      done (finishFirst (closeStream r.1 stream) (isStreamClose stream) stTimeout (dw r.2) s1.now)
    else done s
  | none => done s

/-! ### Deadlines (R324) -/

def deadlineOf (c : StreamCtx) (f : Frame) : Nat := (f.arrival + c.budget) % 2 ^ 64

/-- A deadline is being watched for this frame. -/
def deadlineWatched (s : State) (st : Nat) (f : Frame) : Bool :=
  let c := streamOf s st
  c.realtime && !f.courier && !f.missed && !f.aborted && inFlight f && resultsHere s st

/-- The deadline has passed: the miss is counted and reported, and with late_action 1 the frame is aborted. -/
def deadlineMiss (s : State) (st : Nat) (f : Frame) : State :=
  let c := streamOf s st
  let s1 := modFrame (modStream (rcNote s (rcMisses st) c.misses) st (fun x => { x with misses := sat 0xFFFFFFFF (x.misses + 1) })) st f.id (fun x => { x with missed := true })
  let s2 := countEvent (count s1 (streamCounter st 5) 1) 0x0D (laneSite st) (some st) 0 0 false
  let s3 := postEvent s2 (0x20 + st) 0x0002 (some st) noSite (dw f.id) (deadlineOf c f) 0
  if c.lateAction then ingressAbort s3 st { f with missed := true } 0x0B21 else s3

def execDeadlineExpiry (stream frame : Nat) (s : State) : Host.Outcome State Fault Refusal :=
  match frameOf (streamOf s stream) frame with
  | some f =>
    if deadlineWatched s stream f && !haltedNow s && reaches s (deadlineOf (streamOf s stream) f) then done (deadlineMiss (advance s (deadlineOf (streamOf s stream) f)) stream f)
    else done s
  | none => done s

/-- Deadlines that passed during a halt take effect at RESUME. -/
def deadlinesAtResume (s : State) : State :=
  (List.range Config.streams).foldl (fun x st =>
    (streamOf x st).frames.foldl (fun y f =>
      if deadlineWatched y st f && decide (deadlineOf (streamOf y st) f < y.now) then deadlineMiss y st f else y) x) s

/-! ### DESC_ARM (R250, R251) -/

def descParams (p : Packet) : DescBuf :=
  { addr := pktQ p 3
    slotLog2 := dbits (pktDw p 5) 4 0
    slots := dbits (pktDw p 5) 31 16 + 1
    eventRecord := dbit (pktDw p 2) 12
    eventBuffer := dbit (pktDw p 2) 13 }

def descArm (s : State) (p : Packet) : Verdict :=
  let st := dbits (pktDw p 2) 4 0
  let b := descParams p
  let d := (streamOf s st).desc
  if Config.streams ≤ st then refuse s stNotPresent
  else if !pktOnly p [(2, 0x311F), (3, 0xFFFFFFFF), (4, 0xFFFFFFFF), (5, 0xFFFF001F)] || b.addr % 4096 != 0
      || decide (b.slotLog2 < 7) || decide (24 < b.slotLog2) || decide (2 ^ 32 < b.slots * 2 ^ b.slotLog2) then refuse s stBadParam
  else match d.state with
    | .idle | .exhausted =>
      let n := seqNext d.seq
      okAt (setDesc s st { d with state := .active, buf := some b, heldBuf := none, nextSlot := 0, seq := n }) n
    | .active => .pend (.descArm st) (setDesc s st { d with state := .pending, heldBuf := some b })
    | .pending => refuse s stBusy

def execDescArm (c : HostCmd) (s : State) : Host.Outcome State Fault Refusal :=
  takeCmd s c 0x23 0 descArm

/-- Disarm: dwords 3 to 5 are ignored. -/
def descDisarm (s : State) (p : Packet) : Verdict :=
  let st := dbits (pktDw p 2) 4 0
  let d := (streamOf s st).desc
  if Config.streams ≤ st then refuse s stNotPresent
  else if !pktOnly p [(2, 0x311F), (3, 0xFFFFFFFF), (4, 0xFFFFFFFF), (5, 0xFFFFFFFF)] then refuse s stBadParam
  else match d.state with
    | .idle | .exhausted => okAt (setDesc s st { d with state := .idle, buf := none })
    | .active | .pending =>
      if d.record.isSome then .pend (.descDisarm st) (setDesc s st { d with disarming := true })
      else okAt (descStops s st)

def execDescDisarm (c : HostCmd) (s : State) : Host.Outcome State Fault Refusal :=
  takeCmd s c 0x23 1 descDisarm

end Sys2Proof.Machine
end

