-- ==== Sys2Proof/Machine/Ingress.lean ====
section
/-! DEFINITION. The ingress lanes (spec/11_stream_lanes.md R307 to R317): decoded blocks of a stream, lanes losing and regaining lock, and the beats
that the ingress sends into the fabric. A block is an operand: the receiver's serial work is the outside's. -/

namespace Sys2Proof.Machine

/-! ### Pixels (R311, R315) -/

def pixelBytes (format : Nat) : Nat := if format = 0 then 1 else 2

/-- Bits of a container that the format uses. -/
def pixelMask (format x : Nat) : Nat := match format with | 1 => x % 2 ^ 10 | 2 => x % 2 ^ 12 | _ => x

/-- The BF16 value of a pixel. -/
def pixelValue (c : StreamCtx) (x : Nat) : BitVec 16 :=
  if c.format = 4 then BitVec.ofNat 16 x
  else
    let scaled := rna32 (numMul (numInt (pixelMask c.format x)) (num32 c.inScale))
    rna16 (num32 (rna32 (numAdd (num32 scaled) (num32 c.inOffset))))

/-- Length b of a line in bytes, and lines per frame (R312). -/
def lineLength (c : StreamCtx) : Nat := c.width * pixelBytes c.format * (if c.interleaved then c.planes else 1)
def frameLines (c : StreamCtx) : Nat := c.height * (if c.interleaved then 1 else c.planes)

/-- Bytes of a line that fill one buffer entry: a beat's pixels, or 64 payload bytes of a courier frame. -/
def entryUnit (c : StreamCtx) (courier : Bool) : Nat :=
  if courier then 64 else pixelBytes c.format * (if c.interleaved then c.planes else 32)

/-- Bytes of a line that entries are made of: a courier frame keeps its pad bytes. -/
def entryTotal (c : StreamCtx) (courier : Bool) : Nat := if courier then roundUp (lineLength c) 8 else lineLength c

/-- Entries of a line once `got` of its bytes have arrived. -/
def entriesAt (c : StreamCtx) (courier : Bool) (got : Nat) : Nat :=
  let whole := entryTotal c courier
  let u := entryUnit c courier
  if whole ≤ got then ceilDiv whole u else got / u

/-- The pixels of beat j of a line, as lanes. -/
def beatLanes (c : StreamCtx) (bytes : List Byte) (j : Nat) : List (BitVec 16) :=
  let u := entryUnit c false
  let part := ((bytes.take (lineLength c)).drop (u * j)).take u
  let n := pixelBytes c.format
  (List.range (part.length / n)).map (fun k => pixelValue c (leAt part (n * k) n))

/-- Entry j of line `line` of a frame, from the line's bytes (R315, R316). -/
def lineEntry (c : StreamCtx) (st : Nat) (f : Frame) (line : Nat) (bytes : List Byte) (j : Nat) : BufEntry :=
  if f.courier then
    let part := ((bytes.take (entryTotal c true)).drop (64 * j)).take 64
    { frame := f.id, line := line, beat := none, payload := BitVec.ofNat 512 (leNat part), bytes := part.length }
  else
    { frame := f.id, line := line,
      beat := some (mkBeat tyData line st (j + 1 = entriesAt c false (lineLength c)) false (lanesTo (beatLanes c bytes j))) }

/-! ### Frames (R28, R312 to R317) -/

/-- All lanes of the stream are in: block lock, and no high-BER trip. -/
def lanesIn (s : State) (st : Nat) : Bool :=
  (laneSpan st (streamWidth (streamOf s st))).all (fun l => lget s.lanes.lock l false && !lget s.lanes.hiBer l false)

/-- The stream takes blocks from its lanes. -/
def streamReceives (s : State) (st : Nat) : Bool := decide (st < Config.streams) && (streamOf s st).state != .closed && lanesIn s st

/-- The frame being received. -/
def receiving (s : State) (st : Nat) : Option (Reception × Frame) :=
  let c := streamOf s st
  match c.reception with
  | some r => (frameOf c r.frame).map (fun f => (r, f))
  | none => none

/-- The ingress aborts the frame being received (R317): the rest of its blocks are discarded. -/
def receiveError (s : State) (st code : Nat) : State :=
  match receiving s st with
  | some (_, f) => ingressAbort s st f code
  | none => modStream s st (fun c => { c with reception := none })

/-- The fields of a FRAME_START that must agree with the stream context. -/
def startAgrees (c : StreamCtx) (w : Nat) : Bool :=
  nbits w 23 8 + 1 == c.width && nbits w 39 24 + 1 == c.height && nbits w 43 40 + 1 == c.planes && nbits w 47 44 == c.format

/-- A new frame of an open stream (R314). -/
def newFrame (s : State) (st : Nat) (payload : BitVec 64) : State :=
  let c := streamOf s st
  let courier := c.state == .courier
  let f : Frame := { id := c.nextId, arrival := s.now, courier := courier, dip := c.state == .dip, start := payload,
                     egressDone := !courier && c.path % 2 == 0, hostDone := courier || c.path / 2 % 2 == 0 }
  let s1 := setStream s st { c with nextId := frameSucc c.nextId, frames := c.frames ++ [f], reception := some { frame := f.id } }
  let s2 := count (count s1 (streamCounter st 0) 1) (streamCounter st 3) (b2n courier)
  let s3 := traceNow s2 0x0010 (laneSite st) (some st) (dw f.id) 0 0 0
  if !startAgrees c payload.toNat then receiveError s3 st 0x0B03
  else if courier then s3
  else match writeEntries s.now [openEntry st f] (streamOf s3 st) with
    | some x => syncHolds (setStream s3 st x) st
    | none => receiveError s3 st 0x0B10

/-- The control blocks of R310. -/
def blockTypes : List Nat := [0x1E, 0x78, 0x2D, 0x4B, 0x87]

/-- A control block that is not of its row's type: one of no type of R310 is a framing error inside a frame (R312). -/
def strayBlock (s : State) (st : Nat) (payload : BitVec 64) : State :=
  if streamReceives s st && !blockTypes.contains (payload.toNat % 256) && (receiving s st).isSome then receiveError s st 0x0B02 else s

/-- A FRAME_START stripe. A STREAM_MODE whose T has come lands first: it governs the frame. A closing stream discards the frame. A stripe that breaks
R309 (`whole` is false: its lanes do not all carry the block) is taken from its first copy and aborted at once: DEDUCED (notes/assumptions/74.md). -/
def execFrameStartReceive (stream : Nat) (start : StartStripe) (s : State) : Host.Outcome State Fault Refusal :=
  if !streamReceives s stream || start.payload.toNat % 256 != 0x78 then done (strayBlock s stream start.payload)
  else
    let s1 := match (streamOf s stream).modePending with
      | some (_, t) => if t ≤ s.now then modeLand s stream else s
      | none => s
    let s2 := if (receiving s1 stream).isSome then receiveError s1 stream 0x0B05 else s1
    if (streamOf s2 stream).state = .closing then done (modStream s2 stream (fun c => { c with reception := none }))
    else if start.whole then done (newFrame s2 stream start.payload)
    else done (receiveError (newFrame s2 stream start.payload) stream 0x0B02)

def setReception (s : State) (st : Nat) (r : Reception) : State := modStream s st (fun c => { c with reception := some r })

/-- A LINE_START: the next line of the frame, outside a line (R312). -/
def execLineStartReceive (stream : Nat) (payload : BitVec 64) (s : State) : Host.Outcome State Fault Refusal :=
  if !streamReceives s stream || payload.toNat % 256 != 0x2D then done (strayBlock s stream payload)
  else match receiving s stream with
  | none => done s
  | some (r, _) =>
    if r.lineOpen || nbits payload.toNat 31 8 != r.line || decide (frameLines (streamOf s stream) ≤ r.line) then done (receiveError s stream 0x0B02)
    else done (setReception s stream { r with lineOpen := true, lineBytes := [], lineEntries := 0, lineCrc := 0xFFFFFFFF })

/-- A data block of the open line: its bytes, and the entries they fill. -/
def lineData (s : State) (st : Nat) (r : Reception) (f : Frame) (payload : BitVec 64) : State :=
  let c := streamOf s st
  let got := leBytes 8 payload.toNat
  let bytes := r.lineBytes ++ got
  if !r.lineOpen || decide (roundUp (lineLength c) 8 < bytes.length) then receiveError s st 0x0B02
  else
    let n := entriesAt c f.courier bytes.length
    let new := (List.range' r.lineEntries (n - r.lineEntries)).map (lineEntry c st f r.line bytes)
    match writeEntries s.now new c with
    | none => receiveError s st 0x0B10
    | some x =>
      setReception (setStream s st x) st
        { r with lineBytes := bytes, lineEntries := n, lineCrc := crc32Bytes r.lineCrc got, frameCrc := crc32Bytes r.frameCrc got }

def execDataBlockReceive (stream : Nat) (payload : BitVec 64) (s : State) : Host.Outcome State Fault Refusal :=
  if !streamReceives s stream then done s
  else match receiving s stream with
  | none => done s
  | some (r, f) => done (lineData s stream r f payload)

/-- A LINE_END: length and index, then the CRC; the line's entries may leave the buffer. -/
def lineEnd (s : State) (st : Nat) (r : Reception) (w : Nat) : State :=
  let c := streamOf s st
  if !r.lineOpen || r.lineBytes.length != roundUp (lineLength c) 8 || nbits w 55 40 != r.line % 2 ^ 16 then receiveError s st 0x0B02
  else if nbits w 39 8 ≠ crcField r.lineCrc then receiveError s st 0x0B01
  else
    let freed := c.buffer.map (fun e => if e.frame = r.frame ∧ e.line = r.line then { e with released := true } else e)
    setReception (setStream s st { c with buffer := freed }) st { r with lineOpen := false, line := r.line + 1, lineBytes := [], lineEntries := 0 }

def execLineEndReceive (stream : Nat) (payload : BitVec 64) (s : State) : Host.Outcome State Fault Refusal :=
  if !streamReceives s stream || payload.toNat % 256 != 0x4B then done (strayBlock s stream payload)
  else match receiving s stream with
  | none => done s
  | some (r, _) => done (lineEnd s stream r payload.toNat)

/-- The last entry of a frame has gone into the fabric: one that is over goes, and so does one whose results do not leave from this part. -/
def frameGone (s : State) (st frame : Nat) : State :=
  let c := streamOf s st
  match frameOf c frame with
  | some f =>
    if f.courier || frameEntering c frame then s
    else if !inFlight f then settleFrame s st frame
    else if f.tackSent && !resultsHere s st then removeFrame s st frame
    else s
  | none => s

/-- A FRAME_END: the source's abort, the framing, then CRC and line count. -/
def frameEnd (s : State) (st : Nat) (r : Reception) (w : Nat) : State :=
  let c := streamOf s st
  if w.testBit 60 then receiveError s st 0x0B07
  else if r.lineOpen || r.line != frameLines c then receiveError s st 0x0B02
  else if nbits w 39 8 ≠ crcField r.frameCrc ∨ nbits w 59 40 + 1 ≠ r.line then receiveError s st 0x0B04
  else
    let s1 := modFrame (modStream s st (fun x => { x with reception := none })) st r.frame (fun f => { f with receiving := false })
    frameGone (traceNow s1 0x0011 (laneSite st) (some st) (dw r.frame) 0 0 0) st r.frame

def execFrameEndReceive (stream : Nat) (payload : BitVec 64) (s : State) : Host.Outcome State Fault Refusal :=
  if !streamReceives s stream || payload.toNat % 256 != 0x87 then done (strayBlock s stream payload)
  else match receiving s stream with
  | none => done s
  | some (r, _) => done (frameEnd s stream r payload.toNat)

/-- An IDLE stripe is dropped wherever it appears; IDLE blocks that do not make a whole stripe break R309, an error inside a frame (R317). -/
def execIdleStripeReceive (stripe : IdleStripe) (s : State) : Host.Outcome State Fault Refusal :=
  if !stripe.whole && streamReceives s stripe.stream && (receiving s stripe.stream).isSome then done (receiveError s stripe.stream 0x0B02) else done s

/-! ### Lanes (R309, R317) -/

/-- The open stream that a lane belongs to. -/
def laneStream (s : State) (lane : Nat) : Option Nat :=
  (List.range Config.streams).find? (fun st =>
    let c := streamOf s st
    c.state != .closed && (laneSpan st (streamWidth c)).contains lane)

def execLaneLockLoss (lane : Nat) (cause : LaneLoss) (s : State) : Host.Outcome State Fault Refusal :=
  if Config.streams ≤ lane then done s
  else
    let s1 := match cause with
      | .blockLock => { s with lanes := { s.lanes with lock := s.lanes.lock.set lane false } }
      | .highBer => { s with lanes := { s.lanes with hiBer := s.lanes.hiBer.set lane true } }
      | .skew => s
    match laneStream s1 lane with
    | some st => done (if (receiving s1 st).isSome then receiveError s1 st 0x0B06 else s1)
    | none => done s1

def execLaneLockRegain (lane : Nat) (s : State) : Host.Outcome State Fault Refusal :=
  if Config.streams ≤ lane then done s
  else done { s with lanes := { lock := s.lanes.lock.set lane true, hiBer := s.lanes.hiBer.set lane false } }

/-! ### Into the fabric (R61, R315, R316) -/

/-- The head of the buffer may go: released, of an inferred frame that is not held at the dip. -/
def ingressReady (s : State) (st : Nat) : Option (BufEntry × Beat) :=
  let c := streamOf s st
  match c.buffer with
  | e :: _ =>
    let free := match frameOf c e.frame with
      | some f => !f.courier && !frameHeld s c f
      | none => true
    match e.beat with
    | some b => if e.released && free && !c.proofHold then some (e, b) else none
    | none => none
  | [] => none

/-- The head of the buffer enters the link that leaves the ingress, when the link has credit; an ingress that finds none behind a unit in proof is held. -/
def execIngressBeatSend (stream : Nat) (s0 : State) : Host.Outcome State Fault Refusal :=
  if Config.streams ≤ stream then done s0
  else
    let s1 := liftHold s0 stream
    let s := if (ingressReady s1 stream).isSome && reaches s1 (readFrom (streamOf s1 stream)) then advance s1 (readFrom (streamOf s1 stream)) else s1
    let e := ingressEnd stream
    if s.now < readFrom (streamOf s stream) then done s
    else if (outQ s e).isEmpty && maySend s e then
      match ingressReady s stream with
      | some (x, b) =>
        let s1 := modStream s stream (fun c => if x.owed then withBuffer c (c.buffer.drop 1) else readEntries s.now c 1 (c.buffer.drop 1))
        let s2 := if isTack b then modFrame s1 stream x.frame (fun f => { f with tackSent := true, held := false }) else s1
        done (frameGone (pushOut s2 e { beat := b }) stream x.frame)
      | none => done s
    else if fabricRuns s && (ingressReady s stream).isSome then done (proofHolds s stream)
    else done s

end Sys2Proof.Machine
end

