-- ==== Sys2Proof/Machine/Egress.lean ====
section
/-! DEFINITION. Results and courier frames leaving the part: the egress lanes and the host descriptor's writes (spec/11_stream_lanes.md R318 to R321,
spec/08_descriptors.md R247 to R249). -/

namespace Sys2Proof.Machine

/-! ### The results' fabric attachment (R320) -/

/-- The head of the results' input goes, with its credit. -/
def resultPop (s : State) (st : Nat) : State :=
  let s1 := modStream s st (fun c => { c with headSeen := false, headTaken := 0 })
  match takeBeat s1 (egressEnd st) (fun _ => true) with
  | some (_, s2) => s2
  | none => s1

/-- A record that breaks its row count (R320): both records, and the frame's records end as aborted. -/
def recordBreak (s : State) (st frame : Nat) : State :=
  let s1 := faultFrame s 0x0B40 4 (egressSite st) st frame 0 0
  let s2 := endResults (abortRecord s1 0x0B41 (egressSite st) st frame 0 0) st frame 0x0B41
  removeFrame s2 st frame

def setRes (s : State) (st : Nat) (r : Option ResRec) : State := modStream s st (fun c => { c with res := r })

/-- An open tack line at the attachment: it begins a record, and a record still open breaks its count. A frame that has been given up here, or
that belongs to an earlier open period, is discarded; one that comes over the span is new to this part. -/
def resultTack (s : State) (st : Nat) (b : Beat) : State :=
  let g := tackFrame b
  let s1 := match (streamOf s st).res with
    | some r => if !r.ended && !r.dead && r.frame != g then recordBreak s st r.frame else s
    | none => s
  let c := streamOf s1 st
  let r : ResRec := { frame := g, arrival := tackArrival b }
  match c.frames.find? (fun f => f.id == g && f.arrival % 2 ^ 64 == tackArrival b) with
  | some f => setRes s1 st (some { r with dead := f.ended })
  | none =>
    if framesLocal s1 st then setRes s1 st (some { r with dead := true })
    else
      let f : Frame := { id := g, arrival := tackArrival b, courier := false, admitted := true, receiving := false, tackSent := true,
                         egressDone := c.path % 2 == 0, hostDone := c.path / 2 % 2 == 0 }
      setRes (modStream s1 st (fun x => { x with frames := x.frames ++ [f] })) st (some r)

/-- The head beat counted once, before any path takes it: whether it stays for the paths. -/
def resultCount (s : State) (st : Nat) (b : Beat) : State × Bool :=
  let c := streamOf s st
  if bStream b ≠ st ∨ c.state = .closed then (resultPop s st, false)
  else if isOpenTack b then (resultPop (resultTack s st b) st, false)
  else if bType b ≠ tyData then (resultPop s st, false)
  else match c.res with
    | none => (resultPop s st, false)
    | some r =>
      if r.dead then (resultPop s st, false)
      else if r.ended then (resultPop (setRes (recordBreak s st r.frame) st (some { r with dead := true })) st, false)
      else
        let rows := r.rows + b2n (bLast b)
        let fin := bLast b && rows == c.recordRows
        let s1 := modStream (setRes s st (some { r with rows := rows, ended := fin })) st (fun x => { x with headSeen := true })
        let s2 := if fin then modFrame s1 st r.frame (fun f => { f with ended := true }) else s1
        if c.path % 4 = 0 then (settleFrame (resultPop s2 st) st r.frame, false) else (s2, true)

/-- The beat that a path may take now: the counted head of the results' input, not yet taken by the path. A void tack line waits for its own row. -/
def resultHead (s : State) (st bit : Nat) : State × Option (Beat × ResRec) :=
  let pick (x : State) (b : Beat) : Option (Beat × ResRec) :=
    let c := streamOf x st
    if c.path.testBit bit && !c.headTaken.testBit bit then c.res.map (fun r => (b, r)) else none
  match inBuf s (egressEnd st) with
  | [] => (s, none)
  | b :: _ =>
    if isVoidTack b && bStream b == st && (streamOf s st).state != .closed then (s, none)
    else if (streamOf s st).headSeen then (s, pick s b)
    else
      let r := resultCount s st b
      if r.2 then (r.1, pick r.1 b) else (r.1, none)

/-- A path has taken the head; when every path of the stream has, it goes. -/
def resultTaken (s : State) (st bit : Nat) : State :=
  let s1 := modStream s st (fun c => { c with headTaken := c.headTaken + 2 ^ bit })
  let c := streamOf s1 st
  if c.headTaken = c.path % 4 then resultPop s1 st else s1

/-- Beats move, and the stream exists. -/
def resultsMove (s : State) (st : Nat) : Bool := decide (st < Config.streams) && fabricRuns s

/-! ### The egress lanes (R318 to R321) -/

/-- The oldest frame that has not left by the egress. -/
def egressNext (s : State) (st : Nat) : Option Frame := (streamOf s st).frames.find? (fun f => !f.egressDone)

/-- Whether the egress may begin a frame: a courier frame once a line of it stands in the buffer and the results of
earlier frames have left by every path (R321), a result once its first beat waits. -/
def egressMayBegin (s : State) (st : Nat) (f : Frame) : Bool :=
  let c := streamOf s st
  if f.courier then c.buffer.any (fun e => e.frame == f.id && e.released) && (c.frames.takeWhile (fun g => decide (g.id ≠ f.id))).all (fun g => !inFlight g)
  else fabricRuns s && c.headSeen && c.path.testBit 0 && !c.headTaken.testBit 0 && c.res.any (fun r => r.frame == f.id && !r.dead)

/-- FRAME_START and header of the frame next in frame-ID order, when none is being sent. -/
def egressStart (s : State) (st : Nat) : State :=
  if s.hal.stopped || (streamOf s st).egress.isSome then s
  else match egressNext s st with
    | some f =>
      if egressMayBegin s st f then
        let s1 := egressBegin s st f
        if f.courier then s1 else traceNow s1 0x001B (egressSite st) (some st) (dw f.id) 0 0 0
      else s
    | none => s

def execEgressFrameStart (stream : Nat) (s : State) : Host.Outcome State Fault Refusal :=
  if Config.streams ≤ stream then done s
  else
    -- the head of the results' input is looked at first: its tack line tells the frame
    let s1 := if fabricRuns s && !(streamOf s stream).headSeen then (resultHead s stream 0).1 else s
    done (egressStart s1 stream)

/-- The egress has sent a record whole. -/
def egressEnds (s : State) (st frame : Nat) : State :=
  match (streamOf s st).egress with
  | some r =>
    let s1 := traceNow (egressFinish s st r false) 0x001C (egressSite st) (some st) (dw frame) 0 0 0
    settleFrame (modFrame s1 st frame (fun f => { f with egressDone := true })) st frame
  | none => s

/-- A beat of the record goes out as part of a line, once the record's FRAME_START has left. -/
def execEgressResultBeat (stream : Nat) (s : State) : Host.Outcome State Fault Refusal :=
  if !resultsMove s stream then done s
  else
    let h := resultHead s stream 0
    match h.2, (streamOf h.1 stream).egress with
    | some (b, r), some e =>
      if e.frame = r.frame then
        let s1 := egressSend h.1 stream e (leBytes 64 b.data.toNat) (bLast b)
        let s2 := if r.ended then egressEnds s1 stream r.frame else s1
        done (resultTaken s2 stream 0)
      else done h.1
    | _, _ => done h.1

/-! ### Courier frames (R316, R319, R321) -/

/-- The entries of one line at the head of the buffer, with the line's bytes. -/
def courierLine (buf : List BufEntry) (frame : Nat) : Option (Nat × List Byte × List BufEntry) :=
  match buf with
  | e :: _ =>
    if e.frame = frame ∧ e.released then
      let mine := buf.takeWhile (fun x => x.frame == frame && x.line == e.line)
      some (e.line, mine.flatMap (fun x => leBytes x.bytes x.payload.toNat), buf.drop mine.length)
    else none
  | [] => none

/-- Lines of the frame being sent, as long as they are there: fuel entries. -/
def courierLines : Nat → State → Nat → Nat → State
  | 0, s, _, _ => s
  | n + 1, s, st, frame =>
    match courierLine (streamOf s st).buffer frame, (streamOf s st).egress with
    | some (_, bytes, rest), some e => courierLines n (egressSend (modStream s st (fun c => readEntries s.now c (c.buffer.length - rest.length) rest)) st e bytes true) st frame
    | _, _ => s

/-- A courier frame goes out: what has arrived of it in whole lines, and its end once it has been received and sent. -/
def execCourierFrameForward (stream : Nat) (s : State) : Host.Outcome State Fault Refusal :=
  if Config.streams ≤ stream ∨ s.hal.stopped then done s
  else match egressNext s stream with
    | some f =>
      if f.courier then
        let s1 := egressStart s stream
        let s2 := courierLines (streamOf s1 stream).buffer.length s1 stream f.id
        match (streamOf s2 stream).egress with
        | some e =>
          if e.frame = f.id ∧ !f.receiving ∧ !((streamOf s2 stream).buffer.any (fun x => x.frame == f.id)) then
            let s3 := egressFinish s2 stream e false
            done (settleFrame (modFrame s3 stream f.id (fun x => { x with ended := true, egressDone := true })) stream f.id)
          else done s2
        | none => done s2
      else done s
    | none => done s

/-! ### The host descriptor (R248, R249) -/

/-- A slot for a new record. -/
def slotFree (d : HostDesc) : Option DescBuf :=
  match d.state, d.buf with
  | .active, some b => if d.nextSlot < b.slots && !d.disarming then some b else none
  | .pending, some b => if d.nextSlot < b.slots && !d.disarming then some b else none
  | _, _ => none

/-- The first beat of a record takes the next slot, or finds none. -/
def hostBegin (s : State) (st : Nat) (r : ResRec) : State :=
  let d := (streamOf s st).desc
  match slotFree d with
  | some _ =>
    let rec1 : HostRec := { frame := r.frame, arrival := r.arrival, slot := d.nextSlot }
    traceNow (setDesc s st { d with nextSlot := d.nextSlot + 1, record := some rec1 })
      0x001B noSite (some st) (dw r.frame) (1 + d.nextSlot * 2 ^ 16) 0 0
  | none => modFrame (abortRecord s 0x0811 noSite st r.frame 0 0) st r.frame (fun f => { f with hostDone := true })

/-- One beat of the record in progress at its place in the slot. -/
def hostBeat (s : State) (st : Nat) (x : HostRec) (b : Beat) : State :=
  let d := (streamOf s st).desc
  match d.buf with
  | none => s
  | some buf =>
    if x.failed then s
    else if 2 ^ buf.slotLog2 < 64 + x.written + 64 then
      if x.truncated then s
      else setDesc (abortRecord s 0x0810 noSite st x.frame 0 0) st { d with record := some { x with truncated := true } }
    else if !hostUp s then hostRecordFails s st
    else setDesc (emitWrites s [(slotAddr buf x.slot + 64 + x.written, leBytes 64 b.data.toNat)]) st
      { d with record := some { x with written := x.written + 64, lastWrite := s.now } }

/-- The record's last beat has come: it waits for its seal, or is over at once when it could not be written. -/
def hostEnds (s : State) (st frame : Nat) : State :=
  match (streamOf s st).desc.record with
  | some x =>
    if x.failed then hostOver s st frame
    else setDesc s st { (streamOf s st).desc with record := some { x with ended := true } }
  | none => settleFrame s st frame

def execHostRecordWrite (stream : Nat) (s : State) : Host.Outcome State Fault Refusal :=
  if !resultsMove s stream then done s
  else
    let h := resultHead s stream 1
    match h.2 with
    | none => done h.1
    | some (b, r) =>
      let waits := (streamOf h.1 stream).desc.record.any (fun x => x.ended)
      if waits then done h.1
      else
        let gone := (frameOf (streamOf h.1 stream) r.frame).any (fun f => f.hostDone)
        let s1 := if gone || (streamOf h.1 stream).desc.record.isSome then h.1 else hostBegin h.1 stream r
        let s2 := match (streamOf s1 stream).desc.record with
          | some x => hostBeat s1 stream x b
          | none => s1
        let s3 := if r.ended then hostEnds s2 stream r.frame else s2
        done (resultTaken s3 stream 1)

def execHostSlotSeal (stream : Nat) (s : State) : Host.Outcome State Fault Refusal :=
  if Config.streams ≤ stream then done s
  else match (streamOf s stream).desc.record with
    | some x => if x.ended then done (sealSlot s stream x (if x.truncated then 2 else 0) 0) else done s
    | none => done s

/-- A void tack line at the results' input (R174, R320): the frame's records end as aborted. -/
def resultVoid (s : State) (st : Nat) (b : Beat) : State :=
  let g := tackFrame b
  let s1 := endResults s st g (tackCode b)
  let s2 := removeFrame s1 st g
  let s3 := match (streamOf s2 st).res with
    | some r => if r.frame = g then setRes s2 st (some { r with dead := true }) else s2
    | none => s2
  resultPop s3 st

end Sys2Proof.Machine
end

