-- ==== Sys2Proof/Machine/Nest.lean ====
section
/-! DEFINITION. The sequencer that matrix and vector tiles share: the nest of four counters, generators, and the scoreboard's classes
(spec/03_matrix_tile.md R99 to R101, R106, R107, R109, spec/05_vector_window_glue.md R142, R145, R146). -/

namespace Sys2Proof.Machine

def opCode (w : Dword) : Nat := dbits w 3 0
def opLevel (w : Dword) : Nat := dbits w 5 4
def opLast (w : Dword) : Bool := dbit w 6

/-- The operations ahead of END. -/
def opsBeforeEnd (l : List Dword) : List Dword := l.takeWhile (fun w => opCode w != 0)

/-- The limits of C0 to C3 from two dwords. -/
def limitsOf (d5 d6 : Dword) : List Nat := [dbits d5 15 0 + 1, dbits d5 31 16 + 1, dbits d6 15 0 + 1, dbits d6 31 16 + 1]

def countersOf (sl : Slot) : List Nat := [sl.c0, sl.c1, sl.c2, sl.c3]

/-- An operation is due in an iteration (R100). -/
def dueIn (lims cs : List Nat) (op : Dword) : Bool :=
  (List.range 4).all fun k =>
    decide (k ≤ opLevel op) || (if opLast op then cs.getD k 0 + 1 == lims.getD k 1 else cs.getD k 0 == 0)

/-- The next due operation of the iteration from the slot's place on. -/
def nextDue (ops : List Dword) (lims : List Nat) (sl : Slot) : Option Nat :=
  (List.range' sl.opIdx (ops.length - sl.opIdx)).find? (fun i => dueIn lims (countersOf sl) (ops.getD i 0))

/-- The next iteration; the nest is complete when C0 passes its last value (R99). -/
def advanceNest (lims : List Nat) (sl : Slot) : Slot :=
  let l (k : Nat) : Nat := lims.getD k 1
  let s0 := { sl with opIdx := 0 }
  if sl.c3 + 1 < l 3 then { s0 with c3 := sl.c3 + 1 }
  else if sl.c2 + 1 < l 2 then { s0 with c3 := 0, c2 := sl.c2 + 1 }
  else if sl.c1 + 1 < l 1 then { s0 with c3 := 0, c2 := 0, c1 := sl.c1 + 1 }
  else if sl.c0 + 1 < l 0 then { s0 with c3 := 0, c2 := 0, c1 := 0, c0 := sl.c0 + 1 }
  else { s0 with c3 := 0, c2 := 0, c1 := 0, c0 := 0, nestDone := true }

/-- A slot that has issued all that is due in its iteration goes to the next. -/
def settleNest (ops : List Dword) (lims : List Nat) (sl : Slot) : Slot :=
  if sl.nestDone then sl else match nextDue ops lims sl with
    | some _ => sl
    | none => advanceNest lims sl

/-- The address that a generator of three dwords yields (R101). -/
def genAddress (cfg : Nat → Dword) (g wrapLog store slot level : Nat) (cs : List Nat) : Nat :=
  let half (w : Dword) (hi : Bool) : Int := if hi then (BitVec.ofNat 16 (w.toNat / 2 ^ 16)).toInt else (BitVec.ofNat 16 w.toNat).toInt
  let stride (k : Nat) : Int := half (cfg (g + 1 + k / 2)) (k % 2 == 1)
  let m : Nat := if wrapLog = 0 then store else 2 ^ wrapLog
  let off : Int := (List.range (level + 1)).foldl (fun n k => n + (cs.getD k 0 : Int) * stride k) (dbits (cfg g) 15 0)
  (slot * dbits (cfg g) 31 16 + (off % (m : Int)).toNat) % store

/-! ### Scoreboard classes -/

/-- Entries of a class of a slot in issue order; a key names slot, class and, for loads, port. -/
abbrev ClassKey := Nat × Nat × Nat

/-- The entry is at the head of its class. -/
def isHead (key : Issued → ClassKey) (board : List Issued) (e : Issued) : Bool :=
  match board.find? (fun x => key x == key e) with
  | some x => x.id == e.id
  | none => false

/-- The head entry of a class. -/
def headOf (key : Issued → ClassKey) (board : List Issued) (k : ClassKey) : Option Issued := board.find? (fun x => key x == k)

/-- The watchdog interval of an entry starts when it reaches the head of its class. -/
def markHeads (key : Issued → ClassKey) (old new : List Issued) (now : Fc) : List Issued :=
  new.map (fun e => if isHead key new e && !(old.any (fun x => x.id == e.id && isHead key old x)) then { e with headSince := now } else e)

def dropEntry (board : List Issued) (id : Nat) : List Issued := board.filter (fun e => decide (e.id ≠ id))

def modEntry (board : List Issued) (id : Nat) (f : Issued → Issued) : List Issued := board.map (fun e => if e.id = id then f e else e)

/-- Some entry issued earlier than e has p. -/
def earlier (board : List Issued) (e : Issued) (p : Issued → Bool) : Bool := board.any (fun x => decide (x.id < e.id) && p x)

def slotAt (l : List (Option Slot)) (k : Nat) : Option Slot := l.getD k none

/-- The next slot in round robin, after the last that issued, that has an operation due. -/
def nextIssuer (ops : List Dword) (lims : List Nat) (slots : List (Option Slot)) (last : Nat) : Option (Nat × Nat) :=
  match nextRound last 4 (fun k => match slotAt slots k with
      | some sl => !sl.nestDone && (nextDue ops lims sl).isSome
      | none => false) with
  | some k => (slotAt slots k).bind (fun sl => (nextDue ops lims sl).map (fun i => (k, i)))
  | none => none

end Sys2Proof.Machine
end

