-- ==== Sys2Proof/Machine/Quant.lean ====
section
/-! DEFINITION. The arithmetic of quantization (spec/04_quantization.md R115 to R132) and of the matrix array (spec/03_matrix_tile.md R87 to R93), as
functions of lines, weights and scale entries. -/

namespace Sys2Proof.Machine

def lanesOf (d : BitVec 512) : List (BitVec 16) := (List.range 32).map (lane16 d)

/-! ### Scale entries (R115, R116) -/

def scaleNumOf (e : Dword) : Num := num32 (e &&& 0xFFFFFF00)
def zeroOf (e : Dword) : Int := (BitVec.ofNat 8 e.toNat).toInt

/-- Channels that the valid outlier entries of a bank name. -/
def outlierChannels (entries : AMap Nat Dword) : List Nat :=
  (List.range 8).filterMap fun k =>
    let e := amGetD entries (1024 + k) 0
    if dbit e 31 then some (dbits e 11 0) else none

/-! ### Row statistics (R121) -/

/-- A lane as statistics see it: zeros as +0, NaN and infinities left out. -/
def statLane (v : BitVec 16) : Option (BitVec 16) :=
  match num16 v with
  | .fin _ m _ => some (if m = 0 then 0 else v)
  | _ => none

def minPat (a b : BitVec 16) : BitVec 16 := if numLt (num16 b) (num16 a) then b else a
def maxPat (a b : BitVec 16) : BitVec 16 := if numLt (num16 a) (num16 b) then b else a

def foldStat (f : BitVec 16 → BitVec 16 → BitVec 16) (acc : Option (BitVec 16)) (l : List (BitVec 16)) : Option (BitVec 16) :=
  (l.filterMap statLane).foldl (fun a v => some (match a with | some x => f x v | none => v)) acc

/-! ### The predictor (R122) -/

/-- min(lo, 0) and max(hi, 0). -/
def lowOf (v : BitVec 16) : Num := if numLt (num16 v) (zeroNum false) then num16 v else zeroNum false
def highOf (v : BitVec 16) : Num := if numLt (zeroNum false) (num16 v) then num16 v else zeroNum false

def maxNum (a b : Num) : Num := if numLt a b then b else a

/-- e from the greatest span. -/
def rowExponent (dg : Num) : Int :=
  match dg with
  | .fin _ m x =>
    if m = 0 then -133
    else if numLt dg (.fin false 1 (-126)) then -133
    else
      let big : Int := x + (Nat.log2 m : Nat)
      if numLt (.fin false 254 (big - 7)) dg then big - 6 else big - 7
  | _ => -133

/-- z[c] = −128 − rna(lo × 2^−e). -/
def zeroPoint (e : Int) (lo : Num) : Int :=
  match lo with
  | .fin n m x => -128 - rnaInt n m (x - e)
  | _ => -128

/-! ### The quantizer (R125) -/

/-- The code of a lane, and whether it is clipped. -/
def quantLane (e z : Int) (v : BitVec 16) : Int × Bool :=
  match num16 v with
  | .nan => (z, true)
  | .inf n => (if n then -128 else 127, true)
  | .fin n m x =>
    let u := rnaInt n m (x - e) + z
    (clampInt (-128) 127 u, decide (u < -128) || decide (127 < u))

def codesOf (e z : Int) (d : BitVec 512) : List Int := (lanesOf d).map (fun v => (quantLane e z v).1)
def clippedIn (e z : Int) (d : BitVec 512) : Nat := ((lanesOf d).filter (fun v => (quantLane e z v).2)).length

/-! ### Weight units (R88) -/

def weightByte (w : BitVec 256) (j : Nat) : BitVec 8 := BitVec.ofNat 8 (w.toNat >>> (8 * j))
def weightNibble (w : BitVec 256) (n : Nat) : BitVec 4 := BitVec.ofNat 4 (w.toNat >>> (4 * n))
def weightHalf (w : BitVec 256) (j : Nat) : BitVec 16 := BitVec.ofNat 16 (w.toNat >>> (16 * j))

/-- The weight codes of channel k (0, or 1 in INT4 mode) for the 32 output columns. -/
def weightCodes (int4 : Bool) (w : BitVec 256) (k : Nat) : List Int :=
  (List.range 32).map (fun o => if int4 then (weightNibble w (32 * k + o)).toInt else (weightByte w o).toInt)

/-! ### Integer accumulation (R89, R90): cell x, o at 32x + o -/

/-- One channel of a MAC: activation codes, activation zero point, weight codes. -/
structure MacChannel where
  codes : List Int
  zp : Int
  weights : List Int

def sumOver {α : Type} (l : List α) (f : α → Int) : Int := l.foldl (fun n a => n + f a) 0

def satTo (n : Int) : Int := (satInt32 n).1

def macInt (set : AccSet) (chs : List MacChannel) (clear : Bool) : AccSet :=
  let cell (i : Nat) : Int × Bool :=
    let p := sumOver chs (fun c => c.codes.getD (i / 32) 0 * c.weights.getD (i % 32) 0)
    if clear then (p, false)
    else
      let r := satInt32 ((lget set.acc i 0).toInt + p)
      (r.1, lget set.sat i false || r.2)
  let cells := (List.range 1024).map cell
  let add (old new : Int) : Int := if clear then new else satTo (old + new)
  { set with
    acc := cells.map (fun c => BitVec.ofInt 32 c.1)
    sat := cells.map (·.2)
    pos := (List.range 32).map (fun x => add (set.pos.getD x 0) (sumOver chs (fun c => c.codes.getD x 0)))
    col := (List.range 32).map (fun o => add (set.col.getD o 0) (sumOver chs (fun c => c.weights.getD o 0 * c.zp)))
    zp := add set.zp (sumOver chs (·.zp)) }

/-! ### Float accumulation (R91): cell x, o at cols × x + o -/

/-- One cell: a clearing update starts without an accumulator; a NaN accumulator stays. The value and whether it saturated. -/
def fmaCell (clear : Bool) (acc : Dword) (a w : Num) : Dword × Bool :=
  if !clear && isNan32 acc then (nan32, false)
  else match a, w with
    | .fin _ _ _, .fin _ _ _ => enc32 (if clear then numMul a w else numAdd (num32 acc) (numMul a w))
    | _, _ => (nan32, false)

/-- A rank-1 update of 32 positions × cols columns: the cells, and how many roundings saturated. -/
def rankOne (clear : Bool) (cols : Nat) (acc : List Dword) (a w : List Num) : List Dword × Nat :=
  let cells := (List.range (32 * cols)).map (fun i => fmaCell clear (lget acc i 0) (a.getD (i / cols) .nan) (w.getD (i % cols) .nan))
  (cells.map (·.1), (cells.filter (·.2)).length)

/-- The activations of a float MAC: BF16, or FP16 after the conversion of the staging read. -/
def floatActs (fp16 : Bool) (d : BitVec 512) : List Num := (lanesOf d).map (fun v => if fp16 then toHalf v else num16 v)

/-- The 16 weights of a float unit. -/
def floatWeights (fp16 : Bool) (w : BitVec 256) : List Num :=
  (List.range 16).map (fun j => if fp16 then numHalf (weightHalf w j) else num16 (weightHalf w j))

/-- The weights of a wide MAC for channel k: weight code − weight zero point. -/
def wideWeights (int4 : Bool) (w : BitVec 256) (k : Nat) (zeros : List Int) : List Num :=
  (weightCodes int4 w k).zipIdx.map (fun p => numInt (p.1 - zeros.getD p.2 0))

/-- One wide MAC: each channel's update rounded in turn (R131). -/
def wideMac (int4 : Bool) (zeros : List Int) (acc : List Dword × Nat) (m : WideMac) : List Dword × Nat :=
  m.lines.zipIdx.foldl (fun a p =>
    let r := rankOne false 32 a.1 ((lanesOf p.1).map num16) (wideWeights int4 m.weights p.2 zeros)
    (r.1, a.2 + r.2)) acc

/-- The FP32 cells of a set computed in the wide path, cleared to +0 first (R131), and the roundings that saturated. -/
def wideCells (int4 : Bool) (zeros : List Int) (ms : List WideMac) : List Dword × Nat :=
  ms.foldl (wideMac int4 zeros) (List.replicate 1024 0, 0)

/-! ### De-quantization (R126, R127, R132) -/

/-- The combined scale k (step 2): exact except at the range limits. -/
def combinedScale (entry : Dword) (e : Int) : Dword := rna32 (scaleNum (scaleNumOf entry) e)

/-- The combined scale of column o saturates: one rounding for the column, where some lane of it is not decided by its sticky flag (R89). -/
def scaleSaturates (set : AccSet) (o : Nat) (entry : Dword) : Nat :=
  if (List.range 32).all (fun x => lget set.sat (32 * x + o) false) then 0 else b2n (enc32 (scaleNum (scaleNumOf entry) set.exp)).2

/-- T of R126. -/
def sumT (set : AccSet) (x o : Nat) (entry : Dword) : Int :=
  let z := zeroOf entry
  (lget set.acc (32 * x + o) 0).toInt - z * set.pos.getD x 0 - set.col.getD o 0 + z * set.zp

/-- A result lane, what counts as a saturation when the DRAIN forms it, and whether the BF16 result saturates, which counts as it is sent (R89). -/
structure Lane where
  value : BitVec 16
  formed : Nat := 0
  sent : Bool := false
  deriving DecidableEq, Repr

/-- Steps 4 and 5: the side set added, and BF16. -/
def finishLane (y : Dword × Bool) (side : Option Dword) : Lane :=
  let y2 := match side with
    | some v => add32 y.1 v
    | none => (y.1, false)
  let r := enc16 (num32 y2.1)
  ⟨r.1, b2n y.2 + b2n y2.2, r.2⟩

/-- Result lane x of column o in the narrow path. -/
def narrowLane (set : AccSet) (side : Option Dword) (x o : Nat) (entry : Dword) : Lane :=
  let i := 32 * x + o
  if lget set.sat i false then ⟨if 0 ≤ (lget set.acc i 0).toInt then 0x7F7F else 0xFF7F, 1, false⟩
  else
    let t := rna32 (numInt (sumT set x o entry))
    finishLane (enc32 (numMul (num32 t) (num32 (combinedScale entry set.exp)))) side

/-- Result lane in the wide path, from its FP32 cell. -/
def wideLane (cell : Dword) (side : Option Dword) (entry : Dword) : Lane :=
  if isNan32 cell then ⟨0x7FC0, 0, false⟩
  else finishLane (enc32 (numMul (num32 cell) (scaleNumOf entry))) side

/-- A column of lanes as a beat's data, with what counts as it is formed and as it is sent. -/
structure Column where
  data : BitVec 512
  formed : Nat
  sent : Nat
  deriving DecidableEq, Repr

def columnOf (f : Nat → Lane) : Column :=
  let l := (List.range 32).map f
  ⟨lanesTo (l.map (·.value)), (l.map (·.formed)).foldl (· + ·) 0, (l.filter (·.sent)).length⟩

end Sys2Proof.Machine
end

