-- ==== Sys2Proof/Machine/MatrixTile.lean ====
section
/-! DEFINITION. The matrix tile (spec/03_matrix_tile.md R85 to R114, spec/04_quantization.md R115 to R133, spec/07_memory_feed.md R208 to R211). -/

namespace Sys2Proof.Machine

/-! ### Words (R85, R106, R117) -/

def tileOps (s : State) (u : Site) : List Dword := opsBeforeEnd ((List.range 16).map (fun i => cfgDw s u (23 + i)))
def tileLimits (s : State) (u : Site) : List Nat := limitsOf (cfgDw s u 5) (cfgDw s u 6)
def datapath (s : State) (u : Site) : Nat := dbits (cfgDw s u 4) 2 1
def isInt (s : State) (u : Site) : Bool := datapath s u < 2
def outlierOn (s : State) (u : Site) : Bool := dbit (cfgDw s u 4) 3
def rerunOn (s : State) (u : Site) : Bool := dbit (cfgDw s u 4) 4
def slotsUsed (s : State) (u : Site) : Nat := dbits (cfgDw s u 20) 2 0
def framePort (s : State) (u : Site) : Nat := dbits (cfgDw s u 20) 5 4
def watchdogLog (s : State) (u : Site) : Nat := dbits (cfgDw s u 20) 12 8
def histN (s : State) (u : Site) : Nat := dbits (cfgDw s u 21) 3 0 + 1
def rowChannels (s : State) (u : Site) : Nat := dbits (cfgDw s u 21) 15 4 + 1
def clipThreshold (s : State) (u : Site) : Nat := dbits (cfgDw s u 21) 31 16

def aloadPort (op : Dword) : Nat := dbits op 8 7
def aloadCount (op : Dword) : Nat := dbits op 18 9 + 1
def fetchQueue (op : Dword) : Nat := dbits op 16 8

/-- Class and port of an entry: array, side, load by port, drain, memory. -/
def tileKey (e : Issued) : ClassKey :=
  match opCode e.op with
  | 1 => (e.slot, 2, aloadPort e.op)
  | 2 => (e.slot, 0, 0)
  | 3 => (e.slot, 1, 0)
  | 4 => (e.slot, 3, 0)
  | _ => (e.slot, 4, 0)

def putTile (s : State) (u : Site) (t : MatrixTile) : State :=
  setTile s u { t with board := markHeads tileKey (tileOf s u).board t.board s.now }

/-- The tile acts: it is one, it is used, and it works. -/
def tileActs (s : State) (u : Site) : Bool := siteKind u == 0 && unitUsed s u && unitWorks s u

/-- A fetch port (R208): an input that no ALOAD names and that the link from a FEED queue reaches. -/
def isFetchPort (s : State) (u : Site) (p : Nat) : Bool :=
  !(tileOps s u).any (fun op => opCode op == 1 && aloadPort op == p) && portRole s u p % 2 == 1
    && (match linkProducer s ⟨u, p⟩ with
      | some e => siteKind e.site == 5 && dbits (cfgDw s (siteWithSub e.site e.port) 1) 2 1 == 0
      | none => false)

/-- Inputs that carry frames. -/
def tileIns (s : State) (u : Site) : List EndPoint := endsOf u ((inPorts s u).filter (fun p => !isFetchPort s u p))
def tileOuts (s : State) (u : Site) : List EndPoint := endsOf u (outPorts s u)

/-! ### Scale banks (R136) -/

def bankOf (t : MatrixTile) (b : Nat) : ScaleBank := if b = 0 then t.bank0 else t.bank1
def setBank (t : MatrixTile) (b : Nat) (x : ScaleBank) : MatrixTile := if b = 0 then { t with bank0 := x } else { t with bank1 := x }
def liveBank (t : MatrixTile) : Nat := if t.bank0.state = .live then 0 else 1

/-- The bank that a frame uses, by the arrival field of its tack line. -/
def bankFor (t : MatrixTile) (arrival : Nat) : Nat :=
  let l := liveBank t
  if (bankOf t (1 - l)).state = .next ∧ t.nextTime ≤ arrival then 1 - l
  else if t.liveTime ≤ arrival then l
  else 1 - l

def tileEntry (t : MatrixTile) (b i : Nat) : Dword := amGetD (bankOf t b).entries i 0

/-- Outlier channels of a slot's bank, when the tile uses them. -/
def outliersFor (s : State) (u : Site) (sl : Slot) : List Nat :=
  if outlierOn s u then outlierChannels (bankOf (tileOf s u) sl.bank).entries else []

/-! ### The predictor (R121 to R123) -/

/-- The next group whose exponent is not fixed, when its first row is numbered. -/
def groupDue (t : MatrixTile) (k : Nat) (sl : Slot) (chans : Nat) : Option Nat :=
  let g := sl.groups.length
  if g * chans < sl.nextRow || t.staging.any (fun p => p.2.slot == k && p.2.ord.isSome && p.2.row == g * chans) then some g else none

/-- e and the zero points of a group. -/
def fixGroup (s : State) (u : Site) (sl : Slot) (g : Nat) : Int × List Int :=
  let chans := rowChannels s u
  let outl := outliersFor s u sl
  let range (c : Nat) : Num × Num :=
    if outl.contains c then (zeroNum false, zeroNum false)
    else if g = 0 then (lowOf (BitVec.ofNat 16 (dbits (cfgDw s u 22) 15 0)), highOf (BitVec.ofNat 16 (dbits (cfgDw s u 22) 31 16)))
    else
      let h := sl.history.filter (fun x => x.1 == c && decide (g ≤ x.2.1 + histN s u) && decide (x.2.1 < g))
      (lowOf ((foldStat minPat none (h.map (·.2.2.1))).getD 0), highOf ((foldStat maxPat none (h.map (·.2.2.2))).getD 0))
  let ranges := (List.range chans).map range
  let dg := ranges.foldl (fun m r => maxNum m (numAdd r.2 (numNeg r.1))) (zeroNum false)
  let e := rowExponent dg
  (e, ranges.map (fun r => zeroPoint e r.1))

/-- Group g with its exponent and zero points fixed: its lines that were numbered before are counted now (R128). -/
def withGroup (sl : Slot) (chans g : Nat) (fx : Int × List Int) : Slot :=
  { sl with
    groups := sl.groups ++ [(g, fx.1, fx.2)]
    clips := sl.clips.zipIdx.map (fun p =>
      match p.1, amGet sl.uncounted p.2 with
      | none, some l => if l.1 / chans = g then some (clippedIn fx.1 (fx.2.getD (l.1 % chans) 0) l.2) else none
      | n, _ => n)
    uncounted := sl.uncounted.filter (fun p => decide (p.2.1 / chans ≠ g)) }

/-- The slot with the exponents of its next groups fixed, at most n of them. -/
def fixDue (s : State) (u : Site) (t : MatrixTile) (k : Nat) : Nat → Slot → Slot
  | 0, sl => sl
  | n + 1, sl =>
    match groupDue t k sl (rowChannels s u) with
    | none => sl
    | some g =>
      fixDue s u t k n (withGroup sl (rowChannels s u) g (fixGroup s u sl g))

/-! ### Slots (R102, R113, R128, R130) -/

/-- Totals of a slot: lanes quantized and clipped, over the first n lines in row order. -/
def clipTotals (sl : Slot) (n : Nat) : Nat × Nat :=
  (sl.clips.take n).zipIdx.foldl (fun a p => if sl.outlierOrds.contains p.2 then a else (a.1 + 32, a.2 + p.1.getD 0)) (0, 0)

/-- A group's exponent and zero points, once fixed. -/
def groupOf (sl : Slot) (g : Nat) : Option (Int × List Int) := (sl.groups.find? (fun x => x.1 == g)).map (·.2)

/-- What a line of a slot that unbinds keeps: its group, its channel and what the tile holds with it (R123). -/
def lineKept (s : State) (u : Site) (sl : Slot) (l : StagingLine) : Option FixedLine :=
  let g := l.row / rowChannels s u
  let c := l.row % rowChannels s u
  if l.ord.isNone then none
  else if (outliersFor s u sl).contains c then some ⟨g, c, true, 0, 0⟩
  else (groupOf sl g).map (fun x => ⟨g, c, false, x.1, x.2.getD c 0⟩)

/-- A tile with nothing bound, issued, staged or accumulated. -/
def emptyTile (t : MatrixTile) : MatrixTile :=
  { t with slots := List.replicate 4 none, board := [], staging := [], sets := [], side := [], replays := [], fetches := [], writeBuf := [] }

/-- The entry was issued for the frame that the slot is bound to. -/
def ofSlot (k : Nat) (sl : Slot) (e : Issued) : Bool := e.slot == k && e.stream == sl.stream && e.frame == sl.frame

/-- The staging when a slot unbinds: its lines stay filled until a RELEASE (R97), and no longer belong to a slot; after an abort they are dropped
(R98, R109, R112). -/
def stagingLeft (s : State) (u : Site) (k code : Nat) (sl : Slot) (m : AMap Nat StagingLine) : AMap Nat StagingLine :=
  if code = 0 then m.map (fun p => if p.2.slot = k then (p.1, { p.2 with slot := 4, ord := none, fixed := lineKept s u sl p.2 }) else p)
  else m.filter (fun p => decide (p.2.slot ≠ k))

/-- The scoreboard when a slot unbinds: after an abort the slot's entries go, those that an earlier frame has left in it with them (R109, R112). -/
def boardLeft (k code : Nat) (board : List Issued) : List Issued := if code = 0 then board else board.filter (fun e => decide (e.slot ≠ k))

/-- The sets and side sets when a slot unbinds: they belong to no slot any more; after an abort they are dropped (R98, R112). -/
def setsLeft (k code : Nat) (t : MatrixTile) : AMap Nat AccSet × AMap Nat (List Dword) :=
  if code = 0 then (amMap t.sets (fun _ a => if a.owner = k then { a with owner := 4 } else a), t.side)
  else
    let mine (d : Nat) : Bool := (amGet t.sets d).any (fun a => a.owner == k)
    (t.sets.filter (fun p => decide (p.2.owner ≠ k)), t.side.filter (fun p => !mine p.1))

/-- A slot unbinds, the exponents that are due fixed: totals, the trace record, and all that it holds in the tile but the lines it has left filled. -/
def tileUnbind (s : State) (u : Site) (k code : Nat) : State :=
  let t := tileOf s u
  match slotAt t.slots k with
  | none => s
  | some sl0 =>
    let sl := if isInt s u ∧ code ≠ 0x0403 then fixDue s u t k (sl0.nextRow + 1) sl0 else sl0
    let n := clipTotals sl sl.clips.length
    let t1 := { t with
      slots := t.slots.set k none
      board := boardLeft k code t.board
      staging := stagingLeft s u k code sl t.staging
      sets := (setsLeft k code t).1
      side := (setsLeft k code t).2 }
    let s1 := putTile s u t1
    let s2 := countUnit (countUnit s1 u 2 n.1) u 3 n.2
    let s3 := if code = 0 then countUnit s2 u 0 1 else s2
    traceNow s3 0x0013 u (some sl.stream) (dw sl.frame) k code 0

/-- A slot unbinds when its nest is complete and its last DRAIN has sent its last beat (R102). Other entries of its frame that are left do not hold it
(notes/assumptions/44.md). -/
def tileSettle (s : State) (u : Site) : State :=
  (List.range 4).foldl (fun st k =>
    let t := tileOf st u
    match slotAt t.slots k with
    | some sl => if sl.nestDone && !t.board.any (fun e => ofSlot k sl e && opCode e.op == 4) then tileUnbind st u k 0 else st
    | none => st) s

/-- Give up a slot's frame without a record: state, void tack lines, input beats. -/
def tileGiveUp (s : State) (u : Site) (k code : Nat) : State :=
  match slotAt (tileOf s u).slots k with
  | none => s
  | some sl =>
    discardOn (voidOn (tileUnbind s u k code) (tileOuts s u) sl.stream sl.frame sl.tack code) (tileIns s u) sl.stream sl.frame

/-- Abort a slot's frame with a class 1 record. -/
def tileAbort (s : State) (u : Site) (k code : Nat) : State :=
  match slotAt (tileOf s u).slots k with
  | none => s
  | some sl => tileGiveUp (abortRecord s code u sl.stream sl.frame 0 0) u k code

/-- Every bound slot's frame is aborted, and nothing stays on the scoreboard (R109, R112). -/
def tileAbortAll (s : State) (u : Site) (code : Nat) : State :=
  let s1 := (List.range 4).foldl (fun st k => tileAbort st u k code) s
  setTile s1 u { tileOf s1 u with board := [] }

/-- The tile is LOST: it acts as a DISABLED one, and the frames bound in it end (R111, R405; DEDUCED, notes/assumptions/13.md). -/
def tileLost (s : State) (u : Site) (code : Nat) (at_ : Site) : State := tileAbortAll (loseUnit s code at_ 0 0) u 0x0310

/-- The slots bound to a frame. -/
def tileSlotsOf (s : State) (u : Site) (st frame : Nat) : List Nat :=
  (List.range 4).filter (fun k => match slotAt (tileOf s u).slots k with | some sl => sl.stream == st && sl.frame == frame | none => false)

/-- A frame that a tile does not begin: copied on, recorded, discarded (R113). -/
def frameAtDisabled (s : State) (u : Site) (b : Beat) (outs ins : List EndPoint) (code : Nat) : State :=
  let st := bStream b
  let s1 := outs.foldl (fun x e => sendOpen x e b) s
  let s2 := abortRecord s1 code u st (tackFrame b) 0 0
  discardOn (voidOn s2 outs st (tackFrame b) (tackInfo b) code) ins st (tackFrame b)

/-- A tack line at the head of the frame port. -/
def tileBind (s : State) (u : Site) : State :=
  let e : EndPoint := ⟨u, framePort s u⟩
  let t := tileOf s u
  match (inBuf s e).head? with
  | none => s
  | some b =>
    if !isOpenTack b || bindStopped s u then s
    else if unitState s u = .enabled then
      match (List.range (slotsUsed s u)).find? (fun k => (slotAt t.slots k).isNone) with
      | none => s
      | some k =>
        match takeBeat s e (fun _ => true) with
        | none => s
        | some (_, s1) =>
          let s2 := (tileOuts s u).foldl (fun x o => sendOpen x o b) s1
          let sl : Slot := { stream := bStream b, frame := tackFrame b, tack := tackInfo b, bank := bankFor t (tackArrival b) }
          let s3 := setTile s2 u { tileOf s2 u with slots := t.slots.set k (some sl) }
          traceNow s3 0x0012 u (some sl.stream) (dw sl.frame) k 0 0
    else
      match takeBeat s e (fun _ => true) with
      | none => s
      | some (_, s1) => frameAtDisabled s1 u b (tileOuts s u) (tileIns s u) 0x0310

/-! ### Issue (R99 to R101, R106) -/

def setSlot (l : List (Option Slot)) (k : Nat) (sl : Slot) : List (Option Slot) := l.set k (some sl)

/-- The scoreboard entry of operation i of slot k. -/
def tileIssued (s : State) (u : Site) (t : MatrixTile) (k i : Nat) (sl : Slot) : Issued :=
  let op := cfgDw s u (23 + i)
  let cs := countersOf sl
  let wrap := cfgDw s u 19
  let gen (g w store : Nat) : Nat := genAddress (cfgDw s u) g w store k (opLevel op) cs
  let a := gen 7 (dbits wrap 4 0) 1024
  let b := gen 10 (dbits wrap 12 8) 24576
  let cl := dbits op 9 8
  let clear :=
    if opCode op = 2 then dbit op 7 && (List.range' cl (4 - cl)).all (fun j => cs.getD j 0 == 0)
    else opCode op == 3 && dbit op 7
  { id := t.nextId, slot := k, stream := sl.stream, frame := sl.frame, index := i, op := op, clear := clear, wide := sl.wide, tag := sl.lastTag,
    a := if opCode op = 3 then (a + dbits op 17 8) % 1024 else a,
    b := if opCode op = 3 then (b + dbits op 30 18) % 24576 else b,
    d := gen 13 (dbits wrap 20 16) (if isInt s u then 8 else 16),
    f := gen 16 (dbits wrap 28 24) 12288,
    c0 := sl.c0, c1 := sl.c1, c2 := sl.c2, c3 := sl.c3 }

/-- RCLK cycles of one ac of a tile's sector (R381). -/
def acRclk (s : State) (u : Site) : Nat := dividerOf (sectorOf s (siteSector u)).actual

/-- The RCLK cycle, 8 to an fc, in which a sequencer that may issue from cycle `from_` on issues next. -/
def issueAt (s : State) (from_ : Nat) : Nat := max (8 * s.now) from_

/-- The sequencer: slots with nothing due go to their next iteration, then one operation issues, at most one per ac. -/
def tileIssue (s : State) (u : Site) : State :=
  let ops := tileOps s u
  let lims := tileLimits s u
  let t0 := tileOf s u
  if 32 ≤ t0.board.length then s else
  let t := { t0 with slots := t0.slots.map (fun o => o.map (settleNest ops lims)) }
  match nextIssuer ops lims t.slots t.lastSlot with
  | none => tileSettle (putTile s u t) u
  | some (k, i) =>
    let c := issueAt s t.nextIssue
    match slotAt t.slots k with
    | none => s
    | some sl =>
      if !reaches s (c / 8) then s
      else
        let s1 := advance s (c / 8)
        let e := tileIssued s1 u t k i sl
        let loads := if opCode e.op = 1 then sl.loads ++ [(e.id, false, [])] else sl.loads
        let sl1 := settleNest ops lims { sl with opIdx := i + 1, loads := loads }
        putTile s1 u { t with slots := setSlot t.slots k sl1, board := t.board ++ [e], nextId := t.nextId + 1, lastSlot := k,
                              nextIssue := c + acRclk s u }

/-! ### Loads and numbering (R103, R107, R118, R121) -/

def lineAt (t : MatrixTile) (i : Nat) : StagingLine := amGetD t.staging i {}
def lineFilled (t : MatrixTile) (i : Nat) : Bool := (lineAt t i).filled

/-- One line takes the next order index; its row's statistics and its clip count follow. Records stay until no group that is not fixed yet looks back
at them, so that a prediction does not depend on when it is made (R123). -/
def numberLine (chans histn : Nat) (outl : List Nat) (a : MatrixTile × Slot) (i : Nat) : MatrixTile × Slot :=
  let line := lineAt a.1 i
  let sl := a.2
  let row := sl.nextRow
  let c := row % chans
  let g := row / chans
  let out := outl.contains c
  let clip := if out then some 0 else (groupOf sl g).map (fun x => clippedIn x.1 (x.2.getD c 0) line.data)
  let lo := if out then sl.rowLo else foldStat minPat sl.rowLo (lanesOf line.data)
  let hi := if out then sl.rowHi else foldStat maxPat sl.rowHi (lanesOf line.data)
  let hist := if line.lastOfRow && !out then
      (sl.history.filter (fun h => decide (sl.groups.length ≤ h.2.1 + histn))) ++ [(c, g, lo.getD 0, hi.getD 0)] else sl.history
  let sl1 := { sl with
    nextOrd := sl.nextOrd + 1
    nextRow := if line.lastOfRow then row + 1 else row
    clips := sl.clips ++ [clip]
    outlierOrds := if out then sl.outlierOrds ++ [sl.nextOrd] else sl.outlierOrds
    rowLo := if line.lastOfRow then none else lo
    rowHi := if line.lastOfRow then none else hi
    history := hist
    uncounted := if clip.isNone then amSet sl.uncounted sl.nextOrd (row, line.data) else sl.uncounted }
  ({ a.1 with staging := amSet a.1.staging i { line with ord := some sl.nextOrd, row := row } }, sl1)

/-- Number the lines of a slot's loads in issue order, up to the first load that is still writing. -/
def numberLoads (chans histn : Nat) (outl : List Nat) : List (Nat × Bool × List Nat) → MatrixTile × Slot → List (Nat × Bool × List Nat) × MatrixTile × Slot
  | [], a => ([], a)
  | (id, fin, lines) :: rest, a =>
    let b := lines.foldl (numberLine chans histn outl) a
    if fin then numberLoads chans histn outl rest b else ((id, false, []) :: rest, b)

/-- The slot of an entry while it is bound to the entry's frame; of an entry that its frame has left behind, one that holds nothing but the frame. -/
def entrySlot (t : MatrixTile) (e : Issued) : Slot :=
  match slotAt t.slots e.slot with
  | some sl => if ofSlot e.slot sl e then sl else { stream := e.stream, frame := e.frame }
  | none => { stream := e.stream, frame := e.frame }

/-- The slot that an entry's frame is bound to: 4, which is none, for one that its frame has left behind. -/
def entryOwner (t : MatrixTile) (e : Issued) : Nat :=
  match slotAt t.slots e.slot with
  | some sl => if ofSlot e.slot sl e then e.slot else 4
  | none => 4

/-- The oldest beat of a stream that an ALOAD may look at: on the frame port only ahead of a waiting tack line. -/
def aloadView (s : State) (u : Site) (port st : Nat) : Option Beat :=
  let buf := inBuf s ⟨u, port⟩
  let seen := if port = framePort s u then buf.takeWhile (fun b => !isTack b) else buf
  seen.find? (fun b => bStream b == st && decide (bType b ≤ 2))

/-- One data beat into staging. Lines that pass the end of the store wrap: R106 gives OMAC alone a modulo, and ALOAD, RELEASE, S + pair_offset and the
beats of a FETCH take the same one (DESIGN CHOICE, notes/assumptions/71.md). -/
def aloadWrite (s : State) (u : Site) (k : Nat) (sl : Slot) (e : Issued) (b : Beat) : State :=
  let t := tileOf s u
  let i := (e.a + e.progress) % 1024
  let line : StagingLine := { data := b.data, stream := bStream b, tag := bTag b, lastOfRow := bLast b, filled := true, slot := entryOwner t e }
  let fin := e.progress + 1 == aloadCount e.op
  let loads := sl.loads.map (fun x => if x.1 = e.id then (x.1, fin, x.2.2 ++ [i]) else x)
  let t1 := { t with staging := amSet t.staging i line, portFc := amSet t.portFc (aloadPort e.op) (s.now + 1),
                     board := if fin then dropEntry t.board e.id else modEntry t.board e.id (fun x => { x with progress := x.progress + 1, headSince := s.now }) }
  let sl1 := { sl with lastTag := bTag b, loads := loads }
  if entryOwner t e = 4 then putTile s u t1
  else if isInt s u then
    let r := numberLoads (rowChannels s u) (histN s u) (outliersFor s u sl) loads (t1, sl1)
    putTile s u { r.2.1 with slots := setSlot r.2.1.slots k { r.2.2 with loads := r.1 } }
  else putTile s u { t1 with slots := setSlot t1.slots k { sl1 with loads := [] } }

/-- An ALOAD moves one beat, at most one per port and fc for all slots together (R107); on a port other than the frame port a tack line of its stream
goes first. -/
def execAloadBeat (site : Site) (slot port : Nat) (s : State) : Host.Outcome State Fault Refusal :=
  if !tileActs s site then done s else
  let t := tileOf s site
  match headOf tileKey t.board (slot, 2, port) with
  | some e =>
    let sl := entrySlot t e
    match aloadView s site port sl.stream with
    | none => done s
    | some b =>
      if isVoidTack b then done s
      else if !isTack b && (lineFilled t ((e.a + e.progress) % 1024) || !reaches s (amGetD t.portFc port 0)) then done s
      else match takeBeat (if isTack b then s else advance s (amGetD t.portFc port 0)) ⟨site, port⟩ (fun x => x == b) with
        | none => done s
        | some (_, s1) =>
          if isTack b then
            done (if tackFrame b = sl.frame then s1 else faultFrame s1 0x0307 4 (siteWithSub site port) sl.stream (tackFrame b) 0 0)
          else done (tileSettle (aloadWrite s1 site slot sl e b) site)
  | none => done s

/-! ### The next exponent (R122) -/

/-- The exponent of the next scale group; a parity error in the history store gives up the frame (R140). -/
def execRowExponentFix (site : Site) (slot : Nat) (historyParity : Bool) (s : State) : Host.Outcome State Fault Refusal :=
  if !tileActs s site || !isInt s site then done s else
  let t := tileOf s site
  match slotAt t.slots slot with
  | none => done s
  | some sl =>
    match groupDue t slot sl (rowChannels s site) with
    | none => done s
    | some g =>
      if historyParity then done (tileAbort s site slot 0x0403)
      else
        done (putTile s site { t with slots := setSlot t.slots slot (withGroup sl (rowChannels s site) g (fixGroup s site sl g)) })

/-! ### Array (R87 to R96, R107, R120, R123) -/

/-- Staging lines that a MAC reads. -/
def macLines (s : State) (u : Site) (e : Issued) : List Nat :=
  if datapath s u = 1 then [e.a, (e.a + dbits e.op 19 10) % 1024] else [e.a]

def weightUnit (t : MatrixTile) (i : Nat) : BitVec 256 := BitVec.ofNat 256 (leNat (memRead t.weights (32 * i) 32))

/-- The slot that a line belongs to, and the reading slot where none holds it. -/
def lineSlot (s : State) (u : Site) (sl : Slot) (l : StagingLine) : Slot := (slotAt (tileOf s u).slots l.slot).getD sl

/-- Scale group, channel and outlier mark of a numbered line. -/
def lineGroup (s : State) (u : Site) (sl : Slot) (l : StagingLine) : Nat × Nat × Bool :=
  match l.fixed with
  | some f => (f.group, f.chan, f.outlier)
  | none =>
    let chans := rowChannels s u
    (l.row / chans, l.row % chans, (outliersFor s u (lineSlot s u sl l)).contains (l.row % chans))

/-- e and z[c] held with a line (R123). -/
def lineScale (s : State) (u : Site) (sl : Slot) (l : StagingLine) : Option (Int × Int) :=
  match l.fixed with
  | some f => some (f.exp, f.zp)
  | none =>
    let x := lineGroup s u sl l
    (groupOf (lineSlot s u sl l) x.1).map (fun y => (y.1, y.2.getD x.2.1 0))

/-- In integer modes the line is numbered and its group's exponent is fixed (R123). -/
def lineReady (s : State) (u : Site) (sl : Slot) (l : StagingLine) : Bool :=
  l.filled && (!isInt s u || l.fixed.isSome || (l.ord.isSome && (lineScale s u sl l).isSome))

def setOf (t : MatrixTile) (d : Nat) : AccSet := amGetD t.sets d {}
def sideOf_ (t : MatrixTile) (d : Nat) : List Dword := amGetD t.side d (List.replicate 1024 0)

/-- What R107 asks of a MAC or OMAC beyond its lines. -/
def arrayFree (t : MatrixTile) (e : Issued) : Bool :=
  !earlier t.board e (fun x => opCode x.op == 4 && x.d == e.d) && !earlier t.board e (fun x => opCode x.op == 6 && x.slot == e.slot)

/-- The word of a unit that an ECC check names lies in one of the unit's four banks; which of them is the outside's. -/
def unitBank (s : State) (i : Nat) : Nat := 4 * (i % 4) + (Config.free32 s.fresh).toNat % 4

/-- A 4 KiB weight region is being rewritten. -/
def regionBusy (t : MatrixTile) (region : Nat) : Bool := t.rewriting.any (fun r => r.region == region)

/-- A rewrite of a 4 KiB weight region starts (R96). Its record waits for the outcome, which its code names (DEDUCED, notes/assumptions/71.md). -/
def startRewrite (s : State) (u : Site) (bank beat : Nat) (stall : Bool) : State :=
  let t := tileOf s u
  let region := beat / 64
  setTile s u { t with rewriting := if regionBusy t region then t.rewriting else t.rewriting ++ [⟨region, beat, bank, s.now⟩],
                       stalledOn := if stall then addNew t.stalledOn region else t.stalledOn }

/-- What the weight read of a unit finds: the state to go on in, or the state of the stall. -/
def weightRead (s : State) (u : Site) (i : Nat) (found : Ecc) : Except State State :=
  match found with
  | .good => .ok s
  | .single => .ok (fault (drawn s) 0x0301 0 (siteWithSub u (unitBank s i)) 0 0)
  | .uncorrectable => .error (startRewrite (drawn s) u (unitBank s i) (i / 2) true)

/-- The region of a unit is not being rewritten. -/
def unitSound (t : MatrixTile) (i : Nat) : Bool := !regionBusy t (i * 32 / 4096)

/-- An operation reads units of a region whose rewrite is not complete: the tile stalls until it is (R96). -/
def stallOn (s : State) (u : Site) (l : List Nat) : State :=
  let t := tileOf s u
  setTile s u { t with stalledOn := ((l.filter (fun i => !unitSound t i)).map (fun i => i * 32 / 4096)).foldl addNew t.stalledOn }

/-- The ac for which a MAC, a wide MAC or an OMAC occupies its hardware (R87, R92, R93). -/
def arrayAc (s : State) (u : Site) (e : Issued) : Nat :=
  if opCode e.op = 3 then 4 else if !isInt s u then 2 else if !e.wide then 1 else if datapath s u = 1 then 8 else 4

/-- The RCLK cycle in which a MAC or OMAC fires: its hardware is free, and in the float modes and for OMAC F ac have passed since the last
MAC or OMAC into its set (R107). -/
def fireAt (s : State) (u : Site) (e : Issued) : Nat :=
  let t := tileOf s u
  let side := opCode e.op == 3
  max (8 * s.now) (max (if side then t.sideUntil else t.arrayUntil)
    (if isInt s u && !side then 0 else (setOf t e.d).nextFire))

/-- The halyard at the fc in which a MAC or OMAC fires. -/
def fireTurn (s : State) (u : Site) (e : Issued) : State := advance s (fireAt s u e / 8)

/-- The RCLK cycle in which a MAC or OMAC that fires in cycle c has written back, D ac later, and that from which the next may fire, F ac later (R107). -/
def backFrom (s : State) (u : Site) (c : Nat) : Nat := c + Config.latD * acRclk s u
def nextFrom (s : State) (u : Site) (c : Nat) : Nat := c + Config.latF * acRclk s u

/-- The first fc at whose start every MAC and OMAC into a set has written back. -/
def backFc (a : AccSet) : Fc := ceilDiv a.writtenBack 8

def countSat (s : State) (u : Site) (n : Nat) : State := countUnit s u 1 n

/-- The set after an integer MAC (narrow or wide). The replay log takes every MAC since the clear: what becomes of it beyond the 64 entries of R131 no
rule says (DESIGN CHOICE, notes/assumptions/45.md). -/
def intMacSet (s : State) (u : Site) (sl : Slot) (e : Issued) : AccSet :=
  let t := tileOf s u
  let lines := (macLines s u e).map (lineAt t)
  let w := weightUnit t e.b
  let old := setOf t e.d
  let base : AccSet := if e.clear then { old with group := none, log := [], lines := [], ordEnd := 0, wide := [], isWide := e.wide, anyNarrow := false, checked := false, todo := [] } else { old with checked := false }
  let info := lines.map (lineGroup s u sl)
  let scale (l : StagingLine) : Int × Int := (lineScale s u sl l).getD (0, 0)
  let grp := (info.find? (fun x => !x.2.2)).map (·.1)
  let chs := (lines.zip info).zipIdx.map fun p =>
    let l := p.1.1
    let x := p.1.2
    let wc := weightCodes (datapath s u == 1) w p.2
    if x.2.2 then MacChannel.mk (List.replicate 32 0) 0 wc else MacChannel.mk (codesOf (scale l).1 (scale l).2 l.data) (scale l).2 wc
  let ends := (lines.filter (fun l => l.slot == entryOwner t e)).map (fun l => match l.ord with | some o => o + 1 | none => 0)
  let tracked := { base with
    group := grp.or base.group
    exp := match (lines.zip info).find? (fun x => !x.2.2.2) with | some x => (scale x.1).1 | none => base.exp
    log := base.log ++ [⟨macLines s u e, e.b⟩]
    lines := dedup (base.lines ++ macLines s u e)
    ordEnd := ends.foldl max base.ordEnd
    owner := entryOwner t e
    nextFire := nextFrom s u (fireAt s u e)
    writtenBack := max base.writtenBack (backFrom s u (fireAt s u e)) }
  if e.wide then
    { tracked with wide := tracked.wide ++ [⟨(lines.zip info).map (fun p => if p.2.2.2 then 0 else p.1.data), w⟩] }
  else { macInt tracked chs e.clear with anyNarrow := true }

/-- The set after a float MAC, and the saturations. -/
def floatMacSet (s : State) (u : Site) (e : Issued) : AccSet × Nat :=
  let t := tileOf s u
  let old := setOf t e.d
  let fp16 := datapath s u == 3
  let r := rankOne e.clear 16 old.acc (floatActs fp16 (lineAt t e.a).data) (floatWeights fp16 (weightUnit t e.b))
  ({ old with acc := r.1, owner := entryOwner t e, nextFire := nextFrom s u (fireAt s u e), writtenBack := max old.writtenBack (backFrom s u (fireAt s u e)) }, r.2)

/-- A line of another scale group than the set's, or two groups in one MAC (R120). -/
def groupClash (s : State) (u : Site) (sl : Slot) (e : Issued) : Bool :=
  let t := tileOf s u
  let gs := (((macLines s u e).map (lineAt t)).map (lineGroup s u sl)).filterMap (fun x => if x.2.2 then none else some x.1)
  let all := (if e.clear then [] else (setOf t e.d).group.toList) ++ gs
  all.any (fun g => g != all.headD 0)

/-- The line or set in which a read of some lines or of set d meets a parity error is cleared, and the frame whose slot owns it is aborted (R98); a line
or set that no slot owns any more costs no frame. -/
def tileParity (s : State) (u : Site) (lines : List Nat) (d : Nat) (p : TileParity) : State :=
  let t := tileOf s u
  let line (second : Bool) : Nat := lines.getD (b2n second) (lines.headD 0)
  let owner := match p with
    | .clean => 4
    | .line second => (lineAt t (line second)).slot
    | .set | .side => (setOf t d).owner
  let s1 := if (slotAt t.slots owner).isSome then tileAbort s u owner 0x0305 else fault s 0x0305 1 u 0 0
  let t1 := tileOf s1 u
  match p with
  | .clean => s
  | .line second => setTile s1 u { t1 with staging := amErase t1.staging (line second) }
  | .set => setTile s1 u { t1 with sets := amErase t1.sets d }
  | .side => setTile s1 u { t1 with side := amErase t1.side d }

/-! ### Fetch writes and weight reads of one bank (R94, R95) -/

/-- The groups of four banks that a fetch beat is written to, and that an operation's units are read from. -/
def beatGroups (b : Nat) : List Nat := [2 * b % 4, (2 * b + 1) % 4]
def unitGroups (op : Dword) (i : Nat) : List Nat := if opCode op = 3 then [i % 4, (i + 1) % 4] else [i % 4]

/-- detail0 of the FETCH records. -/
def fetchKey (u : Site) (count number : Nat) : Nat := (count - 1) + siteY u % 8 * 2 ^ 8 + siteX u % 8 * 2 ^ 12 + number % 65536 * 2 ^ 16

/-- A fetch beat is written: its FETCH has one beat more, and its place is noted for a later rewrite. The record of a FETCH's end carries the fc of the
write (R436). -/
def writeFetched (s : State) (u : Site) (w : FetchWrite) : State :=
  let t := tileOf s u
  let mine (f : FetchRec) : Bool := f.queue == w.queue && f.id == w.id
  let old := t.fetches.find? mine
  let rest := t.fetches.map (fun f => if mine f then { f with written := f.written + 1 } else f)
  let home := old.bind (fun f => f.homes[f.written]?)
  let s1 := setTile s u { t with
    weights := memSetLine t.weights (64 * w.beat) w.data
    fetches := rest.filter (fun f => decide (f.written < f.count))
    passWrites := t.passWrites ++ [(w.beat, 1)]
    homes := match home with | some a => amSet t.homes w.beat a | none => t.homes }
  match old with
  | some f =>
    if f.written + 1 = f.count then traceAt s1 0x001A (queueSite w.queue) (some w.stream) (dw f.frame) (dw (fetchKey u f.asked f.number)) 0 0 (w.due / 8) else s1
  | none => s1

/-- Buffered fetch writes that are due by the end of this fc are made, in order. -/
def settleWrites (s : State) (u : Site) : State :=
  let t := tileOf s u
  let due := t.writeBuf.takeWhile (fun w => decide (w.due < 8 * (s.now + 1)))
  due.foldl (fun x w => writeFetched x u w) (setTile s u { t with writeBuf := t.writeBuf.drop due.length })

/-- The RCLK cycle in which a fetch beat that reaches the tile now is written: behind those that wait, and one ac later where it meets a read in the
same bank. -/
def writeCycle (s : State) (u : Site) (beat : Nat) : Nat :=
  let t := tileOf s u
  let ac := acRclk s u
  let w := t.writeBuf.foldl (fun m x => max m x.due) (8 * s.now)
  (beatGroups beat).foldl (fun m g => match amGet t.reads g with | some r => if r ≤ w ∧ w < r + ac then max m (r + ac) else m | none => m) w

/-- A weight read in RCLK cycle c: waiting writes to its banks that fall into its ac wait one ac more. -/
def readBanks (t : MatrixTile) (ac c : Nat) (groups : List Nat) : MatrixTile :=
  { t with reads := groups.foldl (fun m g => amSet m g c) t.reads
           writeBuf := t.writeBuf.map (fun w =>
             if (beatGroups w.beat).any groups.contains && decide (c ≤ w.due) && decide (w.due < c + ac) then { w with due := c + ac } else w) }

/-- The entry fires: it leaves the scoreboard, the set is written, and the happening counts. -/
def fireInto (s : State) (u : Site) (sl : Slot) (e : Issued) (set : AccSet) (sats : Nat) : State :=
  let t := tileOf s u
  let end_ := fireAt s u e + arrayAc s u e * acRclk s u
  let side := opCode e.op == 3
  let t1 := readBanks t (acRclk s u) (fireAt s u e) (unitGroups e.op e.b)
  let s1 := putTile s u { t1 with sets := amSet t.sets e.d set, board := dropEntry t.board e.id,
                                  arrayUntil := if side then t.arrayUntil else end_, sideUntil := if side then end_ else t.sideUntil }
  tileSettle (countEvent (countSat s1 u sats) 0x09 u (some sl.stream) 0 0 false) u

/-- The DRAIN of the operation list that names the set of a MAC, as it issues at the end of the MAC's iteration. -/
def drainOf (s : State) (u : Site) (e : Issued) : Option Issued :=
  let lims := tileLimits s u
  (tileOps s u).findSome? (fun op =>
    let cs := (List.range 4).map (fun k => if k ≤ opLevel op then [e.c0, e.c1, e.c2, e.c3].getD k 0 else if opLast op then lims.getD k 1 - 1 else 0)
    if opCode op = 4 ∧ genAddress (cfgDw s u) 13 (dbits (cfgDw s u 19) 20 16) (if isInt s u then 8 else 16) e.slot (opLevel op) cs = e.d then
      some { e with op := op, c0 := cs.getD 0 0, c1 := cs.getD 1 0, c2 := cs.getD 2 0, c3 := cs.getD 3 0 }
    else none)

/-- The scale entry of output column j. -/
def drainEntry (t : MatrixTile) (sl : Slot) (e : Issued) (j : Nat) : Dword :=
  let c := [e.c0, e.c1, e.c2, e.c3].getD (dbits e.op 21 20) 0
  tileEntry t sl.bank ((dbits e.op 18 9 + (if dbit e.op 19 then 32 * c else 0) + j) % 1024)

/-- The weight zero points of the columns of a DRAIN. -/
def drainZeros (t : MatrixTile) (sl : Slot) (e : Issued) : List Int := (List.range 32).map (fun o => zeroOf (drainEntry t sl e o))

/-- Saturations of the roundings that a wide MAC makes, as it fires (R89): those of the set with it, without those of the set before it. The zero
points are those of the DRAIN that the operation list has for the set (DEDUCED, notes/assumptions/45.md). -/
def wideSats (s : State) (u : Site) (sl : Slot) (e : Issued) (set : AccSet) : Nat :=
  if !e.wide then 0
  else
    let zeros := match drainOf s u e with | some d => drainZeros (tileOf s u) sl d | none => []
    let sats (l : List WideMac) : Nat := (wideCells (datapath s u == 1) zeros l).2
    sats set.wide - sats set.wide.dropLast

/-- The frame of an entry is aborted: by its slot, or, when it has left the entry behind, with what is left of it on the scoreboard. -/
def entryAbort (s : State) (u : Site) (e : Issued) (code : Nat) : State :=
  let t := tileOf s u
  if entryOwner t e = e.slot then tileAbort s u e.slot code
  else
    let s1 := setTile (abortRecord s code u e.stream e.frame 0 0) u { t with board := boardLeft e.slot code t.board }
    discardOn (voidOn s1 (tileOuts s u) e.stream e.frame {} code) (tileIns s u) e.stream e.frame

/-! ### The replay (R131): its wide MACs take the array ahead of any issued MAC -/

/-- The set whose replay is under way. -/
def replayHead (t : MatrixTile) : Option Nat := t.replays.find? (fun d => !(setOf t d).todo.isEmpty)

/-- The RCLK cycle in which the next wide MAC of a replay fires. -/
def replayAt (s : State) (u : Site) : Nat := max (8 * s.now) (tileOf s u).arrayUntil

/-- The wide MAC of a log entry: outlier lines are read as zero. -/
def replayMac (s : State) (u : Site) (sl : Slot) (m : LogMac) : WideMac :=
  let t := tileOf s u
  ⟨m.lines.map (fun i => let l := lineAt t i; if (lineGroup s u sl l).2.2 then 0 else l.data), weightUnit t m.unit⟩

/-- The DRAIN that waits for a set: the first of its slot that has not begun to send. -/
def drainFor (t : MatrixTile) (slot d : Nat) : Option Issued := t.board.find? (fun e => tileKey e == (slot, 3, 0) && !e.fired && e.d == d)

/-- The next wide MAC of the replay of set d has fired: its roundings count in its ac (R89), and it reads its weight unit's banks (R95). -/
def replayFired (s : State) (u : Site) (sl : Slot) (slot d : Nat) (m : LogMac) (rest : List LogMac) : State :=
  let t := tileOf s u
  let set := setOf t d
  let c := replayAt s u
  let zeros := match drainFor t slot d with | some e => drainZeros t sl e | none => []
  let wide := set.wide ++ [replayMac s u sl m]
  let sats := (wideCells (datapath s u == 1) zeros wide).2 - (wideCells (datapath s u == 1) zeros set.wide).2
  let set1 := { set with wide := wide, todo := rest, nextFire := nextFrom s u c, writtenBack := max set.writtenBack (backFrom s u c) }
  let t1 := readBanks t (acRclk s u) c [m.unit % 4]
  let s1 := setTile s u { t1 with sets := amSet t.sets d set1, arrayUntil := c + (if datapath s u = 1 then 8 else 4) * acRclk s u }
  countEvent (countSat s1 u sats) 0x09 u (some sl.stream) 0 0 false

/-- The next wide MAC of the replay of a slot's set. -/
def replayFire (s : State) (u : Site) (slot d : Nat) (weight : Ecc) (parity : TileParity) : State :=
  let t := tileOf s u
  match (setOf t d).todo, slotAt t.slots slot with
  | m :: rest, some sl =>
    let c := replayAt s u
    if (setOf t d).owner ≠ slot ∨ !reaches s (c / 8) then s
    else if !unitSound t m.unit then stallOn s u [m.unit]
    else
      let s1 := settleWrites (advance s (c / 8)) u
      if parity ≠ .clean then tileParity s1 u m.lines d parity
      else match weightRead s1 u m.unit weight with
        | .error s2 => s2
        | .ok s2 => replayFired s2 u sl slot d m rest
  | _, _ => s

/-- A MAC at the head of the array class, or a wide MAC of a replay, which takes the array first. -/
def execMacFire (site : Site) (slot : Nat) (weight : Ecc) (parity : TileParity) (s : State) : Host.Outcome State Fault Refusal :=
  if !tileActs s site then done s else
  let t := tileOf s site
  match replayHead t with
  | some d => done (replayFire s site slot d weight parity)
  | none =>
  match headOf tileKey t.board (slot, 0, 0) with
  | some e =>
    let sl := entrySlot t e
    if !arrayFree t e || !((macLines s site e).all (fun i => lineReady s site sl (lineAt t i))) || !reaches s (fireAt s site e / 8) then done s
    else if !unitSound t e.b then done (stallOn s site [e.b])
    else if parity ≠ .clean then done (tileParity (fireTurn s site e) site (macLines s site e) e.d parity)
    else
      match weightRead (settleWrites (fireTurn s site e) site) site e.b weight with
      | .error s1 => done s1
      | .ok s1 =>
        if isInt s site then
          if groupClash s1 site sl e then
            let s2 := faultFrame s1 0x0401 4 site sl.stream sl.frame (dw (e.index + slot * 2 ^ 4)) 0
            done (entryAbort s2 site e 0x0402)
          else
            let set := intMacSet s1 site sl e
            done (fireInto s1 site sl e set (wideSats s1 site sl e set))
        else
          let r := floatMacSet s1 site e
          done (fireInto s1 site sl e r.1 r.2)
  | none => done s

/-- An OMAC at the head of the side class (R92). -/
def execOmacFire (site : Site) (slot : Nat) (weights : Ecc × Ecc) (parity : TileParity) (s : State) : Host.Outcome State Fault Refusal :=
  if !tileActs s site then done s else
  let t := tileOf s site
  match headOf tileKey t.board (slot, 1, 0) with
  | some e =>
    let sl := entrySlot t e
    let unit2 := (e.b + 1) % 24576
    if !arrayFree t e || !lineFilled t e.a || !reaches s (fireAt s site e / 8) then done s
    else if !unitSound t e.b || !unitSound t unit2 then done (stallOn s site [e.b, unit2])
    else if parity ≠ .clean then done (tileParity (fireTurn s site e) site [e.a] e.d parity)
    else
      match (weightRead (settleWrites (fireTurn s site e) site) site e.b weights.1).bind (fun x => weightRead x site unit2 weights.2) with
      | .error s1 => done s1
      | .ok s1 =>
        let t1 := tileOf s1 site
        let ws := floatWeights false (weightUnit t1 e.b) ++ floatWeights false (weightUnit t1 unit2)
        let r := rankOne e.clear 32 (sideOf_ t1 e.d) ((lanesOf (lineAt t1 e.a).data).map num16) ws
        let old := setOf t1 e.d
        let set := { old with owner := entryOwner t1 e, nextFire := nextFrom s1 site (fireAt s1 site e)
                              writtenBack := max old.writtenBack (backFrom s1 site (fireAt s1 site e)) }
        done (fireInto (setTile s1 site { t1 with side := amSet t1.side e.d r.1 }) site sl e set r.2)
  | none => done s

/-! ### The clip check and the wide path (R129 to R133) -/

/-- The set is to be replayed in the wide path, behind the replays that are under way. -/
def replaySet (s : State) (u : Site) (d : Nat) : State :=
  let t := tileOf s u
  let set := setOf t d
  let set1 := { set with isWide := true, wide := [], anyNarrow := false, checked := true, todo := set.log }
  setTile s u { t with sets := amSet t.sets d set1, replays := t.replays.filter (fun x => decide (x ≠ d)) ++ [d] }

def passSet (s : State) (u : Site) (d : Nat) : State :=
  let t := tileOf s u
  setTile s u { t with sets := amSet t.sets d { setOf t d with checked := true, lines := [] } }

/-- The DRAIN of a slot that fires next: the first that has not begun to send; DRAINs on one port follow each other back to back
(the worked example behind R109). -/
def drainHead (t : MatrixTile) (slot : Nat) : Option Issued := t.board.find? (fun e => tileKey e == (slot, 3, 0) && !e.fired)

/-- The set that a DRAIN names is due for its clip check (R129): it has had none since its last MAC, every MAC issued into it before the DRAIN has fired
and writes back at a fc the halyard may reach, and every line that they read has been counted. -/
def checkDue (s : State) (t : MatrixTile) (sl : Slot) (e : Issued) : Bool :=
  let set := setOf t e.d
  !set.checked && !earlier t.board e (fun x => opCode x.op == 2 && x.d == e.d) && !earlier t.board e (fun x => opCode x.op == 4 && x.d == e.d)
    && !(sl.clips.take set.ordEnd).any (·.isNone) && reaches s (backFc set)

/-- The DRAIN of a slot whose set is checked next: of those that are due the first to have written back, and of those the first issued. -/
def checkNext (s : State) (t : MatrixTile) (slot : Nat) (sl : Slot) : Option Issued :=
  (t.board.filter (fun e => tileKey e == (slot, 3, 0) && !e.fired && checkDue s t sl e)).foldl (fun best e =>
    match best with
    | none => some e
    | some b => if max s.now (backFc (setOf t e.d)) < max s.now (backFc (setOf t b.d)) then some e else best) none

/-- The clip check of a set that a DRAIN of the slot names. -/
def execClipCheck (site : Site) (slot : Nat) (s : State) : Host.Outcome State Fault Refusal :=
  if !tileActs s site || !isInt s site then done s else
  let t := tileOf s site
  match slotAt t.slots slot with
  | none => done s
  | some sl =>
    match checkNext s t slot sl with
    | none => done s
    | some e =>
      let set := setOf t e.d
      let s1 := advance s (backFc set)
      let n := clipTotals sl set.ordEnd
      if sl.wide then done (if set.anyNarrow then replaySet s1 site e.d else passSet s1 site e.d)
      else if clipThreshold s site * n.1 < n.2 * 65536 then
        if rerunOn s site then
          let s2 := putTile s1 site { tileOf s1 site with slots := setSlot t.slots slot { sl with wide := true } }
          let s3 := countEvent (countUnit s2 site 4 1) 0x0A site (some sl.stream) 0 0 false
          let s4 := traceNow s3 0x0014 site (some sl.stream) (dw sl.frame) (slot + e.d * 2 ^ 8) n.2 n.1
          done (replaySet s4 site e.d)
        else done (passSet (countUnit s1 site 5 1) site e.d)
      else done (passSet s1 site e.d)

/-! ### DRAIN (R104, R106, R126, R127, R132) -/

/-- The columns of a DRAIN, with the saturations of its combined scales. -/
def drainColumns (s : State) (u : Site) (sl : Slot) (e : Issued) : List Column × Nat :=
  let t := tileOf s u
  let set := setOf t e.d
  if isInt s u then
    let side (x o : Nat) : Option Dword := if outlierOn s u then some (lget (sideOf_ t e.d) (32 * x + o) 0) else none
    if set.isWide && !set.anyNarrow then
      let w := wideCells (datapath s u == 1) (drainZeros t sl e) set.wide
      ((List.range 32).map (fun o => columnOf (fun x => wideLane (lget w.1 (32 * x + o) 0) (side x o) (drainEntry t sl e o))), 0)
    else
      ((List.range 32).map (fun o => columnOf (fun x => narrowLane set (side x o) x o (drainEntry t sl e o))),
       ((List.range 32).map (fun o => scaleSaturates set o (drainEntry t sl e o))).sum)
  else
    ((List.range 16).map (fun o => columnOf (fun x => let r := enc16 (num32 (lget set.acc (16 * x + o) 0)); ⟨r.1, 0, r.2⟩)), 0)

/-- A DRAIN whose conditions are met: its beats stand at its port, behind those of earlier DRAINs, G fc from now, one per fc. -/
def execDrainFire (site : Site) (slot : Nat) (parity : TileParity) (s : State) : Host.Outcome State Fault Refusal :=
  if !tileActs s site then done s else
  let t := tileOf s site
  match drainHead t slot, slotAt t.slots slot with
  | some e, some sl =>
    let set := setOf t e.d
    let port := dbits e.op 8 7
    let busy := earlier t.board e (fun x => (opCode x.op == 2 || opCode x.op == 3) && x.d == e.d)
      || earlier t.board e (fun x => opCode x.op == 4 && dbits x.op 8 7 == port && !x.fired)
    if busy || (isInt s site && (!set.checked || !set.todo.isEmpty)) || !reaches s (backFc set) then done s
    else if parity ≠ .clean then done (tileParity (advance s (backFc set)) site [] e.d parity)
    else
      let s1 := advance s (backFc set)
      let cols := drainColumns s1 site sl e
      let last := dbit e.op 22 && [e.c0, e.c1, e.c2, e.c3].getD (opLevel e.op) 0 + 1 == (tileLimits s site).getD (opLevel e.op) 1
      let n := cols.1.length
      let s2 := cols.1.zipIdx.foldl (fun st p =>
        pushOut st ⟨site, port⟩ { beat := mkBeat tyData e.tag sl.stream last false p.1.data, notBefore := s1.now + Config.latG + p.2,
                                  entry := some e.id, last := p.2 + 1 == n, sats := p.1.sent }) s1
      let t2 := tileOf s2 site
      let s3 := putTile s2 site { t2 with board := modEntry t2.board e.id (fun x => { x with fired := true }) }
      done (countSat s3 site (cols.2 + (cols.1.map (·.formed)).sum))
  | _, _ => done s

/-- A beat of a tile's output has left: its DRAIN counts as firing (R109), lanes that saturated count (R89), and the last beat frees the entry. -/
def tileBeatSent (s : State) (u : Site) (o : OutBeat) : State :=
  match o.entry with
  | none => s
  | some id =>
    let t := tileOf s u
    let s1 := countSat s u o.sats
    if o.last then tileSettle (putTile s1 u { t with board := dropEntry t.board id }) u
    else setTile s1 u { t with board := modEntry t.board id (fun e => { e with headSince := s.now }) }

/-! ### FETCH, WAIT, RELEASE (R106, R107, R133, R208 to R211) -/

/-- A FETCH fires when its queue holds fewer than 8; the request reaches the queue Qr fc later, and is offered again while it is refused (R209). -/
def execFetchFire (site : Site) (slot : Nat) (s : State) : Host.Outcome State Fault Refusal :=
  if !tileActs s site then done s else
  let t := tileOf s site
  match headOf tileKey t.board (slot, 4, 0) with
  | some e =>
    let q := queueOf s (fetchQueue e.op)
    if opCode e.op ≠ 5 ∨ 8 ≤ q.grants.length then done s
    else
      let n := dbits e.op 24 17 + 1
      let offer : Grant := { tile := site, slot := slot, stream := e.stream, frame := e.frame, count := n, left := n, number := 0, due := s.now + Config.latQr }
      let s1 := setQueue s (fetchQueue e.op) { q with fetchOffers := q.fetchOffers ++ [offer] }
      let rec_ : FetchRec := { queue := fetchQueue e.op, slot := slot, id := e.id, frame := e.frame, first := e.f, count := n, asked := n }
      done (tileSettle (putTile s1 site { t with board := dropEntry t.board e.id, fetches := t.fetches ++ [rec_] }) site)
  | none => done s

/-- Beats of a FETCH that stand in the write buffer. -/
def bufferedOf (t : MatrixTile) (f : FetchRec) : Nat := (t.writeBuf.filter (fun w => w.queue == f.queue && w.id == f.id)).length

/-- A returned beat at a fetch port is written for the oldest open FETCH on its queue; while the write buffer is full the tile takes none (R95). -/
def execFetchBeatWrite (site : Site) (port : Nat) (s : State) : Host.Outcome State Fault Refusal :=
  let s0 := settleWrites s site
  if !tileActs s site || !isFetchPort s site port then done s
  else if 8 ≤ (tileOf s0 site).writeBuf.length then done s0 else
  match linkProducer s0 ⟨site, port⟩, takeBeat s0 ⟨site, port⟩ (fun b => bType b == tyData) with
  | some prod, some (b, s1) =>
    let q := sitePort prod.site * 8 + prod.port
    let t := tileOf s1 site
    (match t.fetches.find? (fun f => f.queue == q && decide (f.written + bufferedOf t f < f.count)) with
     | none => done s1
     | some f =>
       let beat := (f.first + f.written + bufferedOf t f) % 12288
       let due := writeCycle s1 site beat
       let w : FetchWrite := ⟨beat, b.data, due, q, f.id, bStream b⟩
       done (settleWrites (setTile s1 site { t with writeBuf := t.writeBuf ++ [w] }) site))
  | _, _ => done s

/-- A WAIT completes once every beat of its slot's earlier FETCHes on the queue is written. -/
def execWaitComplete (site : Site) (slot : Nat) (s0 : State) : Host.Outcome State Fault Refusal :=
  if !tileActs s0 site then done s0 else
  let s := settleWrites s0 site
  let t := tileOf s site
  match headOf tileKey t.board (slot, 4, 0) with
  | some e =>
    if opCode e.op ≠ 6 ∨ t.fetches.any (fun f => f.slot == slot && f.queue == fetchQueue e.op && decide (f.id < e.id)) then done s
    else done (tileSettle (putTile s site { t with board := dropEntry t.board e.id }) site)
  | none => done s

/-- Lines of a RELEASE. -/
def releaseLines (e : Issued) : List Nat := (List.range (dbits e.op 17 8 + 1)).map (fun k => (e.a + k) % 1024)

/-- A RELEASE clears the filled bits of lines whose readers have fired and whose clip check has passed, which after a replay is when its last wide MAC
has fired (R133). A line that is still to be numbered is held until it is (R118). -/
def execReleaseFire (site : Site) (slot : Nat) (s : State) : Host.Outcome State Fault Refusal :=
  if !tileActs s site then done s else
  let t := tileOf s site
  match headOf tileKey t.board (slot, 4, 0) with
  | some e =>
    let ls := releaseLines e
    let hits (l : List Nat) : Bool := l.any (fun i => ls.contains i)
    let reads (x : Issued) : Bool := (opCode x.op == 2 && hits (macLines s site x)) || (opCode x.op == 3 && hits [x.a])
    let readers := if isInt s site then t.sets.filter (fun p => hits p.2.lines) else []
    let held (l : StagingLine) : Bool := l.filled && decide (l.slot < 4) && l.ord.isNone
    if opCode e.op ≠ 7 ∨ earlier t.board e reads ∨ readers.any (fun p => !p.2.checked || !p.2.todo.isEmpty) ∨ (isInt s site ∧ ls.any (fun i => held (lineAt t i))) then done s
    else done (tileSettle (putTile s site { t with board := dropEntry t.board e.id, staging := t.staging.filter (fun p => !ls.contains p.1) }) site)
  | none => done s

/-! ### Watchdog (R109) -/

/-- The expiry of an operation's watchdog. While the tile is stopped by a rewrite (R76, R96) the expiry is held off: DESIGN CHOICE
(notes/assumptions/71.md), R109 excludes halted fc alone. -/
def tileWatchdog (s : State) (u : Site) (slot index : Nat) : State :=
  let t := tileOf s u
  match t.board.find? (fun e => e.slot == slot && e.index == index && isHead tileKey t.board e) with
  | some e =>
    if watchdogLog s u < 10 ∨ !reaches s (watchEnd e.headSince (watchdogLog s u)) then s
    else
      let s1 := advance s (watchEnd e.headSince (watchdogLog s u))
      tileAbortAll (fault s1 0x0320 4 u (dw (index + slot * 2 ^ 4)) 0) u 0x0321
  | none => s

/-! ### Weight scrub and rewrite (R96) -/

/-- A fetch beat has been written since the scrub pass began. -/
def writtenInPass (t : MatrixTile) (beat : Nat) : Bool := t.passWrites.any (fun p => decide (p.1 ≤ beat) && decide (beat < p.1 + p.2))

/-- The scrubber has read a word: the next is due 16 fc later, and the pass begins anew behind the last. -/
def scrubStep (t : MatrixTile) (word : Nat) (at_ : Fc) : MatrixTile :=
  { t with scrubWord := (word + 1) % 98304, scrubFc := at_ + 16, passWrites := if word + 1 = 98304 then [] else t.passWrites }

/-- The scrubber reads the next word, unless the word has been written in the same pass. It stands still with the clocks of its sector (R391). -/
def execWeightScrub (site : Site) (word : Nat) (found : Ecc) (s : State) : Host.Outcome State Fault Refusal :=
  let t := tileOf s site
  if siteKind site ≠ 0 ∨ !sitePresent site ∨ word ≠ t.scrubWord ∨ (sectorOf s (siteSector site)).state ≠ .active ∨ s.hal.stopped ∨ !reaches s t.scrubFc then done s else
  let bank := 4 * (word / 4 % 4) + word % 4
  let s0 := advance s t.scrubFc
  let s1 := setTile s0 site (scrubStep t word s0.now)
  if writtenInPass t (word / 8) then done s1
  else match found with
  | .good => done s1
  | .single => done (fault s1 0x0301 0 (siteWithSub site bank) 0 0)
  | .uncorrectable => done (startRewrite s1 site bank (word / 8) false)

/-- Where the image keeps fetch beat b of a tile: the DPA of the line. -/
def beatHome (img : Image) (u : Site) (b : Nat) : Option Nat :=
  (img.weights.find? (fun w => w.2.1 == u && decide (w.2.2.1 ≤ b) && decide (b < w.2.2.1 + w.2.2.2.2))).map
    (fun w => img.imageBase + w.2.2.2.1 + 64 * (b - w.2.2.1))

/-- Copies of a line: its own, and the mirror's. -/
def lineCopies (s : State) (img : Image) (dpa : Nat) : Bool × Bool :=
  let good (a : Nat) : Bool := !s.feed.poisoned.contains a && (channelOf s (a / 64 % Config.channels)).state != .lost
  (good dpa, img.mirrored && good (dpa + (img.mirrorBase - img.imageBase)))

/-- Where a fetch beat of a tile is read again from: the line it was fetched from at run time, or its place in the image region (R96). -/
def rewriteHome (s : State) (u : Site) (b : Nat) : Option Nat :=
  (amGet (tileOf s u).homes b).or ((activeImage s).bind (fun img => beatHome img u b))

/-- The rewrite ends: from the image region (0x0302), from the mirror where that cannot be read (0x0303), or not at all (0x0304). The records carry
the fc of detection. -/
def execWeightRewriteDone (site : Site) (region : Nat) (rechecked : Bool) (s : State) : Host.Outcome State Fault Refusal :=
  let t := tileOf s site
  match t.rewriting.find? (fun r => r.region == region) with
  | none => done s
  | some r =>
    let homes : List (Nat × Nat) := (List.range' (64 * region) 64).filterMap (fun b => (rewriteHome s site b).map (fun a => (b, a)))
    let copies := match activeImage s with | some img => homes.map (fun (h : Nat × Nat) => lineCopies s img h.2) | none => []
    let s1 := setTile s site { t with rewriting := t.rewriting.filter (fun x => decide (x.region ≠ region)),
                                      stalledOn := t.stalledOn.filter (fun x => decide (x ≠ region)) }
    if !rechecked || (rewriteHome s site r.beat).isNone || copies.any (fun c => !c.1 && !c.2) then done (tileLost s1 site 0x0304 (siteWithSub site r.bank))
    else
      let w := homes.foldl (fun (m : Mem) (h : Nat × Nat) => memSetLine m (64 * h.1) (memLine s.feed.lpddr h.2)) t.weights
      let s2 := setTile s1 site { tileOf s1 site with weights := w, passWrites := (tileOf s1 site).passWrites ++ homes.map (fun h => (h.1, 1)) }
      done (faultAt s2 (if copies.any (fun c => !c.1) then 0x0303 else 0x0302) 0 (siteWithSub site r.bank) none noFrame 0 0 r.found)

end Sys2Proof.Machine
end

