-- ==== Sys2Proof/Machine/VectorTile.lean ====
section
/-! DEFINITION. The vector tile (spec/05_vector_window_glue.md R141 to R150, R163, R166), over the sequencer of Machine/Nest.lean. -/

namespace Sys2Proof.Machine

/-! ### Words (R141, R145) -/

def vecOps (s : State) (u : Site) : List Dword := opsBeforeEnd ((List.range 16).map (fun i => cfgDw s u (23 + i)))
def vecLimits (s : State) (u : Site) : List Nat := limitsOf (cfgDw s u 9) (cfgDw s u 10)
def vecSlotsUsed (s : State) (u : Site) : Nat := dbits (cfgDw s u 21) 2 0
def vecFramePort (s : State) (u : Site) : Nat := dbits (cfgDw s u 21) 6 4
def vecWatchdog (s : State) (u : Site) : Nat := dbits (cfgDw s u 21) 12 8
def constBase (s : State) (u : Site) : Nat := dbits (cfgDw s u 22) 10 0

def vopPort (op : Dword) : Nat := dbits op 9 7
def vopPack (op : Dword) : Bool := dbit op 10
def vopCount (op : Dword) : Nat := dbits op 20 11 + 1

/-- Load, send, lane and table classes of a slot (R146). -/
def vecKey (e : Issued) : ClassKey :=
  match opCode e.op with
  | 1 => (e.slot, 0, 0)
  | 2 => (e.slot, 1, 0)
  | 4 => (e.slot, 3, 0)
  | _ => (e.slot, 2, 0)

def putVec (s : State) (u : Site) (t : VectorTile) : State :=
  setVtile s u { t with board := markHeads vecKey (vtileOf s u).board t.board s.now }

def vecActs (s : State) (u : Site) : Bool := siteKind u == 1 && unitUsed s u && unitWorks s u

def vecIns (s : State) (u : Site) : List EndPoint := endsOf u (inPorts s u)
def vecOuts (s : State) (u : Site) : List EndPoint := endsOf u (outPorts s u)

/-! ### Entries (R142, R145) -/

def entryOf (t : VectorTile) (i : Nat) : List Dword := amGetD t.scratch i (List.replicate 64 0)

/-- Entry k after the one at a generator's address: the offset within the slot's partition wraps at the generator's modulus. -/
def vecEntry (s : State) (u : Site) (g wrapLog slot a k : Nat) : Nat :=
  let m := if wrapLog = 0 then 1024 else 2 ^ wrapLog
  let b := slot * dbits (cfgDw s u g) 31 16 % 1024
  let off := (a + 1024 - b) % 1024
  (b + (off + k) % m) % 1024

/-- Entries that a load or a send has still to touch: of the beats from `progress` on. -/
def beatEntries (s : State) (u : Site) (g wrapLog : Nat) (e : Issued) (a : Nat) : List Nat :=
  dedup ((List.range' e.progress (vopCount e.op - e.progress)).map
    (fun k => vecEntry s u g wrapLog e.slot a (if vopPack e.op then k / 2 else k)))

def wrapA (s : State) (u : Site) : Nat := dbits (cfgDw s u 20) 4 0
def wrapD (s : State) (u : Site) : Nat := dbits (cfgDw s u 20) 20 16

/-- Entries that an operation has still to write, and to read. -/
def vecWrites (s : State) (u : Site) (e : Issued) : List Nat :=
  match opCode e.op with
  | 1 => beatEntries s u 17 (wrapD s u) e e.d
  | 2 => []
  | _ => [e.d]

def vecReads (s : State) (u : Site) (e : Issued) : List Nat :=
  match opCode e.op with
  | 1 => []
  | 2 => beatEntries s u 11 (wrapA s u) e e.a
  | 3 =>
    let op := dbits e.op 10 7
    if op ≤ 2 ∨ op = 4 ∨ op = 5 then [e.a, e.b] else if op = 3 then [e.a, e.b, e.d] else [e.a]
  | _ => [e.a]

/-- No earlier operation has still to write what e touches, nor to read what it writes (R146). -/
def vecFree (s : State) (u : Site) (t : VectorTile) (e : Issued) : Bool :=
  let rs := vecReads s u e
  let ws := vecWrites s u e
  !earlier t.board e (fun x => (vecWrites s u x).any (fun i => rs.contains i || ws.contains i) || (vecReads s u x).any ws.contains)

/-- The RCLK cycle by which every fired operation's write to these entries is back. -/
def readyBy (t : VectorTile) (l : List Nat) : Nat := l.foldl (fun m i => max m (amGetD t.ready i 0)) 0

/-! ### Slots (R144, R163) -/

def vecUnbind (s : State) (u : Site) (k code : Nat) : State :=
  let t := vtileOf s u
  match slotAt t.slots k with
  | none => s
  | some sl =>
    let s1 := putVec s u { t with slots := t.slots.set k none, board := boardLeft k code t.board }
    let s2 := if code = 0 then countUnit s1 u 0 1 else s1
    traceNow s2 0x0013 u (some sl.stream) (dw sl.frame) k code 0

/-- A slot unbinds when its nest is complete and its last VSEND has sent its last beat (R102, R144). A lane or table operation that is left does not
hold it; a VLOAD does (DEDUCED, notes/assumptions/44.md). -/
def vecSettle (s : State) (u : Site) : State :=
  (List.range 4).foldl (fun st k =>
    let t := vtileOf st u
    match slotAt t.slots k with
    | some sl => if sl.nestDone && !t.board.any (fun e => ofSlot k sl e && decide (opCode e.op ≤ 2)) then vecUnbind st u k 0 else st
    | none => st) s

def vecGiveUp (s : State) (u : Site) (k code : Nat) : State :=
  match slotAt (vtileOf s u).slots k with
  | none => s
  | some sl => discardOn (voidOn (vecUnbind s u k code) (vecOuts s u) sl.stream sl.frame sl.tack code) (vecIns s u) sl.stream sl.frame

def vecAbort (s : State) (u : Site) (k code : Nat) : State :=
  match slotAt (vtileOf s u).slots k with
  | none => s
  | some sl => vecGiveUp (abortRecord s code u sl.stream sl.frame 0 0) u k code

def vecAbortAll (s : State) (u : Site) (code : Nat) : State := (List.range 4).foldl (fun st k => vecAbort st u k code) s

def vecSlotsOf (s : State) (u : Site) (st frame : Nat) : List Nat :=
  (List.range 4).filter (fun k => match slotAt (vtileOf s u).slots k with | some sl => sl.stream == st && sl.frame == frame | none => false)

/-- A tack line at the head of the frame port. -/
def vecBind (s : State) (u : Site) : State :=
  let e : EndPoint := ⟨u, vecFramePort s u⟩
  let t := vtileOf s u
  match (inBuf s e).head? with
  | none => s
  | some b =>
    if !isOpenTack b || bindStopped s u then s
    else if unitState s u = .enabled then
      match (List.range (vecSlotsUsed s u)).find? (fun k => (slotAt t.slots k).isNone) with
      | none => s
      | some k =>
        match takeBeat s e (fun _ => true) with
        | none => s
        | some (_, s1) =>
          let s2 := (vecOuts s u).foldl (fun x o => sendOpen x o b) s1
          let sl : Slot := { stream := bStream b, frame := tackFrame b, tack := tackInfo b }
          let s3 := setVtile s2 u { vtileOf s2 u with slots := t.slots.set k (some sl) }
          traceNow s3 0x0012 u (some sl.stream) (dw sl.frame) k 0 0
    else
      match takeBeat s e (fun _ => true) with
      | none => s
      | some (_, s1) => frameAtDisabled s1 u b (vecOuts s u) (vecIns s u) 0x0530

/-! ### Issue -/

def vecIssued (s : State) (u : Site) (t : VectorTile) (k i : Nat) (sl : Slot) : Issued :=
  let op := cfgDw s u (23 + i)
  let wrap := cfgDw s u 20
  let gen (g w : Nat) : Nat := genAddress (cfgDw s u) g w 1024 k (opLevel op) (countersOf sl)
  { id := t.nextId, slot := k, stream := sl.stream, frame := sl.frame, index := i, op := op, tag := sl.lastTag,
    a := gen 11 (dbits wrap 4 0), b := gen 14 (dbits wrap 12 8), d := gen 17 (dbits wrap 20 16),
    c0 := sl.c0, c1 := sl.c1, c2 := sl.c2, c3 := sl.c3 }

/-- The sequencer, at most one operation per ac (R146). -/
def vecIssue (s : State) (u : Site) : State :=
  let ops := vecOps s u
  let lims := vecLimits s u
  let t0 := vtileOf s u
  if 32 ≤ t0.board.length then s else
  let t := { t0 with slots := t0.slots.map (fun o => o.map (settleNest ops lims)) }
  match nextIssuer ops lims t.slots t.lastSlot with
  | none => vecSettle (putVec s u t) u
  | some (k, i) =>
    let c := issueAt s t.nextIssue
    match slotAt t.slots k with
    | none => s
    | some sl =>
      if !reaches s (c / 8) then s
      else
        let s1 := advance s (c / 8)
        let e := vecIssued s1 u t k i sl
        let sl1 := settleNest ops lims { sl with opIdx := i + 1 }
        putVec s1 u { t with slots := setSlot t.slots k sl1, board := t.board ++ [e], nextId := t.nextId + 1, lastSlot := k,
                             nextIssue := c + acRclk s u }

/-! ### VLOAD (R103, R143, R145) -/

/-- The oldest beat of a stream that a VLOAD may look at. -/
def vloadView (s : State) (u : Site) (port st : Nat) : Option Beat :=
  let buf := inBuf s ⟨u, port⟩
  let seen := if port = vecFramePort s u then buf.takeWhile (fun b => !isTack b) else buf
  seen.find? (fun b => bStream b == st && decide (bType b ≤ 2))

def widenLanes (d : BitVec 512) : List Dword := (lanesOf d).map widen16

/-- An entry after beat k of a VLOAD. -/
def loadedEntry (pack : Bool) (k : Nat) (old : List Dword) (d : BitVec 512) : List Dword :=
  if !pack then widenLanes d ++ List.replicate 32 0
  else if k % 2 = 0 then widenLanes d ++ old.drop 32
  else old.take 32 ++ widenLanes d

/-- A VLOAD at the head of the load class moves one beat; on a port other than the frame port a tack line of its stream goes first. -/
def execVloadBeat (site : Site) (slot : Nat) (s : State) : Host.Outcome State Fault Refusal :=
  if !vecActs s site then done s else
  let t := vtileOf s site
  match headOf vecKey t.board (slot, 0, 0), slotAt t.slots slot with
  | some e, some sl =>
    let port := vopPort e.op
    (match vloadView s site port sl.stream with
     | none => done s
     | some b =>
       let i := vecEntry s site 17 (wrapD s site) slot e.d (if vopPack e.op then e.progress / 2 else e.progress)
       let at_ := if isTack b then 0 else ceilDiv (amGetD t.ready i 0) 8
       if isVoidTack b || (!isTack b && !vecFree s site t e) || !reaches s at_ then done s
       else match takeBeat s ⟨site, port⟩ (fun x => x == b) with
         | none => done s
         | some (_, s0) =>
           if isTack b then
             done (if tackFrame b = sl.frame then s0 else faultFrame s0 0x0507 4 (siteWithSub site port) sl.stream (tackFrame b) 0 0)
           else
             let k := e.progress
             let s1 := advance s0 at_
             let t1 := { t with scratch := amSet t.scratch i (loadedEntry (vopPack e.op) k (entryOf t i) b.data),
                                slots := setSlot t.slots slot { sl with lastTag := bTag b },
                                board := if k + 1 = vopCount e.op then dropEntry t.board e.id
                                  else modEntry t.board e.id (fun x => { x with progress := k + 1, headSince := s1.now }) }
             done (vecSettle (putVec s1 site t1) site))
  | _, _ => done s

/-! ### Scratch checks (R142, R166) -/

/-- The source entry that a check's finding names: with several sources, which of them is the outside's. -/
def damagedEntry (s : State) (l : List Nat) : Nat := l.getD ((Config.free32 s.fresh).toNat % max 1 l.length) 0

/-- An entry of the working region cannot be read: it is cleared, and the frame that the operation was issued for is aborted; an operation whose slot
has unbound goes. -/
def workingLost (s : State) (u : Site) (e : Issued) (i : Nat) : State :=
  let t := vtileOf s u
  let bound := match slotAt t.slots e.slot with | some sl => ofSlot e.slot sl e | none => false
  let s1 := if bound then vecAbort s u e.slot 0x0502
    else putVec (fault s 0x0502 1 u 0 0) u { t with board := dropEntry t.board e.id }
  let t1 := vtileOf s1 u
  setVtile s1 u { t1 with scratch := amErase t1.scratch i }

/-- What the reads of an operation's entries find: the state to go on in, or the state of the abort or stall. -/
def scratchRead (s : State) (u : Site) (e : Issued) (l : List Nat) (found : Ecc) : Except State State :=
  match found with
  | .good => .ok s
  | .single => .ok (fault s 0x0501 0 u 0 0)
  | .uncorrectable =>
    let i := damagedEntry s l
    let s1 := drawn s
    if i < constBase s u then .error (workingLost s1 u e i)
    else
      let s2 := fault s1 0x0503 0 u 0 0
      let t2 := vtileOf s2 u
      .error (setVtile s2 u { t2 with rewriting := addNew t2.rewriting (i / 16) })

/-! ### VSEND (R143 to R146) -/

/-- The 32 lanes of beat k of a VSEND, narrowed, with the saturations. -/
def sentLanes (pack : Bool) (k : Nat) (entry : List Dword) : BitVec 512 × Nat :=
  let half := if pack && k % 2 == 1 then entry.drop 32 else entry.take 32
  let c := columnOf (fun j => let r := enc16 (num32 (lget half j 0)); ⟨r.1, 0, r.2⟩)
  (c.data, c.sent)

/-- A VSEND at the head of the send class sends one beat, when a credit is there. -/
def execVsendBeat (site : Site) (slot : Nat) (found : Ecc) (s : State) : Host.Outcome State Fault Refusal :=
  if !vecActs s site then done s else
  let t := vtileOf s site
  match headOf vecKey t.board (slot, 1, 0), slotAt t.slots slot with
  | some e, some sl =>
    let out : EndPoint := ⟨site, vopPort e.op⟩
    let k := e.progress
    let i := vecEntry s site 11 (wrapA s site) slot e.a (if vopPack e.op then k / 2 else k)
    let at_ := ceilDiv (amGetD t.ready i 0) 8
    if !vecFree s site t e || !(outQ s out).isEmpty || !reaches s at_ || !maySend (advance s at_) out then done s
    else
      match scratchRead (advance s at_) site e [i] found with
      | .error s1 => done s1
      | .ok s1 =>
        let r := sentLanes (vopPack e.op) k (entryOf t i)
        let fin := k + 1 == vopCount e.op
        let b := mkBeat tyData e.tag sl.stream (fin && dbit e.op 21) (dbit e.op 22) r.1
        let s2 := pushOut s1 out { beat := b, entry := some e.id, last := fin }
        let t2 := vtileOf s2 site
        let s3 := putVec s2 site { t2 with board := modEntry t2.board e.id (fun x => { x with progress := k + 1, fired := fin, headSince := s2.now }) }
        done (countUnit s3 site 1 r.2)
  | _, _ => done s

/-- A beat of a vector tile's output has left: the last of a VSEND frees its entry. -/
def vecBeatSent (s : State) (u : Site) (o : OutBeat) : State :=
  let t := vtileOf s u
  match o.entry with
  | some id => if o.last then vecSettle (putVec s u { t with board := dropEntry t.board id }) u else s
  | none => s

/-! ### Lane operations (R143, R145, R150) -/

def max32r (a b : Dword) : Dword :=
  if isNan32 a || isNan32 b then nan32
  else if numIsZero (num32 a) && numIsZero (num32 b) then (if numIsNeg (num32 a) && numIsNeg (num32 b) then 0x80000000 else 0)
  else if numLt (num32 a) (num32 b) then flush32 b else flush32 a

def min32r (a b : Dword) : Dword :=
  if isNan32 a || isNan32 b then nan32
  else if numIsZero (num32 a) && numIsZero (num32 b) then (if numIsNeg (num32 a) || numIsNeg (num32 b) then 0x80000000 else 0)
  else if numLt (num32 b) (num32 a) then flush32 b else flush32 a

/-- A sign operation under the special cases of R91. -/
def signLane (f : Dword → Dword) (a : Dword) : Dword :=
  match num32 a with
  | .fin _ _ _ => f (flush32 a)
  | _ => nan32

/-- One lane of a VOP: the result, and whether it saturated. -/
def vopLane (op : Nat) (a b d : Dword) : Dword × Bool :=
  match op with
  | 0 => add32 a b
  | 1 => sub32 a b
  | 2 => mul32 a b
  | 3 => enc32 (numAdd (numMul (num32 a) (num32 b)) (num32 d))
  | 4 => (max32r a b, false)
  | 5 => (min32r a b, false)
  | 6 => (signLane (fun x => x &&& 0x7FFFFFFF) a, false)
  | 7 => (signLane neg32 a, false)
  | 8 => (signLane id a, false)
  | _ => (max32r a 0, false)

/-- Operand B of a VOP: lane for lane, or one lane of the entry to all. -/
def vopB (e : Issued) (entry : List Dword) (j : Nat) : Dword :=
  if dbit e.op 11 then lget entry ((dbits e.op 17 12 + [e.c0, e.c1, e.c2, e.c3].getD (dbits e.op 19 18) 0) % 64) 0 else lget entry j 0

/-- The RCLK cycle in which an operation of the lane or table class fires: its hardware is free, and what it touches is written back. -/
def vecFireAt (s : State) (u : Site) (e : Issued) : Nat :=
  let t := vtileOf s u
  max (8 * s.now) (max (if opCode e.op = 4 then t.tableUntil else t.laneUntil) (readyBy t (e.d :: vecReads s u e)))

/-- A fired operation's result: the entry, its write-back, its place on the scoreboard, the saturations. A lane operation takes 1 ac of its
hardware, a VFUNC 2 ac. -/
def vecFired (s : State) (u : Site) (e : Issued) (lanes : List Dword) (sats ac : Nat) : State :=
  let t := vtileOf s u
  let start := vecFireAt s u e
  let table := opCode e.op == 4
  let t1 := { t with scratch := amSet t.scratch e.d lanes, ready := amSet t.ready e.d (start + ac * acRclk s u), board := dropEntry t.board e.id,
                     laneUntil := if table then t.laneUntil else start + acRclk s u,
                     tableUntil := if table then start + 2 * acRclk s u else t.tableUntil }
  vecSettle (countUnit (putVec s u t1) u 1 sats) u

/-- An operation of the lane or table class fires: hazards, the reads' checks, then its lanes. -/
def vecFire (s : State) (site : Site) (slot cls code : Nat) (found : Ecc) (ac : Nat) (f : VectorTile → Issued → List Dword × Nat) :
    Host.Outcome State Fault Refusal :=
  if !vecActs s site then done s else
  let t := vtileOf s site
  match headOf vecKey t.board (slot, cls, 0) with
  | some e =>
    if opCode e.op ≠ code || !vecFree s site t e || !reaches s (vecFireAt s site e / 8) then done s
    else
      let rs := vecReads s site e
      match scratchRead (advance s (vecFireAt s site e / 8)) site e rs found with
      | .error s1 => done s1
      | .ok s1 => let r := f t e; done (vecFired s1 site e r.1 r.2 ac)
  | none => done s

/-- 64 lanes of a lane function, with the saturations. -/
def lanes64 (f : Nat → Dword × Nat) : List Dword × Nat :=
  let l := (List.range 64).map f
  (l.map (·.1), (l.map (·.2)).foldl (· + ·) 0)

def vopResult (t : VectorTile) (e : Issued) : List Dword × Nat :=
  let a := entryOf t e.a
  let b := entryOf t e.b
  let d := entryOf t e.d
  lanes64 (fun j => let r := vopLane (dbits e.op 10 7) (lget a j 0) (vopB e b j) (lget d j 0); (r.1, b2n r.2))

def execVopFire (site : Site) (slot : Nat) (found : Ecc) (s : State) : Host.Outcome State Fault Refusal :=
  vecFire s site slot 2 3 found Config.latLv vopResult

def vfuncResult (t : VectorTile) (e : Issued) : List Dword × Nat :=
  let a := entryOf t e.a
  lanes64 (fun j => vfuncLane (dbits e.op 9 7) (lget a j 0))

def execVfuncFire (site : Site) (slot : Nat) (found : Ecc) (s : State) : Host.Outcome State Fault Refusal :=
  vecFire s site slot 3 4 found Config.latLt vfuncResult

/-- Kinds 0, 1 and 2 are sum, max and min: the order in which R150 names their identities. DEDUCED (notes/assumptions/10.md). -/
def vredIdentity (kind : Nat) : Dword := match kind with | 0 => 0 | 1 => 0xFF800000 | _ => 0x7F800000

def vredPair (kind : Nat) (a b : Dword) : Dword × Bool :=
  match kind with
  | 0 => add32 a b
  | 1 => (max32r a b, false)
  | _ => (min32r a b, false)

/-- One level of the tree: elements 2k and 2k + 1 combine. Every addition of the tree that saturates counts once: R143 says 'each result' and does not
say whether a sum within the tree is one (DESIGN CHOICE, notes/assumptions/79.md). -/
def vredLevel (kind : Nat) : List Dword → List Dword × Nat
  | a :: b :: rest =>
    let r := vredPair kind a b
    let q := vredLevel kind rest
    (r.1 :: q.1, b2n r.2 + q.2)
  | _ => ([], 0)

/-- Six levels. -/
def vredTree (kind : Nat) : Nat → List Dword → Dword × Nat
  | 0, l => (l.headD 0, 0)
  | n + 1, l =>
    let q := vredLevel kind l
    let r := vredTree kind n q.1
    (r.1, q.2 + r.2)

def vredResult (t : VectorTile) (e : Issued) : List Dword × Nat :=
  let kind := dbits e.op 8 7
  let n := dbits e.op 14 9 + 1
  let a := entryOf t e.a
  let r := vredTree kind 6 ((List.range 64).map (fun j => if j < n then lget a j 0 else vredIdentity kind))
  (List.replicate 64 r.1, r.2)

def execVredFire (site : Site) (slot : Nat) (found : Ecc) (s : State) : Host.Outcome State Fault Refusal :=
  vecFire s site slot 2 5 found Config.latLred vredResult

/-! ### Watchdog and constant rewrite (R144, R166) -/

def vecWatch (s : State) (u : Site) (slot index : Nat) : State :=
  let t := vtileOf s u
  match t.board.find? (fun e => e.slot == slot && e.index == index && isHead vecKey t.board e) with
  | some e =>
    if vecWatchdog s u < 10 ∨ !reaches s (watchEnd e.headSince (vecWatchdog s u)) then s
    else
      let s1 := advance s (watchEnd e.headSince (vecWatchdog s u))
      vecAbortAll (fault s1 0x0520 4 u (dw (index + slot * 2 ^ 4)) 0) u 0x0521
  | none => s

/-- Constant entries of a region that the active image gives a tile. -/
def constantsOf (s : State) (u : Site) (region : Nat) : List (Nat × List Dword) :=
  match s.hal.active, activeImage s with
  | some h, some img =>
    ((img.constants.getD (hoistOf s h).section_ []).filter (fun p => p.1.1 == u && p.1.2 / 16 == region)).map (fun p => (p.1.2, p.2))
  | _, _ => []

def execConstantRewriteDone (site : Site) (region : Nat) (readable rechecked : Bool) (s : State) : Host.Outcome State Fault Refusal :=
  let t := vtileOf s site
  if siteKind site ≠ 1 ∨ !t.rewriting.contains region then done s else
  let s1 := setVtile s site { t with rewriting := t.rewriting.filter (fun r => decide (r ≠ region)) }
  if readable && rechecked then
    done (setVtile s1 site { vtileOf s1 site with scratch := (constantsOf s site region).foldl (fun m p => amSet m p.1 p.2) t.scratch })
  else done (vecAbortAll (loseUnit s1 0x0504 site 0 0) site 0x0530)

end Sys2Proof.Machine
end

