-- ==== Sys2Proof/Machine/WindowTile.lean ====
section
/-! DEFINITION. The window tile (spec/05_vector_window_glue.md R151 to R157, R163): line buffers, window rows and pooled rows. -/

namespace Sys2Proof.Machine

/-! ### Geometry (R151, R152) -/

/-- The words of a window tile, decoded. -/
structure WinCfg where
  op : Nat
  inter : Bool
  order : Nat
  divisor : Nat
  inPort : Nat
  slots : Nat
  watchdog : Nat
  w : Nat
  h : Nat
  chans : Nat
  rows : Nat
  kw : Nat
  kh : Nat
  sw : Nat
  sh : Nat
  dw_ : Nat
  dh : Nat
  padL : Nat
  padR : Nat
  padT : Nat
  padB : Nat
  stride : Nat
  padValue : BitVec 16
  outliers : List Nat

def winCfgOf (cfg : Nat → Dword) : WinCfg :=
  let d4 := cfg 4
  let d5 := cfg 5
  let d6 := cfg 6
  let d7 := cfg 7
  let d8 := cfg 8
  { op := dbits d4 2 1, inter := dbit d4 3, order := dbits d4 4 4, divisor := dbits d4 5 5, inPort := dbits d4 7 6, slots := dbits d4 18 16, watchdog := dbits d4 28 24
    w := dbits d5 15 0 + 1, h := dbits d5 31 16 + 1, chans := dbits d6 11 0 + 1, rows := dbits d6 17 12
    kw := dbits d7 3 0 + 1, kh := dbits d7 7 4 + 1, sw := dbits d7 9 8 + 1, sh := dbits d7 11 10 + 1, dw_ := dbits d7 13 12 + 1, dh := dbits d7 15 14 + 1
    padL := dbits d7 21 16, padR := dbits d7 27 22, padT := dbits d8 5 0, padB := dbits d8 11 6, stride := dbits d8 28 16
    padValue := BitVec.ofNat 16 (dbits (cfg 9) 15 0)
    outliers := (List.range 8).filterMap fun k =>
      let e := dbits (cfg (10 + k / 2)) (16 * (k % 2) + 15) (16 * (k % 2))
      if e / 2 ^ 15 = 1 then some (e % 4096) else none }

def winCfg (s : State) (u : Site) : WinCfg := winCfgOf (cfgDw s u)

def winKw (c : WinCfg) : Nat := (c.kw - 1) * c.dw_ + 1
def winKh (c : WinCfg) : Nat := (c.kh - 1) * c.dh + 1
def winWout (c : WinCfg) : Nat := (c.w + c.padL + c.padR - winKw c) / c.sw + 1
def winHout (c : WinCfg) : Nat := (c.h + c.padT + c.padB - winKh c) / c.sh + 1
/-- Beats of a planar input row of a channel. -/
def winBeats (c : WinCfg) : Nat := ceilDiv c.w 32
/-- Beats of an input quantization row. -/
def winRowBeats (c : WinCfg) : Nat := if c.inter then c.w * ceilDiv c.chans 32 else winBeats c
def winOutBeats (c : WinCfg) : Nat := ceilDiv (winWout c) 32
/-- Quantization rows of an output row. -/
def winOutRows (c : WinCfg) : Nat := if c.op = 0 then c.chans * c.kh * c.kw else c.chans

/-- Input row and column of a tap; negative or too great for a padding tap. -/
def tapRow (c : WinCfg) (r ky : Nat) : Int := (r * c.sh + ky * c.dh : Nat) - (c.padT : Int)
def tapCol (c : WinCfg) (x kx : Nat) : Int := (x * c.sw + kx * c.dw_ : Nat) - (c.padL : Int)
def tapIn (c : WinCfg) (r ky x kx : Nat) : Bool :=
  decide (0 ≤ tapRow c r ky) && decide (tapRow c r ky < c.h) && decide (0 ≤ tapCol c x kx) && decide (tapCol c x kx < c.w)

/-- Line-beat of a slot's channel, input row and beat. -/
def winLine (c : WinCfg) (k chan row b : Nat) : Nat := k * c.stride + (chan * c.rows + row % max 1 c.rows) * winBeats c + b

/-- The value of an input position. -/
def winValue (c : WinCfg) (t : WindowTile) (k chan row col : Nat) : BitVec 16 :=
  lane16 (amGetD t.lines (winLine c k chan row (col / 32)) 0) (col % 32)

/-! ### Slots (R156, R157) -/

def winActs (s : State) (u : Site) : Bool := siteKind u == 2 && unitUsed s u && unitWorks s u
def winIns (s : State) (u : Site) : List EndPoint := endsOf u (inPorts s u)
def winOuts (s : State) (u : Site) : List EndPoint := endsOf u (outPorts s u)

def winSlotAt (t : WindowTile) (k : Nat) : Option WinSlot := t.slots.getD k none

def winUnbind (s : State) (u : Site) (k code : Nat) : State :=
  let t := wtileOf s u
  match winSlotAt t k with
  | none => s
  | some sl =>
    let s1 := setWtile s u { t with slots := t.slots.set k none }
    let s2 := if code = 0 then countUnit s1 u 0 1 else s1
    traceNow s2 0x0013 u (some sl.stream) (dw sl.frame) k code 0

/-- Some output still holds a beat of slot k. -/
def winSending (s : State) (u : Site) (k : Nat) : Bool := (winOuts s u).any (fun e => (outQ s e).any (fun o => o.entry == some k))

/-- Rows of which every beat has left are emitted; a slot whose last output row is emitted unbinds, and the rest of its input is still taken
(R153, R156, R157). -/
def winSettle (s : State) (u : Site) : State :=
  let c := winCfg s u
  (List.range 4).foldl (fun st k =>
    let t := wtileOf st u
    match winSlotAt t k with
    | some sl0 =>
      let sl := if winSending st u k then sl0 else { sl0 with sentRows := sl0.outRow }
      let tails := if sl.inRow < c.h then t.tails ++ [sl] else t.tails
      if winHout c ≤ sl.sentRows then winUnbind (setWtile st u { t with tails := tails }) u k 0
      else setWtile st u { t with slots := t.slots.set k (some sl) }
    | none => st) s

def winGiveUp (s : State) (u : Site) (k code : Nat) : State :=
  match winSlotAt (wtileOf s u) k with
  | none => s
  | some sl => discardOn (voidOn (winUnbind s u k code) (winOuts s u) sl.stream sl.frame sl.tack code) (winIns s u) sl.stream sl.frame

def winAbort (s : State) (u : Site) (k code : Nat) : State :=
  match winSlotAt (wtileOf s u) k with
  | none => s
  | some sl => winGiveUp (abortRecord s code u sl.stream sl.frame 0 0) u k code

def winAbortAll (s : State) (u : Site) (code : Nat) : State := (List.range 4).foldl (fun st k => winAbort st u k code) s

/-- A frame of which only the rest of the input is still taken leaves the tile: that rest is discarded (R113, R157). -/
def winTailOff (s : State) (u : Site) (st frame : Nat) : State :=
  let t := wtileOf s u
  let mine (sl : WinSlot) : Bool := sl.stream == st && sl.frame == frame
  if t.tails.any mine then discardOn (setWtile s u { t with tails := t.tails.filter (fun sl => !mine sl) }) (winIns s u) st frame else s

/-- A tile out of service discards the rest of every frame whose slot has unbound (R113, R163). -/
def winTailsOff (s : State) (u : Site) : State :=
  (wtileOf s u).tails.foldl (fun x sl => winTailOff x u sl.stream sl.frame) s

def winSlotsOf (s : State) (u : Site) (st frame : Nat) : List Nat :=
  (List.range 4).filter (fun k => match winSlotAt (wtileOf s u) k with | some sl => sl.stream == st && sl.frame == frame | none => false)

/-- A frame of which no slot is bound here ends with a record: its void tack line goes on and the rest of its input is discarded. -/
def winRefuse (s : State) (u : Site) (st frame : Nat) (tk : TackInfo) (code : Nat) : State :=
  discardOn (voidOn (abortRecord s code u st frame 0 0) (winOuts s u) st frame tk code) (winIns s u) st frame

/-- The frame of a stream that still takes its input: that of a slot, or one whose slot has unbound. -/
def winTaking (c : WinCfg) (t : WindowTile) (st : Nat) : Option (Option Nat × WinSlot) :=
  ((List.range 4).findSome? (fun k => match winSlotAt t k with
    | some sl => if sl.stream = st ∧ sl.inRow < c.h then some (some k, sl) else none
    | none => none)).or ((t.tails.find? (fun sl => sl.stream == st)).map (fun sl => (none, sl)))

/-- The frame that takes its input breaks the geometry (R157). -/
def winBreak (s : State) (u : Site) (x : Option Nat × WinSlot) (code : Nat) : State :=
  match x.1 with
  | some k => winAbort s u k code
  | none =>
    let t := wtileOf s u
    winRefuse (setWtile s u { t with tails := t.tails.filter (fun sl => decide (sl ≠ x.2)) }) u x.2.stream x.2.frame x.2.tack code

/-- A tack line at the head of the input aborts its stream's frame whose rows are not complete. -/
def winTackCut (s : State) (u : Site) (b : Beat) : State :=
  match winTaking (winCfg s u) (wtileOf s u) (bStream b) with
  | some x => winBreak s u x 0x0511
  | none => s

/-- A tack line at the head of the input port. -/
def winBind (s0 : State) (u : Site) : State :=
  let c := winCfg s0 u
  let e : EndPoint := ⟨u, c.inPort⟩
  match (inBuf s0 e).head? with
  | none => s0
  | some b =>
    if !isOpenTack b then s0
    else
      let s := winTackCut s0 u b
      let t := wtileOf s u
      if bindStopped s u then s
      else if unitState s u = .enabled then
        match (List.range c.slots).find? (fun k => (winSlotAt t k).isNone) with
        | none => s
        | some k =>
          match takeBeat s e (fun x => x == b) with
          | none => s
          | some (_, s1) =>
            let s2 := (winOuts s u).foldl (fun x o => sendOpen x o b) s1
            let sl : WinSlot := { stream := bStream b, frame := tackFrame b, tack := tackInfo b, since := s1.now }
            traceNow (setWtile s2 u { wtileOf s2 u with slots := t.slots.set k (some sl) }) 0x0012 u (some sl.stream) (dw sl.frame) k 0 0
      else
        match takeBeat s e (fun x => x == b) with
        | none => s
        | some (_, s1) => frameAtDisabled s1 u b (winOuts s u) (winIns s u) 0x0530

/-! ### Input (R153, R157) -/

/-- Writing row inRow overwrites no row that an output row not yet emitted needs. -/
def winRoom (c : WinCfg) (sl : WinSlot) : Bool :=
  decide (winHout c ≤ sl.sentRows) || decide ((sl.inRow : Int) - c.rows < max 0 (tapRow c sl.sentRows 0))

/-- Replace lane k of 512 bits. -/
def setLane (d : BitVec 512) (k : Nat) (v : BitVec 16) : BitVec 512 :=
  lanesTo ((List.range 32).map (fun j => if j = k then v else lane16 d j))

/-- The line-beats after an input beat: a planar beat as it is, an interleaved one transposed. -/
def winStore (c : WinCfg) (t : WindowTile) (k : Nat) (sl : WinSlot) (d : BitVec 512) : AMap Nat (BitVec 512) :=
  if !c.inter then amSet t.lines (winLine c k sl.inChan sl.inRow sl.inBeat) d
  else
    let g := ceilDiv c.chans 32
    let p := sl.inBeat / g
    (List.range 32).foldl (fun m j =>
      let ch := 32 * (sl.inBeat % g) + j
      if ch < c.chans then
        let i := winLine c k ch sl.inRow (p / 32)
        amSet m i (setLane (amGetD m i 0) (p % 32) (lane16 d j))
      else m) t.lines

/-- The input position after a beat. -/
def winNext (c : WinCfg) (sl : WinSlot) (b : Beat) : WinSlot :=
  let s0 := { sl with lastTag := bTag b }
  if !bLast b then { s0 with inBeat := sl.inBeat + 1 }
  else if c.inter || sl.inChan + 1 == c.chans then { s0 with inBeat := 0, inChan := 0, inRow := sl.inRow + 1 }
  else { s0 with inBeat := 0, inChan := sl.inChan + 1 }

/-- The beat that the tile would take next: the oldest of its stream ahead of any waiting tack line, whose slot has room; a beat without a slot is taken to be refused. -/
def winPick (c : WinCfg) (t : WindowTile) (buf : List Beat) : Option Beat :=
  (buf.takeWhile (fun b => !isTack b)).find? (fun b =>
    bType b == tyData && (match winTaking c t (bStream b) with | some (k, sl) => k.isNone || winRoom c sl | none => true))

def execWindowBeatIn (site : Site) (parity : Bool) (s : State) : Host.Outcome State Fault Refusal :=
  if !winActs s site then done s else
  let c := winCfg s site
  let e : EndPoint := ⟨site, c.inPort⟩
  let t := wtileOf s site
  match winPick c t (inBuf s e) with
  | none => done (match (inBuf s e).head? with | some b => if isOpenTack b then winTackCut s site b else s | none => s)
  | some b =>
    let st := bStream b
    match winTaking c t st with
    | none =>
      -- a row beyond H, of the frame that the stream's last tack line began
      (match headFrame s e st with
       | some f => (match (winSlotsOf s site st f).head? with
         | some k => done (winAbort s site k 0x0511)
         | none => done (winRefuse s site st f (tackOf s e st f) 0x0511))
       | none => done (match takeBeat s e (fun x => x == b) with | some (_, s1) => s1 | none => s))
    | some (k, sl) =>
      if bLast b != (sl.inBeat + 1 == winRowBeats c) then done (winBreak s site (k, sl) 0x0512)
      else match k with
        | some k =>
          if parity then done (winAbort s site k 0x0510)
          else (match takeBeat s e (fun x => x == b) with
            | none => done s
            | some (_, s1) =>
              let next := { winNext c sl b with since := s1.now }
              done (winSettle (setWtile s1 site { wtileOf s1 site with lines := winStore c t k sl b.data, slots := t.slots.set k (some next) }) site))
        | none => (match takeBeat s e (fun x => x == b) with
            | none => done s
            | some (_, s1) =>
              let next := winNext c sl b
              let others := t.tails.filter (fun x => decide (x ≠ sl))
              done (setWtile s1 site { wtileOf s1 site with tails := if next.inRow < c.h then others ++ [next] else others }))

/-! ### Output (R154 to R156) -/

/-- The rows that an output row needs are complete. -/
def winReady (c : WinCfg) (sl : WinSlot) : Bool :=
  decide (sl.outRow < winHout c) &&
    (List.range c.kh).all (fun ky => decide (tapRow c sl.outRow ky < sl.inRow) || decide ((c.h : Int) ≤ tapRow c sl.outRow ky))

/-- The slot emits now: its outputs are free of an earlier row, and the round-robin comes to it. -/
def winTurn (s : State) (u : Site) (k : Nat) : Bool :=
  let c := winCfg s u
  let t := wtileOf s u
  (winOuts s u).all (fun e => (outQ s e).isEmpty)
    && nextRound t.lastSlot 4 (fun j => match winSlotAt t j with | some sl => winReady c sl | none => false) == some k

/-- A quantization row of 16-bit lanes goes out on every output port. -/
def winSendRow (s : State) (u : Site) (k : Nat) (sl : WinSlot) (outlier : Bool) (lane : Nat → BitVec 16) : State :=
  let c := winCfg s u
  let n := winOutBeats c
  let from_ := max s.now (wtileOf s u).nextOut
  let beats := (List.range n).map fun b =>
    let d := lanesTo ((List.range 32).map (fun j => if 32 * b + j < winWout c then lane (32 * b + j) else 0))
    ({ beat := mkBeat tyData sl.lastTag sl.stream (b + 1 == n) outlier d,
       notBefore := from_ + (if c.inter then 2 * b else b),
       entry := some k } : OutBeat)
  let s1 := (winOuts s u).foldl (fun st e => setOutQ st e (outQ st e ++ beats)) s
  let sl1 := if sl.outIdx + 1 = winOutRows c then { sl with outIdx := 0, outRow := sl.outRow + 1 } else { sl with outIdx := sl.outIdx + 1 }
  let t := wtileOf s1 u
  winSettle (setWtile s1 u { t with slots := t.slots.set k (some sl1), lastSlot := k }) u

/-- Channel, ky and kx of quantization row i of an output row. -/
def winTap (c : WinCfg) (i : Nat) : Nat × Nat × Nat :=
  if c.order = 0 then (i / (c.kh * c.kw), i / c.kw % c.kh, i % c.kw) else (i % c.chans, i / c.chans / c.kw, i / c.chans % c.kw)

/-- Op 0: one quantization row, of one channel and one tap. -/
def execWindowRowEmit (site : Site) (slot : Nat) (parity : Bool) (s : State) : Host.Outcome State Fault Refusal :=
  let c := winCfg s site
  let t := wtileOf s site
  if !winActs s site || c.op != 0 || !winTurn s site slot then done s else
  match winSlotAt t slot with
  | none => done s
  | some sl =>
    if parity then done (winAbort s site slot 0x0510)
    else
      let tap := winTap c sl.outIdx
      done (winSendRow s site slot sl (c.outliers.contains tap.1) (fun x =>
        if tapIn c sl.outRow tap.2.1 x tap.2.2 then winValue c t slot tap.1 (tapRow c sl.outRow tap.2.1).toNat (tapCol c x tap.2.2).toNat
        else c.padValue))

/-- The taps of a pooled position: the value, or none for a padding tap, ky outer. -/
def poolTaps (c : WinCfg) (t : WindowTile) (k chan r x : Nat) : List (Option (BitVec 16)) :=
  (List.range c.kh).flatMap fun ky => (List.range c.kw).map fun kx =>
    if tapIn c r ky x kx then some (winValue c t k chan (tapRow c r ky).toNat (tapCol c x kx).toNat) else none

/-- The greatest of the non-padding taps; none when every tap is padding. -/
def maxPool (taps : List (Option (BitVec 16))) : Option (BitVec 16) :=
  match taps.filterMap id with
  | [] => none
  | v :: rest => some (BitVec.ofNat 16 ((rest.foldl (fun m x => max32r m (widen16 x)) (max32r (widen16 v) (widen16 v))).toNat / 2 ^ 16))

/-- rna32(1 / n). -/
def recipOf (n : Nat) : Dword := roundScaled (2 ^ 64 / n) 64 (2 ^ 64 % n == 0)

/-- The average of the taps; none when the count is 0. -/
def avgPool (divisor : Nat) (pad : BitVec 16) (taps : List (Option (BitVec 16))) : Option (BitVec 16) :=
  let vs := if divisor = 0 then taps.map (fun v => v.getD pad) else taps.filterMap id
  match vs with
  | [] => none
  | v :: rest =>
    let sum := rest.foldl (fun m x => (add32 m (widen16 x)).1) (widen16 v)
    some (rna16 (num32 (mul32 sum (recipOf vs.length)).1))

/-- Ops 1 and 2: one quantization row, of one channel. A position without any tap has no value that the rules state: a free value. -/
def execPoolRowEmit (site : Site) (slot : Nat) (parity : Bool) (s : State) : Host.Outcome State Fault Refusal :=
  let c := winCfg s site
  let t := wtileOf s site
  if !winActs s site || (c.op != 1 && c.op != 2) || !winTurn s site slot then done s else
  match winSlotAt t slot with
  | none => done s
  | some sl =>
    if parity then done (winAbort s site slot 0x0510)
    else
      let value (x : Nat) : BitVec 16 :=
        let taps := poolTaps c t slot sl.outIdx sl.outRow x
        ((if c.op = 1 then maxPool taps else avgPool c.divisor c.padValue taps)).getD (BitVec.ofNat 16 (Config.free32 (s.fresh + x)).toNat)
      done (winSendRow { s with fresh := s.fresh + winWout c } site slot sl false value)

/-- A beat of a frame has left an output: the next leaves at the earliest 2 fc later in the interleaved layout, and rows may be complete with it. -/
def winBeatSent (s : State) (e : EndPoint) (o : OutBeat) : State :=
  let u := e.site
  let t := wtileOf s u
  match o.entry with
  | none => s
  | some k =>
    let next := if (winCfg s u).inter then s.now + 2 else s.now
    let touched := match winSlotAt t k with | some sl => t.slots.set k (some { sl with since := s.now }) | none => t.slots
    let s1 := setWtile s u { t with nextOut := max t.nextOut next, slots := touched }
    winSettle (setOutQ s1 e (match outQ s1 e with | x :: rest => { x with notBefore := max x.notBefore next } :: rest | [] => [])) u

/-! ### Watchdog (R109, R151) -/

/-- The tile holds no operation list: what its watchdog measures is the longest time in which a bound slot neither takes nor sends a beat, and the
operation index in the record is 0 (DEDUCED, notes/assumptions/11.md). -/
def winWatch (s : State) (u : Site) (slot : Nat) : State :=
  let c := winCfg s u
  match winSlotAt (wtileOf s u) slot with
  | some sl =>
    let at_ := watchEnd sl.since c.watchdog
    if c.watchdog < 10 ∨ !reaches s at_ then s
    else winAbortAll (fault (advance s at_) 0x0520 4 u (dw (slot * 2 ^ 4)) 0) u 0x0521
  | none => s

end Sys2Proof.Machine
end

