-- ==== Sys2Proof/Machine/Tiles.lean ====
section
/-! DEFINITION. The commands that matrix, vector and window tiles share: a tack line at the frame port, the issue of an operation, and the
watchdog (spec/03_matrix_tile.md R100, R102, R109, R113, spec/05_vector_window_glue.md R144, R156, R163). -/

namespace Sys2Proof.Machine

/-- The tile sees its frame port: beats move, it is used, and it is not held. A DISABLED or LOST tile still copies tack lines on and discards (R113). -/
def tileSees (s : State) (u : Site) : Bool := fabricRuns s && !unitHeld s u && unitUsed s u

def execSlotBind (site : Site) (s : State) : Host.Outcome State Fault Refusal :=
  if !tileSees s site then done s else
  match siteKind site with
  | 0 => done (tileBind s site)
  | 1 => done (vecBind s site)
  | 2 => done (winBind s site)
  | _ => done s

def execOperationIssue (site : Site) (s : State) : Host.Outcome State Fault Refusal :=
  if tileActs s site then done (tileIssue s site)
  else if vecActs s site then done (vecIssue s site)
  else done s

def execTileWatchdogExpiry (site : Site) (slot index : Nat) (s : State) : Host.Outcome State Fault Refusal :=
  if tileActs s site then done (tileWatchdog s site slot index)
  else if vecActs s site then done (vecWatch s site slot index)
  else if winActs s site then done (winWatch s site slot)
  else done s

/-- The slots of a tile bound to a frame, with any frame given up there: state, void tack lines and input beats, without a record. -/
def tilesGiveUp (s : State) (u : Site) (st frame code : Nat) : State :=
  match siteKind u with
  | 0 => (tileSlotsOf s u st frame).foldl (fun x k => tileGiveUp x u k code) s
  | 1 => (vecSlotsOf s u st frame).foldl (fun x k => vecGiveUp x u k code) s
  | 2 => winTailOff ((winSlotsOf s u st frame).foldl (fun x k => winGiveUp x u k code) s) u st frame
  | _ => s

/-- Streams and frames of a tile's bound slots. -/
def tileFrames (s : State) (u : Site) : List (Nat × Nat) :=
  match siteKind u with
  | 0 => (tileOf s u).slots.filterMap (fun o => o.map (fun sl => (sl.stream, sl.frame)))
  | 1 => (vtileOf s u).slots.filterMap (fun o => o.map (fun sl => (sl.stream, sl.frame)))
  | 2 => (wtileOf s u).slots.filterMap (fun o => o.map (fun sl => (sl.stream, sl.frame)))
  | _ => []

/-- Every bound slot of a tile aborted with its own record, and what it still took of other frames discarded (R112, R113). -/
def tilesAbortAll (s : State) (u : Site) (code0 code1 : Nat) : State :=
  match siteKind u with
  | 0 => tileAbortAll s u code0
  | 1 => vecAbortAll s u code1
  | 2 => winTailsOff (winAbortAll s u code1) u
  | _ => s

/-- A unit that stops without a frame bound leaves no frame's rest to be taken. -/
def tailsOff (s : State) (u : Site) : State := if siteKind u = 2 then winTailsOff s u else s

/-- A beat has left a tile's output: its sender's own bookkeeping. -/
def tilesBeatSent (s : State) (e : EndPoint) (o : OutBeat) : State :=
  match siteKind e.site with
  | 0 => tileBeatSent s e.site o
  | 1 => vecBeatSent s e.site o
  | 2 => winBeatSent s e o
  | _ => s

end Sys2Proof.Machine
end

