-- ==== Sys2Proof/Machine/Glue.lean ====
section
/-! DEFINITION. The glue block (spec/05_vector_window_glue.md R158 to R164). Its words in order: the block word, 64 port words, three dwords of
port control for each port, five dwords for each cell. -/

namespace Sys2Proof.Machine

/-! ### Cells (R158 to R160) -/

/-- The cells that hold a word that is not 0, with their five dwords; a cell of zeros drives 0. -/
def cellsFrom : Nat → List Dword → List (Nat × List Dword)
  | n, a :: b :: c :: d :: e :: rest =>
    let w := [a, b, c, d, e]
    if w.all (· == 0) then cellsFrom (n + 1) rest else (n, w) :: cellsFrom (n + 1) rest
  | _, _ => []

def glueWords (s : State) (u : Site) : List Dword := match s.hal.active with | some h => hoistWords s h u | none => []

def glueCells (s : State) (u : Site) : List (Nat × List Dword) := cellsFrom 0 ((glueWords s u).drop 257)

def cellRegistered (w : List Dword) : Bool := dbit (lget w 2 0) 28
def cellCarry (w : List Dword) : Bool := dbit (lget w 2 0) 29
def cellChainStart (w : List Dword) : Bool := dbit (lget w 2 0) 30
def cellInit (w : List Dword) : Bool := dbit (lget w 2 0) 31
/-- Source of input k. -/
def cellSource (w : List Dword) (k : Nat) : Nat := if k % 2 = 0 then dbits (lget w (2 + k / 2) 0) 13 0 else dbits (lget w (2 + k / 2) 0) 27 14
def lutBit (w : List Dword) (n : Nat) : Bool := dbit (lget w (n / 32) 0) (n % 32)

/-- What the ports show the cells: the head beat of each used input, and whether each used output is ready. -/
structure GluePorts where
  heads : List (Option Beat)
  ready : List Bool

/-- Bit of a source, over the ports and the cells that are 1. A used input that holds no beat reads 0 in its data and sideband bits, as an unused one
does: DESIGN CHOICE (notes/assumptions/47.md). -/
def glueSource (ps : GluePorts) (ones : List Nat) (x : Nat) : Bool :=
  if x < 0x800 then ones.contains x
  else if x = 0x3FFF then true
  else
    let p := (x - 0x800) / 128
    let b := (x - 0x800) % 128
    match ps.heads.getD p none with
    | some beat =>
      if b < 64 then beat.data.getLsbD b
      else if b < 96 then beat.side.getLsbD (b - 64)
      else if b = 96 then true
      else if b = 97 then ps.ready.getD p false
      else false
    | none => b == 97 && ps.ready.getD p false

/-- A cell's function value and carry out; a LUT-mode cell, one of zeros among them, has no carry out, and what a chain reads there is a free bit
(notes/assumptions/47.md). -/
def cellValue (src : Nat → Bool) (free : Bool) (cin : Bool) (w : List Dword) : Bool × Bool :=
  let i (k : Nat) : Nat := b2n (src (cellSource w k))
  let low := 16 * i 4 + 8 * i 3 + 4 * i 2 + 2 * i 1 + i 0
  if cellCarry w then
    let p := lutBit w low
    (p != cin, if p then cin else lutBit w (32 + low))
  else (lutBit w (32 * i 5 + low), free)

/-- The init values of the flip-flops, those that are 1. -/
def initFlops (s : State) (u : Site) : List Nat := ((glueCells s u).filter (fun c => cellInit c.2)).map Prod.fst

/-- One pass over the cells in order: for each its function value, chains within the pass. -/
def cellPass (ps : GluePorts) (free : Nat → Bool) (ones : List Nat) : Nat → Bool → List (Nat × List Dword) → List (Nat × Bool)
  | _, _, [] => []
  | next, cout, (n, w) :: rest =>
    let cin := if cellChainStart w then glueSource ps ones (cellSource w 5) else if n % 32 = 0 then false else if n ≠ next then free (n - 1) else cout
    let r := cellValue (glueSource ps ones) (free n) cin w
    (n, r.1) :: cellPass ps free ones (n + 1) r.2 rest

/-- The cells whose output is 1: flip-flops as they stand, the others by their function values. -/
def cellOuts (flops : List Nat) (cells : List (Nat × List Dword)) (vals : List (Nat × Bool)) : List Nat :=
  (cells.zip vals).filterMap (fun p =>
    if cellRegistered p.1.2 then (if flops.contains p.1.1 then some p.1.1 else none) else if p.2.2 then some p.1.1 else none)

/-- Passes until every combinational path of at most 8 cells has settled (R162). -/
def settleCells (ps : GluePorts) (free : Nat → Bool) (flops : List Nat) (cells : List (Nat × List Dword)) : Nat → List (Nat × Bool) → List (Nat × Bool)
  | 0, vals => vals
  | k + 1, vals => settleCells ps free flops cells k (cellPass ps free (cellOuts flops cells vals) 0 false cells)

/-! ### One fc of the block (R161) -/

def gluePorts : List Nat := List.range 64

def portControl (s : State) (u : Site) (p i : Nat) : Dword := cfgDw s u (65 + 3 * p + i)
def gluePortUsed (s : State) (u : Site) (p : Nat) : Bool := pwUsed (cfgDw s u (1 + p))

/-- out_ready: the free-space semaphore covers one more beat than the output already holds. -/
def glueReady (s : State) (u : Site) (p : Nat) : Bool :=
  let e : EndPoint := ⟨u, p⟩
  maySend s e && decide ((outQ s e).length < (linkOr s e (linkPaths s e)).free)

/-- The beat that output p forms. -/
def glueBeat (s : State) (u : Site) (ps : GluePorts) (ones : List Nat) (p : Nat) : Beat :=
  let c0 := portControl s u p 0
  let mask := (portControl s u p 1).toNat
  let base := (ps.heads.getD (dbits (portControl s u p 2) 5 0) none).getD ⟨0, 0⟩
  let driven := bitsOf ((List.range 32).map (fun k => ones.contains (32 * p + k)))
  let put (old shift : Nat) : Nat :=
    let field := nbits old (shift + 31) shift
    let new := (field &&& (mask ^^^ 0xFFFFFFFF)) ||| (driven &&& mask)
    old - field * 2 ^ shift + new * 2 ^ shift
  let data := match dbits c0 31 28 with
    | 1 => BitVec.ofNat 512 (put base.data.toNat 0)
    | 2 => BitVec.ofNat 512 (put base.data.toNat 32)
    | _ => base.data
  let side := if dbits c0 31 28 = 3 then BitVec.ofNat 32 (put base.side.toNat 0) else base.side
  sealBeat data (side &&& 0xFFFFFE00)

/-- An input port has taken a tack line; while DRAINING, the port has drained with it. -/
def glueTack (s : State) (u : Site) (p : Nat) (b : Beat) : State :=
  let g := glueOf s u
  setGlue s u { g with tacks := amSet g.tacks p (bStream b, tackFrame b, tackInfo b),
                       drained := if g.ctl.state = .draining then addNew g.drained p else g.drained }

/-- An input's head beat goes, with its credit. -/
def glueTake (s : State) (u : Site) (p : Nat) : State :=
  match takeBeat s ⟨u, p⟩ (fun _ => true) with
  | some (b, s1) => if isTack b then glueTack s1 u p b else s1
  | none => s

/-- An output sends a beat; a tack line has then been sent for its frame there (R173). -/
def glueSend (s : State) (e : EndPoint) (b : Beat) : State :=
  let s1 := pushOut s e { beat := b, notBefore := s.now + 1 }
  let k := (e, bStream b)
  if isOpenTack b then { s1 with fabric := { s1.fabric with openSent := amSet s1.fabric.openSent k (tackFrame b) } }
  else if isVoidTack b then { s1 with fabric := { s1.fabric with openSent := amSet s1.fabric.openSent k (tackFrame b),
                                                                 voidSent := amSet s1.fabric.voidSent k (tackFrame b) } }
  else s1

/-- An ENABLED or DRAINING block: cells, then ports, then flip-flops. -/
def glueRun (s : State) (u : Site) : State :=
  let cells := glueCells s u
  let g := glueOf s u
  let ps : GluePorts := {
    heads := gluePorts.map (fun p => if gluePortUsed s u p then (inBuf s ⟨u, p⟩).head? else none)
    ready := gluePorts.map (fun p => gluePortUsed s u p && glueReady s u p) }
  let free (n : Nat) : Bool := dbit (Config.free32 s.fresh) (n % 32)
  let vals := settleCells ps free g.flops cells 10 (cells.map (fun c => (c.1, false)))
  let ones := cellOuts g.flops cells vals
  let used := gluePorts.filter (gluePortUsed s u)
  let sends := used.filter (fun p => glueSource ps ones (dbits (portControl s u p 0) 27 14) && ps.ready.getD p false)
  let takes := used.filter (fun p => glueSource ps ones (dbits (portControl s u p 0) 13 0) && (ps.heads.getD p none).isSome)
  let s1 := sends.foldl (fun x p => glueSend x ⟨u, p⟩ (glueBeat s u ps ones p)) (drawn s)
  let s2 := takes.foldl (fun x p => glueTake x u p) s1
  let registered := (cells.zip vals).filter (fun p => cellRegistered p.1.2)
  let kept := g.flops.filter (fun n => !registered.any (fun p => p.1.1 == n))
  setGlue s2 u { glueOf s2 u with flops := kept ++ (registered.filter (·.2.2)).map (fun p => p.1.1) }

/-- The output of a port that a link leaves. -/
def glueOut (s : State) (u : Site) (p : Nat) : List EndPoint := if (linkPaths s ⟨u, p⟩).isEmpty then [] else [⟨u, p⟩]

/-- A DISABLED block's input: a tack line goes on by the same port, any other beat is discarded, and its frame aborted once (R164, R173). -/
def glueDiscard (s : State) (u : Site) (p : Nat) : State :=
  match takeBeat s ⟨u, p⟩ (fun _ => true) with
  | none => s
  | some (b, s1) =>
    let st := bStream b
    if isTack b then (glueOut s u p).foldl (fun x e => glueSend x e b) (glueTack s1 u p b)
    else
      match headFrame s1 ⟨u, p⟩ st with
      | some f =>
        let g := glueOf s1 u
        if g.reported.contains (st, f) then s1
        else voidOn (abortRecord (setGlue s1 u { g with reported := g.reported ++ [(st, f)] }) 0x0540 u st f 0 0)
          (glueOut s u p) st f (tackOf s1 ⟨u, p⟩ st f) 0x0540
      | none => s1

/-- The block runs once in an fc: in the first that it has not run in. -/
def execGlueFcEval (site : Site) (s : State) : Host.Outcome State Fault Refusal :=
  let s0 := advance s (glueOf s site).nextFc
  if siteKind site ≠ 4 ∨ !fabricRuns s0 ∨ unitHeld s0 site ∨ !unitUsed s0 site then done s
  else
    let s1 := setGlue s0 site { glueOf s0 site with nextFc := s0.now + 1 }
    if unitState s site = .enabled ∨ unitState s site = .draining then done (glueRun s1 site)
    else done ((gluePorts.filter (gluePortUsed s1 site)).foldl (fun x p => glueDiscard x site p) s1)

/-! ### Draining (R164) -/

/-- Used input ports that have taken no tack line since UNIT_DISABLE. -/
def glueWaiting (s : State) (u : Site) : List Nat :=
  gluePorts.filter (fun p => gluePortUsed s u p && (linkProducer s ⟨u, p⟩).isSome && !(glueOf s u).drained.contains p)

def execGlueDrainDone (site : Site) (s : State) : Host.Outcome State Fault Refusal :=
  if siteKind site ≠ 4 ∨ unitState s site ≠ .draining ∨ !(glueWaiting s site).isEmpty then done s
  else done (finishFirst (moveUnit s site { state := .disabled }) (fun k => k == .unitDisable site) stOK 0 s.now)

/-- The drain timeout of a block (R164); it stands still while the part is halted (R111). -/
def execGlueDrainTimeout (site : Site) (s : State) : Host.Outcome State Fault Refusal :=
  let c := ctlOf s site
  let t := c.drainFrom + c.drainLimit
  if siteKind site ≠ 4 ∨ c.state ≠ .draining ∨ haltedNow s ∨ (glueWaiting s site).isEmpty ∨ !reaches s t then done s
  else
    let ports := glueWaiting s site
    let last (p : Nat) : Option (Nat × Nat × TackInfo) := amGet (glueOf s site).tacks p
    let frames := dedup (ports.filterMap (fun p => (last p).map (fun q => (q.1, q.2.1))))
    let s2 := ports.foldl (fun x p =>
      match last p with
      | some q => voidOn (abortRecord x 0x0541 (siteWithSub site p) q.1 q.2.1 0 0) (glueOut x site p) q.1 q.2.1 q.2.2 0x0541
      | none => fault x 0x0541 1 (siteWithSub site p) 0 0) (moveUnit (advance s t) site { state := .disabled })
    done (finishFirst s2 (fun k => k == .unitDisable site) stTimeout (dw frames.length) s2.now)

end Sys2Proof.Machine
end

