-- ==== Sys2Proof/Machine/Generator.lean ====
section
/-! DEFINITION. Queue tables and descriptor generators (spec/07_memory_feed.md R202, R203, spec/08_descriptors.md R234 to R240, R245, R246). -/

namespace Sys2Proof.Machine

/-! ### The queue table (R202) -/

def queueDw (s : State) (q i : Nat) : Dword := cfgDw s (queueSite q) i
def queueUsed (s : State) (q : Nat) : Bool := dbit (queueDw s q 1) 0
/-- 0 FEED, 1 STREAM_IN, 2 STREAM_OUT, 3 SPILL. -/
def queueMode (s : State) (q : Nat) : Nat := dbits (queueDw s q 1) 2 1
def queueLog2 (s : State) (q : Nat) : Nat := dbits (queueDw s q 1) 6 3
def queueBorrow (s : State) (q : Nat) : Bool := dbit (queueDw s q 1) 17
def queueLimit (s : State) (q : Nat) : Nat := dbits (queueDw s q 1) 22 18 + 1
def queueCaches (s : State) (q : Nat) : Bool := dbits (queueDw s q 1) 24 23 == 1
def queueInterval (s : State) (q : Nat) : Nat := dbits (queueDw s q 2) 15 0
def queueDesc (s : State) (q : Nat) : Nat := dbits (queueDw s q 3) 11 0
def queueRate (s : State) (q : Nat) : Nat := dbits (queueDw s q 3) 23 16
def queueBurst (s : State) (q : Nat) : Nat := dbits (queueDw s q 3) 31 24

/-- The fabric end of a queue's slot. -/
def queueEnd (q : Nat) : EndPoint := ⟨portSite (q / 8) 0, q % 8⟩

/-- The queue stands in the active bank, and is not one that a cut switch has still to flush (R228). -/
def queueHere (s : State) (q : Nat) : Bool := decide (q < 8 * Config.memPorts) && queueUsed s q && (queueOf s q).leaving.isNone

/-- The queue moves: its port works, and beats move. -/
def queueActs (s : State) (q : Nat) : Bool := queueHere s q && unitWorks s (portSite (q / 8) 0)

/-- The queue serves its grants: a port that waits for its proof does so still (R410). -/
def queueServes (s : State) (q : Nat) : Bool :=
  let u := portSite (q / 8) 0
  queueHere s q && fabricRuns s && !unitMuted s u && (unitState s u == .enabled || unitState s u == .draining)

/-- The mode under which a queue holds what it holds. -/
def heldMode (s : State) (q : Nat) : Nat := (queueOf s q).leaving.getD (queueMode s q)

/-! ### Own entries and the pool (R203) -/

/-- Beats that a queue holds. -/
def heldBeats (x : MemQueue) : Nat := x.entries.length + x.beats.length

/-- Entries that a discard has still to free at the start of an fc (R171). -/
def queueFreeing (now : Fc) (x : MemQueue) : Nat := x.dropN - 8 * (now - x.dropAt)

/-- A discard frees n more entries, from now on. -/
def discards (now : Fc) (n : Nat) (x : MemQueue) : MemQueue :=
  if n = 0 then x else { x with dropAt := now, dropN := queueFreeing now x + n }

/-- The fc from which the head of a queue may be read: not while a discard moves rp. -/
def discardEnd (x : MemQueue) : Fc := x.dropAt + ceilDiv x.dropN 8

/-- Entries in use in this fc. -/
def usedEntries (s : State) (q : Nat) : Nat := heldBeats (queueOf s q) + queueFreeing s.now (queueOf s q)

def portSlots (port : Nat) : List Nat := (List.range 8).map (fun k => 8 * port + k)

def portQueues (s : State) (port : Nat) : List Nat := (portSlots port).filter (queueUsed s)

def poolSize (s : State) (port : Nat) : Nat := 1024 - ((portQueues s port).map (fun q => 2 ^ queueLog2 s q)).foldl (· + ·) 0

/-- Pool entries that a queue holds. -/
def poolOf (s : State) (q : Nat) : Nat := if queueBorrow s q then usedEntries s q - 2 ^ queueLog2 s q else 0

def poolUsed (s : State) (port : Nat) : Nat := ((portQueues s port).map (poolOf s)).foldl (· + ·) 0

/-- Room for one more beat: an own entry, or with borrow a pool entry. -/
def queueRoom (s : State) (q : Nat) : Bool :=
  decide (usedEntries s q < 2 ^ queueLog2 s q) || (queueBorrow s q && decide (poolUsed s (q / 8) < poolSize s (q / 8)))

/-- A pool entry of a port has been freed: its wait edges end (R221). -/
def poolFreed (s : State) (port : Nat) : State :=
  { s with feed := { s.feed with edges := s.feed.edges.filter (fun e => decide (e.2.2.1 ≠ port)) } }

/-- A queue after a change by which it holds fewer beats: where it held pool entries, one is freed. -/
def afterFree (s : State) (q : Nat) (x : MemQueue) : State :=
  if 0 < poolOf s q then poolFreed (setQueue s q x) (q / 8) else setQueue s q x

/-! ### One read or write of a port per fc (R205) -/

def portSlot (s : State) (port : Nat) : Fc := amGetD s.feed.portNext port 0

def portIssued (s : State) (port : Nat) : State :=
  { s with feed := { s.feed with portNext := amSet s.feed.portNext port (s.now + 1) } }

/-! ### The regulator (R218) -/

def regulatorNow (s : State) (q : Nat) : Nat :=
  let x := queueOf s q
  let top := queueBurst s q * 256
  if queueRate s q = 0 then top else min top (x.regulator + queueRate s q * (s.now - x.regulatorAt))

/-- With rate 0 the regulator never blocks. -/
def regulatorOpen (s : State) (q : Nat) : Bool := queueRate s q == 0 || decide (256 ≤ regulatorNow s q)

def regulatorSpend (s : State) (q : Nat) : State :=
  setQueue s q { queueOf s q with regulator := regulatorNow s q - (if queueRate s q = 0 then 0 else 256), regulatorAt := s.now }

/-! ### Programs (R234, R237 to R239) -/

def programOf (s : State) (q : Nat) : Option StoredProgram := s.feed.programs.find? (fun p => p.dir == queueDesc s q)

def codeOf (s : State) (q : Nat) : List (List Dword) := match programOf s q with | some p => p.code | none => []

def insOp (w : List Dword) : Nat := dbits (lget w 0 0) 7 0
def insReg (w : List Dword) : Nat := dbits (lget w 0 0) 9 8

/-- Compat, run_ahead and row_beats of the header. -/
def progCompat (code : List (List Dword)) : Bool := dbit (lget (lget code 0 []) 0 0) 8
def progTileLog2 (code : List (List Dword)) : Nat := dbits (lget (lget code 0 []) 0 0) 14 11
def progRunAhead (code : List (List Dword)) : Nat := dbits (lget (lget code 0 []) 0 0) 19 16 + 1
def progRowBeats (code : List (List Dword)) : Nat := dbits (lget (lget code 0 []) 1 0) 15 0 + 1

/-- A generator as R240 starts it: bases and dimensions 0. A dimension of count 0 yields nothing. -/
def startedGen : Generator := { state := .running, pc := 1, bases := [0, 0, 0, 0], dims := [(0, 0), (0, 0), (0, 0), (0, 0)] }

/-- Base registers are 36 bits wide. -/
def base36 (n : Int) : Int := n % (2 ^ 36 : Int)

/-- What an instruction other than RUN leads to beyond the registers. -/
inductive GenEvent where
  | none | restart | done | frame
  deriving DecidableEq, Repr

/-- One instruction other than RUN. -/
def genExec (g : Generator) (w : List Dword) : Generator × GenEvent :=
  let w0 := lget w 0 0
  let w1 := lget w 1 0
  let w2 := lget w 2 0
  match insOp w with
  | 0x00 =>
    if dbit w0 8 then ({ g with active := [false, false], pc := 1 }, .restart) else ({ g with state := .done }, .done)
  | 0x02 => ({ g with bases := g.bases.set (insReg w) ((w1.toNat + dbits w2 3 0 * 2 ^ 32 : Nat) : Int), pc := g.pc + 1 }, .none)
  | 0x03 => ({ g with dims := g.dims.set (insReg w) (dbits w1 19 0 + 1, w2.toInt), pc := g.pc + 1 }, .none)
  | 0x05 => ({ g with bases := lmod g.bases (insReg w) (fun b => base36 (b + w1.toInt)), pc := g.pc + 1 }, .none)
  | 0x06 =>
    let k := dbits w0 8 8
    let lc := if lget g.active k false then lget g.lc k 0 else dbits w2 19 0
    if 0 < lc then ({ g with lc := g.lc.set k (lc - 1), active := g.active.set k true, pc := dbits w1 13 0 }, .none)
    else ({ g with lc := g.lc.set k 0, active := g.active.set k false, pc := g.pc + 1 }, .none)
  | 0x07 => ({ g with pc := g.pc + 1 }, .frame)
  | _ => ({ g with pc := g.pc + 1 }, .none)

/-- The RUN that a generator stands at: the one under way, or the one that its registers start. -/
def genRun (g : Generator) (code : List (List Dword)) : Option RunState :=
  let w := lget code g.pc []
  if g.state ≠ .running ∨ insOp w ≠ 0x04 ∨ w.isEmpty then none
  else some (g.run.getD { base := lget g.bases (insReg w) 0, dims := g.dims.take (dbits (lget w 0 0) 11 10 + 1), yielded := 0 })

def runLength (dims : List (Nat × Int)) : Nat := dims.foldl (fun n d => n * d.1) 1

/-- Address n of a RUN, dimension 0 innermost (R238). -/
def runAddress (base : Int) : List (Nat × Int) → Nat → Int
  | [], _ => base
  | (c, st) :: rest, n => runAddress (base + (n % max 1 c : Nat) * st) rest (n / max 1 c)

/-- The next address and the generator after it; a RUN over a dimension of count 0 has none. -/
def genNext (g : Generator) (code : List (List Dword)) : Option (Int × Generator) :=
  (genRun g code).bind fun r =>
    if runLength r.dims = 0 then none else
    let a := runAddress r.base r.dims r.yielded
    some <| if r.yielded + 1 < runLength r.dims then (a, { g with run := some { r with yielded := r.yielded + 1 }, yielded := g.yielded + 1 })
    else (a, { g with run := none, pc := g.pc + 1, yielded := g.yielded + 1 })

/-- The generator runs on, yielding nothing, to the instruction after the next FRAME, or to its end (R242). -/
def skipFrame (code : List (List Dword)) : Nat → Generator → Generator
  | 0, g => g
  | n + 1, g =>
    let w := lget code g.pc []
    if g.state ≠ .running ∨ w.isEmpty then g
    else if insOp w = 0x04 then skipFrame code n { g with run := none, pc := g.pc + 1 }
    else
      let r := genExec g w
      match r.2 with
      | .frame => r.1
      | .done => r.1
      | _ => skipFrame code n r.1

/-- More instructions than any program executes between two FRAMEs. -/
def skipFuel : Nat := 2 ^ 45

/-- The run-ahead bound (R245); a compat program has none (R246). -/
def runAheadOk (g : Generator) (code : List (List Dword)) : Bool :=
  let t := 2 ^ progTileLog2 code
  progCompat code || decide (g.yielded / t < g.left / t + progRunAhead code)

/-- The program's words are sound. -/
def programSound (s : State) (q : Nat) : Bool := !s.feed.rewriting.contains (queueDesc s q)

/-- One instruction other than RUN: STREAM_OUT stops at FRAME, and a segment begins after FRAME and at a restart (R240, R241). -/
def genStep (s : State) (q : Nat) : State :=
  let x := queueOf s q
  let code := codeOf s q
  let w := lget code x.gen.pc []
  if x.gen.state ≠ .running ∨ w.isEmpty ∨ !programSound s q then s
  else if insOp w = 0x04 then
    match genRun x.gen code with
    | some r =>
      if runLength r.dims = 0 then setQueue s q { x with gen := { x.gen with run := none, pc := x.gen.pc + 1 } }
      else setQueue s q { x with gen := { x.gen with run := some r } }
    | none => s
  else
    let r := genExec x.gen w
    match r.2 with
    | .frame =>
      if queueMode s q = 2 then setQueue s q { x with gen := { x.gen with state := .frameWait }, seg := { x.seg with open_ := false } }
      else setQueue s q { x with gen := r.1, seg := { x.seg with next := 0 } }
    | .restart => setQueue s q { x with gen := r.1, seg := { x.seg with next := 0, open_ := false } }
    | _ => setQueue s q { x with gen := r.1 }

end Sys2Proof.Machine
end

