-- ==== Sys2Proof/Machine/Lpddr.lean ====
section
/-! DEFINITION. LPDDR5: channels, regions, the mirror, the feed cache, request queues and deadline arbitration, maintenance and errors
(spec/07_memory_feed.md R195 to R201, R212 to R217, R223 to R226). -/

namespace Sys2Proof.Machine

/-! ### Address mapping (R196) and regions (R200, R201) -/

def lineOf (dpa : Nat) : Nat := dpa / 64
def channelOfDpa (dpa : Nat) : Nat := lineOf dpa % Config.channels
def localLine (dpa : Nat) : Nat := lineOf dpa / Config.channels
def eccBlock (dpa : Nat) : Nat := localLine dpa / 7
/-- DPA of line k of ECC block b on a channel. -/
def blockLine (c b k : Nat) : Nat := 64 * ((7 * b + k) * Config.channels + c)

def within (base size a : Nat) : Bool := decide (base ≤ a) && decide (a < base + size)

def inImage (s : State) (a : Nat) : Option Image := s.hal.images.find? (fun i => within i.imageBase i.imageSize a)
def inMirror (s : State) (a : Nat) : Bool := s.hal.images.any (fun i => i.mirrored && within i.mirrorBase i.imageSize a)
def inSpill (s : State) (a : Nat) : Bool := s.hal.images.any (fun i => within i.spillBase i.spillSize a)
/-- DPA of the mirror copy of an image line. -/
def mirrorOf (s : State) (a : Nat) : Option Nat :=
  match inImage s a with
  | some i => if i.mirrored then some (a + (i.mirrorBase - i.imageBase)) else none
  | none => none

def inElastic (s : State) (a : Nat) : Bool := s.hal.images.any (fun i => within i.elasticBase i.elasticSize a)

/-- What a queue of a mode may touch. -/
def mayAccess (s : State) (mode : Nat) (write : Bool) (a : Nat) : Bool :=
  decide (a < Config.memTop) &&
    match mode with
    | 0 => !write && ((inImage s a).isSome || inMirror s a)
    | 1 => !write && (inSpill s a || (inImage s a).isSome)
    | 2 => write && inSpill s a
    | _ => inElastic s a

def serving (s : State) (a : Nat) : Bool := (channelOf s (channelOfDpa a)).state == .serving

/-- Where a read goes: its own line, or the mirror copy while its channel is RETRAINING or LOST. -/
def readTarget (s : State) (a : Nat) : Nat :=
  if serving s a then a else match mirrorOf s a with | some m => m | none => a

/-! ### Feed cache (R212 to R215) -/

def cacheSet (line : Nat) : Nat × Nat := (line % Config.channels, line / Config.channels % 1024)

def cacheHit (s : State) (a : Nat) : Bool := s.feed.cache.any (fun c => c.line == lineOf a)

/-- A use of a cached line. -/
def cacheTouch (s : State) (a : Nat) : State :=
  let t := s.feed.cacheClock + 1
  { s with feed := { s.feed with cacheClock := t, cache := s.feed.cache.map (fun c => if c.line = lineOf a then { c with used := t } else c) } }

/-- Allocation of a line: the least recently used unpinned way of the set goes when all 16 are in use. -/
def cacheAlloc (s : State) (a : Nat) : State :=
  if cacheHit s a then cacheTouch s a else
  let n := lineOf a
  let t := s.feed.cacheClock + 1
  let ways := s.feed.cache.filter (fun c => cacheSet c.line == cacheSet n)
  let victim := if ways.length < 16 then none else
    ((ways.filter (fun c => !c.pinned)).foldl (fun (m : Option CacheLine) c => match m with | some v => if c.used < v.used then some c else m | none => some c) none)
  if 16 ≤ ways.length ∧ victim.isNone then s else
  let kept := match victim with | some v => s.feed.cache.filter (fun c => decide (c.line ≠ v.line)) | none => s.feed.cache
  { s with feed := { s.feed with cacheClock := t, cache := { line := n, used := t } :: kept } }

def cacheDrop (s : State) (a : Nat) : State :=
  { s with feed := { s.feed with cache := s.feed.cache.filter (fun c => decide (c.line ≠ lineOf a)) } }

/-! ### Lines (R197, R226) -/

/-- Channel byte address of a line and of its block's check line (R196). -/
def channelByte (dpa : Nat) : Nat := 512 * eccBlock dpa + 64 * (localLine dpa % 7)
def checkByteAddress (dpa : Nat) : Nat := 512 * eccBlock dpa + 448

def poisoned (s : State) (a : Nat) : Bool := s.feed.poisoned.contains a
def poison (s : State) (a : Nat) : State := { s with feed := { s.feed with poisoned := addNew s.feed.poisoned a } }

/-- The check line of ECC block b of a channel: byte 8k + w holds the check bits of word w of line k over the word and bits [35:3] of its address, and
bits [6:0] of byte 56 are the poison bits of lines 0 to 6. Bytes 57 to 63 are reserved. -/
def checkLineOf (s : State) (c b : Nat) : List Byte :=
  (List.range 56).map (fun i =>
      let a := blockLine c b (i / 8) + 8 * (i % 8)
      Config.secded (nbits (memLine s.feed.lpddr (blockLine c b (i / 8))).toNat (64 * (i % 8) + 63) (64 * (i % 8))) (nbits a 35 3))
    ++ [BitVec.ofNat 8 (((List.range 7).filter (fun k => poisoned s (blockLine c b k))).map (fun k => 2 ^ k)).sum]
    ++ List.replicate 7 0

/-- A whole line is written: its poison bit goes to 0; a LOST channel refuses the write. -/
def writeLine (s : State) (a : Nat) (d : BitVec 512) : State :=
  if (channelOf s (channelOfDpa a)).state = .lost then s
  else { s with feed := { s.feed with lpddr := memSetLine s.feed.lpddr a d, poisoned := s.feed.poisoned.filter (fun x => decide (x ≠ a)) } }

/-- Bytes written from a base on: a line on a LOST channel refuses the write (R224), and the others lose their poison. -/
def lpddrPut (s : State) (base : Nat) (bytes : List Byte) : State :=
  let lost (a : Nat) : Bool := (channelOf s (channelOfDpa a)).state == .lost
  let lines := (List.range' (lineOf base) (ceilDiv (base % 64 + bytes.length) 64)).map (64 * ·)
  let kept := if s.feed.channels.any (fun c => c.state == .lost) then lines.filter lost else []
  let m := kept.foldl (fun m a => memSetLine m a (memLine s.feed.lpddr a)) (memPut s.feed.lpddr base bytes)
  let written (a : Nat) : Bool := decide (lineOf base * 64 ≤ a) && decide (a < base + bytes.length) && !kept.contains a
  { s with feed := { s.feed with lpddr := m, poisoned := s.feed.poisoned.filter (fun a => !written a) } }

/-- The two detail words of an LPDDR5 record. -/
def dpaLo (a : Nat) : Dword := lo32 a
def dpaHi (a : Nat) : Dword := dw (a / 2 ^ 32 % 16)

def channelFault (s : State) (code cls a : Nat) : State := fault s code cls (channelSite (channelOfDpa a)) (dpaLo a) (dpaHi a)

/-! ### Request queues and arbitration (R216, R217) -/

/-- Slack of a request of a queue, from the queue's state before the request itself: the read slack leaves out the entry that the read reserves, and
the write slack counts the beat to be written as held (DESIGN CHOICE, notes/assumptions/79.md). -/
def slackOf (s : State) (q : Nat) (write : Bool) : Nat :=
  let x := queueOf s q
  let i := queueInterval s q
  let n := if write then 2 ^ queueLog2 s q - min (2 ^ queueLog2 s q) (usedEntries s q)
    else if queueMode s q = 3 then (x.entries.filter (·.filled)).length
    else x.entries.length
  if i = 0 then 2 ^ 20 else min (n * i / 16) (2 ^ 20 - 1)

def putRequest (s : State) (r : MemReq) : State :=
  let c := channelOfDpa r.dpa
  let ch := channelOf s c
  setChannel s c { ch with requests := ch.requests ++ [r] }

/-- A read of a queue enters the cache slice, and on a miss the channel's request queue. Reads of the mirror itself bypass the cache (R201). -/
def presentRead (s : State) (q a line : Nat) : State :=
  let x := queueOf s q
  let put (y : State) (cached : Bool) : State :=
    setQueue y q { x with entries := x.entries ++ [{ num := x.issued, dpa := a, segLine := line, cached := cached, due := y.now + Config.latLc }],
                          issued := x.issued + 1, wp := (x.wp + 1) % 2 ^ (queueLog2 s q + 1) }
  if cacheHit s a && !inMirror s a then
    countEvent (countUnit (put (cacheTouch s a) true) (queueSite q) 2 1) 0x06 (queueSite q) none a 0 false
  else
    putRequest (put s false) { queue := q, entry := x.issued, dpa := readTarget s a, write := none, deadline := s.now + slackOf s q false,
                               background := queueInterval s q == 0, entered := s.now }

/-- A write of a queue enters the controller: the line is written and any cached copy follows; the burst is still to come. -/
def presentWrite (s : State) (q : Nat) (w : WBeat) : State :=
  putRequest (writeLine s w.addr w.beat.data)
    { queue := q, entry := w.num, dpa := w.addr, write := some w.beat.data, deadline := s.now + slackOf s q true,
      background := queueInterval s q == 0, entered := s.now }

/-- The write buffer of a channel that is RETRAINING holds its 64 lines (R224). -/
def writeBufferFull (s : State) (a : Nat) : Bool :=
  let ch := channelOf s (channelOfDpa a)
  ch.state == .retraining && decide (64 ≤ (ch.requests.filter (fun r => r.write.isSome)).length)

/-- The beats that wait in their queues for a channel enter its controller, in the order of their queues. -/
def presentWaiting (s : State) (c : Nat) : State :=
  let due (w : WBeat) : Bool := w.waiting && channelOfDpa w.addr == c
  (amKeys s.feed.queues).foldl (fun x q =>
    let m := queueOf x q
    (m.beats.filter due).foldl (fun y w => presentWrite y q w)
      (if m.beats.any due then setQueue x q { m with beats := m.beats.map (fun w => if due w then { w with waiting := false } else w) } else x)) s

/-- A channel that serves again takes the beats that wait for it, once beats may move (R229). -/
def channelServes (s : State) (c : Nat) : State := if fabricRuns s then presentWaiting s c else s

/-! ### Work beside the queues (R217, R263) -/

/-- Work enters: its lines take burst slots as requests of interval 0. -/
def addJob (s : State) (kind : JobKind) (write : Bool) (base size : Nat) : State :=
  if size = 0 then s else
  { s with feed := { s.feed with jobs := s.feed.jobs ++ [{ kind := kind, write := write, base := base / 64 * 64, size := size + base % 64, entered := s.now }] } }

def addJobs (s : State) (kind : JobKind) (write : Bool) (ranges : List (Nat × Nat)) : State :=
  ranges.foldl (fun x r => addJob x kind write r.1 r.2) s

/-- Where the image region holds the chunks of a network section, of some types. -/
def chunkRanges (i : Image) (k : Nat) (types : List Nat) : List (Nat × Nat) :=
  (i.chunksAt.filter (fun c => types.contains c.1 && c.2.1 == k)).map (fun c => (i.imageBase + c.2.2.1, c.2.2.2))

def jobPending (s : State) (kind : JobKind) : Bool := s.feed.jobs.any (fun j => j.kind == kind)

def dropJobs (s : State) (kind : JobKind) : State := { s with feed := { s.feed with jobs := s.feed.jobs.filter (fun j => j.kind != kind) } }

/-- Line i on channel c of a job's range, if there is one. -/
def jobLine (j : MemJob) (c i : Nat) : Option Nat :=
  let n := j.base / 64 + (c + Config.channels - j.base / 64 % Config.channels) % Config.channels + i * Config.channels
  if n < j.base / 64 + ceilDiv j.size 64 then some (64 * n) else none

/-- Requests of work stand behind those of the queues on a tie: the numbers above the queue IDs. -/
def jobQueue : Nat := 512

/-- The next request of each job on a channel. -/
def jobRequests (s : State) (c : Nat) : List MemReq :=
  s.feed.jobs.zipIdx.filterMap (fun p => (jobLine p.1 c (lget p.1.issued c 0)).map (fun a =>
    { queue := jobQueue + p.2, entry := 0, dpa := a, write := if p.1.write then some 0 else none, deadline := p.1.entered + 2 ^ 20,
      background := true, entered := p.1.entered }))

/-- A request of a section load or a role 1 copy. -/
def firstClass (s : State) (r : MemReq) : Bool :=
  jobQueue ≤ r.queue && s.feed.jobs[r.queue - jobQueue]?.any (fun j => j.kind == .load || j.kind == .copy)

/-- A job's line has been issued on a channel; a job whose lines have all been issued is over. -/
def jobIssued (s : State) (k c : Nat) : State :=
  let jobs := lmod s.feed.jobs k (fun j => { j with issued := lmod j.issued c (· + 1) })
  let left (j : MemJob) : Bool := (List.range Config.channels).any (fun d => (jobLine j d (lget j.issued d 0)).isSome)
  { s with feed := { s.feed with jobs := jobs.filter left } }

/-! ### Burst slots (R217) -/

/-- a goes before b among requests whose bank accepts: the smaller D, then an open row, then the lower queue. -/
def requestBefore (c draw : Nat) (a b : MemReq) : Bool :=
  if a.deadline ≠ b.deadline then decide (a.deadline < b.deadline)
  else
    let ha := Config.rowHit c a.dpa draw
    let hb := Config.rowHit c b.dpa draw
    if ha != hb then ha else decide (a.queue < b.queue)

def oldestOf (l : List MemReq) : Option MemReq :=
  l.foldl (fun m r => match m with | some v => if r.entered < v.entered then some r else m | none => some r) none

/-- The request that a burst slot issues; in a 16th slot one of interval 0, those of a section load or role 1 copy first. -/
def burstPick (s : State) (c : Nat) (sixteenth : Bool) : Option MemReq :=
  let draw := s.fresh
  let ready := ((channelOf s c).requests ++ jobRequests s c).filter (fun r => Config.bankReady c r.dpa draw)
  let back := ready.filter (·.background)
  let best := ready.foldl (fun (m : Option MemReq) r => match m with | some v => if requestBefore c draw r v then some r else m | none => some r) none
  if sixteenth then ((oldestOf (back.filter (firstClass s))).or (oldestOf back)).or best else best

/-- The fc in which burst slot k of a channel begins: 4 CK are 6.5 fc. Slots counted from fc 0: DESIGN CHOICE (notes/assumptions/73.md). -/
def slotFc (k : Nat) : Fc := ceilDiv (13 * k) 2

/-- The channel's next burst slot. -/
def nextSlot (s : State) (ch : Channel) : Nat := max ch.burstSlot (ceilDiv (2 * s.now) 13)

/-- Bursts ahead of queue traffic take n slots from slot k on (R217). -/
def slotsTaken (ch : Channel) (k n : Nat) : Channel :=
  { ch with burstSlot := k + n, owed := ch.owed || (List.range' k n).any (fun i => i % 16 == 15) }

/-- A block's check line is used, and written where `dirty`: the check buffer after it, and the further bursts: one for a check line that is not in
the buffer, one to write back a line that leaves it (R197). -/
def useCheck (buf : List (Nat × Bool)) (b : Nat) (dirty : Bool) : List (Nat × Bool) × Nat :=
  let old := buf.find? (fun x => x.1 == b)
  let all := (b, dirty || old.any (·.2)) :: buf.filter (fun x => decide (x.1 ≠ b))
  (all.take 16, (if old.isSome then 0 else 1) + (if (all.drop 16).any (·.2) then 1 else 0))

/-- Add n to counter j of a channel; the counters of a LOST channel stop (R444). -/
def countChannel (s : State) (c j n : Nat) : State :=
  if (channelOf s c).state = .lost then s else count s (unitCounter (channelSite c) j) n

/-- Counters of the link of a channel (R198). -/
def linkCounts (s : State) (c : Nat) (l : LinkEcc) : State :=
  let s1 := if l = .corrected ∨ l = .repeatedCorrected then countChannel s c 3 1 else s
  if l = .repeated ∨ l = .repeatedCorrected ∨ l = .failed then countChannel s1 c 4 1 else s1

/-! ### Lines that cannot be read (R226) -/

/-- The mirror copy of a line is readable: it is there, its channel is not LOST, and the read of it was not uncorrectable. -/
def mirrorReadable (s : State) (a : Nat) (mirror : Ecc) : Bool :=
  match mirrorOf s a with
  | some m => mirror != .uncorrectable && !poisoned s m && (channelOf s (channelOfDpa m)).state != .lost
  | none => false

/-- An image line without a readable copy: poisoned, and a class 2 record at the first detection. -/
def imageLost (s : State) (a : Nat) : State :=
  let s1 := poison s a
  if s.feed.reported.contains a then s1
  else channelFault { s1 with feed := { s1.feed with reported := s1.feed.reported ++ [a] } } 0x0704 2 a

/-- The primary line rewritten from its mirror copy, whose read is one like any other (0x0701). -/
def restoreLine (s : State) (a : Nat) (mirror : Ecc) : State :=
  match mirrorOf s a with
  | some m =>
    let s1 := if mirror = .single then channelFault s 0x0701 0 m else s
    channelFault (writeLine s1 a (memLine s.feed.lpddr m)) 0x0702 0 a
  | none => s

/-- A line that work beside the queues reads: as for a queue, but no frame stands behind it. A line outside the image region is poisoned without a
record: the table names queue reads and the patrol alone (DESIGN CHOICE, notes/assumptions/79.md). -/
def jobRead (s : State) (a : Nat) (line mirror : Ecc) : State :=
  if line = .uncorrectable ∨ poisoned s a ∨ (channelOf s (channelOfDpa a)).state = .lost then
    if (inImage s a).isNone then poison s a
    else if mirrorReadable s a mirror then restoreLine s a mirror else imageLost s a
  else if line = .single then channelFault s 0x0701 0 a else s

/-- Bytes that firmware or the trace engine reads: a line that cannot be read comes from its mirror copy, or has bytes that no rule states. -/
def jobBytes (s : State) (base n : Nat) : List Byte :=
  (List.range n).map (fun k =>
    let a := base + k
    let l := 64 * lineOf a
    let bad := poisoned s l || (channelOf s (channelOfDpa l)).state == .lost
    if !bad then memGet s.feed.lpddr a
    else if mirrorReadable s l .good then memGet s.feed.lpddr (((mirrorOf s l).getD l) + a % 64)
    else BitVec.ofNat 8 (Config.free32 (s.fresh + k)).toNat)

/-- A queue's write has gone out: the beat leaves the queue, and its entry is free. -/
def writeGone (s : State) (q num : Nat) : State :=
  let x := queueOf s q
  if x.beats.any (fun w => w.num == num) then
    afterFree s q { x with beats := x.beats.filter (fun w => decide (w.num ≠ num)), rp := (x.rp + 1) % 2 ^ (queueLog2 s q + 1) }
  else s

/-- Check lines cross the link as well (R197, R198): a request whose check line does not come across is handled as uncorrectable, and so are the lines of
a block whose check line does not reach the DRAM. -/
def checkBursts (s : State) (c : Nat) (r : MemReq) (before : List (Nat × Bool)) (slot : BurstSlot) : State :=
  let fetched := !before.any (fun x => x.1 == eccBlock r.dpa)
  let s1 := if fetched then linkCounts s c slot.check else s
  let s2 := if fetched && slot.check == .failed then poison s1 r.dpa else s1
  match (((eccBlock r.dpa, false) :: before.filter (fun x => decide (x.1 ≠ eccBlock r.dpa))).drop 16).find? (·.2) with
  | some old =>
    let s3 := linkCounts s2 c slot.evict
    if slot.evict = .failed then (List.range 7).foldl (fun x k => poison x (blockLine c old.1 k)) s3 else s3
  | none => s2

/-- One decision of a channel: the request leaves its queue, a read is in flight, a write frees its queue's entry. A write that the link cannot carry
leaves a line that reads as uncorrectable (R198). -/
def burst (s : State) (slot : BurstSlot) : State :=
  let c := slot.channel
  let ch := channelOf s c
  let k := nextSlot s ch
  match burstPick s c (k % 16 == 15 || ch.owed) with
  | none => setChannel (drawn s) c { ch with burstSlot := k + 1, owed := false }
  | some r =>
    let job := decide (jobQueue ≤ r.queue)
    let chk := useCheck ch.checkBuf (eccBlock r.dpa) r.write.isSome
    let ch1 := slotsTaken { ch with
      requests := if job then ch.requests else ch.requests.erase r
      inFlight := if job || r.write.isSome then ch.inFlight else ch.inFlight ++ [(r.queue, r.entry, r.dpa)]
      checkBuf := chk.1
      owed := false } (k + 1) chk.2
    let s1 := checkBursts (countChannel (setChannel (drawn s) c ch1) c 2 chk.2) c r ch.checkBuf slot
    let s2 := countChannel s1 c (if r.write.isSome then 1 else 0) 1
    if job then
      let s3 := linkCounts (jobIssued s2 (r.queue - jobQueue) c) c slot.link
      let s4 := if r.write.isSome then (if slot.link = .failed then poison s3 r.dpa else s3)
        else jobRead s3 r.dpa (if slot.link = .failed then .uncorrectable else slot.line) slot.mirror
      countEvent s4 (if r.write.isSome then 0x05 else 0x04) noSite none r.dpa 0 false
    else match r.write with
    | none => countEvent (countUnit s2 (queueSite r.queue) 0 1) 0x04 (queueSite r.queue) none r.dpa 0 false
    | some _ =>
      let s3 := linkCounts s2 c slot.link
      let s4 := if slot.link = .failed then poison s3 r.dpa else s3
      countEvent (countUnit (writeGone s4 r.queue r.entry) (queueSite r.queue) 1 1) 0x05 (queueSite r.queue) none r.dpa 0 false

/-- Each burst slot; a LOST channel still hands its requests on, to be handled as unreadable. -/
def execChannelBurstDecision (slot : BurstSlot) (s : State) : Host.Outcome State Fault Refusal :=
  let t := slotFc (nextSlot s (channelOf s slot.channel))
  done (if slot.channel < Config.channels ∧ (channelOf s slot.channel).state ≠ .retraining ∧ !s.hal.stopped ∧ reaches s t
    then burst (advance s t) slot else s)

/-! ### Maintenance (R223 to R225) -/

/-- A burst ahead of queue traffic on a channel. -/
def maintain (s : State) (c n : Nat) (f : Channel → Channel) : State :=
  setChannel s c (f (slotsTaken (channelOf s c) (nextSlot s (channelOf s c)) n))

/-- Per-bank refresh takes a burst slot ahead of queue traffic. -/
def execRefresh (channel _bank : Nat) (s : State) : Host.Outcome State Fault Refusal :=
  done (maintain s channel 1 (fun ch => { ch with refreshes := ch.refreshes + 1 }))

/-- Background calibration, every 64 ms: its latch is taken in a refresh slot. -/
def zqPeriod : Fc := 83200000
def execZqCalibration (channel : Nat) (s : State) : Host.Outcome State Fault Refusal :=
  let t := zqPeriod * ((channelOf s channel).zqRuns + 1)
  if channel < Config.channels ∧ reaches s t then done (maintain (advance s t) channel 0 (fun ch => { ch with zqRuns := ch.zqRuns + 1 })) else done s

/-- The oscillator has drifted by more than the threshold since the last training. -/
def drifted (threshold trained value : Nat) : Bool :=
  decide (max 1 threshold * trained < (if trained ≤ value then value - trained else trained - value) * 4096)

/-- An oscillator read, every 4 ms, takes a burst slot ahead of queue traffic. -/
def oscPeriod : Fc := 5200000
/-- Before any training the first value read stands for that at the last training, and a window takes the value last read before it: R223 names neither
(DESIGN CHOICE, notes/assumptions/79.md). -/
def execDqsOscillatorRead (channel value : Nat) (s : State) : Host.Outcome State Fault Refusal :=
  let t := oscPeriod * ((channelOf s channel).oscReads + 1)
  if channel < Config.channels ∧ (channelOf s channel).state = .serving ∧ reaches s t then
    done (maintain (advance s t) channel 1 (fun ch => match ch.trained with
      | some v => { ch with osc := value, oscReads := ch.oscReads + 1, needsTraining := ch.needsTraining || drifted s.feed.driftThreshold v value }
      | none => { ch with osc := value, oscReads := ch.oscReads + 1, trained := some value }))
  else done s

def anyRetraining (s : State) : Bool := s.feed.channels.any (fun c => c.state == .retraining)

/-- A CALIBRATE waits for the channel. -/
def calibrating (s : State) (c : Nat) : Bool := isPending s (fun k => k == .calibrate c)

/-- Reads of mirrored lines leave a channel that goes out of service, for the mirror channel. -/
def redirectReads (s : State) (c : Nat) : State :=
  let ch := channelOf s c
  let moves := ch.requests.filter (fun r => r.write.isNone && (mirrorOf s r.dpa).isSome)
  let s1 := setChannel s c { ch with requests := ch.requests.filter (fun r => !(r.write.isNone && (mirrorOf s r.dpa).isSome)) }
  moves.foldl (fun x r => putRequest x { r with dpa := (mirrorOf s r.dpa).getD r.dpa }) s1

/-- The channel is wanted for training: its oscillator has drifted, or a CALIBRATE names it. -/
def wantsTraining (s : State) (c : Nat) : Bool :=
  let ch := channelOf s c
  ch.state == .serving && (ch.needsTraining || calibrating s c || s.feed.calibrating == some c)

/-- No other channel is RETRAINING, no halt is in force, and no lower-numbered channel waits. -/
def execRetrainingWindowStart (channel : Nat) (s : State) : Host.Outcome State Fault Refusal :=
  if Config.channels ≤ channel ∨ !wantsTraining s channel ∨ anyRetraining s ∨ (s.hal.halt ≠ .running ∧ s.hal.halt ≠ .pending)
      ∨ (List.range channel).any (wantsTraining s) then done s
  else
    let s1 := setChannel s channel { channelOf s channel with state := .retraining, secondWindow := false }
    done (redirectReads (count s1 (unitCounter (channelSite channel) 5) 1) channel)

/-- A calibration has completed (event 0x0075 of R431). -/
def calibrated (s : State) (site : Site) (status : Nat) : State := postDev s 0x1B 0x0075 site s.now status

/-- The next SERVING channel from `first` on is wanted for training; past the last, the command completes with the number of channels LOST (R416). -/
def calibrateNext (s : State) (first : Nat) : State :=
  match (List.range' first (Config.channels - first)).find? (fun k => (channelOf s k).state == .serving) with
  | some k => { s with feed := { s.feed with calibrating := some k } }
  | none =>
    let lost := (s.feed.channels.filter (fun x => x.state == .lost)).length
    finishFirst { s with feed := { s.feed with calibrating := none } } (fun k => k == .calibrateAll) stOK (dw lost) s.now

/-- A calibration that names a channel, or all in turn, moves on when the channel has left RETRAINING (R225, R416). -/
def calibrateStep (s : State) (c status : Nat) : State :=
  let one := calibrating s c
  let all := s.feed.calibrating == some c
  let s1 := if one || all then calibrated s (channelSite c) status else s
  let s2 := finishFirst s1 (fun k => k == .calibrate c) status 0 s.now
  if all then calibrateNext s2 (c + 1) else s2

def execRetrainingWindowEnd (channel : Nat) (success : Bool) (s : State) : Host.Outcome State Fault Refusal :=
  let ch := channelOf s channel
  if ch.state ≠ .retraining then done s
  else if success then
    done (calibrateStep (channelServes (setChannel s channel
      { ch with state := .serving, needsTraining := false, secondWindow := false, trained := some ch.osc }) channel) channel stOK)
  else if !ch.secondWindow then
    done (count (setChannel s channel { ch with secondWindow := true }) (unitCounter (channelSite channel) 5) 1)
  else done (calibrateStep (channelServes (loseChannel s 0x0742 channel 0 0) channel) channel stDenied)

/-! ### The patrol (R223, R226) -/

def blocksPerChannel : Nat := 3906250

/-- What the patrol does with one line of its block; a poisoned line reads as uncorrectable whatever its data (R197). -/
def patrolLine (s : State) (a : Nat) (found mirror : Ecc) : State :=
  match if poisoned s a then Ecc.uncorrectable else found with
  | .good => s
  | .single => channelFault s 0x0705 0 a
  | .uncorrectable =>
    if (inImage s a).isSome then (if mirrorReadable s a mirror then restoreLine s a mirror else imageLost s a)
    else channelFault (poison s a) 0x0706 0 a

/-- The patrol of a channel takes one ECC block every 20,800 fc, its bursts ahead of queue traffic. -/
def patrolPeriod : Fc := 20800
def execPatrolBlock (channel : Nat) (found : List ReturnedLine) (mirror : Ecc) (s : State) : Host.Outcome State Fault Refusal :=
  let n := (channelOf s channel).patrolled
  let t := patrolPeriod * (n + 1)
  if Config.channels ≤ channel ∨ (channelOf s channel).state ≠ .serving ∨ !reaches s t then done s
  else
    let s0 := advance s t
    let chk := useCheck (channelOf s0 channel).checkBuf (n % blocksPerChannel) false
    let line (x : State) (p : ReturnedLine × Nat) : State :=
      patrolLine (linkCounts x channel p.1.link) (blockLine channel (n % blocksPerChannel) p.2) (if p.1.link = .failed then .uncorrectable else p.1.ecc) mirror
    let s1 := (found.take 7).zipIdx.foldl line s0
    let s2 := maintain (countChannel s1 channel 2 chk.2) channel (7 + chk.2) (fun ch => { ch with patrolled := n + 1, checkBuf := chk.1 })
    let passes := ((s2.feed.channels.take Config.channels).map (fun c => c.patrolled / blocksPerChannel)).foldl min (2 ^ 32 - 1)
    done { s2 with feed := { s2.feed with patrolPasses := passes } }

/-! ### CALIBRATE (R225, R416) -/

/-- The site word that names every channel. -/
def allChannels : Site := 0x5800FFFF

/-- Any CALIBRATE of the channels is pending. -/
def anyCalibrate (s : State) : Bool :=
  isPending s (fun k => match k with | .calibrate _ => true | .calibrateAll => true | _ => false)

def calibrateChannel (s : State) (p : Packet) : Verdict :=
  let u := pktDw p 2
  let c := siteSub u
  if siteAbsent u then refuse s stNotPresent
  else if !pktOnly p [(2, 0xFFFFFFFF)] || siteKind u != 11 || !sitePresent u then refuse s stBadParam
  else if (channelOf s c).state = .lost then refuse s stDenied
  else if calibrating s c || isPending s (fun k => k == .calibrateAll) then refuse s stBusy
  else .pend (.calibrate c) s

def execCalibrateChannel (c : HostCmd) (s : State) : Host.Outcome State Fault Refusal :=
  takeCmd s c 0x31 0 calibrateChannel

def calibrateAllChannels (s : State) (p : Packet) : Verdict :=
  let u := pktDw p 2
  if siteAbsent u then refuse s stNotPresent
  else if !pktOnly p [(2, 0xFFFFFFFF)] || u != allChannels then refuse s stBadParam
  else if anyCalibrate s then refuse s stBusy
  else match (List.range Config.channels).find? (fun k => (channelOf s k).state == .serving) with
    | some k => .pend .calibrateAll { s with feed := { s.feed with calibrating := some k } }
    | none => okAt s (s.feed.channels.filter (fun x => x.state == .lost)).length

def execCalibrateAllChannels (c : HostCmd) (s : State) : Host.Outcome State Fault Refusal :=
  takeCmd s c 0x31 1 calibrateAllChannels

/-- The adaptation state of a lane's receiver is the outside's: eye height in mV and eye width in 1/64 UI. -/
def calibrateLane (eyeHeight eyeWidth : Nat) (s : State) (p : Packet) : Verdict :=
  let u := pktDw p 2
  if siteAbsent u then refuse s stNotPresent
  else if !pktOnly p [(2, 0xFFFFFFFF)] || !sitePresent u then refuse s stBadParam
  else okAt (calibrated s u stOK) (eyeHeight % 2 ^ 16 + eyeWidth % 2 ^ 8 * 2 ^ 16 + b2n (lget s.lanes.lock (siteSub u) false) * 2 ^ 24)

def execCalibrateLane (c : HostCmd) (eyeHeight eyeWidth : Nat) (s : State) : Host.Outcome State Fault Refusal :=
  takeCmd s c 0x31 2 (calibrateLane eyeHeight eyeWidth)

end Sys2Proof.Machine
end

