-- ==== Sys2Proof/Machine/MemFeed.lean ====
section
/-! DEFINITION. Memory ports: the four queue modes, FETCH, the spill format, circular waits, the descriptor store (spec/07_memory_feed.md R199,
R203 to R211, R221, R222, R227, R230, spec/08_descriptors.md R236 to R245, R253). -/

namespace Sys2Proof.Machine

/-! ### Frames of a port (R230) -/

/-- The grant that the beat at a position of a FEED queue serves. -/
def grantAt : List Grant → Nat → Option Grant
  | [], _ => none
  | g :: rest, n => if n < g.left then some g else grantAt rest (n - g.left)

/-- A line 0 read as a tack line: its kind, frame, first_tag, arrival, void_code and stream (R241, R243). -/
structure SegTack where
  kind : Nat
  frame : Nat
  firstTag : Nat
  arrival : Nat
  code : Nat
  stream : Nat

def segTackOf (d : BitVec 512) : Option SegTack :=
  let f (hi lo : Nat) : Nat := nbits d.toNat hi lo
  if f 47 34 = 0 ∧ f 63 60 = 0 ∧ f 159 144 = 0 ∧ f 511 165 = 0 ∧ (f 33 32 = 1 ∨ (f 33 32 = 0 ∧ f 143 128 = 0)) then
    some ⟨f 33 32, f 31 0, f 59 48, f 127 64, f 143 128, f 164 160⟩
  else none

/-- The tack line that an entry holds, as far as it has been read. -/
def entryTack (e : QEntry) : Option SegTack := if e.filled && !e.bad then segTackOf e.data else none

/-- The stream of each entry of a STREAM_IN queue. -/
def entryStreams : Option Nat → List QEntry → List (Option Nat)
  | _, [] => []
  | cur, e :: rest =>
    let c := if e.segLine = 0 then (entryTack e).map (·.stream) else cur
    c :: entryStreams c rest

/-- Stream and frame of the segment that a STREAM_IN queue is sending: its open tack line has gone, and data lines of it are still to leave. -/
def sendingFrame (x : MemQueue) : Option (Nat × Nat) :=
  let more : Bool := match x.entries.head? with
    | some e => e.segLine != 0
    | none => x.seg.next != 0 && x.gen.state == .running
  if x.seg.sendKind = 1 ∧ more then x.seg.stream.map (fun st => (st, x.seg.frame)) else none

/-- The frame that each entry of a STREAM_IN queue is of, as far as its line 0 has been read: none in a segment whose frame has been given up, or whose
line 0 is a void tack line. -/
def entryFrames : Option (Nat × Nat) → List QEntry → List (Option (Nat × Nat))
  | _, [] => []
  | cur, e :: rest =>
    let c := if e.segLine ≠ 0 then cur else if e.dropCode.isSome then none
      else (entryTack e).bind (fun t => if t.kind = 0 then some (t.stream, t.frame) else none)
    c :: entryFrames c rest

/-- The frame of beat j of a spill read, as the steering unit that asked for it holds it: the port itself stores no frame. -/
def spillFrame (s : State) (r : SpillReq) (j : Nat) : Option Nat :=
  ((amGetD (steerOf s r.site).queues r.queue {}).subFrames[j]?).join

/-- Streams and frames in progress at a queue: those with beats, grants or reads in it (R230). A grant that is being discarded, and the void tack line of
a segment, are of a frame that is over. -/
def queueFrames (s : State) (q : Nat) : List (Nat × Nat) :=
  let x := queueOf s q
  let gs := (x.grants.filter (fun g => !g.discard)).map (fun g => (g.stream, g.frame))
  let ins := if heldMode s q = 1 then (sendingFrame x).toList ++ (entryFrames (sendingFrame x) x.entries).filterMap id else []
  let seg : List (Nat × Nat) := match x.seg.stream with
    | some st => if heldMode s q = 2 ∧ x.seg.open_ then [(st, x.seg.frame)] else []
    | none => []
  let wr := (x.beats.filter (fun w => !isVoidTack w.beat)).map (fun w => (bStream w.beat, w.frame))
  let rd := x.requests.flatMap (fun r => (List.range (r.count - r.sent)).filterMap (fun j => (spillFrame s r j).map (fun f => (r.stream, f))))
  dedup (gs ++ ins ++ seg ++ wr ++ rd)

def portFrames (s : State) (port : Nat) : List (Nat × Nat) := dedup ((portSlots port).flatMap (queueFrames s))

/-! ### Giving up what a queue serves -/

/-- The FETCH of a grant at its tile. -/
def fetchOf (q : Nat) (g : Grant) (f : FetchRec) : Bool := f.queue == q && f.accepted && f.number == g.number

/-- The tile of a FETCH gives up its slot, as at a watchdog, without a record of its own. The rest of the FETCH is discarded, and it is complete with
the beats that have been sent (R211). -/
def dropFetch (s : State) (q : Nat) (g : Grant) (code : Nat) : State :=
  let x := queueOf s q
  let s1 := setQueue s q { x with grants := x.grants.map (fun y => if y = g then { y with discard := true } else y) }
  let t := tileOf s1 g.tile
  let cut := t.fetches.map (fun f => if fetchOf q g f then { f with count := f.homes.length } else f)
  let s2 := setTile s1 g.tile { t with fetches := cut.filter (fun f => decide (f.written < f.count)) }
  match slotAt (tileOf s2 g.tile).slots g.slot with
  | some sl => if sl.stream = g.stream ∧ sl.frame = g.frame then tileGiveUp s2 g.tile g.slot code else s2
  | none => s2

/-- A FETCH's frame aborted with a record. -/
def abortFetch (s : State) (q : Nat) (g : Grant) (code : Nat) (site : Site) (d0 d1 : Dword) : State :=
  dropFetch (abortRecord s code site g.stream g.frame d0 d1) q g code

/-- A tack line at a STREAM_IN queue's output: sent for each segment, also for one that is read again. -/
def sendTackLine (s : State) (e : EndPoint) (b : Beat) : State :=
  let s1 := pushOut s e { beat := b }
  if isVoidTack b then { s1 with fabric := { s1.fabric with voidSent := amSet s1.fabric.voidSent (e, bStream b) (tackFrame b) } }
  else { s1 with fabric := { s1.fabric with openSent := amSet s1.fabric.openSent (e, bStream b) (tackFrame b) } }

/-- A segment's frame given up before its line 0 has gone: the open and the void tack line, and nothing more of the segment (R173, R243). -/
def voidSegment (s : State) (q : Nat) (t : SegTack) (code : Nat) : State :=
  let e := queueEnd q
  let x := queueOf s q
  let s1 := setQueue s q { x with seg := { x.seg with sendKind := 3, stream := some t.stream, frame := t.frame } }
  sendTackLine (sendTackLine s1 e (mkTack t.stream t.frame 0 t.firstTag t.arrival 0)) e (mkTack t.stream t.frame 1 t.firstTag t.arrival code)

/-- The frame that a STREAM_IN queue is sending is given up: its void tack line, and nothing more of the segment. -/
def cutSegment (s : State) (q code : Nat) : State :=
  let x := queueOf s q
  match x.seg.stream, segTackOf x.seg.tack with
  | some st, some t =>
    if x.seg.sendKind = 1 then
      sendVoid (setQueue s q { x with seg := { x.seg with sendKind := 3 } }) (queueEnd q) st x.seg.frame ⟨t.arrival, t.firstTag⟩ code
    else s
  | _, _ => s

/-- The head entry of a STREAM_IN queue cannot be sent: the frame that it serves is aborted with a record and given up. Line 0 serves its own frame;
where its data cannot be read the frame is not known, and nothing of the segment is sent. -/
def abortLine (s : State) (q : Nat) (e : QEntry) (known : Bool) (code : Nat) (site : Site) (d0 d1 : Dword) : State :=
  let x := queueOf s q
  if e.segLine ≠ 0 then
    match x.seg.stream with
    | some st => if x.seg.sendKind = 1 then cutSegment (abortRecord s code site st x.seg.frame d0 d1) q code else s
    | none => s
  else match (if known then segTackOf e.data else none) with
    | some t => voidSegment (abortRecord s code site t.stream t.frame d0 d1) q t code
    | none => fault (setQueue s q { x with seg := { x.seg with sendKind := 3 } }) code 1 site d0 d1

/-! ### Reads (R199, R205, R206) -/

/-- The next address a queue would read, and the queue after it has yielded it. -/
def nextRead (s : State) (q : Nat) : Option (Int × MemQueue × Nat) :=
  let x := queueOf s q
  if queueMode s q = 3 then
    match x.requests.find? (fun r => decide (r.issued < r.count)) with
    | some r => some (((r.addr + 64 * r.issued : Nat) : Int), { x with requests := x.requests.replace r { r with issued := r.issued + 1 } }, 0)
    | none => none
  else
    let code := codeOf s q
    let left := { x.gen with left := x.gen.left - queueFreeing s.now x }
    if x.gen.stalled || !programSound s q || !runAheadOk left code then none
    else (genNext x.gen code).map (fun r => (r.1, { x with gen := r.2, seg := { x.seg with next := x.seg.next + 1 } }, x.seg.next))

/-- In DRAINING a FEED queue reads only for its grants, and a STREAM_IN queue begins no segment. -/
def readWanted (s : State) (q : Nat) : Bool :=
  if unitState s (portSite (q / 8) 0) = .enabled then true
  else
    let x := queueOf s q
    match queueMode s q with
    | 0 => decide (x.entries.length < (x.grants.map (·.left)).foldl (· + ·) 0)
    | 1 => x.seg.next != 0
    | _ => true

/-- Reads in flight: entries not filled. -/
def readsOut (x : MemQueue) : Nat := (x.entries.filter (fun e => !e.filled)).length

/-- An address above the usable top, or outside the mode's regions (R199): no access is issued for it. Its entry stands in the queue as one that cannot
be read, and the frame that it serves is aborted when the queue comes to it. -/
def rangeFault (s : State) (q : Nat) (a : Int) (x : MemQueue) (line : Nat) : State :=
  let n := (a % (2 ^ 36 : Int)).toNat
  let s1 := faultAt s 0x0760 4 (queueSite q) none noFrame (lo32 n) (dw (n / 2 ^ 32)) s.now
  setQueue s1 q { x with entries := x.entries ++ [{ num := x.issued, dpa := n, filled := true, bad := true, range := true, segLine := line }],
                         issued := x.issued + 1, wp := (x.wp + 1) % 2 ^ (queueLog2 s q + 1) }

/-- A read-side queue reserves an entry and issues its next read, when every condition of R205 holds; a port issues one read or write per fc. -/
def readIssue (s0 : State) (q : Nat) : State :=
  let s := advance s0 (portSlot s0 (q / 8))
  if !queueActs s q || queueMode s q == 2 || !queueRoom s q || decide (queueLimit s q ≤ readsOut (queueOf s q))
      || !regulatorOpen s q || !readWanted s q then s0
  else
    match nextRead s q with
    | none => s0
    | some (a, x, line) =>
      if a < 0 ∨ !mayAccess s (queueMode s q) false a.toNat then rangeFault s q a x line
      else presentRead (portIssued (regulatorSpend (setQueue s q x) q) (q / 8)) q a.toNat line

def execQueueReadIssue (queue : Nat) (s : State) : Host.Outcome State Fault Refusal := done (readIssue s queue)

/-- One instruction, or at a RUN of a read-side queue one address. -/
def execGeneratorStep (queue : Nat) (s : State) : Host.Outcome State Fault Refusal :=
  if !queueActs s queue || queueMode s queue == 3 || (queueOf s queue).gen.stalled then done s
  else
    let x := queueOf s queue
    if (genNext x.gen (codeOf s queue)).isSome ∧ queueMode s queue ≤ 1 then done (readIssue s queue)
    else done (genStep s queue)

/-- An open tack line of the bound stream at the head of the input resumes a generator in FRAME_WAIT. -/
def execGeneratorFrameResume (queue : Nat) (s : State) : Host.Outcome State Fault Refusal :=
  let x := queueOf s queue
  if !queueActs s queue || queueMode s queue != 2 || x.gen.state != .frameWait then done s
  else match (inBuf s (queueEnd queue)).head? with
    | some b =>
      if isOpenTack b ∧ (x.seg.stream = none ∨ x.seg.stream = some (bStream b)) then
        done (setQueue s queue { x with gen := { x.gen with state := .running, pc := x.gen.pc + 1 }, seg := { x.seg with open_ := false, next := 0 } })
      else done s
    | none => done s

/-! ### Read returns (R213, R215, R226) -/

/-- The data fills its entry; bad when the line could not be read. -/
def fillEntry (s : State) (q num a : Nat) (bad : Bool) : State :=
  let x := queueOf s q
  setQueue s q { x with entries := x.entries.map (fun e => if e.num = num then
    { e with filled := true, bad := bad, data := memLine s.feed.lpddr a, side := amGetD s.feed.spillSide e.dpa 0 } else e) }

/-- A read of a mirrored line whose copy cannot be read goes to the line itself where its channel is in service or will be again; else it is lost. -/
def readAgain (s : State) (a src : Nat) : Bool := src != a && (channelOf s (channelOfDpa a)).state != .lost

/-- What R226 does with a line read for a queue: the line to take the data from, or none. Its table has no row for a line of the mirror region that a
FEED queue reads for itself: it counts as an image line without a copy (DESIGN CHOICE, notes/assumptions/79.md). -/
def checkLine (s : State) (q a src : Nat) (line mirror : Ecc) : State × Option Nat :=
  let bad := line == .uncorrectable || poisoned s src || (channelOf s (channelOfDpa src)).state == .lost
  if !bad then ((if line = .single then channelFault s 0x0701 0 src else s), some src)
  else if (inImage s a).isSome then
    (if src = a ∧ mirrorReadable s a mirror then (restoreLine s a mirror, mirrorOf s a) else (imageLost s a, none))
  else if heldMode s q = 1 ∨ heldMode s q = 3 then (poison s a, none)
  else (imageLost s a, none)

/-- The grant that the beat of an entry serves. -/
def grantOf (x : MemQueue) (num : Nat) : Option Grant := grantAt x.grants (x.entries.takeWhile (fun e => decide (e.num ≠ num))).length

/-- The LPDDR5 read of an entry has returned. A FEED queue that holds a grant for the beat gives its FETCH up at once (R211). -/
def lineReturn (s : State) (q : Nat) (e : QEntry) (src : Nat) (line mirror : Ecc) : State :=
  if readAgain s e.dpa src && (line == .uncorrectable || poisoned s src || (channelOf s (channelOfDpa src)).state == .lost) then
    putRequest s { queue := q, entry := e.num, dpa := e.dpa, write := none, deadline := s.now + slackOf s q false,
                   background := queueInterval s q == 0, entered := s.now }
  else
    let r := checkLine s q e.dpa src line mirror
    match r.2 with
    | some a =>
      let s1 := fillEntry r.1 q e.num a false
      if queueCaches s q && !inMirror s e.dpa then cacheAlloc s1 e.dpa else s1
    | none =>
      let s1 := fillEntry r.1 q e.num e.dpa true
      match heldMode s q, grantOf (queueOf s1 q) e.num with
      | 0, some g => if g.discard then s1 else abortFetch s1 q g 0x0703 (channelSite (channelOfDpa e.dpa)) (dpaLo e.dpa) (dpaHi e.dpa)
      | _, _ => s1

/-- A cached read whose word cannot be corrected is served from LPDDR5, its line invalidated; a pinned line is refilled and pinned again. -/
def cacheRefill (s : State) (q : Nat) (e : QEntry) : State :=
  let pinned := s.feed.cache.any (fun c => c.line == lineOf e.dpa && c.pinned)
  let s1 := channelFault s 0x0750 0 e.dpa
  let s2 := if pinned then s1 else cacheDrop s1 e.dpa
  let x := queueOf s2 q
  let s3 := setQueue s2 q { x with entries := x.entries.map (fun y => if y.num = e.num then { y with cached := false } else y) }
  putRequest s3 { queue := q, entry := e.num, dpa := readTarget s e.dpa, write := none, deadline := s.now + slackOf s q false,
                  background := queueInterval s q == 0, entered := s.now }

/-- The data of a read whose entry has gone is discarded (R73, R228). -/
def lostReturn (s : State) (q num : Nat) : State :=
  let hit (r : Nat × Nat × Nat) : Bool := r.1 == q && r.2.1 == num
  { s with feed := { s.feed with channels := s.feed.channels.map (fun c => { c with inFlight := c.inFlight.filter (fun r => !hit r) }) } }

/-- What the return of a read does for the entry of a number. -/
def readReturn (s : State) (queue entry : Nat) (cacheWord : Ecc) (line : ReturnedLine) (mirror : Ecc) : State :=
  match (queueOf s queue).entries.find? (fun e => e.num == entry) with
  | none => lostReturn s queue entry
  | some e =>
    if e.filled then s
    else if e.cached then
      if !reaches s e.due then s else
      let s1 := advance s e.due
      match cacheWord with
      | .good => fillEntry s1 queue entry e.dpa false
      | .single => fillEntry (channelFault s1 0x0750 0 e.dpa) queue entry e.dpa false
      | .uncorrectable => cacheRefill s1 queue e
    else
      match (List.range Config.channels).findSome? (fun c => ((channelOf s c).inFlight.find? (fun r => r.1 == queue && r.2.1 == entry)).map (fun r => (c, r))) with
      | none => s
      | some (c, r) =>
        let ch := channelOf s c
        let s1 := linkCounts (setChannel s c { ch with inFlight := ch.inFlight.erase r }) c line.link
        lineReturn s1 queue e r.2.2 (if line.link = .failed then .uncorrectable else line.ecc) mirror

/-! ### FETCH (R208 to R211) -/

/-- The request at the front of the bus reaches its queue: accepted, offered again in the next fc, or refused by a port that takes no new frame. -/
def execFetchRequestArrive (queue : Nat) (s : State) : Host.Outcome State Fault Refusal :=
  let x := queueOf s queue
  match x.fetchOffers with
  | [] => done s
  | g :: rest =>
    if !fabricRuns (advance s g.due) ∨ unitHeld s (portSite (queue / 8) 0) then done s
    else
      let s1 := advance s g.due
      let port := portSite (queue / 8) 0
      if unitState s port ≠ .enabled ∧ !(portFrames s (queue / 8)).contains (g.stream, g.frame) then
        let s2 := setQueue s1 queue { x with fetchOffers := rest }
        let t := tileOf s2 g.tile
        let s3 := setTile s2 g.tile { t with fetches := t.fetches.filter (fun f => !(f.queue == queue && f.slot == g.slot && !f.accepted)) }
        done (dropFetch (abortRecord s3 0x0730 port g.stream g.frame 0 0) queue g 0x0730)
      else if 8 ≤ x.grants.length ∨ x.leaving.isSome then done (setQueue s1 queue { x with fetchOffers := { g with due := s1.now + 1 } :: rest })
      else
        let n := x.nextFetch
        let s2 := setQueue s1 queue { x with fetchOffers := rest, grants := x.grants ++ [{ g with number := n }], nextFetch := (n + 1) % 65536 }
        let t := tileOf s2 g.tile
        let pick := t.fetches.find? (fun f => f.queue == queue && f.slot == g.slot && !f.accepted)
        let fs := match pick with | some f => t.fetches.replace f { f with accepted := true, number := n } | none => t.fetches
        let s3 := setTile s2 g.tile { t with fetches := fs }
        done (traceNow s3 0x0019 (queueSite queue) (some g.stream) (dw g.frame) (fetchKey g.tile g.count n) 0 0)

/-- The head entry leaves the queue. -/
def popEntry (s : State) (q : Nat) : State :=
  let x := queueOf s q
  afterFree s q { x with entries := x.entries.tail, rp := (x.rp + 1) % 2 ^ (queueLog2 s q + 1), gen := { x.gen with left := x.gen.left + 1 } }

/-- A queue's output is free, with a credit. -/
def queueCredit (s : State) (q : Nat) : Bool := outFree s (queueEnd q)

/-- A not-valid read, one per fc (R207). -/
def notValid (s : State) (q : Nat) : State :=
  let x := queueOf s q
  if x.missAt = some s.now then s
  else countEvent (countUnit (setQueue s q { x with missAt := some s.now }) (queueSite q) 3 1) 0x07 (portSite (q / 8) 0) none 0 0 false

def sentBeats (s : State) (q n : Nat) : State := countUnit s (queueSite q) 4 n

/-- The first grant has one beat less to come. -/
def grantTaken (s : State) (q : Nat) : State :=
  let x := queueOf s q
  match x.grants with
  | g :: rest => setQueue s q { x with grants := if g.left ≤ 1 then rest else { g with left := g.left - 1 } :: rest }
  | [] => s

/-- The grant's FETCH at its tile has one more beat on its way, from an address. -/
def fetchSent (s : State) (q : Nat) (g : Grant) (a : Nat) : State :=
  let t := tileOf s g.tile
  setTile s g.tile { t with fetches := t.fetches.map (fun f => if fetchOf q g f then { f with homes := f.homes ++ [a] } else f) }

/-- The head beat of a FEED queue that holds a grant, or a not-valid read. A parity error discards the entry and aborts the frame of its FETCH (R227), as
a line that could not be read (R211), or an address out of range (R199), does. -/
def execFeedBeatSend (queue : Nat) (parity : Bool) (s : State) : Host.Outcome State Fault Refusal :=
  let x := queueOf s queue
  if !queueServes s queue || queueMode s queue != 0 then done s else
  match x.grants.head? with
  | none => done s
  | some g =>
    match x.entries.head? with
    | none => done (notValid s queue)
    | some e =>
      let gone (y : State) : State := grantTaken (popEntry y queue) queue
      if !e.filled then done (notValid s queue)
      else if g.discard then done (gone s)
      else if parity then done (gone (abortFetch s queue g 0x0751 (queueSite queue) 0 0))
      else if e.range then done (gone (abortFetch s queue g 0x0761 (queueSite queue) 0 0))
      else if e.bad then done (gone (abortFetch s queue g 0x0703 (channelSite (channelOfDpa e.dpa)) (dpaLo e.dpa) (dpaHi e.dpa)))
      else if !queueCredit s queue then done s
      else
        let s1 := gone (fetchSent s queue g e.dpa)
        done (sentBeats (pushOut s1 (queueEnd queue) { beat := mkBeat tyData 0 g.stream false false e.data }) queue 1)

/-! ### STREAM_IN (R241, R243) -/

/-- Line 0 of a segment. -/
def sendLine0 (s : State) (q : Nat) (d : BitVec 512) : State :=
  let x := queueOf s q
  let put (k : Nat) (t : Option SegTack) : State :=
    setQueue s q { x with seg := { x.seg with sendKind := k, tack := d, frame := match t with | some y => y.frame | none => x.seg.frame,
                                              firstTag := match t with | some y => y.firstTag | none => 0,
                                              stream := match t with | some y => some y.stream | none => x.seg.stream } }
  match segTackOf d with
  | some t =>
    let e := queueEnd q
    let s1 := sendTackLine (put (if t.kind = 0 then 1 else 2) (some t)) e (mkTack t.stream t.frame 0 t.firstTag t.arrival 0)
    let s2 := if t.kind = 0 then s1 else sendTackLine s1 e (mkTack t.stream t.frame 1 t.firstTag t.arrival t.code)
    sentBeats s2 q (if t.kind = 0 then 1 else 2)
  | none => fault (put 3 none) 0x0805 4 (queueSite q) 0 0

/-- Data line j of a segment, with the sideband that its place gives. -/
def sendLine (s : State) (q j : Nat) (d : BitVec 512) : State :=
  let x := queueOf s q
  let r := progRowBeats (codeOf s q)
  match x.seg.stream with
  | some st =>
    if x.seg.sendKind ≠ 1 then s
    else sentBeats (pushOut s (queueEnd q) { beat := mkBeat tyData ((x.seg.firstTag + (j - 1) / r) % 4096) st (j % r == 0) false d }) q 1
  | none => s

/-- A queue with a declared interval has nothing to send while its port is in proof (R414). -/
def proofMisses (s : State) (q : Nat) : Bool :=
  let u := portSite (q / 8) 0
  queueHere s q && fabricRuns s && proofStops s u && unitState s u != .lost && queueInterval s q != 0

/-- The head entry of a STREAM_IN queue leaves as its segment says, or a not-valid read. While a discard moves rp the head is not read (R171). -/
def execStreamInBeatSend (queue : Nat) (parity : Bool) (s0 : State) : Host.Outcome State Fault Refusal :=
  let s := advance s0 (discardEnd (queueOf s0 queue))
  if queueMode s queue != 1 || !queueCredit s queue then done s0 else
  if !queueServes s queue then done (if proofMisses s queue then notValid s queue else s0) else
  match (queueOf s queue).entries.head? with
  | none => done (notValid s queue)
  | some e =>
    let s1 := popEntry s queue
    if !e.filled then done (notValid s queue)
    else if parity then done (abortLine s1 queue e (!e.bad) 0x0751 (queueSite queue) 0 0)
    else if e.range then done (abortLine s1 queue e false 0x0761 (queueSite queue) 0 0)
    else if e.bad then done (abortLine s1 queue e false 0x0703 (channelSite (channelOfDpa e.dpa)) (dpaLo e.dpa) (dpaHi e.dpa))
    else if e.segLine ≠ 0 then done (sendLine s1 queue e.segLine e.data)
    else match e.dropCode, segTackOf e.data with
      | some code, some t => done (voidSegment s1 queue t code)
      | _, _ => done (sendLine0 s1 queue e.data)

/-! ### STREAM_OUT (R241, R242) -/

/-- Streams whose beats stand in the pool entries of a STREAM_IN queue: those behind its own entries (R203). -/
def poolStreams (s : State) (q : Nat) : List Nat :=
  let x := queueOf s q
  if heldMode s q ≠ 1 ∨ !queueBorrow s q then [] else
  ((x.entries.zip (entryStreams x.seg.stream x.entries)).drop (2 ^ queueLog2 s q)).filterMap (fun p => if p.1.filled then p.2 else none)

/-- The wait edges of a beat that is refused because the queue's own entries and the pool are full (R221). -/
def poolWait (s : State) (q st : Nat) : State :=
  let port := q / 8
  if usedEntries s q < 2 ^ queueLog2 s q ∨ poolUsed s port < poolSize s port then s else
  let new := (dedup ((portQueues s port).flatMap (poolStreams s))).filter (fun t => t != st && !s.feed.edges.any (fun e => e.1 == st && e.2.1 == t && e.2.2.1 == port))
  { s with feed := { s.feed with edges := s.feed.edges ++ new.map (fun t => (st, t, port, s.now)) } }

/-- The beat at the head of a STREAM_OUT or SPILL queue's input is of a stream, and is refused. -/
def refusedAt (s : State) (st q : Nat) : Bool :=
  decide (2 ≤ queueMode s q) && !queueRoom s q && (inBuf s (queueEnd q)).head?.any (fun b => bStream b == st)

/-- A refused beat of a stream has been accepted or discarded at a port: the stream waits no longer, unless another of its beats is refused there. -/
def waitOver (s : State) (port st : Nat) (others : List Nat) : State :=
  if others.any (refusedAt s st) then s
  else { s with feed := { s.feed with edges := s.feed.edges.filter (fun e => !(e.1 == st && e.2.2.1 == port)) } }

/-- A write of a queue: regulator, pointers, the port's issue, and the line; behind a full write buffer the beat waits in the queue (R224). -/
def queueWrite (s : State) (q a : Nat) (b : Beat) (frame : Nat) : State :=
  let s1 := portIssued (waitOver (regulatorSpend s q) (q / 8) (bStream b) ((portQueues s (q / 8)).filter (fun k => decide (k ≠ q)))) (q / 8)
  let x := queueOf s1 q
  let w : WBeat := { num := x.taken, addr := a, beat := b, frame := frame, waiting := writeBufferFull s a }
  let s2 := setQueue s1 q { x with beats := x.beats ++ [w], taken := x.taken + 1, wp := (x.wp + 1) % 2 ^ (queueLog2 s q + 1) }
  if w.waiting then s2 else presentWrite s2 q w

/-- The line that a tack line is stored as. -/
def tackLine (st frame kind firstTag arrival code : Nat) : BitVec 512 :=
  BitVec.ofNat 512 (frame % 2 ^ 32 + kind * 2 ^ 32 + firstTag % 4096 * 2 ^ 48 + arrival % 2 ^ 64 * 2 ^ 64 + code % 2 ^ 16 * 2 ^ 128 + st % 32 * 2 ^ 160)

/-- A stored tack line made void, with a code. -/
def voidedLine (d : BitVec 512) (code : Nat) : BitVec 512 :=
  match segTackOf d with
  | some t => tackLine t.stream t.frame 1 t.firstTag t.arrival code
  | none => d

/-- A stored line of a stream, as a beat. -/
def lineBeat (st : Nat) (d : BitVec 512) : Beat := mkBeat tyTack 0 st false false d

/-- Line 0 of a queue's segment as the frame's void tack line. -/
def owedLine (x : MemQueue) (code : Nat) : OwedLine := ⟨x.seg.line0, x.seg.frame, lineBeat (x.seg.stream.getD 0) (voidedLine x.seg.tack code)⟩

/-- Line 0 of the queue's segment written again as the frame's void tack line. -/
def rewriteLine0 (s : State) (q code : Nat) : State :=
  let w := owedLine (queueOf s q) code
  queueWrite s q w.addr w.beat w.frame

/-- The generator leaves the segment for the instruction after the next FRAME. -/
def leaveSegment (s : State) (q : Nat) : State :=
  let x := queueOf s q
  setQueue s q { x with gen := skipFrame (codeOf s q) skipFuel { x.gen with run := none }, seg := { x.seg with open_ := false, next := 0 } }

/-- The frame of the queue's segment is voided: line 0, 0x0801, 0x0802. -/
def voidFrame (s : State) (q : Nat) : State :=
  let x := queueOf s q
  let st := x.seg.stream.getD 0
  let s1 := rewriteLine0 s q 0x0802
  let s2 := faultFrame s1 0x0801 4 (queueSite q) st x.seg.frame 0 0
  let s3 := abortRecord s2 0x0802 (queueSite q) st x.seg.frame 0 0
  let y := queueOf s3 q
  setQueue s3 q { y with seg := { y.seg with voided := true } }

/-- The frame's open tack line at line 0 of a segment. -/
def writeLine0 (s : State) (q : Nat) (b : Beat) (a : Nat) (g : Generator) : State :=
  let line := tackLine (bStream b) (tackFrame b) 0 (tackFirst b) (tackArrival b) 0
  let x := queueOf s q
  queueWrite (setQueue s q { x with gen := g, seg := { x.seg with stream := some (bStream b), line0 := a, frame := tackFrame b, tack := line, next := 1,
                                                                  open_ := true, voided := false } }) q a (lineBeat (bStream b) line) (tackFrame b)

/-- The generator leaves the segment of a frame that is given up while no write can be issued for it: a segment that the frame has begun is owed its void
tack line (R242). The queue is bound to the stream, also where the tack line that binds it is the beat that is lost. -/
def oweSegment (s : State) (q st frame code : Nat) (g : Generator) : State :=
  let x := queueOf s q
  let begun := x.seg.open_ && x.seg.stream == some st && x.seg.frame == frame
  leaveSegment (setQueue s q { x with gen := g, voidOwed := if begun then some (owedLine x code) else x.voidOwed
                                      seg := { x.seg with stream := some st, voided := x.seg.voided || begun } }) q

/-- An address outside the mode's regions for a write: reported, no write issued, the frame aborted and voided as far as it stands. -/
def writeRange (s : State) (q : Nat) (a : Int) (st frame : Nat) (g : Generator) : State :=
  let n := (a % (2 ^ 36 : Int)).toNat
  let s1 := faultFrame s 0x0760 4 (queueSite q) st frame (lo32 n) (dw (n / 2 ^ 32))
  discardInput (oweSegment (abortRecord s1 0x0761 (queueSite q) st frame 0 0) q st frame 0x0761 g) (queueEnd q) st frame

/-- A beat that cannot be stored, or one of a frame whose segment is not the current one: its frame is aborted, and voided where it has a segment. -/
def unstorable (s : State) (q st frame code : Nat) : State :=
  let x := queueOf s q
  let s1 := faultFrame s code 4 (queueSite q) st frame 0 0
  if x.seg.stream = some st ∧ x.seg.frame = frame ∧ x.seg.tack ≠ 0 then
    if x.seg.voided then s1
    else if x.seg.open_ then leaveSegment (voidFrame s1 q) q else voidFrame s1 q
  else discardInput (abortRecord s1 0x0802 (queueSite q) st frame 0 0) (queueEnd q) st frame

/-- A data beat of the frame in the segment: written at the next line, where its last_of_row is that of the line. -/
def segmentBeat (s : State) (q st : Nat) (b : Beat) : State :=
  let x := queueOf s q
  let code := codeOf s q
  let j := x.seg.next
  if bLast b != (j % progRowBeats code == 0) then unstorable s q st x.seg.frame 0x0803
  else match genNext x.gen code with
    | some (a, g) =>
      if a < 0 ∨ !mayAccess s 2 true a.toNat then writeRange s q a st x.seg.frame g
      else queueWrite (setQueue s q { x with gen := g, seg := { x.seg with next := j + 1 } }) q a.toNat b x.seg.frame
    | none => s

/-- A beat of the bound stream, or the first open tack line, has been taken: what the table of R242 does with it. `frame` is the beat's own. An open tack
line inside a segment is not taken here: the unfinished frame is voided first, and the tack line meets the segment after it. -/
def streamOutTake (s : State) (q : Nat) (b : Beat) (frame : Nat) : State :=
  let x := queueOf s q
  let st := bStream b
  let running := x.gen.state == .running
  let mine := x.seg.frame == frame && x.seg.tack != 0
  if isOpenTack b then
    if !running then fault s 0x0808 4 (queueSite q) 0 0
    else match genNext x.gen (codeOf s q) with
      | some (a, g) => if a < 0 ∨ !mayAccess s 2 true a.toNat then writeRange s q a st frame g else writeLine0 s q b a.toNat g
      | none => s
  else if isVoidTack b then
    if x.seg.open_ && running && mine then leaveSegment (rewriteLine0 s q (tackCode b)) q
    else if x.gen.state = .frameWait ∧ mine then rewriteLine0 s q (tackCode b)
    else if x.gen.state = .done then faultFrame s 0x0808 4 (queueSite q) st frame 0 0
    else s
  else if x.seg.voided && mine then s
  else if bType b ≠ tyData ∨ bOutlier b then unstorable s q st frame 0x0803
  else if running then (if x.seg.open_ && mine then segmentBeat s q st b else fault s 0x0801 4 (queueSite q) 0 0)
  else if mine then voidFrame s q
  else fault s 0x0808 4 (queueSite q) 0 0

/-- The generator is where a beat can be handled: at an address, waiting, or at its end. -/
def streamOutReady (s : State) (q : Nat) (b : Beat) : Bool :=
  let x := queueOf s q
  match x.gen.state with
  | .running => (genNext x.gen (codeOf s q)).isSome && programSound s q && !x.gen.stalled
  | .frameWait => !isOpenTack b
  | .done => true
  | .idle => false

/-- The open tack line of another frame stands at a segment that is not finished (R242). -/
def segmentCut (x : MemQueue) (b : Beat) : Bool := isOpenTack b && x.seg.open_ && x.gen.state == .running && x.seg.next != 0

/-- A parity error in the storage of a STREAM_OUT queue: the beat goes, its frame is aborted, and the queue is discarded to its next tack line (R227).
The open tack line that is lost binds a RUNNING queue all the same; its segment is the next frame's. -/
def storageLost (s : State) (q st frame : Nat) (open_ : Bool) : State :=
  let x := queueOf s q
  let s1 := abortRecord s 0x0751 (queueSite q) st frame 0 0
  let s2 := if x.seg.open_ ∧ x.seg.frame = frame then oweSegment s1 q st frame 0x0751 x.gen
    else if open_ ∧ x.gen.state = .running then setQueue s1 q { x with seg := { x.seg with stream := some st } }
    else s1
  discardInput s2 (queueEnd q) st frame

/-- A STREAM_OUT queue takes the head beat of its input. A void tack line still owed to line 0 of its last segment is written before it, also by a port
that takes no frame any more, and by a queue that another hoist uses otherwise (R173, R228, R230). -/
def execStreamOutBeatWrite (access : StorageAccess) (s0 : State) : Host.Outcome State Fault Refusal :=
  let ⟨queue, parity⟩ := access
  let s := advance s0 (portSlot s0 (queue / 8))
  let x := queueOf s queue
  let e := queueEnd queue
  if !fabricRuns s || unitHeld s e.site || Config.memPorts ≤ queue / 8 then done s0 else
  match x.voidOwed with
  | some w =>
    if !queueRoom s queue || !regulatorOpen s queue then done s0
    else done (queueWrite (setQueue s queue { x with voidOwed := none }) queue w.addr w.beat w.frame)
  | none =>
  if !queueHere s queue || queueMode s queue != 2 then done s0 else
  match (inBuf s e).head? with
  | none => done s0
  | some b =>
    let st := bStream b
    let frame := if isTack b then tackFrame b else (headFrame s e st).getD 0
    let taken (f : State → State) : Host.Outcome State Fault Refusal :=
      match takeBeat s e (fun _ => true) with | some (_, s1) => done (f s1) | none => done s0
    let unfit := unitState s e.site != .enabled && isOpenTack b && !(portFrames s (queue / 8)).contains (st, tackFrame b)
    if unfit then taken (fun y => discardInput (abortRecord y 0x0730 e.site st frame 0 0) e st frame)
    else if !queueActs s queue then done s0
    else if x.seg.stream.isSome && x.seg.stream != some st then
      taken (fun y => discardInput (abortRecord (faultFrame y 0x0804 4 (queueSite queue) st frame 0 0) 0x0802 (queueSite queue) st frame 0 0) e st frame)
    else if !streamOutReady s queue b then done s0
    else if !queueRoom s queue || !regulatorOpen s queue then done (if !queueRoom s queue then poolWait s0 queue st else s0)
    else if segmentCut x b then done (leaveSegment (voidFrame s queue) queue)
    else taken (fun y =>
      let z := countUnit y (queueSite queue) 5 1
      if parity then storageLost z queue st frame (isOpenTack b) else streamOutTake z queue b frame)

/-! ### SPILL (R206) -/

/-- A SPILL queue gives up a frame that it was to write: the record, and the frame's beats are discarded up to the next tack line. -/
def spillLost (s : State) (q st frame code : Nat) (site : Site) : State :=
  let s1 := abortRecord s code site st frame 0 0
  let x := queueOf s1 q
  setQueue s1 q { x with spillDrop := addNew x.spillDrop st }

/-- One beat of a write run, at its address. A port that takes no new frame, an address out of range, and a parity error each give the frame up; a line
that is not written reads as uncorrectable when the steering unit asks for it (notes/assumptions/73.md). -/
def spillBeatWrite (s : State) (q a : Nat) (b : Beat) (frame : Nat) (parity : Bool) : State :=
  let st := bStream b
  let site := queueSite q
  let x := queueOf s q
  let dropping := x.spillDrop.contains st && !isTack b
  let s1 := if isTack b then setQueue s q { x with spillDrop := x.spillDrop.filter (fun y => decide (y ≠ st)) } else s
  if dropping then poison s1 a
  else if unitState s site ≠ .enabled ∧ isOpenTack b ∧ !(portFrames s (q / 8)).contains (st, frame) then
    poison (spillLost s1 q st frame 0x0730 (portSite (q / 8) 0)) a
  else if parity then poison (spillLost s1 q st frame 0x0751 site) a
  else if !mayAccess s 3 true a then
    spillLost (faultFrame s1 0x0760 4 site st frame (lo32 a) (dw (a / 2 ^ 32))) q st frame 0x0761 site
  else
    let s2 := queueWrite s1 q a b frame
    { s2 with feed := { s2.feed with spillSide := amSet s2.feed.spillSide a b.side } }

/-- A write run: its marker, then its beats at the marker's address onward. -/
def execSpillQueueWrite (access : StorageAccess) (s0 : State) : Host.Outcome State Fault Refusal :=
  let ⟨queue, parity⟩ := access
  let s := advance s0 (portSlot s0 (queue / 8))
  let x := queueOf s queue
  let e := queueEnd queue
  if !fabricRuns s || unitHeld s e.site || !queueHere s queue || queueMode s queue != 3 then done s0 else
  match (inBuf s e).head? with
  | none => done s0
  | some b =>
    let taken (f : State → State) : Host.Outcome State Fault Refusal :=
      match takeBeat s e (fun _ => true) with | some (_, s1) => done (f s1) | none => done s0
    if bType b = tyMarker then
      if markDir b ≠ 0 then done s0
      else taken (fun y => setQueue y queue { queueOf y queue with spillWrite := some (markAddr b, markCount b) })
    else match x.spillWrite with
      | none => taken (fun y => y)
      | some (a, n) =>
        if !queueRoom s queue then done (poolWait s0 queue (bStream b))
        else if !regulatorOpen s queue then done s0
        else taken (fun y =>
          let s1 := countUnit y (queueSite queue) 5 1
          let s2 := setQueue s1 queue { queueOf s1 queue with spillWrite := if n ≤ 1 then none else some (a + 64, n - 1) }
          let frame := if isTack b then tackFrame b else (headFrame s e (bStream b)).getD 0
          spillBeatWrite s2 queue a b frame parity)

/-- The steering unit learns that a returned beat could not be corrected (R188). -/
def spillBad (s : State) (r : SpillReq) (a : Nat) : State :=
  let t := steerOf s r.site
  setSteer s r.site { t with badLines := addNew t.badLines a }

/-- The record of a spill read that is not good: an address out of range, or storage (R199, R227). The frame is the one that the steering unit holds for
the beat. -/
def spillReadLost (s : State) (q : Nat) (r : SpillReq) (code : Nat) : State :=
  match spillFrame s r 0 with
  | some f => abortRecord s code (queueSite q) r.stream f 0 0
  | none => faultAt s code 1 (queueSite q) (some r.stream) noFrame 0 0 s.now

/-- A read request is taken, up to 16; the first request's beats are sent, in order, behind its dir 2 marker. -/
def execSpillQueueRead (access : StorageAccess) (s : State) : Host.Outcome State Fault Refusal :=
  let ⟨queue, parity⟩ := access
  let e := queueEnd queue
  if !queueServes s queue || queueMode s queue != 3 then done s else
  let s0 := match (inBuf s e).head? with
    | some b =>
      if queueActs s queue ∧ bType b = tyMarker ∧ markDir b = 1 ∧ (queueOf s queue).requests.length < 16 then
        match takeBeat s e (fun _ => true) with
        | some (_, s1) =>
          let x := queueOf s1 queue
          setQueue s1 queue { x with requests := x.requests ++
            [{ site := markSite b, queue := markQueue b, stream := bStream b, count := markCount b, addr := markAddr b }] }
        | none => s
      else s
    | none => s
  let x := queueOf s0 queue
  match x.requests.head?, x.entries.head? with
  | some r, some en =>
    if !queueCredit s0 queue || !en.filled then done s0
    else
      let m : List OutBeat := if r.sent = 0 then [{ beat := mkMarker r.stream r.site r.queue 2 r.count r.addr }] else []
      let sL := if parity then spillReadLost s0 queue r 0x0751 else if en.range then spillReadLost s0 queue r 0x0761 else s0
      let sB := if parity || en.bad then spillBad sL r (r.addr + 64 * r.sent) else sL
      let s1 := popEntry sB queue
      let y := queueOf s1 queue
      let rest := if r.sent + 1 = r.count then y.requests.tail else y.requests.replace r { r with sent := r.sent + 1 }
      let s2 := setQueue s1 queue { y with requests := rest }
      done (sentBeats (setOutQ s2 e (outQ s2 e ++ m ++ [{ beat := ⟨en.data, en.side⟩ }])) queue (m.length + 1))
  | _, _ => done s0

/-! ### Circular waits (R221, R222) -/

/-- Streams that a stream waits on, directly or through others. -/
def waitReach (edges : List (Nat × Nat × Nat × Fc)) : Nat → List Nat → List Nat
  | 0, l => l
  | n + 1, l => waitReach edges n (dedup (l ++ (edges.filter (fun e => l.contains e.1)).map (fun e => e.2.1)))

/-- Deadline of a stream's frame, none for a frame without one (R324). -/
def frameDeadline (s : State) (st frame : Nat) : Option Nat :=
  let c := streamOf s st
  if c.realtime then (c.frames.find? (fun f => f.id == frame)).map (fun f => (f.arrival + c.budget) % 2 ^ 64) else none

/-- The oldest frame of a stream with beats in the queues of some memory ports. -/
def oldestFed (s : State) (ports : List Nat) (st : Nat) : Option Nat :=
  ((ports.flatMap (portFrames s)).filter (fun p => p.1 == st)).map (·.2) |>.foldl
    (fun (m : Option Nat) f => match m with | some v => if frameAfter f v then some f else m | none => some f) none

/-- A STREAM_IN queue discards a frame's beats: the entries of its data lines leave at once, its own and the pool's. Line 0 stays while it waits its turn
behind another frame, to send the tack lines in order; of the frame being sent nothing more goes out, and its later lines are skipped (R171, R173). -/
def streamInDrop (s : State) (q st frame code : Nat) : State :=
  let x := queueOf s q
  let tags := x.entries.zip (entryFrames (sendingFrame x) x.entries)
  let hit (p : QEntry × Option (Nat × Nat)) : Bool := p.2 == some (st, frame)
  let keep := (tags.filter (fun p => !hit p || p.1.segLine == 0)).map (fun p => if hit p then { p.1 with dropCode := some code } else p.1)
  let n := x.entries.length - keep.length
  let y := discards s.now n { x with entries := keep, rp := (x.rp + n) % 2 ^ (queueLog2 s q + 1), gen := { x.gen with left := x.gen.left + n } }
  let s1 := if 0 < n then afterFree s q y else setQueue s q y
  if sendingFrame x = some (st, frame) then cutSegment s1 q code else s1

/-- A STREAM_OUT or SPILL queue discards a frame's beats that are still to be written, with the requests of them. -/
def unwritten (s : State) (q st frame : Nat) : State :=
  let x := queueOf s q
  let mine (w : WBeat) : Bool := bStream w.beat == st && w.frame == frame
  let nums := (x.beats.filter mine).map (·.num)
  if nums.isEmpty then s else
  let s1 := afterFree s q (discards s.now nums.length
    { x with beats := x.beats.filter (fun w => !mine w), rp := (x.rp + nums.length) % 2 ^ (queueLog2 s q + 1) })
  { s1 with feed := { s1.feed with channels := s1.feed.channels.map (fun c =>
      { c with requests := c.requests.filter (fun r => !(r.queue == q && r.write.isSome && nums.contains r.entry)) }) } }

/-- A SPILL queue gives up a frame that it reads: the beats go back as ones that memory could not correct. -/
def spillReadDrop (s : State) (q st frame : Nat) : State :=
  (queueOf s q).requests.foldl (fun x r =>
    if r.stream ≠ st then x
    else (List.range (r.count - r.sent)).foldl (fun y j => if spillFrame s r j = some frame then spillBad y r (r.addr + 64 * (r.sent + j)) else y) x) s

/-- A frame goes from one queue, and on (R173). -/
def queueDrop (x : State) (q st frame code : Nat) : State :=
  let m := queueOf x q
  match heldMode x q with
  | 0 => (m.grants.filter (fun g => g.stream == st && g.frame == frame && !g.discard)).foldl (fun y g => dropFetch y q g code) x
  | 1 => streamInDrop x q st frame code
  | 2 =>
    let y := unwritten x q st frame
    let n := queueOf y q
    let z := if n.seg.open_ ∧ n.seg.stream = some st ∧ n.seg.frame = frame then oweSegment y q st frame code n.gen else y
    waitOver (discardInput z (queueEnd q) st frame) (q / 8) st (portQueues z (q / 8))
  | _ =>
    let y := spillReadDrop (unwritten x q st frame) q st frame
    let n := queueOf y q
    if headFrame y (queueEnd q) st = some frame then setQueue y q { n with spillDrop := addNew n.spillDrop st } else y

/-- A frame goes from every queue of the memory feed (R222). -/
def feedDrop (s : State) (st frame code : Nat) : State :=
  (List.range (8 * Config.memPorts)).foldl (fun x q =>
    if (queueFrames x q).contains (st, frame) then queueDrop x q st frame code else x) s

/-- The first cycle that the edges, in the order in which they were formed, close: the closing edge, and the edges of the cycle (R222). Edge e closes one
when the edges up to it lead from its holder back to its waiter. -/
def firstCycle (edges : List (Nat × Nat × Nat × Fc)) : Option ((Nat × Nat × Nat × Fc) × List (Nat × Nat × Nat × Fc)) :=
  (List.range edges.length).findSome? fun n =>
    (edges[n]?).bind fun e =>
      let upTo := edges.take (n + 1)
      let after := waitReach upTo 32 [e.2.1]
      if after.contains e.1 then
        some (e, upTo.filter (fun f => after.contains f.1 && (waitReach upTo 32 [f.2.1]).contains e.1))
      else none

/-- The deadline of the oldest frame that a stream feeds; later than every time where there is none. -/
def cycleKey (s : State) (ports : List Nat) (st : Nat) : Nat :=
  match oldestFed s ports st with
  | some f => (frameDeadline s st f).getD (2 ^ 64)
  | none => 2 ^ 64

/-- The stream of a cycle that loses its frame: the latest deadline, the higher number on a tie. -/
def cycleVictim (s : State) (ports streams : List Nat) : Option Nat :=
  streams.foldl (fun (m : Option Nat) st => match m with
    | some v => if cycleKey s ports v < cycleKey s ports st ∨ (cycleKey s ports v = cycleKey s ports st ∧ v < st) then some st else m
    | none => some st) none

def execCircularWaitExpiry (s : State) : Host.Outcome State Fault Refusal :=
  match firstCycle s.feed.edges with
  | none => done s
  | some (closing, edges) =>
    let w := max 10 s.feed.cycleWindow
    if !fabricRuns (advance s (closing.2.2.2 + 2 ^ w)) then done s
    else
      let s1 := advance s (closing.2.2.2 + 2 ^ w)
      let ports := dedup (edges.map (fun e => e.2.2.1))
      let streams := dedup (edges.flatMap (fun e => [e.1, e.2.1]))
      match cycleVictim s1 ports streams with
      | none => done s
      | some victim =>
        let other := if closing.2.1 = victim then closing.1 else closing.2.1
        let mask := (streams.map (fun st => 2 ^ st)).foldl (· + ·) 0
        let f := (oldestFed s1 ports victim).getD 0
        let site := portSite closing.2.2.1 0
        let s2 := faultFrame s1 0x0720 4 (portSite closing.2.2.1 0x00FF) victim f (dw other) (dw mask)
        let s3 := feedDrop (abortRecord s2 0x0721 site victim f 0 0) victim f 0x0721
        done { s3 with feed := { s3.feed with edges := s3.feed.edges.filter (fun e => !edges.contains e) } }

/-! ### Queues emptied (R228, R230) -/

/-- A queue is empty, and no read or write of it is in flight (R230). -/
def queueDrained (s : State) (q : Nat) : Bool :=
  let x := queueOf s q
  x.entries.isEmpty && x.grants.isEmpty && x.beats.isEmpty && x.requests.isEmpty && x.spillWrite.isNone && x.voidOwed.isNone
    && !(x.seg.open_ && queueMode s q == 2) && (queueMode s q != 1 || (sendingFrame x).isNone)
    && !s.feed.channels.any (fun c => c.inFlight.any (fun r => r.1 == q) || c.requests.any (fun r => r.queue == q))

def portDrained (s : State) (u : Site) : Bool := (portSlots (sitePort u)).all (queueDrained s)

/-- The tack lines of every segment that a STREAM_IN queue holds: of the frame being sent its void tack line, of each line 0 read ahead both (R173). -/
def flushStreamIn (s : State) (q code : Nat) : State :=
  let x := queueOf s q
  let e := queueEnd q
  let s1 := if (sendingFrame x).isSome then cutSegment s q code else s
  (x.entries.filter (fun n => n.segLine == 0)).foldl (fun y n => match entryTack n with
    | some t =>
      let c := n.dropCode.getD (if t.kind = 0 then code else t.code)
      sendTackLine (sendTackLine y e (mkTack t.stream t.frame 0 t.firstTag t.arrival 0)) e (mkTack t.stream t.frame 1 t.firstTag t.arrival c)
    | none => y) s1

/-- What a queue holds is discarded, and sent on (R171, R173): its frames have their records. -/
def flushContents (s : State) (q code : Nat) : State :=
  let s1 := if heldMode s q = 1 then flushStreamIn s q code
    else (queueFrames s q).foldl (fun x f => queueDrop x q f.1 f.2 code) s
  let x := queueOf s1 q
  if x.entries.isEmpty then s1 else
  let n := x.entries.length
  afterFree s1 q (discards s1.now n { x with entries := [], rp := (x.rp + n) % 2 ^ (queueLog2 s1 q + 1), gen := { x.gen with left := x.gen.left + n } })

/-- Every frame in progress at a port aborted with a code, and its queues discarded. The records name the port with sub 0: the rules name the port alone
(DESIGN CHOICE, notes/assumptions/79.md). -/
def portAbortAll (s : State) (u : Site) (code : Nat) : State :=
  (portSlots (sitePort u)).foldl (fun x q => flushContents x q code)
    ((portFrames s (sitePort u)).foldl (fun x p => abortRecord x code u p.1 p.2 0 0) s)

/-- A queue emptied, its generator IDLE (R230, R253); reads in flight are still to return. -/
def clearQueue (x : MemQueue) : MemQueue :=
  { issued := x.issued, taken := x.taken, regulator := x.regulator, regulatorAt := x.regulatorAt, nextFetch := x.nextFetch }

/-- What a queue that is emptied still has on its way: requests on the bus, and a void tack line to be written. -/
def keepOwed (x y : MemQueue) : MemQueue := { y with fetchOffers := x.fetchOffers, voidOwed := x.voidOwed }

/-- A queue that a switch activates: empty, its generator started, its regulator full; IDLE where the hoist does not use it (R218, R240). -/
def activateQueue (s : State) (q : Nat) (x : MemQueue) : State :=
  let run := queueUsed s q && queueMode s q != 3
  setQueue s q { x with gen := if run then startedGen else {}, regulator := queueBurst s q * 256, regulatorAt := s.now }

/-- Every read of a queue has returned. -/
def readsBack (s : State) (q : Nat) : Bool :=
  (queueOf s q).entries.all (·.filled)
    && !s.feed.channels.any (fun c => c.inFlight.any (fun r => r.1 == q) || c.requests.any (fun r => r.queue == q && r.write.isNone))

/-- A queue that the cut does not keep: each frame with beats or grants in it is aborted and given up (R173, R228). -/
def cutQueue (s : State) (q : Nat) : State :=
  flushContents ((queueFrames s q).foldl (fun y f => abortRecord y 0x0770 (queueSite q) f.1 f.2 0 0) s) q 0x0770

/-- A queue that waits for its reads since a cut switch is flushed when they are back, and is then the target's (R228). Nothing moves in a halt. -/
def settleCut (s : State) (q : Nat) : State :=
  if (queueOf s q).leaving.isNone || !fabricRuns s || !readsBack s q then s else
  let s1 := cutQueue s q
  let x := queueOf s1 q
  let s2 := if (linkPaths s1 (queueEnd q)).isEmpty then setOutQ s1 (queueEnd q) [] else s1
  activateQueue s2 q (keepOwed x (clearQueue x))

/-- Read data returns for the entry of a number: from the cache Lc fc after it entered, or from LPDDR5. A transfer that the link cannot carry even when
repeated is an uncorrectable line (R198). -/
def execReadReturn (queue entry : Nat) (cacheWord : Ecc) (line : ReturnedLine) (mirror : Ecc) (s : State) : Host.Outcome State Fault Refusal :=
  done (settleCut (readReturn s queue entry cacheWord line mirror) queue)

/-! ### The descriptor store (R253) -/

/-- The program that a store word belongs to. -/
def programAt (s : State) (word : Nat) : Option StoredProgram :=
  s.feed.programs.find? (fun p => within p.first p.code.length (word / 2))

/-- The queues of the active bank that run a program. -/
def queuesOn (s : State) (p : StoredProgram) : List Nat :=
  (List.range (8 * Config.memPorts)).filter (fun q => queueUsed s q && queueMode s q != 3 && queueDesc s q == p.dir)

/-- The first memory port that runs the program, with its slot. -/
def programSite (s : State) (p : StoredProgram) : Site := match (queuesOn s p).head? with | some q => queueSite q | none => noSite

def execDescStoreScrub (word : Nat) (found : Ecc) (s : State) : Host.Outcome State Fault Refusal :=
  match programAt s word with
  | none => done s
  | some p =>
    match found with
    | .good => done s
    | .single => done (fault s 0x0806 0 (programSite s p) 0 0)
    | .uncorrectable => done { s with feed := { s.feed with rewriting := addNew s.feed.rewriting p.dir } }

/-- A rewrite that succeeds has its record; one that fails stops the queues on the program, and its ports are LOST (R253, R405). -/
def execDescRewriteDone (word : Nat) (success : Bool) (s : State) : Host.Outcome State Fault Refusal :=
  match programAt s word with
  | none => done s
  | some p =>
    if !s.feed.rewriting.contains p.dir then done s
    else if success then
      done (fault { s with feed := { s.feed with rewriting := s.feed.rewriting.filter (fun d => decide (d ≠ p.dir)) } } 0x0807 0 (programSite s p) 0 0)
    else
      let ports := dedup ((queuesOn s p).map (fun q => portSite (q / 8) 0))
      done (ports.foldl (fun x u => if unitLost x u then x else portAbortAll (moveUnit x u { ctlOf x u with state := .lost }) u 0x0730)
        (fault s 0x0809 2 (programSite s p) 0 0))

end Sys2Proof.Machine
end

