-- ==== Sys2Proof/Machine/SpanLink.lean ====
section
/-! DEFINITION. The Skowalar span's codewords and ports (spec/09_sections_span.md R264 to R279, spec/15_availability.md R426): the payload layout,
the sub-ports, the frames in a port, and the changes of a port's state. -/

namespace Sys2Proof.Machine

/-! ### Codewords (R265, R266) -/

/-- The control block before its CRC, as fields. -/
structure Control where
  seq : Nat
  ack : Nat
  nak : Bool
  replay : Bool
  epoch : Nat
  /-- the beats of slots 0 on, with their sub-ports -/
  slots : List (Nat × Beat) := []
  credits : List Nat := [0, 0, 0, 0]
  msg : Nat := 0
  probeId : Nat := 0
  wordA : Nat := 0
  wordB : Nat := 0
  deriving DecidableEq, Repr

def sumShifted (l : List Nat) (step : Nat) : Nat := l.foldr (fun x n => x + n * 2 ^ step) 0

/-- The bits that crc16 covers, [5123:0]: slots, then the control block up to word_b. -/
def codewordBody (c : Control) : Nat :=
  let beats := sumShifted (c.slots.map (fun p => p.2.data.toNat + p.2.side.toNat * 2 ^ 512)) 544
  let ctl := c.seq % 2 ^ 16 + c.ack % 2 ^ 16 * 2 ^ 16 + b2n c.nak * 2 ^ 32 + b2n c.replay * 2 ^ 33 + c.epoch % 4 * 2 ^ 34
    + (2 ^ c.slots.length - 1) * 2 ^ 36 + sumShifted (c.slots.map (fun p => p.1 % 4)) 2 * 2 ^ 45
    + sumShifted (c.credits.map (· % 64)) 6 * 2 ^ 63 + c.msg % 8 * 2 ^ 87 + c.probeId % 16 * 2 ^ 96
    + c.wordA % 2 ^ 64 * 2 ^ 100 + c.wordB % 2 ^ 64 * 2 ^ 164
  beats + ctl * 2 ^ 4896

def crc16 (body : Nat) : Nat := crcBits 16 0x1021 0xFFFF (bitsDown 5124 body)

def sealCodeword (body : Nat) : BitVec 5140 := BitVec.ofNat 5140 (body % 2 ^ 5124 + crc16 (body % 2 ^ 5124) * 2 ^ 5124)

/-- A kept codeword sent again: identical except ack, nak, replay and crc16 (R270). -/
def resealCodeword (payload : BitVec 5140) (ack : Nat) (nak : Bool) : BitVec 5140 :=
  let n := payload.toNat
  let ctl := nbits n 5139 4896
  let ctl' := nbits ctl 15 0 + ack % 2 ^ 16 * 2 ^ 16 + b2n nak * 2 ^ 32 + 2 ^ 33 + nbits ctl 227 34 * 2 ^ 34
  sealCodeword (n % 2 ^ 4896 + ctl' * 2 ^ 4896)

/-- The fields of a received payload. -/
def readCodeword (payload : BitVec 5140) : Control :=
  let n := payload.toNat
  let ctl := nbits n 5139 4896
  let slot (i : Nat) : Nat × Beat :=
    (nbits ctl (46 + 2 * i) (45 + 2 * i), ⟨BitVec.ofNat 512 (nbits n (544 * i + 511) (544 * i)), BitVec.ofNat 32 (nbits n (544 * i + 543) (544 * i + 512))⟩)
  { seq := nbits ctl 15 0
    ack := nbits ctl 31 16
    nak := ctl.testBit 32
    replay := ctl.testBit 33
    epoch := nbits ctl 35 34
    slots := ((List.range 9).filter (fun i => ctl.testBit (36 + i))).map slot
    credits := (List.range 4).map (fun j => nbits ctl (68 + 6 * j) (63 + 6 * j))
    msg := nbits ctl 89 87
    probeId := nbits ctl 99 96
    wordA := nbits ctl 163 100
    wordB := nbits ctl 227 164 }

/-- The received crc16 matches. -/
def codewordGood (payload : BitVec 5140) : Bool := nbits payload.toNat 5139 5124 == crc16 (payload.toNat % 2 ^ 5124)

/-- A codeword that carries no beat, credit or message (R269). -/
def isFiller (c : Control) : Bool := c.slots.isEmpty && c.credits.all (· == 0) && c.msg == 0

/-! ### Ports and sub-ports -/

def spanEnd (p j : Nat) : EndPoint := ⟨spanSite p, j⟩

def subOf (x : SpanPort) (j : Nat) : SpanSub := lget x.subs j {}

def modSub (x : SpanPort) (j : Nat) (f : SpanSub → SpanSub) : SpanPort := { x with subs := lmod x.subs j f }

def modSpan (s : State) (p : Nat) (f : SpanPort → SpanPort) : State := { s with span := lmod s.span p f }

/-- The transmit input and the receive output of a sub-port in the active hoist (R272). -/
def txUsed (s : State) (p j : Nat) : Bool := pwUsed (portWord s (spanEnd p j) false)
def rxUsed (s : State) (p j : Nat) : Bool := pwUsed (portWord s (spanEnd p j) true)

/-- A change of a port's state, with event 0x0020. -/
def moveSpan (s : State) (p : Nat) (x : SpanState) : State :=
  if (spanOf s p).state = x then s
  else postDev (modSpan s p (fun q => { q with state := x })) 0x16 0x0020 (spanSite p) s.now (spanCode x)

/-- Beats flow (R267). -/
def spanFlows (x : SpanPort) : Bool := x.state == .measuring || x.state == .up || x.state == .closing

/-- 2d + Ls + 2,048 fc (R270, R275). -/
def spanWait (x : SpanPort) : Fc := 2 * x.delay + Config.latLs + 2048

def isSpanOpen (p : Nat) (k : PendKind) : Bool := k == .spanOpen p
def isSpanClose (p : Nat) (k : PendKind) : Bool := k == .spanClose p
def isSpanMeasure (p : Nat) (k : PendKind) : Bool := k == .spanMeasure p

/-! ### Frames in a port (R173, R279) -/

/-- Frames with beats in a sub-port's transmit side, and in its receive share. -/
def txFrames (s : State) (p j : Nat) : List (Nat × Nat) :=
  let buf := (subOf (spanOf s p) j).tx ++ inBuf s (spanEnd p j)
  (streamsIn buf).flatMap (fun st => (framesIn st (headFrame s (spanEnd p j) st) buf).map (fun f => (st, f)))

def rxFrames (s : State) (p j : Nat) : List (Nat × Nat) :=
  let buf := (subOf (spanOf s p) j).rx.map Prod.fst
  (streamsIn buf).flatMap (fun st => (framesIn st (amGet s.fabric.openSent (spanEnd p j, st)) buf).map (fun f => (st, f)))

/-- The beats of a frame in a receive share, out of it; what is left ahead of where they stood, behind it, and the places freed. -/
def splitShare (st frame : Nat) : Option Nat → List (Beat × Bool) → List (Beat × Bool) × List (Beat × Bool) × Nat × Bool
  | _, [] => ([], [], 0, false)
  | cur, (b, held) :: rest =>
    if bStream b = st ∧ bType b ≤ 2 then
      let c := if isTack b then some (tackFrame b) else cur
      let r := splitShare st frame c rest
      if c = some frame then ([], r.1 ++ r.2.1, r.2.2.1 + b2n held, true)
      else if c.any (frameAfter frame) then ([], (b, held) :: (r.1 ++ r.2.1), r.2.2.1, true)
      else ((b, held) :: r.1, r.2.1, r.2.2.1, r.2.2.2)
    else
      let r := splitShare st frame cur rest
      ((b, held) :: r.1, r.2.1, r.2.2.1, r.2.2.2)

/-- The tack line fields of a frame, from the last tack lines noted. -/
def infoIn (frame : Nat) (l : List (Option (Nat × TackInfo))) : TackInfo :=
  (l.findSome? (fun o => match o with | some x => if x.1 = frame then some x.2 else none | none => none)).getD {}

/-- The tack line fields of a frame at the receiving side: of its tack line in the share, or as it was noted. -/
def rxInfo (sub : SpanSub) (st frame : Nat) : TackInfo :=
  let waiting := (sub.rx.find? (fun r => isTack r.1 && bStream r.1 == st && tackFrame r.1 == frame)).map (fun r => (frame, tackInfo r.1))
  infoIn frame [waiting, amGet sub.rxTack st, amGet sub.fedTack st, amGet sub.foreign st]

/-- A frame given up in a receive share: its beats go, each with a credit for the peer, and its tack lines stand in their place (R173). What still comes of
it is discarded (R171). -/
def rxVoid (s : State) (p j st frame code : Nat) : State :=
  let e := spanEnd p j
  let sub := subOf (spanOf s p) j
  let info := rxInfo sub st frame
  let r := splitShare st frame (amGet s.fabric.openSent (e, st)) sub.rx
  let opened := match amGet s.fabric.openSent (e, st) with
    | some g => g == frame || frameAfter frame g
    | none => false
  let tacks := (if opened then [] else [(mkTack st frame 0 info.first info.arrival 0, false)])
    ++ [(mkTack st frame 1 info.first info.arrival code, false)]
  if amGet s.fabric.voidSent (e, st) = some frame then s
  else modSpan s p (fun x => modSub x j (fun y => { y with
    rx := r.1 ++ tacks ++ r.2.1, owed := y.owed + r.2.2.1
    dropping := if (amGet y.rxTack st).any (fun t => t.1 == frame) then amSet y.dropping st frame else y.dropping }))

/-- A frame given up on the transmit side: its beats are discarded, and its tack lines go on to the peer ahead of every other beat (R173, R278). -/
def txVoid (s : State) (p j st frame code : Nat) : State :=
  let e := spanEnd p j
  let sub := subOf (spanOf s p) j
  let voided := sub.tx.any (fun b => isVoidTack b && bStream b == st && tackFrame b == frame)
  let waiting := ((sub.tx ++ inBuf s e).find? (fun b => isTack b && bStream b == st && tackFrame b == frame)).map (fun b => (frame, tackInfo b))
  let info := infoIn frame [waiting, amGet sub.txTack st, amGet s.fabric.lastTack (e, st)]
  let opened := (amGet sub.txTack st).any (fun g => g.1 == frame || frameAfter frame g.1)
  let tacks := (if opened then [] else [mkTack st frame 0 info.first info.arrival 0]) ++ [mkTack st frame 1 info.first info.arrival code]
  let s1 := discardInput s e st frame
  if voided then s1
  else modSpan s1 p (fun x => modSub x j (fun y => { y with tx := (dropFrame st frame (fun _ => false) none y.tx).1 ++ tacks }))

/-- A frame in a port given up on both sides of a sub-port, toward the fabric and the peer. -/
def subVoid (s : State) (p j st frame code : Nat) (tx rx : Bool) : State :=
  let s1 := if tx then txVoid s p j st frame code else s
  if rx then rxVoid s1 p j st frame code else s1

/-- A frame in a port given up on both sides of a sub-port whose link is over. -/
def subDrop (s : State) (p j st frame code : Nat) (tx rx : Bool) : State :=
  let s1 := if tx then
      discardInput (modSpan s p (fun x => modSub x j (fun y => { y with tx := (dropFrame st frame (fun _ => false) none y.tx).1 }))) (spanEnd p j) st frame
    else s
  if rx then rxVoid s1 p j st frame code else s1

/-- Every frame with beats in a port's buffers is aborted with one code (R279). -/
def spanAbortAll (s : State) (p code : Nat) : State :=
  let subs := List.range 4
  let frames := dedup (subs.flatMap (fun j => txFrames s p j ++ rxFrames s p j))
  frames.foldl (fun x f =>
    let y := abortRecord x code (spanSite p) f.1 f.2 0 0
    subs.foldl (fun z j => subDrop z p j f.1 f.2 code ((txFrames z p j).contains f) ((rxFrames z p j).contains f)) y) s

/-! ### The end of a link (R267, R271, R279) -/

/-- What a port keeps of a link that has ended. -/
def linkOver (x : SpanPort) : SpanPort :=
  { x with measuring := false, replay := [], resend := [], msgs := [], probes := [], probesLeft := 0, pairs := [], nak := false, nakServed := none,
           retries := 0, retryAck := none }

/-- Pending commands of a port whose link ends without them. -/
def spanPendsEnd (s : State) (p : Nat) : State :=
  let s1 := finishEvery s (isSpanOpen p) stAborted 0 s.now
  finishEvery s1 (isSpanMeasure p) stAborted 0 s.now

/-- The link fails: DOWN, with the frames in the port (R271). -/
def linkFails (s : State) (p : Nat) : State :=
  if spanFlows (spanOf s p) then
    let s1 := fault (moveSpan s p .down) 0x0920 2 (spanSite p) 0 0
    let s2 := spanPendsEnd (spanAbortAll s1 p 0x0921) p
    modSpan (finishEvery s2 (isSpanClose p) stAborted 0 s.now) p linkOver
  else s

/-- CLOSED: the engine is off. -/
def spanShut (s : State) (p : Nat) (bye : Bool) : State :=
  let s1 := modSpan s p (fun x => { linkOver x with lock := List.replicate 4 false, msgs := if bye then [{ kind := 4, id := 0, a := 0, b := 0 }] else [] })
  moveSpan s1 p .closed

/-- A bye from the peer. -/
def byeReceived (s : State) (p : Nat) : State :=
  let s1 := fault s 0x0923 0 (spanSite p) 0 0
  let s2 := spanPendsEnd (spanShut (spanAbortAll s1 p 0x0921) p false) p
  finishEvery s2 (isSpanClose p) stOK 0 s.now

/-! ### Measurement (R275) -/

/-- A difference of two 64-bit times as a signed number. -/
def timeDiff (a b : Nat) : Int := (BitVec.ofNat 64 a - BitVec.ofNat 64 b).toInt

/-- rna(n / 512). -/
def rna512 (n : Int) : Int := rnaInt (decide (n < 0)) n.natAbs (-9)

/-- Forward and backward differences of a pair. -/
def pairOffset (q : Int × Int) : Int := q.1 - q.2

def spreadOf (pairs : List (Int × Int)) : Nat :=
  match pairs.map pairOffset with
  | [] => 0
  | x :: l => ceilDiv (l.foldl max x - l.foldl min x).toNat 2

def startMeasure (x : SpanPort) : SpanPort := { x with measuring := true, probes := [], probesLeft := 256, pairs := [] }

/-- The 256th valid pair: offset, delay and spread, and the commands that waited for them. -/
def measureDone (s : State) (p : Nat) (pairs : List (Int × Int)) : State :=
  let offset := rna512 ((pairs.map pairOffset).foldl (· + ·) 0)
  let delay := (rna512 ((pairs.map (fun q => q.1 + q.2)).foldl (· + ·) 0)).toNat
  let spread := spreadOf pairs
  let s1 := modSpan s p (fun x => { x with measuring := false, offset := offset, delay := delay, spread := spread, pairs := [],
                                           drift := 0, probeBlock := x.codewords / 65536 })
  let s2 := traceAt s1 0x0025 (spanSite p) none noFrame (lo32 (offsetBits (spanOf s1 p))) (hi32 (offsetBits (spanOf s1 p))) (dw delay) s.now
  let s3 := if (spanOf s2 p).state = .measuring then moveSpan s2 p .up else s2
  let s4 := finishEvery s3 (isSpanOpen p) stOK (dw spread) s.now
  finishEvery s4 (isSpanMeasure p) stOK (dw spread) s.now

/-- An echo of an outstanding probe. A run of far probes raises 0x0911 at its 16th (R277; DEDUCED, notes/assumptions/76.md). -/
def echoReceived (s : State) (p : Nat) (c : Control) : State :=
  let x := spanOf s p
  match x.probes.find? (fun q => q.id == c.probeId) with
  | none => s
  | some q =>
    let pair := (timeDiff c.wordA q.t1, timeDiff s.now c.wordB)
    let x1 := { x with probes := x.probes.erase q }
    if q.measure then
      let pairs := x.pairs ++ [pair]
      if x.measuring then
        if pairs.length = 256 then measureDone (setSpan s p x1) p pairs
        else setSpan s p { x1 with pairs := pairs }
      else setSpan s p x1
    else
      let far := decide (8 < (pairOffset pair - 2 * x.offset).natAbs)
      let n := if far then x.drift + 1 else 0
      let s1 := setSpan s p { x1 with drift := n }
      if n = 16 then fault s1 0x0911 0 (spanSite p) 0 0 else s1

/-! ### A hello (R267) -/

/-- The span key that this part's hello carries (R268): without an active hoist, that of the image loaded last among those held. -/
def spanKeyOf (s : State) : Nat :=
  match activeImage s with
  | some i => i.spanKey
  | none => match s.hal.lastImage.bind (imageOf s) with | some i => i.spanKey | none => 0

/-- A sub-port on entering MEASURING, with the share that the peer announced. -/
def openedSub (sub : SpanSub) (credit : Nat) : SpanSub := { share := sub.share, credit := credit }

def helloReceived (s : State) (p : Nat) (c : Control) : State :=
  let x := spanOf s p
  if x.state ≠ .training then s
  else if c.wordA ≠ spanKeyOf s then
    let s1 := spanShut (fault s 0x0930 4 (spanSite p) 0 0) p false
    finishEvery s1 (isSpanOpen p) stImageCheckFail 0 s.now
  else
    let x1 := startMeasure { x with
      epoch := 0, expected := (c.seq + 1) % 2 ^ 16, accepted := c.seq, nak := false, drift := 0, epochRaised := false, echoes := []
      subs := (List.range 4).map (fun j => openedSub (subOf x j) (nbits c.wordB (15 * j + 14) (15 * j))) }
    moveSpan (setSpan s p x1) p .measuring

end Sys2Proof.Machine
end

