-- ==== Sys2Proof/Machine/Span.lean ====
section
/-! DEFINITION. The span's commands and events (spec/09_sections_span.md R267 to R279): SPAN_OPEN, SPAN_MEASURE, codewords sent and received, the
timeouts, the wavelengths' locks, delivery from the receive shares, and what a hoist switch does to a port. -/

namespace Sys2Proof.Machine

/-! ### SPAN_OPEN and SPAN_MEASURE (R267, R268, R279) -/

/-- A hoist that is not FREE holds an image that declares the port. -/
def spanDeclared (s : State) (p : Nat) : Bool :=
  s.hal.hoists.any (fun h => h.state != .free && (match h.image.bind (imageOf s) with | some i => i.spanMask.testBit p | none => false))

def shareFields (p : Packet) : List Nat :=
  [dbits (pktDw p 3) 14 0, dbits (pktDw p 3) 30 16, dbits (pktDw p 4) 14 0, dbits (pktDw p 4) 30 16]

def spanMasks : List (Nat × Dword) := [(2, 0x307), (3, 0x7FFF7FFF), (4, 0x7FFF7FFF)]

/-- The parameter checks of SPAN_OPEN, either op. -/
def spanBad (p : Packet) : Bool :=
  !pktOnly p spanMasks || decide (1 < dbits (pktDw p 2) 9 8) || (shareFields p).any (fun n => n % 64 != 0)
    || decide (16384 < (shareFields p).foldl (· + ·) 0)

def spanOpen (s : State) (p : Packet) : Verdict :=
  let n := dbits (pktDw p 2) 2 0
  let x := spanOf s n
  if Config.spanPorts ≤ n then refuse s stNotPresent
  else if spanBad p then refuse s stBadParam
  else if !spanDeclared s n then refuse s stDenied
  else if x.state ≠ .closed ∧ x.state ≠ .down then refuse s stBusy
  else
    let subs := (shareFields p).map (fun k => ({ share := k } : SpanSub))
    let fresh : SpanPort := { lock := x.lock, offset := x.offset, delay := x.delay, spread := x.spread, offsetHiLatch := x.offsetHiLatch,
                              state := x.state, subs := subs, openedAt := s.now, switchedAt := x.switchedAt }
    .pend (.spanOpen n) (moveSpan (setSpan s n fresh) n .training)

def execSpanOpen (c : HostCmd) (s : State) : Host.Outcome State Fault Refusal :=
  takeCmd s c 0x48 0 spanOpen

/-- CLOSING begins: a sub-port that has sent no tack line carries no stream, and accepts no more beats. -/
def beginClosing (s : State) (n : Nat) : State :=
  let s1 := modSpan s n (fun x => { x with
    closingAt := s.now, measuring := if x.state = .measuring then false else x.measuring
    probesLeft := if x.state = .measuring then 0 else x.probesLeft
    subs := x.subs.map (fun y => { y with passed := [], closed := y.txTack.isEmpty }) })
  moveSpan s1 n .closing

def spanClose (s : State) (p : Packet) : Verdict :=
  let n := dbits (pktDw p 2) 2 0
  if Config.spanPorts ≤ n then refuse s stNotPresent
  else if spanBad p then refuse s stBadParam
  else match (spanOf s n).state with
    | .closed => okAt s
    | .training => okAt (finishEvery (spanShut s n false) (isSpanOpen n) stAborted 0 s.now)
    | .down => okAt (spanShut s n false)
    | .closing => refuse s stBusy
    | .measuring => .pend (.spanClose n) (finishEvery (beginClosing s n) (isSpanOpen n) stAborted 0 s.now)
    | .up => .pend (.spanClose n) (beginClosing s n)

def execSpanClose (c : HostCmd) (s : State) : Host.Outcome State Fault Refusal :=
  takeCmd s c 0x48 1 spanClose

def spanMeasure (s : State) (p : Packet) : Verdict :=
  let n := dbits (pktDw p 2) 2 0
  if Config.spanPorts ≤ n then refuse s stNotPresent
  else if !pktOnly p [(2, 0x7)] || (spanOf s n).state != .up then refuse s stBadParam
  else if (spanOf s n).measuring then refuse s stBusy
  else .pend (.spanMeasure n) (modSpan s n startMeasure)

def execSpanMeasure (c : HostCmd) (s : State) : Host.Outcome State Fault Refusal :=
  takeCmd s c 0x49 0 spanMeasure

/-! ### Sending (R269, R270, R272) -/

/-- The next beat of a sub-port's transmit side: a beat that goes ahead, else the head of its buffer. -/
def subNext (s : State) (p j : Nat) : Option Beat :=
  let sub := subOf (spanOf s p) j
  match sub.tx with
  | b :: _ => some b
  | [] => if sub.closed then none else (inBuf s (spanEnd p j)).head?

/-- What the sub-port notes of a beat that it sends. -/
def subSent (x : SpanPort) (j : Nat) (b : Beat) : SpanPort :=
  let y := modSub x j (fun sub => { sub with
    credit := sub.credit - 1, sent := sub.sent + 1
    txTack := if isOpenTack b then amSet sub.txTack (bStream b) (tackFrame b, tackInfo b) else sub.txTack
    passed := if x.state = .closing ∧ isTack b then addNew sub.passed (bStream b) else sub.passed })
  let z := modSub y j (fun sub => { sub with
    closed := sub.closed || (x.state == .closing && (amKeys sub.txTack).all (fun st => sub.passed.contains st)) })
  { z with lastSub := j }

/-- One beat for a slot: a halt echo first, then in round robin among sub-ports with a beat and a credit. -/
def slotTake (s : State) (p : Nat) : Option (Nat × Beat × State) :=
  let x := spanOf s p
  match (List.range 4).find? (fun j => (subOf x j).echo.isSome) with
  | some j => (subOf x j).echo.map (fun b => (j, b, setSpan s p (modSub x j (fun y => { y with echo := none }))))
  | none =>
    if !fabricRuns s then none else
    match nextRound x.lastSub 4 (fun j => decide (0 < (subOf x j).credit) && (subNext s p j).isSome) with
    | none => none
    | some j =>
      match subNext s p j with
      | none => none
      | some b =>
        let s1 := if (subOf x j).tx.isEmpty then
            (match takeBeat s (spanEnd p j) (fun _ => true) with | some (_, y) => y | none => s)
          else setSpan s p (modSub x j (fun y => { y with tx := y.tx.drop 1 }))
        some (j, b, count (setSpan s1 p (subSent (spanOf s1 p) j b)) (unitCounter (spanSite p) 0) 1)

def fillSlots : Nat → State → Nat → List (Nat × Beat) × State
  | 0, s, _ => ([], s)
  | n + 1, s, p =>
    match slotTake s p with
    | some (j, b, s') => let r := fillSlots n s' p; ((j, b) :: r.1, r.2)
    | none => ([], s)

/-- Beats that reach a sub-port which accepts no more go, with their credits (R279); in a halt they stand where they are (R421). -/
def discardLate (s : State) (p : Nat) : State :=
  if !fabricRuns s then s else
  (List.range 4).foldl (fun x j =>
    if (subOf (spanOf x p) j).closed && (spanOf x p).state == .closing then
      let e := spanEnd p j
      returnCredits (inBuf x e).length (setInBuf x e []) e
    else x) s

/-- The message that a codeword carries: hello in TRAINING, a bye of a closed port, else the oldest waiting message or a due probe. -/
def nextMessage (s : State) (p : Nat) : Option SpanMsg × SpanPort :=
  let x := spanOf s p
  match x.state with
  | .training =>
    if x.codewords % 1024 = 0 then
      (some { kind := 3, id := 0, a := spanKeyOf s, b := sumShifted ((List.range 4).map (fun j => (subOf x j).share)) 15 }, x)
    else (none, x)
  | _ =>
    match x.msgs with
    | m :: rest => (some (if m.kind = 2 then { m with b := s.now } else m), { x with msgs := rest })
    | [] =>
      if x.measuring && decide (0 < x.probesLeft) && x.codewords % 64 == 0 then
        (some { kind := 1, id := x.nextProbe, a := s.now, b := 1 },
         { x with probesLeft := x.probesLeft - 1, nextProbe := (x.nextProbe + 1) % 16,
                  probes := x.probes ++ [{ id := x.nextProbe, t1 := s.now, sentAt := s.now, measure := true }] })
      else (none, x)

/-- A message that waits as a probe takes its t1 as it goes. -/
def stampProbe (s : State) (p : Nat) (m : SpanMsg) : SpanMsg × State :=
  if m.kind = 1 ∧ m.b = 0 then
    ({ m with a := s.now }, modSpan s p (fun x => { x with probes := x.probes ++ [{ id := m.id, t1 := s.now, sentAt := s.now, measure := m.a == 1 }] }))
  else (m, s)

def emitCodeword (s : State) (p : Nat) (payload : BitVec 5140) : State := emit s (.spanCodeword p payload)

/-- A codeword with what there is to send: it takes the next sequence number, and is kept until an ack covers it. -/
def sendNew (s : State) (p : Nat) : State :=
  let s0 := discardLate s p
  let m := nextMessage s0 p
  let r := match m.1 with | some x => some (stampProbe (setSpan s0 p m.2) p x) | none => none
  let s1 := match r with | some y => y.2 | none => setSpan s0 p m.2
  let msg : SpanMsg := match r with | some y => y.1 | none => { kind := 0, id := 0, a := 0, b := 0 }
  let flows := spanFlows (spanOf s1 p)
  let f := if flows then fillSlots 9 s1 p else ([], s1)
  let x := spanOf f.2 p
  let credits := (List.range 4).map (fun j => if flows then min 63 (subOf x j).owed else 0)
  let ctl : Control := { seq := x.nextSeq, ack := x.accepted, nak := x.nak, replay := false, epoch := x.epoch, slots := f.1, credits := credits,
                         msg := msg.kind, probeId := msg.id, wordA := if msg.kind = 4 then 0 else msg.a,
                         wordB := if msg.kind = 1 ∨ msg.kind = 4 then 0 else msg.b }
  if isFiller ctl then
    modSpan (emitCodeword f.2 p (sealCodeword (codewordBody { ctl with seq := x.lastSeq }))) p (fun y => { y with codewords := y.codewords + 1 })
  else
    let payload := sealCodeword (codewordBody ctl)
    let keep : Kept := { seq := x.nextSeq, payload := payload, sentAt := s.now }
    let x1 := { x with
      subs := (List.range 4).map (fun j => let y := subOf x j; { y with owed := y.owed - lget credits j 0 })
      nextSeq := (x.nextSeq + 1) % 2 ^ 16, lastSeq := x.nextSeq, codewords := x.codewords + 1
      -- a port in TRAINING keeps its latest hello only, a closed one keeps nothing
      replay := if flows then x.replay ++ [keep] else if x.state = .training then [keep] else [] }
    emitCodeword (setSpan f.2 p x1) p payload

/-- A filler of a port whose replay buffer is full. -/
def sendFiller (s : State) (p : Nat) : State :=
  let x := spanOf s p
  let ctl : Control := { seq := x.lastSeq, ack := x.accepted, nak := x.nak, replay := false, epoch := x.epoch }
  modSpan (emitCodeword s p (sealCodeword (codewordBody ctl))) p (fun y => { y with codewords := y.codewords + 1 })

/-- A kept codeword goes out again. -/
def sendAgain (s : State) (p : Nat) (seq : Nat) : State :=
  let x := spanOf s p
  let s1 := modSpan s p (fun y => { y with resend := y.resend.drop 1, codewords := y.codewords + 1,
                                           replay := y.replay.map (fun k => if k.seq = seq then { k with sentAt := s.now } else k) })
  match x.replay.find? (fun k => decide (k.seq = seq)) with
  | some k =>
    let s2 := emitCodeword s1 p (resealCodeword k.payload x.accepted x.nak)
    countEvent (count s2 (unitCounter (spanSite p) 2) 1) 0x0C (spanSite p) none 0 0 false
  | none => s1

/-- One codeword of a port whose engine is on, or the bye of one that has closed. -/
def execSpanCodewordSend (port : Nat) (s : State) : Host.Outcome State Fault Refusal :=
  let x := spanOf s port
  if Config.spanPorts ≤ port ∨ x.state = .down ∨ (x.state = .closed ∧ x.msgs.isEmpty) then done s
  else match x.resend with
    | seq :: _ => done (sendAgain s port seq)
    | [] => if 2048 ≤ x.replay.length then done (sendFiller s port) else done (sendNew s port)

/-! ### Receiving (R269 to R274) -/

/-- A retransmission round from the last acked codeword: the 16th without the ack advancing fails the link (R271). -/
def retransmit (s : State) (p : Nat) : State :=
  let x := spanOf s p
  let base := (x.replay.head?).map (·.seq)
  let n := if x.retryAck = base then x.retries + 1 else 1
  let s1 := setSpan s p { x with resend := x.replay.map (·.seq), retryAck := base, retries := n }
  if 16 ≤ n then linkFails s1 p else s1

/-- The ack and nak of an accepted codeword. -/
def ackReceived (s : State) (p : Nat) (c : Control) : State :=
  let x := spanOf s p
  let left := if x.replay.any (fun k => k.seq == c.ack) then (x.replay.dropWhile (fun k => k.seq != c.ack)).drop 1 else x.replay
  let x1 := { x with replay := left, resend := x.resend.filter (fun q => left.any (fun k => k.seq == q)) }
  if c.nak && x.nakServed != some c.ack && !left.isEmpty then retransmit (setSpan s p { x1 with nakServed := some c.ack }) p
  else setSpan s p x1

/-- A beat is one of a frame that its sub-port has given up: all of them go, up to the next tack line, and the frame's own void tack line too (R171). -/
def beatDropped (sub : SpanSub) (b : Beat) : Bool :=
  decide (bType b ≤ 2) && (amGet sub.dropping (bStream b)).any (fun f => !isTack b || tackFrame b == f)

/-- A beat of a slot: the checks of R59, a halt echo, or a place in its sub-port's share. -/
def slotBeat (s : State) (p : Nat) (q : Nat × Beat) : State :=
  let x := spanOf s p
  if !spanFlows x then s else
  let j := q.1
  let b := q.2
  let sub := subOf x j
  let owe (st : State) : State := modSpan st p (fun y => modSub y j (fun z => { z with owed := z.owed + 1 }))
  if b = noToken then s
  else if bType b ≠ tyEcho ∧ beatDropped sub b then owe s
  else if crc9 b.data b.side ≠ bCrc b ∨ 5 ≤ bType b then
    let code := if crc9 b.data b.side ≠ bCrc b then 0x0201 else 0x0202
    match amGet sub.rxTack (bStream b) with
    | some (f, _) => rxVoid (abortRecord (owe s) code (spanSite p) (bStream b) f 0 0) p j (bStream b) f code
    | none => fault (owe s) code 1 (spanSite p) 0 0
  else if bType b = tyEcho then
    setSpan s p { x with echoes := x.echoes ++ [(j, bField b 63 0, bField b 127 96)] }
  else if sub.share ≤ (sub.rx.filter (fun r => r.2)).length then linkFails s p
  else
    let y := modSub x j (fun z => { z with
      rx := z.rx ++ [(b, true)]
      rxTack := if isOpenTack b then amSet z.rxTack (bStream b) (tackFrame b, tackInfo b) else z.rxTack
      dropping := if isTack b then amErase z.dropping (bStream b) else z.dropping })
    count (setSpan s p y) (unitCounter (spanSite p) 1) 1

/-- The frame of a beat of a foreign epoch: a tack line's own, else that of the stream's last tack line. -/
def foreignFrame (sub : SpanSub) (b : Beat) : Option (Nat × Nat) :=
  if 2 < bType b then none
  else if isTack b then some (bStream b, tackFrame b)
  else ((amGet sub.foreign (bStream b)).or (amGet sub.rxTack (bStream b))).map (fun f => (bStream b, f.1))

/-- A beat of a foreign epoch is discarded with its credit; where that is a fault, its frame is aborted and sent on, once (R173, R274). -/
def foreignBeat (s : State) (p : Nat) (late : Bool) (q : Nat × Beat) : State :=
  let b := q.2
  if bType b = tyEcho then s else
  let sub := subOf (spanOf s p) q.1
  let s1 := modSpan s p (fun y => modSub y q.1 (fun z => { z with
    owed := z.owed + 1, foreign := if isTack b then amSet z.foreign (bStream b) (tackFrame b, tackInfo b) else z.foreign }))
  match if late then foreignFrame sub b else none with
  | some f =>
    if sub.foreignGone.contains f then s1
    else
      let s2 := modSpan s1 p (fun y => modSub y q.1 (fun z => { z with foreignGone := addNew z.foreignGone f }))
      rxVoid (abortRecord s2 0x0913 (spanSite p) f.1 f.2 0 0) p q.1 f.1 f.2 0x0913
  | none => s1

/-- Beats of a foreign epoch (R274). -/
def foreignEpoch (s : State) (p : Nat) (c : Control) : State :=
  let x := spanOf s p
  let late := decide (x.switchedAt + 2 * x.delay + 2048 < s.now)
  let raise := late && !c.slots.isEmpty && !x.epochRaised
  let s1 := if raise then fault (setSpan s p { x with epochRaised := true }) 0x0912 4 (spanSite p) 0 0 else s
  c.slots.foldl (fun y q => foreignBeat y p late q) s1

/-- The message of an accepted codeword. -/
def messageReceived (s : State) (p : Nat) (c : Control) : State :=
  match c.msg with
  | 1 => if c.replay then s else modSpan s p (fun x => { x with msgs := x.msgs ++ [{ kind := 2, id := c.probeId, a := s.now, b := 0 }] })
  | 2 => if c.replay then s else echoReceived s p c
  | 3 => helloReceived s p c
  | 4 => byeReceived s p
  | _ => s

/-- An accepted codeword that is no filler: slots, credits, then the message. -/
def codewordTaken (s : State) (p : Nat) (c : Control) : State :=
  let s1 := if c.epoch = (spanOf s p).epoch then c.slots.foldl (fun y q => slotBeat y p q) s else foreignEpoch s p c
  let s2 := modSpan s1 p (fun x => { x with subs := (List.range 4).map (fun j => let y := subOf x j; { y with credit := y.credit + lget c.credits j 0 }) })
  if spanFlows (spanOf s2 p) then messageReceived s2 p c else s2

/-- A codeword at a port with lock on all wavelengths. `fec` tells the decoder's outcome: nothing to correct, corrected, or beyond it. -/
def spanReceive (s : State) (p : Nat) (fec : Ecc) (payload : BitVec 5140) : State :=
  let s0 := if fec = .single then count s (unitCounter (spanSite p) 3) 1 else s
  let x := spanOf s0 p
  let c := readCodeword payload
  if fec = .uncorrectable || !codewordGood payload then
    (if spanFlows x then modSpan s0 p (fun y => { y with nak := true }) else s0)
  else if x.state = .training then (if c.msg = 3 then helloReceived s0 p c else s0)
  else if isFiller c then ackReceived s0 p c
  else if c.seq ≠ x.expected then modSpan s0 p (fun y => { y with nak := true })
  else
    let s1 := modSpan s0 p (fun y => { y with expected := (y.expected + 1) % 2 ^ 16, accepted := c.seq, nak := false })
    let s2 := ackReceived s1 p c
    if spanFlows (spanOf s2 p) then codewordTaken s2 p c else s2

def execSpanCodewordReceive (port : Nat) (fec : Ecc) (payload : BitVec 5140) (s : State) : Host.Outcome State Fault Refusal :=
  let x := spanOf s port
  if Config.spanPorts ≤ port ∨ x.lock.contains false ∨ !(spanFlows x || x.state == .training) then done s
  else done (spanReceive s port fec payload)

/-- A sub-port delivers the oldest beat of its receive share into its fabric link, in its own part's halyard (R272, R276). -/
def spanDeliver (s : State) (p j : Nat) : State :=
  let e := spanEnd p j
  let x := spanOf s p
  match (subOf x j).rx with
  | (b, held) :: rest =>
    if (outQ s e).isEmpty && maySend s e then
      let here (k : Nat) : Beat := mkTack (bStream b) (tackFrame b) k (tackFirst b) ((BitVec.ofNat 64 (tackArrival b) - BitVec.ofInt 64 x.offset).toNat) (tackCode b)
      let b' := if isTack b then here (tackKind b) else b
      let s1 := setSpan s p (modSub x j (fun y => { y with
        rx := rest, owed := y.owed + b2n held
        fedTack := if isOpenTack b then amSet y.fedTack (bStream b) (tackFrame b, tackInfo b) else y.fedTack }))
      let s2 := pushOut s1 e { beat := b' }
      if isOpenTack b then { s2 with fabric := { s2.fabric with openSent := amSet s2.fabric.openSent (e, bStream b) (tackFrame b) } }
      else if isVoidTack b then { s2 with fabric := { s2.fabric with voidSent := amSet s2.fabric.voidSent (e, bStream b) (tackFrame b) } }
      else s2
    else s
  | [] => s

/-! ### Timeouts and locks -/

/-- The oldest kept codeword has waited 2d + Ls + 2,048 fc. -/
def execSpanAckTimeout (port : Nat) (s : State) : Host.Outcome State Fault Refusal :=
  let x := spanOf s port
  match x.replay with
  | k :: _ => if spanFlows x && x.resend.isEmpty && reaches s (k.sentAt + spanWait x) then done (retransmit (advance s (k.sentAt + spanWait x)) port) else done s
  | [] => done s

/-- Lock on a wavelength has been lost for 10 µs. -/
def execSpanLockLoss (port wavelength : Nat) (s : State) : Host.Outcome State Fault Refusal :=
  if Config.spanPorts ≤ port ∨ !lget (spanOf s port).lock wavelength false then done s
  else done (linkFails (modSpan s port (fun x => { x with lock := x.lock.set wavelength false })) port)

/-- The receiver of a port whose engine is on gains lock on a wavelength. -/
def execSpanLockAcquire (port wavelength : Nat) (s : State) : Host.Outcome State Fault Refusal :=
  if Config.spanPorts ≤ port ∨ (spanOf s port).state = .closed then done s
  else done (modSpan s port (fun x => { x with lock := x.lock.set wavelength true }))

/-- 100 ms of TRAINING. -/
def execSpanTrainingTimeout (port : Nat) (s : State) : Host.Outcome State Fault Refusal :=
  let x := spanOf s port
  if x.state = .training ∧ reaches s (x.openedAt + 100000 * Config.us) then
    let s1 := advance s (x.openedAt + 100000 * Config.us)
    done (finishEvery (spanShut s1 port false) (isSpanOpen port) stTimeout 0 s1.now)
  else done s

/-- An UP port's probe of every 65,536 codewords. -/
def execSpanProbeTimer (port : Nat) (s : State) : Host.Outcome State Fault Refusal :=
  let x := spanOf s port
  if x.state = .up ∧ x.probeBlock < x.codewords / 65536 then
    done (setSpan s port { x with probeBlock := x.codewords / 65536, msgs := x.msgs ++ [{ kind := 1, id := x.nextProbe, a := 0, b := 0 }], nextProbe := (x.nextProbe + 1) % 16 })
  else done s

/-- A probe without its echo is replaced: one of a measurement is sent anew with the rest, another waits to be sent at once. -/
def execSpanProbeReplace (port probe : Nat) (s : State) : Host.Outcome State Fault Refusal :=
  let x := spanOf s port
  match x.probes.find? (fun q => q.id == probe) with
  | some q =>
    if !spanFlows x || !reaches s (q.sentAt + spanWait x) then done s else
    let s1 := advance s (q.sentAt + spanWait x)
    let x1 := { x with probes := x.probes.erase q }
    if q.measure then done (setSpan s1 port { x1 with probesLeft := x1.probesLeft + b2n x.measuring })
    else done (setSpan s1 port { x1 with msgs := x1.msgs ++ [{ kind := 1, id := x1.nextProbe, a := 0, b := 0 }], nextProbe := (x1.nextProbe + 1) % 16 })
  | none => done s

/-- The buffers of a port are empty. -/
def spanEmpty (s : State) (p : Nat) : Bool :=
  (List.range 4).all (fun j =>
    let y := subOf (spanOf s p) j
    y.tx.isEmpty && y.rx.isEmpty && y.echo.isNone && ((inBuf s (spanEnd p j)).isEmpty || (y.closed && fabricRuns s)))

def execSpanCloseDrained (port : Nat) (s : State) : Host.Outcome State Fault Refusal :=
  let x := spanOf s port
  if x.state = .closing ∧ spanEmpty s port ∧ x.replay.isEmpty then
    let s1 := spanShut (discardLate s port) port true
    done (finishEvery (finishEvery s1 (isSpanMeasure port) stAborted 0 s.now) (isSpanClose port) stOK 0 s.now)
  else done s

/-- 10 ms of CLOSING, halted time apart. -/
def execSpanCloseTimeout (port : Nat) (s : State) : Host.Outcome State Fault Refusal :=
  let x := spanOf s port
  if x.state = .closing ∧ !haltedNow s ∧ reaches s (x.closingAt + 10000 * Config.us) then
    let s1 := advance s (x.closingAt + 10000 * Config.us)
    let s2 := spanShut (spanAbortAll s1 port 0x0922) port true
    done (finishEvery (finishEvery s2 (isSpanMeasure port) stAborted 0 s2.now) (isSpanClose port) stTimeout 0 s2.now)
  else done s

/-! ### Hoist switches and halts (R278, R426) -/

/-- A cut switch: a sub-port whose span-table entries differ between the banks, and that holds beats, is flushed on both sides. `same j out` tells whether
the entry of sub-port j's transmit input (false) or receive output (true) is equal in both. -/
def spanCut (s : State) (p : Nat) (same : Nat → Bool → Bool) : State :=
  (List.range 4).foldl (fun x j =>
    let kept := same j false && same j true
    let tx := if kept then [] else txFrames x p j
    let rx := if kept then [] else rxFrames x p j
    (dedup (tx ++ rx)).foldl (fun y f =>
      subVoid (abortRecord y 0x0915 (spanSite p) f.1 f.2 0 0) p j f.1 f.2 0x0915 (tx.contains f) (rx.contains f)) x) s

/-- A boundary switch: receive shares cleared with their credits, the epoch on, and a void tack line for each stream whose last open tack line
sent belongs to a frame that the switch aborts. The fabric inputs are cleared with every other buffer (R73). -/
def spanBoundary (s : State) (p : Nat) (gone : List (Nat × Nat)) : State :=
  let x := spanOf s p
  if !spanFlows x then setSpan s p { x with epoch := (x.epoch + 1) % 4, switchedAt := s.now } else
  let voids (y : SpanSub) : List Beat :=
    (y.txTack.filter (fun t => gone.contains (t.1, t.2.1))).map (fun t => mkTack t.1 t.2.1 1 t.2.2.first t.2.2.arrival 0x0220)
  setSpan s p { x with
    epoch := (x.epoch + 1) % 4, switchedAt := s.now
    subs := x.subs.map (fun y => { y with rx := [], owed := y.owed + (y.rx.filter (fun r => r.2)).length, tx := voids y, rxTack := [], dropping := [], foreign := [], foreignGone := [] }) }

/-- At a halt an UP port sends one halt echo on each used transmit sub-port. -/
def spanHaltEchoes (s : State) : State :=
  (List.range Config.spanPorts).foldl (fun x p =>
    if (spanOf x p).state = .up then
      modSpan x p (fun q => { q with subs := q.subs.zipIdx.map (fun y =>
        if txUsed x p y.2 then
          { y.1 with echo := some (mkBeat tyEcho 0 0 false false (BitVec.ofNat 512 (x.now % 2 ^ 64 + y.2 % 4 * 2 ^ 64 + y.1.sent % 2 ^ 32 * 2 ^ 96))) }
        else y.1) })
    else x) s

end Sys2Proof.Machine
end

