-- ==== Sys2Proof/Machine/Steering.lean ====
section
/-! DEFINITION. The steering unit (spec/06_tokens_steering.md R167 to R192): skew queues, the five operations, pennants and their runs, elastic
spill, and the watchdog. -/

namespace Sys2Proof.Machine

/-! ### Words (R177) -/

/-- A used skew descriptor: index, input port, stream, base, log2 of its entries. -/
structure SkewDesc where
  idx : Nat
  input : Nat
  stream : Nat
  base : Nat
  log2 : Nat
  deriving DecidableEq, Repr

def skewDescOf (cfg : Nat → Dword) (k : Nat) : Option SkewDesc :=
  let w := cfg (11 + k)
  if dbit w 0 then some ⟨k, dbits w 3 1, dbits w 8 4, dbits w 17 9, dbits w 21 18⟩ else none

def skewDescs (s : State) (u : Site) : List SkewDesc := (List.range 16).filterMap (skewDescOf (cfgDw s u))

def steerOp (s : State) (u : Site) : Nat := dbits (cfgDw s u 8) 3 1
def turnRows (s : State) (u : Site) : Bool := dbit (cfgDw s u 8) 4
def turnBeats (s : State) (u : Site) : Nat := dbits (cfgDw s u 8) 9 5 + 1
def pennantPort (s : State) (u : Site) : Nat := dbits (cfgDw s u 8) 12 10
def spillOn (s : State) (u : Site) : Bool := dbit (cfgDw s u 8) 13
def steerWatch (s : State) (u : Site) : Nat := dbits (cfgDw s u 9) 4 0
def spillOutPort (s : State) (u : Site) : Nat := dbits (cfgDw s u 9) 7 5
def spillInPort (s : State) (u : Site) : Nat := dbits (cfgDw s u 9) 10 8
def ringLog2 (s : State) (u : Site) : Nat := dbits (cfgDw s u 9) 24 20
def ringBase (s : State) (u : Site) : Nat := dbits (cfgDw s u 10) 23 0 * 4096
/-- log2 of a subring's beats. -/
def subLog2 (s : State) (u : Site) : Nat := ringLog2 s u - 4

/-- Inputs of streams: without the spill return. Data inputs: without the pennant port of a route too. Outputs of streams. -/
def steerPorts (s : State) (u : Site) : List Nat := (inPorts s u).filter (fun p => !(spillOn s u && p == spillInPort s u))
def steerIns (s : State) (u : Site) : List Nat := (steerPorts s u).filter (fun p => !(steerOp s u == 4 && p == pennantPort s u))
def steerOuts (s : State) (u : Site) : List Nat := (outPorts s u).filter (fun p => !(spillOn s u && p == spillOutPort s u))

/-- The unit acts: it is one, it is used, and it works. -/
def steerActs (s : State) (u : Site) : Bool := siteKind u == 3 && unitUsed s u && unitWorks s u

def skewOf (t : SteeringUnit) (k : Nat) : SkewQueue := amGetD t.queues k {}
def setSkew (t : SteeringUnit) (k : Nat) (q : SkewQueue) : SteeringUnit := { t with queues := amSet t.queues k q }

/-- Beats in a queue's subring (R168). -/
def subCount (s : State) (u : Site) (q : SkewQueue) : Nat := ptrCount (subLog2 s u + 1) q.subRp q.subWp

/-- The buffer entry of the i-th beat that a queue holds (R168). -/
def skewEntry (d : SkewDesc) (q : SkewQueue) (i : Nat) : Nat := d.base + (q.rp + i) % 2 ^ d.log2

/-- The unit holds a beat or an item (R190). -/
def steerHolds (s : State) (u : Site) : Bool :=
  let t := steerOf s u
  t.queues.any (fun q => !q.2.beats.isEmpty || 0 < subCount s u q.2) || !t.pennants.isEmpty || !t.runs.isEmpty

/-- The unit has drained (R192). -/
def steerEmpty (s : State) (u : Site) : Bool :=
  !steerHolds s u && (steerOf s u).queues.all (fun q => q.2.run.isEmpty && q.2.reading.isNone && !q.2.voidRead)

/-! ### Giving up a frame (R171 to R174, R182) -/

/-- Frames with beats in a queue, its open write run and its subring, in order. -/
def queueHolds (t : SteeringUnit) (d : SkewDesc) : List Nat :=
  let q := skewOf t d.idx
  dedup (q.beats.map (·.frame) ++ q.subFrames.filterMap id)

/-- Frames of a stream with beats or items in the unit. -/
def steerFramesOf (s : State) (u : Site) (st : Nat) : List Nat :=
  let t := steerOf s u
  dedup (((skewDescs s u).filter (fun d => d.stream == st)).flatMap (queueHolds t)
    ++ (t.runs.filter (fun r => r.stream == st)).map (·.frame) ++ (t.pennants.filter (fun r => r.stream == st)).map (·.frame))

/-- Streams and frames in progress. -/
def steerFrames (s : State) (u : Site) : List (Nat × Nat) :=
  (List.range 32).flatMap (fun st => (steerFramesOf s u st).map (fun f => (st, f)))

/-- What a frame's tack line carried: of the current frame, of one with its tack line in the unit or an input's buffer, or of the last received. -/
def steerTack (s : State) (u : Site) (st frame : Nat) : TackInfo :=
  let t := steerOf s u
  if amGet t.frames st = some frame then amGetD t.tacks st {}
  else
    let held := t.queues.flatMap (fun q => q.2.beats.map (·.beat) ++ q.2.run) ++ (steerPorts s u).flatMap (fun p => inBuf s ⟨u, p⟩)
    match held.find? (fun b => isTack b && bStream b == st && tackFrame b == frame) with
    | some b => tackInfo b
    | none => match (steerPorts s u).findSome? (fun p => (lastTackAt s ⟨u, p⟩ st).bind (fun x => if x.1 = frame then some x.2 else none)) with
      | some x => x
      | none => {}

/-- Entries that a discard has still to free at the start of an fc: it frees 8 an fc (R171). -/
def skewFreeing (now : Fc) (q : SkewQueue) : Nat := q.dropN - 8 * (now - q.dropAt)

/-- A queue without a spilled beat or an open run is DIRECT; spilled beats that a discard has passed are gone past first (R187). Beats of the open run
are not yet in the ring. -/
def skipDropped (size : Nat) (q : SkewQueue) : SkewQueue :=
  let n := min (q.subFrames.takeWhile Option.isNone).length (q.subFrames.length - q.run.length)
  { q with subRp := (q.subRp + n) % (2 * size), subFrames := q.subFrames.drop n }

def settleSpill (size : Nat) (q : SkewQueue) : SkewQueue :=
  let q1 := skipDropped size q
  if q1.subFrames.isEmpty && q1.run.isEmpty && q1.reading.isNone then { q1 with spill := .direct } else q1

/-- A queue drops a frame's beats: rp moves on, 8 entries an fc (R171). Beats of the frame in the subring are passed by; where the subring holds no
other, the queue goes back to DIRECT with its pointers equal and the entries of an outstanding read free (R187, notes/assumptions/72.md). -/
def skewDrop (now : Fc) (log2 frame : Nat) (q : SkewQueue) : SkewQueue :=
  let keep := q.beats.filter (fun x => decide (x.frame ≠ frame))
  let gone := q.beats.length - keep.length
  let q1 := { q with beats := keep, rp := (q.rp + gone) % 2 ^ (log2 + 1),
                     dropAt := if 0 < gone then now else q.dropAt, dropN := if 0 < gone then skewFreeing now q + gone else q.dropN }
  if !q.subFrames.contains (some frame) then q1
  else
    let left := q.subFrames.map (fun f => if f = some frame then none else f)
    if left.all Option.isNone then
      { q1 with spill := .direct, subRp := q.subWp, subFrames := [], run := [], reading := none, voidRead := q.voidRead || q.reading.isSome }
    else { q1 with subFrames := left }

/-- The unit without a frame's items, its turn, and its beats in the queues of the given descriptors. -/
def steerWithout (now : Fc) (t : SteeringUnit) (ds : List SkewDesc) (st frame : Nat) : SteeringUnit :=
  { t with
    queues := t.queues.map (fun q => match ds.find? (fun d => d.idx == q.1) with | some d => (q.1, skewDrop now d.log2 frame q.2) | none => q)
    pennants := t.pennants.filter (fun p => !(p.stream == st && p.frame == frame))
    runs := t.runs.filter (fun r => !(r.stream == st && r.frame == frame))
    turns := if (amGetD t.turns st {}).frame = frame then amErase t.turns st else t.turns }

/-- A frame goes from the unit: queues, pairing items, inputs, and the tack lines on every output. -/
def steerDrop (s : State) (u : Site) (st frame code : Nat) : State :=
  let tk := steerTack s u st frame
  let ds := (skewDescs s u).filter (fun d => d.stream == st)
  let s1 := discardOn (setSteer s u (steerWithout s.now (steerOf s u) ds st frame)) (endsOf u (steerPorts s u)) st frame
  voidOn s1 (endsOf u (steerOuts s u)) st frame tk code

/-- A frame is given up, and one queue is discarded to its next tack line (R180, R188). The frame's beats in other queues go when they reach the head:
its void tack line has been sent. -/
def steerDropQueue (s : State) (u : Site) (d : SkewDesc) (frame code : Nat) : State :=
  let tk := steerTack s u d.stream frame
  let s1 := discardInput (setSteer s u (steerWithout s.now (steerOf s u) [d] d.stream frame)) ⟨u, d.input⟩ d.stream frame
  voidOn s1 (endsOf u (steerOuts s u)) d.stream frame tk code

/-- A frame that the unit has given up: its void tack line has been sent on every output. -/
def givenUp (s : State) (u : Site) (st frame : Nat) : Bool :=
  !(steerOuts s u).isEmpty && (steerOuts s u).all (fun o => match amGet s.fabric.voidSent (⟨u, o⟩, st) with
    | some g => g == frame || frameAfter frame g
    | none => false)

/-- A class 4 fault of a frame: the record, the abort with 0x0603, and the frame goes (R182). -/
def steerFail (s : State) (u : Site) (code : Nat) (site : Site) (st frame : Nat) : State :=
  steerDrop (abortRecord (faultFrame s code 4 site st frame 0 0) 0x0603 u st frame 0 0) u st frame 0x0603

/-! ### Pairing (R183 to R185) -/

/-- A run whose pennant has not come. -/
def unpaired (r : Run) : Bool := r.pen.isNone && !r.cleared

def unpairedRuns (t : SteeringUnit) (port : Nat) : Nat := (t.runs.filter (fun r => r.port == port && unpaired r)).length
def unpairedPennants (t : SteeringUnit) (port : Nat) : Nat := (t.pennants.filter (fun p => p.port == port)).length

/-- The last run of an input's stream. -/
def lastRun (t : SteeringUnit) (port st : Nat) : Option Run := (t.runs.filter (fun r => r.port == port && r.stream == st)).getLast?

/-- Replace the last run of an input's stream. -/
def modLastRun (t : SteeringUnit) (port st : Nat) (f : Run → Run) : SteeringUnit :=
  match lastRun t port st with
  | some r => { t with runs := (t.runs.reverse.replace r (f r)).reverse }
  | none => t

/-- A new run of one beat: paired with a pennant already held, or an unpaired item; none when that would be one more than `limit`. -/
def beginRun (limit : Nat) (t : SteeringUnit) (port st frame tag : Nat) (now : Fc) : Option SteeringUnit :=
  match t.pennants.find? (fun p => p.stream == st && p.tag == tag && p.frame == frame) with
  | some p =>
    some { t with pennants := t.pennants.erase p,
                  runs := t.runs ++ [{ port := port, stream := st, frame := frame, tag := tag, beats := 1, pen := some (p.action, p.mask, p.count), pairedAt := now }] }
  | none =>
    if limit ≤ unpairedRuns t port then none
    else some { t with runs := t.runs ++ [{ port := port, stream := st, frame := frame, tag := tag, beats := 1 }] }

/-- The last run of an input's stream still takes beats of the frame: how many more, where it is paired. -/
def runOpen (t : SteeringUnit) (port st frame : Nat) : Option (Run × Bool) :=
  (lastRun t port st).bind (fun r => if r.frame ≠ frame then none else match r.pen with
    | some (_, _, n) => if r.beats < n then some (r, true) else none
    | none => some (r, false))

/-- What a data beat's entry does to the runs of its input: the unit after it, or the code of the fault. -/
def runEnter (limit : Nat) (t : SteeringUnit) (port st frame tag : Nat) (now : Fc) : Except Nat SteeringUnit :=
  let fresh : Except Nat SteeringUnit := match beginRun limit t port st frame tag now with | some x => .ok x | none => .error 0x0610
  let longer := modLastRun t port st (fun x => { x with beats := x.beats + 1 })
  match runOpen t port st frame with
  | some (r, paired) => if r.tag = tag then .ok longer else if paired then .error 0x0616 else fresh
  | none => fresh

/-- Items of earlier frames of a stream left unpaired on an input when its next open tack line reaches the head (R185). -/
def settleItems (s : State) (u : Site) (port st frame : Nat) : State :=
  let t := steerOf s u
  if port = pennantPort s u then
    let old := t.pennants.filter (fun p => p.stream == st && p.frame != frame)
    let s1 := setSteer s u { t with pennants := t.pennants.filter (fun p => !(p.stream == st && p.frame != frame)) }
    old.foldl (fun x p => faultFrame x 0x0613 4 (siteWithSub u port) st p.frame 0 0) s1
  else
    let old := dedup ((t.runs.filter (fun r => r.port == port && r.stream == st && unpaired r && r.frame != frame)).map (·.frame))
    old.foldl (fun x f => steerFail x u 0x0613 (siteWithSub u port) st f) s

/-! ### Entry (R178, R187) -/

/-- The queue was full at the start of the fc: an entry that a read or a discard frees in the fc counts still (R169, R171). -/
def skewFull (now : Fc) (d : SkewDesc) (q : SkewQueue) : Bool :=
  decide (2 ^ d.log2 ≤ q.beats.length + (if q.lastRead = some now then 1 else 0) + skewFreeing now q)

/-- The queue has had its one write of the fc (R168). -/
def skewWritten (now : Fc) (q : SkewQueue) : Bool := q.beats.getLast?.any (fun x => x.entered == now)

/-- A beat of a frame enters a skew queue; in a route its run is followed, with at most `limit` unpaired items. -/
def enterSkew (limit : Nat) (s : State) (u : Site) (d : SkewDesc) (b : Beat) (frame : Nat) : State :=
  let s1 := if isOpenTack b && steerOp s u == 4 then settleItems s u d.input (bStream b) frame else s
  let t := steerOf s1 u
  let q := skewOf t d.idx
  let push (x : SteeringUnit) : State :=
    let y := setSkew x d.idx { q with beats := q.beats ++ [⟨b, s.now, frame⟩], wp := (q.wp + 1) % 2 ^ (d.log2 + 1), tailFrame := frame }
    setSteer s1 u { y with idleSince := if steerHolds s1 u then y.idleSince else s.now }
  if steerOp s u = 4 ∧ bType b = tyData ∧ !givenUp s u (bStream b) frame then
    match runEnter limit t d.input (bStream b) frame (bTag b) s.now with
    | .ok x => push x
    | .error code => steerFail (push t) u code (siteWithSub u d.input) (bStream b) frame
  else push t

/-- The frame of a beat that an input is about to move: its own, for a tack line, else that of the tack line moved last. -/
def movedFrame (s : State) (e : EndPoint) (b : Beat) : Option Nat := if isTack b then some (tackFrame b) else headFrame s e (bStream b)

/-- An input port has moved its beat of the fc (R178). -/
def portMoved (s : State) (u : Site) (port : Nat) : State :=
  setSteer s u { steerOf s u with portFc := amSet (steerOf s u).portFc port (s.now + 1) }

/-- Beats of the buffer that no void tack line of their own stream precedes or is. -/
def aheadOfVoid : List Nat → List Beat → List Beat
  | _, [] => []
  | bad, b :: rest =>
    if isVoidTack b then aheadOfVoid (bStream b :: bad) rest
    else if bad.contains (bStream b) then aheadOfVoid bad rest
    else b :: aheadOfVoid bad rest

/-- The descriptor for a beat on an input. -/
def skewFor (s : State) (u : Site) (port : Nat) (b : Beat) : Option SkewDesc :=
  (skewDescs s u).find? (fun d => d.input == port && d.stream == bStream b)

/-- A frame has begun in the unit. -/
def steerBegun (s : State) (u : Site) (st frame : Nat) : Bool :=
  amGet (steerOf s u).frames st == some frame || (steerFramesOf s u st).contains frame

/-- While a forced proof waits for the unit, the beats of a stream from the open tack line of a frame that has not begun stay (R417). -/
def notBegun (s : State) (u : Site) (beats : List Beat) : List Beat :=
  if !bindStopped s u then beats
  else (beats.foldl (fun (a : List Nat × List Beat) b =>
    if a.1.contains (bStream b) || (isOpenTack b && !steerBegun s u (bStream b) (tackFrame b)) then (addNew a.1 (bStream b), a.2)
    else (a.1, a.2 ++ [b])) ([], [])).2

/-- The beats of a list that no earlier beat of their own stream precedes. -/
def firstOfStreams : List Nat → List Beat → List Beat
  | _, [] => []
  | seen, b :: rest => if seen.contains (bStream b) then firstOfStreams seen rest else b :: firstOfStreams (bStream b :: seen) rest

/-- A beat joins its queue's write run: the queue is full or SPILLING, and its subring has room (R187). -/
def spillTakes (s : State) (u : Site) (d : SkewDesc) : Bool :=
  let q := skewOf (steerOf s u) d.idx
  spillOn s u && (q.spill == .spilling || skewFull s.now d q) && decide (subCount s u q < 2 ^ subLog2 s u)

/-- A beat that leaves its input for a skew queue, or for none: one for a DIRECT queue with room, one without a queue, a stray marker, or a misplaced
pennant. -/
def entersQueue (s : State) (u : Site) (port : Nat) (b : Beat) : Bool :=
  let t := steerOf s u
  match skewFor s u port b with
  | none => true
  | some d => bType b == tyMarker || (steerOp s u == 4 && bType b == tyPennant)
      || ((skewOf t d.idx).spill == .direct && !skewFull s.now d (skewOf t d.idx) && !skewWritten s.now (skewOf t d.idx))

/-- The beat that an input moves in this fc: the oldest whose queue, or whose queue's subring, has room (R178, R187). -/
def portPick (s : State) (u : Site) (port : Nat) : Option Beat :=
  (firstOfStreams [] (notBegun s u (aheadOfVoid [] (inBuf s ⟨u, port⟩)))).find? (fun b =>
    entersQueue s u port b || (match skewFor s u port b with | some d => spillTakes s u d | none => false))

/-- That beat, where it does not go to a subring. -/
def skewPick (s : State) (u : Site) (port : Nat) : Option Beat := (portPick s u port).filter (entersQueue s u port)

/-- A class 4 fault of the frame of a beat that has left an input, or one that names none. -/
def steerFailAt (s : State) (u : Site) (code port st : Nat) (frame : Option Nat) : State :=
  match frame with
  | some f => steerFail s u code (siteWithSub u port) st f
  | none => faultAt s code 4 (siteWithSub u port) (some st) noFrame 0 0 s.now

/-- The open tack line of a frame that has not begun meets a unit in DRAINING or DISABLED: the frame is given up (R192). -/
def steerRefuse (s : State) (u : Site) (b : Beat) : State :=
  frameAtDisabled s u b (endsOf u (steerOuts s u)) (endsOf u (steerPorts s u)) 0x0630

/-- The unit takes no beat of the frame that a tack line opens. -/
def steerRefuses (s : State) (u : Site) (b : Beat) : Bool :=
  unitState s u != .enabled && isOpenTack b && !steerBegun s u (bStream b) (tackFrame b)

/-- An input port moves its oldest eligible beat. A spill marker of a stream that has a queue there leaves the unit nowhere: it is removed
(DESIGN CHOICE, notes/assumptions/79.md). -/
def skewMove (limit : Nat) (s : State) (u : Site) (port : Nat) : Option State :=
  let e : EndPoint := ⟨u, port⟩
  (skewPick s u port).bind fun b => (takeBeat s e (fun x => x == b)).map fun r =>
    let s1 := portMoved r.2 u port
    let st := bStream b
    if steerRefuses s u b then steerRefuse s1 u b
    else if !unitWorks s u then s1
    else match skewFor s u port b with
      | none => steerFailAt s1 u 0x0602 port st (movedFrame s e b)
      | some d =>
        if bType b = tyMarker then s1
        else if steerOp s u = 4 ∧ bType b = tyPennant then steerFailAt s1 u 0x0616 port st (movedFrame s e b)
        else enterSkew limit s1 u d b ((movedFrame s e b).getD 0)

/-! ### Pennants (R183, R184) -/

/-- A pennant's fields are lawful: action, reserved fields, and a mask of outputs. -/
def pennantOk (s : State) (u : Site) (b : Beat) : Bool :=
  decide (penAction b ≤ 1) && !penReserved b
    && (List.range 8).all (fun p => penMask b / 2 ^ p % 2 == 0 || portRole s u p / 2 % 2 == 1)

/-- A pennant pairs with the oldest unpaired run of its stream, tag and frame: beats past its count begin the next run. -/
def pairRun (t : SteeringUnit) (r : Run) (b : Beat) (now : Fc) : SteeringUnit :=
  let n := penCount b
  let first := { r with pen := some (penAction b, penMask b, n), pairedAt := now, beats := min r.beats n }
  let rest : List Run := if n < r.beats then [{ r with beats := r.beats - n }] else []
  { t with runs := t.runs.flatMap (fun x => if x = r then first :: rest else [x]) }

/-- A beat at the head of the pennant port. -/
def pennantArrive (limit : Nat) (s : State) (u : Site) (port : Nat) (b : Beat) (frame : Nat) : State :=
  let st := bStream b
  let t := steerOf s u
  let site := siteWithSub u port
  if !pennantOk s u b then steerFail s u 0x0616 site st frame
  else if t.pennants.any (fun p => p.stream == st && p.tag == penTag b && p.frame == frame) then steerFail s u 0x0612 site st frame
  else
    match t.runs.find? (fun r => r.stream == st && r.tag == penTag b && r.frame == frame && unpaired r) with
    | some r =>
      let later := match lastRun t r.port st with | some l => l != r | none => false
      if r.beats < penCount b && later then steerFail s u 0x0616 site st frame
      else setSteer s u (pairRun t r b s.now)
    | none =>
      if limit ≤ unpairedPennants t port then steerFail s u 0x0610 site st frame
      else
        let p : Pennant := { port := port, stream := st, tag := penTag b, action := penAction b, mask := penMask b, count := penCount b,
                             frame := frame, arrived := s.now }
        setSteer s u { t with pennants := t.pennants ++ [p], idleSince := if steerHolds s u then t.idleSince else s.now }

/-- The head of the pennant port: a pennant pairs or is held; a data beat there has no meaning and is removed. Tack lines stay for the settling of
their frames, but a unit that takes no new frame gives the frame up, and one that does not work discards what comes (R192). -/
def pennantMove (limit : Nat) (s : State) (u : Site) (port : Nat) : Option State :=
  let e : EndPoint := ⟨u, port⟩
  (inBuf s e).head?.bind fun b =>
    let taken : Option State := (takeBeat s e (fun _ => true)).map Prod.snd
    if steerRefuses s u b then taken.map (fun x => steerRefuse x u b)
    else if isVoidTack b then none
    else if !unitWorks s u then taken
    else if isTack b then none
    else if bType b = tyPennant then
      taken.map (fun x => match headFrame s e (bStream b) with
        | some f => pennantArrive limit x u port b f
        | none => faultAt x 0x0616 4 (siteWithSub u port) (some (bStream b)) noFrame 0 0 x.now)
    else taken

/-- The pennant of a beat's run is at the head of the pennant port, to arrive in this fc (R183). -/
def pennantDue (s : State) (u : Site) (b : Beat) (frame : Option Nat) : Bool :=
  let e : EndPoint := ⟨u, pennantPort s u⟩
  steerOp s u == 4 && (inBuf s e).head?.any (fun p => bType p == tyPennant && bStream p == bStream b && penTag p == bTag b && pennantOk s u p
    && frame.isSome && headFrame s e (bStream p) == frame)

/-- The input whose next beat begins the run of a pennant in this fc (R183). -/
def runDue (s : State) (u : Site) (p : Beat) (frame : Option Nat) : Option Nat :=
  (steerIns s u).find? (fun port => decide (amGetD (steerOf s u).portFc port 0 ≤ s.now) && (skewPick s u port).any (fun b =>
    bType b == tyData && bStream b == bStream p && bTag b == penTag p && frame.isSome && headFrame s ⟨u, port⟩ (bStream b) == frame))

/-- An input port moves its oldest eligible beat, one per fc (R178). A run and its pennant that arrive in one fc are never unpaired (R183): where the
run would be a fifth item, its pennant arrives with it. -/
def execSkewEnqueue (site : Site) (port : Nat) (s : State) : Host.Outcome State Fault Refusal :=
  let sA := advance s (amGetD (steerOf s site).portFc port 0)
  if siteKind site ≠ 3 ∨ !tileSees sA site ∨ !(steerIns sA site).contains port then done s else
  let due := (skewPick sA site port).any (fun b => pennantDue sA site b (movedFrame sA ⟨site, port⟩ b))
  match skewMove (if due then 5 else 4) sA site port with
  | none => done s
  | some s1 => if 4 < unpairedRuns (steerOf s1 site) port then done ((pennantMove 4 s1 site (pennantPort s site)).getD s1) else done s1

/-- The next open tack line of a stream is at the head of an input: the items left there are settled; on the pennant port it is not sent. -/
def execFrameEndSettle (site : Site) (port stream : Nat) (s : State) : Host.Outcome State Fault Refusal :=
  if !steerActs s site || steerOp s site != 4 then done s else
  match (inBuf s ⟨site, port⟩).find? (fun b => bStream b == stream && decide (bType b ≤ 2)) with
  | none => done s
  | some b =>
    if !isOpenTack b || steerRefuses s site b || (bindStopped s site && !steerBegun s site stream (tackFrame b)) then done s
    else
      let s1 := settleItems s site port stream (tackFrame b)
      if port = pennantPort s site then
        match takeBeat s1 ⟨site, port⟩ (fun x => x == b) with
        | some (_, s2) => done s2
        | none => done s1
      else done s1

/-! ### Sending (R179, R181, R182) -/

/-- What a queue's head leads to: the queues whose heads go, the ports they go to, or the code of a fault of the stream. -/
structure SteerPlan where
  pops : List Nat
  outs : List Nat
  fail : Option Nat := none
  /-- the beat is of a frame already given up: it goes, and nothing else changes -/
  stale : Bool := false

def headAt (t : SteeringUnit) (k : Nat) : Option Beat := ((skewOf t k).beats.head?).map (·.beat)

/-- The descriptors of a stream, by input. -/
def streamQueues (s : State) (u : Site) (st : Nat) : List SkewDesc := sortBy (·.input) ((skewDescs s u).filter (fun d => d.stream == st))

/-- The tack lines of a join or reorder, when every queue of the stream has one at its head: one goes, or they differ. -/
def joinTacks (t : SteeringUnit) (qs : List SkewDesc) (k : Nat) (outs : List Nat) : Option SteerPlan :=
  let heads := qs.filterMap (fun d => headAt t d.idx)
  if heads.length = qs.length ∧ heads.all isOpenTack ∧ (qs.head?).map (·.idx) = some k then
    if heads.all (fun b => tackFrame b == ((heads.head?).map tackFrame).getD 0) then some ⟨qs.map (·.idx), outs, none, false⟩
    else some ⟨[], outs, some 0x0615, false⟩
  else none

/-- A head beat that is not a tack line. -/
def holdsData (t : SteeringUnit) (k : Nat) : Bool := match headAt t k with | some b => !isTack b | none => false

def joinPlan (t : SteeringUnit) (qs : List SkewDesc) (d : SkewDesc) (outs : List Nat) : Option SteerPlan :=
  match joinTacks t qs d.idx outs with
  | some p => some p
  | none =>
    let turn := amGetD t.turns d.stream {}
    if !turn.inFrame || turn.port != d.input then none
    else match headAt t d.idx with
      | none => none
      | some b =>
        if !isTack b then some ⟨[d.idx], outs, none, false⟩
        else if qs.any (fun x => holdsData t x.idx) then some ⟨[], outs, some 0x0615, false⟩
        else none

def splitPlan (t : SteeringUnit) (d : SkewDesc) (outs : List Nat) : Option SteerPlan :=
  match headAt t d.idx with
  | none => none
  | some b =>
    if bType b = tyData then some ⟨[d.idx], [(amGetD t.turns d.stream {}).port], none, false⟩ else some ⟨[d.idx], outs, none, false⟩

/-- The first data beat of a queue behind its pennants. -/
def firstData (t : SteeringUnit) (k : Nat) : Option Beat :=
  match ((skewOf t k).beats.map (·.beat)).dropWhile (fun b => bType b == tyPennant) with
  | b :: _ => if bType b = tyData then some b else none
  | [] => none

/-- A reorder. A run that meets a tack line before its last_of_row fails with 0x0615, whatever the other inputs hold: R182 names no outcome for it
(DESIGN CHOICE, notes/assumptions/79.md). -/
def reorderPlan (t : SteeringUnit) (qs : List SkewDesc) (d : SkewDesc) (outs : List Nat) : Option SteerPlan :=
  match joinTacks t qs d.idx outs with
  | some p => some p
  | none =>
    let turn := amGetD t.turns d.stream {}
    if !turn.inFrame then none
    else if turn.done = 1 then
      if turn.port ≠ d.input then none
      else match headAt t d.idx with
        | none => none
        | some b => if isTack b then some ⟨[], outs, some 0x0615, false⟩ else some ⟨[d.idx], outs, none, false⟩
    else
      let firsts := qs.map (fun x => firstData t x.idx)
      match firstData t d.idx with
      | some b =>
        if bTag b = turn.tag then some ⟨[d.idx], outs, none, false⟩
        else if (qs.head?).map (·.idx) = some d.idx ∧ firsts.all (fun x => match x with | some y => bTag y != turn.tag | none => false)
        then some ⟨[], outs, some 0x0614, false⟩
        else none
      | none => none

def routePlan (t : SteeringUnit) (d : SkewDesc) (outs : List Nat) : Option SteerPlan :=
  match headAt t d.idx with
  | none => none
  | some b =>
    if isTack b then some ⟨[d.idx], outs, none, false⟩
    else match t.runs.find? (fun r => r.port == d.input && r.stream == d.stream) with
      | some r =>
        match r.pen with
        | some (action, mask, _) => some ⟨[d.idx], if action = 0 then outs.filter (fun p => mask / 2 ^ p % 2 == 1) else [], none, false⟩
        | none => none
      | none => none

def steerPlan (s : State) (u : Site) (d : SkewDesc) : Option SteerPlan :=
  let t := steerOf s u
  let outs := steerOuts s u
  let qs := streamQueues s u d.stream
  if (skewOf t d.idx).beats.head?.any (fun x => givenUp s u d.stream x.frame) then some { pops := [d.idx], outs := [], stale := true }
  else match steerOp s u with
  | 0 => joinPlan t qs d outs
  | 1 => splitPlan t d outs
  | 2 => (headAt t d.idx).map (fun _ => ⟨[d.idx], outs, none, false⟩)
  | 3 => reorderPlan t qs d outs
  | _ => routePlan t d outs

/-- The fc from which a queue may be read: one read per fc, and none while a discard moves rp (R168, R171). -/
def readSlot (q : SkewQueue) : Fc := max (q.dropAt + ceilDiv q.dropN 8) (match q.lastRead with | some t => t + 1 | none => 0)

/-- The fc of a plan's beat: P fc after it, or the last of the joined tack lines, entered, or after it was paired, whichever is later (R179). -/
def planTime (s : State) (u : Site) (d : SkewDesc) (p : SteerPlan) : Fc :=
  let t := steerOf s u
  let entered := p.pops.foldl (fun m k => match (skewOf t k).beats.head? with | some x => max m x.entered | none => m) 0
  let paired := if steerOp s u = 4 then
      (match t.runs.find? (fun r => r.port == d.input && r.stream == d.stream) with | some r => r.pairedAt | none => 0) else 0
  p.pops.foldl (fun m k => max m (readSlot (skewOf t k))) (max entered paired + Config.latP)

/-- The plan can be carried out at this port: it leads there (a dropped beat and a fault lead nowhere), its outputs are free, and no landing comes
before it. -/
def planReady (s : State) (u : Site) (port : Nat) (d : SkewDesc) (p : SteerPlan) : Bool :=
  p.fail.isSome || ((p.outs.isEmpty || p.outs.contains port) && reaches s (planTime s u d p)
    && p.outs.all (fun o => outFree (advance s (planTime s u d p)) ⟨u, o⟩))

/-- The next port in a round of ports after p. -/
def portAfter (ports : List Nat) (p : Nat) : Nat := match ports.find? (fun x => decide (p < x)) with | some x => x | none => ports.headD 0

/-- The turn of a stream after a beat of it has gone. -/
def turnAfter (op : Nat) (rows : Bool) (beats : Nat) (ports : List Nat) (turn : Turn) (b : Beat) (input : Nat) : Turn :=
  if isOpenTack b then { port := ports.headD 0, done := 0, tag := tackFirst b, frame := tackFrame b, inFrame := true }
  else if bType b ≠ tyData then turn
  else if op = 3 then
    (if bLast b then { turn with port := input, done := 0, tag := (turn.tag + 1) % 4096 } else { turn with port := input, done := 1 })
  else if (if rows then bLast b else turn.done + 1 == beats) then { turn with port := portAfter ports turn.port, done := 0 }
  else { turn with done := turn.done + 1 }

/-- The head of a queue goes. -/
def popSkew (cfg : Nat → Dword) (now : Fc) (t : SteeringUnit) (k : Nat) : SteeringUnit :=
  let q := skewOf t k
  setSkew t k { q with beats := q.beats.tail, rp := (q.rp + 1) % 2 ^ (dbits (cfg (11 + k)) 21 18 + 1), lastRead := some now }

/-- A data beat of a route has gone: its run counts it, and goes after its last. -/
def runSent (t : SteeringUnit) (port st : Nat) : SteeringUnit :=
  match t.runs.find? (fun r => r.port == port && r.stream == st) with
  | some r =>
    let n := match r.pen with | some (_, _, c) => c | none => 0
    { t with runs := if r.sent + 1 = n then t.runs.erase r else t.runs.replace r { r with sent := r.sent + 1 } }
  | none => t

/-- The unit's own change when a plan's beat goes. An open tack line of a route ends what is left of the runs of earlier frames. -/
def steerSent (s : State) (u : Site) (t : SteeringUnit) (d : SkewDesc) (b : Beat) : SteeringUnit :=
  let op := steerOp s u
  let ports := if op = 1 then steerOuts s u else steerIns s u
  let t1 := { t with
    turns := amSet t.turns d.stream (turnAfter op (turnRows s u) (turnBeats s u) ports (amGetD t.turns d.stream {}) b d.input)
    frames := if isTack b then amSet t.frames d.stream (tackFrame b) else t.frames
    tacks := if isTack b then amSet t.tacks d.stream (tackInfo b) else t.tacks
    runs := if op = 4 ∧ isOpenTack b then t.runs.filter (fun r => !(r.port == d.input && r.stream == d.stream && r.frame != tackFrame b)) else t.runs
    lastQueue := d.idx }
  if op = 4 ∧ bType b = tyData then runSent t1 d.input d.stream else t1

/-- The beat of a plan goes out. -/
def steerGo (s : State) (u : Site) (d : SkewDesc) (p : SteerPlan) (b : Beat) : State :=
  let s1 := advance s (planTime s u d p)
  let t1 := p.pops.foldl (popSkew (cfgDw s u) s1.now) (steerOf s u)
  if p.stale then setSteer s1 u t1
  else
    let s2 := setSteer s1 u (steerSent s1 u t1 d b)
    if isOpenTack b then countUnit (p.outs.foldl (fun y o => sendOpen y ⟨u, o⟩ b) s2) u 0 1
    else p.outs.foldl (fun y o => pushOut y ⟨u, o⟩ { beat := b }) s2

/-- The frames at the heads of a stream's queues: what a failing join or reorder gives up. In a join turn that meets a tack line while another input
still holds data (R182 names the code alone) these are the current frame and the one whose tack line has come (DESIGN CHOICE,
notes/assumptions/79.md). -/
def headFrames (s : State) (u : Site) (st : Nat) : List Nat :=
  let t := steerOf s u
  dedup ((streamQueues s u st).filterMap (fun d =>
    match headAt t d.idx with
    | some b => if isTack b then some (tackFrame b) else amGet t.frames st
    | none => none))

/-- An output sends one beat of the next queue in round robin that can. A parity error at the head of a queue aborts the frame of that entry and
discards the queue to its next tack line (R180). -/
def execSteerSend (site : Site) (port : Nat) (parity : Option Nat) (s : State) : Host.Outcome State Fault Refusal :=
  if !steerActs s site || !(steerOuts s site).contains port then done s else
  let t := steerOf s site
  let descOf (k : Nat) : Option SkewDesc := (skewDescs s site).find? (fun d => d.idx == k)
  match parity.bind (fun k => (descOf k).bind (fun d => (skewOf t k).beats.head?.map (fun x => (d, x)))) with
  | some (d, x) => done (steerDropQueue (abortRecord s 0x0601 site d.stream x.frame 0 0) site d x.frame 0x0601)
  | none =>
    let planOf (k : Nat) : Option (SkewDesc × SteerPlan) := (descOf k).bind (fun d => (steerPlan s site d).map (fun p => (d, p)))
    match nextRound t.lastQueue 16 (fun k => (planOf k).any (fun x => planReady s site port x.1 x.2)) with
    | none => done s
    | some k =>
      match planOf k with
      | none => done s
      | some (d, p) =>
        match p.fail with
        | some code =>
          let fs := headFrames s site d.stream
          let s1 := match fs.head? with | some f => faultFrame s code 4 site d.stream f 0 0 | none => s
          done (fs.foldl (fun x f => steerDrop (abortRecord x 0x0603 site d.stream f 0 0) site d.stream f 0x0603) s1)
        | none =>
          match headAt t k with
          | some b => done (steerGo s site d p b)
          | none => done s

/-! ### Elastic spill (R187 to R189) -/

/-- DPA of subring entry j of a queue. -/
def subAddress (s : State) (u : Site) (k j : Nat) : Nat := ringBase s u + 64 * (k * 2 ^ subLog2 s u + j)

/-- The open write run of a queue leaves: a dir 0 marker and its beats. -/
def sendRun (s : State) (u : Site) (d : SkewDesc) : State :=
  let t := steerOf s u
  let q := skewOf t d.idx
  let n := q.run.length
  if n = 0 then s else
  let size := 2 ^ subLog2 s u
  let addr := subAddress s u d.idx ((q.subWp + 2 * size - n) % size)
  let out : EndPoint := ⟨u, spillOutPort s u⟩
  let s1 := setSteer s u (setSkew t d.idx { q with run := [] })
  let s2 := setOutQ s1 out (outQ s1 out ++ ({ beat := mkMarker d.stream u d.idx 0 n addr } : OutBeat) :: q.run.map (fun b => { beat := b }))
  let s3 := countUnit s2 u 3 n
  let s4 := (List.range n).foldl (fun x _ => countEvent x 0x0B u (some d.stream) 0 0 false) s3
  let frame := ((q.subFrames.drop (q.subFrames.length - n)).findSome? id).getD q.tailFrame
  traceNow s4 0x0017 u (some d.stream) (dw frame) (d.idx + (n - 1) * 2 ^ 8) addr 0

/-- A run that no beat has joined in the fc after its last closes (R188). -/
def closeRun (s : State) (u : Site) (d : SkewDesc) : State :=
  if (skewOf (steerOf s u) d.idx).runAt + 1 < s.now then sendRun s u d else s

/-- A beat of a frame starts or joins the write run of a queue; the run leaves with 16 beats, or at the subring's end. -/
def joinRun (s : State) (u : Site) (d : SkewDesc) (b : Beat) (frame : Nat) : State :=
  let q := skewOf (steerOf s u) d.idx
  let size := 2 ^ subLog2 s u
  let q1 := { q with spill := .spilling, run := q.run ++ [b], runAt := s.now, subWp := (q.subWp + 1) % (2 * size),
                     subFrames := q.subFrames ++ [some frame], tailFrame := frame }
  let s1 := setSteer s u (setSkew (steerOf s u) d.idx q1)
  let s2 := if q.spill = .direct then countUnit s1 u 1 1 else s1
  if q1.run.length = 16 ∨ q1.subWp % size = 0 then sendRun s2 u d else s2

/-- The beat that an input moves in this fc, where it goes to a queue's subring. -/
def spillPick (s : State) (u : Site) (d : SkewDesc) : Option Beat :=
  (portPick s u d.input).filter (fun b => bStream b == d.stream && !entersQueue s u d.input b)

/-- A full queue's beat starts or joins a write run, where it is the one that its input moves; a run of 16 beats, at the subring's end, or without a
further beat in the next fc, leaves. -/
def execSpillWriteRun (site : Site) (queue : Nat) (s : State) : Host.Outcome State Fault Refusal :=
  if !steerActs s site || !spillOn s site then done s else
  match skewDescOf (cfgDw s site) queue with
  | none => done s
  | some d =>
    let e : EndPoint := ⟨site, d.input⟩
    let sA := advance s (amGetD (steerOf s site).portFc d.input 0)
    let moved : Option State := (spillPick sA site d).bind fun b => if !fabricRuns sA then none else (takeBeat sA e (fun x => x == b)).map fun r =>
      let s2 := portMoved r.2 site d.input
      if steerRefuses sA site b then steerRefuse s2 site b else joinRun (closeRun s2 site d) site d b ((movedFrame sA e b).getD 0)
    match moved with
    | some s1 => done s1
    | none =>
      let q := skewOf (steerOf s site) queue
      if q.run.isEmpty || !reaches s (q.runAt + 2) then done s else done (sendRun (advance s (q.runAt + 2)) site d)

/-- A SPILLING queue with room for min(16, its subring's beats) asks for them, up to the open run, and not past the subring's end (R187). -/
def execSpillReadRequest (site : Site) (queue : Nat) (s : State) : Host.Outcome State Fault Refusal :=
  if !steerActs s site || !spillOn s site then done s else
  match skewDescOf (cfgDw s site) queue with
  | none => done s
  | some d =>
    let size := 2 ^ subLog2 s site
    let q := settleSpill size (skewOf (steerOf s site) queue)
    let held := subCount s site q
    let n := min 16 (min (held - q.run.length) (size - q.subRp % size))
    if q.spill ≠ .spilling then done (setSteer s site (setSkew (steerOf s site) queue q))
    else if q.reading.isSome ∨ q.voidRead ∨ n = 0 ∨ 2 ^ d.log2 - q.beats.length < min 16 held then done s
    else
      let m := mkMarker d.stream site queue 1 n (subAddress s site queue (q.subRp % size))
      let s1 := setSteer s site (setSkew (steerOf s site) queue { q with reading := some n, readFrame := (q.subFrames.headD none).getD q.tailFrame })
      done (pushOut s1 ⟨site, spillOutPort s site⟩ { beat := m })

/-- The read return is whole, its last beat from an address: an empty subring without a write run puts the queue back to DIRECT. -/
def refillDone (s : State) (u : Site) (d : SkewDesc) (last : Nat) : State :=
  let t := steerOf s u
  let q := skewOf t d.idx
  let s1 := setSteer s u (setSkew t d.idx (settleSpill (2 ^ subLog2 s u) { q with reading := none, voidRead := false }))
  match q.reading with
  | none => s1
  | some n => traceNow (countUnit s1 u 4 n) 0x0018 u (some d.stream) (dw q.readFrame) (d.idx + (n - 1) * 2 ^ 8) (last + 64 - 64 * n) 0

/-- The next returned beat of a queue: it enters behind what the queue holds, unless a discard has passed it. A pennant that arrives in the same fc
pairs with its run (R183). One that memory could not correct aborts
its own frame, and the queue is discarded to its next tack line (R188). -/
def refillBeat (s : State) (u : Site) (d : SkewDesc) (b : Beat) (bad : Bool) : State :=
  let t := steerOf s u
  let q := skewOf t d.idx
  let s1 := setSteer s u (setSkew t d.idx { q with subRp := (q.subRp + 1) % (2 * 2 ^ subLog2 s u), subFrames := q.subFrames.tail })
  match q.subFrames.headD none with
  | none => s1
  | some f =>
    if bad then steerDropQueue (abortRecord s1 0x0641 u d.stream f 0 0) u d f 0x0641
    else
      let s2 := enterSkew (if pennantDue s1 u b (some f) then 5 else 4) s1 u d b f
      if 4 < unpairedRuns (steerOf s2 u) d.input then (pennantMove 4 s2 u (pennantPort s2 u)).getD s2 else s2

/-- One element of the spill input, one per fc: a dir 2 marker, or a returned beat. -/
def refillStep (s : State) (u : Site) : Option State :=
  let port := spillInPort s u
  let sA := advance s (amGetD (steerOf s u).portFc port 0)
  if !steerActs sA u then none else
  (takeBeat sA ⟨u, port⟩ (fun _ => true)).map fun r =>
    let b := r.1
    let s1 := portMoved r.2 u port
    let t := steerOf s1 u
    if bType b = tyMarker then
      setSteer s1 u { t with refill := if markDir b = 2 then some (markQueue b, markCount b, markAddr b) else t.refill }
    else match t.refill with
      | none => s1
      | some (k, n, a) =>
        let s2 := setSteer s1 u { t with refill := if n ≤ 1 then none else some (k, n - 1, a + 64), badLines := t.badLines.filter (fun x => decide (x ≠ a)) }
        match skewDescOf (cfgDw s u) k with
        | none => s2
        | some d =>
          let s3 := if (skewOf t k).reading.isNone then s2 else refillBeat s2 u d b (t.badLines.contains a)
          if n ≤ 1 then refillDone s3 u d a else s3

/-- The spill input's next beat begins the run of a pennant in this fc (R183). -/
def refillDue (s : State) (u : Site) (p : Beat) (frame : Option Nat) : Bool :=
  let t := steerOf s u
  let port := spillInPort s u
  spillOn s u && decide (amGetD t.portFc port 0 ≤ s.now) && (match t.refill, (inBuf s ⟨u, port⟩).head? with
    | some (k, _, a), some b => (skewOf t k).reading.isSome && !t.badLines.contains a && bType b == tyData && bStream b == bStream p
        && bTag b == penTag p && frame.isSome && (skewOf t k).subFrames.headD none == frame
    | _, _ => false)

/-- A pennant arrives, one that would be a fifth item with its run (R183). -/
def execPennantPair (site : Site) (port : Nat) (s : State) : Host.Outcome State Fault Refusal :=
  if siteKind site ≠ 3 ∨ !tileSees s site || steerOp s site != 4 || port != pennantPort s site then done s else
  let due := (inBuf s ⟨site, port⟩).head?.bind (fun p => runDue s site p (movedFrame s ⟨site, port⟩ p))
  let back := (inBuf s ⟨site, port⟩).head?.any (fun p => refillDue s site p (movedFrame s ⟨site, port⟩ p))
  match pennantMove (if due.isSome || back then 5 else 4) s site port with
  | none => done s
  | some s1 =>
    if unpairedPennants (steerOf s1 site) port ≤ 4 then done s1
    else match due with
      | some input => done ((skewMove 4 s1 site input).getD s1)
      | none => done ((refillStep s1 site).getD s1)

def refillLoop : Nat → State → Site → State
  | 0, s, _ => s
  | n + 1, s, u => match refillStep s u with | some s1 => refillLoop n s1 u | none => s

/-- The queue that the spill input's next element belongs to. -/
def refillQueue (s : State) (u : Site) : Option Nat :=
  match (steerOf s u).refill with
  | some (k, _, _) => some k
  | none => ((inBuf s ⟨u, spillInPort s u⟩).head?).map markQueue

/-- Beats of the read return that stand at the spill input. -/
def refillLength (s : State) (u : Site) : Nat :=
  let buf := inBuf s ⟨u, spillInPort s u⟩
  match (steerOf s u).refill with
  | some (_, n, _) => min n buf.length
  | none => match buf.head? with | some b => min (markCount b + 1) buf.length | none => 0

/-- Refilled beats enter the skew queue: as many of the elements that stand at the spill input as the command takes, one per fc. -/
def execRefillReturn (site : Site) (queue beats : Nat) (s : State) : Host.Outcome State Fault Refusal :=
  if !steerActs s site || !spillOn s site || refillQueue s site != some queue then done s
  else done (refillLoop (min beats (refillLength s site)) s site)

/-- A beat has left an output of the unit: the watchdog counts from the next fc (R190). -/
def steerBeatSent (s : State) (u : Site) : State := setSteer s u { steerOf s u with idleSince := s.now }

/-- A beat arrives for a SPILLING queue whose subring is full: it is counted, and stays in the port buffer (R187). -/
def steerArrived (s : State) (u : Site) (port : Nat) (b : Beat) : State :=
  if !spillOn s u then s else
  match skewFor s u port b with
  | some d =>
    let q := skewOf (steerOf s u) d.idx
    if q.spill = .spilling ∧ 2 ^ subLog2 s u ≤ subCount s u q then countUnit s u 2 1 else s
  | none => s

/-! ### Watchdog (R190) -/

/-- The fullest skew queue. -/
def fullestQueue (s : State) (u : Site) : Nat :=
  let t := steerOf s u
  (List.range 16).foldl (fun m k => if (skewOf t m).beats.length < (skewOf t k).beats.length then k else m) 0

/-- The earliest of a list of frame IDs (R28). -/
def earliestFrame (l : List Nat) : Option Nat :=
  l.foldl (fun m f => match m with | some v => if frameAfter f v then some f else some v | none => some f) none

/-- The current frame of a stream with a beat or item in the unit: the one that a join or reorder is in, until every input has reached its next tack
line, else the earliest held. -/
def currentFrame (s : State) (u : Site) (st : Nat) : Option Nat :=
  let t := steerOf s u
  let held := steerFramesOf s u st
  let turn := amGetD t.turns st {}
  let ended := (streamQueues s u st).all (fun d => (headAt t d.idx).any isTack)
  if held.isEmpty then none
  else if (steerOp s u == 0 || steerOp s u == 3) && turn.inFrame && !ended then some turn.frame
  else earliestFrame held

/-- The pairing items of a stream cleared: held pennants go, and runs that stand unpaired in a queue pair no more. -/
def clearItems (s : State) (u : Site) (st : Nat) : State :=
  let t := steerOf s u
  setSteer s u { t with pennants := t.pennants.filter (fun p => decide (p.stream ≠ st))
                        runs := t.runs.map (fun r => if r.stream = st ∧ unpaired r then { r with cleared := true } else r) }

/-- Every stream with a beat or item: its current frame aborted with a code, its queues discarded to their next tack lines, its items cleared. -/
def steerAbortCurrent (s : State) (u : Site) (code : Nat) : State :=
  (List.range 32).foldl (fun x st =>
    match currentFrame x u st with
    | some f => clearItems (steerDrop (abortRecord x code u st f 0 0) u st f code) u st
    | none => x) s

/-- Every frame in progress aborted (R192). -/
def steerAbortAll (s : State) (u : Site) (code : Nat) : State :=
  (steerFrames s u).foldl (fun x q => steerDrop (abortRecord x code u q.1 q.2 0 0) u q.1 q.2 code) s

def execSteerWatchdogExpiry (site : Site) (s : State) : Host.Outcome State Fault Refusal :=
  if !steerActs s site || steerWatch s site < 10 || !steerHolds s site then done s
  else
    let t := steerOf s site
    let k := fullestQueue s site
    let s1 := advance s (watchEnd t.idleSince (steerWatch s site))
    if !fabricRuns s1 then done s else
    let s2 := fault s1 0x0620 4 site (dw (k + (skewOf t k).beats.length * 2 ^ 16)) (dw (subCount s site (skewOf t k)))
    let s3 := steerAbortCurrent (countUnit s2 site 5 1) site 0x0621
    let t3 := steerOf s3 site
    done (setSteer s3 site { t3 with idleSince := s3.now })

end Sys2Proof.Machine
end

