-- ==== Sys2Proof/Machine/Fabric.lean ====
section
/-! DEFINITION. Beats and credits on the links, the checkers, the loss of a frame at an element, void tack lines, and contention on a segment
(spec/02_fabric_hoists.md R47, R48, R59 to R65, R81 to R83, spec/06_tokens_steering.md R173, R174). -/

namespace Sys2Proof.Machine

/-! ### A frame given up at the element that an input belongs to (R173, R174) -/

/-- A tile gives a frame up: its slots, or, when it binds none, its inputs and outputs. -/
def tileFrameDrop (s : State) (e : EndPoint) (st frame : Nat) (tk : TackInfo) (code : Nat) : State :=
  if (tileFrames s e.site).contains (st, frame) then tilesGiveUp s e.site st frame code
  else
    let ins := match siteKind e.site with | 0 => tileIns s e.site | 1 => vecIns s e.site | _ => winIns s e.site
    let s1 := if siteKind e.site = 2 then winTailOff s e.site st frame else s
    voidOn (discardOn s1 ins st frame) (endsOf e.site (outPorts s e.site)) st frame tk code

/-- The element of a consumer input gives up a frame, whose tack line carries tk: its state and beats of it, and the tack lines on its outputs. -/
def elementDropWith (s : State) (e : EndPoint) (st frame : Nat) (tk : TackInfo) (code : Nat) : State :=
  match siteKind e.site with
  | 0 | 1 | 2 => tileFrameDrop s e st frame tk code
  | 3 => steerDrop s e.site st frame code
  | 4 =>
    let s1 := discardInput s e st frame
    if (linkPaths s e).isEmpty then s1 else voidOn s1 [e] st frame tk code
  | 5 => queueDrop s (sitePort e.site * 8 + e.port) st frame code
  | 7 => removeFrame (endResults (discardInput s e st frame) (siteSub e.site) frame code) (siteSub e.site) frame
  | 8 => txVoid s (siteSub e.site) e.port st frame code
  | _ => discardInput s e st frame

def elementDrop (s : State) (e : EndPoint) (st frame code : Nat) : State := elementDropWith s e st frame (tackOf s e st frame) code

/-- The site word of a consumer input, as a checker names it: the port in sub, the egress, or the span port (R59). -/
def inputSite (e : EndPoint) : Site := if siteKind e.site ≤ 5 then siteWithSub e.site e.port else e.site

/-! ### Links (R60, R65) -/

/-- Frames with a beat on a link: on its way, or in a consumer's buffer. -/
def linkFrames (s : State) (l : Link) (consumers : List EndPoint) : List (Nat × Nat) :=
  dedup (consumers.flatMap (fun e =>
    let beats := inBuf s e ++ (l.flights.filter (fun f => f.consumer == e)).map (·.beat)
    (streamsIn beats).flatMap (fun st =>
      let cur := (headFrame s e st).or ((lastTackAt s e st).map Prod.fst)
      (framesIn st cur beats).map (fun f => (st, f)))))

/-- An output that carries no-token in an fc: that of a LOST box, or one whose words are damaged then (R76). -/
def hopDead (s : State) (h : Hop) : Bool :=
  s.fabric.deadDwords.any (fun d => d.1 == h.box && (d.2.1 == h.out / 4 || d.2.1 == 11) && decide (d.2.2 ≤ h.at_)) || s.lostBoxes.contains h.box

/-- The damaged output at which a beat is lost: its register would have held the beat in or after the fc of the damage (R76). -/
def lostAt (s : State) (f : Flight) : Option Site :=
  f.lost.or ((f.hops.find? (hopDead s)).map (·.box))

/-- The outputs and FIFOs that a beat passes before the output at which it is lost. -/
def liveHops (s : State) (f : Flight) : List Hop := f.hops.takeWhile (fun h => f.lost != some h.box && !hopDead s h)

/-- Flights leave their link. A boundary FIFO that no copy of the beat is left for has passed it: its read pointer moves on (R168). -/
def dropFlights (s : State) (producer : EndPoint) (gone : List Flight) : State :=
  match linkAt s producer with
  | none => s
  | some l =>
    let left := l.flights.filter (fun f => !gone.contains f)
    let through (f : Flight) : List (Fc × Site × Nat) := ((liveHops s f).filter (·.fifo.isSome)).map (fun h => (f.sent, h.box, h.out))
    let passed := (dedup (gone.flatMap through)).filter (fun k => !(left.flatMap through).contains k)
    let s1 := setLink s producer { l with flights := left }
    { s1 with fabric := { s1.fabric with fifoRp := passed.foldl (fun m k => amMod m (k.2.1, k.2.2) 0 (fun n => (n + 1) % 16)) s1.fabric.fifoRp } }

/-- The link's buffers empty and both semaphores as R60 loads them; the frames on it given up at each consumer. It carries beats again from the next fc
(R65). -/
def emptyLink (s : State) (producer : EndPoint) (code : Nat) (frames : List (Nat × Nat)) : State :=
  let paths := linkPaths s producer
  let s0 := match linkAt s producer with | some l => dropFlights s producer l.flights | none => s
  let s1 := frames.foldl (fun x f => paths.foldl (fun y p => elementDrop y p.consumer f.1 f.2 code) x) s0
  let s2 := paths.foldl (fun x p => setInBuf x p.consumer []) s1
  setLink s2 producer { freshLink (linkDepth s2 producer paths) with lastSend := some s2.now }

/-- A credit inconsistency (R65): a record for each frame that had a beat on the link, or one that names none. -/
def creditFault (s : State) (producer consumer : EndPoint) : State :=
  let paths := linkPaths s producer
  let frames := match linkAt s producer with | some l => linkFrames s l (paths.map (·.consumer)) | none => []
  let s1 := if frames.isEmpty then fault s 0x0203 1 (inputSite consumer) 0 0
    else frames.foldl (fun x f => abortRecord x 0x0203 (inputSite consumer) f.1 f.2 0 0) s
  emptyLink s1 producer 0x0203 frames

/-! ### Sending (R47, R61) -/

/-- A link that contention keeps stopped (R83). -/
def linkDead (s : State) (paths : List LinkPath) : Bool :=
  paths.any (fun p => p.segments.any (fun g => (amGetD s.fabric.contention g {}).dead))

/-- The beat at the head of an output's queue leaves, when the link has credit. A span port first brings one from its receive share. -/
def execBeatSend (producer : EndPoint) (s : State) : Host.Outcome State Fault Refusal :=
  let s0 := if siteKind producer.site = 8 then spanDeliver s (siteSub producer.site) producer.port else s
  match outQ s0 producer with
  | [] => done s0
  | o :: rest =>
    let sA := advance s0 o.notBefore
    if !maySend sA producer || unitMuted sA producer.site || linkDead sA (linkPaths sA producer) then done s0
    else
      let s1 := sendOnLink (setOutQ sA producer rest) producer o.beat
      let s2 := if isTack o.beat then
          { s1 with fabric := { s1.fabric with outTack := amSet s1.fabric.outTack (producer, bStream o.beat) (tackFrame o.beat) } }
        else s1
      done (if siteKind producer.site = 3 then steerBeatSent s2 producer.site else tilesBeatSent s2 producer o)

/-! ### Arriving (R58, R59, R61) -/


/-- What a checker finds (R59): a crc9 that does not fit, whatever the type, or a type that no beat has. Type 15 with other bits set is neither the
no-token nor a listed type: DESIGN CHOICE (notes/assumptions/69.md), it counts as reserved. -/
def beatFault (b : Beat) : Option Nat :=
  if b = noToken then none else if crc9 b.data b.side ≠ bCrc b then some 0x0201 else if 5 ≤ bType b then some 0x0202 else none

/-- A beat that has been discarded: the record names the frame of the last tack line received on its stream, and the frame is given up at the
consumers that the beat was for (R59). -/
def beatGone (s : State) (e : EndPoint) (consumers : List EndPoint) (site : Site) (code st : Nat) : State :=
  match lastTackAt s e st with
  | some (f, _) => consumers.foldl (fun x c => elementDrop x c st f code) (abortRecord s code site st f 0 0)
  | none => faultAt s code 1 site (some st) noFrame 0 0 s.now

/-- The record of a frame that loses a beat at a damaged box, once for each frame. -/
def noteLost (s : State) (box : Site) (st frame : Nat) : State :=
  if s.fabric.lostFrames.contains (box, st, frame) then s
  else
    let s1 := abortRecord s 0x0234 box st frame 0 0
    { s1 with fabric := { s1.fabric with lostFrames := s1.fabric.lostFrames ++ [(box, st, frame)] } }

/-- A beat of a frame has been lost at a damaged or LOST box (R76, R405): the frame is given up at the consumer, and recorded once. The frame of a tack
line is its own, that of another beat the one of the last tack line received. A lost beat gives its credit back: DESIGN CHOICE
(notes/assumptions/69.md). -/
def beatLost (s : State) (e : EndPoint) (box : Site) (b : Beat) : State :=
  let st := bStream b
  let s1 := returnCredit s e
  let frame := if isTack b then some (tackFrame b) else (lastTackAt s e st).map Prod.fst
  match frame with
  | none => faultAt s1 0x0234 1 box (some st) noFrame 0 0 s1.now
  | some f =>
    let tk := if isTack b then tackInfo b else tackOf s1 e st f
    elementDropWith (noteLost s1 box st f) e st f tk 0x0234

/-- A beat fails at its consumer: it is discarded with its credit. -/
def beatFails (s : State) (e : EndPoint) (site : Site) (code st : Nat) : State := beatGone (returnCredit s e) e [e] site code st

/-- The hops up to the k-th boundary FIFO of a way, that FIFO's last. -/
def hopsThrough : Nat → List Hop → List Hop
  | _, [] => []
  | k, h :: rest =>
    match h.fifo, k with
    | some _, 0 => [h]
    | some _, k + 1 => h :: hopsThrough k rest
    | none, k => h :: hopsThrough k rest

/-- The k-th boundary FIFO on a flight's way. -/
def fifoAt (f : Flight) (k : Nat) : Option (Hop × Site) :=
  match (f.hops.filter (·.fifo.isSome)).getD k ⟨noSite, 0, 0, none⟩ with
  | h => h.fifo.map (fun g => (h, g.1))

/-- A beat fails its check at a boundary FIFO: every copy made behind the FIFO goes with it, and the FIFO sends each copy's credit back, which takes
as long as the beat took to it (R59, R62). -/
def fifoFails (s : State) (producer e : EndPoint) (l : Link) (f : Flight) (k : Nat) (h : Hop) (g : Site) (code st : Nat) : State :=
  let way (x : Flight) : List (Site × Nat) := (hopsThrough k x.hops).map (fun y => (y.box, y.out))
  let copies := l.flights.filter (fun x => x.sent == f.sent && way x == way f)
  let s1 := dropFlights (advance s (h.at_ + 1)) producer copies
  let s2 := copies.foldl (fun x c => match linkAt x producer with
    | some y => setLink x producer { y with credits := y.credits ++ [⟨c.consumer, x.now + (h.at_ + 1 - f.sent)⟩] }
    | none => x) s1
  beatGone s2 e (copies.map (·.consumer)) g code st

/-- A frame's beats that an input still discards: what this beat means for them (R113, R171). None: it stays. -/
def discardArrival (s : State) (e : EndPoint) (b : Beat) : Option State :=
  let st := bStream b
  let l := discardsAt s e st
  if l.isEmpty ∨ 2 < bType b then none
  else if isTack b then
    let f := tackFrame b
    if l.contains f then
      let s1 := if isVoidTack b then setDiscards s e st (l.filter (fun g => decide (g ≠ f))) else s
      some (returnCredit s1 e)
    else none
  else match lastTackAt s e st with
    | some (f, _) => if l.contains f then some (returnCredit s e) else none
    | none => none

/-- A later frame's tack line ends the discard of earlier ones. -/
def discardsPast (s : State) (e : EndPoint) (b : Beat) : State :=
  if isTack b then setDiscards s e (bStream b) ((discardsAt s e (bStream b)).filter (fun g => !frameAfter g (tackFrame b))) else s

/-- A beat that has passed its checks enters the consumer's buffer. -/
def beatEnters (s : State) (e : EndPoint) (b : Beat) : State :=
  let st := bStream b
  let s1 := if isTack b then
      { s with fabric := { s.fabric with lastTack := amSet s.fabric.lastTack (e, st) (tackFrame b, tackInfo b) } } else s
  match discardArrival s1 e b with
  | some s2 => s2
  | none =>
    let s2 := discardsPast s1 e b
    let k := siteKind e.site
    if (bType b = tyPennant ∨ bType b = tyMarker) ∧ k ≤ 2 then
      fault (returnCredit s2 e) (if k = 0 then 0x0306 else 0x0506) 4 (inputSite e) 0 0
    else
      let s3 := setInBuf s2 e (inBuf s2 e ++ [b])
      if k = 3 then steerArrived s3 e.site e.port b else s3

/-- The upset of a beat in flight. -/
def upsetBeat (b : Beat) (upset : BitVec 544) : Beat :=
  ⟨b.data ^^^ BitVec.ofNat 512 upset.toNat, b.side ^^^ BitVec.ofNat 32 (upset.toNat / 2 ^ 512)⟩

/-- The oldest beat on its way to a consumer arrives, upset on the way. -/
def beatArrive (s : State) (producer e : EndPoint) (l : Link) (f : Flight) (b : Beat) : State :=
  let sA := advance s f.arrives
  let s1 := dropFlights sA producer [f]
  match lostAt s f with
  | some box => beatLost s1 e box f.beat
  | none =>
    match beatFault b with
    | some code => beatFails s1 e (inputSite e) code (bStream b)
    | none =>
      if b = noToken then s1
      else if bufDepth s1 e l ≤ (inBuf s1 e).length then creditFault sA producer e
      else beatEnters s1 e b

/-- A beat arrives, upset before the checker that `upset` names. -/
def execBeatArrive (consumer : EndPoint) (upset : ArriveUpset) (s : State) : Host.Outcome State Fault Refusal :=
  match linkProducer s consumer with
  | none => done s
  | some producer =>
    match linkAt s producer, (linkPaths s producer).find? (fun p => p.consumer = consumer) with
    | some l, some path =>
      match l.flights.find? (fun f => f.consumer == consumer) with
      | some f =>
        if !fabricRuns (advance s f.arrives) || path.boxes.any (fun b => inProof s b.1) then done s
        else
          let b := upsetBeat f.beat upset.bits
          match fifoAt f upset.place, lostAt s f, beatFault b with
          | some (h, g), none, some code => done (fifoFails s producer consumer l f upset.place h g code (bStream b))
          | _, _, _ => done (beatArrive s producer consumer l f b)
      | none => done s
    | _, _ => done s

/-! ### Credits (R48, R61, R65) -/

/-- A credit reaches the box that copies: the producer gets one when every branch has returned one for the same beat. -/
def branchCredit (l : Link) (consumers : List EndPoint) (c : EndPoint) : Link × Bool :=
  let br := amMod l.branch c 0 (· + 1)
  if consumers.all (fun e => decide (0 < amGetD br e 0)) then
    ({ l with branch := consumers.foldl (fun m e => amMod m e 0 (· - 1)) br }, true)
  else ({ l with branch := br }, false)

def execCreditReturnArrive (producer : EndPoint) (s : State) : Host.Outcome State Fault Refusal :=
  match linkAt s producer with
  | none => done s
  | some l =>
    match l.credits with
    | [] =>
      -- a credit that nobody sent: an upset of the return wire
      if !fabricRuns s then done s
      else match linkPaths s producer with
        | p :: _ => if l.depth ≤ l.free then done (creditFault s producer p.consumer) else done (setLink s producer { l with free := l.free + 1 })
        | [] => done s
    | c0 :: rest0 =>
      let c := rest0.foldl (fun m c => if c.arrives < m.arrives then c else m) c0
      let s1 := advance s c.arrives
      let held := (linkPaths s producer).any (fun p => p.consumer == c.consumer && p.boxes.any (fun b => inProof s b.1))
      if !fabricRuns s1 || held then done s
      else
        let r := branchCredit { l with credits := l.credits.erase c } ((linkPaths s producer).map (·.consumer)) c.consumer
        if !r.2 then done (setLink s1 producer r.1)
        else if l.depth ≤ l.free then done (creditFault (setLink s1 producer r.1) producer c.consumer)
        else
          let s2 := setLink s1 producer { r.1 with free := l.free + 1 }
          if siteKind producer.site = 6 then done (liftHold s2 (siteSub producer.site)) else done s2

/-! ### Void tack lines (R174) -/

/-- A void tack line that has reached an input. An element that has its own handling of tack lines in order (a glue block, a STREAM_OUT queue, a
span port, an egress behind earlier beats) meets it there. -/
def execVoidTackLineReceive (input : EndPoint) (stream : Nat) (s : State) : Host.Outcome State Fault Refusal :=
  let k := siteKind input.site
  match (inBuf s input).find? (fun b => isVoidTack b && bStream b == stream) with
  | none => done s
  | some b =>
    if !fabricRuns s || (decide (k ≤ 5) && unitHeld s input.site) then done s
    else match k with
      | 0 | 1 | 2 => done (tileFrameDrop s input stream (tackFrame b) (tackInfo b) (tackCode b))
      | 3 => done (steerDrop s input.site stream (tackFrame b) (tackCode b))
      | 7 => if (inBuf s input).head? = some b then done (resultVoid s (siteSub input.site) b) else done s
      | _ => done s

/-! ### Contention (R81 to R83) -/

/-- Start box and end box of a segment, with the outputs that drive it. -/
def segmentEnds (g : Site) : Site × Site :=
  let box := siteOf 10 (siteSector g) (siteY g) (siteX g) 0
  let t := siteSub g
  (siteWithSub box (16 + t), match nextBox box with | some (b, _) => siteWithSub b t | none => noSite)

/-- Producers whose links run through a segment, of those that have carried a beat. -/
def linksThrough (s : State) (g : Site) : List EndPoint :=
  (amKeys s.fabric.links).filter (fun p => (linkPaths s p).any (fun q => q.segments.contains g))

/-- The MIRROR hoist. -/
def mirrorHoist (s : State) : Option Nat := (List.range 4).find? (fun h => (hoistOf s h).state == .mirror)

/-- A cut switch to the mirror 256 fc after detection, when a MIRROR exists and no host switch lands first (R76, R78). A host switch pending to the
MIRROR hoist itself at T ≤ d + 256 stands in two rows of R78: DESIGN CHOICE (notes/assumptions/70.md), the first row holds, and no automatic switch
is made. -/
def autoSwitchFor (s : State) (d : Fc) : Option AutoSwitch :=
  match s.hal.autoSwitch, mirrorHoist s, s.hal.active with
  | some a, _, _ => some a
  | none, some m, some h =>
    match s.hal.hostSwitch with
    | some hs => if hs.time ≤ d + 256 then none else some { time := d + 256, mirror := m, damagedHoist := h }
    | none => some { time := d + 256, mirror := m, damagedHoist := h }
  | none, _, _ => none

def damageWord (s : State) (h : Nat) (u : Site) (i : Nat) : State :=
  let x := hoistOf s h
  setHoist s h { x with damaged := addNew x.damaged (u, i) }

/-- An element of the active hoist is damaged: it holds its buffers, or a box's outputs carry no-token from now on, until the mirror takes over or the
words are rewritten in place (R76). -/
def activeDamage (s : State) (h : Nat) (u : Site) (i : Nat) : State :=
  let s1 := damageWord s h u i
  let s2 := if siteKind u = 10 then
      { s1 with fabric := { s1.fabric with
          deadDwords := s1.fabric.deadDwords ++ [(u, i, fabricNow s)]
          lostFrames := s1.fabric.lostFrames.filter (fun l => decide (l.1 ≠ u)) } }
    else { s1 with fabric := { s1.fabric with held := addNew s1.fabric.held (siteElem u) } }
  match autoSwitchFor s2 s.now with
  | some a => { s2 with hal := { s2.hal with autoSwitch := some { a with records := a.records ++ [(u, s.now)] } } }
  | none => fault s2 0x0232 0 u 0 0

/-- The outputs of boxes carry beats again: what they have lost up to now stays lost. -/
def mendBoxes (s : State) (mended : Site → Bool) : State :=
  let dead := s.fabric.deadDwords.filter (fun d => mended d.1)
  let lost (f : Flight) : Option Site := f.hops.findSome? (fun h =>
    if dead.any (fun d => d.1 == h.box && (d.2.1 == h.out / 4 || d.2.1 == 11) && decide (d.2.2 ≤ h.at_) && decide (h.at_ < fabricNow s)) then some h.box else none)
  { s with fabric := { s.fabric with
      deadDwords := s.fabric.deadDwords.filter (fun d => !mended d.1)
      links := amMap s.fabric.links (fun _ l => { l with flights := l.flights.map (fun f => { f with lost := f.lost.or (lost f) }) }) } }

/-- Segments whose drivers are both sound again in the active hoist have recovered (R83). -/
def contentionMended (s : State) : State :=
  let bad (u : Site) : Bool := s.fabric.deadDwords.any (fun d => d.1 == siteElem u)
  { s with fabric := { s.fabric with contention := amMap s.fabric.contention (fun g c =>
      if c.recoveredAt.isSome || bad (segmentEnds g).1 || bad (segmentEnds g).2 then c else { c with recoveredAt := some s.now }) } }

/-- The beats of both drivers are lost: the records of the contention, and every link through the segment as R65 leaves it (R81, R82). The rule gives
the details of the first record alone: DESIGN CHOICE (notes/assumptions/70.md), every record of the contention names the two boxes. -/
def contentionCut (s : State) (segment : Site) (again : Bool) : State :=
  let ends := segmentEnds segment
  let links := linksThrough s segment
  let framesOf (p : EndPoint) : List (Nat × Nat) :=
    match linkAt s p with | some l => linkFrames s l ((linkPaths s p).map (·.consumer)) | none => []
  let frames := dedup (links.flatMap framesOf)
  let s1 := if frames.isEmpty then if again then s else fault s 0x0210 1 segment ends.1 ends.2
    else frames.foldl (fun x f => abortRecord x 0x0210 segment f.1 f.2 ends.1 ends.2) s
  links.foldl (fun x p => emptyLink x p 0x0210 (framesOf p)) s1

/-- An upset of both drivers of a segment (R83): the words of the two outputs are damaged, and the segment carries no-token until they are mended. -/
def driversDamaged (s : State) (h : Nat) (segment : Site) : State :=
  let ends := segmentEnds segment
  let damage (x : State) (u : Site) : State := if u = noSite then x else activeDamage x h (siteElem u) (siteSub u / 4)
  damage (damage s ends.1) ends.2

/-- What a segment's contention has come to. -/
def noteContention (s : State) (segment : Site) (c : Contention) : State :=
  { s with fabric := { s.fabric with contention := amSet s.fabric.contention segment c } }

/-- Two drivers on one segment in the same fc. In each further fc of a contention that lasts, what is on the links through the segment is lost and they are
loaded anew, as in the first (R81). -/
def execSegmentContention (segment : Site) (s : State) : Host.Outcome State Fault Refusal :=
  match s.hal.active with
  | none => done s
  | some h =>
    if siteKind segment ≠ 9 ∨ !sitePresent segment ∨ !fabricRuns s then done s
    else
      let first : State := driversDamaged (noteContention (contentionCut s segment false) segment {}) h segment
      match amGet s.fabric.contention segment with
      | none => done first
      | some c =>
        if c.dead then done s
        else match c.recoveredAt with
          | none => done (contentionCut s segment true)
          | some t =>
            if s.now ≤ t + 65536 then
              done (noteContention (fault (contentionCut s segment false) 0x0211 2 segment (segmentEnds segment).1 (segmentEnds segment).2) segment
                { c with dead := true })
            else done first

end Sys2Proof.Machine
end

