-- ==== Sys2Proof/Machine/Hoists.lean ====
section
/-! DEFINITION. Hoists: arming, switching, releasing, what a boundary switch clears, what a cut to a section checks, and configuration upsets
(spec/02_fabric_hoists.md R66 to R79, R512, spec/06_tokens_steering.md R191, spec/07_memory_feed.md R228, spec/08_descriptors.md R240,
spec/09_sections_span.md R256 to R260, R278). -/

namespace Sys2Proof.Machine

/-! ### Hoist states (R69) -/

/-- A change of a hoist's state, with event 0x0011. -/
def moveHoist (s : State) (h : Nat) (x : HoistState) : State :=
  if (hoistOf s h).state = x then s
  else postDev (setHoist s h { hoistOf s h with state := x }) 0x15 0x0011 noSite s.now (h + hoistCode x * 2 ^ 4)

/-- A switch is pending to a hoist. -/
def switchTargets (s : State) (h : Nat) : Bool :=
  s.hal.hostSwitch.any (fun w => w.target == h) || s.hal.autoSwitch.any (fun a => a.mirror == h)

/-- A hoist that is not FREE holds a section of an image. -/
def imageHeld (s : State) (handle : Nat) : Bool := s.hal.hoists.any (fun x => x.state != .free && x.image == some handle)

/-! ### HOIST_ARM (R69, R70) -/

def hoistArmTarget (s : State) (p : Packet) : Verdict :=
  let h := dbits (pktDw p 2) 1 0
  if !pktOnly p [(2, 0x103)] || (hoistOf s h).state != .loaded then refuse s stBadParam
  else
    let s1 := (List.range 4).foldl (fun x k =>
      if (hoistOf x k).state = .armed ∧ !switchTargets x k then moveHoist x k .loaded else x) s
    okAt (moveHoist s1 h .armed)

def execHoistArmTarget (c : HostCmd) (s : State) : Host.Outcome State Fault Refusal :=
  takeCmd s c 0x12 0 hoistArmTarget

/-- Programs and pinned ranges of one hoist held for another as well (R214, R234). -/
def shareHoist (s : State) (source h : Nat) : State :=
  let also (l : List Nat) : List Nat := if l.contains source then addNew l h else l
  { s with feed := { s.feed with
      programs := s.feed.programs.map (fun p => { p with hoists := also p.hoists })
      pins := s.feed.pins.map (fun p => (p.1, p.2.1, also p.2.2)) } }

def hoistArmMirror (s : State) (p : Packet) : Verdict :=
  let h := dbits (pktDw p 2) 1 0
  let mirrored := s.hal.hoists.any (fun x => x.state == .mirror || (x.state == .reloading && x.prior == .mirror))
  match s.hal.active with
  | none => refuse s stBadParam
  | some a =>
    if !pktOnly p [(2, 0x103)] || (hoistOf s h).state != .free || mirrored || s.hal.mirrorCopy.isSome then refuse s stBadParam
    else
      let src := hoistOf s a
      let s1 := moveHoist s h .loading
      let s2 := setHoist s1 h { hoistOf s1 h with image := src.image, section_ := src.section_, words := src.words, pad := src.pad }
      let s3 := shareHoist s2 a h
      let s4 := { s3 with hal := { s3.hal with mirrorCopy := some h } }
      let ranges := match src.image.bind (imageOf s) with | some i => chunkRanges i src.section_ [1] | none => []
      .pend (.hoistMirror h) (addJobs s4 .copy false ranges)

def execHoistArmMirror (c : HostCmd) (s : State) : Host.Outcome State Fault Refusal :=
  takeCmd s c 0x12 1 hoistArmMirror

/-- The copy is complete, its lines read (R217, R263): MIRROR (R69). A word of the hoist that was found damaged meanwhile has been rewritten as part of it (R512). -/
def execMirrorCopyDone (s : State) : Host.Outcome State Fault Refusal :=
  match s.hal.mirrorCopy with
  | none => done s
  | some h =>
    if jobPending s .copy then done s else
    let s1 := setHoist { s with hal := { s.hal with mirrorCopy := none } } h { hoistOf s h with damaged := [] }
    done (finishFirst (moveHoist s1 h .mirror) (fun k => k == .hoistMirror h) stOK 0 s.now)

/-! ### HOIST_RELEASE (R69, R214, R234, R353) -/

/-- The regions of an image are released: it is resident no more, and without a mirrored image the mirror offset reads 0 (R231). With several mirrored
images the offset is that of the one loaded last, and stays when that one is released while another is mirrored: R231 names one M alone (DESIGN CHOICE,
notes/assumptions/79.md). -/
def releaseImage (s : State) (handle : Nat) : State :=
  let kept := s.hal.images.filter (fun i => decide (i.handle ≠ handle))
  { s with hal := { s.hal with images := kept, lastImage := if s.hal.lastImage = some handle then kept.getLast?.map (·.handle) else s.hal.lastImage }
           feed := { s.feed with mirrorOffset := if kept.any (·.mirrored) then s.feed.mirrorOffset else 0 } }

/-- A hoist becomes FREE: its words unused, and the programs and pins that no other hoist holds gone. -/
def freeHoist (s : State) (h : Nat) : State :=
  let s1 := moveHoist s h .free
  let pins := (s1.feed.pins.map (fun p => (p.1, p.2.1, p.2.2.filter (· ≠ h)))).filter (fun p => !p.2.2.isEmpty)
  let pinned (line : Nat) : Bool := pins.any (fun p => decide (p.1 ≤ 64 * line) && decide (64 * line < p.1 + p.2.1))
  let s2 := setHoist s1 h {}
  { s2 with feed := { s2.feed with
      programs := (s2.feed.programs.map (fun p => { p with hoists := p.hoists.filter (· ≠ h) })).filter (fun p => !p.hoists.isEmpty)
      pins := pins
      cache := s2.feed.cache.map (fun c => if c.pinned then { c with pinned := pinned c.line } else c) } }

def hoistRelease (s : State) (p : Packet) : Verdict :=
  let h := dbits (pktDw p 2) 1 0
  let keep := dbit (pktDw p 2) 8
  let x := hoistOf s h
  if !pktOnly p [(2, 0xFF0303)] then refuse s stBadParam
  else if x.state = .active then refuse s stDenied
  else if switchTargets s h then refuse s stBusy
  else if x.state ≠ .loaded ∧ x.state ≠ .armed ∧ x.state ≠ .mirror then refuse s stBadParam
  else
    let s1 := freeHoist s h
    match x.image with
    | some n => okAt (if keep || imageHeld s1 n then s1 else releaseImage s1 n)
    | none => okAt s1

def execHoistRelease (c : HostCmd) (s : State) : Host.Outcome State Fault Refusal :=
  takeCmd s c 0x14 0 hoistRelease

def hoistReleaseImageOnly (s : State) (p : Packet) : Verdict :=
  let n := dbits (pktDw p 2) 23 16
  if !pktOnly p [(2, 0xFF0303)] || (imageOf s n).isNone then refuse s stBadParam
  else if imageHeld s n then refuse s stBusy
  else okAt (releaseImage s n)

def execHoistReleaseImageOnly (c : HostCmd) (s : State) : Host.Outcome State Fault Refusal :=
  takeCmd s c 0x14 1 hoistReleaseImageOnly

/-! ### HOIST_SWITCH (R70, R72, R75) -/

/-- The target holds the successor section of the section in the active hoist, of the same resident image (R256). -/
def isSuccessor (s : State) (target : Nat) : Bool :=
  match s.hal.active with
  | none => false
  | some a =>
    match (hoistOf s a).image, (hoistOf s target).image with
    | some n, some m =>
      n == m && (match imageOf s n with
        | some i => i.sectioned && (hoistOf s target).section_ == ((hoistOf s a).section_ + 1) % max 1 i.sections
        | none => false)
    | _, _ => false

/-- A switch that is both not allowed and met by another one pending completes BAD_PARAM: R75 gives no order (DESIGN CHOICE,
notes/assumptions/79.md). -/
def hoistSwitch (s : State) (p : Packet) : Verdict :=
  let h := dbits (pktDw p 2) 1 0
  let boundary := dbit (pktDw p 2) 8
  let t := pktQ p 3
  let x := (hoistOf s h).state
  if !pktOnly p [(2, 0x103), (3, 0xFFFFFFFF), (4, 0xFFFFFFFF)] || !(x == .armed || x == .mirror) || !timeOk s t
      || (!boundary && !(x == .mirror || isSuccessor s h)) then refuse s stBadParam
  else if s.hal.hostSwitch.isSome || s.hal.autoSwitch.isSome then refuse s stBusy
  else .pend .hoistSwitch { s with hal := { s.hal with hostSwitch := some { target := h, boundary := boundary, time := t } } }

def execHoistSwitch (c : HostCmd) (s : State) : Host.Outcome State Fault Refusal :=
  takeCmd s c 0x13 0 hoistSwitch

/-! ### The boundary switch (R73, R191, R228, R240, R278) -/

/-- Streams and frames with a beat, a bound slot or a stored item in the fabric. -/
def fabricFrames (s : State) : List (Nat × Nat) :=
  let bufs := s.fabric.inBufs.flatMap (fun p => (streamsIn p.2).flatMap (fun st => (framesIn st (headFrame s p.1 st) p.2).map (fun f => (st, f))))
  let outs := s.fabric.outQs.flatMap (fun p =>
    let l := p.2.map (·.beat)
    (streamsIn l).flatMap (fun st => (framesIn st (amGet s.fabric.outTack (p.1, st)) l).map (fun f => (st, f))))
  let flights := s.fabric.links.flatMap (fun p => p.2.flights.flatMap (fun f =>
    if bType f.beat = tyTack then [(bStream f.beat, tackFrame f.beat)]
    else if bType f.beat ≤ 1 then
      (match lastTackAt s f.consumer (bStream f.beat) with | some x => [(bStream f.beat, x.1)] | none => [])
    else []))
  let tiles := (amKeys s.tiles ++ amKeys s.vtiles ++ amKeys s.wtiles).flatMap (tileFrames s)
  let steer := (amKeys s.steer).flatMap (steerFrames s)
  let feed := (amKeys s.feed.queues).flatMap (queueFrames s)
  let span := (List.range Config.spanPorts).flatMap (fun p => (List.range 4).flatMap (fun j => txFrames s p j ++ rxFrames s p j))
  dedup (bufs ++ outs ++ flights ++ tiles ++ steer ++ feed ++ span)

/-- One frame cut by a boundary switch, or by the window that acts like one: its record, and its end at the stream. -/
def cutFrame (s : State) (code : Nat) (st frame : Nat) : State :=
  let s1 := abortRecord s code noSite st frame 0 0
  match frameOf (streamOf s1 st) frame with
  | none => s1
  | some f =>
    let s2 := if f.receiving then traceNow s1 0x0011 (laneSite st) (some st) (dw frame) 0 code 0 else s1
    let s3 := modStream s2 st (fun c => { withoutBuffer s.now c (c.buffer.filter (fun e => decide (e.frame ≠ frame))) with
      reception := if c.reception.any (fun r => r.frame == frame) then none else c.reception })
    removeFrame (endResults s3 st frame code) st frame

/-- Frames that a boundary switch aborts: those in the fabric, those whose result has not left on every path, and frames still arriving (R73). -/
def cutFrames (s : State) : List (Nat × Nat) :=
  let mine := (List.range Config.streams).flatMap (fun st =>
    ((streamOf s st).frames.filter inFlight).map (fun f => (st, f.id)))
  let known (q : Nat × Nat) : Bool := (frameOf (streamOf s q.1) q.2).any (fun f => !inFlight f)
  dedup (mine ++ (fabricFrames s).filter (fun q => !known q))

/-- Every slot of every tile unbound at a boundary switch, under the words it was bound under: its totals (R128, R130) and its trace record. -/
def unbindTiles (s : State) (code : Nat) : State :=
  let s1 := (amKeys s.tiles).foldl (fun x u => (List.range 4).foldl (fun y k => tileUnbind y u k code) x) s
  (amKeys s.vtiles ++ amKeys s.wtiles).foldl (fun x u =>
    let slots : List (Option (Nat × Nat)) := match siteKind u with
      | 1 => (vtileOf x u).slots.map (fun o => o.map (fun k => (k.stream, k.frame)))
      | _ => (wtileOf x u).slots.map (fun o => o.map (fun k => (k.stream, k.frame)))
    slots.zipIdx.foldl (fun y q => match q.1 with
      | some f => traceNow y 0x0013 u (some f.1) (dw f.2) q.2 code 0
      | none => y) x) s1

/-- Scoreboards, staging, sets, and the working region of the scratch (R142) emptied. -/
def clearTiles (s : State) : State :=
  { s with
    tiles := amMap s.tiles (fun _ t => emptyTile t)
    vtiles := amMap s.vtiles (fun u t => { t with slots := List.replicate 4 none, board := [],
                                                  scratch := t.scratch.filter (fun e => decide (constBase s u ≤ e.1)) })
    wtiles := amMap s.wtiles (fun _ t => { t with slots := List.replicate 4 none, tails := [] }) }

/-- Every flip-flop of the glue cells at its init value in the active hoist (R162). -/
def clearGlue (s : State) : State :=
  let used := (sitesOfKind 4).filter (fun u => unitUsed s u || (amGet s.glue u).isSome)
  used.foldl (fun x u => setGlue x u { glueOf x u with flops := initFlops x u, drained := if unitState x u = .draining then (glueOf x u).drained else [], reported := [] }) s

def allQueues : List Nat := List.range (8 * Config.memPorts)

/-- Every queue of the target's bank started, and every queue that holds something cleared. -/
def startQueues (s : State) : State :=
  (allQueues.filter (fun q => queueUsed s q || (amGet s.feed.queues q).isSome)).foldl (fun x q => activateQueue x q (clearQueue (queueOf x q))) { s with feed := { s.feed with edges := [] } }

/-- A stream's context when the fabric is emptied under it: nothing of a frame that is over enters the fabric any more, and the attachment of its
results is empty. -/
def leaveFabric (c : StreamCtx) : StreamCtx :=
  let fs := c.frames.filter (fun f => inFlight f || f.courier)
  let mine (n : Nat) : Bool := fs.any (fun f => f.id == n)
  { withBuffer c (c.buffer.filter (fun e => mine e.frame)) with frames := fs, res := none, headSeen := false, headTaken := 0
                                                                reception := if c.reception.any (fun r => mine r.frame) then c.reception else none }

/-- A stream's context at a boundary switch: its ingress buffer is flushed, both pointers 0 (R171). -/
def flushStream (c : StreamCtx) : StreamCtx :=
  { leaveFabric c with buffer := [], bufWp := 0, dropN := 0, reception := none }

/-- The fabric emptied, with the frames `gone` aborted with a code, and the streams' contexts after it. -/
def flushFabric (s : State) (code : Nat) (gone : List (Nat × Nat)) (after : StreamCtx → StreamCtx) : State :=
  let s1 := clearTiles (gone.foldl (fun x q => cutFrame x code q.1 q.2) s)
  let s2 := { s1 with
    fabric := { s1.fabric with links := [], inBufs := [], outQs := [], lastTack := [], headTack := [], headInfo := [], outTack := [], discarding := [],
                               openSent := [], voidSent := [], fifoRp := [] }
    steer := amMap s1.steer (fun _ t => { ctl := t.ctl, idleSince := s1.now })
    streams := s1.streams.map after }
  startQueues (clearGlue s2)

/-- What a boundary switch clears (R73), with the target already active and the slots unbound: `code` is that of the frames `gone` that it aborts. -/
def boundaryFlush (s : State) (code : Nat) (gone : List (Nat × Nat)) : State :=
  let s3 := flushFabric s code gone flushStream
  (List.range Config.spanPorts).foldl (fun x p => spanBoundary x p gone) s3

/-! ### The cut to a section (R72, R191, R228, R260, R278) -/

/-- Words of a unit equal in two hoists. -/
def wordsEqual (a b : List Dword) : Bool := (List.range (max a.length b.length)).all (fun i => lget a i 0 == lget b i 0)

/-- Units whose words differ between two hoists. -/
def changedUnits (s : State) (h k : Nat) : List Site :=
  (dedup (amKeys (hoistOf s h).words ++ amKeys (hoistOf s k).words)).filter (fun u => !wordsEqual (hoistWords s h u) (hoistWords s k u))

/-- A tile holds a bound slot, a scoreboard entry, a filled staging line, or a beat in an input buffer. -/
def tileHolds (s : State) (u : Site) : Bool :=
  !(tileFrames s u).isEmpty
    || (match siteKind u with
        | 0 => !(tileOf s u).board.isEmpty || (tileOf s u).staging.any (fun l => l.2.filled)
        | 1 => !(vtileOf s u).board.isEmpty
        | _ => false)
    || (List.range (portCount (siteKind u))).any (fun p => !(inBuf s ⟨u, p⟩).isEmpty)

def bufferedFrames (s : State) (u : Site) : List (Nat × Nat) :=
  dedup ((List.range (portCount (siteKind u))).flatMap (fun p =>
    let e : EndPoint := ⟨u, p⟩
    (streamsIn (inBuf s e)).flatMap (fun st => (framesIn st (headFrame s e st) (inBuf s e)).map (fun f => (st, f)))))

/-- Frames that entries on a tile's scoreboard are of, and the scoreboard emptied. -/
def boardFrames (s : State) (u : Site) : List (Nat × Nat) :=
  let board : List Issued := match siteKind u with | 0 => (tileOf s u).board | 1 => (vtileOf s u).board | _ => []
  dedup (board.map (fun e => (e.stream, e.frame)))

def clearBoard (s : State) (u : Site) : State :=
  match siteKind u with
  | 0 => setTile s u { tileOf s u with board := [] }
  | 1 => setVtile s u { vtileOf s u with board := [] }
  | _ => s

/-- An element whose words change and that holds state fails the check: its record, and each frame with state in it. -/
def cutElement (s : State) (u : Site) : State :=
  let holds := if siteKind u = 4 then !(bufferedFrames s u).isEmpty else tileHolds s u
  if !holds then s
  else
    let ends : List EndPoint := endsOf u (List.range (portCount (siteKind u)))
    let s0 := fault s 0x0901 4 u 0 0
    let sT := (tileFrames s u).foldl (fun x f => tilesGiveUp (abortRecord x 0x0902 u f.1 f.2 0 0) u f.1 f.2 0x0902) s0
    let s1 := clearBoard ((boardFrames sT u).foldl (fun x f => tileFrameDrop (abortRecord x 0x0902 u f.1 f.2 0 0) ⟨u, 0⟩ f.1 f.2 {} 0x0902) sT) u
    let recorded := (bufferedFrames s1 u).foldl (fun x f => abortRecord x 0x0902 u f.1 f.2 0 0) s1
    let s2 := ends.foldl (fun x e => (streamsIn (inBuf s1 e)).foldl (fun y st =>
      (framesIn st (headFrame s1 e st) (inBuf s1 e)).foldl (fun z f => elementDrop z e st f 0x0902) y) x) recorded
    let s3 := ends.foldl (fun x e => returnCredits (inBuf x e).length (setInBuf x e []) e) s2
    if siteKind u = 0 then setTile s3 u { tileOf s3 u with staging := [] } else s3

/-- Where a flight is in fc t: the output whose register holds it, or the boundary FIFO behind that output. -/
def flightAt (t : Fc) (f : Flight) : Option (Hop × Option Site) :=
  f.hops.findSome? (fun h =>
    if h.at_ = t then some (h, none)
    else match h.fifo with
      | some (g, leave) => if h.at_ < t ∧ t < leave then some (h, some g) else none
      | none => none)

/-- The box whose output drives a segment in a hoist. -/
def driverOf (s : State) (h : Nat) (g : Site) : Option Site :=
  let ends := segmentEnds g
  let drives (u : Site) : Bool := u != noSite && boxEntryOf (hoistWords s h (siteElem u)) (siteSub u) != 0x3F
  if drives ends.1 then some ends.1 else if drives ends.2 then some ends.2 else none

/-- A link's form in a hoist: its paths and the port words at its ends. -/
def linkForm (s : State) (h : Nat) (producer : EndPoint) : List LinkPath × List Dword :=
  let paths := pathsBy (fun b o => boxEntryOf (hoistWords s h b) o) producer
  let word (e : EndPoint) (out : Bool) : Dword := match portWordAt e out with | some (u, i) => lget (hoistWords s h u) i 0 | none => 0
  (paths, word producer true :: paths.map (fun p => word p.consumer false))

/-- A link that is not carried into the target in the same form: its beats go with their frames, each named at the output or FIFO that fails the
check, else at the consumer. A frame that its consumer has given up already has its record. -/
def cutLink (s : State) (h k : Nat) (producer : EndPoint) : State :=
  if linkForm s h producer == linkForm s k producer then s
  else
    let paths := (linkForm s h producer).1
    match linkAt s producer with
    | none => s
    | some l =>
      let failing (f : Flight) : Option Site :=
        match flightAt s.now f with
        | some (x, none) => if boxEntryOf (hoistWords s h x.box) x.out = boxEntryOf (hoistWords s k x.box) x.out then none else some (siteWithSub x.box x.out)
        | some (_, some g) => if driverOf s h g = driverOf s k g then none else some g
        | none => none
      let frameAt (f : Flight) : List (Nat × Nat) :=
        if isTack f.beat then [(bStream f.beat, tackFrame f.beat)]
        else match lastTackAt s f.consumer (bStream f.beat) with | some x => [(bStream f.beat, x.1)] | none => []
      let named := l.flights.filterMap (fun f => (failing f).map (fun g => (g, frameAt f)))
      let s1 := (dedup (named.map Prod.fst)).foldl (fun x g => fault x 0x0901 4 g 0 0) s
      let all := linkFrames s l (paths.map (·.consumer))
      let site (q : Nat × Nat) : Site :=
        match named.find? (fun n => n.2.contains q), paths with
        | some n, _ => n.1
        | none, p :: _ => siteElem p.consumer.site
        | none, [] => noSite
      let told (q : Nat × Nat) : Bool := paths.any (fun p => (discardsAt s p.consumer q.1).contains q.2)
      let s2 := (all.filter (fun q => !told q)).foldl (fun x q => abortRecord x 0x0902 (site q) q.1 q.2 0 0) s1
      let s3 := emptyLink s2 producer 0x0902 all
      { s3 with fabric := { s3.fabric with links := amErase s3.fabric.links producer } }

/-- A flushed skew queue: both pointers at 0, nothing held, DIRECT; a read that is outstanding returns to nobody (R171, R187). -/
def flushedQueue (q : SkewQueue) : SkewQueue :=
  { tailFrame := q.tailFrame, lastRead := q.lastRead, voidRead := q.voidRead || q.reading.isSome }

/-- A steering unit's queues whose descriptors differ and that hold beats are flushed (R191). -/
def cutSteering (s : State) (h k : Nat) (u : Site) : State :=
  let t := steerOf s u
  let field (hoist i : Nat) : Dword := lget (hoistWords s hoist u) i 0
  let frames := dedup ((skewDescs s u).flatMap (fun d =>
    if field h (11 + d.idx) = field k (11 + d.idx) then [] else (queueHolds t d).map (fun f => (d.stream, f))))
  let s1 := frames.foldl (fun x q => steerDrop (abortRecord x 0x0650 u q.1 q.2 0 0) u q.1 q.2 0x0650) s
  let flushed := (skewDescs s u).filter (fun d =>
    decide (field h (11 + d.idx) ≠ field k (11 + d.idx)) && (!(skewOf t d.idx).beats.isEmpty || decide (0 < subCount s u (skewOf t d.idx))))
  setSteer s1 u (flushed.foldl (fun x d => setSkew x d.idx (flushedQueue (skewOf x d.idx))) (steerOf s1 u))

/-- A queue's entry matches in two banks: used bit, mode, size, base and program (R228). -/
def queueKept (s : State) (h k q : Nat) : Bool :=
  let w (hoist i : Nat) : Dword := lget (hoistWords s hoist (queueSite q)) i 0
  dbits (w h 1) 16 0 == dbits (w k 1) 16 0 && dbits (w h 3) 11 0 == dbits (w k 3) 11 0

/-- Queues whose entries change, and that are not waiting since an earlier cut: one with a read on its way waits for it, any other is flushed (R228). -/
def leaveQueues (s : State) (h k : Nat) : State :=
  (allQueues.filter (fun q => (amGet s.feed.queues q).isSome && !queueKept s h k q && (queueOf s q).leaving.isNone)).foldl
    (fun x q => if readsBack x q then cutQueue x q else setQueue x q { queueOf x q with leaving := some (queueMode x q) }) s

/-- An element holds something of a frame. -/
def unitHoldsFrames (s : State) (u : Site) : Bool :=
  match siteKind u with
  | 0 | 1 | 2 => tileHolds s u
  | 3 => !(steerFrames s u).isEmpty || !(bufferedFrames s u).isEmpty
  | 8 => (List.range 4).any (fun j => !(txFrames s (siteSub u) j).isEmpty || !(rxFrames s (siteSub u) j).isEmpty)
  | _ => !(bufferedFrames s u).isEmpty || (List.range (portCount (siteKind u))).any (fun p => !(outQ s ⟨u, p⟩).isEmpty)

/-- Frames pass elements again in the next section: what an element that holds none has noted of their tack lines is forgotten. -/
def forgetSection (s : State) : State :=
  let keep (p : (EndPoint × Nat)) : Bool := unitHoldsFrames s p.1.site
  { s with fabric := { s.fabric with
      lastTack := s.fabric.lastTack.filter (fun p => keep p.1)
      headTack := s.fabric.headTack.filter (fun p => keep p.1)
      headInfo := s.fabric.headInfo.filter (fun p => keep p.1)
      outTack := s.fabric.outTack.filter (fun p => keep p.1)
      discarding := s.fabric.discarding.filter (fun p => keep p.1)
      openSent := s.fabric.openSent.filter (fun p => keep p.1)
      voidSent := s.fabric.voidSent.filter (fun p => keep p.1) } }

/-- The check of R260 and the handling of links, queues and sub-ports that change, before the elements take up the target. -/
def sectionCut (s : State) (h k : Nat) : State :=
  let changed := changedUnits s h k
  let s1 := (changed.filter (fun u => siteKind u ≤ 2 || siteKind u = 4)).foldl cutElement s
  let s2 := (changed.filter (fun u => siteKind u = 3)).foldl (fun x u => cutSteering x h k u) s1
  let s3 := leaveQueues s2 h k
  let same (p j : Nat) (out : Bool) : Bool :=
    let i := if out then 4 + j else j
    lget (hoistWords s h (spanSite p)) i 0 == lget (hoistWords s k (spanSite p)) i 0
  let s4 := (List.range Config.spanPorts).foldl (fun x p => spanCut x p (same p)) s3
  (amKeys s4.fabric.links).foldl (fun x p => cutLink x h k p) s4

/-- Queues of the target's bank that the cut has flushed. One that waits for its reads is started when they are back. -/
def sectionQueues (s : State) (h k : Nat) : State :=
  (allQueues.filter (fun q => (queueUsed s q || (amGet s.feed.queues q).isSome) && !queueKept s h k q && (queueOf s q).leaving.isNone)).foldl
    (fun x q => activateQueue x q (keepOwed (queueOf x q) (clearQueue (queueOf x q)))) s

/-- Output queues whose port leads nowhere in the target. -/
def dropStrayOuts (s : State) : State :=
  (amKeys s.fabric.outQs).foldl (fun x e => if (linkPaths x e).isEmpty then setOutQ x e [] else x) s

/-! ### A switch lands (R69, R71, R74, R256, R258, R322) -/

/-- Units held, and boxes silent, only because a word of theirs was damaged in a hoist that is active no more. -/
def releaseHeldUnits (s : State) (h : Nat) : State :=
  let bad := (hoistOf s h).damaged.map (fun d => siteElem d.1)
  let s1 := { s with fabric := { s.fabric with held := s.fabric.held.filter (fun u => !bad.contains u) } }
  contentionMended (mendBoxes s1 (fun _ => true))

/-- The states of the hoists as a switch to `target` lands. -/
def switchStates (s : State) (target : Nat) (auto : Bool) : State :=
  let s1 := (List.range 4).foldl (fun x h =>
    if h = target then x
    else match (hoistOf x h).state with
      | .active =>
        if (hoistOf x h).damaged.isEmpty then moveHoist x h .loaded
        else moveHoist (setHoist x h { hoistOf x h with prior := if auto then .mirror else .loaded }) h .reloading
      | .mirror => moveHoist x h .loaded
      | _ => x) s
  let s2 := moveHoist s1 target .active
  { s2 with hal := { s2.hal with active := some target } }

/-- Streams that the image of the active hoist does not serve fall back to courier. -/
def unservedStreams (s : State) : State :=
  (List.range Config.streams).foldl (fun x st =>
    let c := streamOf x st
    if (c.state = .infer ∨ c.state = .dip) ∧ !servesStream x st then moveStream x st .courier else x) s

/-- Section 0 begins a new activation: each stream's batch counts anew. -/
def newBatch (s : State) : State := { s with streams := s.streams.map (fun c => { c with batchCount := 0 }) }

/-- A switch to the MIRROR hoist whose words are those of the active one changes nothing in any element. -/
def sameWords (s : State) (target : Nat) : Bool :=
  (hoistOf s target).state == .mirror && s.hal.active.any (fun a => (changedUnits s a target).isEmpty)

/-- What a switch from the active hoist does to the elements before they take up the target: slots unbound, or the units that change cut. -/
def switchLeaves (s : State) (target : Nat) (boundary : Bool) : State :=
  if boundary then unbindTiles s 0x0220
  else match s.hal.active with
    | some a => if sameWords s target then s else sectionCut s a target
    | none => s

/-- What it does to them under the target: the flush with the frames `gone` aborted, or the queues that change started. -/
def switchEnters (s : State) (before : Option Nat) (same boundary : Bool) (target : Nat) (gone : List (Nat × Nat)) : State :=
  let s1 :=
    if boundary then boundaryFlush s 0x0220 gone
    else if same then s
    else match before with
      | some a => dropStrayOuts (forgetSection (sectionQueues s a target))
      | none => s
  if (boundary || !same) && (hoistOf s1 target).section_ == 0 then newBatch s1 else s1

/-- A switch to `target` lands now: boundary or cut, host or automatic. While the part stands still the hoists change at T, and what the elements hold
when they move again (R75, R422). -/
def landSwitch (s : State) (target : Nat) (boundary auto : Bool) : State :=
  let same := sameWords s target
  let still := haltedNow s
  let gone := if boundary then cutFrames s else []
  let s1 := if still then { s with hal := { s.hal with late := s.hal.late ++ [⟨s.hal.hoists, s.hal.active, target, boundary⟩] } }
    else switchLeaves s target boundary
  let s2 := switchStates s1 target auto
  let s3 := match s.hal.active with | some a => releaseHeldUnits s2 a | none => s2
  let d := target + b2n boundary * 2 ^ 8 + b2n auto * 2 ^ 9
  let s4 := postDev (traceNow s3 0x0020 noSite none noFrame d 0 0) 0x15 0x0010 noSite s3.now d
  let s5 := if still then s4 else switchEnters s4 s.hal.active same boundary target gone
  syncAllHolds (unservedStreams s5)

/-- The four hoists of a state as another has them. -/
def withHoists (s : State) (hoists : List Hoist) (active : Option Nat) : State :=
  { s with hal := { s.hal with hoists := (List.range 4).map (fun i => lget hoists i {}), active := active } }

/-- What switches that landed in a halt do to the elements, as these move again: each between the hoists that stood before it and those that stood
after it (R422). -/
def lateSwitches (s : State) : List LateSwitch → State
  | [] => s
  | w :: rest =>
    let after := match rest with | x :: _ => (x.hoists, x.active) | [] => (s.hal.hoists, s.hal.active)
    let s0 := withHoists s w.hoists w.active
    let same := sameWords s0 w.target
    let gone := if w.boundary then cutFrames s0 else []
    let s1 := switchEnters (withHoists (switchLeaves s0 w.target w.boundary) after.1 after.2) w.active same w.boundary w.target gone
    lateSwitches (withHoists s1 s.hal.hoists s.hal.active) rest

/-- The host switch lands at T, unless its target has left ARMED and MIRROR (R75, R78). -/
def execHoistSwitchLands (s : State) : Host.Outcome State Fault Refusal :=
  match s.hal.hostSwitch with
  | none => done s
  | some w =>
    if !landsNext s w.time 1 then done s else
    let s1 := advance s w.time
    let s2 := { s1 with hal := { s1.hal with hostSwitch := none } }
    let x := (hoistOf s1 w.target).state
    if x = .armed ∨ x = .mirror then
      done (finishFirst (landSwitch s2 w.target w.boundary false) (fun k => k == .hoistSwitch) stOK 0 w.time)
    else done (finishFirst s2 (fun k => k == .hoistSwitch) stAborted 0 w.time)

/-! ### Configuration upsets (R76 to R78, R512) -/

/-- What waits to be recorded: damaged elements with the code that their recovery gives them, and records that have waited behind them; in the order of
their times (R373). -/
def waitingRecords (a : AutoSwitch) : List (Fc × Sum Site LogRecord) :=
  sortBy Prod.fst (a.records.map (fun r => (r.2, Sum.inl r.1)) ++ a.behind.map (fun r => (r.time, Sum.inr r)))

/-- The records of damaged elements, once their recovery is known, and those that waited behind them. -/
def tellRecovery (s : State) (code : Nat) (a : AutoSwitch) : State :=
  (waitingRecords a).foldl (fun x r => match r.2 with
    | .inl u => faultAt x code 0 u none noFrame 0 0 r.1
    | .inr l => fireSource x 0x10 (some l)) { s with hal := { s.hal with autoSwitch := none } }

/-- No automatic switch is made after all: the elements are rewritten in place. -/
def cancelAuto (s : State) : State :=
  match s.hal.autoSwitch with
  | some a => tellRecovery s 0x0232 a
  | none => s

/-- An element of another hoist is damaged. -/
def idleDamage (s : State) (h : Nat) (u : Site) (i : Nat) : State :=
  let s1 := fault (damageWord s h u i) 0x0235 0 u 0 0
  let x := hoistOf s1 h
  if x.state = .loaded ∨ x.state = .armed ∨ x.state = .mirror then
    let s2 := moveHoist (setHoist s1 h { x with prior := x.state }) h .reloading
    if x.state = .mirror then cancelAuto s2 else s2
  else s1

/-- The unit stands in a sector that sleeps: its clocks stand, and its scrubbers with them (R391). -/
def asleep (s : State) (u : Site) : Bool := (siteKind u ≤ 5 || siteKind u == 10) && (sectorOf s (siteSector u)).state == .sleep

def execConfigScrub (site : Site) (hoist dword : Nat) (found : Ecc) (s : State) : Host.Outcome State Fault Refusal :=
  if 4 ≤ hoist ∨ !sitePresent site ∨ asleep s site then done s
  else match found with
    | .good => done s
    | .single => done (fault s 0x0230 0 site 0 0)
    | .uncorrectable => if s.hal.active = some hoist then done (activeDamage s hoist site dword) else done (idleDamage s hoist site dword)

/-- The cut to the mirror 256 fc after detection. A host switch pending to the same hoist completes with it (R78). -/
def execAutoMirrorSwitch (s : State) : Host.Outcome State Fault Refusal :=
  match s.hal.autoSwitch with
  | none => done s
  | some a =>
    if !landsNext s a.time 0 then done s else
    let s1 := advance s a.time
    let s2 := tellRecovery s1 0x0231 a
    let joined := s.hal.hostSwitch.any (fun w => w.target == a.mirror)
    let s3 := landSwitch s2 a.mirror false true
    if joined then
      done (finishFirst { s3 with hal := { s3.hal with hostSwitch := none } } (fun k => k == .hoistSwitch) stOK 0 a.time)
    else done s3

/-- An element of the active hoist whose words are sound again: it goes on (R76). -/
def elementMended (s : State) (u : Site) : State :=
  contentionMended (mendBoxes { s with fabric := { s.fabric with held := s.fabric.held.filter (fun v => decide (v ≠ u)) } } (fun b => b == u))

/-- A unit that has become LOST acts as a DISABLED one, and the frames in progress in it end (R111, R405; DEDUCED, notes/assumptions/13.md). -/
def unitStops (s : State) (u : Site) : State :=
  match siteKind u with
  | 3 => steerAbortAll s u 0x0630
  | 5 => portAbortAll s u 0x0730
  | _ => tilesAbortAll s u 0x0310 0x0530

/-- An element's words rewritten: from a copy that can be read, to words that pass their check, or the element is lost (R77). -/
def execConfigRewriteDone (site : Site) (hoist : Nat) (readable rechecked : Bool) (s : State) : Host.Outcome State Fault Refusal :=
  let x := hoistOf s hoist
  if 4 ≤ hoist ∨ !(x.damaged.any (fun d => d.1 == site)) then done s
  else if readable && rechecked then
    let left := x.damaged.filter (fun d => decide (d.1 ≠ site))
    let s1 := setHoist s hoist { x with damaged := left }
    let s2 := if s.hal.active = some hoist ∧ !(left.any (fun d => siteElem d.1 == siteElem site)) then elementMended s1 (siteElem site) else s1
    if x.state = .reloading ∧ left.isEmpty then done (moveHoist s2 hoist x.prior) else done s2
  else
    let u := siteElem site
    let s0 := { s with fabric := { s.fabric with held := s.fabric.held.filter (fun v => decide (v ≠ u)) } }
    let s1 := loseUnit s0 0x0233 site 0 0
    done (if unitLost s u then s1 else unitStops s1 u)

end Sys2Proof.Machine
end

