-- ==== Sys2Proof/Machine/Disable.lean ====
section
/-! DEFINITION. Taking a unit out of service and back (spec/15_availability.md R419, R420, spec/03_matrix_tile.md R111, R112,
spec/05_vector_window_glue.md R163, R164, spec/06_tokens_steering.md R192, spec/07_memory_feed.md R230). -/

namespace Sys2Proof.Machine

/-- Sites that UNIT_DISABLE and UNIT_ENABLE accept: kinds 0 to 4 with sub 0, and kind 5 with sub 0x00FF. -/
def disableSite (u : Site) : Bool :=
  (decide (siteKind u ≤ 4) && siteSub u == 0) || (siteKind u == 5 && siteSub u == 0xFF)

/-- Steps 1 to 3 of R419: the status of the first check that fails. -/
def disableCheck (p : Packet) (masks : List (Nat × Dword)) : Option Nat :=
  let u := pktDw p 2
  if siteAbsent u then some stNotPresent
  else if siteKind u = 11 then some stDenied
  else if !disableSite u || !sitePresent (siteElem u) || !pktOnly p masks then some stBadParam
  else none

/-- The drain timeout of UNIT_DISABLE in µs: 0 is taken as 10,000. -/
def drainMicros (p : Packet) : Nat := if (pktDw p 3).toNat = 0 then 10000 else (pktDw p 3).toNat

/-- A unit starts to drain now. -/
def startDrain (s : State) (u : Site) (limit : Fc) : State :=
  let s1 := if siteKind u = 4 then setGlue s u { glueOf s u with drained := [] } else s
  moveUnit s1 u { state := .draining, drainFrom := s.now, drainLimit := limit }

/-- The unit's own proof is under way, or waits. -/
def proofAt (s : State) (u : Site) : Bool := siteElem s.hal.proof.site == u && s.hal.proof.state != .none

/-- UNIT_DISABLE cancels a proof wait; a SELF_TEST op 0 that it served is armed again later (notes/assumptions/13.md). -/
def cancelWait (s : State) (u : Site) : State :=
  let p := s.hal.proof
  if proofAt s u && p.state == .wait then
    let s1 := { s with hal := { s.hal with proof := { p with state := .none, lastEnd := s.now, serving := false } } }
    if p.serving then s1 else roundOver s1 s.now
  else s

def unitDisable (s : State) (p : Packet) : Verdict :=
  match disableCheck p [(2, 0xFFFFFFFF), (3, 0xFFFFFFFF)] with
  | some st => refuse s st
  | none =>
    let u := siteElem (pktDw p 2)
    let limit := drainMicros p * Config.us
    if 1000000 < (pktDw p 3).toNat then refuse s stBadParam
    else match unitState s u with
      | .lost => refuse s stDenied
      | .disabled => okAt s
      | .draining => refuse s stBusy
      | .enabled =>
        if (ctlOf s u).disableAfterProof then refuse s stBusy
        else if proofAt s u && s.hal.proof.state != .wait then
          .pend (.unitDisable u) (setCtl s u { ctlOf s u with disableAfterProof := true, drainLimit := limit })
        else .pend (.unitDisable u) (startDrain (cancelWait s u) u limit)

def execUnitDisable (c : HostCmd) (s : State) : Host.Outcome State Fault Refusal := takeCmd s c 0x32 0 unitDisable

/-- The empty state in which a unit comes back (R111). R163 names no state of a vector tile's scratch there: its working region keeps what it held
(DESIGN CHOICE, notes/assumptions/79.md). -/
def emptyUnit (s : State) (u : Site) : State :=
  match siteKind u with
  | 0 => setTile s u { emptyTile (tileOf s u) with lastSlot := 3 }
  | 1 => setVtile s u { vtileOf s u with slots := List.replicate 4 none, board := [], lastSlot := 3 }
  | 2 => setWtile s u { wtileOf s u with slots := List.replicate 4 none, tails := [], lastSlot := 3 }
  | 3 => setSteer s u { ctl := (steerOf s u).ctl, frames := (steerOf s u).frames, idleSince := s.now }
  | 4 => setGlue s u { glueOf s u with flops := initFlops s u, drained := [], reported := [] }
  | 5 => (portQueues s (sitePort u)).foldl (fun x q => setQueue x q (keepOwed (queueOf x q) (clearQueue (queueOf x q)))) s
  | _ => s

/-- UNIT_ENABLE of a unit that passes the checks. -/
def enableUnit (s : State) (u : Site) : Verdict :=
  match unitState s u with
  | .lost => refuse s stDenied
  | .disabled => okAt (moveUnit (emptyUnit s u) u {})
  | .draining => okAt (finishFirst (moveUnit s u {}) (fun k => k == .unitDisable u) stAborted 0 s.now)
  | .enabled =>
    if (ctlOf s u).disableAfterProof then okAt (finishFirst (setCtl s u {}) (fun k => k == .unitDisable u) stAborted 0 s.now)
    else okAt s

def unitEnable (s : State) (p : Packet) : Verdict :=
  match disableCheck p [(2, 0xFFFFFFFF)] with
  | some st => refuse s st
  | none => enableUnit s (siteElem (pktDw p 2))

def execUnitEnable (c : HostCmd) (s : State) : Host.Outcome State Fault Refusal := takeCmd s c 0x33 0 unitEnable

/-! ### The end of a drain (R111, R112, R163, R192, R230) -/

/-- Nothing of a frame in progress is left in the unit, and no rewrite of its words runs. -/
def unitDrained (s : State) (u : Site) : Bool :=
  match siteKind u with
  | 0 => (tileFrames s u).isEmpty && (tileOf s u).rewriting.isEmpty
  | 1 => (tileFrames s u).isEmpty && (vtileOf s u).rewriting.isEmpty
  | 2 => (tileFrames s u).isEmpty
  | 3 => steerEmpty s u
  | 5 => portDrained s u
  | _ => false

def execUnitDrainDone (site : Site) (s : State) : Host.Outcome State Fault Refusal :=
  let u := siteElem site
  if unitState s u ≠ .draining ∨ !unitDrained s u then done s
  else done (finishFirst (moveUnit (tailsOff s u) u { state := .disabled }) (fun k => k == .unitDisable u) stOK 0 s.now)

/-- Frames in progress in a unit. -/
def unitFrames (s : State) (u : Site) : List (Nat × Nat) :=
  match siteKind u with
  | 3 => steerFrames s u
  | 5 => portFrames s (sitePort u)
  | _ => dedup (tileFrames s u)

/-- Every frame in progress aborted with the drain timeout's code of the unit's kind. -/
def drainAbort (s : State) (u : Site) : State :=
  match siteKind u with
  | 3 => steerAbortAll s u 0x0632
  | 5 => portAbortAll s u 0x0732
  | _ => tilesAbortAll s u 0x0312 0x0532

/-- The drain timeout stands still while the part is halted or the unit is in proof (R111, R420). -/
def execUnitDrainTimeout (site : Site) (s : State) : Host.Outcome State Fault Refusal :=
  let u := siteElem site
  let c := ctlOf s u
  let t := c.drainFrom + c.drainLimit
  if c.state ≠ .draining ∨ 4 = siteKind u ∨ haltedNow s ∨ inProof s u ∨ unitDrained s u ∨ !reaches s t then done s
  else
    let s1 := advance s t
    let n := (unitFrames s1 u).length
    done (finishFirst (moveUnit (drainAbort s1 u) u { state := .disabled }) (fun k => k == .unitDisable u) stTimeout (dw n) s1.now)

end Sys2Proof.Machine
end

