-- ==== Sys2Proof/Machine/Proof.lean ====
section
/-! DEFINITION. The rolling proof, SELF_TEST and the full-array window (spec/15_availability.md R409 to R418, R424, R432). -/

namespace Sys2Proof.Machine

/-! ### Idle units (R411) -/

def inputsEmpty (s : State) (u : Site) : Bool := (List.range (portCount (siteKind u))).all (fun p => (inBuf s ⟨u, p⟩).isEmpty)

/-- No read or write in flight, no grant and no held FETCH; queue contents may remain. What is on its way out of the port has left it. -/
def portIdle (s : State) (u : Site) : Bool :=
  (portQueues s (sitePort u)).all (fun q =>
    let x := queueOf s q
    x.grants.isEmpty && x.entries.all (·.filled) && (outQ s (queueEnd q)).isEmpty
      && !s.feed.channels.any (fun c => c.inFlight.any (fun r => r.1 == q) || c.requests.any (fun r => r.queue == q)))

/-- A unit that waits for a forced proof is idle when its bound frames have finished, whatever waits at its inputs (R417). -/
def unitIdle (s : State) (u : Site) : Bool :=
  match siteKind u with
  | 0 => (tileFrames s u).isEmpty && (tileOf s u).board.isEmpty && (inputsEmpty s u || bindStopped s u)
  | 1 => (tileFrames s u).isEmpty && (vtileOf s u).board.isEmpty && (inputsEmpty s u || bindStopped s u)
  | 2 => (tileFrames s u).isEmpty && (inputsEmpty s u || bindStopped s u)
  | 3 => steerEmpty s u
  | 5 => portIdle s u
  | _ => true

/-! ### The states of a proof (R410) -/

def setProof (s : State) (p : Proof) : State := { s with hal := { s.hal with proof := p } }

/-- No proof is armed in a halt, in the full-array window, or while a sector is leaving SLEEP. -/
def mayArm (s : State) : Bool :=
  s.hal.proof.state == .none && !haltedNow s && !windowRunning s.hal.window && !s.hal.stopped
    && s.power.sectors.all (fun k => !(k.state == .waking && k.fromSleep))

/-- A unit is armed: a switch box, an idle tile or steering unit and a DISABLED unit go to PROOF at once, any other unit waits. -/
def armUnit (s : State) (u : Site) (serving : Bool) : State :=
  let now := siteKind u == 10 || unitState s u == .disabled || (siteKind u ≤ 3 && unitIdle s u)
  let p := s.hal.proof
  setProof s { p with state := if now then .proof else .wait, site := unitName u, repeated := false, armedAt := s.now, serving := serving,
                      roundAt := if serving then p.roundAt else u }

/-- The next unit of the round, and whether a round ends because no unit is left beyond the last one visited. -/
def nextProof (s : State) : Option (Site × Bool) :=
  let l := proofUnits s
  match l.find? (fun u => decide (s.hal.proof.roundAt.toNat < u.toNat)) with
  | some u => some (u, false)
  | none => l.head?.map (fun u => (u, s.hal.proof.roundAt != noSite))

/-- The spacing of successive proofs. -/
def spacingEnd (s : State) : Fc := s.hal.proof.lastEnd + max 1 s.hal.proof.spacingUs * Config.us

/-- A SELF_TEST op 0 goes ahead of the round, whatever the value of enable; a unit that is DRAINING is armed once it has drained. -/
def execProofArm (s : State) : Host.Outcome State Fault Refusal :=
  if !mayArm s || !reaches s (spacingEnd s) then done s
  else match s.hal.proof.forced with
    | some (u, _) =>
      if unitState s u = .draining ∨ (sectorOf s (siteSector u)).state ≠ .active then done s
      else done (armUnit (advance s (spacingEnd s)) u true)
    | none =>
      if !s.hal.proof.enable then done s
      else match nextProof s with
        | some (u, wraps) =>
          let s1 := if wraps then roundOver s s.hal.proof.lastEnd else s
          done (armUnit (advance s1 (spacingEnd s)) u false)
        | none => done s

/-- The site names the unit of the proof. -/
def proofNames (s : State) (site : Site) : Bool := siteElem s.hal.proof.site == siteElem site

def execProofUnitIdle (site : Site) (s : State) : Host.Outcome State Fault Refusal :=
  let p := s.hal.proof
  if p.state ≠ .wait ∨ !proofNames s site ∨ !unitIdle s (siteElem site) then done s
  else done (setProof s { p with state := .proof, armedAt := s.now })

/-- The wait of a tile or steering unit is over without the unit having become idle; a forced proof waits on. -/
def execProofMaxWaitExpiry (site : Site) (s : State) : Host.Outcome State Fault Refusal :=
  let p := s.hal.proof
  let t := p.armedAt + max 1 p.maxWaitMs * (1000 * Config.us)
  if p.state ≠ .wait ∨ !proofNames s site ∨ 3 < siteKind site ∨ bindStopped s site ∨ !reaches s t then done s
  else
    let s1 := advance s t
    let s2 := postDev s1 0x1B 0x0072 (siteElem site) s1.now 0
    done (endProof (setProof (rcNote s2 rcDeferred p.deferred) { p with deferred := sat 0xFFFFFFFF (p.deferred + 1) }) stTimeout 0)

/-- The unit in proof is the last one proven (R432). -/
def provenNow (s : State) : State := setProof s { s.hal.proof with lastSite := s.hal.proof.site }

/-- A BIST run ends (R410). -/
def execBistRunDone (site : Site) (pass : Bool) (s : State) : Host.Outcome State Fault Refusal :=
  let p := s.hal.proof
  if p.state ≠ .proof ∨ !proofNames s site then done s
  else if pass then
    let s1 := if p.repeated then fault s 0x0E01 0 p.site 0 0 else s
    done (setProof s1 { s1.hal.proof with state := .restore })
  else if p.repeated then
    let s1 := fault s 0x0E10 2 p.site 0 0
    let u := siteElem site
    done (liftHolds (moveUnit (tailsOff (provenNow s1) u) u { ctlOf s1 u with state := .lost }))
  else done (setProof s { p with repeated := true })

/-- The unit is back IN_SERVICE: a UNIT_DISABLE that met its proof starts its drain, and a drain's timeout goes on: it stood still during the proof, and
what RESUME adds for a halt is not counted here (R420). -/
def afterProof (s : State) (u : Site) (since : Fc) : State :=
  let c := ctlOf s u
  if c.disableAfterProof then startDrain s u c.drainLimit
  else if c.state = .draining then setCtl s u { c with drainFrom := c.drainFrom + (fabricNow s - since) }
  else s

def execProofRestoreDone (site : Site) (s : State) : Host.Outcome State Fault Refusal :=
  let p := s.hal.proof
  if p.state ≠ .restore ∨ !proofNames s site then done s
  else done (liftHolds (afterProof (endProof (provenNow s) stOK (b2n p.repeated)) (siteElem site) p.armedAt))

/-! ### SELF_TEST (R417) -/

/-- Sites that op 0 accepts. -/
def proveSite (u : Site) : Bool :=
  ((siteKind u ≤ 3 || siteKind u == 10) && siteSub u == 0) || (siteKind u == 5 && siteSub u == 0xFF)

def proveUnit (s : State) (p : Packet) : Verdict :=
  let u := pktDw p 3
  let e := siteElem u
  if dbits (pktDw p 2) 2 0 ≠ 0 then refuse s stBadParam
  else if siteAbsent u then refuse s stNotPresent
  else if !pktOnly p [(2, 0x107), (3, 0xFFFFFFFF)] || !proveSite u || !sitePresent e then refuse s stBadParam
  else if unitLost s e then refuse s stDenied
  else if isPending s (fun k => match k with | .proveUnit _ => true | _ => false) then refuse s stBusy
  else
    let s1 := setProof s { s.hal.proof with forced := some (e, dbit (pktDw p 2) 8) }
    .pend (.proveUnit e) (if unitState s e = .disabled ∧ mayArm s then armUnit s1 e true else s1)

def execSelfTestProveUnit (c : HostCmd) (s : State) : Host.Outcome State Fault Refusal := takeCmd s c 0x30 0 proveUnit

def windowPends (s : State) : Bool := isPending s (fun k => k == .window)

def requestWindow (s : State) (p : Packet) : Verdict :=
  if !pktOnly p [(2, 7)] then refuse s stBadParam
  else if windowPends s then refuse s stBusy
  else .pend .window (postDev { s with hal := { s.hal with window := .requested } } 0x1B 0x0071 noSite s.now 0)

def execSelfTestRequestWindow (c : HostCmd) (s : State) : Host.Outcome State Fault Refusal := takeCmd s c 0x30 1 requestWindow

def windowBusy (w : Window) : Bool := match w with | .scheduled _ => true | .running _ => true | _ => false

def grantWindow (s : State) (p : Packet) : Verdict :=
  let t := pktQ p 4
  if !pktOnly p [(2, 7), (4, 0xFFFFFFFF), (5, 0xFFFFFFFF)] || !windowPends s || !timeOk s t then refuse s stBadParam
  else if s.hal.halt ≠ .running ∨ windowBusy s.hal.window then refuse s stBusy
  else .pend .windowGrant { s with hal := { s.hal with window := .scheduled t } }

def execSelfTestGrantWindow (c : HostCmd) (s : State) : Host.Outcome State Fault Refusal := takeCmd s c 0x30 2 grantWindow

/-- Sites of the units that are LOST, ascending: elements, switch boxes, and LPDDR5 channels. -/
def lostUnits (s : State) : List Site :=
  ([0, 1, 2, 3, 4, 5].flatMap (fun k => ((sitesOfKind k).filter (unitLost s)).map unitName))
    ++ (sitesOfKind 10).filter (unitLost s)
    ++ ((List.range Config.channels).filter (fun c => (channelOf s c).state == .lost)).map channelSite

/-- The 4,096 bytes of op 3. -/
def lostReport (s : State) : List Byte :=
  padTo 4096 (leBytes 4 (lostUnits s).length ++ ((lostUnits s).take 1023).flatMap dwBytes)

def selfTestReport (s : State) (p : Packet) : Verdict :=
  let a := pktQ p 4
  if !pktOnly p [(2, 7), (4, 0xFFFFFFFF), (5, 0xFFFFFFFF)] || a % 64 != 0 then refuse s stBadParam
  else .finish stOK 0 [(a, lostReport s)] s

def execSelfTestReport (c : HostCmd) (s : State) : Host.Outcome State Fault Refusal := takeCmd s c 0x30 3 selfTestReport

/-! ### The full-array window (R418) -/

/-- Beats of a frame in a span port's buffers go. -/
def spanDropFrame (s : State) (code : Nat) (q : Nat × Nat) : State :=
  (List.range Config.spanPorts).foldl (fun x p => (List.range 4).foldl (fun y j =>
    if (txFrames y p j).contains q || (rxFrames y p j).contains q then
      subVoid y p j q.1 q.2 code ((txFrames y p j).contains q) ((rxFrames y p j).contains q)
    else y) x) s

/-- At T every frame with a beat in the fabric is aborted, and streams in INFER are held at the dip. -/
def execFullWindowStart (s : State) : Host.Outcome State Fault Refusal :=
  match s.hal.window with
  | .scheduled t =>
    if !landsNext s t 4 then done s else
    let s1 := advance s t
    let gone := fabricFrames s1
    let s2 := flushFabric (unbindTiles (gone.foldl (fun x q => spanDropFrame x 0x0E20 q) s1) 0x0E20) 0x0E20 gone leaveFabric
    let s3 := postDev { s2 with hal := { s2.hal with window := .running t } } 0x1B 0x0073 noSite t 0
    done (syncAllHolds (finishFirst s3 (fun k => k == .windowGrant) stOK 0 t))
  | _ => done s

/-- The window ends as if a boundary switch to the active hoist landed; units that failed become LOST. -/
def execFullWindowEnd (failed : List Site) (s : State) : Host.Outcome State Fault Refusal :=
  match s.hal.window with
  | .running _ =>
    let units := dedup ((failed.filter (fun u => sitePresent (siteElem u) && decide (siteKind u ≤ 5 ∨ siteKind u = 10) && !unitLost s (siteElem u))).map siteElem)
    let s0 := unbindTiles { s with hal := { s.hal with window := .none } } 0x0220
    let s1 := boundaryFlush s0 0x0220 (cutFrames s)
    let s2 := units.foldl (fun x u =>
      moveUnit (fault x 0x0E11 2 (unitName u) 0 0) u { ctlOf x u with state := .lost }) s1
    let s3 := postDev s2 0x1B 0x0074 noSite s2.now units.length
    done (syncAllHolds (finishFirst s3 (fun k => k == .window) stOK (dw units.length) s3.now))
  | _ => done s

end Sys2Proof.Machine
end

