-- ==== Sys2Proof/Machine/Halt.lean ====
section
/-! DEFINITION. The consistent global stop (spec/15_availability.md R421 to R426): HALT_AT, the halt, RESUME, and the shift of every time that
stood still. -/

namespace Sys2Proof.Machine

def haltAt (s : State) (p : Packet) : Verdict :=
  let t := pktQ p 2
  if !pktOnly p [(2, 0xFFFFFFFF), (3, 0xFFFFFFFF)] || !timeOk s t then refuse s stBadParam
  else if s.hal.halt ≠ .running ∨ windowBusy s.hal.window then refuse s stBusy
  else .pend .haltAt { s with hal := { s.hal with halt := .pending, haltTime := t } }

def execHaltAt (c : HostCmd) (s : State) : Host.Outcome State Fault Refusal := takeCmd s c 0x38 0 haltAt

/-- Fc T: every element stops; each UP span port has a halt echo to send on each used sub-port (R426). -/
def execHaltLands (s : State) : Host.Outcome State Fault Refusal :=
  if s.hal.halt ≠ .pending ∨ !landsNext s s.hal.haltTime 2 then done s
  else
    let t := s.hal.haltTime
    let s1 := advance s t
    let s2 := spanHaltEchoes { s1 with hal := { s1.hal with halt := .halted } }
    let s3 := postDev (traceNow s2 0x0021 noSite none noFrame 0 0 0) 0x19 0x0050 noSite t 0
    done (syncAllHolds (finishFirst s3 (fun k => k == .haltAt) stOK 0 t))

def resume (s : State) (p : Packet) : Verdict :=
  if !pktOnly p [] then refuse s stBadParam
  else match s.hal.halt with
    | .running => refuse s stBadParam
    | .pending => okAt (finishFirst { s with hal := { s.hal with halt := .running } } (fun k => k == .haltAt) stAborted 0 s.now)
    | .halted => okAt { s with hal := { s.hal with halt := .resuming, resumeTime := s.now + 2048 } } 2048
    | .resuming => refuse s stBusy

def execResume (c : HostCmd) (s : State) : Host.Outcome State Fault Refusal := takeCmd s c 0x39 0 resume

/-! ### Times that stood still (R422, R425) -/

/-- How long a wait that began at `since` stood still in a halt from t to tr. -/
def stoodStill (t tr since : Fc) : Fc := tr - max t since

def shiftCtl (t tr : Fc) (c : UnitCtl) : UnitCtl :=
  if c.state = .draining then { c with drainFrom := c.drainFrom + stoodStill t tr c.drainFrom } else c

/-- A time that had not come at the halt in fc t comes d fc later; one that had stays. -/
def later (t d x : Fc) : Fc := if x < t then x else x + d

/-- The outputs and FIFOs that a beat had passed at the halt it has passed; the others it passes that much later. -/
def shiftFlight (t d : Fc) (f : Flight) : Flight :=
  { f with sent := f.sent + d, arrives := f.arrives + d
           hops := f.hops.map (fun h => { h with at_ := later t d h.at_, fifo := h.fifo.map (fun g => (g.1, later t d g.2)) }) }

def shiftLink (t d : Fc) (l : Link) : Link :=
  { l with flights := l.flights.map (shiftFlight t d)
           credits := l.credits.map (fun c => { c with arrives := c.arrives + d })
           lastSend := l.lastSend.map (· + d) }

def shiftFabric (t d : Fc) (f : Fabric) : Fabric :=
  { f with links := amMap f.links (fun _ l => shiftLink t d l)
           deadDwords := f.deadDwords.map (fun x => (x.1, x.2.1, later t d x.2.2))
           outQs := amMap f.outQs (fun _ l => l.map (fun o => { o with notBefore := o.notBefore + d })) }

def shiftBoard (d : Fc) (l : List Issued) : List Issued := l.map (fun e => { e with headSince := e.headSince + d })

def shiftTile (h tr : Fc) (t : MatrixTile) : MatrixTile :=
  let d := tr - h
  { t with ctl := shiftCtl h tr t.ctl, board := shiftBoard d t.board, arrayUntil := t.arrayUntil + 8 * d, sideUntil := t.sideUntil + 8 * d
           nextIssue := t.nextIssue + 8 * d, portFc := amMap t.portFc (fun _ x => x + d)
           writeBuf := t.writeBuf.map (fun w => { w with due := w.due + 8 * d }), reads := amMap t.reads (fun _ x => x + 8 * d)
           sets := amMap t.sets (fun _ a => { a with writtenBack := a.writtenBack + 8 * d, nextFire := a.nextFire + 8 * d }) }

def shiftVtile (h tr : Fc) (t : VectorTile) : VectorTile :=
  let d := tr - h
  { t with ctl := shiftCtl h tr t.ctl, board := shiftBoard d t.board, ready := amMap t.ready (fun _ x => x + 8 * d),
           nextIssue := t.nextIssue + 8 * d, laneUntil := t.laneUntil + 8 * d, tableUntil := t.tableUntil + 8 * d }

def shiftWtile (h tr : Fc) (t : WindowTile) : WindowTile :=
  let d := tr - h
  let late (k : WinSlot) : WinSlot := { k with since := k.since + d }
  { t with ctl := shiftCtl h tr t.ctl, nextOut := t.nextOut + d, slots := t.slots.map (fun o => o.map late), tails := t.tails.map late }

def shiftSteer (h tr : Fc) (t : SteeringUnit) : SteeringUnit :=
  let d := tr - h
  { t with ctl := shiftCtl h tr t.ctl, idleSince := t.idleSince + d, portFc := amMap t.portFc (fun _ x => x + d)
           queues := amMap t.queues (fun _ q => { q with
             runAt := q.runAt + d, lastRead := q.lastRead.map (· + d), dropAt := q.dropAt + d
             beats := q.beats.map (fun b => { b with entered := b.entered + d }) })
           pennants := t.pennants.map (fun p => { p with arrived := p.arrived + d })
           runs := t.runs.map (fun r => { r with pairedAt := r.pairedAt + d }) }

/-- Reads in flight return during the halt (R229). -/
def shiftQueue (d : Fc) (x : MemQueue) : MemQueue :=
  { x with regulatorAt := x.regulatorAt + d, dropAt := x.dropAt + d, missAt := x.missAt.map (· + d)
           grants := x.grants.map (fun g => { g with due := g.due + d })
           fetchOffers := x.fetchOffers.map (fun g => { g with due := g.due + d }) }

def shiftFeed (h tr : Fc) (f : Feed) : Feed :=
  let d := tr - h
  { f with ports := amMap f.ports (fun _ c => shiftCtl h tr c), queues := amMap f.queues (fun _ x => shiftQueue d x)
           portNext := amMap f.portNext (fun _ x => x + d)
           edges := f.edges.map (fun e => (e.1, e.2.1, e.2.2.1, e.2.2.2 + d)) }

/-- The fc in which a stream's close began. -/
def closeBegan (s : State) (st : Nat) : Fc :=
  match (pendsOf s (isStreamClose st)).head? with
  | some c => c.takenAt
  | none => 0

def shiftStream (h tr since : Fc) (c : StreamCtx) : StreamCtx :=
  { c with closeHow := c.closeHow.map (fun x => if x.1 then x else (x.1, x.2 + stoodStill h tr since)) }

/-- A proof that spans the halt: the fc of the halt are counted by the halt (R420). -/
def shiftProof (h tr : Fc) (p : Proof) : Proof :=
  if p.state = .proof ∨ p.state = .restore then { p with armedAt := p.armedAt + stoodStill h tr p.armedAt } else p

def shiftSpan (h tr : Fc) (x : SpanPort) : SpanPort :=
  if x.state = .closing then { x with closingAt := x.closingAt + stoodStill h tr x.closingAt } else x

/-- Everything that was stopped from fc h to fc tr goes on that much later than it would have. -/
def shiftTimes (h tr : Fc) (s : State) : State :=
  { s with
    fabric := shiftFabric h (tr - h) s.fabric
    tiles := amMap s.tiles (fun _ t => shiftTile h tr t)
    vtiles := amMap s.vtiles (fun _ t => shiftVtile h tr t)
    wtiles := amMap s.wtiles (fun _ t => shiftWtile h tr t)
    glue := amMap s.glue (fun _ g => { g with ctl := shiftCtl h tr g.ctl, nextFc := g.nextFc + (tr - h) })
    steer := amMap s.steer (fun _ t => shiftSteer h tr t)
    feed := shiftFeed h tr s.feed
    hal := { s.hal with proof := shiftProof h tr s.hal.proof }
    streams := s.streams.zipIdx.map (fun q => shiftStream h tr (closeBegan s q.2) q.1)
    span := s.span.map (shiftSpan h tr) }

/-- The memory feed when beats move again: channels that served meanwhile take the writes that wait for them, and queues whose reads came back since a cut
switch are flushed (R228, R229). -/
def feedResumes (s : State) : State :=
  let s1 := ((List.range Config.channels).filter (fun c => (channelOf s c).state != .retraining)).foldl channelServes s
  (amKeys s1.feed.queues).foldl settleCut s1

/-- Fc Tr: everything continues from the cut; deadlines that passed take effect (R324, R425). -/
def execResumeLands (s : State) : Host.Outcome State Fault Refusal :=
  if s.hal.halt ≠ .resuming ∨ !landsNext s s.hal.resumeTime 2 then done s
  else
    let tr := s.hal.resumeTime
    let s1 := shiftTimes s.hal.haltTime tr (advance s tr)
    let sR := { s1 with hal := { s1.hal with halt := .running, late := [] }
                        span := s1.span.map (fun x => { x with echoes := [] }) }
    let s2 := feedResumes (lateSwitches sR s1.hal.late)
    let s3 := postDev (traceNow s2 0x0022 noSite none noFrame 0 0 0) 0x19 0x0051 noSite tr 0
    let s4 := if s3.snap.capturing then
        finishFirst { s3 with snap := { s3.snap with capturing := false } } (fun k => k == .snapshotCapture) stAborted 0 tr else s3
    done (syncAllHolds (deadlinesAtResume s4))

end Sys2Proof.Machine
end

