-- ==== Sys2Proof/Machine/Security.lean ====
section
/-! DEFINITION. Firmware update, the life cycle, wipes and attestation (spec/17_security_lifecycle.md R457 to R474, spec/15_availability.md R429, R430). -/

namespace Sys2Proof.Machine

/-! ### Signature blocks (R289, R458) -/

def sigMagic : Nat := 0x47534259
def sigSize : Nat := 4736

def zeroBytes (l : List Byte) : Bool := l.all (fun b => b = 0)

/-- The first check that a signed body fails, of the codes 0x8F02 to 0x8F05; key_id and digest are those of its block. -/
def sigFails (bytes : List Byte) (bodySize : Nat) (accepted : BitVec 128 → Bool) : Option Nat :=
  let b := bytes.drop bodySize
  let key := BitVec.ofNat 128 (leAt b 8 16)
  let digest := BitVec.ofNat 512 (leAt b 24 64)
  if leAt b 0 4 ≠ sigMagic ∨ leAt b 4 4 ≠ sigSize ∨ !zeroBytes ((b.drop 4715).take 21) then some 0x8F02
  else if !accepted key then some 0x8F03
  else if digest ≠ sha3512 (bytes.take bodySize) then some 0x8F04
  else if !Config.mlDsaVerify key digest ((b.drop 88).take 4627) then some 0x8F05
  else none

def sigKey (bytes : List Byte) (bodySize : Nat) : BitVec 128 := BitVec.ofNat 128 (leAt bytes (bodySize + 8) 16)
def sigDigest (bytes : List Byte) (bodySize : Nat) : BitVec 512 := BitVec.ofNat 512 (leAt bytes (bodySize + 24) 64)

/-- A signature block by the identity key over a body. -/
def signBody (key : BitVec 128) (body : List Byte) : List Byte :=
  let d := sha3512 body
  leBytes 4 sigMagic ++ leBytes 4 sigSize ++ leBytes 16 key.toNat ++ leBytes 64 d.toNat ++ padTo 4627 (Config.mlDsaSign key d) ++ List.replicate 21 0

/-! ### FW_STAGE (R457, R458, R469) -/

/-- A package as read: the header fields, or the status and code of the first check that fails. -/
def readPackage (c : Sec) (bytes : List Byte) (len : Nat) : Except (Nat × Nat) FwPkg :=
  let kind := leAt bytes 4 1
  let body := leAt bytes 0x10 8
  let limit := if kind = 0 then 2 ^ 20 else 8 * 2 ^ 20
  if leAt bytes 0 4 ≠ 0x57465957 ∨ !zeroBytes ((bytes.drop 5).take 3) ∨ !zeroBytes ((bytes.drop 0x18).take 40)
      ∨ body % 64 ≠ 0 ∨ limit < body ∨ len ≠ body + sigSize then .error (stBadParam, 0x8F01)
  else
    match sigFails bytes body (fwKeyGood c) with
    | some code => .error (stSignatureFail, code)
    | none =>
      let sv := leAt bytes 0x0C 2
      let steps := BitVec.ofNat 16 (leAt bytes 0x0E 2)
      if sv < c.floor then .error (stSignatureFail, 0x8F06)
      else if kind ≠ 1 ∨ !steps.getLsbD Config.stepping then .error (stBadParam, 0x8F07)
      else .ok ⟨kind, dw (leAt bytes 8 4), sv, steps, sigKey bytes body, sigDigest bytes body, true⟩

def setUncommitted (c : Sec) (p : Option FwPkg) : Sec := if c.committedB then { c with slotA := p } else { c with slotB := p }

/-- Read and verify at take; the slot is invalid while it is being written. -/
def execFwStage (c : HostCmd) (package : HostData) (s : State) : Host.Outcome State Fault Refusal :=
  takeCmd s c 0x50 0 fun s p =>
    let addr := pktQ p 2
    let len := (pktDw p 4).toNat
    if !pktOnly p [(2, 0xFFFFFFFF), (3, 0xFFFFFFFF), (4, 0xFFFFFFFF)] ∨ addr % 64 ≠ 0 then refuse s stBadParam
    else if s.sec.swap.isSome then refuse s stBusy
    else match hostRead s package with
      | none => hostAccessFailed s c len (fun o => addr + o)
      | some bytes =>
        match readPackage s.sec (bytes.take len) len with
        | .error e => refuse s e.1 e.2
        | .ok pkg =>
          .pend .fwStage { s with sec := { setUncommitted s.sec (some { pkg with intact := false }) with staging := s.sec.staging ++ [pkg] } }

def execFwStageDone (s : State) : Host.Outcome State Fault Refusal :=
  match s.sec.staging with
  | pkg :: rest =>
    let c := { setUncommitted s.sec (some pkg) with staging := rest, staged := some pkg }
    let s1 := postDev { s with sec := c } 0x1A 0x0060 (mgmtSite 3) s.now pkg.version.toNat
    done (finishFirst s1 (fun k => k == .fwStage) stOK pkg.version s.now)
  | [] => done s

/-! ### FW_SWITCH (R429, R430, R470) -/

def execFwSwitch (c : HostCmd) (s : State) : Host.Outcome State Fault Refusal :=
  takeCmd s c 0x51 0 fun s p =>
    let t := pktQ p 2
    if !pktOnly p [(2, 0xFFFFFFFF), (3, 0xFFFFFFFF), (4, 1)] ∨ s.sec.staged.isNone ∨ !timeOk s t then refuse s stBadParam
    else if s.sec.swap.isSome then refuse s stBusy
    else .pend .fwSwitch { s with sec := { s.sec with swap := some { time := t, raiseFloor := dbit (pktDw p 4) 0 } } }

/-- At T, MC1 stops and starts the staged image. -/
def execFwSwitchLands (s : State) : Host.Outcome State Fault Refusal :=
  match s.sec.swap with
  | some w =>
    if w.phase ≠ 0 ∨ !landsNext s w.time 3 then done s else
    let s1 := advance s w.time
    done { s1 with sec := { s1.sec with swap := some { w with phase := 1, since := s1.now } }, mgmt := { s1.mgmt with mc1Down := true } }
  | none => done s

/-- The time a core has to signal ready: 100 µs. -/
def readyLimit : Fc := 100 * Config.us

/-- MC0 is ready: the boot record names the new slot, and the floor rises when asked. -/
def commitSwap (s : State) (w : Swap) : State :=
  let v := match s.sec.staged with | some p => p.version | none => 0
  let sv := match s.sec.staged with | some p => p.securityVersion | none => 0
  let c := { s.sec with committedB := !s.sec.committedB, running := s.sec.staged, staged := none, swap := none,
                        floor := if w.raiseFloor then max s.sec.floor sv else s.sec.floor }
  let s1 := finishFirst { s with sec := c, mgmt := { s.mgmt with mc0Down := false } } (fun k => k == .fwSwitch) stOK v s.now
  postDev s1 0x1A 0x0061 (mgmtSite 3) s.now v.toNat

def execFwCoreReady (core : Nat) (s : State) : Host.Outcome State Fault Refusal :=
  match s.sec.swap with
  | some w =>
    if w.since + readyLimit < s.now then done s
    else if core = 1 ∧ w.phase = 1 then
      done { s with sec := { s.sec with swap := some { w with phase := 2, since := s.now } }, mgmt := { s.mgmt with mc1Down := false, mc0Down := true } }
    else if core = 0 ∧ w.phase = 2 then done (commitSwap s w)
    else done s
  | none => done s

/-- A core is not ready in 100 µs: the cores that switched restart from the previous image. -/
def execFwReadyTimeout (core : Nat) (s : State) : Host.Outcome State Fault Refusal :=
  match s.sec.swap with
  | some w =>
    if ((core = 1 ∧ w.phase = 1) ∨ (core = 0 ∧ w.phase = 2)) ∧ reaches s (w.since + readyLimit) then
      let s1 := advance s (w.since + readyLimit)
      let s2 := { s1 with sec := { s1.sec with swap := none }, mgmt := { s1.mgmt with mc0Down := false, mc1Down := false } }
      let s3 := fault s2 0x0E40 0 (mgmtSite core) 0 0
      let s4 := finishFirst s3 (fun k => k == .fwSwitch) stAborted 0x0E40 s3.now
      done (postDev s4 0x1A 0x0062 (mgmtSite 3) s4.now 0x0E40)
    else done s
  | none => done s

/-! ### LIFECYCLE (R460 to R466) -/

/-- What an authorisation carries. -/
structure Auth where
  op : Nat
  target : Nat
  serial : BitVec 128
  challenge : BitVec 256
  payload : List Byte
  bodySize : Nat
  bytes : List Byte

def payloadOf (op target : Nat) : Nat :=
  if op = 0 ∧ target = 1 then 4736 else if (op = 0 ∧ target = 2) ∨ op = 1 then 2592 else 0

/-- The authorisation, when its form is right (0x8F11 otherwise). -/
def readAuth (bytes : List Byte) (len : Nat) : Option Auth :=
  let op := leAt bytes 4 1
  let target := leAt bytes 5 1
  let n := payloadOf op target
  let body := roundUp (0x50 + n) 64
  if leAt bytes 0 4 = 0x5A544155 ∧ zeroBytes ((bytes.drop 6).take 10) ∧ leAt bytes 0x40 4 = n ∧ zeroBytes ((bytes.drop 0x44).take 12)
      ∧ zeroBytes ((bytes.drop (0x50 + n)).take (body - (0x50 + n))) ∧ len = body + sigSize then
    some ⟨op, target, BitVec.ofNat 128 (leAt bytes 0x10 16), BitVec.ofNat 256 (leAt bytes 0x20 32), (bytes.drop 0x50).take n, body, bytes⟩
  else none

def lifeOfCode (n : Nat) : Option LifeState :=
  match n with | 0 => some .manufacture | 1 => some .provisioned | 2 => some .deployed | 3 => some .returned | 4 => some .scrapped | _ => none

/-- The transitions of R460. -/
def lifeAllowed (c : Sec) (dest : LifeState) : Bool :=
  match c.life, dest with
  | .manufacture, .provisioned => true
  | .provisioned, .deployed => true
  | .deployed, .returned => true
  | .returned, .provisioned => decide (c.cycle < 3)
  | .manufacture, .scrapped => true
  | .provisioned, .scrapped => true
  | .returned, .scrapped => true
  | .deployed, .scrapped => true
  | _, _ => false

/-- Op and target are allowed in the state (R460, R461). -/
def authAllowed (c : Sec) (a : Auth) : Bool :=
  match a.op with
  | 0 => (match lifeOfCode a.target with | some d => lifeAllowed c d | none => false)
  | 1 => c.life == .deployed && decide (a.target < 8)
  | 2 => c.life == .deployed && decide (a.target < 8)
  | 3 => c.life != .scrapped && decide (a.target < 4) && (lget c.fwKeys a.target none).isSome
  | _ => false

/-- The slot fits the operation (0x8F14). -/
def authSlotOk (c : Sec) (a : Auth) : Bool :=
  match a.op with
  | 1 => lget c.imageKeys a.target .empty == .empty
  | 2 => keyValid (lget c.imageKeys a.target .empty)
  | 3 => (List.range 4).any (fun k => k != a.target && (lget c.fwKeys k none).isSome && !lget c.fwRevoked k false)
  | _ => true

/-- The signer that R460 or R461 requires. -/
def authSigner (c : Sec) (a : Auth) (key : BitVec 128) : Bool :=
  match a.op with
  | 0 =>
    if a.target = 1 then c.factoryKeys.contains key
    else if a.target = 2 then key == keyIdOf a.payload
    else if a.target = 3 then c.ownerKey == some key
    else if c.life = .deployed then c.ownerKey == some key
    else c.factoryKeys.contains key
  | 3 => fwKeyGood c key && lget c.fwKeys a.target none != some key
  | _ => c.ownerKey == some key

/-- The identity certificate of a key, with a signature block (R473). -/
def certBody (key : BitVec 128) : List Byte :=
  leBytes 4 0x54444943 ++ leBytes 2 1 ++ List.replicate 10 0 ++ leBytes 16 Config.serialField.toNat ++ padTo 2592 (Config.publicKey key)
    ++ List.replicate 64 0

/-- The certificate of the key generated at a draw, when a factory key signed it. -/
def certOf (c : Sec) (draw : Nat) (block : List Byte) : Option (List Byte) :=
  let bytes := certBody (Config.identityKey draw) ++ block
  match sigFails bytes 0xA80 (fun k => c.factoryKeys.contains k) with
  | none => some bytes
  | some _ => none

/-- The first status of R466 that applies. -/
def authStatus (s : State) (challenge : BitVec 256) (a : Auth) : Option (Nat × Nat) :=
  let c := s.sec
  if a.serial ≠ Config.serialField ∨ a.challenge ≠ challenge then some (stDenied, 0x8F12)
  else if !authAllowed c a then some (stDenied, 0x8F13)
  else if !authSlotOk c a then some (stDenied, 0x8F14)
  else match sigFails a.bytes a.bodySize (authSigner c a) with
    | some code => some (stSignatureFail, code)
    | none =>
      if a.op = 0 ∧ a.target = 1 ∧ c.life = .manufacture ∧ (certOf c s.fresh a.payload).isNone then some (stSignatureFail, 0x8F05)
      else if c.swap.isSome ∨ s.feed.wipeRunning then some (stBusy, 0)
      else none

/-- The life-cycle bit is burned, flash items go, and a device reset is due (R464). -/
def transition (s : State) (a : Auth) (dest : LifeState) : State :=
  let c := s.sec
  let c1 : Sec :=
    match c.life, dest with
    | .manufacture, .provisioned =>
      { c with identity := some (Config.identityKey s.fresh), certificate := certOf c s.fresh a.payload }
    | .provisioned, .deployed => { c with ownerKey := some (keyIdOf a.payload) }
    | .returned, .provisioned => { c with cycle := c.cycle + 1 }
    | _, _ => c
  let s1 := { s with sec := { eraseFor { c1 with life := dest } dest with staged := none }, fresh := s.fresh + 1,
                     mgmt := (askReset s).mgmt }
  postDev s1 0x1A 0x0066 (mgmtSite 3) s.now (lifeCode dest)

def applyAuth (s : State) (a : Auth) : State :=
  let c := s.sec
  match a.op with
  | 0 => (match lifeOfCode a.target with | some d => transition s a d | none => s)
  | 1 => postDev { s with sec := { c with imageKeys := c.imageKeys.set a.target (.valid (keyIdOf a.payload)) } } 0x1A 0x0064 (mgmtSite 3) s.now a.target
  | 2 =>
    let k := match lget c.imageKeys a.target .empty with | .valid x => KeySlot.revoked x | o => o
    postDev { s with sec := { c with imageKeys := c.imageKeys.set a.target k } } 0x1A 0x0065 (mgmtSite 3) s.now (2 * 2 ^ 8 + a.target)
  | _ =>
    postDev { s with sec := { c with fwRevoked := c.fwRevoked.set a.target true } } 0x1A 0x0065 (mgmtSite 3) s.now (3 * 2 ^ 8 + a.target)

/-- The shared body of the four rows; the challenge is the one read before the command. -/
def lifecycleBody (challenge : BitVec 256) (c : HostCmd) (auth : HostData) (s : State) (p : Packet) : Verdict :=
  let addr := pktQ p 2
  let len := (pktDw p 4).toNat
  if !pktOnly p [(2, 0xFFFFFFFF), (3, 0xFFFFFFFF), (4, 0xFFFFFFFF)] then refuse s stBadParam
  else if addr % 64 ≠ 0 then refuse s stBadParam 0x8F11
  else match hostRead s auth with
    | none => hostAccessFailed s c len (fun o => addr + o)
    | some bytes =>
      match readAuth (bytes.take len) len with
      | none => refuse s stBadParam 0x8F11
      | some a =>
        match authStatus s challenge a with
        | some (st, d) => refuse s st d
        | none => okAt (applyAuth s a)

/-- One row of LIFECYCLE: SEC_CHALLENGE is replaced at the take, whatever the outcome (R466). -/
def lifecycleCmd (op : Nat) (c : HostCmd) (auth : HostData) (s : State) : Host.Outcome State Fault Refusal :=
  if authOp auth = op ∧ spells c.pkt 0x58 0 ∧ takeable s c then
    takeCmd { s with sec := { s.sec with challenge := Config.entropy s.fresh }, fresh := s.fresh + 1 } c 0x58 0
      (lifecycleBody s.sec.challenge c auth)
  else done s

def execLifecycleTransition (c : HostCmd) (auth : HostData) (s : State) : Host.Outcome State Fault Refusal := lifecycleCmd 0 c auth s
def execLifecycleAddKey (c : HostCmd) (auth : HostData) (s : State) : Host.Outcome State Fault Refusal := lifecycleCmd 1 c auth s
def execLifecycleRevokeImageKey (c : HostCmd) (auth : HostData) (s : State) : Host.Outcome State Fault Refusal := lifecycleCmd 2 c auth s
def execLifecycleRevokeFwKey (c : HostCmd) (auth : HostData) (s : State) : Host.Outcome State Fault Refusal := lifecycleCmd 3 c auth s

/-! ### WIPE (R31, R468) -/

/-- The image region with its mirror, sized to a multiple of 14 MiB (R290). -/
def imageRegion (i : Image) : Nat × Nat :=
  let off := i.mirrorBase - i.imageBase
  (i.imageBase, roundUp (if i.mirrored then max (2 * i.imageSize) (off + i.imageSize) else i.imageSize) regionUnit)

/-- The regions of LPDDR5 in use (R31): base and size. -/
def regionsInUse (s : State) : List (Nat × Nat) :=
  s.hal.images.flatMap (fun i => [imageRegion i, (i.spillBase, i.spillSize), (i.elasticBase, i.elasticSize)])
    ++ (if s.trace.state = .off then [] else [(s.trace.base, 64 * traceLines s.trace)])
    ++ (match s.snap.region with | some r => [r] | none => [])

def inRegions (l : List (Nat × Nat)) (a : Nat) : Bool := l.any (fun r => decide (r.1 ≤ a) && decide (a < r.1 + r.2))

/-- What the regions leave free of the usable addresses, from `a` on; the regions ascend. -/
def freeFrom (a : Nat) : List (Nat × Nat) → List (Nat × Nat)
  | [] => [(a, Config.memTop - a)]
  | r :: rest => (a, r.1 - a) :: freeFrom (max a (r.1 + r.2)) rest

def freeRanges (l : List (Nat × Nat)) : List (Nat × Nat) := freeFrom 0 (sortBy Prod.fst l)

/-- Op 0, and op 3, which is BAD_PARAM. -/
def execWipeFreeSpace (c : HostCmd) (s : State) : Host.Outcome State Fault Refusal :=
  takeCmd s c 0x59 0 fun s p =>
    if !pktOnly p [(2, 3)] ∨ dbits (pktDw p 2) 1 0 = 3 then refuse s stBadParam
    else if s.feed.wipeRunning then refuse s stBusy
    else .pend .wipeFree (addJobs { s with feed := { s.feed with wipeRunning := true } } .wipe true (freeRanges (regionsInUse s)))

/-- Every usable line outside the regions in use holds zeros, its last write out (R217); a LOST channel refuses the writes (R224). -/
def execWipeFreeSpaceDone (s : State) : Host.Outcome State Fault Refusal :=
  if !s.feed.wipeRunning || jobPending s .wipe then done s else
  let rs := regionsInUse s
  let mib := (Config.memTop - (rs.map (·.2)).foldl (· + ·) 0) / 2 ^ 20
  let kept (a : Nat) : Bool := inRegions rs a || (channelOf s (channelOfDpa a)).state == .lost
  let s1 := { s with feed := { s.feed with wipeRunning := false, lpddr := memKeep s.feed.lpddr kept, poisoned := s.feed.poisoned.filter kept } }
  let s2 := postDev s1 0x1A 0x0067 (mgmtSite 3) s.now mib
  done (finishFirst s2 (fun k => k == .wipeFree) stOK (dw mib) s.now)

def execWipeDevice (c : HostCmd) (s : State) : Host.Outcome State Fault Refusal :=
  takeCmd s c 0x59 1 fun s p =>
    if !pktOnly p [(2, 3)] then refuse s stBadParam
    else okAt (askReset s)

def execWipeStagedFirmware (c : HostCmd) (s : State) : Host.Outcome State Fault Refusal :=
  takeCmd s c 0x59 2 fun s p =>
    if !pktOnly p [(2, 3)] then refuse s stBadParam
    else if s.sec.swap.isSome then refuse s stBusy
    else okAt { s with sec := { setUncommitted s.sec none with staged := none } }

/-! ### ATTEST (R471 to R473) -/

def pkgDigest (p : Option FwPkg) : Nat := match p with | some x => x.digest.toNat | none => 0

def hoistEntry (s : State) (k : Nat) : List Byte :=
  let h := hoistOf s k
  let d := match h.image with
    | some n => (match s.hal.images.find? (fun i => i.handle = n) with | some i => i.digest.toNat | none => 0)
    | none => 0
  leBytes 1 (hoistCode h.state) ++ leBytes 1 (h.image.getD 0) ++ leBytes 2 h.section_ ++ List.replicate 12 0 ++ leBytes 64 d

def keyEntry (k : KeySlot) : List Byte :=
  match k with
  | .empty => List.replicate 16 0
  | .valid x => leBytes 16 x.toNat
  | .revoked x => leBytes 15 x.toNat ++ [0xFF]

def keyBytes (k : Option (BitVec 128)) : List Byte := match k with | some x => leBytes 16 x.toNat | none => List.replicate 16 0

/-- Bytes 0 to 0x33F of the report. -/
def reportBody (s : State) (nonce : List Byte) : List Byte :=
  let c := s.sec
  leBytes 4 0x54505441 ++ leBytes 2 1 ++ leBytes 2 Config.stepping ++ leBytes 1 (lifeCode c.life) ++ leBytes 1 c.cycle ++ leBytes 1 c.floor
    ++ List.replicate 5 0 ++ padTo 16 (asciiBytes (Config.nameOf Config.variant)) ++ leBytes 16 Config.serialField.toNat ++ List.replicate 16 0
    ++ padTo 32 nonce ++ leBytes 8 s.now
    ++ dwBytes Config.bootRomVersion ++ dwBytes (pkgVersion (courierPkg s)) ++ dwBytes (pkgVersion c.running) ++ dwBytes (pkgVersion c.staged)
    ++ List.replicate 8 0 ++ leBytes 64 (pkgDigest (courierPkg s)) ++ leBytes 64 (pkgDigest c.running) ++ leBytes 64 (pkgDigest c.staged)
    ++ (List.range 4).flatMap (hoistEntry s) ++ c.imageKeys.flatMap keyEntry ++ keyBytes c.ownerKey ++ keyBytes c.identity ++ List.replicate 32 0

/-- The report of this fc, signed. -/
def reportBytes (s : State) (nonce : List Byte) : List Byte :=
  let b := reportBody s nonce
  b ++ signBody (s.sec.identity.getD 0) b

def execAttestReport (c : HostCmd) (s : State) : Host.Outcome State Fault Refusal :=
  takeCmd s c 0x03 0 fun s p =>
    let addr := pktQ p 3
    let masks := (2, 1) :: ((List.range 10).map (fun k => (k + 3, (0xFFFFFFFF : Dword))))
    if !pktOnly p masks ∨ addr % 64 ≠ 0 then refuse s stBadParam
    else if s.sec.life = .scrapped ∨ s.sec.life = .manufacture ∨ s.sec.identity.isNone then refuse s stDenied
    else .pend (.attest addr (reportBytes s ((List.range 8).flatMap (fun k => dwBytes (pktDw p (5 + k)))))) s

def execAttestCertificate (c : HostCmd) (s : State) : Host.Outcome State Fault Refusal :=
  takeCmd s c 0x03 1 fun s p =>
    let addr := pktQ p 3
    if !pktOnly p [(2, 1), (3, 0xFFFFFFFF), (4, 0xFFFFFFFF)] ∨ addr % 64 ≠ 0 then refuse s stBadParam
    else match s.sec.life, s.sec.certificate with
      | .manufacture, _ => refuse s stDenied
      | _, none => refuse s stDenied
      | _, some bytes => .pend (.attest addr bytes) s

/-- The report or certificate is written, and ATTEST completes within 10 ms of take. -/
def execAttestDone (s : State) : Host.Outcome State Fault Refusal :=
  match s.hif.pendings.find? (fun c => match c.kind with | .attest _ _ => true | _ => false) with
  | some c =>
    (match c.kind with
     | .attest addr bytes => done (finishPend s c stOK (dw bytes.length) s.now [(addr, bytes)])
     | _ => done s)
  | none => done s

end Sys2Proof.Machine
end

