-- ==== Sys2Proof/Machine/ImageFile.lean ====
section
/-! DEFINITION. Image files: header, chunks and records, signature, relocation and latency assumptions, which are stages 1 to 5 of a load
(spec/10_compiler_contract.md R284 to R298, R303, spec/17_security_lifecycle.md R459). -/

namespace Sys2Proof.Machine

/-- A check of an image: its value, or the failure to report. -/
abbrev Checked (α : Type) := Except LoadFail α

def anyRecord : Nat := 0xFFFFFFFF

def checkFails {α : Type} (code : Nat) (site : Site) (d0 d1 : Nat) : Checked α :=
  .error { status := stImageCheckFail, code := code, site := site, d0 := d0, d1 := d1 }

/-- Go on unless `bad`. -/
def ensure (bad : Bool) (f : Checked Unit) : Checked Unit := if bad then f else .ok ()

/-! ### The header (R285) and the declaration (R8, R290) -/

structure ImgHead where
  chunks : Nat
  body : Nat
  spanKey : Nat
  sectioned : Bool
  mirrored : Bool
  sections : Nat
  batch : Nat
  sectorMask : Nat
  spanMask : Nat
  streamMask : Nat
  portMask : Nat
  spill : Nat
  elastic : Nat
  length : Nat
  deriving DecidableEq, Repr

def headOfFile (b : List Byte) (len : Nat) : ImgHead :=
  { chunks := leAt b 0x0C 4, body := leAt b 0x10 8, spanKey := leAt b 0x18 8, sectioned := leAt b 0x20 4 % 2 == 1
    mirrored := leAt b 0x20 4 / 2 % 2 == 1, sections := leAt b 0x24 2, batch := leAt b 0x26 2, sectorMask := leAt b 0x28 1
    spanMask := leAt b 0x29 1, streamMask := leAt b 0x2C 4, portMask := leAt b 0x30 8, spill := leAt b 0x38 8, elastic := leAt b 0x40 8, length := len }

def tableEnd (h : ImgHead) : Nat := 128 + 32 * h.chunks

/-- Offsets of the header fields that fail check 0x8101, in file order. -/
def headerFaults (b : List Byte) (h : ImgHead) : List Nat :=
  let bad (c : Bool) (off : Nat) : List Nat := if c then [off] else []
  bad (leAt b 0 4 != 0x49505957) 0 ++ bad (leAt b 4 2 != 1) 4 ++ bad (leAt b 8 4 != 128) 8
    ++ bad (h.chunks == 0 || decide (256 < h.chunks)) 0x0C
    ++ bad (h.body % 64 != 0 || decide (h.body < tableEnd h) || h.length != h.body + sigSize) 0x10
    ++ bad (h.spanKey != 0 && h.spanMask == 0) 0x18
    ++ bad (leAt b 0x20 4 / 4 != 0) 0x20
    ++ bad (if h.sectioned then decide (h.sections < 2) else h.sections != 1) 0x24
    ++ bad (if h.sectioned then h.batch == 0 else h.batch != 0) 0x26
    ++ bad (leAt b 0x2A 2 != 0) 0x2A ++ bad (h.spill % 64 != 0) 0x38 ++ bad (h.elastic % 64 != 0) 0x40
    ++ bad (((List.range 52).any (fun o => leAt b (0x4C + o) 1 != 0))) 0x4C

/-- The lowest bit of a mask at or above `limit`. -/
def firstAbove (mask width limit : Nat) : Option Nat := (List.range width).find? (fun k => decide (limit ≤ k) && mask / 2 ^ k % 2 == 1)

def capacityOf (h : ImgHead) : Nat :=
  roundUp (if h.mirrored then 2 * h.length else h.length) regionUnit + roundUp h.spill regionUnit + roundUp h.elastic regionUnit

/-- Check 0x8107: the first unit that the part lacks, or the capacity. -/
def declarationFault (h : ImgHead) : Option (Site × Nat × Nat) :=
  match firstAbove h.sectorMask 8 Config.sectors, firstAbove h.spanMask 8 Config.spanPorts, firstAbove h.streamMask 32 Config.streams,
        firstAbove h.portMask 64 Config.memPorts with
  | some k, _, _, _ => some (siteOf 0 k 0 0 0, 0x28, 0)
  | none, some k, _, _ => some (spanSite k, 0x29, 0)
  | none, none, some k, _ => some (laneSite k, 0x2C, 0)
  | none, none, none, some k => some (portSite k 0xFF, 0x30, 0)
  | none, none, none, none =>
    if Config.memTop < capacityOf h then some (noSite, anyRecord, ceilDiv (capacityOf h - Config.memTop) (2 ^ 20)) else none

def checkHeader (b : List Byte) (h : ImgHead) : Checked Unit :=
  match headerFaults b h, declarationFault h with
  | o :: _, _ => checkFails 0x8101 noSite o 0
  | [], some (u, d0, d1) => checkFails 0x8107 u d0 d1
  | [], none => .ok ()

/-! ### The signature (R289, R459) -/

/-- Whether an image signed by a key is accepted in the part's life-cycle state. -/
def imageKeyGood (c : Sec) (key : BitVec 128) : Bool :=
  match c.life with
  | .manufacture | .returned => c.factoryKeys.contains key
  | .deployed => c.imageKeys.any (fun k => k == .valid key)
  | _ => false

/-- The checks 0x8102 to 0x8105 are those of R458 on an image's block. -/
def checkSignature (c : Sec) (b : List Byte) (h : ImgHead) : Checked Unit :=
  match sigFails b h.body (imageKeyGood c) with
  | some code => .error { status := stSignatureFail, code := code - 0x0E00 }
  | none => .ok ()

/-! ### Chunks and records (R286 to R288) -/

structure Chunk where
  idx : Nat
  type : Nat
  net : Nat
  count : Nat
  off : Nat
  size : Nat
  clean : Bool
  deriving DecidableEq, Repr

def chunkAt (b : List Byte) (i : Nat) : Chunk :=
  let e := (b.drop (128 + 32 * i)).take 32
  { idx := i, type := leAt e 0 2, net := leAt e 2 1, count := leAt e 4 4, off := leAt e 8 8, size := leAt e 16 8
    clean := leAt e 3 1 == 0 && leAt e 24 8 == 0 }

def chunkNetOk (sections : Nat) (c : Chunk) : Bool :=
  if c.type = 1 ∨ c.type = 4 ∨ c.type = 5 ∨ c.type = 6 then decide (c.net < sections)
  else if c.type = 3 then decide (c.net < sections) || c.net == 0xFF
  else c.net == 0xFF

/-- A table entry fails against R284, R286, R287 and the entries before it. -/
def chunkBad (h : ImgHead) (before : List Chunk) (c : Chunk) : Bool :=
  !c.clean || c.type == 0 || decide (10 < c.type) || c.off % 64 != 0 || decide (c.off < tableEnd h) || decide (h.body < c.off + c.size)
    || before.any (fun d => decide (c.off < d.off + d.size) && decide (d.off < c.off + c.size))
    || !chunkNetOk h.sections c
    || (c.type != 3 && c.type != 4 && c.type != 5 && before.any (fun d => d.type == c.type && d.net == c.net))
    || (c.type == 10 && (decide (h.sections < 2) || c.count != h.sections))

def checkChunks (h : ImgHead) : List Chunk → List Chunk → Checked (List Chunk)
  | before, [] => .ok before
  | before, c :: rest => if chunkBad h before c then checkFails 0x8106 noSite c.idx anyRecord else checkChunks h (before ++ [c]) rest

/-- The chunk type that is missing. -/
def chunkMissing (h : ImgHead) (l : List Chunk) : Option Nat :=
  let has (t n : Nat) : Bool := l.any (fun c => c.type == t && c.net == n)
  if (List.range h.sections).any (fun k => !has 1 k) then some 1
  else if (List.range h.sections).any (fun k => !has 6 k) then some 6
  else if !has 8 0xFF then some 8
  else if 2 ≤ h.sections ∧ !has 10 0xFF then some 10
  else none

/-- Dwords in a unit's layout (R288); 0 for a kind that has none. -/
def layoutSize (kind : Nat) : Nat :=
  match kind with
  | 0 => 39 | 1 => 39 | 2 => 14 | 3 => 27 | 4 => 10497 | 5 => 4 | 8 => 8 | 10 => 12 | _ => 0

/-- A record's site names a whole unit of one of these kinds (R18, R19, R288). -/
def recordSite (kinds : List Nat) (u : Site) : Bool :=
  let k := siteKind u
  kinds.contains k && siteFormed u && (if k = 5 then decide (siteSub u < 8) else if k = 8 then true else siteSub u == 0)

/-- What the chunks hold. A CONFIG record is its section, unit, first dword and dwords; `named` lists the units that records name, by chunk and
record; `wordsAt` and `codeAt` the file offsets of the dwords of each CONFIG record and of the instructions of each program. -/
structure ImgBody where
  config : List (Nat × Site × Nat × List Dword) := []
  wordsAt : List Nat := []
  codeAt : List Nat := []
  programs : List (Nat × List (List Dword)) := []
  weights : List (Nat × Site × Nat × Bool × Nat × Nat) := []
  scales : List (Nat × Site × Nat × List Dword) := []
  constants : List (Nat × Site × Nat × List (List Dword)) := []
  drivers : List (Nat × Site × Site × Nat) := []
  relocs : List (Nat × Nat × Nat × Nat) := []
  latency : List (Nat × Nat × Nat × Nat) := []
  pins : List (Nat × Nat) := []
  dwells : List Nat := []
  named : List (Site × Nat × Nat) := []
  chunks : List (Nat × Nat × Nat × Nat) := []
  deriving DecidableEq, Repr

/-- Dwords and entries of a run of bytes. -/
def dwordList (b : List Byte) : List Dword := dwordsOf (b.length / 4) b

/-- A list cut into pieces of n. -/
def piecesOf {α : Type} (n : Nat) : Nat → List α → List (List α)
  | 0, _ => []
  | k + 1, l => l.take n :: piecesOf n k (l.drop n)

/-- A record at the front of a chunk's bytes: what it adds, and its length; none when it is malformed or runs past the chunk. `pos` is its file offset. -/
def recordAt (c : Chunk) (i pos : Nat) (b : List Byte) (x : ImgBody) : Option (ImgBody × Nat) :=
  let u : Site := dw (leAt b 0 4)
  let first := leAt b 4 2
  let n := leAt b 6 2
  let name (u : Site) : List (Site × Nat × Nat) := x.named ++ [(u, c.idx, i)]
  let need (k : Nat) : Bool := decide (k ≤ b.length)
  match c.type with
  | 1 =>
    let twice := x.config.any (fun r => r.1 == c.net && decide (0 < n) && !r.2.2.2.isEmpty && r.2.1 == u && decide (first < r.2.2.1 + r.2.2.2.length) && decide (r.2.2.1 < first + n))
    if need 8 && need (8 + 4 * n) && recordSite [0, 1, 2, 3, 4, 5, 8, 10] u && decide (first + n ≤ layoutSize (siteKind u)) && !twice then
      some ({ x with config := x.config ++ [(c.net, u, first, dwordList ((b.drop 8).take (4 * n)))], wordsAt := x.wordsAt ++ [pos + 8], named := name u }, 8 + 4 * n)
    else none
  | 2 =>
    let num := leAt b 0 2
    let k := leAt b 2 2
    if need 4 && need (4 + 16 * k) && decide (num < 4096) && !(x.programs.any (fun p => p.1 == num)) then
      some ({ x with programs := x.programs ++ [(num, piecesOf 4 k (dwordList ((b.drop 4).take (16 * k))))], codeAt := x.codeAt ++ [pos + 4] }, 4 + 16 * k)
    else none
  | 3 =>
    let resident := leAt b 6 2 == 1
    let lines := leAt b 8 4
    let whole := u == noSite
    if need 64 && need (64 + 64 * lines) && decide (leAt b 6 2 ≤ 1) && zeroBytes ((b.drop 12).take 52) && (whole || recordSite [0] u)
        && !(whole && resident) && (!resident || decide (first + lines ≤ 12288)) then
      some ({ x with weights := x.weights ++ [(c.net, u, first, resident, pos + 64, lines)], named := if whole then x.named else name u }, 64 + 64 * lines)
    else none
  | 4 =>
    if need 8 && need (8 + 4 * n) && recordSite [0] u && decide (first + n ≤ 1032) then
      some ({ x with scales := x.scales ++ [(c.net, u, first, dwordList ((b.drop 8).take (4 * n)))], named := name u }, 8 + 4 * n)
    else none
  | 5 =>
    if need 8 && need (8 + 256 * n) && recordSite [1] u && decide (first + n ≤ 1024) then
      some ({ x with constants := x.constants ++ [(c.net, u, first, piecesOf 64 n (dwordList ((b.drop 8).take (256 * n))))], named := name u }, 8 + 256 * n)
    else none
  | 6 =>
    let d : Site := dw (leAt b 4 4)
    if need 12 && leAt b 10 2 == 0 && siteKind u == 9 && siteFormed u && decide (siteSub u < 16) && siteKind d == 10 && siteFormed d
        && decide (siteSub d < 44) then
      some ({ x with drivers := x.drivers ++ [(c.net, u, d, leAt b 8 2)], named := name u ++ [(d, c.idx, i)] }, 12)
    else none
  | 7 =>
    let t := leAt b 0 1
    let port := leAt b 4 4
    let slot := leAt b 8 4
    let names : List (Site × Nat × Nat) :=
      if t = 2 then name u else if t = 3 ∧ port < 64 ∧ slot < 8 then name (portSite port slot) else x.named
    if need 16 && decide (1 ≤ t) && decide (t ≤ 3) && leAt b 2 2 == 0 && leAt b 12 4 == 0 && (t != 2 || recordSite [3] u) then
      some ({ x with relocs := x.relocs ++ [(t, leAt b 1 1, port, slot)], named := names }, 16)
    else none
  | 8 => if need 8 then some ({ x with latency := x.latency ++ [(leAt b 0 1, leAt b 1 1, leAt b 2 2, leAt b 4 4)] }, 8) else none
  | 9 => if need 16 then some ({ x with pins := x.pins ++ [(leAt b 0 8, leAt b 8 8)] }, 16) else none
  | _ => if need 8 && leAt b 4 4 == 0 then some ({ x with dwells := x.dwells ++ [leAt b 0 4] }, 8) else none

/-- The records of a chunk, from record i on: k of them. -/
def readRecords (c : Chunk) : Nat → Nat → Nat → List Byte → ImgBody → Checked ImgBody
  | 0, _, _, _, x => .ok x
  | k + 1, i, pos, b, x =>
    match recordAt c i pos b x with
    | some (y, n) => readRecords c k (i + 1) (pos + n) (b.drop n) y
    | none => checkFails 0x8106 noSite c.idx i

def readChunks (h : ImgHead) (b : List Byte) : List Chunk → ImgBody → Checked ImgBody
  | [], x => .ok x
  | c :: rest, x =>
    match readRecords c c.count 0 c.off ((b.drop c.off).take c.size) { x with chunks := x.chunks ++ [(c.type, c.net, c.off, c.size)] } with
    | .ok y => readChunks h b rest y
    | .error e => .error e

/-- A unit stands in the declaration (R303 0x8108). -/
def declared (h : ImgHead) (u : Site) : Bool :=
  match siteKind u with
  | 5 => h.portMask / 2 ^ sitePort u % 2 == 1
  | 8 => h.spanMask / 2 ^ siteSub u % 2 == 1
  | _ => h.sectorMask / 2 ^ siteSector u % 2 == 1

/-- Dwords of every unit of a network section. -/
def configOf (x : ImgBody) (k : Nat) : AMap Site (List Dword) :=
  let recs := x.config.filter (fun r => r.1 == k)
  (dedup (recs.map (fun r => r.2.1))).map (fun u =>
    (u, (recs.filter (fun r => r.2.1 == u)).foldl (fun w r => w.take r.2.2.1 ++ r.2.2.2 ++ w.drop (r.2.2.1 + r.2.2.2.length))
      (List.replicate (layoutSize (siteKind u)) 0)))

/-- Section, site and words of every unit of the image. -/
def unitsOf (h : ImgHead) (x : ImgBody) : List (Nat × Site × List Dword) :=
  (List.range h.sections).flatMap (fun k => (configOf x k).map (fun p => (k, p.1, p.2)))

/-- Used queues: section, slot site and words. -/
def usedQueues (l : List (Nat × Site × List Dword)) : List (Nat × Site × List Dword) :=
  l.filter (fun p => siteKind p.2.1 == 5 && dbit (lget p.2.2 1 0) 0)

/-- Stage 3. -/
def parseImage (b : List Byte) (h : ImgHead) : Checked ImgBody :=
  match checkChunks h [] ((List.range h.chunks).map (chunkAt b)) with
  | .error e => .error e
  | .ok chunks =>
    match chunkMissing h chunks with
    | some t => checkFails 0x8106 noSite anyRecord t
    | none =>
      match readChunks h b chunks {} with
      | .error e => .error e
      | .ok x =>
        if !(usedQueues (unitsOf h x)).isEmpty ∧ !(chunks.any (fun c => c.type == 2)) then checkFails 0x8106 noSite anyRecord 2
        else
          match x.named.find? (fun r => !declared h r.1) with
          | some r => checkFails 0x8108 r.1 r.2.1 r.2.2
          | none => .ok x

/-! ### Relocation (R291, R292) -/

/-- A word to patch: a BASE by program and index, a ring by section and unit, a queue's program by section and slot. -/
inductive RelocWord where
  | base (program index : Nat)
  | ring (net : Nat) (u : Site)
  | program (net : Nat) (u : Site)
  deriving DecidableEq, Repr

def relocWords (h : ImgHead) (x : ImgBody) : List RelocWord :=
  let units := unitsOf h x
  x.programs.flatMap (fun p => (p.2.zipIdx.filter (fun w => insOp w.1 == 2)).map (fun w => .base p.1 w.2))
    ++ (units.filter (fun p => siteKind p.2.1 == 3 && dbit (lget p.2.2 8 0) 13)).map (fun p => .ring p.1 p.2.1)
    ++ (usedQueues units).map (fun p => .program p.1 p.2.1)

/-- The word a record names, and the unit and program word of its failure. -/
def relocNames (r : Nat × Nat × Nat × Nat) : Option RelocWord × Site × Nat :=
  let (t, net, a, b) := r
  match t with
  | 1 => (if net = 0xFF then some (.base a b) else none, noSite, a % 65536 * 65536 + b % 65536)
  | 2 => (if b = 0 then some (.ring net (dw a)) else none, dw a, 0)
  | _ => if a < 64 ∧ b < 8 then (some (.program net (portSite a b)), portSite a b, 0) else (none, noSite, 0)

/-- Every record names a word that needs one, once. -/
def checkRelocs (needed : List RelocWord) : Nat → List RelocWord → List (Nat × Nat × Nat × Nat) → Checked (List RelocWord)
  | _, got, [] => .ok got
  | i, got, r :: rest =>
    match relocNames r with
    | (some w, u, d) => if needed.contains w && !got.contains w then checkRelocs needed (i + 1) (got ++ [w]) rest else checkFails 0x8111 u i d
    | (none, u, d) => checkFails 0x8111 u i d

/-- Bytes of the image region up to the mirror, or to its end (R290). -/
def imageLength (h : ImgHead) : Nat := if h.mirrored then h.length else roundUp h.length regionUnit

/-- Size of the region that a BASE names; none for a reserved region. -/
def baseRegionSize (h : ImgHead) (w : List Dword) : Option Nat :=
  match dbits (lget w 0 0) 13 12 with
  | 0 => some (h.length)
  | 1 => some (roundUp h.spill regionUnit)
  | _ => none

def baseOffset (w : List Dword) : Nat := (lget w 1 0).toNat + dbits (lget w 2 0) 3 0 * 2 ^ 32

def codeOfImage (x : ImgBody) (n : Nat) : List (List Dword) := match x.programs.find? (fun p => p.1 == n) with | some p => p.2 | none => []

def lowestSite (l : List Site) : Site := l.foldl (fun m u => if u < m then u else m) noSite

/-- Queues of any section that use a program, by its image number. -/
def programUsers (h : ImgHead) (x : ImgBody) (n : Nat) : List Site :=
  ((usedQueues (unitsOf h x)).filter (fun p => dbits (lget p.2.2 3 0) 11 0 == n)).map (fun p => p.2.1)

def checkBases (h : ImgHead) (x : ImgBody) : Checked Unit :=
  match x.relocs.zipIdx.find? (fun r => r.1.1 == 1 &&
      (let w := lget (codeOfImage x r.1.2.2.1) r.1.2.2.2 []
       match baseRegionSize h w with | some n => decide (n ≤ baseOffset w) | none => false)) with
  | some r => checkFails 0x8112 (lowestSite (programUsers h x r.1.2.2.1)) r.2 (baseOffset (lget (codeOfImage x r.1.2.2.1) r.1.2.2.2 []) / 64)
  | none => .ok ()

/-- Stage 4's checks. -/
def checkRelocation (h : ImgHead) (x : ImgBody) : Checked Unit :=
  let needed := relocWords h x
  match checkRelocs needed 0 [] x.relocs with
  | .error e => .error e
  | .ok got =>
    match needed.find? (fun w => !got.contains w) with
    | some (.base p i) => checkFails 0x8111 noSite anyRecord (p % 65536 * 65536 + i % 65536)
    | some (.ring _ u) => checkFails 0x8111 u anyRecord 0
    | some (.program _ u) => checkFails 0x8111 u anyRecord 0
    | none => checkBases h x

/-- A BASE with the DPA of its offset. -/
def patchBase (imageBase spillBase : Nat) (w : List Dword) : List Dword :=
  if insOp w = 2 then
    let region := dbits (lget w 0 0) 13 12
    let a := baseOffset w + (if region = 0 then imageBase else if region = 1 then spillBase else 0)
    [lget w 0 0, lo32 a, dw ((lget w 2 0).toNat / 16 * 16 + a / 2 ^ 32 % 16), lget w 3 0]
  else w

/-- A steering unit's ring base as a DPA. -/
def ringWord (elasticBase : Nat) (d : Dword) : Dword := dw (d.toNat / 2 ^ 24 * 2 ^ 24 + (elasticBase / 4096 + dbits d 23 0) % 2 ^ 24)

def patchRing (elasticBase : Nat) (w : List Dword) : List Dword :=
  if dbit (lget w 8 0) 13 then w.set 10 (ringWord elasticBase (lget w 10 0)) else w

/-! ### Latency assumptions (R293 to R296) -/

/-- A table entry of the stepping: the mask of kinds it allows and its value. -/
def latEntry (id : Nat) : Option (Nat × Nat) := (Config.latencyTable.find? (fun e => e.1 == id)).map (fun e => (e.2.2.1, e.2.2.2))

/-- A record is malformed after those before it. -/
def latencyBad (before : List (Nat × Nat × Nat × Nat)) (r : Nat × Nat × Nat × Nat) : Bool :=
  r.2.2.1 != 0 ||
    match latEntry r.1 with
    | none => r.2.1 != 0
    | some (kinds, _) => before.any (fun b => b.1 == r.1) || kinds / 2 ^ r.2.1 % 2 == 0

def latencyMalformed : Nat → List (Nat × Nat × Nat × Nat) → List (Nat × Nat × Nat × Nat) → Option Nat
  | _, _, [] => none
  | i, before, r :: rest => if latencyBad before r then some i else latencyMalformed (i + 1) (before ++ [r]) rest

/-- Segments that boxes drive across a sector boundary (R45, R49). -/
def crossingSegments (l : List (Nat × Site × List Dword)) : List Site :=
  (l.filter (fun p => siteKind p.2.1 == 10)).flatMap (fun p =>
    ((List.range 32).filter (fun o => boxEntryOf p.2.2 o != 0x3F)).filterMap (fun o =>
      match outputLeads p.2.1 o with | some (_, _, seg, true) => some seg | _ => none))

/-- The site of a latency refusal (R295). -/
def latencySite (h : ImgHead) (l : List (Nat × Site × List Dword)) (id : Nat) : Site :=
  let used (kind d : Nat) : List Site := (l.filter (fun p => siteKind p.2.1 == kind && dbit (lget p.2.2 d 0) 0)).map (fun p => p.2.1)
  if id = 1 then lowestSite (crossingSegments l)
  else if id = 2 ∨ id = 3 ∨ id = 4 then lowestSite (used 0 4)
  else if id = 5 ∨ id = 6 ∨ id = 7 then lowestSite (used 1 8)
  else if id = 8 then lowestSite (used 3 8)
  else if id = 9 then lowestSite ((l.filter (fun p => siteKind p.2.1 == 0 && dbit (lget p.2.2 4 0) 0
      && (opsBeforeEnd (p.2.2.drop 23)).any (fun w => opCode w == 5))).map (fun p => p.2.1))
  else if id = 10 ∨ id = 11 ∨ id = 12 then lowestSite ((usedQueues l).map (fun p => p.2.1))
  else match firstAbove h.spanMask 8 0 with | some k => spanSite k | none => noSite

/-- The stepping against one assumption: the code that refuses it. -/
def latencyRefused (r : Nat × Nat × Nat × Nat) : Option Nat :=
  match latEntry r.1 with
  | none => none
  | some (_, v) =>
    if r.2.1 = 0 then none
    else if r.2.2.2 < v then some 0x8122
    else if r.2.1 = 2 ∧ 15 < r.2.2.2 - v then some 0x8123
    else none

/-- Stage 5: the pad of every boundary FIFO. -/
def checkLatency (h : ImgHead) (x : ImgBody) : Checked Nat :=
  match latencyMalformed 0 [] x.latency with
  | some i => checkFails 0x8121 noSite i 0
  | none =>
    match Config.latencyTable.find? (fun e => !(x.latency.any (fun r => r.1 == e.1))) with
    | some e => checkFails 0x8121 noSite anyRecord e.1
    | none =>
      let sorted := sortBy (fun (r : Nat × Nat × Nat × Nat) => r.1) x.latency
      match sorted.findSome? (fun r => (latencyRefused r).map (fun c => (c, r))) with
      | some (c, r) =>
        let v := match latEntry r.1 with | some (_, n) => n | none => 0
        checkFails c (latencySite h (unitsOf h x) r.1) (r.1 + r.2.1 * 256) v
      | none =>
        match x.latency.find? (fun r => r.1 == 1 && r.2.1 == 2) with
        | some r => .ok (r.2.2.2 - Config.latB)
        | none => .ok 0

/-! ### The image -/

/-- Bases of the regions of an image. -/
structure Placing where
  image : Nat
  mirror : Nat
  spill : Nat
  elastic : Nat
  deriving DecidableEq, Repr

/-- Offset of the weight mirror from the image region: past the file, on the channel half-way round (R201). -/
def mirrorOffsetFor (len : Nat) : Nat :=
  let period := 64 * Config.channels
  roundUp (len + period / 2) period - period / 2

def imageSpan (h : ImgHead) : Nat :=
  roundUp (if h.mirrored then max (2 * h.length) (mirrorOffsetFor h.length + h.length) else h.length) regionUnit

/-- The lowest multiple of 14 MiB from `start` on at which `size` bytes clash with none of the regions in use. -/
def placeAt (used : List (Nat × Nat)) (size : Nat) : Nat → Nat → Option Nat
  | 0, _ => none
  | n + 1, a =>
    if Config.memTop < a + size then none
    else if used.any (fun r => decide (r.1 < a + size) && decide (a < r.1 + r.2)) then placeAt used size n (a + regionUnit)
    else some a

/-- Regions for an image beside those in use; an empty region stands at 0. -/
def placeImage (used : List (Nat × Nat)) (h : ImgHead) : Option Placing :=
  let tries := Config.memTop / regionUnit + 1
  let put (l : List (Nat × Nat)) (size : Nat) : Option Nat := if size = 0 then some 0 else placeAt l size tries 0
  match put used (imageSpan h) with
  | none => none
  | some a =>
    let u1 := (a, imageSpan h) :: used
    match put u1 (roundUp h.spill regionUnit) with
    | none => none
    | some b =>
      match put ((b, roundUp h.spill regionUnit) :: u1) (roundUp h.elastic regionUnit) with
      | none => none
      | some c => some ⟨a, if h.mirrored then a + mirrorOffsetFor h.length else 0, b, c⟩

/-- Where the file holds dword d of units for which p holds: section, site, offset and the dword. -/
def wordPlaces (x : ImgBody) (d : Nat) (p : Site → Bool) : List (Nat × Site × Nat × Dword) :=
  (x.config.zip x.wordsAt).filterMap (fun r =>
    let first := r.1.2.2.1
    if p r.1.2.1 ∧ first ≤ d ∧ d < first + r.1.2.2.2.length then some (r.1.1, r.1.2.1, r.2 + 4 * (d - first), lget r.1.2.2.2 (d - first) 0) else none)

/-- The copy of the file in the image region, with its BASE instructions and ring bases patched (R292). -/
def patchedFile (b : List Byte) (x : ImgBody) (p : Placing) : List Byte :=
  let put (l : List Byte) (o : Nat) (v : List Byte) : List Byte := l.take o ++ v ++ l.drop (o + v.length)
  let codes := (x.programs.zip x.codeAt).flatMap (fun q => q.1.2.zipIdx.filterMap (fun w =>
    if insOp w.1 = 2 then some (q.2 + 16 * w.2, patchBase p.image p.spill w.1) else none))
  let b1 := codes.foldl (fun l c => put l c.1 (c.2.flatMap dwBytes)) b
  let rings := (wordPlaces x 10 (fun u => siteKind u == 3)).filter (fun r => dbit (lget (amGetD (configOf x r.1) r.2.1 []) 8 0) 13)
  rings.foldl (fun l r => put l r.2.2.1 (dwBytes (ringWord p.elastic r.2.2.2))) b1

/-- The resident image that a file describes: words after relocation; queues keep image program numbers until a hoist is written. -/
def buildImage (b : List Byte) (h : ImgHead) (x : ImgBody) (pad handle : Nat) (p : Placing) : Image :=
  let per {α : Type} (f : Nat → α) : List α := (List.range h.sections).map f
  { handle := handle, keyId := sigKey b h.body, digest := sigDigest b h.body, spanKey := h.spanKey, sectioned := h.sectioned, mirrored := h.mirrored
    sections := h.sections, batch := h.batch, sectorMask := h.sectorMask, spanMask := h.spanMask, streamMask := h.streamMask, portMask := h.portMask
    fileLength := h.length, imageBase := p.image, imageSize := imageLength h, mirrorBase := p.mirror
    spillBase := p.spill, spillSize := roundUp h.spill regionUnit, elasticBase := p.elastic, elasticSize := roundUp h.elastic regionUnit
    config := per (fun k => (configOf x k).map (fun w => (w.1, if siteKind w.1 = 3 then patchRing p.elastic w.2 else w.2)))
    scales := per (fun k => ((x.scales.filter (fun r => r.1 == k)).flatMap (fun r => r.2.2.2.zipIdx.map (fun e => ((r.2.1, r.2.2.1 + e.2), e.1)))).foldl
      (fun m e => amSet m e.1 e.2) [])
    constants := per (fun k => ((x.constants.filter (fun r => r.1 == k)).flatMap (fun r => r.2.2.2.zipIdx.map (fun e => ((r.2.1, r.2.2.1 + e.2), e.1)))).foldl
      (fun m e => amSet m e.1 e.2) [])
    weights := (x.weights.filter (fun r => r.2.2.2.1)).map (fun r => (r.1, r.2.1, r.2.2.1, r.2.2.2.2.1, r.2.2.2.2.2))
    fetched := (x.weights.filter (fun r => !r.2.2.2.1 && r.2.1 != noSite)).map (fun r => (r.1, r.2.1, r.2.2.1, r.2.2.2.2.1, r.2.2.2.2.2))
    chunksAt := x.chunks
    programs := x.programs.map (fun q => (q.1, q.2.map (patchBase p.image p.spill)))
    pins := x.pins
    indexAt := (wordPlaces x 3 (fun u => siteKind u == 5)).map (fun r => (r.1, r.2.1, r.2.2.1))
    drivers := per (fun k => (x.drivers.filter (fun r => r.1 == k)).map (fun r => (r.2.1, r.2.2.1, r.2.2.2)))
    dwells := x.dwells
    pad := pad }

/-- Stages 2 to 5 on a file whose header has passed: its records and its pad. -/
def readImage (c : Sec) (b : List Byte) (h : ImgHead) : Checked (ImgBody × Nat) :=
  match checkSignature c b h with
  | .error e => .error e
  | .ok _ =>
    match parseImage b h with
    | .error e => .error e
    | .ok x =>
      match checkRelocation h x with
      | .error e => .error e
      | .ok _ =>
        match checkLatency h x with
        | .error e => .error e
        | .ok pad => .ok (x, pad)

end Sys2Proof.Machine
end

