-- ==== Sys2Proof/Machine/ImageChecks.lean ====
section
/-! DEFINITION. Stage 6 of a load: the checks of the words of one network section, against the hoists that are not FREE
(spec/02_fabric_hoists.md R80, R511, spec/03_matrix_tile.md R86, spec/04_quantization.md R134, spec/05_vector_window_glue.md R165,
spec/06_tokens_steering.md R193, spec/07_memory_feed.md R232, spec/08_descriptors.md R254, spec/09_sections_span.md R257, R282). Each check yields
findings; the load reports the first in order of code and site (R298). The words are read through a trial state, in which they are those of the
active hoist. -/

namespace Sys2Proof.Machine

/-- Check code, site, and the two detail words. -/
abbrev Finding := Nat × Site × Nat × Nat

def found (bad : Bool) (code : Nat) (u : Site) (d0 d1 : Nat) : List Finding := if bad then [(code, u, d0, d1)] else []

/-- The state as it would be with a section in hoist h and h active. -/
def trialState (s : State) (i : Image) (k h : Nat) : State :=
  let s1 := setHoist s h { hoistOf s h with state := .active, image := some i.handle, section_ := k, words := lget i.config k [], pad := i.pad }
  { s1 with hal := { s1.hal with active := some h, images := i :: s1.hal.images.filter (fun j => decide (j.handle ≠ i.handle)) } }

def trialUnits (i : Image) (k kind : Nat) : List (Site × List Dword) := (lget i.config k []).filter (fun p => siteKind p.1 == kind)

/-! ### Reserved bits and values (0x8205) -/

/-- Some bit outside the mask is set. -/
def outside (w mask : Dword) : Bool := (w &&& ~~~ mask) != 0

def portWordBad (w : Dword) : Bool := outside w 0x000FFF7F

/-- Values 1 to 9 of watchdog_log2 (R109). -/
def watchBad (n : Nat) : Bool := decide (1 ≤ n) && decide (n ≤ 9)

/-- An operation of a matrix tile (R106). -/
def tileOpBad (w : Dword) : Bool :=
  match opCode w with
  | 0 => outside w 0x7F
  | 1 => outside w 0x7FFFF
  | 2 => outside w 0xFFFFF
  | 3 => outside w 0x7FFFFFFF
  | 4 => outside w 0x7FFFFF
  | 5 => outside w 0x1FFFF7F
  | 6 => outside w 0x1FF7F
  | 7 => outside w 0x3FF7F
  | _ => true

def tileWordBad (i : Nat) (w : Dword) : Bool :=
  if i < 4 then portWordBad w
  else if i = 4 then outside w 0xFF1F
  else if i = 19 then outside w 0x1F1F1F1F
  else if i = 20 then outside w 0x1F37 || watchBad (dbits w 12 8)
  else if 23 ≤ i then tileOpBad w
  else false

/-- An operation of a vector tile (R145). -/
def vecOpBad (w : Dword) : Bool :=
  match opCode w with
  | 0 => outside w 0x7F
  | 1 => outside w 0x1FFFFF
  | 2 => outside w 0x7FFFFF
  | 3 => outside w 0xFFFFF || decide (10 ≤ dbits w 10 7)
  | 4 => outside w 0x3FF || decide (5 ≤ dbits w 9 7)
  | 5 => outside w 0x7FFF || decide (3 ≤ dbits w 8 7)
  | _ => true

def vecWordBad (i : Nat) (w : Dword) : Bool :=
  if i < 8 then portWordBad w
  else if i = 8 then outside w 0xFFFF0001
  else if i = 20 then outside w 0x1F1F1F
  else if i = 21 then outside w 0x1F77 || watchBad (dbits w 12 8)
  else if i = 22 then outside w 0x7FF || decide (1024 < dbits w 10 0)
  else if 23 ≤ i then vecOpBad w
  else false

def winWordBad (i : Nat) (w : Dword) : Bool :=
  if i < 4 then portWordBad w
  else if i = 4 then outside w 0x1F07FFFF || dbits w 2 1 == 3 || watchBad (dbits w 28 24)
  else if i = 6 then outside w 0x3FFFF
  else if i = 7 then outside w 0xFFFFFFF || decide (10 < dbits w 3 0) || decide (10 < dbits w 7 4)
  else if i = 8 then outside w 0x1FFF0FFF
  else if i = 9 then outside w 0xFFFF
  else if 10 ≤ i then outside w 0x8FFF8FFF
  else false

def steerWordBad (i : Nat) (w : Dword) : Bool :=
  if i < 8 then portWordBad w
  else if i = 8 then outside w 0xFFFF3FFF || decide (5 ≤ dbits w 3 1)
  else if i = 9 then outside w 0x1FFFFFF || watchBad (dbits w 4 0)
  else if i = 10 then outside w 0xFFFFFF
  else outside w 0x3FFFFF || (dbit w 0 && (decide (dbits w 21 18 < 2) || decide (9 < dbits w 21 18)))

/-- A 14-bit source of the glue block (R159). -/
def glueSourceBad (x : Nat) : Bool :=
  !(decide (x < 0x800) || x == 0x3FFE || x == 0x3FFF || (decide (x < 0x2800) && decide ((x - 0x800) % 128 ≤ 97)))

def glueWordBad (i : Nat) (w : Dword) : Bool :=
  if i = 0 then outside w 1
  else if i < 65 then portWordBad w
  else if i < 257 then
    match (i - 65) % 3 with
    | 0 => glueSourceBad (dbits w 13 0) || glueSourceBad (dbits w 27 14) || decide (4 ≤ dbits w 31 28)
    | 1 => false
    | _ => outside w 0x3F
  else
    match (i - 257) % 5 with
    | 0 => false
    | 1 => false
    | 2 => glueSourceBad (dbits w 13 0) || glueSourceBad (dbits w 27 14)
    | _ => outside w 0xFFFFFFF || glueSourceBad (dbits w 13 0) || glueSourceBad (dbits w 27 14)

def queueWordBad (i : Nat) (w : Dword) : Bool :=
  match i with
  | 0 => portWordBad w
  | 1 => outside w 0x1FFFFFF || decide (2 ≤ dbits w 24 23)
  | 2 => outside w 0x3FFFFF
  | _ => outside w 0xFFFF0FFF

/-- A source value of R51. -/
def boxSourceBad (e : Nat) : Bool := !(decide (e < 0x24) || (decide (0x28 ≤ e) && decide (e < 0x30)) || e == 0x3F)

/-- An entry of a box (R51, R511). -/
def boxEntryBad (box : Site) (o e : Nat) : Bool :=
  boxSourceBad e || (decide (36 ≤ o) && e != 0x3F && (attachedAt box (o - 36) false).isNone)
    || (decide (0x28 ≤ e) && decide (e < 0x30) && (attachedAt box (e - 0x28) true).isNone)

def boxWordBad (box : Site) (i : Nat) (w : Dword) : Bool :=
  if i = 11 then outside w 1 else (List.range 4).any (fun m => boxEntryBad box (4 * i + m) (dbits w (8 * m + 7) (8 * m)))

def wordBad (u : Site) (i : Nat) (w : Dword) : Bool :=
  match siteKind u with
  | 0 => tileWordBad i w
  | 1 => vecWordBad i w
  | 2 => winWordBad i w
  | 3 => steerWordBad i w
  | 4 => glueWordBad i w
  | 5 => queueWordBad i w
  | 8 => portWordBad w
  | _ => boxWordBad u i w

/-- A descriptor instruction (R237). -/
def insBad (w : List Dword) : Bool :=
  let w0 := lget w 0 0
  let w1 := lget w 1 0
  let w2 := lget w 2 0
  let w3 := lget w 3 0
  w3 != 0 ||
    match insOp w with
    | 0 => outside w0 0x1FF || w1 != 0 || w2 != 0
    | 1 => outside w0 0xF7FFF || decide (10 < dbits w0 14 11) || outside w1 0xFFFF || w2 != 0
    | 2 => outside w0 0x33FF || decide (2 ≤ dbits w0 13 12) || outside w2 0xF
    | 3 => outside w0 0x3FF || outside w1 0xFFFFF
    | 4 => outside w0 0xFFF || w1 != 0 || w2 != 0
    | 5 => outside w0 0x3FF || w2 != 0
    | 6 => outside w0 0x1FF || outside w1 0x3FFF || outside w2 0xFFFFF
    | 7 => outside w0 0xFF || w1 != 0 || w2 != 0
    | _ => true

def reservedFindings (i : Image) (k h : Nat) : List Finding :=
  (lget i.config k []).flatMap (fun p => (p.2.zipIdx.filter (fun w => wordBad p.1 w.2 w.1)).map (fun w => (0x8205, p.1, w.2, h)))

/-! ### Fabric (R80) -/

/-- Segment, driver, and whether the driver is the segment's start box; the segment is none toward an edge. -/
def driversOf (i : Image) (k : Nat) : List (Site × Site × Bool × Bool) :=
  (trialUnits i k 10).flatMap (fun p =>
    ((List.range 32).filter (fun o => !boxSourceBad (boxEntryOf p.2 o) && boxEntryOf p.2 o != 0x3F)).map (fun o =>
      let d := siteWithSub p.1 o
      match outputLeads p.1 o with
      | some (_, _, seg, _) => (seg, d, decide (16 ≤ o), true)
      | none => (if 16 ≤ o then siteOf 9 (siteSector p.1) (siteY p.1) (siteX p.1) (o - 16) else d, d, decide (16 ≤ o), false)))

/-- The checks of R80. On a link from a stream's ingress, which has no port word, check 0x8203 takes the first consumer's depth as the producer's and so
refuses consumers whose depths differ: DESIGN CHOICE (notes/assumptions/69.md). -/
def fabricFindings (t : State) (i : Image) (k h : Nat) : List Finding :=
  let ds := driversOf i k
  let two := ds.flatMap (fun a => (ds.filter (fun b => a.1 == b.1 && a.2.2.1 && !b.2.2.1)).map (fun b => (0x8201, a.1, a.2.1.toNat, b.2.1.toNat)))
  let edge := (ds.filter (fun a => !a.2.2.2)).map (fun a => (0x8202, a.1, a.2.1.toNat, h))
  let map := (lget i.drivers k []).map (fun r => (r.1, r.2.1))
  let real := ds.map (fun a => (a.1, a.2.1))
  let least (l : List Site) : Nat := (lowestSite l).toNat
  let disagree := (dedup (map.map Prod.fst ++ real.map Prod.fst)).flatMap (fun seg =>
    let a := (map.filter (fun r => r.1 == seg)).map Prod.snd
    let b := (real.filter (fun r => r.1 == seg)).map Prod.snd
    let am := a.filter (fun d => !b.contains d)
    let bm := b.filter (fun d => !a.contains d)
    found (!am.isEmpty || !bm.isEmpty) 0x8204 seg (least (if am.isEmpty then a else am)) (least (if bm.isEmpty then b else bm)))
  let producers := (trialUnits i k 10).flatMap (fun p =>
    ((List.range 8).filter (fun l => (List.range 44).any (fun o => boxEntryOf p.2 o == 0x28 + l))).filterMap (fun l => attachedAt p.1 l true))
  let depths := producers.flatMap (fun e =>
    let depthOf (c : EndPoint) : Option Nat := (portWordAt c false).map (fun _ => pwDepth (portWord t c false))
    let pd := match portWordAt e true with
      | some _ => some (pwDepth (portWord t e true))
      | none => (linkPaths t e).findSome? (fun x => depthOf x.consumer)
    (linkPaths t e).flatMap (fun x =>
      let cd := depthOf x.consumer
      let wrong (d : Option Nat) : Bool := d.any (fun n => n == 0 || decide (32 < n))
      let differ := match pd, cd with | some a, some b => a != b | _, _ => false
      found (wrong pd || wrong cd || differ) 0x8203 (inputSite x.consumer) (inputSite e).toNat h))
  two ++ edge ++ depths ++ disagree

/-! ### Matrix tiles (R86, R134) -/

/-- A generator leaves its store: wrap_log2 above the store's, or the last used slot's partition past its end. 0x8501 is judged by the slot partition,
in the words of 0x8301, and not by the addresses that the nest forms: DEDUCED (notes/assumptions/75.md). -/
def genFindings (t : State) (u : Site) (code wrapDw wrapShift g maxLog store slots h : Nat) : List Finding :=
  let wl := dbits (cfgDw t u wrapDw) (wrapShift + 4) wrapShift
  let m := if wl = 0 then store else 2 ^ wl
  if maxLog < wl then [(code, u, wrapDw, h)]
  else found (decide (0 < slots) && decide (store < (slots - 1) * dbits (cfgDw t u g) 31 16 + m)) code u g h

/-- Operation dwords in use, with their indices in the list. -/
def listedOps (ops : List Dword) : List (Dword × Nat) := ops.zipIdx

def tileFindings (t : State) (h : Nat) (u : Site) : List Finding :=
  if !unitUsed t u then [] else
  let ops := listedOps (tileOps t u)
  let slots := slotsUsed t u
  let int := isInt t u
  let role (p : Nat) : Nat := portRole t u p
  let lims := tileLimits t u
  let chans := rowChannels t u
  genFindings t u 0x8301 19 0 7 10 1024 slots h ++ genFindings t u 0x8301 19 8 10 14 24576 slots h
    ++ genFindings t u 0x8301 19 16 13 (if int then 3 else 4) (if int then 8 else 16) slots h ++ genFindings t u 0x8301 19 24 16 13 12288 slots h
    ++ ops.flatMap (fun o => found ((opCode o.1 == 1 && role (aloadPort o.1) % 2 == 0) || (opCode o.1 == 4 && role (aloadPort o.1) / 2 == 0))
        0x8302 u (23 + o.2) h)
    ++ found (!int && (outlierOn t u || rerunOn t u)) 0x8303 u 4 h
    ++ ops.flatMap (fun o => found (opCode o.1 == 3 && !outlierOn t u) 0x8303 u (23 + o.2) h)
    ++ found (slots == 0 || decide (4 < slots) || role (framePort t u) % 2 == 0) 0x8304 u 20 h
    ++ found ops.isEmpty 0x8305 u 23 h
    ++ (if !int then [] else
        let seeds := cfgDw t u 22
        found (dbits seeds 14 7 == 0xFF || dbits seeds 30 23 == 0xFF) 0x8401 u 22 h
          ++ found (decide (8192 < slots * chans * histN t u)) 0x8402 u 21 h
          ++ ops.flatMap (fun o =>
              let cl := dbits o.1 9 8
              let times := ((List.range (opLevel o.1 + 1)).drop cl).foldl (fun n c => n * lims.getD c 1) 1
              found (rerunOn t u && opCode o.1 == 2 && decide (64 < times)) 0x8403 u (23 + o.2) h))

/-- Hoists that are not FREE, with the image and the section that each holds. -/
def heldSections (s : State) : List (Image × Nat) :=
  s.hal.hoists.filterMap (fun x => if x.state = .free then none else (x.image.bind (imageOf s)).map (fun i => (i, x.section_)))

/-- A weight scale entry with s_w NaN or infinite, or an outlier entry with a reserved bit (0x8405). -/
def scaleEntryBad (e : Nat) (w : Dword) : Bool := if e < 1024 then dbits w 30 23 == 0xFF else dbits w 30 12 != 0

/-- Outlier entries that name no channel of the row, or one that another valid entry names (0x8406). -/
def outliersBad (chans : Nat) (entries : List (Nat × Dword)) : List Nat :=
  let valid := entries.filter (fun e => decide (1024 ≤ e.1) && dbit e.2 31)
  (valid.filter (fun e => decide (chans ≤ dbits e.2 11 0) || valid.any (fun f => f.1 != e.1 && dbits f.2 11 0 == dbits e.2 11 0))).map Prod.fst

/-- The checks of R134, which are those of a used tile in an integer mode; entries of another tile that differ from a held section's fail R257. -/
def scaleFindings (s t : State) (i : Image) (k h : Nat) : List Finding :=
  let mine := (lget i.scales k []).reverse
  let others := (heldSections s).flatMap (fun x => lget x.1.scales x.2 [])
  let checked (u : Site) : Bool := unitUsed t u && isInt t u
  let clash := mine.flatMap (fun e => found (others.any (fun o => o.1 == e.1 && o.2 != e.2)) (if checked e.1.1 then 0x8404 else 0x8902) e.1.1
    (if checked e.1.1 then e.1.2 else k) h)
  let tiles := (dedup (mine.map (fun e => e.1.1))).filter checked
  clash ++ tiles.flatMap (fun u =>
    let es := (mine.filter (fun e => e.1.1 == u)).map (fun e => (e.1.2, e.2))
    es.flatMap (fun e => found (scaleEntryBad e.1 e.2) 0x8405 u e.1 h) ++ (outliersBad (rowChannels t u) es).map (fun n => (0x8406, u, n, h)))

/-! ### Vector and window tiles, glue (R165) -/

/-- Residues that base + Σ Ci × stride_i takes modulo m, for i up to the operation's level. -/
def residues (m : Nat) (strides lims : List Nat) : Nat → List Nat → List Nat
  | 0, l => l
  | n + 1, l =>
    let s := strides.getD (strides.length - (n + 1)) 0
    let c := min (lims.getD (strides.length - (n + 1)) 1) m
    residues m strides lims n (dedup (l.flatMap (fun a => (List.range c).map (fun j => (a + j * s) % m))))

/-- Entries that an operation of a vector tile writes, over every iteration and slot. -/
def vecTargets (t : State) (u : Site) (w : Dword) : List Nat :=
  let wl := wrapD t u
  let m : Nat := if wl = 0 then 1024 else 2 ^ wl
  let half (d : Dword) (hi : Bool) : Int := if hi then (BitVec.ofNat 16 (d.toNat / 2 ^ 16)).toInt else (BitVec.ofNat 16 d.toNat).toInt
  let strides := ((List.range 4).map (fun k => (half (cfgDw t u (18 + k / 2)) (k % 2 == 1) % (m : Int)).toNat)).take (opLevel w + 1)
  let start := dbits (cfgDw t u 17) 15 0 % m
  let here := residues m strides (vecLimits t u) strides.length [start]
  let beats := if opCode w = 1 then (if vopPack w then ceilDiv (vopCount w) 2 else vopCount w) else 1
  let all := dedup (here.flatMap (fun a => (List.range (min beats m)).map (fun j => (a + j) % m)))
  (List.range (vecSlotsUsed t u)).flatMap (fun n => all.map (fun a => n * dbits (cfgDw t u 17) 31 16 + a))

def vecFindings (t : State) (h : Nat) (u : Site) : List Finding :=
  if !unitUsed t u then [] else
  let ops := listedOps (vecOps t u)
  let slots := vecSlotsUsed t u
  let role (p : Nat) : Nat := portRole t u p
  let writes (w : Dword) : Bool := opCode w != 2 && (vecTargets t u w).any (fun e => decide (constBase t u ≤ e))
  genFindings t u 0x8501 20 0 11 10 1024 slots h ++ genFindings t u 0x8501 20 8 14 10 1024 slots h ++ genFindings t u 0x8501 20 16 17 10 1024 slots h
    ++ (if 10 < wrapD t u then [] else ops.flatMap (fun o => found (writes o.1) 0x8501 u (23 + o.2) h))
    ++ found (slots == 0 || decide (4 < slots) || role (vecFramePort t u) % 2 == 0) 0x8502 u 21 h
    ++ ops.flatMap (fun o => found ((opCode o.1 == 1 && role (vopPort o.1) % 2 == 0) || (opCode o.1 == 2 && role (vopPort o.1) / 2 == 0))
        0x8502 u (23 + o.2) h)
    ++ found ops.isEmpty 0x8502 u 23 h

/-- Detail word 0 of 0x8503 is the entry number, as a constant entry has no dword index: DESIGN CHOICE (notes/assumptions/75.md). -/
def constantFindings (s : State) (i : Image) (k h : Nat) : List Finding :=
  let others := (heldSections s).flatMap (fun x => lget x.1.constants x.2 [])
  (lget i.constants k []).reverse.flatMap (fun e => found (others.any (fun o => o.1 == e.1 && o.2 != e.2)) 0x8503 e.1.1 e.1.2 h)

def winFindings (t : State) (h : Nat) (u : Site) : List Finding :=
  if !unitUsed t u then [] else
  let c := winCfg t u
  let tall := decide (c.h + c.padT + c.padB < winKh c)
  let wide := decide (c.w + c.padL + c.padR < winKw c)
  let region := c.chans * c.rows * winBeats c
  found (c.slots == 0 || decide (4 < c.slots) || portRole t u c.inPort % 2 == 0 || (c.inter && c.op != 0)) 0x8504 u 4 h
    ++ found (tall || wide) 0x8504 u 5 h
    ++ found (decide (winKw c ≤ c.padL) || decide (winKw c ≤ c.padR)) 0x8504 u 7 h
    ++ found (decide (winKh c ≤ c.padT) || decide (winKh c ≤ c.padB)) 0x8504 u 8 h
    ++ found (decide (c.rows < winKh c)) 0x8505 u 6 h
    ++ found (decide (0 < c.slots) && decide (8192 < (c.slots - 1) * c.stride + region) || (decide (1 < c.slots) && decide (c.stride < region))) 0x8505 u 8 h

/-- Cells whose output an unregistered path of this cell depends on: cell inputs, and in a carry chain the cell before. -/
def cellInputs (cells : List (Nat × List Dword)) (w : List Dword) : List Nat :=
  let used : List Nat := if cellCarry w then (if cellChainStart w then [0, 1, 2, 3, 4, 5] else [0, 1, 2, 3, 4]) else [0, 1, 2, 3, 4, 5]
  (used.map (cellSource w)).filter (fun x => cells.any (fun c => c.1 == x && !cellRegistered c.2))

def cellChains (w : List Dword) (n : Nat) : Bool := cellCarry w && !cellChainStart w && n % 32 != 0

/-- Depths known: cell, depth of its function value, depth of its carry out. -/
def depthPass (cells : List (Nat × List Dword)) (known : List (Nat × Nat × Nat)) : List (Nat × Nat × Nat) :=
  cells.foldl (fun l c =>
    if l.any (fun e => e.1 == c.1) then l
    else
      let deps := (cellInputs cells c.2).map (fun x => (l.find? (fun e => e.1 == x)).map (fun e => e.2.1))
      let chain : Option Nat :=
        if cellChains c.2 c.1 ∧ cells.any (fun d => d.1 + 1 == c.1) then (l.find? (fun e => e.1 + 1 == c.1)).map (fun e => e.2.2) else some 0
      match chain, deps.all Option.isSome with
      | some q, true =>
        let own := deps.foldl (fun m d => max m (d.getD 0)) 0 + 1
        l ++ [(c.1, max own q, if cellCarry c.2 then max own q else own)]
      | _, _ => l) known

def depthLoop (cells : List (Nat × List Dword)) : Nat → List (Nat × Nat × Nat) → List (Nat × Nat × Nat)
  | 0, l => l
  | n + 1, l =>
    let l1 := depthPass cells l
    if l1.length = l.length then l1 else depthLoop cells n l1

/-- Cells that a cell depends on without a flip-flop between, among those without a depth. -/
def unsettled (cells : List (Nat × List Dword)) (depths : List (Nat × Nat × Nat)) : List (Nat × List Nat) :=
  (cells.filter (fun c => !depths.any (fun e => e.1 == c.1))).map (fun c =>
    (c.1, cellInputs cells c.2 ++ (if cellChains c.2 c.1 then [c.1 - 1] else [])))

/-- Cells reached from a list of cells in n steps. -/
def reached (deps : List (Nat × List Nat)) : Nat → List Nat → List Nat
  | 0, l => l
  | n + 1, l =>
    let l1 := dedup (l ++ (deps.filter (fun d => l.contains d.1)).flatMap Prod.snd)
    if l1.length = l.length then l1 else reached deps n l1

/-- Cells of a combinational loop. -/
def loopCells (deps : List (Nat × List Nat)) : List Nat :=
  (deps.filter (fun d => (reached deps deps.length d.2).contains d.1)).map Prod.fst

def glueFindings (t : State) (h : Nat) (u : Site) : List Finding :=
  if !unitUsed t u then [] else
  let cells := glueCells t u
  let depths := depthLoop cells (cells.length + 1) []
  let cell (n : Nat) : Site := siteWithSub u n
  (loopCells (unsettled cells depths)).map (fun n => (0x8506, cell n, 257 + 5 * n, h))
    ++ (depths.filter (fun e => decide (8 < e.2.1))).map (fun e => (0x8507, cell e.1, 257 + 5 * e.1, h))
    ++ (cells.filter (fun c => cellCarry c.2 && c.1 % 32 == 0 && !cellChainStart c.2)).map (fun c => (0x8508, cell c.1, 257 + 5 * c.1 + 2, h))
    ++ (List.range 64).flatMap (fun p =>
        found (dbits (portControl t u p 0) 31 28 == 0 && portControl t u p 1 != 0) 0x8508 u (65 + 3 * p + 1) h)

/-! ### Steering (R193) -/

def steerFindings (t : State) (i : Image) (h : Nat) (u : Site) : List Finding :=
  if !unitUsed t u then [] else
  let role (p : Nat) : Nat := portRole t u p
  let ports (bit : Nat) : List Nat := (List.range 8).filter (fun p => role p / 2 ^ bit % 2 == 1)
  let op := steerOp t u
  let ins := (ports 0).filter (fun p => !(op == 4 && p == pennantPort t u) && !(spillOn t u && p == spillInPort t u))
  let outs := (ports 1).filter (fun p => !(spillOn t u && p == spillOutPort t u))
  let between (a n b : Nat) : Bool := decide (a ≤ n) && decide (n ≤ b)
  let suits :=
    if op = 1 then ins.length == 1 && between 2 outs.length 7
    else if op = 4 then between 1 ins.length 7 && between 1 outs.length 7 && role (pennantPort t u) % 2 == 1
    else between 2 ins.length 7 && outs.length == 1
  let ds := skewDescs t u
  let clash (a b : SkewDesc) : Bool := a.idx != b.idx && decide (a.base < b.base + 2 ^ b.log2) && decide (b.base < a.base + 2 ^ a.log2)
  let streams := dedup (ds.map (·.stream))
  let fed (st p : Nat) : Bool := ds.any (fun d => d.stream == st && d.input == p)
  let firstOf (st : Nat) : Nat := match ds.find? (fun d => d.stream == st) with | some d => 11 + d.idx | none => 11
  let spread (st : Nat) : Bool :=
    if op = 2 then decide (1 < (ins.filter (fed st)).length)
    else if op = 0 ∨ op = 3 then ins.any (fun p => !fed st p)
    else false
  let ring := ringBase t u
  let ringOk := between 8 (ringLog2 t u) 24 && decide (i.elasticBase ≤ ring) && decide (ring + 64 * 2 ^ ringLog2 t u ≤ i.elasticBase + i.elasticSize)
  let queue := dbits (cfgDw t u 9) 19 11
  let meets := match (linkPaths t ⟨u, spillOutPort t u⟩).map (·.consumer) with
    | [e] => e == queueEnd queue
    | _ => false
  found (!suits) 0x8601 u 8 h
    ++ ds.flatMap (fun d => found (role d.input % 2 == 0 || d.base % 2 ^ d.log2 != 0 || ds.any (clash d)) 0x8602 u (11 + d.idx) h)
    ++ ds.flatMap (fun d => found (ds.any (fun e => decide (e.idx < d.idx) && e.input == d.input && e.stream == d.stream)) 0x8603 u (11 + d.idx) h)
    ++ streams.flatMap (fun st => found (spread st) 0x8604 u (firstOf st) h)
    ++ (if !spillOn t u then [] else
        found (role (spillOutPort t u) / 2 == 0 || role (spillInPort t u) % 2 == 0) 0x8605 u 9 h ++ found (!ringOk) 0x8605 u 10 h
          ++ found (!meets) 0x8606 u 9 h)

/-! ### Memory feed (R232) -/

def trialQueues (t : State) : List Nat := (List.range (8 * Config.memPorts)).filter (queueUsed t)

def imageCode (i : Image) (n : Nat) : List (List Dword) := amGetD i.programs n []

/-- Fetch ports of a tile: input ports that no ALOAD names. -/
def fetchPortOf (t : State) (u : Site) (p : Nat) : Bool :=
  portRole t u p % 2 == 1 && !(tileOps t u).any (fun w => opCode w == 1 && aloadPort w == p)

/-- The tile that a FEED queue names as its requester. -/
def queueRequester (t : State) (q : Nat) : Site := siteOf 0 (q / 64) (dbits (queueDw t q 2) 18 16) (dbits (queueDw t q 2) 21 19) 0

def queueFindings (t : State) (i : Image) (h q : Nat) : List Finding :=
  let u := queueSite q
  let a := queueLog2 t q
  let base := dbits (queueDw t q 1) 16 7
  let mode := queueMode t q
  let clash := (portQueues t (q / 8)).any (fun r => r != q && decide (dbits (queueDw t r 1) 16 7 < base + 2 ^ a)
    && decide (base < dbits (queueDw t r 1) 16 7 + 2 ^ queueLog2 t r))
  let outs := (linkPaths t (queueEnd q)).map (·.consumer)
  let fetched := outs.all (fun e => e.site == queueRequester t q && fetchPortOf t e.site e.port)
  found (decide (a < 2) || decide (9 < a) || base % 2 ^ a != 0 || clash) 0x8701 u 1 h
    ++ found (mode == 0 && !outs.isEmpty && !fetched) 0x8702 u 2 h
    ++ found ((mode != 2 && outs.isEmpty) || (decide (2 ≤ mode) && (linkProducer t (queueEnd q)).isNone)) 0x8703 u 0 h
    ++ found ((amGet i.programs (queueDesc t q)).isNone) 0x8703 u 3 h

def fetchFindings (t : State) (h : Nat) (u : Site) : List Finding :=
  if !unitUsed t u then [] else
  (listedOps (tileOps t u)).flatMap (fun o =>
    let q := fetchQueue o.1
    let count := dbits o.1 24 17 + 1
    found (opCode o.1 == 5 && (q / 64 != siteSector u || !queueUsed t q || queueMode t q != 0 || queueRequester t q != siteElem u
      || decide (2 ^ queueLog2 t q < count))) 0x8702 u o.2 h)

/-! ### Descriptor programs (R254) -/

/-- The first pass of a program: the first RUN that leaves its region, the FRAMEs passed, and the restart bit of the END reached. -/
structure FirstPass where
  bad : Option Nat := none
  frames : Nat := 0
  restart : Option Bool := none
  deriving DecidableEq, Repr

/-- Least and greatest address of a RUN. -/
def runExtent (base : Int) (dims : List (Nat × Int)) : Int × Int :=
  dims.foldl (fun e d =>
    let r : Int := ((d.1 - 1 : Nat) : Int) * d.2
    (e.1 + min 0 r, e.2 + max 0 r)) (base, base)

/-- Every address of a RUN from a base satisfies p. -/
def runAll (p : Int → Bool) (dims : List (Nat × Int)) : Int → Bool :=
  dims.foldr (fun d inner a => (List.range d.1).all (fun j => inner (a + (j : Int) * d.2))) p

/-- A pass of at most the fuel's steps; `regs` holds the region that each base register was last given, and `inside` judges a RUN by its region, its
base and its dimensions. -/
def firstPass (inside : Nat → Int → List (Nat × Int) → Bool) (code : List (List Dword)) : Nat → Generator → List (Option Nat) → FirstPass → FirstPass
  | 0, _, _, x => x
  | n + 1, g, regs, x =>
    let w := lget code g.pc []
    if w.isEmpty then x
    else
      match insOp w with
      | 0 => { x with restart := some (dbit (lget w 0 0) 8) }
      | 4 =>
        let dims := g.dims.take (dbits (lget w 0 0) 11 10 + 1)
        let good := runLength dims == 0 || (lget regs (insReg w) none).any (fun r => inside r (lget g.bases (insReg w) 0) dims)
        firstPass inside code n { g with pc := g.pc + 1 } regs { x with bad := if good then x.bad else x.bad.or (some g.pc) }
      | 7 => firstPass inside code n { g with pc := g.pc + 1 } regs { x with frames := x.frames + 1 }
      | op =>
        firstPass inside code n (genExec g w).1 (if op = 2 then regs.set (insReg w) (some (dbits (lget w 0 0) 13 12)) else regs) x

/-- Steps of the longest first pass: two loops of 2^20 over 16,384 instructions. -/
def passFuel : Nat := 2 ^ 54 + 1

/-- Every address of a RUN lies in its region. -/
def imageBounds (i : Image) (region : Nat) (base : Int) (dims : List (Nat × Int)) : Bool :=
  let e := runExtent base dims
  let between (lo size : Nat) : Bool := decide ((lo : Int) ≤ e.1) && decide (e.2 < ((lo + size : Nat) : Int))
  match region with
  | 0 => between i.imageBase i.imageSize
  | 1 => between i.spillBase i.spillSize
  | _ => false

/-- LOOPs with a target that is not below them, or inside the body of another LOOP on the same register. -/
def badLoops (code : List (List Dword)) : List Nat :=
  let loops := (code.zipIdx.filter (fun w => insOp w.1 == 6)).map (fun w => (w.2, dbits (lget w.1 0 0) 8 8, dbits (lget w.1 1 0) 13 0))
  (loops.filter (fun l => decide (l.1 ≤ l.2.2) || loops.any (fun m => decide (m.2.2 ≤ l.1) && decide (l.1 < m.1) && m.2.1 == l.2.1))).map Prod.fst

def passOf (i : Image) (code : List (List Dword)) : FirstPass :=
  firstPass (imageBounds i) code passFuel startedGen [none, none, none, none] {}

/-- A queue's program against the queue, under the site of the first queue that uses the program. -/
def programFindings (t : State) (i : Image) (h q : Nat) : List Finding :=
  let u := lowestSite (((trialQueues t).filter (fun r => queueDesc t r == queueDesc t q)).map queueSite)
  let code := imageCode i (queueDesc t q)
  if (amGet i.programs (queueDesc t q)).isNone then [] else
  let ins := code.zipIdx
  let mode := queueMode t q
  let head := lget code 0 []
  let compat := progCompat code
  let lost := !(code.drop 1).any (fun w => insOp w == 0)
  let loops := badLoops code
  let regionOk (r : Nat) : Bool := match mode with | 0 => r == 0 | 1 => decide (r ≤ 1) | 2 => r == 1 | _ => false
  let unaligned (w : List Dword) : Bool :=
    (insOp w == 2 && (!regionOk (dbits (lget w 0 0) 13 12) || (lget w 1 0).toNat % 64 != 0)) || (insOp w == 3 && (lget w 2 0).toNat % 64 != 0)
      || (insOp w == 5 && (lget w 1 0).toNat % 64 != 0)
  let stray := if lost || !loops.isEmpty then none else (passOf i code).bad
  (ins.filter (fun w => insBad w.1)).map (fun w => (0x8205, u, w.2, h))
    ++ found (insOp head != 1 || head.isEmpty) 0x8801 u 0 h
    ++ (ins.filter (fun w => insOp w.1 == 1 && w.2 != 0)).map (fun w => (0x8801, u, w.2, h))
    ++ found lost 0x8801 u (code.length - 1) h
    ++ found (dbits (lget head 0 0) 10 9 != mode || (mode == 3 && !(code.length == 2 && insOp (lget code 1 []) == 0))) 0x8802 u 0 h
    ++ (ins.filter (fun w => unaligned w.1)).map (fun w => (0x8803, u, w.2, h))
    ++ stray.toList.map (fun n => (0x8804, u, n, h))
    ++ loops.map (fun n => (0x8805, u, n, h))
    ++ found (compat && (queueRate t q == 0 || decide (2 ≤ mode))) 0x8806 u 0 h
    ++ (if compat then (ins.filter (fun w => insOp w.1 == 7)).map (fun w => (0x8806, u, w.2, h)) else [])
    ++ found (mode == 2 && (progTileLog2 code != 0 || progRunAhead code != 1)) 0x8807 u 0 h
    ++ found (mode == 0 && progRowBeats code != 1) 0x8807 u 0 h
    ++ (if mode = 0 then (ins.filter (fun w => insOp w.1 == 7)).map (fun w => (0x8807, u, w.2, h)) else [])

/-- Every read of a queue is one of a pinned range (R219): each line of its first pass. A SPILL queue reads none. -/
def pinnedOnly (t : State) (i : Image) (q : Nat) : Bool :=
  let code := imageCode i (queueDesc t q)
  let lost := !(code.drop 1).any (fun w => insOp w == 0)
  let pinned (a : Int) : Bool := i.pins.any (fun p => decide (((i.imageBase + p.1 : Nat) : Int) ≤ a) && decide (a < ((i.imageBase + p.1 + p.2 : Nat) : Int)))
  let inPins (region : Nat) (base : Int) (dims : List (Nat × Int)) : Bool := region == 0 && runAll pinned dims base
  decide (queueMode t q ≤ 1) && !lost && (badLoops code).isEmpty && !i.pins.isEmpty
    && (firstPass inPins code passFuel startedGen [none, none, none, none] {}).bad.isNone

/-! ### Pins and rates (R214, R219) -/

/-- Pinned ranges of the images in hoists that are not FREE and of this one, each once, in pin ways. -/
def pinWays (s : State) (i : Image) : Nat :=
  let ranges (x : Image) : List (Nat × Nat × Nat) := x.pins.map (fun p => (x.handle, p.1, p.2))
  ((dedup ((heldSections s).flatMap (fun x => ranges x.1) ++ ranges i)).map (fun p => ceilDiv p.2.2 Config.pinWay)).foldl (· + ·) 0

def pinFindings (s : State) (i : Image) (h : Nat) : List Finding :=
  (i.pins.zipIdx.filter (fun p => p.1.1 % Config.pinWay != 0 || p.1.2 % Config.pinWay != 0)).map (fun p => (0x8704, noSite, p.2, h))
    ++ found (decide (12 < pinWays s i)) 0x8704 noSite i.pins.length h

def rateFindings (t : State) (i : Image) (h : Nat) : List Finding :=
  let counted := (trialQueues t).filter (fun q => queueInterval t q != 0 && decide (dbits (queueDw t q 1) 24 23 ≤ 1) && !pinnedOnly t i q)
  let sum := (counted.map (fun q => ceilDiv 65536 (queueInterval t q))).foldl (· + ·) 0
  found (decide (Config.rateLimit < sum)) 0x8705 (lowestSite (counted.map queueSite)) 2 h

/-! ### Sections and span (R257, R282) -/

/-- Weight SRAM ranges of a section: its own and the image-wide ones, resident or fetched. -/
def weightsFor (i : Image) (k : Nat) : List (Nat × Site × Nat × Nat × Nat) := (i.weights ++ i.fetched).filter (fun w => w.1 == k || w.1 == 0xFF)

/-- A line of a range: 64 bytes of the image region. `region` gives the image's bytes. -/
def weightLine (region : Nat → Nat → List Byte) (w : Nat × Site × Nat × Nat × Nat) (beat : Nat) : List Byte :=
  region (w.2.2.2.1 + 64 * (beat - w.2.2.1)) 64

/-- Two ranges of one tile hold different data at some beat. -/
def weightsClash (ra rb : Nat → Nat → List Byte) (a b : Nat × Site × Nat × Nat × Nat) : Bool :=
  let lo := max a.2.2.1 b.2.2.1
  let hi := min (a.2.2.1 + a.2.2.2.2) (b.2.2.1 + b.2.2.2.2)
  a.2.1 == b.2.1 && (List.range' lo (hi - lo)).any (fun n => weightLine ra a n != weightLine rb b n)

def overlapFindings (s : State) (i : Image) (k h : Nat) (region : Nat → Nat → List Byte) : List Finding :=
  (weightsFor i k).flatMap (fun a =>
    found ((heldSections s).any (fun x =>
      (weightsFor x.1 x.2).any (fun b => weightsClash region (fun o n => memRead s.feed.lpddr (x.1.imageBase + o) n) a b))) 0x8902 a.2.1 k h)

/-- The checks of R282. The segments of a sub-port's link carry, in the wire-driver map, the link_id of the sub-port's word (R52). -/
def spanFindings (s t : State) (i : Image) (k h : Nat) : List Finding :=
  let subs := (trialUnits i k 8).flatMap (fun p => (List.range 4).flatMap (fun j =>
    let e : EndPoint := ⟨p.1, j⟩
    let listed (w : Dword) (x : LinkPath) : Bool :=
      x.segments.all (fun g => (lget i.drivers k []).all (fun d => d.1 != g || d.2.2 == dbits w 19 8))
    let inOk := match linkProducer t e with
      | some f => ((linkPaths t f).filter (fun x => x.consumer == e)).all (listed (lget p.2 j 0))
      | none => false
    let outOk := !(linkPaths t e).isEmpty && (linkPaths t e).all (listed (lget p.2 (4 + j) 0))
    found ((pwUsed (lget p.2 j 0) && !inOk) || (pwUsed (lget p.2 (4 + j) 0) && !outOk)) 0x8903 p.1 k h))
  let segments := (trialQueues t).flatMap (fun q =>
    let code := imageCode i (queueDesc t q)
    let buffer := i.sectioned && (queueMode t q == 1 || queueMode t q == 2) && code.any (fun w => insOp w == 2 && dbits (lget w 0 0) 13 12 == 1)
    let x := if (badLoops code).isEmpty then passOf i code else {}
    found (buffer && (x.frames != i.batch || x.restart != some false)) 0x8904 (queueSite q) k h)
  let using_ (p : Nat) : Bool := (spanOf s p).state != .closed && (spanOf s p).state != .down
  let keys := (List.range Config.spanPorts).flatMap (fun p =>
    found (i.spanMask != 0 && using_ p && (heldSections s).any (fun x => x.1.spanMask / 2 ^ p % 2 == 1 && x.1.spanKey != i.spanKey))
      0x8905 (spanSite p) k h)
  found (i.sectioned && (decide (i.sections < 2) || decide (64 < i.sections) || i.batch == 0 || decide (256 < i.batch))) 0x8901 noSite k h
    ++ subs ++ segments ++ keys

/-! ### Stage 6 -/

/-- The hoist that the records name: the one that stage 7 would take. -/
def lowestFree (s : State) : Option Nat := (List.range 4).find? (fun h => (hoistOf s h).state == .free)

def sectionFindings (s : State) (i : Image) (k : Nat) (region : Nat → Nat → List Byte) : List Finding :=
  let h := (lowestFree s).getD 0
  let t := trialState s i k h
  let units (kind : Nat) : List Site := (trialUnits i k kind).map Prod.fst
  let queues := trialQueues t
  fabricFindings t i k h ++ reservedFindings i k h
    ++ (units 0).flatMap (tileFindings t h) ++ scaleFindings s t i k h
    ++ (units 1).flatMap (vecFindings t h) ++ constantFindings s i k h ++ (units 2).flatMap (winFindings t h) ++ (units 4).flatMap (glueFindings t h)
    ++ (units 3).flatMap (steerFindings t i h)
    ++ queues.flatMap (queueFindings t i h) ++ (units 0).flatMap (fetchFindings t h) ++ pinFindings s i h ++ rateFindings t i h
    ++ queues.flatMap (programFindings t i h)
    ++ overlapFindings s i k h region ++ spanFindings s t i k h

/-- The finding to report: lowest check code, then lowest site word, then the first found. -/
def firstFinding (l : List Finding) : Option Finding :=
  l.foldl (fun m f => match m with
    | none => some f
    | some x => if f.1 < x.1 ∨ (f.1 = x.1 ∧ f.2.1 < x.2.1) then some f else m) none

def checkSection (s : State) (i : Image) (k : Nat) (region : Nat → Nat → List Byte) : Checked Unit :=
  match firstFinding (sectionFindings s i k region) with
  | some (code, u, d0, d1) => checkFails code u d0 d1
  | none => .ok ()

end Sys2Proof.Machine
end

