-- ==== Sys2Proof/Machine/ImageLoad.lean ====
section
/-! DEFINITION. IMAGE_LOAD in both forms and IMAGE_VERIFY (spec/10_compiler_contract.md R298 to R302, spec/09_sections_span.md R262,
spec/12_host_commands.md R353, spec/08_descriptors.md R234, R235, spec/04_quantization.md R135, spec/14_power_clocks.md R391). -/

namespace Sys2Proof.Machine

/-! ### Outcomes at take (R299, R353) -/

/-- A load that fails: one class 4 record, and nothing else changes. -/
def loadFails (s : State) (e : LoadFail) : Verdict :=
  .finish e.status e.code [] (faultAt s e.code 4 e.site none noFrame (dw e.d0) (dw e.d1) s.now)

def freeHandle (s : State) : Option Nat := (List.range' 1 8).find? (fun n => (imageOf s n).isNone)

/-- A network section's words use a sector that sleeps (R391). -/
def usesSleeping (s : State) (words : AMap Site (List Dword)) : Bool :=
  words.any (fun w => (sectorOf s (siteSector w.1)).state == .sleep && wordsUsed w)

/-! ### Descriptor store (R234, R235) -/

/-- Image program numbers that the queues of a section use, ascending. -/
def sectionPrograms (i : Image) (k : Nat) : List Nat :=
  sortBy id (dedup (((trialUnits i k 5).filter (fun p => dbit (lget p.2 1 0) 0)).map (fun p => dbits (lget p.2 3 0) 11 0)))

/-- The lowest directory entry not in use. -/
def freeDir (l : List StoredProgram) : Option Nat := (List.range 4096).find? (fun d => !l.any (fun p => p.dir == d))

/-- The lowest store place with room for n instructions: the start of the store, or behind a program. -/
def freeStore (l : List StoredProgram) (n : Nat) : Option Nat :=
  let fits (a : Nat) : Bool := decide (a + n ≤ 16384) && !l.any (fun p => decide (p.first < a + n) && decide (a < p.first + p.code.length))
  (sortBy id (0 :: l.map (fun p => p.first + p.code.length))).find? fits

/-- The store with a program of the image held for hoist h as well: shared with one of identical content, or written. -/
def storeProgram (i : Image) (h n : Nat) (l : List StoredProgram) : Option (List StoredProgram) :=
  let code := imageCode i n
  if l.any (fun p => p.code == code) then some (l.map (fun p => if p.code = code then { p with hoists := addNew p.hoists h } else p))
  else
    match freeDir l, freeStore l code.length with
    | some d, some a => some (l ++ [{ dir := d, first := a, code := code, hoists := [h], image := i.handle, number := n }])
    | _, _ => none

def storePrograms (i : Image) (h : Nat) : List Nat → List StoredProgram → Option (List StoredProgram)
  | [], l => some l
  | n :: rest, l => (storeProgram i h n l).bind (storePrograms i h rest)

/-- Directory entry of an image's program. -/
def dirOf (l : List StoredProgram) (code : List (List Dword)) : Nat := match l.find? (fun p => p.code == code) with | some p => p.dir | none => 0

/-- A slot's words with the directory entry of its program. -/
def patchIndex (i : Image) (l : List StoredProgram) (u : Site) (w : List Dword) : List Dword :=
  if siteKind u = 5 ∧ dbit (lget w 1 0) 0 then
    let d := lget w 3 0
    w.set 3 (dw (d.toNat / 4096 * 4096 + dirOf l (imageCode i (dbits d 11 0))))
  else w

/-! ### Stage 7 -/

/-- A tile that the section's scale table writes has a bank in NEXT or RETIRED. -/
def scalesBusy (s : State) (i : Image) (k : Nat) : Bool :=
  (lget i.scales k []).any (fun e => (tileOf s e.1.1).bank0.state == .next || (tileOf s e.1.1).bank0.state == .retired
    || (tileOf s e.1.1).bank1.state == .next || (tileOf s e.1.1).bank1.state == .retired)

/-- The hoist to write, when there is one, with store space and scale banks. -/
def stage7 (s : State) (i : Image) (k : Nat) : Option Nat :=
  match lowestFree s with
  | none => none
  | some h => if (storePrograms i h (sectionPrograms i k) s.feed.programs).isSome && !scalesBusy s i k then some h else none

/-- The lines that the section form reads (R263): the section's configuration, scale and constant entries, and its resident weights. -/
def sectionRanges (i : Image) (k : Nat) : List (Nat × Nat) :=
  chunkRanges i k [1, 4, 5] ++ (i.weights.filter (fun w => w.1 == k)).map (fun w => (i.imageBase + w.2.2.2.1, 64 * w.2.2.2.2))

/-- The hoist is LOADING, and the load is under way. -/
def startLoad (s : State) (i : Image) (k h : Nat) (form : Bool) : Verdict :=
  let s1 := moveHoist s h .loading
  let s2 := setHoist s1 h { hoistOf s1 h with image := some i.handle, section_ := k }
  let s3 := { s2 with hal := { s2.hal with load := some { verify := false, sectionForm := form, image := i, section_ := k, hoist := h } } }
  .pend .imageLoad (if form then addJobs s3 .load false (sectionRanges i k) else s3)

/-! ### The commands -/

def imageArgsOk (p : Packet) : Bool :=
  pktOnly p [(2, 0x3FFF03), (3, 0xFFFFFFFF), (4, 0xFFFFFFFF), (5, 0xFFFFFFFF), (6, 0xFFFFFFFF)] && pktQ p 3 % 64 == 0

/-- The file goes into its region; its lines there are no longer poisoned; the image is known under its handle. -/
def acceptFile (s : State) (b : List Byte) (h : ImgHead) (x : ImgBody) (place : Placing) (i : Image) (hoist : Nat) : Verdict :=
  let s0 := lpddrPut s place.image (patchedFile (b.take h.length) x place)
  let s1 := { s0 with
    feed := { s0.feed with reported := s0.feed.reported.filter (fun a => !within place.image (imageSpan h) a) }
    hal := { s0.hal with images := s0.hal.images ++ [i] } }
  startLoad s1 i 0 hoist false

/-- Entries of the chunk list of a file of a length: the host address of each 65,536 bytes (R351). -/
def chunkList (len : Nat) (b : List Byte) : List Nat := (List.range (ceilDiv len 65536)).map (fun k => leAt b (8 * k) 8)

/-- The bytes of the file that a packet names, contiguous or by a chunk list (R351): a failed read ends the command (R356), and so does a chunk that is
not aligned. -/
def withFile (s : State) (c : HostCmd) (p : Packet) (file : HostFile) (f : List Byte → Verdict) : Verdict :=
  let addr := pktQ p 3
  let len := pktQ p 5
  let read (at_ : Nat → Nat) : Verdict := match hostRead s file.bytes with | none => hostAccessFailed s c len at_ | some b => f b
  if dbit (pktDw p 2) 1 then
    match hostRead s file.list with
    | none => hostAccessFailed s c (8 * ceilDiv len 65536) (fun o => addr + o)
    | some b =>
      let l := chunkList len b
      if l.any (fun a => a % 4096 != 0) then refuse s stBadParam else read (fun o => lget l (o / 65536) 0 + o % 65536)
  else read (fun o => addr + o)

/-- Stages 1 to 7 of the full form. -/
def imageLoad (c : HostCmd) (file : HostFile) (s : State) (p : Packet) : Verdict :=
  if !imageArgsOk p then refuse s stBadParam
  else if s.hal.load.isSome then refuse s stBusy
  else if 64 ≤ s.hif.pendings.length then refuse s stQueueFull
  else
    withFile s c p file fun b =>
      let h := headOfFile b (pktQ p 5)
      match checkHeader b h with
      | .error e => loadFails s e
      | .ok _ =>
        match freeHandle s, placeImage (regionsInUse s) h with
        | some n, some place =>
          match readImage s.sec b h with
          | .error e => loadFails s e
          | .ok (x, pad) =>
            let i := buildImage b h x pad n place
            if i.config.any (usesSleeping s) then refuse s stBusy
            else
              match checkSection s i 0 (fun o k => (b.drop o).take k) with
              | .error e => loadFails s e
              | .ok _ =>
                match stage7 s i 0 with
                | none => refuse s stBusy
                | some hoist =>
                  acceptFile s b h x place i hoist
        | _, _ => refuse s stBusy

def execImageLoad (c : HostCmd) (file : HostFile) (s : State) : Host.Outcome State Fault Refusal :=
  takeCmd s c 0x10 0 (imageLoad c file)

/-- Stages 6 and 7 of the section form. -/
def imageLoadSection (s : State) (p : Packet) : Verdict :=
  let k := dbits (pktDw p 2) 21 16
  if !imageArgsOk p || pktQ p 3 != 0 then refuse s stBadParam
  else
    match imageOf s (dbits (pktDw p 2) 15 8) with
    | none => refuse s stBadParam
    | some i =>
      if s.hal.load.isSome then refuse s stBusy
      else if 64 ≤ s.hif.pendings.length then refuse s stQueueFull
      else if !imageKeyGood s.sec i.keyId then loadFails s { status := stSignatureFail, code := 0x8103 }
      else if i.sections ≤ k then loadFails s { status := stImageCheckFail, code := 0x8901, d0 := k, d1 := (lowestFree s).getD 0 }
      else if usesSleeping s (lget i.config k []) then refuse s stBusy
      else
        match checkSection s i k (fun o n => memRead s.feed.lpddr (i.imageBase + o) n) with
        | .error e => loadFails s e
        | .ok _ => match stage7 s i k with | none => refuse s stBusy | some hoist => startLoad s i k hoist true

def execImageLoadSection (c : HostCmd) (s : State) : Host.Outcome State Fault Refusal :=
  takeCmd s c 0x10 1 imageLoadSection

/-- Stages 1 to 6 of a verify, on a file placed nowhere. -/
def verifyImage (s : State) (b : List Byte) (h : ImgHead) : Option (Option LoadFail) :=
  match checkHeader b h with
  | .error e => some (some e)
  | .ok _ =>
    match readImage s.sec b h with
    | .error e => some (some e)
    | .ok (x, pad) =>
      let i := buildImage b h x pad 0 ⟨0, 0, 0, 0⟩
      if i.config.any (usesSleeping s) then none
      else match checkSection s i 0 (fun o k => (b.drop o).take k) with
        | .error e => some (some e)
        | .ok _ => some none

def imageVerify (c : HostCmd) (file : HostFile) (s : State) (p : Packet) : Verdict :=
  if !imageArgsOk p || dbit (pktDw p 2) 0 then refuse s stBadParam
  else if s.hal.load.isSome then refuse s stBusy
  else if 64 ≤ s.hif.pendings.length then refuse s stQueueFull
  else
    withFile s c p file fun b =>
      let h := headOfFile b (pktQ p 5)
      match verifyImage s b h with
      | none => refuse s stBusy
      | some f =>
        let i := buildImage b h {} 0 0 ⟨0, 0, 0, 0⟩
        .pend .imageVerify { s with hal := { s.hal with load := some { verify := true, sectionForm := false, image := i, section_ := 0, hoist := 0, fail := f } } }

def execImageVerify (c : HostCmd) (file : HostFile) (s : State) : Host.Outcome State Fault Refusal :=
  takeCmd s c 0x11 0 (imageVerify c file)

/-- The verify ends: the record of the check that failed, and the completion. -/
def execImageVerifyDone (s : State) : Host.Outcome State Fault Refusal :=
  match s.hal.load with
  | some j =>
    if !j.verify then done s
    else
      let s1 := { s with hal := { s.hal with load := none } }
      match j.fail with
      | none => done (finishFirst s1 (fun k => k == .imageVerify) stOK 0 s.now)
      | some e =>
        let s2 := faultAt s1 e.code 4 e.site none noFrame (dw e.d0) (dw e.d1) s.now
        done (finishFirst s2 (fun k => k == .imageVerify) e.status (dw e.code) s.now)
  | none => done s

/-! ### Stage 8 -/

def writeMirror (s : State) (i : Image) : State :=
  if i.mirrored then
    let s1 := lpddrPut s i.mirrorBase (memRead s.feed.lpddr i.imageBase i.imageSize)
    { s1 with feed := { s1.feed with mirrorOffset := i.mirrorBase - i.imageBase } }
  else s

/-- A pinned range of hoist h: its lines stand in the cache and are never evicted; other lines of the sets that no longer fit go. -/
def pinRange (s : State) (h base size : Nat) : State :=
  let held := s.feed.pins.any (fun p => p.1 == base && p.2.1 == size)
  let pins := if held then s.feed.pins.map (fun p => if p.1 = base ∧ p.2.1 = size then (p.1, p.2.1, addNew p.2.2 h) else p)
    else s.feed.pins ++ [(base, size, [h])]
  let mine := (List.range (size / 64)).map (fun k => ({ line := base / 64 + k, pinned := true } : CacheLine))
  let others := s.feed.cache.filter (fun c => !(decide (base / 64 ≤ c.line) && decide (c.line < base / 64 + size / 64)))
  let ways := 16 - ((pins.map (fun p => p.2.1 / Config.pinWay)).foldl (· + ·) 0)
  let fits (c : CacheLine) : Bool :=
    c.pinned || decide ((others.filter (fun d => !d.pinned && cacheSet d.line == cacheSet c.line && decide (c.used < d.used))).length < ways)
  { s with feed := { s.feed with pins := pins, cache := if held then s.feed.cache else mine ++ others.filter fits } }

def writePins (s : State) (i : Image) (h : Nat) : State := i.pins.foldl (fun x p => pinRange x h (i.imageBase + p.1) p.2) s

/-- Resident weights of records whose network section is in `nets` (R288). -/
def writeWeights (s : State) (i : Image) (nets : List Nat) : State :=
  (i.weights.filter (fun w => nets.contains w.1)).foldl (fun x w =>
    let t := tileOf x w.2.1
    let y := setTile x w.2.1 { t with weights := memPut t.weights (64 * w.2.2.1) (jobBytes x (i.imageBase + w.2.2.2.1) (64 * w.2.2.2.2))
                                      passWrites := t.passWrites ++ [(w.2.2.1, w.2.2.2.2)] }
    { y with fresh := y.fresh + 64 * w.2.2.2.2 }) s

/-- Scale entries into both banks (R135). -/
def writeScales (s : State) (i : Image) (k : Nat) : State :=
  (lget i.scales k []).foldl (fun x e =>
    let t := tileOf x e.1.1
    setTile x e.1.1 { t with bank0 := { t.bank0 with entries := amSet t.bank0.entries e.1.2 e.2 }
                             bank1 := { t.bank1 with entries := amSet t.bank1.entries e.1.2 e.2 } }) s

def writeConstants (s : State) (i : Image) (k : Nat) : State :=
  (lget i.constants k []).foldl (fun x e =>
    let t := vtileOf x e.1.1
    setVtile x e.1.1 { t with scratch := amSet t.scratch e.1.2 e.2 }) s

/-- Descriptor programs, the hoist's words and pad; the directory entries also in the copy in the image region, and in
that of the mirror (R201). -/
def writeConfig (s : State) (i : Image) (k h : Nat) : State :=
  let l := (storePrograms i h (sectionPrograms i k) s.feed.programs).getD s.feed.programs
  let words := (lget i.config k []).map (fun p => (p.1, patchIndex i l p.1 p.2))
  let put (x : State) (a : Nat) (w : List Dword) : State :=
    if (channelOf x (channelOfDpa a)).state = .lost then x
    else { x with feed := { x.feed with lpddr := memWrite x.feed.lpddr a (dwBytes (lget w 3 0)) } }
  let s0 := (i.indexAt.filter (fun r => r.1 == k)).foldl (fun x r =>
    let w := amGetD words r.2.1 []
    if dbit (lget w 1 0) 0 then
      (if i.mirrored then put (put x (i.imageBase + r.2.2) w) (i.mirrorBase + r.2.2) w else put x (i.imageBase + r.2.2) w)
    else x) s
  let s1 := setHoist s0 h { hoistOf s0 h with image := some i.handle, section_ := k, words := words, pad := i.pad, damaged := [] }
  { s1 with feed := { s1.feed with programs := l } }

/-- Stage 8 is complete, every line of a section form read: the hoist is LOADED. -/
def execImageLoadDone (s : State) : Host.Outcome State Fault Refusal :=
  match s.hal.load with
  | some j =>
    if j.verify || jobPending s .load then done s
    else
      let i := j.image
      let k := j.section_
      let s1 := writeConfig s i k j.hoist
      let s2 := if j.sectionForm then s1 else writeMirror s1 i
      let s3 := writeWeights (writePins s2 i j.hoist) i (if j.sectionForm then [k] else [k, 0xFF])
      let s4 := writeConstants (writeScales s3 i k) i k
      let images := s4.hal.images.filter (fun x => decide (x.handle ≠ i.handle)) ++ s4.hal.images.filter (fun x => decide (x.handle = i.handle))
      let s5 := moveHoist { s4 with hal := { s4.hal with load := none, lastImage := some i.handle, images := images } } j.hoist .loaded
      done (finishFirst s5 (fun p => p == .imageLoad) stOK (dw (j.hoist + i.handle * 256)) s.now)
  | none => done s

end Sys2Proof.Machine
end

