-- ==== Sys2Proof/Machine/Power.lean ====
section
/-! DEFINITION. Operating points, sleep and wake, thermal and power limits, the power stage and its PMBus side (spec/14_power_clocks_start.md
R376 to R400, spec/18_electrical_package.md R485). -/

namespace Sys2Proof.Machine

/-! ### Operating points (R383, R384) -/

/-- The target divider: the slower of the requested divider and the floor. -/
def targetOf (x : Sector) : Nat := max x.requested (sectorFloor x)

/-- VDD_Sk moves from where it stands to a set point, at 1 mV/µs, from fc `at_` on (R384). -/
def slewTo (x : Sector) (at_ : Fc) (goal : Nat) : Sector := { x with vdd := vddNow x at_, vddAt := at_, vddGoal := goal }

/-- The fc in which VDD_Sk reaches the set point that it slews to, if nothing else happens. -/
def slewEnd (x : Sector) : Fc := x.vddAt + (x.vddGoal - x.vdd) + (x.vdd - x.vddGoal)

/-- The 5 µs for which VDD_Sk settles after it has been raised. -/
def settleFc : Fc := 5 * Config.us

/-- A new requested divider or floor meets the states of R384. A target that changes again while a switch of STEADY waits for its switch point is
met as in STEADY; one that goes back to the actual divider lowers VDD_Sk again (DEDUCED, notes/assumptions/78.md). -/
def retargeted (x : Sector) (now : Fc) : Sector :=
  let t := targetOf x
  let lower (dest : Option Nat) : Sector := { x with op := .lowering, switchTo := dest, decidedAt := now }
  let raise : Sector := { slewTo x now (vddPoint t) with op := .raising, switchTo := none, decidedAt := now }
  match x.op with
  | .steady =>
    if x.switchTo = some t then x
    else if t < x.actual then raise
    else if x.actual < t then lower (some t)
    else if x.switchTo.isSome then slewTo (lower none) now (vddPoint x.actual)
    else x
  | .raising =>
    if t < x.actual then (if vddPoint t = x.vddGoal then x else slewTo x now (vddPoint t))
    else slewTo (lower (if x.actual < t then some t else none)) now (vddPoint x.actual)
  | .lowering =>
    if t < x.actual then raise
    else if x.actual < t then (if x.switchTo.isSome then { x with switchTo := some t } else lower (some t))
    else { x with switchTo := none }

/-- Sectors of a mask. -/
def maskSectors (m : Nat) : List Nat := (List.range 8).filter (fun k => m.testBit k)

/-- Bit k: the floor holds sector k slower than requested. -/
def heldSlower (s : State) (m : Nat) : Nat :=
  ((maskSectors m).map (fun k => if (sectorOf s k).requested < sectorFloor (sectorOf s k) then 2 ^ k else 0)).foldl (· + ·) 0

def atTarget (s : State) (k : Nat) : Bool :=
  let x := sectorOf s k
  x.op == .steady && x.actual == targetOf x

/-- POWER_SET ops 0, 3 and 4 complete once every sector named is where they ask (R395). -/
def powerPends (s : State) : State :=
  s.hif.pendings.foldl (fun st c =>
    match c.kind with
    | .powerOp m => if (maskSectors m).all (atTarget st) then finishPend st c stOK (dw (heldSlower st m)) st.now [] else st
    | .powerSleep m => if (maskSectors m).all (fun k => (sectorOf st k).state == .sleep) then finishPend st c stOK 0 st.now [] else st
    | .powerWake m => if (maskSectors m).all (fun k => (sectorOf st k).state == .active) then finishPend st c stOK 0 st.now [] else st
    | _ => st) s

/-- A sector's requested divider or floor has changed, for a cause of event 0x0031. -/
def retarget (s : State) (k cause : Nat) : State :=
  let x := sectorOf s k
  let y := retargeted x s.now
  setSector s k { y with nextCause := if targetOf x = x.actual then x.nextCause else cause }

/-- Operations in flight complete in ac of whichever clock is running (R385): what is left of an RCLK cycle behind the switch point, in RCLK cycle t8,
takes the new divider in place of the old. -/
def rescale (t8 old new c : Nat) : Nat := if c ≤ t8 then c else t8 + ceilDiv ((c - t8) * new) old

def rescaleTile (f : Nat → Nat) (t : MatrixTile) : MatrixTile :=
  { t with arrayUntil := f t.arrayUntil, sideUntil := f t.sideUntil, nextIssue := f t.nextIssue
           writeBuf := t.writeBuf.map (fun w => { w with due := f w.due }), reads := amMap t.reads (fun _ c => f c)
           sets := amMap t.sets (fun _ a => { a with writtenBack := f a.writtenBack, nextFire := f a.nextFire }) }

def rescaleVtile (f : Nat → Nat) (t : VectorTile) : VectorTile :=
  { t with nextIssue := f t.nextIssue, ready := amMap t.ready (fun _ c => f c), laneUntil := f t.laneUntil, tableUntil := f t.tableUntil }

/-- The tiles of a sector as its divider changes at fc t. -/
def rescaled (s : State) (sector : Nat) (t : Fc) (old new : Nat) : State :=
  { s with
    tiles := amMap s.tiles (fun u x => if siteSector u = sector then rescaleTile (rescale (8 * t) old new) x else x)
    vtiles := amMap s.vtiles (fun u x => if siteSector u = sector then rescaleVtile (rescale (8 * t) old new) x else x) }

/-- At a switch point the multiplexer changes to the target (R384): the first multiple of 15 after the decision. -/
def execDividerSwitchPoint (sector : Nat) (s : State) : Host.Outcome State Fault Refusal :=
  let x := sectorOf s sector
  match x.switchTo with
  | none => done s
  | some d =>
    let t := (x.decidedAt / 15 + 1) * 15
    if !reaches s t then done s else
    let s1 := advance s t
    let y := { x with actual := d, switchTo := none, cause := x.nextCause }
    let s2 := setSector (rescaled s1 sector t (dividerOf x.actual) (dividerOf d)) sector (if x.op = .lowering then slewTo y t (vddPoint d) else y)
    let s3 := postDev s2 0x17 0x0031 noSite t (sector + d * 2 ^ 4 + x.nextCause * 2 ^ 8)
    let s4 := if x.op = .steady then setSector s3 sector (retargeted (sectorOf s3 sector) s3.now) else s3
    done (powerPends s4)

/-- The fc in which the slew under way is done: VDD_Sk at its set point and, when raising, settled. -/
def slewDone (x : Sector) : Fc := slewEnd x + (if x.op = .raising then settleFc else 0)

/-- VDD_Sk reaches its set point and, when raising, has settled. -/
def execVddSlewDone (sector : Nat) (s : State) : Host.Outcome State Fault Refusal :=
  let x := sectorOf s sector
  if x.op = .steady ∨ (x.op = .lowering ∧ x.switchTo.isSome) ∨ !reaches s (slewDone x) then done s else
  let s1 := advance s (slewDone x)
  if x.op = .raising then done (setSector s1 sector { x with op := .steady, switchTo := some (targetOf x), decidedAt := slewDone x })
  else done (powerPends (setSector s1 sector (retargeted { x with op := .steady } s1.now)))

/-! ### POWER_SET (R395, R396) -/

/-- A sector named is absent. -/
def sectorsAbsent (m : Nat) : Bool := (maskSectors m).any (fun k => Config.sectors ≤ k)

/-- An earlier op 0, 3 or 4 is pending for a sector named. -/
def powerBusy (s : State) (m : Nat) : Bool :=
  isPending s (fun k => match k with | .powerOp n => m &&& n != 0 | .powerSleep n => m &&& n != 0 | .powerWake n => m &&& n != 0 | _ => false)

/-- Op 0, and ops 6 and 7, which are BAD_PARAM. -/
def execPowerSetOperatingPoint (c : HostCmd) (s : State) : Host.Outcome State Fault Refusal :=
  takeCmd s c 0x60 0 fun s p =>
    let m := dbits (pktDw p 3) 7 0
    if dbits (pktDw p 2) 2 0 ≠ 0 then refuse s stBadParam
    else if sectorsAbsent m then refuse s stNotPresent
    else if !pktOnly p [(2, 7), (3, 0x3FF)] ∨ m = 0 then refuse s stBadParam
    else if (maskSectors m).any (fun k => (sectorOf s k).state == .sleep) then refuse s stDenied
    else if powerBusy s m then refuse s stBusy
    else
      let d := dbits (pktDw p 3) 9 8
      let s1 := (maskSectors m).foldl (fun st k => retarget (setSector st k { sectorOf st k with requested := d }) k 0) s
      if (maskSectors m).all (atTarget s1) then okAt s1 (heldSlower s1 m) else .pend (.powerOp m) s1

def execPowerSetCap (c : HostCmd) (s : State) : Host.Outcome State Fault Refusal :=
  takeCmd s c 0x60 1 fun s p =>
    let v := dbits (pktDw p 3) 9 0
    if !pktOnly p [(2, 7), (3, 0x3FF)] ∨ v < 100 ∨ 560 < v then refuse s stBadParam
    else okAt { s with power := { s.power with cap := v } }

def execPowerSetThermal (c : HostCmd) (s : State) : Host.Outcome State Fault Refusal :=
  takeCmd s c 0x60 2 fun s p =>
    let t := dbits (pktDw p 3) 7 0
    let h := dbits (pktDw p 3) 11 8
    if !pktOnly p [(2, 7), (3, 0xFFF)] ∨ t < 70 ∨ 105 < t ∨ h < 2 ∨ 15 < h then refuse s stBadParam
    else okAt { s with power := { s.power with threshold := t, hysteresis := h } }

/-- A hoist that is not FREE uses the sector (R391): by the words it holds, or by those it is being loaded with. -/
def hoistUses (s : State) (sector : Nat) : Bool :=
  s.hal.hoists.any (fun h => h.state != .free && h.words.any (fun w => usesSector w sector))
    || (match s.hal.load with | some j => !j.verify && (lget j.image.config j.section_ []).any (fun w => usesSector w sector) | none => false)

def execPowerSetSleep (c : HostCmd) (s : State) : Host.Outcome State Fault Refusal :=
  takeCmd s c 0x60 3 fun s p =>
    let m := dbits (pktDw p 3) 7 0
    if sectorsAbsent m then refuse s stNotPresent
    else if !pktOnly p [(2, 7), (3, 0xFF)] ∨ m = 0 then refuse s stBadParam
    else if (maskSectors m).any (hoistUses s) then refuse s stDenied
    else if powerBusy s m then refuse s stBusy
    else
      let s1 := (maskSectors m).foldl (fun st k =>
        if (sectorOf st k).state = .active then
          postDev (setSector st k { sectorOf st k with state := .sleep, groups := 0 }) 0x17 0x0034 noSite st.now (k + 3 * 2 ^ 4)
        else st) s
      if (maskSectors m).all (fun k => (sectorOf s1 k).state == .sleep) then okAt s1 else .pend (.powerSleep m) s1

def execPowerSetWake (c : HostCmd) (s : State) : Host.Outcome State Fault Refusal :=
  takeCmd s c 0x60 4 fun s p =>
    let m := dbits (pktDw p 3) 7 0
    if sectorsAbsent m then refuse s stNotPresent
    else if !pktOnly p [(2, 7), (3, 0xFF)] ∨ m = 0 then refuse s stBadParam
    else if powerBusy s m then refuse s stBusy
    else
      let s1 := (maskSectors m).foldl (fun st k =>
        if (sectorOf st k).state = .sleep then setSector st k { sectorOf st k with state := .waking, groups := 0, fromSleep := true, wokeAt := st.now } else st) s
      if (maskSectors m).all (fun k => (sectorOf s1 k).state == .active) then okAt s1 else .pend (.powerWake m) s1

def execPowerSetReset (c : HostCmd) (s : State) : Host.Outcome State Fault Refusal :=
  takeCmd s c 0x60 5 fun s p =>
    if !pktOnly p [(2, 7)] then refuse s stBadParam
    else okAt (askReset s)

/-! ### Waking (R389, R391) -/

/-- Groups of a sector. -/
def wakeGroups : Nat := 11

/-- The fc between the groups of a sector, and between the first groups of sectors (R389). -/
def groupFc : Fc := 13000
def sectorFc : Fc := 260000

/-- The group of its sector in which a unit wakes: a row of matrix tiles with the boxes and steering units of its intersections, the vector tiles of a
row, and last the window tiles, the glue block and the memory ports. -/
def wakeGroupOf (u : Site) : Nat :=
  match siteKind u with
  | 1 => 8 + siteY u
  | 2 | 4 | 5 => 10
  | _ => siteY u % 8

/-- The SRAM of the units of a group is written to zero as it wakes from OFF (R389): the units are as after reset, their place in R111 apart. -/
def wipeGroup (s : State) (sector g : Nat) : State :=
  let mine (u : Site) : Bool := siteSector u == sector && wakeGroupOf u == g
  { s with
    tiles := amMap s.tiles (fun u t => if mine u then { ctl := t.ctl } else t)
    vtiles := amMap s.vtiles (fun u t => if mine u then { ctl := t.ctl } else t)
    wtiles := amMap s.wtiles (fun u t => if mine u then { ctl := t.ctl } else t)
    glue := amMap s.glue (fun u t => if mine u then { ctl := t.ctl } else t)
    steer := amMap s.steer (fun u t => if mine u then { ctl := t.ctl } else t)
    feed := { s.feed with queues := s.feed.queues.filter (fun q => !mine (portSite (q.1 / 8) 0)) } }

/-- The scrubbers of a sector that wakes from SLEEP check every word again (R391). -/
def scrubAfresh (s : State) (sector : Nat) : State :=
  { s with tiles := amMap s.tiles (fun u t => if siteSector u = sector then { t with passWrites := [], scrubWord := 0 } else t) }

/-- The fc in which the first group of a sector wakes: from OFF, 200 µs after that of the sector before it. -/
def wakeStart (s : State) (sector : Nat) : Fc :=
  let x := sectorOf s sector
  if x.state = .off then s.power.wakeFrom + sectorFc * sector else x.wokeAt

/-- The next group of a sector wakes: from OFF in phase 2, in numerical order of sectors; from SLEEP after POWER_SET op 4. -/
def execSectorWakeGroup (sector : Nat) (s : State) : Host.Outcome State Fault Refusal :=
  let x := sectorOf s sector
  let starting := x.state == .off && s.power.phasesEnded == 2 && (s.power.sectors.take sector).all (fun y => y.state == .active)
  if Config.sectors ≤ sector ∨ !(x.state == .waking || starting) then done s else
  let g := if x.state = .off then 0 else x.groups
  let t := wakeStart s sector + groupFc * g
  if !reaches s t then done s else
  let s1 := advance s t
  let s2 := if x.fromSleep then s1 else wipeGroup s1 sector g
  let y := { x with groups := g + 1, wokeAt := wakeStart s sector }
  if g + 1 < wakeGroups then done (setSector s2 sector { y with state := .waking })
  else
    let s3 := setSector (if x.fromSleep then scrubAfresh s2 sector else s2) sector { y with state := .active, fromSleep := false }
    done (powerPends (postDev s3 0x17 0x0034 noSite s3.now (sector + 2 * 2 ^ 4)))

/-! ### Thermal throttling (R387, R392, R394) -/

/-- 1 ms and 10 ms in fc. -/
def oneMs : Fc := 1000 * Config.us
def tenMs : Fc := 10000 * Config.us

def since (limit : Fc) (start : Option Fc) (now : Fc) : Bool := match start with | some t => decide (t + limit ≤ now) | none => false

/-- A limiter may move the floor again: never yet, or 1 ms ago at least. -/
def mayStep (last : Option Fc) (now : Fc) : Bool := match last with | some t => decide (t + oneMs ≤ now) | none => true

def countStep (s : State) : State := { s with power := { s.power with floorSteps := sat 0xFFFFFFFF (s.power.floorSteps + 1) } }

/-- A step of a sector's floor by causes 1, 2, 5 or 6, for which the floor moves at most once per 1 ms (R387, R392; that R393 keeps its own count is
DEDUCED, notes/assumptions/78.md). -/
def floorStep (s : State) (k cause : Nat) (x : Sector) : State :=
  retarget (countStep (setSector s k { x with floorMovedAt := some s.now })) k cause

/-- A sector's own temperature meets R392. -/
def thermalStep (s : State) (k : Nat) (temp : Int) : State :=
  let x := sectorOf s k
  let thr : Int := s.power.threshold * 16
  let cool : Int := thr - s.power.hysteresis * 16
  let hot := thr ≤ temp
  let x1 := { x with hotSamples := if hot then x.hotSamples + 1 else 0,
                     coolSince := if temp ≤ cool then some (x.coolSince.getD s.now) else none }
  if x.state ≠ .active then setSector s k { x1 with hotSamples := 0, coolSince := none }
  else if 2 ≤ x1.hotSamples ∧ sectorFloor x < 3 ∧ mayStep x.floorMovedAt s.now then
    floorStep s k 1 { x1 with floorThermal := sectorFloor x + 1 }
  else if 0 < x.floorThermal ∧ since tenMs x1.coolSince s.now ∧ mayStep x.floorMovedAt s.now then
    floorStep s k 2 { x1 with floorThermal := x.floorThermal - 1, coolSince := some s.now }
  else setSector s k x1

/-- Neighbours of a sector across package-internal boundaries (R26). -/
def neighboursOf (k : Nat) : List Nat :=
  [sectorStep k false true, sectorStep k false false, sectorStep k true true, sectorStep k true false].filterMap id

def tempOf (s : State) (k : Nat) : Int := (sectorOf s k).temp.getD 0

/-- Neighbour pairs more than 30 °C apart, with the time since when; and the release of cause 5 (R387). -/
def neighbourStep (s : State) (k : Nat) : State :=
  let pairs := (neighboursOf k).flatMap (fun j => if (sectorOf s j).temp.isNone then [] else [(k, j), (j, k)])
  let s1 := pairs.foldl (fun st p =>
    let apart := tempOf st p.1 - tempOf st p.2 > 30 * 16
    let m := st.power.neighbours
    { st with power := { st.power with neighbours :=
        if apart then (if (amGet m p).isSome then m else amSet m p st.now) else amErase m p } }) s
  (k :: neighboursOf k).foldl (fun st j =>
    let x := sectorOf st j
    if x.floorNeighbour = 0 then st
    else if !x.coolers.all (fun i => tempOf st j - tempOf st i ≤ 25 * 16) then setSector st j { x with neighbourCool := none }
    else
      let t := x.neighbourCool.getD st.now
      if t + tenMs ≤ st.now ∧ mayStep x.floorMovedAt st.now then
        floorStep st j 6 { x with floorNeighbour := x.floorNeighbour - 1, neighbourCool := some st.now, coolers := if x.floorNeighbour = 1 then [] else x.coolers }
      else setSector st j { x with neighbourCool := some t }) s1

/-- The highest of the sensors. -/
def hottest (l : List Int) : Int := l.foldl max (l.headD 0)

/-- The highest sample since the last read (R400). -/
def peakOf (x : Sector) (temp : Int) : Int :=
  match x.peak with
  | some p => if x.peakRead then temp else max p temp
  | none => temp

def execThermalSample (sector : Nat) (sensors : List Int) (s : State) : Host.Outcome State Fault Refusal :=
  if Config.sectors ≤ sector ∨ sensors = [] then done s else
  let x := sectorOf s sector
  let t := hottest sensors
  let s1 := setSector (rcNote s (rcPeak sector) (tempField x.peak)) sector { x with temp := some t, peak := some (peakOf x t), peakRead := false }
  let s2 := { s1 with power := { s1.power with sampledAt := s1.now } }
  done (neighbourStep (thermalStep s2 sector t) sector)

/-- The difference has lasted 1 ms: event 0x0032, and a step of the hotter sector's floor with cause 5. -/
def execNeighbourDiffExpiry (hotter cooler : Nat) (s : State) : Host.Outcome State Fault Refusal :=
  match amGet s.power.neighbours (hotter, cooler) with
  | none => done s
  | some t =>
    if !reaches s (t + oneMs) then done s else
    let s1 := advance s (t + oneMs)
    let diff := (tempOf s1 hotter - tempOf s1 cooler).toNat / 16
    let s2 := { s1 with power := { s1.power with neighbours := amSet s1.power.neighbours (hotter, cooler) s1.now } }
    let s3 := postDev s2 0x17 0x0032 noSite s2.now (hotter + cooler * 2 ^ 4 + diff * 2 ^ 8)
    let x := sectorOf s3 hotter
    if x.state = .active ∧ sectorFloor x < 3 ∧ mayStep x.floorMovedAt s3.now then
      done (floorStep s3 hotter 5 { x with floorNeighbour := sectorFloor x + 1, neighbourCool := none, coolers := addNew x.coolers cooler })
    else done s3

/-! ### Power cap (R393) -/

/-- Steps of cause 3 over every ACTIVE sector at the fastest actual divider. -/
def capSlower (s : State) : State :=
  let act := (List.range Config.sectors).filter (fun k => (sectorOf s k).state == .active)
  let fastest := (act.map (fun k => (sectorOf s k).actual)).foldl min 3
  let s1 := (act.filter (fun k => (sectorOf s k).actual == fastest && decide (sectorFloor (sectorOf s k) < 3))).foldl (fun st k =>
    retarget (countStep (setSector st k { sectorOf st k with floorCap := sectorFloor (sectorOf st k) + 1 })) k 3) s
  { s1 with power := { s1.power with capMovedAt := some s1.now } }

/-- One step faster for the sector that cause 3 holds slowest, the lowest number on a tie. -/
def capFaster (s : State) : State :=
  let worst := ((List.range Config.sectors).map (fun k => (sectorOf s k).floorCap)).foldl max 0
  if worst = 0 then s else
  match (List.range Config.sectors).find? (fun k => (sectorOf s k).floorCap == worst) with
  | some k => retarget (countStep (setSector s k { sectorOf s k with floorCap := worst - 1 })) k 4
  | none => s

/-- The 1 ms average of the input power, in 1/16 W, meets the cap. -/
def execPowerCapAverage (pin : Nat) (s : State) : Host.Outcome State Fault Refusal :=
  let s0 := { s with power := { s.power with pin := pin } }
  let p := s0.power
  if 16 * p.cap < pin then
    let s1 := { s0 with power := { p with capCoolSince := none } }
    done (if mayStep p.capMovedAt s.now then capSlower s1 else s1)
  else if 100 * pin ≤ 95 * 16 * p.cap then
    let t := p.capCoolSince.getD s.now
    if t + tenMs ≤ s.now then done (capFaster { s0 with power := { p with capCoolSince := some s.now } })
    else done { s0 with power := { p with capCoolSince := some t } }
  else done { s0 with power := { p with capCoolSince := none } }

/-! ### THERMAL_READ (R397) -/

/-- The temperature of a package sensor that no event of the table reports: a free value. -/
def freeTemp (s : State) (k : Nat) : List Byte := leBytes 2 (Config.free32 (s.fresh + k)).toNat

def thermalBytes (s : State) : List Byte :=
  let p := s.power
  let sec (k : Nat) : Sector := sectorOf s k
  let has (k : Nat) : Bool := decide (k < Config.sectors)
  padTo 256
    (leBytes 8 p.sampledAt ++ leBytes 2 p.vin ++ leBytes 2 p.iin ++ leBytes 2 p.pin ++ leBytes 2 (BitVec.ofInt 16 p.stageTemp).toNat
      ++ (List.range 8).flatMap (fun k => leBytes 2 (if has k then tempField (sec k).temp else 0x8000))
      ++ (List.range 8).flatMap (fun k => leBytes 1 (if has k then sectorStateCode (sec k).state + (sec k).actual * 2 ^ 2 + sectorFloor (sec k) * 2 ^ 4 else 0))
      ++ (List.range 8).flatMap (fun k => if 4 * k < Config.channels then freeTemp s k else leBytes 2 0x8000)
      ++ (List.range 8).flatMap (fun k => if k < Config.spanPorts then freeTemp s (8 + k) else leBytes 2 0x8000)
      ++ leBytes 4 p.floorSteps)

def execThermalRead (c : HostCmd) (s : State) : Host.Outcome State Fault Refusal :=
  takeCmd s c 0x61 0 fun s p =>
    if !pktOnly p [(2, 0xFFFFFFFF), (3, 0xFFFFFFFF)] ∨ pktQ p 2 % 64 ≠ 0 then refuse s stBadParam
    else .finish stOK 0 [(pktQ p 2, thermalBytes s)] { s with fresh := s.fresh + 16 }

/-! ### Reference clock (R382, R399) -/

def execRefClockLoss (s : State) : Host.Outcome State Fault Refusal :=
  if s.power.holdover then done s
  else done (fault { s with power := { s.power with holdover := true } } 0x0D20 2 noSite 0 0)

def execRefClockRestore (s : State) : Host.Outcome State Fault Refusal :=
  if s.power.holdover then done (fault { s with power := { s.power with holdover := false } } 0x0D21 0 noSite 0 0)
  else done s

end Sys2Proof.Machine
end

