-- ==== Sys2Proof/Machine/PmbusJtag.lean ====
section
/-! DEFINITION. The power stage's faults and restarts, its PMBus commands (spec/14_power_clocks_start.md R376 to R379, spec/18_electrical_package.md
R485) and the boundary-scan instructions (R486, R487). -/

namespace Sys2Proof.Machine

/-! ### LINEAR11 -/

/-- A LINEAR11 word as mantissa × 2^exponent, times 2^16. -/
def lin16 (w : BitVec 16) : Int :=
  let m := (BitVec.ofNat 11 w.toNat).toInt
  let e := (BitVec.ofNat 5 (w.toNat / 2 ^ 11)).toInt
  m * 2 ^ (e + 16).toNat

/-- A measured value, num / den, in LINEAR11 with the exponent that the part uses for a command. -/
def linRead (code : Nat) (num : Int) (den : Nat) : BitVec 16 :=
  let e := (Config.readExponent code).toInt
  let m : Int := if 0 ≤ e then num / (den * 2 ^ e.toNat) else num * 2 ^ (-e).toNat / den
  BitVec.ofNat 16 ((BitVec.ofInt 5 e).toNat * 2 ^ 11 + (BitVec.ofInt 11 m).toNat)

/-! ### Status (R379) -/

/-- STATUS_WORD of the PMBus specification: input [13], power-good negated [11], off [6], input undervoltage fault [3], temperature [2], communication [1]. -/
def statusWord (s : State) : Nat :=
  let b := s.power.pmbus
  b2n (b.statusInput != 0) * 2 ^ 13 + b2n (!s.power.powerGood) * 2 ^ 11 + b2n (!s.power.powerGood) * 2 ^ 6
    + b2n (b.statusInput.getLsbD 4) * 2 ^ 3 + b2n (b.statusTemperature != 0) * 2 ^ 2 + b2n (b.statusCml != 0) * 2

def setPmbus (s : State) (b : PmBus) : State := { s with power := { s.power with pmbus := b } }

/-- A reply to the bus. -/
def replyWith (s : State) (v : Nat) : State := setPmbus s { s.power.pmbus with reply := some (BitVec.ofNat 16 v), nack := false }

/-- Accepted, with nothing to return. -/
def accepted (s : State) : State := setPmbus s { s.power.pmbus with reply := none, nack := false }

def nacked (s : State) : State := setPmbus s { s.power.pmbus with reply := none, nack := true }

/-- The interface answers only while the input is above 36 V. -/
def onBus (s : State) (f : State → State) : Host.Outcome State Fault Refusal := done (if s.power.pmbus.up then f s else nacked s)

/-- WRITE_PROTECT 0x80 stops every write but its own. -/
def protected_ (s : State) : Bool := s.power.pmbus.writeProtect == 0x80

/-- Since when a condition that restarts the stage has held (R378), as its measurements show it. -/
def heldSince (ok : Bool) (now : Fc) (l : Option Fc) : Option Fc := if ok then some (l.getD now) else none

/-- What the stage last measured, and since when a restart could count from it (R378). -/
def measured (s : State) (t : Telemetry) : State :=
  let p := s.power
  { s with power := { p with vin := t.vin, iin := t.iin, pin := t.pin, stageTemp := t.temp
                             inputSince := heldSince (decide (40000 ≤ t.vin) && decide (t.vin ≤ 60000)) s.now p.inputSince
                             stageCool := heldSince (decide (t.temp * 2 ^ 16 < lin16 p.pmbus.otWarn * 16)) s.now p.stageCool } }

/-! ### Limits -/

/-- A limit as stored: clamped to its range, with STATUS_CML bit 6 when it was outside. -/
def clampLimit (code : Nat) (v : BitVec 16) : BitVec 16 × Bool :=
  let r := Config.limitRange code
  if lin16 v < r.2.1 * 2 ^ 16 then (Config.linear11 r.2.1, true)
  else if (r.2.2 * 2 ^ 16 : Int) < lin16 v then (Config.linear11 r.2.2, true)
  else (v, false)

/-- A read or a write of a limit command. -/
def limitOp (code : Nat) (get : PmBus → BitVec 16) (put : PmBus → BitVec 16 → PmBus) (op : PmOp) (s : State) : Host.Outcome State Fault Refusal :=
  onBus s fun s =>
    match op with
    | .read => replyWith s (get s.power.pmbus).toNat
    | .write v =>
      if protected_ s then accepted s
      else
        let r := clampLimit code v
        let b := put s.power.pmbus r.1
        accepted (setPmbus s { b with statusCml := if r.2 then b.statusCml ||| 0x40 else b.statusCml })

def execOtFaultLimit (op : PmOp) (s : State) : Host.Outcome State Fault Refusal :=
  limitOp 0x4F (·.otFault) (fun b v => { b with otFault := v }) op s
def execOtWarnLimit (op : PmOp) (s : State) : Host.Outcome State Fault Refusal :=
  limitOp 0x51 (·.otWarn) (fun b v => { b with otWarn := v }) op s
def execVinOvFaultLimit (op : PmOp) (s : State) : Host.Outcome State Fault Refusal :=
  limitOp 0x55 (·.vinOvFault) (fun b v => { b with vinOvFault := v }) op s
def execVinOvWarnLimit (op : PmOp) (s : State) : Host.Outcome State Fault Refusal :=
  limitOp 0x57 (·.vinOvWarn) (fun b v => { b with vinOvWarn := v }) op s
def execVinUvWarnLimit (op : PmOp) (s : State) : Host.Outcome State Fault Refusal :=
  limitOp 0x58 (·.vinUvWarn) (fun b v => { b with vinUvWarn := v }) op s
def execVinUvFaultLimit (op : PmOp) (s : State) : Host.Outcome State Fault Refusal :=
  limitOp 0x59 (·.vinUvFault) (fun b v => { b with vinUvFault := v }) op s
def execIinOcFaultLimit (op : PmOp) (s : State) : Host.Outcome State Fault Refusal :=
  limitOp 0x5B (·.iinOcFault) (fun b v => { b with iinOcFault := v }) op s
def execIinOcWarnLimit (op : PmOp) (s : State) : Host.Outcome State Fault Refusal :=
  limitOp 0x5D (·.iinOcWarn) (fun b v => { b with iinOcWarn := v }) op s
def execPinOpWarnLimit (op : PmOp) (s : State) : Host.Outcome State Fault Refusal :=
  limitOp 0x6B (·.pinOpWarn) (fun b v => { b with pinOpWarn := v }) op s

/-! ### Other commands -/

def execClearFaults (s : State) : Host.Outcome State Fault Refusal :=
  onBus s fun s => accepted (setPmbus s { s.power.pmbus with statusInput := 0, statusTemperature := 0, statusCml := 0 })

/-- 0x00 and 0x80 are the values; another is refused with STATUS_CML bit 6. -/
def execWriteProtect (op : PmOp) (s : State) : Host.Outcome State Fault Refusal :=
  onBus s fun s =>
    match op with
    | .read => replyWith s s.power.pmbus.writeProtect.toNat
    | .write v =>
      let b := v.setWidth 8
      if b = 0 ∨ b = 0x80 then accepted (setPmbus s { s.power.pmbus with writeProtect := b })
      else accepted (setPmbus s { s.power.pmbus with statusCml := s.power.pmbus.statusCml ||| 0x40 })

def execCapability (s : State) : Host.Outcome State Fault Refusal := onBus s fun s => replyWith s 0xB0

def execStatusWord (s : State) : Host.Outcome State Fault Refusal := onBus s fun s => replyWith s (statusWord s)

/-- A status byte: read, or write 1 to clear. -/
def statusOp (get : PmBus → BitVec 8) (put : PmBus → BitVec 8 → PmBus) (op : PmOp) (s : State) : Host.Outcome State Fault Refusal :=
  onBus s fun s =>
    match op with
    | .read => replyWith s (get s.power.pmbus).toNat
    | .write v => if protected_ s then accepted s else accepted (setPmbus s (put s.power.pmbus (get s.power.pmbus &&& ~~~ (v.setWidth 8))))

def execStatusInput (op : PmOp) (s : State) : Host.Outcome State Fault Refusal :=
  statusOp (·.statusInput) (fun b v => { b with statusInput := v }) op s
def execStatusTemperature (op : PmOp) (s : State) : Host.Outcome State Fault Refusal :=
  statusOp (·.statusTemperature) (fun b v => { b with statusTemperature := v }) op s
def execStatusCml (op : PmOp) (s : State) : Host.Outcome State Fault Refusal :=
  statusOp (·.statusCml) (fun b v => { b with statusCml := v }) op s

def execReadVin (t : Telemetry) (s : State) : Host.Outcome State Fault Refusal :=
  onBus s fun s => replyWith (measured s t) (linRead 0x88 t.vin 1000).toNat
def execReadIin (t : Telemetry) (s : State) : Host.Outcome State Fault Refusal :=
  onBus s fun s => replyWith (measured s t) (linRead 0x89 t.iin 1000).toNat
def execReadTemperature1 (t : Telemetry) (s : State) : Host.Outcome State Fault Refusal :=
  onBus s fun s => replyWith (measured s t) (linRead 0x8D t.temp 16).toNat
def execReadPin (t : Telemetry) (s : State) : Host.Outcome State Fault Refusal :=
  onBus s fun s => replyWith (measured s t) (linRead 0x97 t.pin 16).toNat

def execPmbusRevision (s : State) : Host.Outcome State Fault Refusal := onBus s fun s => replyWith s 0x33
/-- The LINEAR11 word of a count: the least exponent with which its mantissa fits; what the mantissa cannot hold is cut off. DESIGN CHOICE
(notes/assumptions/9.md). -/
def linCount (n : Nat) : Nat :=
  let e := ((List.range 16).find? (fun e => decide (n / 2 ^ e < 1024))).getD 15
  e * 2 ^ 11 + n / 2 ^ e % 1024

def execMfrRestartCount (s : State) : Host.Outcome State Fault Refusal := onBus s fun s => replyWith s (linCount s.power.pmbus.restarts)

/-- The listed command codes of R379. -/
def pmbusCodes : List Nat :=
  [0x03, 0x10, 0x19, 0x4F, 0x51, 0x55, 0x57, 0x58, 0x59, 0x5B, 0x5D, 0x6B, 0x79, 0x7C, 0x7D, 0x7E, 0x88, 0x89, 0x8D, 0x97, 0x98, 0xD0]

def execPmbusUnsupportedCommand (code : BitVec 8) (s : State) : Host.Outcome State Fault Refusal :=
  if pmbusCodes.contains code.toNat then done s else done (nacked s)

/-! ### Limits crossed (R379) -/

/-- Whether a measurement is on the warn side of a limit. -/
def warns (b : PmBus) (t : Telemetry) (l : WarnLimit) : Bool :=
  let above (v : Int) (den : Nat) (lim : BitVec 16) : Bool := decide (lin16 lim * den < v * 2 ^ 16)
  match l with
  | .otWarn => above t.temp 16 b.otWarn
  | .vinOvWarn => above t.vin 1000 b.vinOvWarn
  | .vinUvWarn => decide ((t.vin : Int) * 2 ^ 16 < lin16 b.vinUvWarn * 1000)
  | .iinOcWarn => above t.iin 1000 b.iinOcWarn
  | .pinOpWarn => above t.pin 16 b.pinOpWarn

/-- The status bit of a warn limit (PMBus): in STATUS_INPUT, or in STATUS_TEMPERATURE. -/
def warnBits (b : PmBus) (l : WarnLimit) : PmBus :=
  match l with
  | .otWarn => { b with statusTemperature := b.statusTemperature ||| 0x40 }
  | .vinOvWarn => { b with statusInput := b.statusInput ||| 0x40 }
  | .vinUvWarn => { b with statusInput := b.statusInput ||| 0x20 }
  | .iinOcWarn => { b with statusInput := b.statusInput ||| 0x02 }
  | .pinOpWarn => { b with statusInput := b.statusInput ||| 0x01 }

def execPmbusWarnCrossing (limit : WarnLimit) (crossed : Bool) (t : Telemetry) (s : State) : Host.Outcome State Fault Refusal :=
  let b := s.power.pmbus
  if !b.up ∨ warns b t limit ≠ crossed ∨ b.crossed.contains limit = crossed then done s
  else
    let b1 := if crossed then { warnBits b limit with crossed := b.crossed ++ [limit] } else { b with crossed := b.crossed.filter (fun l => decide (l ≠ limit)) }
    let s1 := setPmbus (measured s t) b1
    done (postDev s1 0x17 0x0033 noSite s1.now (statusWord s1))

/-! ### Shutdown and restart (R376 to R378, R485) -/

/-- Code, status bits and detail word 1 of a shutdown cause. -/
def stageCode (c : StageFault) : Nat × Nat :=
  match c with
  | .undervoltage => (0x0D10, 0)
  | .overvoltage => (0x0D11, 0)
  | .overcurrent => (0x0D12, 0)
  | .junction k _ => (0x0D13, k % 8)
  | .rail i _ => (0x0D14, i)
  | .overtemperature => (0x0D15, 0)

def stageBits (b : PmBus) (c : StageFault) : PmBus :=
  match c with
  | .undervoltage => { b with statusInput := b.statusInput ||| 0x10 }
  | .overvoltage => { b with statusInput := b.statusInput ||| 0x80 }
  | .overcurrent => { b with statusInput := b.statusInput ||| 0x04 }
  | .overtemperature => { b with statusTemperature := b.statusTemperature ||| 0x80 }
  | _ => b

/-- The set point of a rail that the part has (R380, R383, R391), in 1/1300 mV; none for a rail that is not fitted, or that is off. VDD_Sk has the
voltage that its slew has come to (R384). -/
def railPoint (s : State) (i : Nat) : Option Nat :=
  if !s.power.rails.contains i then none
  else if i < 8 then (if (sectorOf s i).state = .sleep then none else some (vddNow (sectorOf s i) s.now))
  else if i < 16 then some (1300 * (if (sectorOf s (i - 8)).state = .sleep then 550 else 800))
  else some (1300 * lget [750, 900, 3300, 1800, 1050, 900, 500] (i - 16) 0)

/-- A voltage in mV outside 5 % of a set point in 1/1300 mV. -/
def outside5 (point mv : Nat) : Bool := decide (100 * (1300 * mv) < 95 * point) || decide (105 * point < 100 * (1300 * mv))

/-- The measurement is beyond the limit that the cause names. -/
def stageBeyond (s : State) (t : Telemetry) (c : StageFault) : Bool :=
  let b := s.power.pmbus
  match c with
  | .undervoltage => decide ((t.vin : Int) * 2 ^ 16 < lin16 b.vinUvFault * 1000)
  | .overvoltage => decide (lin16 b.vinOvFault * 1000 < (t.vin : Int) * 2 ^ 16)
  | .overcurrent => decide (lin16 b.iinOcFault * 1000 < (t.iin : Int) * 2 ^ 16)
  | .overtemperature => decide (lin16 b.otFault * 16 < t.temp * 2 ^ 16)
  | .junction k temp => decide (k < Config.sectors) && decide (115 * 16 ≤ temp)
  | .rail i mv => (match railPoint s i with | some v => outside5 v mv | none => false)

/-- The rails are shut down one by one, the last that started first (R377). -/
def railsOff : Nat → List Nat → List Nat
  | 0, l => l
  | n + 1, l => railsOff n l.dropLast

/-- The record goes out in the 200 µs for which the rails are held; then the rails are down: nothing is served, and the link is down. What happens in
those 200 µs is that record alone (DEDUCED, notes/assumptions/78.md). -/
def railsDown (s : State) (c : StageFault) : State :=
  { s with
    power := { s.power with rails := railsOff s.power.rails.length s.power.rails, powerGood := false, shutdown := some c }
    hal := { s.hal with stopped := true }
    hif := { s.hif with fwStage := 0, fetchStopped := true, linkUp := false, busMaster := false, pcieHeld := true } }

def execPowerStageFault (cause : StageFault) (t : Telemetry) (s : State) : Host.Outcome State Fault Refusal :=
  if !s.power.powerGood ∨ !stageBeyond s t cause then done s
  else
    let s1 := setPmbus (measured s t) (stageBits s.power.pmbus cause)
    let s2 := fault s1 (stageCode cause).1 3 (mgmtSite 2) (dw (statusWord s1)) (dw (stageCode cause).2)
    done (railsDown s2 cause)

/-- The fc in which the controller restarts the stage, by the cause of the shutdown: 1 s after the input is within 40 V to 60 V again, or after 10 s
with the power stage below OT_WARN_LIMIT. -/
def restartAt (s : State) : Option Fc :=
  match s.power.shutdown with
  | none => none
  | some .undervoltage | some .overvoltage | some .overcurrent => s.power.inputSince.map (· + 1000000 * Config.us)
  | some _ => s.power.stageCool.map (· + 10000000 * Config.us)

/-- The controller restarts the stage: a power-on, counted in MFR_RESTART_COUNT. The row is the end of the time of `restartAt`, in which no measurement
has broken its condition; the halyard starts again from 0. -/
def execPowerStageRestart (s : State) : Host.Outcome State Fault Refusal :=
  if s.power.powerGood ∨ (restartAt s).isNone then done s
  else done (powerOn (setPmbus s { s.power.pmbus with restarts := sat 0xFFFF (s.power.pmbus.restarts + 1) }))

/-- The input first reaches 40 V: rails up, power-good. A stage shut down under R377 comes back under R378 alone. -/
def execVinRise (s : State) : Host.Outcome State Fault Refusal :=
  if s.power.powerGood ∨ s.power.shutdown.isSome then done s else done (powerOn s)

/-- Below 36 V: limits at their defaults, the bus silent. The controller is without power, so the next rise is a first one. -/
def execVinBelow36V (s : State) : Host.Outcome State Fault Refusal :=
  let d : PmBus := {}
  let b := { s.power.pmbus with
    otFault := d.otFault, otWarn := d.otWarn, vinOvFault := d.vinOvFault, vinOvWarn := d.vinOvWarn, vinUvWarn := d.vinUvWarn,
    vinUvFault := d.vinUvFault, iinOcFault := d.iinOcFault, iinOcWarn := d.iinOcWarn, pinOpWarn := d.pinOpWarn, up := false }
  let s1 := setPmbus s b
  done (if s.power.powerGood then s1 else { s1 with power := { s1.power with shutdown := none } })

/-- Through 36 V: the bus answers, at the address that the pins give. -/
def execVinAbove36V (addrPins : Nat) (s : State) : Host.Outcome State Fault Refusal :=
  done (if s.power.pmbus.up then s
        else setPmbus s { s.power.pmbus with up := true, addr := BitVec.ofNat 7 (0x40 + addrPins % 8), reply := none, nack := false })

/-! ### Boundary scan (R486, R487) -/

/-- An instruction that drives pins: code 0x0D40, R408, FAULT#, and the link down, so that the record stays in the event controller. -/
def drivePins (s : State) (i : TapInstr) : State :=
  let s1 := hifReset s
  let s2 := { s1 with pins := { s1.pins with tap := i, pinsTaken := true },
                      hif := { s1.hif with linkUp := false, pcieHeld := true } }
  fault s2 0x0D40 3 noSite 0 0

def execExtest (s : State) : Host.Outcome State Fault Refusal := done (drivePins s .extest)
def execHighz (s : State) : Host.Outcome State Fault Refusal := done (drivePins s .highz)
def execClamp (s : State) : Host.Outcome State Fault Refusal := done (drivePins s .clamp)
def execExtestPulse (s : State) : Host.Outcome State Fault Refusal := done (drivePins s .extestPulse)
def execExtestTrain (s : State) : Host.Outcome State Fault Refusal := done (drivePins s .extestTrain)

def execSamplePreload (s : State) : Host.Outcome State Fault Refusal := done { s with pins := { s.pins with tap := .sample } }
def execIdcode (s : State) : Host.Outcome State Fault Refusal := done { s with pins := { s.pins with tap := .idcode, tapData := idcodeWord } }

/-- 0xFF and every code that the table does not list. -/
def execBypass (code : BitVec 8) (s : State) : Host.Outcome State Fault Refusal :=
  if code.toNat ≤ 6 then done s else done { s with pins := { s.pins with tap := .bypass, tapData := 0 } }

/-- A TAP reset selects IDCODE and does not return the pins. -/
def execTapReset (s : State) : Host.Outcome State Fault Refusal := done { s with pins := { s.pins with tap := .idcode, tapData := idcodeWord } }

end Sys2Proof.Machine
end

