-- ==== Sys2Proof/Machine/Regs.lean ====
section
/-! DEFINITION. Register accesses: writes, latched and clearing reads, the event controller's registers and its two own events, the maintenance
registers and counter page control (spec/13_events.md R367 to R375, spec/16_observation.md R445 to R448, spec/19_register_map.md R496 to R506). -/

namespace Sys2Proof.Machine

/-- A read's value and width reach the host. -/
def readBack (s : State) (value size : Nat) : State := { s with hif := { s.hif with readData := value, readSize := size } }

def vectorOf (s : State) (v : Nat) : EvtVector := lget s.evt.vectors v {}
def setVector (s : State) (v : Nat) (e : EvtVector) : State := { s with evt := { s.evt with vectors := s.evt.vectors.set v e } }

/-- A normal source is pending that fired on vector v (R362, R369, R370). -/
def normalPending (s : State) (v : Nat) : Bool := s.evt.sources.any (fun c => c.pending && c.firedVector == v)

/-- The moderation condition is met: the count and the timer are cleared, and a message goes out if a normal source is pending (R369). -/
def vectorDue (s : State) (v : Nat) : State :=
  let s1 := setVector s v { vectorOf s v with count := 0, timerFrom := none, waits := none }
  if normalPending s v then sendBehind s1 v (vectorOf s v).waits else s1

/-! ### EVT registers (R370, R371, R375, R506) -/

/-- Firings of a source in this fc that an acknowledgement in a bank leaves: they count as after it (R371). -/
def firedNow (s : State) (fast : Bool) (c : EvtSource) : Nat := if c.firedFast = fast ∧ c.firedAt = s.now then c.firedIn else 0

/-- Acknowledge source n in the bank of the class that it fired under (R362): the pending bit and the count together. Firings of this fc survive, as new ones: a fast source whose bit stood
before them sends its message (R368, R371). -/
def ackSource (s : State) (fast : Bool) (n : Nat) : State :=
  let c := lget s.evt.sources n (EvtSource.resetOf n)
  if !(if fast then c.fastPending else c.pending) then s
  else
    let k := firedNow s fast c
    let c' := if fast then { c with fastPending := k != 0, count := sat 255 k, stoodBefore := false }
              else { c with pending := k != 0, count := sat 255 k, stoodBefore := false }
    let s1 := { s with evt := { s.evt with sources := s.evt.sources.set n c' } }
    if fast && k != 0 && c.stoodBefore && c.irqEnable then sendMessage s1 c.firedVector else s1

def pendAck (s : State) (fast hi : Bool) (value : Dword) : State :=
  (List.range 32).foldl (fun x k => if dbit value k then ackSource x fast ((if hi then 32 else 0) + k) else x) s

def execEvtPendAck (fast hi : Bool) (value : Dword) (s : State) : Host.Outcome State Fault Refusal := done (pendAck s fast hi value)

/-- n messages on vector v, behind a record. -/
def sendTimes : Nat → State → Nat → Option (Bool × Nat) → State
  | 0, s, _, _ => s
  | n + 1, s, v, r => sendTimes n (sendBehind s v r) v r

/-- A normal source stood pending on vector v ahead of this fc's firings. -/
def stoodPending (s : State) (v : Nat) : Bool :=
  s.evt.sources.any (fun c => c.pending && c.firedVector == v && (c.firedAt != s.now || c.firedIn == 0 || c.stoodBefore))

/-- Arm an idle wait on vector v, or send at once (R370). Firings of this fc count as after the arming: the first of them sends where nothing stood
pending, and moderation counts the others; messages that they have sent stand. -/
def idleArm (s : State) (v : Nat) : State :=
  let e := vectorOf s v
  let k := if e.firedAt = s.now then e.firedIn else 0
  let stood := stoodPending s v
  if stood || k != 0 then
    let left := if stood then k else k - 1
    let thr := max 1 e.countThr
    let sends := (if stood then left / thr else 1 + left / thr) - (if k = 0 then 0 else e.sentIn)
    let s1 := setVector s v { e with idleArmed := false, count := left % thr, timerFrom := if left % thr = 0 ∨ e.time = 0 then none else some s.now, waits := none }
    sendTimes sends (if stood then sendMessage s1 v else s1) v e.waits
  else setVector s v { e with idleArmed := true }

def idleArmWrite (s : State) (hi : Bool) (value : Dword) : State :=
  (List.range 32).foldl (fun st k => if dbit value k then idleArm st ((if hi then 32 else 0) + k) else st) s

def execEvtIdleArm (hi : Bool) (value : Dword) (s : State) : Host.Outcome State Fault Refusal := done (idleArmWrite s hi value)

/-- A write to EVT_LOG_CFG: on an enabled log only enable 0 acts; enabling sets both pointers to 0; a size outside 6 to 16 leaves the log disabled. -/
def logCfgWrite (s : State) (fast : Bool) (value : Dword) : State :=
  let l := logOf s fast
  if l.enabled then (if dbit value 0 then s else setLog s fast { l with enabled := false })
  else
    let a := dbits value 11 8
    let l1 := { l with sizeLog2 := a }
    if dbit value 0 && decide (6 ≤ a) && decide (a ≤ 16) then setLog s fast { l1 with enabled := true, head := 0, tail := 0 }
    else setLog s fast l1

def execEvtLogEnable (fast : Bool) (value : Dword) (s : State) : Host.Outcome State Fault Refusal :=
  done (if dbit value 0 then logCfgWrite s fast value else s)

def execEvtLogDisable (fast : Bool) (value : Dword) (s : State) : Host.Outcome State Fault Refusal :=
  done (if dbit value 0 then s else logCfgWrite s fast value)

/-- A write to EVT_LOG_HEAD: ignored while disabled, past the tail, or backwards. -/
def logHeadWrite (s : State) (fast : Bool) (value : Dword) : State :=
  let l := logOf s fast
  let w := l.sizeLog2 + 1
  let h := value.toNat % 2 ^ w
  if l.enabled && decide (ptrCount w l.head h ≤ ptrCount w l.head l.tail) then setLog s fast { l with head := h } else s

def execEvtLogHead (fast : Bool) (value : Dword) (s : State) : Host.Outcome State Fault Refusal := done (logHeadWrite s fast value)

/-- A write to EVT_VEC_MOD_v, in the fc in which it takes effect (R506, notes/assumptions/65.md): a count or timer that already meets the new values
meets R369. -/
def vecModWrite (s : State) (v : Nat) (value : Dword) : State :=
  if 64 ≤ v then s else
  let e := vectorOf s v
  let t := dbits value 23 8
  let e1 := { e with countThr := dbits value 7 0, time := t, timerFrom := if t = 0 then none else e.timerFrom }
  let s1 := setVector s v e1
  let countMet := 0 < e.count && decide (max 1 e1.countThr ≤ e.count)
  let timeMet := match e1.timerFrom with | some f => decide (f + t * Config.us ≤ s.now) | none => false
  if countMet || timeMet then vectorDue s1 v else s1

def execEvtVecMod (vector : Nat) (value : Dword) (s : State) : Host.Outcome State Fault Refusal := done (vecModWrite s vector value)

/-- The moderation timer of a vector reaches its time (R369). -/
def execModerationTimerExpiry (vector : Nat) (s : State) : Host.Outcome State Fault Refusal :=
  let e := vectorOf s vector
  match e.timerFrom with
  | some f => if e.time = 0 ∨ 64 ≤ vector ∨ !reaches s (f + e.time * Config.us) then done s else done (vectorDue (advance s (f + e.time * Config.us)) vector)
  | none => done s

/-- Held records, then the gap record, as far as the log has room (R367). -/
def execHeldRecordWrite (fast : Bool) (s : State) : Host.Outcome State Fault Refusal := done (heldDrain s fast)

/-- A write to EVT_SRC_CFG_n: source 0x13 stays fast. -/
def srcCfgWrite (s : State) (n : Nat) (value : Dword) : State :=
  if sourceAbsent n || decide (64 ≤ n) then s else
  { s with evt := { s.evt with sources := lmod s.evt.sources n (fun c =>
      { c with vector := dbits value 5 0, fast := n == 0x13 || dbit value 8, irqEnable := dbit value 9 }) } }

/-- A write to a log's registers at offset off of its group. -/
def logWriteReg (s : State) (fast : Bool) (off : Nat) (value : Dword) : State :=
  let l := logOf s fast
  match off with
  | 0x00 => if l.enabled then s else setLog s fast { l with baseLo := value &&& 0xFFFFF000 }
  | 0x04 => if l.enabled then s else setLog s fast { l with baseHi := value }
  | 0x08 => logCfgWrite s fast value
  | 0x0C => logHeadWrite s fast value
  | _ => s

def evtWrite (s : State) (off : Nat) (value : Dword) : State :=
  if off = 0x00 then pendAck s false false value
  else if off = 0x04 then pendAck s false true value
  else if off = 0x08 then pendAck s true false value
  else if off = 0x0C then pendAck s true true value
  else if off = 0x10 then idleArmWrite s false value
  else if off = 0x14 then idleArmWrite s true value
  else if 0x40 ≤ off && decide (off < 0x58) then logWriteReg s false (off - 0x40) value
  else if 0x60 ≤ off && decide (off < 0x78) then logWriteReg s true (off - 0x60) value
  else if 0x100 ≤ off && decide (off < 0x200) then srcCfgWrite s ((off - 0x100) / 4) value
  else if 0x300 ≤ off && decide (off < 0x400) then vecModWrite s ((off - 0x300) / 4) value
  else s

/-! ### HIF registers (R340, R335) -/

/-- A write to a ring's registers: bases are fixed while the ring is not DISABLED. -/
def ringWriteReg (s : State) (r off : Nat) (value : Dword) : State :=
  let x := ringOf s r
  if off = 0x10 then ringCfgWrite s r value
  else if x.state ≠ .disabled then s
  else match off with
    | 0x00 => setRing s r { x with sqLo := value &&& 0xFFFFF000 }
    | 0x04 => setRing s r { x with sqHi := value }
    | 0x08 => setRing s r { x with cqLo := value &&& 0xFFFFF000 }
    | 0x0C => setRing s r { x with cqHi := value }
    | _ => s

/-- A write to the MSI-X table: clearing a vector's mask bit unmasks it. -/
def msixWrite (s : State) (v off : Nat) (value : Dword) : State :=
  let put (f : MsixEntry → MsixEntry) : State := { s with hif := { s.hif with msix := lmod s.hif.msix v f } }
  match off with
  | 0 => put (fun e => { e with addrLo := value })
  | 4 => put (fun e => { e with addrHi := value })
  | 8 => put (fun e => { e with data := value })
  | 12 => if dbit value 0 then put (fun e => { e with masked := true }) else unmaskVector s v
  | _ => s

def hifWrite (s : State) (off : Nat) (value : Dword) : State :=
  if 0x100 ≤ off && decide (off < 0x500) then ringWriteReg s ((off - 0x100) / 0x40) ((off - 0x100) % 0x40) value
  else if 0x2000 ≤ off && decide (off < 0x2400) then msixWrite s ((off - 0x2000) / 16) (off % 16) value
  else s

/-! ### Maintenance registers (R231, R432, R506) -/

/-- A write to HAL_PROOF_CTRL, in the fc in which it takes effect (R506, notes/assumptions/65.md). Turning enable off drops a unit in PROOF_WAIT; turning it on starts a spacing interval. -/
def proofCtrlWrite (s : State) (value : Dword) : State :=
  let p := s.hal.proof
  let e := dbit value 0
  let p1 := { p with enable := e, spacingUs := dbits value 23 8, maxWaitMs := dbits value 31 24 }
  let p2 := if p.enable && !e && p.state == .wait && !p.serving then { p1 with state := .none } else p1
  let p3 := if !p.enable && e then { p2 with lastEnd := s.now, roundAt := proofSite p } else p2
  { s with hal := { s.hal with proof := p3 } }

def execHalProofCtrl (value : Dword) (s : State) : Host.Outcome State Fault Refusal := done (proofCtrlWrite s value)

/-- A write to MEM_MAINT_CTRL, in the fc in which it takes effect (R506, notes/assumptions/65.md). -/
def maintWrite (s : State) (value : Dword) : State :=
  { s with feed := { s.feed with driftThreshold := dbits value 7 0, cycleWindow := dbits value 20 16 } }

def execMemMaintCtrl (value : Dword) (s : State) : Host.Outcome State Fault Refusal := done (maintWrite s value)

/-! ### Counter pages (R446, R448, R451) -/

def setView (s : State) (bar2 : Bool) (g : Nat) (v : PageView) : State :=
  if bar2 then { s with cnt := { s.cnt with bar2 := amSet s.cnt.bar2 g v } } else { s with cnt := { s.cnt with bar0 := amSet s.cnt.bar0 g v } }

/-- Every counter of a page at this fc, by offset. -/
def pageCut (s : State) (g : Nat) : AMap Nat Nat :=
  (foldTallies s.cnt s.now).vals.filterMap (fun e => if e.1.1 = g then some (e.1.2, e.2) else none)

/-- A sample of a view: the cut of 64 fc ago (R446). -/
def samplePage (s : State) (bar2 : Bool) (g : Nat) : State :=
  setView s bar2 g { viewOf s bar2 g with sample := pageCut s g, sampleTime := s.now - 64 }

/-- Counter k cleared: what it has counted up to this fc goes; an increment of this fc survives (R444). -/
def clearCounter (s : State) (k : Nat) : State :=
  let s1 := foldCounters s
  { s1 with cnt := { s1.cnt with vals := amSet s1.cnt.vals (k, 0x40) (lget s1.cnt.newest k 0) } }

/-- Counter k set to run or to stop from this fc. -/
def runCounter (s : State) (k : Nat) (run : Bool) : State :=
  let s1 := foldCounters s
  { s1 with cnt := { s1.cnt with progs := lmod s1.cnt.progs k (fun c => { c with run := run }) } }

/-- Whether a write through a view acts: BAR2 needs a grant with write_enable. -/
def pageWritable (s : State) (bar2 : Bool) (g : Nat) : Bool :=
  pagePresent g && (!bar2 || amGetD s.cnt.grants g false)

/-- A write to CNT_PAGE_CTRL: view, sample, and on programmable pages clear and run. -/
def pageCtrlWrite (s : State) (bar2 : Bool) (g : Nat) (value : Dword) : State :=
  if !pageWritable s bar2 g then s else
  let s1 := setView s bar2 g { viewOf s bar2 g with sampledView := dbit value 0 }
  let s2 := if dbit value 1 then samplePage s1 bar2 g else s1
  if g < 64 then
    let s3 := if dbit value 2 then clearCounter s2 g else s2
    runCounter s3 g (dbit value 3)
  else s2

def execCntPageSample (bar2 : Bool) (page : Nat) (value : Dword) (s : State) : Host.Outcome State Fault Refusal :=
  done (if dbit value 1 then pageCtrlWrite s bar2 page value else s)

def execCntPageClear (bar2 : Bool) (page : Nat) (value : Dword) (s : State) : Host.Outcome State Fault Refusal :=
  done (if dbit value 2 then pageCtrlWrite s bar2 page value else s)

def execCntPageRun (bar2 : Bool) (page : Nat) (value : Dword) (s : State) : Host.Outcome State Fault Refusal :=
  done (pageCtrlWrite s bar2 page value)

/-! ### Any write -/

def blockWrite (s : State) (b : Block) (off : Nat) (value : Dword) : State :=
  match b with
  | .hif => hifWrite s off value
  | .evt => evtWrite s off value
  | .hal => if off = 0x300 then proofCtrlWrite s value else s
  | .mem => if off = 0x10 then maintWrite s value else s
  | .cnt => if off % 0x1000 = 0 then pageCtrlWrite s false (off / 0x1000) value else s
  | _ => s

/-- A dword write to BAR0 or BAR2; RO and reserved bits and unassigned offsets are ignored (R14, R15, R496). -/
def writeReg (s : State) (bar off : Nat) (value : Dword) : State :=
  if bar = 0 then blockWrite s (blockOf off).1 (blockOf off).2 value
  else if bar = 2 then
    if off < 0x10000 then
      if off % 0x1000 = 0 then doorbellTail s (off / 0x1000) value
      else if off % 0x1000 = 4 then doorbellHead s (off / 0x1000) value
      else s
    else if 0x800000 ≤ off && off % 0x1000 == 0 then pageCtrlWrite s true ((off - 0x800000) / 0x1000) value
    else s
  else s

def execRegisterWrite (bar offset : Nat) (value : Dword) (s : State) : Host.Outcome State Fault Refusal :=
  done (if offset % 4 = 0 then writeReg s bar offset value else s)

/-- An access that is not one aligned dword: a write does nothing, a read returns bytes of 0xFF (R336). -/
def execMalformedRegisterAccess (_bar offset size : Nat) (write : Option Nat) (s : State) : Host.Outcome State Fault Refusal :=
  if size = 4 ∧ offset % 4 = 0 then done s
  else match write with
    | some _ => done s
    | none => done (readBack s (2 ^ (8 * size) - 1) size)

/-! ### Reads with an effect (R498, R14) -/

/-- The latch of a counter page that a read of a LO register sets. -/
def latchPage (s : State) (bar2 : Bool) (g o : Nat) : State :=
  if !pagePresent g || (bar2 && (amGet s.cnt.grants g).isNone) then s else
  let v := viewOf s bar2 g
  if o = 8 then setView s bar2 g { v with timeHi := hi32 v.sampleTime }
  else if isCounter g o then setView s bar2 g { v with latches := amSet v.latches o (hi32 (viewCounter s bar2 g o)) }
  else s

def latchHal (s : State) (f : Hal → Hal) : State := { s with hal := f s.hal }

/-- The latch that a read of a LO register sets (R498). -/
def latchHi (s : State) (bar off : Nat) : State :=
  if bar = 0 then
    match blockOf off with
    | (.hal, 0x000) => latchHal s (fun h => { h with timeHiLatch := hi32 s.now })
    | (.hal, 0x108) => latchHal s (fun h => { h with switchHiLatch := hi32 (switchTime h) })
    | (.hal, 0x208) => latchHal s (fun h => { h with haltHiLatch := hi32 h.haltTime })
    | (.trc, 0x20) => { s with trace := { s.trace with trigHiLatch := hi32 s.trace.trigTime } }
    | (.span, o) =>
      if o % 0x100 = 8 && decide (o / 0x100 < Config.spanPorts) then
        { s with span := lmod s.span (o / 0x100) (fun p => { p with offsetHiLatch := hi32 (offsetBits p) }) }
      else s
    | (.cnt, o) => latchPage s false (o / 0x1000) (o % 0x1000)
    | _ => s
  else if bar = 2 && decide (0x800000 ≤ off) then latchPage s true ((off - 0x800000) / 0x1000) ((off - 0x800000) % 0x1000)
  else s

/-- What is left of an RC field that reads v: the updates of this fc (R15). -/
def rcLeft (s : State) (off v : Nat) : Nat := match rcBefore s off with | some w => v - w | none => 0

/-- The clearing read has been made: updates of this fc stand behind it. -/
def rcRead (s : State) (off : Nat) : State :=
  if (rcBefore s off).isSome then { s with evt := { s.evt with rcAt := amSet s.evt.rcAt off (s.now, 0) } } else s

/-- A peak temperature that has been read: the sample of this fc stands, else it starts again at the next sample. -/
def peakCleared (s : State) (off : Nat) (x : Sector) : Sector :=
  if (rcBefore s off).isSome then { x with peak := x.temp, peakRead := false } else { x with peak := some 0, peakRead := true }

/-- What a read clears (RC fields: R14, R505). -/
def clearRc (s : State) (bar off : Nat) : State :=
  if bar ≠ 0 then s else
  match blockOf off with
  | (.evt, 0x54) => rcRead (setNormal s { s.evt.normal with lost := rcLeft s off s.evt.normal.lost }) off
  | (.evt, 0x74) => rcRead (setFastLog s { s.evt.fastLog with lost := rcLeft s off s.evt.fastLog.lost }) off
  | (.hal, 0x310) => rcRead { s with hal := { s.hal with proof := { s.hal.proof with deferred := rcLeft s off s.hal.proof.deferred } } } off
  | (.trc, 0x30) => rcRead { s with trace := { s.trace with lost := rcLeft s off s.trace.lost } } off
  | (.lane, o) =>
    if o < 0x400 && o % 0x20 == 0x0C then
      rcRead { s with streams := lmod s.streams (o / 0x20) (fun c => { c with misses := rcLeft s off c.misses }) } off
    else s
  | (.pwr, o) =>
    if 0x100 ≤ o && decide (o < 0x180) && o % 0x10 == 4 then
      rcRead { s with power := { s.power with sectors := lmod s.power.sectors ((o - 0x100) / 0x10) (peakCleared s off) } } off
    else s
  | _ => s

/-- What a read that may clear an RC field returns: the value ahead of the updates of this fc (R497, R505). -/
def readRc (s : State) (bar off : Nat) : Dword :=
  match (if bar = 0 then rcBefore s off else none) with
  | some v => if (blockOf off).1 = .pwr then readReg s bar off % 2 ^ 16 + dw (v * 2 ^ 16) else dw v
  | none => readReg s bar off

/-- A read of a LO register: the low half, and the HI half into its latch. A read of any other register returns its
value, and clears an RC field (R14). -/
def execLatchedLoRead (bar offset : Nat) (s : State) : Host.Outcome State Fault Refusal :=
  done (readBack (clearRc (latchHi s bar offset) bar offset) (readRc s bar offset).toNat 4)

def execRcRead (bar offset : Nat) (s : State) : Host.Outcome State Fault Refusal :=
  done (readBack (clearRc s bar offset) (readRc s bar offset).toNat 4)

end Sys2Proof.Machine
end

