-- ==== Sys2Proof/Machine/Scale.lean ====
section
/-! DEFINITION. SCALE_SET and SCALE_READ, and the states of the scale banks (spec/04_quantization.md R135 to R139). -/

namespace Sys2Proof.Machine

/-- Steps 1 and 2 of R138 that both commands share: NOT_PRESENT, then the site, the range, the alignment and the reserved bits. -/
def scaleArgs (p : Packet) (masks : List (Nat × Dword)) : Option Nat :=
  let u : Site := pktDw p 2
  if siteAbsent u then some stNotPresent
  else if siteKind u ≠ 0 ∨ !sitePresent u ∨ siteSub u ≠ 0 ∨ !pktOnly p ([(2, 0xFFFFFFFF), (3, 0x07FF07FF), (4, 0xFFFFFFFF), (5, 0xFFFFFFFF)] ++ masks)
      ∨ 1031 < dbits (pktDw p 3) 10 0 + dbits (pktDw p 3) 26 16 ∨ pktQ p 4 % 4 ≠ 0 then some stBadParam
  else none

/-- The entries of a command's table. -/
def scaleTable (first count : Nat) (b : List Byte) : List (Nat × Dword) := (dwordsOf count b).zipIdx.map (fun e => (first + e.2, e.1))

def overlay (m : AMap Nat Dword) (l : List (Nat × Dword)) : AMap Nat Dword := l.foldl (fun x e => amSet x e.1 e.2) m

/-- The C of every hoist that is not FREE and uses the tile in an integer mode. -/
def tileChannels (s : State) (u : Site) : List Nat :=
  (List.range 4).filterMap (fun h =>
    let w := hoistWords s h u
    if (hoistOf s h).state ≠ .free ∧ dbit (lget w 4 0) 0 ∧ dbits (lget w 4 0) 2 1 < 2 then some (dbits (lget w 21 0) 15 4 + 1) else none)

/-- Step 6 of R138, on the banks as the command would leave them. -/
def scaleRefused (s : State) (u : Site) (l : List (Nat × Dword)) (banks : List (AMap Nat Dword)) : Bool :=
  l.any (fun e => scaleEntryBad e.1 e.2)
    || banks.any (fun b =>
        let m := overlay b l
        let es := (List.range 8).map (fun k => (1024 + k, amGetD m (1024 + k) 0))
        (tileChannels s u).any (fun c => (outliersBad c es).any (fun n => l.any (fun e => e.1 == n))))

def scaleSet (c : HostCmd) (table : HostData) (s : State) (p : Packet) : Verdict :=
  let u : Site := pktDw p 2
  let t := pktQ p 6
  let x := tileOf s u
  let first := dbits (pktDw p 3) 10 0
  let count := dbits (pktDw p 3) 26 16 + 1
  match scaleArgs p [(6, 0xFFFFFFFF), (7, 0xFFFFFFFF)] with
  | some st => refuse s st
  | none =>
    if (t ≠ 0 ∧ !timeOk s t) ∨ (t = 0 ∧ dbit (cfgDw s u 4) 0) then refuse s stBadParam
    else if unitLost s u then refuse s stDenied
    else if x.bank0.state = .next ∨ x.bank0.state = .retired ∨ x.bank1.state = .next ∨ x.bank1.state = .retired then refuse s stBusy
    else
      match hostRead s table with
      | none => hostAccessFailed s c (4 * count) (fun o => pktQ p 4 + o)
      | some b =>
        let l := scaleTable first count b
        let live := liveBank x
        let banks := if t = 0 then [x.bank0.entries, x.bank1.entries] else [(bankOf x live).entries]
        if scaleRefused s u l banks then refuse s stBadParam
        else if t = 0 then
          okAt (setTile s u { x with bank0 := { x.bank0 with entries := overlay x.bank0.entries l }, bank1 := { x.bank1 with entries := overlay x.bank1.entries l } })
        else
          .pend (.scaleSet u) (setTile s u { setBank x (1 - live) { state := .next, entries := overlay (bankOf x live).entries l } with nextTime := t })

def execScaleSet (c : HostCmd) (table : HostData) (s : State) : Host.Outcome State Fault Refusal :=
  takeCmd s c 0x28 0 (scaleSet c table)

/-- At T the NEXT bank becomes LIVE and the LIVE one RETIRED. -/
def execScaleBankLive (site : Site) (s : State) : Host.Outcome State Fault Refusal :=
  let x := tileOf s site
  let live := liveBank x
  if siteKind site ≠ 0 ∨ (bankOf x (1 - live)).state ≠ .next ∨ !landsNext s x.nextTime 5 then done s
  else
    let s1 := advance s x.nextTime
    let y := setBank (setBank x live { bankOf x live with state := .retired }) (1 - live) { bankOf x (1 - live) with state := .live }
    done (finishFirst (setTile s1 site { y with liveTime := x.nextTime }) (fun k => k == .scaleSet site) stOK 0 x.nextTime)

/-- The arrival field of a frame that has something in the fabric, where a tack line of it tells it. -/
def fabricArrival (s : State) (q : Nat × Nat) : Option Nat :=
  let noted (m : AMap (EndPoint × Nat) (Nat × TackInfo)) : Option Nat := m.findSome? (fun p => if p.1.2 = q.1 ∧ p.2.1 = q.2 then some p.2.2.arrival else none)
  let beats : List Beat := s.fabric.outQs.flatMap (fun p => p.2.map (·.beat)) ++ s.fabric.links.flatMap (fun p => p.2.flights.map (·.beat))
  (((frameOf (streamOf s q.1) q.2).map (·.arrival)).or (noted s.fabric.lastTack)).or ((noted s.fabric.headInfo).or
    (beats.findSome? (fun b => if isTack b && bStream b == q.1 && tackFrame b == q.2 then some (tackArrival b) else none)))

/-- An inferred frame that arrived before T is still in the part (R136): at its stream, or in the fabric, which counts one that came over the span and one
whose results leave elsewhere. A frame whose arrival nothing tells counts as older: DEDUCED (notes/assumptions/44.md). -/
def olderFrames (s : State) (t : Fc) : Bool :=
  s.streams.any (fun c => c.frames.any (fun f => !f.courier && !f.aborted && decide (f.arrival < t) && inFlight f))
    || (fabricFrames s).any (fun q => !(frameOf (streamOf s q.1) q.2).any (·.aborted) && (match fabricArrival s q with | some a => decide (a < t) | none => true))

def execScaleBankRetireDone (site : Site) (s : State) : Host.Outcome State Fault Refusal :=
  let x := tileOf s site
  let other := 1 - liveBank x
  if siteKind site ≠ 0 ∨ (bankOf x other).state ≠ .retired ∨ olderFrames s x.liveTime then done s
  else done (setTile s site (setBank x other { bankOf x other with state := .spare }))

/-- The entries of the LIVE bank or of the other one. -/
def scaleRead (s : State) (p : Packet) : Verdict :=
  let u : Site := pktDw p 2
  match scaleArgs p [(8, 1)] with
  | some st => refuse s st
  | none =>
    let x := tileOf s u
    let b := if dbit (pktDw p 8) 0 then 1 - liveBank x else liveBank x
    let bytes := (List.range' (dbits (pktDw p 3) 10 0) (dbits (pktDw p 3) 26 16 + 1)).flatMap (fun i => dwBytes (tileEntry x b i))
    .finish stOK 0 [(pktQ p 4, bytes)] s

def execScaleRead (c : HostCmd) (s : State) : Host.Outcome State Fault Refusal :=
  takeCmd s c 0x29 0 scaleRead

end Sys2Proof.Machine
end

