-- ==== Sys2Proof/Machine/Snapshot.lean ====
section
/-! DEFINITION. SNAPSHOT (spec/15_availability.md R426 to R428): the bytes of a snapshot region, and the commands that make, copy and free it. What
R428 leaves open of their layout is fixed in notes/assumptions/17.md. -/

namespace Sys2Proof.Machine

/-- A directory entry with its contents. -/
structure SnapEntry where
  site : Site
  type : Nat
  store : Nat
  bytes : List Byte
  deriving DecidableEq, Repr

/-! ### Control state: type 1 -/

/-- 32 bytes of a slot. -/
def slotBytes (bound : Bool) (stream frame : Nat) (cs : List Nat) (wide : Bool) : List Byte :=
  leBytes 4 (b2n bound + stream * 2 ^ 8) ++ leBytes 4 frame ++ (padTo 8 (cs.flatMap (leBytes 2))) ++ leBytes 16 (b2n wide)

/-- 16 bytes of a scoreboard entry. -/
def boardBytes (e : Issued) : List Byte := leBytes 2 e.slot ++ leBytes 2 e.index ++ leBytes 4 e.a ++ leBytes 4 e.b ++ leBytes 4 e.d

def sequencerBytes (slots : List (Option Slot)) (board : List Issued) : List Byte :=
  slots.flatMap (fun o => match o with
    | some k => slotBytes true k.stream k.frame [k.c0, k.c1, k.c2, k.c3] k.wide
    | none => slotBytes false 0 0 [] false) ++ board.flatMap boardBytes

/-- A unit without slots records its frames in progress as slots. -/
def frameBytes (l : List (Nat × Nat)) : List Byte := l.flatMap (fun f => slotBytes true f.1 f.2 [] false)

def controlEntries (s : State) : List SnapEntry :=
  (sitesOfKind 0).map (fun u => ⟨u, 1, 0, sequencerBytes (tileOf s u).slots (tileOf s u).board⟩)
    ++ (sitesOfKind 1).map (fun u => ⟨u, 1, 0, sequencerBytes (vtileOf s u).slots (vtileOf s u).board⟩)
    ++ (sitesOfKind 2).map (fun u => ⟨u, 1, 0, (wtileOf s u).slots.flatMap (fun o => match o with
          | some k => slotBytes true k.stream k.frame [] false
          | none => slotBytes false 0 0 [] false)⟩)
    ++ (sitesOfKind 3).map (fun u => ⟨u, 1, 0, frameBytes (steerFrames s u)⟩)
    ++ (sitesOfKind 5).map (fun u => ⟨unitName u, 1, 0, frameBytes (portFrames s (sitePort u))⟩)

/-! ### Beats: type 2 -/

/-- 72 bytes of a beat. -/
def beatBytes (index : Nat) (data : BitVec 512) (side : BitVec 32) : List Byte :=
  leBytes 64 data.toNat ++ leBytes 4 side.toNat ++ leBytes 2 index ++ leBytes 2 0

def beatsBytes (first : Nat) (l : List Beat) : List Byte := l.zipIdx.flatMap (fun q => beatBytes (first + q.2) q.1.data q.1.side)

/-- The pointers that head an entry of stores 2 to 7. -/
def pointerBytes (wp rp : Nat) : List Byte := leBytes 4 wp ++ leBytes 4 rp

/-- A circular queue of 2^a entries from a base with its beats: pointers, then each beat with the entry that holds it (R168). -/
def circularQueue (a base wp rp : Nat) (l : List Beat) : List Byte :=
  pointerBytes wp rp ++ l.zipIdx.flatMap (fun q => beatBytes (base + (rp + q.2) % 2 ^ a) q.1.data q.1.side)

/-- A queue that the spec gives no pointers: they count from 0. -/
def listQueue (l : List Beat) : List Byte := pointerBytes l.length 0 ++ beatsBytes 0 l

/-- Every beat on its way, once for each place, with the output register or the boundary FIFO that holds it at the end of fc T − 1 of the halt. The
copies of a beat that share a place are one beat there, and a beat lost at an output stands nowhere behind it (R76). -/
def flightPlaces (s : State) : List (Fc × Site × Nat × Option Site × Beat) :=
  dedup (s.fabric.links.flatMap (fun q => q.2.flights.filterMap (fun f =>
    (flightAt (s.hal.haltTime - 1) { f with hops := liveHops s f }).map (fun g => (f.sent, g.1.box, g.1.out, g.2, f.beat)))))

/-- Beats on their way that have left a boundary FIFO behind an output by the end of fc T − 1 of the halt: they are read (R168). -/
def fifoRead (s : State) (box : Site) (out : Nat) : Nat :=
  (dedup (s.fabric.links.flatMap (fun q => q.2.flights.filterMap (fun f =>
    if (liveHops s f).any (fun h => h.box == box && h.out == out && h.fifo.any (fun g => decide (g.2 < s.hal.haltTime))) then some f.sent else none)))).length

/-- The pointers of a boundary FIFO behind an output: its read pointer, and as many entries on as it holds beats (R167, R168). -/
def fifoEntry (s : State) (l : List (Fc × Site × Nat × Option Site × Beat)) (k : Site × Nat × Site) : SnapEntry :=
  let beats := (l.filter (fun g => g.2.1 == k.1 && g.2.2.1 == k.2.1 && g.2.2.2.1 == some k.2.2)).map (fun g => g.2.2.2.2)
  let rp := (amGetD s.fabric.fifoRp (k.1, k.2.1) 0 + fifoRead s k.1 k.2.1) % 16
  ⟨k.2.2, 2, 2, circularQueue 3 0 ((rp + beats.length) % 16) rp beats⟩

def trackEntries (s : State) : List SnapEntry :=
  let l := sortBy Prod.fst (flightPlaces s)
  let regs := l.filter (fun g => g.2.2.2.1.isNone)
  let fifos := dedup (l.filterMap (fun g => g.2.2.2.1.map (fun f => (g.2.1, g.2.2.1, f))))
  (dedup (regs.map (fun g => g.2.1))).map (fun b =>
      ⟨b, 2, 0, (regs.filter (fun g => g.2.1 == b)).flatMap (fun g => beatBytes g.2.2.1 g.2.2.2.2.data g.2.2.2.2.side)⟩)
    ++ fifos.map (fifoEntry s l)

/-- An input buffer: a first record with the link's free-space and filled values, then the beats. -/
def inputEntry (s : State) (e : EndPoint) : SnapEntry :=
  let free := match linkProducer s e with | some p => (linkOr s p (linkPaths s p)).free | none => 0
  ⟨siteWithSub e.site (if siteKind e.site ≤ 5 then e.port else siteSub e.site), 2, 1,
    leBytes 2 free ++ leBytes 2 (inBuf s e).length ++ leBytes 68 0 ++ beatsBytes 0 (inBuf s e)⟩

/-- The inputs at which a link of the active hoist ends: element ports, egress attachments, and the span ports' transmit inputs. -/
def linkInputs (s : State) : List EndPoint :=
  (((List.range 6).flatMap (fun k => (sitesOfKind k).flatMap (fun u => endsOf u (inPorts s u)))) ++ (List.range Config.streams).map egressEnd
    ++ (List.range Config.spanPorts).flatMap (fun p => endsOf (spanSite p) (List.range 4))).filter (fun e => (linkProducer s e).isSome)

/-- Every input of the active hoist, its semaphores with it (R428). -/
def inputEntries (s : State) : List SnapEntry := (dedup (linkInputs s ++ amKeys s.fabric.inBufs)).map (inputEntry s)

def skewEntries (s : State) : List SnapEntry :=
  s.steer.flatMap (fun t => t.2.queues.flatMap (fun q =>
    let u := t.1
    let ring := (List.range (subCount s u q.2)).map (fun k =>
      let a := subAddress s u q.1 ((q.2.subRp + k) % 2 ^ subLog2 s u)
      (⟨memLine s.feed.lpddr a, amGetD s.feed.spillSide a 0⟩ : Beat))
    let held : List Byte := match skewDescOf (cfgDw s u) q.1 with
      | some d => q.2.beats.zipIdx.flatMap (fun x => beatBytes (skewEntry d q.2 x.2) x.1.beat.data x.1.beat.side)
      | none => []
    [⟨siteWithSub u q.1, 2, 3, pointerBytes q.2.wp q.2.rp ++ held⟩]
      ++ (if ring.isEmpty then [] else [⟨siteWithSub u q.1, 2, 4, circularQueue (subLog2 s u) 0 q.2.subWp q.2.subRp ring⟩])))

/-- The storage entry of a queue's i-th beat: its own entries in turn; one in the pool is named by 1,024 and its place (notes/assumptions/17.md). -/
def storageEntry (s : State) (q rp i : Nat) : Nat :=
  if i < 2 ^ queueLog2 s q then dbits (queueDw s q 1) 16 7 + (rp + i) % 2 ^ queueLog2 s q else 1024 + i

def queueEntries (s : State) : List SnapEntry :=
  s.feed.queues.map (fun q =>
    let x := q.2
    let at_ (i : Nat) : Nat := storageEntry s q.1 x.rp i
    ⟨queueSite q.1, 2, 5, pointerBytes x.wp x.rp
      ++ (x.entries.zipIdx.filter (fun e => e.1.filled)).flatMap (fun e => beatBytes (at_ e.2) e.1.data e.1.side)
      ++ x.beats.zipIdx.flatMap (fun w => beatBytes (at_ (x.entries.length + w.2)) w.1.beat.data w.1.beat.side)⟩)

/-- Beats and payloads of an ingress buffer. -/
def ingressEntries (s : State) : List SnapEntry :=
  (List.range Config.streams).filterMap (fun st =>
    let c := streamOf s st
    let l := (c.buffer.filter (fun e => !e.owed)).map (fun e => match e.beat with | some b => b | none => ⟨e.payload, 0⟩)
    if l.isEmpty then none else some ⟨laneSite st, 2, 6, circularQueue 14 0 c.bufWp (bufRp s.now c) l⟩)

def shareEntries (s : State) : List SnapEntry :=
  (List.range Config.spanPorts).flatMap (fun p => (List.range 4).filterMap (fun j =>
    let l := (subOf (spanOf s p) j).rx.map Prod.fst
    if l.isEmpty then none else some ⟨spanSite p, 2, 7, listQueue l⟩))

def beatEntries2 (s : State) : List SnapEntry :=
  trackEntries s ++ inputEntries s ++ skewEntries s ++ queueEntries s ++ ingressEntries s ++ shareEntries s

/-! ### Stores: type 3, and configuration words: type 4 -/

def dwordsBytes (l : List Dword) : List Byte := l.flatMap dwBytes

def bankBytes (b : ScaleBank) : List Byte := dwordsBytes ((List.range 1032).map (fun i => amGetD b.entries i 0))

/-- The accumulator file: 8 sets of 1,024, or 16 set pairs of 512 in the float modes (R98), then the 8 side sets. -/
def accBytes (s : State) (u : Site) : List Byte :=
  let t := tileOf s u
  let main := if isInt s u then (List.range 8).flatMap (fun d => (setOf t d).acc)
    else (List.range 16).flatMap (fun d => padTo2 ((setOf t d).acc.take 512))
  dwordsBytes (main ++ (List.range 8).flatMap (sideOf_ t))
where
  padTo2 (l : List Dword) : List Dword := l ++ List.replicate (512 - l.length) 0

def tileStores (s : State) (u : Site) : List SnapEntry :=
  let t := tileOf s u
  [⟨u, 3, 0, memRead t.weights 0 786432⟩, ⟨u, 3, 1, bankBytes t.bank0⟩, ⟨u, 3, 2, bankBytes t.bank1⟩,
   ⟨u, 3, 5, (List.range 1024).flatMap (fun i => leBytes 64 (lineAt t i).data.toNat)⟩, ⟨u, 3, 6, accBytes s u⟩]

def storeEntries (s : State) : List SnapEntry :=
  (sitesOfKind 0).flatMap (tileStores s)
    ++ (sitesOfKind 1).map (fun u => ⟨u, 3, 3, dwordsBytes ((List.range 1024).flatMap (entryOf (vtileOf s u)))⟩)
    ++ (sitesOfKind 2).map (fun u => ⟨u, 3, 4, (List.range 8192).flatMap (fun i => leBytes 64 (amGetD (wtileOf s u).lines i 0).toNat)⟩)

def wordEntries (s : State) : List SnapEntry :=
  match s.hal.active with
  | some h => (hoistOf s h).words.map (fun q => ⟨q.1, 4, 0, dwordsBytes q.2⟩)
  | none => []

/-! ### The region (R428) -/

def snapEntries (s : State) (flags : Nat) : List SnapEntry :=
  (if flags.testBit 0 then controlEntries s else []) ++ (if flags.testBit 1 then beatEntries2 s else [])
    ++ (if flags.testBit 2 then storeEntries s else []) ++ (if flags.testBit 3 then wordEntries s else [])

/-- Span record of a port: UP, an echo received, the sub-ports whose echo came, the echo's T. -/
def spanRecord (s : State) (p : Nat) : List Byte :=
  let x := spanOf s p
  let mask := ((List.range 4).map (fun j => if x.echoes.any (fun e => e.1 == j) then 2 ^ j else 0)).foldl (· + ·) 0
  let t := match x.echoes.head? with | some e => e.2.1 | none => 0
  leBytes 8 (b2n (x.state == .up) + b2n (!x.echoes.isEmpty) * 2 + mask * 2 ^ 4) ++ leBytes 8 t

/-- Directory and contents: each entry starts at a multiple of 64 bytes. -/
def snapBody : List SnapEntry → Nat → List Byte × List Byte
  | [], _ => ([], [])
  | e :: rest, offset =>
    let data := padTo (roundUp e.bytes.length 64) e.bytes
    let r := snapBody rest (offset + data.length)
    (leBytes 4 e.site.toNat ++ leBytes 2 e.type ++ leBytes 2 e.store ++ leBytes 4 (offset / 64) ++ leBytes 4 e.bytes.length ++ r.1, data ++ r.2)

def snapBytes (s : State) (flags : Nat) : List Byte :=
  let entries := snapEntries s flags
  let dirSize := roundUp (16 * entries.length) 64
  let body := snapBody entries (4096 + dirSize)
  let rest := padTo dirSize body.1 ++ body.2
  let size := roundUp (4096 + rest.length) 4096
  let head := leBytes 4 0x59504E53 ++ leBytes 2 1 ++ leBytes 2 Config.deviceId ++ leBytes 2 Config.stepping ++ leBytes 2 flags
    ++ leBytes 4 entries.length ++ leBytes 8 s.hal.haltTime ++ leBytes 8 size
    ++ (List.range 8).flatMap (spanRecord s)
  padTo size (padTo 4096 head ++ rest)

/-- The lowest free place for a region: at 0 or behind a region in use. -/
def freePlace (used : List (Nat × Nat)) (size : Nat) : Option Nat :=
  let starts := sortBy id (0 :: used.map (fun r => roundUp (r.1 + r.2) 4096))
  starts.find? (fun a => decide (a + size ≤ Config.memTop) && used.all (fun r => decide (a + size ≤ r.1) || decide (r.1 + r.2 ≤ a)))

/-- Where the region would stand, with an earlier one given up. -/
def snapPlace (s : State) (size : Nat) : Option Nat := freePlace (regionsInUse { s with snap := { s.snap with region := none } }) size

/-! ### The commands (R427) -/

def snapshotCapture (s : State) (p : Packet) : Verdict :=
  let flags := dbits (pktDw p 3) 3 0
  if !pktOnly p [(2, 3), (3, 15)] || dbits (pktDw p 2) 1 0 != 0 || s.hal.halt != .halted then refuse s stBadParam
  else if s.snap.capturing || (snapPlace s (snapBytes s flags).length).isNone then refuse s stBusy
  else .pend .snapshotCapture { s with snap := { s.snap with capturing := true, flags := flags } }

def execSnapshotCapture (c : HostCmd) (s : State) : Host.Outcome State Fault Refusal := takeCmd s c 0x3A 0 snapshotCapture

/-- A read of a queue has not returned. -/
def readsInFlight (s : State) : Bool :=
  s.feed.channels.any (fun c => !c.inFlight.isEmpty || c.requests.any (fun r => r.write.isNone))
    || s.feed.queues.any (fun q => q.2.entries.any (fun e => !e.filled))

/-- The fc from which a port's halt echoes are waited for no more. -/
def echoesBy (s : State) (p : Nat) : Fc :=
  let x := spanOf s p
  if x.state = .up ∧ (List.range 4).any (fun j => rxUsed s p j && !x.echoes.any (fun e => e.1 == j)) then s.hal.haltTime + spanWait x else 0

/-- The cut is written. -/
def execSnapshotCaptureDone (s : State) : Host.Outcome State Fault Refusal :=
  let t := ((List.range Config.spanPorts).map (echoesBy s)).foldl max 0
  if !s.snap.capturing || readsInFlight s || !reaches s t then done s
  else
    let s1 := advance s t
    let bytes := snapBytes s1 s1.snap.flags
    let s2 := { s1 with snap := { s1.snap with capturing := false } }
    match snapPlace s1 bytes.length with
    | none => done (finishFirst s2 (fun k => k == .snapshotCapture) stBusy 0 s2.now)
    | some a =>
      let s3 := lpddrPut { s2 with snap := { s2.snap with region := some (a, bytes.length), capturedAt := s2.now } } a bytes
      done (finishFirst s3 (fun k => k == .snapshotCapture) stOK (dw (bytes.length / 4096)) s3.now)

def snapshotCopy (s : State) (p : Packet) : Verdict :=
  let off := pktQ p 4
  let len := (pktDw p 6).toNat
  let host := pktQ p 7
  match s.snap.region with
  | none => refuse s stBadParam
  | some r =>
    if !pktOnly p [(2, 3), (4, 0xFFFFFFFF), (5, 0xFFFFFFFF), (6, 0xFFFFFFFF), (7, 0xFFFFFFFF), (8, 0xFFFFFFFF)]
        || off % 4096 != 0 || len % 4096 != 0 || host % 4096 != 0 || decide (2 ^ 24 < len) || decide (r.2 < off + len) then refuse s stBadParam
    else if s.snap.copy.isSome then refuse s stBusy
    else .pend .snapshotCopy (addJob { s with snap := { s.snap with copy := some (r.1 + off, len, host) } } .snapshot false (r.1 + off) len)

def execSnapshotCopy (c : HostCmd) (s : State) : Host.Outcome State Fault Refusal := takeCmd s c 0x3A 1 snapshotCopy

/-- The last host write of a copy is issued, its lines read (R217). -/
def execSnapshotCopyDone (s : State) : Host.Outcome State Fault Refusal :=
  match s.snap.copy with
  | none => done s
  | some (a, len, host) =>
    if jobPending s .snapshot then done s else
    let s1 := { s with snap := { s.snap with copy := none }, fresh := s.fresh + len }
    done (finishFirst s1 (fun k => k == .snapshotCopy) stOK 0 s1.now [(host, jobBytes s a len)])

def snapshotRelease (s : State) (p : Packet) : Verdict :=
  if !pktOnly p [(2, 3)] || s.snap.region.isNone then refuse s stBadParam
  else okAt { s with snap := { s.snap with region := none } }

def execSnapshotRelease (c : HostCmd) (s : State) : Host.Outcome State Fault Refusal := takeCmd s c 0x3A 2 snapshotRelease

end Sys2Proof.Machine
end

