-- ==== Sys2Proof/Machine/TraceCnt.lean ====
section
/-! DEFINITION. TRACE_SET, the trace engine's writes, COUNTER_SET and COUNTER_GRANT (spec/16_observation.md R434 to R452). -/

namespace Sys2Proof.Machine

def setTrace (s : State) (t : Trace) : State := { s with trace := t }

/-- Bits of a packet that TRACE_SET op 0 uses. -/
def traceMasks : List (Nat × Dword) :=
  [(2, 0x0F33F307), (3, 0x1FF), (4, 0x1FF), (5, 0xFFFFFFFF), (14, 0x1FFFFF)] ++ (List.range 8).map (fun k => (6 + k, 0xFFFFFFFF))

def traceCfgOf (p : Packet) : TraceCfg :=
  let d2 := pktDw p 2
  { mode := dbits d2 9 8, postShare := dbits d2 15 12, privilege := dbits d2 17 16, triggerSrc := dbits d2 21 20, filtersUsed := dbits d2 27 24
    groups := dbits (pktDw p 4) 8 0, streams := pktDw p 5
    filters := (List.range 4).map (fun i => (pktDw p (6 + 2 * i), pktDw p (7 + 2 * i)))
    triggerType := dbits (pktDw p 14) 15 0, triggerClass := dbits (pktDw p 14) 20 16 }

/-- Bytes of a trace region (R439). -/
def traceSpan (units : Nat) : Nat := units * regionUnit

/-- A place for a trace region beside every other region, at a multiple of 14 MiB. -/
def tracePlace (s : State) (units : Nat) : Option Nat :=
  placeAt (regionsInUse (setTrace s { s.trace with state := .off })) (traceSpan units) (Config.memTop / regionUnit + 1) 0

/-- TRACE_SET op 0, and op 7, which is BAD_PARAM. -/
def traceConfigure (s : State) (p : Packet) : Verdict :=
  let t := s.trace
  let cfg := traceCfgOf p
  let units := dbits (pktDw p 3) 8 0
  if !pktOnly p traceMasks || dbits (pktDw p 2) 2 0 != 0 || cfg.mode == 3 || cfg.triggerSrc == 3 || cfg.privilege == 3
      || (cfg.mode == 2 && cfg.postShare == 0) || decide (292 < units) || (units == 0 && t.state == .off) || cfg.streams == 0 then refuse s stBadParam
  else if t.state = .running ∨ t.state = .post then refuse s stBusy
  else if t.state ≠ .off ∧ (units = 0 ∨ units = t.units) then okAt (setTrace s { t with state := .ready, cfg := cfg })
  else match tracePlace s units with
    | some a => okAt (setTrace s { t with state := .ready, cfg := cfg, units := units, base := a })
    | none => refuse s stBusy

def execTraceConfigure (c : HostCmd) (s : State) : Host.Outcome State Fault Refusal := takeCmd s c 0x40 0 traceConfigure

/-- A control record of the trace engine itself. -/
def controlRecord (s : State) (type : Nat) (d0 d1 d2 : Dword) : TraceRec := ⟨s.now, noSite, noFrame, type, none, 8, d0, d1, d2⟩

/-- TRACE_SET op 1: the buffers start empty. -/
def traceStart (s : State) (p : Packet) : Verdict :=
  let t := s.trace
  if !pktOnly p [(2, 7)] || !(t.state == .ready || t.state == .stopped) then refuse s stBadParam
  else
    let s1 := setTrace s { t with state := .running, wp := 0, wrap := false, triggered := false, trigTime := 0, trigLine := 0, sinceTrigger := 0,
                                  trigPending := none, bufs := List.replicate 9 {}, lastBuf := 8, flushing := false, nextLine := s.now }
    okAt (postDev (traceEnter s1 (controlRecord s1 0x0032 (dw t.cfg.mode) 0 0)) 0x18 0x0040 noSite s1.now t.cfg.mode)

def execTraceStart (c : HostCmd) (s : State) : Host.Outcome State Fault Refusal := takeCmd s c 0x40 1 traceStart

/-- TRACE_SET op 2: admission ends at take. -/
def traceStop (s : State) (p : Packet) : Verdict :=
  let t := s.trace
  if !pktOnly p [(2, 7)] || !(t.state == .running || t.state == .post) then refuse s stBadParam
  else .pend .traceStop (setTrace s { t with flushing := true })

def execTraceStop (c : HostCmd) (s : State) : Host.Outcome State Fault Refusal := takeCmd s c 0x40 2 traceStop

/-- TRACE_SET op 3. -/
def execTraceTrigger (c : HostCmd) (s : State) : Host.Outcome State Fault Refusal :=
  takeCmd s c 0x40 3 fun s p =>
    if !pktOnly p [(2, 7)] || !(s.trace.state == .running || s.trace.state == .post) then refuse s stBadParam
    else okAt (if s.trace.flushing then s else traceTrigger s 0 0 8)

/-- TRACE_SET op 4. The ring is the command's. -/
def traceMarker (ring : Nat) (s : State) (p : Packet) : Verdict :=
  if !pktOnly p [(2, 7), (3, 0xFFFFFFFF), (4, 0xFFFFFFFF)] || s.trace.state == .off then refuse s stBadParam
  else okAt (if tracing s then traceEnter s (controlRecord s 0x0024 (pktDw p 3) (pktDw p 4) (dw ring)) else s)

def execTraceMarker (c : HostCmd) (s : State) : Host.Outcome State Fault Refusal := takeCmd s c 0x40 4 (traceMarker c.ring)

/-- TRACE_SET op 5. -/
def traceRelease (s : State) (p : Packet) : Verdict :=
  let t := s.trace
  if !pktOnly p [(2, 7)] || t.state == .off then refuse s stBadParam
  else if t.state = .running ∨ t.state = .post then refuse s stBusy
  else okAt (setTrace s { t with state := .off, units := 0, base := 0 })

def execTraceRelease (c : HostCmd) (s : State) : Host.Outcome State Fault Refusal := takeCmd s c 0x40 5 traceRelease

/-- TRACE_SET op 6. -/
def traceCopy (s : State) (p : Packet) : Verdict :=
  let t := s.trace
  let off := pktQ p 3
  let len := (pktDw p 5).toNat
  let host := pktQ p 6
  if !pktOnly p [(2, 7), (3, 0xFFFFFFFF), (4, 0xFFFFFFFF), (5, 0xFFFFFFFF), (6, 0xFFFFFFFF), (7, 0xFFFFFFFF)] || t.state == .off
      || off % 4096 != 0 || len % 4096 != 0 || host % 4096 != 0 || decide (2 ^ 24 < len) || decide (traceSpan t.units < off + len) then refuse s stBadParam
  else .pend .traceCopy (addJob (setTrace s { t with copies := t.copies ++ [(t.base + off, len, host, s.now)] }) .traceCopy false (t.base + off) len)

def execTraceCopy (c : HostCmd) (s : State) : Host.Outcome State Fault Refusal := takeCmd s c 0x40 6 traceCopy

/-- The last host write of the oldest copy is issued, its lines read (R217): the lines as they stand. -/
def execTraceCopyDone (s : State) : Host.Outcome State Fault Refusal :=
  match s.trace.copies with
  | [] => done s
  | (a, len, host, at_) :: rest =>
    let mine (j : MemJob) : Bool := j.kind == .traceCopy && j.base == a && j.entered == at_
    if s.feed.jobs.any mine then done s else
    let s1 := { setTrace s { s.trace with copies := rest } with fresh := s.fresh + len }
    done (finishFirst s1 (fun k => k == .traceCopy) stOK 0 s1.now [(host, jobBytes s a len)])

/-! ### The engine's writes (R435, R438, R441) -/

/-- The 32 bytes of a record (R435). -/
def traceBytes (r : TraceRec) : List Byte :=
  leBytes 8 r.time ++ dwBytes r.site ++ dwBytes r.frame ++ leBytes 2 r.type
    ++ leBytes 1 (match r.stream with | some st => st % 32 + 0x80 | none => 0) ++ leBytes 1 r.buffer ++ dwBytes r.d0 ++ dwBytes r.d1 ++ dwBytes r.d2

def padBytes : List Byte := List.replicate 32 0

/-- P of R441. -/
def postRecords (t : Trace) : Nat := 2 * traceLines t * t.cfg.postShare / 16

/-- The trace stops by itself, with its reason. -/
def traceEnds (s : State) (reason : Nat) : State :=
  postDev (setTrace s { s.trace with state := .stopped, stopReason := reason }) 0x18 0x0041 noSite s.now reason

/-- One line of the region is written, by a request of interval 0 (R217); `after` of its two records follow the trigger record. -/
def traceLine (s : State) (bytes : List Byte) (after : Nat) : State :=
  let t := s.trace
  let a := t.base + 64 * t.wp
  let last := decide (traceLines t ≤ t.wp + 1)
  let s0 := writeLine s a (BitVec.ofNat 512 (leNat bytes))
  let s1 := { s0 with
    trace := { s0.trace with
      wp := if last then 0 else t.wp + 1
      wrap := if last then !t.wrap else t.wrap
      sinceTrigger := t.sinceTrigger + after
      nextLine := s.now + 4 } }
  let s3 := addJob (count s1 (99, 0x40) 2) .trace true a 64
  if t.state = .running ∧ t.cfg.mode = 1 ∧ last then traceEnds s3 1
  else if t.state = .post ∧ postRecords t ≤ s3.trace.sinceTrigger then traceEnds s3 2
  else s3

/-- A buffer's gap record is written: its losses are covered (R440). -/
def gapWritten (s : State) (k : Nat) : State :=
  let b := lget s.trace.bufs k {}
  if 0 < b.lost then count (setTrace s { s.trace with bufs := s.trace.bufs.set k { b with lost := 0, lostTime := 0 } }) (99, 0x50) 1 else s

/-- The next two records of a buffer, or one and a pad, go out. The trigger record goes ahead of every record not yet written, the control buffer's gap
record ahead of it. -/
def traceDrain (s : State) (b : Nat) : State :=
  let t := s.trace
  let x := lget t.bufs b {}
  let post := t.state == .post
  match t.trigPending with
  | some r =>
    let control := lget t.bufs 8 {}
    let s1 := setTrace s { t with trigPending := none, lastBuf := 8, trigLine := t.wp }
    match gapRecord 8 control with
    | g :: _ => traceLine (gapWritten s1 8) (traceBytes g ++ traceBytes r) 0
    | [] =>
      let s2 := setTrace s1 { s1.trace with bufs := s1.trace.bufs.set 8 { control with recs := control.recs.drop 1, aloneSince := s.now } }
      let second := match control.recs.head? with | some q => traceBytes q | none => padBytes
      traceLine s2 (traceBytes r ++ second) 1
  | none =>
    let s1 := setTrace s { t with lastBuf := b, bufs := t.bufs.set b { x with recs := x.recs.drop 2, aloneSince := s.now } }
    match x.recs with
    | q :: r :: _ => traceLine s1 (traceBytes q ++ traceBytes r) (if post then 2 else 0)
    | [q] => traceLine s1 (traceBytes q ++ padBytes) (if post then 2 else 0)
    | [] => s

/-- A buffer has a line to write: two records, or the trigger record for the control buffer, or, in a flush, any record. -/
def traceDue (t : Trace) (b : Nat) : Bool :=
  if t.trigPending.isSome then b == 8
  else decide ((if t.flushing then 1 else 2) ≤ (lget t.bufs b {}).recs.length)

/-- The engine writes: RUNNING and POST, and the flush. -/
def traceWrites (s : State) : Bool := s.trace.state == .running || s.trace.state == .post

/-- A line of the buffer whose turn it is, 4 fc after the last line at the earliest. -/
def execTraceLineWrite (buffer : Nat) (s : State) : Host.Outcome State Fault Refusal :=
  if traceWrites s && decide (s.trace.nextLine ≤ s.now) && nextRound s.trace.lastBuf 9 (traceDue s.trace) == some buffer then done (traceDrain s buffer)
  else done s

/-- A buffer has held a single record for 1,024 fc. -/
def execTraceBufferFlushTimer (buffer : Nat) (s : State) : Host.Outcome State Fault Refusal :=
  match (lget s.trace.bufs buffer {}).recs with
  | [_] =>
    let t := max ((lget s.trace.bufs buffer {}).aloneSince + 1024) s.trace.nextLine
    if traceWrites s && s.trace.trigPending.isNone && decide (buffer < 9) && reaches s t then done (traceDrain (advance s t) buffer) else done s
  | _ => done s

/-- A record still waits to be written. -/
def traceWaits (t : Trace) : Bool := (List.range 9).any (traceDue t)

/-- The buffers are flushed, the stop record is written, and TRACE_SET op 2 completes. A region that fills in mode 1 while the buffers are flushed has
stopped the trace already. -/
def execTraceStopFlushDone (s : State) : Host.Outcome State Fault Refusal :=
  if !s.trace.flushing || (traceWrites s && (traceWaits s.trace || !reaches s s.trace.nextLine)) then done s
  else
    let s1 := if traceWrites s then advance s s.trace.nextLine else s
    let ending (x : State) : State := if traceWrites x then traceEnds x 0 else x
    let last := traceBytes (controlRecord s1 0x0033 0 0 0)
    let bytes := match gapRecord 8 (lget s1.trace.bufs 8 {}) with | g :: _ => traceBytes g ++ last | [] => last ++ padBytes
    let s2 := if traceWrites s1 then ending (traceLine (gapWritten s1 8) bytes 0) else s1
    let s3 := setTrace s2 { s2.trace with flushing := false, lastBuf := 8 }
    done (finishEvery s3 (fun k => k == .traceStop) stOK 0 s3.now)

/-! ### COUNTER_SET (R446, R449, R450) -/

/-- Filters that apply to a counter event: site, stream, address, class, privilege. -/
def eventFilters (ev : Nat) : Bool × Bool × Bool × Bool × Bool :=
  match ev with
  | 0x02 => (true, true, false, true, false)
  | 0x03 => (false, false, false, false, true)
  | 0x04 | 0x05 | 0x06 => (true, false, true, false, false)
  | 0x07 | 0x0C => (true, false, false, false, false)
  | 0x08 | 0x09 | 0x0A | 0x0B | 0x0D | 0x0E => (true, true, false, false, false)
  | _ => (false, false, false, false, false)

/-- COUNTER_SET op 0 is refused: reserved bits and events, a filter that the event does not have, an empty mask, or an address range (R449). -/
def counterBad (p : Packet) : Bool :=
  let d3 := pktDw p 3
  let ev := dbits d3 7 0
  let cls := dbits d3 12 8
  let f := eventFilters ev
  let low := pktQ p 7
  let lim := pktQ p 9
  !pktOnly p ([(2, 0x13F07), (3, 0x31FFF)] ++ (List.range 7).map (fun k => (4 + k, 0xFFFFFFFF)))
    || dbits (pktDw p 2) 2 0 != 0 || decide (0x0E < ev) || dbits d3 17 16 == 3
    || (!f.1 && pktDw p 6 != 0) || (!f.2.1 && pktDw p 4 != 0xFFFFFFFF) || pktDw p 4 == 0
    || (!f.2.2.1 && (lim != 0 || low != 0)) || (!f.2.2.2.1 && cls != 0 && cls != 0x1F) || (ev == 0x02 && cls == 0) || (!f.2.2.2.2 && dbits d3 17 16 != 0)
    || low % 64 != 0 || lim % 64 != 0 || (lim != 0 && decide (lim ≤ low))

def counterConfigure (s : State) (p : Packet) : Verdict :=
  let k := dbits (pktDw p 2) 13 8
  if counterBad p then refuse s stBadParam
  else
    let s1 := foldCounters s
    okAt { s1 with cnt := { s1.cnt with progs := s1.cnt.progs.set k { cfg := (List.range 8).map (fun i => pktDw p (3 + i)), run := dbit (pktDw p 2) 16 } } }

def execCounterConfigure (c : HostCmd) (s : State) : Host.Outcome State Fault Refusal := takeCmd s c 0x41 0 counterConfigure

/-- Counters named by dwords 3 and 4. -/
def namedCounters (p : Packet) : List Nat := (List.range 64).filter (fun k => (pktQ p 3).testBit k)

def counterRunMask (s : State) (p : Packet) : Verdict :=
  if !pktOnly p [(2, 7), (3, 0xFFFFFFFF), (4, 0xFFFFFFFF), (5, 0xFFFFFFFF)] then refuse s stBadParam
  else okAt ((namedCounters p).foldl (fun x k => runCounter x k (dbit (pktDw p 5) 0)) s)

def execCounterRunMask (c : HostCmd) (s : State) : Host.Outcome State Fault Refusal := takeCmd s c 0x41 1 counterRunMask

def counterClearMask (s : State) (p : Packet) : Verdict :=
  if !pktOnly p [(2, 7), (3, 0xFFFFFFFF), (4, 0xFFFFFFFF)] then refuse s stBadParam
  else okAt ((namedCounters p).foldl clearCounter s)

def execCounterClearMask (c : HostCmd) (s : State) : Host.Outcome State Fault Refusal := takeCmd s c 0x41 2 counterClearMask

def counterSampleAll (s : State) (p : Packet) : Verdict :=
  if !pktOnly p [(2, 7)] then refuse s stBadParam
  else okAt (((List.range 100).filter pagePresent).foldl (fun x g => samplePage x false g) s)

def execCounterSampleAll (c : HostCmd) (s : State) : Host.Outcome State Fault Refusal := takeCmd s c 0x41 3 counterSampleAll

/-- COUNTER_GRANT (R451): the BAR2 view is reset by a grant and by a revocation. -/
def counterGrant (s : State) (p : Packet) : Verdict :=
  let g := dbits (pktDw p 2) 10 0
  if g < 100 ∧ !pagePresent g then refuse s stNotPresent
  else if 100 ≤ g ∨ !pktOnly p [(2, 0x307FF)] then refuse s stBadParam
  else
    let grants := if dbit (pktDw p 2) 16 then amSet s.cnt.grants g (dbit (pktDw p 2) 17) else amErase s.cnt.grants g
    okAt { s with cnt := { s.cnt with grants := grants, bar2 := amErase s.cnt.bar2 g } }

def execCounterGrant (c : HostCmd) (s : State) : Host.Outcome State Fault Refusal := takeCmd s c 0x42 0 counterGrant

end Sys2Proof.Machine
end

