-- ==== Sys2Proof/Machine/Dispatch.lean ====
section
/-! DEFINITION. One arm per command of the table. -/

namespace Sys2Proof.Machine

def exec (i : Instr) (s : State) : Host.Outcome State Fault Refusal :=
  match i with
  | .nop c => Sys2Proof.Machine.execNop c s
  | .identify c => Sys2Proof.Machine.execIdentify c s
  | .attestReport c => Sys2Proof.Machine.execAttestReport c s
  | .attestCertificate c => Sys2Proof.Machine.execAttestCertificate c s
  | .imageLoad c file => Sys2Proof.Machine.execImageLoad c file s
  | .imageLoadSection c => Sys2Proof.Machine.execImageLoadSection c s
  | .imageLoadDone => Sys2Proof.Machine.execImageLoadDone s
  | .imageVerify c file => Sys2Proof.Machine.execImageVerify c file s
  | .imageVerifyDone => Sys2Proof.Machine.execImageVerifyDone s
  | .hoistArmTarget c => Sys2Proof.Machine.execHoistArmTarget c s
  | .hoistArmMirror c => Sys2Proof.Machine.execHoistArmMirror c s
  | .mirrorCopyDone => Sys2Proof.Machine.execMirrorCopyDone s
  | .hoistSwitch c => Sys2Proof.Machine.execHoistSwitch c s
  | .hoistSwitchLands => Sys2Proof.Machine.execHoistSwitchLands s
  | .hoistRelease c => Sys2Proof.Machine.execHoistRelease c s
  | .hoistReleaseImageOnly c => Sys2Proof.Machine.execHoistReleaseImageOnly c s
  | .streamOpen c => Sys2Proof.Machine.execStreamOpen c s
  | .streamClose c => Sys2Proof.Machine.execStreamClose c s
  | .streamCloseDrained stream => Sys2Proof.Machine.execStreamCloseDrained stream s
  | .streamCloseTimeout stream => Sys2Proof.Machine.execStreamCloseTimeout stream s
  | .streamMode c => Sys2Proof.Machine.execStreamMode c s
  | .streamModeLands stream => Sys2Proof.Machine.execStreamModeLands stream s
  | .descArm c => Sys2Proof.Machine.execDescArm c s
  | .descDisarm c => Sys2Proof.Machine.execDescDisarm c s
  | .scaleSet c table => Sys2Proof.Machine.execScaleSet c table s
  | .scaleBankLive site => Sys2Proof.Machine.execScaleBankLive site s
  | .scaleBankRetireDone site => Sys2Proof.Machine.execScaleBankRetireDone site s
  | .scaleRead c => Sys2Proof.Machine.execScaleRead c s
  | .selfTestProveUnit c => Sys2Proof.Machine.execSelfTestProveUnit c s
  | .selfTestRequestWindow c => Sys2Proof.Machine.execSelfTestRequestWindow c s
  | .selfTestGrantWindow c => Sys2Proof.Machine.execSelfTestGrantWindow c s
  | .selfTestReport c => Sys2Proof.Machine.execSelfTestReport c s
  | .fullWindowStart => Sys2Proof.Machine.execFullWindowStart s
  | .fullWindowEnd failed => Sys2Proof.Machine.execFullWindowEnd failed s
  | .calibrateChannel c => Sys2Proof.Machine.execCalibrateChannel c s
  | .calibrateAllChannels c => Sys2Proof.Machine.execCalibrateAllChannels c s
  | .calibrateLane c eyeHeight eyeWidth => Sys2Proof.Machine.execCalibrateLane c eyeHeight eyeWidth s
  | .unitDisable c => Sys2Proof.Machine.execUnitDisable c s
  | .unitEnable c => Sys2Proof.Machine.execUnitEnable c s
  | .unitDrainDone site => Sys2Proof.Machine.execUnitDrainDone site s
  | .unitDrainTimeout site => Sys2Proof.Machine.execUnitDrainTimeout site s
  | .haltAt c => Sys2Proof.Machine.execHaltAt c s
  | .haltLands => Sys2Proof.Machine.execHaltLands s
  | .resume c => Sys2Proof.Machine.execResume c s
  | .resumeLands => Sys2Proof.Machine.execResumeLands s
  | .snapshotCapture c => Sys2Proof.Machine.execSnapshotCapture c s
  | .snapshotCaptureDone => Sys2Proof.Machine.execSnapshotCaptureDone s
  | .snapshotCopy c => Sys2Proof.Machine.execSnapshotCopy c s
  | .snapshotRelease c => Sys2Proof.Machine.execSnapshotRelease c s
  | .traceConfigure c => Sys2Proof.Machine.execTraceConfigure c s
  | .traceStart c => Sys2Proof.Machine.execTraceStart c s
  | .traceStop c => Sys2Proof.Machine.execTraceStop c s
  | .traceStopFlushDone => Sys2Proof.Machine.execTraceStopFlushDone s
  | .traceTrigger c => Sys2Proof.Machine.execTraceTrigger c s
  | .traceMarker c => Sys2Proof.Machine.execTraceMarker c s
  | .traceRelease c => Sys2Proof.Machine.execTraceRelease c s
  | .traceCopy c => Sys2Proof.Machine.execTraceCopy c s
  | .counterConfigure c => Sys2Proof.Machine.execCounterConfigure c s
  | .counterRunMask c => Sys2Proof.Machine.execCounterRunMask c s
  | .counterClearMask c => Sys2Proof.Machine.execCounterClearMask c s
  | .counterSampleAll c => Sys2Proof.Machine.execCounterSampleAll c s
  | .counterGrant c => Sys2Proof.Machine.execCounterGrant c s
  | .spanOpen c => Sys2Proof.Machine.execSpanOpen c s
  | .spanClose c => Sys2Proof.Machine.execSpanClose c s
  | .spanMeasure c => Sys2Proof.Machine.execSpanMeasure c s
  | .fwStage c package => Sys2Proof.Machine.execFwStage c package s
  | .fwStageDone => Sys2Proof.Machine.execFwStageDone s
  | .fwSwitch c => Sys2Proof.Machine.execFwSwitch c s
  | .fwSwitchLands => Sys2Proof.Machine.execFwSwitchLands s
  | .fwCoreReady core => Sys2Proof.Machine.execFwCoreReady core s
  | .fwReadyTimeout core => Sys2Proof.Machine.execFwReadyTimeout core s
  | .lifecycleTransition c auth => Sys2Proof.Machine.execLifecycleTransition c auth s
  | .lifecycleAddKey c auth => Sys2Proof.Machine.execLifecycleAddKey c auth s
  | .lifecycleRevokeImageKey c auth => Sys2Proof.Machine.execLifecycleRevokeImageKey c auth s
  | .lifecycleRevokeFwKey c auth => Sys2Proof.Machine.execLifecycleRevokeFwKey c auth s
  | .wipeFreeSpace c => Sys2Proof.Machine.execWipeFreeSpace c s
  | .wipeFreeSpaceDone => Sys2Proof.Machine.execWipeFreeSpaceDone s
  | .wipeDevice c => Sys2Proof.Machine.execWipeDevice c s
  | .wipeStagedFirmware c => Sys2Proof.Machine.execWipeStagedFirmware c s
  | .powerSetOperatingPoint c => Sys2Proof.Machine.execPowerSetOperatingPoint c s
  | .powerSetCap c => Sys2Proof.Machine.execPowerSetCap c s
  | .powerSetThermal c => Sys2Proof.Machine.execPowerSetThermal c s
  | .powerSetSleep c => Sys2Proof.Machine.execPowerSetSleep c s
  | .powerSetWake c => Sys2Proof.Machine.execPowerSetWake c s
  | .powerSetReset c => Sys2Proof.Machine.execPowerSetReset c s
  | .delayedDeviceReset => Sys2Proof.Machine.execDelayedDeviceReset s
  | .thermalRead c => Sys2Proof.Machine.execThermalRead c s
  | .hifDbSqTail ring value => Sys2Proof.Machine.execHifDbSqTail ring value s
  | .hifDbCqHead ring value => Sys2Proof.Machine.execHifDbCqHead ring value s
  | .ringEnable ring value => Sys2Proof.Machine.execRingEnable ring value s
  | .ringDisable ring value => Sys2Proof.Machine.execRingDisable ring value s
  | .ringDrainDone ring => Sys2Proof.Machine.execRingDrainDone ring s
  | .packetFetch ring packets => Sys2Proof.Machine.execPacketFetch ring packets s
  | .functionLevelReset => Sys2Proof.Machine.execFunctionLevelReset s
  | .hotReset => Sys2Proof.Machine.execHotReset s
  | .linkDown => Sys2Proof.Machine.execLinkDown s
  | .busMasterEnableClear => Sys2Proof.Machine.execBusMasterEnableClear s
  | .busMasterEnableSet => Sys2Proof.Machine.execBusMasterEnableSet s
  | .powerStateD3hot => Sys2Proof.Machine.execPowerStateD3hot s
  | .msixVectorUnmask vector functionMask => Sys2Proof.Machine.execMsixVectorUnmask vector functionMask s
  | .registerWrite bar offset value => Sys2Proof.Machine.execRegisterWrite bar offset value s
  | .malformedRegisterAccess bar offset size write => Sys2Proof.Machine.execMalformedRegisterAccess bar offset size write s
  | .latchedLoRead bar offset => Sys2Proof.Machine.execLatchedLoRead bar offset s
  | .rcRead bar offset => Sys2Proof.Machine.execRcRead bar offset s
  | .evtPendAck fast hi value => Sys2Proof.Machine.execEvtPendAck fast hi value s
  | .evtIdleArm hi value => Sys2Proof.Machine.execEvtIdleArm hi value s
  | .evtLogEnable fast value => Sys2Proof.Machine.execEvtLogEnable fast value s
  | .evtLogDisable fast value => Sys2Proof.Machine.execEvtLogDisable fast value s
  | .evtLogHead fast value => Sys2Proof.Machine.execEvtLogHead fast value s
  | .evtVecMod vector value => Sys2Proof.Machine.execEvtVecMod vector value s
  | .halProofCtrl value => Sys2Proof.Machine.execHalProofCtrl value s
  | .memMaintCtrl value => Sys2Proof.Machine.execMemMaintCtrl value s
  | .cntPageSample bar2 page value => Sys2Proof.Machine.execCntPageSample bar2 page value s
  | .cntPageClear bar2 page value => Sys2Proof.Machine.execCntPageClear bar2 page value s
  | .cntPageRun bar2 page value => Sys2Proof.Machine.execCntPageRun bar2 page value s
  | .moderationTimerExpiry vector => Sys2Proof.Machine.execModerationTimerExpiry vector s
  | .heldRecordWrite fast => Sys2Proof.Machine.execHeldRecordWrite fast s
  | .configScrub site hoist dword found => Sys2Proof.Machine.execConfigScrub site hoist dword found s
  | .autoMirrorSwitch => Sys2Proof.Machine.execAutoMirrorSwitch s
  | .configRewriteDone site hoist readable rechecked => Sys2Proof.Machine.execConfigRewriteDone site hoist readable rechecked s
  | .beatSend producer => Sys2Proof.Machine.execBeatSend producer s
  | .beatArrive consumer upset => Sys2Proof.Machine.execBeatArrive consumer upset s
  | .creditReturnArrive producer => Sys2Proof.Machine.execCreditReturnArrive producer s
  | .segmentContention segment => Sys2Proof.Machine.execSegmentContention segment s
  | .voidTackLineReceive input stream => Sys2Proof.Machine.execVoidTackLineReceive input stream s
  | .slotBind site => Sys2Proof.Machine.execSlotBind site s
  | .operationIssue site => Sys2Proof.Machine.execOperationIssue site s
  | .aloadBeat site slot port => Sys2Proof.Machine.execAloadBeat site slot port s
  | .rowExponentFix site slot historyParity => Sys2Proof.Machine.execRowExponentFix site slot historyParity s
  | .macFire site slot weight parity => Sys2Proof.Machine.execMacFire site slot weight parity s
  | .omacFire site slot weights parity => Sys2Proof.Machine.execOmacFire site slot weights parity s
  | .clipCheck site slot => Sys2Proof.Machine.execClipCheck site slot s
  | .drainFire site slot parity => Sys2Proof.Machine.execDrainFire site slot parity s
  | .fetchFire site slot => Sys2Proof.Machine.execFetchFire site slot s
  | .fetchBeatWrite site port => Sys2Proof.Machine.execFetchBeatWrite site port s
  | .waitComplete site slot => Sys2Proof.Machine.execWaitComplete site slot s
  | .releaseFire site slot => Sys2Proof.Machine.execReleaseFire site slot s
  | .tileWatchdogExpiry site slot index => Sys2Proof.Machine.execTileWatchdogExpiry site slot index s
  | .weightScrub site word found => Sys2Proof.Machine.execWeightScrub site word found s
  | .weightRewriteDone site region rechecked => Sys2Proof.Machine.execWeightRewriteDone site region rechecked s
  | .vloadBeat site slot => Sys2Proof.Machine.execVloadBeat site slot s
  | .vsendBeat site slot found => Sys2Proof.Machine.execVsendBeat site slot found s
  | .vopFire site slot found => Sys2Proof.Machine.execVopFire site slot found s
  | .constantRewriteDone site region readable rechecked => Sys2Proof.Machine.execConstantRewriteDone site region readable rechecked s
  | .vfuncFire site slot found => Sys2Proof.Machine.execVfuncFire site slot found s
  | .vredFire site slot found => Sys2Proof.Machine.execVredFire site slot found s
  | .windowBeatIn site parity => Sys2Proof.Machine.execWindowBeatIn site parity s
  | .windowRowEmit site slot parity => Sys2Proof.Machine.execWindowRowEmit site slot parity s
  | .poolRowEmit site slot parity => Sys2Proof.Machine.execPoolRowEmit site slot parity s
  | .glueFcEval site => Sys2Proof.Machine.execGlueFcEval site s
  | .glueDrainDone site => Sys2Proof.Machine.execGlueDrainDone site s
  | .glueDrainTimeout site => Sys2Proof.Machine.execGlueDrainTimeout site s
  | .skewEnqueue site port => Sys2Proof.Machine.execSkewEnqueue site port s
  | .steerSend site port parity => Sys2Proof.Machine.execSteerSend site port parity s
  | .pennantPair site port => Sys2Proof.Machine.execPennantPair site port s
  | .frameEndSettle site port stream => Sys2Proof.Machine.execFrameEndSettle site port stream s
  | .spillWriteRun site queue => Sys2Proof.Machine.execSpillWriteRun site queue s
  | .spillReadRequest site queue => Sys2Proof.Machine.execSpillReadRequest site queue s
  | .refillReturn site queue beats => Sys2Proof.Machine.execRefillReturn site queue beats s
  | .steerWatchdogExpiry site => Sys2Proof.Machine.execSteerWatchdogExpiry site s
  | .queueReadIssue queue => Sys2Proof.Machine.execQueueReadIssue queue s
  | .generatorStep queue => Sys2Proof.Machine.execGeneratorStep queue s
  | .generatorFrameResume queue => Sys2Proof.Machine.execGeneratorFrameResume queue s
  | .channelBurstDecision slot => Sys2Proof.Machine.execChannelBurstDecision slot s
  | .readReturn queue entry cacheWord line mirror => Sys2Proof.Machine.execReadReturn queue entry cacheWord line mirror s
  | .fetchRequestArrive queue => Sys2Proof.Machine.execFetchRequestArrive queue s
  | .feedBeatSend queue parity => Sys2Proof.Machine.execFeedBeatSend queue parity s
  | .streamInBeatSend queue parity => Sys2Proof.Machine.execStreamInBeatSend queue parity s
  | .streamOutBeatWrite access => Sys2Proof.Machine.execStreamOutBeatWrite access s
  | .spillQueueWrite access => Sys2Proof.Machine.execSpillQueueWrite access s
  | .spillQueueRead access => Sys2Proof.Machine.execSpillQueueRead access s
  | .circularWaitExpiry => Sys2Proof.Machine.execCircularWaitExpiry s
  | .refresh channel bank => Sys2Proof.Machine.execRefresh channel bank s
  | .zqCalibration channel => Sys2Proof.Machine.execZqCalibration channel s
  | .dqsOscillatorRead channel value => Sys2Proof.Machine.execDqsOscillatorRead channel value s
  | .patrolBlock channel found mirror => Sys2Proof.Machine.execPatrolBlock channel found mirror s
  | .retrainingWindowStart channel => Sys2Proof.Machine.execRetrainingWindowStart channel s
  | .retrainingWindowEnd channel success => Sys2Proof.Machine.execRetrainingWindowEnd channel success s
  | .descStoreScrub word found => Sys2Proof.Machine.execDescStoreScrub word found s
  | .descRewriteDone word success => Sys2Proof.Machine.execDescRewriteDone word success s
  | .hostRecordWrite stream => Sys2Proof.Machine.execHostRecordWrite stream s
  | .hostSlotSeal stream => Sys2Proof.Machine.execHostSlotSeal stream s
  | .spanCodewordSend port => Sys2Proof.Machine.execSpanCodewordSend port s
  | .spanCodewordReceive port fec payload => Sys2Proof.Machine.execSpanCodewordReceive port fec payload s
  | .spanAckTimeout port => Sys2Proof.Machine.execSpanAckTimeout port s
  | .spanLockLoss port wavelength => Sys2Proof.Machine.execSpanLockLoss port wavelength s
  | .spanTrainingTimeout port => Sys2Proof.Machine.execSpanTrainingTimeout port s
  | .spanProbeTimer port => Sys2Proof.Machine.execSpanProbeTimer port s
  | .spanProbeReplace port probe => Sys2Proof.Machine.execSpanProbeReplace port probe s
  | .spanCloseDrained port => Sys2Proof.Machine.execSpanCloseDrained port s
  | .spanCloseTimeout port => Sys2Proof.Machine.execSpanCloseTimeout port s
  | .frameStartReceive stream start => Sys2Proof.Machine.execFrameStartReceive stream start s
  | .lineStartReceive stream payload => Sys2Proof.Machine.execLineStartReceive stream payload s
  | .dataBlockReceive stream payload => Sys2Proof.Machine.execDataBlockReceive stream payload s
  | .lineEndReceive stream payload => Sys2Proof.Machine.execLineEndReceive stream payload s
  | .frameEndReceive stream payload => Sys2Proof.Machine.execFrameEndReceive stream payload s
  | .idleStripeReceive stripe => Sys2Proof.Machine.execIdleStripeReceive stripe s
  | .laneLockLoss lane cause => Sys2Proof.Machine.execLaneLockLoss lane cause s
  | .laneLockRegain lane => Sys2Proof.Machine.execLaneLockRegain lane s
  | .ingressBeatSend stream => Sys2Proof.Machine.execIngressBeatSend stream s
  | .egressFrameStart stream => Sys2Proof.Machine.execEgressFrameStart stream s
  | .egressResultBeat stream => Sys2Proof.Machine.execEgressResultBeat stream s
  | .courierFrameForward stream => Sys2Proof.Machine.execCourierFrameForward stream s
  | .deadlineExpiry stream frame => Sys2Proof.Machine.execDeadlineExpiry stream frame s
  | .vinRise => Sys2Proof.Machine.execVinRise s
  | .powerStageFault cause t => Sys2Proof.Machine.execPowerStageFault cause t s
  | .powerStageRestart => Sys2Proof.Machine.execPowerStageRestart s
  | .vinBelow36V => Sys2Proof.Machine.execVinBelow36V s
  | .pmbusWarnCrossing limit crossed t => Sys2Proof.Machine.execPmbusWarnCrossing limit crossed t s
  | .refClockLoss => Sys2Proof.Machine.execRefClockLoss s
  | .refClockRestore => Sys2Proof.Machine.execRefClockRestore s
  | .stagedStartPhaseEnd failedUnits failedChannels => Sys2Proof.Machine.execStagedStartPhaseEnd failedUnits failedChannels s
  | .sectorWakeGroup sector => Sys2Proof.Machine.execSectorWakeGroup sector s
  | .perstAssert => Sys2Proof.Machine.execPerstAssert s
  | .perstDeassert => Sys2Proof.Machine.execPerstDeassert s
  | .dividerSwitchPoint sector => Sys2Proof.Machine.execDividerSwitchPoint sector s
  | .vddSlewDone sector => Sys2Proof.Machine.execVddSlewDone sector s
  | .thermalSample sector sensors => Sys2Proof.Machine.execThermalSample sector sensors s
  | .powerCapAverage pin => Sys2Proof.Machine.execPowerCapAverage pin s
  | .neighbourDiffExpiry hotter cooler => Sys2Proof.Machine.execNeighbourDiffExpiry hotter cooler s
  | .heartbeatMiss core => Sys2Proof.Machine.execHeartbeatMiss core s
  | .coreRestartDone core => Sys2Proof.Machine.execCoreRestartDone core s
  | .halyardParityError => Sys2Proof.Machine.execHalyardParityError s
  | .proofArm => Sys2Proof.Machine.execProofArm s
  | .proofUnitIdle site => Sys2Proof.Machine.execProofUnitIdle site s
  | .proofMaxWaitExpiry site => Sys2Proof.Machine.execProofMaxWaitExpiry site s
  | .bistRunDone site pass => Sys2Proof.Machine.execBistRunDone site pass s
  | .proofRestoreDone site => Sys2Proof.Machine.execProofRestoreDone site s
  | .traceLineWrite buffer => Sys2Proof.Machine.execTraceLineWrite buffer s
  | .traceBufferFlushTimer buffer => Sys2Proof.Machine.execTraceBufferFlushTimer buffer s
  | .extest => Sys2Proof.Machine.execExtest s
  | .samplePreload => Sys2Proof.Machine.execSamplePreload s
  | .idcode => Sys2Proof.Machine.execIdcode s
  | .highz => Sys2Proof.Machine.execHighz s
  | .clamp => Sys2Proof.Machine.execClamp s
  | .extestPulse => Sys2Proof.Machine.execExtestPulse s
  | .extestTrain => Sys2Proof.Machine.execExtestTrain s
  | .bypass code => Sys2Proof.Machine.execBypass code s
  | .tapReset => Sys2Proof.Machine.execTapReset s
  | .clearFaults => Sys2Proof.Machine.execClearFaults s
  | .writeProtect op => Sys2Proof.Machine.execWriteProtect op s
  | .capability => Sys2Proof.Machine.execCapability s
  | .otFaultLimit op => Sys2Proof.Machine.execOtFaultLimit op s
  | .otWarnLimit op => Sys2Proof.Machine.execOtWarnLimit op s
  | .vinOvFaultLimit op => Sys2Proof.Machine.execVinOvFaultLimit op s
  | .vinOvWarnLimit op => Sys2Proof.Machine.execVinOvWarnLimit op s
  | .vinUvWarnLimit op => Sys2Proof.Machine.execVinUvWarnLimit op s
  | .vinUvFaultLimit op => Sys2Proof.Machine.execVinUvFaultLimit op s
  | .iinOcFaultLimit op => Sys2Proof.Machine.execIinOcFaultLimit op s
  | .iinOcWarnLimit op => Sys2Proof.Machine.execIinOcWarnLimit op s
  | .pinOpWarnLimit op => Sys2Proof.Machine.execPinOpWarnLimit op s
  | .statusWord => Sys2Proof.Machine.execStatusWord s
  | .statusInput op => Sys2Proof.Machine.execStatusInput op s
  | .statusTemperature op => Sys2Proof.Machine.execStatusTemperature op s
  | .statusCml op => Sys2Proof.Machine.execStatusCml op s
  | .readVin t => Sys2Proof.Machine.execReadVin t s
  | .readIin t => Sys2Proof.Machine.execReadIin t s
  | .readTemperature1 t => Sys2Proof.Machine.execReadTemperature1 t s
  | .readPin t => Sys2Proof.Machine.execReadPin t s
  | .pmbusRevision => Sys2Proof.Machine.execPmbusRevision s
  | .mfrRestartCount => Sys2Proof.Machine.execMfrRestartCount s
  | .pmbusUnsupportedCommand code => Sys2Proof.Machine.execPmbusUnsupportedCommand code s
  | .powerStateD0 => Sys2Proof.Machine.execPowerStateD0 s
  | .spanLockAcquire port wavelength => Sys2Proof.Machine.execSpanLockAcquire port wavelength s
  | .snapshotCopyDone => Sys2Proof.Machine.execSnapshotCopyDone s
  | .traceCopyDone => Sys2Proof.Machine.execTraceCopyDone s
  | .attestDone => Sys2Proof.Machine.execAttestDone s
  | .vinAbove36V addrPins => Sys2Proof.Machine.execVinAbove36V addrPins s

end Sys2Proof.Machine
end

