-- ==== Sys2Proof/Machine/Step.lean ====
section
/-! DEFINITION. One step: the command at the front of the queue, or the idle step of an empty queue. -/

namespace Sys2Proof.Machine

/-- On an empty queue the halyard counts one fc (R33) and nothing else happens; it does not enter the fc of a landing ahead of the landing's row.
DESIGN CHOICE (notes/assumptions/1.md). -/
def idle (s : State) : State := if reaches s (s.now + 1) then { s with now := s.now + 1 } else s

/-- Take the command at the front of the queue and run it with the queue's rest; on an empty queue the block idles. -/
def step (s : State) : Host.Outcome State Fault Refusal :=
  match s.pending with
  | [] => .next (idle s)
  | c :: rest => exec c { s with pending := rest }

/-- s with the command that a word spells at the front of its queue; s itself where the word spells none. -/
def State.withFetchWord (s : State) (nbits w : Nat) : State :=
  match Sys2Proof.decodeTableWord nbits w with
  | some c => { s with pending := c :: s.pending }
  | none => s

end Sys2Proof.Machine
end

