-- ==== Sys2Proof/Safety.lean ====
section
/-! DEFINITION. What counts as a safe run, in the terms that claims use: the part works, its tables keep their sizes, and what no command may undo. -/

namespace Sys2Proof.Machine

/-- The part works: no class 3 record has stopped its elements (R408), and the power stage has not shut down (R377). -/
def Working (s : State) : Prop := s.hal.stopped = false ∧ s.power.shutdown = none

/-- Every table holds as many entries as the family has of the thing: rings (R337), vectors (R335), sources (R361), hoists (R66), streams, span
ports, channels and sectors (R3), trace buffers (R437), programmable counters (R447), lanes (R304). -/
structure Shaped (s : State) : Prop where
  rings : s.hif.rings.length = 16
  msix : s.hif.msix.length = 64
  pba : s.hif.pba.length = 64
  sources : s.evt.sources.length = 64
  vectors : s.evt.vectors.length = 64
  hoists : s.hal.hoists.length = 4
  streams : s.streams.length = 32
  span : s.span.length = 8
  sectors : s.power.sectors.length = 8
  channels : s.feed.channels.length = 32
  bufs : s.trace.bufs.length = 9
  progs : s.cnt.progs.length = 64
  lock : s.lanes.lock.length = 32
  hiBer : s.lanes.hiBer.length = 32

/-- What fuses hold only ever grows (R454): the security version floor does not fall, and a firmware key once revoked stays revoked. -/
structure SecKeeps (a b : Sec) : Prop where
  floor : a.floor ≤ b.floor
  revoked : ∀ k : Nat, a.fwRevoked[k]? = some true → b.fwRevoked[k]? = some true

/-- What every command keeps between the state before it and the state after: the queue of commands, the halyard's direction (R33), the canonical
form of LPDDR5, the fuses, and the sizes of the tables. -/
structure Keeps (a s : State) : Prop where
  queue : s.pending = a.pending
  time : a.now ≤ s.now
  memory : Memory.wf a.feed.lpddr = true → Memory.wf s.feed.lpddr = true
  fuses : SecKeeps a.sec s.sec
  shape : Shaped a → Shaped s

/-- The part of it that holds of a power-on too, which counts the halyard from 0 again (R33). -/
structure KeepsStores (a s : State) : Prop where
  queue : s.pending = a.pending
  memory : Memory.wf a.feed.lpddr = true → Memory.wf s.feed.lpddr = true
  fuses : SecKeeps a.sec s.sec
  shape : Shaped a → Shaped s

/-- The same of an outcome: of the next state, if there is one. -/
def KeepsNext (a : State) (o : Host.Outcome State Fault Refusal) : Prop := ∀ t, o = .next t → Keeps a t

/-! ### Commands from the host -/

/-- Firmware has taken the command: it has left the FIFO and its begin record is traced. -/
def begun (s : State) (c : HostCmd) : State := beginTrace (taken s c) c

/-- Firmware takes the command now, for the row of this opcode and form (R349), and its packet passes the checks of R347. -/
abbrev Ready (op form : Nat) (s : State) (c : HostCmd) : Prop :=
  spells c.pkt op form = true ∧ takeable s c = true ∧ precheck (begun s c) c = none

/-- One more command may pend (R347). -/
abbrev Room (s : State) (c : HostCmd) : Prop := (begun s c).hif.pendings.length < 64

/-- The host gives the file of an image command (R351): it can be reached, the bytes are read, and with the list bit a list of chunk addresses, each a
multiple of 4,096, is read ahead of them. -/
def FileGiven (s : State) (p : Packet) (f : HostFile) (b : List Byte) : Prop :=
  hostUp s = true ∧ f.bytes = some b ∧
  (dbit (pktDw p 2) 1 = true → ∃ l, f.list = some l ∧ (chunkList (pktQ p 5) l).any (fun a => a % 4096 != 0) = false)

/-! ### Frames -/

/-- A limit of the management bus has been written (R379): kept where writes are protected; in its range as it is, outside it as the nearer end of
the range, with STATUS_CML bit 6. -/
def limitWritten (s : State) (v : BitVec 16) (code : Nat) (get : PmBus → BitVec 16) (t : State) : Prop :=
  let r := Config.limitRange code
  (protected_ s = true → t = accepted s) ∧
  (protected_ s = false → t = setPmbus s t.power.pmbus ∧ t.power.pmbus.reply = none ∧ t.power.pmbus.nack = false ∧
    ((r.2.1 * 2 ^ 16 : Int) ≤ lin16 v → lin16 v ≤ (r.2.2 * 2 ^ 16 : Int) → get t.power.pmbus = v ∧ t.power.pmbus.statusCml = s.power.pmbus.statusCml) ∧
    (lin16 v < (r.2.1 * 2 ^ 16 : Int) → get t.power.pmbus = Config.linear11 r.2.1 ∧ t.power.pmbus.statusCml = s.power.pmbus.statusCml ||| 0x40) ∧
    ((r.2.2 * 2 ^ 16 : Int) < lin16 v → get t.power.pmbus = Config.linear11 r.2.2 ∧ t.power.pmbus.statusCml = s.power.pmbus.statusCml ||| 0x40))

/-- A status byte of the management bus has been written (R379): kept where writes are protected, else cleared where 1 is written. -/
def statusWritten (s : State) (v : BitVec 16) (get : PmBus → BitVec 8) (t : State) : Prop :=
  (protected_ s = true → t = accepted s) ∧
  (protected_ s = false → t = setPmbus s t.power.pmbus ∧ get t.power.pmbus = (get s.power.pmbus &&& ~~~ (v.setWidth 8)))

/-- A boundary-scan instruction has taken the pins (R487): the part is stopped, FAULT# asserted and the link down. -/
def pinsDriven (t : State) (k : TapInstr) : Prop :=
  t.pins.tap = k ∧ t.pins.pinsTaken = true ∧ t.pins.faultLatched = true ∧ t.hal.stopped = true ∧ t.hif.linkUp = false

/-- What a reset from the host leaves (R357): the rings, the intake FIFO, the MSI-X table and the granted counter pages at reset, the rest running. -/
def hostSideReset (s t : State) : Prop :=
  t.hif.rings = List.replicate 16 {} ∧ t.hif.intake = [] ∧ t.hif.busMaster = false ∧ t.hif.msix = List.replicate 64 {} ∧ t.cnt.grants = [] ∧
  t.fabric = s.fabric ∧ t.tiles = s.tiles ∧ t.feed = s.feed ∧ t.lanes = s.lanes ∧ t.power = s.power ∧ t.sec = s.sec

/-- The pieces of the state. `memory` is the contents of LPDDR5, `feed` the whole memory feed with them. The queue of waiting commands is no piece: no
command touches it. -/
inductive Piece where
  | now | out | hif | evt | hal | fabric | tiles | vtiles | wtiles | glue | steer | feed | streams
  | lanes | span | power | pins | sec | mgmt | trace | cnt | snap | boxes | fresh | memory
  deriving DecidableEq, Repr

/-- A piece of one state is the same in another. -/
def samePiece (p : Piece) (a s : State) : Prop :=
  match p with
  | .now => s.now = a.now
  | .out => s.out = a.out
  | .hif => s.hif = a.hif
  | .evt => s.evt = a.evt
  | .hal => s.hal = a.hal
  | .fabric => s.fabric = a.fabric
  | .tiles => s.tiles = a.tiles
  | .vtiles => s.vtiles = a.vtiles
  | .wtiles => s.wtiles = a.wtiles
  | .glue => s.glue = a.glue
  | .steer => s.steer = a.steer
  | .feed => s.feed = a.feed
  | .streams => s.streams = a.streams
  | .lanes => s.lanes = a.lanes
  | .span => s.span = a.span
  | .power => s.power = a.power
  | .pins => s.pins = a.pins
  | .sec => s.sec = a.sec
  | .mgmt => s.mgmt = a.mgmt
  | .trace => s.trace = a.trace
  | .cnt => s.cnt = a.cnt
  | .snap => s.snap = a.snap
  | .boxes => s.lostBoxes = a.lostBoxes
  | .fresh => s.fresh = a.fresh
  | .memory => s.feed.lpddr = a.feed.lpddr

/-- What sending a completion, an event, a trace record or a count touches. -/
def signals : List Piece := [.out, .hif, .evt, .trace, .cnt]

/-- What a record of class 3 touches, which stops the elements (R408). -/
def stops : List Piece := signals ++ [.hal, .streams, .span, .pins]

/-- A power-on and a device reset set every piece (R33, R390). -/
def allPieces : List Piece := [.now, .out, .hif, .evt, .hal, .fabric, .tiles, .vtiles, .wtiles, .glue, .steer, .feed, .streams, .lanes, .span, .power, .pins, .sec, .mgmt, .trace, .cnt, .snap, .boxes, .fresh, .memory]

/-- The pieces that a command may touch; it leaves every other one as it was. -/
def touches (i : Instr) : List Piece :=
  match i with
  | .nop .. | .identify .. | .attestReport .. | .attestCertificate .. | .scaleRead .. | .selfTestReport .. | .calibrateChannel .. |
    .calibrateLane .. | .traceConfigure .. | .traceStart .. | .traceStop .. | .traceTrigger .. | .traceMarker .. | .traceRelease .. |
    .counterConfigure .. | .counterRunMask .. | .counterClearMask .. | .counterSampleAll .. | .counterGrant .. | .attestDone => signals
  | .imageLoad .. => stops ++ [.feed, .memory, .fresh]
  | .imageLoadSection .. | .registerWrite .. | .descStoreScrub .. => stops ++ [.feed]
  | .imageLoadDone => signals ++ [.hal, .tiles, .vtiles, .feed, .memory, .fresh]
  | .imageVerify .. => signals ++ [.hal, .fresh]
  | .imageVerifyDone | .streamClose .. | .hifDbSqTail .. | .hifDbCqHead .. | .functionLevelReset | .hotReset | .linkDown | .hostSlotSeal .. |
    .frameStartReceive .. | .lineStartReceive .. | .dataBlockReceive .. | .lineEndReceive .. | .frameEndReceive .. | .idleStripeReceive .. |
    .halyardParityError | .extest | .highz | .clamp | .extestPulse | .extestTrain => stops
  | .hoistArmTarget .. | .mirrorCopyDone | .hoistSwitch .. | .selfTestProveUnit .. | .selfTestRequestWindow .. | .selfTestGrantWindow .. |
    .haltAt .. | .resume .. => signals ++ [.hal]
  | .hoistArmMirror .. | .hoistRelease .. | .hoistReleaseImageOnly .. => signals ++ [.hal, .feed]
  | .hoistSwitchLands | .fullWindowStart | .autoMirrorSwitch => stops ++ [.now, .fabric, .tiles, .vtiles, .wtiles, .glue, .steer, .feed]
  | .streamOpen .. => signals ++ [.fabric, .streams]
  | .streamCloseDrained .. | .streamMode .. | .descArm .. | .descDisarm .. | .courierFrameForward .. => signals ++ [.streams]
  | .streamCloseTimeout .. | .deadlineExpiry .. => stops ++ [.now]
  | .streamModeLands .. => signals ++ [.now, .streams]
  | .scaleSet .. => signals ++ [.tiles, .fresh]
  | .scaleBankLive .. | .clipCheck .. => signals ++ [.now, .tiles]
  | .scaleBankRetireDone .. => [.tiles]
  | .fullWindowEnd .. | .configRewriteDone .. | .weightRewriteDone .. | .constantRewriteDone .. | .descRewriteDone .. |
    .bistRunDone .. => stops ++ [.fabric, .tiles, .vtiles, .wtiles, .glue, .steer, .feed, .boxes]
  | .calibrateAllChannels .. | .traceCopy .. | .wipeFreeSpace .. => signals ++ [.feed]
  | .unitDisable .. | .unitEnable .. | .glueDrainDone .. => signals ++ [.hal, .tiles, .vtiles, .wtiles, .glue, .steer, .feed, .boxes]
  | .unitDrainDone .. => signals ++ [.hal, .fabric, .tiles, .vtiles, .wtiles, .glue, .steer, .feed, .boxes]
  | .unitDrainTimeout .. | .glueDrainTimeout .. => stops ++ [.now, .fabric, .tiles, .vtiles, .wtiles, .glue, .steer, .feed, .boxes]
  | .haltLands => signals ++ [.now, .hal, .streams, .span]
  | .resumeLands => stops ++ [.now, .fabric, .tiles, .vtiles, .wtiles, .glue, .steer, .feed, .memory, .snap]
  | .snapshotCapture .. | .snapshotRelease .. => signals ++ [.snap]
  | .snapshotCaptureDone => signals ++ [.now, .feed, .memory, .snap]
  | .snapshotCopy .. => signals ++ [.feed, .snap]
  | .traceStopFlushDone | .traceBufferFlushTimer .. => signals ++ [.now, .feed, .memory]
  | .spanOpen .. | .spanClose .. | .spanMeasure .. => signals ++ [.span]
  | .fwStage .. => signals ++ [.sec, .fresh]
  | .fwStageDone | .fwSwitch .. | .wipeStagedFirmware .. => signals ++ [.sec]
  | .fwSwitchLands => [.now, .sec, .mgmt]
  | .fwCoreReady .. => signals ++ [.sec, .mgmt]
  | .fwReadyTimeout .. => stops ++ [.now, .sec, .mgmt]
  | .lifecycleTransition .. | .lifecycleAddKey .. | .lifecycleRevokeImageKey .. | .lifecycleRevokeFwKey .. => signals ++ [.sec, .mgmt, .fresh]
  | .wipeFreeSpaceDone | .traceLineWrite .. => signals ++ [.feed, .memory]
  | .wipeDevice .. | .powerSetReset .. | .busMasterEnableSet | .powerStateD0 => signals ++ [.mgmt]
  | .powerSetOperatingPoint .. | .powerSetCap .. | .powerSetThermal .. | .powerSetSleep .. | .powerSetWake .. => signals ++ [.power]
  | .delayedDeviceReset | .vinRise | .powerStageRestart | .perstAssert => allPieces
  | .thermalRead .. | .traceCopyDone => signals ++ [.fresh]
  | .ringEnable .. | .ringDisable .. | .ringDrainDone .. | .busMasterEnableClear | .powerStateD3hot | .malformedRegisterAccess .. => [.hif]
  | .packetFetch .. => stops ++ [.fresh]
  | .msixVectorUnmask .. => [.out, .hif]
  | .latchedLoRead .. => [.hif, .evt, .hal, .streams, .span, .power, .trace, .cnt]
  | .rcRead .. => [.hif, .evt, .hal, .streams, .power, .trace]
  | .evtPendAck .. | .evtIdleArm .. | .evtVecMod .. | .heldRecordWrite .. => [.out, .hif, .evt]
  | .evtLogEnable .. | .evtLogDisable .. | .evtLogHead .. => [.evt]
  | .halProofCtrl .. | .proofUnitIdle .. => [.hal]
  | .memMaintCtrl .. | .generatorFrameResume .. | .refresh .. => [.feed]
  | .cntPageSample .. | .cntPageClear .. | .cntPageRun .. => [.out, .hif, .evt, .cnt]
  | .moderationTimerExpiry .. => [.now, .out, .hif, .evt]
  | .configScrub .. | .hostRecordWrite .. | .spanCodewordReceive .. | .spanLockLoss .. | .egressFrameStart .. |
    .egressResultBeat .. => stops ++ [.fabric]
  | .beatSend .. => signals ++ [.now, .fabric, .tiles, .vtiles, .wtiles, .steer, .span]
  | .beatArrive .. | .creditReturnArrive .. => stops ++ [.now, .fabric, .tiles, .vtiles, .wtiles, .steer, .feed]
  | .segmentContention .. => stops ++ [.fabric, .tiles, .vtiles, .wtiles, .steer, .feed]
  | .voidTackLineReceive .. => stops ++ [.fabric, .tiles, .vtiles, .wtiles, .steer]
  | .slotBind .. => stops ++ [.fabric, .tiles, .vtiles, .wtiles]
  | .operationIssue .. => signals ++ [.now, .tiles, .vtiles]
  | .aloadBeat .. | .drainFire .. => stops ++ [.now, .fabric, .tiles]
  | .rowExponentFix .. => stops ++ [.fabric, .tiles]
  | .macFire .. | .omacFire .. => stops ++ [.now, .fabric, .tiles, .fresh]
  | .fetchFire .. => signals ++ [.tiles, .feed]
  | .fetchBeatWrite .. => signals ++ [.fabric, .tiles]
  | .waitComplete .. | .releaseFire .. => signals ++ [.tiles]
  | .tileWatchdogExpiry .. => stops ++ [.now, .fabric, .tiles, .vtiles, .wtiles]
  | .weightScrub .. => stops ++ [.now, .tiles]
  | .vloadBeat .. => stops ++ [.now, .fabric, .vtiles]
  | .vsendBeat .. | .vopFire .. | .vfuncFire .. | .vredFire .. => stops ++ [.now, .fabric, .vtiles, .fresh]
  | .windowBeatIn .. | .windowRowEmit .. => stops ++ [.fabric, .wtiles]
  | .poolRowEmit .. => stops ++ [.fabric, .wtiles, .fresh]
  | .glueFcEval .. => stops ++ [.now, .fabric, .glue, .fresh]
  | .skewEnqueue .. | .steerSend .. | .pennantPair .. | .spillWriteRun .. | .refillReturn .. |
    .steerWatchdogExpiry .. => stops ++ [.now, .fabric, .steer]
  | .frameEndSettle .. => stops ++ [.fabric, .steer]
  | .spillReadRequest .. => [.fabric, .steer]
  | .queueReadIssue .. | .generatorStep .. => stops ++ [.now, .feed]
  | .channelBurstDecision .. => stops ++ [.now, .feed, .memory, .fresh]
  | .readReturn .. => stops ++ [.now, .fabric, .tiles, .steer, .feed, .memory]
  | .fetchRequestArrive .. | .feedBeatSend .. => stops ++ [.now, .fabric, .tiles, .feed]
  | .streamInBeatSend .. => stops ++ [.now, .fabric, .feed]
  | .streamOutBeatWrite .. | .spillQueueWrite .. => stops ++ [.now, .fabric, .feed, .memory]
  | .spillQueueRead .. => stops ++ [.now, .fabric, .steer, .feed]
  | .circularWaitExpiry => stops ++ [.now, .fabric, .tiles, .steer, .feed]
  | .zqCalibration .. | .dqsOscillatorRead .. => [.now, .feed]
  | .patrolBlock .. => stops ++ [.now, .feed, .memory]
  | .retrainingWindowStart .. => [.out, .hif, .evt, .feed, .cnt]
  | .retrainingWindowEnd .. => stops ++ [.feed, .memory]
  | .spanCodewordSend .. => [.out, .hif, .evt, .fabric, .span, .cnt]
  | .spanAckTimeout .. | .spanCloseTimeout .. => stops ++ [.now, .fabric]
  | .spanTrainingTimeout .. => signals ++ [.now, .span]
  | .spanProbeTimer .. | .spanLockAcquire .. => [.span]
  | .spanProbeReplace .. => [.now, .span]
  | .spanCloseDrained .. => signals ++ [.fabric, .span]
  | .laneLockLoss .. => stops ++ [.lanes]
  | .laneLockRegain .. => [.lanes]
  | .ingressBeatSend .. => [.now, .out, .hif, .evt, .fabric, .streams, .cnt]
  | .powerStageFault .. | .refClockLoss | .refClockRestore => stops ++ [.power]
  | .vinBelow36V | .powerCapAverage .. | .clearFaults | .writeProtect .. | .capability | .otFaultLimit .. | .otWarnLimit .. | .vinOvFaultLimit .. |
    .vinOvWarnLimit .. | .vinUvWarnLimit .. | .vinUvFaultLimit .. | .iinOcFaultLimit .. | .iinOcWarnLimit .. | .pinOpWarnLimit .. | .statusWord |
    .statusInput .. | .statusTemperature .. | .statusCml .. | .readVin .. | .readIin .. | .readTemperature1 .. | .readPin .. | .pmbusRevision |
    .mfrRestartCount | .pmbusUnsupportedCommand .. | .vinAbove36V .. => [.power]
  | .pmbusWarnCrossing .. => [.out, .hif, .evt, .power]
  | .stagedStartPhaseEnd .. => stops ++ [.tiles, .vtiles, .wtiles, .glue, .steer, .feed, .power, .sec, .boxes]
  | .sectorWakeGroup .. => signals ++ [.now, .tiles, .vtiles, .wtiles, .glue, .steer, .feed, .power]
  | .perstDeassert => [.hif, .pins]
  | .dividerSwitchPoint .. => signals ++ [.now, .tiles, .vtiles, .power]
  | .vddSlewDone .. => signals ++ [.now, .power]
  | .thermalSample .. => [.evt, .power]
  | .neighbourDiffExpiry .. => [.now, .out, .hif, .evt, .power]
  | .heartbeatMiss .. | .coreRestartDone .. => stops ++ [.mgmt]
  | .proofArm => [.now, .out, .hif, .evt, .hal]
  | .proofMaxWaitExpiry .. => signals ++ [.now, .hal]
  | .proofRestoreDone .. => signals ++ [.hal, .tiles, .vtiles, .wtiles, .glue, .steer, .feed, .streams, .boxes]
  | .samplePreload | .idcode | .bypass .. | .tapReset => [.pins]
  | .snapshotCopyDone => signals ++ [.snap, .fresh]

end Sys2Proof.Machine
end

