-- ==== Sys2Proof/Certificates/Slice0/Obligations.lean ====
section
/-! DEFINITION. The statements for the provers. Each is a rule of the spec, or follows from the rules it cites; the commands' own effects are stated with
the conditions under which a command has them, and what a command leaves alone is stated once, for all of them (CommandsTouchTheirPieces). -/

open Sys2Proof Sys2Proof.Machine

/-- A step runs the command at the front of the queue, and on an empty queue only the halyard counts, up to the fc of a landing. For every command c and state s whose queue is c followed by rest, the step is exec of c on s with the queue's rest. On an empty queue the halyard counts one fc and nothing else changes, and in the fc before that of a scheduled action's landing the block waits for it: the model's choice, notes/assumptions/1.md. (R33, R349) -/
def Obligations.StepRunsTheFrontCommand : Prop :=
  (∀ (c : Instr) (rest : List Instr) (s : State), s.pending = c :: rest → step s = exec c { s with pending := rest }) ∧
  (∀ s : State, s.pending = [] → reaches s (s.now + 1) = true → step s = .next { s with now := s.now + 1 }) ∧
  (∀ s : State, s.pending = [] → reaches s (s.now + 1) = false → step s = .next s)

/-- No command ends in a fault or a refusal. For every command and every state, exec answers a next state: a command that the part turns away has a completion, and a happening whose conditions do not hold changes nothing. (R347, R364) -/
def Obligations.EveryCommandAnswersANextState : Prop :=
  ∀ (c : Instr) (s : State), ∃ t, exec c s = .next t

/-- The reset state has the sizes the family gives, canonical LPDDR5 and an empty queue. State.reset has 16 rings, 64 MSI-X vectors, 64 event sources, 4 hoists, 32 streams, 8 span ports, 32 channels, 8 sectors, 9 trace buffers and 64 counters; its LPDDR5 is in canonical form; no erase of flash items is outstanding; no command waits. (R3, R66, R335, R337, R361, R437, R447) -/
def Obligations.ResetStateIsInForm : Prop :=
  Shaped State.reset ∧ Memory.wf State.reset.feed.lpddr = true ∧ State.reset.sec.erase = none ∧ State.reset.pending = []

/-- Every step keeps the sizes of the tables, the canonical form of LPDDR5, and no erase outstanding. From every state in form, and not only from those that a run reaches, a step that answers a next state answers one in form; and no step leaves an erase of flash items outstanding where none was. (R3, R66, R335, R337, R361, R437, R447, R464) -/
def Obligations.StepKeepsTheForm : Prop :=
  (∀ s t : State, Shaped s → Memory.wf s.feed.lpddr = true → step s = .next t → Shaped t ∧ Memory.wf t.feed.lpddr = true) ∧
  (∀ s t : State, s.sec.erase = none → step s = .next t → t.sec.erase = none)

/-- The halyard never goes back: no command but a power-on lowers it. For every state and every command other than the first rise of the input (VIN_RISE) and the restart of the power stage, after which R33 counts from 0 again, the halyard after the command is not below the halyard before it. (R33) -/
def Obligations.HalyardNeverFalls : Prop :=
  ∀ (c : Instr) (s t : State), c ≠ .vinRise → c ≠ .powerStageRestart → exec c s = .next t → s.now ≤ t.now

/-- No command, reset or power-on lowers the security version floor or gives back a revoked firmware key. For every command and state: the floor after is at least the floor before, and a firmware key slot whose revocation fuse is blown stays blown. (R454, R458) -/
def Obligations.FusesOnlyGrow : Prop :=
  ∀ (c : Instr) (s t : State), exec c s = .next t → s.sec.floor ≤ t.sec.floor ∧ ∀ k : Nat, s.sec.fwRevoked[k]? = some true → t.sec.fwRevoked[k]? = some true

/-- The frame: every command leaves every piece of the state outside its own list as it was, and the queue always. For every command c and state s, when exec c s answers t: each of the 25 pieces of the state that the list touches c leaves out is the same in t as in s, and the commands that wait are the same. LPDDR5, the fuses and flash, the fabric, each kind of tile, the streams, the lanes, the span ports, the power, the pins, the trace, the counters and the snapshot are pieces of their own. (R36, R58, R67, R240, R344, R357, R393, R408, R454) -/
def Obligations.CommandsTouchTheirPieces : Prop :=
  ∀ (c : Instr) (s t : State), exec c s = .next t → t.pending = s.pending ∧ ∀ p : Piece, p ∉ touches c → samePiece p s t

/-- A command that firmware takes gets its begin record and then exactly one of a completion, or a place among the pending commands. For every command from the host, every opcode and form, and every body of rules: when the command is next in service, a failed packet check gives its status and detail and none of the body; else a body that finishes gives its completion, and a body that pends enters the command in the pending list while fewer than 64 pend and completes QUEUE_FULL with no effect of the body else. A command that is not next in service, or that spells another row, changes nothing. (R344, R347, R349) -/
def Obligations.TakenCommandsCompleteOrPend : Prop :=
  ∀ (s : State) (c : HostCmd) (op form : Nat) (body : State → Packet → Verdict),
    ((spells c.pkt op form = false ∨ takeable s c = false) → takeCmd s c op form body = .next s) ∧
    (∀ st d, spells c.pkt op form = true → takeable s c = true → precheck (begun s c) c = some (st, d) →
      takeCmd s c op form body = .next (finishTaken (begun s c) c st d [])) ∧
    (∀ st d w x, Ready op form s c → body (begun s c) c.pkt = .finish st d w x → takeCmd s c op form body = .next (finishTaken x c st d w)) ∧
    (∀ k x, Ready op form s c → Room s c → body (begun s c) c.pkt = .pend k x → takeCmd s c op form body = .next (pendTaken x c k)) ∧
    (∀ k x, Ready op form s c → 64 ≤ (begun s c).hif.pendings.length → body (begun s c) c.pkt = .pend k x →
      takeCmd s c op form body = .next (finishTaken (begun s c) c stQueueFull 0 []))

/-- A completion goes to the entry at the ring's completion tail, behind the command's data writes, and is held while host access is not allowed. For every state in which the host can be reached and nothing is held, a completion of a command that no reset or ring error has discarded is written at once, as writeCompletion says: the data writes of the command in order, then its entry at the tail. Else it is appended to the completions that are held, and nothing is written. (R338, R339, R345, R358) -/
def Obligations.CompletionsAreWrittenInTheirSlot : Prop :=
  ∀ (s : State) (c : HeldCompletion), c.discarded = false →
    (hostUp s = true → s.hif.heldCompletions = [] → complete s c = writeCompletion s c) ∧
    ((hostUp s = false ∨ s.hif.heldCompletions ≠ []) →
      (complete s c).hif.heldCompletions = s.hif.heldCompletions ++ [c] ∧ (complete s c).out = s.out ∧ (complete s c).hif.rings = s.hif.rings)

/-- NOP, IDENTIFY, THERMAL_READ and ATTEST complete with what their rules give. When firmware takes the command and its packet passes the checks: NOP completes OK with its value in detail; IDENTIFY and THERMAL_READ with an address that is a multiple of 64 complete OK behind the data they write there. ATTEST op 0 past MANUFACTURE with an identity pends with the report of the state at take, op 1 with the stored certificate, and the end of a pending ATTEST writes the bytes and completes OK with their number in detail. Commands stated here to complete, each under the conditions of its clause: nop, identify, attestReport, attestCertificate, thermalRead, attestDone. (R344, R351, R352, R397, R471, R472, R473) -/
def Obligations.PlainCommandsComplete : Prop :=
  (∀ s c, Ready 0x01 0 s c → exec (.nop c) s = .next (finishTaken (begun s c) c stOK (pktDw c.pkt 2).toNat [])) ∧
  (∀ s c, Ready 0x02 0 s c → pktQ c.pkt 2 % 64 = 0 →
    exec (.identify c) s = .next (finishTaken (begun s c) c stOK 0 [(pktQ c.pkt 2, identifyBytes (begun s c))])) ∧
  (∀ s c, Ready 0x61 0 s c → pktOnly c.pkt [(2, 0xFFFFFFFF), (3, 0xFFFFFFFF)] = true → pktQ c.pkt 2 % 64 = 0 →
    ∃ x, exec (.thermalRead c) s = .next (finishTaken x c stOK 0 [(pktQ c.pkt 2, thermalBytes (begun s c))]) ∧
      x = { begun s c with fresh := (begun s c).fresh + 16 }) ∧
  (∀ s c, Ready 0x03 0 s c → Room s c → pktOnly c.pkt ((2, 1) :: (List.range 10).map (fun k => (k + 3, (0xFFFFFFFF : Dword)))) = true →
    pktQ c.pkt 3 % 64 = 0 → (begun s c).sec.life ≠ .scrapped → (begun s c).sec.life ≠ .manufacture → (begun s c).sec.identity ≠ none →
    exec (.attestReport c) s = .next (pendTaken (begun s c) c (.attest (pktQ c.pkt 3)
      (reportBytes (begun s c) ((List.range 8).flatMap (fun k => dwBytes (pktDw c.pkt (5 + k)))))))) ∧
  (∀ s c bytes, Ready 0x03 1 s c → Room s c → pktOnly c.pkt [(2, 1), (3, 0xFFFFFFFF), (4, 0xFFFFFFFF)] = true → pktQ c.pkt 3 % 64 = 0 →
    (begun s c).sec.life ≠ .manufacture → (begun s c).sec.certificate = some bytes →
    exec (.attestCertificate c) s = .next (pendTaken (begun s c) c (.attest (pktQ c.pkt 3) bytes))) ∧
  (∀ s p rest addr bytes, s.hif.pendings = p :: rest → p.kind = .attest addr bytes →
    exec .attestDone s = .next (finishPend s p stOK (dw bytes.length) s.now [(addr, bytes)]))

/-- The states of a ring: enabling, disabling, draining, and the end of an error. For a table of 16 rings and ring r of them: a write of enable 1 with sizes 4 to 12 and bases that are multiples of 4,096 takes a DISABLED ring to ENABLED with all pointers 0; a write of enable 0 takes ENABLED to DRAINING and ERROR to DISABLED; a DRAINING ring with no command open becomes DISABLED. Every other ring stays as it was. Commands stated here to complete, each under the conditions of its clause: ringEnable, ringDisable, ringDrainDone. (R340) -/
def Obligations.RingsChangeStateAsTheTableSays : Prop :=
  ∀ (s : State) (r : Nat) (v : Dword), s.hif.rings.length = 16 → r < 16 →
    ((ringOf s r).state = .disabled → dbit v 0 = true → 4 ≤ dbits v 7 4 → dbits v 7 4 ≤ 12 → 4 ≤ dbits v 11 8 → dbits v 11 8 ≤ 12 →
      lohi (ringOf s r).sqLo (ringOf s r).sqHi % 4096 = 0 → lohi (ringOf s r).cqLo (ringOf s r).cqHi % 4096 = 0 →
      ∃ t, exec (.ringEnable r v) s = .next t ∧ (ringOf t r).state = .enabled ∧ (ringOf t r).sqHead = 0 ∧ (ringOf t r).sqTail = 0 ∧
        (ringOf t r).cqHead = 0 ∧ (ringOf t r).cqTail = 0 ∧ (ringOf t r).sqLog2 = dbits v 7 4 ∧ (ringOf t r).cqLog2 = dbits v 11 8 ∧
        (ringOf t r).maxPriority = dbits v 13 12 ∧ (ringOf t r).privileged = dbit v 16 ∧ ∀ k, k ≠ r → ringOf t k = ringOf s k) ∧
    (∀ u, ((ringOf s r).state = .enabled ∧ u = .draining) ∨ ((ringOf s r).state = .error ∧ u = .disabled) → dbit v 0 = false →
      ∃ t, exec (.ringDisable r v) s = .next t ∧ ringOf t r = { ringOf s r with state := u, enable := false } ∧ ∀ k, k ≠ r → ringOf t k = ringOf s k) ∧
    ((ringOf s r).state = .draining → (ringOf s r).open_ = 0 →
      ∃ t, exec (.ringDrainDone r) s = .next t ∧ ringOf t r = { ringOf s r with state := .disabled } ∧ ∀ k, k ≠ r → ringOf t k = ringOf s k)

/-- A valid doorbell moves its pointer and nothing else of the rings; a fetch appends the packet and advances the head. For a table of 16 rings and an ENABLED or DRAINING ring r of them: a submission tail that counts at most the ring's size, and a completion head that does not pass the tail, are taken, masked to the pointer's width, and no other field of any ring changes. A visit of the fetcher to the ring whose turn it is, with a packet that R339 allows, appends it to the intake FIFO and advances the submission head by one. Commands stated here to complete, each under the conditions of its clause: hifDbSqTail, hifDbCqHead, packetFetch. (R339, R341, R342, R348) -/
def Obligations.DoorbellsAndFetchMoveTheirPointer : Prop :=
  ∀ (s : State) (r : Nat) (v : Dword) (x : Ring), s.hif.rings.length = 16 → r < 16 → x = ringOf s r →
    (x.state = .enabled ∨ x.state = .draining → ptrCount (x.sqLog2 + 1) x.sqHead (v.toNat % 2 ^ (x.sqLog2 + 1)) ≤ 2 ^ x.sqLog2 →
      ∃ t, exec (.hifDbSqTail r v) s = .next t ∧ t.hif.rings = s.hif.rings.set r { x with sqTail := v.toNat % 2 ^ (x.sqLog2 + 1) }) ∧
    (x.state = .enabled ∨ x.state = .draining →
      ptrCount (x.cqLog2 + 1) x.cqHead (v.toNat % 2 ^ (x.cqLog2 + 1)) ≤ ptrCount (x.cqLog2 + 1) x.cqHead x.cqTail →
      ∃ t, exec (.hifDbCqHead r v) s = .next t ∧ t.hif.rings = s.hif.rings.set r { x with cqHead := v.toNat % 2 ^ (x.cqLog2 + 1) }) ∧
    (∀ p, hostUp s = true → s.hif.fetchStopped = false → s.hif.fwStage ≠ 0 → x.state = .enabled →
      nextRound s.hif.lastVisited 16 (fun k => (ringOf s k).state == .enabled) = some r → 0 < ptrCount (x.sqLog2 + 1) x.sqHead x.sqTail →
      fetchable s ⟨r, p⟩ = true →
      ∃ t, exec (.packetFetch r (some [p])) s = .next t ∧ t.hif.intake = s.hif.intake ++ [⟨r, p⟩] ∧
        (ringOf t r).sqHead = (x.sqHead + 1) % 2 ^ (x.sqLog2 + 1) ∧ (ringOf t r).reserved = x.reserved + reserveOf p)

/-- Function Level Reset, hot reset and link down disable every ring and leave the rest running. In every state a Function Level Reset, a hot reset and a link down leave every ring DISABLED at its reset values, the intake FIFO empty, Bus Master Enable 0, the MSI-X table at reset and no granted counter page; a Function Level Reset and a hot reset leave every host descriptor IDLE. A link down leaves the link down too. None of the three touches the fabric, the tiles, the memory feed, the lanes, the power or the security state. Commands stated here to complete, each under the conditions of its clause: functionLevelReset, hotReset, linkDown. (R357, R374, R451) -/
def Obligations.HostResetsClearTheInterfaceAlone : Prop :=
  ∀ s : State,
    (∃ t, exec .functionLevelReset s = .next t ∧ hostSideReset s t ∧ (s.streams.length = 32 → ∀ st, st < 32 → (streamOf t st).desc.state = .idle)) ∧
    (∃ t, exec .hotReset s = .next t ∧ hostSideReset s t ∧ (s.streams.length = 32 → ∀ st, st < 32 → (streamOf t st).desc.state = .idle)) ∧
    (∃ t, exec .linkDown s = .next t ∧ hostSideReset s t ∧ t.hif.linkUp = false)

/-- Bus Master Enable, D3hot, D0 and the MSI-X masks. Clearing Bus Master Enable and entering D3hot change that bit alone. Setting Bus Master Enable on a part whose PCIe is not held, and D0, change their bit and then write what was held, in order. Unmasking a vector clears its mask, and a message held for it, whose record does not wait to be written, is sent; clearing Function Mask sends every message held. Commands stated here to complete, each under the conditions of its clause: busMasterEnableClear, busMasterEnableSet, powerStateD3hot, msixVectorUnmask, powerStateD0. (R358, R372) -/
def Obligations.HostAccessIsHeldAndResumed : Prop :=
  ∀ s : State,
    exec .busMasterEnableClear s = .next { s with hif := { s.hif with busMaster := false } } ∧
    (s.hif.pcieHeld = false → exec .busMasterEnableSet s = .next (resumeHost { s with hif := { s.hif with busMaster := true, linkUp := true } })) ∧
    exec .powerStateD3hot s = .next { s with hif := { s.hif with d3hot := true } } ∧
    exec .powerStateD0 s = .next (resumeHost { s with hif := { s.hif with d3hot := false } }) ∧
    (∀ v, exec (.msixVectorUnmask v true) s = .next (releaseMessages { s with hif := { s.hif with functionMask := false } }) ∧
      (messageHeld s v = false → exec (.msixVectorUnmask v false) s =
        .next { s with hif := { s.hif with msix := lmod s.hif.msix v (fun e => { e with masked := false }) } }) ∧
      (messageHeld s v = true → exec (.msixVectorUnmask v false) s =
        .next (sendMessage { s with hif := { s.hif with msix := lmod s.hif.msix v (fun e => { e with masked := false }) } } v)))

/-- IMAGE_LOAD of a file that passes every check places it in its region and starts to load the lowest free hoist. When firmware takes the full form with well-formed parameters, no load in progress and room to pend, the host gives the file b in one piece or by a list of chunks, and b passes the header checks, the signature, the chunks, the relocation and the latency assumptions, no unit of it sleeps, its section passes the checks, and a handle, regions and a hoist are free: the command pends, the patched file is written to the image region, but for the lines of a LOST channel, which no write changes; the image is known under its handle, and the hoist is LOADING. The section form loads section k of a resident image whose key is still accepted into the lowest free hoist in the same way, with the reads of the section's lines still to be made, and touches no byte of LPDDR5 at take. Commands stated here to complete, each under the conditions of its clause: imageLoad, imageLoadSection. (R67, R224, R290, R298, R299, R300, R353) -/
def Obligations.ImageLoadPlacesTheFile : Prop :=
  (∀ (s : State) (c : HostCmd) (file : HostFile) (b : List Byte) (x : ImgBody) (pad n hoist : Nat) (place : Placing),
    let s1 := begun s c
    let h := headOfFile b (pktQ c.pkt 5)
    let i := buildImage b h x pad n place
    Ready 0x10 0 s c → Room s c → s1.hal.hoists.length = 4 → imageArgsOk c.pkt = true → s1.hal.load = none → FileGiven s1 c.pkt file b → checkHeader b h = .ok () →
    freeHandle s1 = some n → placeImage (regionsInUse s1) h = some place → readImage s1.sec b h = .ok (x, pad) →
    i.config.any (usesSleeping s1) = false → checkSection s1 i 0 (fun o k => (b.drop o).take k) = .ok () → stage7 s1 i 0 = some hoist →
    ∃ t, exec (.imageLoad c file) s = .next (pendTaken t c .imageLoad) ∧
      t.feed.lpddr = (lpddrPut s1 place.image (patchedFile (b.take h.length) x place)).feed.lpddr ∧ imageOf t n = some i ∧
      (hoistOf t hoist).state = .loading ∧ (hoistOf t hoist).image = some n ∧ (hoistOf t hoist).section_ = 0) ∧
  (∀ (s : State) (c : HostCmd) (i : Image) (hoist : Nat),
    let s1 := begun s c
    let k := dbits (pktDw c.pkt 2) 21 16
    Ready 0x10 1 s c → Room s c → s1.hal.hoists.length = 4 → imageArgsOk c.pkt = true → pktQ c.pkt 3 = 0 →
    imageOf s1 (dbits (pktDw c.pkt 2) 15 8) = some i → s1.hal.load = none → imageKeyGood s1.sec i.keyId = true → k < i.sections →
    usesSleeping s1 (lget i.config k []) = false → checkSection s1 i k (fun o n => memRead s1.feed.lpddr (i.imageBase + o) n) = .ok () →
    stage7 s1 i k = some hoist →
    ∃ t, exec (.imageLoadSection c) s = .next (pendTaken t c .imageLoad) ∧ t.feed = (addJobs s1 .load false (sectionRanges i k)).feed ∧
      t.feed.lpddr = s1.feed.lpddr ∧
      (hoistOf t hoist).state = .loading ∧ (hoistOf t hoist).image = some i.handle ∧ (hoistOf t hoist).section_ = k)

/-- The end of a load leaves its hoist LOADED, and IMAGE_VERIFY reports the first check that fails and changes nothing else. A load in progress whose lines have been read ends with the hoist LOADED, no load in progress and the image the last one loaded, and the pending command completes OK with the hoist and the handle in detail. IMAGE_VERIFY with well-formed parameters, no load in progress and room pends with the outcome of the checks of stages 1 to 6, and its end completes OK, or with the status and code of the check that failed behind its class 4 record. Commands stated here to complete, each under the conditions of its clause: imageLoadDone, imageVerify, imageVerifyDone. (R298, R299, R300, R303) -/
def Obligations.ImageLoadsEndLoadedAndVerifiesReport : Prop :=
  (∀ (s : State) (j : LoadJob), s.hal.load = some j → j.verify = false → jobPending s .load = false → s.hal.hoists.length = 4 → j.hoist < 4 →
    ∃ t, exec .imageLoadDone s = .next (finishFirst t (fun k => k == .imageLoad) stOK (dw (j.hoist + j.image.handle * 256)) s.now) ∧
      (hoistOf t j.hoist).state = .loaded ∧ t.hal.load = none ∧ t.hal.lastImage = some j.image.handle) ∧
  (∀ (s : State) (c : HostCmd) (file : HostFile) (b : List Byte) (f : Option LoadFail),
    let s1 := begun s c
    let h := headOfFile b (pktQ c.pkt 5)
    Ready 0x11 0 s c → Room s c → imageArgsOk c.pkt = true → dbit (pktDw c.pkt 2) 0 = false → s1.hal.load = none → FileGiven s1 c.pkt file b →
    verifyImage s1 b h = some f →
    ∃ t j, exec (.imageVerify c file) s = .next (pendTaken t c .imageVerify) ∧ t = { s1 with hal := { s1.hal with load := some j } } ∧
      j.verify = true ∧ j.fail = f) ∧
  (∀ (s : State) (j : LoadJob), s.hal.load = some j → j.verify = true →
    (j.fail = none → exec .imageVerifyDone s =
      .next (finishFirst { s with hal := { s.hal with load := none } } (fun k => k == .imageVerify) stOK 0 s.now)) ∧
    (∀ e, j.fail = some e → exec .imageVerifyDone s =
      .next (finishFirst (faultAt { s with hal := { s.hal with load := none } } e.code 4 e.site none noFrame (dw e.d0) (dw e.d1) s.now)
        (fun k => k == .imageVerify) e.status (dw e.code) s.now)))

/-- HOIST_ARM arms a LOADED hoist alone, or copies the active hoist into a FREE one, which becomes MIRROR. HOIST_ARM of a LOADED hoist leaves it ARMED; any other hoist that is ARMED afterwards is the target of a pending switch. HOIST_ARM to mirror, with an active hoist, the named hoist FREE and no mirror or copy of one, pends with the hoist LOADING and the active hoist's words, image and section. The end of the copy, its lines read, leaves it MIRROR with the words that it holds, none of them damaged, and the command completes OK. Commands stated here to complete, each under the conditions of its clause: hoistArmTarget, hoistArmMirror, mirrorCopyDone. (R68, R69, R76, R353) -/
def Obligations.HoistsArmAndMirror : Prop :=
  (∀ (s : State) (c : HostCmd),
    let s1 := begun s c
    let h := dbits (pktDw c.pkt 2) 1 0
    Ready 0x12 0 s c → pktOnly c.pkt [(2, 0x103)] = true → (hoistOf s1 h).state = .loaded → s1.hal.hoists.length = 4 →
    ∃ t, exec (.hoistArmTarget c) s = .next (finishTaken t c stOK 0 []) ∧ (hoistOf t h).state = .armed ∧
      ∀ k, k < 4 → k ≠ h → (hoistOf t k).state = .armed → switchTargets s1 k = true) ∧
  (∀ (s : State) (c : HostCmd) (a : Nat),
    let s1 := begun s c
    let h := dbits (pktDw c.pkt 2) 1 0
    Ready 0x12 1 s c → Room s c → pktOnly c.pkt [(2, 0x103)] = true → s1.hal.active = some a → (hoistOf s1 h).state = .free →
    (s1.hal.hoists.any (fun x => x.state == .mirror || (x.state == .reloading && x.prior == .mirror))) = false → s1.hal.mirrorCopy = none →
    s1.hal.hoists.length = 4 →
    ∃ t, exec (.hoistArmMirror c) s = .next (pendTaken t c (.hoistMirror h)) ∧ t.hal.mirrorCopy = some h ∧ (hoistOf t h).state = .loading ∧
      (hoistOf t h).words = (hoistOf s1 a).words ∧ (hoistOf t h).image = (hoistOf s1 a).image ∧ (hoistOf t h).section_ = (hoistOf s1 a).section_) ∧
  (∀ (s : State) (h : Nat), s.hal.mirrorCopy = some h → jobPending s .copy = false → h < 4 → s.hal.hoists.length = 4 →
    ∃ t, exec .mirrorCopyDone s = .next (finishFirst t (fun k => k == .hoistMirror h) stOK 0 s.now) ∧ t.hal.mirrorCopy = none ∧
      hoistOf t h = { hoistOf s h with state := .mirror, damaged := [] })

/-- HOIST_SWITCH pends for its time T and lands there, and the automatic switch lands on the mirror. HOIST_SWITCH to an ARMED or MIRROR hoist, at least 2,048 fc ahead, by boundary, or by cut to a mirror or a successor section, with no switch pending, pends with its target, kind and time. When no other landing comes first, at T, with the target still ARMED or MIRROR, the halyard is at T and the switch lands; a target that has left those states completes the command ABORTED. An automatic switch that is due lands as a cut on its mirror, behind the class 0 records of the elements it recovers, and a host switch pending to the same hoist completes with it. Commands stated here to complete, each under the conditions of its clause: hoistSwitch, hoistSwitchLands, autoMirrorSwitch. (R36, R37, R70, R71, R75, R78, R256) -/
def Obligations.HoistSwitchesPendAndLand : Prop :=
  (∀ (s : State) (c : HostCmd),
    let s1 := begun s c
    let h := dbits (pktDw c.pkt 2) 1 0
    Ready 0x13 0 s c → Room s c → pktOnly c.pkt [(2, 0x103), (3, 0xFFFFFFFF), (4, 0xFFFFFFFF)] = true →
    ((hoistOf s1 h).state = .armed ∨ (hoistOf s1 h).state = .mirror) → s1.now + 2048 ≤ pktQ c.pkt 3 →
    (dbit (pktDw c.pkt 2) 8 = true ∨ (hoistOf s1 h).state = .mirror ∨ isSuccessor s1 h = true) → s1.hal.hostSwitch = none → s1.hal.autoSwitch = none →
    exec (.hoistSwitch c) s = .next (pendTaken { s1 with hal := { s1.hal with
      hostSwitch := some { target := h, boundary := dbit (pktDw c.pkt 2) 8, time := pktQ c.pkt 3 } } } c .hoistSwitch)) ∧
  (∀ (s : State) (w : HostSwitch), s.hal.hostSwitch = some w → landsNext s w.time 1 = true →
    let s1 := { s with now := max s.now w.time, hal := { s.hal with hostSwitch := none } }
    ((hoistOf s w.target).state = .armed ∨ (hoistOf s w.target).state = .mirror →
      exec .hoistSwitchLands s = .next (finishFirst (landSwitch s1 w.target w.boundary false) (fun k => k == .hoistSwitch) stOK 0 w.time)) ∧
    ((hoistOf s w.target).state ≠ .armed → (hoistOf s w.target).state ≠ .mirror →
      exec .hoistSwitchLands s = .next (finishFirst s1 (fun k => k == .hoistSwitch) stAborted 0 w.time))) ∧
  (∀ (s : State) (a : AutoSwitch), s.hal.autoSwitch = some a → landsNext s a.time 0 = true →
    let t := landSwitch (tellRecovery { s with now := max s.now a.time } 0x0231 a) a.mirror false true
    ((∀ w, s.hal.hostSwitch = some w → w.target ≠ a.mirror) → exec .autoMirrorSwitch s = .next t) ∧
    (∀ w, s.hal.hostSwitch = some w → w.target = a.mirror →
      exec .autoMirrorSwitch s = .next (finishFirst { t with hal := { t.hal with hostSwitch := none } } (fun k => k == .hoistSwitch) stOK 0 a.time)))

/-- HOIST_RELEASE frees a hoist, and with it the image that no other hoist holds; the image form releases an image alone. HOIST_RELEASE of a LOADED, ARMED or MIRROR hoist that no switch targets leaves it FREE, and its image resident when keep is 1 or another hoist holds it, and gone else. With image 1 it releases a resident image that no hoist holds. Both complete OK. Commands stated here to complete, each under the conditions of its clause: hoistRelease, hoistReleaseImageOnly. (R69, R214, R234, R353) -/
def Obligations.HoistsAndImagesAreReleased : Prop :=
  (∀ (s : State) (c : HostCmd) (n : Nat),
    let s1 := begun s c
    let h := dbits (pktDw c.pkt 2) 1 0
    Ready 0x14 0 s c → pktOnly c.pkt [(2, 0xFF0303)] = true → switchTargets s1 h = false → s1.hal.hoists.length = 4 →
    ((hoistOf s1 h).state = .loaded ∨ (hoistOf s1 h).state = .armed ∨ (hoistOf s1 h).state = .mirror) → (hoistOf s1 h).image = some n →
    ∃ t, exec (.hoistRelease c) s = .next (finishTaken t c stOK 0 []) ∧ hoistOf t h = {} ∧
      (dbit (pktDw c.pkt 2) 8 = true ∨ imageHeld (freeHoist s1 h) n = true → t.hal.images = s1.hal.images) ∧
      (dbit (pktDw c.pkt 2) 8 = false → imageHeld (freeHoist s1 h) n = false → imageOf t n = none)) ∧
  (∀ (s : State) (c : HostCmd),
    let s1 := begun s c
    let n := dbits (pktDw c.pkt 2) 23 16
    Ready 0x14 1 s c → pktOnly c.pkt [(2, 0xFF0303)] = true → imageOf s1 n ≠ none → imageHeld s1 n = false →
    ∃ t, exec (.hoistReleaseImageOnly c) s = .next (finishTaken t c stOK 0 []) ∧ imageOf t n = none ∧ t.hal.hoists = s1.hal.hoists)

/-- STREAM_OPEN leaves a closed stream in its first mode; STREAM_CLOSE leaves it CLOSED at once, when its frames have left, or at the timeout. STREAM_OPEN of a present closed stream, on a multiple of its width, with its lanes free and well-formed parameters completes OK with the stream in COURIER or INFER and the geometry of the parameters. STREAM_CLOSE of a closed stream completes OK with the stream as it was and its host descriptor IDLE; with how 1, or with no frame left in flight, completes OK with the stream CLOSED; else it pends with its limit. The last frame leaving, and the timeout of a part that is not halted, leave it CLOSED; the command then completes OK, or TIMEOUT at the limit. Commands stated here to complete, each under the conditions of its clause: streamOpen, streamClose, streamCloseDrained, streamCloseTimeout. (R308, R326, R328, R329) -/
def Obligations.StreamsOpenAndClose : Prop :=
  (∀ (s : State) (c : HostCmd),
    let s1 := begun s c
    let p := c.pkt
    let st := dbits (pktDw p 2) 4 0
    let w := 2 ^ dbits (pktDw p 2) 9 8
    let infer := dbit (pktDw p 2) 10
    Ready 0x20 0 s c → s1.streams.length = 32 → dbits (pktDw p 2) 9 8 ≠ 3 → st + w ≤ 32 → st % w = 0 →
    pktOnly p [(2, 0xF71F), (3, 0xFFFFFFFF), (4, 0xFFFF01FF), (5, 0xFFFFFFFF), (6, 0xFFFFFFFF), (7, 0xFFFFFFFF)] = true →
    dbits (pktDw p 4) 7 4 ≤ 4 → notFinite32 (pktDw p 5) = false → notFinite32 (pktDw p 6) = false → (infer = true → dbits (pktDw p 2) 13 12 ≠ 0) →
    (dbit (pktDw p 2) 14 = true → pktDw p 7 ≠ 0) → (infer = true → servesStream s1 st = true) → (streamOf s1 st).state = .closed →
    laneTaken s1 st w = false →
    ∃ t, exec (.streamOpen c) s = .next (finishTaken t c stOK 0 []) ∧ (streamOf t st).state = (if infer then .infer else .courier) ∧
      (streamOf t st).lanesLog2 = dbits (pktDw p 2) 9 8 ∧ (streamOf t st).path = dbits (pktDw p 2) 13 12 ∧
      (streamOf t st).width = dbits (pktDw p 3) 15 0 + 1 ∧ (streamOf t st).height = dbits (pktDw p 3) 31 16 + 1 ∧
      (streamOf t st).budget = (pktDw p 7).toNat ∧ ∀ k, k ≠ st → streamOf t k = streamOf s1 k) ∧
  (∀ (s : State) (c : HostCmd),
    let s1 := begun s c
    let p := c.pkt
    let st := dbits (pktDw p 2) 4 0
    let us := if pktDw p 3 = 0 then 10000 else (pktDw p 3).toNat
    Ready 0x21 0 s c → s1.streams.length = 32 → pktOnly p [(2, 0x11F), (3, 0xFFFFFFFF)] = true → us ≤ 1000000 → (streamOf s1 st).state ≠ .closing →
    ((streamOf s1 st).state = .closed → exec (.streamClose c) s = .next (finishTaken (descStops s1 st) c stOK 0 [])) ∧
    ((streamOf s1 st).state ≠ .closed → dbit (pktDw p 2) 8 = true →
      ∃ t n, exec (.streamClose c) s = .next (finishTaken t c stOK n []) ∧ (streamOf t st).state = .closed ∧ (streamOf t st).frames = []) ∧
    ((streamOf s1 st).state ≠ .closed → dbit (pktDw p 2) 8 = false → allLeft (streamOf (beginClose s1 st) st) = true →
      ∃ t, exec (.streamClose c) s = .next (finishTaken t c stOK 0 []) ∧ (streamOf t st).state = .closed) ∧
    ((streamOf s1 st).state ≠ .closed → dbit (pktDw p 2) 8 = false → allLeft (streamOf (beginClose s1 st) st) = false → Room s c →
      ∃ t, exec (.streamClose c) s = .next (pendTaken t c (.streamClose st false)) ∧ (streamOf t st).state = .closing ∧
        (streamOf t st).closeHow = some (false, s1.now + us * 1300))) ∧
  (∀ (s : State) (st : Nat), s.streams.length = 32 → st < 32 → (streamOf s st).state = .closing →
    (allLeft (streamOf s st) = true →
      ∃ t, exec (.streamCloseDrained st) s = .next (finishFirst t (isStreamClose st) stOK 0 s.now) ∧ (streamOf t st).state = .closed) ∧
    (∀ how limit, (streamOf s st).closeHow = some (how, limit) → allLeft (streamOf s st) = false → haltedNow s = false → reaches s limit = true →
      ∃ t n, exec (.streamCloseTimeout st) s = .next (finishFirst t (isStreamClose st) stTimeout n (max s.now limit)) ∧ (streamOf t st).state = .closed))

/-- STREAM_MODE changes the mode at T, at once where T is not ahead, and a deadline miss is counted. STREAM_MODE of a stream that is open and not closing, to another mode that its state allows, with no mode change pending: with T ahead it pends with mode and T, else it completes OK with the stream in the new mode. At T, when no other landing comes first, a change still allowed takes place, and the halyard is at T or past it. When the deadline of a frame that is watched passes on a part that is not halted, the stream's miss count goes up by one, saturating, at that halyard time. Commands stated here to complete, each under the conditions of its clause: streamMode, streamModeLands, deadlineExpiry. (R36, R322, R323, R324, R327) -/
def Obligations.StreamModesChangeAtTheirTime : Prop :=
  (∀ (s : State) (c : HostCmd),
    let s1 := begun s c
    let st := dbits (pktDw c.pkt 2) 4 0
    let m := dbits (pktDw c.pkt 2) 9 8
    Ready 0x22 0 s c → s1.streams.length = 32 → pktOnly c.pkt [(2, 0x31F), (3, 0xFFFFFFFF), (4, 0xFFFFFFFF)] = true → m ≠ 3 →
    modeAllowed s1 st m = true → (streamOf s1 st).modePending = none → (streamOf s1 st).state ≠ modeState m →
    (s1.now < pktQ c.pkt 3 → Room s c →
      exec (.streamMode c) s = .next (pendTaken (modStream s1 st (fun x => { x with modePending := some (m, pktQ c.pkt 3) })) c (.streamMode st))) ∧
    (pktQ c.pkt 3 ≤ s1.now → ∃ t, exec (.streamMode c) s = .next (finishTaken t c stOK 0 []) ∧ (streamOf t st).state = modeState m)) ∧
  (∀ (s : State) (st m T : Nat), s.streams.length = 32 → st < 32 → (streamOf s st).modePending = some (m, T) → landsNext s T 6 = true →
    modeAllowed (modStream (advance s T) st (fun c => { c with modePending := none })) st m = true →
    ∃ t, exec (.streamModeLands st) s = .next (finishFirst t (fun k => k == .streamMode st) stOK 0 T) ∧ (streamOf t st).state = modeState m ∧
      (streamOf t st).modePending = none ∧ T ≤ t.now) ∧
  (∀ (s : State) (st fr : Nat) (f : Frame), s.streams.length = 32 → st < 32 → frameOf (streamOf s st) fr = some f → deadlineWatched s st f = true →
    haltedNow s = false → reaches s (deadlineOf (streamOf s st) f) = true →
    ∃ t, exec (.deadlineExpiry st fr) s = .next t ∧ (streamOf t st).misses = sat 0xFFFFFFFF ((streamOf s st).misses + 1) ∧
      t.now = max s.now (deadlineOf (streamOf s st) f))

/-- DESC_ARM arms an idle descriptor at once and waits behind an active one; disarm ends it, at once when no record is open. DESC_ARM with a buffer on a multiple of 4,096 bytes, slots of 2^7 to 2^24 bytes and at most 2^32 bytes in all: an IDLE or EXHAUSTED descriptor becomes ACTIVE with the next sequence number, which the completion carries; an ACTIVE one becomes PENDING with the buffer held, and the command pends. Disarm leaves an IDLE or EXHAUSTED descriptor IDLE; it stops an ACTIVE or PENDING one, at once when no record is in progress, else when the record ends. Commands stated here to complete, each under the conditions of its clause: descArm, descDisarm. (R250, R251) -/
def Obligations.DescriptorsArmAndDisarm : Prop :=
  (∀ (s : State) (c : HostCmd),
    let s1 := begun s c
    let st := dbits (pktDw c.pkt 2) 4 0
    let b := descParams c.pkt
    let d := (streamOf s1 st).desc
    Ready 0x23 0 s c → pktOnly c.pkt [(2, 0x311F), (3, 0xFFFFFFFF), (4, 0xFFFFFFFF), (5, 0xFFFF001F)] = true → b.addr % 4096 = 0 → 7 ≤ b.slotLog2 →
    b.slotLog2 ≤ 24 → b.slots * 2 ^ b.slotLog2 ≤ 2 ^ 32 →
    (d.state = .idle ∨ d.state = .exhausted → exec (.descArm c) s = .next (finishTaken
      (setDesc s1 st { d with state := .active, buf := some b, heldBuf := none, nextSlot := 0, seq := seqNext d.seq }) c stOK (seqNext d.seq) [])) ∧
    (d.state = .active → Room s c → exec (.descArm c) s = .next (pendTaken (setDesc s1 st { d with state := .pending, heldBuf := some b }) c (.descArm st)))) ∧
  (∀ (s : State) (c : HostCmd),
    let s1 := begun s c
    let st := dbits (pktDw c.pkt 2) 4 0
    let d := (streamOf s1 st).desc
    Ready 0x23 1 s c → pktOnly c.pkt [(2, 0x311F), (3, 0xFFFFFFFF), (4, 0xFFFFFFFF), (5, 0xFFFFFFFF)] = true →
    (d.state = .idle ∨ d.state = .exhausted →
      exec (.descDisarm c) s = .next (finishTaken (setDesc s1 st { d with state := .idle, buf := none }) c stOK 0 [])) ∧
    (d.state = .active ∨ d.state = .pending → d.record = none → exec (.descDisarm c) s = .next (finishTaken (descStops s1 st) c stOK 0 [])) ∧
    (d.state = .active ∨ d.state = .pending → d.record ≠ none → Room s c →
      exec (.descDisarm c) s = .next (pendTaken (setDesc s1 st { d with disarming := true }) c (.descDisarm st))))

/-- SCALE_SET writes both banks of a tile that no stage uses, or the NEXT bank for T; the banks change places at T; SCALE_READ writes a bank's entries to the host. SCALE_SET with well-formed arguments on a matrix tile that is not LOST, with no bank NEXT or RETIRED and a table that can be read and that the checks accept: with T 0 and the tile unused, both banks take the entries; with T at least 2,048 fc ahead the bank that is not LIVE becomes NEXT, holding the LIVE entries with the new ones over them, and the command pends. At T, when no other landing comes first, NEXT becomes LIVE and LIVE RETIRED, and the command completes OK; with no older inferred frame left RETIRED becomes SPARE. SCALE_READ completes OK behind the entries of the bank it names. Commands stated here to complete, each under the conditions of its clause: scaleSet, scaleBankLive, scaleBankRetireDone, scaleRead. (R136, R137, R138, R139) -/
def Obligations.ScaleBanksTakeNewEntries : Prop :=
  (∀ (s : State) (c : HostCmd) (b : List Byte),
    let s1 := begun s c
    let u : Site := pktDw c.pkt 2
    let x := tileOf s1 u
    let l := scaleTable (dbits (pktDw c.pkt 3) 10 0) (dbits (pktDw c.pkt 3) 26 16 + 1) b
    let live := liveBank x
    Ready 0x28 0 s c → scaleArgs c.pkt [(6, 0xFFFFFFFF), (7, 0xFFFFFFFF)] = none → unitLost s1 u = false →
    x.bank0.state ≠ .next → x.bank0.state ≠ .retired → x.bank1.state ≠ .next → x.bank1.state ≠ .retired →
    (pktQ c.pkt 6 = 0 → dbit (cfgDw s1 u 4) 0 = false → hostUp s1 = true → scaleRefused s1 u l [x.bank0.entries, x.bank1.entries] = false →
      ∃ t, exec (.scaleSet c (some b)) s = .next (finishTaken t c stOK 0 []) ∧ (tileOf t u).bank0.entries = overlay x.bank0.entries l ∧
        (tileOf t u).bank1.entries = overlay x.bank1.entries l ∧ ∀ v, v ≠ u → tileOf t v = tileOf s1 v) ∧
    (s1.now + 2048 ≤ pktQ c.pkt 6 → hostUp s1 = true → scaleRefused s1 u l [(bankOf x live).entries] = false → Room s c →
      ∃ t, exec (.scaleSet c (some b)) s = .next (pendTaken t c (.scaleSet u)) ∧ (bankOf (tileOf t u) (1 - live)).state = .next ∧
        (bankOf (tileOf t u) (1 - live)).entries = overlay (bankOf x live).entries l ∧ (tileOf t u).nextTime = pktQ c.pkt 6)) ∧
  (∀ (s : State) (u : Site),
    let x := tileOf s u
    let live := liveBank x
    siteKind u = 0 →
    ((bankOf x (1 - live)).state = .next → landsNext s x.nextTime 5 = true →
      ∃ t, exec (.scaleBankLive u) s = .next (finishFirst t (fun k => k == .scaleSet u) stOK 0 x.nextTime) ∧ x.nextTime ≤ t.now ∧
        (bankOf (tileOf t u) (1 - live)).state = .live ∧ (bankOf (tileOf t u) live).state = .retired) ∧
    ((bankOf x (1 - live)).state = .retired → olderFrames s x.liveTime = false →
      exec (.scaleBankRetireDone u) s = .next (setTile s u (setBank x (1 - live) { bankOf x (1 - live) with state := .spare })))) ∧
  (∀ (s : State) (c : HostCmd),
    let s1 := begun s c
    let x := tileOf s1 (pktDw c.pkt 2)
    let bank := if dbit (pktDw c.pkt 8) 0 then 1 - liveBank x else liveBank x
    Ready 0x29 0 s c → scaleArgs c.pkt [(8, 1)] = none →
    exec (.scaleRead c) s = .next (finishTaken s1 c stOK 0
      [(pktQ c.pkt 4, (List.range' (dbits (pktDw c.pkt 3) 10 0) (dbits (pktDw c.pkt 3) 26 16 + 1)).flatMap (fun i => dwBytes (tileEntry x bank i)))]))

/-- SELF_TEST names the unit to prove next, asks for the full-array window, grants it and reports the LOST units; the window starts and ends. Op 0 on a unit that is present and not LOST, with no other op 0 pending, pends with the unit as the one to be proven next; on a DISABLED unit, when a proof may be armed, its BIST runs at once. Op 1 with no op 1 pending pends with the window REQUESTED behind event 0x0071; op 2 with T at least 2,048 fc ahead, a request pending, the part running and no window scheduled or running pends with the window scheduled for T; op 3 completes OK behind the 4,096 bytes that list the LOST units. At T, when no other landing comes first, the window runs behind event 0x0073 and the grant completes OK; the halyard is then not before T. The end of the window leaves it closed behind event 0x0074 and completes the request with the number of units that failed: those of the units reported as failed that are present, that the window tests, and that were not LOST before, each counted once. Commands stated here to complete, each under the conditions of its clause: selfTestProveUnit, selfTestRequestWindow, selfTestGrantWindow, selfTestReport, fullWindowStart, fullWindowEnd. (R37, R410, R417, R418) -/
def Obligations.SelfTestsForceProofsAndOpenTheWindow : Prop :=
  (∀ (s : State) (c : HostCmd),
    let s1 := begun s c
    let u := siteElem (pktDw c.pkt 3)
    Ready 0x30 0 s c → Room s c → dbits (pktDw c.pkt 2) 2 0 = 0 → siteAbsent (pktDw c.pkt 3) = false → pktOnly c.pkt [(2, 0x107), (3, 0xFFFFFFFF)] = true →
    proveSite (pktDw c.pkt 3) = true → sitePresent u = true → unitLost s1 u = false →
    isPending s1 (fun k => match k with | .proveUnit _ => true | _ => false) = false →
    ∃ t, exec (.selfTestProveUnit c) s = .next (pendTaken t c (.proveUnit u)) ∧ t = setProof s1 t.hal.proof ∧
      t.hal.proof.forced = some (u, dbit (pktDw c.pkt 2) 8) ∧
      (unitState s1 u = .disabled → mayArm s1 = true → t.hal.proof.state = .proof ∧ t.hal.proof.site = unitName u ∧ t.hal.proof.serving = true) ∧
      (unitState s1 u ≠ .disabled ∨ mayArm s1 = false → t.hal.proof.state = s1.hal.proof.state ∧ t.hal.proof.site = s1.hal.proof.site)) ∧
  (∀ (s : State) (c : HostCmd),
    let s1 := begun s c
    Ready 0x30 1 s c → Room s c → pktOnly c.pkt [(2, 7)] = true → windowPends s1 = false →
    exec (.selfTestRequestWindow c) s = .next (pendTaken
      (postDev { s1 with hal := { s1.hal with window := .requested } } 0x1B 0x0071 noSite s1.now 0) c .window)) ∧
  (∀ (s : State) (c : HostCmd),
    let s1 := begun s c
    Ready 0x30 2 s c → Room s c → pktOnly c.pkt [(2, 7), (4, 0xFFFFFFFF), (5, 0xFFFFFFFF)] = true → windowPends s1 = true →
    s1.now + 2048 ≤ pktQ c.pkt 4 → s1.hal.halt = .running → windowBusy s1.hal.window = false →
    exec (.selfTestGrantWindow c) s = .next (pendTaken { s1 with hal := { s1.hal with window := .scheduled (pktQ c.pkt 4) } } c .windowGrant)) ∧
  (∀ (s : State) (c : HostCmd),
    Ready 0x30 3 s c → pktOnly c.pkt [(2, 7), (4, 0xFFFFFFFF), (5, 0xFFFFFFFF)] = true → pktQ c.pkt 4 % 64 = 0 →
    exec (.selfTestReport c) s = .next (finishTaken (begun s c) c stOK 0 [(pktQ c.pkt 4, lostReport (begun s c))])) ∧
  (∀ (s : State) (T : Nat), s.hal.window = .scheduled T → landsNext s T 4 = true →
    ∃ x : State, exec .fullWindowStart s = .next (syncAllHolds (finishFirst (postDev { x with hal := { x.hal with window := .running T } } 0x1B 0x0073 noSite T 0)
        (fun k => k == .windowGrant) stOK 0 T)) ∧ x.now = max s.now T) ∧
  (∀ (s : State) (T : Nat) (failed : List Site), s.hal.window = .running T →
    let units := dedup ((failed.filter (fun u => sitePresent (siteElem u) && decide (siteKind u ≤ 5 ∨ siteKind u = 10) && !unitLost s (siteElem u))).map siteElem)
    ∃ x : State, exec (.fullWindowEnd failed) s = .next (syncAllHolds (finishFirst (postDev x 0x1B 0x0074 noSite s.now units.length)
        (fun k => k == .window) stOK (dw units.length) s.now)) ∧ x.hal.window = .none ∧ x.now = s.now)

/-- The rolling proof arms the unit of an op 0 or the next of the round, runs its BIST when it is idle, a second time when the first run fails, and gives it back. When a proof may be armed and the spacing is over: a unit that an op 0 named is armed, if it is not DRAINING and its sector is ACTIVE; with none and the proof enabled, the next unit of the round is armed. The halyard is then not before the end of the spacing. A switch box goes to PROOF, a memory port that is not DISABLED to PROOF_WAIT, any other unit to one of the two. A unit in PROOF_WAIT that is idle goes to PROOF. When the wait of a tile or steering unit is over and its proof is not forced with force 1, it is given up, behind event 0x0072, and counted as deferred. A run that passes leads to RESTORE, a second run behind record 0x0E01; the first run that fails makes the second begin; a second that fails leaves the unit LOST behind record 0x0E10. The end of RESTORE leaves no proof in progress and counts the spacing from now. A write of HAL_PROOF_CTRL sets enable, the spacing and the longest wait; enable from 1 to 0 ends a wait that serves no op 0, and from 0 to 1 counts the spacing from now. Commands stated here to complete, each under the conditions of its clause: halProofCtrl, proofArm, proofUnitIdle, proofMaxWaitExpiry, bistRunDone, proofRestoreDone. (R409, R410, R411, R417, R432) -/
def Obligations.TheRollingProofRunsUnitByUnit : Prop :=
  (∀ (s : State) (u : Site), mayArm s = true → reaches s (spacingEnd s) = true →
    (∀ force, s.hal.proof.forced = some (u, force) → unitState s u ≠ .draining → (sectorOf s (siteSector u)).state = .active →
      exec .proofArm s = .next (armUnit (advance s (spacingEnd s)) u true)) ∧
    (∀ wraps, s.hal.proof.forced = none → s.hal.proof.enable = true → nextProof s = some (u, wraps) →
      exec .proofArm s = .next (armUnit (advance (if wraps then roundOver s s.hal.proof.lastEnd else s) (spacingEnd s)) u false)) ∧
    (∀ x serving, let t := armUnit (advance x (spacingEnd s)) u serving
      t.now = max x.now (spacingEnd s) ∧ t.hal.proof.site = unitName u ∧ t.hal.proof.serving = serving ∧ t.hal.proof.armedAt = t.now ∧
      (siteKind u = 10 → t.hal.proof.state = .proof) ∧ (siteKind u = 5 → unitState x u ≠ .disabled → t.hal.proof.state = .wait) ∧
      (t.hal.proof.state = .wait ∨ t.hal.proof.state = .proof))) ∧
  (∀ (s : State) (u : Site), s.hal.proof.state = .wait → proofNames s u = true →
    (unitIdle s (siteElem u) = true →
      exec (.proofUnitIdle u) s = .next (setProof s { s.hal.proof with state := .proof, armedAt := s.now })) ∧
    (siteKind u ≤ 3 → bindStopped s u = false → reaches s (s.hal.proof.armedAt + max 1 s.hal.proof.maxWaitMs * (1000 * Config.us)) = true →
      ∃ t, exec (.proofMaxWaitExpiry u) s = .next t ∧ t.hal.proof.state = .none ∧ t.hal.proof.deferred = sat 0xFFFFFFFF (s.hal.proof.deferred + 1) ∧
        s.hal.proof.armedAt + max 1 s.hal.proof.maxWaitMs * (1000 * Config.us) ≤ t.now)) ∧
  (∀ (s : State) (u : Site), s.hal.proof.state = .proof → proofNames s u = true →
    (s.hal.proof.repeated = false → exec (.bistRunDone u true) s = .next (setProof s { s.hal.proof with state := .restore }) ∧
      exec (.bistRunDone u false) s = .next (setProof s { s.hal.proof with repeated := true })) ∧
    (s.hal.proof.repeated = true →
      (∃ t, exec (.bistRunDone u true) s = .next t ∧ t.hal.proof.state = .restore ∧
        t = setProof (fault s 0x0E01 0 s.hal.proof.site 0 0) t.hal.proof) ∧
      (∃ t x, exec (.bistRunDone u false) s = .next (liftHolds t) ∧ x = provenNow (fault s 0x0E10 2 s.hal.proof.site 0 0) ∧
        t = moveUnit (tailsOff x (siteElem u)) (siteElem u) { ctlOf (fault s 0x0E10 2 s.hal.proof.site 0 0) (siteElem u) with state := .lost }))) ∧
  (∀ (s : State) (u : Site), s.hal.proof.state = .restore → proofNames s u = true →
    ∃ t, exec (.proofRestoreDone u) s = .next t ∧ t.hal.proof.state = .none ∧ t.hal.proof.lastEnd = s.now) ∧
  (∀ (s : State) (v : Dword),
    ∃ t, exec (.halProofCtrl v) s = .next t ∧ t = { s with hal := { s.hal with proof := t.hal.proof } } ∧ t.hal.proof.enable = dbit v 0 ∧
      t.hal.proof.spacingUs = dbits v 23 8 ∧ t.hal.proof.maxWaitMs = dbits v 31 24 ∧
      (s.hal.proof.enable = true → dbit v 0 = false → s.hal.proof.state = .wait → s.hal.proof.serving = false → t.hal.proof.state = .none) ∧
      (s.hal.proof.enable = false → dbit v 0 = true → t.hal.proof.lastEnd = s.now))

/-- UNIT_DISABLE drains an ENABLED unit, which is DISABLED when it has drained or its time is over; UNIT_ENABLE brings it back. UNIT_DISABLE of a present ENABLED tile, steering unit, glue block or memory port pends with the unit DRAINING from now for its timeout, a proof's wait of the unit being ended; of a unit in PROOF or RESTORE it pends and leaves the unit to begin when the proof is over. A unit that has drained becomes DISABLED and the command completes OK. At the timeout of a part that is not halted, on a unit in no proof that has not drained, the frames in it are aborted under its kind's rule, it becomes DISABLED, and the command completes TIMEOUT with their number. A glue block with no port left to wait for becomes DISABLED and the command completes OK; at the timeout it becomes DISABLED and the command completes TIMEOUT with the number of frames of the ports that still wait. UNIT_ENABLE of a DISABLED unit, and of a DRAINING one, whose UNIT_DISABLE then completes ABORTED, completes OK with the unit ENABLED; of an ENABLED unit it completes OK with no effect. Commands stated here to complete, each under the conditions of its clause: unitDisable, unitEnable, unitDrainDone, unitDrainTimeout, glueDrainDone, glueDrainTimeout. (R111, R112, R163, R164, R192, R230, R419, R420) -/
def Obligations.UnitsDrainAndLeaveService : Prop :=
  (∀ (s : State) (c : HostCmd),
    let s1 := begun s c
    let u := siteElem (pktDw c.pkt 2)
    Ready 0x32 0 s c → Room s c → disableCheck c.pkt [(2, 0xFFFFFFFF), (3, 0xFFFFFFFF)] = none → (pktDw c.pkt 3).toNat ≤ 1000000 →
    unitState s1 u = .enabled → (ctlOf s1 u).disableAfterProof = false →
    (proofAt s1 u = false ∨ s1.hal.proof.state = .wait →
      ∃ t, exec (.unitDisable c) s = .next (pendTaken t c (.unitDisable u)) ∧
        ctlOf t u = { state := .draining, drainFrom := s1.now, drainLimit := drainMicros c.pkt * 1300 } ∧ (proofAt s1 u = true → t.hal.proof.state = .none)) ∧
    (proofAt s1 u = true → s1.hal.proof.state ≠ .wait →
      exec (.unitDisable c) s = .next (pendTaken (setCtl s1 u { ctlOf s1 u with disableAfterProof := true, drainLimit := drainMicros c.pkt * 1300 })
        c (.unitDisable u)))) ∧
  (∀ (s : State) (c : HostCmd),
    let s1 := begun s c
    let u := siteElem (pktDw c.pkt 2)
    Ready 0x33 0 s c → disableCheck c.pkt [(2, 0xFFFFFFFF)] = none →
    (unitState s1 u = .disabled → ∃ t, exec (.unitEnable c) s = .next (finishTaken t c stOK 0 []) ∧ ctlOf t u = {}) ∧
    (unitState s1 u = .draining → ∃ t, exec (.unitEnable c) s = .next (finishTaken
      (finishFirst t (fun k => k == .unitDisable u) stAborted 0 s1.now) c stOK 0 []) ∧ ctlOf t u = {}) ∧
    (unitState s1 u = .enabled → (ctlOf s1 u).disableAfterProof = false → exec (.unitEnable c) s = .next (finishTaken s1 c stOK 0 []))) ∧
  (∀ (s : State) (u : Site), siteElem u = u → siteKind u ≤ 5 → unitState s u = .draining →
    (unitDrained s u = true →
      ∃ t, exec (.unitDrainDone u) s = .next (finishFirst t (fun k => k == .unitDisable u) stOK 0 s.now) ∧ unitState t u = .disabled) ∧
    (unitDrained s u = false → siteKind u ≠ 4 → haltedNow s = false → inProof s u = false →
      reaches s ((ctlOf s u).drainFrom + (ctlOf s u).drainLimit) = true →
      ∃ x t, x = advance s ((ctlOf s u).drainFrom + (ctlOf s u).drainLimit) ∧ t = moveUnit (drainAbort x u) u { state := .disabled } ∧
        unitState t u = .disabled ∧
        exec (.unitDrainTimeout u) s = .next (finishFirst t (fun k => k == .unitDisable u) stTimeout (dw (unitFrames x u).length) x.now)) ∧
    (siteKind u = 4 → glueWaiting s u = [] →
      ∃ t, exec (.glueDrainDone u) s = .next (finishFirst t (fun k => k == .unitDisable u) stOK 0 s.now) ∧ unitState t u = .disabled) ∧
    (siteKind u = 4 → glueWaiting s u ≠ [] → haltedNow s = false → reaches s ((ctlOf s u).drainFrom + (ctlOf s u).drainLimit) = true →
      ∃ t, exec (.glueDrainTimeout u) s = .next (finishFirst t (fun k => k == .unitDisable u) stTimeout
          (dw (dedup ((glueWaiting s u).filterMap (fun p => (amGet (glueOf s u).tacks p).map (fun q => (q.1, q.2.1))))).length)
          (max s.now ((ctlOf s u).drainFrom + (ctlOf s u).drainLimit))) ∧
        unitState t u = .disabled))

/-- HALT_AT stops every element at T, and RESUME lets them go on 2,048 fc after it is taken. HALT_AT with T at least 2,048 fc ahead on a running part with no window granted pends with the halt PENDING for T. At T, when no other landing comes first, the part is HALTED, and the command completes OK. RESUME of a halted part completes OK with the resume 2,048 fc ahead; RESUME of a pending halt cancels it and aborts HALT_AT. At the resume's time the part runs again. Commands stated here to complete, each under the conditions of its clause: haltAt, haltLands, resume, resumeLands. (R37, R421, R422, R425) -/
def Obligations.TheHaltIsConsistentAndResumes : Prop :=
  (∀ (s : State) (c : HostCmd),
    let s1 := begun s c
    Ready 0x38 0 s c → Room s c → pktOnly c.pkt [(2, 0xFFFFFFFF), (3, 0xFFFFFFFF)] = true → s1.now + 2048 ≤ pktQ c.pkt 2 →
    s1.hal.halt = .running → windowBusy s1.hal.window = false →
    exec (.haltAt c) s = .next (pendTaken { s1 with hal := { s1.hal with halt := .pending, haltTime := pktQ c.pkt 2 } } c .haltAt)) ∧
  (∀ s : State, s.hal.halt = .pending → landsNext s s.hal.haltTime 2 = true →
    ∃ t, exec .haltLands s = .next (syncAllHolds (finishFirst t (fun k => k == .haltAt) stOK 0 s.hal.haltTime)) ∧ t.hal.halt = .halted ∧
      t.now = max s.now s.hal.haltTime) ∧
  (∀ (s : State) (c : HostCmd),
    let s1 := begun s c
    Ready 0x39 0 s c → pktOnly c.pkt [] = true →
    (s1.hal.halt = .halted → exec (.resume c) s = .next (finishTaken
      { s1 with hal := { s1.hal with halt := .resuming, resumeTime := s1.now + 2048 } } c stOK 2048 [])) ∧
    (s1.hal.halt = .pending → exec (.resume c) s = .next (finishTaken
      (finishFirst { s1 with hal := { s1.hal with halt := .running } } (fun k => k == .haltAt) stAborted 0 s1.now) c stOK 0 []))) ∧
  (∀ s : State, s.hal.halt = .resuming → landsNext s s.hal.resumeTime 2 = true →
    ∃ t, exec .resumeLands s = .next t ∧ t.hal.halt = .running ∧ t.now = max s.now s.hal.resumeTime)

/-- SNAPSHOT writes the cut of a halted part to LPDDR5, copies it to the host, and gives the region back. Op 0 on a HALTED part, with room for the snapshot, pends with the capture in progress; when no read is in flight, the snapshot's bytes are written to the free place, but for the lines of a LOST channel, which no write changes; the region is known, and the command completes OK with the size in units of 4,096 bytes. Op 1 of a part of the region in units of 4,096 bytes, at most 2^24 bytes, pends with the reads of its lines still to be made, and ends, when they have been made, with the bytes that these reads give written to the host: a line that neither it nor its mirror copy yields reads as free values. Op 2 releases the region. Commands stated here to complete, each under the conditions of its clause: snapshotCapture, snapshotCaptureDone, snapshotCopy, snapshotRelease, snapshotCopyDone. (R37, R424, R427, R428, R434) -/
def Obligations.SnapshotsAreCapturedCopiedAndReleased : Prop :=
  (∀ (s : State) (c : HostCmd) (a : Nat),
    let s1 := begun s c
    let flags := dbits (pktDw c.pkt 3) 3 0
    Ready 0x3A 0 s c → Room s c → pktOnly c.pkt [(2, 3), (3, 15)] = true → dbits (pktDw c.pkt 2) 1 0 = 0 → s1.hal.halt = .halted →
    s1.snap.capturing = false → snapPlace s1 (snapBytes s1 flags).length = some a →
    exec (.snapshotCapture c) s = .next (pendTaken { s1 with snap := { s1.snap with capturing := true, flags := flags } } c .snapshotCapture)) ∧
  (∀ (s : State) (a : Nat) (bytes : List Byte), s.snap.capturing = true → readsInFlight s = false →
    let s1 := advance s (((List.range Config.spanPorts).map (echoesBy s)).foldl max 0)
    reaches s (((List.range Config.spanPorts).map (echoesBy s)).foldl max 0) = true →
    bytes = snapBytes s1 s1.snap.flags → snapPlace s1 bytes.length = some a →
    ∃ t, exec .snapshotCaptureDone s = .next (finishFirst t (fun k => k == .snapshotCapture) stOK (dw (bytes.length / 4096)) t.now) ∧
      t.feed.lpddr = (lpddrPut s a bytes).feed.lpddr ∧ t.snap.region = some (a, bytes.length) ∧ t.snap.capturing = false) ∧
  (∀ (s : State) (c : HostCmd) (r : Nat × Nat),
    let s1 := begun s c
    let off := pktQ c.pkt 4
    let len := (pktDw c.pkt 6).toNat
    Ready 0x3A 1 s c → Room s c → s1.snap.region = some r → s1.snap.copy = none →
    pktOnly c.pkt [(2, 3), (4, 0xFFFFFFFF), (5, 0xFFFFFFFF), (6, 0xFFFFFFFF), (7, 0xFFFFFFFF), (8, 0xFFFFFFFF)] = true →
    off % 4096 = 0 → len % 4096 = 0 → pktQ c.pkt 7 % 4096 = 0 → len ≤ 2 ^ 24 → off + len ≤ r.2 →
    exec (.snapshotCopy c) s = .next (pendTaken (addJob { s1 with snap := { s1.snap with copy := some (r.1 + off, len, pktQ c.pkt 7) } }
      .snapshot false (r.1 + off) len) c .snapshotCopy)) ∧
  (∀ (s : State) (a len host : Nat), s.snap.copy = some (a, len, host) → jobPending s .snapshot = false →
    ∃ t, exec .snapshotCopyDone s = .next (finishFirst t (fun k => k == .snapshotCopy) stOK 0 t.now [(host, jobBytes s a len)]) ∧
      t.snap.copy = none ∧ t.feed = s.feed) ∧
  (∀ (s : State) (c : HostCmd),
    let s1 := begun s c
    Ready 0x3A 2 s c → pktOnly c.pkt [(2, 3)] = true → s1.snap.region ≠ none →
    exec (.snapshotRelease c) s = .next (finishTaken { s1 with snap := { s1.snap with region := none } } c stOK 0 []))

/-- A tack line binds a free slot, the sequencer issues the next due operation, and a watchdog that runs out aborts every bound frame. With an open tack line at the head of its frame port, an ENABLED matrix, vector or window tile that is used and not held binds its lowest free slot to the stream, frame and arrival of the tack line; a window tile first breaks off the frame of that stream that it was still taking. With fewer than 32 operations on the scoreboard, a matrix or vector tile that works issues the next operation that is due, in round robin over its slots, in the first ac after its last issue; the entry goes on the scoreboard. An entry at the head of its class whose interval is over leaves record 0x0320 or 0x0520, and the tile's bound frames are aborted; a window tile's interval is that in which a bound slot takes and sends no beat: the model's choice, notes/assumptions/11.md. Commands stated here to complete, each under the conditions of its clause: slotBind, operationIssue, tileWatchdogExpiry. (R99, R100, R102, R109, R113, R144, R146, R151, R156) -/
def Obligations.TilesBindIssueAndTimeOut : Prop :=
  (∀ (s : State) (u : Site) (k : Nat) (b b' : Beat) (s1 : State), tileSees s u = true → unitState s u = .enabled → bindStopped s u = false → isOpenTack b = true →
    (siteKind u = 0 → (inBuf s ⟨u, framePort s u⟩).head? = some b → (List.range (slotsUsed s u)).find? (fun k => (slotAt (tileOf s u).slots k).isNone) = some k →
      takeBeat s ⟨u, framePort s u⟩ (fun _ => true) = some (b', s1) → k < (tileOf s u).slots.length →
      ∃ t, exec (.slotBind u) s = .next t ∧ slotAt (tileOf t u).slots k =
        some { stream := bStream b, frame := tackFrame b, tack := tackInfo b, bank := bankFor (tileOf s u) (tackArrival b) }) ∧
    (siteKind u = 1 → (inBuf s ⟨u, vecFramePort s u⟩).head? = some b →
      (List.range (vecSlotsUsed s u)).find? (fun k => (slotAt (vtileOf s u).slots k).isNone) = some k →
      takeBeat s ⟨u, vecFramePort s u⟩ (fun _ => true) = some (b', s1) → k < (vtileOf s u).slots.length →
      ∃ t, exec (.slotBind u) s = .next t ∧
        slotAt (vtileOf t u).slots k = some { stream := bStream b, frame := tackFrame b, tack := tackInfo b }) ∧
    (let s' := winTackCut s u b
     siteKind u = 2 → (inBuf s ⟨u, (winCfg s u).inPort⟩).head? = some b → unitState s' u = .enabled → bindStopped s' u = false →
      (List.range (winCfg s u).slots).find? (fun k => (winSlotAt (wtileOf s' u) k).isNone) = some k →
      takeBeat s' ⟨u, (winCfg s u).inPort⟩ (fun x => x == b) = some (b', s1) → k < (wtileOf s' u).slots.length →
      ∃ t, exec (.slotBind u) s = .next t ∧
        winSlotAt (wtileOf t u) k = some { stream := bStream b, frame := tackFrame b, tack := tackInfo b, since := s1.now })) ∧
  (∀ (s : State) (u : Site) (k i : Nat),
    let place (e : Issued) : Nat × Nat × Nat × Dword := (e.id, e.slot, e.index, e.op)
    let x := tileOf s u
    let v := vtileOf s u
    (tileActs s u = true → x.board.length < 32 → reaches s (issueAt s x.nextIssue / 8) = true →
      nextIssuer (tileOps s u) (tileLimits s u) (x.slots.map (fun o => o.map (settleNest (tileOps s u) (tileLimits s u)))) x.lastSlot = some (k, i) →
      ∃ t, exec (.operationIssue u) s = .next t ∧ (tileOf t u).board.map place = x.board.map place ++ [(x.nextId, k, i, cfgDw s u (23 + i))] ∧
        (tileOf t u).lastSlot = k ∧ (tileOf t u).nextId = x.nextId + 1 ∧ t.now = max s.now (issueAt s x.nextIssue / 8) ∧
        (tileOf t u).nextIssue = issueAt s x.nextIssue + acRclk s u) ∧
    (vecActs s u = true → v.board.length < 32 → reaches s (issueAt s v.nextIssue / 8) = true →
      nextIssuer (vecOps s u) (vecLimits s u) (v.slots.map (fun o => o.map (settleNest (vecOps s u) (vecLimits s u)))) v.lastSlot = some (k, i) →
      ∃ t, exec (.operationIssue u) s = .next t ∧ (vtileOf t u).board.map place = v.board.map place ++ [(v.nextId, k, i, cfgDw s u (23 + i))] ∧
        (vtileOf t u).lastSlot = k ∧ (vtileOf t u).nextId = v.nextId + 1 ∧ t.now = max s.now (issueAt s v.nextIssue / 8) ∧
        (vtileOf t u).nextIssue = issueAt s v.nextIssue + acRclk s u)) ∧
  (∀ (s : State) (u : Site) (slot index : Nat) (e : Issued),
    (tileActs s u = true → (tileOf s u).board.find? (fun x => x.slot == slot && x.index == index && isHead tileKey (tileOf s u).board x) = some e →
      10 ≤ watchdogLog s u → reaches s (e.headSince + 2 ^ watchdogLog s u) = true → exec (.tileWatchdogExpiry u slot index) s = .next (tileAbortAll
        (fault (advance s (e.headSince + 2 ^ watchdogLog s u)) 0x0320 4 u (dw (index + slot * 16)) 0) u 0x0321)) ∧
    (vecActs s u = true → (vtileOf s u).board.find? (fun x => x.slot == slot && x.index == index && isHead vecKey (vtileOf s u).board x) = some e →
      10 ≤ vecWatchdog s u → reaches s (e.headSince + 2 ^ vecWatchdog s u) = true → exec (.tileWatchdogExpiry u slot index) s = .next (vecAbortAll
        (fault (advance s (e.headSince + 2 ^ vecWatchdog s u)) 0x0520 4 u (dw (index + slot * 16)) 0) u 0x0521)) ∧
    (∀ sl, winActs s u = true → winSlotAt (wtileOf s u) slot = some sl → 10 ≤ (winCfg s u).watchdog →
      reaches s (sl.since + 2 ^ (winCfg s u).watchdog) = true → exec (.tileWatchdogExpiry u slot index) s = .next (winAbortAll
        (fault (advance s (sl.since + 2 ^ (winCfg s u).watchdog)) 0x0520 4 u (dw (slot * 16)) 0) u 0x0521)))

/-- A load writes the beat that it takes into staging, scratch or the line buffer, and a scale group's exponent is fixed from the predictor. An ALOAD, VLOAD or window tile that works takes the oldest data beat of its stream that it may look at, and the beat's data stand in the staging line, the scratch entry or the line-beats of its place; a window tile takes the rest of a frame whose slot has unbound and stores none of it. A scale group whose first row is numbered gets the exponent and zero points that its predictor gives. Commands stated here to complete, each under the conditions of its clause: aloadBeat, rowExponentFix, vloadBeat, windowBeatIn. (R103, R107, R121, R122, R143, R145, R153) -/
def Obligations.LoadsWriteTheStores : Prop :=
  (∀ (s s1 : State) (u : Site) (slot port : Nat) (e : Issued) (sl : Slot) (b b' : Beat), tileActs s u = true →
    let at_ := amGetD (tileOf s u).portFc port 0
    headOf tileKey (tileOf s u).board (slot, 2, port) = some e → sl = entrySlot (tileOf s u) e → aloadView s u port sl.stream = some b →
    isTack b = false → lineFilled (tileOf s u) ((e.a + e.progress) % 1024) = false → reaches s at_ = true →
    takeBeat (advance s at_) ⟨u, port⟩ (fun x => x == b) = some (b', s1) →
    let t := aloadWrite s1 u slot sl e b
    exec (.aloadBeat u slot port) s = .next (tileSettle t u) ∧ (lineAt (tileOf t u) ((e.a + e.progress) % 1024)).data = b.data ∧
      lineFilled (tileOf t u) ((e.a + e.progress) % 1024) = true ∧ t.now = max s.now at_) ∧
  (∀ (s s1 : State) (u : Site) (slot : Nat) (e : Issued) (sl : Slot) (b b' : Beat), vecActs s u = true →
    let i := vecEntry s u 17 (wrapD s u) slot e.d (if vopPack e.op then e.progress / 2 else e.progress)
    headOf vecKey (vtileOf s u).board (slot, 0, 0) = some e → slotAt (vtileOf s u).slots slot = some sl → vloadView s u (vopPort e.op) sl.stream = some b →
    isTack b = false → vecFree s u (vtileOf s u) e = true → reaches s (ceilDiv (amGetD (vtileOf s u).ready i 0) 8) = true →
    takeBeat s ⟨u, vopPort e.op⟩ (fun x => x == b) = some (b', s1) →
    ∃ t, exec (.vloadBeat u slot) s = .next t ∧
      entryOf (vtileOf t u) i = loadedEntry (vopPack e.op) e.progress (entryOf (vtileOf s u) i) b.data) ∧
  (∀ (s s1 : State) (u : Site) (k : Nat) (sl : WinSlot) (b b' : Beat), winActs s u = true →
    let c := winCfg s u
    winPick c (wtileOf s u) (inBuf s ⟨u, c.inPort⟩) = some b → winTaking c (wtileOf s u) (bStream b) = some (some k, sl) →
    bLast b = (sl.inBeat + 1 == winRowBeats c) → takeBeat s ⟨u, c.inPort⟩ (fun x => x == b) = some (b', s1) →
    ∃ t, exec (.windowBeatIn u false) s = .next t ∧ (wtileOf t u).lines = winStore c (wtileOf s u) k sl b.data) ∧
  (∀ (s s1 : State) (u : Site) (p : Bool) (sl : WinSlot) (b b' : Beat), winActs s u = true →
    let c := winCfg s u
    winPick c (wtileOf s u) (inBuf s ⟨u, c.inPort⟩) = some b → winTaking c (wtileOf s u) (bStream b) = some (none, sl) →
    bLast b = (sl.inBeat + 1 == winRowBeats c) → takeBeat s ⟨u, c.inPort⟩ (fun x => x == b) = some (b', s1) →
    ∃ t, exec (.windowBeatIn u p) s = .next t ∧ (wtileOf t u).lines = (wtileOf s u).lines) ∧
  (∀ (s : State) (u : Site) (slot g : Nat) (sl : Slot), tileActs s u = true → isInt s u = true → slotAt (tileOf s u).slots slot = some sl →
    groupDue (tileOf s u) slot sl (rowChannels s u) = some g →
    ∃ t sl', exec (.rowExponentFix u slot false) s = .next t ∧ slotAt (tileOf t u).slots slot = some sl' ∧
      sl'.groups = sl.groups ++ [(g, fixGroup s u sl g)])

/-- MAC and OMAC write their accumulator set, the clip check passes it or has it replayed wide, and DRAIN sends its columns. While no replay waits for the array, a MAC at the head of its class, and an OMAC, whose conditions hold, with a sound weight word and no parity error, leaves the scoreboard and writes the set, or the side set, that its generator names; while the weight region that it reads is being rewritten, the operation stalls the tile instead. The set whose clip check comes next passes when its clipped share is at most the threshold, or when reruns are off; above it, with reruns on, the operations of its log are to be replayed in the wide path. In a frame that is wide already, a set with a narrow part is replayed and another passes. A DRAIN whose set is checked, with no part of its replay left, puts its columns, one beat each, behind what waits at its port. A set keeps all but its owner when a slot unbinds. Commands stated here to complete, each under the conditions of its clause: macFire, omacFire, clipCheck, drainFire. (R87, R92, R96, R104, R107, R120, R126, R128, R129) -/
def Obligations.ArrayOperationsWriteTheirSet : Prop :=
  (∀ (s : State) (u : Site) (slot : Nat) (e : Issued), tileActs s u = true → replayHead (tileOf s u) = none →
    headOf tileKey (tileOf s u).board (slot, 0, 0) = some e → arrayFree (tileOf s u) e = true →
    let sl := entrySlot (tileOf s u) e
    (macLines s u e).all (fun i => lineReady s u sl (lineAt (tileOf s u) i)) = true → reaches s (fireAt s u e / 8) = true →
    let s0 := settleWrites (fireTurn s u e) u
    (unitSound (tileOf s u) e.b = false → exec (.macFire u slot .good .clean) s = .next (stallOn s u [e.b])) ∧
    (unitSound (tileOf s u) e.b = true → isInt s u = true → groupClash s0 u sl e = false → ∃ t, exec (.macFire u slot .good .clean) s = .next t ∧
      { setOf (tileOf t u) e.d with owner := 0 } = { intMacSet s0 u sl e with owner := 0 } ∧ t.now = max s.now (fireAt s u e / 8) ∧ ∀ x ∈ (tileOf t u).board, x.id ≠ e.id) ∧
    (unitSound (tileOf s u) e.b = true → isInt s u = false →
      ∃ t, exec (.macFire u slot .good .clean) s = .next t ∧ { setOf (tileOf t u) e.d with owner := 0 } = { (floatMacSet s0 u e).1 with owner := 0 } ∧
        t.now = max s.now (fireAt s u e / 8) ∧ ∀ x ∈ (tileOf t u).board, x.id ≠ e.id)) ∧
  (∀ (s : State) (u : Site) (slot : Nat) (e : Issued), tileActs s u = true → headOf tileKey (tileOf s u).board (slot, 1, 0) = some e →
    arrayFree (tileOf s u) e = true → lineFilled (tileOf s u) e.a = true →
    reaches s (fireAt s u e / 8) = true → unitSound (tileOf s u) e.b = true → unitSound (tileOf s u) ((e.b + 1) % 24576) = true →
    let x := tileOf (settleWrites (fireTurn s u e) u) u
    ∃ t, exec (.omacFire u slot (.good, .good) .clean) s = .next t ∧
      sideOf_ (tileOf t u) e.d = (rankOne e.clear 32 (sideOf_ x e.d) ((lanesOf (lineAt x e.a).data).map num16)
        (floatWeights false (weightUnit x e.b) ++ floatWeights false (weightUnit x ((e.b + 1) % 24576)))).1 ∧ ∀ y ∈ (tileOf t u).board, y.id ≠ e.id) ∧
  (∀ (s : State) (u : Site) (slot : Nat) (e : Issued) (sl : Slot), tileActs s u = true → isInt s u = true →
    slotAt (tileOf s u).slots slot = some sl → checkNext s (tileOf s u) slot sl = some e →
    let set := setOf (tileOf s u) e.d
    let n := clipTotals sl set.ordEnd
    let x := advance s (backFc set)
    (sl.wide = true → set.anyNarrow = false → exec (.clipCheck u slot) s = .next (passSet x u e.d)) ∧
    (sl.wide = true → set.anyNarrow = true → exec (.clipCheck u slot) s = .next (replaySet x u e.d)) ∧
    (sl.wide = false → n.2 * 65536 ≤ clipThreshold s u * n.1 → exec (.clipCheck u slot) s = .next (passSet x u e.d)) ∧
    (sl.wide = false → clipThreshold s u * n.1 < n.2 * 65536 → rerunOn s u = false →
      exec (.clipCheck u slot) s = .next (passSet (countUnit x u 5 1) u e.d)) ∧
    (sl.wide = false → clipThreshold s u * n.1 < n.2 * 65536 → rerunOn s u = true →
      ∃ t, exec (.clipCheck u slot) s = .next t ∧ (setOf (tileOf t u) e.d).isWide = true ∧ (setOf (tileOf t u) e.d).checked = true ∧
        (setOf (tileOf t u) e.d).todo = set.log ∧ e.d ∈ (tileOf t u).replays)) ∧
  (∀ (s : State) (u : Site) (slot : Nat) (e : Issued) (sl : Slot), tileActs s u = true → drainHead (tileOf s u) slot = some e →
    slotAt (tileOf s u).slots slot = some sl → (isInt s u = true → (setOf (tileOf s u) e.d).checked = true) →
    earlier (tileOf s u).board e (fun x => (opCode x.op == 2 || opCode x.op == 3) && x.d == e.d) = false →
    earlier (tileOf s u).board e (fun x => opCode x.op == 4 && dbits x.op 8 7 == dbits e.op 8 7 && !x.fired) = false →
    (isInt s u = true → (setOf (tileOf s u) e.d).todo = []) → reaches s (backFc (setOf (tileOf s u) e.d)) = true →
    let out : EndPoint := ⟨u, dbits e.op 8 7⟩
    let cols := (drainColumns (advance s (backFc (setOf (tileOf s u) e.d))) u sl e).1
    ∃ t, exec (.drainFire u slot .clean) s = .next t ∧ (outQ t out).length = (outQ s out).length + (if isInt s u then 32 else 16) ∧
      ((outQ t out).drop (outQ s out).length).map (·.beat.data) = cols.map (·.data) ∧ (outQ t out).take (outQ s out).length = outQ s out)

/-- FETCH asks its queue, a returned beat is written to the weight store, WAIT and RELEASE leave the scoreboard, and damaged words are rewritten. A FETCH whose queue holds fewer than eight fires and is offered to the queue; a returned beat enters the write buffer, while that holds fewer than eight, for the place that the oldest open FETCH on its queue has come to, and is written at once where nothing waits and nothing reads; a WAIT with no such FETCH left completes; a RELEASE of lines that no earlier operation, no set still to be checked or replayed, and no numbering of rows needs clears them. The scrub reads its next word when that is due, in an ACTIVE sector: it passes over a word written since the pass began; a single error leaves record 0x0301, an uncorrectable one starts the rewrite of its region. The rewrite ends with the bytes of the image in the region, behind record 0x0302, or 0x0303 when a line was taken from the mirror. Commands stated here to complete, each under the conditions of its clause: fetchFire, fetchBeatWrite, waitComplete, releaseFire, weightScrub, weightRewriteDone. (R95, R96, R106, R107, R133, R208, R209) -/
def Obligations.FetchedWeightsAndReleasedLines : Prop :=
  (∀ (s : State) (u : Site) (slot : Nat) (e : Issued), tileActs s u = true → headOf tileKey (tileOf s u).board (slot, 4, 0) = some e → opCode e.op = 5 →
    let q := queueOf s (fetchQueue e.op)
    q.grants.length < 8 →
    ∃ t, exec (.fetchFire u slot) s = .next t ∧ (queueOf t (fetchQueue e.op)).fetchOffers = q.fetchOffers ++
      [{ tile := u, slot := slot, stream := e.stream, frame := e.frame, count := dbits e.op 24 17 + 1, left := dbits e.op 24 17 + 1, number := 0,
         due := s.now + Config.latQr }]) ∧
  (∀ (s s1 : State) (u : Site) (port : Nat) (prod : EndPoint) (b : Beat) (f : FetchRec), tileActs s u = true → isFetchPort s u port = true →
    let s0 := settleWrites s u
    let t1 := tileOf s1 u
    let beat := (f.first + f.written + bufferedOf t1 f) % 12288
    let q := sitePort prod.site * 8 + prod.port
    (tileOf s0 u).writeBuf.length < 8 → linkProducer s0 ⟨u, port⟩ = some prod →
    takeBeat s0 ⟨u, port⟩ (fun b => bType b == tyData) = some (b, s1) →
    t1.fetches.find? (fun f => f.queue == q && decide (f.written + bufferedOf t1 f < f.count)) = some f →
    exec (.fetchBeatWrite u port) s = .next (settleWrites (setTile s1 u { t1 with writeBuf := t1.writeBuf ++
      [⟨beat, b.data, writeCycle s1 u beat, q, f.id, bStream b⟩] }) u) ∧
    (t1.writeBuf = [] → t1.reads = [] → ∃ t, exec (.fetchBeatWrite u port) s = .next t ∧ (tileOf t u).weights = memSetLine t1.weights (64 * beat) b.data)) ∧
  (∀ (s : State) (u : Site) (slot : Nat) (e : Issued), tileActs s u = true → headOf tileKey (tileOf s u).board (slot, 4, 0) = some e →
    (opCode e.op = 6 → (tileOf (settleWrites s u) u).fetches.any (fun f => f.slot == slot && f.queue == fetchQueue e.op && decide (f.id < e.id)) = false →
      ∃ t, exec (.waitComplete u slot) s = .next t ∧ ∀ x ∈ (tileOf t u).board, x.id ≠ e.id) ∧
    (opCode e.op = 7 →
      earlier (tileOf s u).board e (fun x => (opCode x.op == 2 && (macLines s u x).any (fun i => (releaseLines e).contains i)) ||
        (opCode x.op == 3 && [x.a].any (fun i => (releaseLines e).contains i))) = false →
      (isInt s u = true → (∀ p ∈ (tileOf s u).sets, p.2.lines.any (fun i => (releaseLines e).contains i) = true → p.2.checked = true ∧ p.2.todo = []) ∧
        ∀ i ∈ releaseLines e, lineFilled (tileOf s u) i = true → (lineAt (tileOf s u) i).slot < 4 → (lineAt (tileOf s u) i).ord ≠ none) →
      ∃ t, exec (.releaseFire u slot) s = .next t ∧ (∀ x ∈ (tileOf t u).board, x.id ≠ e.id) ∧
        ∀ i ∈ releaseLines e, lineFilled (tileOf t u) i = false)) ∧
  (∀ (s : State) (u : Site), siteKind u = 0 → sitePresent u = true → s.hal.stopped = false → (sectorOf s (siteSector u)).state = .active →
    reaches s (tileOf s u).scrubFc = true →
    let w := (tileOf s u).scrubWord
    let x := advance s (tileOf s u).scrubFc
    let s1 := setTile x u (scrubStep (tileOf s u) w x.now)
    exec (.weightScrub u w .good) s = .next s1 ∧
    (∀ found, writtenInPass (tileOf s u) (w / 8) = true → exec (.weightScrub u w found) s = .next s1) ∧
    (writtenInPass (tileOf s u) (w / 8) = false →
      exec (.weightScrub u w .single) s = .next (fault s1 0x0301 0 (siteWithSub u (4 * (w / 4 % 4) + w % 4)) 0 0) ∧
      ∃ t, exec (.weightScrub u w .uncorrectable) s = .next t ∧ regionBusy (tileOf t u) (w * 8 / 4096) = true)) ∧
  (∀ (s : State) (u : Site) (region : Nat) (r : Rewrite) (img : Image), (tileOf s u).rewriting.find? (fun r => r.region == region) = some r →
    activeImage s = some img → rewriteHome s u r.beat ≠ none →
    let homes := (List.range' (64 * region) 64).filterMap (fun b => (rewriteHome s u b).map (fun a => (b, a)))
    homes.all (fun h => (lineCopies s img h.2).1 || (lineCopies s img h.2).2) = true →
    let code := if homes.all (fun h => (lineCopies s img h.2).1) then 0x0302 else 0x0303
    ∃ t, exec (.weightRewriteDone u region true) s = .next (faultAt t code 0 (siteWithSub u r.bank) none noFrame 0 0 r.found) ∧
      regionBusy (tileOf t u) region = false ∧ region ∉ (tileOf t u).stalledOn ∧
      (tileOf t u).weights = homes.foldl (fun m h => memSetLine m (64 * h.1) (memLine s.feed.lpddr h.2)) (tileOf s u).weights)

/-- VOP, VFUNC and VRED write their result entry, VSEND sends a beat, and damaged constants are rewritten. An operation at the head of its class whose hazards are over, with no error found in its sources, leaves its 64 lanes in the entry that its destination generator names, in the fc in which its hardware and what it touches are ready. A VSEND with nothing waiting at its output and a credit puts the narrowed lanes of its next beat there. The rewrite of a region of constants puts back those that the image gives the tile. Commands stated here to complete, each under the conditions of its clause: vsendBeat, vopFire, constantRewriteDone, vfuncFire, vredFire. (R143, R145, R146, R150, R166) -/
def Obligations.VectorOperationsWriteTheirEntry : Prop :=
  (∀ (s : State) (u : Site) (slot : Nat) (e : Issued), vecActs s u = true → vecFree s u (vtileOf s u) e = true → reaches s (vecFireAt s u e / 8) = true →
    (headOf vecKey (vtileOf s u).board (slot, 2, 0) = some e → opCode e.op = 3 →
      ∃ t, exec (.vopFire u slot .good) s = .next t ∧ entryOf (vtileOf t u) e.d = (vopResult (vtileOf s u) e).1 ∧ t.now = max s.now (vecFireAt s u e / 8)) ∧
    (headOf vecKey (vtileOf s u).board (slot, 3, 0) = some e → opCode e.op = 4 →
      ∃ t, exec (.vfuncFire u slot .good) s = .next t ∧ entryOf (vtileOf t u) e.d = (vfuncResult (vtileOf s u) e).1 ∧ t.now = max s.now (vecFireAt s u e / 8)) ∧
    (headOf vecKey (vtileOf s u).board (slot, 2, 0) = some e → opCode e.op = 5 →
      ∃ t, exec (.vredFire u slot .good) s = .next t ∧ entryOf (vtileOf t u) e.d = (vredResult (vtileOf s u) e).1 ∧ t.now = max s.now (vecFireAt s u e / 8))) ∧
  (∀ (s : State) (u : Site) (slot : Nat) (e : Issued) (sl : Slot), vecActs s u = true → headOf vecKey (vtileOf s u).board (slot, 1, 0) = some e →
    let k := e.progress
    let i := vecEntry s u 11 (wrapA s u) slot e.a (if vopPack e.op then k / 2 else k)
    let at_ := ceilDiv (amGetD (vtileOf s u).ready i 0) 8
    let fin := k + 1 == vopCount e.op
    slotAt (vtileOf s u).slots slot = some sl → vecFree s u (vtileOf s u) e = true → outQ s ⟨u, vopPort e.op⟩ = [] → reaches s at_ = true →
    maySend (advance s at_) ⟨u, vopPort e.op⟩ = true →
    ∃ t, exec (.vsendBeat u slot .good) s = .next t ∧ (outQ t ⟨u, vopPort e.op⟩).map (·.beat) =
      [mkBeat tyData e.tag sl.stream (fin && dbit e.op 21) (dbit e.op 22) (sentLanes (vopPack e.op) k (entryOf (vtileOf s u) i)).1]) ∧
  (∀ (s : State) (u : Site) (region : Nat), siteKind u = 1 → region ∈ (vtileOf s u).rewriting →
    ∃ t, exec (.constantRewriteDone u region true true) s = .next t ∧ region ∉ (vtileOf t u).rewriting ∧
      (vtileOf t u).scratch = (constantsOf s u region).foldl (fun m p => amSet m p.1 p.2) (vtileOf s u).scratch)

/-- A window tile sends its next window row or pooled row on every output, and a glue block evaluates its cells and ports once per fc. In its turn, with the input rows it needs complete and its outputs empty, a slot of a window tile of op 0 sends the quantization row of the next tap on every output port, and a slot of op 1 or 2 that of the next channel's pooled row; a pooled position without any tap is a free value. An ENABLED or DRAINING glue block that is used evaluates its cells and moves the beats that they take and send, in the first fc in which it has not yet run; a DISABLED or LOST one passes on the tack line at the head of each used port and discards any other beat. Commands stated here to complete, each under the conditions of its clause: windowRowEmit, poolRowEmit, glueFcEval. (R154, R155, R161, R164) -/
def Obligations.WindowTilesAndGlueBlocksSend : Prop :=
  (∀ (s : State) (u : Site) (slot : Nat) (sl : WinSlot), winActs s u = true → winTurn s u slot = true → winSlotAt (wtileOf s u) slot = some sl →
    let c := winCfg s u
    let n := winOutBeats c
    let row (outlier : Bool) (lane : Nat → BitVec 16) : List Beat := (List.range n).map (fun b =>
      mkBeat tyData sl.lastTag sl.stream (b + 1 == n) outlier (lanesTo ((List.range 32).map (fun j => if 32 * b + j < winWout c then lane (32 * b + j) else 0))))
    (c.op = 0 →
      let tap := winTap c sl.outIdx
      ∃ t, exec (.windowRowEmit u slot false) s = .next t ∧ ∀ e ∈ winOuts s u, (outQ t e).map (·.beat) = row (c.outliers.contains tap.1) (fun x =>
        if tapIn c sl.outRow tap.2.1 x tap.2.2 then
          winValue c (wtileOf s u) slot tap.1 (tapRow c sl.outRow tap.2.1).toNat (tapCol c x tap.2.2).toNat else c.padValue)) ∧
    (c.op = 1 ∨ c.op = 2 →
      ∃ t, exec (.poolRowEmit u slot false) s = .next t ∧ ∀ e ∈ winOuts s u, (outQ t e).map (·.beat) = row false (fun x =>
        let taps := poolTaps c (wtileOf s u) slot sl.outIdx sl.outRow x
        (if c.op = 1 then maxPool taps else avgPool c.divisor c.padValue taps).getD (BitVec.ofNat 16 (Config.free32 (s.fresh + x)).toNat)))) ∧
  (∀ (s : State) (u : Site),
    let s0 := advance s (glueOf s u).nextFc
    let s1 := setGlue s0 u { glueOf s u with nextFc := s0.now + 1 }
    siteKind u = 4 → fabricRuns s0 = true → unitHeld s0 u = false → unitUsed s0 u = true →
    (unitState s u = .enabled ∨ unitState s u = .draining → exec (.glueFcEval u) s = .next (glueRun s1 u)) ∧
    (unitState s u = .disabled ∨ unitState s u = .lost →
      exec (.glueFcEval u) s = .next ((gluePorts.filter (gluePortUsed s1 u)).foldl (fun x p => glueDiscard x u p) s1)))

/-- A beat leaves when its link has a credit, reaches its consumer's buffer when it passes the checks, and its credit comes back. The head of an output's queue leaves, in the first fc in which it and the link may, when the fabric runs, the unit is not stopped (a memory port that waits for its proof still sends) and a credit is there: the free-space semaphore drops by one and the beat is on its way. It enters the consumer's buffer at its fc, when its CRC and type are good, no damaged output is on its way, and there is room; one that fails the check at the input port is discarded there. The earliest credit on its way arrives, where no switch box in proof stands in between, and raises the semaphore by one once every branch of the link has returned one. A void tack line at an input of a tile or steering unit makes the element give the frame up, and at the head of a result input makes the results void. Commands stated here to complete, each under the conditions of its clause: beatSend, beatArrive, creditReturnArrive, voidTackLineReceive. (R47, R48, R58, R59, R60, R61, R174) -/
def Obligations.BeatsAndCreditsMoveOnLinks : Prop :=
  (∀ (s : State) (e : EndPoint) (o : OutBeat) (rest : List OutBeat),
    let s0 := if siteKind e.site = 8 then spanDeliver s (siteSub e.site) e.port else s
    let sA := advance s0 o.notBefore
    outQ s0 e = o :: rest → maySend sA e = true → unitMuted sA e.site = false → linkDead sA (linkPaths sA e) = false → formsNoToken o.beat = false →
    ∃ t l, exec (.beatSend e) s = .next t ∧ linkAt t e = some l ∧ l.free + 1 = (linkOr sA e (linkPaths sA e)).free ∧ l.lastSend = some t.now ∧
      t.now = max sA.now (sendSlot sA e) ∧
      l.flights = (linkOr sA e (linkPaths sA e)).flights ++ (linkPaths sA e).map (fun p =>
        { consumer := p.consumer, beat := o.beat, sent := t.now, hops := hopsFrom (crossing sA) (t.now + 1) p.boxes, arrives := t.now + pathLatency sA p }) ∧
      (outQ t e).map (·.beat) = rest.map (·.beat)) ∧
  (∀ (s : State) (e p : EndPoint) (l : Link) (path : LinkPath) (f : Flight), linkProducer s e = some p → linkAt s p = some l →
    (linkPaths s p).find? (fun q => q.consumer = e) = some path → l.flights.find? (fun f => f.consumer == e) = some f →
    fabricRuns (advance s f.arrives) = true → path.boxes.any (fun b => inProof s b.1) = false → lostAt s f = none →
    (beatFault f.beat = none → f.beat ≠ noToken → (siteKind e.site ≤ 2 → bType f.beat ≠ tyPennant ∧ bType f.beat ≠ tyMarker) →
      (inBuf s e).length < bufDepth s e l → discardsAt s e (bStream f.beat) = [] →
      ∃ t, exec (.beatArrive e ⟨0, 0⟩) s = .next t ∧ inBuf t e = inBuf s e ++ [f.beat] ∧ t.now = max s.now f.arrives) ∧
    (∀ upset place code, fifoAt f place = none → beatFault (upsetBeat f.beat upset) = some code → exec (.beatArrive e ⟨upset, place⟩) s =
      .next (beatFails (dropFlights (advance s f.arrives) p [f]) e (inputSite e) code (bStream (upsetBeat f.beat upset))))) ∧
  (∀ (s : State) (p : EndPoint) (l : Link) (c0 : CreditFlight) (rest : List CreditFlight), linkAt s p = some l → l.credits = c0 :: rest →
    let c := rest.foldl (fun m c => if c.arrives < m.arrives then c else m) c0
    let r := branchCredit { l with credits := l.credits.erase c } ((linkPaths s p).map (·.consumer)) c.consumer
    (linkPaths s p).any (fun q => q.consumer == c.consumer && q.boxes.any (fun b => inProof s b.1)) = false →
    l.free < l.depth → fabricRuns (advance s c.arrives) = true →
    ∃ t, exec (.creditReturnArrive p) s = .next t ∧ linkAt t p = some { r.1 with free := l.free + b2n r.2 } ∧ t.now = max s.now c.arrives) ∧
  (∀ (s : State) (e : EndPoint) (st : Nat) (b : Beat), (inBuf s e).find? (fun b => isVoidTack b && bStream b == st) = some b → fabricRuns s = true →
    (siteKind e.site ≤ 2 → unitHeld s e.site = false →
      exec (.voidTackLineReceive e st) s = .next (tileFrameDrop s e st (tackFrame b) (tackInfo b) (tackCode b))) ∧
    (siteKind e.site = 3 → unitHeld s e.site = false →
      exec (.voidTackLineReceive e st) s = .next (steerDrop s e.site st (tackFrame b) (tackCode b))) ∧
    (siteKind e.site = 7 → (inBuf s e).head? = some b → exec (.voidTackLineReceive e st) s = .next (resultVoid s (siteSub e.site) b)))

/-- A configuration scrub reports what it finds, a rewrite mends the words or loses the unit, and contention on a segment recovers once. A scrub outside a sleeping sector: a single error leaves record 0x0230; an uncorrectable one marks the word, and in the active hoist, of an element that is no switch box, holds the element until the word is mended. A rewrite from a readable copy whose words pass leaves no damaged word of the unit in that hoist; one that fails loses the unit behind record 0x0233, and ends the frames in progress in it. A first contention on a present segment damages its drivers' words; in a further fc while they are not mended, what the segment's links carry is lost again; a second within 65,536 fc of its recovery stops the segment, and one later is as the first. Commands stated here to complete, each under the conditions of its clause: configScrub, configRewriteDone, segmentContention. (R76, R77, R81, R82, R83) -/
def Obligations.DamageToTheConfigurationIsMended : Prop :=
  (∀ (s : State) (u : Site) (h i : Nat), h < 4 → sitePresent u = true → asleep s u = false →
    exec (.configScrub u h i .single) s = .next (fault s 0x0230 0 u 0 0) ∧
    (s.hal.hoists.length = 4 → ∃ t, exec (.configScrub u h i .uncorrectable) s = .next t ∧ (u, i) ∈ (hoistOf t h).damaged ∧
      (s.hal.active = some h → t = activeDamage s h u i ∧ (siteKind u ≠ 10 → siteElem u ∈ t.fabric.held)))) ∧
  (∀ (s : State) (u : Site) (h : Nat), h < 4 → s.hal.hoists.length = 4 → (hoistOf s h).damaged.any (fun d => d.1 == u) = true →
    (∃ t, exec (.configRewriteDone u h true true) s = .next t ∧ (hoistOf t h).damaged = (hoistOf s h).damaged.filter (fun d => decide (d.1 ≠ u))) ∧
    (∀ r c, (r && c) = false → exec (.configRewriteDone u h r c) s = .next
      (let s0 := { s with fabric := { s.fabric with held := s.fabric.held.filter (fun v => decide (v ≠ siteElem u)) } }
       if unitLost s (siteElem u) then loseUnit s0 0x0233 u 0 0 else unitStops (loseUnit s0 0x0233 u 0 0) (siteElem u)))) ∧
  (∀ (s : State) (g : Site) (h : Nat), s.hal.active = some h → siteKind g = 9 → sitePresent g = true → fabricRuns s = true →
    (amGet s.fabric.contention g = none →
      ∃ t, exec (.segmentContention g) s = .next t ∧ amGet t.fabric.contention g = some { recoveredAt := none, dead := false }) ∧
    (∀ c, amGet s.fabric.contention g = some c → c.dead = false →
      (c.recoveredAt = none → exec (.segmentContention g) s = .next (contentionCut s g true)) ∧
      (∀ T, c.recoveredAt = some T → s.now ≤ T + 65536 →
        ∃ t, exec (.segmentContention g) s = .next t ∧ amGet t.fabric.contention g = some { c with dead := true }) ∧
      (∀ T, c.recoveredAt = some T → T + 65536 < s.now →
        ∃ t, exec (.segmentContention g) s = .next t ∧ amGet t.fabric.contention g = some { recoveredAt := none, dead := false })))

/-- A steering unit moves beats into skew queues, pairs pennants, settles the items of a frame, and sends the next beat in round robin. The oldest beat that an input can move, of a stream that the unit knows, enters its skew queue, at most one beat of an input per fc. A lawful pennant that is the first of its stream, tag and frame, with no run for it yet, is held. The open tack line of the next frame settles the items left on an input, and leaves the pennants' input. An output sends the beat of the next queue in round robin that can go there. A watchdog that runs out starts again behind its record. Commands stated here to complete, each under the conditions of its clause: skewEnqueue, steerSend, pennantPair, frameEndSettle, steerWatchdogExpiry. (R168, R178, R179, R181, R183, R184, R185, R190) -/
def Obligations.SteeringUnitsQueueAndSend : Prop :=
  (∀ (s s1 : State) (u : Site) (port : Nat) (b b' : Beat) (d : SkewDesc),
    let sA := advance s (amGetD (steerOf s u).portFc port 0)
    let frame := (movedFrame sA ⟨u, port⟩ b).getD 0
    let limit := if pennantDue sA u b (movedFrame sA ⟨u, port⟩ b) then 5 else 4
    let x := enterSkew limit (portMoved s1 u port) u d b frame
    siteKind u = 3 → tileSees sA u = true → (steerIns sA u).contains port = true →
    skewPick sA u port = some b → takeBeat sA ⟨u, port⟩ (fun x => x == b) = some (b', s1) → bType b ≠ tyMarker → steerRefuses sA u b = false →
    unitWorks sA u = true → skewFor sA u port b = some d → (steerOp s u = 4 → bType b ≠ tyPennant) →
    (unpairedRuns (steerOf x u) port ≤ 4 → exec (.skewEnqueue u port) s = .next x) ∧
    (steerOp s u ≠ 4 → (skewOf (steerOf x u) d.idx).beats = (skewOf (steerOf s u) d.idx).beats ++ [⟨b, sA.now, frame⟩])) ∧
  (∀ (s s1 : State) (u : Site) (port f : Nat) (b b' : Beat), siteKind u = 3 → tileSees s u = true → unitWorks s u = true → steerOp s u = 4 →
    port = pennantPort s u → (inBuf s ⟨u, port⟩).head? = some b → takeBeat s ⟨u, port⟩ (fun _ => true) = some (b', s1) → bType b = tyPennant →
    headFrame s ⟨u, port⟩ (bStream b) = some f → pennantOk s u b = true →
    (steerOf s u).pennants.any (fun p => p.stream == bStream b && p.tag == penTag b && p.frame == f) = false →
    (steerOf s u).runs.find? (fun r => r.stream == bStream b && r.tag == penTag b && r.frame == f && unpaired r) = none →
    unpairedPennants (steerOf s u) port < 4 →
    ∃ t, exec (.pennantPair u port) s = .next t ∧ (steerOf t u).pennants = (steerOf s u).pennants ++
      [{ port := port, stream := bStream b, tag := penTag b, action := penAction b, mask := penMask b, count := penCount b, frame := f, arrived := s.now }]) ∧
  (∀ (s : State) (u : Site) (port st : Nat) (b : Beat), steerActs s u = true → steerOp s u = 4 → port ≠ pennantPort s u →
    (inBuf s ⟨u, port⟩).find? (fun b => bStream b == st && decide (bType b ≤ 2)) = some b → isOpenTack b = true → steerRefuses s u b = false →
    (bindStopped s u = true → steerBegun s u st (tackFrame b) = true) →
    exec (.frameEndSettle u port st) s = .next (settleItems s u port st (tackFrame b))) ∧
  (∀ (s s1 : State) (u : Site) (st : Nat) (b b' : Beat), steerActs s u = true → steerOp s u = 4 →
    (inBuf s ⟨u, pennantPort s u⟩).find? (fun b => bStream b == st && decide (bType b ≤ 2)) = some b → isOpenTack b = true → steerRefuses s u b = false →
    (bindStopped s u = true → steerBegun s u st (tackFrame b) = true) →
    takeBeat (settleItems s u (pennantPort s u) st (tackFrame b)) ⟨u, pennantPort s u⟩ (fun x => x == b) = some (b', s1) →
    exec (.frameEndSettle u (pennantPort s u) st) s = .next s1) ∧
  (∀ (s : State) (u : Site) (port k : Nat) (d : SkewDesc) (p : SteerPlan) (b : Beat), steerActs s u = true → (steerOuts s u).contains port = true →
    let planOf (k : Nat) : Option (SkewDesc × SteerPlan) :=
      ((skewDescs s u).find? (fun d => d.idx == k)).bind (fun d => (steerPlan s u d).map (fun p => (d, p)))
    nextRound (steerOf s u).lastQueue 16 (fun k => (planOf k).any (fun x => planReady s u port x.1 x.2)) = some k →
    planOf k = some (d, p) → p.fail = none → headAt (steerOf s u) k = some b →
    ∃ t, exec (.steerSend u port none) s = .next t ∧ t = steerGo s u d p b ∧ t.now = max s.now (planTime s u d p) ∧
      (p.stale = false → (steerOf t u).lastQueue = d.idx)) ∧
  (∀ (s : State) (u : Site),
    let T := (steerOf s u).idleSince + 2 ^ steerWatch s u
    steerActs s u = true → 10 ≤ steerWatch s u → steerHolds s u = true → fabricRuns (advance s T) = true →
    ∃ t, exec (.steerWatchdogExpiry u) s = .next t ∧ t.now = max s.now T ∧ (steerOf t u).idleSince = t.now)

/-- A full skew queue spills its beats in runs, asks for them again, and refills from what comes back. With the spill on, the beat that a port spills to a full or SPILLING queue, with room in the subring, joins the queue's write run: the queue is SPILLING and its subring's write pointer goes up by one; a run that no beat joins in the next fc is sent. A SPILLING queue whose subring holds only entries passed over, with no read out, goes to DIRECT; a SPILLING queue with room for all that it may ask for, and beats in its subring, sends one request for as many as fit ahead of the subring's end. Of what stands at the spill input for the queue, as many elements as REFILL_RETURN says are taken in. Commands stated here to complete, each under the conditions of its clause: spillWriteRun, spillReadRequest, refillReturn. (R168, R187, R188, R189) -/
def Obligations.ElasticSpillWritesAndRefills : Prop :=
  (∀ (s s1 : State) (u : Site) (k : Nat) (d : SkewDesc) (b b' : Beat),
    let sA := advance s (amGetD (steerOf s u).portFc d.input 0)
    let q := skewOf (steerOf s u) k
    steerActs s u = true → spillOn s u = true → skewDescOf (cfgDw s u) k = some d → spillPick sA u d = some b → fabricRuns sA = true →
    takeBeat sA ⟨u, d.input⟩ (fun x => x == b) = some (b', s1) → steerRefuses sA u b = false →
    ∃ t, exec (.spillWriteRun u k) s = .next t ∧ (skewOf (steerOf t u) k).spill = .spilling ∧
      (skewOf (steerOf t u) k).subWp = (q.subWp + 1) % (2 * 2 ^ subLog2 s u)) ∧
  (∀ (s : State) (u : Site) (k : Nat) (d : SkewDesc),
    let q := skewOf (steerOf s u) k
    steerActs s u = true → spillOn s u = true → skewDescOf (cfgDw s u) k = some d →
    spillPick (advance s (amGetD (steerOf s u).portFc d.input 0)) u d = none → q.run ≠ [] → reaches s (q.runAt + 2) = true →
    exec (.spillWriteRun u k) s = .next (sendRun (advance s (q.runAt + 2)) u d)) ∧
  (∀ (s : State) (u : Site) (k : Nat) (d : SkewDesc), steerActs s u = true → spillOn s u = true → skewDescOf (cfgDw s u) k = some d →
    let size := 2 ^ subLog2 s u
    let q := settleSpill size (skewOf (steerOf s u) k)
    let n := min 16 (min (subCount s u q - q.run.length) (size - q.subRp % size))
    (q.spill = .direct → exec (.spillReadRequest u k) s = .next (setSteer s u (setSkew (steerOf s u) k q))) ∧
    (q.spill = .spilling → q.reading = none → q.voidRead = false → 0 < n → min 16 (subCount s u q) ≤ 2 ^ d.log2 - q.beats.length →
    ∃ t, exec (.spillReadRequest u k) s = .next t ∧ (skewOf (steerOf t u) k).reading = some n ∧
      outQ t ⟨u, spillOutPort s u⟩ = outQ s ⟨u, spillOutPort s u⟩ ++ [{ beat := mkMarker d.stream u k 1 n (subAddress s u k (q.subRp % size)) }])) ∧
  (∀ (s : State) (u : Site) (k n : Nat), steerActs s u = true → spillOn s u = true → refillQueue s u = some k →
    exec (.refillReturn u k n) s = .next (refillLoop (min n (refillLength s u)) s u))

/-- A read-side queue reserves an entry for each address that its generator yields, and a generator steps, and resumes at a tack line. When its conditions hold, at the first fc in which its port issues nothing else, a read-side queue takes the next address of its generator, or of its oldest spill request, into its last entry, numbered; an address that the cache holds, outside the mirror, is served from there, any other waits in its channel's request queue. A generator at an instruction other than RUN executes it, and one of STREAM_OUT waits at FRAME; a RUN over no address is passed. A STREAM_OUT generator in FRAME_WAIT resumes behind the open tack line of its stream. Commands stated here to complete, each under the conditions of its clause: queueReadIssue, generatorStep, generatorFrameResume. (R205, R212, R216, R237, R238, R240, R242) -/
def Obligations.GeneratorsYieldAndQueuesRead : Prop :=
  (∀ (s0 : State) (q a line : Nat) (x : MemQueue),
    let s := advance s0 (portSlot s0 (q / 8))
    s.feed.channels.length = 32 → queueActs s q = true → queueMode s q ≠ 2 → queueRoom s q = true →
    readsOut (queueOf s q) < queueLimit s q → regulatorOpen s q = true → readWanted s q = true → nextRead s q = some ((a : Int), x, line) →
    mayAccess s (queueMode s q) false a = true →
    (∃ t, exec (.queueReadIssue q) s0 = .next t ∧ (queueOf t q).issued = x.issued + 1 ∧ (queueOf t q).entries.map (·.dpa) = x.entries.map (·.dpa) ++ [a] ∧
      t.now = s.now ∧ portSlot t (q / 8) = s.now + 1 ∧
      (cacheHit s a = false ∨ inMirror s a = true → ∃ r, r ∈ (channelOf t (channelOfDpa (readTarget s a))).requests ∧ r.queue = q ∧ r.entry = x.issued)) ∧
    (queueActs s0 q = true → (genNext (queueOf s0 q).gen (codeOf s0 q)).isSome = true → queueMode s0 q ≤ 1 → (queueOf s0 q).gen.stalled = false →
      exec (.generatorStep q) s0 = exec (.queueReadIssue q) s0)) ∧
  (∀ (s : State) (q : Nat), queueActs s q = true → queueMode s q ≤ 2 → (queueOf s q).gen.stalled = false → (queueOf s q).gen.state = .running →
    programSound s q = true →
    let x := queueOf s q
    let w := lget (codeOf s q) x.gen.pc []
    let r := genExec x.gen w
    w ≠ [] → insOp w ≠ 0x04 → exec (.generatorStep q) s = .next (setQueue s q (match r.2 with
      | .frame => if queueMode s q = 2 then { x with gen := { x.gen with state := .frameWait }, seg := { x.seg with open_ := false } }
                  else { x with gen := r.1, seg := { x.seg with next := 0 } }
      | .restart => { x with gen := r.1, seg := { x.seg with next := 0, open_ := false } }
      | _ => { x with gen := r.1 }))) ∧
  (∀ (s : State) (q : Nat) (r : RunState), queueActs s q = true → queueMode s q ≤ 2 → (queueOf s q).gen.stalled = false → programSound s q = true →
    let x := queueOf s q
    genRun x.gen (codeOf s q) = some r → runLength r.dims = 0 →
    exec (.generatorStep q) s = .next (setQueue s q { x with gen := { x.gen with run := none, pc := x.gen.pc + 1 } })) ∧
  (∀ (s : State) (q : Nat) (b : Beat), queueActs s q = true → queueMode s q = 2 → (queueOf s q).gen.state = .frameWait →
    (inBuf s (queueEnd q)).head? = some b → isOpenTack b = true → ((queueOf s q).seg.stream = none ∨ (queueOf s q).seg.stream = some (bStream b)) →
    ∃ t, exec (.generatorFrameResume q) s = .next t ∧ (queueOf t q).gen = { (queueOf s q).gen with state := .running, pc := (queueOf s q).gen.pc + 1 } ∧
      (queueOf t q).seg.open_ = false ∧ (queueOf t q).seg.next = 0)

/-- A channel issues the pick of its request queue, the returned line fills its entry, and an accepted FETCH is granted. A burst decision of a channel in service, in its next burst slot, takes the request that burstPick names out of the queue; a read is in flight from then on, and a written beat leaves its queue; the burst of work beside the queues moves that work on; with no request the slot passes. A line returned without error fills its entry with the line's bytes, and the data of a read whose entry has gone is discarded; a queue that a cut takes away is then settled, and any other stays as it is. A request to a queue with fewer than eight grants, whose port takes it, becomes the queue's last grant, numbered; behind eight grants, or at a queue that a cut takes away, it is offered again in the next fc. Commands stated here to complete, each under the conditions of its clause: channelBurstDecision, readReturn, fetchRequestArrive. (R209, R210, R213, R215, R217, R226) -/
def Obligations.ReadsReturnAndFetchesAreGranted : Prop :=
  (∀ (s0 : State) (slot : BurstSlot),
    let c := slot.channel
    let s := advance s0 (slotFc (nextSlot s0 (channelOf s0 c)))
    let ch := channelOf s c
    let k := nextSlot s ch
    s.feed.channels.length = 32 → c < Config.channels → c < 32 → ch.state ≠ .retraining →
    s.hal.stopped = false → reaches s0 (slotFc (nextSlot s0 (channelOf s0 c))) = true →
    (burstPick s c (k % 16 == 15 || ch.owed) = none →
      exec (.channelBurstDecision slot) s0 = .next (setChannel (drawn s) c { ch with burstSlot := k + 1, owed := false })) ∧
    (∀ r, burstPick s c (k % 16 == 15 || ch.owed) = some r → r.queue < jobQueue →
      ∃ t, exec (.channelBurstDecision slot) s0 = .next t ∧ (channelOf t c).requests = ch.requests.erase r ∧
        (r.write = none → (channelOf t c).inFlight = ch.inFlight ++ [(r.queue, r.entry, r.dpa)]) ∧
        (r.write.isSome = true → (channelOf t c).inFlight = ch.inFlight ∧ ∀ w ∈ (queueOf t r.queue).beats, w.num ≠ r.entry)) ∧
    (∀ r, burstPick s c (k % 16 == 15 || ch.owed) = some r → jobQueue ≤ r.queue →
      ∃ t, exec (.channelBurstDecision slot) s0 = .next t ∧ (channelOf t c).requests = ch.requests ∧ (channelOf t c).inFlight = ch.inFlight ∧
        t.feed.jobs = (jobIssued s (r.queue - jobQueue) c).feed.jobs)) ∧
  (∀ (s : State) (q n : Nat), 
    (∀ e, (queueOf s q).entries.find? (fun e => e.num == n) = some e → e.filled = false →
      (e.cached = true → reaches s e.due = true →
        exec (.readReturn q n .good ⟨.good, .clean⟩ .good) s = .next (settleCut (fillEntry (advance s e.due) q n e.dpa false) q)) ∧
      (e.cached = false → ∀ c r, (List.range Config.channels).findSome? (fun c =>
          ((channelOf s c).inFlight.find? (fun r => r.1 == q && r.2.1 == n)).map (fun r => (c, r))) = some (c, r) →
        (channelOf s (channelOfDpa r.2.2)).state ≠ .lost → poisoned s r.2.2 = false →
        ∃ t, exec (.readReturn q n .good ⟨.good, .clean⟩ .good) s = .next (settleCut t q) ∧
          ((queueOf t q).entries.find? (fun e => e.num == n)).map (fun x => (x.filled, x.bad, x.data)) = some (true, false, memLine s.feed.lpddr r.2.2))) ∧
    ((queueOf s q).entries.find? (fun e => e.num == n) = none → ∀ (w l m : Ecc) (k : LinkEcc),
      ∃ t, exec (.readReturn q n w ⟨l, k⟩ m) s = .next (settleCut t q) ∧ ∀ c ∈ t.feed.channels, ∀ r ∈ c.inFlight, ¬ (r.1 = q ∧ r.2.1 = n)) ∧
    ((queueOf s q).leaving = none → settleCut s q = s)) ∧
  (∀ (s : State) (q : Nat) (g : Grant) (rest : List Grant), (queueOf s q).fetchOffers = g :: rest → fabricRuns (advance s g.due) = true →
    unitHeld s (portSite (q / 8) 0) = false →
    (unitState s (portSite (q / 8) 0) = .enabled ∨ (portFrames s (q / 8)).contains (g.stream, g.frame) = true) →
    ((queueOf s q).grants.length < 8 → (queueOf s q).leaving = none → ∃ t, exec (.fetchRequestArrive q) s = .next t ∧ (queueOf t q).fetchOffers = rest ∧
      (queueOf t q).grants = (queueOf s q).grants ++ [{ g with number := (queueOf s q).nextFetch }] ∧
      (queueOf t q).nextFetch = ((queueOf s q).nextFetch + 1) % 65536 ∧ t.now = max s.now g.due) ∧
    (8 ≤ (queueOf s q).grants.length ∨ (queueOf s q).leaving ≠ none → exec (.fetchRequestArrive q) s =
      .next (setQueue (advance s g.due) q { queueOf s q with fetchOffers := { g with due := (advance s g.due).now + 1 } :: rest })))

/-- FEED and STREAM_IN send the beat of a filled entry, STREAM_OUT and SPILL write what they take, and a SPILL queue returns what is asked. With a credit and a sound filled head entry, a FEED queue sends its line to the first grant's stream, and a STREAM_IN queue sends line 0 as a tack line and each later line as data, and the open and the void tack line of a frame given up meanwhile; a queue that has a grant, or a STREAM_IN queue a credit, and no filled head entry reads not valid, and so does a STREAM_IN queue with a declared interval whose port is in proof. At the first fc in which its port issues nothing else, a STREAM_OUT queue first writes the line 0 that it still owes, and one that is ready, has room and may write takes the head beat of its input; a SPILL queue takes a write marker, and then the run's beats, and writes each at its address, whose bytes are then the beat's; it takes a read request, and answers one from its filled head entry. Commands stated here to complete, each under the conditions of its clause: feedBeatSend, streamInBeatSend, streamOutBeatWrite, spillQueueWrite, spillQueueRead. (R206, R207, R208, R241, R242, R243) -/
def Obligations.QueuesSendAndWriteTheirBeats : Prop :=
  (∀ (s : State) (q : Nat), queueServes s q = true →
    (∀ g, queueMode s q = 0 → (queueOf s q).grants.head? = some g →
      ((∀ e, (queueOf s q).entries.head? = some e → e.filled = false) → ∀ p, exec (.feedBeatSend q p) s = .next (notValid s q)) ∧
      (∀ e, (queueOf s q).entries.head? = some e → e.filled = true → e.range = false → e.bad = false → queueCredit s q = true → g.discard = false →
        ∃ t, exec (.feedBeatSend q false) s = .next t ∧ (outQ t (queueEnd q)).map (·.beat) = [mkBeat tyData 0 g.stream false false e.data] ∧
          (queueOf t q).entries = (queueOf s q).entries.tail))) ∧
  (∀ (s0 : State) (q : Nat),
    let s := advance s0 (discardEnd (queueOf s0 q))
    queueMode s q = 1 → queueCredit s q = true →
    (queueServes s q = false → proofMisses s q = true → ∀ p, exec (.streamInBeatSend q p) s0 = .next (notValid s q)) ∧
    (queueServes s q = true →
      ((∀ e, (queueOf s q).entries.head? = some e → e.filled = false) → ∀ p, exec (.streamInBeatSend q p) s0 = .next (notValid s q)) ∧
      (∀ e, (queueOf s q).entries.head? = some e → e.filled = true → e.range = false → e.bad = false →
        (e.segLine ≠ 0 → exec (.streamInBeatSend q false) s0 = .next (sendLine (popEntry s q) q e.segLine e.data)) ∧
        (e.segLine = 0 → e.dropCode = none → exec (.streamInBeatSend q false) s0 = .next (sendLine0 (popEntry s q) q e.data)) ∧
        (∀ code k, e.segLine = 0 → e.dropCode = some code → segTackOf e.data = some k →
          exec (.streamInBeatSend q false) s0 = .next (voidSegment (popEntry s q) q k code))))) ∧
  (∀ (s0 s1 : State) (q : Nat) (b b' : Beat),
    let s := advance s0 (portSlot s0 (q / 8))
    queueActs s q = true → queueMode s q = 2 → (queueOf s q).voidOwed = none → (inBuf s (queueEnd q)).head? = some b →
    (unitState s (queueEnd q).site = .enabled ∨ isOpenTack b = false ∨ (portFrames s (q / 8)).contains (bStream b, tackFrame b) = true) →
    ((queueOf s q).seg.stream = none ∨ (queueOf s q).seg.stream = some (bStream b)) →
    streamOutReady s q b = true → queueRoom s q = true → regulatorOpen s q = true → segmentCut (queueOf s q) b = false →
    takeBeat s (queueEnd q) (fun _ => true) = some (b', s1) →
    exec (.streamOutBeatWrite ⟨q, false⟩) s0 = .next (streamOutTake (countUnit s1 (queueSite q) 5 1) q b
      (if isTack b then tackFrame b else (headFrame s (queueEnd q) (bStream b)).getD 0))) ∧
  (∀ (s0 : State) (q : Nat) (w : OwedLine) (p : Bool),
    let s := advance s0 (portSlot s0 (q / 8))
    fabricRuns s = true → unitHeld s (queueEnd q).site = false → q / 8 < Config.memPorts → (queueOf s q).voidOwed = some w → queueRoom s q = true →
    regulatorOpen s q = true →
    exec (.streamOutBeatWrite ⟨q, p⟩) s0 = .next (queueWrite (setQueue s q { queueOf s q with voidOwed := none }) q w.addr w.beat w.frame)) ∧
  (∀ (s0 s1 : State) (q : Nat) (b b' : Beat) (p : Bool),
    let s := advance s0 (portSlot s0 (q / 8))
    queueActs s q = true → queueMode s q = 3 → (inBuf s (queueEnd q)).head? = some b → takeBeat s (queueEnd q) (fun _ => true) = some (b', s1) →
    (bType b = tyMarker → markDir b = 0 →
      exec (.spillQueueWrite ⟨q, p⟩) s0 = .next (setQueue s1 q { queueOf s1 q with spillWrite := some (markAddr b, markCount b) })) ∧
    (∀ a n, bType b ≠ tyMarker → (queueOf s q).spillWrite = some (a, n) → queueRoom s q = true → regulatorOpen s q = true →
      (isTack b = true ∨ (queueOf s q).spillDrop.contains (bStream b) = false) → (unitState s1 (queueSite q) = .enabled ∨ isOpenTack b = false) →
      mayAccess s 3 true a = true → (channelOf s (channelOfDpa a)).state ≠ .lost → writeBufferFull s a = false →
      ∃ t, exec (.spillQueueWrite ⟨q, false⟩) s0 = .next t ∧ t.feed.lpddr = memSetLine s.feed.lpddr a b.data ∧ amGetD t.feed.spillSide a 0 = b.side)) ∧
  (∀ (s s1 : State) (q : Nat) (b b' : Beat) (p : Bool), queueServes s q = true → queueActs s q = true → queueMode s q = 3 →
    (inBuf s (queueEnd q)).head? = some b → bType b = tyMarker → markDir b = 1 → (queueOf s q).requests.length < 16 →
    takeBeat s (queueEnd q) (fun _ => true) = some (b', s1) → (queueOf s1 q).entries = [] →
    exec (.spillQueueRead ⟨q, p⟩) s = .next (setQueue s1 q { queueOf s1 q with requests := (queueOf s1 q).requests ++
      [{ site := markSite b, queue := markQueue b, stream := bStream b, count := markCount b, addr := markAddr b }] })) ∧
  (∀ (s : State) (q : Nat) (r : SpillReq) (e : QEntry), queueServes s q = true → queueMode s q = 3 → inBuf s (queueEnd q) = [] →
    (queueOf s q).requests.head? = some r → (queueOf s q).entries.head? = some e → e.filled = true → e.range = false → e.bad = false → queueCredit s q = true →
    ∃ t, exec (.spillQueueRead ⟨q, false⟩) s = .next t ∧ (queueOf t q).entries = (queueOf s q).entries.tail ∧
      (outQ t (queueEnd q)).map (·.beat) = (if r.sent = 0 then [mkMarker r.stream r.site r.queue 2 r.count r.addr] else []) ++ [⟨e.data, e.side⟩])

/-- Refresh, ZQ, oscillator reads, patrol, retraining windows and CALIBRATE act on their channel; the descriptor store is scrubbed, and a circular wait is broken. A refresh, a ZQ calibration and an oscillator read that is due take their burst slots and are counted; the read's value marks a channel that has drifted from the value it was trained at, which on a channel never trained it becomes. A patrol that is due counts its block, and where it meets no line of it changes no byte. A retraining window begins on the lowest channel that wants it, while the part is not halted and no other one trains; a successful end leaves it SERVING, trained at its last oscillator value, and completes the CALIBRATE that names it; a first failure begins a second window, and a second one loses the channel behind record 0x0742. CALIBRATE of a channel that is not LOST pends, of every channel pends and begins with the first that serves, and of a lane completes OK with its eye. A scrub of a store word reports a single error with 0x0806, and starts the rewrite of an uncorrectable one, which a success ends behind 0x0807. MEM_MAINT_CTRL sets the drift threshold and the window of the cycle check. The first cycle of waiting streams that has stood for its window is broken: behind records 0x0720 and 0x0721 the oldest frame of its victim is dropped, and its edges go. Commands stated here to complete, each under the conditions of its clause: calibrateChannel, calibrateAllChannels, calibrateLane, memMaintCtrl, circularWaitExpiry, refresh, zqCalibration, dqsOscillatorRead, patrolBlock, retrainingWindowStart, retrainingWindowEnd, descStoreScrub, descRewriteDone. (R222, R223, R224, R225, R253, R416) -/
def Obligations.ChannelsAreMaintained : Prop :=
  (∀ (s : State) (c v : Nat), s.feed.channels.length = 32 → c < Config.channels → c < 32 →
    let x := channelOf s c
    (∀ b, exec (.refresh c b) s = .next (setChannel s c { slotsTaken x (nextSlot s x) 1 with refreshes := x.refreshes + 1 })) ∧
    (let t := advance s (zqPeriod * (x.zqRuns + 1))
     reaches s (zqPeriod * (x.zqRuns + 1)) = true →
      exec (.zqCalibration c) s = .next (setChannel t c { slotsTaken x (nextSlot t x) 0 with zqRuns := x.zqRuns + 1 })) ∧
    (let t := advance s (oscPeriod * (x.oscReads + 1))
     x.state = .serving → reaches s (oscPeriod * (x.oscReads + 1)) = true →
      (∀ tr, x.trained = some tr → exec (.dqsOscillatorRead c v) s = .next (setChannel t c { slotsTaken x (nextSlot t x) 1 with
        osc := v, oscReads := x.oscReads + 1, needsTraining := x.needsTraining || drifted s.feed.driftThreshold tr v })) ∧
      (x.trained = none → exec (.dqsOscillatorRead c v) s = .next (setChannel t c { slotsTaken x (nextSlot t x) 1 with
        osc := v, oscReads := x.oscReads + 1, trained := some v }))) ∧
    (x.state = .serving → reaches s (patrolPeriod * (x.patrolled + 1)) = true → ∀ found mirror, ∃ t, exec (.patrolBlock c found mirror) s = .next t ∧
      (channelOf t c).patrolled = x.patrolled + 1 ∧ (found = [] → t.feed.lpddr = s.feed.lpddr) ∧ t.now = max s.now (patrolPeriod * (x.patrolled + 1))) ∧
    (wantsTraining s c = true → anyRetraining s = false → (s.hal.halt = .running ∨ s.hal.halt = .pending) → (List.range c).any (wantsTraining s) = false →
      ∃ t, exec (.retrainingWindowStart c) s = .next t ∧ (channelOf t c).state = .retraining) ∧
    (x.state = .retraining → exec (.retrainingWindowEnd c true) s = .next (calibrateStep
      (channelServes (setChannel s c { x with state := .serving, needsTraining := false, secondWindow := false, trained := some x.osc }) c) c stOK)) ∧
    (x.state = .retraining → x.secondWindow = false → exec (.retrainingWindowEnd c false) s =
      .next (count (setChannel s c { x with secondWindow := true }) (unitCounter (channelSite c) 5) 1)) ∧
    (x.state = .retraining → x.secondWindow = true → exec (.retrainingWindowEnd c false) s = .next (calibrateStep (channelServes (loseChannel s 0x0742 c 0 0) c) c stDenied))) ∧
  (∀ (s : State) (c : HostCmd),
    let s1 := begun s c
    let u := pktDw c.pkt 2
    pktOnly c.pkt [(2, 0xFFFFFFFF)] = true → siteAbsent u = false →
    (Ready 0x31 0 s c → Room s c → siteKind u = 11 → sitePresent u = true → (channelOf s1 (siteSub u)).state ≠ .lost →
      calibrating s1 (siteSub u) = false → isPending s1 (fun k => k == .calibrateAll) = false →
      exec (.calibrateChannel c) s = .next (pendTaken s1 c (.calibrate (siteSub u)))) ∧
    (∀ k, Ready 0x31 1 s c → Room s c → u = allChannels → anyCalibrate s1 = false →
      (List.range Config.channels).find? (fun k => (channelOf s1 k).state == .serving) = some k →
      exec (.calibrateAllChannels c) s = .next (pendTaken { s1 with feed := { s1.feed with calibrating := some k } } c .calibrateAll)) ∧
    (∀ h w, Ready 0x31 2 s c → sitePresent u = true → exec (.calibrateLane c h w) s = .next (finishTaken (calibrated s1 u stOK) c stOK
      (h % 2 ^ 16 + w % 2 ^ 8 * 2 ^ 16 + b2n (lget s1.lanes.lock (siteSub u) false) * 2 ^ 24) []))) ∧
  (∀ (s : State) (w : Nat) (p : StoredProgram), programAt s w = some p →
    exec (.descStoreScrub w .single) s = .next (fault s 0x0806 0 (programSite s p) 0 0) ∧
    (∃ t, exec (.descStoreScrub w .uncorrectable) s = .next t ∧ p.dir ∈ t.feed.rewriting) ∧
    (p.dir ∈ s.feed.rewriting → ∃ t, exec (.descRewriteDone w true) s = .next (fault t 0x0807 0 (programSite s p) 0 0) ∧ p.dir ∉ t.feed.rewriting)) ∧
  (∀ (s : State) (v : Dword), exec (.memMaintCtrl v) s =
    .next { s with feed := { s.feed with driftThreshold := dbits v 7 0, cycleWindow := dbits v 20 16 } }) ∧
  (∀ (s : State) (edge : Nat × Nat × Nat × Fc) (edges : List (Nat × Nat × Nat × Fc)) (v : Nat),
    let s1 := advance s (edge.2.2.2 + 2 ^ max 10 s.feed.cycleWindow)
    firstCycle s.feed.edges = some (edge, edges) → fabricRuns s1 = true →
    cycleVictim s1 (dedup (edges.map (fun e => e.2.2.1))) (dedup (edges.flatMap (fun e => [e.1, e.2.1]))) = some v →
    let streams := dedup (edges.flatMap (fun e => [e.1, e.2.1]))
    let fr := (oldestFed s1 (dedup (edges.map (fun e => e.2.2.1))) v).getD 0
    let noted := faultFrame s1 0x0720 4 (portSite edge.2.2.1 0x00FF) v fr (dw (if edge.2.1 = v then edge.1 else edge.2.1))
      (dw ((streams.map (fun st => 2 ^ st)).foldl (· + ·) 0))
    ∃ x, x = feedDrop (abortRecord noted 0x0721 (portSite edge.2.2.1 0) v fr 0 0) v fr 0x0721 ∧ x.now = s1.now ∧
      exec .circularWaitExpiry s = .next { x with feed := { x.feed with edges := x.feed.edges.filter (fun e => !edges.contains e) } })

/-- TRACE_SET reserves a region, starts, marks, triggers, stops, copies and releases the trace. Op 0 of a trace that is off, with a sound configuration, takes the first free place of the units asked for and leaves the trace READY; of one that is READY or STOPPED, with its own number of units or 0, it replaces the configuration; a trace that is READY or STOPPED starts at position 0 with empty buffers, behind the start record and the event. A stop pends while the buffers are flushed; when no record waits any more, at the fc in which the next line may go, its end leaves nothing in flush and completes it. A trigger of a running trace goes to POST in mode 2 and leaves a trigger record in the others; a marker enters the control buffer; a release of a stopped trace gives the region back. Op 6 of 4,096-byte units inside the region pends with the reads of its lines still to be made, and ends, when they have been made, oldest copy first, with the bytes that these reads give written to the host: a line that neither it nor a mirror copy yields reads as free values. Commands stated here to complete, each under the conditions of its clause: traceConfigure, traceStart, traceStop, traceStopFlushDone, traceTrigger, traceMarker, traceRelease, traceCopy, traceCopyDone. (R434, R436, R437, R439, R441, R442, R443) -/
def Obligations.TheTraceIsConfiguredStartedAndReleased : Prop :=
  (∀ (s : State) (c : HostCmd) (a : Nat),
    let s1 := begun s c
    let g := traceCfgOf c.pkt
    let units := dbits (pktDw c.pkt 3) 8 0
    Ready 0x40 0 s c → pktOnly c.pkt traceMasks = true → dbits (pktDw c.pkt 2) 2 0 = 0 → g.mode ≠ 3 → g.triggerSrc ≠ 3 → g.privilege ≠ 3 →
    (g.mode = 2 → g.postShare ≠ 0) → 0 < units → units ≤ 292 → g.streams ≠ 0 → s1.trace.state = .off → tracePlace s1 units = some a →
    exec (.traceConfigure c) s = .next (finishTaken (setTrace s1 { s1.trace with state := .ready, cfg := g, units := units, base := a }) c stOK 0 [])) ∧
  (∀ (s : State) (c : HostCmd),
    let s1 := begun s c
    let g := traceCfgOf c.pkt
    let units := dbits (pktDw c.pkt 3) 8 0
    Ready 0x40 0 s c → pktOnly c.pkt traceMasks = true → dbits (pktDw c.pkt 2) 2 0 = 0 → g.mode ≠ 3 → g.triggerSrc ≠ 3 → g.privilege ≠ 3 →
    (g.mode = 2 → g.postShare ≠ 0) → units ≤ 292 → g.streams ≠ 0 → (s1.trace.state = .ready ∨ s1.trace.state = .stopped) →
    (units = 0 ∨ units = s1.trace.units) →
    exec (.traceConfigure c) s = .next (finishTaken (setTrace s1 { s1.trace with state := .ready, cfg := g }) c stOK 0 [])) ∧
  (∀ (s : State) (c : HostCmd),
    let s1 := begun s c
    Ready 0x40 1 s c → pktOnly c.pkt [(2, 7)] = true → (s1.trace.state = .ready ∨ s1.trace.state = .stopped) →
    exec (.traceStart c) s = .next (finishTaken (postDev (traceEnter
        (setTrace s1 { s1.trace with state := .running, wp := 0, wrap := false, triggered := false, trigTime := 0, trigLine := 0, sinceTrigger := 0,
                                     trigPending := none, bufs := List.replicate 9 {}, lastBuf := 8, flushing := false,
                                     nextLine := s1.now })
        (controlRecord s1 0x0032 (dw s1.trace.cfg.mode) 0 0)) 0x18 0x0040 noSite s1.now s1.trace.cfg.mode) c stOK 0 [])) ∧
  (∀ (s : State) (c : HostCmd),
    let s1 := begun s c
    Ready 0x40 2 s c → Room s c → pktOnly c.pkt [(2, 7)] = true → (s1.trace.state = .running ∨ s1.trace.state = .post) →
    exec (.traceStop c) s = .next (pendTaken (setTrace s1 { s1.trace with flushing := true }) c .traceStop)) ∧
  (∀ s : State, s.trace.flushing = true → (traceWrites s = true → traceWaits s.trace = false ∧ reaches s s.trace.nextLine = true) →
    ∃ t, exec .traceStopFlushDone s = .next (finishEvery t (fun k => k == .traceStop) stOK 0 t.now) ∧ t.trace.flushing = false ∧
      t.now = if traceWrites s then max s.now s.trace.nextLine else s.now) ∧
  (∀ (s : State) (c : HostCmd),
    let s1 := begun s c
    Ready 0x40 3 s c → pktOnly c.pkt [(2, 7)] = true → (s1.trace.state = .running ∨ s1.trace.state = .post) →
    (s1.trace.flushing = true → exec (.traceTrigger c) s = .next (finishTaken s1 c stOK 0 [])) ∧
    (s1.trace.flushing = false → ∃ t, exec (.traceTrigger c) s = .next (finishTaken t c stOK 0 []) ∧ t = traceTrigger s1 0 0 8 ∧
      (s1.trace.state = .running → s1.trace.cfg.mode = 2 → t.trace.state = .post ∧ t.trace.trigTime = s1.now ∧ t.trace.trigLine = s1.trace.wp) ∧
      (s1.trace.state = .running → s1.trace.cfg.mode ≠ 2 → t = traceEnter s1 (controlRecord s1 0x0030 0 0 0)))) ∧
  (∀ (s : State) (c : HostCmd),
    let s1 := begun s c
    Ready 0x40 4 s c → pktOnly c.pkt [(2, 7), (3, 0xFFFFFFFF), (4, 0xFFFFFFFF)] = true → s1.trace.state ≠ .off →
    exec (.traceMarker c) s = .next (finishTaken
      (if tracing s1 then traceEnter s1 (controlRecord s1 0x0024 (pktDw c.pkt 3) (pktDw c.pkt 4) (dw c.ring)) else s1) c stOK 0 [])) ∧
  (∀ (s : State) (c : HostCmd),
    let s1 := begun s c
    Ready 0x40 5 s c → pktOnly c.pkt [(2, 7)] = true → (s1.trace.state = .ready ∨ s1.trace.state = .stopped) →
    exec (.traceRelease c) s = .next (finishTaken (setTrace s1 { s1.trace with state := .off, units := 0, base := 0 }) c stOK 0 [])) ∧
  (∀ (s : State) (c : HostCmd),
    let s1 := begun s c
    let off := pktQ c.pkt 3
    let len := (pktDw c.pkt 5).toNat
    Ready 0x40 6 s c → Room s c → pktOnly c.pkt [(2, 7), (3, 0xFFFFFFFF), (4, 0xFFFFFFFF), (5, 0xFFFFFFFF), (6, 0xFFFFFFFF), (7, 0xFFFFFFFF)] = true →
    s1.trace.state ≠ .off → off % 4096 = 0 → len % 4096 = 0 → pktQ c.pkt 6 % 4096 = 0 → len ≤ 2 ^ 24 → off + len ≤ traceSpan s1.trace.units →
    exec (.traceCopy c) s = .next (pendTaken (addJob (setTrace s1 { s1.trace with
        copies := s1.trace.copies ++ [(s1.trace.base + off, len, pktQ c.pkt 6, s1.now)] })
      .traceCopy false (s1.trace.base + off) len) c .traceCopy)) ∧
  (∀ (s : State) (a len host : Nat) (at_ : Fc) (rest : List (Nat × Nat × Nat × Fc)), s.trace.copies = (a, len, host, at_) :: rest →
    s.feed.jobs.any (fun j => j.kind == .traceCopy && j.base == a && j.entered == at_) = false →
    ∃ t, exec .traceCopyDone s = .next (finishFirst t (fun k => k == .traceCopy) stOK 0 t.now [(host, jobBytes s a len)]) ∧
      t.trace.copies = rest ∧ t.feed = s.feed)

/-- The trace engine stores 64 bytes at the base plus 64 times the write position, and no other byte of LPDDR5 changes. When it is a buffer's turn, two of its records wait and 4 fc have passed since the last line, the engine writes the two records of 32 bytes each, and the write position goes on by one line, and back to 0 behind the region's last line. A record that has been alone in its buffer for 1,024 fc is written with 32 bytes of 0 behind it. A trigger record that waits is written next, and the line holds its position. A line of a LOST channel is not changed; every byte outside the line reads as before. Commands stated here to complete, each under the conditions of its clause: traceLineWrite, traceBufferFlushTimer. (R435, R438, R439, R441) -/
def Obligations.TraceLinesAreStoredAtTheWritePosition : Prop :=
  (∀ (s : State) (b : Nat) (q r : TraceRec) (rest : List TraceRec), traceWrites s = true → s.trace.trigPending = none → s.trace.nextLine ≤ s.now →
    nextRound s.trace.lastBuf 9 (traceDue s.trace) = some b → (lget s.trace.bufs b {}).recs = q :: r :: rest →
    ∃ t, exec (.traceLineWrite b) s = .next t ∧
      t.feed.lpddr = (writeLine s (s.trace.base + 64 * s.trace.wp) (BitVec.ofNat 512 (leNat (traceBytes q ++ traceBytes r)))).feed.lpddr ∧
      t.trace.wp = (if traceLines s.trace ≤ s.trace.wp + 1 then 0 else s.trace.wp + 1) ∧
      (∀ a, (a < s.trace.base + 64 * s.trace.wp ∨ s.trace.base + 64 * s.trace.wp + 64 ≤ a) → memGet t.feed.lpddr a = memGet s.feed.lpddr a)) ∧
  (∀ (s : State) (b : Nat) (r : TraceRec), traceWrites s = true → s.trace.trigPending = none → b < 9 → (lget s.trace.bufs b {}).recs = [r] →
    let at_ := max ((lget s.trace.bufs b {}).aloneSince + 1024) s.trace.nextLine
    reaches s at_ = true →
    ∃ t, exec (.traceBufferFlushTimer b) s = .next t ∧
      t.feed.lpddr = (writeLine s (s.trace.base + 64 * s.trace.wp) (BitVec.ofNat 512 (leNat (traceBytes r ++ padBytes)))).feed.lpddr ∧ t.now = max s.now at_ ∧
      (∀ a, (a < s.trace.base + 64 * s.trace.wp ∨ s.trace.base + 64 * s.trace.wp + 64 ≤ a) → memGet t.feed.lpddr a = memGet s.feed.lpddr a)) ∧
  (∀ (s : State) (r : TraceRec), traceWrites s = true → s.trace.trigPending = some r → s.trace.nextLine ≤ s.now →
    let x := lget s.trace.bufs 8 {}
    nextRound s.trace.lastBuf 9 (traceDue s.trace) = some 8 → gapRecord 8 x = [] →
    ∃ t, exec (.traceLineWrite 8) s = .next t ∧ t.trace.trigPending = none ∧ t.trace.trigLine = s.trace.wp ∧
      t.feed.lpddr = (writeLine s (s.trace.base + 64 * s.trace.wp) (BitVec.ofNat 512 (leNat (traceBytes r ++ match x.recs.head? with
        | some q => traceBytes q
        | none => padBytes)))).feed.lpddr)

/-- COUNTER_SET and the page control register configure, run, clear and sample, and COUNTER_GRANT opens a BAR2 view. A sound configuration stands in its counter with its run bit; the run mask, the clear mask and the sample of every present page act on exactly the counters and pages that they name. A grant of a present page stands with its write_enable, and the page's BAR2 view is as after reset; a write to a writable view sets its view bit, samples, clears and runs as its bits say: a cleared counter shows what the happenings that come to count in this very fc gave it; and a write to a view that is not writable does nothing. Commands stated here to complete, each under the conditions of its clause: counterConfigure, counterRunMask, counterClearMask, counterSampleAll, counterGrant, cntPageSample, cntPageClear, cntPageRun. (R444, R446, R447, R448, R449, R450, R451) -/
def Obligations.CountersAreProgrammedSampledAndCleared : Prop :=
  (∀ (s : State) (c : HostCmd),
    let k := dbits (pktDw c.pkt 2) 13 8
    Ready 0x41 0 s c → counterBad c.pkt = false → (begun s c).cnt.progs.length = 64 →
    ∃ t, exec (.counterConfigure c) s = .next (finishTaken t c stOK 0 []) ∧
      lget t.cnt.progs k {} = { cfg := (List.range 8).map (fun i => pktDw c.pkt (3 + i)), run := dbit (pktDw c.pkt 2) 16 } ∧
      (∀ j, j ≠ k → t.cnt.progs[j]? = (begun s c).cnt.progs[j]?)) ∧
  (∀ (s : State) (c : HostCmd), Ready 0x41 1 s c → pktOnly c.pkt [(2, 7), (3, 0xFFFFFFFF), (4, 0xFFFFFFFF), (5, 0xFFFFFFFF)] = true →
    exec (.counterRunMask c) s = .next (finishTaken ((namedCounters c.pkt).foldl (fun x k => runCounter x k (dbit (pktDw c.pkt 5) 0)) (begun s c)) c stOK 0 [])) ∧
  (∀ (s : State) (c : HostCmd), Ready 0x41 2 s c → pktOnly c.pkt [(2, 7), (3, 0xFFFFFFFF), (4, 0xFFFFFFFF)] = true →
    exec (.counterClearMask c) s = .next (finishTaken ((namedCounters c.pkt).foldl clearCounter (begun s c)) c stOK 0 [])) ∧
  (∀ (s : State) (c : HostCmd), Ready 0x41 3 s c → pktOnly c.pkt [(2, 7)] = true →
    exec (.counterSampleAll c) s = .next (finishTaken (((List.range 100).filter pagePresent).foldl (fun x g => samplePage x false g) (begun s c)) c stOK 0 [])) ∧
  (∀ (s : State) (c : HostCmd),
    let g := dbits (pktDw c.pkt 2) 10 0
    Ready 0x42 0 s c → g < 100 → pagePresent g = true → pktOnly c.pkt [(2, 0x307FF)] = true →
    ∃ t, exec (.counterGrant c) s = .next (finishTaken t c stOK 0 []) ∧ viewOf t true g = {} ∧
      amGet t.cnt.grants g = (if dbit (pktDw c.pkt 2) 16 then some (dbit (pktDw c.pkt 2) 17) else none)) ∧
  (∀ (s : State) (bar2 : Bool) (g : Nat) (v : Dword),
    (pageWritable s bar2 g = false → exec (.cntPageRun bar2 g v) s = .next s) ∧
    (pageWritable s bar2 g = true →
      (∃ t, exec (.cntPageRun bar2 g v) s = .next t ∧ (viewOf t bar2 g).sampledView = dbit v 0 ∧
        (g < 64 → s.cnt.progs.length = 64 → (lget t.cnt.progs g {}).run = dbit v 3)) ∧
      (dbit v 1 = true → ∃ t, exec (.cntPageSample bar2 g v) s = .next t ∧ (viewOf t bar2 g).sample = pageCut s g ∧
        (viewOf t bar2 g).sampleTime = s.now - 64) ∧
      (dbit v 2 = true → g < 64 → ∃ t, exec (.cntPageClear bar2 g v) s = .next t ∧ counterNow t g 0x40 = lget (foldTallies s.cnt s.now).newest g 0)))

/-- SPAN_OPEN trains a closed or failed port, SPAN_MEASURE asks for 256 probes, a close drains the port, and each wait has its limit. An open of a port that the chip has and an image declares, with sound shares, of a CLOSED or DOWN port pends with the port in TRAINING; a close of a TRAINING or DOWN port completes OK with the port CLOSED, of an UP port, or of one still MEASURING, whose open then completes ABORTED, pends with the port CLOSING, of a CLOSED port completes OK; a measurement of an UP port that measures nothing pends. A CLOSING port that is empty closes and completes the close OK; after 10 ms of CLOSING on a part that is not halted it closes with TIMEOUT, and after 100 ms of TRAINING the open completes TIMEOUT with the port CLOSED. A wavelength's lock is gained by a port whose engine is on; the loss of one fails a link over which beats flow. Commands stated here to complete, each under the conditions of its clause: spanOpen, spanClose, spanMeasure, spanLockLoss, spanTrainingTimeout, spanCloseDrained, spanCloseTimeout, spanLockAcquire. (R267, R268, R271, R275, R279) -/
def Obligations.SpanPortsOpenMeasureAndClose : Prop :=
  (∀ (s : State) (c : HostCmd),
    let s1 := begun s c
    let n := dbits (pktDw c.pkt 2) 2 0
    Ready 0x48 0 s c → Room s c → s1.span.length = 8 → n < Config.spanPorts → spanBad c.pkt = false → spanDeclared s1 n = true →
    ((spanOf s1 n).state = .closed ∨ (spanOf s1 n).state = .down) →
    ∃ t, exec (.spanOpen c) s = .next (pendTaken t c (.spanOpen n)) ∧ (spanOf t n).state = .training ∧ (spanOf t n).openedAt = s1.now ∧
      (spanOf t n).subs.map (·.share) = shareFields c.pkt ∧ (spanOf t n).offset = (spanOf s1 n).offset) ∧
  (∀ (s : State) (c : HostCmd),
    let s1 := begun s c
    let n := dbits (pktDw c.pkt 2) 2 0
    Ready 0x48 1 s c → Room s c → s1.span.length = 8 → n < Config.spanPorts → spanBad c.pkt = false →
    ((spanOf s1 n).state = .closed → exec (.spanClose c) s = .next (finishTaken s1 c stOK 0 [])) ∧
    ((spanOf s1 n).state = .training ∨ (spanOf s1 n).state = .down →
      ∃ t, exec (.spanClose c) s = .next (finishTaken t c stOK 0 []) ∧ (spanOf t n).state = .closed) ∧
    ((spanOf s1 n).state = .up →
      ∃ t, exec (.spanClose c) s = .next (pendTaken t c (.spanClose n)) ∧ (spanOf t n).state = .closing ∧ (spanOf t n).closingAt = s1.now) ∧
    ((spanOf s1 n).state = .measuring →
      ∃ t, exec (.spanClose c) s = .next (pendTaken (finishEvery t (isSpanOpen n) stAborted 0 s1.now) c (.spanClose n)) ∧ (spanOf t n).state = .closing)) ∧
  (∀ (s : State) (c : HostCmd),
    let s1 := begun s c
    let n := dbits (pktDw c.pkt 2) 2 0
    Ready 0x49 0 s c → Room s c → n < Config.spanPorts → pktOnly c.pkt [(2, 0x7)] = true → (spanOf s1 n).state = .up → (spanOf s1 n).measuring = false →
    exec (.spanMeasure c) s = .next (pendTaken (modSpan s1 n startMeasure) c (.spanMeasure n))) ∧
  (∀ (s : State) (p : Nat), s.span.length = 8 → p < 8 →
    ((spanOf s p).state = .closing → spanEmpty s p = true → (spanOf s p).replay = [] →
      ∃ t, exec (.spanCloseDrained p) s = .next (finishEvery (finishEvery t (isSpanMeasure p) stAborted 0 s.now) (isSpanClose p) stOK 0 s.now) ∧
        (spanOf t p).state = .closed) ∧
    ((spanOf s p).state = .closing → haltedNow s = false → reaches s ((spanOf s p).closingAt + 10000 * Config.us) = true →
      ∃ t, exec (.spanCloseTimeout p) s = .next (finishEvery (finishEvery t (isSpanMeasure p) stAborted 0 t.now) (isSpanClose p) stTimeout 0 t.now) ∧
        (spanOf t p).state = .closed ∧ t.now = max s.now ((spanOf s p).closingAt + 10000 * Config.us)) ∧
    ((spanOf s p).state = .training → reaches s ((spanOf s p).openedAt + 100000 * Config.us) = true →
      ∃ t, exec (.spanTrainingTimeout p) s = .next (finishEvery t (isSpanOpen p) stTimeout 0 t.now) ∧
        (spanOf t p).state = .closed ∧ t.now = max s.now ((spanOf s p).openedAt + 100000 * Config.us))) ∧
  (∀ (s : State) (p w : Nat), s.span.length = 8 → p < Config.spanPorts → p < 8 →
    ((spanOf s p).state ≠ .closed → exec (.spanLockAcquire p w) s = .next (modSpan s p (fun x => { x with lock := x.lock.set w true }))) ∧
    (lget (spanOf s p).lock w false = true →
      (spanFlows (spanOf s p) = true → ∃ t, exec (.spanLockLoss p w) s = .next t ∧ (spanOf t p).state = .down ∧ (spanOf t p).replay = []) ∧
      (spanFlows (spanOf s p) = false → exec (.spanLockLoss p w) s = .next (modSpan s p (fun x => { x with lock := x.lock.set w false })))))

/-- A port sends one codeword a slot, resends what a nak or a timeout asks for, and takes a sound codeword in sequence only. A port with a codeword to resend sends it again, with the ack of now and its CRC renewed; a full replay buffer gets a filler; else a new codeword goes. Each counts one codeword. A codeword that the decoder cannot mend, or that is not the next in sequence, is not taken and asks for a resend. The next one in sequence, on a port whose wavelengths are all locked and that passes beats, is accepted. The oldest kept codeword unacknowledged for 2d + Ls + 2,048 fc starts a round that resends all kept ones, in order. An UP port's probe timer puts a probe into the messages, once in 65,536 codewords; a probe without its echo is replaced. Commands stated here to complete, each under the conditions of its clause: spanCodewordSend, spanCodewordReceive, spanAckTimeout, spanProbeTimer, spanProbeReplace. (R269, R270, R271, R275) -/
def Obligations.SpanCodewordsAreSentTakenAndSentAgain : Prop :=
  (∀ (s : State) (p : Nat), s.span.length = 8 → p < 8 → p < Config.spanPorts → (spanOf s p).state ≠ .down →
    ((spanOf s p).state ≠ .closed ∨ (spanOf s p).msgs ≠ []) →
    (∀ q rest k, (spanOf s p).resend = q :: rest → (spanOf s p).replay.find? (fun k => decide (k.seq = q)) = some k →
      ∃ t, exec (.spanCodewordSend p) s = .next t ∧ (spanOf t p).resend = rest ∧ (spanOf t p).codewords = (spanOf s p).codewords + 1 ∧
        .spanCodeword p (resealCodeword k.payload (spanOf s p).accepted (spanOf s p).nak) ∈ t.out) ∧
    ((spanOf s p).resend = [] → 2048 ≤ (spanOf s p).replay.length → exec (.spanCodewordSend p) s = .next (sendFiller s p)) ∧
    ((spanOf s p).resend = [] → (spanOf s p).replay.length < 2048 →
      ∃ t w, exec (.spanCodewordSend p) s = .next t ∧ (spanOf t p).codewords = (spanOf s p).codewords + 1 ∧ .spanCodeword p w ∈ t.out ∧
        ((spanOf t p).nextSeq = (spanOf s p).nextSeq ∨ (spanOf t p).nextSeq = ((spanOf s p).nextSeq + 1) % 2 ^ 16))) ∧
  (∀ (s : State) (p : Nat) (w : BitVec 5140),
    let x := spanOf s p
    let c := readCodeword w
    s.span.length = 8 → p < 8 → p < Config.spanPorts → x.lock.contains false = false → spanFlows x = true →
    exec (.spanCodewordReceive p .uncorrectable w) s = .next (modSpan s p (fun y => { y with nak := true })) ∧
    (codewordGood w = true → isFiller c = false →
      (c.seq ≠ x.expected → exec (.spanCodewordReceive p .good w) s = .next (modSpan s p (fun y => { y with nak := true }))) ∧
      (c.seq = x.expected → ∃ t, exec (.spanCodewordReceive p .good w) s = .next t ∧ (spanOf t p).accepted = c.seq ∧
        (spanOf t p).expected = (x.expected + 1) % 2 ^ 16 ∧ (spanOf t p).nak = false))) ∧
  (∀ (s : State) (p : Nat) (k : Kept) (rest : List Kept), s.span.length = 8 → p < 8 → (spanOf s p).replay = k :: rest → spanFlows (spanOf s p) = true →
    (spanOf s p).resend = [] → (spanOf s p).retries < 15 → reaches s (k.sentAt + spanWait (spanOf s p)) = true →
    ∃ t, exec (.spanAckTimeout p) s = .next t ∧ (spanOf t p).resend = (k :: rest).map (·.seq) ∧ t.now = max s.now (k.sentAt + spanWait (spanOf s p))) ∧
  (∀ (s : State) (p : Nat),
    let x := spanOf s p
    (x.state = .up → x.probeBlock < x.codewords / 65536 → exec (.spanProbeTimer p) s = .next (setSpan s p
      { x with probeBlock := x.codewords / 65536, msgs := x.msgs ++ [{ kind := 1, id := x.nextProbe, a := 0, b := 0 }], nextProbe := (x.nextProbe + 1) % 16 })) ∧
    (∀ q, x.probes.find? (fun r => r.id == q.id) = some q → spanFlows x = true → reaches s (q.sentAt + spanWait x) = true →
      (q.measure = true → exec (.spanProbeReplace p q.id) s = .next (setSpan (advance s (q.sentAt + spanWait x)) p
        { x with probes := x.probes.erase q, probesLeft := x.probesLeft + b2n x.measuring })) ∧
      (q.measure = false → exec (.spanProbeReplace p q.id) s = .next (setSpan (advance s (q.sentAt + spanWait x)) p
        { x with probes := x.probes.erase q, msgs := x.msgs ++ [{ kind := 1, id := x.nextProbe, a := 0, b := 0 }], nextProbe := (x.nextProbe + 1) % 16 }))))

/-- FW_STAGE takes a sound package, FW_SWITCH starts it core by core at T, and a core that fails is restarted by the other. A package that passes every check pends with its slot invalid, and is staged whole and reported at the end; one that fails gets the first status and code. FW_SWITCH of a staged package with T at least 2,048 fc ahead pends; at T MC1 is down; when MC1 is ready MC0 goes down, and when MC0 is ready in time the staged package runs, the other slot is committed, and the floor rises if asked. A core that is not ready in 100 µs ends the switch ABORTED with the old package. Two missed heartbeats of a core whose fellow works leave it down and noted, without a record; its restart is record 0x0E21. Two sectors that read different counts stop the part. Commands stated here to complete, each under the conditions of its clause: fwStage, fwStageDone, fwSwitch, fwSwitchLands, fwCoreReady, fwReadyTimeout, heartbeatMiss, coreRestartDone, halyardParityError. (R406, R407, R429, R430, R457, R458, R469, R470) -/
def Obligations.FirmwareIsStagedAndSwitched : Prop :=
  (∀ (s : State) (c : HostCmd) (bytes : List Byte),
    let s1 := begun s c
    let len := (pktDw c.pkt 4).toNat
    Ready 0x50 0 s c → Room s c → pktOnly c.pkt [(2, 0xFFFFFFFF), (3, 0xFFFFFFFF), (4, 0xFFFFFFFF)] = true → pktQ c.pkt 2 % 64 = 0 → s1.sec.swap = none → hostUp s1 = true →
    (∀ pkg, readPackage s1.sec (bytes.take len) len = .ok pkg → exec (.fwStage c (some bytes)) s = .next (pendTaken
      { s1 with sec := { setUncommitted s1.sec (some { pkg with intact := false }) with staging := s1.sec.staging ++ [pkg] } } c .fwStage)) ∧
    (∀ e, readPackage s1.sec (bytes.take len) len = .error e → exec (.fwStage c (some bytes)) s = .next (finishTaken s1 c e.1 e.2 []))) ∧
  (∀ (s : State) (pkg : FwPkg) (rest : List FwPkg), s.sec.staging = pkg :: rest →
    ∃ t, exec .fwStageDone s = .next (finishFirst t (fun k => k == .fwStage) stOK pkg.version s.now) ∧ t.sec.staged = some pkg ∧ t.sec.staging = rest ∧
      t.sec.committedB = s.sec.committedB ∧ (if s.sec.committedB then t.sec.slotA else t.sec.slotB) = some pkg ∧
      (if s.sec.committedB then t.sec.slotB = s.sec.slotB else t.sec.slotA = s.sec.slotA)) ∧
  (∀ (s : State) (c : HostCmd),
    let s1 := begun s c
    Ready 0x51 0 s c → Room s c → pktOnly c.pkt [(2, 0xFFFFFFFF), (3, 0xFFFFFFFF), (4, 1)] = true → s1.sec.staged ≠ none → s1.now + 2048 ≤ pktQ c.pkt 2 →
    s1.sec.swap = none → exec (.fwSwitch c) s = .next (pendTaken
      { s1 with sec := { s1.sec with swap := some { time := pktQ c.pkt 2, raiseFloor := dbit (pktDw c.pkt 4) 0 } } } c .fwSwitch)) ∧
  (∀ (s : State) (w : Swap), s.sec.swap = some w →
    (w.phase = 0 → landsNext s w.time 3 = true → ∃ t, exec .fwSwitchLands s = .next t ∧ t.now = max s.now w.time ∧ t.sec.swap = some { w with phase := 1, since := t.now } ∧
      t.mgmt.mc1Down = true) ∧
    (w.phase = 1 → s.now ≤ w.since + readyLimit → ∃ t, exec (.fwCoreReady 1) s = .next t ∧ t.sec.swap = some { w with phase := 2, since := s.now } ∧
      t.mgmt.mc1Down = false ∧ t.mgmt.mc0Down = true ∧ t.sec.running = s.sec.running) ∧
    (w.phase = 2 → s.now ≤ w.since + readyLimit → ∀ pkg, s.sec.staged = some pkg → ∃ t, exec (.fwCoreReady 0) s = .next t ∧
      t.sec = { s.sec with committedB := !s.sec.committedB, running := some pkg, staged := none, swap := none,
                           floor := if w.raiseFloor then max s.sec.floor pkg.securityVersion else s.sec.floor } ∧ t.mgmt.mc0Down = false) ∧
    ((w.phase = 1 ∨ w.phase = 2) → reaches s (w.since + readyLimit) = true → ∃ t, exec (.fwReadyTimeout (2 - w.phase)) s = .next t ∧ t.now = max s.now (w.since + readyLimit) ∧
      t.sec = { s.sec with swap := none } ∧ t.mgmt.mc0Down = false ∧ t.mgmt.mc1Down = false)) ∧
  (∀ (s : State) (k : Nat), k < 2 → s.hal.stopped = false →
    (coreDown s (1 - k) = false → (∀ T, amGet s.mgmt.restarts k = some T → T + second ≤ s.now) →
      ∃ t, exec (.heartbeatMiss k) s = .next t ∧ coreDown t k = true ∧ coreDown t (1 - k) = false ∧ amGet t.mgmt.restarts k = some s.now ∧ t.out = s.out) ∧
    (coreDown s k = true → swapStarts s k = false →
      exec (.coreRestartDone k) s = .next (fault (setCore s k false) 0x0E21 0 (mgmtSite k) 0 0))) ∧
  (∀ s : State, ∃ t, exec .halyardParityError s = .next t ∧ t.hal.stopped = true ∧ t.pins.faultLatched = true)

/-- An authorisation that passes R466 changes the life cycle or a key slot, every take replaces the challenge, and WIPE clears what is in no region. For each of the four operations: firmware replaces the challenge as it takes the command, an authorisation that passes every check is applied and completes OK, and the first check that fails gives its status and code. A transition puts the part in the state named, with a device reset due 100 µs after, or sooner where one is due sooner; a new image key stands in its slot; a revoked image key stays known as revoked; a firmware key's fuse is blown. WIPE op 0 pends with the writes of every free line still to be made, and ends, when they have been made, with every byte outside the regions in use reading as never written, those of a LOST channel apart; op 1 has a device reset due as a transition has; op 2 clears the staged package. Commands stated here to complete, each under the conditions of its clause: lifecycleTransition, lifecycleAddKey, lifecycleRevokeImageKey, lifecycleRevokeFwKey, wipeFreeSpace, wipeFreeSpaceDone, wipeDevice, wipeStagedFirmware. (R31, R460, R461, R462, R464, R465, R466, R468) -/
def Obligations.LifecycleAuthorisationsAndWipesAct : Prop :=
  (∀ (s : State) (c : HostCmd) (bytes : List Byte) (a : Auth),
    let s0 : State := { s with sec := { s.sec with challenge := Config.entropy s.fresh }, fresh := s.fresh + 1 }
    let s1 := begun s0 c
    takeable s c = true → Ready 0x58 0 s0 c → pktOnly c.pkt [(2, 0xFFFFFFFF), (3, 0xFFFFFFFF), (4, 0xFFFFFFFF)] = true → pktQ c.pkt 2 % 64 = 0 → hostUp s1 = true →
    readAuth (bytes.take (pktDw c.pkt 4).toNat) (pktDw c.pkt 4).toNat = some a →
    let t := match authStatus s1 s.sec.challenge a with
      | none => finishTaken (applyAuth s1 a) c stOK 0 []
      | some (st, d) => finishTaken s1 c st d []
    (authOp (some bytes) = 0 → exec (.lifecycleTransition c (some bytes)) s = .next t) ∧
    (authOp (some bytes) = 1 → exec (.lifecycleAddKey c (some bytes)) s = .next t) ∧
    (authOp (some bytes) = 2 → exec (.lifecycleRevokeImageKey c (some bytes)) s = .next t) ∧
    (authOp (some bytes) = 3 → exec (.lifecycleRevokeFwKey c (some bytes)) s = .next t)) ∧
  (∀ (s : State) (a : Auth),
    (a.op = 0 → ∀ d, lifeOfCode a.target = some d → (applyAuth s a).sec.life = d ∧ (applyAuth s a).mgmt.resetDue = (askReset s).mgmt.resetDue ∧
      (applyAuth s a).sec.challenge = s.sec.challenge ∧ (applyAuth s a).sec.fwRevoked = s.sec.fwRevoked) ∧
    (a.op = 1 → (applyAuth s a).sec = { s.sec with imageKeys := s.sec.imageKeys.set a.target (.valid (keyIdOf a.payload)) }) ∧
    (a.op = 2 → ∀ x, lget s.sec.imageKeys a.target .empty = .valid x →
      (applyAuth s a).sec = { s.sec with imageKeys := s.sec.imageKeys.set a.target (.revoked x) }) ∧
    (a.op = 3 → (applyAuth s a).sec = { s.sec with fwRevoked := s.sec.fwRevoked.set a.target true })) ∧
  (∀ (s : State) (c : HostCmd),
    let s1 := begun s c
    pktOnly c.pkt [(2, 3)] = true →
    (Ready 0x59 0 s c → Room s c → dbits (pktDw c.pkt 2) 1 0 = 0 → s1.feed.wipeRunning = false →
      exec (.wipeFreeSpace c) s = .next (pendTaken
        (addJobs { s1 with feed := { s1.feed with wipeRunning := true } } .wipe true (freeRanges (regionsInUse s1))) c .wipeFree)) ∧
    (Ready 0x59 1 s c → exec (.wipeDevice c) s = .next (finishTaken
      (askReset s1) c stOK 0 [])) ∧
    (Ready 0x59 2 s c → s1.sec.swap = none → exec (.wipeStagedFirmware c) s = .next (finishTaken
      { s1 with sec := { setUncommitted s1.sec none with staged := none } } c stOK 0 []))) ∧
  (∀ s : State, s.feed.wipeRunning = true → jobPending s .wipe = false → Memory.wf s.feed.lpddr = true →
    ∃ t d, exec .wipeFreeSpaceDone s = .next (finishFirst t (fun k => k == .wipeFree) stOK d s.now) ∧ t.feed.wipeRunning = false ∧
      ∀ x, memGet t.feed.lpddr x = (if inRegions (regionsInUse s) x || (channelOf s (channelOfDpa x)).state == .lost then memGet s.feed.lpddr x else memDefault))

/-- POWER_SET sets operating points, the cap, the thermal limits, sleep and wake, and asks for a device reset, which comes 100 µs later. Op 0 on present sectors of which none sleeps and none is busy sets their requested divider, and completes at once if each is at its target, else pends. Ops 1 and 2 in range set the cap, and the threshold and hysteresis. Op 3 on ACTIVE sectors that no hoist uses puts them to SLEEP; op 4 on sleeping ones has them WAKING and pends. Op 5 has a device reset due 100 µs after, or sooner where one is due sooner; the reset comes at its time once no completion that asks for it is held, keeps the halyard and the life cycle, and leaves no ring, no firmware stage and no reset due. Commands stated here to complete, each under the conditions of its clause: powerSetOperatingPoint, powerSetCap, powerSetThermal, powerSetSleep, powerSetWake, powerSetReset, delayedDeviceReset. (R384, R390, R391, R395, R396) -/
def Obligations.PowerSetActsAndResetsAreDelayed : Prop :=
  (∀ (s : State) (c : HostCmd),
    let s1 := begun s c
    let m := dbits (pktDw c.pkt 3) 7 0
    Ready 0x60 0 s c → Room s c → dbits (pktDw c.pkt 2) 2 0 = 0 → sectorsAbsent m = false → pktOnly c.pkt [(2, 7), (3, 0x3FF)] = true → m ≠ 0 →
    (∀ k, k ∈ maskSectors m → (sectorOf s1 k).state ≠ .sleep) → powerBusy s1 m = false → s1.power.sectors.length = 8 →
    ∃ t, exec (.powerSetOperatingPoint c) s = .next (if (maskSectors m).all (atTarget t) then finishTaken t c stOK (heldSlower t m) [] else pendTaken t c (.powerOp m)) ∧
      (∀ k, k ∈ maskSectors m → (sectorOf t k).requested = dbits (pktDw c.pkt 3) 9 8) ∧
      (∀ k, k ∉ maskSectors m → sectorOf t k = sectorOf s1 k)) ∧
  (∀ (s : State) (c : HostCmd),
    let s1 := begun s c
    let v := dbits (pktDw c.pkt 3) 9 0
    Ready 0x60 1 s c → pktOnly c.pkt [(2, 7), (3, 0x3FF)] = true → 100 ≤ v → v ≤ 560 →
    exec (.powerSetCap c) s = .next (finishTaken { s1 with power := { s1.power with cap := v } } c stOK 0 [])) ∧
  (∀ (s : State) (c : HostCmd),
    let s1 := begun s c
    let t := dbits (pktDw c.pkt 3) 7 0
    let h := dbits (pktDw c.pkt 3) 11 8
    Ready 0x60 2 s c → pktOnly c.pkt [(2, 7), (3, 0xFFF)] = true → 70 ≤ t → t ≤ 105 → 2 ≤ h →
    exec (.powerSetThermal c) s = .next (finishTaken { s1 with power := { s1.power with threshold := t, hysteresis := h } } c stOK 0 [])) ∧
  (∀ (s : State) (c : HostCmd),
    let s1 := begun s c
    let m := dbits (pktDw c.pkt 3) 7 0
    sectorsAbsent m = false → pktOnly c.pkt [(2, 7), (3, 0xFF)] = true → m ≠ 0 → powerBusy s1 m = false → s1.power.sectors.length = 8 →
    (Ready 0x60 3 s c → (maskSectors m).any (hoistUses s1) = false → (∀ k, k ∈ maskSectors m → (sectorOf s1 k).state = .active) →
      ∃ t, exec (.powerSetSleep c) s = .next (finishTaken t c stOK 0 []) ∧ ∀ k, k ∈ maskSectors m → (sectorOf t k).state = .sleep) ∧
    (Ready 0x60 4 s c → Room s c → (∀ k, k ∈ maskSectors m → (sectorOf s1 k).state = .sleep) →
      ∃ t, exec (.powerSetWake c) s = .next (pendTaken t c (.powerWake m)) ∧
        ∀ k, k ∈ maskSectors m → (sectorOf t k).state = .waking ∧ (sectorOf t k).groups = 0)) ∧
  (∀ (s : State) (c : HostCmd),
    let s1 := begun s c
    Ready 0x60 5 s c → pktOnly c.pkt [(2, 7)] = true →
    exec (.powerSetReset c) s = .next (finishTaken (askReset s1) c stOK 0 [])) ∧
  (∀ (s : State) (T : Nat), s.mgmt.resetDue = some T → reaches s T = true → s.hif.heldCompletions.any (fun c => asksReset c T) = false →
    ∃ t, exec .delayedDeviceReset s = .next t ∧ t.now = max s.now T ∧ t.hif.fwStage = 0 ∧ t.hif.rings = State.reset.hif.rings ∧ t.hif.pendings = [] ∧
      t.mgmt.resetDue = none ∧ t.sec.life = s.sec.life ∧ t.sec.floor = s.sec.floor ∧ t.power.powerGood = s.power.powerGood)

/-- The input starts the part from 0, a stage fault takes the rails down, the staged start ends phase by phase, and PERST# resets the device. The first rise of the input, and the restart of a stage that has shut down and whose condition for it counts, power the part on with every rail in regulation, PWRGD released, FAULT# not low, the halyard at 0 and no phase ended; a restart is counted. A measurement beyond a fault limit shuts the stage down: every rail is off, the halyard stops, PWRGD is no longer released and FAULT# is low. Below 36 V the limits are the defaults and the bus is silent; above it the bus answers. Each phase of the staged start ends when what it waits for is done: phase 1 starts the courier package that passes, phase 6 the committed main package. PERST# asserted resets the device and holds the link; deasserted, the link trains. A warn limit is noted as it is crossed and as it is left, and a lost reference clock is held over. Commands stated here to complete, each under the conditions of its clause: vinRise, powerStageFault, powerStageRestart, vinBelow36V, pmbusWarnCrossing, refClockLoss, refClockRestore, stagedStartPhaseEnd, perstAssert, perstDeassert, vinAbove36V. (R376, R377, R378, R379, R382, R388, R390, R399, R455, R456) -/
def Obligations.SuppliesStartAndStopThePart : Prop :=
  (∀ s : State, s.power.powerGood = false →
    (s.power.shutdown = none → ∃ t, exec .vinRise s = .next t ∧ t.now = 0 ∧ t.power.powerGood = true ∧ pwrgdReleased t = true ∧ faultLow t = false ∧ t.power.rails = fittedRails ∧ t.power.phasesEnded = 0 ∧ t.hif.fwStage = 0 ∧
      t.sec.floor = s.sec.floor) ∧
    (restartAt s ≠ none → ∃ t, exec .powerStageRestart s = .next t ∧ t.now = 0 ∧ t.power.powerGood = true ∧ t.power.rails = fittedRails ∧ t.power.phasesEnded = 0 ∧
      t.power.shutdown = none ∧ t.power.pmbus.restarts = sat 0xFFFF (s.power.pmbus.restarts + 1))) ∧
  (∀ (s : State) (f : StageFault) (m : Telemetry), s.power.powerGood = true → stageBeyond s m f = true →
    ∃ t, exec (.powerStageFault f m) s = .next t ∧ t.now = s.now ∧ t.power.powerGood = false ∧ t.power.rails = [] ∧ t.power.shutdown = some f ∧
      t.hal.stopped = true ∧ t.hif.fwStage = 0 ∧ t.hif.linkUp = false ∧ t.pins.faultLatched = true ∧ faultLow t = true ∧ pwrgdReleased t = false ∧ t.power.vin = m.vin) ∧
  (∀ s : State,
    (∃ t, exec .vinBelow36V s = .next t ∧ t.power.pmbus.up = false ∧ t.power.pmbus.otFault = Config.limitDefault 0x4F ∧
      t.power.pmbus.vinUvFault = Config.limitDefault 0x59 ∧ t.power.pmbus.restarts = s.power.pmbus.restarts ∧ t.power.powerGood = s.power.powerGood) ∧
    (∀ n, s.power.pmbus.up = false → exec (.vinAbove36V n) s = .next (setPmbus s
      { s.power.pmbus with up := true, addr := BitVec.ofNat 7 (0x40 + n % 8), reply := none, nack := false })) ∧
    (s.power.holdover = false → exec .refClockLoss s = .next (fault { s with power := { s.power with holdover := true } } 0x0D20 2 noSite 0 0)) ∧
    (s.power.holdover = true → exec .refClockRestore s = .next (fault { s with power := { s.power with holdover := false } } 0x0D21 0 noSite 0 0))) ∧
  (∀ s : State, s.power.powerGood = true →
    (s.power.phasesEnded = 0 → exec (.stagedStartPhaseEnd [] []) s = .next (releasePcie (endPhase s))) ∧
    (s.power.phasesEnded = 1 → s.sec.life ≠ .scrapped → pkgPasses s.sec 0 s.sec.courier0 = true →
      ∃ t, exec (.stagedStartPhaseEnd [] []) s = .next t ∧ t.hif.fwStage = 1 ∧ t.sec.courierRunning = s.sec.courier0 ∧ t.power.phasesEnded = 2) ∧
    (s.power.phasesEnded = 2 → (s.power.sectors.take Config.sectors).all (fun k => k.state == .active) = true →
      exec (.stagedStartPhaseEnd [] []) s = .next (endPhase s)) ∧
    ((s.power.phasesEnded = 3 ∨ s.power.phasesEnded = 4 ∨ s.power.phasesEnded = 5) → exec (.stagedStartPhaseEnd [] []) s = .next (endPhase s)) ∧
    (s.power.phasesEnded = 6 → pkgPasses s.sec 1 (if s.sec.committedB then s.sec.slotB else s.sec.slotA) = true →
      ∃ t, exec (.stagedStartPhaseEnd [] []) s = .next t ∧ t.hif.fwStage = 2 ∧ t.sec.running = (if s.sec.committedB then s.sec.slotB else s.sec.slotA) ∧
        t.power.phasesEnded = 7)) ∧
  (∀ s : State, s.power.powerGood = true →
    (s.pins.perst = false → ∃ t, exec .perstAssert s = .next t ∧ t.pins.perst = true ∧ t.hif.fwStage = 0 ∧ t.hif.linkUp = false ∧ t.hif.pcieHeld = true ∧
      t.now = s.now ∧ t.power.phasesEnded = min 1 s.power.phasesEnded) ∧
    (s.pins.perst = true → 1 ≤ s.power.phasesEnded → ∃ t, exec .perstDeassert s = .next t ∧ t.pins = { s.pins with perst := false } ∧ t.hif.linkUp = true ∧
      t.hif.pcieHeld = false)) ∧
  (∀ (s : State) (l : WarnLimit) (b : Bool) (m : Telemetry), s.power.pmbus.up = true → warns s.power.pmbus m l = b → s.power.pmbus.crossed.contains l = !b →
    ∃ t, exec (.pmbusWarnCrossing l b m) s = .next t ∧ t.power.pmbus.crossed.contains l = b ∧ t.power.vin = m.vin ∧
      (b = true → (t.power.pmbus.statusInput ≠ 0 ∨ t.power.pmbus.statusTemperature ≠ 0)))

/-- A sector wakes group by group, its divider changes at a multiple of 15, and heat, the cap and its neighbours move its floor. A sector wakes a group each 13,000 fc, the first of the next sector 260,000 fc after that of the one before it, and is ACTIVE behind its eleventh. At the first multiple of 15 behind the decision the divider that was decided on is in use. A raising sector whose VDD has slewed and settled has its switch to its target decided; a lowering one is STEADY. A sample sets the sector's temperature and the peak since the last read; two hot samples in a row step an ACTIVE sector's floor slower. An average above the cap steps the fastest ACTIVE sectors slower, once in 1 ms; a difference of more than 30 °C for 1 ms steps the hotter sector, unless its floor moved less than 1 ms ago. Commands stated here to complete, each under the conditions of its clause: sectorWakeGroup, dividerSwitchPoint, vddSlewDone, thermalSample, powerCapAverage, neighbourDiffExpiry. (R383, R384, R387, R389, R391, R392, R393, R400) -/
def Obligations.SectorsWakeAndChangeSpeed : Prop :=
  (∀ (s : State) (k : Nat), s.power.sectors.length = 8 → k < 8 → k < Config.sectors →
    ((sectorOf s k).state = .off → s.power.phasesEnded = 2 → (s.power.sectors.take k).all (fun y => y.state == .active) = true →
      reaches s (s.power.wakeFrom + 260000 * k) = true →
      ∃ t, exec (.sectorWakeGroup k) s = .next t ∧ t.now = max s.now (s.power.wakeFrom + 260000 * k) ∧
        sectorOf t k = { sectorOf s k with state := .waking, groups := 1, wokeAt := s.power.wakeFrom + 260000 * k } ∧
        ∀ j, j ≠ k → sectorOf t j = sectorOf s j) ∧
    ((sectorOf s k).state = .waking → reaches s ((sectorOf s k).wokeAt + 13000 * (sectorOf s k).groups) = true →
      ((sectorOf s k).groups + 1 < wakeGroups → ∃ t, exec (.sectorWakeGroup k) s = .next t ∧
        t.now = max s.now ((sectorOf s k).wokeAt + 13000 * (sectorOf s k).groups) ∧
        sectorOf t k = { sectorOf s k with groups := (sectorOf s k).groups + 1 } ∧ ∀ j, j ≠ k → sectorOf t j = sectorOf s j) ∧
      (wakeGroups ≤ (sectorOf s k).groups + 1 → ∃ t, exec (.sectorWakeGroup k) s = .next (powerPends t) ∧ (sectorOf t k).state = .active ∧
        t.now = max s.now ((sectorOf s k).wokeAt + 13000 * (sectorOf s k).groups)))) ∧
  (∀ (s : State) (k d : Nat), s.power.sectors.length = 8 → k < 8 → (sectorOf s k).switchTo = some d → reaches s (((sectorOf s k).decidedAt / 15 + 1) * 15) = true →
    ∃ t, exec (.dividerSwitchPoint k) s = .next (powerPends t) ∧ (sectorOf t k).actual = d ∧ (sectorOf t k).cause = (sectorOf s k).nextCause ∧
      t.now = max s.now (((sectorOf s k).decidedAt / 15 + 1) * 15)) ∧
  (∀ (s : State) (k : Nat), s.power.sectors.length = 8 → k < 8 →
    ((sectorOf s k).op = .raising → reaches s (slewDone (sectorOf s k)) = true → exec (.vddSlewDone k) s = .next (setSector (advance s (slewDone (sectorOf s k))) k
      { sectorOf s k with op := .steady, switchTo := some (targetOf (sectorOf s k)), decidedAt := slewDone (sectorOf s k) })) ∧
    ((sectorOf s k).op = .lowering → reaches s (slewDone (sectorOf s k)) = true → (sectorOf s k).switchTo = none → targetOf (sectorOf s k) = (sectorOf s k).actual →
      ∃ t, exec (.vddSlewDone k) s = .next (powerPends t) ∧ (sectorOf t k).op = .steady ∧ (sectorOf t k).actual = (sectorOf s k).actual)) ∧
  (∀ (s : State) (k : Nat) (v : Int) (l : List Int), s.power.sectors.length = 8 → k < 8 → k < Config.sectors →
    ∃ t, exec (.thermalSample k (v :: l)) s = .next t ∧ (sectorOf t k).temp = some (hottest (v :: l)) ∧
      (sectorOf t k).peak = some (peakOf (sectorOf s k) (hottest (v :: l))) ∧ t.power.sampledAt = s.now ∧
      ((sectorOf s k).state = .active → (s.power.threshold : Int) * 16 ≤ hottest (v :: l) → 1 ≤ (sectorOf s k).hotSamples → sectorFloor (sectorOf s k) < 3 →
        mayStep (sectorOf s k).floorMovedAt s.now = true → (sectorOf t k).floorThermal = sectorFloor (sectorOf s k) + 1)) ∧
  (∀ (s : State) (w : Nat), 16 * s.power.cap < w →
    ∃ t, exec (.powerCapAverage w) s = .next t ∧ t.power.pin = w ∧ t.power.capCoolSince = none ∧
      (mayStep s.power.capMovedAt s.now = true → t.power.capMovedAt = some s.now) ∧
      (mayStep s.power.capMovedAt s.now = false → t.power.sectors = s.power.sectors)) ∧
  (∀ (s : State) (h c T : Nat), s.power.sectors.length = 8 → h < 8 → amGet s.power.neighbours (h, c) = some T → reaches s (T + oneMs) = true →
    ∃ t, exec (.neighbourDiffExpiry h c) s = .next t ∧ t.now = max s.now (T + oneMs) ∧
      ((sectorOf s h).state = .active → sectorFloor (sectorOf s h) < 3 → mayStep (sectorOf s h).floorMovedAt (max s.now (T + oneMs)) = true →
        (sectorOf t h).floorNeighbour = sectorFloor (sectorOf s h) + 1))

/-- A register write acts as its register says or not at all, an access that is not one aligned dword does nothing, and LO and RC reads latch and clear. A write to a read-only or unassigned offset, or to one that is no multiple of 4, leaves everything as it was; a write to a doorbell, to the event controller's acknowledgement, to the maintenance registers and to a counter page's control register is the command of that name; EVT_SRC_CFG_n takes its three fields, and source 0x13 stays fast. A malformed write does nothing, a malformed read returns bytes of 0xFF. A read of HAL_TIME_LO returns the low half of the halyard and latches the high half, which HAL_TIME_HI then reads; a read of EVT_LOG_LOST returns the count and clears it, as that register has no other read; updates of the read's own fc stand behind it. Commands stated here to complete, each under the conditions of its clause: hifDbSqTail, hifDbCqHead, registerWrite, malformedRegisterAccess, latchedLoRead, rcRead, evtPendAck, evtIdleArm, evtLogHead, evtVecMod, halProofCtrl, memMaintCtrl, cntPageRun. (R14, R35, R336, R361, R375, R447, R448, R496, R498, R505, R506) -/
def Obligations.RegisterAccessesAct : Prop :=
  (∀ (s : State) (off : Nat) (v : Dword),
    (∀ bar, off % 4 ≠ 0 → exec (.registerWrite bar off v) s = .next s) ∧
    ((off < 0x10000 ∨ 0x264000 ≤ off) → exec (.registerWrite 0 off v) s = .next s)) ∧
  (∀ (s : State) (v : Dword) (r g : Nat),
    exec (.registerWrite 0 0x20000 v) s = exec (.evtPendAck false false v) s ∧ exec (.registerWrite 0 0x2000C v) s = exec (.evtPendAck true true v) s ∧
    exec (.registerWrite 0 0x20010 v) s = exec (.evtIdleArm false v) s ∧ exec (.registerWrite 0 0x2004C v) s = exec (.evtLogHead false v) s ∧
    exec (.registerWrite 0 0x30300 v) s = exec (.halProofCtrl v) s ∧ exec (.registerWrite 0 0xC0010 v) s = exec (.memMaintCtrl v) s ∧
    (r < 16 → exec (.registerWrite 2 (0x1000 * r) v) s = exec (.hifDbSqTail r v) s ∧ exec (.registerWrite 2 (0x1000 * r + 4) v) s = exec (.hifDbCqHead r v) s) ∧
    (r < 64 → exec (.registerWrite 0 (0x20300 + 4 * r) v) s = exec (.evtVecMod r v) s) ∧
    (g < 100 → exec (.registerWrite 0 (0x200000 + 0x1000 * g) v) s = exec (.cntPageRun false g v) s ∧
      exec (.registerWrite 2 (0x800000 + 0x1000 * g) v) s = exec (.cntPageRun true g v) s)) ∧
  (∀ (s : State) (n : Nat) (v : Dword) (c : EvtSource), n < 64 → sourceAbsent n = false → s.evt.sources[n]? = some c →
    ∃ t, exec (.registerWrite 0 (0x20100 + 4 * n) v) s = .next t ∧
      t.evt.sources[n]? = some { c with vector := dbits v 5 0, fast := n == 0x13 || dbit v 8, irqEnable := dbit v 9 } ∧
      ∀ m, m ≠ n → t.evt.sources[m]? = s.evt.sources[m]?) ∧
  (∀ (s : State) (bar off size : Nat), (size ≠ 4 ∨ off % 4 ≠ 0) →
    (∀ v, exec (.malformedRegisterAccess bar off size (some v)) s = .next s) ∧
    exec (.malformedRegisterAccess bar off size none) s = .next (readBack s (2 ^ (8 * size) - 1) size)) ∧
  (∀ s : State,
    (∃ t, exec (.latchedLoRead 0 0x30000) s = .next t ∧ t.hif.readData = (lo32 s.now).toNat ∧ t.hif.readSize = 4 ∧ readReg t 0 0x30004 = hi32 s.now) ∧
    (rcBefore s 0x20054 = none →
      ∃ t, exec (.rcRead 0 0x20054) s = .next t ∧ t.hif.readData = (dw s.evt.normal.lost).toNat ∧ t.evt = { s.evt with normal := { s.evt.normal with lost := 0 } }) ∧
    (∀ w, rcBefore s 0x20054 = some w →
      ∃ t, exec (.rcRead 0 0x20054) s = .next t ∧ t.hif.readData = (dw w).toNat ∧ t.evt.normal.lost = s.evt.normal.lost - w) ∧
    exec (.latchedLoRead 0 0x20054) s = exec (.rcRead 0 0x20054) s)

/-- Acknowledgement clears the pending bit and the count of the bank's sources, a log is enabled from 0, and a vector's condition met sends at most one message. A write of 1 to the bit of a source that is pending in the bank clears its pending bit and its count, but for firings of the same fc, which stand as new ones, and every other source is as before. Arming vectors on which nothing was counted in the same fc arms those with no normal source pending since before that fc; one with such a source sends at once and is not armed; a vector not named stays as it was. Enabling a disabled log with a size from 6 sets both pointers to 0; disabling keeps them; the head moves forward up to the tail and no further. When a vector's timer is over its count and timer are cleared, and a message goes out, behind the record that it waits for, only if a normal source that fired on it is pending. A held record goes to the log when there is room, is held no longer, and the messages that waited for it follow. Commands stated here to complete, each under the conditions of its clause: evtPendAck, evtIdleArm, evtLogEnable, evtLogDisable, evtLogHead, evtVecMod, moderationTimerExpiry, heldRecordWrite. (R366, R367, R369, R370, R371, R375, R506) -/
def Obligations.TheEventControllerAcknowledgesModeratesAndLogs : Prop :=
  (∀ (s : State) (fast hi : Bool) (v : Dword),
    let base := if hi then 32 else 0
    ∃ t, exec (.evtPendAck fast hi v) s = .next t ∧
      ((fast = false ∨ ∀ c, c ∈ s.evt.sources → firedNow s true c = 0) → t = { s with evt := { s.evt with sources := t.evt.sources } }) ∧
      ∀ n c, s.evt.sources[n]? = some c →
        (base ≤ n → n < base + 32 → dbit v (n - base) = true →
          (fast = false → c.pending = true → t.evt.sources[n]? = some { c with pending := firedNow s false c != 0, count := sat 255 (firedNow s false c), stoodBefore := false }) ∧
          (fast = true → c.fastPending = true → t.evt.sources[n]? = some { c with fastPending := firedNow s true c != 0, count := sat 255 (firedNow s true c), stoodBefore := false }) ∧
          ((if fast then c.fastPending else c.pending) = false → t.evt.sources[n]? = some c)) ∧
        ((n < base ∨ base + 32 ≤ n ∨ dbit v (n - base) = false) → t.evt.sources[n]? = some c)) ∧
  (∀ (s : State) (hi : Bool) (v : Dword), s.evt.vectors.length = 64 →
    ∃ t, exec (.evtIdleArm hi v) s = .next t ∧ t.evt.sources = s.evt.sources ∧ ∀ k, k < 32 →
      let n := (if hi then 32 else 0) + k
      (dbit v k = false → vectorOf t n = vectorOf s n) ∧
      (dbit v k = true → ((vectorOf s n).firedAt ≠ s.now ∨ (vectorOf s n).firedIn = 0) → (vectorOf t n).idleArmed = !stoodPending s n)) ∧
  (∀ (s : State) (hi : Bool) (k : Nat), k < 32 →
    let n := (if hi then 32 else 0) + k
    ((vectorOf s n).firedAt ≠ s.now ∨ (vectorOf s n).firedIn = 0) →
    (stoodPending s n = false → exec (.evtIdleArm hi (BitVec.ofNat 32 (2 ^ k))) s = .next (setVector s n { vectorOf s n with idleArmed := true })) ∧
    (stoodPending s n = true → exec (.evtIdleArm hi (BitVec.ofNat 32 (2 ^ k))) s =
      .next (sendMessage (setVector s n { vectorOf s n with idleArmed := false, count := 0, timerFrom := none, waits := none }) n))) ∧
  (∀ (s : State) (fast : Bool) (v : Dword),
    let l := logOf s fast
    let h := v.toNat % 2 ^ (l.sizeLog2 + 1)
    (l.enabled = false → dbit v 0 = true → 6 ≤ dbits v 11 8 → exec (.evtLogEnable fast v) s = .next (setLog s fast
      { l with sizeLog2 := dbits v 11 8, enabled := true, head := 0, tail := 0 })) ∧
    (l.enabled = false → dbit v 0 = true → dbits v 11 8 < 6 → ∃ t, exec (.evtLogEnable fast v) s = .next t ∧ (logOf t fast).enabled = false) ∧
    (l.enabled = true → dbit v 0 = false → exec (.evtLogDisable fast v) s = .next (setLog s fast { l with enabled := false })) ∧
    (l.enabled = true → ptrCount (l.sizeLog2 + 1) l.head h ≤ ptrCount (l.sizeLog2 + 1) l.head l.tail →
      exec (.evtLogHead fast v) s = .next (setLog s fast { l with head := h })) ∧
    ((l.enabled = false ∨ ptrCount (l.sizeLog2 + 1) l.head l.tail < ptrCount (l.sizeLog2 + 1) l.head h) → exec (.evtLogHead fast v) s = .next s)) ∧
  (∀ (s : State) (n : Nat) (v : Dword), n < 64 → s.evt.vectors.length = 64 → (vectorOf s n).count = 0 → (vectorOf s n).timerFrom = none →
    exec (.evtVecMod n v) s = .next (setVector s n { vectorOf s n with countThr := dbits v 7 0, time := dbits v 23 8 })) ∧
  (∀ (s : State) (n f : Nat), n < 64 → s.evt.vectors.length = 64 → (vectorOf s n).timerFrom = some f → (vectorOf s n).time ≠ 0 → reaches s (f + (vectorOf s n).time * Config.us) = true →
    let s1 := advance s (f + (vectorOf s n).time * Config.us)
    let s2 := setVector s1 n { vectorOf s n with count := 0, timerFrom := none, waits := none }
    exec (.moderationTimerExpiry n) s = .next (if normalPending s n then sendBehind s2 n (vectorOf s n).waits else s2)) ∧
  (∀ (s : State) (fast : Bool) (r : LogRecord), (logOf s fast).held = [r] → (logOf s fast).gapLost = 0 → logRoom s (logOf s fast) r = true →
    let w := logWrite { logOf s fast with held := [] } r
    exec (.heldRecordWrite fast) s = .next (messagesDue (emitWrites (setLog s fast w.2) w.1) (fast, r.seq)))

/-- A frame comes in as FRAME_START, lines and FRAME_END, each checked, an error ends its reception, and its beats go into the fabric. On a stream whose lanes are in: a FRAME_START that agrees with the context opens the next frame ID, behind its open tack line unless it is a courier frame; a LINE_START of the next index opens the line; a data block adds its bytes and the entries that they fill; a LINE_END whose length, index and CRC hold releases the line's entries; a FRAME_END whose CRC and count hold ends the reception. An IDLE stripe changes nothing, and each break of these, a stripe that is not whole and a control block of no listed type end the reception. A lane that loses its lock is marked, and ends the frame being received on it; regained, it is marked so. With credit the head of the buffer goes into the fabric, from the first fc in which the buffer gives it. A block that finds no room in the buffer ends the reception. Commands stated here to complete, each under the conditions of its clause: frameStartReceive, lineStartReceive, dataBlockReceive, lineEndReceive, frameEndReceive, idleStripeReceive, laneLockLoss, laneLockRegain, ingressBeatSend. (R28, R309, R311, R312, R313, R314, R315, R316, R317, R323) -/
def Obligations.TheIngressTakesFramesBlockByBlock : Prop :=
  (∀ (s : State) (st : Nat) (w : BitVec 64), s.streams.length = 32 → st < 32 → streamReceives s st = true →
    let x := streamOf s st
    exec (.idleStripeReceive ⟨st, true⟩) s = .next s ∧
    (receiving s st ≠ none → ∃ t, exec (.idleStripeReceive ⟨st, false⟩) s = .next t ∧ (streamOf t st).reception = none) ∧
    (w.toNat % 256 = 0x78 → x.modePending = none → x.reception = none → x.state ≠ .closing →
      (startAgrees x w.toNat = true → (x.state = .courier ∨ bufferFull (max s.now x.nextWrite) x = false) →
        ∃ t, exec (.frameStartReceive st ⟨w, true⟩) s = .next t ∧ (streamOf t st).nextId = frameSucc x.nextId ∧ (streamOf t st).reception = some { frame := x.nextId } ∧
          (streamOf t st).frames.map (·.id) = x.frames.map (·.id) ++ [x.nextId] ∧
          (streamOf t st).buffer.map (fun e => (e.frame, e.released)) = x.buffer.map (fun e => (e.frame, e.released)) ++ (if x.state = .courier then [] else [(x.nextId, true)])) ∧
      (startAgrees x w.toNat = true → x.state ≠ .courier → bufferFull (max s.now x.nextWrite) x = true →
        ∃ t, exec (.frameStartReceive st ⟨w, true⟩) s = .next t ∧ (streamOf t st).nextId = frameSucc x.nextId ∧ (streamOf t st).reception = none) ∧
      (∀ whole : Bool, startAgrees x w.toNat = false ∨ whole = false →
        ∃ t, exec (.frameStartReceive st ⟨w, whole⟩) s = .next t ∧ (streamOf t st).nextId = frameSucc x.nextId ∧ (streamOf t st).reception = none)) ∧
    (∀ r f, receiving s st = some (r, f) →
      (w.toNat % 256 = 0x2D → r.lineOpen = false → nbits w.toNat 31 8 = r.line → r.line < frameLines x →
        exec (.lineStartReceive st w) s = .next (setReception s st { r with lineOpen := true, lineBytes := [], lineEntries := 0, lineCrc := 0xFFFFFFFF })) ∧
      (w.toNat % 256 = 0x2D → (r.lineOpen = true ∨ nbits w.toNat 31 8 ≠ r.line ∨ frameLines x ≤ r.line) →
        ∃ t, exec (.lineStartReceive st w) s = .next t ∧ (streamOf t st).reception = none) ∧
      (let got := leBytes 8 w.toNat
       let n := entriesAt x f.courier (r.lineBytes ++ got).length
       let new := (List.range' r.lineEntries (n - r.lineEntries)).map (lineEntry x st f r.line (r.lineBytes ++ got))
       r.lineOpen = true → (r.lineBytes ++ got).length ≤ roundUp (lineLength x) 8 → (writeEntries s.now new x = none → ∃ t, exec (.dataBlockReceive st w) s = .next t ∧ (streamOf t st).reception = none) ∧
        (∀ y, writeEntries s.now new x = some y → ∃ t, exec (.dataBlockReceive st w) s = .next t ∧ (streamOf t st).buffer = y.buffer ∧
          y.buffer.map (fun e => (e.frame, e.line, e.beat, e.payload, e.released)) = (x.buffer ++ new).map (fun e => (e.frame, e.line, e.beat, e.payload, e.released)) ∧
          (streamOf t st).reception = some { r with lineBytes := r.lineBytes ++ got, lineEntries := n, lineCrc := crc32Bytes r.lineCrc got, frameCrc := crc32Bytes r.frameCrc got })) ∧
      (blockTypes.contains (w.toNat % 256) = false → ∃ t, exec (.lineStartReceive st w) s = .next t ∧ (streamOf t st).reception = none) ∧
      (r.lineOpen = false → ∃ t, exec (.dataBlockReceive st w) s = .next t ∧ (streamOf t st).reception = none) ∧
      (w.toNat % 256 = 0x4B → r.lineOpen = true → r.lineBytes.length = roundUp (lineLength x) 8 → nbits w.toNat 55 40 = r.line % 2 ^ 16 →
        nbits w.toNat 39 8 = crcField r.lineCrc →
        ∃ t, exec (.lineEndReceive st w) s = .next t ∧ (streamOf t st).reception = some { r with lineOpen := false, line := r.line + 1, lineBytes := [], lineEntries := 0 } ∧
          ∀ e, e ∈ (streamOf t st).buffer → e.frame = r.frame → e.line = r.line → e.released = true) ∧
      (w.toNat % 256 = 0x4B → nbits w.toNat 39 8 ≠ crcField r.lineCrc → ∃ t, exec (.lineEndReceive st w) s = .next t ∧ (streamOf t st).reception = none) ∧
      (w.toNat % 256 = 0x87 → w.toNat.testBit 60 = false → r.lineOpen = false → r.line = frameLines x → nbits w.toNat 39 8 = crcField r.frameCrc →
        nbits w.toNat 59 40 + 1 = r.line →
        ∃ t, exec (.frameEndReceive st w) s = .next t ∧ (streamOf t st).reception = none ∧
          ∀ g, frameOf (streamOf t st) r.frame = some g → g.receiving = false) ∧
      (w.toNat % 256 = 0x87 → w.toNat.testBit 60 = true → ∃ t, exec (.frameEndReceive st w) s = .next t ∧ (streamOf t st).reception = none))) ∧
  (∀ (s : State) (lane : Nat), lane < Config.streams →
    exec (.laneLockRegain lane) s = .next { s with lanes := { lock := s.lanes.lock.set lane true, hiBer := s.lanes.hiBer.set lane false } } ∧
    (laneStream s lane = none →
      exec (.laneLockLoss lane .blockLock) s = .next { s with lanes := { s.lanes with lock := s.lanes.lock.set lane false } } ∧
      exec (.laneLockLoss lane .highBer) s = .next { s with lanes := { s.lanes with hiBer := s.lanes.hiBer.set lane true } } ∧
      exec (.laneLockLoss lane .skew) s = .next s) ∧
    (∀ st k, laneStream s lane = some st → s.streams.length = 32 → receiving s st ≠ none →
      ∃ t, exec (.laneLockLoss lane k) s = .next t ∧ (streamOf t st).reception = none)) ∧
  (∀ (s : State) (st : Nat) (x : BufEntry) (b : Beat), s.streams.length = 32 → st < Config.streams → st < 32 → (streamOf s st).proofHold = false →
    let s1 := advance s (readFrom (streamOf s st))
    reaches s (readFrom (streamOf s st)) = true → outQ s (ingressEnd st) = [] → maySend s1 (ingressEnd st) = true → ingressReady s st ≠ none →
    ingressReady s1 st = some (x, b) →
    ∃ t, exec (.ingressBeatSend st) s = .next t ∧ t.now = max s.now (readFrom (streamOf s st)) ∧ (streamOf t st).buffer = (streamOf s st).buffer.drop 1 ∧ (outQ t (ingressEnd st)).map (·.beat) = [b])

/-- The egress sends a frame's FRAME_START, header, result lines or courier lines and FRAME_END, and the host record its beats and its seal. When the next frame may begin, its FRAME_START stripe and header line go out and it is the record being sent. A counted beat at the head of the results' input goes out as its part of a line; a courier frame's whole line goes out, and its FRAME_END once all of it has been received and sent. The first beat of a host record takes the next slot; each beat stands in the slot behind the header, and the seal writes the header and then the buffer's sequence number, and ends the record. Commands stated here to complete, each under the conditions of its clause: hostRecordWrite, hostSlotSeal, egressFrameStart, egressResultBeat, courierFrameForward. (R247, R248, R249, R318, R319, R320, R321) -/
def Obligations.ResultsLeaveByTheirPaths : Prop :=
  (∀ (s : State) (st : Nat) (f : Frame),
    let s1 := if fabricRuns s && !(streamOf s st).headSeen then (resultHead s st 0).1 else s
    s1.streams.length = 32 → st < Config.streams → st < 32 → s1.hal.stopped = false → (streamOf s1 st).egress = none →
    egressNext s1 st = some f → egressMayBegin s1 st f = true →
    ∃ t, exec (.egressFrameStart st) s = .next t ∧ (streamOf t st).egress.map (fun e => (e.frame, e.line, e.rowOpen)) = some (f.id, 1, false) ∧
      .egressBlock st true (BitVec.ofNat 64 (if f.courier then f.start.toNat else resultStart f.id)) ∈ t.out) ∧
  (∀ (s s1 : State) (st : Nat) (b : Beat) (r : ResRec) (e : EgressRec), s1.streams.length = 32 → st < 32 → resultsMove s st = true →
    resultHead s st 0 = (s1, some (b, r)) → (streamOf s1 st).egress = some e → e.frame = r.frame →
    (r.ended = false → exec (.egressResultBeat st) s = .next (resultTaken (egressSend s1 st e (leBytes 64 b.data.toNat) (bLast b)) st 0)) ∧
    (r.ended = true → ∃ t, exec (.egressResultBeat st) s = .next t ∧ (streamOf t st).egress = none)) ∧
  (∀ (s : State) (st : Nat) (f : Frame) (e : EgressRec), s.streams.length = 32 → st < Config.streams → st < 32 → s.hal.stopped = false →
    egressNext s st = some f → f.courier = true → (streamOf s st).egress = some e → e.frame = f.id →
    (∀ l bytes rest, f.receiving = true → courierLine (streamOf s st).buffer f.id = some (l, bytes, rest) → courierLine rest f.id = none →
      exec (.courierFrameForward st) s = .next (egressSend (modStream s st (fun c => readEntries s.now c (c.buffer.length - rest.length) rest)) st e bytes true)) ∧
    (f.receiving = false → (streamOf s st).buffer.any (fun x => x.frame == f.id) = false →
      ∃ t, exec (.courierFrameForward st) s = .next t ∧ (streamOf t st).egress = none ∧
        .egressBlock st true (BitVec.ofNat 64 (frameEndWord e.frameCrc e.line false)) ∈ t.out)) ∧
  (∀ (s s1 : State) (st : Nat) (b : Beat) (r : ResRec) (buf : DescBuf), s1.streams.length = 32 → st < 32 → resultsMove s st = true →
    resultHead s st 1 = (s1, some (b, r)) → (streamOf s1 st).desc.buf = some buf → hostUp s1 = true →
    (∀ x, (streamOf s1 st).desc.record = some x → x.ended = false → x.failed = false → 64 + x.written + 64 ≤ 2 ^ buf.slotLog2 →
      exec (.hostRecordWrite st) s = .next (resultTaken
        (setDesc (emitWrites s1 [(slotAddr buf x.slot + 64 + x.written, leBytes 64 b.data.toNat)]) st
          { (streamOf s1 st).desc with record := some { x with written := x.written + 64, lastWrite := s1.now, ended := r.ended } }) st 1)) ∧
    ((streamOf s1 st).desc.record = none → (frameOf (streamOf s1 st) r.frame).any (·.hostDone) = false → slotFree (streamOf s1 st).desc = some buf →
      128 ≤ 2 ^ buf.slotLog2 →
      ∃ t, exec (.hostRecordWrite st) s = .next t ∧ (streamOf t st).desc.nextSlot = (streamOf s1 st).desc.nextSlot + 1 ∧
        (streamOf t st).desc.record =
          some { frame := r.frame, arrival := r.arrival, slot := (streamOf s1 st).desc.nextSlot, written := 64, lastWrite := s1.now, ended := r.ended } ∧
        .hostWrite (slotAddr buf (streamOf s1 st).desc.nextSlot + 64) (leBytes 64 b.data.toNat) ∈ t.out)) ∧
  (∀ (s : State) (st : Nat) (x : HostRec) (buf : DescBuf), s.streams.length = 32 → st < Config.streams → st < 32 → (streamOf s st).desc.record = some x →
    x.ended = true → x.failed = false → hostUp s = true → (streamOf s st).desc.buf = some buf →
    ∃ t, exec (.hostSlotSeal st) s = .next t ∧ (streamOf t st).desc.record = none ∧
      .hostWrite (slotAddr buf x.slot) (slotHeader st x (if x.truncated then 2 else 0) 0 x.lastWrite) ∈ t.out ∧
      .hostWrite (slotAddr buf x.slot + 60) (leBytes 4 (streamOf s st).desc.seq) ∈ t.out)

/-- Every PMBus command reads, writes, clamps or is refused as R379 says, and every boundary-scan instruction selects its register and takes the pins or leaves them. While the input is above 36 V, a limit is read as it stands, and written unless writes are protected: in its range as it is, outside it as the nearer end of the range, with STATUS_CML bit 6. A status byte is read, and cleared where 1 is written. The constant commands return their constants, the telemetry commands what is measured, and a code that is not listed gets a NACK. SAMPLE/PRELOAD, IDCODE, BYPASS and a TAP reset change the test port alone. Each instruction that drives pins takes them, stops the part, asserts FAULT# and takes the link down. Commands stated here to complete, each under the conditions of its clause: extest, samplePreload, idcode, highz, clamp, extestPulse, extestTrain, bypass, tapReset, clearFaults, writeProtect, capability, otFaultLimit, otWarnLimit, vinOvFaultLimit, vinOvWarnLimit, vinUvWarnLimit, vinUvFaultLimit, iinOcFaultLimit, iinOcWarnLimit, pinOpWarnLimit, statusWord, statusInput, statusTemperature, statusCml, readVin, readIin, readTemperature1, readPin, pmbusRevision, mfrRestartCount, pmbusUnsupportedCommand. (R379, R408, R485, R486, R487) -/
def Obligations.TheManagementBusAndTheTestPortAct : Prop :=
  (∀ (s : State) (v : BitVec 16), s.power.pmbus.up = true →
    exec (.otFaultLimit .read) s = .next (replyWith s s.power.pmbus.otFault.toNat) ∧ (∃ t, exec (.otFaultLimit (.write v)) s = .next t ∧ limitWritten s v 0x4F PmBus.otFault t) ∧
    exec (.otWarnLimit .read) s = .next (replyWith s s.power.pmbus.otWarn.toNat) ∧ (∃ t, exec (.otWarnLimit (.write v)) s = .next t ∧ limitWritten s v 0x51 PmBus.otWarn t) ∧
    exec (.vinOvFaultLimit .read) s = .next (replyWith s s.power.pmbus.vinOvFault.toNat) ∧ (∃ t, exec (.vinOvFaultLimit (.write v)) s = .next t ∧ limitWritten s v 0x55 PmBus.vinOvFault t) ∧
    exec (.vinOvWarnLimit .read) s = .next (replyWith s s.power.pmbus.vinOvWarn.toNat) ∧ (∃ t, exec (.vinOvWarnLimit (.write v)) s = .next t ∧ limitWritten s v 0x57 PmBus.vinOvWarn t) ∧
    exec (.vinUvWarnLimit .read) s = .next (replyWith s s.power.pmbus.vinUvWarn.toNat) ∧ (∃ t, exec (.vinUvWarnLimit (.write v)) s = .next t ∧ limitWritten s v 0x58 PmBus.vinUvWarn t) ∧
    exec (.vinUvFaultLimit .read) s = .next (replyWith s s.power.pmbus.vinUvFault.toNat) ∧ (∃ t, exec (.vinUvFaultLimit (.write v)) s = .next t ∧ limitWritten s v 0x59 PmBus.vinUvFault t) ∧
    exec (.iinOcFaultLimit .read) s = .next (replyWith s s.power.pmbus.iinOcFault.toNat) ∧ (∃ t, exec (.iinOcFaultLimit (.write v)) s = .next t ∧ limitWritten s v 0x5B PmBus.iinOcFault t) ∧
    exec (.iinOcWarnLimit .read) s = .next (replyWith s s.power.pmbus.iinOcWarn.toNat) ∧ (∃ t, exec (.iinOcWarnLimit (.write v)) s = .next t ∧ limitWritten s v 0x5D PmBus.iinOcWarn t) ∧
    exec (.pinOpWarnLimit .read) s = .next (replyWith s s.power.pmbus.pinOpWarn.toNat) ∧ (∃ t, exec (.pinOpWarnLimit (.write v)) s = .next t ∧ limitWritten s v 0x6B PmBus.pinOpWarn t) ∧
    exec (.statusInput .read) s = .next (replyWith s s.power.pmbus.statusInput.toNat) ∧ (∃ t, exec (.statusInput (.write v)) s = .next t ∧ statusWritten s v PmBus.statusInput t) ∧
    exec (.statusTemperature .read) s = .next (replyWith s s.power.pmbus.statusTemperature.toNat) ∧ (∃ t, exec (.statusTemperature (.write v)) s = .next t ∧ statusWritten s v PmBus.statusTemperature t) ∧
    exec (.statusCml .read) s = .next (replyWith s s.power.pmbus.statusCml.toNat) ∧ (∃ t, exec (.statusCml (.write v)) s = .next t ∧ statusWritten s v PmBus.statusCml t)) ∧
  (∀ (s : State) (m : Telemetry), s.power.pmbus.up = true →
    exec .clearFaults s = .next (accepted (setPmbus s { s.power.pmbus with statusInput := 0, statusTemperature := 0, statusCml := 0 })) ∧
    exec (.writeProtect .read) s = .next (replyWith s s.power.pmbus.writeProtect.toNat) ∧
    (∀ v : BitVec 16, (v.setWidth 8 = (0 : BitVec 8) ∨ v.setWidth 8 = (0x80 : BitVec 8)) →
      exec (.writeProtect (.write v)) s = .next (accepted (setPmbus s { s.power.pmbus with writeProtect := v.setWidth 8 }))) ∧
    (∀ v : BitVec 16, v.setWidth 8 ≠ (0 : BitVec 8) → v.setWidth 8 ≠ (0x80 : BitVec 8) →
      exec (.writeProtect (.write v)) s = .next (accepted (setPmbus s { s.power.pmbus with statusCml := s.power.pmbus.statusCml ||| 0x40 }))) ∧
    exec .capability s = .next (replyWith s 0xB0) ∧ exec .statusWord s = .next (replyWith s (statusWord s)) ∧ exec .pmbusRevision s = .next (replyWith s 0x33) ∧
    exec .mfrRestartCount s = .next (replyWith s (linCount s.power.pmbus.restarts)) ∧
    exec (.readVin m) s = .next (replyWith (measured s m) (linRead 0x88 m.vin 1000).toNat) ∧
    exec (.readIin m) s = .next (replyWith (measured s m) (linRead 0x89 m.iin 1000).toNat) ∧
    exec (.readTemperature1 m) s = .next (replyWith (measured s m) (linRead 0x8D m.temp 16).toNat) ∧
    exec (.readPin m) s = .next (replyWith (measured s m) (linRead 0x97 m.pin 16).toNat)) ∧
  (∀ (s : State) (code : BitVec 8), pmbusCodes.contains code.toNat = false → exec (.pmbusUnsupportedCommand code) s = .next (nacked s)) ∧
  (∀ s : State, s.power.pmbus.up = false → exec .capability s = .next (nacked s) ∧ exec .clearFaults s = .next (nacked s) ∧ exec (.otFaultLimit .read) s = .next (nacked s)) ∧
  (∀ s : State,
    exec .samplePreload s = .next { s with pins := { s.pins with tap := .sample } } ∧
    exec .idcode s = .next { s with pins := { s.pins with tap := .idcode, tapData := idcodeWord } } ∧
    exec .tapReset s = .next { s with pins := { s.pins with tap := .idcode, tapData := idcodeWord } } ∧
    (∀ code : BitVec 8, 6 < code.toNat → exec (.bypass code) s = .next { s with pins := { s.pins with tap := .bypass, tapData := 0 } }) ∧
    (∃ t, exec .extest s = .next t ∧ pinsDriven t .extest) ∧
    (∃ t, exec .highz s = .next t ∧ pinsDriven t .highz) ∧
    (∃ t, exec .clamp s = .next t ∧ pinsDriven t .clamp) ∧
    (∃ t, exec .extestPulse s = .next t ∧ pinsDriven t .extestPulse) ∧
    (∃ t, exec .extestTrain s = .next t ∧ pinsDriven t .extestTrain))

/-- A halyard-timed command whose T is less than 2,048 fc ahead of its take completes BAD_PARAM with no effect. For every state and each of the four commands that name a time T (HOIST_SWITCH, HALT_AT, FW_SWITCH, and the grant of SELF_TEST, which R418 schedules by the same rule): when firmware takes the command with T less than 2,048 fc later, the next state is that of the completion with status 0x04 alone, whose time is the halyard time of the take. (R37) -/
def Obligations.TimesTooNearAreRefused : Prop :=
  ∀ (s : State) (c : HostCmd) (row : HostCmd → Instr) (op form T : Nat),
    (row, op, form, T) ∈ [(Instr.hoistSwitch, 0x13, 0, pktQ c.pkt 3), (.haltAt, 0x38, 0, pktQ c.pkt 2), (.fwSwitch, 0x51, 0, pktQ c.pkt 2),
      (.selfTestGrantWindow, 0x30, 2, pktQ c.pkt 4)] →
    Ready op form s c → T < s.now + 2048 →
    exec (row c) s = .next (complete (begun s c)
      { ring := c.ring, tag := pktTag c.pkt, status := 0x04, opcode := pktOpcode c.pkt, detail := 0, time := s.now, interim := false,
        priority := pktPriority c.pkt, release := 1 + b2n (pktAck c.pkt), writes := [] })

/-- LIFECYCLE and WIPE wait while a load, a verify or an FW_STAGE is in progress, and an accepted key stays accepted until the load completes. For every state in which an image load or verify is in progress, or an FW_STAGE pends: every row of LIFECYCLE and of WIPE leaves the state as it was, whatever its packet. And no command at all changes the image keys while a load is in progress and no erase of flash items is outstanding from before it: what a key slot holds before the command it holds after it. (R467) -/
def Obligations.KeysStayWhileALoadIsInProgress : Prop :=
  (∀ (s : State) (c : HostCmd) (auth : HostData), s.hal.load ≠ none ∨ isPending s (fun k => k == .fwStage) = true →
    exec (.lifecycleTransition c auth) s = .next s ∧ exec (.lifecycleAddKey c auth) s = .next s ∧ exec (.lifecycleRevokeImageKey c auth) s = .next s ∧
    exec (.lifecycleRevokeFwKey c auth) s = .next s ∧ exec (.wipeFreeSpace c) s = .next s ∧ exec (.wipeDevice c) s = .next s ∧
    exec (.wipeStagedFirmware c) s = .next s) ∧
  (∀ (i : Instr) (s t : State), s.hal.load ≠ none → s.sec.erase = none → exec i s = .next t → t.sec.imageKeys = s.sec.imageKeys)

/-- The four counters of a nest count through every iteration in order, and the operations due in an iteration issue in list order. From every counter at 0, after n advances with n below the product of the limits, the counters are the digits of n, C3 the innermost, and the nest is not complete; at the product every counter is 0 and the nest is complete. The limits read from the configuration are 1 to 65,536. A slot whose nest is not complete advances exactly when no operation is left due in its iteration. An operation is due exactly where every counter deeper than its level is 0, or with edge last at its last value, so at level 3 in every iteration; the operation that issues next is the first due one in the list from the slot's place on. (R99, R100) -/
def Obligations.TheNestCountsThroughEveryIteration : Prop :=
  (∀ (l0 l1 l2 l3 n : Nat) (sl : Slot), 0 < l0 → 0 < l1 → 0 < l2 → 0 < l3 → countersOf sl = [0, 0, 0, 0] → sl.nestDone = false →
    let t := (advanceNest [l0, l1, l2, l3])^[n] sl
    (n < l0 * l1 * l2 * l3 → countersOf t = [n / (l1 * l2 * l3), n / (l2 * l3) % l1, n / l3 % l2, n % l3] ∧ t.nestDone = false) ∧
    (n = l0 * l1 * l2 * l3 → countersOf t = [0, 0, 0, 0] ∧ t.nestDone = true)) ∧
  (∀ (d5 d6 : Dword) (l : Nat), l ∈ limitsOf d5 d6 → 1 ≤ l ∧ l ≤ 65536) ∧
  (∀ (ops : List Dword) (lims : List Nat) (sl : Slot), sl.nestDone = false →
    (nextDue ops lims sl = none → settleNest ops lims sl = advanceNest lims sl) ∧ (nextDue ops lims sl ≠ none → settleNest ops lims sl = sl)) ∧
  (∀ (lims cs : List Nat) (op : Dword),
    (dueIn lims cs op = true ↔ ∀ k, opLevel op < k → k < 4 → if opLast op then cs.getD k 0 + 1 = lims.getD k 1 else cs.getD k 0 = 0) ∧
    (opLevel op = 3 → dueIn lims cs op = true)) ∧
  (∀ (ops : List Dword) (lims : List Nat) (sl : Slot) (i : Nat), nextDue ops lims sl = some i →
    sl.opIdx ≤ i ∧ i < ops.length ∧ dueIn lims (countersOf sl) (ops.getD i 0) = true ∧
      ∀ j, sl.opIdx ≤ j → j < i → dueIn lims (countersOf sl) (ops.getD j 0) = false)
end

