-- ==== Sys2Proof/Laws/Memory.lean ====
section
/-! SUPPORT. Byte memories: every operation keeps the canonical form, a byte written reads back, and every other byte stays. -/

namespace Sys2Proof.Machine

theorem memory_wf_iff (m : Mem) : Memory.wf m = true ↔ m.Pairwise (fun c d => c.1 < d.1) ∧ ∀ c ∈ m, c.2 ≠ 0 := by
  induction m with
  | nil => simp [Memory.wf]
  | cons c m ih =>
    cases m with
    | nil => simp [Memory.wf]
    | cons d m =>
      simp only [Memory.wf, Bool.and_eq_true, decide_eq_true_eq, ih, List.pairwise_cons, List.mem_cons, forall_eq_or_imp]
      constructor
      · rintro ⟨⟨h0, h1⟩, ⟨h2, h3⟩, h4, h5⟩
        exact ⟨⟨⟨h1, fun e he => Nat.lt_trans h1 (h2 e he)⟩, h2, h3⟩, h0, h4, h5⟩
      · rintro ⟨⟨⟨h1, -⟩, h2, h3⟩, h0, h4, h5⟩
        exact ⟨⟨h0, h1⟩, ⟨h2, h3⟩, h4, h5⟩

theorem mem_memSet {m : Mem} {a : Nat} {b : Byte} {c : Host.Cell} (h : c ∈ memSet m a b) : c ∈ m ∨ (c = (a, b) ∧ b ≠ memDefault) := by
  induction m with
  | nil => unfold memSet at h; split at h <;> simp_all
  | cons d m ih =>
    unfold memSet at h
    split at h
    · split at h
      · exact .inl h
      · rcases List.mem_cons.mp h with h | h
        · exact .inr ⟨h, by assumption⟩
        · exact .inl h
    · split at h
      · split at h
        · exact .inl (List.mem_cons_of_mem _ h)
        · rcases List.mem_cons.mp h with h | h
          · exact .inr ⟨h, by assumption⟩
          · exact .inl (List.mem_cons_of_mem _ h)
      · rcases List.mem_cons.mp h with h | h
        · exact .inl (h ▸ List.mem_cons_self)
        · rcases ih h with h | h
          · exact .inl (List.mem_cons_of_mem _ h)
          · exact .inr h

theorem pairwise_memSet {m : Mem} (a : Nat) (b : Byte) (h : m.Pairwise (fun c d => c.1 < d.1)) :
    (memSet m a b).Pairwise (fun c d => c.1 < d.1) := by
  induction m with
  | nil => unfold memSet; split <;> simp
  | cons d m ih =>
    obtain ⟨hd, hm⟩ := List.pairwise_cons.mp h
    unfold memSet
    split
    · split
      · exact h
      · refine List.pairwise_cons.mpr ⟨fun e he => ?_, h⟩
        rcases List.mem_cons.mp he with he | he
        · subst he; assumption
        · have := hd e he; simp only; omega
    · split
      · split
        · exact hm
        · refine List.pairwise_cons.mpr ⟨fun e he => ?_, hm⟩
          have := hd e he; simp only; omega
      · refine List.pairwise_cons.mpr ⟨fun e he => ?_, ih hm⟩
        rcases mem_memSet he with he | ⟨he, -⟩
        · exact hd e he
        · subst he; simp only; omega

/-- A write of one byte keeps the canonical form. -/
theorem memSet_wf {m : Mem} (a : Nat) (b : Byte) (h : Memory.wf m = true) : Memory.wf (memSet m a b) = true := by
  rw [memory_wf_iff] at h ⊢
  refine ⟨pairwise_memSet a b h.1, fun c hc => ?_⟩
  rcases mem_memSet hc with hc | ⟨hc, hb⟩
  · exact h.2 c hc
  · subst hc; exact hb

/-- A run of bytes written keeps the canonical form. -/
theorem memWrite_wf {m : Mem} (a : Nat) (l : List Byte) (h : Memory.wf m = true) : Memory.wf (memWrite m a l) = true := by
  induction l generalizing m a with
  | nil => exact h
  | cons b l ih => exact ih _ (memSet_wf _ _ h)

theorem memSetLine_wf {m : Mem} (a : Nat) (d : BitVec 512) (h : Memory.wf m = true) : Memory.wf (memSetLine m a d) = true := memWrite_wf _ _ h

theorem filter_wf {m : Mem} (p : Host.Cell → Bool) (h : Memory.wf m = true) : Memory.wf (m.filter p) = true := by
  rw [memory_wf_iff] at h ⊢
  exact ⟨h.1.filter p, fun c hc => h.2 c (List.mem_of_mem_filter hc)⟩

theorem memKeep_wf {m : Mem} (p : Nat → Bool) (h : Memory.wf m = true) : Memory.wf (memKeep m p) = true := filter_wf _ h

theorem memZero_wf {m : Mem} (a n : Nat) (h : Memory.wf m = true) : Memory.wf (memZero m a n) = true := filter_wf _ h

theorem mem_memCells {a : Nat} {l : List Byte} {c : Host.Cell} (h : c ∈ memCells a l) : a ≤ c.1 ∧ c.1 < a + l.length ∧ c.2 ≠ 0 := by
  induction l generalizing a with
  | nil => simp [memCells] at h
  | cons b l ih =>
    have step (h : c ∈ memCells (a + 1) l) : a ≤ c.1 ∧ c.1 < a + (b :: l).length ∧ c.2 ≠ 0 := by
      obtain ⟨h1, h2, h3⟩ := ih h
      exact ⟨by omega, by simp only [List.length_cons]; omega, h3⟩
    unfold memCells at h
    split at h
    · exact step h
    · rcases List.mem_cons.mp h with h | h
      · subst h; exact ⟨Nat.le_refl _, by simp, by assumption⟩
      · exact step h

theorem pairwise_memCells (a : Nat) (l : List Byte) : (memCells a l).Pairwise (fun c d => c.1 < d.1) := by
  induction l generalizing a with
  | nil => simp [memCells]
  | cons b l ih =>
    unfold memCells
    split
    · exact ih _
    · refine List.pairwise_cons.mpr ⟨fun e he => ?_, ih _⟩
      have := (mem_memCells he).1
      simp only; omega

/-- A long run of bytes written at once keeps the canonical form. -/
theorem memPut_wf {m : Mem} (a : Nat) (l : List Byte) (h : Memory.wf m = true) : Memory.wf (memPut m a l) = true := by
  have h0 := (memory_wf_iff m).mp h
  refine (memory_wf_iff _).mpr ⟨?_, ?_⟩
  · unfold memPut
    refine List.pairwise_append.mpr ⟨List.pairwise_append.mpr ⟨h0.1.filter _, pairwise_memCells a l, ?_⟩, h0.1.filter _, ?_⟩
    · intro x hx y hy
      have := (mem_memCells hy).1
      have hx := (List.mem_filter.mp hx).2
      simp only [decide_eq_true_eq] at hx
      omega
    · intro x hx y hy
      have hy := (List.mem_filter.mp hy).2
      simp only [decide_eq_true_eq] at hy
      rcases List.mem_append.mp hx with hx | hx
      · have hx := (List.mem_filter.mp hx).2
        simp only [decide_eq_true_eq] at hx
        omega
      · have := (mem_memCells hx).2.1
        omega
  · intro c hc
    unfold memPut at hc
    rcases List.mem_append.mp hc with hc | hc
    · rcases List.mem_append.mp hc with hc | hc
      · exact h0.2 c (List.mem_of_mem_filter hc)
      · exact (mem_memCells hc).2.2
    · exact h0.2 c (List.mem_of_mem_filter hc)

/-! ### What reads see -/

@[simp] theorem memGet_nil (a : Nat) : memGet [] a = 0 := rfl

theorem memLines_wf {m : Mem} (l : List Nat) (f : Nat → BitVec 512) (h : Memory.wf m = true) :
    Memory.wf (l.foldl (fun m a => memSetLine m a (f a)) m) = true := by
  induction l generalizing m with
  | nil => exact h
  | cons a l ih => rw [List.foldl_cons]; exact ih (memSetLine_wf a (f a) h)

theorem memGet_cons (c : Host.Cell) (m : Mem) (a : Nat) : memGet (c :: m) a = if c.1 = a then c.2 else memGet m a := by
  unfold memGet
  by_cases h : c.1 = a <;> simp [h]

theorem memGet_low {m : Mem} {a : Nat} (h : ∀ c ∈ m, a < c.1) : memGet m a = 0 := by
  induction m with
  | nil => rfl
  | cons c m ih =>
    have := h c List.mem_cons_self
    rw [memGet_cons, if_neg (by omega)]
    exact ih fun d hd => h d (List.mem_cons_of_mem _ hd)

/-- A byte written reads back (in a memory in canonical form). -/
theorem memGet_memSet_same {m : Mem} (a : Nat) (b : Byte) (h : Memory.wf m = true) : memGet (memSet m a b) a = b := by
  have h0 := ((memory_wf_iff m).mp h).1
  clear h
  induction m with
  | nil =>
    unfold memSet
    split
    · subst b; rfl
    · simp [memGet_cons]
  | cons d m ih =>
    obtain ⟨hd, hm⟩ := List.pairwise_cons.mp h0
    unfold memSet
    split
    · split
      · subst b
        rw [memGet_low]
        · rfl
        · intro c hc
          rcases List.mem_cons.mp hc with hc | hc
          · subst hc; assumption
          · have := hd c hc; omega
      · simp [memGet_cons]
    · split
      · subst a
        split
        · subst b
          rw [memGet_low]
          · rfl
          · exact hd
        · simp [memGet_cons]
      · rw [memGet_cons, if_neg (by omega)]
        exact ih hm

/-- Every other byte reads as before. -/
theorem memGet_memSet_other (m : Mem) {a x : Nat} (b : Byte) (h : x ≠ a) : memGet (memSet m a b) x = memGet m x := by
  induction m with
  | nil =>
    unfold memSet
    split
    · rfl
    · simp [memGet_cons, Ne.symm h]
  | cons d m ih =>
    unfold memSet
    split
    · split
      · rfl
      · rw [memGet_cons, if_neg (Ne.symm h)]
    · split
      · rename_i e
        split
        · rw [memGet_cons, if_neg (by rw [← e]; exact Ne.symm h)]
        · rw [memGet_cons, if_neg (Ne.symm h), memGet_cons, if_neg (by rw [← e]; exact Ne.symm h)]
      · rw [memGet_cons, memGet_cons, ih]

theorem memGet_memWrite_other (m : Mem) {a x : Nat} (l : List Byte) (h : x < a ∨ a + l.length ≤ x) : memGet (memWrite m a l) x = memGet m x := by
  induction l generalizing m a with
  | nil => rfl
  | cons b l ih =>
    simp only [List.length_cons] at h
    rw [memWrite, ih _ (by omega), memGet_memSet_other _ _ (by omega)]

theorem memGet_memWrite_in {m : Mem} {a : Nat} {l : List Byte} {k : Nat} (w : Memory.wf m = true) (h : k < l.length) :
    memGet (memWrite m a l) (a + k) = l[k] := by
  induction l generalizing m a k with
  | nil => simp at h
  | cons b l ih =>
    rw [memWrite]
    cases k with
    | zero =>
      rw [memGet_memWrite_other _ _ (.inl (by omega))]
      simpa using memGet_memSet_same a b w
    | succ k =>
      have := ih (m := memSet m a b) (a := a + 1) (k := k) (memSet_wf _ _ w) (by simpa using h)
      rw [show a + (k + 1) = a + 1 + k by omega]
      simpa using this

end Sys2Proof.Machine
end

