-- ==== Sys2Proof/Laws/Moves.lean ====
section
/-! SUPPORT. `Keeps` as a relation between states: reflexive, transitive, and kept by the small updates. -/

namespace Sys2Proof.Machine

theorem SecKeeps.refl (a : Sec) : SecKeeps a a := ⟨Nat.le_refl _, fun _ h => h⟩

theorem SecKeeps.trans {a b c : Sec} (h : SecKeeps a b) (g : SecKeeps b c) : SecKeeps a c :=
  ⟨Nat.le_trans h.floor g.floor, fun k x => g.revoked k (h.revoked k x)⟩

theorem Keeps.refl (a : State) : Keeps a a := ⟨rfl, Nat.le_refl _, id, SecKeeps.refl _, id⟩

theorem Keeps.trans {a b c : State} (h : Keeps a b) (g : Keeps b c) : Keeps a c :=
  ⟨g.queue.trans h.queue, Nat.le_trans h.time g.time, fun m => g.memory (h.memory m), h.fuses.trans g.fuses, fun m => g.shape (h.shape m)⟩

/-- Every bit of k is a bit of m. -/
def maskSub (k m : Nat) : Bool := Nat.land k m == k

theorem maskSub_iff {k m : Nat} (h : maskSub k m = true) (i : Nat) : k.testBit i = true → m.testBit i = true := by
  intro g
  have e : k &&& m = k := beq_iff_eq.mp h
  rw [← e, Nat.testBit_and] at g
  simp at g
  exact g.2

theorem maskSub_trans {j k m : Nat} (g : maskSub k m = true) (h : maskSub j k = true) : maskSub j m = true := by
  have e : j &&& k = j := beq_iff_eq.mp h
  have f : k &&& m = k := beq_iff_eq.mp g
  have r : j &&& m = j := by
    calc j &&& m = (j &&& k) &&& m := by rw [e]
      _ = j &&& (k &&& m) := Nat.and_assoc _ _ _
      _ = j := by rw [f, e]
  exact beq_iff_eq.mpr r

/-- A component whose bit the mask has may change. -/
theorem maskHit {k m i : Nat} {P : Prop} (h : maskSub k m = true) (g : k.testBit i = true) : m.testBit i = false → P := by
  intro e; rw [maskSub_iff h i g] at e; cases e

/-- The components that the mask leaves out are unchanged; bit 24 is the contents of LPDDR5, bit 11 the whole memory feed. -/
structure FrameOf (m : Nat) (a s : State) : Prop where
  b0 : m.testBit 0 = false → s.now = a.now
  b1 : m.testBit 1 = false → s.out = a.out
  b2 : m.testBit 2 = false → s.hif = a.hif
  b3 : m.testBit 3 = false → s.evt = a.evt
  b4 : m.testBit 4 = false → s.hal = a.hal
  b5 : m.testBit 5 = false → s.fabric = a.fabric
  b6 : m.testBit 6 = false → s.tiles = a.tiles
  b7 : m.testBit 7 = false → s.vtiles = a.vtiles
  b8 : m.testBit 8 = false → s.wtiles = a.wtiles
  b9 : m.testBit 9 = false → s.glue = a.glue
  b10 : m.testBit 10 = false → s.steer = a.steer
  b11 : m.testBit 11 = false → s.feed = a.feed
  b12 : m.testBit 12 = false → s.streams = a.streams
  b13 : m.testBit 13 = false → s.lanes = a.lanes
  b14 : m.testBit 14 = false → s.span = a.span
  b15 : m.testBit 15 = false → s.power = a.power
  b16 : m.testBit 16 = false → s.pins = a.pins
  b17 : m.testBit 17 = false → s.sec = a.sec
  b18 : m.testBit 18 = false → s.mgmt = a.mgmt
  b19 : m.testBit 19 = false → s.trace = a.trace
  b20 : m.testBit 20 = false → s.cnt = a.cnt
  b21 : m.testBit 21 = false → s.snap = a.snap
  b22 : m.testBit 22 = false → s.lostBoxes = a.lostBoxes
  b23 : m.testBit 23 = false → s.fresh = a.fresh
  b24 : m.testBit 24 = false → s.feed.lpddr = a.feed.lpddr

/-- A change that keeps what every command keeps, within the components of the mask. -/
structure Moves (m : Nat) (a s : State) : Prop where
  keeps : Keeps a s
  frame : FrameOf m a s

theorem FrameOf.refl (m : Nat) (a : State) : FrameOf m a a :=
  ⟨fun _ => rfl, fun _ => rfl, fun _ => rfl, fun _ => rfl, fun _ => rfl, fun _ => rfl, fun _ => rfl, fun _ => rfl, fun _ => rfl, fun _ => rfl, fun _ => rfl, fun _ => rfl, fun _ => rfl, fun _ => rfl, fun _ => rfl, fun _ => rfl, fun _ => rfl, fun _ => rfl, fun _ => rfl, fun _ => rfl, fun _ => rfl, fun _ => rfl, fun _ => rfl, fun _ => rfl, fun _ => rfl⟩

theorem FrameOf.trans {m : Nat} {a b c : State} (h : FrameOf m a b) (g : FrameOf m b c) : FrameOf m a c :=
  ⟨fun x => (g.b0 x).trans (h.b0 x), fun x => (g.b1 x).trans (h.b1 x), fun x => (g.b2 x).trans (h.b2 x), fun x => (g.b3 x).trans (h.b3 x), fun x => (g.b4 x).trans (h.b4 x), fun x => (g.b5 x).trans (h.b5 x), fun x => (g.b6 x).trans (h.b6 x), fun x => (g.b7 x).trans (h.b7 x), fun x => (g.b8 x).trans (h.b8 x), fun x => (g.b9 x).trans (h.b9 x), fun x => (g.b10 x).trans (h.b10 x), fun x => (g.b11 x).trans (h.b11 x), fun x => (g.b12 x).trans (h.b12 x), fun x => (g.b13 x).trans (h.b13 x), fun x => (g.b14 x).trans (h.b14 x), fun x => (g.b15 x).trans (h.b15 x), fun x => (g.b16 x).trans (h.b16 x), fun x => (g.b17 x).trans (h.b17 x), fun x => (g.b18 x).trans (h.b18 x), fun x => (g.b19 x).trans (h.b19 x), fun x => (g.b20 x).trans (h.b20 x), fun x => (g.b21 x).trans (h.b21 x), fun x => (g.b22 x).trans (h.b22 x), fun x => (g.b23 x).trans (h.b23 x), fun x => (g.b24 x).trans (h.b24 x)⟩

theorem Moves.refl {m : Nat} (a : State) : Moves m a a := ⟨Keeps.refl a, FrameOf.refl m a⟩

theorem Moves.trans {m : Nat} {a b c : State} (h : Moves m a b) (g : Moves m b c) : Moves m a c := ⟨h.keeps.trans g.keeps, h.frame.trans g.frame⟩

/-- A record update that touches neither the halyard, the queue, the fuses nor LPDDR5; each table keeps its size. -/
theorem Moves.ofUpdate {m : Nat} {a s : State} {xout : List Output} {xhif : Hif} {xevt : Evt} {xhal : Hal} {xfabric : Fabric} {xtiles : AMap Site MatrixTile} {xvtiles : AMap Site VectorTile} {xwtiles : AMap Site WindowTile} {xglue : AMap Site GlueBlock} {xsteer : AMap Site SteeringUnit} {xfeed : Feed} {xstreams : List StreamCtx} {xlanes : Lanes} {xspan : List SpanPort} {xpower : Power} {xpins : Pins} {xmgmt : Mgmt} {xtrace : Trace} {xcnt : Counters} {xsnap : Snapshot} {xlostBoxes : List Site} {xfresh : Nat}
    (h : Moves m a s) (w : xfeed.lpddr = s.feed.lpddr)
    (g0 : s.hif.rings.length = 16 → xhif.rings.length = 16)
    (g1 : s.hif.msix.length = 64 → xhif.msix.length = 64)
    (g2 : s.hif.pba.length = 64 → xhif.pba.length = 64)
    (g3 : s.evt.sources.length = 64 → xevt.sources.length = 64)
    (g4 : s.evt.vectors.length = 64 → xevt.vectors.length = 64)
    (g5 : s.hal.hoists.length = 4 → xhal.hoists.length = 4)
    (g6 : s.streams.length = 32 → xstreams.length = 32)
    (g7 : s.span.length = 8 → xspan.length = 8)
    (g8 : s.power.sectors.length = 8 → xpower.sectors.length = 8)
    (g9 : s.feed.channels.length = 32 → xfeed.channels.length = 32)
    (g10 : s.trace.bufs.length = 9 → xtrace.bufs.length = 9)
    (g11 : s.cnt.progs.length = 64 → xcnt.progs.length = 64)
    (g12 : s.lanes.lock.length = 32 → xlanes.lock.length = 32)
    (g13 : s.lanes.hiBer.length = 32 → xlanes.hiBer.length = 32)
    (c1 : m.testBit 1 = false → xout = s.out)
    (c2 : m.testBit 2 = false → xhif = s.hif)
    (c3 : m.testBit 3 = false → xevt = s.evt)
    (c4 : m.testBit 4 = false → xhal = s.hal)
    (c5 : m.testBit 5 = false → xfabric = s.fabric)
    (c6 : m.testBit 6 = false → xtiles = s.tiles)
    (c7 : m.testBit 7 = false → xvtiles = s.vtiles)
    (c8 : m.testBit 8 = false → xwtiles = s.wtiles)
    (c9 : m.testBit 9 = false → xglue = s.glue)
    (c10 : m.testBit 10 = false → xsteer = s.steer)
    (c11 : m.testBit 11 = false → xfeed = s.feed)
    (c12 : m.testBit 12 = false → xstreams = s.streams)
    (c13 : m.testBit 13 = false → xlanes = s.lanes)
    (c14 : m.testBit 14 = false → xspan = s.span)
    (c15 : m.testBit 15 = false → xpower = s.power)
    (c16 : m.testBit 16 = false → xpins = s.pins)
    (c18 : m.testBit 18 = false → xmgmt = s.mgmt)
    (c19 : m.testBit 19 = false → xtrace = s.trace)
    (c20 : m.testBit 20 = false → xcnt = s.cnt)
    (c21 : m.testBit 21 = false → xsnap = s.snap)
    (c22 : m.testBit 22 = false → xlostBoxes = s.lostBoxes)
    (c23 : m.testBit 23 = false → xfresh = s.fresh) :
    Moves m a (State.mk s.now xout xhif xevt xhal xfabric xtiles xvtiles xwtiles xglue xsteer xfeed xstreams xlanes xspan xpower xpins s.sec xmgmt xtrace xcnt xsnap xlostBoxes xfresh s.pending) :=
  h.trans ⟨⟨rfl, Nat.le_refl _, fun x => by rw [← w] at x; exact x, SecKeeps.refl _, fun p => ⟨g0 p.1, g1 p.2, g2 p.3, g3 p.4, g4 p.5, g5 p.6, g6 p.7, g7 p.8, g8 p.9, g9 p.10, g10 p.11, g11 p.12, g12 p.13, g13 p.14⟩⟩,
    ⟨fun _ => rfl, c1, c2, c3, c4, c5, c6, c7, c8, c9, c10, c11, c12, c13, c14, c15, c16, fun _ => rfl, c18, c19, c20, c21, c22, c23, fun _ => w⟩⟩

/-- A record update that touches neither the halyard, the queue nor LPDDR5: the fuses are kept, each table keeps its size. -/
theorem Moves.ofUpdateSec {m : Nat} {a s : State} {xout : List Output} {xhif : Hif} {xevt : Evt} {xhal : Hal} {xfabric : Fabric} {xtiles : AMap Site MatrixTile} {xvtiles : AMap Site VectorTile} {xwtiles : AMap Site WindowTile} {xglue : AMap Site GlueBlock} {xsteer : AMap Site SteeringUnit} {xfeed : Feed} {xstreams : List StreamCtx} {xlanes : Lanes} {xspan : List SpanPort} {xpower : Power} {xpins : Pins} {xsec : Sec} {xmgmt : Mgmt} {xtrace : Trace} {xcnt : Counters} {xsnap : Snapshot} {xlostBoxes : List Site} {xfresh : Nat}
    (h : Moves m a s) (k : SecKeeps s.sec xsec) (w : xfeed.lpddr = s.feed.lpddr)
    (g0 : s.hif.rings.length = 16 → xhif.rings.length = 16)
    (g1 : s.hif.msix.length = 64 → xhif.msix.length = 64)
    (g2 : s.hif.pba.length = 64 → xhif.pba.length = 64)
    (g3 : s.evt.sources.length = 64 → xevt.sources.length = 64)
    (g4 : s.evt.vectors.length = 64 → xevt.vectors.length = 64)
    (g5 : s.hal.hoists.length = 4 → xhal.hoists.length = 4)
    (g6 : s.streams.length = 32 → xstreams.length = 32)
    (g7 : s.span.length = 8 → xspan.length = 8)
    (g8 : s.power.sectors.length = 8 → xpower.sectors.length = 8)
    (g9 : s.feed.channels.length = 32 → xfeed.channels.length = 32)
    (g10 : s.trace.bufs.length = 9 → xtrace.bufs.length = 9)
    (g11 : s.cnt.progs.length = 64 → xcnt.progs.length = 64)
    (g12 : s.lanes.lock.length = 32 → xlanes.lock.length = 32)
    (g13 : s.lanes.hiBer.length = 32 → xlanes.hiBer.length = 32)
    (c1 : m.testBit 1 = false → xout = s.out)
    (c2 : m.testBit 2 = false → xhif = s.hif)
    (c3 : m.testBit 3 = false → xevt = s.evt)
    (c4 : m.testBit 4 = false → xhal = s.hal)
    (c5 : m.testBit 5 = false → xfabric = s.fabric)
    (c6 : m.testBit 6 = false → xtiles = s.tiles)
    (c7 : m.testBit 7 = false → xvtiles = s.vtiles)
    (c8 : m.testBit 8 = false → xwtiles = s.wtiles)
    (c9 : m.testBit 9 = false → xglue = s.glue)
    (c10 : m.testBit 10 = false → xsteer = s.steer)
    (c11 : m.testBit 11 = false → xfeed = s.feed)
    (c12 : m.testBit 12 = false → xstreams = s.streams)
    (c13 : m.testBit 13 = false → xlanes = s.lanes)
    (c14 : m.testBit 14 = false → xspan = s.span)
    (c15 : m.testBit 15 = false → xpower = s.power)
    (c16 : m.testBit 16 = false → xpins = s.pins)
    (c17 : m.testBit 17 = false → xsec = s.sec)
    (c18 : m.testBit 18 = false → xmgmt = s.mgmt)
    (c19 : m.testBit 19 = false → xtrace = s.trace)
    (c20 : m.testBit 20 = false → xcnt = s.cnt)
    (c21 : m.testBit 21 = false → xsnap = s.snap)
    (c22 : m.testBit 22 = false → xlostBoxes = s.lostBoxes)
    (c23 : m.testBit 23 = false → xfresh = s.fresh) :
    Moves m a (State.mk s.now xout xhif xevt xhal xfabric xtiles xvtiles xwtiles xglue xsteer xfeed xstreams xlanes xspan xpower xpins xsec xmgmt xtrace xcnt xsnap xlostBoxes xfresh s.pending) :=
  h.trans ⟨⟨rfl, Nat.le_refl _, fun x => by rw [← w] at x; exact x, k, fun p => ⟨g0 p.1, g1 p.2, g2 p.3, g3 p.4, g4 p.5, g5 p.6, g6 p.7, g7 p.8, g8 p.9, g9 p.10, g10 p.11, g11 p.12, g12 p.13, g13 p.14⟩⟩,
    ⟨fun _ => rfl, c1, c2, c3, c4, c5, c6, c7, c8, c9, c10, c11, c12, c13, c14, c15, c16, c17, c18, c19, c20, c21, c22, c23, fun _ => w⟩⟩

/-- An update of the memory feed alone. -/
theorem Moves.setFeed {m : Nat} {a s : State} {f : Feed} (hm : maskSub 0x1000800 m = true) (h : Moves m a s)
    (w : Memory.wf s.feed.lpddr = true → Memory.wf f.lpddr = true) (c : f.channels.length = s.feed.channels.length) : Moves m a { s with feed := f } :=
  h.trans ⟨⟨rfl, Nat.le_refl _, w, SecKeeps.refl _, fun p => ⟨p.1, p.2, p.3, p.4, p.5, p.6, p.7, p.8, p.9, c.trans p.10, p.11, p.12, p.13, p.14⟩⟩,
    ⟨fun _ => rfl, fun _ => rfl, fun _ => rfl, fun _ => rfl, fun _ => rfl, fun _ => rfl, fun _ => rfl, fun _ => rfl, fun _ => rfl, fun _ => rfl, fun _ => rfl, maskHit hm rfl, fun _ => rfl, fun _ => rfl, fun _ => rfl, fun _ => rfl, fun _ => rfl, fun _ => rfl, fun _ => rfl, fun _ => rfl, fun _ => rfl, fun _ => rfl, fun _ => rfl, fun _ => rfl, maskHit hm rfl⟩⟩

theorem Moves.cut {m : Nat} (a z : State) {P : Prop} (h : Moves m a z) (k : Moves m a z → P) : P := k h

theorem Moves.foldl {m : Nat} {a s : State} {α : Type} {l : List α} {f : State → α → State} (h : Moves m a s) (g : ∀ s x, Moves m a s → Moves m a (f s x)) :
    Moves m a (l.foldl f s) := by
  induction l generalizing s with
  | nil => exact h
  | cons x l ih => exact ih (g s x h)

/-- The same of an outcome: of the next state, if there is one. -/
def MovesNext (m : Nat) (a : State) (o : Host.Outcome State Fault Refusal) : Prop := ∀ t, o = .next t → Moves m a t

theorem movesNext_next {m : Nat} {a s : State} (h : Moves m a s) : MovesNext m a (.next s) := by
  intro t e; cases e; exact h

theorem movesNext_done {m : Nat} {a s : State} (h : Moves m a s) : MovesNext m a (done s) := movesNext_next h

/-- The same of the state that a verdict carries. -/
def MovesVerdict (m : Nat) (a : State) : Verdict → Prop
  | .finish _ _ _ s => Moves m a s
  | .pend _ s => Moves m a s

theorem movesVerdict_finish {m : Nat} {a s : State} {x y : Nat} {w : List (Nat × List Byte)} (h : Moves m a s) : MovesVerdict m a (.finish x y w s) := h

theorem movesVerdict_pend {m : Nat} {a s : State} {k : PendKind} (h : Moves m a s) : MovesVerdict m a (.pend k s) := h

/-- The same of a state that may be absent, and of one that stands in a pair. -/
def MovesSome (m : Nat) (a : State) (o : Option State) : Prop := ∀ t, o = some t → Moves m a t

theorem MovesSome.keeps {m : Nat} {a s : State} {o : Option State} (h : MovesSome m a o) (e : o = some s) : Moves m a s := h _ e

theorem movesSome_some {m : Nat} {a s : State} (h : Moves m a s) : MovesSome m a (some s) := by intro t e; cases e; exact h

theorem movesSome_none {m : Nat} {a : State} : MovesSome m a none := by intro t e; cases e

def MovesFst {β : Type} (m : Nat) (a : State) (p : State × β) : Prop := Moves m a p.1

theorem movesFst_mk {m : Nat} {β : Type} {a s : State} {b : β} (h : Moves m a s) : MovesFst m a (s, b) := h

theorem MovesFst.keeps {m : Nat} {β : Type} {a : State} {p : State × β} (h : MovesFst m a p) : Moves m a p.1 := h

def MovesSnd {β : Type} (m : Nat) (a : State) (p : β × State) : Prop := Moves m a p.2

theorem movesSnd_mk {m : Nat} {β : Type} {a s : State} {b : β} (h : Moves m a s) : MovesSnd m a (b, s) := h

theorem MovesSnd.keeps {m : Nat} {β : Type} {a : State} {p : β × State} (h : MovesSnd m a p) : Moves m a p.2 := h

def MovesSomeSnd {β : Type} (m : Nat) (a : State) (o : Option (β × State)) : Prop := ∀ b t, o = some (b, t) → Moves m a t

theorem MovesSomeSnd.keeps {m : Nat} {β : Type} {a s : State} {o : Option (β × State)} {b : β} (h : MovesSomeSnd m a o) (e : o = some (b, s)) : Moves m a s := h _ _ e

theorem movesSomeSnd_some {m : Nat} {β : Type} {a s : State} {b : β} (h : Moves m a s) : MovesSomeSnd m a (some (b, s)) := by intro x t e; cases e; exact h

theorem movesSomeSnd_none {m : Nat} {β : Type} {a : State} : MovesSomeSnd (β := β) m a none := by intro x t e; cases e

def MovesSomeTrd {β γ : Type} (m : Nat) (a : State) (o : Option (β × γ × State)) : Prop := ∀ b c t, o = some (b, c, t) → Moves m a t

theorem MovesSomeTrd.keeps {m : Nat} {β γ : Type} {a s : State} {o : Option (β × γ × State)} {b : β} {c : γ} (h : MovesSomeTrd m a o) (e : o = some (b, c, s)) :
    Moves m a s := h _ _ _ e

theorem movesSomeTrd_some {m : Nat} {β γ : Type} {a s : State} {b : β} {c : γ} (h : Moves m a s) : MovesSomeTrd m a (some (b, c, s)) := by
  intro x y t e; cases e; exact h

theorem movesSomeTrd_map {m : Nat} {α β γ : Type} {a : State} {o : Option α} {f : α → β × γ × State} (h : ∀ x, Moves m a (f x).2.2) :
    MovesSomeTrd m a (o.map f) := by
  intro x y t e
  cases o with
  | none => cases e
  | some v =>
    have g := h v
    rw [Option.some.inj e] at g
    exact g

theorem movesSomeTrd_none {m : Nat} {β γ : Type} {a : State} : MovesSomeTrd (β := β) (γ := γ) m a none := by intro x y t e; cases e

def MovesExcept (m : Nat) (a : State) : Except State State → Prop
  | .ok s => Moves m a s
  | .error s => Moves m a s

theorem movesExcept_ok {m : Nat} {a s : State} (h : Moves m a s) : MovesExcept m a (.ok s) := h

theorem movesExcept_error {m : Nat} {a s : State} (h : Moves m a s) : MovesExcept m a (.error s) := h

theorem MovesExcept.movesOk {m : Nat} {a s : State} {o : Except State State} (h : MovesExcept m a o) (e : o = .ok s) : Moves m a s := by rw [e] at h; exact h

theorem MovesExcept.movesError {m : Nat} {a s : State} {o : Except State State} (h : MovesExcept m a o) (e : o = .error s) : Moves m a s := by rw [e] at h; exact h

theorem MovesExcept.bind {m : Nat} {a : State} {o : Except State State} {f : State → Except State State} (h : MovesExcept m a o)
    (g : ∀ s, Moves m a s → MovesExcept m a (f s)) : MovesExcept m a (o.bind f) := by
  cases o with
  | ok s => exact g s h
  | error s => exact h

@[simp] theorem lmod_length {α : Type} (l : List α) (i : Nat) (f : α → α) : (lmod l i f).length = l.length := by
  unfold lmod; split <;> simp


/-- The bit of a piece in a mask, and the mask of a list of pieces. -/
def pieceBit (p : Piece) : Nat :=
  match p with
  | .now => 0
  | .out => 1
  | .hif => 2
  | .evt => 3
  | .hal => 4
  | .fabric => 5
  | .tiles => 6
  | .vtiles => 7
  | .wtiles => 8
  | .glue => 9
  | .steer => 10
  | .feed => 11
  | .streams => 12
  | .lanes => 13
  | .span => 14
  | .power => 15
  | .pins => 16
  | .sec => 17
  | .mgmt => 18
  | .trace => 19
  | .cnt => 20
  | .snap => 21
  | .boxes => 22
  | .fresh => 23
  | .memory => 24

def maskOf (l : List Piece) : Nat := l.foldr (fun p m => Nat.lor (2 ^ pieceBit p) m) 0

theorem maskOf_testBit {l : List Piece} {p : Piece} (h : p ∉ l) : (maskOf l).testBit (pieceBit p) = false := by
  induction l with
  | nil => exact Nat.zero_testBit _
  | cons q l ih =>
    have hq : pieceBit q ≠ pieceBit p := by
      intro e
      have : q = p := by cases q <;> cases p <;> first | rfl | exact absurd e (by decide)
      exact h (by simp [this])
    show (2 ^ pieceBit q ||| maskOf l).testBit (pieceBit p) = false
    rw [Nat.testBit_or, ih (fun x => h (List.mem_cons_of_mem _ x)), Nat.testBit_two_pow]
    simp [hq]

theorem FrameOf.same {l : List Piece} {a s : State} (h : FrameOf (maskOf l) a s) (p : Piece) (g : p ∉ l) : samePiece p a s := by
  have e := maskOf_testBit g
  cases p
  · exact h.b0 e
  · exact h.b1 e
  · exact h.b2 e
  · exact h.b3 e
  · exact h.b4 e
  · exact h.b5 e
  · exact h.b6 e
  · exact h.b7 e
  · exact h.b8 e
  · exact h.b9 e
  · exact h.b10 e
  · exact h.b11 e
  · exact h.b12 e
  · exact h.b13 e
  · exact h.b14 e
  · exact h.b15 e
  · exact h.b16 e
  · exact h.b17 e
  · exact h.b18 e
  · exact h.b19 e
  · exact h.b20 e
  · exact h.b21 e
  · exact h.b22 e
  · exact h.b23 e
  · exact h.b24 e

end Sys2Proof.Machine
end

