-- ==== Sys2Proof/Laws/MovesOps.lean ====
section
/-! SUPPORT. `Moves` for the operations of Machine/Ops.lean. -/

set_option linter.unusedTactic false
set_option linter.unreachableTactic false
set_option linter.tactic.unusedName false

namespace Sys2Proof.Machine

@[simp] theorem applyTally_progs (c : Counters) (t : Tally) : (applyTally c t).progs = c.progs := by
  unfold applyTally; split <;> rfl

theorem applyTallies_progs (l : List (Fc × Tally)) (c : Counters) : (l.foldl (fun c h => applyTally c h.2) c).progs = c.progs := by
  induction l generalizing c with
  | nil => rfl
  | cons x l ih => simp [ih]

@[simp] theorem foldTallies_progs (c : Counters) (t : Fc) : (foldTallies c t).progs = c.progs := by
  unfold foldTallies
  dsimp only
  split
  · rfl
  · exact applyTallies_progs _ _

theorem moves_setEvt {msk : Nat} (hm : maskSub 0x8 msk = true) {a s : State} {e : Evt} (h : Moves msk a s) (x : e.sources.length = s.evt.sources.length) (y : e.vectors.length = s.evt.vectors.length) :
    Moves msk a { s with evt := e } :=
  h.trans ⟨⟨rfl, Nat.le_refl _, id, SecKeeps.refl _, fun p => ⟨p.1, p.2, p.3, by rw [x]; exact p.4, by rw [y]; exact p.5, p.6, p.7, p.8, p.9, p.10, p.11, p.12, p.13, p.14⟩⟩,
    ⟨fun _ => rfl, fun _ => rfl, fun _ => rfl, maskHit hm rfl, fun _ => rfl, fun _ => rfl, fun _ => rfl, fun _ => rfl, fun _ => rfl, fun _ => rfl, fun _ => rfl, fun _ => rfl, fun _ => rfl, fun _ => rfl, fun _ => rfl, fun _ => rfl, fun _ => rfl, fun _ => rfl, fun _ => rfl, fun _ => rfl, fun _ => rfl, fun _ => rfl, fun _ => rfl, fun _ => rfl, fun _ => rfl⟩⟩

theorem moves_advance {msk : Nat} (hm : maskSub 0x1 msk = true) {a : State} {s : State} {t : Fc} (h : Moves msk a s) : Moves msk a (advance s t) := by
  exact h.trans ⟨⟨rfl, Nat.le_max_left _ _, id, SecKeeps.refl _, fun p => ⟨p.1, p.2, p.3, p.4, p.5, p.6, p.7, p.8, p.9, p.10, p.11, p.12, p.13, p.14⟩⟩, ⟨maskHit hm rfl, fun _ => rfl, fun _ => rfl, fun _ => rfl, fun _ => rfl, fun _ => rfl, fun _ => rfl, fun _ => rfl, fun _ => rfl, fun _ => rfl, fun _ => rfl, fun _ => rfl, fun _ => rfl, fun _ => rfl, fun _ => rfl, fun _ => rfl, fun _ => rfl, fun _ => rfl, fun _ => rfl, fun _ => rfl, fun _ => rfl, fun _ => rfl, fun _ => rfl, fun _ => rfl, fun _ => rfl⟩⟩

theorem moves_emit {msk : Nat} (hm : maskSub 0x2 msk = true) {a : State} {s : State} {o : Output} (h : Moves msk a s) : Moves msk a (emit s o) := by
  unfold emit
  repeat' first | exact maskSub_trans hm rfl | with_reducible assumption | ((with_reducible apply Moves.ofUpdate) <;> first | with_reducible assumption | with_reducible exact fun _ => rfl | exact id | exact maskHit hm rfl | exact fun _ => rfl | exact rfl) | split

theorem moves_drawn {msk : Nat} (hm : maskSub 0x800000 msk = true) {a : State} {s : State} (h : Moves msk a s) : Moves msk a (drawn s) := by
  unfold drawn
  repeat' first | exact maskSub_trans hm rfl | with_reducible assumption | ((with_reducible apply Moves.ofUpdate) <;> first | with_reducible assumption | with_reducible exact fun _ => rfl | exact id | exact maskHit hm rfl | exact fun _ => rfl | exact rfl) | split

theorem moves_emitWrites {msk : Nat} (hm : maskSub 0x2 msk = true) {a : State} {s : State} {ws : List (ℕ × List Byte)} (h : Moves msk a s) : Moves msk a (emitWrites s ws) := by
  unfold emitWrites
  repeat' first | exact maskSub_trans hm rfl | with_reducible assumption | ((with_reducible apply Moves.ofUpdate) <;> first | with_reducible assumption | with_reducible exact fun _ => rfl | exact id | exact maskHit hm rfl | exact fun _ => rfl | exact rfl) | split

theorem moves_rcNote {msk : Nat} (hm : maskSub 0x8 msk = true) {a : State} {s : State} {off : ℕ} {old : ℕ} (h : Moves msk a s) : Moves msk a (rcNote s off old) := by
  unfold rcNote
  repeat' first | exact maskSub_trans hm rfl | with_reducible assumption | ((with_reducible apply Moves.ofUpdate) <;> first | with_reducible assumption | with_reducible exact fun _ => rfl | exact id | exact maskHit hm rfl | exact fun _ => rfl | exact rfl) | split

theorem moves_sendMessage {msk : Nat} (hm : maskSub 0x6 msk = true) {a : State} {s : State} {v : ℕ} (h : Moves msk a s) : Moves msk a (sendMessage s v) := by
  unfold sendMessage
  repeat' first | (extract_lets +onlyGivenNames z; refine Moves.cut (m := msk) a z ?_ (fun hz => ?_) <;> [(dsimp -zeta only [z]; revert z; intro _); (clear_value z; revert z; intro _ _)]) | (extract_lets +onlyGivenNames z; revert z; intro _) | exact maskSub_trans hm rfl | with_reducible assumption | with_reducible refine Moves.foldl ?_ (fun s x h => ?_) | with_reducible exact Moves.refl _ | ((with_reducible apply Moves.ofUpdate) <;> first | with_reducible assumption | with_reducible exact fun _ => rfl | exact id | exact maskHit hm rfl | exact fun _ => rfl | exact rfl | (intro p; simpa +zetaDelta using p) | (intro p; dsimp +zetaDelta only; (repeat (first | split | (simpa using p))))) | split | (dsimp -zeta +zetaDelta only)

theorem moves_setNormal {msk : Nat} (hm : maskSub 0x8 msk = true) {a : State} {s : State} {l : EvtLog} (h : Moves msk a s) : Moves msk a (setNormal s l) := by
  unfold setNormal
  repeat' first | exact maskSub_trans hm rfl | with_reducible assumption | ((with_reducible apply Moves.ofUpdate) <;> first | with_reducible assumption | with_reducible exact fun _ => rfl | exact id | exact maskHit hm rfl | exact fun _ => rfl | exact rfl) | split

theorem moves_setFastLog {msk : Nat} (hm : maskSub 0x8 msk = true) {a : State} {s : State} {l : EvtLog} (h : Moves msk a s) : Moves msk a (setFastLog s l) := by
  unfold setFastLog
  repeat' first | exact maskSub_trans hm rfl | with_reducible assumption | ((with_reducible apply Moves.ofUpdate) <;> first | with_reducible assumption | with_reducible exact fun _ => rfl | exact id | exact maskHit hm rfl | exact fun _ => rfl | exact rfl) | split

theorem moves_setLog {msk : Nat} (hm : maskSub 0x8 msk = true) {a : State} {s : State} {fast : Bool} {l : EvtLog} (h : Moves msk a s) : Moves msk a (setLog s fast l) := by
  unfold setLog
  repeat' first | exact maskSub_trans hm rfl | with_reducible assumption | with_reducible apply moves_setFastLog | with_reducible apply moves_setNormal | split

theorem moves_logPut {msk : Nat} (hm : maskSub 0xa msk = true) {a : State} {s : State} {fast : Bool} {r : LogRecord} (h : Moves msk a s) : Moves msk a (logPut s fast r) := by
  unfold logPut
  repeat' first | (extract_lets +onlyGivenNames z; refine Moves.cut (m := msk) a z ?_ (fun hz => ?_) <;> [(dsimp -zeta only [z]; revert z; intro _); (clear_value z; revert z; intro _ _)]) | (extract_lets +onlyGivenNames z; revert z; intro _) | exact maskSub_trans hm rfl | with_reducible assumption | with_reducible apply moves_emitWrites | with_reducible apply moves_setLog | with_reducible apply moves_rcNote | with_reducible refine Moves.foldl ?_ (fun s x h => ?_) | with_reducible exact Moves.refl _ | split | (dsimp -zeta +zetaDelta only)

theorem moves_sendBehind {msk : Nat} (hm : maskSub 0xe msk = true) {a : State} {s : State} {v : ℕ} {r : Option (Bool × ℕ)} (h : Moves msk a s) : Moves msk a (sendBehind s v r) := by
  unfold sendBehind
  repeat' first | (extract_lets +onlyGivenNames z; refine Moves.cut (m := msk) a z ?_ (fun hz => ?_) <;> [(dsimp -zeta only [z]; revert z; intro _); (clear_value z; revert z; intro _ _)]) | (extract_lets +onlyGivenNames z; revert z; intro _) | exact maskSub_trans hm rfl | with_reducible assumption | with_reducible apply moves_sendMessage | with_reducible refine Moves.foldl ?_ (fun s x h => ?_) | with_reducible exact Moves.refl _ | ((with_reducible apply Moves.ofUpdate) <;> first | with_reducible assumption | with_reducible exact fun _ => rfl | exact id | exact maskHit hm rfl | exact fun _ => rfl | exact rfl | (intro p; simpa +zetaDelta using p) | (intro p; dsimp +zetaDelta only; (repeat (first | split | (simpa using p))))) | split | (dsimp -zeta +zetaDelta only)

theorem moves_messagesDue {msk : Nat} (hm : maskSub 0xe msk = true) {a : State} {s : State} {r : Bool × ℕ} (h : Moves msk a s) : Moves msk a (messagesDue s r) := by
  unfold messagesDue
  repeat' first | (extract_lets +onlyGivenNames z; refine Moves.cut (m := msk) a z ?_ (fun hz => ?_) <;> [(dsimp -zeta only [z]; revert z; intro _); (clear_value z; revert z; intro _ _)]) | (extract_lets +onlyGivenNames z; revert z; intro _) | exact maskSub_trans hm rfl | with_reducible assumption | with_reducible apply moves_sendMessage | with_reducible refine Moves.foldl ?_ (fun s x h => ?_) | with_reducible exact Moves.refl _ | ((with_reducible apply Moves.ofUpdate) <;> first | with_reducible assumption | with_reducible exact fun _ => rfl | exact id | exact maskHit hm rfl | exact fun _ => rfl | exact rfl | (intro p; simpa +zetaDelta using p) | (intro p; dsimp +zetaDelta only; (repeat (first | split | (simpa using p))))) | split | (dsimp -zeta +zetaDelta only)

theorem moves_deliverFast {msk : Nat} (hm : maskSub 0xe msk = true) {a : State} {s : State} {v : ℕ} {was : Bool} {r : Option (Bool × ℕ)} (h : Moves msk a s) : Moves msk a (deliverFast s v was r) := by
  unfold deliverFast
  repeat' first | exact maskSub_trans hm rfl | with_reducible assumption | with_reducible apply moves_sendBehind | split

theorem moves_deliverNormal {msk : Nat} (hm : maskSub 0xe msk = true) {a : State} {s : State} {v : ℕ} {r : Option (Bool × ℕ)} (h : Moves msk a s) : Moves msk a (deliverNormal s v r) := by
  unfold deliverNormal
  repeat' first | (extract_lets +onlyGivenNames z; refine Moves.cut (m := msk) a z ?_ (fun hz => ?_) <;> [(dsimp -zeta only [z]; revert z; intro _); (clear_value z; revert z; intro _ _)]) | (extract_lets +onlyGivenNames z; revert z; intro _) | exact maskSub_trans hm rfl | with_reducible assumption | with_reducible apply moves_sendBehind | with_reducible refine Moves.foldl ?_ (fun s x h => ?_) | with_reducible exact Moves.refl _ | ((with_reducible apply Moves.ofUpdate) <;> first | with_reducible assumption | with_reducible exact fun _ => rfl | exact id | exact maskHit hm rfl | exact fun _ => rfl | exact rfl | (intro p; simpa +zetaDelta using p) | (intro p; dsimp +zetaDelta only; (repeat (first | split | (simpa using p))))) | split | (dsimp -zeta +zetaDelta only)

theorem moves_noteFast {msk : Nat} (hm : maskSub 0x8 msk = true) {a : State} {s : State} {l : List Dword} (h : Moves msk a s) : Moves msk a (noteFast s l) := by
  unfold noteFast
  repeat' first | exact maskSub_trans hm rfl | with_reducible assumption | ((with_reducible apply Moves.ofUpdate) <;> first | with_reducible assumption | with_reducible exact fun _ => rfl | exact id | exact maskHit hm rfl | exact fun _ => rfl | exact rfl) | split

theorem moves_fireSource {msk : Nat} (hm : maskSub 0xe msk = true) {a : State} {s : State} {n : ℕ} {rec1 : Option LogRecord} (h : Moves msk a s) : Moves msk a (fireSource s n rec1) := by
  unfold fireSource
  repeat' first | (extract_lets +onlyGivenNames z; refine Moves.cut (m := msk) a z ?_ (fun hz => ?_) <;> [(dsimp -zeta only [z]; revert z; intro _); (clear_value z; revert z; intro _ _)]) | (extract_lets +onlyGivenNames z; revert z; intro _) | exact maskSub_trans hm rfl | with_reducible assumption | with_reducible apply moves_setLog | with_reducible apply moves_logPut | with_reducible apply moves_noteFast | with_reducible apply moves_deliverFast | with_reducible apply moves_deliverNormal | with_reducible refine Moves.foldl ?_ (fun s x h => ?_) | with_reducible exact Moves.refl _ | ((with_reducible apply Moves.ofUpdate) <;> first | with_reducible assumption | with_reducible exact fun _ => rfl | exact id | exact maskHit hm rfl | exact fun _ => rfl | exact rfl | (intro p; simpa +zetaDelta using p) | (intro p; dsimp +zetaDelta only; (repeat (first | split | (simpa using p))))) | split | (dsimp -zeta +zetaDelta only)

theorem moves_postEvent {msk : Nat} (hm : maskSub 0xe msk = true) {a : State} {s : State} {source : ℕ} {code : ℕ} {stream : Option ℕ} {site : Site} {frame : Dword} {time : Fc} {detail : Dword} (h : Moves msk a s) : Moves msk a (postEvent s source code stream site frame time detail) := by
  unfold postEvent
  repeat' first | exact maskSub_trans hm rfl | with_reducible assumption | with_reducible apply moves_fireSource | split

theorem moves_postDev {msk : Nat} (hm : maskSub 0xe msk = true) {a : State} {s : State} {source : ℕ} {code : ℕ} {site : Site} {time : Fc} {detail : ℕ} (h : Moves msk a s) : Moves msk a (postDev s source code site time detail) := by
  unfold postDev
  repeat' first | exact maskSub_trans hm rfl | with_reducible assumption | with_reducible apply moves_postEvent | split

theorem moves_postStream {msk : Nat} (hm : maskSub 0xe msk = true) {a : State} {s : State} {st : ℕ} {code : ℕ} {frame : Dword} {time : Fc} {detail : ℕ} (h : Moves msk a s) : Moves msk a (postStream s st code frame time detail) := by
  unfold postStream
  repeat' first | exact maskSub_trans hm rfl | with_reducible assumption | with_reducible apply moves_postEvent | split

theorem moves_heldStep {msk : Nat} (hm : maskSub 0xe msk = true) {a : State} {s : State} {fast : Bool} (h : Moves msk a s) : Moves msk a (heldStep s fast) := by
  unfold heldStep
  repeat' first | (extract_lets +onlyGivenNames z; refine Moves.cut (m := msk) a z ?_ (fun hz => ?_) <;> [(dsimp -zeta only [z]; revert z; intro _); (clear_value z; revert z; intro _ _)]) | (extract_lets +onlyGivenNames z; revert z; intro _) | exact maskSub_trans hm rfl | with_reducible assumption | with_reducible apply moves_messagesDue | with_reducible apply moves_emitWrites | with_reducible apply moves_setLog | with_reducible apply moves_noteFast | with_reducible apply moves_fireSource | split

theorem moves_heldLoop {msk : Nat} (hm : maskSub 0xe msk = true) {a s : State} {n : Nat} {fast : Bool} (h : Moves msk a s) : Moves msk a (heldLoop n s fast) := by
  induction n generalizing s with
  | zero => exact h
  | succ n ih => exact ih (moves_heldStep (maskSub_trans hm rfl) h)

theorem moves_heldDrain {msk : Nat} (hm : maskSub 0xe msk = true) {a : State} {s : State} {fast : Bool} (h : Moves msk a s) : Moves msk a (heldDrain s fast) := by
  unfold heldDrain
  repeat' first | exact maskSub_trans hm rfl | with_reducible assumption | with_reducible apply moves_heldLoop | split

theorem moves_foldCounters {msk : Nat} (hm : maskSub 0x10000e msk = true) {a : State} {s : State} (h : Moves msk a s) : Moves msk a (foldCounters s) := by
  unfold foldCounters
  repeat' first | (extract_lets +onlyGivenNames z; refine Moves.cut (m := msk) a z ?_ (fun hz => ?_) <;> [(dsimp -zeta only [z]; revert z; intro _); (clear_value z; revert z; intro _ _)]) | (extract_lets +onlyGivenNames z; revert z; intro _) | exact maskSub_trans hm rfl | with_reducible assumption | with_reducible apply moves_postDev | with_reducible refine Moves.foldl ?_ (fun s x h => ?_) | with_reducible exact Moves.refl _ | ((with_reducible apply Moves.ofUpdate) <;> first | with_reducible assumption | with_reducible exact fun _ => rfl | exact id | exact maskHit hm rfl | exact fun _ => rfl | exact rfl | (intro p; simpa +zetaDelta using p) | (intro p; dsimp +zetaDelta only; (repeat (first | split | (simpa using p))))) | split | (dsimp -zeta +zetaDelta only)

theorem moves_tally {msk : Nat} (hm : maskSub 0x10000e msk = true) {a : State} {s : State} {t : Tally} (h : Moves msk a s) : Moves msk a (tally s t) := by
  unfold tally
  repeat' first | (extract_lets +onlyGivenNames z; refine Moves.cut (m := msk) a z ?_ (fun hz => ?_) <;> [(dsimp -zeta only [z]; revert z; intro _); (clear_value z; revert z; intro _ _)]) | (extract_lets +onlyGivenNames z; revert z; intro _) | exact maskSub_trans hm rfl | with_reducible assumption | with_reducible apply moves_foldCounters | with_reducible refine Moves.foldl ?_ (fun s x h => ?_) | with_reducible exact Moves.refl _ | ((with_reducible apply Moves.ofUpdate) <;> first | with_reducible assumption | with_reducible exact fun _ => rfl | exact id | exact maskHit hm rfl | exact fun _ => rfl | exact rfl | (intro p; simpa +zetaDelta using p) | (intro p; dsimp +zetaDelta only; (repeat (first | split | (simpa using p))))) | split | (dsimp -zeta +zetaDelta only)

theorem moves_count {msk : Nat} (hm : maskSub 0x10000e msk = true) {a : State} {s : State} {k : ℕ × ℕ} {n : ℕ} (h : Moves msk a s) : Moves msk a (count s k n) := by
  unfold count
  repeat' first | exact maskSub_trans hm rfl | with_reducible assumption | with_reducible apply moves_tally | split

theorem moves_countEvent {msk : Nat} (hm : maskSub 0x10000e msk = true) {a : State} {s : State} {ev : ℕ} {site : Site} {stream : Option ℕ} {addr : ℕ} {cls : ℕ} {priv : Bool} (h : Moves msk a s) : Moves msk a (countEvent s ev site stream addr cls priv) := by
  unfold countEvent
  repeat' first | exact maskSub_trans hm rfl | with_reducible assumption | with_reducible apply moves_tally | split

theorem moves_traceEnter {msk : Nat} (hm : maskSub 0x18000e msk = true) {a : State} {s : State} {r : TraceRec} (h : Moves msk a s) : Moves msk a (traceEnter s r) := by
  unfold traceEnter
  repeat' first | (extract_lets +onlyGivenNames z; refine Moves.cut (m := msk) a z ?_ (fun hz => ?_) <;> [(dsimp -zeta only [z]; revert z; intro _); (clear_value z; revert z; intro _ _)]) | (extract_lets +onlyGivenNames z; revert z; intro _) | exact maskSub_trans hm rfl | with_reducible assumption | with_reducible apply moves_count | with_reducible apply moves_rcNote | with_reducible apply moves_postDev | with_reducible refine Moves.foldl ?_ (fun s x h => ?_) | with_reducible exact Moves.refl _ | ((with_reducible apply Moves.ofUpdate) <;> first | with_reducible assumption | with_reducible exact fun _ => rfl | exact id | exact maskHit hm rfl | exact fun _ => rfl | exact rfl | (intro p; simpa +zetaDelta using p) | (intro p; dsimp +zetaDelta only; (repeat (first | split | (simpa using p))))) | split | (dsimp -zeta +zetaDelta only)

theorem moves_traceTrigger {msk : Nat} (hm : maskSub 0x18000e msk = true) {a : State} {s : State} {src : ℕ} {byType : ℕ} {buf : ℕ} (h : Moves msk a s) : Moves msk a (traceTrigger s src byType buf) := by
  unfold traceTrigger
  repeat' first | exact maskSub_trans hm rfl | with_reducible assumption | with_reducible apply moves_postDev | with_reducible apply moves_traceEnter | with_reducible apply moves_count | ((with_reducible apply Moves.ofUpdate) <;> first | with_reducible assumption | with_reducible exact fun _ => rfl | exact id | exact maskHit hm rfl | exact fun _ => rfl | exact rfl) | split

theorem moves_traceAt {msk : Nat} (hm : maskSub 0x18000e msk = true) {a : State} {s : State} {type : ℕ} {site : Site} {stream : Option ℕ} {frame : Dword} {d0 : Dword} {d1 : Dword} {d2 : Dword} {time : Fc} (h : Moves msk a s) : Moves msk a (traceAt s type site stream frame d0 d1 d2 time) := by
  unfold traceAt
  repeat' first | (extract_lets +onlyGivenNames z; refine Moves.cut (m := msk) a z ?_ (fun hz => ?_) <;> [(dsimp -zeta only [z]; revert z; intro _); (clear_value z; revert z; intro _ _)]) | (extract_lets +onlyGivenNames z; revert z; intro _) | exact maskSub_trans hm rfl | with_reducible assumption | with_reducible apply moves_traceEnter | with_reducible apply moves_traceTrigger | split

theorem moves_traceNow {msk : Nat} (hm : maskSub 0x18000e msk = true) {a : State} {s : State} {type : ℕ} {site : Site} {stream : Option ℕ} {frame : Dword} {d0 : ℕ} {d1 : ℕ} {d2 : ℕ} (h : Moves msk a s) : Moves msk a (traceNow s type site stream frame d0 d1 d2) := by
  unfold traceNow
  repeat' first | exact maskSub_trans hm rfl | with_reducible assumption | with_reducible apply moves_traceAt | split

theorem moves_fatalStop {msk : Nat} (hm : maskSub 0x5014 msk = true) {a : State} {s : State} (h : Moves msk a s) : Moves msk a (fatalStop s) := by
  unfold fatalStop
  repeat' first | (extract_lets +onlyGivenNames z; refine Moves.cut (m := msk) a z ?_ (fun hz => ?_) <;> [(dsimp -zeta only [z]; revert z; intro _); (clear_value z; revert z; intro _ _)]) | (extract_lets +onlyGivenNames z; revert z; intro _) | exact maskSub_trans hm rfl | with_reducible assumption | with_reducible refine Moves.foldl ?_ (fun s x h => ?_) | with_reducible exact Moves.refl _ | ((with_reducible apply Moves.ofUpdate) <;> first | with_reducible assumption | with_reducible exact fun _ => rfl | exact id | exact maskHit hm rfl | exact fun _ => rfl | exact rfl | (intro p; simpa +zetaDelta using p) | (intro p; dsimp +zetaDelta only; (repeat (first | split | (simpa using p))))) | split | (dsimp -zeta +zetaDelta only)

theorem moves_spanClosed {msk : Nat} (hm : maskSub 0xe msk = true) {a : State} {before : State} {s : State} (h : Moves msk a s) : Moves msk a (spanClosed before s) := by
  unfold spanClosed
  repeat' first | (extract_lets +onlyGivenNames z; refine Moves.cut (m := msk) a z ?_ (fun hz => ?_) <;> [(dsimp -zeta only [z]; revert z; intro _); (clear_value z; revert z; intro _ _)]) | (extract_lets +onlyGivenNames z; revert z; intro _) | exact maskSub_trans hm rfl | with_reducible assumption | with_reducible apply moves_postDev | with_reducible refine Moves.foldl ?_ (fun s x h => ?_) | with_reducible exact Moves.refl _ | split | (dsimp -zeta +zetaDelta only)

theorem moves_faultTraced {msk : Nat} (hm : maskSub 0x18000e msk = true) {a : State} {s1 : State} {code : ℕ} {cls : ℕ} {site : Site} {stream : Option ℕ} {frame : Dword} {d0 : Dword} {d1 : Dword} {time : Fc} (h : Moves msk a s1) : Moves msk a (faultTraced s1 code cls site stream frame d0 d1 time) := by
  unfold faultTraced
  repeat' first | (extract_lets +onlyGivenNames z; refine Moves.cut (m := msk) a z ?_ (fun hz => ?_) <;> [(dsimp -zeta only [z]; revert z; intro _); (clear_value z; revert z; intro _ _)]) | (extract_lets +onlyGivenNames z; revert z; intro _) | exact maskSub_trans hm rfl | with_reducible assumption | with_reducible apply moves_countEvent | with_reducible apply moves_traceAt | with_reducible apply moves_traceTrigger | split

theorem moves_faultPlain {msk : Nat} (hm : maskSub 0x18000e msk = true) {a : State} {s : State} {code : ℕ} {cls : ℕ} {site : Site} {stream : Option ℕ} {frame : Dword} {d0 : Dword} {d1 : Dword} {time : Fc} (h : Moves msk a s) : Moves msk a (faultPlain s code cls site stream frame d0 d1 time) := by
  unfold faultPlain
  repeat' first | exact maskSub_trans hm rfl | with_reducible assumption | with_reducible apply moves_faultTraced | with_reducible apply moves_fireSource | split

theorem moves_faultAt {msk : Nat} (hm : maskSub 0x19501e msk = true) {a : State} {s : State} {code : ℕ} {cls : ℕ} {site : Site} {stream : Option ℕ} {frame : Dword} {d0 : Dword} {d1 : Dword} {time : Fc} (h : Moves msk a s) : Moves msk a (faultAt s code cls site stream frame d0 d1 time) := by
  unfold faultAt
  repeat' first | (extract_lets +onlyGivenNames z; refine Moves.cut (m := msk) a z ?_ (fun hz => ?_) <;> [(dsimp -zeta only [z]; revert z; intro _); (clear_value z; revert z; intro _ _)]) | (extract_lets +onlyGivenNames z; revert z; intro _) | exact maskSub_trans hm rfl | with_reducible assumption | with_reducible apply moves_fireSource | with_reducible apply moves_faultTraced | with_reducible apply moves_spanClosed | with_reducible apply moves_fatalStop | with_reducible refine Moves.foldl ?_ (fun s x h => ?_) | with_reducible exact Moves.refl _ | ((with_reducible apply Moves.ofUpdate) <;> first | with_reducible assumption | with_reducible exact fun _ => rfl | exact id | exact maskHit hm rfl | exact fun _ => rfl | exact rfl | (intro p; simpa +zetaDelta using p) | (intro p; dsimp +zetaDelta only; (repeat (first | split | (simpa using p))))) | split | (dsimp -zeta +zetaDelta only)

theorem moves_fault {msk : Nat} (hm : maskSub 0x19501e msk = true) {a : State} {s : State} {code : ℕ} {cls : ℕ} {site : Site} {d0 : Dword} {d1 : Dword} (h : Moves msk a s) : Moves msk a (fault s code cls site d0 d1) := by
  unfold fault
  repeat' first | (extract_lets +onlyGivenNames z; refine Moves.cut (m := msk) a z ?_ (fun hz => ?_) <;> [(dsimp -zeta only [z]; revert z; intro _); (clear_value z; revert z; intro _ _)]) | (extract_lets +onlyGivenNames z; revert z; intro _) | exact maskSub_trans hm rfl | with_reducible assumption | with_reducible apply moves_faultAt | split

theorem moves_faultFrame {msk : Nat} (hm : maskSub 0x19501e msk = true) {a : State} {s : State} {code : ℕ} {cls : ℕ} {site : Site} {stream : ℕ} {frame : ℕ} {d0 : Dword} {d1 : Dword} (h : Moves msk a s) : Moves msk a (faultFrame s code cls site stream frame d0 d1) := by
  unfold faultFrame
  repeat' first | (extract_lets +onlyGivenNames z; refine Moves.cut (m := msk) a z ?_ (fun hz => ?_) <;> [(dsimp -zeta only [z]; revert z; intro _); (clear_value z; revert z; intro _ _)]) | (extract_lets +onlyGivenNames z; revert z; intro _) | exact maskSub_trans hm rfl | with_reducible assumption | with_reducible apply moves_faultAt | split

theorem moves_setRing {msk : Nat} (hm : maskSub 0x4 msk = true) {a : State} {s : State} {r : ℕ} {x : Ring} (h : Moves msk a s) : Moves msk a (setRing s r x) := by
  unfold setRing
  repeat' first | (extract_lets +onlyGivenNames z; refine Moves.cut (m := msk) a z ?_ (fun hz => ?_) <;> [(dsimp -zeta only [z]; revert z; intro _); (clear_value z; revert z; intro _ _)]) | (extract_lets +onlyGivenNames z; revert z; intro _) | exact maskSub_trans hm rfl | with_reducible assumption | with_reducible refine Moves.foldl ?_ (fun s x h => ?_) | with_reducible exact Moves.refl _ | ((with_reducible apply Moves.ofUpdate) <;> first | with_reducible assumption | with_reducible exact fun _ => rfl | exact id | exact maskHit hm rfl | exact fun _ => rfl | exact rfl | (intro p; simpa +zetaDelta using p) | (intro p; dsimp +zetaDelta only; (repeat (first | split | (simpa using p))))) | split | (dsimp -zeta +zetaDelta only)

theorem moves_modRing {msk : Nat} (hm : maskSub 0x4 msk = true) {a : State} {s : State} {r : ℕ} {f : Ring → Ring} (h : Moves msk a s) : Moves msk a (modRing s r f) := by
  unfold modRing
  repeat' first | (extract_lets +onlyGivenNames z; refine Moves.cut (m := msk) a z ?_ (fun hz => ?_) <;> [(dsimp -zeta only [z]; revert z; intro _); (clear_value z; revert z; intro _ _)]) | (extract_lets +onlyGivenNames z; revert z; intro _) | exact maskSub_trans hm rfl | with_reducible assumption | with_reducible refine Moves.foldl ?_ (fun s x h => ?_) | with_reducible exact Moves.refl _ | ((with_reducible apply Moves.ofUpdate) <;> first | with_reducible assumption | with_reducible exact fun _ => rfl | exact id | exact maskHit hm rfl | exact fun _ => rfl | exact rfl | (intro p; simpa +zetaDelta using p) | (intro p; dsimp +zetaDelta only; (repeat (first | split | (simpa using p))))) | split | (dsimp -zeta +zetaDelta only)

theorem moves_dataFails {msk : Nat} (hm : maskSub 0x18000e msk = true) {a : State} {s : State} {ring : ℕ} {tag : ℕ} {addr : ℕ} (h : Moves msk a s) : Moves msk a (dataFails s ring tag addr) := by
  unfold dataFails
  repeat' first | exact maskSub_trans hm rfl | with_reducible assumption | with_reducible apply moves_faultPlain | split

theorem moves_writeCompletion {msk : Nat} (hm : maskSub 0x18000e msk = true) {a : State} {s : State} {c : HeldCompletion} (h : Moves msk a s) : Moves msk a (writeCompletion s c) := by
  unfold writeCompletion
  repeat' first | (extract_lets +onlyGivenNames z; refine Moves.cut (m := msk) a z ?_ (fun hz => ?_) <;> [(dsimp -zeta only [z]; revert z; intro _); (clear_value z; revert z; intro _ _)]) | (extract_lets +onlyGivenNames z; revert z; intro _) | exact maskSub_trans hm rfl | with_reducible assumption | with_reducible apply moves_emitWrites | with_reducible apply moves_emit | with_reducible apply moves_setRing | with_reducible apply moves_countEvent | with_reducible apply moves_traceNow | with_reducible apply moves_fireSource | split

theorem moves_complete {msk : Nat} (hm : maskSub 0x18000e msk = true) {a : State} {s : State} {c : HeldCompletion} (h : Moves msk a s) : Moves msk a (complete s c) := by
  unfold complete
  repeat' first | exact maskSub_trans hm rfl | with_reducible assumption | with_reducible apply moves_dataFails | with_reducible apply moves_writeCompletion | ((with_reducible apply Moves.ofUpdate) <;> first | with_reducible assumption | with_reducible exact fun _ => rfl | exact id | exact maskHit hm rfl | exact fun _ => rfl | exact rfl) | split

theorem moves_releaseHeld {msk : Nat} (hm : maskSub 0x18000e msk = true) {a : State} {s : State} (h : Moves msk a s) : Moves msk a (releaseHeld s) := by
  unfold releaseHeld
  repeat' first | (extract_lets +onlyGivenNames z; refine Moves.cut (m := msk) a z ?_ (fun hz => ?_) <;> [(dsimp -zeta only [z]; revert z; intro _); (clear_value z; revert z; intro _ _)]) | (extract_lets +onlyGivenNames z; revert z; intro _) | exact maskSub_trans hm rfl | with_reducible assumption | with_reducible apply moves_writeCompletion | with_reducible refine Moves.foldl ?_ (fun s x h => ?_) | with_reducible exact Moves.refl _ | ((with_reducible apply Moves.ofUpdate) <;> first | with_reducible assumption | with_reducible exact fun _ => rfl | exact id | exact maskHit hm rfl | exact fun _ => rfl | exact rfl | (intro p; simpa +zetaDelta using p) | (intro p; dsimp +zetaDelta only; (repeat (first | split | (simpa using p))))) | split | (dsimp -zeta +zetaDelta only)

theorem moves_askReset {msk : Nat} (hm : maskSub 0x40000 msk = true) {a : State} {s : State} (h : Moves msk a s) : Moves msk a (askReset s) := by
  unfold askReset
  repeat' first | exact maskSub_trans hm rfl | with_reducible assumption | ((with_reducible apply Moves.ofUpdate) <;> first | with_reducible assumption | with_reducible exact fun _ => rfl | exact id | exact maskHit hm rfl | exact fun _ => rfl | exact rfl) | split

theorem moves_resetFrom {msk : Nat} (hm : maskSub 0x40000 msk = true) {a : State} {s : State} (h : Moves msk a s) : Moves msk a (resetFrom s) := by
  unfold resetFrom
  repeat' first | exact maskSub_trans hm rfl | with_reducible assumption | ((with_reducible apply Moves.ofUpdate) <;> first | with_reducible assumption | with_reducible exact fun _ => rfl | exact id | exact maskHit hm rfl | exact fun _ => rfl | exact rfl) | split

theorem moves_finishPend {msk : Nat} (hm : maskSub 0x18000e msk = true) {a : State} {s : State} {c : PendCmd} {status : ℕ} {detail : Dword} {time : Fc} {writes : List (ℕ × List Byte)} (h : Moves msk a s) : Moves msk a (finishPend s c status detail time writes) := by
  unfold finishPend
  repeat' first | exact maskSub_trans hm rfl | with_reducible assumption | with_reducible apply moves_complete | ((with_reducible apply Moves.ofUpdate) <;> first | with_reducible assumption | with_reducible exact fun _ => rfl | exact id | exact maskHit hm rfl | exact fun _ => rfl | exact rfl) | split

theorem moves_finishFirst {msk : Nat} (hm : maskSub 0x18000e msk = true) {a : State} {s : State} {p : PendKind → Bool} {status : ℕ} {detail : Dword} {time : Fc} {writes : (List (ℕ × List Byte))} (h : Moves msk a s) : Moves msk a (finishFirst s p status detail time writes) := by
  unfold finishFirst
  repeat' first | exact maskSub_trans hm rfl | with_reducible assumption | with_reducible apply moves_finishPend | split

theorem moves_finishEvery {msk : Nat} (hm : maskSub 0x18000e msk = true) {a : State} {s : State} {p : PendKind → Bool} {status : ℕ} {detail : Dword} {time : Fc} (h : Moves msk a s) : Moves msk a (finishEvery s p status detail time) := by
  unfold finishEvery
  repeat' first | (extract_lets +onlyGivenNames z; refine Moves.cut (m := msk) a z ?_ (fun hz => ?_) <;> [(dsimp -zeta only [z]; revert z; intro _); (clear_value z; revert z; intro _ _)]) | (extract_lets +onlyGivenNames z; revert z; intro _) | exact maskSub_trans hm rfl | with_reducible assumption | with_reducible apply moves_finishPend | with_reducible refine Moves.foldl ?_ (fun s x h => ?_) | with_reducible exact Moves.refl _ | split | (dsimp -zeta +zetaDelta only)

theorem moves_done {msk : Nat} (hm : maskSub 0x0 msk = true) {a : State} {s : State} (h : Moves msk a s) : MovesNext msk a (done s) := by
  unfold done
  repeat' first | with_reducible apply movesNext_done | with_reducible apply movesNext_next | exact maskSub_trans hm rfl | with_reducible assumption | split

end Sys2Proof.Machine
end

