-- ==== Sys2Proof/Laws/MovesTake.lean ====
section
/-! SUPPORT. `Moves` for the operations of Machine/Take.lean. -/

set_option linter.unusedTactic false
set_option linter.unreachableTactic false
set_option linter.tactic.unusedName false

namespace Sys2Proof.Machine

theorem moves_fetched {msk : Nat} (hm : maskSub 0x4 msk = true) {a : State} {s : State} {c : HostCmd} (h : Moves msk a s) : Moves msk a (fetched s c) := by
  unfold fetched
  repeat' first | exact maskSub_trans hm rfl | with_reducible assumption | with_reducible apply moves_modRing | split

theorem moves_taken {msk : Nat} (hm : maskSub 0x4 msk = true) {a : State} {s : State} {c : HostCmd} (h : Moves msk a s) : Moves msk a (taken s c) := by
  unfold taken
  repeat' first | exact maskSub_trans hm rfl | with_reducible assumption | with_reducible apply moves_fetched | ((with_reducible apply Moves.ofUpdate) <;> first | with_reducible assumption | with_reducible exact fun _ => rfl | exact id | exact maskHit hm rfl | exact fun _ => rfl | exact rfl) | split

theorem moves_refuse {msk : Nat} (hm : maskSub 0x0 msk = true) {a : State} {s : State} {status : ℕ} {detail : ℕ} (h : Moves msk a s) : MovesVerdict msk a (refuse s status detail) := by
  unfold refuse
  repeat' first | with_reducible apply movesVerdict_finish | with_reducible apply movesVerdict_pend | exact maskSub_trans hm rfl | with_reducible assumption | split

theorem moves_okAt {msk : Nat} (hm : maskSub 0x0 msk = true) {a : State} {s : State} {detail : ℕ} (h : Moves msk a s) : MovesVerdict msk a (okAt s detail) := by
  unfold okAt
  repeat' first | with_reducible apply movesVerdict_finish | with_reducible apply movesVerdict_pend | exact maskSub_trans hm rfl | with_reducible assumption | split

theorem moves_finishTaken {msk : Nat} (hm : maskSub 0x18000e msk = true) {a : State} {s : State} {c : HostCmd} {status : ℕ} {detail : ℕ} {writes : List (ℕ × List Byte)} (h : Moves msk a s) : Moves msk a (finishTaken s c status detail writes) := by
  unfold finishTaken
  repeat' first | exact maskSub_trans hm rfl | with_reducible assumption | with_reducible apply moves_complete | split

theorem moves_pendTaken {msk : Nat} (hm : maskSub 0x18000e msk = true) {a : State} {s : State} {c : HostCmd} {kind : PendKind} (h : Moves msk a s) : Moves msk a (pendTaken s c kind) := by
  unfold pendTaken
  repeat' first | exact maskSub_trans hm rfl | with_reducible assumption | with_reducible apply moves_complete | ((with_reducible apply Moves.ofUpdate) <;> first | with_reducible assumption | with_reducible exact fun _ => rfl | exact id | exact maskHit hm rfl | exact fun _ => rfl | exact rfl) | split

theorem moves_conclude {msk : Nat} (hm : maskSub 0x18000e msk = true) {a s : State} {c : HostCmd} {v : Verdict} (h : Moves msk a s) (g : MovesVerdict msk a v) : Moves msk a (conclude s c v) := by
  unfold conclude
  split
  · exact moves_finishTaken (maskSub_trans hm rfl) g
  · split
    · exact moves_finishTaken (maskSub_trans hm rfl) h
    · exact moves_pendTaken (maskSub_trans hm rfl) g

theorem moves_beginTrace {msk : Nat} (hm : maskSub 0x18000e msk = true) {a : State} {s : State} {c : HostCmd} (h : Moves msk a s) : Moves msk a (beginTrace s c) := by
  unfold beginTrace
  repeat' first | exact maskSub_trans hm rfl | with_reducible assumption | with_reducible apply moves_traceNow | split

theorem moves_aerReport {msk : Nat} (hm : maskSub 0x4 msk = true) {a : State} {s : State} {e : PcieError} (h : Moves msk a s) : Moves msk a (aerReport s e) := by
  unfold aerReport
  repeat' first | exact maskSub_trans hm rfl | with_reducible assumption | ((with_reducible apply Moves.ofUpdate) <;> first | with_reducible assumption | with_reducible exact fun _ => rfl | exact id | exact maskHit hm rfl | exact fun _ => rfl | exact rfl) | split

theorem moves_readFailed {msk : Nat} (hm : maskSub 0x800004 msk = true) {a : State} {s : State} (h : Moves msk a s) : Moves msk a (readFailed s) := by
  unfold readFailed
  repeat' first | exact maskSub_trans hm rfl | with_reducible assumption | with_reducible apply moves_drawn | with_reducible apply moves_aerReport | split

theorem moves_hostAccessFailed {msk : Nat} (hm : maskSub 0x98000e msk = true) {a : State} {s : State} {c : HostCmd} {n : ℕ} {addr : ℕ → ℕ} (h : Moves msk a s) : MovesVerdict msk a (hostAccessFailed s c n addr) := by
  unfold hostAccessFailed
  repeat' first | with_reducible apply movesVerdict_finish | with_reducible apply movesVerdict_pend | exact maskSub_trans hm rfl | with_reducible assumption | with_reducible apply moves_dataFails | with_reducible apply moves_readFailed | split

theorem moves_takeCmd {msk : Nat} (hm : maskSub 0x18000e msk = true) {a s : State} {c : HostCmd} {op form : Nat} {body : State → Packet → Verdict} (h : Moves msk a s)
    (g : ∀ s p, Moves msk a s → MovesVerdict msk a (body s p)) : MovesNext msk a (takeCmd s c op form body) := by
  have h1 : Moves msk a (beginTrace (taken s c) c) := moves_beginTrace (maskSub_trans hm rfl) (moves_taken (maskSub_trans hm rfl) h)
  unfold takeCmd
  split
  · dsimp only
    split
    · exact movesNext_done (moves_finishTaken (maskSub_trans hm rfl) h1)
    · exact movesNext_done (moves_conclude (maskSub_trans hm rfl) h1 (g _ _ h1))
  · exact movesNext_done h

end Sys2Proof.Machine
end

