-- ==== Sys2Proof/Laws/MovesLinks.lean ====
section
/-! SUPPORT. `Moves` for the operations of Machine/Links.lean. -/

set_option linter.unusedTactic false
set_option linter.unreachableTactic false
set_option linter.tactic.unusedName false

namespace Sys2Proof.Machine

theorem moves_setTile {msk : Nat} (hm : maskSub 0x40 msk = true) {a : State} {s : State} {u : Site} {t : MatrixTile} (h : Moves msk a s) : Moves msk a (setTile s u t) := by
  unfold setTile
  repeat' first | exact maskSub_trans hm rfl | with_reducible assumption | ((with_reducible apply Moves.ofUpdate) <;> first | with_reducible assumption | with_reducible exact fun _ => rfl | exact id | exact maskHit hm rfl | exact fun _ => rfl | exact rfl) | split

theorem moves_setVtile {msk : Nat} (hm : maskSub 0x80 msk = true) {a : State} {s : State} {u : Site} {t : VectorTile} (h : Moves msk a s) : Moves msk a (setVtile s u t) := by
  unfold setVtile
  repeat' first | exact maskSub_trans hm rfl | with_reducible assumption | ((with_reducible apply Moves.ofUpdate) <;> first | with_reducible assumption | with_reducible exact fun _ => rfl | exact id | exact maskHit hm rfl | exact fun _ => rfl | exact rfl) | split

theorem moves_setWtile {msk : Nat} (hm : maskSub 0x100 msk = true) {a : State} {s : State} {u : Site} {t : WindowTile} (h : Moves msk a s) : Moves msk a (setWtile s u t) := by
  unfold setWtile
  repeat' first | exact maskSub_trans hm rfl | with_reducible assumption | ((with_reducible apply Moves.ofUpdate) <;> first | with_reducible assumption | with_reducible exact fun _ => rfl | exact id | exact maskHit hm rfl | exact fun _ => rfl | exact rfl) | split

theorem moves_setGlue {msk : Nat} (hm : maskSub 0x200 msk = true) {a : State} {s : State} {u : Site} {t : GlueBlock} (h : Moves msk a s) : Moves msk a (setGlue s u t) := by
  unfold setGlue
  repeat' first | exact maskSub_trans hm rfl | with_reducible assumption | ((with_reducible apply Moves.ofUpdate) <;> first | with_reducible assumption | with_reducible exact fun _ => rfl | exact id | exact maskHit hm rfl | exact fun _ => rfl | exact rfl) | split

theorem moves_setSteer {msk : Nat} (hm : maskSub 0x400 msk = true) {a : State} {s : State} {u : Site} {t : SteeringUnit} (h : Moves msk a s) : Moves msk a (setSteer s u t) := by
  unfold setSteer
  repeat' first | exact maskSub_trans hm rfl | with_reducible assumption | ((with_reducible apply Moves.ofUpdate) <;> first | with_reducible assumption | with_reducible exact fun _ => rfl | exact id | exact maskHit hm rfl | exact fun _ => rfl | exact rfl) | split

theorem moves_setQueue {msk : Nat} (hm : maskSub 0x800 msk = true) {a : State} {s : State} {q : ℕ} {x : MemQueue} (h : Moves msk a s) : Moves msk a (setQueue s q x) := by
  unfold setQueue
  repeat' first | exact maskSub_trans hm rfl | with_reducible assumption | ((with_reducible apply Moves.ofUpdate) <;> first | with_reducible assumption | with_reducible exact fun _ => rfl | exact id | exact maskHit hm rfl | exact fun _ => rfl | exact rfl) | split

theorem moves_setChannel {msk : Nat} (hm : maskSub 0x800 msk = true) {a : State} {s : State} {c : ℕ} {x : Channel} (h : Moves msk a s) : Moves msk a (setChannel s c x) := by
  unfold setChannel
  repeat' first | (extract_lets +onlyGivenNames z; refine Moves.cut (m := msk) a z ?_ (fun hz => ?_) <;> [(dsimp -zeta only [z]; revert z; intro _); (clear_value z; revert z; intro _ _)]) | (extract_lets +onlyGivenNames z; revert z; intro _) | exact maskSub_trans hm rfl | with_reducible assumption | with_reducible refine Moves.foldl ?_ (fun s x h => ?_) | with_reducible exact Moves.refl _ | ((with_reducible apply Moves.ofUpdate) <;> first | with_reducible assumption | with_reducible exact fun _ => rfl | exact id | exact maskHit hm rfl | exact fun _ => rfl | exact rfl | (intro p; simpa +zetaDelta using p) | (intro p; dsimp +zetaDelta only; (repeat (first | split | (simpa using p))))) | split | (dsimp -zeta +zetaDelta only)

theorem moves_setStream {msk : Nat} (hm : maskSub 0x1000 msk = true) {a : State} {s : State} {st : ℕ} {c : StreamCtx} (h : Moves msk a s) : Moves msk a (setStream s st c) := by
  unfold setStream
  repeat' first | (extract_lets +onlyGivenNames z; refine Moves.cut (m := msk) a z ?_ (fun hz => ?_) <;> [(dsimp -zeta only [z]; revert z; intro _); (clear_value z; revert z; intro _ _)]) | (extract_lets +onlyGivenNames z; revert z; intro _) | exact maskSub_trans hm rfl | with_reducible assumption | with_reducible refine Moves.foldl ?_ (fun s x h => ?_) | with_reducible exact Moves.refl _ | ((with_reducible apply Moves.ofUpdate) <;> first | with_reducible assumption | with_reducible exact fun _ => rfl | exact id | exact maskHit hm rfl | exact fun _ => rfl | exact rfl | (intro p; simpa +zetaDelta using p) | (intro p; dsimp +zetaDelta only; (repeat (first | split | (simpa using p))))) | split | (dsimp -zeta +zetaDelta only)

theorem moves_modStream {msk : Nat} (hm : maskSub 0x1000 msk = true) {a : State} {s : State} {st : ℕ} {f : StreamCtx → StreamCtx} (h : Moves msk a s) : Moves msk a (modStream s st f) := by
  unfold modStream
  repeat' first | (extract_lets +onlyGivenNames z; refine Moves.cut (m := msk) a z ?_ (fun hz => ?_) <;> [(dsimp -zeta only [z]; revert z; intro _); (clear_value z; revert z; intro _ _)]) | (extract_lets +onlyGivenNames z; revert z; intro _) | exact maskSub_trans hm rfl | with_reducible assumption | with_reducible refine Moves.foldl ?_ (fun s x h => ?_) | with_reducible exact Moves.refl _ | ((with_reducible apply Moves.ofUpdate) <;> first | with_reducible assumption | with_reducible exact fun _ => rfl | exact id | exact maskHit hm rfl | exact fun _ => rfl | exact rfl | (intro p; simpa +zetaDelta using p) | (intro p; dsimp +zetaDelta only; (repeat (first | split | (simpa using p))))) | split | (dsimp -zeta +zetaDelta only)

theorem moves_setSpan {msk : Nat} (hm : maskSub 0x4000 msk = true) {a : State} {s : State} {p : ℕ} {x : SpanPort} (h : Moves msk a s) : Moves msk a (setSpan s p x) := by
  unfold setSpan
  repeat' first | (extract_lets +onlyGivenNames z; refine Moves.cut (m := msk) a z ?_ (fun hz => ?_) <;> [(dsimp -zeta only [z]; revert z; intro _); (clear_value z; revert z; intro _ _)]) | (extract_lets +onlyGivenNames z; revert z; intro _) | exact maskSub_trans hm rfl | with_reducible assumption | with_reducible refine Moves.foldl ?_ (fun s x h => ?_) | with_reducible exact Moves.refl _ | ((with_reducible apply Moves.ofUpdate) <;> first | with_reducible assumption | with_reducible exact fun _ => rfl | exact id | exact maskHit hm rfl | exact fun _ => rfl | exact rfl | (intro p; simpa +zetaDelta using p) | (intro p; dsimp +zetaDelta only; (repeat (first | split | (simpa using p))))) | split | (dsimp -zeta +zetaDelta only)

theorem moves_setSector {msk : Nat} (hm : maskSub 0x8000 msk = true) {a : State} {s : State} {k : ℕ} {x : Sector} (h : Moves msk a s) : Moves msk a (setSector s k x) := by
  unfold setSector
  repeat' first | (extract_lets +onlyGivenNames z; refine Moves.cut (m := msk) a z ?_ (fun hz => ?_) <;> [(dsimp -zeta only [z]; revert z; intro _); (clear_value z; revert z; intro _ _)]) | (extract_lets +onlyGivenNames z; revert z; intro _) | exact maskSub_trans hm rfl | with_reducible assumption | with_reducible refine Moves.foldl ?_ (fun s x h => ?_) | with_reducible exact Moves.refl _ | ((with_reducible apply Moves.ofUpdate) <;> first | with_reducible assumption | with_reducible exact fun _ => rfl | exact id | exact maskHit hm rfl | exact fun _ => rfl | exact rfl | (intro p; simpa +zetaDelta using p) | (intro p; dsimp +zetaDelta only; (repeat (first | split | (simpa using p))))) | split | (dsimp -zeta +zetaDelta only)

theorem moves_countUnit {msk : Nat} (hm : maskSub 0x10000e msk = true) {a : State} {s : State} {u : Site} {j : ℕ} {n : ℕ} (h : Moves msk a s) : Moves msk a (countUnit s u j n) := by
  unfold countUnit
  repeat' first | exact maskSub_trans hm rfl | with_reducible assumption | with_reducible apply moves_count | split

theorem moves_setHoist {msk : Nat} (hm : maskSub 0x10 msk = true) {a : State} {s : State} {h1 : ℕ} {x : Hoist} (h : Moves msk a s) : Moves msk a (setHoist s h1 x) := by
  unfold setHoist
  repeat' first | (extract_lets +onlyGivenNames z; refine Moves.cut (m := msk) a z ?_ (fun hz => ?_) <;> [(dsimp -zeta only [z]; revert z; intro _); (clear_value z; revert z; intro _ _)]) | (extract_lets +onlyGivenNames z; revert z; intro _) | exact maskSub_trans hm rfl | with_reducible assumption | with_reducible refine Moves.foldl ?_ (fun s x h => ?_) | with_reducible exact Moves.refl _ | ((with_reducible apply Moves.ofUpdate) <;> first | with_reducible assumption | with_reducible exact fun _ => rfl | exact id | exact maskHit hm rfl | exact fun _ => rfl | exact rfl | (intro p; simpa +zetaDelta using p) | (intro p; dsimp +zetaDelta only; (repeat (first | split | (simpa using p))))) | split | (dsimp -zeta +zetaDelta only)

theorem moves_setLink {msk : Nat} (hm : maskSub 0x20 msk = true) {a : State} {s : State} {producer : EndPoint} {l : Link} (h : Moves msk a s) : Moves msk a (setLink s producer l) := by
  unfold setLink
  repeat' first | exact maskSub_trans hm rfl | with_reducible assumption | ((with_reducible apply Moves.ofUpdate) <;> first | with_reducible assumption | with_reducible exact fun _ => rfl | exact id | exact maskHit hm rfl | exact fun _ => rfl | exact rfl) | split

theorem moves_setInBuf {msk : Nat} (hm : maskSub 0x20 msk = true) {a : State} {s : State} {e : EndPoint} {l : List Beat} (h : Moves msk a s) : Moves msk a (setInBuf s e l) := by
  unfold setInBuf
  repeat' first | exact maskSub_trans hm rfl | with_reducible assumption | ((with_reducible apply Moves.ofUpdate) <;> first | with_reducible assumption | with_reducible exact fun _ => rfl | exact id | exact maskHit hm rfl | exact fun _ => rfl | exact rfl) | split

theorem moves_setOutQ {msk : Nat} (hm : maskSub 0x20 msk = true) {a : State} {s : State} {e : EndPoint} {l : List OutBeat} (h : Moves msk a s) : Moves msk a (setOutQ s e l) := by
  unfold setOutQ
  repeat' first | exact maskSub_trans hm rfl | with_reducible assumption | ((with_reducible apply Moves.ofUpdate) <;> first | with_reducible assumption | with_reducible exact fun _ => rfl | exact id | exact maskHit hm rfl | exact fun _ => rfl | exact rfl) | split

theorem moves_pushOut {msk : Nat} (hm : maskSub 0x20 msk = true) {a : State} {s : State} {e : EndPoint} {b : OutBeat} (h : Moves msk a s) : Moves msk a (pushOut s e b) := by
  unfold pushOut
  repeat' first | exact maskSub_trans hm rfl | with_reducible assumption | with_reducible apply moves_setOutQ | split

theorem moves_sendOnLink {msk : Nat} (hm : maskSub 0x10002f msk = true) {a : State} {s : State} {producer : EndPoint} {b : Beat} (h : Moves msk a s) : Moves msk a (sendOnLink s producer b) := by
  unfold sendOnLink
  repeat' first | (extract_lets +onlyGivenNames z; refine Moves.cut (m := msk) a z ?_ (fun hz => ?_) <;> [(dsimp -zeta only [z]; revert z; intro _); (clear_value z; revert z; intro _ _)]) | (extract_lets +onlyGivenNames z; revert z; intro _) | exact maskSub_trans hm rfl | with_reducible assumption | with_reducible apply moves_advance | with_reducible apply moves_setLink | with_reducible apply moves_countEvent | with_reducible refine Moves.foldl ?_ (fun s x h => ?_) | with_reducible exact Moves.refl _ | split | (dsimp -zeta +zetaDelta only)

theorem moves_creditFrom {msk : Nat} (hm : maskSub 0x20 msk = true) {a : State} {s : State} {consumer : EndPoint} {t : Fc} (h : Moves msk a s) : Moves msk a (creditFrom s consumer t) := by
  unfold creditFrom
  repeat' first | exact maskSub_trans hm rfl | with_reducible assumption | with_reducible apply moves_setLink | split

theorem moves_returnCredit {msk : Nat} (hm : maskSub 0x20 msk = true) {a : State} {s : State} {consumer : EndPoint} (h : Moves msk a s) : Moves msk a (returnCredit s consumer) := by
  unfold returnCredit
  repeat' first | exact maskSub_trans hm rfl | with_reducible assumption | with_reducible apply moves_creditFrom | split

theorem moves_returnCredits {msk : Nat} (hm : maskSub 0x20 msk = true) {a : State} {n : ℕ} {s : State} {e : EndPoint} (h : Moves msk a s) : Moves msk a (returnCredits n s e) := by
  unfold returnCredits
  repeat' first | (extract_lets +onlyGivenNames z; refine Moves.cut (m := msk) a z ?_ (fun hz => ?_) <;> [(dsimp -zeta only [z]; revert z; intro _); (clear_value z; revert z; intro _ _)]) | (extract_lets +onlyGivenNames z; revert z; intro _) | exact maskSub_trans hm rfl | with_reducible assumption | with_reducible apply moves_creditFrom | with_reducible refine Moves.foldl ?_ (fun s x h => ?_) | with_reducible exact Moves.refl _ | split | (dsimp -zeta +zetaDelta only)

theorem moves_noteHead {msk : Nat} (hm : maskSub 0x20 msk = true) {a : State} {s : State} {e : EndPoint} {b : Beat} (h : Moves msk a s) : Moves msk a (noteHead s e b) := by
  unfold noteHead
  repeat' first | exact maskSub_trans hm rfl | with_reducible assumption | ((with_reducible apply Moves.ofUpdate) <;> first | with_reducible assumption | with_reducible exact fun _ => rfl | exact id | exact maskHit hm rfl | exact fun _ => rfl | exact rfl) | split

theorem moves_takeBeat {msk : Nat} (hm : maskSub 0x20 msk = true) {a : State} {s : State} {e : EndPoint} {p : Beat → Bool} (h : Moves msk a s) : MovesSomeSnd msk a (takeBeat s e p) := by
  unfold takeBeat
  repeat' first | with_reducible apply movesSomeSnd_some | with_reducible apply movesSomeSnd_none | exact maskSub_trans hm rfl | with_reducible assumption | with_reducible apply moves_returnCredit | with_reducible apply moves_noteHead | with_reducible apply moves_setInBuf | split

theorem moves_setDiscards {msk : Nat} (hm : maskSub 0x20 msk = true) {a : State} {s : State} {e : EndPoint} {st : ℕ} {l : List ℕ} (h : Moves msk a s) : Moves msk a (setDiscards s e st l) := by
  unfold setDiscards
  repeat' first | exact maskSub_trans hm rfl | with_reducible assumption | ((with_reducible apply Moves.ofUpdate) <;> first | with_reducible assumption | with_reducible exact fun _ => rfl | exact id | exact maskHit hm rfl | exact fun _ => rfl | exact rfl) | split

theorem moves_discardInput {msk : Nat} (hm : maskSub 0x20 msk = true) {a : State} {s : State} {e : EndPoint} {st : ℕ} {frame : ℕ} (h : Moves msk a s) : Moves msk a (discardInput s e st frame) := by
  unfold discardInput
  repeat' first | (extract_lets +onlyGivenNames z; refine Moves.cut (m := msk) a z ?_ (fun hz => ?_) <;> [(dsimp -zeta only [z]; revert z; intro _); (clear_value z; revert z; intro _ _)]) | (extract_lets +onlyGivenNames z; revert z; intro _) | exact maskSub_trans hm rfl | with_reducible assumption | with_reducible apply moves_returnCredits | with_reducible apply moves_setInBuf | with_reducible apply moves_setDiscards | with_reducible refine Moves.foldl ?_ (fun s x h => ?_) | with_reducible exact Moves.refl _ | ((with_reducible apply Moves.ofUpdate) <;> first | with_reducible assumption | with_reducible exact fun _ => rfl | exact id | exact maskHit hm rfl | exact fun _ => rfl | exact rfl | (intro p; simpa +zetaDelta using p) | (intro p; dsimp +zetaDelta only; (repeat (first | split | (simpa using p))))) | split | (dsimp -zeta +zetaDelta only)

theorem moves_sendOpen {msk : Nat} (hm : maskSub 0x20 msk = true) {a : State} {s : State} {e : EndPoint} {b : Beat} (h : Moves msk a s) : Moves msk a (sendOpen s e b) := by
  unfold sendOpen
  repeat' first | (extract_lets +onlyGivenNames z; refine Moves.cut (m := msk) a z ?_ (fun hz => ?_) <;> [(dsimp -zeta only [z]; revert z; intro _); (clear_value z; revert z; intro _ _)]) | (extract_lets +onlyGivenNames z; revert z; intro _) | exact maskSub_trans hm rfl | with_reducible assumption | with_reducible apply moves_pushOut | with_reducible refine Moves.foldl ?_ (fun s x h => ?_) | with_reducible exact Moves.refl _ | ((with_reducible apply Moves.ofUpdate) <;> first | with_reducible assumption | with_reducible exact fun _ => rfl | exact id | exact maskHit hm rfl | exact fun _ => rfl | exact rfl | (intro p; simpa +zetaDelta using p) | (intro p; dsimp +zetaDelta only; (repeat (first | split | (simpa using p))))) | split | (dsimp -zeta +zetaDelta only)

theorem moves_sendVoid {msk : Nat} (hm : maskSub 0x20 msk = true) {a : State} {s : State} {e : EndPoint} {st : ℕ} {frame : ℕ} {tk : TackInfo} {code : ℕ} (h : Moves msk a s) : Moves msk a (sendVoid s e st frame tk code) := by
  unfold sendVoid
  repeat' first | (extract_lets +onlyGivenNames z; refine Moves.cut (m := msk) a z ?_ (fun hz => ?_) <;> [(dsimp -zeta only [z]; revert z; intro _); (clear_value z; revert z; intro _ _)]) | (extract_lets +onlyGivenNames z; revert z; intro _) | exact maskSub_trans hm rfl | with_reducible assumption | with_reducible apply moves_sendOpen | with_reducible apply moves_pushOut | with_reducible refine Moves.foldl ?_ (fun s x h => ?_) | with_reducible exact Moves.refl _ | ((with_reducible apply Moves.ofUpdate) <;> first | with_reducible assumption | with_reducible exact fun _ => rfl | exact id | exact maskHit hm rfl | exact fun _ => rfl | exact rfl | (intro p; simpa +zetaDelta using p) | (intro p; dsimp +zetaDelta only; (repeat (first | split | (simpa using p))))) | split | (dsimp -zeta +zetaDelta only)

end Sys2Proof.Machine
end

