-- ==== Sys2Proof/Laws/MovesUnits.lean ====
section
/-! SUPPORT. `Moves` for the operations of Machine/Units.lean. -/

set_option linter.unusedTactic false
set_option linter.unreachableTactic false
set_option linter.tactic.unusedName false

namespace Sys2Proof.Machine

theorem moves_setCtl {msk : Nat} (hm : maskSub 0x400fc0 msk = true) {a : State} {s : State} {u : Site} {c : UnitCtl} (h : Moves msk a s) : Moves msk a (setCtl s u c) := by
  unfold setCtl
  repeat' first | exact maskSub_trans hm rfl | with_reducible assumption | with_reducible apply moves_setTile | with_reducible apply moves_setVtile | with_reducible apply moves_setWtile | with_reducible apply moves_setSteer | with_reducible apply moves_setGlue | ((with_reducible apply Moves.ofUpdate) <;> first | with_reducible assumption | with_reducible exact fun _ => rfl | exact id | exact maskHit hm rfl | exact fun _ => rfl | exact rfl) | split

theorem moves_scaleLost {msk : Nat} (hm : maskSub 0x18004e msk = true) {a : State} {s : State} {u : Site} (h : Moves msk a s) : Moves msk a (scaleLost s u) := by
  unfold scaleLost
  repeat' first | (extract_lets +onlyGivenNames z; refine Moves.cut (m := msk) a z ?_ (fun hz => ?_) <;> [(dsimp -zeta only [z]; revert z; intro _); (clear_value z; revert z; intro _ _)]) | (extract_lets +onlyGivenNames z; revert z; intro _) | exact maskSub_trans hm rfl | with_reducible assumption | with_reducible apply moves_finishFirst | with_reducible apply moves_setTile | split

theorem moves_roundOver {msk : Nat} (hm : maskSub 0x1e msk = true) {a : State} {s : State} {time : Fc} (h : Moves msk a s) : Moves msk a (roundOver s time) := by
  unfold roundOver
  repeat' first | (extract_lets +onlyGivenNames z; refine Moves.cut (m := msk) a z ?_ (fun hz => ?_) <;> [(dsimp -zeta only [z]; revert z; intro _); (clear_value z; revert z; intro _ _)]) | (extract_lets +onlyGivenNames z; revert z; intro _) | exact maskSub_trans hm rfl | with_reducible assumption | with_reducible apply moves_postDev | with_reducible refine Moves.foldl ?_ (fun s x h => ?_) | with_reducible exact Moves.refl _ | ((with_reducible apply Moves.ofUpdate) <;> first | with_reducible assumption | with_reducible exact fun _ => rfl | exact id | exact maskHit hm rfl | exact fun _ => rfl | exact rfl | (intro p; simpa +zetaDelta using p) | (intro p; dsimp +zetaDelta only; (repeat (first | split | (simpa using p))))) | split | (dsimp -zeta +zetaDelta only)

theorem moves_endProof {msk : Nat} (hm : maskSub 0x18001e msk = true) {a : State} {s : State} {status : ℕ} {detail : ℕ} (h : Moves msk a s) : Moves msk a (endProof s status detail) := by
  unfold endProof
  repeat' first | (extract_lets +onlyGivenNames z; refine Moves.cut (m := msk) a z ?_ (fun hz => ?_) <;> [(dsimp -zeta only [z]; revert z; intro _); (clear_value z; revert z; intro _ _)]) | (extract_lets +onlyGivenNames z; revert z; intro _) | exact maskSub_trans hm rfl | with_reducible assumption | with_reducible apply moves_finishFirst | with_reducible apply moves_roundOver | with_reducible refine Moves.foldl ?_ (fun s x h => ?_) | with_reducible exact Moves.refl _ | ((with_reducible apply Moves.ofUpdate) <;> first | with_reducible assumption | with_reducible exact fun _ => rfl | exact id | exact maskHit hm rfl | exact fun _ => rfl | exact rfl | (intro p; simpa +zetaDelta using p) | (intro p; dsimp +zetaDelta only; (repeat (first | split | (simpa using p))))) | split | (dsimp -zeta +zetaDelta only)

theorem moves_unitGone {msk : Nat} (hm : maskSub 0x18005e msk = true) {a : State} {s : State} {u : Site} (h : Moves msk a s) : Moves msk a (unitGone s u) := by
  unfold unitGone
  repeat' first | (extract_lets +onlyGivenNames z; refine Moves.cut (m := msk) a z ?_ (fun hz => ?_) <;> [(dsimp -zeta only [z]; revert z; intro _); (clear_value z; revert z; intro _ _)]) | (extract_lets +onlyGivenNames z; revert z; intro _) | exact maskSub_trans hm rfl | with_reducible assumption | with_reducible apply moves_finishEvery | with_reducible apply moves_scaleLost | with_reducible apply moves_endProof | with_reducible apply moves_finishFirst | with_reducible refine Moves.foldl ?_ (fun s x h => ?_) | with_reducible exact Moves.refl _ | ((with_reducible apply Moves.ofUpdate) <;> first | with_reducible assumption | with_reducible exact fun _ => rfl | exact id | exact maskHit hm rfl | exact fun _ => rfl | exact rfl | (intro p; simpa +zetaDelta using p) | (intro p; dsimp +zetaDelta only; (repeat (first | split | (simpa using p))))) | split | (dsimp -zeta +zetaDelta only)

theorem moves_moveUnit {msk : Nat} (hm : maskSub 0x580fde msk = true) {a : State} {s : State} {u : Site} {c : UnitCtl} (h : Moves msk a s) : Moves msk a (moveUnit s u c) := by
  unfold moveUnit
  repeat' first | exact maskSub_trans hm rfl | with_reducible assumption | with_reducible apply moves_setCtl | with_reducible apply moves_postDev | with_reducible apply moves_unitGone | split

theorem moves_loseUnit {msk : Nat} (hm : maskSub 0x595fde msk = true) {a : State} {s : State} {code : ℕ} {u : Site} {d0 : Dword} {d1 : Dword} (h : Moves msk a s) : Moves msk a (loseUnit s code u d0 d1) := by
  unfold loseUnit
  repeat' first | (extract_lets +onlyGivenNames z; refine Moves.cut (m := msk) a z ?_ (fun hz => ?_) <;> [(dsimp -zeta only [z]; revert z; intro _); (clear_value z; revert z; intro _ _)]) | (extract_lets +onlyGivenNames z; revert z; intro _) | exact maskSub_trans hm rfl | with_reducible assumption | with_reducible apply moves_fault | with_reducible apply moves_moveUnit | split

theorem moves_loseChannel {msk : Nat} (hm : maskSub 0x19581e msk = true) {a : State} {s : State} {code : ℕ} {c : ℕ} {d0 : Dword} {d1 : Dword} (h : Moves msk a s) : Moves msk a (loseChannel s code c d0 d1) := by
  unfold loseChannel
  repeat' first | exact maskSub_trans hm rfl | with_reducible assumption | with_reducible apply moves_fault | with_reducible apply moves_setChannel | split

end Sys2Proof.Machine
end

