-- ==== Sys2Proof/Laws/MovesAbort.lean ====
section
/-! SUPPORT. `Moves` for the operations of Machine/Abort.lean. -/

set_option linter.unusedTactic false
set_option linter.unreachableTactic false
set_option linter.tactic.unusedName false

namespace Sys2Proof.Machine

theorem moves_noteAbort {msk : Nat} (hm : maskSub 0x10100e msk = true) {a : State} {s : State} {st : ℕ} {frame : ℕ} {code : ℕ} (h : Moves msk a s) : Moves msk a (noteAbort s st frame code) := by
  unfold noteAbort
  repeat' first | (extract_lets +onlyGivenNames z; refine Moves.cut (m := msk) a z ?_ (fun hz => ?_) <;> [(dsimp -zeta only [z]; revert z; intro _); (clear_value z; revert z; intro _ _)]) | (extract_lets +onlyGivenNames z; revert z; intro _) | exact maskSub_trans hm rfl | with_reducible assumption | with_reducible apply moves_count | with_reducible apply moves_setStream | split

theorem moves_abortRecord {msk : Nat} (hm : maskSub 0x19501e msk = true) {a : State} {s : State} {code : ℕ} {site : Site} {st : ℕ} {frame : ℕ} {d0 : Dword} {d1 : Dword} (h : Moves msk a s) : Moves msk a (abortRecord s code site st frame d0 d1) := by
  unfold abortRecord
  repeat' first | exact maskSub_trans hm rfl | with_reducible assumption | with_reducible apply moves_noteAbort | with_reducible apply moves_faultFrame | split

theorem moves_dropUnsent {msk : Nat} (hm : maskSub 0x20 msk = true) {a : State} {s : State} {e : EndPoint} {st : ℕ} {frame : ℕ} (h : Moves msk a s) : Moves msk a (dropUnsent s e st frame) := by
  unfold dropUnsent
  repeat' first | exact maskSub_trans hm rfl | with_reducible assumption | with_reducible apply moves_setOutQ | split

theorem moves_voidOn {msk : Nat} (hm : maskSub 0x20 msk = true) {a : State} {s : State} {outs : List EndPoint} {st : ℕ} {frame : ℕ} {tk : TackInfo} {code : ℕ} (h : Moves msk a s) : Moves msk a (voidOn s outs st frame tk code) := by
  unfold voidOn
  repeat' first | (extract_lets +onlyGivenNames z; refine Moves.cut (m := msk) a z ?_ (fun hz => ?_) <;> [(dsimp -zeta only [z]; revert z; intro _); (clear_value z; revert z; intro _ _)]) | (extract_lets +onlyGivenNames z; revert z; intro _) | exact maskSub_trans hm rfl | with_reducible assumption | with_reducible apply moves_sendVoid | with_reducible apply moves_dropUnsent | with_reducible refine Moves.foldl ?_ (fun s x h => ?_) | with_reducible exact Moves.refl _ | split | (dsimp -zeta +zetaDelta only)

theorem moves_discardOn {msk : Nat} (hm : maskSub 0x20 msk = true) {a : State} {s : State} {ins : List EndPoint} {st : ℕ} {frame : ℕ} (h : Moves msk a s) : Moves msk a (discardOn s ins st frame) := by
  unfold discardOn
  repeat' first | (extract_lets +onlyGivenNames z; refine Moves.cut (m := msk) a z ?_ (fun hz => ?_) <;> [(dsimp -zeta only [z]; revert z; intro _); (clear_value z; revert z; intro _ _)]) | (extract_lets +onlyGivenNames z; revert z; intro _) | exact maskSub_trans hm rfl | with_reducible assumption | with_reducible apply moves_discardInput | with_reducible refine Moves.foldl ?_ (fun s x h => ?_) | with_reducible exact Moves.refl _ | split | (dsimp -zeta +zetaDelta only)

end Sys2Proof.Machine
end

