-- ==== Sys2Proof/Laws/MovesBoot.lean ====
section
/-! SUPPORT. `Moves` for the operations of Machine/Boot.lean. -/

set_option linter.unusedTactic false
set_option linter.unreachableTactic false
set_option linter.tactic.unusedName false

namespace Sys2Proof.Machine

theorem Keeps.stores {a s : State} (h : Keeps a s) : KeepsStores a s := ⟨h.queue, h.memory, h.fuses, h.shape⟩

theorem KeepsStores.trans {a b c : State} (h : KeepsStores a b) (g : KeepsStores b c) : KeepsStores a c :=
  ⟨g.queue.trans h.queue, fun m => g.memory (h.memory m), h.fuses.trans g.fuses, fun m => g.shape (h.shape m)⟩

theorem Moves.setSec {msk : Nat} (hm : maskSub 0x20000 msk = true) {a s : State} {c : Sec} (h : Moves msk a s) (g : SecKeeps s.sec c) : Moves msk a { s with sec := c } :=
  h.trans ⟨⟨rfl, Nat.le_refl _, id, g, fun p => ⟨p.1, p.2, p.3, p.4, p.5, p.6, p.7, p.8, p.9, p.10, p.11, p.12, p.13, p.14⟩⟩,
    ⟨fun _ => rfl, fun _ => rfl, fun _ => rfl, fun _ => rfl, fun _ => rfl, fun _ => rfl, fun _ => rfl, fun _ => rfl, fun _ => rfl, fun _ => rfl, fun _ => rfl, fun _ => rfl, fun _ => rfl, fun _ => rfl, fun _ => rfl, fun _ => rfl, fun _ => rfl, maskHit hm rfl, fun _ => rfl, fun _ => rfl, fun _ => rfl, fun _ => rfl, fun _ => rfl, fun _ => rfl, fun _ => rfl⟩⟩

theorem secAtReset_keeps (c : Sec) (n : Nat) : SecKeeps c (secAtReset c n) := ⟨Nat.le_refl _, fun _ x => x⟩

theorem eraseFor_keeps (c : Sec) (l : LifeState) : SecKeeps c (eraseFor c l) := by
  unfold eraseFor; split <;> exact ⟨Nat.le_refl _, fun _ x => x⟩

theorem shaped_reset : Shaped State.reset := by constructor <;> rfl

theorem wiped_stores (s : State) : KeepsStores s (wiped s) := by
  refine ⟨rfl, fun _ => rfl, secAtReset_keeps _ _, fun _ => ?_⟩
  constructor <;> rfl

theorem powerOn_stores (s : State) : KeepsStores s (powerOn s) := by
  refine ⟨rfl, fun _ => rfl, secAtReset_keeps _ _, fun _ => ?_⟩
  constructor <;> rfl


theorem moves_releasePcie {msk : Nat} (hm : maskSub 0x4 msk = true) {a : State} {s : State} (h : Moves msk a s) : Moves msk a (releasePcie s) := by
  unfold releasePcie
  repeat' first | exact maskSub_trans hm rfl | with_reducible assumption | ((with_reducible apply Moves.ofUpdate) <;> first | with_reducible assumption | with_reducible exact fun _ => rfl | exact id | exact maskHit hm rfl | exact fun _ => rfl | exact rfl) | split

theorem moves_deviceReset {msk : Nat} (hm : maskSub 0x1ffffff msk = true) {a : State} {s : State} (h : Moves msk a s) : Moves msk a (deviceReset s) := by
  have w : Moves msk s { wiped s with
      now := s.now
      power := { (wiped s).power with powerGood := s.power.powerGood, phasesEnded := min 1 s.power.phasesEnded, vin := s.power.vin, iin := s.power.iin,
                                      pin := s.power.pin, inputSince := s.power.inputSince, stageCool := s.power.stageCool, rails := s.power.rails, stageTemp := s.power.stageTemp, holdover := s.power.holdover, pmbus := s.power.pmbus } } :=
    ⟨⟨rfl, Nat.le_refl _, fun _ => rfl, secAtReset_keeps _ _, fun _ => by constructor <;> rfl⟩, ⟨maskHit hm rfl, maskHit hm rfl, maskHit hm rfl, maskHit hm rfl, maskHit hm rfl, maskHit hm rfl, maskHit hm rfl, maskHit hm rfl, maskHit hm rfl, maskHit hm rfl, maskHit hm rfl, maskHit hm rfl, maskHit hm rfl, maskHit hm rfl, maskHit hm rfl, maskHit hm rfl, maskHit hm rfl, maskHit hm rfl, maskHit hm rfl, maskHit hm rfl, maskHit hm rfl, maskHit hm rfl, maskHit hm rfl, maskHit hm rfl, maskHit hm rfl⟩⟩
  unfold deviceReset
  dsimp only
  split
  · exact h.trans w
  · exact moves_releasePcie (maskSub_trans hm rfl) (h.trans w)


theorem moves_endPhase {msk : Nat} (hm : maskSub 0x800e msk = true) {a : State} {s : State} (h : Moves msk a s) : Moves msk a (endPhase s) := by
  unfold endPhase
  repeat' first | exact maskSub_trans hm rfl | with_reducible assumption | with_reducible apply moves_postDev | ((with_reducible apply Moves.ofUpdate) <;> first | with_reducible assumption | with_reducible exact fun _ => rfl | exact id | exact maskHit hm rfl | exact fun _ => rfl | exact rfl) | split

theorem moves_bootCourier {msk : Nat} (hm : maskSub 0x2800e msk = true) {a : State} {s : State} (h : Moves msk a s) : Moves msk a (bootCourier s) := by
  unfold bootCourier
  split
  · exact h
  · dsimp only
    repeat' first | exact maskSub_trans hm rfl | with_reducible apply moves_endPhase | with_reducible assumption | ((with_reducible refine Moves.ofUpdateSec ?_ ?_ rfl ?_ ?_ ?_ ?_ ?_ ?_ ?_ ?_ ?_ ?_ ?_ ?_ ?_ ?_ ?_ ?_ ?_ ?_ ?_ ?_ ?_ ?_ ?_ ?_ ?_ ?_ ?_ ?_ ?_ ?_ ?_ ?_ ?_ ?_ ?_ ?_ ?_) <;> first | with_reducible assumption | with_reducible exact fun _ => rfl | exact maskHit hm rfl | exact ⟨(eraseFor_keeps _ _).floor, (eraseFor_keeps _ _).revoked⟩ | exact ⟨Nat.le_refl _, fun _ x => x⟩ | exact id) | split

theorem moves_bootMain {msk : Nat} (hm : maskSub 0x1bd01e msk = true) {a : State} {s : State} (h : Moves msk a s) : Moves msk a (bootMain s) := by
  unfold bootMain
  repeat' first | (extract_lets +onlyGivenNames z; refine Moves.cut (m := msk) a z ?_ (fun hz => ?_) <;> [(dsimp -zeta only [z]; revert z; intro _); (clear_value z; revert z; intro _ _)]) | (extract_lets +onlyGivenNames z; revert z; intro _) | exact maskSub_trans hm rfl | with_reducible assumption | with_reducible apply moves_endPhase | with_reducible apply moves_fault | with_reducible apply moves_postDev | with_reducible refine Moves.foldl ?_ (fun s x h => ?_) | with_reducible exact Moves.refl _ | ((with_reducible apply Moves.ofUpdate) <;> first | with_reducible assumption | with_reducible exact fun _ => rfl | exact id | exact maskHit hm rfl | exact fun _ => rfl | exact rfl | (intro p; simpa +zetaDelta using p) | (intro p; dsimp +zetaDelta only; (repeat (first | split | (simpa using p))))) | ((with_reducible apply Moves.ofUpdateSec) <;> first | with_reducible exact SecKeeps.refl _ | exact ⟨Nat.le_refl _, fun _ x => x⟩ | with_reducible assumption | with_reducible exact fun _ => rfl | exact id | exact maskHit hm rfl | exact fun _ => rfl | exact rfl | (intro p; simpa +zetaDelta using p) | (intro p; dsimp +zetaDelta only; (repeat (first | split | (simpa using p))))) | split | (dsimp -zeta +zetaDelta only)

theorem moves_execStagedStartPhaseEnd {msk : Nat} (hm : maskSub 0x5bdfde msk = true) {a : State} {failedUnits : List Site} {failedChannels : List Site} {s : State} (h : Moves msk a s) : MovesNext msk a (execStagedStartPhaseEnd failedUnits failedChannels s) := by
  unfold execStagedStartPhaseEnd
  repeat' first | (extract_lets +onlyGivenNames z; refine Moves.cut (m := msk) a z ?_ (fun hz => ?_) <;> [(dsimp -zeta only [z]; revert z; intro _); (clear_value z; revert z; intro _ _)]) | (extract_lets +onlyGivenNames z; revert z; intro _) | with_reducible apply movesNext_done | with_reducible apply movesNext_next | exact maskSub_trans hm rfl | with_reducible assumption | with_reducible apply moves_done | with_reducible apply moves_releasePcie | with_reducible apply moves_endPhase | with_reducible apply moves_bootCourier | with_reducible apply moves_loseChannel | with_reducible apply moves_loseUnit | with_reducible apply moves_bootMain | with_reducible refine Moves.foldl ?_ (fun s x h => ?_) | with_reducible exact Moves.refl _ | split | (dsimp -zeta +zetaDelta only)

theorem moves_execPerstAssert {msk : Nat} (hm : maskSub 0x1ffffff msk = true) {a : State} {s : State} (h : Moves msk a s) : MovesNext msk a (execPerstAssert s) := by
  unfold execPerstAssert
  repeat' first | with_reducible apply movesNext_done | with_reducible apply movesNext_next | exact maskSub_trans hm rfl | with_reducible assumption | with_reducible apply moves_done | with_reducible apply moves_deviceReset | ((with_reducible apply Moves.ofUpdate) <;> first | with_reducible assumption | with_reducible exact fun _ => rfl | exact id | exact maskHit hm rfl | exact fun _ => rfl | exact rfl) | split

theorem moves_execPerstDeassert {msk : Nat} (hm : maskSub 0x10004 msk = true) {a : State} {s : State} (h : Moves msk a s) : MovesNext msk a (execPerstDeassert s) := by
  unfold execPerstDeassert
  repeat' first | with_reducible apply movesNext_done | with_reducible apply movesNext_next | exact maskSub_trans hm rfl | with_reducible assumption | with_reducible apply moves_done | with_reducible apply moves_releasePcie | ((with_reducible apply Moves.ofUpdate) <;> first | with_reducible assumption | with_reducible exact fun _ => rfl | exact id | exact maskHit hm rfl | exact fun _ => rfl | exact rfl) | split

theorem moves_execDelayedDeviceReset {msk : Nat} (hm : maskSub 0x1ffffff msk = true) {a : State} {s : State} (h : Moves msk a s) : MovesNext msk a (execDelayedDeviceReset s) := by
  unfold execDelayedDeviceReset
  repeat' first | with_reducible apply movesNext_done | with_reducible apply movesNext_next | exact maskSub_trans hm rfl | with_reducible assumption | with_reducible apply moves_done | with_reducible apply moves_deviceReset | with_reducible apply moves_advance | split

end Sys2Proof.Machine
end

