-- ==== Sys2Proof/Laws/MovesCores.lean ====
section
/-! SUPPORT. `Moves` for the operations of Machine/Cores.lean. -/

set_option linter.unusedTactic false
set_option linter.unreachableTactic false
set_option linter.tactic.unusedName false

namespace Sys2Proof.Machine

theorem moves_setCore {msk : Nat} (hm : maskSub 0x40000 msk = true) {a : State} {s : State} {k : ℕ} {down : Bool} (h : Moves msk a s) : Moves msk a (setCore s k down) := by
  unfold setCore
  repeat' first | exact maskSub_trans hm rfl | with_reducible assumption | ((with_reducible apply Moves.ofUpdate) <;> first | with_reducible assumption | with_reducible exact fun _ => rfl | exact id | exact maskHit hm rfl | exact fun _ => rfl | exact rfl) | split

theorem moves_execHeartbeatMiss {msk : Nat} (hm : maskSub 0x1d501e msk = true) {a : State} {core : ℕ} {s : State} (h : Moves msk a s) : MovesNext msk a (execHeartbeatMiss core s) := by
  unfold execHeartbeatMiss
  repeat' first | (extract_lets +onlyGivenNames z; refine Moves.cut (m := msk) a z ?_ (fun hz => ?_) <;> [(dsimp -zeta only [z]; revert z; intro _); (clear_value z; revert z; intro _ _)]) | (extract_lets +onlyGivenNames z; revert z; intro _) | with_reducible apply movesNext_done | with_reducible apply movesNext_next | exact maskSub_trans hm rfl | with_reducible assumption | with_reducible apply moves_done | with_reducible apply moves_setCore | with_reducible apply moves_fault | with_reducible refine Moves.foldl ?_ (fun s x h => ?_) | with_reducible exact Moves.refl _ | ((with_reducible apply Moves.ofUpdate) <;> first | with_reducible assumption | with_reducible exact fun _ => rfl | exact id | exact maskHit hm rfl | exact fun _ => rfl | exact rfl | (intro p; simpa +zetaDelta using p) | (intro p; dsimp +zetaDelta only; (repeat (first | split | (simpa using p))))) | split | (dsimp -zeta +zetaDelta only)

theorem moves_execCoreRestartDone {msk : Nat} (hm : maskSub 0x1d501e msk = true) {a : State} {core : ℕ} {s : State} (h : Moves msk a s) : MovesNext msk a (execCoreRestartDone core s) := by
  unfold execCoreRestartDone
  repeat' first | with_reducible apply movesNext_done | with_reducible apply movesNext_next | exact maskSub_trans hm rfl | with_reducible assumption | with_reducible apply moves_done | with_reducible apply moves_fault | with_reducible apply moves_setCore | split

theorem moves_execHalyardParityError {msk : Nat} (hm : maskSub 0x19501e msk = true) {a : State} {s : State} (h : Moves msk a s) : MovesNext msk a (execHalyardParityError s) := by
  unfold execHalyardParityError
  repeat' first | with_reducible apply movesNext_done | with_reducible apply movesNext_next | exact maskSub_trans hm rfl | with_reducible assumption | with_reducible apply moves_done | with_reducible apply moves_fault | split

end Sys2Proof.Machine
end

