-- ==== Sys2Proof/Laws/MovesHostIf.lean ====
section
/-! SUPPORT. `Moves` for the operations of Machine/HostIf.lean. -/

set_option linter.unusedTactic false
set_option linter.unreachableTactic false
set_option linter.tactic.unusedName false

namespace Sys2Proof.Machine

@[simp] theorem evtReset_sources (e : Evt) : (evtReset e).sources.length = 64 := by
  rw [show (evtReset e).sources = (List.range 64).map EvtSource.resetOf from rfl, List.length_map, List.length_range]

@[simp] theorem evtReset_vectors (e : Evt) : (evtReset e).vectors.length = 64 := by
  rw [show (evtReset e).vectors = List.replicate 64 {} from rfl, List.length_replicate]

theorem moves_ringError {msk : Nat} (hm : maskSub 0x19501e msk = true) {a : State} {s : State} {r : ℕ} {code : ℕ} {cause : ℕ} {value : ℕ} (h : Moves msk a s) : Moves msk a (ringError s r code cause value) := by
  unfold ringError
  repeat' first | (extract_lets +onlyGivenNames z; refine Moves.cut (m := msk) a z ?_ (fun hz => ?_) <;> [(dsimp -zeta only [z]; revert z; intro _); (clear_value z; revert z; intro _ _)]) | (extract_lets +onlyGivenNames z; revert z; intro _) | exact maskSub_trans hm rfl | with_reducible assumption | with_reducible apply moves_modRing | with_reducible apply moves_fault | with_reducible refine Moves.foldl ?_ (fun s x h => ?_) | with_reducible exact Moves.refl _ | ((with_reducible apply Moves.ofUpdate) <;> first | with_reducible assumption | with_reducible exact fun _ => rfl | exact id | exact maskHit hm rfl | exact fun _ => rfl | exact rfl | (intro p; simpa +zetaDelta using p) | (intro p; dsimp +zetaDelta only; (repeat (first | split | (simpa using p))))) | split | (dsimp -zeta +zetaDelta only)

theorem moves_doorbellTail {msk : Nat} (hm : maskSub 0x19501e msk = true) {a : State} {s : State} {r : ℕ} {value : Dword} (h : Moves msk a s) : Moves msk a (doorbellTail s r value) := by
  unfold doorbellTail
  repeat' first | (extract_lets +onlyGivenNames z; refine Moves.cut (m := msk) a z ?_ (fun hz => ?_) <;> [(dsimp -zeta only [z]; revert z; intro _); (clear_value z; revert z; intro _ _)]) | (extract_lets +onlyGivenNames z; revert z; intro _) | exact maskSub_trans hm rfl | with_reducible assumption | with_reducible apply moves_ringError | with_reducible apply moves_setRing | split

theorem moves_doorbellHead {msk : Nat} (hm : maskSub 0x19501e msk = true) {a : State} {s : State} {r : ℕ} {value : Dword} (h : Moves msk a s) : Moves msk a (doorbellHead s r value) := by
  unfold doorbellHead
  repeat' first | (extract_lets +onlyGivenNames z; refine Moves.cut (m := msk) a z ?_ (fun hz => ?_) <;> [(dsimp -zeta only [z]; revert z; intro _); (clear_value z; revert z; intro _ _)]) | (extract_lets +onlyGivenNames z; revert z; intro _) | exact maskSub_trans hm rfl | with_reducible assumption | with_reducible apply moves_ringError | with_reducible apply moves_setRing | split

theorem moves_ringCfgWrite {msk : Nat} (hm : maskSub 0x4 msk = true) {a : State} {s : State} {r : ℕ} {value : Dword} (h : Moves msk a s) : Moves msk a (ringCfgWrite s r value) := by
  unfold ringCfgWrite
  repeat' first | (extract_lets +onlyGivenNames z; refine Moves.cut (m := msk) a z ?_ (fun hz => ?_) <;> [(dsimp -zeta only [z]; revert z; intro _); (clear_value z; revert z; intro _ _)]) | (extract_lets +onlyGivenNames z; revert z; intro _) | exact maskSub_trans hm rfl | with_reducible assumption | with_reducible apply moves_setRing | split

theorem moves_fetchOne {msk : Nat} (hm : maskSub 0x4 msk = true) {a : State} {s : State} {r : ℕ} {p : Packet} (h : Moves msk a s) : MovesSome msk a (fetchOne s r p) := by
  unfold fetchOne
  repeat' first | (extract_lets +onlyGivenNames z; refine Moves.cut (m := msk) a z ?_ (fun hz => ?_) <;> [(dsimp -zeta only [z]; revert z; intro _); (clear_value z; revert z; intro _ _)]) | (extract_lets +onlyGivenNames z; revert z; intro _) | with_reducible apply movesSome_some | with_reducible apply movesSome_none | exact maskSub_trans hm rfl | with_reducible assumption | with_reducible apply moves_fetched | with_reducible refine Moves.foldl ?_ (fun s x h => ?_) | with_reducible exact Moves.refl _ | ((with_reducible apply Moves.ofUpdate) <;> first | with_reducible assumption | with_reducible exact fun _ => rfl | exact id | exact maskHit hm rfl | exact fun _ => rfl | exact rfl | (intro p; simpa +zetaDelta using p) | (intro p; dsimp +zetaDelta only; (repeat (first | split | (simpa using p))))) | split | (dsimp -zeta +zetaDelta only)

theorem moves_fetchMany {msk : Nat} (hm : maskSub 0x4 msk = true) {a s : State} {r : Nat} {l : List Packet} (h : Moves msk a s) : Moves msk a (fetchMany s r l) := by
  induction l generalizing s with
  | nil => exact h
  | cons p l ih =>
    unfold fetchMany
    split
    · exact ih (moves_fetchOne (maskSub_trans hm rfl) h _ (by assumption))
    · exact h

theorem moves_packetFetch {msk : Nat} (hm : maskSub 0x99501e msk = true) {a : State} {s : State} {r : ℕ} {packets : Option (List Packet)} (h : Moves msk a s) : Moves msk a (packetFetch s r packets) := by
  unfold packetFetch
  repeat' first | (extract_lets +onlyGivenNames z; refine Moves.cut (m := msk) a z ?_ (fun hz => ?_) <;> [(dsimp -zeta only [z]; revert z; intro _); (clear_value z; revert z; intro _ _)]) | (extract_lets +onlyGivenNames z; revert z; intro _) | exact maskSub_trans hm rfl | with_reducible assumption | with_reducible apply moves_fetchMany | with_reducible apply moves_ringError | with_reducible apply moves_readFailed | with_reducible refine Moves.foldl ?_ (fun s x h => ?_) | with_reducible exact Moves.refl _ | ((with_reducible apply Moves.ofUpdate) <;> first | with_reducible assumption | with_reducible exact fun _ => rfl | exact id | exact maskHit hm rfl | exact fun _ => rfl | exact rfl | (intro p; simpa +zetaDelta using p) | (intro p; dsimp +zetaDelta only; (repeat (first | split | (simpa using p))))) | split | (dsimp -zeta +zetaDelta only)

theorem moves_hostRecordFails {msk : Nat} (hm : maskSub 0x19501e msk = true) {a : State} {s : State} {st : ℕ} (h : Moves msk a s) : Moves msk a (hostRecordFails s st) := by
  unfold hostRecordFails
  repeat' first | (extract_lets +onlyGivenNames z; refine Moves.cut (m := msk) a z ?_ (fun hz => ?_) <;> [(dsimp -zeta only [z]; revert z; intro _); (clear_value z; revert z; intro _ _)]) | (extract_lets +onlyGivenNames z; revert z; intro _) | exact maskSub_trans hm rfl | with_reducible assumption | with_reducible apply moves_count | with_reducible apply moves_faultFrame | with_reducible refine Moves.foldl ?_ (fun s x h => ?_) | with_reducible exact Moves.refl _ | ((with_reducible apply Moves.ofUpdate) <;> first | with_reducible assumption | with_reducible exact fun _ => rfl | exact id | exact maskHit hm rfl | exact fun _ => rfl | exact rfl | (intro p; simpa +zetaDelta using p) | (intro p; dsimp +zetaDelta only; (repeat (first | split | (simpa using p))))) | split | (dsimp -zeta +zetaDelta only)

theorem moves_descToIdle {msk : Nat} (hm : maskSub 0x19501e msk = true) {a : State} {s : State} {st : ℕ} (h : Moves msk a s) : Moves msk a (descToIdle s st) := by
  unfold descToIdle
  repeat' first | (extract_lets +onlyGivenNames z; refine Moves.cut (m := msk) a z ?_ (fun hz => ?_) <;> [(dsimp -zeta only [z]; revert z; intro _); (clear_value z; revert z; intro _ _)]) | (extract_lets +onlyGivenNames z; revert z; intro _) | exact maskSub_trans hm rfl | with_reducible assumption | with_reducible apply moves_hostRecordFails | with_reducible refine Moves.foldl ?_ (fun s x h => ?_) | with_reducible exact Moves.refl _ | ((with_reducible apply Moves.ofUpdate) <;> first | with_reducible assumption | with_reducible exact fun _ => rfl | exact id | exact maskHit hm rfl | exact fun _ => rfl | exact rfl | (intro p; simpa +zetaDelta using p) | (intro p; dsimp +zetaDelta only; (repeat (first | split | (simpa using p))))) | split | (dsimp -zeta +zetaDelta only)

theorem moves_hifReset {msk : Nat} (hm : maskSub 0x19501e msk = true) {a : State} {s : State} (h : Moves msk a s) : Moves msk a (hifReset s) := by
  unfold hifReset
  repeat' first | (extract_lets +onlyGivenNames z; refine Moves.cut (m := msk) a z ?_ (fun hz => ?_) <;> [(dsimp -zeta only [z]; revert z; intro _); (clear_value z; revert z; intro _ _)]) | (extract_lets +onlyGivenNames z; revert z; intro _) | exact maskSub_trans hm rfl | with_reducible assumption | with_reducible apply moves_descToIdle | with_reducible refine Moves.foldl ?_ (fun s x h => ?_) | with_reducible exact Moves.refl _ | ((with_reducible apply Moves.ofUpdate) <;> first | with_reducible assumption | with_reducible exact fun _ => rfl | exact id | exact maskHit hm rfl | exact fun _ => rfl | exact rfl | (intro p; simpa +zetaDelta using p) | (intro p; dsimp +zetaDelta only; (repeat (first | split | (simpa using p))))) | split | (dsimp -zeta +zetaDelta only)

theorem moves_heldWriteFails {msk : Nat} (hm : maskSub 0x19501e msk = true) {a : State} {s : State} {c : HeldCompletion} (h : Moves msk a s) : Moves msk a (heldWriteFails s c) := by
  unfold heldWriteFails
  repeat' first | exact maskSub_trans hm rfl | with_reducible assumption | with_reducible apply moves_faultAt | with_reducible apply moves_dataFails | with_reducible apply moves_ringError | split | dsimp only

theorem moves_releaseMessages {msk : Nat} (hm : maskSub 0x6 msk = true) {a : State} {s : State} (h : Moves msk a s) : Moves msk a (releaseMessages s) := by
  unfold releaseMessages
  repeat' first | (extract_lets +onlyGivenNames z; refine Moves.cut (m := msk) a z ?_ (fun hz => ?_) <;> [(dsimp -zeta only [z]; revert z; intro _); (clear_value z; revert z; intro _ _)]) | (extract_lets +onlyGivenNames z; revert z; intro _) | exact maskSub_trans hm rfl | with_reducible assumption | with_reducible apply moves_sendMessage | with_reducible refine Moves.foldl ?_ (fun s x h => ?_) | with_reducible exact Moves.refl _ | split | (dsimp -zeta +zetaDelta only)

theorem moves_resumeHost {msk : Nat} (hm : maskSub 0x1c000e msk = true) {a : State} {s : State} (h : Moves msk a s) : Moves msk a (resumeHost s) := by
  unfold resumeHost
  repeat' first | exact maskSub_trans hm rfl | with_reducible assumption | with_reducible apply moves_releaseMessages | with_reducible apply moves_heldDrain | with_reducible apply moves_releaseHeld | with_reducible apply moves_resetFrom | split

theorem moves_unmaskVector {msk : Nat} (hm : maskSub 0x6 msk = true) {a : State} {s : State} {v : ℕ} (h : Moves msk a s) : Moves msk a (unmaskVector s v) := by
  unfold unmaskVector
  repeat' first | (extract_lets +onlyGivenNames z; refine Moves.cut (m := msk) a z ?_ (fun hz => ?_) <;> [(dsimp -zeta only [z]; revert z; intro _); (clear_value z; revert z; intro _ _)]) | (extract_lets +onlyGivenNames z; revert z; intro _) | exact maskSub_trans hm rfl | with_reducible assumption | with_reducible apply moves_sendMessage | with_reducible refine Moves.foldl ?_ (fun s x h => ?_) | with_reducible exact Moves.refl _ | ((with_reducible apply Moves.ofUpdate) <;> first | with_reducible assumption | with_reducible exact fun _ => rfl | exact id | exact maskHit hm rfl | exact fun _ => rfl | exact rfl | (intro p; simpa +zetaDelta using p) | (intro p; dsimp +zetaDelta only; (repeat (first | split | (simpa using p))))) | split | (dsimp -zeta +zetaDelta only)

theorem moves_execNop {msk : Nat} (hm : maskSub 0x18000e msk = true) {a : State} {c : HostCmd} {s : State} (h : Moves msk a s) : MovesNext msk a (execNop c s) := by
  unfold execNop
  repeat' first | with_reducible apply movesNext_done | with_reducible apply movesNext_next | with_reducible apply movesVerdict_finish | with_reducible apply movesVerdict_pend | exact maskSub_trans hm rfl | with_reducible assumption | intro _ _ _ | with_reducible apply moves_takeCmd | with_reducible apply moves_okAt | split

theorem moves_execIdentify {msk : Nat} (hm : maskSub 0x18000e msk = true) {a : State} {c : HostCmd} {s : State} (h : Moves msk a s) : MovesNext msk a (execIdentify c s) := by
  unfold execIdentify
  repeat' first | with_reducible apply movesNext_done | with_reducible apply movesNext_next | with_reducible apply movesVerdict_finish | with_reducible apply movesVerdict_pend | exact maskSub_trans hm rfl | with_reducible assumption | intro _ _ _ | with_reducible apply moves_takeCmd | with_reducible apply moves_refuse | split

theorem moves_execHifDbSqTail {msk : Nat} (hm : maskSub 0x19501e msk = true) {a : State} {ring : ℕ} {value : Dword} {s : State} (h : Moves msk a s) : MovesNext msk a (execHifDbSqTail ring value s) := by
  unfold execHifDbSqTail
  repeat' first | with_reducible apply movesNext_done | with_reducible apply movesNext_next | exact maskSub_trans hm rfl | with_reducible assumption | with_reducible apply moves_done | with_reducible apply moves_doorbellTail | split

theorem moves_execHifDbCqHead {msk : Nat} (hm : maskSub 0x19501e msk = true) {a : State} {ring : ℕ} {value : Dword} {s : State} (h : Moves msk a s) : MovesNext msk a (execHifDbCqHead ring value s) := by
  unfold execHifDbCqHead
  repeat' first | with_reducible apply movesNext_done | with_reducible apply movesNext_next | exact maskSub_trans hm rfl | with_reducible assumption | with_reducible apply moves_done | with_reducible apply moves_doorbellHead | split

theorem moves_execRingEnable {msk : Nat} (hm : maskSub 0x4 msk = true) {a : State} {ring : ℕ} {value : Dword} {s : State} (h : Moves msk a s) : MovesNext msk a (execRingEnable ring value s) := by
  unfold execRingEnable
  repeat' first | with_reducible apply movesNext_done | with_reducible apply movesNext_next | exact maskSub_trans hm rfl | with_reducible assumption | with_reducible apply moves_done | with_reducible apply moves_ringCfgWrite | split

theorem moves_execRingDisable {msk : Nat} (hm : maskSub 0x4 msk = true) {a : State} {ring : ℕ} {value : Dword} {s : State} (h : Moves msk a s) : MovesNext msk a (execRingDisable ring value s) := by
  unfold execRingDisable
  repeat' first | with_reducible apply movesNext_done | with_reducible apply movesNext_next | exact maskSub_trans hm rfl | with_reducible assumption | with_reducible apply moves_done | with_reducible apply moves_ringCfgWrite | split

theorem moves_execRingDrainDone {msk : Nat} (hm : maskSub 0x4 msk = true) {a : State} {ring : ℕ} {s : State} (h : Moves msk a s) : MovesNext msk a (execRingDrainDone ring s) := by
  unfold execRingDrainDone
  repeat' first | with_reducible apply movesNext_done | with_reducible apply movesNext_next | exact maskSub_trans hm rfl | with_reducible assumption | with_reducible apply moves_done | with_reducible apply moves_setRing | split

theorem moves_execPacketFetch {msk : Nat} (hm : maskSub 0x99501e msk = true) {a : State} {ring : ℕ} {packets : Option (List Packet)} {s : State} (h : Moves msk a s) : MovesNext msk a (execPacketFetch ring packets s) := by
  unfold execPacketFetch
  repeat' first | with_reducible apply movesNext_done | with_reducible apply movesNext_next | exact maskSub_trans hm rfl | with_reducible assumption | with_reducible apply moves_done | with_reducible apply moves_packetFetch | split

theorem moves_execFunctionLevelReset {msk : Nat} (hm : maskSub 0x19501e msk = true) {a : State} {s : State} (h : Moves msk a s) : MovesNext msk a (execFunctionLevelReset s) := by
  unfold execFunctionLevelReset
  repeat' first | with_reducible apply movesNext_done | with_reducible apply movesNext_next | exact maskSub_trans hm rfl | with_reducible assumption | with_reducible apply moves_done | with_reducible apply moves_hifReset | split

theorem moves_execHotReset {msk : Nat} (hm : maskSub 0x19501e msk = true) {a : State} {s : State} (h : Moves msk a s) : MovesNext msk a (execHotReset s) := by
  unfold execHotReset
  repeat' first | with_reducible apply movesNext_done | with_reducible apply movesNext_next | exact maskSub_trans hm rfl | with_reducible assumption | with_reducible apply moves_done | with_reducible apply moves_hifReset | split

theorem moves_execLinkDown {msk : Nat} (hm : maskSub 0x19501e msk = true) {a : State} {s : State} (h : Moves msk a s) : MovesNext msk a (execLinkDown s) := by
  unfold execLinkDown
  repeat' first | (extract_lets +onlyGivenNames z; refine Moves.cut (m := msk) a z ?_ (fun hz => ?_) <;> [(dsimp -zeta only [z]; revert z; intro _); (clear_value z; revert z; intro _ _)]) | (extract_lets +onlyGivenNames z; revert z; intro _) | with_reducible apply movesNext_done | with_reducible apply movesNext_next | exact maskSub_trans hm rfl | with_reducible assumption | with_reducible apply moves_heldWriteFails | with_reducible apply moves_done | with_reducible apply moves_aerReport | with_reducible apply moves_hifReset | with_reducible refine Moves.foldl ?_ (fun s x h => ?_) | with_reducible exact Moves.refl _ | ((with_reducible apply Moves.ofUpdate) <;> first | with_reducible assumption | with_reducible exact fun _ => rfl | exact id | exact maskHit hm rfl | exact fun _ => rfl | exact rfl | (intro p; simpa +zetaDelta using p) | (intro p; dsimp +zetaDelta only; (repeat (first | split | (simpa using p))))) | split | (dsimp -zeta +zetaDelta only)

theorem moves_execBusMasterEnableClear {msk : Nat} (hm : maskSub 0x4 msk = true) {a : State} {s : State} (h : Moves msk a s) : MovesNext msk a (execBusMasterEnableClear s) := by
  unfold execBusMasterEnableClear
  repeat' first | with_reducible apply movesNext_done | with_reducible apply movesNext_next | exact maskSub_trans hm rfl | with_reducible assumption | with_reducible apply moves_done | ((with_reducible apply Moves.ofUpdate) <;> first | with_reducible assumption | with_reducible exact fun _ => rfl | exact id | exact maskHit hm rfl | exact fun _ => rfl | exact rfl) | split

theorem moves_execBusMasterEnableSet {msk : Nat} (hm : maskSub 0x1c000e msk = true) {a : State} {s : State} (h : Moves msk a s) : MovesNext msk a (execBusMasterEnableSet s) := by
  unfold execBusMasterEnableSet
  repeat' first | with_reducible apply movesNext_done | with_reducible apply movesNext_next | exact maskSub_trans hm rfl | with_reducible assumption | with_reducible apply moves_done | with_reducible apply moves_resumeHost | ((with_reducible apply Moves.ofUpdate) <;> first | with_reducible assumption | with_reducible exact fun _ => rfl | exact id | exact maskHit hm rfl | exact fun _ => rfl | exact rfl) | split

theorem moves_execPowerStateD3hot {msk : Nat} (hm : maskSub 0x4 msk = true) {a : State} {s : State} (h : Moves msk a s) : MovesNext msk a (execPowerStateD3hot s) := by
  unfold execPowerStateD3hot
  repeat' first | with_reducible apply movesNext_done | with_reducible apply movesNext_next | exact maskSub_trans hm rfl | with_reducible assumption | with_reducible apply moves_done | ((with_reducible apply Moves.ofUpdate) <;> first | with_reducible assumption | with_reducible exact fun _ => rfl | exact id | exact maskHit hm rfl | exact fun _ => rfl | exact rfl) | split

theorem moves_execPowerStateD0 {msk : Nat} (hm : maskSub 0x1c000e msk = true) {a : State} {s : State} (h : Moves msk a s) : MovesNext msk a (execPowerStateD0 s) := by
  unfold execPowerStateD0
  repeat' first | with_reducible apply movesNext_done | with_reducible apply movesNext_next | exact maskSub_trans hm rfl | with_reducible assumption | with_reducible apply moves_done | with_reducible apply moves_resumeHost | ((with_reducible apply Moves.ofUpdate) <;> first | with_reducible assumption | with_reducible exact fun _ => rfl | exact id | exact maskHit hm rfl | exact fun _ => rfl | exact rfl) | split

theorem moves_execMsixVectorUnmask {msk : Nat} (hm : maskSub 0x6 msk = true) {a : State} {vector : ℕ} {functionMask : Bool} {s : State} (h : Moves msk a s) : MovesNext msk a (execMsixVectorUnmask vector functionMask s) := by
  unfold execMsixVectorUnmask
  repeat' first | with_reducible apply movesNext_done | with_reducible apply movesNext_next | exact maskSub_trans hm rfl | with_reducible assumption | with_reducible apply moves_done | with_reducible apply moves_releaseMessages | with_reducible apply moves_unmaskVector | ((with_reducible apply Moves.ofUpdate) <;> first | with_reducible assumption | with_reducible exact fun _ => rfl | exact id | exact maskHit hm rfl | exact fun _ => rfl | exact rfl) | split

end Sys2Proof.Machine
end

