-- ==== Sys2Proof/Laws/MovesStreamCtl.lean ====
section
/-! SUPPORT. `Moves` for the operations of Machine/StreamCtl.lean. -/

set_option linter.unusedTactic false
set_option linter.unreachableTactic false
set_option linter.tactic.unusedName false

namespace Sys2Proof.Machine

theorem moves_moveStream {msk : Nat} (hm : maskSub 0x100e msk = true) {a : State} {s : State} {st : ℕ} {x : StreamState} (h : Moves msk a s) : Moves msk a (moveStream s st x) := by
  unfold moveStream
  repeat' first | exact maskSub_trans hm rfl | with_reducible assumption | with_reducible apply moves_postStream | with_reducible apply moves_modStream | split

theorem moves_syncHolds {msk : Nat} (hm : maskSub 0x10100e msk = true) {a : State} {s : State} {st : ℕ} (h : Moves msk a s) : Moves msk a (syncHolds s st) := by
  unfold syncHolds
  repeat' first | exact maskSub_trans hm rfl | with_reducible assumption | with_reducible apply moves_count | with_reducible apply moves_setStream | split

theorem moves_syncAllHolds {msk : Nat} (hm : maskSub 0x10100e msk = true) {a : State} {s : State} (h : Moves msk a s) : Moves msk a (syncAllHolds s) := by
  unfold syncAllHolds
  repeat' first | (extract_lets +onlyGivenNames z; refine Moves.cut (m := msk) a z ?_ (fun hz => ?_) <;> [(dsimp -zeta only [z]; revert z; intro _); (clear_value z; revert z; intro _ _)]) | (extract_lets +onlyGivenNames z; revert z; intro _) | exact maskSub_trans hm rfl | with_reducible assumption | with_reducible apply moves_syncHolds | with_reducible refine Moves.foldl ?_ (fun s x h => ?_) | with_reducible exact Moves.refl _ | split | (dsimp -zeta +zetaDelta only)

theorem moves_proofHolds {msk : Nat} (hm : maskSub 0x10100e msk = true) {a : State} {s : State} {st : ℕ} (h : Moves msk a s) : Moves msk a (proofHolds s st) := by
  unfold proofHolds
  repeat' first | exact maskSub_trans hm rfl | with_reducible assumption | with_reducible apply moves_syncHolds | with_reducible apply moves_modStream | split

theorem moves_liftHold {msk : Nat} (hm : maskSub 0x10100e msk = true) {a : State} {s : State} {st : ℕ} (h : Moves msk a s) : Moves msk a (liftHold s st) := by
  unfold liftHold
  repeat' first | (extract_lets +onlyGivenNames z; refine Moves.cut (m := msk) a z ?_ (fun hz => ?_) <;> [(dsimp -zeta only [z]; revert z; intro _); (clear_value z; revert z; intro _ _)]) | (extract_lets +onlyGivenNames z; revert z; intro _) | exact maskSub_trans hm rfl | with_reducible assumption | with_reducible apply moves_syncHolds | with_reducible apply moves_modStream | split

theorem moves_liftHolds {msk : Nat} (hm : maskSub 0x10100e msk = true) {a : State} {s : State} (h : Moves msk a s) : Moves msk a (liftHolds s) := by
  unfold liftHolds
  repeat' first | (extract_lets +onlyGivenNames z; refine Moves.cut (m := msk) a z ?_ (fun hz => ?_) <;> [(dsimp -zeta only [z]; revert z; intro _); (clear_value z; revert z; intro _ _)]) | (extract_lets +onlyGivenNames z; revert z; intro _) | exact maskSub_trans hm rfl | with_reducible assumption | with_reducible apply moves_liftHold | with_reducible refine Moves.foldl ?_ (fun s x h => ?_) | with_reducible exact Moves.refl _ | split | (dsimp -zeta +zetaDelta only)

theorem moves_emitBlock {msk : Nat} (hm : maskSub 0x2 msk = true) {a : State} {s : State} {st : ℕ} {ctl : Bool} {payload : ℕ} (h : Moves msk a s) : Moves msk a (emitBlock s st ctl payload) := by
  unfold emitBlock
  repeat' first | exact maskSub_trans hm rfl | with_reducible assumption | with_reducible apply moves_emit | split

theorem moves_emitBlocks {msk : Nat} (hm : maskSub 0x2 msk = true) {a : State} {s : State} {st : ℕ} {l : List (Bool × ℕ)} (h : Moves msk a s) : Moves msk a (emitBlocks s st l) := by
  unfold emitBlocks
  repeat' first | (extract_lets +onlyGivenNames z; refine Moves.cut (m := msk) a z ?_ (fun hz => ?_) <;> [(dsimp -zeta only [z]; revert z; intro _); (clear_value z; revert z; intro _ _)]) | (extract_lets +onlyGivenNames z; revert z; intro _) | exact maskSub_trans hm rfl | with_reducible assumption | with_reducible apply moves_emitBlock | with_reducible refine Moves.foldl ?_ (fun s x h => ?_) | with_reducible exact Moves.refl _ | split | (dsimp -zeta +zetaDelta only)

theorem moves_egressSend {msk : Nat} (hm : maskSub 0x1002 msk = true) {a : State} {s : State} {st : ℕ} {r : EgressRec} {bytes : List Byte} {last : Bool} (h : Moves msk a s) : Moves msk a (egressSend s st r bytes last) := by
  unfold egressSend
  repeat' first | exact maskSub_trans hm rfl | with_reducible assumption | with_reducible apply moves_modStream | with_reducible apply moves_emitBlocks | split

theorem moves_egressFinish {msk : Nat} (hm : maskSub 0x1002 msk = true) {a : State} {s : State} {st : ℕ} {r : EgressRec} {aborted : Bool} (h : Moves msk a s) : Moves msk a (egressFinish s st r aborted) := by
  unfold egressFinish
  repeat' first | exact maskSub_trans hm rfl | with_reducible assumption | with_reducible apply moves_modStream | with_reducible apply moves_emitBlocks | split

theorem moves_egressBegin {msk : Nat} (hm : maskSub 0x1002 msk = true) {a : State} {s : State} {st : ℕ} {f : Frame} (h : Moves msk a s) : Moves msk a (egressBegin s st f) := by
  unfold egressBegin
  repeat' first | exact maskSub_trans hm rfl | with_reducible assumption | with_reducible apply moves_emitBlocks | with_reducible apply moves_egressSend | split

theorem moves_setDesc {msk : Nat} (hm : maskSub 0x1000 msk = true) {a : State} {s : State} {st : ℕ} {d : HostDesc} (h : Moves msk a s) : Moves msk a (setDesc s st d) := by
  unfold setDesc
  repeat' first | exact maskSub_trans hm rfl | with_reducible assumption | with_reducible apply moves_modStream | split

theorem moves_modFrame {msk : Nat} (hm : maskSub 0x1000 msk = true) {a : State} {s : State} {st : ℕ} {frame : ℕ} {f : Frame → Frame} (h : Moves msk a s) : Moves msk a (modFrame s st frame f) := by
  unfold modFrame
  repeat' first | exact maskSub_trans hm rfl | with_reducible assumption | with_reducible apply moves_modStream | split

theorem moves_removeFrame {msk : Nat} (hm : maskSub 0x1000 msk = true) {a : State} {s : State} {st : ℕ} {frame : ℕ} (h : Moves msk a s) : Moves msk a (removeFrame s st frame) := by
  unfold removeFrame
  repeat' first | exact maskSub_trans hm rfl | with_reducible assumption | with_reducible apply moves_modStream | split

theorem moves_settleFrame {msk : Nat} (hm : maskSub 0x10100e msk = true) {a : State} {s : State} {st : ℕ} {frame : ℕ} (h : Moves msk a s) : Moves msk a (settleFrame s st frame) := by
  unfold settleFrame
  repeat' first | exact maskSub_trans hm rfl | with_reducible assumption | with_reducible apply moves_removeFrame | with_reducible apply moves_countEvent | with_reducible apply moves_count | split

theorem moves_descStops {msk : Nat} (hm : maskSub 0x18100e msk = true) {a : State} {s : State} {st : ℕ} (h : Moves msk a s) : Moves msk a (descStops s st) := by
  unfold descStops
  repeat' first | exact maskSub_trans hm rfl | with_reducible assumption | with_reducible apply moves_finishEvery | with_reducible apply moves_setDesc | split

theorem moves_bufferDone {msk : Nat} (hm : maskSub 0x18100e msk = true) {a : State} {s : State} {st : ℕ} {b : DescBuf} (h : Moves msk a s) : Moves msk a (bufferDone s st b) := by
  unfold bufferDone
  repeat' first | (extract_lets +onlyGivenNames z; refine Moves.cut (m := msk) a z ?_ (fun hz => ?_) <;> [(dsimp -zeta only [z]; revert z; intro _); (clear_value z; revert z; intro _ _)]) | (extract_lets +onlyGivenNames z; revert z; intro _) | exact maskSub_trans hm rfl | with_reducible assumption | with_reducible apply moves_postStream | with_reducible apply moves_finishFirst | with_reducible apply moves_setDesc | split

theorem moves_hostOver {msk : Nat} (hm : maskSub 0x18100e msk = true) {a : State} {s : State} {st : ℕ} {frame : ℕ} (h : Moves msk a s) : Moves msk a (hostOver s st frame) := by
  unfold hostOver
  repeat' first | exact maskSub_trans hm rfl | with_reducible assumption | with_reducible apply moves_modStream | with_reducible apply moves_descStops | with_reducible apply moves_settleFrame | with_reducible apply moves_modFrame | split

theorem moves_sealSlot {msk : Nat} (hm : maskSub 0x19501e msk = true) {a : State} {s : State} {st : ℕ} {r : HostRec} {status : ℕ} {code : ℕ} (h : Moves msk a s) : Moves msk a (sealSlot s st r status code) := by
  unfold sealSlot
  repeat' first | (extract_lets +onlyGivenNames z; refine Moves.cut (m := msk) a z ?_ (fun hz => ?_) <;> [(dsimp -zeta only [z]; revert z; intro _); (clear_value z; revert z; intro _ _)]) | (extract_lets +onlyGivenNames z; revert z; intro _) | exact maskSub_trans hm rfl | with_reducible assumption | with_reducible apply moves_hostOver | with_reducible apply moves_hostRecordFails | with_reducible apply moves_emitWrites | with_reducible apply moves_traceNow | with_reducible apply moves_postStream | with_reducible apply moves_bufferDone | split

theorem moves_endResults {msk : Nat} (hm : maskSub 0x19501e msk = true) {a : State} {s : State} {st : ℕ} {frame : ℕ} {code : ℕ} (h : Moves msk a s) : Moves msk a (endResults s st frame code) := by
  unfold endResults
  repeat' first | exact maskSub_trans hm rfl | with_reducible assumption | with_reducible apply moves_egressFinish | with_reducible apply moves_traceNow | with_reducible apply moves_sealSlot | with_reducible apply moves_modStream | with_reducible apply moves_modFrame | split

theorem moves_ingressAbort {msk : Nat} (hm : maskSub 0x19501e msk = true) {a : State} {s : State} {st : ℕ} {f : Frame} {code : ℕ} (h : Moves msk a s) : Moves msk a (ingressAbort s st f code) := by
  unfold ingressAbort
  repeat' first | (extract_lets +onlyGivenNames z; refine Moves.cut (m := msk) a z ?_ (fun hz => ?_) <;> [(dsimp -zeta only [z]; revert z; intro _); (clear_value z; revert z; intro _ _)]) | (extract_lets +onlyGivenNames z; revert z; intro _) | exact maskSub_trans hm rfl | with_reducible assumption | with_reducible apply moves_abortRecord | with_reducible apply moves_traceNow | with_reducible apply moves_setStream | with_reducible apply moves_endResults | with_reducible apply moves_modFrame | with_reducible apply moves_removeFrame | split

theorem moves_abortFrames {msk : Nat} (hm : maskSub 0x19501e msk = true) {a : State} {s : State} {st : ℕ} {code : ℕ} (h : Moves msk a s) : MovesFst msk a (abortFrames s st code) := by
  unfold abortFrames
  repeat' first | (extract_lets +onlyGivenNames z; refine Moves.cut (m := msk) a z ?_ (fun hz => ?_) <;> [(dsimp -zeta only [z]; revert z; intro _); (clear_value z; revert z; intro _ _)]) | (extract_lets +onlyGivenNames z; revert z; intro _) | with_reducible apply movesFst_mk | exact maskSub_trans hm rfl | with_reducible assumption | with_reducible apply moves_ingressAbort | with_reducible refine Moves.foldl ?_ (fun s x h => ?_) | with_reducible exact Moves.refl _ | split | (dsimp -zeta +zetaDelta only)

end Sys2Proof.Machine
end

