-- ==== Sys2Proof/Laws/MovesStreams.lean ====
section
/-! SUPPORT. `Moves` for the operations of Machine/Streams.lean. -/

set_option linter.unusedTactic false
set_option linter.unreachableTactic false
set_option linter.tactic.unusedName false

namespace Sys2Proof.Machine

theorem moves_forgetTacks {msk : Nat} (hm : maskSub 0x20 msk = true) {a : State} {s : State} {st : ℕ} (h : Moves msk a s) : Moves msk a (forgetTacks s st) := by
  unfold forgetTacks
  repeat' first | exact maskSub_trans hm rfl | with_reducible assumption | ((with_reducible apply Moves.ofUpdate) <;> first | with_reducible assumption | with_reducible exact fun _ => rfl | exact id | exact maskHit hm rfl | exact fun _ => rfl | exact rfl) | split

theorem moves_streamOpen {msk : Nat} (hm : maskSub 0x102e msk = true) {a : State} {s : State} {p : Packet} (h : Moves msk a s) : MovesVerdict msk a (streamOpen s p) := by
  unfold streamOpen
  repeat' first | (extract_lets +onlyGivenNames z; refine Moves.cut (m := msk) a z ?_ (fun hz => ?_) <;> [(dsimp -zeta only [z]; revert z; intro _); (clear_value z; revert z; intro _ _)]) | (extract_lets +onlyGivenNames z; revert z; intro _) | with_reducible apply movesVerdict_finish | with_reducible apply movesVerdict_pend | exact maskSub_trans hm rfl | with_reducible assumption | with_reducible apply moves_refuse | with_reducible apply moves_okAt | with_reducible apply moves_moveStream | with_reducible apply moves_setStream | with_reducible apply moves_forgetTacks | split

theorem moves_applyMode {msk : Nat} (hm : maskSub 0x10100e msk = true) {a : State} {s : State} {st : ℕ} {m : ℕ} {t : Fc} (h : Moves msk a s) : Moves msk a (applyMode s st m t) := by
  unfold applyMode
  repeat' first | (extract_lets +onlyGivenNames z; refine Moves.cut (m := msk) a z ?_ (fun hz => ?_) <;> [(dsimp -zeta only [z]; revert z; intro _); (clear_value z; revert z; intro _ _)]) | (extract_lets +onlyGivenNames z; revert z; intro _) | exact maskSub_trans hm rfl | with_reducible assumption | with_reducible apply moves_syncHolds | with_reducible apply moves_moveStream | with_reducible apply moves_setStream | split

theorem moves_modeLand {msk : Nat} (hm : maskSub 0x18100e msk = true) {a : State} {s : State} {st : ℕ} (h : Moves msk a s) : Moves msk a (modeLand s st) := by
  unfold modeLand
  repeat' first | (extract_lets +onlyGivenNames z; refine Moves.cut (m := msk) a z ?_ (fun hz => ?_) <;> [(dsimp -zeta only [z]; revert z; intro _); (clear_value z; revert z; intro _ _)]) | (extract_lets +onlyGivenNames z; revert z; intro _) | exact maskSub_trans hm rfl | with_reducible assumption | with_reducible apply moves_modStream | with_reducible apply moves_finishFirst | with_reducible apply moves_applyMode | split

theorem moves_streamMode {msk : Nat} (hm : maskSub 0x10100e msk = true) {a : State} {s : State} {p : Packet} (h : Moves msk a s) : MovesVerdict msk a (streamMode s p) := by
  unfold streamMode
  repeat' first | (extract_lets +onlyGivenNames z; refine Moves.cut (m := msk) a z ?_ (fun hz => ?_) <;> [(dsimp -zeta only [z]; revert z; intro _); (clear_value z; revert z; intro _ _)]) | (extract_lets +onlyGivenNames z; revert z; intro _) | with_reducible apply movesVerdict_finish | with_reducible apply movesVerdict_pend | exact maskSub_trans hm rfl | with_reducible assumption | with_reducible apply moves_refuse | with_reducible apply moves_okAt | with_reducible apply moves_applyMode | with_reducible apply moves_modStream | split

theorem moves_closeStream {msk : Nat} (hm : maskSub 0x18100e msk = true) {a : State} {s : State} {st : ℕ} (h : Moves msk a s) : Moves msk a (closeStream s st) := by
  unfold closeStream
  repeat' first | exact maskSub_trans hm rfl | with_reducible assumption | with_reducible apply moves_modStream | with_reducible apply moves_descStops | with_reducible apply moves_moveStream | split

theorem moves_beginClose {msk : Nat} (hm : maskSub 0x18100e msk = true) {a : State} {s : State} {st : ℕ} (h : Moves msk a s) : Moves msk a (beginClose s st) := by
  unfold beginClose
  repeat' first | exact maskSub_trans hm rfl | with_reducible assumption | with_reducible apply moves_finishEvery | with_reducible apply moves_modStream | with_reducible apply moves_syncHolds | with_reducible apply moves_moveStream | split

theorem moves_streamClose {msk : Nat} (hm : maskSub 0x19501e msk = true) {a : State} {s : State} {p : Packet} (h : Moves msk a s) : MovesVerdict msk a (streamClose s p) := by
  unfold streamClose
  repeat' first | (extract_lets +onlyGivenNames z; refine Moves.cut (m := msk) a z ?_ (fun hz => ?_) <;> [(dsimp -zeta only [z]; revert z; intro _); (clear_value z; revert z; intro _ _)]) | (extract_lets +onlyGivenNames z; revert z; intro _) | with_reducible apply movesVerdict_finish | with_reducible apply movesVerdict_pend | exact maskSub_trans hm rfl | with_reducible assumption | with_reducible apply moves_refuse | with_reducible apply moves_okAt | with_reducible apply moves_descStops | with_reducible apply moves_beginClose | with_reducible refine (moves_abortFrames ?_ ?_).keeps | with_reducible apply moves_abortFrames | with_reducible apply moves_closeStream | with_reducible apply moves_modStream | split

theorem moves_deadlineMiss {msk : Nat} (hm : maskSub 0x19501e msk = true) {a : State} {s : State} {st : ℕ} {f : Frame} (h : Moves msk a s) : Moves msk a (deadlineMiss s st f) := by
  unfold deadlineMiss
  repeat' first | (extract_lets +onlyGivenNames z; refine Moves.cut (m := msk) a z ?_ (fun hz => ?_) <;> [(dsimp -zeta only [z]; revert z; intro _); (clear_value z; revert z; intro _ _)]) | (extract_lets +onlyGivenNames z; revert z; intro _) | exact maskSub_trans hm rfl | with_reducible assumption | with_reducible apply moves_modFrame | with_reducible apply moves_modStream | with_reducible apply moves_rcNote | with_reducible apply moves_countEvent | with_reducible apply moves_count | with_reducible apply moves_postEvent | with_reducible apply moves_ingressAbort | split

theorem moves_deadlinesAtResume {msk : Nat} (hm : maskSub 0x19501e msk = true) {a : State} {s : State} (h : Moves msk a s) : Moves msk a (deadlinesAtResume s) := by
  unfold deadlinesAtResume
  repeat' first | (extract_lets +onlyGivenNames z; refine Moves.cut (m := msk) a z ?_ (fun hz => ?_) <;> [(dsimp -zeta only [z]; revert z; intro _); (clear_value z; revert z; intro _ _)]) | (extract_lets +onlyGivenNames z; revert z; intro _) | exact maskSub_trans hm rfl | with_reducible assumption | with_reducible apply moves_deadlineMiss | with_reducible refine Moves.foldl ?_ (fun s x h => ?_) | with_reducible exact Moves.refl _ | split | (dsimp -zeta +zetaDelta only)

theorem moves_descArm {msk : Nat} (hm : maskSub 0x1000 msk = true) {a : State} {s : State} {p : Packet} (h : Moves msk a s) : MovesVerdict msk a (descArm s p) := by
  unfold descArm
  repeat' first | (extract_lets +onlyGivenNames z; refine Moves.cut (m := msk) a z ?_ (fun hz => ?_) <;> [(dsimp -zeta only [z]; revert z; intro _); (clear_value z; revert z; intro _ _)]) | (extract_lets +onlyGivenNames z; revert z; intro _) | with_reducible apply movesVerdict_finish | with_reducible apply movesVerdict_pend | exact maskSub_trans hm rfl | with_reducible assumption | with_reducible apply moves_refuse | with_reducible apply moves_okAt | with_reducible apply moves_setDesc | split

theorem moves_descDisarm {msk : Nat} (hm : maskSub 0x18100e msk = true) {a : State} {s : State} {p : Packet} (h : Moves msk a s) : MovesVerdict msk a (descDisarm s p) := by
  unfold descDisarm
  repeat' first | (extract_lets +onlyGivenNames z; refine Moves.cut (m := msk) a z ?_ (fun hz => ?_) <;> [(dsimp -zeta only [z]; revert z; intro _); (clear_value z; revert z; intro _ _)]) | (extract_lets +onlyGivenNames z; revert z; intro _) | with_reducible apply movesVerdict_finish | with_reducible apply movesVerdict_pend | exact maskSub_trans hm rfl | with_reducible assumption | with_reducible apply moves_refuse | with_reducible apply moves_okAt | with_reducible apply moves_setDesc | with_reducible apply moves_descStops | split

theorem moves_execStreamOpen {msk : Nat} (hm : maskSub 0x18102e msk = true) {a : State} {c : HostCmd} {s : State} (h : Moves msk a s) : MovesNext msk a (execStreamOpen c s) := by
  unfold execStreamOpen
  repeat' first | with_reducible apply movesNext_done | with_reducible apply movesNext_next | with_reducible apply movesVerdict_finish | with_reducible apply movesVerdict_pend | exact maskSub_trans hm rfl | with_reducible assumption | intro _ _ _ | with_reducible apply moves_takeCmd | with_reducible apply moves_streamOpen | split

theorem moves_execStreamMode {msk : Nat} (hm : maskSub 0x18100e msk = true) {a : State} {c : HostCmd} {s : State} (h : Moves msk a s) : MovesNext msk a (execStreamMode c s) := by
  unfold execStreamMode
  repeat' first | with_reducible apply movesNext_done | with_reducible apply movesNext_next | with_reducible apply movesVerdict_finish | with_reducible apply movesVerdict_pend | exact maskSub_trans hm rfl | with_reducible assumption | intro _ _ _ | with_reducible apply moves_takeCmd | with_reducible apply moves_streamMode | split

theorem moves_execStreamModeLands {msk : Nat} (hm : maskSub 0x18100f msk = true) {a : State} {stream : ℕ} {s : State} (h : Moves msk a s) : MovesNext msk a (execStreamModeLands stream s) := by
  unfold execStreamModeLands
  repeat' first | with_reducible apply movesNext_done | with_reducible apply movesNext_next | exact maskSub_trans hm rfl | with_reducible assumption | with_reducible apply moves_done | with_reducible apply moves_modeLand | with_reducible apply moves_advance | split

theorem moves_execStreamClose {msk : Nat} (hm : maskSub 0x19501e msk = true) {a : State} {c : HostCmd} {s : State} (h : Moves msk a s) : MovesNext msk a (execStreamClose c s) := by
  unfold execStreamClose
  repeat' first | with_reducible apply movesNext_done | with_reducible apply movesNext_next | with_reducible apply movesVerdict_finish | with_reducible apply movesVerdict_pend | exact maskSub_trans hm rfl | with_reducible assumption | intro _ _ _ | with_reducible apply moves_takeCmd | with_reducible apply moves_streamClose | split

theorem moves_execStreamCloseDrained {msk : Nat} (hm : maskSub 0x18100e msk = true) {a : State} {stream : ℕ} {s : State} (h : Moves msk a s) : MovesNext msk a (execStreamCloseDrained stream s) := by
  unfold execStreamCloseDrained
  repeat' first | (extract_lets +onlyGivenNames z; refine Moves.cut (m := msk) a z ?_ (fun hz => ?_) <;> [(dsimp -zeta only [z]; revert z; intro _); (clear_value z; revert z; intro _ _)]) | (extract_lets +onlyGivenNames z; revert z; intro _) | with_reducible apply movesNext_done | with_reducible apply movesNext_next | exact maskSub_trans hm rfl | with_reducible assumption | with_reducible apply moves_done | with_reducible apply moves_finishFirst | with_reducible apply moves_closeStream | split

theorem moves_execStreamCloseTimeout {msk : Nat} (hm : maskSub 0x19501f msk = true) {a : State} {stream : ℕ} {s : State} (h : Moves msk a s) : MovesNext msk a (execStreamCloseTimeout stream s) := by
  unfold execStreamCloseTimeout
  repeat' first | (extract_lets +onlyGivenNames z; refine Moves.cut (m := msk) a z ?_ (fun hz => ?_) <;> [(dsimp -zeta only [z]; revert z; intro _); (clear_value z; revert z; intro _ _)]) | (extract_lets +onlyGivenNames z; revert z; intro _) | with_reducible apply movesNext_done | with_reducible apply movesNext_next | exact maskSub_trans hm rfl | with_reducible assumption | with_reducible apply moves_advance | with_reducible refine (moves_abortFrames ?_ ?_).keeps | with_reducible apply moves_abortFrames | with_reducible apply moves_done | with_reducible apply moves_finishFirst | with_reducible apply moves_closeStream | split

theorem moves_execDeadlineExpiry {msk : Nat} (hm : maskSub 0x19501f msk = true) {a : State} {stream : ℕ} {frame : ℕ} {s : State} (h : Moves msk a s) : MovesNext msk a (execDeadlineExpiry stream frame s) := by
  unfold execDeadlineExpiry
  repeat' first | with_reducible apply movesNext_done | with_reducible apply movesNext_next | exact maskSub_trans hm rfl | with_reducible assumption | with_reducible apply moves_done | with_reducible apply moves_deadlineMiss | with_reducible apply moves_advance | split

theorem moves_execDescArm {msk : Nat} (hm : maskSub 0x18100e msk = true) {a : State} {c : HostCmd} {s : State} (h : Moves msk a s) : MovesNext msk a (execDescArm c s) := by
  unfold execDescArm
  repeat' first | with_reducible apply movesNext_done | with_reducible apply movesNext_next | with_reducible apply movesVerdict_finish | with_reducible apply movesVerdict_pend | exact maskSub_trans hm rfl | with_reducible assumption | intro _ _ _ | with_reducible apply moves_takeCmd | with_reducible apply moves_descArm | split

theorem moves_execDescDisarm {msk : Nat} (hm : maskSub 0x18100e msk = true) {a : State} {c : HostCmd} {s : State} (h : Moves msk a s) : MovesNext msk a (execDescDisarm c s) := by
  unfold execDescDisarm
  repeat' first | with_reducible apply movesNext_done | with_reducible apply movesNext_next | with_reducible apply movesVerdict_finish | with_reducible apply movesVerdict_pend | exact maskSub_trans hm rfl | with_reducible assumption | intro _ _ _ | with_reducible apply moves_takeCmd | with_reducible apply moves_descDisarm | split

end Sys2Proof.Machine
end

