-- ==== Sys2Proof/Laws/MovesIngress.lean ====
section
/-! SUPPORT. `Moves` for the operations of Machine/Ingress.lean. -/

set_option linter.unusedTactic false
set_option linter.unreachableTactic false
set_option linter.tactic.unusedName false

namespace Sys2Proof.Machine

theorem moves_receiveError {msk : Nat} (hm : maskSub 0x19501e msk = true) {a : State} {s : State} {st : ℕ} {code : ℕ} (h : Moves msk a s) : Moves msk a (receiveError s st code) := by
  unfold receiveError
  repeat' first | exact maskSub_trans hm rfl | with_reducible assumption | with_reducible apply moves_ingressAbort | with_reducible apply moves_modStream | split

theorem moves_newFrame {msk : Nat} (hm : maskSub 0x19501e msk = true) {a : State} {s : State} {st : ℕ} {payload : BitVec 64} (h : Moves msk a s) : Moves msk a (newFrame s st payload) := by
  unfold newFrame
  repeat' first | (extract_lets +onlyGivenNames z; refine Moves.cut (m := msk) a z ?_ (fun hz => ?_) <;> [(dsimp -zeta only [z]; revert z; intro _); (clear_value z; revert z; intro _ _)]) | (extract_lets +onlyGivenNames z; revert z; intro _) | exact maskSub_trans hm rfl | with_reducible assumption | with_reducible apply moves_setStream | with_reducible apply moves_count | with_reducible apply moves_traceNow | with_reducible apply moves_receiveError | with_reducible apply moves_syncHolds | split

theorem moves_strayBlock {msk : Nat} (hm : maskSub 0x19501e msk = true) {a : State} {s : State} {st : ℕ} {payload : BitVec 64} (h : Moves msk a s) : Moves msk a (strayBlock s st payload) := by
  unfold strayBlock
  repeat' first | exact maskSub_trans hm rfl | with_reducible assumption | with_reducible apply moves_receiveError | split

theorem moves_setReception {msk : Nat} (hm : maskSub 0x1000 msk = true) {a : State} {s : State} {st : ℕ} {r : Reception} (h : Moves msk a s) : Moves msk a (setReception s st r) := by
  unfold setReception
  repeat' first | exact maskSub_trans hm rfl | with_reducible assumption | with_reducible apply moves_modStream | split

theorem moves_lineData {msk : Nat} (hm : maskSub 0x19501e msk = true) {a : State} {s : State} {st : ℕ} {r : Reception} {f : Frame} {payload : BitVec 64} (h : Moves msk a s) : Moves msk a (lineData s st r f payload) := by
  unfold lineData
  repeat' first | (extract_lets +onlyGivenNames z; refine Moves.cut (m := msk) a z ?_ (fun hz => ?_) <;> [(dsimp -zeta only [z]; revert z; intro _); (clear_value z; revert z; intro _ _)]) | (extract_lets +onlyGivenNames z; revert z; intro _) | exact maskSub_trans hm rfl | with_reducible assumption | with_reducible apply moves_receiveError | with_reducible apply moves_setReception | with_reducible apply moves_setStream | split

theorem moves_lineEnd {msk : Nat} (hm : maskSub 0x19501e msk = true) {a : State} {s : State} {st : ℕ} {r : Reception} {w : ℕ} (h : Moves msk a s) : Moves msk a (lineEnd s st r w) := by
  unfold lineEnd
  repeat' first | (extract_lets +onlyGivenNames z; refine Moves.cut (m := msk) a z ?_ (fun hz => ?_) <;> [(dsimp -zeta only [z]; revert z; intro _); (clear_value z; revert z; intro _ _)]) | (extract_lets +onlyGivenNames z; revert z; intro _) | exact maskSub_trans hm rfl | with_reducible assumption | with_reducible apply moves_receiveError | with_reducible apply moves_setReception | with_reducible apply moves_setStream | split

theorem moves_frameGone {msk : Nat} (hm : maskSub 0x10100e msk = true) {a : State} {s : State} {st : ℕ} {frame : ℕ} (h : Moves msk a s) : Moves msk a (frameGone s st frame) := by
  unfold frameGone
  repeat' first | (extract_lets +onlyGivenNames z; refine Moves.cut (m := msk) a z ?_ (fun hz => ?_) <;> [(dsimp -zeta only [z]; revert z; intro _); (clear_value z; revert z; intro _ _)]) | (extract_lets +onlyGivenNames z; revert z; intro _) | exact maskSub_trans hm rfl | with_reducible assumption | with_reducible apply moves_settleFrame | with_reducible apply moves_removeFrame | split

theorem moves_frameEnd {msk : Nat} (hm : maskSub 0x19501e msk = true) {a : State} {s : State} {st : ℕ} {r : Reception} {w : ℕ} (h : Moves msk a s) : Moves msk a (frameEnd s st r w) := by
  unfold frameEnd
  repeat' first | (extract_lets +onlyGivenNames z; refine Moves.cut (m := msk) a z ?_ (fun hz => ?_) <;> [(dsimp -zeta only [z]; revert z; intro _); (clear_value z; revert z; intro _ _)]) | (extract_lets +onlyGivenNames z; revert z; intro _) | exact maskSub_trans hm rfl | with_reducible assumption | with_reducible apply moves_receiveError | with_reducible apply moves_modFrame | with_reducible apply moves_modStream | with_reducible apply moves_frameGone | with_reducible apply moves_traceNow | split

theorem moves_execFrameStartReceive {msk : Nat} (hm : maskSub 0x19501e msk = true) {a : State} {stream : ℕ} {start : StartStripe} {s : State} (h : Moves msk a s) : MovesNext msk a (execFrameStartReceive stream start s) := by
  unfold execFrameStartReceive
  repeat' first | (extract_lets +onlyGivenNames z; refine Moves.cut (m := msk) a z ?_ (fun hz => ?_) <;> [(dsimp -zeta only [z]; revert z; intro _); (clear_value z; revert z; intro _ _)]) | (extract_lets +onlyGivenNames z; revert z; intro _) | with_reducible apply movesNext_done | with_reducible apply movesNext_next | exact maskSub_trans hm rfl | with_reducible assumption | with_reducible apply moves_done | with_reducible apply moves_strayBlock | with_reducible apply moves_modeLand | with_reducible apply moves_receiveError | with_reducible apply moves_modStream | with_reducible apply moves_newFrame | split

theorem moves_execLineStartReceive {msk : Nat} (hm : maskSub 0x19501e msk = true) {a : State} {stream : ℕ} {payload : BitVec 64} {s : State} (h : Moves msk a s) : MovesNext msk a (execLineStartReceive stream payload s) := by
  unfold execLineStartReceive
  repeat' first | with_reducible apply movesNext_done | with_reducible apply movesNext_next | exact maskSub_trans hm rfl | with_reducible assumption | with_reducible apply moves_done | with_reducible apply moves_strayBlock | with_reducible apply moves_receiveError | with_reducible apply moves_setReception | split

theorem moves_execDataBlockReceive {msk : Nat} (hm : maskSub 0x19501e msk = true) {a : State} {stream : ℕ} {payload : BitVec 64} {s : State} (h : Moves msk a s) : MovesNext msk a (execDataBlockReceive stream payload s) := by
  unfold execDataBlockReceive
  repeat' first | with_reducible apply movesNext_done | with_reducible apply movesNext_next | exact maskSub_trans hm rfl | with_reducible assumption | with_reducible apply moves_done | with_reducible apply moves_lineData | split

theorem moves_execLineEndReceive {msk : Nat} (hm : maskSub 0x19501e msk = true) {a : State} {stream : ℕ} {payload : BitVec 64} {s : State} (h : Moves msk a s) : MovesNext msk a (execLineEndReceive stream payload s) := by
  unfold execLineEndReceive
  repeat' first | with_reducible apply movesNext_done | with_reducible apply movesNext_next | exact maskSub_trans hm rfl | with_reducible assumption | with_reducible apply moves_done | with_reducible apply moves_strayBlock | with_reducible apply moves_lineEnd | split

theorem moves_execFrameEndReceive {msk : Nat} (hm : maskSub 0x19501e msk = true) {a : State} {stream : ℕ} {payload : BitVec 64} {s : State} (h : Moves msk a s) : MovesNext msk a (execFrameEndReceive stream payload s) := by
  unfold execFrameEndReceive
  repeat' first | with_reducible apply movesNext_done | with_reducible apply movesNext_next | exact maskSub_trans hm rfl | with_reducible assumption | with_reducible apply moves_done | with_reducible apply moves_strayBlock | with_reducible apply moves_frameEnd | split

theorem moves_execIdleStripeReceive {msk : Nat} (hm : maskSub 0x19501e msk = true) {a : State} {stripe : IdleStripe} {s : State} (h : Moves msk a s) : MovesNext msk a (execIdleStripeReceive stripe s) := by
  unfold execIdleStripeReceive
  repeat' first | with_reducible apply movesNext_done | with_reducible apply movesNext_next | exact maskSub_trans hm rfl | with_reducible assumption | with_reducible apply moves_done | with_reducible apply moves_receiveError | split

theorem moves_execLaneLockLoss {msk : Nat} (hm : maskSub 0x19701e msk = true) {a : State} {lane : ℕ} {cause : LaneLoss} {s : State} (h : Moves msk a s) : MovesNext msk a (execLaneLockLoss lane cause s) := by
  unfold execLaneLockLoss
  repeat' first | (extract_lets +onlyGivenNames z; refine Moves.cut (m := msk) a z ?_ (fun hz => ?_) <;> [(dsimp -zeta only [z]; revert z; intro _); (clear_value z; revert z; intro _ _)]) | (extract_lets +onlyGivenNames z; revert z; intro _) | with_reducible apply movesNext_done | with_reducible apply movesNext_next | exact maskSub_trans hm rfl | with_reducible assumption | with_reducible apply moves_done | with_reducible apply moves_receiveError | with_reducible refine Moves.foldl ?_ (fun s x h => ?_) | with_reducible exact Moves.refl _ | ((with_reducible apply Moves.ofUpdate) <;> first | with_reducible assumption | with_reducible exact fun _ => rfl | exact id | exact maskHit hm rfl | exact fun _ => rfl | exact rfl | (intro p; simpa +zetaDelta using p) | (intro p; dsimp +zetaDelta only; (repeat (first | split | (simpa using p))))) | split | (dsimp -zeta +zetaDelta only)

theorem moves_execLaneLockRegain {msk : Nat} (hm : maskSub 0x2000 msk = true) {a : State} {lane : ℕ} {s : State} (h : Moves msk a s) : MovesNext msk a (execLaneLockRegain lane s) := by
  unfold execLaneLockRegain
  repeat' first | (extract_lets +onlyGivenNames z; refine Moves.cut (m := msk) a z ?_ (fun hz => ?_) <;> [(dsimp -zeta only [z]; revert z; intro _); (clear_value z; revert z; intro _ _)]) | (extract_lets +onlyGivenNames z; revert z; intro _) | with_reducible apply movesNext_done | with_reducible apply movesNext_next | exact maskSub_trans hm rfl | with_reducible assumption | with_reducible apply moves_done | with_reducible refine Moves.foldl ?_ (fun s x h => ?_) | with_reducible exact Moves.refl _ | ((with_reducible apply Moves.ofUpdate) <;> first | with_reducible assumption | with_reducible exact fun _ => rfl | exact id | exact maskHit hm rfl | exact fun _ => rfl | exact rfl | (intro p; simpa +zetaDelta using p) | (intro p; dsimp +zetaDelta only; (repeat (first | split | (simpa using p))))) | split | (dsimp -zeta +zetaDelta only)

theorem moves_execIngressBeatSend {msk : Nat} (hm : maskSub 0x10102f msk = true) {a : State} {stream : ℕ} {s0 : State} (h : Moves msk a s0) : MovesNext msk a (execIngressBeatSend stream s0) := by
  unfold execIngressBeatSend
  repeat' first | (extract_lets +onlyGivenNames z; refine Moves.cut (m := msk) a z ?_ (fun hz => ?_) <;> [(dsimp -zeta only [z]; revert z; intro _); (clear_value z; revert z; intro _ _)]) | (extract_lets +onlyGivenNames z; revert z; intro _) | with_reducible apply movesNext_done | with_reducible apply movesNext_next | exact maskSub_trans hm rfl | with_reducible assumption | with_reducible apply moves_done | with_reducible apply moves_liftHold | with_reducible apply moves_advance | with_reducible apply moves_modStream | with_reducible apply moves_modFrame | with_reducible apply moves_frameGone | with_reducible apply moves_pushOut | with_reducible apply moves_proofHolds | split

end Sys2Proof.Machine
end

