-- ==== Sys2Proof/Laws/MovesEgress.lean ====
section
/-! SUPPORT. `Moves` for the operations of Machine/Egress.lean. -/

set_option linter.unusedTactic false
set_option linter.unreachableTactic false
set_option linter.tactic.unusedName false

namespace Sys2Proof.Machine

theorem moves_resultPop {msk : Nat} (hm : maskSub 0x1020 msk = true) {a : State} {s : State} {st : ℕ} (h : Moves msk a s) : Moves msk a (resultPop s st) := by
  unfold resultPop
  repeat' first | (extract_lets +onlyGivenNames z; refine Moves.cut (m := msk) a z ?_ (fun hz => ?_) <;> [(dsimp -zeta only [z]; revert z; intro _); (clear_value z; revert z; intro _ _)]) | (extract_lets +onlyGivenNames z; revert z; intro _) | exact maskSub_trans hm rfl | with_reducible assumption | with_reducible apply moves_modStream | with_reducible refine (moves_takeBeat ?_ ?_).keeps (by assumption) | split

theorem moves_recordBreak {msk : Nat} (hm : maskSub 0x19501e msk = true) {a : State} {s : State} {st : ℕ} {frame : ℕ} (h : Moves msk a s) : Moves msk a (recordBreak s st frame) := by
  unfold recordBreak
  repeat' first | exact maskSub_trans hm rfl | with_reducible assumption | with_reducible apply moves_faultFrame | with_reducible apply moves_endResults | with_reducible apply moves_abortRecord | with_reducible apply moves_removeFrame | split

theorem moves_setRes {msk : Nat} (hm : maskSub 0x1000 msk = true) {a : State} {s : State} {st : ℕ} {r : Option ResRec} (h : Moves msk a s) : Moves msk a (setRes s st r) := by
  unfold setRes
  repeat' first | exact maskSub_trans hm rfl | with_reducible assumption | with_reducible apply moves_modStream | split

theorem moves_resultTack {msk : Nat} (hm : maskSub 0x19501e msk = true) {a : State} {s : State} {st : ℕ} {b : Beat} (h : Moves msk a s) : Moves msk a (resultTack s st b) := by
  unfold resultTack
  repeat' first | (extract_lets +onlyGivenNames z; refine Moves.cut (m := msk) a z ?_ (fun hz => ?_) <;> [(dsimp -zeta only [z]; revert z; intro _); (clear_value z; revert z; intro _ _)]) | (extract_lets +onlyGivenNames z; revert z; intro _) | exact maskSub_trans hm rfl | with_reducible assumption | with_reducible apply moves_recordBreak | with_reducible apply moves_setRes | with_reducible apply moves_modStream | split

theorem moves_resultCount {msk : Nat} (hm : maskSub 0x19503e msk = true) {a : State} {s : State} {st : ℕ} {b : Beat} (h : Moves msk a s) : MovesFst msk a (resultCount s st b) := by
  unfold resultCount
  repeat' first | (extract_lets +onlyGivenNames z; refine Moves.cut (m := msk) a z ?_ (fun hz => ?_) <;> [(dsimp -zeta only [z]; revert z; intro _); (clear_value z; revert z; intro _ _)]) | (extract_lets +onlyGivenNames z; revert z; intro _) | with_reducible apply movesFst_mk | exact maskSub_trans hm rfl | with_reducible assumption | with_reducible apply moves_resultPop | with_reducible apply moves_resultTack | with_reducible apply moves_setRes | with_reducible apply moves_recordBreak | with_reducible apply moves_modStream | with_reducible apply moves_modFrame | with_reducible apply moves_settleFrame | split

theorem moves_resultHead {msk : Nat} (hm : maskSub 0x19503e msk = true) {a : State} {s : State} {st : ℕ} {bit : ℕ} (h : Moves msk a s) : MovesFst msk a (resultHead s st bit) := by
  unfold resultHead
  repeat' first | (extract_lets +onlyGivenNames z; refine Moves.cut (m := msk) a z ?_ (fun hz => ?_) <;> [(dsimp -zeta only [z]; revert z; intro _); (clear_value z; revert z; intro _ _)]) | (extract_lets +onlyGivenNames z; revert z; intro _) | with_reducible apply movesFst_mk | exact maskSub_trans hm rfl | with_reducible assumption | with_reducible refine (moves_resultCount ?_ ?_).keeps | with_reducible apply moves_resultCount | split

theorem moves_resultTaken {msk : Nat} (hm : maskSub 0x1020 msk = true) {a : State} {s : State} {st : ℕ} {bit : ℕ} (h : Moves msk a s) : Moves msk a (resultTaken s st bit) := by
  unfold resultTaken
  repeat' first | (extract_lets +onlyGivenNames z; refine Moves.cut (m := msk) a z ?_ (fun hz => ?_) <;> [(dsimp -zeta only [z]; revert z; intro _); (clear_value z; revert z; intro _ _)]) | (extract_lets +onlyGivenNames z; revert z; intro _) | exact maskSub_trans hm rfl | with_reducible assumption | with_reducible apply moves_modStream | with_reducible apply moves_resultPop | split

theorem moves_egressStart {msk : Nat} (hm : maskSub 0x18100e msk = true) {a : State} {s : State} {st : ℕ} (h : Moves msk a s) : Moves msk a (egressStart s st) := by
  unfold egressStart
  repeat' first | exact maskSub_trans hm rfl | with_reducible assumption | with_reducible apply moves_egressBegin | with_reducible apply moves_traceNow | split

theorem moves_egressEnds {msk : Nat} (hm : maskSub 0x18100e msk = true) {a : State} {s : State} {st : ℕ} {frame : ℕ} (h : Moves msk a s) : Moves msk a (egressEnds s st frame) := by
  unfold egressEnds
  repeat' first | exact maskSub_trans hm rfl | with_reducible assumption | with_reducible apply moves_traceNow | with_reducible apply moves_egressFinish | with_reducible apply moves_settleFrame | with_reducible apply moves_modFrame | split

theorem moves_courierLines {msk : Nat} (hm : maskSub 0x1002 msk = true) {a : State} {x : ℕ} {y : State} {y1 : ℕ} {y11 : ℕ} (h : Moves msk a y) : Moves msk a (courierLines x y y1 y11) := by
  induction x generalizing y y1 y11 with
  | zero =>
    unfold courierLines
    repeat' first | exact maskSub_trans hm rfl | with_reducible assumption | with_reducible apply moves_egressSend | with_reducible apply moves_modStream | with_reducible refine Moves.foldl ?_ (fun s x h => ?_) | with_reducible exact Moves.refl _ | split
  | succ n ih =>
    unfold courierLines
    repeat' first | exact maskSub_trans hm rfl | with_reducible assumption | with_reducible apply ih | with_reducible apply moves_egressSend | with_reducible apply moves_modStream | with_reducible refine Moves.foldl ?_ (fun s x h => ?_) | with_reducible exact Moves.refl _ | split

theorem moves_hostBegin {msk : Nat} (hm : maskSub 0x19501e msk = true) {a : State} {s : State} {st : ℕ} {r : ResRec} (h : Moves msk a s) : Moves msk a (hostBegin s st r) := by
  unfold hostBegin
  repeat' first | (extract_lets +onlyGivenNames z; refine Moves.cut (m := msk) a z ?_ (fun hz => ?_) <;> [(dsimp -zeta only [z]; revert z; intro _); (clear_value z; revert z; intro _ _)]) | (extract_lets +onlyGivenNames z; revert z; intro _) | exact maskSub_trans hm rfl | with_reducible assumption | with_reducible apply moves_traceNow | with_reducible apply moves_setDesc | with_reducible apply moves_modFrame | with_reducible apply moves_abortRecord | split

theorem moves_hostBeat {msk : Nat} (hm : maskSub 0x19501e msk = true) {a : State} {s : State} {st : ℕ} {x : HostRec} {b : Beat} (h : Moves msk a s) : Moves msk a (hostBeat s st x b) := by
  unfold hostBeat
  repeat' first | (extract_lets +onlyGivenNames z; refine Moves.cut (m := msk) a z ?_ (fun hz => ?_) <;> [(dsimp -zeta only [z]; revert z; intro _); (clear_value z; revert z; intro _ _)]) | (extract_lets +onlyGivenNames z; revert z; intro _) | exact maskSub_trans hm rfl | with_reducible assumption | with_reducible apply moves_setDesc | with_reducible apply moves_abortRecord | with_reducible apply moves_hostRecordFails | with_reducible apply moves_emitWrites | split

theorem moves_hostEnds {msk : Nat} (hm : maskSub 0x18100e msk = true) {a : State} {s : State} {st : ℕ} {frame : ℕ} (h : Moves msk a s) : Moves msk a (hostEnds s st frame) := by
  unfold hostEnds
  repeat' first | exact maskSub_trans hm rfl | with_reducible assumption | with_reducible apply moves_hostOver | with_reducible apply moves_setDesc | with_reducible apply moves_settleFrame | split

theorem moves_resultVoid {msk : Nat} (hm : maskSub 0x19503e msk = true) {a : State} {s : State} {st : ℕ} {b : Beat} (h : Moves msk a s) : Moves msk a (resultVoid s st b) := by
  unfold resultVoid
  repeat' first | exact maskSub_trans hm rfl | with_reducible assumption | with_reducible apply moves_endResults | with_reducible apply moves_removeFrame | with_reducible apply moves_setRes | with_reducible apply moves_resultPop | split

theorem moves_execEgressFrameStart {msk : Nat} (hm : maskSub 0x19503e msk = true) {a : State} {stream : ℕ} {s : State} (h : Moves msk a s) : MovesNext msk a (execEgressFrameStart stream s) := by
  unfold execEgressFrameStart
  repeat' first | with_reducible apply movesNext_done | with_reducible apply movesNext_next | exact maskSub_trans hm rfl | with_reducible assumption | with_reducible apply moves_done | with_reducible refine (moves_resultHead ?_ ?_).keeps | with_reducible apply moves_resultHead | with_reducible apply moves_egressStart | split

theorem moves_execEgressResultBeat {msk : Nat} (hm : maskSub 0x19503e msk = true) {a : State} {stream : ℕ} {s : State} (h : Moves msk a s) : MovesNext msk a (execEgressResultBeat stream s) := by
  unfold execEgressResultBeat
  repeat' first | (extract_lets +onlyGivenNames z; refine Moves.cut (m := msk) a z ?_ (fun hz => ?_) <;> [(dsimp -zeta only [z]; revert z; intro _); (clear_value z; revert z; intro _ _)]) | (extract_lets +onlyGivenNames z; revert z; intro _) | with_reducible apply movesNext_done | with_reducible apply movesNext_next | exact maskSub_trans hm rfl | with_reducible assumption | with_reducible apply moves_done | with_reducible refine (moves_resultHead ?_ ?_).keeps | with_reducible apply moves_resultHead | with_reducible apply moves_egressSend | with_reducible apply moves_egressEnds | with_reducible apply moves_resultTaken | split

theorem moves_execCourierFrameForward {msk : Nat} (hm : maskSub 0x18100e msk = true) {a : State} {stream : ℕ} {s : State} (h : Moves msk a s) : MovesNext msk a (execCourierFrameForward stream s) := by
  unfold execCourierFrameForward
  repeat' first | (extract_lets +onlyGivenNames z; refine Moves.cut (m := msk) a z ?_ (fun hz => ?_) <;> [(dsimp -zeta only [z]; revert z; intro _); (clear_value z; revert z; intro _ _)]) | (extract_lets +onlyGivenNames z; revert z; intro _) | with_reducible apply movesNext_done | with_reducible apply movesNext_next | exact maskSub_trans hm rfl | with_reducible assumption | with_reducible apply moves_done | with_reducible apply moves_egressStart | with_reducible apply moves_courierLines | with_reducible apply moves_egressFinish | with_reducible apply moves_settleFrame | with_reducible apply moves_modFrame | split

theorem moves_execHostRecordWrite {msk : Nat} (hm : maskSub 0x19503e msk = true) {a : State} {stream : ℕ} {s : State} (h : Moves msk a s) : MovesNext msk a (execHostRecordWrite stream s) := by
  unfold execHostRecordWrite
  repeat' first | (extract_lets +onlyGivenNames z; refine Moves.cut (m := msk) a z ?_ (fun hz => ?_) <;> [(dsimp -zeta only [z]; revert z; intro _); (clear_value z; revert z; intro _ _)]) | (extract_lets +onlyGivenNames z; revert z; intro _) | with_reducible apply movesNext_done | with_reducible apply movesNext_next | exact maskSub_trans hm rfl | with_reducible assumption | with_reducible apply moves_done | with_reducible refine (moves_resultHead ?_ ?_).keeps | with_reducible apply moves_resultHead | with_reducible apply moves_hostBegin | with_reducible apply moves_hostBeat | with_reducible apply moves_hostEnds | with_reducible apply moves_resultTaken | split

theorem moves_execHostSlotSeal {msk : Nat} (hm : maskSub 0x19501e msk = true) {a : State} {stream : ℕ} {s : State} (h : Moves msk a s) : MovesNext msk a (execHostSlotSeal stream s) := by
  unfold execHostSlotSeal
  repeat' first | with_reducible apply movesNext_done | with_reducible apply movesNext_next | exact maskSub_trans hm rfl | with_reducible assumption | with_reducible apply moves_done | with_reducible apply moves_sealSlot | split

end Sys2Proof.Machine
end

