-- ==== Sys2Proof/Laws/MovesSpanLink.lean ====
section
/-! SUPPORT. `Moves` for the operations of Machine/SpanLink.lean. -/

set_option linter.unusedTactic false
set_option linter.unreachableTactic false
set_option linter.tactic.unusedName false

namespace Sys2Proof.Machine

theorem moves_modSpan {msk : Nat} (hm : maskSub 0x4000 msk = true) {a : State} {s : State} {p : ℕ} {f : SpanPort → SpanPort} (h : Moves msk a s) : Moves msk a (modSpan s p f) := by
  unfold modSpan
  repeat' first | (extract_lets +onlyGivenNames z; refine Moves.cut (m := msk) a z ?_ (fun hz => ?_) <;> [(dsimp -zeta only [z]; revert z; intro _); (clear_value z; revert z; intro _ _)]) | (extract_lets +onlyGivenNames z; revert z; intro _) | exact maskSub_trans hm rfl | with_reducible assumption | with_reducible refine Moves.foldl ?_ (fun s x h => ?_) | with_reducible exact Moves.refl _ | ((with_reducible apply Moves.ofUpdate) <;> first | with_reducible assumption | with_reducible exact fun _ => rfl | exact id | exact maskHit hm rfl | exact fun _ => rfl | exact rfl | (intro p; simpa +zetaDelta using p) | (intro p; dsimp +zetaDelta only; (repeat (first | split | (simpa using p))))) | split | (dsimp -zeta +zetaDelta only)

theorem moves_moveSpan {msk : Nat} (hm : maskSub 0x400e msk = true) {a : State} {s : State} {p : ℕ} {x : SpanState} (h : Moves msk a s) : Moves msk a (moveSpan s p x) := by
  unfold moveSpan
  repeat' first | exact maskSub_trans hm rfl | with_reducible assumption | with_reducible apply moves_postDev | with_reducible apply moves_modSpan | split

theorem moves_rxVoid {msk : Nat} (hm : maskSub 0x4000 msk = true) {a : State} {s : State} {p : ℕ} {j : ℕ} {st : ℕ} {frame : ℕ} {code : ℕ} (h : Moves msk a s) : Moves msk a (rxVoid s p j st frame code) := by
  unfold rxVoid
  repeat' first | (extract_lets +onlyGivenNames z; refine Moves.cut (m := msk) a z ?_ (fun hz => ?_) <;> [(dsimp -zeta only [z]; revert z; intro _); (clear_value z; revert z; intro _ _)]) | (extract_lets +onlyGivenNames z; revert z; intro _) | exact maskSub_trans hm rfl | with_reducible assumption | with_reducible apply moves_modSpan | split

theorem moves_txVoid {msk : Nat} (hm : maskSub 0x4020 msk = true) {a : State} {s : State} {p : ℕ} {j : ℕ} {st : ℕ} {frame : ℕ} {code : ℕ} (h : Moves msk a s) : Moves msk a (txVoid s p j st frame code) := by
  unfold txVoid
  repeat' first | (extract_lets +onlyGivenNames z; refine Moves.cut (m := msk) a z ?_ (fun hz => ?_) <;> [(dsimp -zeta only [z]; revert z; intro _); (clear_value z; revert z; intro _ _)]) | (extract_lets +onlyGivenNames z; revert z; intro _) | exact maskSub_trans hm rfl | with_reducible assumption | with_reducible apply moves_discardInput | with_reducible apply moves_modSpan | split

theorem moves_subVoid {msk : Nat} (hm : maskSub 0x4020 msk = true) {a : State} {s : State} {p : ℕ} {j : ℕ} {st : ℕ} {frame : ℕ} {code : ℕ} {tx : Bool} {rx : Bool} (h : Moves msk a s) : Moves msk a (subVoid s p j st frame code tx rx) := by
  unfold subVoid
  repeat' first | exact maskSub_trans hm rfl | with_reducible assumption | with_reducible apply moves_txVoid | with_reducible apply moves_rxVoid | split

theorem moves_subDrop {msk : Nat} (hm : maskSub 0x4020 msk = true) {a : State} {s : State} {p : ℕ} {j : ℕ} {st : ℕ} {frame : ℕ} {code : ℕ} {tx : Bool} {rx : Bool} (h : Moves msk a s) : Moves msk a (subDrop s p j st frame code tx rx) := by
  unfold subDrop
  repeat' first | exact maskSub_trans hm rfl | with_reducible assumption | with_reducible apply moves_discardInput | with_reducible apply moves_modSpan | with_reducible apply moves_rxVoid | split

theorem moves_spanAbortAll {msk : Nat} (hm : maskSub 0x19503e msk = true) {a : State} {s : State} {p : ℕ} {code : ℕ} (h : Moves msk a s) : Moves msk a (spanAbortAll s p code) := by
  unfold spanAbortAll
  repeat' first | (extract_lets +onlyGivenNames z; refine Moves.cut (m := msk) a z ?_ (fun hz => ?_) <;> [(dsimp -zeta only [z]; revert z; intro _); (clear_value z; revert z; intro _ _)]) | (extract_lets +onlyGivenNames z; revert z; intro _) | exact maskSub_trans hm rfl | with_reducible assumption | with_reducible apply moves_abortRecord | with_reducible apply moves_subDrop | with_reducible refine Moves.foldl ?_ (fun s x h => ?_) | with_reducible exact Moves.refl _ | split | (dsimp -zeta +zetaDelta only)

theorem moves_spanPendsEnd {msk : Nat} (hm : maskSub 0x18000e msk = true) {a : State} {s : State} {p : ℕ} (h : Moves msk a s) : Moves msk a (spanPendsEnd s p) := by
  unfold spanPendsEnd
  repeat' first | exact maskSub_trans hm rfl | with_reducible assumption | with_reducible apply moves_finishEvery | split

theorem moves_linkFails {msk : Nat} (hm : maskSub 0x19503e msk = true) {a : State} {s : State} {p : ℕ} (h : Moves msk a s) : Moves msk a (linkFails s p) := by
  unfold linkFails
  repeat' first | exact maskSub_trans hm rfl | with_reducible assumption | with_reducible apply moves_fault | with_reducible apply moves_moveSpan | with_reducible apply moves_spanPendsEnd | with_reducible apply moves_spanAbortAll | with_reducible apply moves_modSpan | with_reducible apply moves_finishEvery | split

theorem moves_spanShut {msk : Nat} (hm : maskSub 0x400e msk = true) {a : State} {s : State} {p : ℕ} {bye : Bool} (h : Moves msk a s) : Moves msk a (spanShut s p bye) := by
  unfold spanShut
  repeat' first | exact maskSub_trans hm rfl | with_reducible assumption | with_reducible apply moves_modSpan | with_reducible apply moves_moveSpan | split

theorem moves_byeReceived {msk : Nat} (hm : maskSub 0x19503e msk = true) {a : State} {s : State} {p : ℕ} (h : Moves msk a s) : Moves msk a (byeReceived s p) := by
  unfold byeReceived
  repeat' first | exact maskSub_trans hm rfl | with_reducible assumption | with_reducible apply moves_fault | with_reducible apply moves_spanPendsEnd | with_reducible apply moves_spanShut | with_reducible apply moves_spanAbortAll | with_reducible apply moves_finishEvery | split

theorem moves_measureDone {msk : Nat} (hm : maskSub 0x18400e msk = true) {a : State} {s : State} {p : ℕ} {pairs : List (ℤ × ℤ)} (h : Moves msk a s) : Moves msk a (measureDone s p pairs) := by
  unfold measureDone
  repeat' first | exact maskSub_trans hm rfl | with_reducible assumption | with_reducible apply moves_modSpan | with_reducible apply moves_traceAt | with_reducible apply moves_moveSpan | with_reducible apply moves_finishEvery | split

theorem moves_echoReceived {msk : Nat} (hm : maskSub 0x19501e msk = true) {a : State} {s : State} {p : ℕ} {c : Control} (h : Moves msk a s) : Moves msk a (echoReceived s p c) := by
  unfold echoReceived
  repeat' first | (extract_lets +onlyGivenNames z; refine Moves.cut (m := msk) a z ?_ (fun hz => ?_) <;> [(dsimp -zeta only [z]; revert z; intro _); (clear_value z; revert z; intro _ _)]) | (extract_lets +onlyGivenNames z; revert z; intro _) | exact maskSub_trans hm rfl | with_reducible assumption | with_reducible apply moves_measureDone | with_reducible apply moves_setSpan | with_reducible apply moves_fault | split

theorem moves_helloReceived {msk : Nat} (hm : maskSub 0x19501e msk = true) {a : State} {s : State} {p : ℕ} {c : Control} (h : Moves msk a s) : Moves msk a (helloReceived s p c) := by
  unfold helloReceived
  repeat' first | (extract_lets +onlyGivenNames z; refine Moves.cut (m := msk) a z ?_ (fun hz => ?_) <;> [(dsimp -zeta only [z]; revert z; intro _); (clear_value z; revert z; intro _ _)]) | (extract_lets +onlyGivenNames z; revert z; intro _) | exact maskSub_trans hm rfl | with_reducible assumption | with_reducible apply moves_spanShut | with_reducible apply moves_fault | with_reducible apply moves_finishEvery | with_reducible apply moves_moveSpan | with_reducible apply moves_setSpan | split

end Sys2Proof.Machine
end

