-- ==== Sys2Proof/Laws/MovesSpan.lean ====
section
/-! SUPPORT. `Moves` for the operations of Machine/Span.lean. -/

set_option linter.unusedTactic false
set_option linter.unreachableTactic false
set_option linter.tactic.unusedName false

namespace Sys2Proof.Machine

theorem moves_spanOpen {msk : Nat} (hm : maskSub 0x400e msk = true) {a : State} {s : State} {p : Packet} (h : Moves msk a s) : MovesVerdict msk a (spanOpen s p) := by
  unfold spanOpen
  repeat' first | (extract_lets +onlyGivenNames z; refine Moves.cut (m := msk) a z ?_ (fun hz => ?_) <;> [(dsimp -zeta only [z]; revert z; intro _); (clear_value z; revert z; intro _ _)]) | (extract_lets +onlyGivenNames z; revert z; intro _) | with_reducible apply movesVerdict_finish | with_reducible apply movesVerdict_pend | exact maskSub_trans hm rfl | with_reducible assumption | with_reducible apply moves_refuse | with_reducible apply moves_moveSpan | with_reducible apply moves_setSpan | split

theorem moves_beginClosing {msk : Nat} (hm : maskSub 0x400e msk = true) {a : State} {s : State} {n : ℕ} (h : Moves msk a s) : Moves msk a (beginClosing s n) := by
  unfold beginClosing
  repeat' first | exact maskSub_trans hm rfl | with_reducible assumption | with_reducible apply moves_modSpan | with_reducible apply moves_moveSpan | split

theorem moves_spanClose {msk : Nat} (hm : maskSub 0x18400e msk = true) {a : State} {s : State} {p : Packet} (h : Moves msk a s) : MovesVerdict msk a (spanClose s p) := by
  unfold spanClose
  repeat' first | (extract_lets +onlyGivenNames z; refine Moves.cut (m := msk) a z ?_ (fun hz => ?_) <;> [(dsimp -zeta only [z]; revert z; intro _); (clear_value z; revert z; intro _ _)]) | (extract_lets +onlyGivenNames z; revert z; intro _) | with_reducible apply movesVerdict_finish | with_reducible apply movesVerdict_pend | exact maskSub_trans hm rfl | with_reducible assumption | with_reducible apply moves_refuse | with_reducible apply moves_okAt | with_reducible apply moves_finishEvery | with_reducible apply moves_spanShut | with_reducible apply moves_beginClosing | split

theorem moves_spanMeasure {msk : Nat} (hm : maskSub 0x4000 msk = true) {a : State} {s : State} {p : Packet} (h : Moves msk a s) : MovesVerdict msk a (spanMeasure s p) := by
  unfold spanMeasure
  repeat' first | (extract_lets +onlyGivenNames z; refine Moves.cut (m := msk) a z ?_ (fun hz => ?_) <;> [(dsimp -zeta only [z]; revert z; intro _); (clear_value z; revert z; intro _ _)]) | (extract_lets +onlyGivenNames z; revert z; intro _) | with_reducible apply movesVerdict_finish | with_reducible apply movesVerdict_pend | exact maskSub_trans hm rfl | with_reducible assumption | with_reducible apply moves_refuse | with_reducible apply moves_modSpan | split

theorem moves_slotTake {msk : Nat} (hm : maskSub 0x10402e msk = true) {a : State} {s : State} {p : ℕ} (h : Moves msk a s) : MovesSomeTrd msk a (slotTake s p) := by
  unfold slotTake
  repeat' first | (extract_lets +onlyGivenNames z; refine Moves.cut (m := msk) a z ?_ (fun hz => ?_) <;> [(dsimp -zeta only [z]; revert z; intro _); (clear_value z; revert z; intro _ _)]) | (extract_lets +onlyGivenNames z; revert z; intro _) | with_reducible apply movesSomeTrd_some | with_reducible apply movesSomeTrd_none | exact maskSub_trans hm rfl | with_reducible assumption | with_reducible apply moves_setSpan | with_reducible refine (moves_takeBeat ?_ ?_).keeps (by assumption) | with_reducible apply moves_count | (with_reducible refine movesSomeTrd_map (fun x => ?_); dsimp only) | split

theorem moves_fillSlots {msk : Nat} (hm : maskSub 0x10402e msk = true) {a : State} {x : ℕ} {y : State} {y1 : ℕ} (h : Moves msk a y) : MovesSnd msk a (fillSlots x y y1) := by
  induction x generalizing y y1 with
  | zero =>
    unfold fillSlots
    repeat' first | with_reducible apply movesSnd_mk | exact maskSub_trans hm rfl | with_reducible assumption | with_reducible refine (moves_slotTake ?_ ?_).keeps (by assumption) | with_reducible refine Moves.foldl ?_ (fun s x h => ?_) | with_reducible exact Moves.refl _ | split
  | succ n ih =>
    unfold fillSlots
    repeat' first | with_reducible apply movesSnd_mk | exact maskSub_trans hm rfl | with_reducible assumption | with_reducible apply ih | with_reducible refine (ih ?_).keeps | with_reducible refine (moves_slotTake ?_ ?_).keeps (by assumption) | with_reducible refine Moves.foldl ?_ (fun s x h => ?_) | with_reducible exact Moves.refl _ | split

theorem moves_discardLate {msk : Nat} (hm : maskSub 0x20 msk = true) {a : State} {s : State} {p : ℕ} (h : Moves msk a s) : Moves msk a (discardLate s p) := by
  unfold discardLate
  repeat' first | (extract_lets +onlyGivenNames z; refine Moves.cut (m := msk) a z ?_ (fun hz => ?_) <;> [(dsimp -zeta only [z]; revert z; intro _); (clear_value z; revert z; intro _ _)]) | (extract_lets +onlyGivenNames z; revert z; intro _) | exact maskSub_trans hm rfl | with_reducible assumption | with_reducible apply moves_returnCredits | with_reducible apply moves_setInBuf | with_reducible refine Moves.foldl ?_ (fun s x h => ?_) | with_reducible exact Moves.refl _ | split | (dsimp -zeta +zetaDelta only)

theorem moves_stampProbe {msk : Nat} (hm : maskSub 0x4000 msk = true) {a : State} {s : State} {p : ℕ} {m : SpanMsg} (h : Moves msk a s) : MovesSnd msk a (stampProbe s p m) := by
  unfold stampProbe
  repeat' first | with_reducible apply movesSnd_mk | exact maskSub_trans hm rfl | with_reducible assumption | with_reducible apply moves_modSpan | split

theorem moves_emitCodeword {msk : Nat} (hm : maskSub 0x2 msk = true) {a : State} {s : State} {p : ℕ} {payload : BitVec 5140} (h : Moves msk a s) : Moves msk a (emitCodeword s p payload) := by
  unfold emitCodeword
  repeat' first | exact maskSub_trans hm rfl | with_reducible assumption | with_reducible apply moves_emit | split

theorem moves_sendNew {msk : Nat} (hm : maskSub 0x10402e msk = true) {a : State} {s : State} {p : ℕ} (h : Moves msk a s) : Moves msk a (sendNew s p) := by
  have h0 : Moves msk a (discardLate s p) := moves_discardLate (maskSub_trans hm rfl) h
  unfold sendNew
  extract_lets +onlyGivenNames s0 m r s1
  have h1 : Moves msk a s1 := by
    show Moves msk a (match r with | some y => y.2 | none => setSpan s0 p m.2)
    have hs : Moves msk a (setSpan s0 p m.2) := moves_setSpan (maskSub_trans hm rfl) h0
    have hr : ∀ y, r = some y → Moves msk a y.2 := by
      intro y e
      dsimp only [r] at e
      split at e
      · cases e; exact (moves_stampProbe (maskSub_trans hm rfl) hs).keeps
      · cases e
    clear_value r
    cases r with
    | some y => exact hr _ rfl
    | none => exact hs
  clear_value s1
  extract_lets +onlyGivenNames msg flows f
  have hf : Moves msk a f.2 := by
    dsimp only [f]
    split
    · exact (moves_fillSlots (maskSub_trans hm rfl) h1).keeps
    · exact h1
  clear_value f
  extract_lets
  split
  · exact moves_modSpan (maskSub_trans hm rfl) (moves_emitCodeword (maskSub_trans hm rfl) hf)
  · exact moves_emitCodeword (maskSub_trans hm rfl) (moves_setSpan (maskSub_trans hm rfl) hf)

theorem moves_sendFiller {msk : Nat} (hm : maskSub 0x4002 msk = true) {a : State} {s : State} {p : ℕ} (h : Moves msk a s) : Moves msk a (sendFiller s p) := by
  unfold sendFiller
  repeat' first | exact maskSub_trans hm rfl | with_reducible assumption | with_reducible apply moves_modSpan | with_reducible apply moves_emitCodeword | split

theorem moves_sendAgain {msk : Nat} (hm : maskSub 0x10400e msk = true) {a : State} {s : State} {p : ℕ} {seq : ℕ} (h : Moves msk a s) : Moves msk a (sendAgain s p seq) := by
  unfold sendAgain
  repeat' first | (extract_lets +onlyGivenNames z; refine Moves.cut (m := msk) a z ?_ (fun hz => ?_) <;> [(dsimp -zeta only [z]; revert z; intro _); (clear_value z; revert z; intro _ _)]) | (extract_lets +onlyGivenNames z; revert z; intro _) | exact maskSub_trans hm rfl | with_reducible assumption | with_reducible apply moves_modSpan | with_reducible apply moves_emitCodeword | with_reducible apply moves_countEvent | with_reducible apply moves_count | split

theorem moves_retransmit {msk : Nat} (hm : maskSub 0x19503e msk = true) {a : State} {s : State} {p : ℕ} (h : Moves msk a s) : Moves msk a (retransmit s p) := by
  unfold retransmit
  repeat' first | (extract_lets +onlyGivenNames z; refine Moves.cut (m := msk) a z ?_ (fun hz => ?_) <;> [(dsimp -zeta only [z]; revert z; intro _); (clear_value z; revert z; intro _ _)]) | (extract_lets +onlyGivenNames z; revert z; intro _) | exact maskSub_trans hm rfl | with_reducible assumption | with_reducible apply moves_setSpan | with_reducible apply moves_linkFails | split

theorem moves_ackReceived {msk : Nat} (hm : maskSub 0x19503e msk = true) {a : State} {s : State} {p : ℕ} {c : Control} (h : Moves msk a s) : Moves msk a (ackReceived s p c) := by
  unfold ackReceived
  repeat' first | (extract_lets +onlyGivenNames z; refine Moves.cut (m := msk) a z ?_ (fun hz => ?_) <;> [(dsimp -zeta only [z]; revert z; intro _); (clear_value z; revert z; intro _ _)]) | (extract_lets +onlyGivenNames z; revert z; intro _) | exact maskSub_trans hm rfl | with_reducible assumption | with_reducible apply moves_retransmit | with_reducible apply moves_setSpan | split

theorem moves_slotBeat {msk : Nat} (hm : maskSub 0x19503e msk = true) {a : State} {s : State} {p : ℕ} {q : ℕ × Beat} (h : Moves msk a s) : Moves msk a (slotBeat s p q) := by
  unfold slotBeat
  repeat' first | (extract_lets +onlyGivenNames z; refine Moves.cut (m := msk) a z ?_ (fun hz => ?_) <;> [(dsimp -zeta only [z]; revert z; intro _); (clear_value z; revert z; intro _ _)]) | (extract_lets +onlyGivenNames z; revert z; intro _) | exact maskSub_trans hm rfl | with_reducible assumption | with_reducible apply moves_modSpan | with_reducible apply moves_rxVoid | with_reducible apply moves_abortRecord | with_reducible apply moves_fault | with_reducible apply moves_setSpan | with_reducible apply moves_linkFails | with_reducible apply moves_count | split

theorem moves_foreignBeat {msk : Nat} (hm : maskSub 0x19501e msk = true) {a : State} {s : State} {p : ℕ} {late : Bool} {q : ℕ × Beat} (h : Moves msk a s) : Moves msk a (foreignBeat s p late q) := by
  unfold foreignBeat
  repeat' first | (extract_lets +onlyGivenNames z; refine Moves.cut (m := msk) a z ?_ (fun hz => ?_) <;> [(dsimp -zeta only [z]; revert z; intro _); (clear_value z; revert z; intro _ _)]) | (extract_lets +onlyGivenNames z; revert z; intro _) | exact maskSub_trans hm rfl | with_reducible assumption | with_reducible apply moves_modSpan | with_reducible apply moves_rxVoid | with_reducible apply moves_abortRecord | split

theorem moves_foreignEpoch {msk : Nat} (hm : maskSub 0x19501e msk = true) {a : State} {s : State} {p : ℕ} {c : Control} (h : Moves msk a s) : Moves msk a (foreignEpoch s p c) := by
  unfold foreignEpoch
  repeat' first | (extract_lets +onlyGivenNames z; refine Moves.cut (m := msk) a z ?_ (fun hz => ?_) <;> [(dsimp -zeta only [z]; revert z; intro _); (clear_value z; revert z; intro _ _)]) | (extract_lets +onlyGivenNames z; revert z; intro _) | exact maskSub_trans hm rfl | with_reducible assumption | with_reducible apply moves_fault | with_reducible apply moves_setSpan | with_reducible apply moves_foreignBeat | with_reducible refine Moves.foldl ?_ (fun s x h => ?_) | with_reducible exact Moves.refl _ | split | (dsimp -zeta +zetaDelta only)

theorem moves_messageReceived {msk : Nat} (hm : maskSub 0x19503e msk = true) {a : State} {s : State} {p : ℕ} {c : Control} (h : Moves msk a s) : Moves msk a (messageReceived s p c) := by
  unfold messageReceived
  repeat' first | exact maskSub_trans hm rfl | with_reducible assumption | with_reducible apply moves_modSpan | with_reducible apply moves_echoReceived | with_reducible apply moves_helloReceived | with_reducible apply moves_byeReceived | split

theorem moves_codewordTaken {msk : Nat} (hm : maskSub 0x19503e msk = true) {a : State} {s : State} {p : ℕ} {c : Control} (h : Moves msk a s) : Moves msk a (codewordTaken s p c) := by
  unfold codewordTaken
  repeat' first | (extract_lets +onlyGivenNames z; refine Moves.cut (m := msk) a z ?_ (fun hz => ?_) <;> [(dsimp -zeta only [z]; revert z; intro _); (clear_value z; revert z; intro _ _)]) | (extract_lets +onlyGivenNames z; revert z; intro _) | exact maskSub_trans hm rfl | with_reducible assumption | with_reducible apply moves_slotBeat | with_reducible apply moves_foreignEpoch | with_reducible apply moves_modSpan | with_reducible apply moves_messageReceived | with_reducible refine Moves.foldl ?_ (fun s x h => ?_) | with_reducible exact Moves.refl _ | split | (dsimp -zeta +zetaDelta only)

theorem moves_spanReceive {msk : Nat} (hm : maskSub 0x19503e msk = true) {a : State} {s : State} {p : ℕ} {fec : Ecc} {payload : BitVec 5140} (h : Moves msk a s) : Moves msk a (spanReceive s p fec payload) := by
  unfold spanReceive
  repeat' first | (extract_lets +onlyGivenNames z; refine Moves.cut (m := msk) a z ?_ (fun hz => ?_) <;> [(dsimp -zeta only [z]; revert z; intro _); (clear_value z; revert z; intro _ _)]) | (extract_lets +onlyGivenNames z; revert z; intro _) | exact maskSub_trans hm rfl | with_reducible assumption | with_reducible apply moves_count | with_reducible apply moves_modSpan | with_reducible apply moves_helloReceived | with_reducible apply moves_ackReceived | with_reducible apply moves_codewordTaken | split

theorem moves_spanDeliver {msk : Nat} (hm : maskSub 0x4021 msk = true) {a : State} {s : State} {p : ℕ} {j : ℕ} (h : Moves msk a s) : Moves msk a (spanDeliver s p j) := by
  unfold spanDeliver
  repeat' first | (extract_lets +onlyGivenNames z; refine Moves.cut (m := msk) a z ?_ (fun hz => ?_) <;> [(dsimp -zeta only [z]; revert z; intro _); (clear_value z; revert z; intro _ _)]) | (extract_lets +onlyGivenNames z; revert z; intro _) | exact maskSub_trans hm rfl | with_reducible assumption | with_reducible apply moves_setSpan | with_reducible apply moves_pushOut | with_reducible refine Moves.foldl ?_ (fun s x h => ?_) | with_reducible exact Moves.refl _ | ((with_reducible apply Moves.ofUpdate) <;> first | with_reducible assumption | with_reducible exact fun _ => rfl | exact id | exact maskHit hm rfl | exact fun _ => rfl | exact rfl | (intro p; simpa +zetaDelta using p) | (intro p; dsimp +zetaDelta only; (repeat (first | split | (simpa using p))))) | split | (dsimp -zeta +zetaDelta only)

theorem moves_spanCut {msk : Nat} (hm : maskSub 0x19503e msk = true) {a : State} {s : State} {p : ℕ} {same : ℕ → Bool → Bool} (h : Moves msk a s) : Moves msk a (spanCut s p same) := by
  unfold spanCut
  repeat' first | (extract_lets +onlyGivenNames z; refine Moves.cut (m := msk) a z ?_ (fun hz => ?_) <;> [(dsimp -zeta only [z]; revert z; intro _); (clear_value z; revert z; intro _ _)]) | (extract_lets +onlyGivenNames z; revert z; intro _) | exact maskSub_trans hm rfl | with_reducible assumption | with_reducible apply moves_subVoid | with_reducible apply moves_abortRecord | with_reducible refine Moves.foldl ?_ (fun s x h => ?_) | with_reducible exact Moves.refl _ | split | (dsimp -zeta +zetaDelta only)

theorem moves_spanBoundary {msk : Nat} (hm : maskSub 0x4000 msk = true) {a : State} {s : State} {p : ℕ} {gone : List (ℕ × ℕ)} (h : Moves msk a s) : Moves msk a (spanBoundary s p gone) := by
  unfold spanBoundary
  repeat' first | (extract_lets +onlyGivenNames z; refine Moves.cut (m := msk) a z ?_ (fun hz => ?_) <;> [(dsimp -zeta only [z]; revert z; intro _); (clear_value z; revert z; intro _ _)]) | (extract_lets +onlyGivenNames z; revert z; intro _) | exact maskSub_trans hm rfl | with_reducible assumption | with_reducible apply moves_setSpan | split

theorem moves_spanHaltEchoes {msk : Nat} (hm : maskSub 0x4000 msk = true) {a : State} {s : State} (h : Moves msk a s) : Moves msk a (spanHaltEchoes s) := by
  unfold spanHaltEchoes
  repeat' first | (extract_lets +onlyGivenNames z; refine Moves.cut (m := msk) a z ?_ (fun hz => ?_) <;> [(dsimp -zeta only [z]; revert z; intro _); (clear_value z; revert z; intro _ _)]) | (extract_lets +onlyGivenNames z; revert z; intro _) | exact maskSub_trans hm rfl | with_reducible assumption | with_reducible apply moves_modSpan | with_reducible refine Moves.foldl ?_ (fun s x h => ?_) | with_reducible exact Moves.refl _ | split | (dsimp -zeta +zetaDelta only)

theorem moves_execSpanOpen {msk : Nat} (hm : maskSub 0x18400e msk = true) {a : State} {c : HostCmd} {s : State} (h : Moves msk a s) : MovesNext msk a (execSpanOpen c s) := by
  unfold execSpanOpen
  repeat' first | with_reducible apply movesNext_done | with_reducible apply movesNext_next | with_reducible apply movesVerdict_finish | with_reducible apply movesVerdict_pend | exact maskSub_trans hm rfl | with_reducible assumption | intro _ _ _ | with_reducible apply moves_takeCmd | with_reducible apply moves_spanOpen | split

theorem moves_execSpanClose {msk : Nat} (hm : maskSub 0x18400e msk = true) {a : State} {c : HostCmd} {s : State} (h : Moves msk a s) : MovesNext msk a (execSpanClose c s) := by
  unfold execSpanClose
  repeat' first | with_reducible apply movesNext_done | with_reducible apply movesNext_next | with_reducible apply movesVerdict_finish | with_reducible apply movesVerdict_pend | exact maskSub_trans hm rfl | with_reducible assumption | intro _ _ _ | with_reducible apply moves_takeCmd | with_reducible apply moves_spanClose | split

theorem moves_execSpanMeasure {msk : Nat} (hm : maskSub 0x18400e msk = true) {a : State} {c : HostCmd} {s : State} (h : Moves msk a s) : MovesNext msk a (execSpanMeasure c s) := by
  unfold execSpanMeasure
  repeat' first | with_reducible apply movesNext_done | with_reducible apply movesNext_next | with_reducible apply movesVerdict_finish | with_reducible apply movesVerdict_pend | exact maskSub_trans hm rfl | with_reducible assumption | intro _ _ _ | with_reducible apply moves_takeCmd | with_reducible apply moves_spanMeasure | split

theorem moves_execSpanCodewordSend {msk : Nat} (hm : maskSub 0x10402e msk = true) {a : State} {port : ℕ} {s : State} (h : Moves msk a s) : MovesNext msk a (execSpanCodewordSend port s) := by
  unfold execSpanCodewordSend
  repeat' first | (extract_lets +onlyGivenNames z; refine Moves.cut (m := msk) a z ?_ (fun hz => ?_) <;> [(dsimp -zeta only [z]; revert z; intro _); (clear_value z; revert z; intro _ _)]) | (extract_lets +onlyGivenNames z; revert z; intro _) | with_reducible apply movesNext_done | with_reducible apply movesNext_next | exact maskSub_trans hm rfl | with_reducible assumption | with_reducible apply moves_done | with_reducible apply moves_sendAgain | with_reducible apply moves_sendFiller | with_reducible apply moves_sendNew | split

theorem moves_execSpanCodewordReceive {msk : Nat} (hm : maskSub 0x19503e msk = true) {a : State} {port : ℕ} {fec : Ecc} {payload : BitVec 5140} {s : State} (h : Moves msk a s) : MovesNext msk a (execSpanCodewordReceive port fec payload s) := by
  unfold execSpanCodewordReceive
  repeat' first | (extract_lets +onlyGivenNames z; refine Moves.cut (m := msk) a z ?_ (fun hz => ?_) <;> [(dsimp -zeta only [z]; revert z; intro _); (clear_value z; revert z; intro _ _)]) | (extract_lets +onlyGivenNames z; revert z; intro _) | with_reducible apply movesNext_done | with_reducible apply movesNext_next | exact maskSub_trans hm rfl | with_reducible assumption | with_reducible apply moves_done | with_reducible apply moves_spanReceive | split

theorem moves_execSpanAckTimeout {msk : Nat} (hm : maskSub 0x19503f msk = true) {a : State} {port : ℕ} {s : State} (h : Moves msk a s) : MovesNext msk a (execSpanAckTimeout port s) := by
  unfold execSpanAckTimeout
  repeat' first | (extract_lets +onlyGivenNames z; refine Moves.cut (m := msk) a z ?_ (fun hz => ?_) <;> [(dsimp -zeta only [z]; revert z; intro _); (clear_value z; revert z; intro _ _)]) | (extract_lets +onlyGivenNames z; revert z; intro _) | with_reducible apply movesNext_done | with_reducible apply movesNext_next | exact maskSub_trans hm rfl | with_reducible assumption | with_reducible apply moves_done | with_reducible apply moves_retransmit | with_reducible apply moves_advance | split

theorem moves_execSpanLockLoss {msk : Nat} (hm : maskSub 0x19503e msk = true) {a : State} {port : ℕ} {wavelength : ℕ} {s : State} (h : Moves msk a s) : MovesNext msk a (execSpanLockLoss port wavelength s) := by
  unfold execSpanLockLoss
  repeat' first | with_reducible apply movesNext_done | with_reducible apply movesNext_next | exact maskSub_trans hm rfl | with_reducible assumption | with_reducible apply moves_done | with_reducible apply moves_linkFails | with_reducible apply moves_modSpan | split

theorem moves_execSpanLockAcquire {msk : Nat} (hm : maskSub 0x4000 msk = true) {a : State} {port : ℕ} {wavelength : ℕ} {s : State} (h : Moves msk a s) : MovesNext msk a (execSpanLockAcquire port wavelength s) := by
  unfold execSpanLockAcquire
  repeat' first | with_reducible apply movesNext_done | with_reducible apply movesNext_next | exact maskSub_trans hm rfl | with_reducible assumption | with_reducible apply moves_done | with_reducible apply moves_modSpan | split

theorem moves_execSpanTrainingTimeout {msk : Nat} (hm : maskSub 0x18400f msk = true) {a : State} {port : ℕ} {s : State} (h : Moves msk a s) : MovesNext msk a (execSpanTrainingTimeout port s) := by
  unfold execSpanTrainingTimeout
  repeat' first | (extract_lets +onlyGivenNames z; refine Moves.cut (m := msk) a z ?_ (fun hz => ?_) <;> [(dsimp -zeta only [z]; revert z; intro _); (clear_value z; revert z; intro _ _)]) | (extract_lets +onlyGivenNames z; revert z; intro _) | with_reducible apply movesNext_done | with_reducible apply movesNext_next | exact maskSub_trans hm rfl | with_reducible assumption | with_reducible apply moves_advance | with_reducible apply moves_done | with_reducible apply moves_finishEvery | with_reducible apply moves_spanShut | split

theorem moves_execSpanProbeTimer {msk : Nat} (hm : maskSub 0x4000 msk = true) {a : State} {port : ℕ} {s : State} (h : Moves msk a s) : MovesNext msk a (execSpanProbeTimer port s) := by
  unfold execSpanProbeTimer
  repeat' first | (extract_lets +onlyGivenNames z; refine Moves.cut (m := msk) a z ?_ (fun hz => ?_) <;> [(dsimp -zeta only [z]; revert z; intro _); (clear_value z; revert z; intro _ _)]) | (extract_lets +onlyGivenNames z; revert z; intro _) | with_reducible apply movesNext_done | with_reducible apply movesNext_next | exact maskSub_trans hm rfl | with_reducible assumption | with_reducible apply moves_done | with_reducible apply moves_setSpan | split

theorem moves_execSpanProbeReplace {msk : Nat} (hm : maskSub 0x4001 msk = true) {a : State} {port : ℕ} {probe : ℕ} {s : State} (h : Moves msk a s) : MovesNext msk a (execSpanProbeReplace port probe s) := by
  unfold execSpanProbeReplace
  repeat' first | (extract_lets +onlyGivenNames z; refine Moves.cut (m := msk) a z ?_ (fun hz => ?_) <;> [(dsimp -zeta only [z]; revert z; intro _); (clear_value z; revert z; intro _ _)]) | (extract_lets +onlyGivenNames z; revert z; intro _) | with_reducible apply movesNext_done | with_reducible apply movesNext_next | exact maskSub_trans hm rfl | with_reducible assumption | with_reducible apply moves_done | with_reducible apply moves_advance | with_reducible apply moves_setSpan | split

theorem moves_execSpanCloseDrained {msk : Nat} (hm : maskSub 0x18402e msk = true) {a : State} {port : ℕ} {s : State} (h : Moves msk a s) : MovesNext msk a (execSpanCloseDrained port s) := by
  unfold execSpanCloseDrained
  repeat' first | (extract_lets +onlyGivenNames z; refine Moves.cut (m := msk) a z ?_ (fun hz => ?_) <;> [(dsimp -zeta only [z]; revert z; intro _); (clear_value z; revert z; intro _ _)]) | (extract_lets +onlyGivenNames z; revert z; intro _) | with_reducible apply movesNext_done | with_reducible apply movesNext_next | exact maskSub_trans hm rfl | with_reducible assumption | with_reducible apply moves_spanShut | with_reducible apply moves_discardLate | with_reducible apply moves_done | with_reducible apply moves_finishEvery | split

theorem moves_execSpanCloseTimeout {msk : Nat} (hm : maskSub 0x19503f msk = true) {a : State} {port : ℕ} {s : State} (h : Moves msk a s) : MovesNext msk a (execSpanCloseTimeout port s) := by
  unfold execSpanCloseTimeout
  repeat' first | (extract_lets +onlyGivenNames z; refine Moves.cut (m := msk) a z ?_ (fun hz => ?_) <;> [(dsimp -zeta only [z]; revert z; intro _); (clear_value z; revert z; intro _ _)]) | (extract_lets +onlyGivenNames z; revert z; intro _) | with_reducible apply movesNext_done | with_reducible apply movesNext_next | exact maskSub_trans hm rfl | with_reducible assumption | with_reducible apply moves_advance | with_reducible apply moves_spanShut | with_reducible apply moves_spanAbortAll | with_reducible apply moves_done | with_reducible apply moves_finishEvery | split

end Sys2Proof.Machine
end

