-- ==== Sys2Proof/Laws/MovesMatrixTile.lean ====
section
/-! SUPPORT. `Moves` for the operations of Machine/MatrixTile.lean. -/

set_option linter.unusedTactic false
set_option linter.unreachableTactic false
set_option linter.tactic.unusedName false

namespace Sys2Proof.Machine

theorem moves_putTile {msk : Nat} (hm : maskSub 0x40 msk = true) {a : State} {s : State} {u : Site} {t : MatrixTile} (h : Moves msk a s) : Moves msk a (putTile s u t) := by
  unfold putTile
  repeat' first | exact maskSub_trans hm rfl | with_reducible assumption | with_reducible apply moves_setTile | split

theorem moves_tileUnbind {msk : Nat} (hm : maskSub 0x18004e msk = true) {a : State} {s : State} {u : Site} {k : ℕ} {code : ℕ} (h : Moves msk a s) : Moves msk a (tileUnbind s u k code) := by
  unfold tileUnbind
  repeat' first | (extract_lets +onlyGivenNames z; refine Moves.cut (m := msk) a z ?_ (fun hz => ?_) <;> [(dsimp -zeta only [z]; revert z; intro _); (clear_value z; revert z; intro _ _)]) | (extract_lets +onlyGivenNames z; revert z; intro _) | exact maskSub_trans hm rfl | with_reducible assumption | with_reducible apply moves_putTile | with_reducible apply moves_countUnit | with_reducible apply moves_traceNow | split

theorem moves_tileSettle {msk : Nat} (hm : maskSub 0x18004e msk = true) {a : State} {s : State} {u : Site} (h : Moves msk a s) : Moves msk a (tileSettle s u) := by
  unfold tileSettle
  repeat' first | (extract_lets +onlyGivenNames z; refine Moves.cut (m := msk) a z ?_ (fun hz => ?_) <;> [(dsimp -zeta only [z]; revert z; intro _); (clear_value z; revert z; intro _ _)]) | (extract_lets +onlyGivenNames z; revert z; intro _) | exact maskSub_trans hm rfl | with_reducible assumption | with_reducible apply moves_tileUnbind | with_reducible refine Moves.foldl ?_ (fun s x h => ?_) | with_reducible exact Moves.refl _ | split | (dsimp -zeta +zetaDelta only)

theorem moves_tileGiveUp {msk : Nat} (hm : maskSub 0x18006e msk = true) {a : State} {s : State} {u : Site} {k : ℕ} {code : ℕ} (h : Moves msk a s) : Moves msk a (tileGiveUp s u k code) := by
  unfold tileGiveUp
  repeat' first | exact maskSub_trans hm rfl | with_reducible assumption | with_reducible apply moves_discardOn | with_reducible apply moves_voidOn | with_reducible apply moves_tileUnbind | split

theorem moves_tileAbort {msk : Nat} (hm : maskSub 0x19507e msk = true) {a : State} {s : State} {u : Site} {k : ℕ} {code : ℕ} (h : Moves msk a s) : Moves msk a (tileAbort s u k code) := by
  unfold tileAbort
  repeat' first | exact maskSub_trans hm rfl | with_reducible assumption | with_reducible apply moves_tileGiveUp | with_reducible apply moves_abortRecord | split

theorem moves_tileAbortAll {msk : Nat} (hm : maskSub 0x19507e msk = true) {a : State} {s : State} {u : Site} {code : ℕ} (h : Moves msk a s) : Moves msk a (tileAbortAll s u code) := by
  unfold tileAbortAll
  repeat' first | (extract_lets +onlyGivenNames z; refine Moves.cut (m := msk) a z ?_ (fun hz => ?_) <;> [(dsimp -zeta only [z]; revert z; intro _); (clear_value z; revert z; intro _ _)]) | (extract_lets +onlyGivenNames z; revert z; intro _) | exact maskSub_trans hm rfl | with_reducible assumption | with_reducible apply moves_tileAbort | with_reducible apply moves_setTile | with_reducible refine Moves.foldl ?_ (fun s x h => ?_) | with_reducible exact Moves.refl _ | split | (dsimp -zeta +zetaDelta only)

theorem moves_tileLost {msk : Nat} (hm : maskSub 0x595ffe msk = true) {a : State} {s : State} {u : Site} {code : ℕ} {at1 : Site} (h : Moves msk a s) : Moves msk a (tileLost s u code at1) := by
  unfold tileLost
  repeat' first | (extract_lets +onlyGivenNames z; refine Moves.cut (m := msk) a z ?_ (fun hz => ?_) <;> [(dsimp -zeta only [z]; revert z; intro _); (clear_value z; revert z; intro _ _)]) | (extract_lets +onlyGivenNames z; revert z; intro _) | exact maskSub_trans hm rfl | with_reducible assumption | with_reducible apply moves_tileAbortAll | with_reducible apply moves_loseUnit | split

theorem moves_frameAtDisabled {msk : Nat} (hm : maskSub 0x19503e msk = true) {a : State} {s : State} {u : Site} {b : Beat} {outs : List EndPoint} {ins : List EndPoint} {code : ℕ} (h : Moves msk a s) : Moves msk a (frameAtDisabled s u b outs ins code) := by
  unfold frameAtDisabled
  repeat' first | (extract_lets +onlyGivenNames z; refine Moves.cut (m := msk) a z ?_ (fun hz => ?_) <;> [(dsimp -zeta only [z]; revert z; intro _); (clear_value z; revert z; intro _ _)]) | (extract_lets +onlyGivenNames z; revert z; intro _) | exact maskSub_trans hm rfl | with_reducible assumption | with_reducible apply moves_sendOpen | with_reducible apply moves_abortRecord | with_reducible apply moves_discardOn | with_reducible apply moves_voidOn | with_reducible refine Moves.foldl ?_ (fun s x h => ?_) | with_reducible exact Moves.refl _ | split | (dsimp -zeta +zetaDelta only)

theorem moves_tileBind {msk : Nat} (hm : maskSub 0x19507e msk = true) {a : State} {s : State} {u : Site} (h : Moves msk a s) : Moves msk a (tileBind s u) := by
  unfold tileBind
  repeat' first | (extract_lets +onlyGivenNames z; refine Moves.cut (m := msk) a z ?_ (fun hz => ?_) <;> [(dsimp -zeta only [z]; revert z; intro _); (clear_value z; revert z; intro _ _)]) | (extract_lets +onlyGivenNames z; revert z; intro _) | exact maskSub_trans hm rfl | with_reducible assumption | with_reducible refine (moves_takeBeat ?_ ?_).keeps (by assumption) | with_reducible apply moves_sendOpen | with_reducible apply moves_setTile | with_reducible apply moves_traceNow | with_reducible apply moves_frameAtDisabled | with_reducible refine Moves.foldl ?_ (fun s x h => ?_) | with_reducible exact Moves.refl _ | split | (dsimp -zeta +zetaDelta only)

theorem moves_tileIssue {msk : Nat} (hm : maskSub 0x18004f msk = true) {a : State} {s : State} {u : Site} (h : Moves msk a s) : Moves msk a (tileIssue s u) := by
  unfold tileIssue
  repeat' first | (extract_lets +onlyGivenNames z; refine Moves.cut (m := msk) a z ?_ (fun hz => ?_) <;> [(dsimp -zeta only [z]; revert z; intro _); (clear_value z; revert z; intro _ _)]) | (extract_lets +onlyGivenNames z; revert z; intro _) | exact maskSub_trans hm rfl | with_reducible assumption | with_reducible apply moves_tileSettle | with_reducible apply moves_putTile | with_reducible apply moves_advance | split

theorem moves_aloadWrite {msk : Nat} (hm : maskSub 0x40 msk = true) {a : State} {s : State} {u : Site} {k : ℕ} {sl : Slot} {e : Issued} {b : Beat} (h : Moves msk a s) : Moves msk a (aloadWrite s u k sl e b) := by
  unfold aloadWrite
  repeat' first | (extract_lets +onlyGivenNames z; refine Moves.cut (m := msk) a z ?_ (fun hz => ?_) <;> [(dsimp -zeta only [z]; revert z; intro _); (clear_value z; revert z; intro _ _)]) | (extract_lets +onlyGivenNames z; revert z; intro _) | exact maskSub_trans hm rfl | with_reducible assumption | with_reducible apply moves_putTile | split

theorem moves_startRewrite {msk : Nat} (hm : maskSub 0x40 msk = true) {a : State} {s : State} {u : Site} {bank : ℕ} {beat : ℕ} {stall : Bool} (h : Moves msk a s) : Moves msk a (startRewrite s u bank beat stall) := by
  unfold startRewrite
  repeat' first | (extract_lets +onlyGivenNames z; refine Moves.cut (m := msk) a z ?_ (fun hz => ?_) <;> [(dsimp -zeta only [z]; revert z; intro _); (clear_value z; revert z; intro _ _)]) | (extract_lets +onlyGivenNames z; revert z; intro _) | exact maskSub_trans hm rfl | with_reducible assumption | with_reducible apply moves_setTile | with_reducible refine Moves.foldl ?_ (fun s x h => ?_) | with_reducible exact Moves.refl _ | ((with_reducible apply Moves.ofUpdate) <;> first | with_reducible assumption | with_reducible exact fun _ => rfl | exact id | exact maskHit hm rfl | exact fun _ => rfl | exact rfl | (intro p; simpa +zetaDelta using p) | (intro p; dsimp +zetaDelta only; (repeat (first | split | (simpa using p))))) | split | (dsimp -zeta +zetaDelta only)

theorem moves_weightRead {msk : Nat} (hm : maskSub 0x99505e msk = true) {a : State} {s : State} {u : Site} {i : ℕ} {found : Ecc} (h : Moves msk a s) : MovesExcept msk a (weightRead s u i found) := by
  unfold weightRead
  repeat' first | (extract_lets +onlyGivenNames z; refine Moves.cut (m := msk) a z ?_ (fun hz => ?_) <;> [(dsimp -zeta only [z]; revert z; intro _); (clear_value z; revert z; intro _ _)]) | (extract_lets +onlyGivenNames z; revert z; intro _) | with_reducible apply movesExcept_ok | with_reducible apply movesExcept_error | exact maskSub_trans hm rfl | with_reducible assumption | with_reducible apply moves_fault | with_reducible apply moves_drawn | with_reducible apply moves_startRewrite | split

theorem moves_stallOn {msk : Nat} (hm : maskSub 0x40 msk = true) {a : State} {s : State} {u : Site} {l : List ℕ} (h : Moves msk a s) : Moves msk a (stallOn s u l) := by
  unfold stallOn
  repeat' first | exact maskSub_trans hm rfl | with_reducible assumption | with_reducible apply moves_setTile | split

theorem moves_fireTurn {msk : Nat} (hm : maskSub 0x1 msk = true) {a : State} {s : State} {u : Site} {e : Issued} (h : Moves msk a s) : Moves msk a (fireTurn s u e) := by
  unfold fireTurn
  repeat' first | exact maskSub_trans hm rfl | with_reducible assumption | with_reducible apply moves_advance | split

theorem moves_countSat {msk : Nat} (hm : maskSub 0x10000e msk = true) {a : State} {s : State} {u : Site} {n : ℕ} (h : Moves msk a s) : Moves msk a (countSat s u n) := by
  unfold countSat
  repeat' first | exact maskSub_trans hm rfl | with_reducible assumption | with_reducible apply moves_countUnit | split

theorem moves_tileParity {msk : Nat} (hm : maskSub 0x19507e msk = true) {a : State} {s : State} {u : Site} {lines : List ℕ} {d : ℕ} {p : TileParity} (h : Moves msk a s) : Moves msk a (tileParity s u lines d p) := by
  unfold tileParity
  repeat' first | exact maskSub_trans hm rfl | with_reducible assumption | with_reducible apply moves_tileAbort | with_reducible apply moves_fault | with_reducible apply moves_setTile | split

theorem moves_writeFetched {msk : Nat} (hm : maskSub 0x18004e msk = true) {a : State} {s : State} {u : Site} {w : FetchWrite} (h : Moves msk a s) : Moves msk a (writeFetched s u w) := by
  unfold writeFetched
  repeat' first | (extract_lets +onlyGivenNames z; refine Moves.cut (m := msk) a z ?_ (fun hz => ?_) <;> [(dsimp -zeta only [z]; revert z; intro _); (clear_value z; revert z; intro _ _)]) | (extract_lets +onlyGivenNames z; revert z; intro _) | exact maskSub_trans hm rfl | with_reducible assumption | with_reducible apply moves_setTile | with_reducible apply moves_traceAt | with_reducible refine Moves.foldl ?_ (fun s x h => ?_) | with_reducible exact Moves.refl _ | split | (dsimp -zeta +zetaDelta only)

theorem moves_settleWrites {msk : Nat} (hm : maskSub 0x18004e msk = true) {a : State} {s : State} {u : Site} (h : Moves msk a s) : Moves msk a (settleWrites s u) := by
  unfold settleWrites
  repeat' first | (extract_lets +onlyGivenNames z; refine Moves.cut (m := msk) a z ?_ (fun hz => ?_) <;> [(dsimp -zeta only [z]; revert z; intro _); (clear_value z; revert z; intro _ _)]) | (extract_lets +onlyGivenNames z; revert z; intro _) | exact maskSub_trans hm rfl | with_reducible assumption | with_reducible apply moves_writeFetched | with_reducible apply moves_setTile | with_reducible refine Moves.foldl ?_ (fun s x h => ?_) | with_reducible exact Moves.refl _ | split | (dsimp -zeta +zetaDelta only)

theorem moves_fireInto {msk : Nat} (hm : maskSub 0x18004e msk = true) {a : State} {s : State} {u : Site} {sl : Slot} {e : Issued} {set : AccSet} {sats : ℕ} (h : Moves msk a s) : Moves msk a (fireInto s u sl e set sats) := by
  unfold fireInto
  repeat' first | exact maskSub_trans hm rfl | with_reducible assumption | with_reducible apply moves_putTile | with_reducible apply moves_tileSettle | with_reducible apply moves_countEvent | with_reducible apply moves_countSat | split

theorem moves_entryAbort {msk : Nat} (hm : maskSub 0x19507e msk = true) {a : State} {s : State} {u : Site} {e : Issued} {code : ℕ} (h : Moves msk a s) : Moves msk a (entryAbort s u e code) := by
  unfold entryAbort
  repeat' first | (extract_lets +onlyGivenNames z; refine Moves.cut (m := msk) a z ?_ (fun hz => ?_) <;> [(dsimp -zeta only [z]; revert z; intro _); (clear_value z; revert z; intro _ _)]) | (extract_lets +onlyGivenNames z; revert z; intro _) | exact maskSub_trans hm rfl | with_reducible assumption | with_reducible apply moves_tileAbort | with_reducible apply moves_setTile | with_reducible apply moves_abortRecord | with_reducible apply moves_discardOn | with_reducible apply moves_voidOn | split

theorem moves_replayFired {msk : Nat} (hm : maskSub 0x10004e msk = true) {a : State} {s : State} {u : Site} {sl : Slot} {slot : ℕ} {d : ℕ} {m : LogMac} {rest : List LogMac} (h : Moves msk a s) : Moves msk a (replayFired s u sl slot d m rest) := by
  unfold replayFired
  repeat' first | exact maskSub_trans hm rfl | with_reducible assumption | with_reducible apply moves_setTile | with_reducible apply moves_countEvent | with_reducible apply moves_countSat | split

theorem moves_replayFire {msk : Nat} (hm : maskSub 0x99507f msk = true) {a : State} {s : State} {u : Site} {slot : ℕ} {d : ℕ} {weight : Ecc} {parity : TileParity} (h : Moves msk a s) : Moves msk a (replayFire s u slot d weight parity) := by
  unfold replayFire
  repeat' first | (extract_lets +onlyGivenNames z; refine Moves.cut (m := msk) a z ?_ (fun hz => ?_) <;> [(dsimp -zeta only [z]; revert z; intro _); (clear_value z; revert z; intro _ _)]) | (extract_lets +onlyGivenNames z; revert z; intro _) | exact maskSub_trans hm rfl | with_reducible assumption | with_reducible apply moves_stallOn | with_reducible apply moves_settleWrites | with_reducible apply moves_advance | with_reducible apply moves_tileParity | with_reducible apply moves_weightRead | with_reducible refine (moves_weightRead ?_ ?_).movesOk (by assumption) | with_reducible refine (moves_weightRead ?_ ?_).movesError (by assumption) | with_reducible apply moves_replayFired | split

theorem moves_replaySet {msk : Nat} (hm : maskSub 0x40 msk = true) {a : State} {s : State} {u : Site} {d : ℕ} (h : Moves msk a s) : Moves msk a (replaySet s u d) := by
  unfold replaySet
  repeat' first | (extract_lets +onlyGivenNames z; refine Moves.cut (m := msk) a z ?_ (fun hz => ?_) <;> [(dsimp -zeta only [z]; revert z; intro _); (clear_value z; revert z; intro _ _)]) | (extract_lets +onlyGivenNames z; revert z; intro _) | exact maskSub_trans hm rfl | with_reducible assumption | with_reducible apply moves_setTile | with_reducible refine Moves.foldl ?_ (fun s x h => ?_) | with_reducible exact Moves.refl _ | split | (dsimp -zeta +zetaDelta only)

theorem moves_passSet {msk : Nat} (hm : maskSub 0x40 msk = true) {a : State} {s : State} {u : Site} {d : ℕ} (h : Moves msk a s) : Moves msk a (passSet s u d) := by
  unfold passSet
  repeat' first | exact maskSub_trans hm rfl | with_reducible assumption | with_reducible apply moves_setTile | split

theorem moves_tileBeatSent {msk : Nat} (hm : maskSub 0x18004e msk = true) {a : State} {s : State} {u : Site} {o : OutBeat} (h : Moves msk a s) : Moves msk a (tileBeatSent s u o) := by
  unfold tileBeatSent
  repeat' first | exact maskSub_trans hm rfl | with_reducible assumption | with_reducible apply moves_countSat | with_reducible apply moves_tileSettle | with_reducible apply moves_putTile | with_reducible apply moves_setTile | split

theorem moves_tileWatchdog {msk : Nat} (hm : maskSub 0x19507f msk = true) {a : State} {s : State} {u : Site} {slot : ℕ} {index : ℕ} (h : Moves msk a s) : Moves msk a (tileWatchdog s u slot index) := by
  unfold tileWatchdog
  repeat' first | (extract_lets +onlyGivenNames z; refine Moves.cut (m := msk) a z ?_ (fun hz => ?_) <;> [(dsimp -zeta only [z]; revert z; intro _); (clear_value z; revert z; intro _ _)]) | (extract_lets +onlyGivenNames z; revert z; intro _) | exact maskSub_trans hm rfl | with_reducible assumption | with_reducible apply moves_advance | with_reducible apply moves_tileAbortAll | with_reducible apply moves_fault | split

theorem moves_execAloadBeat {msk : Nat} (hm : maskSub 0x19507f msk = true) {a : State} {site : Site} {slot : ℕ} {port : ℕ} {s : State} (h : Moves msk a s) : MovesNext msk a (execAloadBeat site slot port s) := by
  unfold execAloadBeat
  repeat' first | (extract_lets +onlyGivenNames z; refine Moves.cut (m := msk) a z ?_ (fun hz => ?_) <;> [(dsimp -zeta only [z]; revert z; intro _); (clear_value z; revert z; intro _ _)]) | (extract_lets +onlyGivenNames z; revert z; intro _) | with_reducible apply movesNext_done | with_reducible apply movesNext_next | exact maskSub_trans hm rfl | with_reducible assumption | with_reducible apply moves_done | with_reducible refine (moves_takeBeat ?_ ?_).keeps (by assumption) | with_reducible apply moves_advance | with_reducible apply moves_faultFrame | with_reducible apply moves_tileSettle | with_reducible apply moves_aloadWrite | split

theorem moves_execRowExponentFix {msk : Nat} (hm : maskSub 0x19507e msk = true) {a : State} {site : Site} {slot : ℕ} {historyParity : Bool} {s : State} (h : Moves msk a s) : MovesNext msk a (execRowExponentFix site slot historyParity s) := by
  unfold execRowExponentFix
  repeat' first | (extract_lets +onlyGivenNames z; refine Moves.cut (m := msk) a z ?_ (fun hz => ?_) <;> [(dsimp -zeta only [z]; revert z; intro _); (clear_value z; revert z; intro _ _)]) | (extract_lets +onlyGivenNames z; revert z; intro _) | with_reducible apply movesNext_done | with_reducible apply movesNext_next | exact maskSub_trans hm rfl | with_reducible assumption | with_reducible apply moves_done | with_reducible apply moves_tileAbort | with_reducible apply moves_putTile | split

theorem moves_execMacFire {msk : Nat} (hm : maskSub 0x99507f msk = true) {a : State} {site : Site} {slot : ℕ} {weight : Ecc} {parity : TileParity} {s : State} (h : Moves msk a s) : MovesNext msk a (execMacFire site slot weight parity s) := by
  unfold execMacFire
  repeat' first | (extract_lets +onlyGivenNames z; refine Moves.cut (m := msk) a z ?_ (fun hz => ?_) <;> [(dsimp -zeta only [z]; revert z; intro _); (clear_value z; revert z; intro _ _)]) | (extract_lets +onlyGivenNames z; revert z; intro _) | with_reducible apply movesNext_done | with_reducible apply movesNext_next | exact maskSub_trans hm rfl | with_reducible assumption | with_reducible apply moves_done | with_reducible apply moves_replayFire | with_reducible apply moves_stallOn | with_reducible apply moves_tileParity | with_reducible apply moves_fireTurn | with_reducible apply moves_weightRead | with_reducible refine (moves_weightRead ?_ ?_).movesOk (by assumption) | with_reducible refine (moves_weightRead ?_ ?_).movesError (by assumption) | with_reducible apply moves_settleWrites | with_reducible apply moves_faultFrame | with_reducible apply moves_entryAbort | with_reducible apply moves_fireInto | split

theorem moves_execOmacFire {msk : Nat} (hm : maskSub 0x99507f msk = true) {a : State} {site : Site} {slot : ℕ} {weights : Ecc × Ecc} {parity : TileParity} {s : State} (h : Moves msk a s) : MovesNext msk a (execOmacFire site slot weights parity s) := by
  unfold execOmacFire
  repeat' first | (extract_lets +onlyGivenNames z; refine Moves.cut (m := msk) a z ?_ (fun hz => ?_) <;> [(dsimp -zeta only [z]; revert z; intro _); (clear_value z; revert z; intro _ _)]) | (extract_lets +onlyGivenNames z; revert z; intro _) | with_reducible apply movesNext_done | with_reducible apply movesNext_next | exact maskSub_trans hm rfl | with_reducible assumption | with_reducible apply moves_done | with_reducible apply moves_stallOn | with_reducible apply moves_tileParity | with_reducible apply moves_fireTurn | with_reducible apply moves_weightRead | with_reducible refine (moves_weightRead ?_ ?_).movesOk (by assumption) | with_reducible refine (moves_weightRead ?_ ?_).movesError (by assumption) | with_reducible apply moves_settleWrites | with_reducible apply moves_fireInto | with_reducible apply moves_setTile | with_reducible refine (MovesExcept.bind (moves_weightRead ?_ ?_) (fun _ g => moves_weightRead ?_ g)).movesOk (by assumption) | with_reducible refine (MovesExcept.bind (moves_weightRead ?_ ?_) (fun _ g => moves_weightRead ?_ g)).movesError (by assumption) | split

theorem moves_execClipCheck {msk : Nat} (hm : maskSub 0x18004f msk = true) {a : State} {site : Site} {slot : ℕ} {s : State} (h : Moves msk a s) : MovesNext msk a (execClipCheck site slot s) := by
  unfold execClipCheck
  repeat' first | (extract_lets +onlyGivenNames z; refine Moves.cut (m := msk) a z ?_ (fun hz => ?_) <;> [(dsimp -zeta only [z]; revert z; intro _); (clear_value z; revert z; intro _ _)]) | (extract_lets +onlyGivenNames z; revert z; intro _) | with_reducible apply movesNext_done | with_reducible apply movesNext_next | exact maskSub_trans hm rfl | with_reducible assumption | with_reducible apply moves_done | with_reducible apply moves_advance | with_reducible apply moves_replaySet | with_reducible apply moves_passSet | with_reducible apply moves_putTile | with_reducible apply moves_countEvent | with_reducible apply moves_countUnit | with_reducible apply moves_traceNow | split

theorem moves_execDrainFire {msk : Nat} (hm : maskSub 0x19507f msk = true) {a : State} {site : Site} {slot : ℕ} {parity : TileParity} {s : State} (h : Moves msk a s) : MovesNext msk a (execDrainFire site slot parity s) := by
  unfold execDrainFire
  repeat' first | (extract_lets +onlyGivenNames z; refine Moves.cut (m := msk) a z ?_ (fun hz => ?_) <;> [(dsimp -zeta only [z]; revert z; intro _); (clear_value z; revert z; intro _ _)]) | (extract_lets +onlyGivenNames z; revert z; intro _) | with_reducible apply movesNext_done | with_reducible apply movesNext_next | exact maskSub_trans hm rfl | with_reducible assumption | with_reducible apply moves_done | with_reducible apply moves_tileParity | with_reducible apply moves_advance | with_reducible apply moves_pushOut | with_reducible apply moves_putTile | with_reducible apply moves_countSat | with_reducible refine Moves.foldl ?_ (fun s x h => ?_) | with_reducible exact Moves.refl _ | split | (dsimp -zeta +zetaDelta only)

theorem moves_execFetchFire {msk : Nat} (hm : maskSub 0x18084e msk = true) {a : State} {site : Site} {slot : ℕ} {s : State} (h : Moves msk a s) : MovesNext msk a (execFetchFire site slot s) := by
  unfold execFetchFire
  repeat' first | (extract_lets +onlyGivenNames z; refine Moves.cut (m := msk) a z ?_ (fun hz => ?_) <;> [(dsimp -zeta only [z]; revert z; intro _); (clear_value z; revert z; intro _ _)]) | (extract_lets +onlyGivenNames z; revert z; intro _) | with_reducible apply movesNext_done | with_reducible apply movesNext_next | exact maskSub_trans hm rfl | with_reducible assumption | with_reducible apply moves_done | with_reducible apply moves_setQueue | with_reducible apply moves_tileSettle | with_reducible apply moves_putTile | split

theorem moves_execFetchBeatWrite {msk : Nat} (hm : maskSub 0x18006e msk = true) {a : State} {site : Site} {port : ℕ} {s : State} (h : Moves msk a s) : MovesNext msk a (execFetchBeatWrite site port s) := by
  unfold execFetchBeatWrite
  repeat' first | (extract_lets +onlyGivenNames z; refine Moves.cut (m := msk) a z ?_ (fun hz => ?_) <;> [(dsimp -zeta only [z]; revert z; intro _); (clear_value z; revert z; intro _ _)]) | (extract_lets +onlyGivenNames z; revert z; intro _) | with_reducible apply movesNext_done | with_reducible apply movesNext_next | exact maskSub_trans hm rfl | with_reducible assumption | with_reducible apply moves_settleWrites | with_reducible apply moves_done | with_reducible refine (moves_takeBeat ?_ ?_).keeps (by assumption) | with_reducible apply moves_setTile | split

theorem moves_execWaitComplete {msk : Nat} (hm : maskSub 0x18004e msk = true) {a : State} {site : Site} {slot : ℕ} {s0 : State} (h : Moves msk a s0) : MovesNext msk a (execWaitComplete site slot s0) := by
  unfold execWaitComplete
  repeat' first | (extract_lets +onlyGivenNames z; refine Moves.cut (m := msk) a z ?_ (fun hz => ?_) <;> [(dsimp -zeta only [z]; revert z; intro _); (clear_value z; revert z; intro _ _)]) | (extract_lets +onlyGivenNames z; revert z; intro _) | with_reducible apply movesNext_done | with_reducible apply movesNext_next | exact maskSub_trans hm rfl | with_reducible assumption | with_reducible apply moves_done | with_reducible apply moves_settleWrites | with_reducible apply moves_tileSettle | with_reducible apply moves_putTile | split

theorem moves_execReleaseFire {msk : Nat} (hm : maskSub 0x18004e msk = true) {a : State} {site : Site} {slot : ℕ} {s : State} (h : Moves msk a s) : MovesNext msk a (execReleaseFire site slot s) := by
  unfold execReleaseFire
  repeat' first | (extract_lets +onlyGivenNames z; refine Moves.cut (m := msk) a z ?_ (fun hz => ?_) <;> [(dsimp -zeta only [z]; revert z; intro _); (clear_value z; revert z; intro _ _)]) | (extract_lets +onlyGivenNames z; revert z; intro _) | with_reducible apply movesNext_done | with_reducible apply movesNext_next | exact maskSub_trans hm rfl | with_reducible assumption | with_reducible apply moves_done | with_reducible apply moves_tileSettle | with_reducible apply moves_putTile | split

theorem moves_execWeightScrub {msk : Nat} (hm : maskSub 0x19505f msk = true) {a : State} {site : Site} {word : ℕ} {found : Ecc} {s : State} (h : Moves msk a s) : MovesNext msk a (execWeightScrub site word found s) := by
  unfold execWeightScrub
  repeat' first | (extract_lets +onlyGivenNames z; refine Moves.cut (m := msk) a z ?_ (fun hz => ?_) <;> [(dsimp -zeta only [z]; revert z; intro _); (clear_value z; revert z; intro _ _)]) | (extract_lets +onlyGivenNames z; revert z; intro _) | with_reducible apply movesNext_done | with_reducible apply movesNext_next | exact maskSub_trans hm rfl | with_reducible assumption | with_reducible apply moves_done | with_reducible apply moves_advance | with_reducible apply moves_setTile | with_reducible apply moves_fault | with_reducible apply moves_startRewrite | split

theorem moves_execWeightRewriteDone {msk : Nat} (hm : maskSub 0x595ffe msk = true) {a : State} {site : Site} {region : ℕ} {rechecked : Bool} {s : State} (h : Moves msk a s) : MovesNext msk a (execWeightRewriteDone site region rechecked s) := by
  unfold execWeightRewriteDone
  repeat' first | (extract_lets +onlyGivenNames z; refine Moves.cut (m := msk) a z ?_ (fun hz => ?_) <;> [(dsimp -zeta only [z]; revert z; intro _); (clear_value z; revert z; intro _ _)]) | (extract_lets +onlyGivenNames z; revert z; intro _) | with_reducible apply movesNext_done | with_reducible apply movesNext_next | exact maskSub_trans hm rfl | with_reducible assumption | with_reducible apply moves_done | with_reducible apply moves_setTile | with_reducible apply moves_tileLost | with_reducible apply moves_faultAt | split

end Sys2Proof.Machine
end

