-- ==== Sys2Proof/Laws/MovesGenerator.lean ====
section
/-! SUPPORT. `Moves` for the operations of Machine/Generator.lean. -/

set_option linter.unusedTactic false
set_option linter.unreachableTactic false
set_option linter.tactic.unusedName false

namespace Sys2Proof.Machine

theorem moves_poolFreed {msk : Nat} (hm : maskSub 0x800 msk = true) {a : State} {s : State} {port : ℕ} (h : Moves msk a s) : Moves msk a (poolFreed s port) := by
  unfold poolFreed
  repeat' first | exact maskSub_trans hm rfl | with_reducible assumption | ((with_reducible apply Moves.ofUpdate) <;> first | with_reducible assumption | with_reducible exact fun _ => rfl | exact id | exact maskHit hm rfl | exact fun _ => rfl | exact rfl) | split

theorem moves_afterFree {msk : Nat} (hm : maskSub 0x800 msk = true) {a : State} {s : State} {q : ℕ} {x : MemQueue} (h : Moves msk a s) : Moves msk a (afterFree s q x) := by
  unfold afterFree
  repeat' first | exact maskSub_trans hm rfl | with_reducible assumption | with_reducible apply moves_poolFreed | with_reducible apply moves_setQueue | split

theorem moves_portIssued {msk : Nat} (hm : maskSub 0x800 msk = true) {a : State} {s : State} {port : ℕ} (h : Moves msk a s) : Moves msk a (portIssued s port) := by
  unfold portIssued
  repeat' first | exact maskSub_trans hm rfl | with_reducible assumption | ((with_reducible apply Moves.ofUpdate) <;> first | with_reducible assumption | with_reducible exact fun _ => rfl | exact id | exact maskHit hm rfl | exact fun _ => rfl | exact rfl) | split

theorem moves_regulatorSpend {msk : Nat} (hm : maskSub 0x800 msk = true) {a : State} {s : State} {q : ℕ} (h : Moves msk a s) : Moves msk a (regulatorSpend s q) := by
  unfold regulatorSpend
  repeat' first | exact maskSub_trans hm rfl | with_reducible assumption | with_reducible apply moves_setQueue | split

theorem moves_genStep {msk : Nat} (hm : maskSub 0x800 msk = true) {a : State} {s : State} {q : ℕ} (h : Moves msk a s) : Moves msk a (genStep s q) := by
  unfold genStep
  repeat' first | (extract_lets +onlyGivenNames z; refine Moves.cut (m := msk) a z ?_ (fun hz => ?_) <;> [(dsimp -zeta only [z]; revert z; intro _); (clear_value z; revert z; intro _ _)]) | (extract_lets +onlyGivenNames z; revert z; intro _) | exact maskSub_trans hm rfl | with_reducible assumption | with_reducible apply moves_setQueue | split

end Sys2Proof.Machine
end

