-- ==== Sys2Proof/Laws/MovesLpddr.lean ====
section
/-! SUPPORT. `Moves` for the operations of Machine/Lpddr.lean. -/

set_option linter.unusedTactic false
set_option linter.unreachableTactic false
set_option linter.tactic.unusedName false

namespace Sys2Proof.Machine

theorem moves_cacheTouch {msk : Nat} (hm : maskSub 0x800 msk = true) {a : State} {s : State} {a1 : ℕ} (h : Moves msk a s) : Moves msk a (cacheTouch s a1) := by
  unfold cacheTouch
  repeat' first | exact maskSub_trans hm rfl | with_reducible assumption | ((with_reducible apply Moves.ofUpdate) <;> first | with_reducible assumption | with_reducible exact fun _ => rfl | exact id | exact maskHit hm rfl | exact fun _ => rfl | exact rfl) | split

theorem moves_cacheAlloc {msk : Nat} (hm : maskSub 0x800 msk = true) {a : State} {s : State} {a1 : ℕ} (h : Moves msk a s) : Moves msk a (cacheAlloc s a1) := by
  unfold cacheAlloc
  repeat' first | (extract_lets +onlyGivenNames z; refine Moves.cut (m := msk) a z ?_ (fun hz => ?_) <;> [(dsimp -zeta only [z]; revert z; intro _); (clear_value z; revert z; intro _ _)]) | (extract_lets +onlyGivenNames z; revert z; intro _) | exact maskSub_trans hm rfl | with_reducible assumption | with_reducible apply moves_cacheTouch | with_reducible refine Moves.foldl ?_ (fun s x h => ?_) | with_reducible exact Moves.refl _ | ((with_reducible apply Moves.ofUpdate) <;> first | with_reducible assumption | with_reducible exact fun _ => rfl | exact id | exact maskHit hm rfl | exact fun _ => rfl | exact rfl | (intro p; simpa +zetaDelta using p) | (intro p; dsimp +zetaDelta only; (repeat (first | split | (simpa using p))))) | split | (dsimp -zeta +zetaDelta only)

theorem moves_cacheDrop {msk : Nat} (hm : maskSub 0x800 msk = true) {a : State} {s : State} {a1 : ℕ} (h : Moves msk a s) : Moves msk a (cacheDrop s a1) := by
  unfold cacheDrop
  repeat' first | exact maskSub_trans hm rfl | with_reducible assumption | ((with_reducible apply Moves.ofUpdate) <;> first | with_reducible assumption | with_reducible exact fun _ => rfl | exact id | exact maskHit hm rfl | exact fun _ => rfl | exact rfl) | split

theorem moves_poison {msk : Nat} (hm : maskSub 0x800 msk = true) {a : State} {s : State} {a1 : ℕ} (h : Moves msk a s) : Moves msk a (poison s a1) := by
  unfold poison
  repeat' first | exact maskSub_trans hm rfl | with_reducible assumption | ((with_reducible apply Moves.ofUpdate) <;> first | with_reducible assumption | with_reducible exact fun _ => rfl | exact id | exact maskHit hm rfl | exact fun _ => rfl | exact rfl) | split

theorem moves_writeLine {msk : Nat} (hm : maskSub 0x1000800 msk = true) {a : State} {s : State} {a1 : ℕ} {d : BitVec 512} (h : Moves msk a s) : Moves msk a (writeLine s a1 d) := by
  unfold writeLine
  split
  · exact h
  · with_reducible refine Moves.setFeed (maskSub_trans hm rfl) h ?_ ?_
    · intro m
      dsimp only
      exact memSetLine_wf a1 d m
    · rfl

theorem moves_lpddrPut {msk : Nat} (hm : maskSub 0x1000800 msk = true) {a : State} {s : State} {base : ℕ} {bytes : List Byte} (h : Moves msk a s) : Moves msk a (lpddrPut s base bytes) := by
  unfold lpddrPut
  exact Moves.setFeed (maskSub_trans hm rfl) h (fun m => memLines_wf _ _ (memPut_wf _ _ m)) rfl

theorem moves_channelFault {msk : Nat} (hm : maskSub 0x19501e msk = true) {a : State} {s : State} {code : ℕ} {cls : ℕ} {a1 : ℕ} (h : Moves msk a s) : Moves msk a (channelFault s code cls a1) := by
  unfold channelFault
  repeat' first | exact maskSub_trans hm rfl | with_reducible assumption | with_reducible apply moves_fault | split

theorem moves_putRequest {msk : Nat} (hm : maskSub 0x800 msk = true) {a : State} {s : State} {r : MemReq} (h : Moves msk a s) : Moves msk a (putRequest s r) := by
  unfold putRequest
  repeat' first | exact maskSub_trans hm rfl | with_reducible assumption | with_reducible apply moves_setChannel | split

theorem moves_presentRead {msk : Nat} (hm : maskSub 0x10080e msk = true) {a : State} {s : State} {q : ℕ} {a1 : ℕ} {line : ℕ} (h : Moves msk a s) : Moves msk a (presentRead s q a1 line) := by
  unfold presentRead
  repeat' first | exact maskSub_trans hm rfl | with_reducible assumption | with_reducible apply moves_setQueue | with_reducible apply moves_countEvent | with_reducible apply moves_countUnit | with_reducible apply moves_cacheTouch | with_reducible apply moves_putRequest | split

theorem moves_presentWrite {msk : Nat} (hm : maskSub 0x1000800 msk = true) {a : State} {s : State} {q : ℕ} {w : WBeat} (h : Moves msk a s) : Moves msk a (presentWrite s q w) := by
  unfold presentWrite
  repeat' first | exact maskSub_trans hm rfl | with_reducible assumption | with_reducible apply moves_putRequest | with_reducible apply moves_writeLine | split

theorem moves_presentWaiting {msk : Nat} (hm : maskSub 0x1000800 msk = true) {a : State} {s : State} {c : ℕ} (h : Moves msk a s) : Moves msk a (presentWaiting s c) := by
  unfold presentWaiting
  repeat' first | (extract_lets +onlyGivenNames z; refine Moves.cut (m := msk) a z ?_ (fun hz => ?_) <;> [(dsimp -zeta only [z]; revert z; intro _); (clear_value z; revert z; intro _ _)]) | (extract_lets +onlyGivenNames z; revert z; intro _) | exact maskSub_trans hm rfl | with_reducible assumption | with_reducible apply moves_presentWrite | with_reducible apply moves_setQueue | with_reducible refine Moves.foldl ?_ (fun s x h => ?_) | with_reducible exact Moves.refl _ | split | (dsimp -zeta +zetaDelta only)

theorem moves_channelServes {msk : Nat} (hm : maskSub 0x1000800 msk = true) {a : State} {s : State} {c : ℕ} (h : Moves msk a s) : Moves msk a (channelServes s c) := by
  unfold channelServes
  repeat' first | exact maskSub_trans hm rfl | with_reducible assumption | with_reducible apply moves_presentWaiting | split

theorem moves_addJob {msk : Nat} (hm : maskSub 0x800 msk = true) {a : State} {s : State} {kind : JobKind} {write : Bool} {base : ℕ} {size : ℕ} (h : Moves msk a s) : Moves msk a (addJob s kind write base size) := by
  unfold addJob
  repeat' first | exact maskSub_trans hm rfl | with_reducible assumption | ((with_reducible apply Moves.ofUpdate) <;> first | with_reducible assumption | with_reducible exact fun _ => rfl | exact id | exact maskHit hm rfl | exact fun _ => rfl | exact rfl) | split

theorem moves_addJobs {msk : Nat} (hm : maskSub 0x800 msk = true) {a : State} {s : State} {kind : JobKind} {write : Bool} {ranges : List (ℕ × ℕ)} (h : Moves msk a s) : Moves msk a (addJobs s kind write ranges) := by
  unfold addJobs
  repeat' first | (extract_lets +onlyGivenNames z; refine Moves.cut (m := msk) a z ?_ (fun hz => ?_) <;> [(dsimp -zeta only [z]; revert z; intro _); (clear_value z; revert z; intro _ _)]) | (extract_lets +onlyGivenNames z; revert z; intro _) | exact maskSub_trans hm rfl | with_reducible assumption | with_reducible apply moves_addJob | with_reducible refine Moves.foldl ?_ (fun s x h => ?_) | with_reducible exact Moves.refl _ | split | (dsimp -zeta +zetaDelta only)

theorem moves_dropJobs {msk : Nat} (hm : maskSub 0x800 msk = true) {a : State} {s : State} {kind : JobKind} (h : Moves msk a s) : Moves msk a (dropJobs s kind) := by
  unfold dropJobs
  repeat' first | exact maskSub_trans hm rfl | with_reducible assumption | ((with_reducible apply Moves.ofUpdate) <;> first | with_reducible assumption | with_reducible exact fun _ => rfl | exact id | exact maskHit hm rfl | exact fun _ => rfl | exact rfl) | split

theorem moves_jobIssued {msk : Nat} (hm : maskSub 0x800 msk = true) {a : State} {s : State} {k : ℕ} {c : ℕ} (h : Moves msk a s) : Moves msk a (jobIssued s k c) := by
  unfold jobIssued
  repeat' first | exact maskSub_trans hm rfl | with_reducible assumption | ((with_reducible apply Moves.ofUpdate) <;> first | with_reducible assumption | with_reducible exact fun _ => rfl | exact id | exact maskHit hm rfl | exact fun _ => rfl | exact rfl) | split

theorem moves_countChannel {msk : Nat} (hm : maskSub 0x10000e msk = true) {a : State} {s : State} {c : ℕ} {j : ℕ} {n : ℕ} (h : Moves msk a s) : Moves msk a (countChannel s c j n) := by
  unfold countChannel
  repeat' first | exact maskSub_trans hm rfl | with_reducible assumption | with_reducible apply moves_count | split

theorem moves_linkCounts {msk : Nat} (hm : maskSub 0x10000e msk = true) {a : State} {s : State} {c : ℕ} {l : LinkEcc} (h : Moves msk a s) : Moves msk a (linkCounts s c l) := by
  unfold linkCounts
  repeat' first | exact maskSub_trans hm rfl | with_reducible assumption | with_reducible apply moves_countChannel | split

theorem moves_imageLost {msk : Nat} (hm : maskSub 0x19581e msk = true) {a : State} {s : State} {a1 : ℕ} (h : Moves msk a s) : Moves msk a (imageLost s a1) := by
  unfold imageLost
  repeat' first | (extract_lets +onlyGivenNames z; refine Moves.cut (m := msk) a z ?_ (fun hz => ?_) <;> [(dsimp -zeta only [z]; revert z; intro _); (clear_value z; revert z; intro _ _)]) | (extract_lets +onlyGivenNames z; revert z; intro _) | exact maskSub_trans hm rfl | with_reducible assumption | with_reducible apply moves_poison | with_reducible apply moves_channelFault | with_reducible refine Moves.foldl ?_ (fun s x h => ?_) | with_reducible exact Moves.refl _ | ((with_reducible apply Moves.ofUpdate) <;> first | with_reducible assumption | with_reducible exact fun _ => rfl | exact id | exact maskHit hm rfl | exact fun _ => rfl | exact rfl | (intro p; simpa +zetaDelta using p) | (intro p; dsimp +zetaDelta only; (repeat (first | split | (simpa using p))))) | split | (dsimp -zeta +zetaDelta only)

theorem moves_restoreLine {msk : Nat} (hm : maskSub 0x119581e msk = true) {a : State} {s : State} {a1 : ℕ} {mirror : Ecc} (h : Moves msk a s) : Moves msk a (restoreLine s a1 mirror) := by
  unfold restoreLine
  repeat' first | exact maskSub_trans hm rfl | with_reducible assumption | with_reducible apply moves_channelFault | with_reducible apply moves_writeLine | split

theorem moves_jobRead {msk : Nat} (hm : maskSub 0x119581e msk = true) {a : State} {s : State} {a1 : ℕ} {line : Ecc} {mirror : Ecc} (h : Moves msk a s) : Moves msk a (jobRead s a1 line mirror) := by
  unfold jobRead
  repeat' first | exact maskSub_trans hm rfl | with_reducible assumption | with_reducible apply moves_poison | with_reducible apply moves_restoreLine | with_reducible apply moves_imageLost | with_reducible apply moves_channelFault | split

theorem moves_writeGone {msk : Nat} (hm : maskSub 0x800 msk = true) {a : State} {s : State} {q : ℕ} {num : ℕ} (h : Moves msk a s) : Moves msk a (writeGone s q num) := by
  unfold writeGone
  repeat' first | (extract_lets +onlyGivenNames z; refine Moves.cut (m := msk) a z ?_ (fun hz => ?_) <;> [(dsimp -zeta only [z]; revert z; intro _); (clear_value z; revert z; intro _ _)]) | (extract_lets +onlyGivenNames z; revert z; intro _) | exact maskSub_trans hm rfl | with_reducible assumption | with_reducible apply moves_afterFree | split

theorem moves_checkBursts {msk : Nat} (hm : maskSub 0x10080e msk = true) {a : State} {s : State} {c : ℕ} {r : MemReq} {before : List (ℕ × Bool)} {slot : BurstSlot} (h : Moves msk a s) : Moves msk a (checkBursts s c r before slot) := by
  unfold checkBursts
  repeat' first | (extract_lets +onlyGivenNames z; refine Moves.cut (m := msk) a z ?_ (fun hz => ?_) <;> [(dsimp -zeta only [z]; revert z; intro _); (clear_value z; revert z; intro _ _)]) | (extract_lets +onlyGivenNames z; revert z; intro _) | exact maskSub_trans hm rfl | with_reducible assumption | with_reducible apply moves_linkCounts | with_reducible apply moves_poison | with_reducible refine Moves.foldl ?_ (fun s x h => ?_) | with_reducible exact Moves.refl _ | split | (dsimp -zeta +zetaDelta only)

theorem moves_burst {msk : Nat} (hm : maskSub 0x199581e msk = true) {a : State} {s : State} {slot : BurstSlot} (h : Moves msk a s) : Moves msk a (burst s slot) := by
  unfold burst
  repeat' first | (extract_lets +onlyGivenNames z; refine Moves.cut (m := msk) a z ?_ (fun hz => ?_) <;> [(dsimp -zeta only [z]; revert z; intro _); (clear_value z; revert z; intro _ _)]) | (extract_lets +onlyGivenNames z; revert z; intro _) | exact maskSub_trans hm rfl | with_reducible assumption | with_reducible apply moves_setChannel | with_reducible apply moves_drawn | with_reducible apply moves_checkBursts | with_reducible apply moves_countChannel | with_reducible apply moves_linkCounts | with_reducible apply moves_jobIssued | with_reducible apply moves_poison | with_reducible apply moves_jobRead | with_reducible apply moves_countEvent | with_reducible apply moves_countUnit | with_reducible apply moves_writeGone | split

theorem moves_maintain {msk : Nat} (hm : maskSub 0x800 msk = true) {a : State} {s : State} {c : ℕ} {n : ℕ} {f : Channel → Channel} (h : Moves msk a s) : Moves msk a (maintain s c n f) := by
  unfold maintain
  repeat' first | exact maskSub_trans hm rfl | with_reducible assumption | with_reducible apply moves_setChannel | split

theorem moves_redirectReads {msk : Nat} (hm : maskSub 0x800 msk = true) {a : State} {s : State} {c : ℕ} (h : Moves msk a s) : Moves msk a (redirectReads s c) := by
  unfold redirectReads
  repeat' first | (extract_lets +onlyGivenNames z; refine Moves.cut (m := msk) a z ?_ (fun hz => ?_) <;> [(dsimp -zeta only [z]; revert z; intro _); (clear_value z; revert z; intro _ _)]) | (extract_lets +onlyGivenNames z; revert z; intro _) | exact maskSub_trans hm rfl | with_reducible assumption | with_reducible apply moves_setChannel | with_reducible apply moves_putRequest | with_reducible refine Moves.foldl ?_ (fun s x h => ?_) | with_reducible exact Moves.refl _ | split | (dsimp -zeta +zetaDelta only)

theorem moves_calibrated {msk : Nat} (hm : maskSub 0xe msk = true) {a : State} {s : State} {site : Site} {status : ℕ} (h : Moves msk a s) : Moves msk a (calibrated s site status) := by
  unfold calibrated
  repeat' first | exact maskSub_trans hm rfl | with_reducible assumption | with_reducible apply moves_postDev | split

theorem moves_calibrateNext {msk : Nat} (hm : maskSub 0x18080e msk = true) {a : State} {s : State} {first : ℕ} (h : Moves msk a s) : Moves msk a (calibrateNext s first) := by
  unfold calibrateNext
  repeat' first | exact maskSub_trans hm rfl | with_reducible assumption | with_reducible apply moves_finishFirst | ((with_reducible apply Moves.ofUpdate) <;> first | with_reducible assumption | with_reducible exact fun _ => rfl | exact id | exact maskHit hm rfl | exact fun _ => rfl | exact rfl) | split

theorem moves_calibrateStep {msk : Nat} (hm : maskSub 0x18080e msk = true) {a : State} {s : State} {c : ℕ} {status : ℕ} (h : Moves msk a s) : Moves msk a (calibrateStep s c status) := by
  unfold calibrateStep
  repeat' first | (extract_lets +onlyGivenNames z; refine Moves.cut (m := msk) a z ?_ (fun hz => ?_) <;> [(dsimp -zeta only [z]; revert z; intro _); (clear_value z; revert z; intro _ _)]) | (extract_lets +onlyGivenNames z; revert z; intro _) | exact maskSub_trans hm rfl | with_reducible assumption | with_reducible apply moves_calibrated | with_reducible apply moves_finishFirst | with_reducible apply moves_calibrateNext | split

theorem moves_patrolLine {msk : Nat} (hm : maskSub 0x119581e msk = true) {a : State} {s : State} {a1 : ℕ} {found : Ecc} {mirror : Ecc} (h : Moves msk a s) : Moves msk a (patrolLine s a1 found mirror) := by
  unfold patrolLine
  repeat' first | exact maskSub_trans hm rfl | with_reducible assumption | with_reducible apply moves_channelFault | with_reducible apply moves_restoreLine | with_reducible apply moves_imageLost | with_reducible apply moves_poison | split

theorem moves_calibrateChannel {msk : Nat} (hm : maskSub 0x0 msk = true) {a : State} {s : State} {p : Packet} (h : Moves msk a s) : MovesVerdict msk a (calibrateChannel s p) := by
  unfold calibrateChannel
  repeat' first | (extract_lets +onlyGivenNames z; refine Moves.cut (m := msk) a z ?_ (fun hz => ?_) <;> [(dsimp -zeta only [z]; revert z; intro _); (clear_value z; revert z; intro _ _)]) | (extract_lets +onlyGivenNames z; revert z; intro _) | with_reducible apply movesVerdict_finish | with_reducible apply movesVerdict_pend | exact maskSub_trans hm rfl | with_reducible assumption | with_reducible apply moves_refuse | split

theorem moves_calibrateAllChannels {msk : Nat} (hm : maskSub 0x800 msk = true) {a : State} {s : State} {p : Packet} (h : Moves msk a s) : MovesVerdict msk a (calibrateAllChannels s p) := by
  unfold calibrateAllChannels
  repeat' first | (extract_lets +onlyGivenNames z; refine Moves.cut (m := msk) a z ?_ (fun hz => ?_) <;> [(dsimp -zeta only [z]; revert z; intro _); (clear_value z; revert z; intro _ _)]) | (extract_lets +onlyGivenNames z; revert z; intro _) | with_reducible apply movesVerdict_finish | with_reducible apply movesVerdict_pend | exact maskSub_trans hm rfl | with_reducible assumption | with_reducible apply moves_refuse | with_reducible apply moves_okAt | with_reducible refine Moves.foldl ?_ (fun s x h => ?_) | with_reducible exact Moves.refl _ | ((with_reducible apply Moves.ofUpdate) <;> first | with_reducible assumption | with_reducible exact fun _ => rfl | exact id | exact maskHit hm rfl | exact fun _ => rfl | exact rfl | (intro p; simpa +zetaDelta using p) | (intro p; dsimp +zetaDelta only; (repeat (first | split | (simpa using p))))) | split | (dsimp -zeta +zetaDelta only)

theorem moves_calibrateLane {msk : Nat} (hm : maskSub 0xe msk = true) {a : State} {eyeHeight : ℕ} {eyeWidth : ℕ} {s : State} {p : Packet} (h : Moves msk a s) : MovesVerdict msk a (calibrateLane eyeHeight eyeWidth s p) := by
  unfold calibrateLane
  repeat' first | (extract_lets +onlyGivenNames z; refine Moves.cut (m := msk) a z ?_ (fun hz => ?_) <;> [(dsimp -zeta only [z]; revert z; intro _); (clear_value z; revert z; intro _ _)]) | (extract_lets +onlyGivenNames z; revert z; intro _) | with_reducible apply movesVerdict_finish | with_reducible apply movesVerdict_pend | exact maskSub_trans hm rfl | with_reducible assumption | with_reducible apply moves_refuse | with_reducible apply moves_okAt | with_reducible apply moves_calibrated | split

theorem moves_execChannelBurstDecision {msk : Nat} (hm : maskSub 0x199581f msk = true) {a : State} {slot : BurstSlot} {s : State} (h : Moves msk a s) : MovesNext msk a (execChannelBurstDecision slot s) := by
  unfold execChannelBurstDecision
  repeat' first | with_reducible apply movesNext_done | with_reducible apply movesNext_next | exact maskSub_trans hm rfl | with_reducible assumption | with_reducible apply moves_done | with_reducible apply moves_burst | with_reducible apply moves_advance | split

theorem moves_execRefresh {msk : Nat} (hm : maskSub 0x800 msk = true) {a : State} {channel : ℕ} {xbank : ℕ} {s : State} (h : Moves msk a s) : MovesNext msk a (execRefresh channel xbank s) := by
  unfold execRefresh
  repeat' first | with_reducible apply movesNext_done | with_reducible apply movesNext_next | exact maskSub_trans hm rfl | with_reducible assumption | with_reducible apply moves_done | with_reducible apply moves_maintain | split

theorem moves_execZqCalibration {msk : Nat} (hm : maskSub 0x801 msk = true) {a : State} {channel : ℕ} {s : State} (h : Moves msk a s) : MovesNext msk a (execZqCalibration channel s) := by
  unfold execZqCalibration
  repeat' first | (extract_lets +onlyGivenNames z; refine Moves.cut (m := msk) a z ?_ (fun hz => ?_) <;> [(dsimp -zeta only [z]; revert z; intro _); (clear_value z; revert z; intro _ _)]) | (extract_lets +onlyGivenNames z; revert z; intro _) | with_reducible apply movesNext_done | with_reducible apply movesNext_next | exact maskSub_trans hm rfl | with_reducible assumption | with_reducible apply moves_done | with_reducible apply moves_maintain | with_reducible apply moves_advance | split

theorem moves_execDqsOscillatorRead {msk : Nat} (hm : maskSub 0x801 msk = true) {a : State} {channel : ℕ} {value : ℕ} {s : State} (h : Moves msk a s) : MovesNext msk a (execDqsOscillatorRead channel value s) := by
  unfold execDqsOscillatorRead
  repeat' first | (extract_lets +onlyGivenNames z; refine Moves.cut (m := msk) a z ?_ (fun hz => ?_) <;> [(dsimp -zeta only [z]; revert z; intro _); (clear_value z; revert z; intro _ _)]) | (extract_lets +onlyGivenNames z; revert z; intro _) | with_reducible apply movesNext_done | with_reducible apply movesNext_next | exact maskSub_trans hm rfl | with_reducible assumption | with_reducible apply moves_done | with_reducible apply moves_maintain | with_reducible apply moves_advance | split

theorem moves_execRetrainingWindowStart {msk : Nat} (hm : maskSub 0x10080e msk = true) {a : State} {channel : ℕ} {s : State} (h : Moves msk a s) : MovesNext msk a (execRetrainingWindowStart channel s) := by
  unfold execRetrainingWindowStart
  repeat' first | with_reducible apply movesNext_done | with_reducible apply movesNext_next | exact maskSub_trans hm rfl | with_reducible assumption | with_reducible apply moves_done | with_reducible apply moves_setChannel | with_reducible apply moves_redirectReads | with_reducible apply moves_count | split

theorem moves_execRetrainingWindowEnd {msk : Nat} (hm : maskSub 0x119581e msk = true) {a : State} {channel : ℕ} {success : Bool} {s : State} (h : Moves msk a s) : MovesNext msk a (execRetrainingWindowEnd channel success s) := by
  unfold execRetrainingWindowEnd
  repeat' first | (extract_lets +onlyGivenNames z; refine Moves.cut (m := msk) a z ?_ (fun hz => ?_) <;> [(dsimp -zeta only [z]; revert z; intro _); (clear_value z; revert z; intro _ _)]) | (extract_lets +onlyGivenNames z; revert z; intro _) | with_reducible apply movesNext_done | with_reducible apply movesNext_next | exact maskSub_trans hm rfl | with_reducible assumption | with_reducible apply moves_done | with_reducible apply moves_calibrateStep | with_reducible apply moves_channelServes | with_reducible apply moves_setChannel | with_reducible apply moves_count | with_reducible apply moves_loseChannel | split

theorem moves_execPatrolBlock {msk : Nat} (hm : maskSub 0x119581f msk = true) {a : State} {channel : ℕ} {found : List ReturnedLine} {mirror : Ecc} {s : State} (h : Moves msk a s) : MovesNext msk a (execPatrolBlock channel found mirror s) := by
  unfold execPatrolBlock
  repeat' first | (extract_lets +onlyGivenNames z; refine Moves.cut (m := msk) a z ?_ (fun hz => ?_) <;> [(dsimp -zeta only [z]; revert z; intro _); (clear_value z; revert z; intro _ _)]) | (extract_lets +onlyGivenNames z; revert z; intro _) | with_reducible apply movesNext_done | with_reducible apply movesNext_next | exact maskSub_trans hm rfl | with_reducible assumption | with_reducible apply moves_done | with_reducible apply moves_advance | with_reducible apply moves_patrolLine | with_reducible apply moves_linkCounts | with_reducible apply moves_maintain | with_reducible apply moves_countChannel | with_reducible refine Moves.foldl ?_ (fun s x h => ?_) | with_reducible exact Moves.refl _ | ((with_reducible apply Moves.ofUpdate) <;> first | with_reducible assumption | with_reducible exact fun _ => rfl | exact id | exact maskHit hm rfl | exact fun _ => rfl | exact rfl | (intro p; simpa +zetaDelta using p) | (intro p; dsimp +zetaDelta only; (repeat (first | split | (simpa using p))))) | split | (dsimp -zeta +zetaDelta only)

theorem moves_execCalibrateChannel {msk : Nat} (hm : maskSub 0x18000e msk = true) {a : State} {c : HostCmd} {s : State} (h : Moves msk a s) : MovesNext msk a (execCalibrateChannel c s) := by
  unfold execCalibrateChannel
  repeat' first | with_reducible apply movesNext_done | with_reducible apply movesNext_next | with_reducible apply movesVerdict_finish | with_reducible apply movesVerdict_pend | exact maskSub_trans hm rfl | with_reducible assumption | intro _ _ _ | with_reducible apply moves_takeCmd | with_reducible apply moves_calibrateChannel | split

theorem moves_execCalibrateAllChannels {msk : Nat} (hm : maskSub 0x18080e msk = true) {a : State} {c : HostCmd} {s : State} (h : Moves msk a s) : MovesNext msk a (execCalibrateAllChannels c s) := by
  unfold execCalibrateAllChannels
  repeat' first | with_reducible apply movesNext_done | with_reducible apply movesNext_next | with_reducible apply movesVerdict_finish | with_reducible apply movesVerdict_pend | exact maskSub_trans hm rfl | with_reducible assumption | intro _ _ _ | with_reducible apply moves_takeCmd | with_reducible apply moves_calibrateAllChannels | split

theorem moves_execCalibrateLane {msk : Nat} (hm : maskSub 0x18000e msk = true) {a : State} {c : HostCmd} {eyeHeight : ℕ} {eyeWidth : ℕ} {s : State} (h : Moves msk a s) : MovesNext msk a (execCalibrateLane c eyeHeight eyeWidth s) := by
  unfold execCalibrateLane
  repeat' first | with_reducible apply movesNext_done | with_reducible apply movesNext_next | with_reducible apply movesVerdict_finish | with_reducible apply movesVerdict_pend | exact maskSub_trans hm rfl | with_reducible assumption | intro _ _ _ | with_reducible apply moves_takeCmd | with_reducible apply moves_calibrateLane | split

end Sys2Proof.Machine
end

