-- ==== Sys2Proof/Laws/MovesVectorTile.lean ====
section
/-! SUPPORT. `Moves` for the operations of Machine/VectorTile.lean. -/

set_option linter.unusedTactic false
set_option linter.unreachableTactic false
set_option linter.tactic.unusedName false

namespace Sys2Proof.Machine

theorem moves_putVec {msk : Nat} (hm : maskSub 0x80 msk = true) {a : State} {s : State} {u : Site} {t : VectorTile} (h : Moves msk a s) : Moves msk a (putVec s u t) := by
  unfold putVec
  repeat' first | exact maskSub_trans hm rfl | with_reducible assumption | with_reducible apply moves_setVtile | split

theorem moves_vecUnbind {msk : Nat} (hm : maskSub 0x18008e msk = true) {a : State} {s : State} {u : Site} {k : ℕ} {code : ℕ} (h : Moves msk a s) : Moves msk a (vecUnbind s u k code) := by
  unfold vecUnbind
  repeat' first | (extract_lets +onlyGivenNames z; refine Moves.cut (m := msk) a z ?_ (fun hz => ?_) <;> [(dsimp -zeta only [z]; revert z; intro _); (clear_value z; revert z; intro _ _)]) | (extract_lets +onlyGivenNames z; revert z; intro _) | exact maskSub_trans hm rfl | with_reducible assumption | with_reducible apply moves_putVec | with_reducible apply moves_countUnit | with_reducible apply moves_traceNow | split

theorem moves_vecSettle {msk : Nat} (hm : maskSub 0x18008e msk = true) {a : State} {s : State} {u : Site} (h : Moves msk a s) : Moves msk a (vecSettle s u) := by
  unfold vecSettle
  repeat' first | (extract_lets +onlyGivenNames z; refine Moves.cut (m := msk) a z ?_ (fun hz => ?_) <;> [(dsimp -zeta only [z]; revert z; intro _); (clear_value z; revert z; intro _ _)]) | (extract_lets +onlyGivenNames z; revert z; intro _) | exact maskSub_trans hm rfl | with_reducible assumption | with_reducible apply moves_vecUnbind | with_reducible refine Moves.foldl ?_ (fun s x h => ?_) | with_reducible exact Moves.refl _ | split | (dsimp -zeta +zetaDelta only)

theorem moves_vecGiveUp {msk : Nat} (hm : maskSub 0x1800ae msk = true) {a : State} {s : State} {u : Site} {k : ℕ} {code : ℕ} (h : Moves msk a s) : Moves msk a (vecGiveUp s u k code) := by
  unfold vecGiveUp
  repeat' first | exact maskSub_trans hm rfl | with_reducible assumption | with_reducible apply moves_discardOn | with_reducible apply moves_voidOn | with_reducible apply moves_vecUnbind | split

theorem moves_vecAbort {msk : Nat} (hm : maskSub 0x1950be msk = true) {a : State} {s : State} {u : Site} {k : ℕ} {code : ℕ} (h : Moves msk a s) : Moves msk a (vecAbort s u k code) := by
  unfold vecAbort
  repeat' first | exact maskSub_trans hm rfl | with_reducible assumption | with_reducible apply moves_vecGiveUp | with_reducible apply moves_abortRecord | split

theorem moves_vecAbortAll {msk : Nat} (hm : maskSub 0x1950be msk = true) {a : State} {s : State} {u : Site} {code : ℕ} (h : Moves msk a s) : Moves msk a (vecAbortAll s u code) := by
  unfold vecAbortAll
  repeat' first | (extract_lets +onlyGivenNames z; refine Moves.cut (m := msk) a z ?_ (fun hz => ?_) <;> [(dsimp -zeta only [z]; revert z; intro _); (clear_value z; revert z; intro _ _)]) | (extract_lets +onlyGivenNames z; revert z; intro _) | exact maskSub_trans hm rfl | with_reducible assumption | with_reducible apply moves_vecAbort | with_reducible refine Moves.foldl ?_ (fun s x h => ?_) | with_reducible exact Moves.refl _ | split | (dsimp -zeta +zetaDelta only)

theorem moves_vecBind {msk : Nat} (hm : maskSub 0x1950be msk = true) {a : State} {s : State} {u : Site} (h : Moves msk a s) : Moves msk a (vecBind s u) := by
  unfold vecBind
  repeat' first | (extract_lets +onlyGivenNames z; refine Moves.cut (m := msk) a z ?_ (fun hz => ?_) <;> [(dsimp -zeta only [z]; revert z; intro _); (clear_value z; revert z; intro _ _)]) | (extract_lets +onlyGivenNames z; revert z; intro _) | exact maskSub_trans hm rfl | with_reducible assumption | with_reducible refine (moves_takeBeat ?_ ?_).keeps (by assumption) | with_reducible apply moves_sendOpen | with_reducible apply moves_setVtile | with_reducible apply moves_traceNow | with_reducible apply moves_frameAtDisabled | with_reducible refine Moves.foldl ?_ (fun s x h => ?_) | with_reducible exact Moves.refl _ | split | (dsimp -zeta +zetaDelta only)

theorem moves_vecIssue {msk : Nat} (hm : maskSub 0x18008f msk = true) {a : State} {s : State} {u : Site} (h : Moves msk a s) : Moves msk a (vecIssue s u) := by
  unfold vecIssue
  repeat' first | (extract_lets +onlyGivenNames z; refine Moves.cut (m := msk) a z ?_ (fun hz => ?_) <;> [(dsimp -zeta only [z]; revert z; intro _); (clear_value z; revert z; intro _ _)]) | (extract_lets +onlyGivenNames z; revert z; intro _) | exact maskSub_trans hm rfl | with_reducible assumption | with_reducible apply moves_vecSettle | with_reducible apply moves_putVec | with_reducible apply moves_advance | split

theorem moves_workingLost {msk : Nat} (hm : maskSub 0x1950be msk = true) {a : State} {s : State} {u : Site} {e : Issued} {i : ℕ} (h : Moves msk a s) : Moves msk a (workingLost s u e i) := by
  unfold workingLost
  repeat' first | exact maskSub_trans hm rfl | with_reducible assumption | with_reducible apply moves_vecAbort | with_reducible apply moves_putVec | with_reducible apply moves_fault | with_reducible apply moves_setVtile | split

theorem moves_scratchRead {msk : Nat} (hm : maskSub 0x9950be msk = true) {a : State} {s : State} {u : Site} {e : Issued} {l : List ℕ} {found : Ecc} (h : Moves msk a s) : MovesExcept msk a (scratchRead s u e l found) := by
  unfold scratchRead
  repeat' first | (extract_lets +onlyGivenNames z; refine Moves.cut (m := msk) a z ?_ (fun hz => ?_) <;> [(dsimp -zeta only [z]; revert z; intro _); (clear_value z; revert z; intro _ _)]) | (extract_lets +onlyGivenNames z; revert z; intro _) | with_reducible apply movesExcept_ok | with_reducible apply movesExcept_error | exact maskSub_trans hm rfl | with_reducible assumption | with_reducible apply moves_fault | with_reducible apply moves_drawn | with_reducible apply moves_workingLost | with_reducible apply moves_setVtile | with_reducible refine Moves.foldl ?_ (fun s x h => ?_) | with_reducible exact Moves.refl _ | ((with_reducible apply Moves.ofUpdate) <;> first | with_reducible assumption | with_reducible exact fun _ => rfl | exact id | exact maskHit hm rfl | exact fun _ => rfl | exact rfl | (intro p; simpa +zetaDelta using p) | (intro p; dsimp +zetaDelta only; (repeat (first | split | (simpa using p))))) | split | (dsimp -zeta +zetaDelta only)

theorem moves_vecBeatSent {msk : Nat} (hm : maskSub 0x18008e msk = true) {a : State} {s : State} {u : Site} {o : OutBeat} (h : Moves msk a s) : Moves msk a (vecBeatSent s u o) := by
  unfold vecBeatSent
  repeat' first | exact maskSub_trans hm rfl | with_reducible assumption | with_reducible apply moves_vecSettle | with_reducible apply moves_putVec | split

theorem moves_vecFired {msk : Nat} (hm : maskSub 0x18008e msk = true) {a : State} {s : State} {u : Site} {e : Issued} {lanes : List Dword} {sats : ℕ} {ac : ℕ} (h : Moves msk a s) : Moves msk a (vecFired s u e lanes sats ac) := by
  unfold vecFired
  repeat' first | exact maskSub_trans hm rfl | with_reducible assumption | with_reducible apply moves_vecSettle | with_reducible apply moves_countUnit | with_reducible apply moves_putVec | split

theorem moves_vecWatch {msk : Nat} (hm : maskSub 0x1950bf msk = true) {a : State} {s : State} {u : Site} {slot : ℕ} {index : ℕ} (h : Moves msk a s) : Moves msk a (vecWatch s u slot index) := by
  unfold vecWatch
  repeat' first | (extract_lets +onlyGivenNames z; refine Moves.cut (m := msk) a z ?_ (fun hz => ?_) <;> [(dsimp -zeta only [z]; revert z; intro _); (clear_value z; revert z; intro _ _)]) | (extract_lets +onlyGivenNames z; revert z; intro _) | exact maskSub_trans hm rfl | with_reducible assumption | with_reducible apply moves_advance | with_reducible apply moves_vecAbortAll | with_reducible apply moves_fault | split

theorem moves_execVloadBeat {msk : Nat} (hm : maskSub 0x1950bf msk = true) {a : State} {site : Site} {slot : ℕ} {s : State} (h : Moves msk a s) : MovesNext msk a (execVloadBeat site slot s) := by
  unfold execVloadBeat
  repeat' first | (extract_lets +onlyGivenNames z; refine Moves.cut (m := msk) a z ?_ (fun hz => ?_) <;> [(dsimp -zeta only [z]; revert z; intro _); (clear_value z; revert z; intro _ _)]) | (extract_lets +onlyGivenNames z; revert z; intro _) | with_reducible apply movesNext_done | with_reducible apply movesNext_next | exact maskSub_trans hm rfl | with_reducible assumption | with_reducible apply moves_done | with_reducible refine (moves_takeBeat ?_ ?_).keeps (by assumption) | with_reducible apply moves_faultFrame | with_reducible apply moves_advance | with_reducible apply moves_vecSettle | with_reducible apply moves_putVec | split

theorem moves_execVsendBeat {msk : Nat} (hm : maskSub 0x9950bf msk = true) {a : State} {site : Site} {slot : ℕ} {found : Ecc} {s : State} (h : Moves msk a s) : MovesNext msk a (execVsendBeat site slot found s) := by
  unfold execVsendBeat
  repeat' first | (extract_lets +onlyGivenNames z; refine Moves.cut (m := msk) a z ?_ (fun hz => ?_) <;> [(dsimp -zeta only [z]; revert z; intro _); (clear_value z; revert z; intro _ _)]) | (extract_lets +onlyGivenNames z; revert z; intro _) | with_reducible apply movesNext_done | with_reducible apply movesNext_next | exact maskSub_trans hm rfl | with_reducible assumption | with_reducible apply moves_done | with_reducible apply moves_advance | with_reducible apply moves_scratchRead | with_reducible refine (moves_scratchRead ?_ ?_).movesOk (by assumption) | with_reducible refine (moves_scratchRead ?_ ?_).movesError (by assumption) | with_reducible apply moves_pushOut | with_reducible apply moves_putVec | with_reducible apply moves_countUnit | split

theorem moves_vecFire {msk : Nat} (hm : maskSub 0x9950bf msk = true) {a : State} {s : State} {site : Site} {slot : ℕ} {cls : ℕ} {code : ℕ} {found : Ecc} {ac : ℕ} {f : VectorTile → Issued → List Dword × ℕ} (h : Moves msk a s) : MovesNext msk a (vecFire s site slot cls code found ac f) := by
  unfold vecFire
  repeat' first | (extract_lets +onlyGivenNames z; refine Moves.cut (m := msk) a z ?_ (fun hz => ?_) <;> [(dsimp -zeta only [z]; revert z; intro _); (clear_value z; revert z; intro _ _)]) | (extract_lets +onlyGivenNames z; revert z; intro _) | with_reducible apply movesNext_done | with_reducible apply movesNext_next | exact maskSub_trans hm rfl | with_reducible assumption | with_reducible apply moves_done | with_reducible apply moves_scratchRead | with_reducible refine (moves_scratchRead ?_ ?_).movesOk (by assumption) | with_reducible refine (moves_scratchRead ?_ ?_).movesError (by assumption) | with_reducible apply moves_advance | with_reducible apply moves_vecFired | split

theorem moves_execVopFire {msk : Nat} (hm : maskSub 0x9950bf msk = true) {a : State} {site : Site} {slot : ℕ} {found : Ecc} {s : State} (h : Moves msk a s) : MovesNext msk a (execVopFire site slot found s) := by
  unfold execVopFire
  repeat' first | with_reducible apply movesNext_done | with_reducible apply movesNext_next | exact maskSub_trans hm rfl | with_reducible assumption | with_reducible apply moves_vecFire | split

theorem moves_execVfuncFire {msk : Nat} (hm : maskSub 0x9950bf msk = true) {a : State} {site : Site} {slot : ℕ} {found : Ecc} {s : State} (h : Moves msk a s) : MovesNext msk a (execVfuncFire site slot found s) := by
  unfold execVfuncFire
  repeat' first | with_reducible apply movesNext_done | with_reducible apply movesNext_next | exact maskSub_trans hm rfl | with_reducible assumption | with_reducible apply moves_vecFire | split

theorem moves_execVredFire {msk : Nat} (hm : maskSub 0x9950bf msk = true) {a : State} {site : Site} {slot : ℕ} {found : Ecc} {s : State} (h : Moves msk a s) : MovesNext msk a (execVredFire site slot found s) := by
  unfold execVredFire
  repeat' first | with_reducible apply movesNext_done | with_reducible apply movesNext_next | exact maskSub_trans hm rfl | with_reducible assumption | with_reducible apply moves_vecFire | split

theorem moves_execConstantRewriteDone {msk : Nat} (hm : maskSub 0x595ffe msk = true) {a : State} {site : Site} {region : ℕ} {readable : Bool} {rechecked : Bool} {s : State} (h : Moves msk a s) : MovesNext msk a (execConstantRewriteDone site region readable rechecked s) := by
  unfold execConstantRewriteDone
  repeat' first | (extract_lets +onlyGivenNames z; refine Moves.cut (m := msk) a z ?_ (fun hz => ?_) <;> [(dsimp -zeta only [z]; revert z; intro _); (clear_value z; revert z; intro _ _)]) | (extract_lets +onlyGivenNames z; revert z; intro _) | with_reducible apply movesNext_done | with_reducible apply movesNext_next | exact maskSub_trans hm rfl | with_reducible assumption | with_reducible apply moves_done | with_reducible apply moves_setVtile | with_reducible apply moves_vecAbortAll | with_reducible apply moves_loseUnit | with_reducible refine Moves.foldl ?_ (fun s x h => ?_) | with_reducible exact Moves.refl _ | ((with_reducible apply Moves.ofUpdate) <;> first | with_reducible assumption | with_reducible exact fun _ => rfl | exact id | exact maskHit hm rfl | exact fun _ => rfl | exact rfl | (intro p; simpa +zetaDelta using p) | (intro p; dsimp +zetaDelta only; (repeat (first | split | (simpa using p))))) | split | (dsimp -zeta +zetaDelta only)

end Sys2Proof.Machine
end

