-- ==== Sys2Proof/Laws/MovesWindowTile.lean ====
section
/-! SUPPORT. `Moves` for the operations of Machine/WindowTile.lean. -/

set_option linter.unusedTactic false
set_option linter.unreachableTactic false
set_option linter.tactic.unusedName false

namespace Sys2Proof.Machine

theorem moves_winUnbind {msk : Nat} (hm : maskSub 0x18010e msk = true) {a : State} {s : State} {u : Site} {k : ℕ} {code : ℕ} (h : Moves msk a s) : Moves msk a (winUnbind s u k code) := by
  unfold winUnbind
  repeat' first | (extract_lets +onlyGivenNames z; refine Moves.cut (m := msk) a z ?_ (fun hz => ?_) <;> [(dsimp -zeta only [z]; revert z; intro _); (clear_value z; revert z; intro _ _)]) | (extract_lets +onlyGivenNames z; revert z; intro _) | exact maskSub_trans hm rfl | with_reducible assumption | with_reducible apply moves_setWtile | with_reducible apply moves_countUnit | with_reducible apply moves_traceNow | split

theorem moves_winSettle {msk : Nat} (hm : maskSub 0x18010e msk = true) {a : State} {s : State} {u : Site} (h : Moves msk a s) : Moves msk a (winSettle s u) := by
  unfold winSettle
  repeat' first | (extract_lets +onlyGivenNames z; refine Moves.cut (m := msk) a z ?_ (fun hz => ?_) <;> [(dsimp -zeta only [z]; revert z; intro _); (clear_value z; revert z; intro _ _)]) | (extract_lets +onlyGivenNames z; revert z; intro _) | exact maskSub_trans hm rfl | with_reducible assumption | with_reducible apply moves_winUnbind | with_reducible apply moves_setWtile | with_reducible refine Moves.foldl ?_ (fun s x h => ?_) | with_reducible exact Moves.refl _ | split | (dsimp -zeta +zetaDelta only)

theorem moves_winGiveUp {msk : Nat} (hm : maskSub 0x18012e msk = true) {a : State} {s : State} {u : Site} {k : ℕ} {code : ℕ} (h : Moves msk a s) : Moves msk a (winGiveUp s u k code) := by
  unfold winGiveUp
  repeat' first | exact maskSub_trans hm rfl | with_reducible assumption | with_reducible apply moves_discardOn | with_reducible apply moves_voidOn | with_reducible apply moves_winUnbind | split

theorem moves_winAbort {msk : Nat} (hm : maskSub 0x19513e msk = true) {a : State} {s : State} {u : Site} {k : ℕ} {code : ℕ} (h : Moves msk a s) : Moves msk a (winAbort s u k code) := by
  unfold winAbort
  repeat' first | exact maskSub_trans hm rfl | with_reducible assumption | with_reducible apply moves_winGiveUp | with_reducible apply moves_abortRecord | split

theorem moves_winAbortAll {msk : Nat} (hm : maskSub 0x19513e msk = true) {a : State} {s : State} {u : Site} {code : ℕ} (h : Moves msk a s) : Moves msk a (winAbortAll s u code) := by
  unfold winAbortAll
  repeat' first | (extract_lets +onlyGivenNames z; refine Moves.cut (m := msk) a z ?_ (fun hz => ?_) <;> [(dsimp -zeta only [z]; revert z; intro _); (clear_value z; revert z; intro _ _)]) | (extract_lets +onlyGivenNames z; revert z; intro _) | exact maskSub_trans hm rfl | with_reducible assumption | with_reducible apply moves_winAbort | with_reducible refine Moves.foldl ?_ (fun s x h => ?_) | with_reducible exact Moves.refl _ | split | (dsimp -zeta +zetaDelta only)

theorem moves_winTailOff {msk : Nat} (hm : maskSub 0x120 msk = true) {a : State} {s : State} {u : Site} {st : ℕ} {frame : ℕ} (h : Moves msk a s) : Moves msk a (winTailOff s u st frame) := by
  unfold winTailOff
  repeat' first | (extract_lets +onlyGivenNames z; refine Moves.cut (m := msk) a z ?_ (fun hz => ?_) <;> [(dsimp -zeta only [z]; revert z; intro _); (clear_value z; revert z; intro _ _)]) | (extract_lets +onlyGivenNames z; revert z; intro _) | exact maskSub_trans hm rfl | with_reducible assumption | with_reducible apply moves_discardOn | with_reducible apply moves_setWtile | split

theorem moves_winTailsOff {msk : Nat} (hm : maskSub 0x120 msk = true) {a : State} {s : State} {u : Site} (h : Moves msk a s) : Moves msk a (winTailsOff s u) := by
  unfold winTailsOff
  repeat' first | (extract_lets +onlyGivenNames z; refine Moves.cut (m := msk) a z ?_ (fun hz => ?_) <;> [(dsimp -zeta only [z]; revert z; intro _); (clear_value z; revert z; intro _ _)]) | (extract_lets +onlyGivenNames z; revert z; intro _) | exact maskSub_trans hm rfl | with_reducible assumption | with_reducible apply moves_winTailOff | with_reducible refine Moves.foldl ?_ (fun s x h => ?_) | with_reducible exact Moves.refl _ | split | (dsimp -zeta +zetaDelta only)

theorem moves_winRefuse {msk : Nat} (hm : maskSub 0x19503e msk = true) {a : State} {s : State} {u : Site} {st : ℕ} {frame : ℕ} {tk : TackInfo} {code : ℕ} (h : Moves msk a s) : Moves msk a (winRefuse s u st frame tk code) := by
  unfold winRefuse
  repeat' first | exact maskSub_trans hm rfl | with_reducible assumption | with_reducible apply moves_discardOn | with_reducible apply moves_voidOn | with_reducible apply moves_abortRecord | split

theorem moves_winBreak {msk : Nat} (hm : maskSub 0x19513e msk = true) {a : State} {s : State} {u : Site} {x : Option ℕ × WinSlot} {code : ℕ} (h : Moves msk a s) : Moves msk a (winBreak s u x code) := by
  unfold winBreak
  repeat' first | exact maskSub_trans hm rfl | with_reducible assumption | with_reducible apply moves_winAbort | with_reducible apply moves_winRefuse | with_reducible apply moves_setWtile | split

theorem moves_winTackCut {msk : Nat} (hm : maskSub 0x19513e msk = true) {a : State} {s : State} {u : Site} {b : Beat} (h : Moves msk a s) : Moves msk a (winTackCut s u b) := by
  unfold winTackCut
  repeat' first | exact maskSub_trans hm rfl | with_reducible assumption | with_reducible apply moves_winBreak | split

theorem moves_winBind {msk : Nat} (hm : maskSub 0x19513e msk = true) {a : State} {s0 : State} {u : Site} (h : Moves msk a s0) : Moves msk a (winBind s0 u) := by
  unfold winBind
  repeat' first | (extract_lets +onlyGivenNames z; refine Moves.cut (m := msk) a z ?_ (fun hz => ?_) <;> [(dsimp -zeta only [z]; revert z; intro _); (clear_value z; revert z; intro _ _)]) | (extract_lets +onlyGivenNames z; revert z; intro _) | exact maskSub_trans hm rfl | with_reducible assumption | with_reducible apply moves_winTackCut | with_reducible refine (moves_takeBeat ?_ ?_).keeps (by assumption) | with_reducible apply moves_sendOpen | with_reducible apply moves_traceNow | with_reducible apply moves_setWtile | with_reducible apply moves_frameAtDisabled | with_reducible refine Moves.foldl ?_ (fun s x h => ?_) | with_reducible exact Moves.refl _ | split | (dsimp -zeta +zetaDelta only)

theorem moves_winSendRow {msk : Nat} (hm : maskSub 0x18012e msk = true) {a : State} {s : State} {u : Site} {k : ℕ} {sl : WinSlot} {outlier : Bool} {lane : ℕ → BitVec 16} (h : Moves msk a s) : Moves msk a (winSendRow s u k sl outlier lane) := by
  unfold winSendRow
  repeat' first | (extract_lets +onlyGivenNames z; refine Moves.cut (m := msk) a z ?_ (fun hz => ?_) <;> [(dsimp -zeta only [z]; revert z; intro _); (clear_value z; revert z; intro _ _)]) | (extract_lets +onlyGivenNames z; revert z; intro _) | exact maskSub_trans hm rfl | with_reducible assumption | with_reducible apply moves_setOutQ | with_reducible apply moves_winSettle | with_reducible apply moves_setWtile | with_reducible refine Moves.foldl ?_ (fun s x h => ?_) | with_reducible exact Moves.refl _ | split | (dsimp -zeta +zetaDelta only)

theorem moves_winBeatSent {msk : Nat} (hm : maskSub 0x18012e msk = true) {a : State} {s : State} {e : EndPoint} {o : OutBeat} (h : Moves msk a s) : Moves msk a (winBeatSent s e o) := by
  unfold winBeatSent
  repeat' first | exact maskSub_trans hm rfl | with_reducible assumption | with_reducible apply moves_setWtile | with_reducible apply moves_winSettle | with_reducible apply moves_setOutQ | split

theorem moves_winWatch {msk : Nat} (hm : maskSub 0x19513f msk = true) {a : State} {s : State} {u : Site} {slot : ℕ} (h : Moves msk a s) : Moves msk a (winWatch s u slot) := by
  unfold winWatch
  repeat' first | (extract_lets +onlyGivenNames z; refine Moves.cut (m := msk) a z ?_ (fun hz => ?_) <;> [(dsimp -zeta only [z]; revert z; intro _); (clear_value z; revert z; intro _ _)]) | (extract_lets +onlyGivenNames z; revert z; intro _) | exact maskSub_trans hm rfl | with_reducible assumption | with_reducible apply moves_winAbortAll | with_reducible apply moves_fault | with_reducible apply moves_advance | split

theorem moves_execWindowBeatIn {msk : Nat} (hm : maskSub 0x19513e msk = true) {a : State} {site : Site} {parity : Bool} {s : State} (h : Moves msk a s) : MovesNext msk a (execWindowBeatIn site parity s) := by
  unfold execWindowBeatIn
  repeat' first | (extract_lets +onlyGivenNames z; refine Moves.cut (m := msk) a z ?_ (fun hz => ?_) <;> [(dsimp -zeta only [z]; revert z; intro _); (clear_value z; revert z; intro _ _)]) | (extract_lets +onlyGivenNames z; revert z; intro _) | with_reducible apply movesNext_done | with_reducible apply movesNext_next | exact maskSub_trans hm rfl | with_reducible assumption | with_reducible apply moves_done | with_reducible apply moves_winTackCut | with_reducible apply moves_winAbort | with_reducible apply moves_winRefuse | with_reducible refine (moves_takeBeat ?_ ?_).keeps (by assumption) | with_reducible apply moves_winBreak | with_reducible apply moves_winSettle | with_reducible apply moves_setWtile | split

theorem moves_execWindowRowEmit {msk : Nat} (hm : maskSub 0x19513e msk = true) {a : State} {site : Site} {slot : ℕ} {parity : Bool} {s : State} (h : Moves msk a s) : MovesNext msk a (execWindowRowEmit site slot parity s) := by
  unfold execWindowRowEmit
  repeat' first | (extract_lets +onlyGivenNames z; refine Moves.cut (m := msk) a z ?_ (fun hz => ?_) <;> [(dsimp -zeta only [z]; revert z; intro _); (clear_value z; revert z; intro _ _)]) | (extract_lets +onlyGivenNames z; revert z; intro _) | with_reducible apply movesNext_done | with_reducible apply movesNext_next | exact maskSub_trans hm rfl | with_reducible assumption | with_reducible apply moves_done | with_reducible apply moves_winAbort | with_reducible apply moves_winSendRow | split

theorem moves_execPoolRowEmit {msk : Nat} (hm : maskSub 0x99513e msk = true) {a : State} {site : Site} {slot : ℕ} {parity : Bool} {s : State} (h : Moves msk a s) : MovesNext msk a (execPoolRowEmit site slot parity s) := by
  unfold execPoolRowEmit
  repeat' first | (extract_lets +onlyGivenNames z; refine Moves.cut (m := msk) a z ?_ (fun hz => ?_) <;> [(dsimp -zeta only [z]; revert z; intro _); (clear_value z; revert z; intro _ _)]) | (extract_lets +onlyGivenNames z; revert z; intro _) | with_reducible apply movesNext_done | with_reducible apply movesNext_next | exact maskSub_trans hm rfl | with_reducible assumption | with_reducible apply moves_done | with_reducible apply moves_winAbort | with_reducible apply moves_winSendRow | with_reducible refine Moves.foldl ?_ (fun s x h => ?_) | with_reducible exact Moves.refl _ | ((with_reducible apply Moves.ofUpdate) <;> first | with_reducible assumption | with_reducible exact fun _ => rfl | exact id | exact maskHit hm rfl | exact fun _ => rfl | exact rfl | (intro p; simpa +zetaDelta using p) | (intro p; dsimp +zetaDelta only; (repeat (first | split | (simpa using p))))) | split | (dsimp -zeta +zetaDelta only)

end Sys2Proof.Machine
end

