-- ==== Sys2Proof/Laws/MovesTiles.lean ====
section
/-! SUPPORT. `Moves` for the operations of Machine/Tiles.lean. -/

set_option linter.unusedTactic false
set_option linter.unreachableTactic false
set_option linter.tactic.unusedName false

namespace Sys2Proof.Machine

theorem moves_tilesGiveUp {msk : Nat} (hm : maskSub 0x1801ee msk = true) {a : State} {s : State} {u : Site} {st : ℕ} {frame : ℕ} {code : ℕ} (h : Moves msk a s) : Moves msk a (tilesGiveUp s u st frame code) := by
  unfold tilesGiveUp
  repeat' first | (extract_lets +onlyGivenNames z; refine Moves.cut (m := msk) a z ?_ (fun hz => ?_) <;> [(dsimp -zeta only [z]; revert z; intro _); (clear_value z; revert z; intro _ _)]) | (extract_lets +onlyGivenNames z; revert z; intro _) | exact maskSub_trans hm rfl | with_reducible assumption | with_reducible apply moves_tileGiveUp | with_reducible apply moves_vecGiveUp | with_reducible apply moves_winTailOff | with_reducible apply moves_winGiveUp | with_reducible refine Moves.foldl ?_ (fun s x h => ?_) | with_reducible exact Moves.refl _ | split | (dsimp -zeta +zetaDelta only)

theorem moves_tilesAbortAll {msk : Nat} (hm : maskSub 0x1951fe msk = true) {a : State} {s : State} {u : Site} {code0 : ℕ} {code1 : ℕ} (h : Moves msk a s) : Moves msk a (tilesAbortAll s u code0 code1) := by
  unfold tilesAbortAll
  repeat' first | exact maskSub_trans hm rfl | with_reducible assumption | with_reducible apply moves_tileAbortAll | with_reducible apply moves_vecAbortAll | with_reducible apply moves_winTailsOff | with_reducible apply moves_winAbortAll | split

theorem moves_tailsOff {msk : Nat} (hm : maskSub 0x120 msk = true) {a : State} {s : State} {u : Site} (h : Moves msk a s) : Moves msk a (tailsOff s u) := by
  unfold tailsOff
  repeat' first | exact maskSub_trans hm rfl | with_reducible assumption | with_reducible apply moves_winTailsOff | split

theorem moves_tilesBeatSent {msk : Nat} (hm : maskSub 0x1801ee msk = true) {a : State} {s : State} {e : EndPoint} {o : OutBeat} (h : Moves msk a s) : Moves msk a (tilesBeatSent s e o) := by
  unfold tilesBeatSent
  repeat' first | exact maskSub_trans hm rfl | with_reducible assumption | with_reducible apply moves_tileBeatSent | with_reducible apply moves_vecBeatSent | with_reducible apply moves_winBeatSent | split

theorem moves_execSlotBind {msk : Nat} (hm : maskSub 0x1951fe msk = true) {a : State} {site : Site} {s : State} (h : Moves msk a s) : MovesNext msk a (execSlotBind site s) := by
  unfold execSlotBind
  repeat' first | with_reducible apply movesNext_done | with_reducible apply movesNext_next | exact maskSub_trans hm rfl | with_reducible assumption | with_reducible apply moves_done | with_reducible apply moves_tileBind | with_reducible apply moves_vecBind | with_reducible apply moves_winBind | split

theorem moves_execOperationIssue {msk : Nat} (hm : maskSub 0x1800cf msk = true) {a : State} {site : Site} {s : State} (h : Moves msk a s) : MovesNext msk a (execOperationIssue site s) := by
  unfold execOperationIssue
  repeat' first | with_reducible apply movesNext_done | with_reducible apply movesNext_next | exact maskSub_trans hm rfl | with_reducible assumption | with_reducible apply moves_done | with_reducible apply moves_tileIssue | with_reducible apply moves_vecIssue | split

theorem moves_execTileWatchdogExpiry {msk : Nat} (hm : maskSub 0x1951ff msk = true) {a : State} {site : Site} {slot : ℕ} {index : ℕ} {s : State} (h : Moves msk a s) : MovesNext msk a (execTileWatchdogExpiry site slot index s) := by
  unfold execTileWatchdogExpiry
  repeat' first | with_reducible apply movesNext_done | with_reducible apply movesNext_next | exact maskSub_trans hm rfl | with_reducible assumption | with_reducible apply moves_done | with_reducible apply moves_tileWatchdog | with_reducible apply moves_vecWatch | with_reducible apply moves_winWatch | split

end Sys2Proof.Machine
end

