-- ==== Sys2Proof/Laws/MovesMemFeed.lean ====
section
/-! SUPPORT. `Moves` for the operations of Machine/MemFeed.lean. -/

set_option linter.unusedTactic false
set_option linter.unreachableTactic false
set_option linter.tactic.unusedName false

namespace Sys2Proof.Machine

theorem moves_dropFetch {msk : Nat} (hm : maskSub 0x18086e msk = true) {a : State} {s : State} {q : ℕ} {g : Grant} {code : ℕ} (h : Moves msk a s) : Moves msk a (dropFetch s q g code) := by
  unfold dropFetch
  repeat' first | (extract_lets +onlyGivenNames z; refine Moves.cut (m := msk) a z ?_ (fun hz => ?_) <;> [(dsimp -zeta only [z]; revert z; intro _); (clear_value z; revert z; intro _ _)]) | (extract_lets +onlyGivenNames z; revert z; intro _) | exact maskSub_trans hm rfl | with_reducible assumption | with_reducible apply moves_setQueue | with_reducible apply moves_setTile | with_reducible apply moves_tileGiveUp | split

theorem moves_abortFetch {msk : Nat} (hm : maskSub 0x19587e msk = true) {a : State} {s : State} {q : ℕ} {g : Grant} {code : ℕ} {site : Site} {d0 : Dword} {d1 : Dword} (h : Moves msk a s) : Moves msk a (abortFetch s q g code site d0 d1) := by
  unfold abortFetch
  repeat' first | exact maskSub_trans hm rfl | with_reducible assumption | with_reducible apply moves_dropFetch | with_reducible apply moves_abortRecord | split

theorem moves_sendTackLine {msk : Nat} (hm : maskSub 0x20 msk = true) {a : State} {s : State} {e : EndPoint} {b : Beat} (h : Moves msk a s) : Moves msk a (sendTackLine s e b) := by
  unfold sendTackLine
  repeat' first | (extract_lets +onlyGivenNames z; refine Moves.cut (m := msk) a z ?_ (fun hz => ?_) <;> [(dsimp -zeta only [z]; revert z; intro _); (clear_value z; revert z; intro _ _)]) | (extract_lets +onlyGivenNames z; revert z; intro _) | exact maskSub_trans hm rfl | with_reducible assumption | with_reducible apply moves_pushOut | with_reducible refine Moves.foldl ?_ (fun s x h => ?_) | with_reducible exact Moves.refl _ | ((with_reducible apply Moves.ofUpdate) <;> first | with_reducible assumption | with_reducible exact fun _ => rfl | exact id | exact maskHit hm rfl | exact fun _ => rfl | exact rfl | (intro p; simpa +zetaDelta using p) | (intro p; dsimp +zetaDelta only; (repeat (first | split | (simpa using p))))) | split | (dsimp -zeta +zetaDelta only)

theorem moves_voidSegment {msk : Nat} (hm : maskSub 0x820 msk = true) {a : State} {s : State} {q : ℕ} {t : SegTack} {code : ℕ} (h : Moves msk a s) : Moves msk a (voidSegment s q t code) := by
  unfold voidSegment
  repeat' first | exact maskSub_trans hm rfl | with_reducible assumption | with_reducible apply moves_setQueue | with_reducible apply moves_sendTackLine | split

theorem moves_cutSegment {msk : Nat} (hm : maskSub 0x820 msk = true) {a : State} {s : State} {q : ℕ} {code : ℕ} (h : Moves msk a s) : Moves msk a (cutSegment s q code) := by
  unfold cutSegment
  repeat' first | (extract_lets +onlyGivenNames z; refine Moves.cut (m := msk) a z ?_ (fun hz => ?_) <;> [(dsimp -zeta only [z]; revert z; intro _); (clear_value z; revert z; intro _ _)]) | (extract_lets +onlyGivenNames z; revert z; intro _) | exact maskSub_trans hm rfl | with_reducible assumption | with_reducible apply moves_sendVoid | with_reducible apply moves_setQueue | split

theorem moves_abortLine {msk : Nat} (hm : maskSub 0x19583e msk = true) {a : State} {s : State} {q : ℕ} {e : QEntry} {known : Bool} {code : ℕ} {site : Site} {d0 : Dword} {d1 : Dword} (h : Moves msk a s) : Moves msk a (abortLine s q e known code site d0 d1) := by
  unfold abortLine
  repeat' first | (extract_lets +onlyGivenNames z; refine Moves.cut (m := msk) a z ?_ (fun hz => ?_) <;> [(dsimp -zeta only [z]; revert z; intro _); (clear_value z; revert z; intro _ _)]) | (extract_lets +onlyGivenNames z; revert z; intro _) | exact maskSub_trans hm rfl | with_reducible assumption | with_reducible apply moves_cutSegment | with_reducible apply moves_abortRecord | with_reducible apply moves_voidSegment | with_reducible apply moves_fault | with_reducible apply moves_setQueue | split

theorem moves_rangeFault {msk : Nat} (hm : maskSub 0x19581e msk = true) {a : State} {s : State} {q : ℕ} {a1 : ℤ} {x : MemQueue} {line : ℕ} (h : Moves msk a s) : Moves msk a (rangeFault s q a1 x line) := by
  unfold rangeFault
  repeat' first | exact maskSub_trans hm rfl | with_reducible assumption | with_reducible apply moves_faultAt | with_reducible apply moves_setQueue | split

theorem moves_readIssue {msk : Nat} (hm : maskSub 0x19581f msk = true) {a : State} {s0 : State} {q : ℕ} (h : Moves msk a s0) : Moves msk a (readIssue s0 q) := by
  unfold readIssue
  repeat' first | (extract_lets +onlyGivenNames z; refine Moves.cut (m := msk) a z ?_ (fun hz => ?_) <;> [(dsimp -zeta only [z]; revert z; intro _); (clear_value z; revert z; intro _ _)]) | (extract_lets +onlyGivenNames z; revert z; intro _) | exact maskSub_trans hm rfl | with_reducible assumption | with_reducible apply moves_advance | with_reducible apply moves_rangeFault | with_reducible apply moves_presentRead | with_reducible apply moves_portIssued | with_reducible apply moves_regulatorSpend | with_reducible apply moves_setQueue | split

theorem moves_fillEntry {msk : Nat} (hm : maskSub 0x800 msk = true) {a : State} {s : State} {q : ℕ} {num : ℕ} {a1 : ℕ} {bad : Bool} (h : Moves msk a s) : Moves msk a (fillEntry s q num a1 bad) := by
  unfold fillEntry
  repeat' first | exact maskSub_trans hm rfl | with_reducible assumption | with_reducible apply moves_setQueue | split

theorem moves_checkLine {msk : Nat} (hm : maskSub 0x119581e msk = true) {a : State} {s : State} {q : ℕ} {a1 : ℕ} {src : ℕ} {line : Ecc} {mirror : Ecc} (h : Moves msk a s) : MovesFst msk a (checkLine s q a1 src line mirror) := by
  unfold checkLine
  repeat' first | with_reducible apply movesFst_mk | exact maskSub_trans hm rfl | with_reducible assumption | with_reducible apply moves_channelFault | with_reducible apply moves_restoreLine | with_reducible apply moves_imageLost | with_reducible apply moves_poison | split

theorem moves_lineReturn {msk : Nat} (hm : maskSub 0x119587e msk = true) {a : State} {s : State} {q : ℕ} {e : QEntry} {src : ℕ} {line : Ecc} {mirror : Ecc} (h : Moves msk a s) : Moves msk a (lineReturn s q e src line mirror) := by
  unfold lineReturn
  repeat' first | (extract_lets +onlyGivenNames z; refine Moves.cut (m := msk) a z ?_ (fun hz => ?_) <;> [(dsimp -zeta only [z]; revert z; intro _); (clear_value z; revert z; intro _ _)]) | (extract_lets +onlyGivenNames z; revert z; intro _) | exact maskSub_trans hm rfl | with_reducible assumption | with_reducible apply moves_putRequest | with_reducible refine (moves_checkLine ?_ ?_).keeps | with_reducible apply moves_checkLine | with_reducible apply moves_fillEntry | with_reducible apply moves_cacheAlloc | with_reducible apply moves_abortFetch | split

theorem moves_cacheRefill {msk : Nat} (hm : maskSub 0x19581e msk = true) {a : State} {s : State} {q : ℕ} {e : QEntry} (h : Moves msk a s) : Moves msk a (cacheRefill s q e) := by
  unfold cacheRefill
  repeat' first | exact maskSub_trans hm rfl | with_reducible assumption | with_reducible apply moves_channelFault | with_reducible apply moves_cacheDrop | with_reducible apply moves_setQueue | with_reducible apply moves_putRequest | split

theorem moves_lostReturn {msk : Nat} (hm : maskSub 0x800 msk = true) {a : State} {s : State} {q : ℕ} {num : ℕ} (h : Moves msk a s) : Moves msk a (lostReturn s q num) := by
  unfold lostReturn
  repeat' first | (extract_lets +onlyGivenNames z; refine Moves.cut (m := msk) a z ?_ (fun hz => ?_) <;> [(dsimp -zeta only [z]; revert z; intro _); (clear_value z; revert z; intro _ _)]) | (extract_lets +onlyGivenNames z; revert z; intro _) | exact maskSub_trans hm rfl | with_reducible assumption | with_reducible refine Moves.foldl ?_ (fun s x h => ?_) | with_reducible exact Moves.refl _ | ((with_reducible apply Moves.ofUpdate) <;> first | with_reducible assumption | with_reducible exact fun _ => rfl | exact id | exact maskHit hm rfl | exact fun _ => rfl | exact rfl | (intro p; simpa +zetaDelta using p) | (intro p; dsimp +zetaDelta only; (repeat (first | split | (simpa using p))))) | split | (dsimp -zeta +zetaDelta only)

theorem moves_readReturn {msk : Nat} (hm : maskSub 0x119587f msk = true) {a : State} {s : State} {queue : ℕ} {entry : ℕ} {cacheWord : Ecc} {line : ReturnedLine} {mirror : Ecc} (h : Moves msk a s) : Moves msk a (readReturn s queue entry cacheWord line mirror) := by
  unfold readReturn
  repeat' first | exact maskSub_trans hm rfl | with_reducible assumption | with_reducible apply moves_lostReturn | with_reducible apply moves_advance | with_reducible apply moves_fillEntry | with_reducible apply moves_channelFault | with_reducible apply moves_cacheRefill | with_reducible apply moves_linkCounts | with_reducible apply moves_setChannel | with_reducible apply moves_lineReturn | split

theorem moves_popEntry {msk : Nat} (hm : maskSub 0x800 msk = true) {a : State} {s : State} {q : ℕ} (h : Moves msk a s) : Moves msk a (popEntry s q) := by
  unfold popEntry
  repeat' first | (extract_lets +onlyGivenNames z; refine Moves.cut (m := msk) a z ?_ (fun hz => ?_) <;> [(dsimp -zeta only [z]; revert z; intro _); (clear_value z; revert z; intro _ _)]) | (extract_lets +onlyGivenNames z; revert z; intro _) | exact maskSub_trans hm rfl | with_reducible assumption | with_reducible apply moves_afterFree | with_reducible refine Moves.foldl ?_ (fun s x h => ?_) | with_reducible exact Moves.refl _ | ((with_reducible apply Moves.ofUpdate) <;> first | with_reducible assumption | with_reducible exact fun _ => rfl | exact id | exact maskHit hm rfl | exact fun _ => rfl | exact rfl | (intro p; simpa +zetaDelta using p) | (intro p; dsimp +zetaDelta only; (repeat (first | split | (simpa using p))))) | split | (dsimp -zeta +zetaDelta only)

theorem moves_notValid {msk : Nat} (hm : maskSub 0x10080e msk = true) {a : State} {s : State} {q : ℕ} (h : Moves msk a s) : Moves msk a (notValid s q) := by
  unfold notValid
  repeat' first | (extract_lets +onlyGivenNames z; refine Moves.cut (m := msk) a z ?_ (fun hz => ?_) <;> [(dsimp -zeta only [z]; revert z; intro _); (clear_value z; revert z; intro _ _)]) | (extract_lets +onlyGivenNames z; revert z; intro _) | exact maskSub_trans hm rfl | with_reducible assumption | with_reducible apply moves_countEvent | with_reducible apply moves_countUnit | with_reducible apply moves_setQueue | split

theorem moves_sentBeats {msk : Nat} (hm : maskSub 0x10000e msk = true) {a : State} {s : State} {q : ℕ} {n : ℕ} (h : Moves msk a s) : Moves msk a (sentBeats s q n) := by
  unfold sentBeats
  repeat' first | exact maskSub_trans hm rfl | with_reducible assumption | with_reducible apply moves_countUnit | split

theorem moves_grantTaken {msk : Nat} (hm : maskSub 0x800 msk = true) {a : State} {s : State} {q : ℕ} (h : Moves msk a s) : Moves msk a (grantTaken s q) := by
  unfold grantTaken
  repeat' first | (extract_lets +onlyGivenNames z; refine Moves.cut (m := msk) a z ?_ (fun hz => ?_) <;> [(dsimp -zeta only [z]; revert z; intro _); (clear_value z; revert z; intro _ _)]) | (extract_lets +onlyGivenNames z; revert z; intro _) | exact maskSub_trans hm rfl | with_reducible assumption | with_reducible apply moves_setQueue | split

theorem moves_fetchSent {msk : Nat} (hm : maskSub 0x40 msk = true) {a : State} {s : State} {q : ℕ} {g : Grant} {a1 : ℕ} (h : Moves msk a s) : Moves msk a (fetchSent s q g a1) := by
  unfold fetchSent
  repeat' first | exact maskSub_trans hm rfl | with_reducible assumption | with_reducible apply moves_setTile | split

theorem moves_sendLine0 {msk : Nat} (hm : maskSub 0x19583e msk = true) {a : State} {s : State} {q : ℕ} {d : BitVec 512} (h : Moves msk a s) : Moves msk a (sendLine0 s q d) := by
  unfold sendLine0
  repeat' first | exact maskSub_trans hm rfl | with_reducible assumption | with_reducible apply moves_setQueue | with_reducible apply moves_sendTackLine | with_reducible apply moves_sentBeats | with_reducible apply moves_fault | split

theorem moves_sendLine {msk : Nat} (hm : maskSub 0x10002e msk = true) {a : State} {s : State} {q : ℕ} {j : ℕ} {d : BitVec 512} (h : Moves msk a s) : Moves msk a (sendLine s q j d) := by
  unfold sendLine
  repeat' first | (extract_lets +onlyGivenNames z; refine Moves.cut (m := msk) a z ?_ (fun hz => ?_) <;> [(dsimp -zeta only [z]; revert z; intro _); (clear_value z; revert z; intro _ _)]) | (extract_lets +onlyGivenNames z; revert z; intro _) | exact maskSub_trans hm rfl | with_reducible assumption | with_reducible apply moves_sentBeats | with_reducible apply moves_pushOut | split

theorem moves_poolWait {msk : Nat} (hm : maskSub 0x800 msk = true) {a : State} {s : State} {q : ℕ} {st : ℕ} (h : Moves msk a s) : Moves msk a (poolWait s q st) := by
  unfold poolWait
  repeat' first | (extract_lets +onlyGivenNames z; refine Moves.cut (m := msk) a z ?_ (fun hz => ?_) <;> [(dsimp -zeta only [z]; revert z; intro _); (clear_value z; revert z; intro _ _)]) | (extract_lets +onlyGivenNames z; revert z; intro _) | exact maskSub_trans hm rfl | with_reducible assumption | with_reducible refine Moves.foldl ?_ (fun s x h => ?_) | with_reducible exact Moves.refl _ | ((with_reducible apply Moves.ofUpdate) <;> first | with_reducible assumption | with_reducible exact fun _ => rfl | exact id | exact maskHit hm rfl | exact fun _ => rfl | exact rfl | (intro p; simpa +zetaDelta using p) | (intro p; dsimp +zetaDelta only; (repeat (first | split | (simpa using p))))) | split | (dsimp -zeta +zetaDelta only)

theorem moves_waitOver {msk : Nat} (hm : maskSub 0x800 msk = true) {a : State} {s : State} {port : ℕ} {st : ℕ} {others : List ℕ} (h : Moves msk a s) : Moves msk a (waitOver s port st others) := by
  unfold waitOver
  repeat' first | exact maskSub_trans hm rfl | with_reducible assumption | ((with_reducible apply Moves.ofUpdate) <;> first | with_reducible assumption | with_reducible exact fun _ => rfl | exact id | exact maskHit hm rfl | exact fun _ => rfl | exact rfl) | split

theorem moves_queueWrite {msk : Nat} (hm : maskSub 0x1000800 msk = true) {a : State} {s : State} {q : ℕ} {a1 : ℕ} {b : Beat} {frame : ℕ} (h : Moves msk a s) : Moves msk a (queueWrite s q a1 b frame) := by
  unfold queueWrite
  repeat' first | (extract_lets +onlyGivenNames z; refine Moves.cut (m := msk) a z ?_ (fun hz => ?_) <;> [(dsimp -zeta only [z]; revert z; intro _); (clear_value z; revert z; intro _ _)]) | (extract_lets +onlyGivenNames z; revert z; intro _) | exact maskSub_trans hm rfl | with_reducible assumption | with_reducible apply moves_portIssued | with_reducible apply moves_waitOver | with_reducible apply moves_regulatorSpend | with_reducible apply moves_setQueue | with_reducible apply moves_presentWrite | split

theorem moves_rewriteLine0 {msk : Nat} (hm : maskSub 0x1000800 msk = true) {a : State} {s : State} {q : ℕ} {code : ℕ} (h : Moves msk a s) : Moves msk a (rewriteLine0 s q code) := by
  unfold rewriteLine0
  repeat' first | exact maskSub_trans hm rfl | with_reducible assumption | with_reducible apply moves_queueWrite | split

theorem moves_leaveSegment {msk : Nat} (hm : maskSub 0x800 msk = true) {a : State} {s : State} {q : ℕ} (h : Moves msk a s) : Moves msk a (leaveSegment s q) := by
  unfold leaveSegment
  repeat' first | exact maskSub_trans hm rfl | with_reducible assumption | with_reducible apply moves_setQueue | split

theorem moves_voidFrame {msk : Nat} (hm : maskSub 0x119581e msk = true) {a : State} {s : State} {q : ℕ} (h : Moves msk a s) : Moves msk a (voidFrame s q) := by
  unfold voidFrame
  repeat' first | exact maskSub_trans hm rfl | with_reducible assumption | with_reducible apply moves_rewriteLine0 | with_reducible apply moves_faultFrame | with_reducible apply moves_abortRecord | with_reducible apply moves_setQueue | split

theorem moves_writeLine0 {msk : Nat} (hm : maskSub 0x1000800 msk = true) {a : State} {s : State} {q : ℕ} {b : Beat} {a1 : ℕ} {g : Generator} (h : Moves msk a s) : Moves msk a (writeLine0 s q b a1 g) := by
  unfold writeLine0
  repeat' first | exact maskSub_trans hm rfl | with_reducible assumption | with_reducible apply moves_queueWrite | with_reducible apply moves_setQueue | split

theorem moves_oweSegment {msk : Nat} (hm : maskSub 0x800 msk = true) {a : State} {s : State} {q : ℕ} {st : ℕ} {frame : ℕ} {code : ℕ} {g : Generator} (h : Moves msk a s) : Moves msk a (oweSegment s q st frame code g) := by
  unfold oweSegment
  repeat' first | exact maskSub_trans hm rfl | with_reducible assumption | with_reducible apply moves_leaveSegment | with_reducible apply moves_setQueue | split

theorem moves_writeRange {msk : Nat} (hm : maskSub 0x19583e msk = true) {a : State} {s : State} {q : ℕ} {a1 : ℤ} {st : ℕ} {frame : ℕ} {g : Generator} (h : Moves msk a s) : Moves msk a (writeRange s q a1 st frame g) := by
  unfold writeRange
  repeat' first | exact maskSub_trans hm rfl | with_reducible assumption | with_reducible apply moves_faultFrame | with_reducible apply moves_discardInput | with_reducible apply moves_oweSegment | with_reducible apply moves_abortRecord | split

theorem moves_unstorable {msk : Nat} (hm : maskSub 0x119583e msk = true) {a : State} {s : State} {q : ℕ} {st : ℕ} {frame : ℕ} {code : ℕ} (h : Moves msk a s) : Moves msk a (unstorable s q st frame code) := by
  unfold unstorable
  repeat' first | (extract_lets +onlyGivenNames z; refine Moves.cut (m := msk) a z ?_ (fun hz => ?_) <;> [(dsimp -zeta only [z]; revert z; intro _); (clear_value z; revert z; intro _ _)]) | (extract_lets +onlyGivenNames z; revert z; intro _) | exact maskSub_trans hm rfl | with_reducible assumption | with_reducible apply moves_faultFrame | with_reducible apply moves_leaveSegment | with_reducible apply moves_voidFrame | with_reducible apply moves_discardInput | with_reducible apply moves_abortRecord | split

theorem moves_segmentBeat {msk : Nat} (hm : maskSub 0x119583e msk = true) {a : State} {s : State} {q : ℕ} {st : ℕ} {b : Beat} (h : Moves msk a s) : Moves msk a (segmentBeat s q st b) := by
  unfold segmentBeat
  repeat' first | (extract_lets +onlyGivenNames z; refine Moves.cut (m := msk) a z ?_ (fun hz => ?_) <;> [(dsimp -zeta only [z]; revert z; intro _); (clear_value z; revert z; intro _ _)]) | (extract_lets +onlyGivenNames z; revert z; intro _) | exact maskSub_trans hm rfl | with_reducible assumption | with_reducible apply moves_unstorable | with_reducible apply moves_writeRange | with_reducible apply moves_queueWrite | with_reducible apply moves_setQueue | split

theorem moves_streamOutTake {msk : Nat} (hm : maskSub 0x119583e msk = true) {a : State} {s : State} {q : ℕ} {b : Beat} {frame : ℕ} (h : Moves msk a s) : Moves msk a (streamOutTake s q b frame) := by
  unfold streamOutTake
  repeat' first | (extract_lets +onlyGivenNames z; refine Moves.cut (m := msk) a z ?_ (fun hz => ?_) <;> [(dsimp -zeta only [z]; revert z; intro _); (clear_value z; revert z; intro _ _)]) | (extract_lets +onlyGivenNames z; revert z; intro _) | exact maskSub_trans hm rfl | with_reducible assumption | with_reducible apply moves_fault | with_reducible apply moves_writeRange | with_reducible apply moves_writeLine0 | with_reducible apply moves_leaveSegment | with_reducible apply moves_rewriteLine0 | with_reducible apply moves_faultFrame | with_reducible apply moves_unstorable | with_reducible apply moves_segmentBeat | with_reducible apply moves_voidFrame | split

theorem moves_storageLost {msk : Nat} (hm : maskSub 0x19583e msk = true) {a : State} {s : State} {q : ℕ} {st : ℕ} {frame : ℕ} {open1 : Bool} (h : Moves msk a s) : Moves msk a (storageLost s q st frame open1) := by
  unfold storageLost
  repeat' first | exact maskSub_trans hm rfl | with_reducible assumption | with_reducible apply moves_abortRecord | with_reducible apply moves_oweSegment | with_reducible apply moves_setQueue | with_reducible apply moves_discardInput | split

theorem moves_spillLost {msk : Nat} (hm : maskSub 0x19581e msk = true) {a : State} {s : State} {q : ℕ} {st : ℕ} {frame : ℕ} {code : ℕ} {site : Site} (h : Moves msk a s) : Moves msk a (spillLost s q st frame code site) := by
  unfold spillLost
  repeat' first | exact maskSub_trans hm rfl | with_reducible assumption | with_reducible apply moves_abortRecord | with_reducible apply moves_setQueue | split

theorem moves_spillBeatWrite {msk : Nat} (hm : maskSub 0x119581e msk = true) {a : State} {s : State} {q : ℕ} {a1 : ℕ} {b : Beat} {frame : ℕ} {parity : Bool} (h : Moves msk a s) : Moves msk a (spillBeatWrite s q a1 b frame parity) := by
  unfold spillBeatWrite
  repeat' first | (extract_lets +onlyGivenNames z; refine Moves.cut (m := msk) a z ?_ (fun hz => ?_) <;> [(dsimp -zeta only [z]; revert z; intro _); (clear_value z; revert z; intro _ _)]) | (extract_lets +onlyGivenNames z; revert z; intro _) | exact maskSub_trans hm rfl | with_reducible assumption | with_reducible apply moves_setQueue | with_reducible apply moves_poison | with_reducible apply moves_spillLost | with_reducible apply moves_faultFrame | with_reducible apply moves_queueWrite | with_reducible refine Moves.foldl ?_ (fun s x h => ?_) | with_reducible exact Moves.refl _ | ((with_reducible apply Moves.ofUpdate) <;> first | with_reducible assumption | with_reducible exact fun _ => rfl | exact id | exact maskHit hm rfl | exact fun _ => rfl | exact rfl | (intro p; simpa +zetaDelta using p) | (intro p; dsimp +zetaDelta only; (repeat (first | split | (simpa using p))))) | split | (dsimp -zeta +zetaDelta only)

theorem moves_spillBad {msk : Nat} (hm : maskSub 0x400 msk = true) {a : State} {s : State} {r : SpillReq} {a1 : ℕ} (h : Moves msk a s) : Moves msk a (spillBad s r a1) := by
  unfold spillBad
  repeat' first | exact maskSub_trans hm rfl | with_reducible assumption | with_reducible apply moves_setSteer | split

theorem moves_spillReadLost {msk : Nat} (hm : maskSub 0x19501e msk = true) {a : State} {s : State} {q : ℕ} {r : SpillReq} {code : ℕ} (h : Moves msk a s) : Moves msk a (spillReadLost s q r code) := by
  unfold spillReadLost
  repeat' first | exact maskSub_trans hm rfl | with_reducible assumption | with_reducible apply moves_abortRecord | with_reducible apply moves_faultAt | split

theorem moves_streamInDrop {msk : Nat} (hm : maskSub 0x820 msk = true) {a : State} {s : State} {q : ℕ} {st : ℕ} {frame : ℕ} {code : ℕ} (h : Moves msk a s) : Moves msk a (streamInDrop s q st frame code) := by
  unfold streamInDrop
  repeat' first | (extract_lets +onlyGivenNames z; refine Moves.cut (m := msk) a z ?_ (fun hz => ?_) <;> [(dsimp -zeta only [z]; revert z; intro _); (clear_value z; revert z; intro _ _)]) | (extract_lets +onlyGivenNames z; revert z; intro _) | exact maskSub_trans hm rfl | with_reducible assumption | with_reducible apply moves_afterFree | with_reducible apply moves_setQueue | with_reducible apply moves_cutSegment | split

theorem moves_unwritten {msk : Nat} (hm : maskSub 0x800 msk = true) {a : State} {s : State} {q : ℕ} {st : ℕ} {frame : ℕ} (h : Moves msk a s) : Moves msk a (unwritten s q st frame) := by
  unfold unwritten
  repeat' first | (extract_lets +onlyGivenNames z; refine Moves.cut (m := msk) a z ?_ (fun hz => ?_) <;> [(dsimp -zeta only [z]; revert z; intro _); (clear_value z; revert z; intro _ _)]) | (extract_lets +onlyGivenNames z; revert z; intro _) | exact maskSub_trans hm rfl | with_reducible assumption | with_reducible apply moves_afterFree | with_reducible refine Moves.foldl ?_ (fun s x h => ?_) | with_reducible exact Moves.refl _ | ((with_reducible apply Moves.ofUpdate) <;> first | with_reducible assumption | with_reducible exact fun _ => rfl | exact id | exact maskHit hm rfl | exact fun _ => rfl | exact rfl | (intro p; simpa +zetaDelta using p) | (intro p; dsimp +zetaDelta only; (repeat (first | split | (simpa using p))))) | split | (dsimp -zeta +zetaDelta only)

theorem moves_spillReadDrop {msk : Nat} (hm : maskSub 0x400 msk = true) {a : State} {s : State} {q : ℕ} {st : ℕ} {frame : ℕ} (h : Moves msk a s) : Moves msk a (spillReadDrop s q st frame) := by
  unfold spillReadDrop
  repeat' first | (extract_lets +onlyGivenNames z; refine Moves.cut (m := msk) a z ?_ (fun hz => ?_) <;> [(dsimp -zeta only [z]; revert z; intro _); (clear_value z; revert z; intro _ _)]) | (extract_lets +onlyGivenNames z; revert z; intro _) | exact maskSub_trans hm rfl | with_reducible assumption | with_reducible apply moves_spillBad | with_reducible refine Moves.foldl ?_ (fun s x h => ?_) | with_reducible exact Moves.refl _ | split | (dsimp -zeta +zetaDelta only)

theorem moves_queueDrop {msk : Nat} (hm : maskSub 0x180c6e msk = true) {a : State} {x : State} {q : ℕ} {st : ℕ} {frame : ℕ} {code : ℕ} (h : Moves msk a x) : Moves msk a (queueDrop x q st frame code) := by
  unfold queueDrop
  repeat' first | (extract_lets +onlyGivenNames z; refine Moves.cut (m := msk) a z ?_ (fun hz => ?_) <;> [(dsimp -zeta only [z]; revert z; intro _); (clear_value z; revert z; intro _ _)]) | (extract_lets +onlyGivenNames z; revert z; intro _) | exact maskSub_trans hm rfl | with_reducible assumption | with_reducible apply moves_dropFetch | with_reducible apply moves_streamInDrop | with_reducible apply moves_unwritten | with_reducible apply moves_oweSegment | with_reducible apply moves_waitOver | with_reducible apply moves_discardInput | with_reducible apply moves_spillReadDrop | with_reducible apply moves_setQueue | with_reducible refine Moves.foldl ?_ (fun s x h => ?_) | with_reducible exact Moves.refl _ | split | (dsimp -zeta +zetaDelta only)

theorem moves_feedDrop {msk : Nat} (hm : maskSub 0x180c6e msk = true) {a : State} {s : State} {st : ℕ} {frame : ℕ} {code : ℕ} (h : Moves msk a s) : Moves msk a (feedDrop s st frame code) := by
  unfold feedDrop
  repeat' first | (extract_lets +onlyGivenNames z; refine Moves.cut (m := msk) a z ?_ (fun hz => ?_) <;> [(dsimp -zeta only [z]; revert z; intro _); (clear_value z; revert z; intro _ _)]) | (extract_lets +onlyGivenNames z; revert z; intro _) | exact maskSub_trans hm rfl | with_reducible assumption | with_reducible apply moves_queueDrop | with_reducible refine Moves.foldl ?_ (fun s x h => ?_) | with_reducible exact Moves.refl _ | split | (dsimp -zeta +zetaDelta only)

theorem moves_flushStreamIn {msk : Nat} (hm : maskSub 0x820 msk = true) {a : State} {s : State} {q : ℕ} {code : ℕ} (h : Moves msk a s) : Moves msk a (flushStreamIn s q code) := by
  unfold flushStreamIn
  repeat' first | (extract_lets +onlyGivenNames z; refine Moves.cut (m := msk) a z ?_ (fun hz => ?_) <;> [(dsimp -zeta only [z]; revert z; intro _); (clear_value z; revert z; intro _ _)]) | (extract_lets +onlyGivenNames z; revert z; intro _) | exact maskSub_trans hm rfl | with_reducible assumption | with_reducible apply moves_cutSegment | with_reducible apply moves_sendTackLine | with_reducible refine Moves.foldl ?_ (fun s x h => ?_) | with_reducible exact Moves.refl _ | split | (dsimp -zeta +zetaDelta only)

theorem moves_flushContents {msk : Nat} (hm : maskSub 0x180c6e msk = true) {a : State} {s : State} {q : ℕ} {code : ℕ} (h : Moves msk a s) : Moves msk a (flushContents s q code) := by
  unfold flushContents
  repeat' first | (extract_lets +onlyGivenNames z; refine Moves.cut (m := msk) a z ?_ (fun hz => ?_) <;> [(dsimp -zeta only [z]; revert z; intro _); (clear_value z; revert z; intro _ _)]) | (extract_lets +onlyGivenNames z; revert z; intro _) | exact maskSub_trans hm rfl | with_reducible assumption | with_reducible apply moves_flushStreamIn | with_reducible apply moves_queueDrop | with_reducible apply moves_afterFree | with_reducible refine Moves.foldl ?_ (fun s x h => ?_) | with_reducible exact Moves.refl _ | split | (dsimp -zeta +zetaDelta only)

theorem moves_portAbortAll {msk : Nat} (hm : maskSub 0x195c7e msk = true) {a : State} {s : State} {u : Site} {code : ℕ} (h : Moves msk a s) : Moves msk a (portAbortAll s u code) := by
  unfold portAbortAll
  repeat' first | (extract_lets +onlyGivenNames z; refine Moves.cut (m := msk) a z ?_ (fun hz => ?_) <;> [(dsimp -zeta only [z]; revert z; intro _); (clear_value z; revert z; intro _ _)]) | (extract_lets +onlyGivenNames z; revert z; intro _) | exact maskSub_trans hm rfl | with_reducible assumption | with_reducible apply moves_flushContents | with_reducible apply moves_abortRecord | with_reducible refine Moves.foldl ?_ (fun s x h => ?_) | with_reducible exact Moves.refl _ | split | (dsimp -zeta +zetaDelta only)

theorem moves_activateQueue {msk : Nat} (hm : maskSub 0x800 msk = true) {a : State} {s : State} {q : ℕ} {x : MemQueue} (h : Moves msk a s) : Moves msk a (activateQueue s q x) := by
  unfold activateQueue
  repeat' first | exact maskSub_trans hm rfl | with_reducible assumption | with_reducible apply moves_setQueue | split

theorem moves_cutQueue {msk : Nat} (hm : maskSub 0x195c7e msk = true) {a : State} {s : State} {q : ℕ} (h : Moves msk a s) : Moves msk a (cutQueue s q) := by
  unfold cutQueue
  repeat' first | (extract_lets +onlyGivenNames z; refine Moves.cut (m := msk) a z ?_ (fun hz => ?_) <;> [(dsimp -zeta only [z]; revert z; intro _); (clear_value z; revert z; intro _ _)]) | (extract_lets +onlyGivenNames z; revert z; intro _) | exact maskSub_trans hm rfl | with_reducible assumption | with_reducible apply moves_flushContents | with_reducible apply moves_abortRecord | with_reducible refine Moves.foldl ?_ (fun s x h => ?_) | with_reducible exact Moves.refl _ | split | (dsimp -zeta +zetaDelta only)

theorem moves_settleCut {msk : Nat} (hm : maskSub 0x195c7e msk = true) {a : State} {s : State} {q : ℕ} (h : Moves msk a s) : Moves msk a (settleCut s q) := by
  unfold settleCut
  repeat' first | exact maskSub_trans hm rfl | with_reducible assumption | with_reducible apply moves_cutQueue | with_reducible apply moves_setOutQ | with_reducible apply moves_activateQueue | split

theorem moves_execQueueReadIssue {msk : Nat} (hm : maskSub 0x19581f msk = true) {a : State} {queue : ℕ} {s : State} (h : Moves msk a s) : MovesNext msk a (execQueueReadIssue queue s) := by
  unfold execQueueReadIssue
  repeat' first | with_reducible apply movesNext_done | with_reducible apply movesNext_next | exact maskSub_trans hm rfl | with_reducible assumption | with_reducible apply moves_done | with_reducible apply moves_readIssue | split

theorem moves_execGeneratorStep {msk : Nat} (hm : maskSub 0x19581f msk = true) {a : State} {queue : ℕ} {s : State} (h : Moves msk a s) : MovesNext msk a (execGeneratorStep queue s) := by
  unfold execGeneratorStep
  repeat' first | (extract_lets +onlyGivenNames z; refine Moves.cut (m := msk) a z ?_ (fun hz => ?_) <;> [(dsimp -zeta only [z]; revert z; intro _); (clear_value z; revert z; intro _ _)]) | (extract_lets +onlyGivenNames z; revert z; intro _) | with_reducible apply movesNext_done | with_reducible apply movesNext_next | exact maskSub_trans hm rfl | with_reducible assumption | with_reducible apply moves_done | with_reducible apply moves_readIssue | with_reducible apply moves_genStep | split

theorem moves_execGeneratorFrameResume {msk : Nat} (hm : maskSub 0x800 msk = true) {a : State} {queue : ℕ} {s : State} (h : Moves msk a s) : MovesNext msk a (execGeneratorFrameResume queue s) := by
  unfold execGeneratorFrameResume
  repeat' first | (extract_lets +onlyGivenNames z; refine Moves.cut (m := msk) a z ?_ (fun hz => ?_) <;> [(dsimp -zeta only [z]; revert z; intro _); (clear_value z; revert z; intro _ _)]) | (extract_lets +onlyGivenNames z; revert z; intro _) | with_reducible apply movesNext_done | with_reducible apply movesNext_next | exact maskSub_trans hm rfl | with_reducible assumption | with_reducible apply moves_done | with_reducible apply moves_setQueue | split

theorem moves_execFetchRequestArrive {msk : Nat} (hm : maskSub 0x19587f msk = true) {a : State} {queue : ℕ} {s : State} (h : Moves msk a s) : MovesNext msk a (execFetchRequestArrive queue s) := by
  unfold execFetchRequestArrive
  repeat' first | (extract_lets +onlyGivenNames z; refine Moves.cut (m := msk) a z ?_ (fun hz => ?_) <;> [(dsimp -zeta only [z]; revert z; intro _); (clear_value z; revert z; intro _ _)]) | (extract_lets +onlyGivenNames z; revert z; intro _) | with_reducible apply movesNext_done | with_reducible apply movesNext_next | exact maskSub_trans hm rfl | with_reducible assumption | with_reducible apply moves_done | with_reducible apply moves_advance | with_reducible apply moves_setQueue | with_reducible apply moves_setTile | with_reducible apply moves_dropFetch | with_reducible apply moves_abortRecord | with_reducible apply moves_traceNow | split

theorem moves_execFeedBeatSend {msk : Nat} (hm : maskSub 0x19587f msk = true) {a : State} {queue : ℕ} {parity : Bool} {s : State} (h : Moves msk a s) : MovesNext msk a (execFeedBeatSend queue parity s) := by
  unfold execFeedBeatSend
  repeat' first | (extract_lets +onlyGivenNames z; refine Moves.cut (m := msk) a z ?_ (fun hz => ?_) <;> [(dsimp -zeta only [z]; revert z; intro _); (clear_value z; revert z; intro _ _)]) | (extract_lets +onlyGivenNames z; revert z; intro _) | with_reducible apply movesNext_done | with_reducible apply movesNext_next | exact maskSub_trans hm rfl | with_reducible assumption | with_reducible apply moves_done | with_reducible apply moves_notValid | with_reducible apply moves_grantTaken | with_reducible apply moves_popEntry | with_reducible apply moves_abortFetch | with_reducible apply moves_fetchSent | with_reducible apply moves_sentBeats | with_reducible apply moves_pushOut | split

theorem moves_execStreamInBeatSend {msk : Nat} (hm : maskSub 0x19583f msk = true) {a : State} {queue : ℕ} {parity : Bool} {s0 : State} (h : Moves msk a s0) : MovesNext msk a (execStreamInBeatSend queue parity s0) := by
  unfold execStreamInBeatSend
  repeat' first | (extract_lets +onlyGivenNames z; refine Moves.cut (m := msk) a z ?_ (fun hz => ?_) <;> [(dsimp -zeta only [z]; revert z; intro _); (clear_value z; revert z; intro _ _)]) | (extract_lets +onlyGivenNames z; revert z; intro _) | with_reducible apply movesNext_done | with_reducible apply movesNext_next | exact maskSub_trans hm rfl | with_reducible assumption | with_reducible apply moves_advance | with_reducible apply moves_done | with_reducible apply moves_notValid | with_reducible apply moves_popEntry | with_reducible apply moves_abortLine | with_reducible apply moves_sendLine | with_reducible apply moves_voidSegment | with_reducible apply moves_sendLine0 | split

theorem moves_execStreamOutBeatWrite {msk : Nat} (hm : maskSub 0x119583f msk = true) {a : State} {access : StorageAccess} {s0 : State} (h : Moves msk a s0) : MovesNext msk a (execStreamOutBeatWrite access s0) := by
  unfold execStreamOutBeatWrite
  repeat' first | (extract_lets +onlyGivenNames z; refine Moves.cut (m := msk) a z ?_ (fun hz => ?_) <;> [(dsimp -zeta only [z]; revert z; intro _); (clear_value z; revert z; intro _ _)]) | (extract_lets +onlyGivenNames z; revert z; intro _) | with_reducible apply movesNext_done | with_reducible apply movesNext_next | exact maskSub_trans hm rfl | with_reducible assumption | with_reducible apply moves_advance | with_reducible apply moves_done | with_reducible apply moves_queueWrite | with_reducible apply moves_setQueue | with_reducible refine (moves_takeBeat ?_ ?_).keeps (by assumption) | with_reducible apply moves_discardInput | with_reducible apply moves_abortRecord | with_reducible apply moves_faultFrame | with_reducible apply moves_poolWait | with_reducible apply moves_leaveSegment | with_reducible apply moves_voidFrame | with_reducible apply moves_countUnit | with_reducible apply moves_storageLost | with_reducible apply moves_streamOutTake | with_reducible refine Moves.foldl ?_ (fun s x h => ?_) | with_reducible exact Moves.refl _ | split | (dsimp -zeta +zetaDelta only)

theorem moves_execSpillQueueWrite {msk : Nat} (hm : maskSub 0x119583f msk = true) {a : State} {access : StorageAccess} {s0 : State} (h : Moves msk a s0) : MovesNext msk a (execSpillQueueWrite access s0) := by
  unfold execSpillQueueWrite
  repeat' first | (extract_lets +onlyGivenNames z; refine Moves.cut (m := msk) a z ?_ (fun hz => ?_) <;> [(dsimp -zeta only [z]; revert z; intro _); (clear_value z; revert z; intro _ _)]) | (extract_lets +onlyGivenNames z; revert z; intro _) | with_reducible apply movesNext_done | with_reducible apply movesNext_next | exact maskSub_trans hm rfl | with_reducible assumption | with_reducible apply moves_advance | with_reducible apply moves_done | with_reducible refine (moves_takeBeat ?_ ?_).keeps (by assumption) | with_reducible apply moves_setQueue | with_reducible apply moves_poolWait | with_reducible apply moves_countUnit | with_reducible apply moves_spillBeatWrite | with_reducible refine Moves.foldl ?_ (fun s x h => ?_) | with_reducible exact Moves.refl _ | ((with_reducible apply Moves.ofUpdate) <;> first | with_reducible assumption | with_reducible exact fun _ => rfl | exact id | exact maskHit hm rfl | exact fun _ => rfl | exact rfl | (intro p; simpa +zetaDelta using p) | (intro p; dsimp +zetaDelta only; (repeat (first | split | (simpa using p))))) | split | (dsimp -zeta +zetaDelta only)

theorem moves_execSpillQueueRead {msk : Nat} (hm : maskSub 0x195c3f msk = true) {a : State} {access : StorageAccess} {s : State} (h : Moves msk a s) : MovesNext msk a (execSpillQueueRead access s) := by
  unfold execSpillQueueRead
  repeat' first | (extract_lets +onlyGivenNames z; refine Moves.cut (m := msk) a z ?_ (fun hz => ?_) <;> [(dsimp -zeta only [z]; revert z; intro _); (clear_value z; revert z; intro _ _)]) | (extract_lets +onlyGivenNames z; revert z; intro _) | with_reducible apply movesNext_done | with_reducible apply movesNext_next | exact maskSub_trans hm rfl | with_reducible assumption | with_reducible apply moves_done | with_reducible refine (moves_takeBeat ?_ ?_).keeps (by assumption) | with_reducible apply moves_setQueue | with_reducible apply moves_spillReadLost | with_reducible apply moves_spillBad | with_reducible apply moves_popEntry | with_reducible apply moves_sentBeats | with_reducible apply moves_setOutQ | split

theorem moves_execCircularWaitExpiry {msk : Nat} (hm : maskSub 0x195c7f msk = true) {a : State} {s : State} (h : Moves msk a s) : MovesNext msk a (execCircularWaitExpiry s) := by
  have mend (t : State) (f : List (Nat × Nat × Nat × Fc)) (k : Moves msk a t) : Moves msk a { t with feed := { t.feed with edges := f } } :=
    by (apply Moves.ofUpdate k <;> first | with_reducible exact fun _ => rfl | exact id | exact maskHit hm rfl | exact fun _ => rfl | exact rfl)
  unfold execCircularWaitExpiry
  split
  · exact movesNext_done h
  extract_lets +onlyGivenNames w
  split
  · exact movesNext_done h
  extract_lets +onlyGivenNames s1 ports streams
  have h1 : Moves msk a s1 := moves_advance (maskSub_trans hm rfl) h
  clear_value s1
  split
  · exact movesNext_done h
  extract_lets +onlyGivenNames other mask f site s2 s3
  have h2 : Moves msk a s2 := moves_faultFrame (maskSub_trans hm rfl) h1
  clear_value s2
  have h3 : Moves msk a s3 := moves_feedDrop (maskSub_trans hm rfl) (moves_abortRecord (maskSub_trans hm rfl) h2)
  clear_value s3
  exact movesNext_done (mend _ _ h3)

theorem moves_execReadReturn {msk : Nat} (hm : maskSub 0x1195c7f msk = true) {a : State} {queue : ℕ} {entry : ℕ} {cacheWord : Ecc} {line : ReturnedLine} {mirror : Ecc} {s : State} (h : Moves msk a s) : MovesNext msk a (execReadReturn queue entry cacheWord line mirror s) := by
  unfold execReadReturn
  repeat' first | (extract_lets +onlyGivenNames z; refine Moves.cut (m := msk) a z ?_ (fun hz => ?_) <;> [(dsimp -zeta only [z]; revert z; intro _); (clear_value z; revert z; intro _ _)]) | (extract_lets +onlyGivenNames z; revert z; intro _) | with_reducible apply movesNext_done | with_reducible apply movesNext_next | exact maskSub_trans hm rfl | with_reducible assumption | with_reducible apply moves_done | with_reducible apply moves_settleCut | with_reducible apply moves_readReturn | with_reducible refine Moves.foldl ?_ (fun s x h => ?_) | with_reducible exact Moves.refl _ | ((with_reducible apply Moves.ofUpdate) <;> first | with_reducible assumption | with_reducible exact fun _ => rfl | exact id | exact maskHit hm rfl | exact fun _ => rfl | exact rfl | (intro p; simpa +zetaDelta using p) | (intro p; dsimp +zetaDelta only; (repeat (first | split | (simpa using p))))) | split | (dsimp -zeta +zetaDelta only)

theorem moves_execDescStoreScrub {msk : Nat} (hm : maskSub 0x19581e msk = true) {a : State} {word : ℕ} {found : Ecc} {s : State} (h : Moves msk a s) : MovesNext msk a (execDescStoreScrub word found s) := by
  unfold execDescStoreScrub
  repeat' first | (extract_lets +onlyGivenNames z; refine Moves.cut (m := msk) a z ?_ (fun hz => ?_) <;> [(dsimp -zeta only [z]; revert z; intro _); (clear_value z; revert z; intro _ _)]) | (extract_lets +onlyGivenNames z; revert z; intro _) | with_reducible apply movesNext_done | with_reducible apply movesNext_next | exact maskSub_trans hm rfl | with_reducible assumption | with_reducible apply moves_done | with_reducible apply moves_fault | with_reducible refine Moves.foldl ?_ (fun s x h => ?_) | with_reducible exact Moves.refl _ | ((with_reducible apply Moves.ofUpdate) <;> first | with_reducible assumption | with_reducible exact fun _ => rfl | exact id | exact maskHit hm rfl | exact fun _ => rfl | exact rfl | (intro p; simpa +zetaDelta using p) | (intro p; dsimp +zetaDelta only; (repeat (first | split | (simpa using p))))) | split | (dsimp -zeta +zetaDelta only)

theorem moves_execDescRewriteDone {msk : Nat} (hm : maskSub 0x595ffe msk = true) {a : State} {word : ℕ} {success : Bool} {s : State} (h : Moves msk a s) : MovesNext msk a (execDescRewriteDone word success s) := by
  unfold execDescRewriteDone
  repeat' first | (extract_lets +onlyGivenNames z; refine Moves.cut (m := msk) a z ?_ (fun hz => ?_) <;> [(dsimp -zeta only [z]; revert z; intro _); (clear_value z; revert z; intro _ _)]) | (extract_lets +onlyGivenNames z; revert z; intro _) | with_reducible apply movesNext_done | with_reducible apply movesNext_next | exact maskSub_trans hm rfl | with_reducible assumption | with_reducible apply moves_done | with_reducible apply moves_fault | with_reducible apply moves_portAbortAll | with_reducible apply moves_moveUnit | with_reducible refine Moves.foldl ?_ (fun s x h => ?_) | with_reducible exact Moves.refl _ | ((with_reducible apply Moves.ofUpdate) <;> first | with_reducible assumption | with_reducible exact fun _ => rfl | exact id | exact maskHit hm rfl | exact fun _ => rfl | exact rfl | (intro p; simpa +zetaDelta using p) | (intro p; dsimp +zetaDelta only; (repeat (first | split | (simpa using p))))) | split | (dsimp -zeta +zetaDelta only)

end Sys2Proof.Machine
end

