-- ==== Sys2Proof/Laws/MovesSteering.lean ====
section
/-! SUPPORT. `Moves` for the operations of Machine/Steering.lean. -/

set_option linter.unusedTactic false
set_option linter.unreachableTactic false
set_option linter.tactic.unusedName false

namespace Sys2Proof.Machine

theorem movesSome_bind {m : Nat} {α : Type} {a : State} {o : Option α} {f : α → Option State} (k : ∀ x, MovesSome m a (f x)) : MovesSome m a (o.bind f) := by
  intro t e
  cases o with
  | none => cases e
  | some x => exact k x t e

theorem movesSome_mapPair {m : Nat} {β : Type} {a : State} {o : Option (β × State)} {f : β × State → State} (k : MovesSomeSnd m a o)
    (g : ∀ r : β × State, Moves m a r.2 → Moves m a (f r)) : MovesSome m a (o.map f) := by
  intro t e
  cases o with
  | none => cases e
  | some x => cases e; exact g x (k x.1 x.2 rfl)

theorem movesSome_map {m : Nat} {a : State} {o : Option State} {f : State → State} (k : MovesSome m a o)
    (g : ∀ r : State, Moves m a r → Moves m a (f r)) : MovesSome m a (o.map f) := by
  intro t e
  cases o with
  | none => cases e
  | some x => cases e; exact g x (k x rfl)

theorem MovesSome.getD {m : Nat} {a s : State} {o : Option State} (k : MovesSome m a o) (h : Moves m a s) : Moves m a (o.getD s) := by
  cases o with
  | none => exact h
  | some x => exact k x rfl

theorem moves_steerDrop {msk : Nat} (hm : maskSub 0x420 msk = true) {a : State} {s : State} {u : Site} {st : ℕ} {frame : ℕ} {code : ℕ} (h : Moves msk a s) : Moves msk a (steerDrop s u st frame code) := by
  unfold steerDrop
  repeat' first | exact maskSub_trans hm rfl | with_reducible assumption | with_reducible apply moves_discardOn | with_reducible apply moves_setSteer | with_reducible apply moves_voidOn | split

theorem moves_steerDropQueue {msk : Nat} (hm : maskSub 0x420 msk = true) {a : State} {s : State} {u : Site} {d : SkewDesc} {frame : ℕ} {code : ℕ} (h : Moves msk a s) : Moves msk a (steerDropQueue s u d frame code) := by
  unfold steerDropQueue
  repeat' first | exact maskSub_trans hm rfl | with_reducible assumption | with_reducible apply moves_discardInput | with_reducible apply moves_setSteer | with_reducible apply moves_voidOn | split

theorem moves_steerFail {msk : Nat} (hm : maskSub 0x19543e msk = true) {a : State} {s : State} {u : Site} {code : ℕ} {site : Site} {st : ℕ} {frame : ℕ} (h : Moves msk a s) : Moves msk a (steerFail s u code site st frame) := by
  unfold steerFail
  repeat' first | exact maskSub_trans hm rfl | with_reducible assumption | with_reducible apply moves_steerDrop | with_reducible apply moves_abortRecord | with_reducible apply moves_faultFrame | split

theorem moves_settleItems {msk : Nat} (hm : maskSub 0x19543e msk = true) {a : State} {s : State} {u : Site} {port : ℕ} {st : ℕ} {frame : ℕ} (h : Moves msk a s) : Moves msk a (settleItems s u port st frame) := by
  unfold settleItems
  repeat' first | (extract_lets +onlyGivenNames z; refine Moves.cut (m := msk) a z ?_ (fun hz => ?_) <;> [(dsimp -zeta only [z]; revert z; intro _); (clear_value z; revert z; intro _ _)]) | (extract_lets +onlyGivenNames z; revert z; intro _) | exact maskSub_trans hm rfl | with_reducible assumption | with_reducible apply moves_setSteer | with_reducible apply moves_faultFrame | with_reducible apply moves_steerFail | with_reducible refine Moves.foldl ?_ (fun s x h => ?_) | with_reducible exact Moves.refl _ | split | (dsimp -zeta +zetaDelta only)

theorem moves_enterSkew {msk : Nat} (hm : maskSub 0x19543e msk = true) {a : State} {limit : ℕ} {s : State} {u : Site} {d : SkewDesc} {b : Beat} {frame : ℕ} (h : Moves msk a s) : Moves msk a (enterSkew limit s u d b frame) := by
  unfold enterSkew
  repeat' first | (extract_lets +onlyGivenNames z; refine Moves.cut (m := msk) a z ?_ (fun hz => ?_) <;> [(dsimp -zeta only [z]; revert z; intro _); (clear_value z; revert z; intro _ _)]) | (extract_lets +onlyGivenNames z; revert z; intro _) | exact maskSub_trans hm rfl | with_reducible assumption | with_reducible apply moves_settleItems | with_reducible apply moves_setSteer | with_reducible apply moves_steerFail | split

theorem moves_portMoved {msk : Nat} (hm : maskSub 0x400 msk = true) {a : State} {s : State} {u : Site} {port : ℕ} (h : Moves msk a s) : Moves msk a (portMoved s u port) := by
  unfold portMoved
  repeat' first | exact maskSub_trans hm rfl | with_reducible assumption | with_reducible apply moves_setSteer | split

theorem moves_steerFailAt {msk : Nat} (hm : maskSub 0x19543e msk = true) {a : State} {s : State} {u : Site} {code : ℕ} {port : ℕ} {st : ℕ} {frame : Option ℕ} (h : Moves msk a s) : Moves msk a (steerFailAt s u code port st frame) := by
  unfold steerFailAt
  repeat' first | exact maskSub_trans hm rfl | with_reducible assumption | with_reducible apply moves_steerFail | with_reducible apply moves_faultAt | split

theorem moves_steerRefuse {msk : Nat} (hm : maskSub 0x19503e msk = true) {a : State} {s : State} {u : Site} {b : Beat} (h : Moves msk a s) : Moves msk a (steerRefuse s u b) := by
  unfold steerRefuse
  repeat' first | exact maskSub_trans hm rfl | with_reducible assumption | with_reducible apply moves_frameAtDisabled | split

theorem moves_skewMove {msk : Nat} (hm : maskSub 0x19543e msk = true) {a : State} {limit : ℕ} {s : State} {u : Site} {port : ℕ} (h : Moves msk a s) : MovesSome msk a (skewMove limit s u port) := by
  unfold skewMove
  refine movesSome_bind (fun b => movesSome_mapPair (moves_takeBeat (maskSub_trans hm rfl) h) (fun r hr => ?_))
  repeat' first | (extract_lets +onlyGivenNames z; refine Moves.cut (m := msk) a z ?_ (fun hz => ?_) <;> [(dsimp -zeta only [z]; revert z; intro _); (clear_value z; revert z; intro _ _)]) | (extract_lets +onlyGivenNames z; revert z; intro _) | exact maskSub_trans hm rfl | with_reducible assumption | with_reducible apply movesSome_some | with_reducible apply movesSome_none | with_reducible apply moves_portMoved | with_reducible apply moves_steerRefuse | with_reducible apply moves_steerFailAt | with_reducible apply moves_enterSkew | with_reducible exact Moves.refl _ | split | (dsimp -zeta only)

theorem moves_pennantArrive {msk : Nat} (hm : maskSub 0x19543e msk = true) {a : State} {limit : ℕ} {s : State} {u : Site} {port : ℕ} {b : Beat} {frame : ℕ} (h : Moves msk a s) : Moves msk a (pennantArrive limit s u port b frame) := by
  unfold pennantArrive
  repeat' first | (extract_lets +onlyGivenNames z; refine Moves.cut (m := msk) a z ?_ (fun hz => ?_) <;> [(dsimp -zeta only [z]; revert z; intro _); (clear_value z; revert z; intro _ _)]) | (extract_lets +onlyGivenNames z; revert z; intro _) | exact maskSub_trans hm rfl | with_reducible assumption | with_reducible apply moves_steerFail | with_reducible apply moves_setSteer | split

theorem moves_pennantMove {msk : Nat} (hm : maskSub 0x19543e msk = true) {a : State} {limit : ℕ} {s : State} {u : Site} {port : ℕ} (h : Moves msk a s) : MovesSome msk a (pennantMove limit s u port) := by
  unfold pennantMove
  extract_lets e tk
  refine movesSome_bind (fun b => ?_)
  have ht : MovesSome msk a tk := movesSome_mapPair (moves_takeBeat (maskSub_trans hm rfl) h) (fun r hr => hr)
  repeat' first | exact ht | exact movesSome_none | refine movesSome_map ht (fun r hr => ?_) | exact maskSub_trans hm rfl | with_reducible assumption | with_reducible apply moves_steerRefuse | with_reducible apply moves_pennantArrive | with_reducible apply moves_faultAt | split

theorem moves_steerGo {msk : Nat} (hm : maskSub 0x10042f msk = true) {a : State} {s : State} {u : Site} {d : SkewDesc} {p : SteerPlan} {b : Beat} (h : Moves msk a s) : Moves msk a (steerGo s u d p b) := by
  unfold steerGo
  repeat' first | (extract_lets +onlyGivenNames z; refine Moves.cut (m := msk) a z ?_ (fun hz => ?_) <;> [(dsimp -zeta only [z]; revert z; intro _); (clear_value z; revert z; intro _ _)]) | (extract_lets +onlyGivenNames z; revert z; intro _) | exact maskSub_trans hm rfl | with_reducible assumption | with_reducible apply moves_advance | with_reducible apply moves_setSteer | with_reducible apply moves_countUnit | with_reducible apply moves_sendOpen | with_reducible apply moves_pushOut | with_reducible refine Moves.foldl ?_ (fun s x h => ?_) | with_reducible exact Moves.refl _ | split | (dsimp -zeta +zetaDelta only)

theorem moves_sendRun {msk : Nat} (hm : maskSub 0x18042e msk = true) {a : State} {s : State} {u : Site} {d : SkewDesc} (h : Moves msk a s) : Moves msk a (sendRun s u d) := by
  unfold sendRun
  repeat' first | (extract_lets +onlyGivenNames z; refine Moves.cut (m := msk) a z ?_ (fun hz => ?_) <;> [(dsimp -zeta only [z]; revert z; intro _); (clear_value z; revert z; intro _ _)]) | (extract_lets +onlyGivenNames z; revert z; intro _) | exact maskSub_trans hm rfl | with_reducible assumption | with_reducible apply moves_setSteer | with_reducible apply moves_setOutQ | with_reducible apply moves_countUnit | with_reducible apply moves_countEvent | with_reducible apply moves_traceNow | with_reducible refine Moves.foldl ?_ (fun s x h => ?_) | with_reducible exact Moves.refl _ | split | (dsimp -zeta +zetaDelta only)

theorem moves_closeRun {msk : Nat} (hm : maskSub 0x18042e msk = true) {a : State} {s : State} {u : Site} {d : SkewDesc} (h : Moves msk a s) : Moves msk a (closeRun s u d) := by
  unfold closeRun
  repeat' first | exact maskSub_trans hm rfl | with_reducible assumption | with_reducible apply moves_sendRun | split

theorem moves_joinRun {msk : Nat} (hm : maskSub 0x18042e msk = true) {a : State} {s : State} {u : Site} {d : SkewDesc} {b : Beat} {frame : ℕ} (h : Moves msk a s) : Moves msk a (joinRun s u d b frame) := by
  unfold joinRun
  repeat' first | (extract_lets +onlyGivenNames z; refine Moves.cut (m := msk) a z ?_ (fun hz => ?_) <;> [(dsimp -zeta only [z]; revert z; intro _); (clear_value z; revert z; intro _ _)]) | (extract_lets +onlyGivenNames z; revert z; intro _) | exact maskSub_trans hm rfl | with_reducible assumption | with_reducible apply moves_setSteer | with_reducible apply moves_countUnit | with_reducible apply moves_sendRun | split

theorem moves_refillDone {msk : Nat} (hm : maskSub 0x18040e msk = true) {a : State} {s : State} {u : Site} {d : SkewDesc} {last : ℕ} (h : Moves msk a s) : Moves msk a (refillDone s u d last) := by
  unfold refillDone
  repeat' first | (extract_lets +onlyGivenNames z; refine Moves.cut (m := msk) a z ?_ (fun hz => ?_) <;> [(dsimp -zeta only [z]; revert z; intro _); (clear_value z; revert z; intro _ _)]) | (extract_lets +onlyGivenNames z; revert z; intro _) | exact maskSub_trans hm rfl | with_reducible assumption | with_reducible apply moves_setSteer | with_reducible apply moves_traceNow | with_reducible apply moves_countUnit | split

theorem moves_refillBeat {msk : Nat} (hm : maskSub 0x19543e msk = true) {a : State} {s : State} {u : Site} {d : SkewDesc} {b : Beat} {bad : Bool} (h : Moves msk a s) : Moves msk a (refillBeat s u d b bad) := by
  unfold refillBeat
  extract_lets +onlyGivenNames t q s1
  have h1 : Moves msk a s1 := moves_setSteer (maskSub_trans hm rfl) h
  clear_value s1
  split
  · exact h1
  split
  · exact moves_steerDropQueue (maskSub_trans hm rfl) (moves_abortRecord (maskSub_trans hm rfl) h1)
  extract_lets +onlyGivenNames s2
  have h2 : Moves msk a s2 := moves_enterSkew (maskSub_trans hm rfl) h1
  clear_value s2
  split
  · exact (moves_pennantMove (maskSub_trans hm rfl) h2).getD h2
  · exact h2

theorem moves_refillStep {msk : Nat} (hm : maskSub 0x19543f msk = true) {a : State} {s : State} {u : Site} (h : Moves msk a s) : MovesSome msk a (refillStep s u) := by
  unfold refillStep
  extract_lets +onlyGivenNames port sA
  have hA : Moves msk a sA := moves_advance (maskSub_trans hm rfl) h
  clear_value sA
  split
  · exact movesSome_none
  refine movesSome_mapPair (moves_takeBeat (maskSub_trans hm rfl) hA) (fun r hr => ?_)
  repeat' first | (extract_lets +onlyGivenNames z; refine Moves.cut (m := msk) a z ?_ (fun hz => ?_) <;> [(dsimp -zeta only [z]; revert z; intro _); (clear_value z; revert z; intro _ _)]) | (extract_lets +onlyGivenNames z; revert z; intro _) | exact maskSub_trans hm rfl | with_reducible assumption | with_reducible apply movesSome_some | with_reducible apply movesSome_none | with_reducible apply moves_portMoved | with_reducible apply moves_setSteer | with_reducible apply moves_refillBeat | with_reducible apply moves_refillDone | with_reducible exact Moves.refl _ | split | (dsimp -zeta only)

theorem moves_refillLoop {msk : Nat} (hm : maskSub 0x19543f msk = true) {a : State} {x : ℕ} {y : State} {y1 : Site} (h : Moves msk a y) : Moves msk a (refillLoop x y y1) := by
  induction x generalizing y y1 with
  | zero =>
    unfold refillLoop
    repeat' first | exact maskSub_trans hm rfl | with_reducible assumption | with_reducible refine (moves_refillStep ?_ ?_).keeps (by assumption) | with_reducible refine Moves.foldl ?_ (fun s x h => ?_) | with_reducible exact Moves.refl _ | split
  | succ n ih =>
    unfold refillLoop
    repeat' first | exact maskSub_trans hm rfl | with_reducible assumption | with_reducible apply ih | with_reducible refine (moves_refillStep ?_ ?_).keeps (by assumption) | with_reducible refine Moves.foldl ?_ (fun s x h => ?_) | with_reducible exact Moves.refl _ | split

theorem moves_steerBeatSent {msk : Nat} (hm : maskSub 0x400 msk = true) {a : State} {s : State} {u : Site} (h : Moves msk a s) : Moves msk a (steerBeatSent s u) := by
  unfold steerBeatSent
  repeat' first | exact maskSub_trans hm rfl | with_reducible assumption | with_reducible apply moves_setSteer | split

theorem moves_steerArrived {msk : Nat} (hm : maskSub 0x10000e msk = true) {a : State} {s : State} {u : Site} {port : ℕ} {b : Beat} (h : Moves msk a s) : Moves msk a (steerArrived s u port b) := by
  unfold steerArrived
  repeat' first | (extract_lets +onlyGivenNames z; refine Moves.cut (m := msk) a z ?_ (fun hz => ?_) <;> [(dsimp -zeta only [z]; revert z; intro _); (clear_value z; revert z; intro _ _)]) | (extract_lets +onlyGivenNames z; revert z; intro _) | exact maskSub_trans hm rfl | with_reducible assumption | with_reducible apply moves_countUnit | split

theorem moves_clearItems {msk : Nat} (hm : maskSub 0x400 msk = true) {a : State} {s : State} {u : Site} {st : ℕ} (h : Moves msk a s) : Moves msk a (clearItems s u st) := by
  unfold clearItems
  repeat' first | exact maskSub_trans hm rfl | with_reducible assumption | with_reducible apply moves_setSteer | split

theorem moves_steerAbortCurrent {msk : Nat} (hm : maskSub 0x19543e msk = true) {a : State} {s : State} {u : Site} {code : ℕ} (h : Moves msk a s) : Moves msk a (steerAbortCurrent s u code) := by
  unfold steerAbortCurrent
  repeat' first | (extract_lets +onlyGivenNames z; refine Moves.cut (m := msk) a z ?_ (fun hz => ?_) <;> [(dsimp -zeta only [z]; revert z; intro _); (clear_value z; revert z; intro _ _)]) | (extract_lets +onlyGivenNames z; revert z; intro _) | exact maskSub_trans hm rfl | with_reducible assumption | with_reducible apply moves_clearItems | with_reducible apply moves_steerDrop | with_reducible apply moves_abortRecord | with_reducible refine Moves.foldl ?_ (fun s x h => ?_) | with_reducible exact Moves.refl _ | split | (dsimp -zeta +zetaDelta only)

theorem moves_steerAbortAll {msk : Nat} (hm : maskSub 0x19543e msk = true) {a : State} {s : State} {u : Site} {code : ℕ} (h : Moves msk a s) : Moves msk a (steerAbortAll s u code) := by
  unfold steerAbortAll
  repeat' first | (extract_lets +onlyGivenNames z; refine Moves.cut (m := msk) a z ?_ (fun hz => ?_) <;> [(dsimp -zeta only [z]; revert z; intro _); (clear_value z; revert z; intro _ _)]) | (extract_lets +onlyGivenNames z; revert z; intro _) | exact maskSub_trans hm rfl | with_reducible assumption | with_reducible apply moves_steerDrop | with_reducible apply moves_abortRecord | with_reducible refine Moves.foldl ?_ (fun s x h => ?_) | with_reducible exact Moves.refl _ | split | (dsimp -zeta +zetaDelta only)

theorem moves_execSkewEnqueue {msk : Nat} (hm : maskSub 0x19543f msk = true) {a : State} {site : Site} {port : ℕ} {s : State} (h : Moves msk a s) : MovesNext msk a (execSkewEnqueue site port s) := by
  unfold execSkewEnqueue
  extract_lets +onlyGivenNames sA
  have hA : Moves msk a sA := moves_advance (maskSub_trans hm rfl) h
  clear_value sA
  split
  · exact movesNext_done h
  extract_lets due
  split
  · exact movesNext_done h
  · rename_i s1 e
    have h1 : Moves msk a s1 := (moves_skewMove (maskSub_trans hm rfl) hA).keeps e
    split
    · exact movesNext_done ((moves_pennantMove (maskSub_trans hm rfl) h1).getD h1)
    · exact movesNext_done h1

theorem moves_execFrameEndSettle {msk : Nat} (hm : maskSub 0x19543e msk = true) {a : State} {site : Site} {port : ℕ} {stream : ℕ} {s : State} (h : Moves msk a s) : MovesNext msk a (execFrameEndSettle site port stream s) := by
  unfold execFrameEndSettle
  repeat' first | (extract_lets +onlyGivenNames z; refine Moves.cut (m := msk) a z ?_ (fun hz => ?_) <;> [(dsimp -zeta only [z]; revert z; intro _); (clear_value z; revert z; intro _ _)]) | (extract_lets +onlyGivenNames z; revert z; intro _) | with_reducible apply movesNext_done | with_reducible apply movesNext_next | exact maskSub_trans hm rfl | with_reducible assumption | with_reducible apply moves_done | with_reducible apply moves_settleItems | with_reducible refine (moves_takeBeat ?_ ?_).keeps (by assumption) | split

theorem moves_execSteerSend {msk : Nat} (hm : maskSub 0x19543f msk = true) {a : State} {site : Site} {port : ℕ} {parity : Option ℕ} {s : State} (h : Moves msk a s) : MovesNext msk a (execSteerSend site port parity s) := by
  unfold execSteerSend
  repeat' first | (extract_lets +onlyGivenNames z; refine Moves.cut (m := msk) a z ?_ (fun hz => ?_) <;> [(dsimp -zeta only [z]; revert z; intro _); (clear_value z; revert z; intro _ _)]) | (extract_lets +onlyGivenNames z; revert z; intro _) | with_reducible apply movesNext_done | with_reducible apply movesNext_next | exact maskSub_trans hm rfl | with_reducible assumption | with_reducible apply moves_done | with_reducible apply moves_steerDropQueue | with_reducible apply moves_abortRecord | with_reducible apply moves_faultFrame | with_reducible apply moves_steerDrop | with_reducible apply moves_steerGo | with_reducible refine Moves.foldl ?_ (fun s x h => ?_) | with_reducible exact Moves.refl _ | split | (dsimp -zeta +zetaDelta only)

theorem moves_execSpillWriteRun {msk : Nat} (hm : maskSub 0x19543f msk = true) {a : State} {site : Site} {queue : ℕ} {s : State} (h : Moves msk a s) : MovesNext msk a (execSpillWriteRun site queue s) := by
  unfold execSpillWriteRun
  split
  · exact movesNext_done h
  split
  · exact movesNext_done h
  extract_lets +onlyGivenNames e sA moved
  have hA : Moves msk a sA := moves_advance (maskSub_trans hm rfl) h
  clear_value sA
  have hm1 : MovesSome msk a moved := by
    refine movesSome_bind (fun b => ?_)
    split
    · exact movesSome_none
    refine movesSome_mapPair (moves_takeBeat (maskSub_trans hm rfl) hA) (fun r hr => ?_)
    split
    · exact moves_steerRefuse (maskSub_trans hm rfl) (moves_portMoved (maskSub_trans hm rfl) hr)
    · exact moves_joinRun (maskSub_trans hm rfl) (moves_closeRun (maskSub_trans hm rfl) (moves_portMoved (maskSub_trans hm rfl) hr))
  clear_value moved
  split
  · exact movesNext_done (hm1.keeps rfl)
  · extract_lets q
    split
    · exact movesNext_done h
    · exact movesNext_done (moves_sendRun (maskSub_trans hm rfl) (moves_advance (maskSub_trans hm rfl) h))

theorem moves_execSpillReadRequest {msk : Nat} (hm : maskSub 0x420 msk = true) {a : State} {site : Site} {queue : ℕ} {s : State} (h : Moves msk a s) : MovesNext msk a (execSpillReadRequest site queue s) := by
  unfold execSpillReadRequest
  repeat' first | (extract_lets +onlyGivenNames z; refine Moves.cut (m := msk) a z ?_ (fun hz => ?_) <;> [(dsimp -zeta only [z]; revert z; intro _); (clear_value z; revert z; intro _ _)]) | (extract_lets +onlyGivenNames z; revert z; intro _) | with_reducible apply movesNext_done | with_reducible apply movesNext_next | exact maskSub_trans hm rfl | with_reducible assumption | with_reducible apply moves_done | with_reducible apply moves_setSteer | with_reducible apply moves_pushOut | split

theorem moves_execPennantPair {msk : Nat} (hm : maskSub 0x19543f msk = true) {a : State} {site : Site} {port : ℕ} {s : State} (h : Moves msk a s) : MovesNext msk a (execPennantPair site port s) := by
  unfold execPennantPair
  split
  · exact movesNext_done h
  extract_lets due back
  clear_value due back
  split
  · exact movesNext_done h
  · rename_i s1 e
    have h1 : Moves msk a s1 := (moves_pennantMove (maskSub_trans hm rfl) h).keeps e
    split
    · exact movesNext_done h1
    split
    · exact movesNext_done ((moves_skewMove (maskSub_trans hm rfl) h1).getD h1)
    · exact movesNext_done ((moves_refillStep (maskSub_trans hm rfl) h1).getD h1)

theorem moves_execRefillReturn {msk : Nat} (hm : maskSub 0x19543f msk = true) {a : State} {site : Site} {queue : ℕ} {beats : ℕ} {s : State} (h : Moves msk a s) : MovesNext msk a (execRefillReturn site queue beats s) := by
  unfold execRefillReturn
  repeat' first | with_reducible apply movesNext_done | with_reducible apply movesNext_next | exact maskSub_trans hm rfl | with_reducible assumption | with_reducible apply moves_done | with_reducible apply moves_refillLoop | split

theorem moves_execSteerWatchdogExpiry {msk : Nat} (hm : maskSub 0x19543f msk = true) {a : State} {site : Site} {s : State} (h : Moves msk a s) : MovesNext msk a (execSteerWatchdogExpiry site s) := by
  unfold execSteerWatchdogExpiry
  repeat' first | (extract_lets +onlyGivenNames z; refine Moves.cut (m := msk) a z ?_ (fun hz => ?_) <;> [(dsimp -zeta only [z]; revert z; intro _); (clear_value z; revert z; intro _ _)]) | (extract_lets +onlyGivenNames z; revert z; intro _) | with_reducible apply movesNext_done | with_reducible apply movesNext_next | exact maskSub_trans hm rfl | with_reducible assumption | with_reducible apply moves_done | with_reducible apply moves_advance | with_reducible apply moves_fault | with_reducible apply moves_steerAbortCurrent | with_reducible apply moves_countUnit | with_reducible apply moves_setSteer | split

end Sys2Proof.Machine
end

