-- ==== Sys2Proof/Laws/MovesGlue.lean ====
section
/-! SUPPORT. `Moves` for the operations of Machine/Glue.lean. -/

set_option linter.unusedTactic false
set_option linter.unreachableTactic false
set_option linter.tactic.unusedName false

namespace Sys2Proof.Machine

theorem moves_glueTack {msk : Nat} (hm : maskSub 0x200 msk = true) {a : State} {s : State} {u : Site} {p : ℕ} {b : Beat} (h : Moves msk a s) : Moves msk a (glueTack s u p b) := by
  unfold glueTack
  repeat' first | exact maskSub_trans hm rfl | with_reducible assumption | with_reducible apply moves_setGlue | split

theorem moves_glueTake {msk : Nat} (hm : maskSub 0x220 msk = true) {a : State} {s : State} {u : Site} {p : ℕ} (h : Moves msk a s) : Moves msk a (glueTake s u p) := by
  unfold glueTake
  repeat' first | exact maskSub_trans hm rfl | with_reducible assumption | with_reducible refine (moves_takeBeat ?_ ?_).keeps (by assumption) | with_reducible apply moves_glueTack | split

theorem moves_glueSend {msk : Nat} (hm : maskSub 0x20 msk = true) {a : State} {s : State} {e : EndPoint} {b : Beat} (h : Moves msk a s) : Moves msk a (glueSend s e b) := by
  unfold glueSend
  repeat' first | (extract_lets +onlyGivenNames z; refine Moves.cut (m := msk) a z ?_ (fun hz => ?_) <;> [(dsimp -zeta only [z]; revert z; intro _); (clear_value z; revert z; intro _ _)]) | (extract_lets +onlyGivenNames z; revert z; intro _) | exact maskSub_trans hm rfl | with_reducible assumption | with_reducible apply moves_pushOut | with_reducible refine Moves.foldl ?_ (fun s x h => ?_) | with_reducible exact Moves.refl _ | ((with_reducible apply Moves.ofUpdate) <;> first | with_reducible assumption | with_reducible exact fun _ => rfl | exact id | exact maskHit hm rfl | exact fun _ => rfl | exact rfl | (intro p; simpa +zetaDelta using p) | (intro p; dsimp +zetaDelta only; (repeat (first | split | (simpa using p))))) | split | (dsimp -zeta +zetaDelta only)

theorem moves_glueRun {msk : Nat} (hm : maskSub 0x800221 msk = true) {a : State} {s : State} {u : Site} (h : Moves msk a s) : Moves msk a (glueRun s u) := by
  unfold glueRun
  repeat' first | (extract_lets +onlyGivenNames z; refine Moves.cut (m := msk) a z ?_ (fun hz => ?_) <;> [(dsimp -zeta only [z]; revert z; intro _); (clear_value z; revert z; intro _ _)]) | (extract_lets +onlyGivenNames z; revert z; intro _) | exact maskSub_trans hm rfl | with_reducible assumption | with_reducible apply moves_glueSend | with_reducible apply moves_drawn | with_reducible apply moves_glueTake | with_reducible apply moves_setGlue | with_reducible refine Moves.foldl ?_ (fun s x h => ?_) | with_reducible exact Moves.refl _ | split | (dsimp -zeta +zetaDelta only)

theorem moves_glueDiscard {msk : Nat} (hm : maskSub 0x19523e msk = true) {a : State} {s : State} {u : Site} {p : ℕ} (h : Moves msk a s) : Moves msk a (glueDiscard s u p) := by
  unfold glueDiscard
  repeat' first | (extract_lets +onlyGivenNames z; refine Moves.cut (m := msk) a z ?_ (fun hz => ?_) <;> [(dsimp -zeta only [z]; revert z; intro _); (clear_value z; revert z; intro _ _)]) | (extract_lets +onlyGivenNames z; revert z; intro _) | exact maskSub_trans hm rfl | with_reducible assumption | with_reducible refine (moves_takeBeat ?_ ?_).keeps (by assumption) | with_reducible apply moves_glueSend | with_reducible apply moves_glueTack | with_reducible apply moves_voidOn | with_reducible apply moves_abortRecord | with_reducible apply moves_setGlue | with_reducible refine Moves.foldl ?_ (fun s x h => ?_) | with_reducible exact Moves.refl _ | split | (dsimp -zeta +zetaDelta only)

theorem moves_execGlueFcEval {msk : Nat} (hm : maskSub 0x99523f msk = true) {a : State} {site : Site} {s : State} (h : Moves msk a s) : MovesNext msk a (execGlueFcEval site s) := by
  unfold execGlueFcEval
  repeat' first | (extract_lets +onlyGivenNames z; refine Moves.cut (m := msk) a z ?_ (fun hz => ?_) <;> [(dsimp -zeta only [z]; revert z; intro _); (clear_value z; revert z; intro _ _)]) | (extract_lets +onlyGivenNames z; revert z; intro _) | with_reducible apply movesNext_done | with_reducible apply movesNext_next | exact maskSub_trans hm rfl | with_reducible assumption | with_reducible apply moves_advance | with_reducible apply moves_done | with_reducible apply moves_setGlue | with_reducible apply moves_glueRun | with_reducible apply moves_glueDiscard | with_reducible refine Moves.foldl ?_ (fun s x h => ?_) | with_reducible exact Moves.refl _ | split | (dsimp -zeta +zetaDelta only)

theorem moves_execGlueDrainDone {msk : Nat} (hm : maskSub 0x580fde msk = true) {a : State} {site : Site} {s : State} (h : Moves msk a s) : MovesNext msk a (execGlueDrainDone site s) := by
  unfold execGlueDrainDone
  repeat' first | with_reducible apply movesNext_done | with_reducible apply movesNext_next | exact maskSub_trans hm rfl | with_reducible assumption | with_reducible apply moves_done | with_reducible apply moves_finishFirst | with_reducible apply moves_moveUnit | split

theorem moves_execGlueDrainTimeout {msk : Nat} (hm : maskSub 0x595fff msk = true) {a : State} {site : Site} {s : State} (h : Moves msk a s) : MovesNext msk a (execGlueDrainTimeout site s) := by
  unfold execGlueDrainTimeout
  repeat' first | (extract_lets +onlyGivenNames z; refine Moves.cut (m := msk) a z ?_ (fun hz => ?_) <;> [(dsimp -zeta only [z]; revert z; intro _); (clear_value z; revert z; intro _ _)]) | (extract_lets +onlyGivenNames z; revert z; intro _) | with_reducible apply movesNext_done | with_reducible apply movesNext_next | exact maskSub_trans hm rfl | with_reducible assumption | with_reducible apply moves_done | with_reducible apply moves_voidOn | with_reducible apply moves_abortRecord | with_reducible apply moves_fault | with_reducible apply moves_moveUnit | with_reducible apply moves_advance | with_reducible apply moves_finishFirst | with_reducible refine Moves.foldl ?_ (fun s x h => ?_) | with_reducible exact Moves.refl _ | split | (dsimp -zeta +zetaDelta only)

end Sys2Proof.Machine
end

