-- ==== Sys2Proof/Laws/MovesFabric.lean ====
section
/-! SUPPORT. `Moves` for the operations of Machine/Fabric.lean. -/

set_option linter.unusedTactic false
set_option linter.unreachableTactic false
set_option linter.tactic.unusedName false

namespace Sys2Proof.Machine

theorem moves_tileFrameDrop {msk : Nat} (hm : maskSub 0x1801ee msk = true) {a : State} {s : State} {e : EndPoint} {st : ℕ} {frame : ℕ} {tk : TackInfo} {code : ℕ} (h : Moves msk a s) : Moves msk a (tileFrameDrop s e st frame tk code) := by
  unfold tileFrameDrop
  repeat' first | exact maskSub_trans hm rfl | with_reducible assumption | with_reducible apply moves_tilesGiveUp | with_reducible apply moves_winTailOff | with_reducible apply moves_voidOn | with_reducible apply moves_discardOn | split

theorem moves_elementDropWith {msk : Nat} (hm : maskSub 0x195dfe msk = true) {a : State} {s : State} {e : EndPoint} {st : ℕ} {frame : ℕ} {tk : TackInfo} {code : ℕ} (h : Moves msk a s) : Moves msk a (elementDropWith s e st frame tk code) := by
  unfold elementDropWith
  repeat' first | exact maskSub_trans hm rfl | with_reducible assumption | with_reducible apply moves_tileFrameDrop | with_reducible apply moves_steerDrop | with_reducible apply moves_discardInput | with_reducible apply moves_voidOn | with_reducible apply moves_queueDrop | with_reducible apply moves_removeFrame | with_reducible apply moves_endResults | with_reducible apply moves_txVoid | split

theorem moves_elementDrop {msk : Nat} (hm : maskSub 0x195dfe msk = true) {a : State} {s : State} {e : EndPoint} {st : ℕ} {frame : ℕ} {code : ℕ} (h : Moves msk a s) : Moves msk a (elementDrop s e st frame code) := by
  unfold elementDrop
  repeat' first | exact maskSub_trans hm rfl | with_reducible assumption | with_reducible apply moves_elementDropWith | split

theorem moves_dropFlights {msk : Nat} (hm : maskSub 0x20 msk = true) {a : State} {s : State} {producer : EndPoint} {gone : List Flight} (h : Moves msk a s) : Moves msk a (dropFlights s producer gone) := by
  unfold dropFlights
  repeat' first | (extract_lets +onlyGivenNames z; refine Moves.cut (m := msk) a z ?_ (fun hz => ?_) <;> [(dsimp -zeta only [z]; revert z; intro _); (clear_value z; revert z; intro _ _)]) | (extract_lets +onlyGivenNames z; revert z; intro _) | exact maskSub_trans hm rfl | with_reducible assumption | with_reducible apply moves_setLink | with_reducible refine Moves.foldl ?_ (fun s x h => ?_) | with_reducible exact Moves.refl _ | ((with_reducible apply Moves.ofUpdate) <;> first | with_reducible assumption | with_reducible exact fun _ => rfl | exact id | exact maskHit hm rfl | exact fun _ => rfl | exact rfl | (intro p; simpa +zetaDelta using p) | (intro p; dsimp +zetaDelta only; (repeat (first | split | (simpa using p))))) | split | (dsimp -zeta +zetaDelta only)

theorem moves_emptyLink {msk : Nat} (hm : maskSub 0x195dfe msk = true) {a : State} {s : State} {producer : EndPoint} {code : ℕ} {frames : List (ℕ × ℕ)} (h : Moves msk a s) : Moves msk a (emptyLink s producer code frames) := by
  unfold emptyLink
  repeat' first | (extract_lets +onlyGivenNames z; refine Moves.cut (m := msk) a z ?_ (fun hz => ?_) <;> [(dsimp -zeta only [z]; revert z; intro _); (clear_value z; revert z; intro _ _)]) | (extract_lets +onlyGivenNames z; revert z; intro _) | exact maskSub_trans hm rfl | with_reducible assumption | with_reducible apply moves_dropFlights | with_reducible apply moves_elementDrop | with_reducible apply moves_setInBuf | with_reducible apply moves_setLink | with_reducible refine Moves.foldl ?_ (fun s x h => ?_) | with_reducible exact Moves.refl _ | split | (dsimp -zeta +zetaDelta only)

theorem moves_creditFault {msk : Nat} (hm : maskSub 0x195dfe msk = true) {a : State} {s : State} {producer : EndPoint} {consumer : EndPoint} (h : Moves msk a s) : Moves msk a (creditFault s producer consumer) := by
  unfold creditFault
  repeat' first | (extract_lets +onlyGivenNames z; refine Moves.cut (m := msk) a z ?_ (fun hz => ?_) <;> [(dsimp -zeta only [z]; revert z; intro _); (clear_value z; revert z; intro _ _)]) | (extract_lets +onlyGivenNames z; revert z; intro _) | exact maskSub_trans hm rfl | with_reducible assumption | with_reducible apply moves_fault | with_reducible apply moves_abortRecord | with_reducible apply moves_emptyLink | with_reducible refine Moves.foldl ?_ (fun s x h => ?_) | with_reducible exact Moves.refl _ | split | (dsimp -zeta +zetaDelta only)

theorem moves_beatGone {msk : Nat} (hm : maskSub 0x195dfe msk = true) {a : State} {s : State} {e : EndPoint} {consumers : List EndPoint} {site : Site} {code : ℕ} {st : ℕ} (h : Moves msk a s) : Moves msk a (beatGone s e consumers site code st) := by
  unfold beatGone
  repeat' first | (extract_lets +onlyGivenNames z; refine Moves.cut (m := msk) a z ?_ (fun hz => ?_) <;> [(dsimp -zeta only [z]; revert z; intro _); (clear_value z; revert z; intro _ _)]) | (extract_lets +onlyGivenNames z; revert z; intro _) | exact maskSub_trans hm rfl | with_reducible assumption | with_reducible apply moves_elementDrop | with_reducible apply moves_abortRecord | with_reducible apply moves_faultAt | with_reducible refine Moves.foldl ?_ (fun s x h => ?_) | with_reducible exact Moves.refl _ | split | (dsimp -zeta +zetaDelta only)

theorem moves_noteLost {msk : Nat} (hm : maskSub 0x19503e msk = true) {a : State} {s : State} {box : Site} {st : ℕ} {frame : ℕ} (h : Moves msk a s) : Moves msk a (noteLost s box st frame) := by
  unfold noteLost
  repeat' first | (extract_lets +onlyGivenNames z; refine Moves.cut (m := msk) a z ?_ (fun hz => ?_) <;> [(dsimp -zeta only [z]; revert z; intro _); (clear_value z; revert z; intro _ _)]) | (extract_lets +onlyGivenNames z; revert z; intro _) | exact maskSub_trans hm rfl | with_reducible assumption | with_reducible apply moves_abortRecord | with_reducible refine Moves.foldl ?_ (fun s x h => ?_) | with_reducible exact Moves.refl _ | ((with_reducible apply Moves.ofUpdate) <;> first | with_reducible assumption | with_reducible exact fun _ => rfl | exact id | exact maskHit hm rfl | exact fun _ => rfl | exact rfl | (intro p; simpa +zetaDelta using p) | (intro p; dsimp +zetaDelta only; (repeat (first | split | (simpa using p))))) | split | (dsimp -zeta +zetaDelta only)

theorem moves_beatLost {msk : Nat} (hm : maskSub 0x195dfe msk = true) {a : State} {s : State} {e : EndPoint} {box : Site} {b : Beat} (h : Moves msk a s) : Moves msk a (beatLost s e box b) := by
  unfold beatLost
  repeat' first | (extract_lets +onlyGivenNames z; refine Moves.cut (m := msk) a z ?_ (fun hz => ?_) <;> [(dsimp -zeta only [z]; revert z; intro _); (clear_value z; revert z; intro _ _)]) | (extract_lets +onlyGivenNames z; revert z; intro _) | exact maskSub_trans hm rfl | with_reducible assumption | with_reducible apply moves_returnCredit | with_reducible apply moves_faultAt | with_reducible apply moves_elementDropWith | with_reducible apply moves_noteLost | with_reducible refine Moves.foldl ?_ (fun s x h => ?_) | with_reducible exact Moves.refl _ | split | (dsimp -zeta +zetaDelta only)

theorem moves_beatFails {msk : Nat} (hm : maskSub 0x195dfe msk = true) {a : State} {s : State} {e : EndPoint} {site : Site} {code : ℕ} {st : ℕ} (h : Moves msk a s) : Moves msk a (beatFails s e site code st) := by
  unfold beatFails
  repeat' first | exact maskSub_trans hm rfl | with_reducible assumption | with_reducible apply moves_beatGone | with_reducible apply moves_returnCredit | split

theorem moves_fifoFails {msk : Nat} (hm : maskSub 0x195dff msk = true) {a : State} {s : State} {producer : EndPoint} {e : EndPoint} {l : Link} {f : Flight} {k : ℕ} {h1 : Hop} {g : Site} {code : ℕ} {st : ℕ} (h : Moves msk a s) : Moves msk a (fifoFails s producer e l f k h1 g code st) := by
  unfold fifoFails
  repeat' first | (extract_lets +onlyGivenNames z; refine Moves.cut (m := msk) a z ?_ (fun hz => ?_) <;> [(dsimp -zeta only [z]; revert z; intro _); (clear_value z; revert z; intro _ _)]) | (extract_lets +onlyGivenNames z; revert z; intro _) | exact maskSub_trans hm rfl | with_reducible assumption | with_reducible apply moves_dropFlights | with_reducible apply moves_advance | with_reducible apply moves_setLink | with_reducible apply moves_beatGone | with_reducible refine Moves.foldl ?_ (fun s x h => ?_) | with_reducible exact Moves.refl _ | split | (dsimp -zeta +zetaDelta only)

theorem moves_discardArrival {msk : Nat} (hm : maskSub 0x20 msk = true) {a : State} {s : State} {e : EndPoint} {b : Beat} (h : Moves msk a s) : MovesSome msk a (discardArrival s e b) := by
  unfold discardArrival
  repeat' first | (extract_lets +onlyGivenNames z; refine Moves.cut (m := msk) a z ?_ (fun hz => ?_) <;> [(dsimp -zeta only [z]; revert z; intro _); (clear_value z; revert z; intro _ _)]) | (extract_lets +onlyGivenNames z; revert z; intro _) | with_reducible apply movesSome_some | with_reducible apply movesSome_none | exact maskSub_trans hm rfl | with_reducible assumption | with_reducible apply moves_setDiscards | with_reducible apply moves_returnCredit | split

theorem moves_discardsPast {msk : Nat} (hm : maskSub 0x20 msk = true) {a : State} {s : State} {e : EndPoint} {b : Beat} (h : Moves msk a s) : Moves msk a (discardsPast s e b) := by
  unfold discardsPast
  repeat' first | exact maskSub_trans hm rfl | with_reducible assumption | with_reducible apply moves_setDiscards | split

theorem moves_beatEnters {msk : Nat} (hm : maskSub 0x19503e msk = true) {a : State} {s : State} {e : EndPoint} {b : Beat} (h : Moves msk a s) : Moves msk a (beatEnters s e b) := by
  unfold beatEnters
  repeat' first | (extract_lets +onlyGivenNames z; refine Moves.cut (m := msk) a z ?_ (fun hz => ?_) <;> [(dsimp -zeta only [z]; revert z; intro _); (clear_value z; revert z; intro _ _)]) | (extract_lets +onlyGivenNames z; revert z; intro _) | exact maskSub_trans hm rfl | with_reducible assumption | with_reducible refine (moves_discardArrival ?_ ?_).keeps (by assumption) | with_reducible apply moves_discardsPast | with_reducible apply moves_fault | with_reducible apply moves_returnCredit | with_reducible apply moves_setInBuf | with_reducible apply moves_steerArrived | with_reducible refine Moves.foldl ?_ (fun s x h => ?_) | with_reducible exact Moves.refl _ | ((with_reducible apply Moves.ofUpdate) <;> first | with_reducible assumption | with_reducible exact fun _ => rfl | exact id | exact maskHit hm rfl | exact fun _ => rfl | exact rfl | (intro p; simpa +zetaDelta using p) | (intro p; dsimp +zetaDelta only; (repeat (first | split | (simpa using p))))) | split | (dsimp -zeta +zetaDelta only)

theorem moves_beatArrive {msk : Nat} (hm : maskSub 0x195dff msk = true) {a : State} {s : State} {producer : EndPoint} {e : EndPoint} {l : Link} {f : Flight} {b : Beat} (h : Moves msk a s) : Moves msk a (beatArrive s producer e l f b) := by
  unfold beatArrive
  repeat' first | (extract_lets +onlyGivenNames z; refine Moves.cut (m := msk) a z ?_ (fun hz => ?_) <;> [(dsimp -zeta only [z]; revert z; intro _); (clear_value z; revert z; intro _ _)]) | (extract_lets +onlyGivenNames z; revert z; intro _) | exact maskSub_trans hm rfl | with_reducible assumption | with_reducible apply moves_advance | with_reducible apply moves_dropFlights | with_reducible apply moves_beatLost | with_reducible apply moves_beatFails | with_reducible apply moves_creditFault | with_reducible apply moves_beatEnters | split

theorem moves_damageWord {msk : Nat} (hm : maskSub 0x10 msk = true) {a : State} {s : State} {h1 : ℕ} {u : Site} {i : ℕ} (h : Moves msk a s) : Moves msk a (damageWord s h1 u i) := by
  unfold damageWord
  repeat' first | exact maskSub_trans hm rfl | with_reducible assumption | with_reducible apply moves_setHoist | split

theorem moves_activeDamage {msk : Nat} (hm : maskSub 0x19503e msk = true) {a : State} {s : State} {h1 : ℕ} {u : Site} {i : ℕ} (h : Moves msk a s) : Moves msk a (activeDamage s h1 u i) := by
  unfold activeDamage
  repeat' first | (extract_lets +onlyGivenNames z; refine Moves.cut (m := msk) a z ?_ (fun hz => ?_) <;> [(dsimp -zeta only [z]; revert z; intro _); (clear_value z; revert z; intro _ _)]) | (extract_lets +onlyGivenNames z; revert z; intro _) | exact maskSub_trans hm rfl | with_reducible assumption | with_reducible apply moves_damageWord | with_reducible apply moves_fault | with_reducible refine Moves.foldl ?_ (fun s x h => ?_) | with_reducible exact Moves.refl _ | ((with_reducible apply Moves.ofUpdate) <;> first | with_reducible assumption | with_reducible exact fun _ => rfl | exact id | exact maskHit hm rfl | exact fun _ => rfl | exact rfl | (intro p; simpa +zetaDelta using p) | (intro p; dsimp +zetaDelta only; (repeat (first | split | (simpa using p))))) | split | (dsimp -zeta +zetaDelta only)

theorem moves_mendBoxes {msk : Nat} (hm : maskSub 0x20 msk = true) {a : State} {s : State} {mended : Site → Bool} (h : Moves msk a s) : Moves msk a (mendBoxes s mended) := by
  unfold mendBoxes
  repeat' first | exact maskSub_trans hm rfl | with_reducible assumption | ((with_reducible apply Moves.ofUpdate) <;> first | with_reducible assumption | with_reducible exact fun _ => rfl | exact id | exact maskHit hm rfl | exact fun _ => rfl | exact rfl) | split

theorem moves_contentionMended {msk : Nat} (hm : maskSub 0x20 msk = true) {a : State} {s : State} (h : Moves msk a s) : Moves msk a (contentionMended s) := by
  unfold contentionMended
  repeat' first | exact maskSub_trans hm rfl | with_reducible assumption | ((with_reducible apply Moves.ofUpdate) <;> first | with_reducible assumption | with_reducible exact fun _ => rfl | exact id | exact maskHit hm rfl | exact fun _ => rfl | exact rfl) | split

theorem moves_contentionCut {msk : Nat} (hm : maskSub 0x195dfe msk = true) {a : State} {s : State} {segment : Site} {again : Bool} (h : Moves msk a s) : Moves msk a (contentionCut s segment again) := by
  unfold contentionCut
  repeat' first | (extract_lets +onlyGivenNames z; refine Moves.cut (m := msk) a z ?_ (fun hz => ?_) <;> [(dsimp -zeta only [z]; revert z; intro _); (clear_value z; revert z; intro _ _)]) | (extract_lets +onlyGivenNames z; revert z; intro _) | exact maskSub_trans hm rfl | with_reducible assumption | with_reducible apply moves_fault | with_reducible apply moves_abortRecord | with_reducible apply moves_emptyLink | with_reducible refine Moves.foldl ?_ (fun s x h => ?_) | with_reducible exact Moves.refl _ | split | (dsimp -zeta +zetaDelta only)

theorem moves_driversDamaged {msk : Nat} (hm : maskSub 0x19503e msk = true) {a : State} {s : State} {h1 : ℕ} {segment : Site} (h : Moves msk a s) : Moves msk a (driversDamaged s h1 segment) := by
  unfold driversDamaged
  repeat' first | (extract_lets +onlyGivenNames z; refine Moves.cut (m := msk) a z ?_ (fun hz => ?_) <;> [(dsimp -zeta only [z]; revert z; intro _); (clear_value z; revert z; intro _ _)]) | (extract_lets +onlyGivenNames z; revert z; intro _) | exact maskSub_trans hm rfl | with_reducible assumption | with_reducible apply moves_activeDamage | with_reducible refine Moves.foldl ?_ (fun s x h => ?_) | with_reducible exact Moves.refl _ | split | (dsimp -zeta +zetaDelta only)

theorem moves_noteContention {msk : Nat} (hm : maskSub 0x20 msk = true) {a : State} {s : State} {segment : Site} {c : Contention} (h : Moves msk a s) : Moves msk a (noteContention s segment c) := by
  unfold noteContention
  repeat' first | exact maskSub_trans hm rfl | with_reducible assumption | ((with_reducible apply Moves.ofUpdate) <;> first | with_reducible assumption | with_reducible exact fun _ => rfl | exact id | exact maskHit hm rfl | exact fun _ => rfl | exact rfl) | split

theorem moves_execBeatSend {msk : Nat} (hm : maskSub 0x1845ef msk = true) {a : State} {producer : EndPoint} {s : State} (h : Moves msk a s) : MovesNext msk a (execBeatSend producer s) := by
  unfold execBeatSend
  repeat' first | (extract_lets +onlyGivenNames z; refine Moves.cut (m := msk) a z ?_ (fun hz => ?_) <;> [(dsimp -zeta only [z]; revert z; intro _); (clear_value z; revert z; intro _ _)]) | (extract_lets +onlyGivenNames z; revert z; intro _) | with_reducible apply movesNext_done | with_reducible apply movesNext_next | exact maskSub_trans hm rfl | with_reducible assumption | with_reducible apply moves_spanDeliver | with_reducible apply moves_done | with_reducible apply moves_advance | with_reducible apply moves_sendOnLink | with_reducible apply moves_setOutQ | with_reducible apply moves_steerBeatSent | with_reducible apply moves_tilesBeatSent | with_reducible refine Moves.foldl ?_ (fun s x h => ?_) | with_reducible exact Moves.refl _ | ((with_reducible apply Moves.ofUpdate) <;> first | with_reducible assumption | with_reducible exact fun _ => rfl | exact id | exact maskHit hm rfl | exact fun _ => rfl | exact rfl | (intro p; simpa +zetaDelta using p) | (intro p; dsimp +zetaDelta only; (repeat (first | split | (simpa using p))))) | split | (dsimp -zeta +zetaDelta only)

theorem moves_execBeatArrive {msk : Nat} (hm : maskSub 0x195dff msk = true) {a : State} {consumer : EndPoint} {upset : ArriveUpset} {s : State} (h : Moves msk a s) : MovesNext msk a (execBeatArrive consumer upset s) := by
  unfold execBeatArrive
  repeat' first | (extract_lets +onlyGivenNames z; refine Moves.cut (m := msk) a z ?_ (fun hz => ?_) <;> [(dsimp -zeta only [z]; revert z; intro _); (clear_value z; revert z; intro _ _)]) | (extract_lets +onlyGivenNames z; revert z; intro _) | with_reducible apply movesNext_done | with_reducible apply movesNext_next | exact maskSub_trans hm rfl | with_reducible assumption | with_reducible apply moves_done | with_reducible apply moves_advance | with_reducible apply moves_fifoFails | with_reducible apply moves_beatArrive | split

theorem moves_execCreditReturnArrive {msk : Nat} (hm : maskSub 0x195dff msk = true) {a : State} {producer : EndPoint} {s : State} (h : Moves msk a s) : MovesNext msk a (execCreditReturnArrive producer s) := by
  unfold execCreditReturnArrive
  repeat' first | (extract_lets +onlyGivenNames z; refine Moves.cut (m := msk) a z ?_ (fun hz => ?_) <;> [(dsimp -zeta only [z]; revert z; intro _); (clear_value z; revert z; intro _ _)]) | (extract_lets +onlyGivenNames z; revert z; intro _) | with_reducible apply movesNext_done | with_reducible apply movesNext_next | exact maskSub_trans hm rfl | with_reducible assumption | with_reducible apply moves_done | with_reducible apply moves_creditFault | with_reducible apply moves_setLink | with_reducible apply moves_advance | with_reducible apply moves_liftHold | split

theorem moves_execVoidTackLineReceive {msk : Nat} (hm : maskSub 0x1955fe msk = true) {a : State} {input : EndPoint} {stream : ℕ} {s : State} (h : Moves msk a s) : MovesNext msk a (execVoidTackLineReceive input stream s) := by
  unfold execVoidTackLineReceive
  repeat' first | (extract_lets +onlyGivenNames z; refine Moves.cut (m := msk) a z ?_ (fun hz => ?_) <;> [(dsimp -zeta only [z]; revert z; intro _); (clear_value z; revert z; intro _ _)]) | (extract_lets +onlyGivenNames z; revert z; intro _) | with_reducible apply movesNext_done | with_reducible apply movesNext_next | exact maskSub_trans hm rfl | with_reducible assumption | with_reducible apply moves_done | with_reducible apply moves_tileFrameDrop | with_reducible apply moves_steerDrop | with_reducible apply moves_resultVoid | with_reducible refine Moves.foldl ?_ (fun s x h => ?_) | with_reducible exact Moves.refl _ | split | (dsimp -zeta +zetaDelta only)

theorem moves_execSegmentContention {msk : Nat} (hm : maskSub 0x195dfe msk = true) {a : State} {segment : Site} {s : State} (h : Moves msk a s) : MovesNext msk a (execSegmentContention segment s) := by
  unfold execSegmentContention
  repeat' first | (extract_lets +onlyGivenNames z; refine Moves.cut (m := msk) a z ?_ (fun hz => ?_) <;> [(dsimp -zeta only [z]; revert z; intro _); (clear_value z; revert z; intro _ _)]) | (extract_lets +onlyGivenNames z; revert z; intro _) | with_reducible apply movesNext_done | with_reducible apply movesNext_next | exact maskSub_trans hm rfl | with_reducible assumption | with_reducible apply moves_done | with_reducible apply moves_driversDamaged | with_reducible apply moves_noteContention | with_reducible apply moves_contentionCut | with_reducible apply moves_fault | with_reducible refine Moves.foldl ?_ (fun s x h => ?_) | with_reducible exact Moves.refl _ | ((with_reducible apply Moves.ofUpdate) <;> first | with_reducible assumption | with_reducible exact fun _ => rfl | exact id | exact maskHit hm rfl | exact fun _ => rfl | exact rfl | (intro p; simpa +zetaDelta using p) | (intro p; dsimp +zetaDelta only; (repeat (first | split | (simpa using p))))) | split | (dsimp -zeta +zetaDelta only)

end Sys2Proof.Machine
end

