-- ==== Sys2Proof/Laws/MovesHoists.lean ====
section
/-! SUPPORT. `Moves` for the operations of Machine/Hoists.lean. -/

set_option linter.unusedTactic false
set_option linter.unreachableTactic false
set_option linter.tactic.unusedName false

namespace Sys2Proof.Machine

theorem moves_moveHoist {msk : Nat} (hm : maskSub 0x1e msk = true) {a : State} {s : State} {h1 : ℕ} {x : HoistState} (h : Moves msk a s) : Moves msk a (moveHoist s h1 x) := by
  unfold moveHoist
  repeat' first | exact maskSub_trans hm rfl | with_reducible assumption | with_reducible apply moves_postDev | with_reducible apply moves_setHoist | split

theorem moves_hoistArmTarget {msk : Nat} (hm : maskSub 0x1e msk = true) {a : State} {s : State} {p : Packet} (h : Moves msk a s) : MovesVerdict msk a (hoistArmTarget s p) := by
  unfold hoistArmTarget
  repeat' first | (extract_lets +onlyGivenNames z; refine Moves.cut (m := msk) a z ?_ (fun hz => ?_) <;> [(dsimp -zeta only [z]; revert z; intro _); (clear_value z; revert z; intro _ _)]) | (extract_lets +onlyGivenNames z; revert z; intro _) | with_reducible apply movesVerdict_finish | with_reducible apply movesVerdict_pend | exact maskSub_trans hm rfl | with_reducible assumption | with_reducible apply moves_refuse | with_reducible apply moves_moveHoist | with_reducible apply moves_okAt | with_reducible refine Moves.foldl ?_ (fun s x h => ?_) | with_reducible exact Moves.refl _ | split | (dsimp -zeta +zetaDelta only)

theorem moves_shareHoist {msk : Nat} (hm : maskSub 0x800 msk = true) {a : State} {s : State} {source : ℕ} {h1 : ℕ} (h : Moves msk a s) : Moves msk a (shareHoist s source h1) := by
  unfold shareHoist
  repeat' first | exact maskSub_trans hm rfl | with_reducible assumption | ((with_reducible apply Moves.ofUpdate) <;> first | with_reducible assumption | with_reducible exact fun _ => rfl | exact id | exact maskHit hm rfl | exact fun _ => rfl | exact rfl) | split

theorem moves_hoistArmMirror {msk : Nat} (hm : maskSub 0x81e msk = true) {a : State} {s : State} {p : Packet} (h : Moves msk a s) : MovesVerdict msk a (hoistArmMirror s p) := by
  unfold hoistArmMirror
  repeat' first | (extract_lets +onlyGivenNames z; refine Moves.cut (m := msk) a z ?_ (fun hz => ?_) <;> [(dsimp -zeta only [z]; revert z; intro _); (clear_value z; revert z; intro _ _)]) | (extract_lets +onlyGivenNames z; revert z; intro _) | with_reducible apply movesVerdict_finish | with_reducible apply movesVerdict_pend | exact maskSub_trans hm rfl | with_reducible assumption | with_reducible apply moves_refuse | with_reducible apply moves_moveHoist | with_reducible apply moves_setHoist | with_reducible apply moves_shareHoist | with_reducible apply moves_addJobs | with_reducible refine Moves.foldl ?_ (fun s x h => ?_) | with_reducible exact Moves.refl _ | ((with_reducible apply Moves.ofUpdate) <;> first | with_reducible assumption | with_reducible exact fun _ => rfl | exact id | exact maskHit hm rfl | exact fun _ => rfl | exact rfl | (intro p; simpa +zetaDelta using p) | (intro p; dsimp +zetaDelta only; (repeat (first | split | (simpa using p))))) | split | (dsimp -zeta +zetaDelta only)

theorem moves_releaseImage {msk : Nat} (hm : maskSub 0x810 msk = true) {a : State} {s : State} {handle : ℕ} (h : Moves msk a s) : Moves msk a (releaseImage s handle) := by
  unfold releaseImage
  repeat' first | exact maskSub_trans hm rfl | with_reducible assumption | ((with_reducible apply Moves.ofUpdate) <;> first | with_reducible assumption | with_reducible exact fun _ => rfl | exact id | exact maskHit hm rfl | exact fun _ => rfl | exact rfl) | split

theorem moves_freeHoist {msk : Nat} (hm : maskSub 0x81e msk = true) {a : State} {s : State} {h1 : ℕ} (h : Moves msk a s) : Moves msk a (freeHoist s h1) := by
  unfold freeHoist
  repeat' first | (extract_lets +onlyGivenNames z; refine Moves.cut (m := msk) a z ?_ (fun hz => ?_) <;> [(dsimp -zeta only [z]; revert z; intro _); (clear_value z; revert z; intro _ _)]) | (extract_lets +onlyGivenNames z; revert z; intro _) | exact maskSub_trans hm rfl | with_reducible assumption | with_reducible apply moves_moveHoist | with_reducible apply moves_setHoist | with_reducible refine Moves.foldl ?_ (fun s x h => ?_) | with_reducible exact Moves.refl _ | ((with_reducible apply Moves.ofUpdate) <;> first | with_reducible assumption | with_reducible exact fun _ => rfl | exact id | exact maskHit hm rfl | exact fun _ => rfl | exact rfl | (intro p; simpa +zetaDelta using p) | (intro p; dsimp +zetaDelta only; (repeat (first | split | (simpa using p))))) | split | (dsimp -zeta +zetaDelta only)

theorem moves_hoistRelease {msk : Nat} (hm : maskSub 0x81e msk = true) {a : State} {s : State} {p : Packet} (h : Moves msk a s) : MovesVerdict msk a (hoistRelease s p) := by
  unfold hoistRelease
  repeat' first | (extract_lets +onlyGivenNames z; refine Moves.cut (m := msk) a z ?_ (fun hz => ?_) <;> [(dsimp -zeta only [z]; revert z; intro _); (clear_value z; revert z; intro _ _)]) | (extract_lets +onlyGivenNames z; revert z; intro _) | with_reducible apply movesVerdict_finish | with_reducible apply movesVerdict_pend | exact maskSub_trans hm rfl | with_reducible assumption | with_reducible apply moves_refuse | with_reducible apply moves_freeHoist | with_reducible apply moves_okAt | with_reducible apply moves_releaseImage | split

theorem moves_hoistReleaseImageOnly {msk : Nat} (hm : maskSub 0x810 msk = true) {a : State} {s : State} {p : Packet} (h : Moves msk a s) : MovesVerdict msk a (hoistReleaseImageOnly s p) := by
  unfold hoistReleaseImageOnly
  repeat' first | (extract_lets +onlyGivenNames z; refine Moves.cut (m := msk) a z ?_ (fun hz => ?_) <;> [(dsimp -zeta only [z]; revert z; intro _); (clear_value z; revert z; intro _ _)]) | (extract_lets +onlyGivenNames z; revert z; intro _) | with_reducible apply movesVerdict_finish | with_reducible apply movesVerdict_pend | exact maskSub_trans hm rfl | with_reducible assumption | with_reducible apply moves_refuse | with_reducible apply moves_okAt | with_reducible apply moves_releaseImage | split

theorem moves_hoistSwitch {msk : Nat} (hm : maskSub 0x10 msk = true) {a : State} {s : State} {p : Packet} (h : Moves msk a s) : MovesVerdict msk a (hoistSwitch s p) := by
  unfold hoistSwitch
  repeat' first | (extract_lets +onlyGivenNames z; refine Moves.cut (m := msk) a z ?_ (fun hz => ?_) <;> [(dsimp -zeta only [z]; revert z; intro _); (clear_value z; revert z; intro _ _)]) | (extract_lets +onlyGivenNames z; revert z; intro _) | with_reducible apply movesVerdict_finish | with_reducible apply movesVerdict_pend | exact maskSub_trans hm rfl | with_reducible assumption | with_reducible apply moves_refuse | with_reducible refine Moves.foldl ?_ (fun s x h => ?_) | with_reducible exact Moves.refl _ | ((with_reducible apply Moves.ofUpdate) <;> first | with_reducible assumption | with_reducible exact fun _ => rfl | exact id | exact maskHit hm rfl | exact fun _ => rfl | exact rfl | (intro p; simpa +zetaDelta using p) | (intro p; dsimp +zetaDelta only; (repeat (first | split | (simpa using p))))) | split | (dsimp -zeta +zetaDelta only)

theorem moves_cutFrame {msk : Nat} (hm : maskSub 0x19501e msk = true) {a : State} {s : State} {code : ℕ} {st : ℕ} {frame : ℕ} (h : Moves msk a s) : Moves msk a (cutFrame s code st frame) := by
  unfold cutFrame
  repeat' first | (extract_lets +onlyGivenNames z; refine Moves.cut (m := msk) a z ?_ (fun hz => ?_) <;> [(dsimp -zeta only [z]; revert z; intro _); (clear_value z; revert z; intro _ _)]) | (extract_lets +onlyGivenNames z; revert z; intro _) | exact maskSub_trans hm rfl | with_reducible assumption | with_reducible apply moves_abortRecord | with_reducible apply moves_traceNow | with_reducible apply moves_modStream | with_reducible apply moves_removeFrame | with_reducible apply moves_endResults | split

theorem moves_unbindTiles {msk : Nat} (hm : maskSub 0x18004e msk = true) {a : State} {s : State} {code : ℕ} (h : Moves msk a s) : Moves msk a (unbindTiles s code) := by
  unfold unbindTiles
  repeat' first | (extract_lets +onlyGivenNames z; refine Moves.cut (m := msk) a z ?_ (fun hz => ?_) <;> [(dsimp -zeta only [z]; revert z; intro _); (clear_value z; revert z; intro _ _)]) | (extract_lets +onlyGivenNames z; revert z; intro _) | exact maskSub_trans hm rfl | with_reducible assumption | with_reducible apply moves_tileUnbind | with_reducible apply moves_traceNow | with_reducible refine Moves.foldl ?_ (fun s x h => ?_) | with_reducible exact Moves.refl _ | split | (dsimp -zeta +zetaDelta only)

theorem moves_clearTiles {msk : Nat} (hm : maskSub 0x1c0 msk = true) {a : State} {s : State} (h : Moves msk a s) : Moves msk a (clearTiles s) := by
  unfold clearTiles
  repeat' first | (extract_lets +onlyGivenNames z; refine Moves.cut (m := msk) a z ?_ (fun hz => ?_) <;> [(dsimp -zeta only [z]; revert z; intro _); (clear_value z; revert z; intro _ _)]) | (extract_lets +onlyGivenNames z; revert z; intro _) | exact maskSub_trans hm rfl | with_reducible assumption | with_reducible refine Moves.foldl ?_ (fun s x h => ?_) | with_reducible exact Moves.refl _ | ((with_reducible apply Moves.ofUpdate) <;> first | with_reducible assumption | with_reducible exact fun _ => rfl | exact id | exact maskHit hm rfl | exact fun _ => rfl | exact rfl | (intro p; simpa +zetaDelta using p) | (intro p; dsimp +zetaDelta only; (repeat (first | split | (simpa using p))))) | split | (dsimp -zeta +zetaDelta only)

theorem moves_clearGlue {msk : Nat} (hm : maskSub 0x200 msk = true) {a : State} {s : State} (h : Moves msk a s) : Moves msk a (clearGlue s) := by
  unfold clearGlue
  repeat' first | (extract_lets +onlyGivenNames z; refine Moves.cut (m := msk) a z ?_ (fun hz => ?_) <;> [(dsimp -zeta only [z]; revert z; intro _); (clear_value z; revert z; intro _ _)]) | (extract_lets +onlyGivenNames z; revert z; intro _) | exact maskSub_trans hm rfl | with_reducible assumption | with_reducible apply moves_setGlue | with_reducible refine Moves.foldl ?_ (fun s x h => ?_) | with_reducible exact Moves.refl _ | split | (dsimp -zeta +zetaDelta only)

theorem moves_startQueues {msk : Nat} (hm : maskSub 0x800 msk = true) {a : State} {s : State} (h : Moves msk a s) : Moves msk a (startQueues s) := by
  unfold startQueues
  repeat' first | (extract_lets +onlyGivenNames z; refine Moves.cut (m := msk) a z ?_ (fun hz => ?_) <;> [(dsimp -zeta only [z]; revert z; intro _); (clear_value z; revert z; intro _ _)]) | (extract_lets +onlyGivenNames z; revert z; intro _) | exact maskSub_trans hm rfl | with_reducible assumption | with_reducible apply moves_activateQueue | with_reducible refine Moves.foldl ?_ (fun s x h => ?_) | with_reducible exact Moves.refl _ | ((with_reducible apply Moves.ofUpdate) <;> first | with_reducible assumption | with_reducible exact fun _ => rfl | exact id | exact maskHit hm rfl | exact fun _ => rfl | exact rfl | (intro p; simpa +zetaDelta using p) | (intro p; dsimp +zetaDelta only; (repeat (first | split | (simpa using p))))) | split | (dsimp -zeta +zetaDelta only)

theorem moves_flushFabric {msk : Nat} (hm : maskSub 0x195ffe msk = true) {a : State} {s : State} {code : ℕ} {gone : List (ℕ × ℕ)} {after : StreamCtx → StreamCtx} (h : Moves msk a s) : Moves msk a (flushFabric s code gone after) := by
  unfold flushFabric
  repeat' first | (extract_lets +onlyGivenNames z; refine Moves.cut (m := msk) a z ?_ (fun hz => ?_) <;> [(dsimp -zeta only [z]; revert z; intro _); (clear_value z; revert z; intro _ _)]) | (extract_lets +onlyGivenNames z; revert z; intro _) | exact maskSub_trans hm rfl | with_reducible assumption | with_reducible apply moves_clearTiles | with_reducible apply moves_cutFrame | with_reducible apply moves_startQueues | with_reducible apply moves_clearGlue | with_reducible refine Moves.foldl ?_ (fun s x h => ?_) | with_reducible exact Moves.refl _ | ((with_reducible apply Moves.ofUpdate) <;> first | with_reducible assumption | with_reducible exact fun _ => rfl | exact id | exact maskHit hm rfl | exact fun _ => rfl | exact rfl | (intro p; simpa +zetaDelta using p) | (intro p; dsimp +zetaDelta only; (repeat (first | split | (simpa using p))))) | split | (dsimp -zeta +zetaDelta only)

theorem moves_boundaryFlush {msk : Nat} (hm : maskSub 0x195ffe msk = true) {a : State} {s : State} {code : ℕ} {gone : List (ℕ × ℕ)} (h : Moves msk a s) : Moves msk a (boundaryFlush s code gone) := by
  unfold boundaryFlush
  repeat' first | (extract_lets +onlyGivenNames z; refine Moves.cut (m := msk) a z ?_ (fun hz => ?_) <;> [(dsimp -zeta only [z]; revert z; intro _); (clear_value z; revert z; intro _ _)]) | (extract_lets +onlyGivenNames z; revert z; intro _) | exact maskSub_trans hm rfl | with_reducible assumption | with_reducible apply moves_flushFabric | with_reducible apply moves_spanBoundary | with_reducible refine Moves.foldl ?_ (fun s x h => ?_) | with_reducible exact Moves.refl _ | split | (dsimp -zeta +zetaDelta only)

theorem moves_clearBoard {msk : Nat} (hm : maskSub 0xc0 msk = true) {a : State} {s : State} {u : Site} (h : Moves msk a s) : Moves msk a (clearBoard s u) := by
  unfold clearBoard
  repeat' first | exact maskSub_trans hm rfl | with_reducible assumption | with_reducible apply moves_setTile | with_reducible apply moves_setVtile | split

theorem moves_cutElement {msk : Nat} (hm : maskSub 0x195dfe msk = true) {a : State} {s : State} {u : Site} (h : Moves msk a s) : Moves msk a (cutElement s u) := by
  unfold cutElement
  repeat' first | (extract_lets +onlyGivenNames z; refine Moves.cut (m := msk) a z ?_ (fun hz => ?_) <;> [(dsimp -zeta only [z]; revert z; intro _); (clear_value z; revert z; intro _ _)]) | (extract_lets +onlyGivenNames z; revert z; intro _) | exact maskSub_trans hm rfl | with_reducible assumption | with_reducible apply moves_fault | with_reducible apply moves_tilesGiveUp | with_reducible apply moves_abortRecord | with_reducible apply moves_clearBoard | with_reducible apply moves_tileFrameDrop | with_reducible apply moves_elementDrop | with_reducible apply moves_returnCredits | with_reducible apply moves_setInBuf | with_reducible apply moves_setTile | with_reducible refine Moves.foldl ?_ (fun s x h => ?_) | with_reducible exact Moves.refl _ | split | (dsimp -zeta +zetaDelta only)

theorem moves_cutLink {msk : Nat} (hm : maskSub 0x195dfe msk = true) {a : State} {s : State} {h1 : ℕ} {k : ℕ} {producer : EndPoint} (h : Moves msk a s) : Moves msk a (cutLink s h1 k producer) := by
  unfold cutLink
  repeat' first | (extract_lets +onlyGivenNames z; refine Moves.cut (m := msk) a z ?_ (fun hz => ?_) <;> [(dsimp -zeta only [z]; revert z; intro _); (clear_value z; revert z; intro _ _)]) | (extract_lets +onlyGivenNames z; revert z; intro _) | exact maskSub_trans hm rfl | with_reducible assumption | with_reducible apply moves_fault | with_reducible apply moves_abortRecord | with_reducible apply moves_emptyLink | with_reducible refine Moves.foldl ?_ (fun s x h => ?_) | with_reducible exact Moves.refl _ | ((with_reducible apply Moves.ofUpdate) <;> first | with_reducible assumption | with_reducible exact fun _ => rfl | exact id | exact maskHit hm rfl | exact fun _ => rfl | exact rfl | (intro p; simpa +zetaDelta using p) | (intro p; dsimp +zetaDelta only; (repeat (first | split | (simpa using p))))) | split | (dsimp -zeta +zetaDelta only)

theorem moves_cutSteering {msk : Nat} (hm : maskSub 0x19543e msk = true) {a : State} {s : State} {h1 : ℕ} {k : ℕ} {u : Site} (h : Moves msk a s) : Moves msk a (cutSteering s h1 k u) := by
  unfold cutSteering
  repeat' first | (extract_lets +onlyGivenNames z; refine Moves.cut (m := msk) a z ?_ (fun hz => ?_) <;> [(dsimp -zeta only [z]; revert z; intro _); (clear_value z; revert z; intro _ _)]) | (extract_lets +onlyGivenNames z; revert z; intro _) | exact maskSub_trans hm rfl | with_reducible assumption | with_reducible apply moves_steerDrop | with_reducible apply moves_abortRecord | with_reducible apply moves_setSteer | with_reducible refine Moves.foldl ?_ (fun s x h => ?_) | with_reducible exact Moves.refl _ | split | (dsimp -zeta +zetaDelta only)

theorem moves_leaveQueues {msk : Nat} (hm : maskSub 0x195c7e msk = true) {a : State} {s : State} {h1 : ℕ} {k : ℕ} (h : Moves msk a s) : Moves msk a (leaveQueues s h1 k) := by
  unfold leaveQueues
  repeat' first | (extract_lets +onlyGivenNames z; refine Moves.cut (m := msk) a z ?_ (fun hz => ?_) <;> [(dsimp -zeta only [z]; revert z; intro _); (clear_value z; revert z; intro _ _)]) | (extract_lets +onlyGivenNames z; revert z; intro _) | exact maskSub_trans hm rfl | with_reducible assumption | with_reducible apply moves_cutQueue | with_reducible apply moves_setQueue | with_reducible refine Moves.foldl ?_ (fun s x h => ?_) | with_reducible exact Moves.refl _ | split | (dsimp -zeta +zetaDelta only)

theorem moves_forgetSection {msk : Nat} (hm : maskSub 0x20 msk = true) {a : State} {s : State} (h : Moves msk a s) : Moves msk a (forgetSection s) := by
  unfold forgetSection
  repeat' first | exact maskSub_trans hm rfl | with_reducible assumption | ((with_reducible apply Moves.ofUpdate) <;> first | with_reducible assumption | with_reducible exact fun _ => rfl | exact id | exact maskHit hm rfl | exact fun _ => rfl | exact rfl) | split

theorem moves_sectionCut {msk : Nat} (hm : maskSub 0x195dfe msk = true) {a : State} {s : State} {h1 : ℕ} {k : ℕ} (h : Moves msk a s) : Moves msk a (sectionCut s h1 k) := by
  unfold sectionCut
  repeat' first | (extract_lets +onlyGivenNames z; refine Moves.cut (m := msk) a z ?_ (fun hz => ?_) <;> [(dsimp -zeta only [z]; revert z; intro _); (clear_value z; revert z; intro _ _)]) | (extract_lets +onlyGivenNames z; revert z; intro _) | exact maskSub_trans hm rfl | with_reducible assumption | with_reducible apply moves_cutElement | with_reducible apply moves_cutSteering | with_reducible apply moves_leaveQueues | with_reducible apply moves_spanCut | with_reducible apply moves_cutLink | with_reducible refine Moves.foldl ?_ (fun s x h => ?_) | with_reducible exact Moves.refl _ | split | (dsimp -zeta +zetaDelta only)

theorem moves_sectionQueues {msk : Nat} (hm : maskSub 0x800 msk = true) {a : State} {s : State} {h1 : ℕ} {k : ℕ} (h : Moves msk a s) : Moves msk a (sectionQueues s h1 k) := by
  unfold sectionQueues
  repeat' first | (extract_lets +onlyGivenNames z; refine Moves.cut (m := msk) a z ?_ (fun hz => ?_) <;> [(dsimp -zeta only [z]; revert z; intro _); (clear_value z; revert z; intro _ _)]) | (extract_lets +onlyGivenNames z; revert z; intro _) | exact maskSub_trans hm rfl | with_reducible assumption | with_reducible apply moves_activateQueue | with_reducible refine Moves.foldl ?_ (fun s x h => ?_) | with_reducible exact Moves.refl _ | split | (dsimp -zeta +zetaDelta only)

theorem moves_dropStrayOuts {msk : Nat} (hm : maskSub 0x20 msk = true) {a : State} {s : State} (h : Moves msk a s) : Moves msk a (dropStrayOuts s) := by
  unfold dropStrayOuts
  repeat' first | (extract_lets +onlyGivenNames z; refine Moves.cut (m := msk) a z ?_ (fun hz => ?_) <;> [(dsimp -zeta only [z]; revert z; intro _); (clear_value z; revert z; intro _ _)]) | (extract_lets +onlyGivenNames z; revert z; intro _) | exact maskSub_trans hm rfl | with_reducible assumption | with_reducible apply moves_setOutQ | with_reducible refine Moves.foldl ?_ (fun s x h => ?_) | with_reducible exact Moves.refl _ | split | (dsimp -zeta +zetaDelta only)

theorem moves_releaseHeldUnits {msk : Nat} (hm : maskSub 0x20 msk = true) {a : State} {s : State} {h1 : ℕ} (h : Moves msk a s) : Moves msk a (releaseHeldUnits s h1) := by
  unfold releaseHeldUnits
  repeat' first | exact maskSub_trans hm rfl | with_reducible assumption | with_reducible apply moves_contentionMended | with_reducible apply moves_mendBoxes | ((with_reducible apply Moves.ofUpdate) <;> first | with_reducible assumption | with_reducible exact fun _ => rfl | exact id | exact maskHit hm rfl | exact fun _ => rfl | exact rfl) | split

theorem moves_switchStates {msk : Nat} (hm : maskSub 0x1e msk = true) {a : State} {s : State} {target : ℕ} {auto : Bool} (h : Moves msk a s) : Moves msk a (switchStates s target auto) := by
  unfold switchStates
  repeat' first | (extract_lets +onlyGivenNames z; refine Moves.cut (m := msk) a z ?_ (fun hz => ?_) <;> [(dsimp -zeta only [z]; revert z; intro _); (clear_value z; revert z; intro _ _)]) | (extract_lets +onlyGivenNames z; revert z; intro _) | exact maskSub_trans hm rfl | with_reducible assumption | with_reducible apply moves_moveHoist | with_reducible apply moves_setHoist | with_reducible refine Moves.foldl ?_ (fun s x h => ?_) | with_reducible exact Moves.refl _ | ((with_reducible apply Moves.ofUpdate) <;> first | with_reducible assumption | with_reducible exact fun _ => rfl | exact id | exact maskHit hm rfl | exact fun _ => rfl | exact rfl | (intro p; simpa +zetaDelta using p) | (intro p; dsimp +zetaDelta only; (repeat (first | split | (simpa using p))))) | split | (dsimp -zeta +zetaDelta only)

theorem moves_unservedStreams {msk : Nat} (hm : maskSub 0x100e msk = true) {a : State} {s : State} (h : Moves msk a s) : Moves msk a (unservedStreams s) := by
  unfold unservedStreams
  repeat' first | (extract_lets +onlyGivenNames z; refine Moves.cut (m := msk) a z ?_ (fun hz => ?_) <;> [(dsimp -zeta only [z]; revert z; intro _); (clear_value z; revert z; intro _ _)]) | (extract_lets +onlyGivenNames z; revert z; intro _) | exact maskSub_trans hm rfl | with_reducible assumption | with_reducible apply moves_moveStream | with_reducible refine Moves.foldl ?_ (fun s x h => ?_) | with_reducible exact Moves.refl _ | split | (dsimp -zeta +zetaDelta only)

theorem moves_newBatch {msk : Nat} (hm : maskSub 0x1000 msk = true) {a : State} {s : State} (h : Moves msk a s) : Moves msk a (newBatch s) := by
  unfold newBatch
  repeat' first | (extract_lets +onlyGivenNames z; refine Moves.cut (m := msk) a z ?_ (fun hz => ?_) <;> [(dsimp -zeta only [z]; revert z; intro _); (clear_value z; revert z; intro _ _)]) | (extract_lets +onlyGivenNames z; revert z; intro _) | exact maskSub_trans hm rfl | with_reducible assumption | with_reducible refine Moves.foldl ?_ (fun s x h => ?_) | with_reducible exact Moves.refl _ | ((with_reducible apply Moves.ofUpdate) <;> first | with_reducible assumption | with_reducible exact fun _ => rfl | exact id | exact maskHit hm rfl | exact fun _ => rfl | exact rfl | (intro p; simpa +zetaDelta using p) | (intro p; dsimp +zetaDelta only; (repeat (first | split | (simpa using p))))) | split | (dsimp -zeta +zetaDelta only)

theorem moves_switchLeaves {msk : Nat} (hm : maskSub 0x195dfe msk = true) {a : State} {s : State} {target : ℕ} {boundary : Bool} (h : Moves msk a s) : Moves msk a (switchLeaves s target boundary) := by
  unfold switchLeaves
  repeat' first | exact maskSub_trans hm rfl | with_reducible assumption | with_reducible apply moves_unbindTiles | with_reducible apply moves_sectionCut | split

theorem moves_switchEnters {msk : Nat} (hm : maskSub 0x195ffe msk = true) {a : State} {s : State} {before : Option ℕ} {same : Bool} {boundary : Bool} {target : ℕ} {gone : List (ℕ × ℕ)} (h : Moves msk a s) : Moves msk a (switchEnters s before same boundary target gone) := by
  unfold switchEnters
  repeat' first | (extract_lets +onlyGivenNames z; refine Moves.cut (m := msk) a z ?_ (fun hz => ?_) <;> [(dsimp -zeta only [z]; revert z; intro _); (clear_value z; revert z; intro _ _)]) | (extract_lets +onlyGivenNames z; revert z; intro _) | exact maskSub_trans hm rfl | with_reducible assumption | with_reducible apply moves_boundaryFlush | with_reducible apply moves_dropStrayOuts | with_reducible apply moves_forgetSection | with_reducible apply moves_sectionQueues | with_reducible apply moves_newBatch | split

theorem moves_landSwitch {msk : Nat} (hm : maskSub 0x195ffe msk = true) {a : State} {s : State} {target : ℕ} {boundary : Bool} {auto : Bool} (h : Moves msk a s) : Moves msk a (landSwitch s target boundary auto) := by
  unfold landSwitch
  repeat' first | exact maskSub_trans hm rfl | with_reducible assumption | with_reducible apply moves_switchLeaves | with_reducible apply moves_switchStates | with_reducible apply moves_releaseHeldUnits | with_reducible apply moves_postDev | with_reducible apply moves_traceNow | with_reducible apply moves_switchEnters | with_reducible apply moves_syncAllHolds | with_reducible apply moves_unservedStreams | ((with_reducible apply Moves.ofUpdate) <;> first | with_reducible assumption | with_reducible exact fun _ => rfl | exact id | exact maskHit hm rfl | exact fun _ => rfl | exact rfl) | split

theorem moves_withHoists {msk : Nat} (hm : maskSub 0x10 msk = true) {a : State} {s : State} {hoists : List Hoist} {active : Option ℕ} (h : Moves msk a s) : Moves msk a (withHoists s hoists active) := by
  unfold withHoists
  exact h.trans ⟨⟨rfl, Nat.le_refl _, id, SecKeeps.refl _, fun p => by constructor <;> first | exact p.1 | exact p.2 | exact p.3 | exact p.4 | exact p.5 | exact p.6 | exact p.7 | exact p.8 | exact p.9 | exact p.10 | exact p.11 | exact p.12 | exact p.13 | exact p.14 | simp⟩, by constructor <;> first | exact fun _ => rfl | exact maskHit hm rfl⟩

theorem moves_lateSwitches {msk : Nat} (hm : maskSub 0x195ffe msk = true) {a s : State} {l : List LateSwitch} (h : Moves msk a s) : Moves msk a (lateSwitches s l) := by
  induction l generalizing s with
  | nil => exact h
  | cons w rest ih =>
    unfold lateSwitches
    exact ih (moves_withHoists (maskSub_trans hm rfl) (moves_switchEnters (maskSub_trans hm rfl) (moves_withHoists (maskSub_trans hm rfl)
      (moves_switchLeaves (maskSub_trans hm rfl) (moves_withHoists (maskSub_trans hm rfl) h)))))

theorem moves_tellRecovery {msk : Nat} (hm : maskSub 0x19501e msk = true) {a : State} {s : State} {code : ℕ} {a1 : AutoSwitch} (h : Moves msk a s) : Moves msk a (tellRecovery s code a1) := by
  unfold tellRecovery
  repeat' first | (extract_lets +onlyGivenNames z; refine Moves.cut (m := msk) a z ?_ (fun hz => ?_) <;> [(dsimp -zeta only [z]; revert z; intro _); (clear_value z; revert z; intro _ _)]) | (extract_lets +onlyGivenNames z; revert z; intro _) | exact maskSub_trans hm rfl | with_reducible assumption | with_reducible apply moves_faultAt | with_reducible apply moves_fireSource | with_reducible refine Moves.foldl ?_ (fun s x h => ?_) | with_reducible exact Moves.refl _ | ((with_reducible apply Moves.ofUpdate) <;> first | with_reducible assumption | with_reducible exact fun _ => rfl | exact id | exact maskHit hm rfl | exact fun _ => rfl | exact rfl | (intro p; simpa +zetaDelta using p) | (intro p; dsimp +zetaDelta only; (repeat (first | split | (simpa using p))))) | split | (dsimp -zeta +zetaDelta only)

theorem moves_cancelAuto {msk : Nat} (hm : maskSub 0x19501e msk = true) {a : State} {s : State} (h : Moves msk a s) : Moves msk a (cancelAuto s) := by
  unfold cancelAuto
  repeat' first | exact maskSub_trans hm rfl | with_reducible assumption | with_reducible apply moves_tellRecovery | ((with_reducible apply Moves.ofUpdate) <;> first | with_reducible assumption | with_reducible exact fun _ => rfl | exact id | exact maskHit hm rfl | exact fun _ => rfl | exact rfl) | split

theorem moves_idleDamage {msk : Nat} (hm : maskSub 0x19501e msk = true) {a : State} {s : State} {h1 : ℕ} {u : Site} {i : ℕ} (h : Moves msk a s) : Moves msk a (idleDamage s h1 u i) := by
  unfold idleDamage
  repeat' first | (extract_lets +onlyGivenNames z; refine Moves.cut (m := msk) a z ?_ (fun hz => ?_) <;> [(dsimp -zeta only [z]; revert z; intro _); (clear_value z; revert z; intro _ _)]) | (extract_lets +onlyGivenNames z; revert z; intro _) | exact maskSub_trans hm rfl | with_reducible assumption | with_reducible apply moves_fault | with_reducible apply moves_damageWord | with_reducible apply moves_moveHoist | with_reducible apply moves_setHoist | with_reducible apply moves_cancelAuto | split

theorem moves_elementMended {msk : Nat} (hm : maskSub 0x20 msk = true) {a : State} {s : State} {u : Site} (h : Moves msk a s) : Moves msk a (elementMended s u) := by
  unfold elementMended
  repeat' first | exact maskSub_trans hm rfl | with_reducible assumption | with_reducible apply moves_contentionMended | with_reducible apply moves_mendBoxes | ((with_reducible apply Moves.ofUpdate) <;> first | with_reducible assumption | with_reducible exact fun _ => rfl | exact id | exact maskHit hm rfl | exact fun _ => rfl | exact rfl) | split

theorem moves_unitStops {msk : Nat} (hm : maskSub 0x195dfe msk = true) {a : State} {s : State} {u : Site} (h : Moves msk a s) : Moves msk a (unitStops s u) := by
  unfold unitStops
  repeat' first | exact maskSub_trans hm rfl | with_reducible assumption | with_reducible apply moves_steerAbortAll | with_reducible apply moves_portAbortAll | with_reducible apply moves_tilesAbortAll | split

theorem moves_execHoistArmTarget {msk : Nat} (hm : maskSub 0x18001e msk = true) {a : State} {c : HostCmd} {s : State} (h : Moves msk a s) : MovesNext msk a (execHoistArmTarget c s) := by
  unfold execHoistArmTarget
  repeat' first | with_reducible apply movesNext_done | with_reducible apply movesNext_next | with_reducible apply movesVerdict_finish | with_reducible apply movesVerdict_pend | exact maskSub_trans hm rfl | with_reducible assumption | intro _ _ _ | with_reducible apply moves_takeCmd | with_reducible apply moves_hoistArmTarget | split

theorem moves_execHoistArmMirror {msk : Nat} (hm : maskSub 0x18081e msk = true) {a : State} {c : HostCmd} {s : State} (h : Moves msk a s) : MovesNext msk a (execHoistArmMirror c s) := by
  unfold execHoistArmMirror
  repeat' first | with_reducible apply movesNext_done | with_reducible apply movesNext_next | with_reducible apply movesVerdict_finish | with_reducible apply movesVerdict_pend | exact maskSub_trans hm rfl | with_reducible assumption | intro _ _ _ | with_reducible apply moves_takeCmd | with_reducible apply moves_hoistArmMirror | split

theorem moves_execMirrorCopyDone {msk : Nat} (hm : maskSub 0x18001e msk = true) {a : State} {s : State} (h : Moves msk a s) : MovesNext msk a (execMirrorCopyDone s) := by
  unfold execMirrorCopyDone
  repeat' first | with_reducible apply movesNext_done | with_reducible apply movesNext_next | exact maskSub_trans hm rfl | with_reducible assumption | with_reducible apply moves_done | with_reducible apply moves_setHoist | with_reducible apply moves_finishFirst | with_reducible apply moves_moveHoist | ((with_reducible apply Moves.ofUpdate) <;> first | with_reducible assumption | with_reducible exact fun _ => rfl | exact id | exact maskHit hm rfl | exact fun _ => rfl | exact rfl) | split

theorem moves_execHoistRelease {msk : Nat} (hm : maskSub 0x18081e msk = true) {a : State} {c : HostCmd} {s : State} (h : Moves msk a s) : MovesNext msk a (execHoistRelease c s) := by
  unfold execHoistRelease
  repeat' first | with_reducible apply movesNext_done | with_reducible apply movesNext_next | with_reducible apply movesVerdict_finish | with_reducible apply movesVerdict_pend | exact maskSub_trans hm rfl | with_reducible assumption | intro _ _ _ | with_reducible apply moves_takeCmd | with_reducible apply moves_hoistRelease | split

theorem moves_execHoistReleaseImageOnly {msk : Nat} (hm : maskSub 0x18081e msk = true) {a : State} {c : HostCmd} {s : State} (h : Moves msk a s) : MovesNext msk a (execHoistReleaseImageOnly c s) := by
  unfold execHoistReleaseImageOnly
  repeat' first | with_reducible apply movesNext_done | with_reducible apply movesNext_next | with_reducible apply movesVerdict_finish | with_reducible apply movesVerdict_pend | exact maskSub_trans hm rfl | with_reducible assumption | intro _ _ _ | with_reducible apply moves_takeCmd | with_reducible apply moves_hoistReleaseImageOnly | split

theorem moves_execHoistSwitch {msk : Nat} (hm : maskSub 0x18001e msk = true) {a : State} {c : HostCmd} {s : State} (h : Moves msk a s) : MovesNext msk a (execHoistSwitch c s) := by
  unfold execHoistSwitch
  repeat' first | with_reducible apply movesNext_done | with_reducible apply movesNext_next | with_reducible apply movesVerdict_finish | with_reducible apply movesVerdict_pend | exact maskSub_trans hm rfl | with_reducible assumption | intro _ _ _ | with_reducible apply moves_takeCmd | with_reducible apply moves_hoistSwitch | split

theorem moves_execHoistSwitchLands {msk : Nat} (hm : maskSub 0x195fff msk = true) {a : State} {s : State} (h : Moves msk a s) : MovesNext msk a (execHoistSwitchLands s) := by
  unfold execHoistSwitchLands
  repeat' first | (extract_lets +onlyGivenNames z; refine Moves.cut (m := msk) a z ?_ (fun hz => ?_) <;> [(dsimp -zeta only [z]; revert z; intro _); (clear_value z; revert z; intro _ _)]) | (extract_lets +onlyGivenNames z; revert z; intro _) | with_reducible apply movesNext_done | with_reducible apply movesNext_next | exact maskSub_trans hm rfl | with_reducible assumption | with_reducible apply moves_done | with_reducible apply moves_advance | with_reducible apply moves_finishFirst | with_reducible apply moves_landSwitch | with_reducible refine Moves.foldl ?_ (fun s x h => ?_) | with_reducible exact Moves.refl _ | ((with_reducible apply Moves.ofUpdate) <;> first | with_reducible assumption | with_reducible exact fun _ => rfl | exact id | exact maskHit hm rfl | exact fun _ => rfl | exact rfl | (intro p; simpa +zetaDelta using p) | (intro p; dsimp +zetaDelta only; (repeat (first | split | (simpa using p))))) | split | (dsimp -zeta +zetaDelta only)

theorem moves_execConfigScrub {msk : Nat} (hm : maskSub 0x19503e msk = true) {a : State} {site : Site} {hoist : ℕ} {dword : ℕ} {found : Ecc} {s : State} (h : Moves msk a s) : MovesNext msk a (execConfigScrub site hoist dword found s) := by
  unfold execConfigScrub
  repeat' first | with_reducible apply movesNext_done | with_reducible apply movesNext_next | exact maskSub_trans hm rfl | with_reducible assumption | with_reducible apply moves_done | with_reducible apply moves_fault | with_reducible apply moves_activeDamage | with_reducible apply moves_idleDamage | split

theorem moves_execAutoMirrorSwitch {msk : Nat} (hm : maskSub 0x195fff msk = true) {a : State} {s : State} (h : Moves msk a s) : MovesNext msk a (execAutoMirrorSwitch s) := by
  unfold execAutoMirrorSwitch
  repeat' first | (extract_lets +onlyGivenNames z; refine Moves.cut (m := msk) a z ?_ (fun hz => ?_) <;> [(dsimp -zeta only [z]; revert z; intro _); (clear_value z; revert z; intro _ _)]) | (extract_lets +onlyGivenNames z; revert z; intro _) | with_reducible apply movesNext_done | with_reducible apply movesNext_next | exact maskSub_trans hm rfl | with_reducible assumption | with_reducible apply moves_done | with_reducible apply moves_advance | with_reducible apply moves_tellRecovery | with_reducible apply moves_landSwitch | with_reducible apply moves_finishFirst | with_reducible refine Moves.foldl ?_ (fun s x h => ?_) | with_reducible exact Moves.refl _ | ((with_reducible apply Moves.ofUpdate) <;> first | with_reducible assumption | with_reducible exact fun _ => rfl | exact id | exact maskHit hm rfl | exact fun _ => rfl | exact rfl | (intro p; simpa +zetaDelta using p) | (intro p; dsimp +zetaDelta only; (repeat (first | split | (simpa using p))))) | split | (dsimp -zeta +zetaDelta only)

theorem moves_execConfigRewriteDone {msk : Nat} (hm : maskSub 0x595ffe msk = true) {a : State} {site : Site} {hoist : ℕ} {readable : Bool} {rechecked : Bool} {s : State} (h : Moves msk a s) : MovesNext msk a (execConfigRewriteDone site hoist readable rechecked s) := by
  unfold execConfigRewriteDone
  repeat' first | (extract_lets +onlyGivenNames z; refine Moves.cut (m := msk) a z ?_ (fun hz => ?_) <;> [(dsimp -zeta only [z]; revert z; intro _); (clear_value z; revert z; intro _ _)]) | (extract_lets +onlyGivenNames z; revert z; intro _) | with_reducible apply movesNext_done | with_reducible apply movesNext_next | exact maskSub_trans hm rfl | with_reducible assumption | with_reducible apply moves_done | with_reducible apply moves_setHoist | with_reducible apply moves_elementMended | with_reducible apply moves_moveHoist | with_reducible apply moves_loseUnit | with_reducible apply moves_unitStops | with_reducible refine Moves.foldl ?_ (fun s x h => ?_) | with_reducible exact Moves.refl _ | ((with_reducible apply Moves.ofUpdate) <;> first | with_reducible assumption | with_reducible exact fun _ => rfl | exact id | exact maskHit hm rfl | exact fun _ => rfl | exact rfl | (intro p; simpa +zetaDelta using p) | (intro p; dsimp +zetaDelta only; (repeat (first | split | (simpa using p))))) | split | (dsimp -zeta +zetaDelta only)

end Sys2Proof.Machine
end

