-- ==== Sys2Proof/Laws/MovesDisable.lean ====
section
/-! SUPPORT. `Moves` for the operations of Machine/Disable.lean. -/

set_option linter.unusedTactic false
set_option linter.unreachableTactic false
set_option linter.tactic.unusedName false

namespace Sys2Proof.Machine

theorem moves_startDrain {msk : Nat} (hm : maskSub 0x580fde msk = true) {a : State} {s : State} {u : Site} {limit : Fc} (h : Moves msk a s) : Moves msk a (startDrain s u limit) := by
  unfold startDrain
  repeat' first | exact maskSub_trans hm rfl | with_reducible assumption | with_reducible apply moves_setGlue | with_reducible apply moves_moveUnit | split

theorem moves_cancelWait {msk : Nat} (hm : maskSub 0x1e msk = true) {a : State} {s : State} {u : Site} (h : Moves msk a s) : Moves msk a (cancelWait s u) := by
  unfold cancelWait
  repeat' first | (extract_lets +onlyGivenNames z; refine Moves.cut (m := msk) a z ?_ (fun hz => ?_) <;> [(dsimp -zeta only [z]; revert z; intro _); (clear_value z; revert z; intro _ _)]) | (extract_lets +onlyGivenNames z; revert z; intro _) | exact maskSub_trans hm rfl | with_reducible assumption | with_reducible apply moves_roundOver | with_reducible refine Moves.foldl ?_ (fun s x h => ?_) | with_reducible exact Moves.refl _ | ((with_reducible apply Moves.ofUpdate) <;> first | with_reducible assumption | with_reducible exact fun _ => rfl | exact id | exact maskHit hm rfl | exact fun _ => rfl | exact rfl | (intro p; simpa +zetaDelta using p) | (intro p; dsimp +zetaDelta only; (repeat (first | split | (simpa using p))))) | split | (dsimp -zeta +zetaDelta only)

theorem moves_unitDisable {msk : Nat} (hm : maskSub 0x580fde msk = true) {a : State} {s : State} {p : Packet} (h : Moves msk a s) : MovesVerdict msk a (unitDisable s p) := by
  unfold unitDisable
  split
  · exact h
  · extract_lets +onlyGivenNames u limit
    split
    · exact h
    · split
      · exact h
      · exact h
      · exact h
      · split
        · exact h
        · split
          · exact movesVerdict_pend (moves_setCtl (maskSub_trans hm rfl) h)
          · exact movesVerdict_pend (moves_startDrain (maskSub_trans hm rfl) (moves_cancelWait (maskSub_trans hm rfl) h))

theorem moves_emptyUnit {msk : Nat} (hm : maskSub 0xfc0 msk = true) {a : State} {s : State} {u : Site} (h : Moves msk a s) : Moves msk a (emptyUnit s u) := by
  unfold emptyUnit
  repeat' first | (extract_lets +onlyGivenNames z; refine Moves.cut (m := msk) a z ?_ (fun hz => ?_) <;> [(dsimp -zeta only [z]; revert z; intro _); (clear_value z; revert z; intro _ _)]) | (extract_lets +onlyGivenNames z; revert z; intro _) | exact maskSub_trans hm rfl | with_reducible assumption | with_reducible apply moves_setTile | with_reducible apply moves_setVtile | with_reducible apply moves_setWtile | with_reducible apply moves_setSteer | with_reducible apply moves_setGlue | with_reducible apply moves_setQueue | with_reducible refine Moves.foldl ?_ (fun s x h => ?_) | with_reducible exact Moves.refl _ | split | (dsimp -zeta +zetaDelta only)

theorem moves_enableUnit {msk : Nat} (hm : maskSub 0x580fde msk = true) {a : State} {s : State} {u : Site} (h : Moves msk a s) : MovesVerdict msk a (enableUnit s u) := by
  unfold enableUnit
  repeat' first | with_reducible apply movesVerdict_finish | with_reducible apply movesVerdict_pend | exact maskSub_trans hm rfl | with_reducible assumption | with_reducible apply moves_refuse | with_reducible apply moves_okAt | with_reducible apply moves_moveUnit | with_reducible apply moves_emptyUnit | with_reducible apply moves_finishFirst | with_reducible apply moves_setCtl | split

theorem moves_unitEnable {msk : Nat} (hm : maskSub 0x580fde msk = true) {a : State} {s : State} {p : Packet} (h : Moves msk a s) : MovesVerdict msk a (unitEnable s p) := by
  unfold unitEnable
  repeat' first | with_reducible apply movesVerdict_finish | with_reducible apply movesVerdict_pend | exact maskSub_trans hm rfl | with_reducible assumption | with_reducible apply moves_refuse | with_reducible apply moves_enableUnit | split

theorem moves_drainAbort {msk : Nat} (hm : maskSub 0x195dfe msk = true) {a : State} {s : State} {u : Site} (h : Moves msk a s) : Moves msk a (drainAbort s u) := by
  unfold drainAbort
  repeat' first | exact maskSub_trans hm rfl | with_reducible assumption | with_reducible apply moves_steerAbortAll | with_reducible apply moves_portAbortAll | with_reducible apply moves_tilesAbortAll | split

theorem moves_execUnitDisable {msk : Nat} (hm : maskSub 0x580fde msk = true) {a : State} {c : HostCmd} {s : State} (h : Moves msk a s) : MovesNext msk a (execUnitDisable c s) := by
  unfold execUnitDisable
  repeat' first | with_reducible apply movesNext_done | with_reducible apply movesNext_next | with_reducible apply movesVerdict_finish | with_reducible apply movesVerdict_pend | exact maskSub_trans hm rfl | with_reducible assumption | intro _ _ _ | with_reducible apply moves_takeCmd | with_reducible apply moves_unitDisable | split

theorem moves_execUnitEnable {msk : Nat} (hm : maskSub 0x580fde msk = true) {a : State} {c : HostCmd} {s : State} (h : Moves msk a s) : MovesNext msk a (execUnitEnable c s) := by
  unfold execUnitEnable
  repeat' first | with_reducible apply movesNext_done | with_reducible apply movesNext_next | with_reducible apply movesVerdict_finish | with_reducible apply movesVerdict_pend | exact maskSub_trans hm rfl | with_reducible assumption | intro _ _ _ | with_reducible apply moves_takeCmd | with_reducible apply moves_unitEnable | split

theorem moves_execUnitDrainDone {msk : Nat} (hm : maskSub 0x580ffe msk = true) {a : State} {site : Site} {s : State} (h : Moves msk a s) : MovesNext msk a (execUnitDrainDone site s) := by
  unfold execUnitDrainDone
  repeat' first | (extract_lets +onlyGivenNames z; refine Moves.cut (m := msk) a z ?_ (fun hz => ?_) <;> [(dsimp -zeta only [z]; revert z; intro _); (clear_value z; revert z; intro _ _)]) | (extract_lets +onlyGivenNames z; revert z; intro _) | with_reducible apply movesNext_done | with_reducible apply movesNext_next | exact maskSub_trans hm rfl | with_reducible assumption | with_reducible apply moves_done | with_reducible apply moves_finishFirst | with_reducible apply moves_moveUnit | with_reducible apply moves_tailsOff | split

theorem moves_execUnitDrainTimeout {msk : Nat} (hm : maskSub 0x595fff msk = true) {a : State} {site : Site} {s : State} (h : Moves msk a s) : MovesNext msk a (execUnitDrainTimeout site s) := by
  unfold execUnitDrainTimeout
  repeat' first | (extract_lets +onlyGivenNames z; refine Moves.cut (m := msk) a z ?_ (fun hz => ?_) <;> [(dsimp -zeta only [z]; revert z; intro _); (clear_value z; revert z; intro _ _)]) | (extract_lets +onlyGivenNames z; revert z; intro _) | with_reducible apply movesNext_done | with_reducible apply movesNext_next | exact maskSub_trans hm rfl | with_reducible assumption | with_reducible apply moves_done | with_reducible apply moves_advance | with_reducible apply moves_finishFirst | with_reducible apply moves_moveUnit | with_reducible apply moves_drainAbort | split

end Sys2Proof.Machine
end

