-- ==== Sys2Proof/Laws/MovesProof.lean ====
section
/-! SUPPORT. `Moves` for the operations of Machine/Proof.lean. -/

set_option linter.unusedTactic false
set_option linter.unreachableTactic false
set_option linter.tactic.unusedName false

namespace Sys2Proof.Machine

theorem moves_setProof {msk : Nat} (hm : maskSub 0x10 msk = true) {a : State} {s : State} {p : Proof} (h : Moves msk a s) : Moves msk a (setProof s p) := by
  unfold setProof
  repeat' first | exact maskSub_trans hm rfl | with_reducible assumption | ((with_reducible apply Moves.ofUpdate) <;> first | with_reducible assumption | with_reducible exact fun _ => rfl | exact id | exact maskHit hm rfl | exact fun _ => rfl | exact rfl) | split

theorem moves_armUnit {msk : Nat} (hm : maskSub 0x10 msk = true) {a : State} {s : State} {u : Site} {serving : Bool} (h : Moves msk a s) : Moves msk a (armUnit s u serving) := by
  unfold armUnit
  repeat' first | exact maskSub_trans hm rfl | with_reducible assumption | with_reducible apply moves_setProof | split

theorem moves_provenNow {msk : Nat} (hm : maskSub 0x10 msk = true) {a : State} {s : State} (h : Moves msk a s) : Moves msk a (provenNow s) := by
  unfold provenNow
  repeat' first | exact maskSub_trans hm rfl | with_reducible assumption | with_reducible apply moves_setProof | split

theorem moves_afterProof {msk : Nat} (hm : maskSub 0x580fde msk = true) {a : State} {s : State} {u : Site} {since : Fc} (h : Moves msk a s) : Moves msk a (afterProof s u since) := by
  unfold afterProof
  repeat' first | (extract_lets +onlyGivenNames z; refine Moves.cut (m := msk) a z ?_ (fun hz => ?_) <;> [(dsimp -zeta only [z]; revert z; intro _); (clear_value z; revert z; intro _ _)]) | (extract_lets +onlyGivenNames z; revert z; intro _) | exact maskSub_trans hm rfl | with_reducible assumption | with_reducible apply moves_startDrain | with_reducible apply moves_setCtl | split

theorem moves_proveUnit {msk : Nat} (hm : maskSub 0x10 msk = true) {a : State} {s : State} {p : Packet} (h : Moves msk a s) : MovesVerdict msk a (proveUnit s p) := by
  unfold proveUnit
  repeat' first | (extract_lets +onlyGivenNames z; refine Moves.cut (m := msk) a z ?_ (fun hz => ?_) <;> [(dsimp -zeta only [z]; revert z; intro _); (clear_value z; revert z; intro _ _)]) | (extract_lets +onlyGivenNames z; revert z; intro _) | with_reducible apply movesVerdict_finish | with_reducible apply movesVerdict_pend | exact maskSub_trans hm rfl | with_reducible assumption | with_reducible apply moves_refuse | with_reducible apply moves_setProof | with_reducible apply moves_armUnit | split

theorem moves_requestWindow {msk : Nat} (hm : maskSub 0x1e msk = true) {a : State} {s : State} {p : Packet} (h : Moves msk a s) : MovesVerdict msk a (requestWindow s p) := by
  unfold requestWindow
  repeat' first | with_reducible apply movesVerdict_finish | with_reducible apply movesVerdict_pend | exact maskSub_trans hm rfl | with_reducible assumption | with_reducible apply moves_refuse | with_reducible apply moves_postDev | ((with_reducible apply Moves.ofUpdate) <;> first | with_reducible assumption | with_reducible exact fun _ => rfl | exact id | exact maskHit hm rfl | exact fun _ => rfl | exact rfl) | split

theorem moves_grantWindow {msk : Nat} (hm : maskSub 0x10 msk = true) {a : State} {s : State} {p : Packet} (h : Moves msk a s) : MovesVerdict msk a (grantWindow s p) := by
  unfold grantWindow
  repeat' first | (extract_lets +onlyGivenNames z; refine Moves.cut (m := msk) a z ?_ (fun hz => ?_) <;> [(dsimp -zeta only [z]; revert z; intro _); (clear_value z; revert z; intro _ _)]) | (extract_lets +onlyGivenNames z; revert z; intro _) | with_reducible apply movesVerdict_finish | with_reducible apply movesVerdict_pend | exact maskSub_trans hm rfl | with_reducible assumption | with_reducible apply moves_refuse | with_reducible refine Moves.foldl ?_ (fun s x h => ?_) | with_reducible exact Moves.refl _ | ((with_reducible apply Moves.ofUpdate) <;> first | with_reducible assumption | with_reducible exact fun _ => rfl | exact id | exact maskHit hm rfl | exact fun _ => rfl | exact rfl | (intro p; simpa +zetaDelta using p) | (intro p; dsimp +zetaDelta only; (repeat (first | split | (simpa using p))))) | split | (dsimp -zeta +zetaDelta only)

theorem moves_selfTestReport {msk : Nat} (hm : maskSub 0x0 msk = true) {a : State} {s : State} {p : Packet} (h : Moves msk a s) : MovesVerdict msk a (selfTestReport s p) := by
  unfold selfTestReport
  repeat' first | (extract_lets +onlyGivenNames z; refine Moves.cut (m := msk) a z ?_ (fun hz => ?_) <;> [(dsimp -zeta only [z]; revert z; intro _); (clear_value z; revert z; intro _ _)]) | (extract_lets +onlyGivenNames z; revert z; intro _) | with_reducible apply movesVerdict_finish | with_reducible apply movesVerdict_pend | exact maskSub_trans hm rfl | with_reducible assumption | with_reducible apply moves_refuse | split

theorem moves_spanDropFrame {msk : Nat} (hm : maskSub 0x4020 msk = true) {a : State} {s : State} {code : ℕ} {q : ℕ × ℕ} (h : Moves msk a s) : Moves msk a (spanDropFrame s code q) := by
  unfold spanDropFrame
  repeat' first | (extract_lets +onlyGivenNames z; refine Moves.cut (m := msk) a z ?_ (fun hz => ?_) <;> [(dsimp -zeta only [z]; revert z; intro _); (clear_value z; revert z; intro _ _)]) | (extract_lets +onlyGivenNames z; revert z; intro _) | exact maskSub_trans hm rfl | with_reducible assumption | with_reducible apply moves_subVoid | with_reducible refine Moves.foldl ?_ (fun s x h => ?_) | with_reducible exact Moves.refl _ | split | (dsimp -zeta +zetaDelta only)

theorem moves_execProofArm {msk : Nat} (hm : maskSub 0x1f msk = true) {a : State} {s : State} (h : Moves msk a s) : MovesNext msk a (execProofArm s) := by
  unfold execProofArm
  repeat' first | with_reducible apply movesNext_done | with_reducible apply movesNext_next | exact maskSub_trans hm rfl | with_reducible assumption | with_reducible apply moves_done | with_reducible apply moves_armUnit | with_reducible apply moves_advance | with_reducible apply moves_roundOver | split

theorem moves_execProofUnitIdle {msk : Nat} (hm : maskSub 0x10 msk = true) {a : State} {site : Site} {s : State} (h : Moves msk a s) : MovesNext msk a (execProofUnitIdle site s) := by
  unfold execProofUnitIdle
  repeat' first | (extract_lets +onlyGivenNames z; refine Moves.cut (m := msk) a z ?_ (fun hz => ?_) <;> [(dsimp -zeta only [z]; revert z; intro _); (clear_value z; revert z; intro _ _)]) | (extract_lets +onlyGivenNames z; revert z; intro _) | with_reducible apply movesNext_done | with_reducible apply movesNext_next | exact maskSub_trans hm rfl | with_reducible assumption | with_reducible apply moves_done | with_reducible apply moves_setProof | split

theorem moves_execProofMaxWaitExpiry {msk : Nat} (hm : maskSub 0x18001f msk = true) {a : State} {site : Site} {s : State} (h : Moves msk a s) : MovesNext msk a (execProofMaxWaitExpiry site s) := by
  unfold execProofMaxWaitExpiry
  repeat' first | (extract_lets +onlyGivenNames z; refine Moves.cut (m := msk) a z ?_ (fun hz => ?_) <;> [(dsimp -zeta only [z]; revert z; intro _); (clear_value z; revert z; intro _ _)]) | (extract_lets +onlyGivenNames z; revert z; intro _) | with_reducible apply movesNext_done | with_reducible apply movesNext_next | exact maskSub_trans hm rfl | with_reducible assumption | with_reducible apply moves_done | with_reducible apply moves_advance | with_reducible apply moves_postDev | with_reducible apply moves_endProof | with_reducible apply moves_setProof | with_reducible apply moves_rcNote | split

theorem moves_execBistRunDone {msk : Nat} (hm : maskSub 0x595ffe msk = true) {a : State} {site : Site} {pass : Bool} {s : State} (h : Moves msk a s) : MovesNext msk a (execBistRunDone site pass s) := by
  unfold execBistRunDone
  repeat' first | (extract_lets +onlyGivenNames z; refine Moves.cut (m := msk) a z ?_ (fun hz => ?_) <;> [(dsimp -zeta only [z]; revert z; intro _); (clear_value z; revert z; intro _ _)]) | (extract_lets +onlyGivenNames z; revert z; intro _) | with_reducible apply movesNext_done | with_reducible apply movesNext_next | exact maskSub_trans hm rfl | with_reducible assumption | with_reducible apply moves_done | with_reducible apply moves_fault | with_reducible apply moves_setProof | with_reducible apply moves_liftHolds | with_reducible apply moves_moveUnit | with_reducible apply moves_tailsOff | with_reducible apply moves_provenNow | split

theorem moves_execProofRestoreDone {msk : Nat} (hm : maskSub 0x581fde msk = true) {a : State} {site : Site} {s : State} (h : Moves msk a s) : MovesNext msk a (execProofRestoreDone site s) := by
  unfold execProofRestoreDone
  repeat' first | (extract_lets +onlyGivenNames z; refine Moves.cut (m := msk) a z ?_ (fun hz => ?_) <;> [(dsimp -zeta only [z]; revert z; intro _); (clear_value z; revert z; intro _ _)]) | (extract_lets +onlyGivenNames z; revert z; intro _) | with_reducible apply movesNext_done | with_reducible apply movesNext_next | exact maskSub_trans hm rfl | with_reducible assumption | with_reducible apply moves_done | with_reducible apply moves_liftHolds | with_reducible apply moves_afterProof | with_reducible apply moves_endProof | with_reducible apply moves_provenNow | split

theorem moves_execSelfTestProveUnit {msk : Nat} (hm : maskSub 0x18001e msk = true) {a : State} {c : HostCmd} {s : State} (h : Moves msk a s) : MovesNext msk a (execSelfTestProveUnit c s) := by
  unfold execSelfTestProveUnit
  repeat' first | with_reducible apply movesNext_done | with_reducible apply movesNext_next | with_reducible apply movesVerdict_finish | with_reducible apply movesVerdict_pend | exact maskSub_trans hm rfl | with_reducible assumption | intro _ _ _ | with_reducible apply moves_takeCmd | with_reducible apply moves_proveUnit | split

theorem moves_execSelfTestRequestWindow {msk : Nat} (hm : maskSub 0x18001e msk = true) {a : State} {c : HostCmd} {s : State} (h : Moves msk a s) : MovesNext msk a (execSelfTestRequestWindow c s) := by
  unfold execSelfTestRequestWindow
  repeat' first | with_reducible apply movesNext_done | with_reducible apply movesNext_next | with_reducible apply movesVerdict_finish | with_reducible apply movesVerdict_pend | exact maskSub_trans hm rfl | with_reducible assumption | intro _ _ _ | with_reducible apply moves_takeCmd | with_reducible apply moves_requestWindow | split

theorem moves_execSelfTestGrantWindow {msk : Nat} (hm : maskSub 0x18001e msk = true) {a : State} {c : HostCmd} {s : State} (h : Moves msk a s) : MovesNext msk a (execSelfTestGrantWindow c s) := by
  unfold execSelfTestGrantWindow
  repeat' first | with_reducible apply movesNext_done | with_reducible apply movesNext_next | with_reducible apply movesVerdict_finish | with_reducible apply movesVerdict_pend | exact maskSub_trans hm rfl | with_reducible assumption | intro _ _ _ | with_reducible apply moves_takeCmd | with_reducible apply moves_grantWindow | split

theorem moves_execSelfTestReport {msk : Nat} (hm : maskSub 0x18000e msk = true) {a : State} {c : HostCmd} {s : State} (h : Moves msk a s) : MovesNext msk a (execSelfTestReport c s) := by
  unfold execSelfTestReport
  repeat' first | with_reducible apply movesNext_done | with_reducible apply movesNext_next | with_reducible apply movesVerdict_finish | with_reducible apply movesVerdict_pend | exact maskSub_trans hm rfl | with_reducible assumption | intro _ _ _ | with_reducible apply moves_takeCmd | with_reducible apply moves_selfTestReport | split

theorem moves_execFullWindowStart {msk : Nat} (hm : maskSub 0x195fff msk = true) {a : State} {s : State} (h : Moves msk a s) : MovesNext msk a (execFullWindowStart s) := by
  unfold execFullWindowStart
  repeat' first | (extract_lets +onlyGivenNames z; refine Moves.cut (m := msk) a z ?_ (fun hz => ?_) <;> [(dsimp -zeta only [z]; revert z; intro _); (clear_value z; revert z; intro _ _)]) | (extract_lets +onlyGivenNames z; revert z; intro _) | with_reducible apply movesNext_done | with_reducible apply movesNext_next | exact maskSub_trans hm rfl | with_reducible assumption | with_reducible apply moves_done | with_reducible apply moves_advance | with_reducible apply moves_flushFabric | with_reducible apply moves_unbindTiles | with_reducible apply moves_spanDropFrame | with_reducible apply moves_postDev | with_reducible apply moves_syncAllHolds | with_reducible apply moves_finishFirst | with_reducible refine Moves.foldl ?_ (fun s x h => ?_) | with_reducible exact Moves.refl _ | ((with_reducible apply Moves.ofUpdate) <;> first | with_reducible assumption | with_reducible exact fun _ => rfl | exact id | exact maskHit hm rfl | exact fun _ => rfl | exact rfl | (intro p; simpa +zetaDelta using p) | (intro p; dsimp +zetaDelta only; (repeat (first | split | (simpa using p))))) | split | (dsimp -zeta +zetaDelta only)

theorem moves_execFullWindowEnd {msk : Nat} (hm : maskSub 0x595ffe msk = true) {a : State} {failed : List Site} {s : State} (h : Moves msk a s) : MovesNext msk a (execFullWindowEnd failed s) := by
  unfold execFullWindowEnd
  repeat' first | (extract_lets +onlyGivenNames z; refine Moves.cut (m := msk) a z ?_ (fun hz => ?_) <;> [(dsimp -zeta only [z]; revert z; intro _); (clear_value z; revert z; intro _ _)]) | (extract_lets +onlyGivenNames z; revert z; intro _) | with_reducible apply movesNext_done | with_reducible apply movesNext_next | exact maskSub_trans hm rfl | with_reducible assumption | with_reducible apply moves_unbindTiles | with_reducible apply moves_boundaryFlush | with_reducible apply moves_moveUnit | with_reducible apply moves_fault | with_reducible apply moves_postDev | with_reducible apply moves_done | with_reducible apply moves_syncAllHolds | with_reducible apply moves_finishFirst | with_reducible refine Moves.foldl ?_ (fun s x h => ?_) | with_reducible exact Moves.refl _ | ((with_reducible apply Moves.ofUpdate) <;> first | with_reducible assumption | with_reducible exact fun _ => rfl | exact id | exact maskHit hm rfl | exact fun _ => rfl | exact rfl | (intro p; simpa +zetaDelta using p) | (intro p; dsimp +zetaDelta only; (repeat (first | split | (simpa using p))))) | split | (dsimp -zeta +zetaDelta only)

end Sys2Proof.Machine
end

