-- ==== Sys2Proof/Laws/MovesSecurity.lean ====
section
/-! SUPPORT. `Moves` for the operations of Machine/Security.lean. -/

set_option linter.unusedTactic false
set_option linter.unreachableTactic false
set_option linter.tactic.unusedName false

namespace Sys2Proof.Machine

theorem setUncommitted_keeps (c : Sec) (p : Option FwPkg) : SecKeeps c (setUncommitted c p) := by
  unfold setUncommitted; split <;> exact ⟨Nat.le_refl _, fun _ x => x⟩

theorem moves_commitSwap {msk : Nat} (hm : maskSub 0x1e000e msk = true) {a : State} {s : State} {w : Swap} (h : Moves msk a s) : Moves msk a (commitSwap s w) := by
  have mend (t : State) (c : Sec) (g1 : Mgmt) (k : Moves msk a t) (g : SecKeeps t.sec c) : Moves msk a { t with sec := c, mgmt := g1 } :=
    by (apply Moves.ofUpdateSec k g <;> first | with_reducible exact fun _ => rfl | exact id | exact maskHit hm rfl | exact fun _ => rfl | exact rfl)
  unfold commitSwap
  extract_lets +onlyGivenNames v sv c
  refine moves_postDev (maskSub_trans hm rfl) (moves_finishFirst (maskSub_trans hm rfl) (mend _ _ _ h ⟨?_, fun _ x => x⟩))
  dsimp only [c]
  split
  · exact Nat.le_max_left _ _
  · exact Nat.le_refl _

theorem moves_transition {msk : Nat} (hm : maskSub 0x86000e msk = true) {a : State} {s : State} {a1 : Auth} {dest : LifeState} (h : Moves msk a s) : Moves msk a (transition s a1 dest) := by
  have mend (t : State) (c : Sec) (n : Nat) (g1 : Mgmt) (k : Moves msk a t) (g : SecKeeps t.sec c) : Moves msk a { t with sec := c, fresh := n, mgmt := g1 } :=
    by (apply Moves.ofUpdateSec k g <;> first | with_reducible exact fun _ => rfl | exact id | exact maskHit hm rfl | exact fun _ => rfl | exact rfl)
  unfold transition
  extract_lets +onlyGivenNames c c1
  have g1 : SecKeeps s.sec c1 := by
    dsimp only [c1]
    split <;> exact ⟨Nat.le_refl _, fun _ x => x⟩
  clear_value c1
  refine moves_postDev (maskSub_trans hm rfl) (mend _ _ _ _ h ?_)
  refine SecKeeps.trans g1 ?_
  exact ⟨(eraseFor_keeps { c1 with life := dest } dest).floor, (eraseFor_keeps { c1 with life := dest } dest).revoked⟩

theorem moves_applyAuth {msk : Nat} (hm : maskSub 0x86000e msk = true) {a : State} {s : State} {a1 : Auth} (h : Moves msk a s) : Moves msk a (applyAuth s a1) := by
  unfold applyAuth
  extract_lets c
  split
  · split
    · exact moves_transition (maskSub_trans hm rfl) h
    · exact h
  · exact moves_postDev (maskSub_trans hm rfl) (Moves.setSec (maskSub_trans hm rfl) h ⟨Nat.le_refl _, fun _ x => x⟩)
  · exact moves_postDev (maskSub_trans hm rfl) (Moves.setSec (maskSub_trans hm rfl) h ⟨Nat.le_refl _, fun _ x => x⟩)
  · refine moves_postDev (maskSub_trans hm rfl) (Moves.setSec (maskSub_trans hm rfl) h ⟨Nat.le_refl _, fun k x => ?_⟩)
    change (s.sec.fwRevoked.set _ true)[k]? = some true
    rw [List.getElem?_set]
    split
    · split
      · rfl
      · rw [List.getElem?_eq_none (by omega)] at x
        cases x
    · exact x

theorem moves_lifecycleBody {msk : Nat} (hm : maskSub 0x9e000e msk = true) {a : State} {challenge : BitVec 256} {c : HostCmd} {auth : HostData} {s : State} {p : Packet} (h : Moves msk a s) : MovesVerdict msk a (lifecycleBody challenge c auth s p) := by
  unfold lifecycleBody
  repeat' first | (extract_lets +onlyGivenNames z; refine Moves.cut (m := msk) a z ?_ (fun hz => ?_) <;> [(dsimp -zeta only [z]; revert z; intro _); (clear_value z; revert z; intro _ _)]) | (extract_lets +onlyGivenNames z; revert z; intro _) | with_reducible apply movesVerdict_finish | with_reducible apply movesVerdict_pend | exact maskSub_trans hm rfl | with_reducible assumption | with_reducible apply moves_refuse | with_reducible apply moves_hostAccessFailed | with_reducible apply moves_okAt | with_reducible apply moves_applyAuth | split

theorem moves_execFwStage {msk : Nat} (hm : maskSub 0x9a000e msk = true) {a : State} {c : HostCmd} {package : HostData} {s : State} (h : Moves msk a s) : MovesNext msk a (execFwStage c package s) := by
  unfold execFwStage
  refine moves_takeCmd (maskSub_trans hm rfl) h (fun s p h => ?_)
  extract_lets addr len
  split
  · exact moves_refuse (maskSub_trans hm rfl) h
  split
  · exact moves_refuse (maskSub_trans hm rfl) h
  split
  · exact moves_hostAccessFailed (maskSub_trans hm rfl) h
  split
  · exact moves_refuse (maskSub_trans hm rfl) h
  · exact movesVerdict_pend (Moves.setSec (maskSub_trans hm rfl) h ⟨(setUncommitted_keeps _ _).floor, (setUncommitted_keeps _ _).revoked⟩)

theorem moves_execFwStageDone {msk : Nat} (hm : maskSub 0x1a000e msk = true) {a : State} {s : State} (h : Moves msk a s) : MovesNext msk a (execFwStageDone s) := by
  unfold execFwStageDone
  split
  · refine movesNext_done (moves_finishFirst (maskSub_trans hm rfl) (moves_postDev (maskSub_trans hm rfl) (Moves.setSec (maskSub_trans hm rfl) h ?_)))
    exact ⟨(setUncommitted_keeps _ _).floor, (setUncommitted_keeps _ _).revoked⟩
  · exact movesNext_done h

theorem moves_execFwSwitch {msk : Nat} (hm : maskSub 0x1a000e msk = true) {a : State} {c : HostCmd} {s : State} (h : Moves msk a s) : MovesNext msk a (execFwSwitch c s) := by
  unfold execFwSwitch
  repeat' first | (extract_lets +onlyGivenNames z; refine Moves.cut (m := msk) a z ?_ (fun hz => ?_) <;> [(dsimp -zeta only [z]; revert z; intro _); (clear_value z; revert z; intro _ _)]) | (extract_lets +onlyGivenNames z; revert z; intro _) | with_reducible apply movesNext_done | with_reducible apply movesNext_next | with_reducible apply movesVerdict_finish | with_reducible apply movesVerdict_pend | exact maskSub_trans hm rfl | with_reducible assumption | intro _ _ _ | with_reducible apply moves_takeCmd | with_reducible apply moves_refuse | with_reducible refine Moves.foldl ?_ (fun s x h => ?_) | with_reducible exact Moves.refl _ | ((with_reducible apply Moves.ofUpdate) <;> first | with_reducible assumption | with_reducible exact fun _ => rfl | exact id | exact maskHit hm rfl | exact fun _ => rfl | exact rfl | (intro p; simpa +zetaDelta using p) | (intro p; dsimp +zetaDelta only; (repeat (first | split | (simpa using p))))) | ((with_reducible apply Moves.ofUpdateSec) <;> first | with_reducible exact SecKeeps.refl _ | exact ⟨Nat.le_refl _, fun _ x => x⟩ | with_reducible assumption | with_reducible exact fun _ => rfl | exact id | exact maskHit hm rfl | exact fun _ => rfl | exact rfl | (intro p; simpa +zetaDelta using p) | (intro p; dsimp +zetaDelta only; (repeat (first | split | (simpa using p))))) | split | (dsimp -zeta +zetaDelta only)

theorem moves_execFwSwitchLands {msk : Nat} (hm : maskSub 0x60001 msk = true) {a : State} {s : State} (h : Moves msk a s) : MovesNext msk a (execFwSwitchLands s) := by
  unfold execFwSwitchLands
  repeat' first | (extract_lets +onlyGivenNames z; refine Moves.cut (m := msk) a z ?_ (fun hz => ?_) <;> [(dsimp -zeta only [z]; revert z; intro _); (clear_value z; revert z; intro _ _)]) | (extract_lets +onlyGivenNames z; revert z; intro _) | with_reducible apply movesNext_done | with_reducible apply movesNext_next | exact maskSub_trans hm rfl | with_reducible assumption | with_reducible apply moves_done | with_reducible apply moves_advance | with_reducible refine Moves.foldl ?_ (fun s x h => ?_) | with_reducible exact Moves.refl _ | ((with_reducible apply Moves.ofUpdate) <;> first | with_reducible assumption | with_reducible exact fun _ => rfl | exact id | exact maskHit hm rfl | exact fun _ => rfl | exact rfl | (intro p; simpa +zetaDelta using p) | (intro p; dsimp +zetaDelta only; (repeat (first | split | (simpa using p))))) | ((with_reducible apply Moves.ofUpdateSec) <;> first | with_reducible exact SecKeeps.refl _ | exact ⟨Nat.le_refl _, fun _ x => x⟩ | with_reducible assumption | with_reducible exact fun _ => rfl | exact id | exact maskHit hm rfl | exact fun _ => rfl | exact rfl | (intro p; simpa +zetaDelta using p) | (intro p; dsimp +zetaDelta only; (repeat (first | split | (simpa using p))))) | split | (dsimp -zeta +zetaDelta only)

theorem moves_execFwCoreReady {msk : Nat} (hm : maskSub 0x1e000e msk = true) {a : State} {core : ℕ} {s : State} (h : Moves msk a s) : MovesNext msk a (execFwCoreReady core s) := by
  unfold execFwCoreReady
  repeat' first | (extract_lets +onlyGivenNames z; refine Moves.cut (m := msk) a z ?_ (fun hz => ?_) <;> [(dsimp -zeta only [z]; revert z; intro _); (clear_value z; revert z; intro _ _)]) | (extract_lets +onlyGivenNames z; revert z; intro _) | with_reducible apply movesNext_done | with_reducible apply movesNext_next | exact maskSub_trans hm rfl | with_reducible assumption | with_reducible apply moves_done | with_reducible apply moves_commitSwap | with_reducible refine Moves.foldl ?_ (fun s x h => ?_) | with_reducible exact Moves.refl _ | ((with_reducible apply Moves.ofUpdate) <;> first | with_reducible assumption | with_reducible exact fun _ => rfl | exact id | exact maskHit hm rfl | exact fun _ => rfl | exact rfl | (intro p; simpa +zetaDelta using p) | (intro p; dsimp +zetaDelta only; (repeat (first | split | (simpa using p))))) | ((with_reducible apply Moves.ofUpdateSec) <;> first | with_reducible exact SecKeeps.refl _ | exact ⟨Nat.le_refl _, fun _ x => x⟩ | with_reducible assumption | with_reducible exact fun _ => rfl | exact id | exact maskHit hm rfl | exact fun _ => rfl | exact rfl | (intro p; simpa +zetaDelta using p) | (intro p; dsimp +zetaDelta only; (repeat (first | split | (simpa using p))))) | split | (dsimp -zeta +zetaDelta only)

theorem moves_execFwReadyTimeout {msk : Nat} (hm : maskSub 0x1f501f msk = true) {a : State} {core : ℕ} {s : State} (h : Moves msk a s) : MovesNext msk a (execFwReadyTimeout core s) := by
  unfold execFwReadyTimeout
  repeat' first | (extract_lets +onlyGivenNames z; refine Moves.cut (m := msk) a z ?_ (fun hz => ?_) <;> [(dsimp -zeta only [z]; revert z; intro _); (clear_value z; revert z; intro _ _)]) | (extract_lets +onlyGivenNames z; revert z; intro _) | with_reducible apply movesNext_done | with_reducible apply movesNext_next | exact maskSub_trans hm rfl | with_reducible assumption | with_reducible apply moves_advance | with_reducible apply moves_fault | with_reducible apply moves_finishFirst | with_reducible apply moves_done | with_reducible apply moves_postDev | with_reducible refine Moves.foldl ?_ (fun s x h => ?_) | with_reducible exact Moves.refl _ | ((with_reducible apply Moves.ofUpdate) <;> first | with_reducible assumption | with_reducible exact fun _ => rfl | exact id | exact maskHit hm rfl | exact fun _ => rfl | exact rfl | (intro p; simpa +zetaDelta using p) | (intro p; dsimp +zetaDelta only; (repeat (first | split | (simpa using p))))) | ((with_reducible apply Moves.ofUpdateSec) <;> first | with_reducible exact SecKeeps.refl _ | exact ⟨Nat.le_refl _, fun _ x => x⟩ | with_reducible assumption | with_reducible exact fun _ => rfl | exact id | exact maskHit hm rfl | exact fun _ => rfl | exact rfl | (intro p; simpa +zetaDelta using p) | (intro p; dsimp +zetaDelta only; (repeat (first | split | (simpa using p))))) | split | (dsimp -zeta +zetaDelta only)

theorem moves_lifecycleCmd {msk : Nat} (hm : maskSub 0x9e000e msk = true) {a : State} {op : ℕ} {c : HostCmd} {auth : HostData} {s : State} (h : Moves msk a s) : MovesNext msk a (lifecycleCmd op c auth s) := by
  unfold lifecycleCmd
  repeat' first | (extract_lets +onlyGivenNames z; refine Moves.cut (m := msk) a z ?_ (fun hz => ?_) <;> [(dsimp -zeta only [z]; revert z; intro _); (clear_value z; revert z; intro _ _)]) | (extract_lets +onlyGivenNames z; revert z; intro _) | with_reducible apply movesNext_done | with_reducible apply movesNext_next | with_reducible apply movesVerdict_finish | with_reducible apply movesVerdict_pend | exact maskSub_trans hm rfl | with_reducible assumption | intro _ _ _ | with_reducible apply moves_takeCmd | with_reducible apply moves_lifecycleBody | with_reducible apply moves_done | with_reducible refine Moves.foldl ?_ (fun s x h => ?_) | with_reducible exact Moves.refl _ | ((with_reducible apply Moves.ofUpdate) <;> first | with_reducible assumption | with_reducible exact fun _ => rfl | exact id | exact maskHit hm rfl | exact fun _ => rfl | exact rfl | (intro p; simpa +zetaDelta using p) | (intro p; dsimp +zetaDelta only; (repeat (first | split | (simpa using p))))) | ((with_reducible apply Moves.ofUpdateSec) <;> first | with_reducible exact SecKeeps.refl _ | exact ⟨Nat.le_refl _, fun _ x => x⟩ | with_reducible assumption | with_reducible exact fun _ => rfl | exact id | exact maskHit hm rfl | exact fun _ => rfl | exact rfl | (intro p; simpa +zetaDelta using p) | (intro p; dsimp +zetaDelta only; (repeat (first | split | (simpa using p))))) | split | (dsimp -zeta +zetaDelta only)

theorem moves_execLifecycleTransition {msk : Nat} (hm : maskSub 0x9e000e msk = true) {a : State} {c : HostCmd} {auth : HostData} {s : State} (h : Moves msk a s) : MovesNext msk a (execLifecycleTransition c auth s) := by
  unfold execLifecycleTransition
  repeat' first | with_reducible apply movesNext_done | with_reducible apply movesNext_next | exact maskSub_trans hm rfl | with_reducible assumption | with_reducible apply moves_lifecycleCmd | split

theorem moves_execLifecycleAddKey {msk : Nat} (hm : maskSub 0x9e000e msk = true) {a : State} {c : HostCmd} {auth : HostData} {s : State} (h : Moves msk a s) : MovesNext msk a (execLifecycleAddKey c auth s) := by
  unfold execLifecycleAddKey
  repeat' first | with_reducible apply movesNext_done | with_reducible apply movesNext_next | exact maskSub_trans hm rfl | with_reducible assumption | with_reducible apply moves_lifecycleCmd | split

theorem moves_execLifecycleRevokeImageKey {msk : Nat} (hm : maskSub 0x9e000e msk = true) {a : State} {c : HostCmd} {auth : HostData} {s : State} (h : Moves msk a s) : MovesNext msk a (execLifecycleRevokeImageKey c auth s) := by
  unfold execLifecycleRevokeImageKey
  repeat' first | with_reducible apply movesNext_done | with_reducible apply movesNext_next | exact maskSub_trans hm rfl | with_reducible assumption | with_reducible apply moves_lifecycleCmd | split

theorem moves_execLifecycleRevokeFwKey {msk : Nat} (hm : maskSub 0x9e000e msk = true) {a : State} {c : HostCmd} {auth : HostData} {s : State} (h : Moves msk a s) : MovesNext msk a (execLifecycleRevokeFwKey c auth s) := by
  unfold execLifecycleRevokeFwKey
  repeat' first | with_reducible apply movesNext_done | with_reducible apply movesNext_next | exact maskSub_trans hm rfl | with_reducible assumption | with_reducible apply moves_lifecycleCmd | split

theorem moves_execWipeFreeSpace {msk : Nat} (hm : maskSub 0x18080e msk = true) {a : State} {c : HostCmd} {s : State} (h : Moves msk a s) : MovesNext msk a (execWipeFreeSpace c s) := by
  unfold execWipeFreeSpace
  repeat' first | with_reducible apply movesNext_done | with_reducible apply movesNext_next | with_reducible apply movesVerdict_finish | with_reducible apply movesVerdict_pend | exact maskSub_trans hm rfl | with_reducible assumption | intro _ _ _ | with_reducible apply moves_takeCmd | with_reducible apply moves_refuse | with_reducible apply moves_addJobs | ((with_reducible apply Moves.ofUpdate) <;> first | with_reducible assumption | with_reducible exact fun _ => rfl | exact id | exact maskHit hm rfl | exact fun _ => rfl | exact rfl) | split

theorem moves_execWipeFreeSpaceDone {msk : Nat} (hm : maskSub 0x118080e msk = true) {a : State} {s : State} (h : Moves msk a s) : MovesNext msk a (execWipeFreeSpaceDone s) := by
  unfold execWipeFreeSpaceDone
  split
  · exact movesNext_done h
  · refine movesNext_done (moves_finishFirst (maskSub_trans hm rfl) (moves_postDev (maskSub_trans hm rfl) ?_))
    exact Moves.setFeed (maskSub_trans hm rfl) h (fun m => by dsimp only; exact memKeep_wf _ m) rfl

theorem moves_execWipeDevice {msk : Nat} (hm : maskSub 0x1c000e msk = true) {a : State} {c : HostCmd} {s : State} (h : Moves msk a s) : MovesNext msk a (execWipeDevice c s) := by
  unfold execWipeDevice
  repeat' first | with_reducible apply movesNext_done | with_reducible apply movesNext_next | with_reducible apply movesVerdict_finish | with_reducible apply movesVerdict_pend | exact maskSub_trans hm rfl | with_reducible assumption | intro _ _ _ | with_reducible apply moves_takeCmd | with_reducible apply moves_refuse | with_reducible apply moves_okAt | with_reducible apply moves_askReset | ((with_reducible apply Moves.ofUpdate) <;> first | with_reducible assumption | with_reducible exact fun _ => rfl | exact id | exact maskHit hm rfl | exact fun _ => rfl | exact rfl) | split

theorem moves_execWipeStagedFirmware {msk : Nat} (hm : maskSub 0x1a000e msk = true) {a : State} {c : HostCmd} {s : State} (h : Moves msk a s) : MovesNext msk a (execWipeStagedFirmware c s) := by
  unfold execWipeStagedFirmware
  refine moves_takeCmd (maskSub_trans hm rfl) h (fun s p h => ?_)
  split
  · exact moves_refuse (maskSub_trans hm rfl) h
  split
  · exact moves_refuse (maskSub_trans hm rfl) h
  · exact moves_okAt (maskSub_trans hm rfl) (Moves.setSec (maskSub_trans hm rfl) h ⟨(setUncommitted_keeps _ _).floor, (setUncommitted_keeps _ _).revoked⟩)

theorem moves_execAttestReport {msk : Nat} (hm : maskSub 0x18000e msk = true) {a : State} {c : HostCmd} {s : State} (h : Moves msk a s) : MovesNext msk a (execAttestReport c s) := by
  unfold execAttestReport
  repeat' first | (extract_lets +onlyGivenNames z; refine Moves.cut (m := msk) a z ?_ (fun hz => ?_) <;> [(dsimp -zeta only [z]; revert z; intro _); (clear_value z; revert z; intro _ _)]) | (extract_lets +onlyGivenNames z; revert z; intro _) | with_reducible apply movesNext_done | with_reducible apply movesNext_next | with_reducible apply movesVerdict_finish | with_reducible apply movesVerdict_pend | exact maskSub_trans hm rfl | with_reducible assumption | intro _ _ _ | with_reducible apply moves_takeCmd | with_reducible apply moves_refuse | split

theorem moves_execAttestCertificate {msk : Nat} (hm : maskSub 0x18000e msk = true) {a : State} {c : HostCmd} {s : State} (h : Moves msk a s) : MovesNext msk a (execAttestCertificate c s) := by
  unfold execAttestCertificate
  repeat' first | (extract_lets +onlyGivenNames z; refine Moves.cut (m := msk) a z ?_ (fun hz => ?_) <;> [(dsimp -zeta only [z]; revert z; intro _); (clear_value z; revert z; intro _ _)]) | (extract_lets +onlyGivenNames z; revert z; intro _) | with_reducible apply movesNext_done | with_reducible apply movesNext_next | with_reducible apply movesVerdict_finish | with_reducible apply movesVerdict_pend | exact maskSub_trans hm rfl | with_reducible assumption | intro _ _ _ | with_reducible apply moves_takeCmd | with_reducible apply moves_refuse | split

theorem moves_execAttestDone {msk : Nat} (hm : maskSub 0x18000e msk = true) {a : State} {s : State} (h : Moves msk a s) : MovesNext msk a (execAttestDone s) := by
  unfold execAttestDone
  repeat' first | with_reducible apply movesNext_done | with_reducible apply movesNext_next | exact maskSub_trans hm rfl | with_reducible assumption | with_reducible apply moves_done | with_reducible apply moves_finishPend | split

end Sys2Proof.Machine
end

