-- ==== Sys2Proof/Laws/MovesImageLoad.lean ====
section
/-! SUPPORT. `Moves` for the operations of Machine/ImageLoad.lean. -/

set_option linter.unusedTactic false
set_option linter.unreachableTactic false
set_option linter.tactic.unusedName false

namespace Sys2Proof.Machine

theorem foldl_memory_wf {α : Type} {l : List α} {f : Mem → α → Mem} {m : Mem} (h : Memory.wf m = true)
    (g : ∀ m x, Memory.wf m = true → Memory.wf (f m x) = true) : Memory.wf (l.foldl f m) = true := by
  induction l generalizing m with
  | nil => exact h
  | cons x l ih => exact ih (g m x h)

theorem moves_loadFails {msk : Nat} (hm : maskSub 0x19501e msk = true) {a : State} {s : State} {e : LoadFail} (h : Moves msk a s) : MovesVerdict msk a (loadFails s e) := by
  unfold loadFails
  repeat' first | with_reducible apply movesVerdict_finish | with_reducible apply movesVerdict_pend | exact maskSub_trans hm rfl | with_reducible assumption | with_reducible apply moves_faultAt | split

theorem moves_startLoad {msk : Nat} (hm : maskSub 0x81e msk = true) {a : State} {s : State} {i : Image} {k : ℕ} {h1 : ℕ} {form : Bool} (h : Moves msk a s) : MovesVerdict msk a (startLoad s i k h1 form) := by
  unfold startLoad
  repeat' first | (extract_lets +onlyGivenNames z; refine Moves.cut (m := msk) a z ?_ (fun hz => ?_) <;> [(dsimp -zeta only [z]; revert z; intro _); (clear_value z; revert z; intro _ _)]) | (extract_lets +onlyGivenNames z; revert z; intro _) | with_reducible apply movesVerdict_finish | with_reducible apply movesVerdict_pend | exact maskSub_trans hm rfl | with_reducible assumption | with_reducible apply moves_moveHoist | with_reducible apply moves_setHoist | with_reducible apply moves_addJobs | with_reducible refine Moves.foldl ?_ (fun s x h => ?_) | with_reducible exact Moves.refl _ | ((with_reducible apply Moves.ofUpdate) <;> first | with_reducible assumption | with_reducible exact fun _ => rfl | exact id | exact maskHit hm rfl | exact fun _ => rfl | exact rfl | (intro p; simpa +zetaDelta using p) | (intro p; dsimp +zetaDelta only; (repeat (first | split | (simpa using p))))) | split | (dsimp -zeta +zetaDelta only)

theorem moves_acceptFile {msk : Nat} (hm : maskSub 0x100081e msk = true) {a : State} {s : State} {b : List Byte} {h1 : ImgHead} {x : ImgBody} {place : Placing} {i : Image} {hoist : ℕ} (h : Moves msk a s) : MovesVerdict msk a (acceptFile s b h1 x place i hoist) := by
  unfold acceptFile
  repeat' first | (extract_lets +onlyGivenNames z; refine Moves.cut (m := msk) a z ?_ (fun hz => ?_) <;> [(dsimp -zeta only [z]; revert z; intro _); (clear_value z; revert z; intro _ _)]) | (extract_lets +onlyGivenNames z; revert z; intro _) | with_reducible apply movesVerdict_finish | with_reducible apply movesVerdict_pend | exact maskSub_trans hm rfl | with_reducible assumption | with_reducible apply moves_lpddrPut | with_reducible apply moves_startLoad | with_reducible refine Moves.foldl ?_ (fun s x h => ?_) | with_reducible exact Moves.refl _ | ((with_reducible apply Moves.ofUpdate) <;> first | with_reducible assumption | with_reducible exact fun _ => rfl | exact id | exact maskHit hm rfl | exact fun _ => rfl | exact rfl | (intro p; simpa +zetaDelta using p) | (intro p; dsimp +zetaDelta only; (repeat (first | split | (simpa using p))))) | split | (dsimp -zeta +zetaDelta only)

theorem moves_withFile {msk : Nat} (hm : maskSub 0x98000e msk = true) {a s : State} {c : HostCmd} {p : Packet} {file : HostFile} {f : List Byte → Verdict} (h : Moves msk a s)
    (g : ∀ b, MovesVerdict msk a (f b)) : MovesVerdict msk a (withFile s c p file f) := by
  unfold withFile
  extract_lets +onlyGivenNames addr len read
  have hr : ∀ at1, MovesVerdict msk a (read at1) := by
    intro at1
    dsimp only [read]
    split
    · exact moves_hostAccessFailed (maskSub_trans hm rfl) h
    · exact g _
  clear_value read
  split
  · split
    · exact moves_hostAccessFailed (maskSub_trans hm rfl) h
    · extract_lets
      split
      · exact moves_refuse (maskSub_trans hm rfl) h
      · exact hr _
  · exact hr _

theorem moves_imageLoad {msk : Nat} (hm : maskSub 0x199581e msk = true) {a : State} {c : HostCmd} {file : HostFile} {s : State} {p : Packet} (h : Moves msk a s) : MovesVerdict msk a (imageLoad c file s p) := by
  unfold imageLoad
  by_cases g1 : (!imageArgsOk p) = true
  · rw [if_pos g1]; exact moves_refuse (maskSub_trans hm rfl) h
  rw [if_neg g1]
  by_cases g2 : s.hal.load.isSome = true
  · rw [if_pos g2]; exact moves_refuse (maskSub_trans hm rfl) h
  rw [if_neg g2]
  by_cases g3 : 64 ≤ s.hif.pendings.length
  · rw [if_pos g3]; exact moves_refuse (maskSub_trans hm rfl) h
  rw [if_neg g3]
  refine moves_withFile (maskSub_trans hm rfl) h (fun b => ?_)
  extract_lets +onlyGivenNames hd
  split
  · exact moves_loadFails (maskSub_trans hm rfl) h
  split
  · split
    · exact moves_loadFails (maskSub_trans hm rfl) h
    extract_lets +onlyGivenNames i
    split
    · exact moves_refuse (maskSub_trans hm rfl) h
    split
    · exact moves_loadFails (maskSub_trans hm rfl) h
    split
    · exact moves_refuse (maskSub_trans hm rfl) h
    exact moves_acceptFile (maskSub_trans hm rfl) h
  · exact moves_refuse (maskSub_trans hm rfl) h

theorem moves_imageLoadSection {msk : Nat} (hm : maskSub 0x19581e msk = true) {a : State} {s : State} {p : Packet} (h : Moves msk a s) : MovesVerdict msk a (imageLoadSection s p) := by
  unfold imageLoadSection
  extract_lets k
  by_cases g1 : (!imageArgsOk p || pktQ p 3 != 0) = true
  · rw [if_pos g1]; exact moves_refuse (maskSub_trans hm rfl) h
  rw [if_neg g1]
  split
  · exact moves_refuse (maskSub_trans hm rfl) h
  by_cases g2 : s.hal.load.isSome = true
  · rw [if_pos g2]; exact moves_refuse (maskSub_trans hm rfl) h
  rw [if_neg g2]
  by_cases g3 : 64 ≤ s.hif.pendings.length
  · rw [if_pos g3]; exact moves_refuse (maskSub_trans hm rfl) h
  rw [if_neg g3]
  split
  · exact moves_loadFails (maskSub_trans hm rfl) h
  split
  · exact moves_loadFails (maskSub_trans hm rfl) h
  split
  · exact moves_refuse (maskSub_trans hm rfl) h
  split
  · exact moves_loadFails (maskSub_trans hm rfl) h
  split
  · exact moves_refuse (maskSub_trans hm rfl) h
  · exact moves_startLoad (maskSub_trans hm rfl) h

theorem moves_imageVerify {msk : Nat} (hm : maskSub 0x98001e msk = true) {a : State} {c : HostCmd} {file : HostFile} {s : State} {p : Packet} (h : Moves msk a s) : MovesVerdict msk a (imageVerify c file s p) := by
  have mend (t : State) (x : Option LoadJob) (k : Moves msk a t) : Moves msk a { t with hal := { t.hal with load := x } } := by
    apply Moves.ofUpdate k <;> first | with_reducible exact fun _ => rfl | exact id | exact maskHit hm rfl | exact fun _ => rfl | exact rfl
  unfold imageVerify
  by_cases g1 : (!imageArgsOk p || dbit (pktDw p 2) 0) = true
  · rw [if_pos g1]; exact moves_refuse (maskSub_trans hm rfl) h
  rw [if_neg g1]
  by_cases g2 : s.hal.load.isSome = true
  · rw [if_pos g2]; exact moves_refuse (maskSub_trans hm rfl) h
  rw [if_neg g2]
  by_cases g3 : 64 ≤ s.hif.pendings.length
  · rw [if_pos g3]; exact moves_refuse (maskSub_trans hm rfl) h
  rw [if_neg g3]
  refine moves_withFile (maskSub_trans hm rfl) h (fun b => ?_)
  extract_lets +onlyGivenNames hd
  split
  · exact moves_refuse (maskSub_trans hm rfl) h
  · extract_lets +onlyGivenNames i
    exact movesVerdict_pend (mend _ _ h)

theorem moves_writeMirror {msk : Nat} (hm : maskSub 0x1000800 msk = true) {a : State} {s : State} {i : Image} (h : Moves msk a s) : Moves msk a (writeMirror s i) := by
  unfold writeMirror
  repeat' first | (extract_lets +onlyGivenNames z; refine Moves.cut (m := msk) a z ?_ (fun hz => ?_) <;> [(dsimp -zeta only [z]; revert z; intro _); (clear_value z; revert z; intro _ _)]) | (extract_lets +onlyGivenNames z; revert z; intro _) | exact maskSub_trans hm rfl | with_reducible assumption | with_reducible apply moves_lpddrPut | with_reducible refine Moves.foldl ?_ (fun s x h => ?_) | with_reducible exact Moves.refl _ | ((with_reducible apply Moves.ofUpdate) <;> first | with_reducible assumption | with_reducible exact fun _ => rfl | exact id | exact maskHit hm rfl | exact fun _ => rfl | exact rfl | (intro p; simpa +zetaDelta using p) | (intro p; dsimp +zetaDelta only; (repeat (first | split | (simpa using p))))) | split | (dsimp -zeta +zetaDelta only)

theorem moves_pinRange {msk : Nat} (hm : maskSub 0x800 msk = true) {a : State} {s : State} {h1 : ℕ} {base : ℕ} {size : ℕ} (h : Moves msk a s) : Moves msk a (pinRange s h1 base size) := by
  unfold pinRange
  repeat' first | exact maskSub_trans hm rfl | with_reducible assumption | ((with_reducible apply Moves.ofUpdate) <;> first | with_reducible assumption | with_reducible exact fun _ => rfl | exact id | exact maskHit hm rfl | exact fun _ => rfl | exact rfl) | split

theorem moves_writePins {msk : Nat} (hm : maskSub 0x800 msk = true) {a : State} {s : State} {i : Image} {h1 : ℕ} (h : Moves msk a s) : Moves msk a (writePins s i h1) := by
  unfold writePins
  repeat' first | (extract_lets +onlyGivenNames z; refine Moves.cut (m := msk) a z ?_ (fun hz => ?_) <;> [(dsimp -zeta only [z]; revert z; intro _); (clear_value z; revert z; intro _ _)]) | (extract_lets +onlyGivenNames z; revert z; intro _) | exact maskSub_trans hm rfl | with_reducible assumption | with_reducible apply moves_pinRange | with_reducible refine Moves.foldl ?_ (fun s x h => ?_) | with_reducible exact Moves.refl _ | split | (dsimp -zeta +zetaDelta only)

theorem moves_writeWeights {msk : Nat} (hm : maskSub 0x800040 msk = true) {a : State} {s : State} {i : Image} {nets : List ℕ} (h : Moves msk a s) : Moves msk a (writeWeights s i nets) := by
  unfold writeWeights
  repeat' first | (extract_lets +onlyGivenNames z; refine Moves.cut (m := msk) a z ?_ (fun hz => ?_) <;> [(dsimp -zeta only [z]; revert z; intro _); (clear_value z; revert z; intro _ _)]) | (extract_lets +onlyGivenNames z; revert z; intro _) | exact maskSub_trans hm rfl | with_reducible assumption | with_reducible apply moves_setTile | with_reducible refine Moves.foldl ?_ (fun s x h => ?_) | with_reducible exact Moves.refl _ | ((with_reducible apply Moves.ofUpdate) <;> first | with_reducible assumption | with_reducible exact fun _ => rfl | exact id | exact maskHit hm rfl | exact fun _ => rfl | exact rfl | (intro p; simpa +zetaDelta using p) | (intro p; dsimp +zetaDelta only; (repeat (first | split | (simpa using p))))) | split | (dsimp -zeta +zetaDelta only)

theorem moves_writeScales {msk : Nat} (hm : maskSub 0x40 msk = true) {a : State} {s : State} {i : Image} {k : ℕ} (h : Moves msk a s) : Moves msk a (writeScales s i k) := by
  unfold writeScales
  repeat' first | (extract_lets +onlyGivenNames z; refine Moves.cut (m := msk) a z ?_ (fun hz => ?_) <;> [(dsimp -zeta only [z]; revert z; intro _); (clear_value z; revert z; intro _ _)]) | (extract_lets +onlyGivenNames z; revert z; intro _) | exact maskSub_trans hm rfl | with_reducible assumption | with_reducible apply moves_setTile | with_reducible refine Moves.foldl ?_ (fun s x h => ?_) | with_reducible exact Moves.refl _ | split | (dsimp -zeta +zetaDelta only)

theorem moves_writeConstants {msk : Nat} (hm : maskSub 0x80 msk = true) {a : State} {s : State} {i : Image} {k : ℕ} (h : Moves msk a s) : Moves msk a (writeConstants s i k) := by
  unfold writeConstants
  repeat' first | (extract_lets +onlyGivenNames z; refine Moves.cut (m := msk) a z ?_ (fun hz => ?_) <;> [(dsimp -zeta only [z]; revert z; intro _); (clear_value z; revert z; intro _ _)]) | (extract_lets +onlyGivenNames z; revert z; intro _) | exact maskSub_trans hm rfl | with_reducible assumption | with_reducible apply moves_setVtile | with_reducible refine Moves.foldl ?_ (fun s x h => ?_) | with_reducible exact Moves.refl _ | split | (dsimp -zeta +zetaDelta only)

theorem moves_writeConfig {msk : Nat} (hm : maskSub 0x1000810 msk = true) {a : State} {s : State} {i : Image} {k : ℕ} {h1 : ℕ} (h : Moves msk a s) : Moves msk a (writeConfig s i k h1) := by
  unfold writeConfig
  extract_lets +onlyGivenNames l words put s0
  have hp : ∀ x b w, Moves msk a x → Moves msk a (put x b w) := by
    intro x b w k
    dsimp only [put]
    split
    · exact k
    · exact Moves.setFeed (maskSub_trans hm rfl) k (fun m => memWrite_wf _ _ m) rfl
  clear_value put
  have h0 : Moves msk a s0 := by
    refine Moves.foldl h (fun x r k => ?_)
    dsimp only
    split
    · split
      · exact hp _ _ _ (hp _ _ _ k)
      · exact hp _ _ _ k
    · exact k
  clear_value s0
  exact Moves.setFeed (maskSub_trans hm rfl) (moves_setHoist (maskSub_trans hm rfl) h0) (fun m => m) rfl

theorem moves_execImageLoad {msk : Nat} (hm : maskSub 0x199581e msk = true) {a : State} {c : HostCmd} {file : HostFile} {s : State} (h : Moves msk a s) : MovesNext msk a (execImageLoad c file s) := by
  unfold execImageLoad
  repeat' first | with_reducible apply movesNext_done | with_reducible apply movesNext_next | with_reducible apply movesVerdict_finish | with_reducible apply movesVerdict_pend | exact maskSub_trans hm rfl | with_reducible assumption | intro _ _ _ | with_reducible apply moves_takeCmd | with_reducible apply moves_imageLoad | split

theorem moves_execImageLoadSection {msk : Nat} (hm : maskSub 0x19581e msk = true) {a : State} {c : HostCmd} {s : State} (h : Moves msk a s) : MovesNext msk a (execImageLoadSection c s) := by
  unfold execImageLoadSection
  repeat' first | with_reducible apply movesNext_done | with_reducible apply movesNext_next | with_reducible apply movesVerdict_finish | with_reducible apply movesVerdict_pend | exact maskSub_trans hm rfl | with_reducible assumption | intro _ _ _ | with_reducible apply moves_takeCmd | with_reducible apply moves_imageLoadSection | split

theorem moves_execImageVerify {msk : Nat} (hm : maskSub 0x98001e msk = true) {a : State} {c : HostCmd} {file : HostFile} {s : State} (h : Moves msk a s) : MovesNext msk a (execImageVerify c file s) := by
  unfold execImageVerify
  repeat' first | with_reducible apply movesNext_done | with_reducible apply movesNext_next | with_reducible apply movesVerdict_finish | with_reducible apply movesVerdict_pend | exact maskSub_trans hm rfl | with_reducible assumption | intro _ _ _ | with_reducible apply moves_takeCmd | with_reducible apply moves_imageVerify | split

theorem moves_execImageVerifyDone {msk : Nat} (hm : maskSub 0x19501e msk = true) {a : State} {s : State} (h : Moves msk a s) : MovesNext msk a (execImageVerifyDone s) := by
  unfold execImageVerifyDone
  repeat' first | with_reducible apply movesNext_done | with_reducible apply movesNext_next | exact maskSub_trans hm rfl | with_reducible assumption | with_reducible apply moves_done | with_reducible apply moves_finishFirst | with_reducible apply moves_faultAt | ((with_reducible apply Moves.ofUpdate) <;> first | with_reducible assumption | with_reducible exact fun _ => rfl | exact id | exact maskHit hm rfl | exact fun _ => rfl | exact rfl) | split

theorem moves_execImageLoadDone {msk : Nat} (hm : maskSub 0x19808de msk = true) {a : State} {s : State} (h : Moves msk a s) : MovesNext msk a (execImageLoadDone s) := by
  unfold execImageLoadDone
  repeat' first | (extract_lets +onlyGivenNames z; refine Moves.cut (m := msk) a z ?_ (fun hz => ?_) <;> [(dsimp -zeta only [z]; revert z; intro _); (clear_value z; revert z; intro _ _)]) | (extract_lets +onlyGivenNames z; revert z; intro _) | with_reducible apply movesNext_done | with_reducible apply movesNext_next | exact maskSub_trans hm rfl | with_reducible assumption | with_reducible apply moves_done | with_reducible apply moves_writeConfig | with_reducible apply moves_writeMirror | with_reducible apply moves_writeWeights | with_reducible apply moves_writePins | with_reducible apply moves_writeConstants | with_reducible apply moves_writeScales | with_reducible apply moves_moveHoist | with_reducible apply moves_finishFirst | with_reducible refine Moves.foldl ?_ (fun s x h => ?_) | with_reducible exact Moves.refl _ | ((with_reducible apply Moves.ofUpdate) <;> first | with_reducible assumption | with_reducible exact fun _ => rfl | exact id | exact maskHit hm rfl | exact fun _ => rfl | exact rfl | (intro p; simpa +zetaDelta using p) | (intro p; dsimp +zetaDelta only; (repeat (first | split | (simpa using p))))) | split | (dsimp -zeta +zetaDelta only)

end Sys2Proof.Machine
end

