-- ==== Sys2Proof/Laws/MovesPower.lean ====
section
/-! SUPPORT. `Moves` for the operations of Machine/Power.lean. -/

set_option linter.unusedTactic false
set_option linter.unreachableTactic false
set_option linter.tactic.unusedName false

namespace Sys2Proof.Machine

theorem moves_powerPends {msk : Nat} (hm : maskSub 0x18000e msk = true) {a : State} {s : State} (h : Moves msk a s) : Moves msk a (powerPends s) := by
  unfold powerPends
  repeat' first | (extract_lets +onlyGivenNames z; refine Moves.cut (m := msk) a z ?_ (fun hz => ?_) <;> [(dsimp -zeta only [z]; revert z; intro _); (clear_value z; revert z; intro _ _)]) | (extract_lets +onlyGivenNames z; revert z; intro _) | exact maskSub_trans hm rfl | with_reducible assumption | with_reducible apply moves_finishPend | with_reducible refine Moves.foldl ?_ (fun s x h => ?_) | with_reducible exact Moves.refl _ | split | (dsimp -zeta +zetaDelta only)

theorem moves_retarget {msk : Nat} (hm : maskSub 0x8000 msk = true) {a : State} {s : State} {k : ℕ} {cause : ℕ} (h : Moves msk a s) : Moves msk a (retarget s k cause) := by
  unfold retarget
  repeat' first | exact maskSub_trans hm rfl | with_reducible assumption | with_reducible apply moves_setSector | split

theorem moves_rescaled {msk : Nat} (hm : maskSub 0xc0 msk = true) {a : State} {s : State} {sector : ℕ} {t : Fc} {old : ℕ} {new : ℕ} (h : Moves msk a s) : Moves msk a (rescaled s sector t old new) := by
  unfold rescaled
  repeat' first | exact maskSub_trans hm rfl | with_reducible assumption | ((with_reducible apply Moves.ofUpdate) <;> first | with_reducible assumption | with_reducible exact fun _ => rfl | exact id | exact maskHit hm rfl | exact fun _ => rfl | exact rfl) | split

theorem moves_wipeGroup {msk : Nat} (hm : maskSub 0xfc0 msk = true) {a : State} {s : State} {sector : ℕ} {g : ℕ} (h : Moves msk a s) : Moves msk a (wipeGroup s sector g) := by
  unfold wipeGroup
  repeat' first | exact maskSub_trans hm rfl | with_reducible assumption | ((with_reducible apply Moves.ofUpdate) <;> first | with_reducible assumption | with_reducible exact fun _ => rfl | exact id | exact maskHit hm rfl | exact fun _ => rfl | exact rfl) | split

theorem moves_scrubAfresh {msk : Nat} (hm : maskSub 0x40 msk = true) {a : State} {s : State} {sector : ℕ} (h : Moves msk a s) : Moves msk a (scrubAfresh s sector) := by
  unfold scrubAfresh
  repeat' first | exact maskSub_trans hm rfl | with_reducible assumption | ((with_reducible apply Moves.ofUpdate) <;> first | with_reducible assumption | with_reducible exact fun _ => rfl | exact id | exact maskHit hm rfl | exact fun _ => rfl | exact rfl) | split

theorem moves_countStep {msk : Nat} (hm : maskSub 0x8000 msk = true) {a : State} {s : State} (h : Moves msk a s) : Moves msk a (countStep s) := by
  unfold countStep
  repeat' first | exact maskSub_trans hm rfl | with_reducible assumption | ((with_reducible apply Moves.ofUpdate) <;> first | with_reducible assumption | with_reducible exact fun _ => rfl | exact id | exact maskHit hm rfl | exact fun _ => rfl | exact rfl) | split

theorem moves_floorStep {msk : Nat} (hm : maskSub 0x8000 msk = true) {a : State} {s : State} {k : ℕ} {cause : ℕ} {x : Sector} (h : Moves msk a s) : Moves msk a (floorStep s k cause x) := by
  unfold floorStep
  repeat' first | exact maskSub_trans hm rfl | with_reducible assumption | with_reducible apply moves_retarget | with_reducible apply moves_countStep | with_reducible apply moves_setSector | split

theorem moves_thermalStep {msk : Nat} (hm : maskSub 0x8000 msk = true) {a : State} {s : State} {k : ℕ} {temp : ℤ} (h : Moves msk a s) : Moves msk a (thermalStep s k temp) := by
  unfold thermalStep
  repeat' first | (extract_lets +onlyGivenNames z; refine Moves.cut (m := msk) a z ?_ (fun hz => ?_) <;> [(dsimp -zeta only [z]; revert z; intro _); (clear_value z; revert z; intro _ _)]) | (extract_lets +onlyGivenNames z; revert z; intro _) | exact maskSub_trans hm rfl | with_reducible assumption | with_reducible apply moves_setSector | with_reducible apply moves_floorStep | split

theorem moves_neighbourStep {msk : Nat} (hm : maskSub 0x8000 msk = true) {a : State} {s : State} {k : ℕ} (h : Moves msk a s) : Moves msk a (neighbourStep s k) := by
  unfold neighbourStep
  repeat' first | (extract_lets +onlyGivenNames z; refine Moves.cut (m := msk) a z ?_ (fun hz => ?_) <;> [(dsimp -zeta only [z]; revert z; intro _); (clear_value z; revert z; intro _ _)]) | (extract_lets +onlyGivenNames z; revert z; intro _) | exact maskSub_trans hm rfl | with_reducible assumption | with_reducible apply moves_setSector | with_reducible apply moves_floorStep | with_reducible refine Moves.foldl ?_ (fun s x h => ?_) | with_reducible exact Moves.refl _ | ((with_reducible apply Moves.ofUpdate) <;> first | with_reducible assumption | with_reducible exact fun _ => rfl | exact id | exact maskHit hm rfl | exact fun _ => rfl | exact rfl | (intro p; simpa +zetaDelta using p) | (intro p; dsimp +zetaDelta only; (repeat (first | split | (simpa using p))))) | split | (dsimp -zeta +zetaDelta only)

theorem moves_capSlower {msk : Nat} (hm : maskSub 0x8000 msk = true) {a : State} {s : State} (h : Moves msk a s) : Moves msk a (capSlower s) := by
  unfold capSlower
  repeat' first | (extract_lets +onlyGivenNames z; refine Moves.cut (m := msk) a z ?_ (fun hz => ?_) <;> [(dsimp -zeta only [z]; revert z; intro _); (clear_value z; revert z; intro _ _)]) | (extract_lets +onlyGivenNames z; revert z; intro _) | exact maskSub_trans hm rfl | with_reducible assumption | with_reducible apply moves_retarget | with_reducible apply moves_countStep | with_reducible apply moves_setSector | with_reducible refine Moves.foldl ?_ (fun s x h => ?_) | with_reducible exact Moves.refl _ | ((with_reducible apply Moves.ofUpdate) <;> first | with_reducible assumption | with_reducible exact fun _ => rfl | exact id | exact maskHit hm rfl | exact fun _ => rfl | exact rfl | (intro p; simpa +zetaDelta using p) | (intro p; dsimp +zetaDelta only; (repeat (first | split | (simpa using p))))) | split | (dsimp -zeta +zetaDelta only)

theorem moves_capFaster {msk : Nat} (hm : maskSub 0x8000 msk = true) {a : State} {s : State} (h : Moves msk a s) : Moves msk a (capFaster s) := by
  unfold capFaster
  extract_lets +onlyGivenNames worst
  split
  · exact h
  split
  · exact moves_retarget (maskSub_trans hm rfl) (moves_countStep (maskSub_trans hm rfl) (moves_setSector (maskSub_trans hm rfl) h))
  · exact h

theorem moves_execDividerSwitchPoint {msk : Nat} (hm : maskSub 0x1880cf msk = true) {a : State} {sector : ℕ} {s : State} (h : Moves msk a s) : MovesNext msk a (execDividerSwitchPoint sector s) := by
  unfold execDividerSwitchPoint
  repeat' first | (extract_lets +onlyGivenNames z; refine Moves.cut (m := msk) a z ?_ (fun hz => ?_) <;> [(dsimp -zeta only [z]; revert z; intro _); (clear_value z; revert z; intro _ _)]) | (extract_lets +onlyGivenNames z; revert z; intro _) | with_reducible apply movesNext_done | with_reducible apply movesNext_next | exact maskSub_trans hm rfl | with_reducible assumption | with_reducible apply moves_done | with_reducible apply moves_advance | with_reducible apply moves_setSector | with_reducible apply moves_rescaled | with_reducible apply moves_postDev | with_reducible apply moves_powerPends | split

theorem moves_execVddSlewDone {msk : Nat} (hm : maskSub 0x18800f msk = true) {a : State} {sector : ℕ} {s : State} (h : Moves msk a s) : MovesNext msk a (execVddSlewDone sector s) := by
  unfold execVddSlewDone
  repeat' first | (extract_lets +onlyGivenNames z; refine Moves.cut (m := msk) a z ?_ (fun hz => ?_) <;> [(dsimp -zeta only [z]; revert z; intro _); (clear_value z; revert z; intro _ _)]) | (extract_lets +onlyGivenNames z; revert z; intro _) | with_reducible apply movesNext_done | with_reducible apply movesNext_next | exact maskSub_trans hm rfl | with_reducible assumption | with_reducible apply moves_done | with_reducible apply moves_advance | with_reducible apply moves_setSector | with_reducible apply moves_powerPends | split

theorem moves_execPowerSetOperatingPoint {msk : Nat} (hm : maskSub 0x18800e msk = true) {a : State} {c : HostCmd} {s : State} (h : Moves msk a s) : MovesNext msk a (execPowerSetOperatingPoint c s) := by
  unfold execPowerSetOperatingPoint
  repeat' first | (extract_lets +onlyGivenNames z; refine Moves.cut (m := msk) a z ?_ (fun hz => ?_) <;> [(dsimp -zeta only [z]; revert z; intro _); (clear_value z; revert z; intro _ _)]) | (extract_lets +onlyGivenNames z; revert z; intro _) | with_reducible apply movesNext_done | with_reducible apply movesNext_next | with_reducible apply movesVerdict_finish | with_reducible apply movesVerdict_pend | exact maskSub_trans hm rfl | with_reducible assumption | intro _ _ _ | with_reducible apply moves_takeCmd | with_reducible apply moves_refuse | with_reducible apply moves_retarget | with_reducible apply moves_setSector | with_reducible apply moves_okAt | with_reducible refine Moves.foldl ?_ (fun s x h => ?_) | with_reducible exact Moves.refl _ | split | (dsimp -zeta +zetaDelta only)

theorem moves_execPowerSetCap {msk : Nat} (hm : maskSub 0x18800e msk = true) {a : State} {c : HostCmd} {s : State} (h : Moves msk a s) : MovesNext msk a (execPowerSetCap c s) := by
  unfold execPowerSetCap
  repeat' first | (extract_lets +onlyGivenNames z; refine Moves.cut (m := msk) a z ?_ (fun hz => ?_) <;> [(dsimp -zeta only [z]; revert z; intro _); (clear_value z; revert z; intro _ _)]) | (extract_lets +onlyGivenNames z; revert z; intro _) | with_reducible apply movesNext_done | with_reducible apply movesNext_next | with_reducible apply movesVerdict_finish | with_reducible apply movesVerdict_pend | exact maskSub_trans hm rfl | with_reducible assumption | intro _ _ _ | with_reducible apply moves_takeCmd | with_reducible apply moves_refuse | with_reducible apply moves_okAt | with_reducible refine Moves.foldl ?_ (fun s x h => ?_) | with_reducible exact Moves.refl _ | ((with_reducible apply Moves.ofUpdate) <;> first | with_reducible assumption | with_reducible exact fun _ => rfl | exact id | exact maskHit hm rfl | exact fun _ => rfl | exact rfl | (intro p; simpa +zetaDelta using p) | (intro p; dsimp +zetaDelta only; (repeat (first | split | (simpa using p))))) | split | (dsimp -zeta +zetaDelta only)

theorem moves_execPowerSetThermal {msk : Nat} (hm : maskSub 0x18800e msk = true) {a : State} {c : HostCmd} {s : State} (h : Moves msk a s) : MovesNext msk a (execPowerSetThermal c s) := by
  unfold execPowerSetThermal
  repeat' first | (extract_lets +onlyGivenNames z; refine Moves.cut (m := msk) a z ?_ (fun hz => ?_) <;> [(dsimp -zeta only [z]; revert z; intro _); (clear_value z; revert z; intro _ _)]) | (extract_lets +onlyGivenNames z; revert z; intro _) | with_reducible apply movesNext_done | with_reducible apply movesNext_next | with_reducible apply movesVerdict_finish | with_reducible apply movesVerdict_pend | exact maskSub_trans hm rfl | with_reducible assumption | intro _ _ _ | with_reducible apply moves_takeCmd | with_reducible apply moves_refuse | with_reducible apply moves_okAt | with_reducible refine Moves.foldl ?_ (fun s x h => ?_) | with_reducible exact Moves.refl _ | ((with_reducible apply Moves.ofUpdate) <;> first | with_reducible assumption | with_reducible exact fun _ => rfl | exact id | exact maskHit hm rfl | exact fun _ => rfl | exact rfl | (intro p; simpa +zetaDelta using p) | (intro p; dsimp +zetaDelta only; (repeat (first | split | (simpa using p))))) | split | (dsimp -zeta +zetaDelta only)

theorem moves_execPowerSetSleep {msk : Nat} (hm : maskSub 0x18800e msk = true) {a : State} {c : HostCmd} {s : State} (h : Moves msk a s) : MovesNext msk a (execPowerSetSleep c s) := by
  unfold execPowerSetSleep
  repeat' first | (extract_lets +onlyGivenNames z; refine Moves.cut (m := msk) a z ?_ (fun hz => ?_) <;> [(dsimp -zeta only [z]; revert z; intro _); (clear_value z; revert z; intro _ _)]) | (extract_lets +onlyGivenNames z; revert z; intro _) | with_reducible apply movesNext_done | with_reducible apply movesNext_next | with_reducible apply movesVerdict_finish | with_reducible apply movesVerdict_pend | exact maskSub_trans hm rfl | with_reducible assumption | intro _ _ _ | with_reducible apply moves_takeCmd | with_reducible apply moves_refuse | with_reducible apply moves_postDev | with_reducible apply moves_setSector | with_reducible apply moves_okAt | with_reducible refine Moves.foldl ?_ (fun s x h => ?_) | with_reducible exact Moves.refl _ | split | (dsimp -zeta +zetaDelta only)

theorem moves_execPowerSetWake {msk : Nat} (hm : maskSub 0x18800e msk = true) {a : State} {c : HostCmd} {s : State} (h : Moves msk a s) : MovesNext msk a (execPowerSetWake c s) := by
  unfold execPowerSetWake
  repeat' first | (extract_lets +onlyGivenNames z; refine Moves.cut (m := msk) a z ?_ (fun hz => ?_) <;> [(dsimp -zeta only [z]; revert z; intro _); (clear_value z; revert z; intro _ _)]) | (extract_lets +onlyGivenNames z; revert z; intro _) | with_reducible apply movesNext_done | with_reducible apply movesNext_next | with_reducible apply movesVerdict_finish | with_reducible apply movesVerdict_pend | exact maskSub_trans hm rfl | with_reducible assumption | intro _ _ _ | with_reducible apply moves_takeCmd | with_reducible apply moves_refuse | with_reducible apply moves_setSector | with_reducible apply moves_okAt | with_reducible refine Moves.foldl ?_ (fun s x h => ?_) | with_reducible exact Moves.refl _ | split | (dsimp -zeta +zetaDelta only)

theorem moves_execPowerSetReset {msk : Nat} (hm : maskSub 0x1c000e msk = true) {a : State} {c : HostCmd} {s : State} (h : Moves msk a s) : MovesNext msk a (execPowerSetReset c s) := by
  unfold execPowerSetReset
  repeat' first | with_reducible apply movesNext_done | with_reducible apply movesNext_next | with_reducible apply movesVerdict_finish | with_reducible apply movesVerdict_pend | exact maskSub_trans hm rfl | with_reducible assumption | intro _ _ _ | with_reducible apply moves_takeCmd | with_reducible apply moves_refuse | with_reducible apply moves_okAt | with_reducible apply moves_askReset | ((with_reducible apply Moves.ofUpdate) <;> first | with_reducible assumption | with_reducible exact fun _ => rfl | exact id | exact maskHit hm rfl | exact fun _ => rfl | exact rfl) | split

theorem moves_execSectorWakeGroup {msk : Nat} (hm : maskSub 0x188fcf msk = true) {a : State} {sector : ℕ} {s : State} (h : Moves msk a s) : MovesNext msk a (execSectorWakeGroup sector s) := by
  unfold execSectorWakeGroup
  repeat' first | (extract_lets +onlyGivenNames z; refine Moves.cut (m := msk) a z ?_ (fun hz => ?_) <;> [(dsimp -zeta only [z]; revert z; intro _); (clear_value z; revert z; intro _ _)]) | (extract_lets +onlyGivenNames z; revert z; intro _) | with_reducible apply movesNext_done | with_reducible apply movesNext_next | exact maskSub_trans hm rfl | with_reducible assumption | with_reducible apply moves_done | with_reducible apply moves_advance | with_reducible apply moves_wipeGroup | with_reducible apply moves_setSector | with_reducible apply moves_scrubAfresh | with_reducible apply moves_powerPends | with_reducible apply moves_postDev | split

theorem moves_execThermalSample {msk : Nat} (hm : maskSub 0x8008 msk = true) {a : State} {sector : ℕ} {sensors : List ℤ} {s : State} (h : Moves msk a s) : MovesNext msk a (execThermalSample sector sensors s) := by
  unfold execThermalSample
  repeat' first | (extract_lets +onlyGivenNames z; refine Moves.cut (m := msk) a z ?_ (fun hz => ?_) <;> [(dsimp -zeta only [z]; revert z; intro _); (clear_value z; revert z; intro _ _)]) | (extract_lets +onlyGivenNames z; revert z; intro _) | with_reducible apply movesNext_done | with_reducible apply movesNext_next | exact maskSub_trans hm rfl | with_reducible assumption | with_reducible apply moves_done | with_reducible apply moves_setSector | with_reducible apply moves_rcNote | with_reducible apply moves_neighbourStep | with_reducible apply moves_thermalStep | with_reducible refine Moves.foldl ?_ (fun s x h => ?_) | with_reducible exact Moves.refl _ | ((with_reducible apply Moves.ofUpdate) <;> first | with_reducible assumption | with_reducible exact fun _ => rfl | exact id | exact maskHit hm rfl | exact fun _ => rfl | exact rfl | (intro p; simpa +zetaDelta using p) | (intro p; dsimp +zetaDelta only; (repeat (first | split | (simpa using p))))) | split | (dsimp -zeta +zetaDelta only)

theorem moves_execNeighbourDiffExpiry {msk : Nat} (hm : maskSub 0x800f msk = true) {a : State} {hotter : ℕ} {cooler : ℕ} {s : State} (h : Moves msk a s) : MovesNext msk a (execNeighbourDiffExpiry hotter cooler s) := by
  unfold execNeighbourDiffExpiry
  repeat' first | (extract_lets +onlyGivenNames z; refine Moves.cut (m := msk) a z ?_ (fun hz => ?_) <;> [(dsimp -zeta only [z]; revert z; intro _); (clear_value z; revert z; intro _ _)]) | (extract_lets +onlyGivenNames z; revert z; intro _) | with_reducible apply movesNext_done | with_reducible apply movesNext_next | exact maskSub_trans hm rfl | with_reducible assumption | with_reducible apply moves_done | with_reducible apply moves_advance | with_reducible apply moves_postDev | with_reducible apply moves_floorStep | with_reducible refine Moves.foldl ?_ (fun s x h => ?_) | with_reducible exact Moves.refl _ | ((with_reducible apply Moves.ofUpdate) <;> first | with_reducible assumption | with_reducible exact fun _ => rfl | exact id | exact maskHit hm rfl | exact fun _ => rfl | exact rfl | (intro p; simpa +zetaDelta using p) | (intro p; dsimp +zetaDelta only; (repeat (first | split | (simpa using p))))) | split | (dsimp -zeta +zetaDelta only)

theorem moves_execPowerCapAverage {msk : Nat} (hm : maskSub 0x8000 msk = true) {a : State} {pin : ℕ} {s : State} (h : Moves msk a s) : MovesNext msk a (execPowerCapAverage pin s) := by
  unfold execPowerCapAverage
  repeat' first | (extract_lets +onlyGivenNames z; refine Moves.cut (m := msk) a z ?_ (fun hz => ?_) <;> [(dsimp -zeta only [z]; revert z; intro _); (clear_value z; revert z; intro _ _)]) | (extract_lets +onlyGivenNames z; revert z; intro _) | with_reducible apply movesNext_done | with_reducible apply movesNext_next | exact maskSub_trans hm rfl | with_reducible assumption | with_reducible apply moves_done | with_reducible apply moves_capSlower | with_reducible apply moves_capFaster | with_reducible refine Moves.foldl ?_ (fun s x h => ?_) | with_reducible exact Moves.refl _ | ((with_reducible apply Moves.ofUpdate) <;> first | with_reducible assumption | with_reducible exact fun _ => rfl | exact id | exact maskHit hm rfl | exact fun _ => rfl | exact rfl | (intro p; simpa +zetaDelta using p) | (intro p; dsimp +zetaDelta only; (repeat (first | split | (simpa using p))))) | split | (dsimp -zeta +zetaDelta only)

theorem moves_execThermalRead {msk : Nat} (hm : maskSub 0x98000e msk = true) {a : State} {c : HostCmd} {s : State} (h : Moves msk a s) : MovesNext msk a (execThermalRead c s) := by
  unfold execThermalRead
  repeat' first | with_reducible apply movesNext_done | with_reducible apply movesNext_next | with_reducible apply movesVerdict_finish | with_reducible apply movesVerdict_pend | exact maskSub_trans hm rfl | with_reducible assumption | intro _ _ _ | with_reducible apply moves_takeCmd | with_reducible apply moves_refuse | ((with_reducible apply Moves.ofUpdate) <;> first | with_reducible assumption | with_reducible exact fun _ => rfl | exact id | exact maskHit hm rfl | exact fun _ => rfl | exact rfl) | split

theorem moves_execRefClockLoss {msk : Nat} (hm : maskSub 0x19d01e msk = true) {a : State} {s : State} (h : Moves msk a s) : MovesNext msk a (execRefClockLoss s) := by
  unfold execRefClockLoss
  repeat' first | with_reducible apply movesNext_done | with_reducible apply movesNext_next | exact maskSub_trans hm rfl | with_reducible assumption | with_reducible apply moves_done | with_reducible apply moves_fault | ((with_reducible apply Moves.ofUpdate) <;> first | with_reducible assumption | with_reducible exact fun _ => rfl | exact id | exact maskHit hm rfl | exact fun _ => rfl | exact rfl) | split

theorem moves_execRefClockRestore {msk : Nat} (hm : maskSub 0x19d01e msk = true) {a : State} {s : State} (h : Moves msk a s) : MovesNext msk a (execRefClockRestore s) := by
  unfold execRefClockRestore
  repeat' first | with_reducible apply movesNext_done | with_reducible apply movesNext_next | exact maskSub_trans hm rfl | with_reducible assumption | with_reducible apply moves_done | with_reducible apply moves_fault | ((with_reducible apply Moves.ofUpdate) <;> first | with_reducible assumption | with_reducible exact fun _ => rfl | exact id | exact maskHit hm rfl | exact fun _ => rfl | exact rfl) | split

end Sys2Proof.Machine
end

