-- ==== Sys2Proof/Laws/MovesPmbusJtag.lean ====
section
/-! SUPPORT. `Moves` for the operations of Machine/PmbusJtag.lean. -/

set_option linter.unusedTactic false
set_option linter.unreachableTactic false
set_option linter.tactic.unusedName false

namespace Sys2Proof.Machine

theorem moves_setPmbus {msk : Nat} (hm : maskSub 0x8000 msk = true) {a : State} {s : State} {b : PmBus} (h : Moves msk a s) : Moves msk a (setPmbus s b) := by
  unfold setPmbus
  repeat' first | exact maskSub_trans hm rfl | with_reducible assumption | ((with_reducible apply Moves.ofUpdate) <;> first | with_reducible assumption | with_reducible exact fun _ => rfl | exact id | exact maskHit hm rfl | exact fun _ => rfl | exact rfl) | split

theorem moves_replyWith {msk : Nat} (hm : maskSub 0x8000 msk = true) {a : State} {s : State} {v : ℕ} (h : Moves msk a s) : Moves msk a (replyWith s v) := by
  unfold replyWith
  repeat' first | exact maskSub_trans hm rfl | with_reducible assumption | with_reducible apply moves_setPmbus | split

theorem moves_accepted {msk : Nat} (hm : maskSub 0x8000 msk = true) {a : State} {s : State} (h : Moves msk a s) : Moves msk a (accepted s) := by
  unfold accepted
  repeat' first | exact maskSub_trans hm rfl | with_reducible assumption | with_reducible apply moves_setPmbus | split

theorem moves_nacked {msk : Nat} (hm : maskSub 0x8000 msk = true) {a : State} {s : State} (h : Moves msk a s) : Moves msk a (nacked s) := by
  unfold nacked
  repeat' first | exact maskSub_trans hm rfl | with_reducible assumption | with_reducible apply moves_setPmbus | split

theorem moves_measured {msk : Nat} (hm : maskSub 0x8000 msk = true) {a : State} {s : State} {t : Telemetry} (h : Moves msk a s) : Moves msk a (measured s t) := by
  unfold measured
  repeat' first | exact maskSub_trans hm rfl | with_reducible assumption | ((with_reducible apply Moves.ofUpdate) <;> first | with_reducible assumption | with_reducible exact fun _ => rfl | exact id | exact maskHit hm rfl | exact fun _ => rfl | exact rfl) | split

theorem moves_railsDown {msk : Nat} (hm : maskSub 0x8014 msk = true) {a : State} {s : State} {c : StageFault} (h : Moves msk a s) : Moves msk a (railsDown s c) := by
  unfold railsDown
  repeat' first | exact maskSub_trans hm rfl | with_reducible assumption | ((with_reducible apply Moves.ofUpdate) <;> first | with_reducible assumption | with_reducible exact fun _ => rfl | exact id | exact maskHit hm rfl | exact fun _ => rfl | exact rfl) | split

theorem moves_drivePins {msk : Nat} (hm : maskSub 0x19501e msk = true) {a : State} {s : State} {i : TapInstr} (h : Moves msk a s) : Moves msk a (drivePins s i) := by
  unfold drivePins
  repeat' first | (extract_lets +onlyGivenNames z; refine Moves.cut (m := msk) a z ?_ (fun hz => ?_) <;> [(dsimp -zeta only [z]; revert z; intro _); (clear_value z; revert z; intro _ _)]) | (extract_lets +onlyGivenNames z; revert z; intro _) | exact maskSub_trans hm rfl | with_reducible assumption | with_reducible apply moves_hifReset | with_reducible apply moves_fault | with_reducible refine Moves.foldl ?_ (fun s x h => ?_) | with_reducible exact Moves.refl _ | ((with_reducible apply Moves.ofUpdate) <;> first | with_reducible assumption | with_reducible exact fun _ => rfl | exact id | exact maskHit hm rfl | exact fun _ => rfl | exact rfl | (intro p; simpa +zetaDelta using p) | (intro p; dsimp +zetaDelta only; (repeat (first | split | (simpa using p))))) | split | (dsimp -zeta +zetaDelta only)

theorem moves_onBus {msk : Nat} (hm : maskSub 0x8000 msk = true) {a s : State} {f : State → State} (h : Moves msk a s) (g : Moves msk a (f s)) : MovesNext msk a (onBus s f) := by
  unfold onBus
  refine movesNext_done ?_
  split
  · exact g
  · exact moves_nacked (maskSub_trans hm rfl) h

theorem moves_limitOp {msk : Nat} (hm : maskSub 0x8000 msk = true) {a : State} {code : ℕ} {get : PmBus → BitVec 16} {put : PmBus → BitVec 16 → PmBus} {op : PmOp} {s : State} (h : Moves msk a s) : MovesNext msk a (limitOp code get put op s) := by
  unfold limitOp
  repeat' first | with_reducible apply movesNext_done | with_reducible apply movesNext_next | exact maskSub_trans hm rfl | with_reducible assumption | with_reducible apply moves_onBus | with_reducible apply moves_replyWith | with_reducible apply moves_accepted | with_reducible apply moves_setPmbus | split

theorem moves_execOtFaultLimit {msk : Nat} (hm : maskSub 0x8000 msk = true) {a : State} {op : PmOp} {s : State} (h : Moves msk a s) : MovesNext msk a (execOtFaultLimit op s) := by
  unfold execOtFaultLimit
  repeat' first | with_reducible apply movesNext_done | with_reducible apply movesNext_next | exact maskSub_trans hm rfl | with_reducible assumption | with_reducible apply moves_limitOp | split

theorem moves_execOtWarnLimit {msk : Nat} (hm : maskSub 0x8000 msk = true) {a : State} {op : PmOp} {s : State} (h : Moves msk a s) : MovesNext msk a (execOtWarnLimit op s) := by
  unfold execOtWarnLimit
  repeat' first | with_reducible apply movesNext_done | with_reducible apply movesNext_next | exact maskSub_trans hm rfl | with_reducible assumption | with_reducible apply moves_limitOp | split

theorem moves_execVinOvFaultLimit {msk : Nat} (hm : maskSub 0x8000 msk = true) {a : State} {op : PmOp} {s : State} (h : Moves msk a s) : MovesNext msk a (execVinOvFaultLimit op s) := by
  unfold execVinOvFaultLimit
  repeat' first | with_reducible apply movesNext_done | with_reducible apply movesNext_next | exact maskSub_trans hm rfl | with_reducible assumption | with_reducible apply moves_limitOp | split

theorem moves_execVinOvWarnLimit {msk : Nat} (hm : maskSub 0x8000 msk = true) {a : State} {op : PmOp} {s : State} (h : Moves msk a s) : MovesNext msk a (execVinOvWarnLimit op s) := by
  unfold execVinOvWarnLimit
  repeat' first | with_reducible apply movesNext_done | with_reducible apply movesNext_next | exact maskSub_trans hm rfl | with_reducible assumption | with_reducible apply moves_limitOp | split

theorem moves_execVinUvWarnLimit {msk : Nat} (hm : maskSub 0x8000 msk = true) {a : State} {op : PmOp} {s : State} (h : Moves msk a s) : MovesNext msk a (execVinUvWarnLimit op s) := by
  unfold execVinUvWarnLimit
  repeat' first | with_reducible apply movesNext_done | with_reducible apply movesNext_next | exact maskSub_trans hm rfl | with_reducible assumption | with_reducible apply moves_limitOp | split

theorem moves_execVinUvFaultLimit {msk : Nat} (hm : maskSub 0x8000 msk = true) {a : State} {op : PmOp} {s : State} (h : Moves msk a s) : MovesNext msk a (execVinUvFaultLimit op s) := by
  unfold execVinUvFaultLimit
  repeat' first | with_reducible apply movesNext_done | with_reducible apply movesNext_next | exact maskSub_trans hm rfl | with_reducible assumption | with_reducible apply moves_limitOp | split

theorem moves_execIinOcFaultLimit {msk : Nat} (hm : maskSub 0x8000 msk = true) {a : State} {op : PmOp} {s : State} (h : Moves msk a s) : MovesNext msk a (execIinOcFaultLimit op s) := by
  unfold execIinOcFaultLimit
  repeat' first | with_reducible apply movesNext_done | with_reducible apply movesNext_next | exact maskSub_trans hm rfl | with_reducible assumption | with_reducible apply moves_limitOp | split

theorem moves_execIinOcWarnLimit {msk : Nat} (hm : maskSub 0x8000 msk = true) {a : State} {op : PmOp} {s : State} (h : Moves msk a s) : MovesNext msk a (execIinOcWarnLimit op s) := by
  unfold execIinOcWarnLimit
  repeat' first | with_reducible apply movesNext_done | with_reducible apply movesNext_next | exact maskSub_trans hm rfl | with_reducible assumption | with_reducible apply moves_limitOp | split

theorem moves_execPinOpWarnLimit {msk : Nat} (hm : maskSub 0x8000 msk = true) {a : State} {op : PmOp} {s : State} (h : Moves msk a s) : MovesNext msk a (execPinOpWarnLimit op s) := by
  unfold execPinOpWarnLimit
  repeat' first | with_reducible apply movesNext_done | with_reducible apply movesNext_next | exact maskSub_trans hm rfl | with_reducible assumption | with_reducible apply moves_limitOp | split

theorem moves_execClearFaults {msk : Nat} (hm : maskSub 0x8000 msk = true) {a : State} {s : State} (h : Moves msk a s) : MovesNext msk a (execClearFaults s) := by
  unfold execClearFaults
  repeat' first | with_reducible apply movesNext_done | with_reducible apply movesNext_next | exact maskSub_trans hm rfl | with_reducible assumption | with_reducible apply moves_onBus | with_reducible apply moves_accepted | with_reducible apply moves_setPmbus | split

theorem moves_execWriteProtect {msk : Nat} (hm : maskSub 0x8000 msk = true) {a : State} {op : PmOp} {s : State} (h : Moves msk a s) : MovesNext msk a (execWriteProtect op s) := by
  unfold execWriteProtect
  repeat' first | (extract_lets +onlyGivenNames z; refine Moves.cut (m := msk) a z ?_ (fun hz => ?_) <;> [(dsimp -zeta only [z]; revert z; intro _); (clear_value z; revert z; intro _ _)]) | (extract_lets +onlyGivenNames z; revert z; intro _) | with_reducible apply movesNext_done | with_reducible apply movesNext_next | exact maskSub_trans hm rfl | with_reducible assumption | with_reducible apply moves_onBus | with_reducible apply moves_replyWith | with_reducible apply moves_accepted | with_reducible apply moves_setPmbus | split

theorem moves_execCapability {msk : Nat} (hm : maskSub 0x8000 msk = true) {a : State} {s : State} (h : Moves msk a s) : MovesNext msk a (execCapability s) := by
  unfold execCapability
  repeat' first | with_reducible apply movesNext_done | with_reducible apply movesNext_next | exact maskSub_trans hm rfl | with_reducible assumption | with_reducible apply moves_onBus | with_reducible apply moves_replyWith | split

theorem moves_execStatusWord {msk : Nat} (hm : maskSub 0x8000 msk = true) {a : State} {s : State} (h : Moves msk a s) : MovesNext msk a (execStatusWord s) := by
  unfold execStatusWord
  repeat' first | with_reducible apply movesNext_done | with_reducible apply movesNext_next | exact maskSub_trans hm rfl | with_reducible assumption | with_reducible apply moves_onBus | with_reducible apply moves_replyWith | split

theorem moves_statusOp {msk : Nat} (hm : maskSub 0x8000 msk = true) {a : State} {get : PmBus → BitVec 8} {put : PmBus → BitVec 8 → PmBus} {op : PmOp} {s : State} (h : Moves msk a s) : MovesNext msk a (statusOp get put op s) := by
  unfold statusOp
  repeat' first | with_reducible apply movesNext_done | with_reducible apply movesNext_next | exact maskSub_trans hm rfl | with_reducible assumption | with_reducible apply moves_onBus | with_reducible apply moves_replyWith | with_reducible apply moves_accepted | with_reducible apply moves_setPmbus | split

theorem moves_execStatusInput {msk : Nat} (hm : maskSub 0x8000 msk = true) {a : State} {op : PmOp} {s : State} (h : Moves msk a s) : MovesNext msk a (execStatusInput op s) := by
  unfold execStatusInput
  repeat' first | with_reducible apply movesNext_done | with_reducible apply movesNext_next | exact maskSub_trans hm rfl | with_reducible assumption | with_reducible apply moves_statusOp | split

theorem moves_execStatusTemperature {msk : Nat} (hm : maskSub 0x8000 msk = true) {a : State} {op : PmOp} {s : State} (h : Moves msk a s) : MovesNext msk a (execStatusTemperature op s) := by
  unfold execStatusTemperature
  repeat' first | with_reducible apply movesNext_done | with_reducible apply movesNext_next | exact maskSub_trans hm rfl | with_reducible assumption | with_reducible apply moves_statusOp | split

theorem moves_execStatusCml {msk : Nat} (hm : maskSub 0x8000 msk = true) {a : State} {op : PmOp} {s : State} (h : Moves msk a s) : MovesNext msk a (execStatusCml op s) := by
  unfold execStatusCml
  repeat' first | with_reducible apply movesNext_done | with_reducible apply movesNext_next | exact maskSub_trans hm rfl | with_reducible assumption | with_reducible apply moves_statusOp | split

theorem moves_execReadVin {msk : Nat} (hm : maskSub 0x8000 msk = true) {a : State} {t : Telemetry} {s : State} (h : Moves msk a s) : MovesNext msk a (execReadVin t s) := by
  unfold execReadVin
  repeat' first | with_reducible apply movesNext_done | with_reducible apply movesNext_next | exact maskSub_trans hm rfl | with_reducible assumption | with_reducible apply moves_onBus | with_reducible apply moves_replyWith | with_reducible apply moves_measured | split

theorem moves_execReadIin {msk : Nat} (hm : maskSub 0x8000 msk = true) {a : State} {t : Telemetry} {s : State} (h : Moves msk a s) : MovesNext msk a (execReadIin t s) := by
  unfold execReadIin
  repeat' first | with_reducible apply movesNext_done | with_reducible apply movesNext_next | exact maskSub_trans hm rfl | with_reducible assumption | with_reducible apply moves_onBus | with_reducible apply moves_replyWith | with_reducible apply moves_measured | split

theorem moves_execReadTemperature1 {msk : Nat} (hm : maskSub 0x8000 msk = true) {a : State} {t : Telemetry} {s : State} (h : Moves msk a s) : MovesNext msk a (execReadTemperature1 t s) := by
  unfold execReadTemperature1
  repeat' first | with_reducible apply movesNext_done | with_reducible apply movesNext_next | exact maskSub_trans hm rfl | with_reducible assumption | with_reducible apply moves_onBus | with_reducible apply moves_replyWith | with_reducible apply moves_measured | split

theorem moves_execReadPin {msk : Nat} (hm : maskSub 0x8000 msk = true) {a : State} {t : Telemetry} {s : State} (h : Moves msk a s) : MovesNext msk a (execReadPin t s) := by
  unfold execReadPin
  repeat' first | with_reducible apply movesNext_done | with_reducible apply movesNext_next | exact maskSub_trans hm rfl | with_reducible assumption | with_reducible apply moves_onBus | with_reducible apply moves_replyWith | with_reducible apply moves_measured | split

theorem moves_execPmbusRevision {msk : Nat} (hm : maskSub 0x8000 msk = true) {a : State} {s : State} (h : Moves msk a s) : MovesNext msk a (execPmbusRevision s) := by
  unfold execPmbusRevision
  repeat' first | with_reducible apply movesNext_done | with_reducible apply movesNext_next | exact maskSub_trans hm rfl | with_reducible assumption | with_reducible apply moves_onBus | with_reducible apply moves_replyWith | split

theorem moves_execMfrRestartCount {msk : Nat} (hm : maskSub 0x8000 msk = true) {a : State} {s : State} (h : Moves msk a s) : MovesNext msk a (execMfrRestartCount s) := by
  unfold execMfrRestartCount
  repeat' first | with_reducible apply movesNext_done | with_reducible apply movesNext_next | exact maskSub_trans hm rfl | with_reducible assumption | with_reducible apply moves_onBus | with_reducible apply moves_replyWith | split

theorem moves_execPmbusUnsupportedCommand {msk : Nat} (hm : maskSub 0x8000 msk = true) {a : State} {code : BitVec 8} {s : State} (h : Moves msk a s) : MovesNext msk a (execPmbusUnsupportedCommand code s) := by
  unfold execPmbusUnsupportedCommand
  repeat' first | with_reducible apply movesNext_done | with_reducible apply movesNext_next | exact maskSub_trans hm rfl | with_reducible assumption | with_reducible apply moves_done | with_reducible apply moves_nacked | split

theorem moves_execPmbusWarnCrossing {msk : Nat} (hm : maskSub 0x800e msk = true) {a : State} {limit : WarnLimit} {crossed : Bool} {t : Telemetry} {s : State} (h : Moves msk a s) : MovesNext msk a (execPmbusWarnCrossing limit crossed t s) := by
  unfold execPmbusWarnCrossing
  repeat' first | (extract_lets +onlyGivenNames z; refine Moves.cut (m := msk) a z ?_ (fun hz => ?_) <;> [(dsimp -zeta only [z]; revert z; intro _); (clear_value z; revert z; intro _ _)]) | (extract_lets +onlyGivenNames z; revert z; intro _) | with_reducible apply movesNext_done | with_reducible apply movesNext_next | exact maskSub_trans hm rfl | with_reducible assumption | with_reducible apply moves_done | with_reducible apply moves_setPmbus | with_reducible apply moves_measured | with_reducible apply moves_postDev | split

theorem moves_execPowerStageFault {msk : Nat} (hm : maskSub 0x19d01e msk = true) {a : State} {cause : StageFault} {t : Telemetry} {s : State} (h : Moves msk a s) : MovesNext msk a (execPowerStageFault cause t s) := by
  unfold execPowerStageFault
  repeat' first | (extract_lets +onlyGivenNames z; refine Moves.cut (m := msk) a z ?_ (fun hz => ?_) <;> [(dsimp -zeta only [z]; revert z; intro _); (clear_value z; revert z; intro _ _)]) | (extract_lets +onlyGivenNames z; revert z; intro _) | with_reducible apply movesNext_done | with_reducible apply movesNext_next | exact maskSub_trans hm rfl | with_reducible assumption | with_reducible apply moves_done | with_reducible apply moves_setPmbus | with_reducible apply moves_measured | with_reducible apply moves_fault | with_reducible apply moves_railsDown | split

theorem moves_execPowerStageRestart {msk : Nat} (hm : maskSub 0x1ffffff msk = true) {a s t : State} (h : Moves msk a s)
    (e : execPowerStageRestart s = .next t) : KeepsStores a t ∧ FrameOf msk a t := by
  refine ⟨?_, ⟨maskHit hm rfl, maskHit hm rfl, maskHit hm rfl, maskHit hm rfl, maskHit hm rfl, maskHit hm rfl, maskHit hm rfl, maskHit hm rfl, maskHit hm rfl, maskHit hm rfl, maskHit hm rfl, maskHit hm rfl, maskHit hm rfl, maskHit hm rfl, maskHit hm rfl, maskHit hm rfl, maskHit hm rfl, maskHit hm rfl, maskHit hm rfl, maskHit hm rfl, maskHit hm rfl, maskHit hm rfl, maskHit hm rfl, maskHit hm rfl, maskHit hm rfl⟩⟩
  unfold execPowerStageRestart at e
  split at e
  · cases e; exact h.keeps.stores
  · cases e
    have k : Moves 0x8000 s (setPmbus s { s.power.pmbus with restarts := sat 0xFFFF (s.power.pmbus.restarts + 1) }) := moves_setPmbus rfl (Moves.refl s)
    exact h.keeps.stores.trans (k.keeps.stores.trans (powerOn_stores _))

theorem moves_execVinRise {msk : Nat} (hm : maskSub 0x1ffffff msk = true) {a s t : State} (h : Moves msk a s)
    (e : execVinRise s = .next t) : KeepsStores a t ∧ FrameOf msk a t := by
  refine ⟨?_, ⟨maskHit hm rfl, maskHit hm rfl, maskHit hm rfl, maskHit hm rfl, maskHit hm rfl, maskHit hm rfl, maskHit hm rfl, maskHit hm rfl, maskHit hm rfl, maskHit hm rfl, maskHit hm rfl, maskHit hm rfl, maskHit hm rfl, maskHit hm rfl, maskHit hm rfl, maskHit hm rfl, maskHit hm rfl, maskHit hm rfl, maskHit hm rfl, maskHit hm rfl, maskHit hm rfl, maskHit hm rfl, maskHit hm rfl, maskHit hm rfl, maskHit hm rfl⟩⟩
  unfold execVinRise at e
  split at e
  · cases e; exact h.keeps.stores
  · cases e; exact h.keeps.stores.trans (powerOn_stores _)

theorem moves_execVinBelow36V {msk : Nat} (hm : maskSub 0x8000 msk = true) {a : State} {s : State} (h : Moves msk a s) : MovesNext msk a (execVinBelow36V s) := by
  unfold execVinBelow36V
  repeat' first | (extract_lets +onlyGivenNames z; refine Moves.cut (m := msk) a z ?_ (fun hz => ?_) <;> [(dsimp -zeta only [z]; revert z; intro _); (clear_value z; revert z; intro _ _)]) | (extract_lets +onlyGivenNames z; revert z; intro _) | with_reducible apply movesNext_done | with_reducible apply movesNext_next | exact maskSub_trans hm rfl | with_reducible assumption | with_reducible apply moves_setPmbus | with_reducible apply moves_done | with_reducible refine Moves.foldl ?_ (fun s x h => ?_) | with_reducible exact Moves.refl _ | ((with_reducible apply Moves.ofUpdate) <;> first | with_reducible assumption | with_reducible exact fun _ => rfl | exact id | exact maskHit hm rfl | exact fun _ => rfl | exact rfl | (intro p; simpa +zetaDelta using p) | (intro p; dsimp +zetaDelta only; (repeat (first | split | (simpa using p))))) | split | (dsimp -zeta +zetaDelta only)

theorem moves_execVinAbove36V {msk : Nat} (hm : maskSub 0x8000 msk = true) {a : State} {addrPins : ℕ} {s : State} (h : Moves msk a s) : MovesNext msk a (execVinAbove36V addrPins s) := by
  unfold execVinAbove36V
  repeat' first | with_reducible apply movesNext_done | with_reducible apply movesNext_next | exact maskSub_trans hm rfl | with_reducible assumption | with_reducible apply moves_done | with_reducible apply moves_setPmbus | split

theorem moves_execExtest {msk : Nat} (hm : maskSub 0x19501e msk = true) {a : State} {s : State} (h : Moves msk a s) : MovesNext msk a (execExtest s) := by
  unfold execExtest
  repeat' first | with_reducible apply movesNext_done | with_reducible apply movesNext_next | exact maskSub_trans hm rfl | with_reducible assumption | with_reducible apply moves_done | with_reducible apply moves_drivePins | split

theorem moves_execHighz {msk : Nat} (hm : maskSub 0x19501e msk = true) {a : State} {s : State} (h : Moves msk a s) : MovesNext msk a (execHighz s) := by
  unfold execHighz
  repeat' first | with_reducible apply movesNext_done | with_reducible apply movesNext_next | exact maskSub_trans hm rfl | with_reducible assumption | with_reducible apply moves_done | with_reducible apply moves_drivePins | split

theorem moves_execClamp {msk : Nat} (hm : maskSub 0x19501e msk = true) {a : State} {s : State} (h : Moves msk a s) : MovesNext msk a (execClamp s) := by
  unfold execClamp
  repeat' first | with_reducible apply movesNext_done | with_reducible apply movesNext_next | exact maskSub_trans hm rfl | with_reducible assumption | with_reducible apply moves_done | with_reducible apply moves_drivePins | split

theorem moves_execExtestPulse {msk : Nat} (hm : maskSub 0x19501e msk = true) {a : State} {s : State} (h : Moves msk a s) : MovesNext msk a (execExtestPulse s) := by
  unfold execExtestPulse
  repeat' first | with_reducible apply movesNext_done | with_reducible apply movesNext_next | exact maskSub_trans hm rfl | with_reducible assumption | with_reducible apply moves_done | with_reducible apply moves_drivePins | split

theorem moves_execExtestTrain {msk : Nat} (hm : maskSub 0x19501e msk = true) {a : State} {s : State} (h : Moves msk a s) : MovesNext msk a (execExtestTrain s) := by
  unfold execExtestTrain
  repeat' first | with_reducible apply movesNext_done | with_reducible apply movesNext_next | exact maskSub_trans hm rfl | with_reducible assumption | with_reducible apply moves_done | with_reducible apply moves_drivePins | split

theorem moves_execSamplePreload {msk : Nat} (hm : maskSub 0x10000 msk = true) {a : State} {s : State} (h : Moves msk a s) : MovesNext msk a (execSamplePreload s) := by
  unfold execSamplePreload
  repeat' first | with_reducible apply movesNext_done | with_reducible apply movesNext_next | exact maskSub_trans hm rfl | with_reducible assumption | with_reducible apply moves_done | ((with_reducible apply Moves.ofUpdate) <;> first | with_reducible assumption | with_reducible exact fun _ => rfl | exact id | exact maskHit hm rfl | exact fun _ => rfl | exact rfl) | split

theorem moves_execIdcode {msk : Nat} (hm : maskSub 0x10000 msk = true) {a : State} {s : State} (h : Moves msk a s) : MovesNext msk a (execIdcode s) := by
  unfold execIdcode
  repeat' first | with_reducible apply movesNext_done | with_reducible apply movesNext_next | exact maskSub_trans hm rfl | with_reducible assumption | with_reducible apply moves_done | ((with_reducible apply Moves.ofUpdate) <;> first | with_reducible assumption | with_reducible exact fun _ => rfl | exact id | exact maskHit hm rfl | exact fun _ => rfl | exact rfl) | split

theorem moves_execBypass {msk : Nat} (hm : maskSub 0x10000 msk = true) {a : State} {code : BitVec 8} {s : State} (h : Moves msk a s) : MovesNext msk a (execBypass code s) := by
  unfold execBypass
  repeat' first | with_reducible apply movesNext_done | with_reducible apply movesNext_next | exact maskSub_trans hm rfl | with_reducible assumption | with_reducible apply moves_done | ((with_reducible apply Moves.ofUpdate) <;> first | with_reducible assumption | with_reducible exact fun _ => rfl | exact id | exact maskHit hm rfl | exact fun _ => rfl | exact rfl) | split

theorem moves_execTapReset {msk : Nat} (hm : maskSub 0x10000 msk = true) {a : State} {s : State} (h : Moves msk a s) : MovesNext msk a (execTapReset s) := by
  unfold execTapReset
  repeat' first | with_reducible apply movesNext_done | with_reducible apply movesNext_next | exact maskSub_trans hm rfl | with_reducible assumption | with_reducible apply moves_done | ((with_reducible apply Moves.ofUpdate) <;> first | with_reducible assumption | with_reducible exact fun _ => rfl | exact id | exact maskHit hm rfl | exact fun _ => rfl | exact rfl) | split

end Sys2Proof.Machine
end

