-- ==== Sys2Proof/Laws/MovesRegs.lean ====
section
/-! SUPPORT. `Moves` for the operations of Machine/Regs.lean. -/

set_option linter.unusedTactic false
set_option linter.unreachableTactic false
set_option linter.tactic.unusedName false

namespace Sys2Proof.Machine

theorem moves_readBack {msk : Nat} (hm : maskSub 0x4 msk = true) {a : State} {s : State} {value : ℕ} {size : ℕ} (h : Moves msk a s) : Moves msk a (readBack s value size) := by
  unfold readBack
  repeat' first | exact maskSub_trans hm rfl | with_reducible assumption | ((with_reducible apply Moves.ofUpdate) <;> first | with_reducible assumption | with_reducible exact fun _ => rfl | exact id | exact maskHit hm rfl | exact fun _ => rfl | exact rfl) | split

theorem moves_setVector {msk : Nat} (hm : maskSub 0x8 msk = true) {a : State} {s : State} {v : ℕ} {e : EvtVector} (h : Moves msk a s) : Moves msk a (setVector s v e) := by
  unfold setVector
  repeat' first | (extract_lets +onlyGivenNames z; refine Moves.cut (m := msk) a z ?_ (fun hz => ?_) <;> [(dsimp -zeta only [z]; revert z; intro _); (clear_value z; revert z; intro _ _)]) | (extract_lets +onlyGivenNames z; revert z; intro _) | exact maskSub_trans hm rfl | with_reducible assumption | with_reducible refine Moves.foldl ?_ (fun s x h => ?_) | with_reducible exact Moves.refl _ | ((with_reducible apply Moves.ofUpdate) <;> first | with_reducible assumption | with_reducible exact fun _ => rfl | exact id | exact maskHit hm rfl | exact fun _ => rfl | exact rfl | (intro p; simpa +zetaDelta using p) | (intro p; dsimp +zetaDelta only; (repeat (first | split | (simpa using p))))) | split | (dsimp -zeta +zetaDelta only)

theorem moves_vectorDue {msk : Nat} (hm : maskSub 0xe msk = true) {a : State} {s : State} {v : ℕ} (h : Moves msk a s) : Moves msk a (vectorDue s v) := by
  unfold vectorDue
  repeat' first | exact maskSub_trans hm rfl | with_reducible assumption | with_reducible apply moves_setVector | with_reducible apply moves_sendBehind | split

theorem moves_ackSource {msk : Nat} (hm : maskSub 0xe msk = true) {a : State} {s : State} {fast : Bool} {n : ℕ} (h : Moves msk a s) : Moves msk a (ackSource s fast n) := by
  unfold ackSource
  repeat' first | (extract_lets +onlyGivenNames z; refine Moves.cut (m := msk) a z ?_ (fun hz => ?_) <;> [(dsimp -zeta only [z]; revert z; intro _); (clear_value z; revert z; intro _ _)]) | (extract_lets +onlyGivenNames z; revert z; intro _) | exact maskSub_trans hm rfl | with_reducible assumption | with_reducible apply moves_sendMessage | with_reducible refine Moves.foldl ?_ (fun s x h => ?_) | with_reducible exact Moves.refl _ | ((with_reducible apply Moves.ofUpdate) <;> first | with_reducible assumption | with_reducible exact fun _ => rfl | exact id | exact maskHit hm rfl | exact fun _ => rfl | exact rfl | (intro p; simpa +zetaDelta using p) | (intro p; dsimp +zetaDelta only; (repeat (first | split | (simpa using p))))) | split | (dsimp -zeta +zetaDelta only)

theorem moves_pendAck {msk : Nat} (hm : maskSub 0xe msk = true) {a : State} {s : State} {fast : Bool} {hi : Bool} {value : Dword} (h : Moves msk a s) : Moves msk a (pendAck s fast hi value) := by
  unfold pendAck
  repeat' first | (extract_lets +onlyGivenNames z; refine Moves.cut (m := msk) a z ?_ (fun hz => ?_) <;> [(dsimp -zeta only [z]; revert z; intro _); (clear_value z; revert z; intro _ _)]) | (extract_lets +onlyGivenNames z; revert z; intro _) | exact maskSub_trans hm rfl | with_reducible assumption | with_reducible apply moves_ackSource | with_reducible refine Moves.foldl ?_ (fun s x h => ?_) | with_reducible exact Moves.refl _ | ((with_reducible apply Moves.ofUpdate) <;> first | with_reducible assumption | with_reducible exact fun _ => rfl | exact id | exact maskHit hm rfl | exact fun _ => rfl | exact rfl | (intro p; simpa +zetaDelta using p) | (intro p; dsimp +zetaDelta only; (repeat (first | split | (simpa using p))))) | split | (dsimp -zeta +zetaDelta only)

theorem moves_sendTimes {msk : Nat} (hm : maskSub 0xe msk = true) {a : State} {x : ℕ} {y : State} {y1 : ℕ} {y11 : Option (Bool × ℕ)} (h : Moves msk a y) : Moves msk a (sendTimes x y y1 y11) := by
  induction x generalizing y y1 y11 with
  | zero =>
    unfold sendTimes
    repeat' first | exact maskSub_trans hm rfl | with_reducible assumption | with_reducible apply moves_sendBehind | with_reducible refine Moves.foldl ?_ (fun s x h => ?_) | with_reducible exact Moves.refl _ | split
  | succ n ih =>
    unfold sendTimes
    repeat' first | exact maskSub_trans hm rfl | with_reducible assumption | with_reducible apply ih | with_reducible apply moves_sendBehind | with_reducible refine Moves.foldl ?_ (fun s x h => ?_) | with_reducible exact Moves.refl _ | split

theorem moves_idleArm {msk : Nat} (hm : maskSub 0xe msk = true) {a : State} {s : State} {v : ℕ} (h : Moves msk a s) : Moves msk a (idleArm s v) := by
  unfold idleArm
  repeat' first | (extract_lets +onlyGivenNames z; refine Moves.cut (m := msk) a z ?_ (fun hz => ?_) <;> [(dsimp -zeta only [z]; revert z; intro _); (clear_value z; revert z; intro _ _)]) | (extract_lets +onlyGivenNames z; revert z; intro _) | exact maskSub_trans hm rfl | with_reducible assumption | with_reducible apply moves_setVector | with_reducible apply moves_sendTimes | with_reducible apply moves_sendMessage | split

theorem moves_idleArmWrite {msk : Nat} (hm : maskSub 0xe msk = true) {a : State} {s : State} {hi : Bool} {value : Dword} (h : Moves msk a s) : Moves msk a (idleArmWrite s hi value) := by
  unfold idleArmWrite
  repeat' first | (extract_lets +onlyGivenNames z; refine Moves.cut (m := msk) a z ?_ (fun hz => ?_) <;> [(dsimp -zeta only [z]; revert z; intro _); (clear_value z; revert z; intro _ _)]) | (extract_lets +onlyGivenNames z; revert z; intro _) | exact maskSub_trans hm rfl | with_reducible assumption | with_reducible apply moves_idleArm | with_reducible refine Moves.foldl ?_ (fun s x h => ?_) | with_reducible exact Moves.refl _ | split | (dsimp -zeta +zetaDelta only)

theorem moves_logCfgWrite {msk : Nat} (hm : maskSub 0x8 msk = true) {a : State} {s : State} {fast : Bool} {value : Dword} (h : Moves msk a s) : Moves msk a (logCfgWrite s fast value) := by
  unfold logCfgWrite
  repeat' first | (extract_lets +onlyGivenNames z; refine Moves.cut (m := msk) a z ?_ (fun hz => ?_) <;> [(dsimp -zeta only [z]; revert z; intro _); (clear_value z; revert z; intro _ _)]) | (extract_lets +onlyGivenNames z; revert z; intro _) | exact maskSub_trans hm rfl | with_reducible assumption | with_reducible apply moves_setLog | split

theorem moves_logHeadWrite {msk : Nat} (hm : maskSub 0x8 msk = true) {a : State} {s : State} {fast : Bool} {value : Dword} (h : Moves msk a s) : Moves msk a (logHeadWrite s fast value) := by
  unfold logHeadWrite
  repeat' first | (extract_lets +onlyGivenNames z; refine Moves.cut (m := msk) a z ?_ (fun hz => ?_) <;> [(dsimp -zeta only [z]; revert z; intro _); (clear_value z; revert z; intro _ _)]) | (extract_lets +onlyGivenNames z; revert z; intro _) | exact maskSub_trans hm rfl | with_reducible assumption | with_reducible apply moves_setLog | split

theorem moves_vecModWrite {msk : Nat} (hm : maskSub 0xe msk = true) {a : State} {s : State} {v : ℕ} {value : Dword} (h : Moves msk a s) : Moves msk a (vecModWrite s v value) := by
  unfold vecModWrite
  repeat' first | (extract_lets +onlyGivenNames z; refine Moves.cut (m := msk) a z ?_ (fun hz => ?_) <;> [(dsimp -zeta only [z]; revert z; intro _); (clear_value z; revert z; intro _ _)]) | (extract_lets +onlyGivenNames z; revert z; intro _) | exact maskSub_trans hm rfl | with_reducible assumption | with_reducible apply moves_setVector | with_reducible apply moves_vectorDue | split

theorem moves_srcCfgWrite {msk : Nat} (hm : maskSub 0x8 msk = true) {a : State} {s : State} {n : ℕ} {value : Dword} (h : Moves msk a s) : Moves msk a (srcCfgWrite s n value) := by
  unfold srcCfgWrite
  repeat' first | (extract_lets +onlyGivenNames z; refine Moves.cut (m := msk) a z ?_ (fun hz => ?_) <;> [(dsimp -zeta only [z]; revert z; intro _); (clear_value z; revert z; intro _ _)]) | (extract_lets +onlyGivenNames z; revert z; intro _) | exact maskSub_trans hm rfl | with_reducible assumption | with_reducible refine Moves.foldl ?_ (fun s x h => ?_) | with_reducible exact Moves.refl _ | ((with_reducible apply Moves.ofUpdate) <;> first | with_reducible assumption | with_reducible exact fun _ => rfl | exact id | exact maskHit hm rfl | exact fun _ => rfl | exact rfl | (intro p; simpa +zetaDelta using p) | (intro p; dsimp +zetaDelta only; (repeat (first | split | (simpa using p))))) | split | (dsimp -zeta +zetaDelta only)

theorem moves_logWriteReg {msk : Nat} (hm : maskSub 0x8 msk = true) {a : State} {s : State} {fast : Bool} {off : ℕ} {value : Dword} (h : Moves msk a s) : Moves msk a (logWriteReg s fast off value) := by
  unfold logWriteReg
  repeat' first | (extract_lets +onlyGivenNames z; refine Moves.cut (m := msk) a z ?_ (fun hz => ?_) <;> [(dsimp -zeta only [z]; revert z; intro _); (clear_value z; revert z; intro _ _)]) | (extract_lets +onlyGivenNames z; revert z; intro _) | exact maskSub_trans hm rfl | with_reducible assumption | with_reducible apply moves_setLog | with_reducible apply moves_logCfgWrite | with_reducible apply moves_logHeadWrite | split

theorem moves_evtWrite {msk : Nat} (hm : maskSub 0xe msk = true) {a : State} {s : State} {off : ℕ} {value : Dword} (h : Moves msk a s) : Moves msk a (evtWrite s off value) := by
  unfold evtWrite
  repeat' first | exact maskSub_trans hm rfl | with_reducible assumption | with_reducible apply moves_pendAck | with_reducible apply moves_idleArmWrite | with_reducible apply moves_logWriteReg | with_reducible apply moves_srcCfgWrite | with_reducible apply moves_vecModWrite | split

theorem moves_ringWriteReg {msk : Nat} (hm : maskSub 0x4 msk = true) {a : State} {s : State} {r : ℕ} {off : ℕ} {value : Dword} (h : Moves msk a s) : Moves msk a (ringWriteReg s r off value) := by
  unfold ringWriteReg
  repeat' first | (extract_lets +onlyGivenNames z; refine Moves.cut (m := msk) a z ?_ (fun hz => ?_) <;> [(dsimp -zeta only [z]; revert z; intro _); (clear_value z; revert z; intro _ _)]) | (extract_lets +onlyGivenNames z; revert z; intro _) | exact maskSub_trans hm rfl | with_reducible assumption | with_reducible apply moves_ringCfgWrite | with_reducible apply moves_setRing | split

theorem moves_msixWrite {msk : Nat} (hm : maskSub 0x6 msk = true) {a : State} {s : State} {v : ℕ} {off : ℕ} {value : Dword} (h : Moves msk a s) : Moves msk a (msixWrite s v off value) := by
  unfold msixWrite
  repeat' first | (extract_lets +onlyGivenNames z; refine Moves.cut (m := msk) a z ?_ (fun hz => ?_) <;> [(dsimp -zeta only [z]; revert z; intro _); (clear_value z; revert z; intro _ _)]) | (extract_lets +onlyGivenNames z; revert z; intro _) | exact maskSub_trans hm rfl | with_reducible assumption | with_reducible apply moves_unmaskVector | with_reducible refine Moves.foldl ?_ (fun s x h => ?_) | with_reducible exact Moves.refl _ | ((with_reducible apply Moves.ofUpdate) <;> first | with_reducible assumption | with_reducible exact fun _ => rfl | exact id | exact maskHit hm rfl | exact fun _ => rfl | exact rfl | (intro p; simpa +zetaDelta using p) | (intro p; dsimp +zetaDelta only; (repeat (first | split | (simpa using p))))) | split | (dsimp -zeta +zetaDelta only)

theorem moves_hifWrite {msk : Nat} (hm : maskSub 0x6 msk = true) {a : State} {s : State} {off : ℕ} {value : Dword} (h : Moves msk a s) : Moves msk a (hifWrite s off value) := by
  unfold hifWrite
  repeat' first | exact maskSub_trans hm rfl | with_reducible assumption | with_reducible apply moves_ringWriteReg | with_reducible apply moves_msixWrite | split

theorem moves_proofCtrlWrite {msk : Nat} (hm : maskSub 0x10 msk = true) {a : State} {s : State} {value : Dword} (h : Moves msk a s) : Moves msk a (proofCtrlWrite s value) := by
  unfold proofCtrlWrite
  repeat' first | exact maskSub_trans hm rfl | with_reducible assumption | ((with_reducible apply Moves.ofUpdate) <;> first | with_reducible assumption | with_reducible exact fun _ => rfl | exact id | exact maskHit hm rfl | exact fun _ => rfl | exact rfl) | split

theorem moves_maintWrite {msk : Nat} (hm : maskSub 0x800 msk = true) {a : State} {s : State} {value : Dword} (h : Moves msk a s) : Moves msk a (maintWrite s value) := by
  unfold maintWrite
  repeat' first | exact maskSub_trans hm rfl | with_reducible assumption | ((with_reducible apply Moves.ofUpdate) <;> first | with_reducible assumption | with_reducible exact fun _ => rfl | exact id | exact maskHit hm rfl | exact fun _ => rfl | exact rfl) | split

theorem moves_setView {msk : Nat} (hm : maskSub 0x100000 msk = true) {a : State} {s : State} {bar2 : Bool} {g : ℕ} {v : PageView} (h : Moves msk a s) : Moves msk a (setView s bar2 g v) := by
  unfold setView
  repeat' first | exact maskSub_trans hm rfl | with_reducible assumption | ((with_reducible apply Moves.ofUpdate) <;> first | with_reducible assumption | with_reducible exact fun _ => rfl | exact id | exact maskHit hm rfl | exact fun _ => rfl | exact rfl) | split

theorem moves_samplePage {msk : Nat} (hm : maskSub 0x100000 msk = true) {a : State} {s : State} {bar2 : Bool} {g : ℕ} (h : Moves msk a s) : Moves msk a (samplePage s bar2 g) := by
  unfold samplePage
  repeat' first | exact maskSub_trans hm rfl | with_reducible assumption | with_reducible apply moves_setView | split

theorem moves_clearCounter {msk : Nat} (hm : maskSub 0x10000e msk = true) {a : State} {s : State} {k : ℕ} (h : Moves msk a s) : Moves msk a (clearCounter s k) := by
  unfold clearCounter
  repeat' first | (extract_lets +onlyGivenNames z; refine Moves.cut (m := msk) a z ?_ (fun hz => ?_) <;> [(dsimp -zeta only [z]; revert z; intro _); (clear_value z; revert z; intro _ _)]) | (extract_lets +onlyGivenNames z; revert z; intro _) | exact maskSub_trans hm rfl | with_reducible assumption | with_reducible apply moves_foldCounters | with_reducible refine Moves.foldl ?_ (fun s x h => ?_) | with_reducible exact Moves.refl _ | ((with_reducible apply Moves.ofUpdate) <;> first | with_reducible assumption | with_reducible exact fun _ => rfl | exact id | exact maskHit hm rfl | exact fun _ => rfl | exact rfl | (intro p; simpa +zetaDelta using p) | (intro p; dsimp +zetaDelta only; (repeat (first | split | (simpa using p))))) | split | (dsimp -zeta +zetaDelta only)

theorem moves_runCounter {msk : Nat} (hm : maskSub 0x10000e msk = true) {a : State} {s : State} {k : ℕ} {run : Bool} (h : Moves msk a s) : Moves msk a (runCounter s k run) := by
  unfold runCounter
  repeat' first | (extract_lets +onlyGivenNames z; refine Moves.cut (m := msk) a z ?_ (fun hz => ?_) <;> [(dsimp -zeta only [z]; revert z; intro _); (clear_value z; revert z; intro _ _)]) | (extract_lets +onlyGivenNames z; revert z; intro _) | exact maskSub_trans hm rfl | with_reducible assumption | with_reducible apply moves_foldCounters | with_reducible refine Moves.foldl ?_ (fun s x h => ?_) | with_reducible exact Moves.refl _ | ((with_reducible apply Moves.ofUpdate) <;> first | with_reducible assumption | with_reducible exact fun _ => rfl | exact id | exact maskHit hm rfl | exact fun _ => rfl | exact rfl | (intro p; simpa +zetaDelta using p) | (intro p; dsimp +zetaDelta only; (repeat (first | split | (simpa using p))))) | split | (dsimp -zeta +zetaDelta only)

theorem moves_pageCtrlWrite {msk : Nat} (hm : maskSub 0x10000e msk = true) {a : State} {s : State} {bar2 : Bool} {g : ℕ} {value : Dword} (h : Moves msk a s) : Moves msk a (pageCtrlWrite s bar2 g value) := by
  unfold pageCtrlWrite
  repeat' first | exact maskSub_trans hm rfl | with_reducible assumption | with_reducible apply moves_setView | with_reducible apply moves_samplePage | with_reducible apply moves_clearCounter | with_reducible apply moves_runCounter | split

theorem moves_blockWrite {msk : Nat} (hm : maskSub 0x10081e msk = true) {a : State} {s : State} {b : Block} {off : ℕ} {value : Dword} (h : Moves msk a s) : Moves msk a (blockWrite s b off value) := by
  unfold blockWrite
  repeat' first | exact maskSub_trans hm rfl | with_reducible assumption | with_reducible apply moves_hifWrite | with_reducible apply moves_evtWrite | with_reducible apply moves_proofCtrlWrite | with_reducible apply moves_maintWrite | with_reducible apply moves_pageCtrlWrite | split

theorem moves_writeReg {msk : Nat} (hm : maskSub 0x19581e msk = true) {a : State} {s : State} {bar : ℕ} {off : ℕ} {value : Dword} (h : Moves msk a s) : Moves msk a (writeReg s bar off value) := by
  unfold writeReg
  repeat' first | exact maskSub_trans hm rfl | with_reducible assumption | with_reducible apply moves_blockWrite | with_reducible apply moves_doorbellTail | with_reducible apply moves_doorbellHead | with_reducible apply moves_pageCtrlWrite | split

theorem moves_latchPage {msk : Nat} (hm : maskSub 0x100000 msk = true) {a : State} {s : State} {bar2 : Bool} {g : ℕ} {o : ℕ} (h : Moves msk a s) : Moves msk a (latchPage s bar2 g o) := by
  unfold latchPage
  repeat' first | exact maskSub_trans hm rfl | with_reducible assumption | with_reducible apply moves_setView | split

theorem moves_latchHal {msk : Nat} (hm : maskSub 0x10 msk = true) {a s : State} {f : Hal → Hal} (h : Moves msk a s) (g : ∀ x : Hal, (f x).hoists = x.hoists) : Moves msk a (latchHal s f) :=
  by (apply Moves.ofUpdate h <;> first | with_reducible exact fun _ => rfl | exact id | (intro p; rw [g]; exact p) | exact maskHit hm rfl | exact fun _ => rfl | exact rfl)

theorem moves_latchHi {msk : Nat} (hm : maskSub 0x184010 msk = true) {a : State} {s : State} {bar : ℕ} {off : ℕ} (h : Moves msk a s) : Moves msk a (latchHi s bar off) := by
  unfold latchHi
  split
  · split
    · exact moves_latchHal (maskSub_trans hm rfl) h (fun _ => rfl)
    · exact moves_latchHal (maskSub_trans hm rfl) h (fun _ => rfl)
    · exact moves_latchHal (maskSub_trans hm rfl) h (fun _ => rfl)
    · (apply Moves.ofUpdate h <;> first | with_reducible exact fun _ => rfl | exact id | exact maskHit hm rfl | exact fun _ => rfl | exact rfl)
    · split
      · (apply Moves.ofUpdate h <;> first | with_reducible exact fun _ => rfl | exact id | (intro p; rw [lmod_length]; exact p) | exact maskHit hm rfl | exact fun _ => rfl | exact rfl)
      · exact h
    · exact moves_latchPage (maskSub_trans hm rfl) h
    · exact h
  · split
    · exact moves_latchPage (maskSub_trans hm rfl) h
    · exact h

theorem moves_rcRead {msk : Nat} (hm : maskSub 0x8 msk = true) {a : State} {s : State} {off : ℕ} (h : Moves msk a s) : Moves msk a (rcRead s off) := by
  unfold rcRead
  repeat' first | exact maskSub_trans hm rfl | with_reducible assumption | ((with_reducible apply Moves.ofUpdate) <;> first | with_reducible assumption | with_reducible exact fun _ => rfl | exact id | exact maskHit hm rfl | exact fun _ => rfl | exact rfl) | split

theorem moves_clearRc {msk : Nat} (hm : maskSub 0x89018 msk = true) {a : State} {s : State} {bar : ℕ} {off : ℕ} (h : Moves msk a s) : Moves msk a (clearRc s bar off) := by
  unfold clearRc
  repeat' first | (extract_lets +onlyGivenNames z; refine Moves.cut (m := msk) a z ?_ (fun hz => ?_) <;> [(dsimp -zeta only [z]; revert z; intro _); (clear_value z; revert z; intro _ _)]) | (extract_lets +onlyGivenNames z; revert z; intro _) | exact maskSub_trans hm rfl | with_reducible assumption | with_reducible apply moves_rcRead | with_reducible apply moves_setNormal | with_reducible apply moves_setFastLog | with_reducible refine Moves.foldl ?_ (fun s x h => ?_) | with_reducible exact Moves.refl _ | ((with_reducible apply Moves.ofUpdate) <;> first | with_reducible assumption | with_reducible exact fun _ => rfl | exact id | exact maskHit hm rfl | exact fun _ => rfl | exact rfl | (intro p; simpa +zetaDelta using p) | (intro p; dsimp +zetaDelta only; (repeat (first | split | (simpa using p))))) | split | (dsimp -zeta +zetaDelta only)

theorem moves_execEvtPendAck {msk : Nat} (hm : maskSub 0xe msk = true) {a : State} {fast : Bool} {hi : Bool} {value : Dword} {s : State} (h : Moves msk a s) : MovesNext msk a (execEvtPendAck fast hi value s) := by
  unfold execEvtPendAck
  repeat' first | with_reducible apply movesNext_done | with_reducible apply movesNext_next | exact maskSub_trans hm rfl | with_reducible assumption | with_reducible apply moves_done | with_reducible apply moves_pendAck | split

theorem moves_execEvtIdleArm {msk : Nat} (hm : maskSub 0xe msk = true) {a : State} {hi : Bool} {value : Dword} {s : State} (h : Moves msk a s) : MovesNext msk a (execEvtIdleArm hi value s) := by
  unfold execEvtIdleArm
  repeat' first | with_reducible apply movesNext_done | with_reducible apply movesNext_next | exact maskSub_trans hm rfl | with_reducible assumption | with_reducible apply moves_done | with_reducible apply moves_idleArmWrite | split

theorem moves_execEvtLogEnable {msk : Nat} (hm : maskSub 0x8 msk = true) {a : State} {fast : Bool} {value : Dword} {s : State} (h : Moves msk a s) : MovesNext msk a (execEvtLogEnable fast value s) := by
  unfold execEvtLogEnable
  repeat' first | with_reducible apply movesNext_done | with_reducible apply movesNext_next | exact maskSub_trans hm rfl | with_reducible assumption | with_reducible apply moves_done | with_reducible apply moves_logCfgWrite | split

theorem moves_execEvtLogDisable {msk : Nat} (hm : maskSub 0x8 msk = true) {a : State} {fast : Bool} {value : Dword} {s : State} (h : Moves msk a s) : MovesNext msk a (execEvtLogDisable fast value s) := by
  unfold execEvtLogDisable
  repeat' first | with_reducible apply movesNext_done | with_reducible apply movesNext_next | exact maskSub_trans hm rfl | with_reducible assumption | with_reducible apply moves_done | with_reducible apply moves_logCfgWrite | split

theorem moves_execEvtLogHead {msk : Nat} (hm : maskSub 0x8 msk = true) {a : State} {fast : Bool} {value : Dword} {s : State} (h : Moves msk a s) : MovesNext msk a (execEvtLogHead fast value s) := by
  unfold execEvtLogHead
  repeat' first | with_reducible apply movesNext_done | with_reducible apply movesNext_next | exact maskSub_trans hm rfl | with_reducible assumption | with_reducible apply moves_done | with_reducible apply moves_logHeadWrite | split

theorem moves_execEvtVecMod {msk : Nat} (hm : maskSub 0xe msk = true) {a : State} {vector : ℕ} {value : Dword} {s : State} (h : Moves msk a s) : MovesNext msk a (execEvtVecMod vector value s) := by
  unfold execEvtVecMod
  repeat' first | with_reducible apply movesNext_done | with_reducible apply movesNext_next | exact maskSub_trans hm rfl | with_reducible assumption | with_reducible apply moves_done | with_reducible apply moves_vecModWrite | split

theorem moves_execModerationTimerExpiry {msk : Nat} (hm : maskSub 0xf msk = true) {a : State} {vector : ℕ} {s : State} (h : Moves msk a s) : MovesNext msk a (execModerationTimerExpiry vector s) := by
  unfold execModerationTimerExpiry
  repeat' first | (extract_lets +onlyGivenNames z; refine Moves.cut (m := msk) a z ?_ (fun hz => ?_) <;> [(dsimp -zeta only [z]; revert z; intro _); (clear_value z; revert z; intro _ _)]) | (extract_lets +onlyGivenNames z; revert z; intro _) | with_reducible apply movesNext_done | with_reducible apply movesNext_next | exact maskSub_trans hm rfl | with_reducible assumption | with_reducible apply moves_done | with_reducible apply moves_vectorDue | with_reducible apply moves_advance | split

theorem moves_execHeldRecordWrite {msk : Nat} (hm : maskSub 0xe msk = true) {a : State} {fast : Bool} {s : State} (h : Moves msk a s) : MovesNext msk a (execHeldRecordWrite fast s) := by
  unfold execHeldRecordWrite
  repeat' first | with_reducible apply movesNext_done | with_reducible apply movesNext_next | exact maskSub_trans hm rfl | with_reducible assumption | with_reducible apply moves_done | with_reducible apply moves_heldDrain | split

theorem moves_execHalProofCtrl {msk : Nat} (hm : maskSub 0x10 msk = true) {a : State} {value : Dword} {s : State} (h : Moves msk a s) : MovesNext msk a (execHalProofCtrl value s) := by
  unfold execHalProofCtrl
  repeat' first | with_reducible apply movesNext_done | with_reducible apply movesNext_next | exact maskSub_trans hm rfl | with_reducible assumption | with_reducible apply moves_done | with_reducible apply moves_proofCtrlWrite | split

theorem moves_execMemMaintCtrl {msk : Nat} (hm : maskSub 0x800 msk = true) {a : State} {value : Dword} {s : State} (h : Moves msk a s) : MovesNext msk a (execMemMaintCtrl value s) := by
  unfold execMemMaintCtrl
  repeat' first | with_reducible apply movesNext_done | with_reducible apply movesNext_next | exact maskSub_trans hm rfl | with_reducible assumption | with_reducible apply moves_done | with_reducible apply moves_maintWrite | split

theorem moves_execCntPageSample {msk : Nat} (hm : maskSub 0x10000e msk = true) {a : State} {bar2 : Bool} {page : ℕ} {value : Dword} {s : State} (h : Moves msk a s) : MovesNext msk a (execCntPageSample bar2 page value s) := by
  unfold execCntPageSample
  repeat' first | with_reducible apply movesNext_done | with_reducible apply movesNext_next | exact maskSub_trans hm rfl | with_reducible assumption | with_reducible apply moves_done | with_reducible apply moves_pageCtrlWrite | split

theorem moves_execCntPageClear {msk : Nat} (hm : maskSub 0x10000e msk = true) {a : State} {bar2 : Bool} {page : ℕ} {value : Dword} {s : State} (h : Moves msk a s) : MovesNext msk a (execCntPageClear bar2 page value s) := by
  unfold execCntPageClear
  repeat' first | with_reducible apply movesNext_done | with_reducible apply movesNext_next | exact maskSub_trans hm rfl | with_reducible assumption | with_reducible apply moves_done | with_reducible apply moves_pageCtrlWrite | split

theorem moves_execCntPageRun {msk : Nat} (hm : maskSub 0x10000e msk = true) {a : State} {bar2 : Bool} {page : ℕ} {value : Dword} {s : State} (h : Moves msk a s) : MovesNext msk a (execCntPageRun bar2 page value s) := by
  unfold execCntPageRun
  repeat' first | with_reducible apply movesNext_done | with_reducible apply movesNext_next | exact maskSub_trans hm rfl | with_reducible assumption | with_reducible apply moves_done | with_reducible apply moves_pageCtrlWrite | split

theorem moves_execRegisterWrite {msk : Nat} (hm : maskSub 0x19581e msk = true) {a : State} {bar : ℕ} {offset : ℕ} {value : Dword} {s : State} (h : Moves msk a s) : MovesNext msk a (execRegisterWrite bar offset value s) := by
  unfold execRegisterWrite
  repeat' first | with_reducible apply movesNext_done | with_reducible apply movesNext_next | exact maskSub_trans hm rfl | with_reducible assumption | with_reducible apply moves_done | with_reducible apply moves_writeReg | split

theorem moves_execMalformedRegisterAccess {msk : Nat} (hm : maskSub 0x4 msk = true) {a : State} {xbar : ℕ} {offset : ℕ} {size : ℕ} {write : Option ℕ} {s : State} (h : Moves msk a s) : MovesNext msk a (execMalformedRegisterAccess xbar offset size write s) := by
  unfold execMalformedRegisterAccess
  repeat' first | with_reducible apply movesNext_done | with_reducible apply movesNext_next | exact maskSub_trans hm rfl | with_reducible assumption | with_reducible apply moves_done | with_reducible apply moves_readBack | split

theorem moves_execLatchedLoRead {msk : Nat} (hm : maskSub 0x18d01c msk = true) {a : State} {bar : ℕ} {offset : ℕ} {s : State} (h : Moves msk a s) : MovesNext msk a (execLatchedLoRead bar offset s) := by
  unfold execLatchedLoRead
  repeat' first | with_reducible apply movesNext_done | with_reducible apply movesNext_next | exact maskSub_trans hm rfl | with_reducible assumption | with_reducible apply moves_done | with_reducible apply moves_readBack | with_reducible apply moves_clearRc | with_reducible apply moves_latchHi | split

theorem moves_execRcRead {msk : Nat} (hm : maskSub 0x8901c msk = true) {a : State} {bar : ℕ} {offset : ℕ} {s : State} (h : Moves msk a s) : MovesNext msk a (execRcRead bar offset s) := by
  unfold execRcRead
  repeat' first | with_reducible apply movesNext_done | with_reducible apply movesNext_next | exact maskSub_trans hm rfl | with_reducible assumption | with_reducible apply moves_done | with_reducible apply moves_readBack | with_reducible apply moves_clearRc | split

end Sys2Proof.Machine
end

