-- ==== Sys2Proof/Laws/MovesScale.lean ====
section
/-! SUPPORT. `Moves` for the operations of Machine/Scale.lean. -/

set_option linter.unusedTactic false
set_option linter.unreachableTactic false
set_option linter.tactic.unusedName false

namespace Sys2Proof.Machine

theorem moves_scaleSet {msk : Nat} (hm : maskSub 0x98004e msk = true) {a : State} {c : HostCmd} {table : HostData} {s : State} {p : Packet} (h : Moves msk a s) : MovesVerdict msk a (scaleSet c table s p) := by
  unfold scaleSet
  repeat' first | (extract_lets +onlyGivenNames z; refine Moves.cut (m := msk) a z ?_ (fun hz => ?_) <;> [(dsimp -zeta only [z]; revert z; intro _); (clear_value z; revert z; intro _ _)]) | (extract_lets +onlyGivenNames z; revert z; intro _) | with_reducible apply movesVerdict_finish | with_reducible apply movesVerdict_pend | exact maskSub_trans hm rfl | with_reducible assumption | with_reducible apply moves_refuse | with_reducible apply moves_hostAccessFailed | with_reducible apply moves_okAt | with_reducible apply moves_setTile | split

theorem moves_scaleRead {msk : Nat} (hm : maskSub 0x0 msk = true) {a : State} {s : State} {p : Packet} (h : Moves msk a s) : MovesVerdict msk a (scaleRead s p) := by
  unfold scaleRead
  repeat' first | with_reducible apply movesVerdict_finish | with_reducible apply movesVerdict_pend | exact maskSub_trans hm rfl | with_reducible assumption | with_reducible apply moves_refuse | split

theorem moves_execScaleSet {msk : Nat} (hm : maskSub 0x98004e msk = true) {a : State} {c : HostCmd} {table : HostData} {s : State} (h : Moves msk a s) : MovesNext msk a (execScaleSet c table s) := by
  unfold execScaleSet
  repeat' first | with_reducible apply movesNext_done | with_reducible apply movesNext_next | with_reducible apply movesVerdict_finish | with_reducible apply movesVerdict_pend | exact maskSub_trans hm rfl | with_reducible assumption | intro _ _ _ | with_reducible apply moves_takeCmd | with_reducible apply moves_scaleSet | split

theorem moves_execScaleBankLive {msk : Nat} (hm : maskSub 0x18004f msk = true) {a : State} {site : Site} {s : State} (h : Moves msk a s) : MovesNext msk a (execScaleBankLive site s) := by
  unfold execScaleBankLive
  repeat' first | (extract_lets +onlyGivenNames z; refine Moves.cut (m := msk) a z ?_ (fun hz => ?_) <;> [(dsimp -zeta only [z]; revert z; intro _); (clear_value z; revert z; intro _ _)]) | (extract_lets +onlyGivenNames z; revert z; intro _) | with_reducible apply movesNext_done | with_reducible apply movesNext_next | exact maskSub_trans hm rfl | with_reducible assumption | with_reducible apply moves_done | with_reducible apply moves_advance | with_reducible apply moves_finishFirst | with_reducible apply moves_setTile | split

theorem moves_execScaleBankRetireDone {msk : Nat} (hm : maskSub 0x40 msk = true) {a : State} {site : Site} {s : State} (h : Moves msk a s) : MovesNext msk a (execScaleBankRetireDone site s) := by
  unfold execScaleBankRetireDone
  repeat' first | (extract_lets +onlyGivenNames z; refine Moves.cut (m := msk) a z ?_ (fun hz => ?_) <;> [(dsimp -zeta only [z]; revert z; intro _); (clear_value z; revert z; intro _ _)]) | (extract_lets +onlyGivenNames z; revert z; intro _) | with_reducible apply movesNext_done | with_reducible apply movesNext_next | exact maskSub_trans hm rfl | with_reducible assumption | with_reducible apply moves_done | with_reducible apply moves_setTile | split

theorem moves_execScaleRead {msk : Nat} (hm : maskSub 0x18000e msk = true) {a : State} {c : HostCmd} {s : State} (h : Moves msk a s) : MovesNext msk a (execScaleRead c s) := by
  unfold execScaleRead
  repeat' first | with_reducible apply movesNext_done | with_reducible apply movesNext_next | with_reducible apply movesVerdict_finish | with_reducible apply movesVerdict_pend | exact maskSub_trans hm rfl | with_reducible assumption | intro _ _ _ | with_reducible apply moves_takeCmd | with_reducible apply moves_scaleRead | split

end Sys2Proof.Machine
end

