-- ==== Sys2Proof/Laws/MovesTraceCnt.lean ====
section
/-! SUPPORT. `Moves` for the operations of Machine/TraceCnt.lean. -/

set_option linter.unusedTactic false
set_option linter.unreachableTactic false
set_option linter.tactic.unusedName false

namespace Sys2Proof.Machine

theorem moves_lineRecord {msk : Nat} (hm : maskSub 0x1080800 msk = true) {a s : State} {f : Feed} {t : Trace} (h : Moves msk a s) (g1 : Memory.wf s.feed.lpddr = true → Memory.wf f.lpddr = true)
    (c : f.channels.length = s.feed.channels.length) (g : t.bufs.length = s.trace.bufs.length) : Moves msk a { s with feed := f, trace := t } :=
  by (apply Moves.ofUpdate (s := { s with feed := f }) (Moves.setFeed (maskSub_trans hm rfl) h g1 c) <;> first | with_reducible exact fun _ => rfl | exact id | exact (fun p => g.trans p) | exact maskHit hm rfl | exact fun _ => rfl | exact rfl)

theorem moves_setTrace {msk : Nat} (hm : maskSub 0x80000 msk = true) {a s : State} {t : Trace} (h : Moves msk a s) (g : s.trace.bufs.length = 9 → t.bufs.length = 9) : Moves msk a (setTrace s t) :=
  by (apply Moves.ofUpdate h <;> first | with_reducible exact fun _ => rfl | exact id | exact g | exact maskHit hm rfl | exact fun _ => rfl | exact rfl)

theorem moves_traceConfigure {msk : Nat} (hm : maskSub 0x80000 msk = true) {a : State} {s : State} {p : Packet} (h : Moves msk a s) : MovesVerdict msk a (traceConfigure s p) := by
  unfold traceConfigure
  repeat' first | (extract_lets +onlyGivenNames z; refine Moves.cut (m := msk) a z ?_ (fun hz => ?_) <;> [(dsimp -zeta only [z]; revert z; intro _); (clear_value z; revert z; intro _ _)]) | (extract_lets +onlyGivenNames z; revert z; intro _) | with_reducible apply movesVerdict_finish | with_reducible apply movesVerdict_pend | exact maskSub_trans hm rfl | with_reducible assumption | exact id | (intro p; simpa +zetaDelta using p) | with_reducible apply moves_refuse | with_reducible apply moves_okAt | with_reducible apply moves_setTrace | split

theorem moves_traceStart {msk : Nat} (hm : maskSub 0x18000e msk = true) {a : State} {s : State} {p : Packet} (h : Moves msk a s) : MovesVerdict msk a (traceStart s p) := by
  unfold traceStart
  repeat' first | (extract_lets +onlyGivenNames z; refine Moves.cut (m := msk) a z ?_ (fun hz => ?_) <;> [(dsimp -zeta only [z]; revert z; intro _); (clear_value z; revert z; intro _ _)]) | (extract_lets +onlyGivenNames z; revert z; intro _) | with_reducible apply movesVerdict_finish | with_reducible apply movesVerdict_pend | exact maskSub_trans hm rfl | with_reducible assumption | exact id | (intro p; simpa +zetaDelta using p) | with_reducible apply moves_refuse | with_reducible apply moves_setTrace | with_reducible apply moves_okAt | with_reducible apply moves_postDev | with_reducible apply moves_traceEnter | split

theorem moves_traceStop {msk : Nat} (hm : maskSub 0x80000 msk = true) {a : State} {s : State} {p : Packet} (h : Moves msk a s) : MovesVerdict msk a (traceStop s p) := by
  unfold traceStop
  repeat' first | (extract_lets +onlyGivenNames z; refine Moves.cut (m := msk) a z ?_ (fun hz => ?_) <;> [(dsimp -zeta only [z]; revert z; intro _); (clear_value z; revert z; intro _ _)]) | (extract_lets +onlyGivenNames z; revert z; intro _) | with_reducible apply movesVerdict_finish | with_reducible apply movesVerdict_pend | exact maskSub_trans hm rfl | with_reducible assumption | exact id | (intro p; simpa +zetaDelta using p) | with_reducible apply moves_refuse | with_reducible apply moves_setTrace | split

theorem moves_traceMarker {msk : Nat} (hm : maskSub 0x18000e msk = true) {a : State} {ring : ℕ} {s : State} {p : Packet} (h : Moves msk a s) : MovesVerdict msk a (traceMarker ring s p) := by
  unfold traceMarker
  repeat' first | with_reducible apply movesVerdict_finish | with_reducible apply movesVerdict_pend | exact maskSub_trans hm rfl | with_reducible assumption | with_reducible apply moves_refuse | with_reducible apply moves_okAt | with_reducible apply moves_traceEnter | split

theorem moves_traceRelease {msk : Nat} (hm : maskSub 0x80000 msk = true) {a : State} {s : State} {p : Packet} (h : Moves msk a s) : MovesVerdict msk a (traceRelease s p) := by
  unfold traceRelease
  repeat' first | (extract_lets +onlyGivenNames z; refine Moves.cut (m := msk) a z ?_ (fun hz => ?_) <;> [(dsimp -zeta only [z]; revert z; intro _); (clear_value z; revert z; intro _ _)]) | (extract_lets +onlyGivenNames z; revert z; intro _) | with_reducible apply movesVerdict_finish | with_reducible apply movesVerdict_pend | exact maskSub_trans hm rfl | with_reducible assumption | exact id | (intro p; simpa +zetaDelta using p) | with_reducible apply moves_refuse | with_reducible apply moves_okAt | with_reducible apply moves_setTrace | split

theorem moves_traceCopy {msk : Nat} (hm : maskSub 0x80800 msk = true) {a : State} {s : State} {p : Packet} (h : Moves msk a s) : MovesVerdict msk a (traceCopy s p) := by
  unfold traceCopy
  repeat' first | (extract_lets +onlyGivenNames z; refine Moves.cut (m := msk) a z ?_ (fun hz => ?_) <;> [(dsimp -zeta only [z]; revert z; intro _); (clear_value z; revert z; intro _ _)]) | (extract_lets +onlyGivenNames z; revert z; intro _) | with_reducible apply movesVerdict_finish | with_reducible apply movesVerdict_pend | exact maskSub_trans hm rfl | with_reducible assumption | exact id | (intro p; simpa +zetaDelta using p) | with_reducible apply moves_refuse | with_reducible apply moves_addJob | with_reducible apply moves_setTrace | split

theorem moves_traceEnds {msk : Nat} (hm : maskSub 0x8000e msk = true) {a : State} {s : State} {reason : ℕ} (h : Moves msk a s) : Moves msk a (traceEnds s reason) := by
  unfold traceEnds
  repeat' first | exact maskSub_trans hm rfl | with_reducible assumption | exact id | (intro p; simpa +zetaDelta using p) | with_reducible apply moves_postDev | with_reducible apply moves_setTrace | split

theorem moves_traceLine {msk : Nat} (hm : maskSub 0x118080e msk = true) {a : State} {s : State} {bytes : List Byte} {after : ℕ} (h : Moves msk a s) : Moves msk a (traceLine s bytes after) := by
  unfold traceLine
  repeat' first | (extract_lets +onlyGivenNames z; refine Moves.cut (m := msk) a z ?_ (fun hz => ?_) <;> [(dsimp -zeta only [z]; revert z; intro _); (clear_value z; revert z; intro _ _)]) | (extract_lets +onlyGivenNames z; revert z; intro _) | exact maskSub_trans hm rfl | with_reducible assumption | with_reducible apply moves_writeLine | with_reducible apply moves_addJob | with_reducible apply moves_count | with_reducible apply moves_traceEnds | with_reducible refine Moves.foldl ?_ (fun s x h => ?_) | with_reducible exact Moves.refl _ | ((with_reducible apply Moves.ofUpdate) <;> first | with_reducible assumption | with_reducible exact fun _ => rfl | exact id | exact maskHit hm rfl | exact fun _ => rfl | exact rfl | (intro p; simpa +zetaDelta using p) | (intro p; dsimp +zetaDelta only; (repeat (first | split | (simpa using p))))) | split | (dsimp -zeta +zetaDelta only)

theorem moves_gapWritten {msk : Nat} (hm : maskSub 0x18000e msk = true) {a : State} {s : State} {k : ℕ} (h : Moves msk a s) : Moves msk a (gapWritten s k) := by
  unfold gapWritten
  repeat' first | (extract_lets +onlyGivenNames z; refine Moves.cut (m := msk) a z ?_ (fun hz => ?_) <;> [(dsimp -zeta only [z]; revert z; intro _); (clear_value z; revert z; intro _ _)]) | (extract_lets +onlyGivenNames z; revert z; intro _) | exact maskSub_trans hm rfl | with_reducible assumption | exact id | (intro p; simpa +zetaDelta using p) | with_reducible apply moves_count | with_reducible apply moves_setTrace | split

theorem moves_traceDrain {msk : Nat} (hm : maskSub 0x118080e msk = true) {a : State} {s : State} {b : ℕ} (h : Moves msk a s) : Moves msk a (traceDrain s b) := by
  unfold traceDrain
  repeat' first | (extract_lets +onlyGivenNames z; refine Moves.cut (m := msk) a z ?_ (fun hz => ?_) <;> [(dsimp -zeta only [z]; revert z; intro _); (clear_value z; revert z; intro _ _)]) | (extract_lets +onlyGivenNames z; revert z; intro _) | exact maskSub_trans hm rfl | with_reducible assumption | exact id | (intro p; simpa +zetaDelta using p) | with_reducible apply moves_setTrace | with_reducible apply moves_traceLine | with_reducible apply moves_gapWritten | split

theorem moves_counterConfigure {msk : Nat} (hm : maskSub 0x10000e msk = true) {a : State} {s : State} {p : Packet} (h : Moves msk a s) : MovesVerdict msk a (counterConfigure s p) := by
  unfold counterConfigure
  repeat' first | (extract_lets +onlyGivenNames z; refine Moves.cut (m := msk) a z ?_ (fun hz => ?_) <;> [(dsimp -zeta only [z]; revert z; intro _); (clear_value z; revert z; intro _ _)]) | (extract_lets +onlyGivenNames z; revert z; intro _) | with_reducible apply movesVerdict_finish | with_reducible apply movesVerdict_pend | exact maskSub_trans hm rfl | with_reducible assumption | with_reducible apply moves_refuse | with_reducible apply moves_foldCounters | with_reducible apply moves_okAt | with_reducible refine Moves.foldl ?_ (fun s x h => ?_) | with_reducible exact Moves.refl _ | ((with_reducible apply Moves.ofUpdate) <;> first | with_reducible assumption | with_reducible exact fun _ => rfl | exact id | exact maskHit hm rfl | exact fun _ => rfl | exact rfl | (intro p; simpa +zetaDelta using p) | (intro p; dsimp +zetaDelta only; (repeat (first | split | (simpa using p))))) | split | (dsimp -zeta +zetaDelta only)

theorem moves_counterRunMask {msk : Nat} (hm : maskSub 0x10000e msk = true) {a : State} {s : State} {p : Packet} (h : Moves msk a s) : MovesVerdict msk a (counterRunMask s p) := by
  unfold counterRunMask
  repeat' first | (extract_lets +onlyGivenNames z; refine Moves.cut (m := msk) a z ?_ (fun hz => ?_) <;> [(dsimp -zeta only [z]; revert z; intro _); (clear_value z; revert z; intro _ _)]) | (extract_lets +onlyGivenNames z; revert z; intro _) | with_reducible apply movesVerdict_finish | with_reducible apply movesVerdict_pend | exact maskSub_trans hm rfl | with_reducible assumption | with_reducible apply moves_refuse | with_reducible apply moves_okAt | with_reducible apply moves_runCounter | with_reducible refine Moves.foldl ?_ (fun s x h => ?_) | with_reducible exact Moves.refl _ | split | (dsimp -zeta +zetaDelta only)

theorem moves_counterClearMask {msk : Nat} (hm : maskSub 0x10000e msk = true) {a : State} {s : State} {p : Packet} (h : Moves msk a s) : MovesVerdict msk a (counterClearMask s p) := by
  unfold counterClearMask
  repeat' first | (extract_lets +onlyGivenNames z; refine Moves.cut (m := msk) a z ?_ (fun hz => ?_) <;> [(dsimp -zeta only [z]; revert z; intro _); (clear_value z; revert z; intro _ _)]) | (extract_lets +onlyGivenNames z; revert z; intro _) | with_reducible apply movesVerdict_finish | with_reducible apply movesVerdict_pend | exact maskSub_trans hm rfl | with_reducible assumption | with_reducible apply moves_refuse | with_reducible apply moves_okAt | with_reducible apply moves_clearCounter | with_reducible refine Moves.foldl ?_ (fun s x h => ?_) | with_reducible exact Moves.refl _ | split | (dsimp -zeta +zetaDelta only)

theorem moves_counterSampleAll {msk : Nat} (hm : maskSub 0x100000 msk = true) {a : State} {s : State} {p : Packet} (h : Moves msk a s) : MovesVerdict msk a (counterSampleAll s p) := by
  unfold counterSampleAll
  repeat' first | (extract_lets +onlyGivenNames z; refine Moves.cut (m := msk) a z ?_ (fun hz => ?_) <;> [(dsimp -zeta only [z]; revert z; intro _); (clear_value z; revert z; intro _ _)]) | (extract_lets +onlyGivenNames z; revert z; intro _) | with_reducible apply movesVerdict_finish | with_reducible apply movesVerdict_pend | exact maskSub_trans hm rfl | with_reducible assumption | with_reducible apply moves_refuse | with_reducible apply moves_okAt | with_reducible apply moves_samplePage | with_reducible refine Moves.foldl ?_ (fun s x h => ?_) | with_reducible exact Moves.refl _ | split | (dsimp -zeta +zetaDelta only)

theorem moves_counterGrant {msk : Nat} (hm : maskSub 0x100000 msk = true) {a : State} {s : State} {p : Packet} (h : Moves msk a s) : MovesVerdict msk a (counterGrant s p) := by
  unfold counterGrant
  repeat' first | (extract_lets +onlyGivenNames z; refine Moves.cut (m := msk) a z ?_ (fun hz => ?_) <;> [(dsimp -zeta only [z]; revert z; intro _); (clear_value z; revert z; intro _ _)]) | (extract_lets +onlyGivenNames z; revert z; intro _) | with_reducible apply movesVerdict_finish | with_reducible apply movesVerdict_pend | exact maskSub_trans hm rfl | with_reducible assumption | with_reducible apply moves_refuse | with_reducible apply moves_okAt | with_reducible refine Moves.foldl ?_ (fun s x h => ?_) | with_reducible exact Moves.refl _ | ((with_reducible apply Moves.ofUpdate) <;> first | with_reducible assumption | with_reducible exact fun _ => rfl | exact id | exact maskHit hm rfl | exact fun _ => rfl | exact rfl | (intro p; simpa +zetaDelta using p) | (intro p; dsimp +zetaDelta only; (repeat (first | split | (simpa using p))))) | split | (dsimp -zeta +zetaDelta only)

theorem moves_execTraceConfigure {msk : Nat} (hm : maskSub 0x18000e msk = true) {a : State} {c : HostCmd} {s : State} (h : Moves msk a s) : MovesNext msk a (execTraceConfigure c s) := by
  unfold execTraceConfigure
  repeat' first | with_reducible apply movesNext_done | with_reducible apply movesNext_next | with_reducible apply movesVerdict_finish | with_reducible apply movesVerdict_pend | exact maskSub_trans hm rfl | with_reducible assumption | intro _ _ _ | with_reducible apply moves_takeCmd | with_reducible apply moves_traceConfigure | split

theorem moves_execTraceStart {msk : Nat} (hm : maskSub 0x18000e msk = true) {a : State} {c : HostCmd} {s : State} (h : Moves msk a s) : MovesNext msk a (execTraceStart c s) := by
  unfold execTraceStart
  repeat' first | with_reducible apply movesNext_done | with_reducible apply movesNext_next | with_reducible apply movesVerdict_finish | with_reducible apply movesVerdict_pend | exact maskSub_trans hm rfl | with_reducible assumption | intro _ _ _ | with_reducible apply moves_takeCmd | with_reducible apply moves_traceStart | split

theorem moves_execTraceStop {msk : Nat} (hm : maskSub 0x18000e msk = true) {a : State} {c : HostCmd} {s : State} (h : Moves msk a s) : MovesNext msk a (execTraceStop c s) := by
  unfold execTraceStop
  repeat' first | with_reducible apply movesNext_done | with_reducible apply movesNext_next | with_reducible apply movesVerdict_finish | with_reducible apply movesVerdict_pend | exact maskSub_trans hm rfl | with_reducible assumption | intro _ _ _ | with_reducible apply moves_takeCmd | with_reducible apply moves_traceStop | split

theorem moves_execTraceTrigger {msk : Nat} (hm : maskSub 0x18000e msk = true) {a : State} {c : HostCmd} {s : State} (h : Moves msk a s) : MovesNext msk a (execTraceTrigger c s) := by
  unfold execTraceTrigger
  repeat' first | with_reducible apply movesNext_done | with_reducible apply movesNext_next | with_reducible apply movesVerdict_finish | with_reducible apply movesVerdict_pend | exact maskSub_trans hm rfl | with_reducible assumption | intro _ _ _ | with_reducible apply moves_takeCmd | with_reducible apply moves_refuse | with_reducible apply moves_okAt | with_reducible apply moves_traceTrigger | split

theorem moves_execTraceMarker {msk : Nat} (hm : maskSub 0x18000e msk = true) {a : State} {c : HostCmd} {s : State} (h : Moves msk a s) : MovesNext msk a (execTraceMarker c s) := by
  unfold execTraceMarker
  repeat' first | with_reducible apply movesNext_done | with_reducible apply movesNext_next | with_reducible apply movesVerdict_finish | with_reducible apply movesVerdict_pend | exact maskSub_trans hm rfl | with_reducible assumption | intro _ _ _ | with_reducible apply moves_takeCmd | with_reducible apply moves_traceMarker | split

theorem moves_execTraceRelease {msk : Nat} (hm : maskSub 0x18000e msk = true) {a : State} {c : HostCmd} {s : State} (h : Moves msk a s) : MovesNext msk a (execTraceRelease c s) := by
  unfold execTraceRelease
  repeat' first | with_reducible apply movesNext_done | with_reducible apply movesNext_next | with_reducible apply movesVerdict_finish | with_reducible apply movesVerdict_pend | exact maskSub_trans hm rfl | with_reducible assumption | intro _ _ _ | with_reducible apply moves_takeCmd | with_reducible apply moves_traceRelease | split

theorem moves_execTraceCopy {msk : Nat} (hm : maskSub 0x18080e msk = true) {a : State} {c : HostCmd} {s : State} (h : Moves msk a s) : MovesNext msk a (execTraceCopy c s) := by
  unfold execTraceCopy
  repeat' first | with_reducible apply movesNext_done | with_reducible apply movesNext_next | with_reducible apply movesVerdict_finish | with_reducible apply movesVerdict_pend | exact maskSub_trans hm rfl | with_reducible assumption | intro _ _ _ | with_reducible apply moves_takeCmd | with_reducible apply moves_traceCopy | split

theorem moves_execTraceCopyDone {msk : Nat} (hm : maskSub 0x98000e msk = true) {a : State} {s : State} (h : Moves msk a s) : MovesNext msk a (execTraceCopyDone s) := by
  unfold execTraceCopyDone
  repeat' first | (extract_lets +onlyGivenNames z; refine Moves.cut (m := msk) a z ?_ (fun hz => ?_) <;> [(dsimp -zeta only [z]; revert z; intro _); (clear_value z; revert z; intro _ _)]) | (extract_lets +onlyGivenNames z; revert z; intro _) | with_reducible apply movesNext_done | with_reducible apply movesNext_next | exact maskSub_trans hm rfl | with_reducible assumption | exact id | (intro p; simpa +zetaDelta using p) | with_reducible apply moves_done | with_reducible apply moves_setTrace | with_reducible apply moves_finishFirst | with_reducible refine Moves.foldl ?_ (fun s x h => ?_) | with_reducible exact Moves.refl _ | ((with_reducible apply Moves.ofUpdate) <;> first | with_reducible assumption | with_reducible exact fun _ => rfl | exact id | exact maskHit hm rfl | exact fun _ => rfl | exact rfl | (intro p; simpa +zetaDelta using p) | (intro p; dsimp +zetaDelta only; (repeat (first | split | (simpa using p))))) | split | (dsimp -zeta +zetaDelta only)

theorem moves_execTraceLineWrite {msk : Nat} (hm : maskSub 0x118080e msk = true) {a : State} {buffer : ℕ} {s : State} (h : Moves msk a s) : MovesNext msk a (execTraceLineWrite buffer s) := by
  unfold execTraceLineWrite
  repeat' first | with_reducible apply movesNext_done | with_reducible apply movesNext_next | exact maskSub_trans hm rfl | with_reducible assumption | with_reducible apply moves_done | with_reducible apply moves_traceDrain | split

theorem moves_execTraceBufferFlushTimer {msk : Nat} (hm : maskSub 0x118080f msk = true) {a : State} {buffer : ℕ} {s : State} (h : Moves msk a s) : MovesNext msk a (execTraceBufferFlushTimer buffer s) := by
  unfold execTraceBufferFlushTimer
  repeat' first | (extract_lets +onlyGivenNames z; refine Moves.cut (m := msk) a z ?_ (fun hz => ?_) <;> [(dsimp -zeta only [z]; revert z; intro _); (clear_value z; revert z; intro _ _)]) | (extract_lets +onlyGivenNames z; revert z; intro _) | with_reducible apply movesNext_done | with_reducible apply movesNext_next | exact maskSub_trans hm rfl | with_reducible assumption | with_reducible apply moves_done | with_reducible apply moves_traceDrain | with_reducible apply moves_advance | split

theorem moves_execTraceStopFlushDone {msk : Nat} (hm : maskSub 0x118080f msk = true) {a : State} {s : State} (h : Moves msk a s) : MovesNext msk a (execTraceStopFlushDone s) := by
  unfold execTraceStopFlushDone
  repeat' first | (extract_lets +onlyGivenNames z; refine Moves.cut (m := msk) a z ?_ (fun hz => ?_) <;> [(dsimp -zeta only [z]; revert z; intro _); (clear_value z; revert z; intro _ _)]) | (extract_lets +onlyGivenNames z; revert z; intro _) | with_reducible apply movesNext_done | with_reducible apply movesNext_next | exact maskSub_trans hm rfl | with_reducible assumption | exact id | (intro p; simpa +zetaDelta using p) | with_reducible apply moves_done | with_reducible apply moves_advance | with_reducible apply moves_traceEnds | with_reducible apply moves_traceLine | with_reducible apply moves_gapWritten | with_reducible apply moves_setTrace | with_reducible apply moves_finishEvery | with_reducible refine Moves.foldl ?_ (fun s x h => ?_) | with_reducible exact Moves.refl _ | split | (dsimp -zeta +zetaDelta only)

theorem moves_execCounterConfigure {msk : Nat} (hm : maskSub 0x18000e msk = true) {a : State} {c : HostCmd} {s : State} (h : Moves msk a s) : MovesNext msk a (execCounterConfigure c s) := by
  unfold execCounterConfigure
  repeat' first | with_reducible apply movesNext_done | with_reducible apply movesNext_next | with_reducible apply movesVerdict_finish | with_reducible apply movesVerdict_pend | exact maskSub_trans hm rfl | with_reducible assumption | intro _ _ _ | with_reducible apply moves_takeCmd | with_reducible apply moves_counterConfigure | split

theorem moves_execCounterRunMask {msk : Nat} (hm : maskSub 0x18000e msk = true) {a : State} {c : HostCmd} {s : State} (h : Moves msk a s) : MovesNext msk a (execCounterRunMask c s) := by
  unfold execCounterRunMask
  repeat' first | with_reducible apply movesNext_done | with_reducible apply movesNext_next | with_reducible apply movesVerdict_finish | with_reducible apply movesVerdict_pend | exact maskSub_trans hm rfl | with_reducible assumption | intro _ _ _ | with_reducible apply moves_takeCmd | with_reducible apply moves_counterRunMask | split

theorem moves_execCounterClearMask {msk : Nat} (hm : maskSub 0x18000e msk = true) {a : State} {c : HostCmd} {s : State} (h : Moves msk a s) : MovesNext msk a (execCounterClearMask c s) := by
  unfold execCounterClearMask
  repeat' first | with_reducible apply movesNext_done | with_reducible apply movesNext_next | with_reducible apply movesVerdict_finish | with_reducible apply movesVerdict_pend | exact maskSub_trans hm rfl | with_reducible assumption | intro _ _ _ | with_reducible apply moves_takeCmd | with_reducible apply moves_counterClearMask | split

theorem moves_execCounterSampleAll {msk : Nat} (hm : maskSub 0x18000e msk = true) {a : State} {c : HostCmd} {s : State} (h : Moves msk a s) : MovesNext msk a (execCounterSampleAll c s) := by
  unfold execCounterSampleAll
  repeat' first | (extract_lets +onlyGivenNames z; refine Moves.cut (m := msk) a z ?_ (fun hz => ?_) <;> [(dsimp -zeta only [z]; revert z; intro _); (clear_value z; revert z; intro _ _)]) | (extract_lets +onlyGivenNames z; revert z; intro _) | with_reducible apply movesNext_done | with_reducible apply movesNext_next | with_reducible apply movesVerdict_finish | with_reducible apply movesVerdict_pend | exact maskSub_trans hm rfl | with_reducible assumption | intro _ _ _ | with_reducible apply moves_takeCmd | with_reducible apply moves_counterSampleAll | split

theorem moves_execCounterGrant {msk : Nat} (hm : maskSub 0x18000e msk = true) {a : State} {c : HostCmd} {s : State} (h : Moves msk a s) : MovesNext msk a (execCounterGrant c s) := by
  unfold execCounterGrant
  repeat' first | with_reducible apply movesNext_done | with_reducible apply movesNext_next | with_reducible apply movesVerdict_finish | with_reducible apply movesVerdict_pend | exact maskSub_trans hm rfl | with_reducible assumption | intro _ _ _ | with_reducible apply moves_takeCmd | with_reducible apply moves_counterGrant | split

end Sys2Proof.Machine
end

