-- ==== Sys2Proof/WellFormed.lean ====
section
/-! DEFINITION. Well-formed commands: a host command carries a ring and a packet of 16 dwords that spells its own row (spec/12_host_commands.md R343,
R350); an event names a unit, port, slot, stream or number that this part has. The meanings are total: an ill-formed command is taken as its rules say
or has no effect. -/

namespace Sys2Proof

open Machine

/-- What the syntax of a command must hold: for a host command its opcode and form; for an event the ranges of its operands. -/
inductive Shape where
  | host (c : HostCmd) (op form : Nat) (ok : Bool)
  | event (ok : Bool)
  deriving DecidableEq, Repr

/-- The shape of each command. -/
def shapeOf (i : Instr) : Shape :=
  match i with
  | .nop c => .host c 0x01 0 true
  | .identify c => .host c 0x02 0 true
  | .attestReport c => .host c 0x03 0 true
  | .attestCertificate c => .host c 0x03 1 true
  | .imageLoad c _ => .host c 0x10 0 true
  | .imageLoadSection c => .host c 0x10 1 true
  | .imageLoadDone => .event true
  | .imageVerify c _ => .host c 0x11 0 true
  | .imageVerifyDone => .event true
  | .hoistArmTarget c => .host c 0x12 0 true
  | .hoistArmMirror c => .host c 0x12 1 true
  | .mirrorCopyDone => .event true
  | .hoistSwitch c => .host c 0x13 0 true
  | .hoistSwitchLands => .event true
  | .hoistRelease c => .host c 0x14 0 true
  | .hoistReleaseImageOnly c => .host c 0x14 1 true
  | .streamOpen c => .host c 0x20 0 true
  | .streamClose c => .host c 0x21 0 true
  | .streamCloseDrained stream => .event (decide (stream < Config.streams))
  | .streamCloseTimeout stream => .event (decide (stream < Config.streams))
  | .streamMode c => .host c 0x22 0 true
  | .streamModeLands stream => .event (decide (stream < Config.streams))
  | .descArm c => .host c 0x23 0 true
  | .descDisarm c => .host c 0x23 1 true
  | .scaleSet c _ => .host c 0x28 0 true
  | .scaleBankLive site => .event (decide (siteKind site = 0 ∧ sitePresent (siteElem site)))
  | .scaleBankRetireDone site => .event (decide (siteKind site = 0 ∧ sitePresent (siteElem site)))
  | .scaleRead c => .host c 0x29 0 true
  | .selfTestProveUnit c => .host c 0x30 0 true
  | .selfTestRequestWindow c => .host c 0x30 1 true
  | .selfTestGrantWindow c => .host c 0x30 2 true
  | .selfTestReport c => .host c 0x30 3 true
  | .fullWindowStart => .event true
  | .fullWindowEnd _ => .event true
  | .calibrateChannel c => .host c 0x31 0 true
  | .calibrateAllChannels c => .host c 0x31 1 true
  | .calibrateLane c eyeHeight eyeWidth => .host c 0x31 2 (decide (eyeHeight < 2 ^ 16 ∧ eyeWidth < 2 ^ 8))
  | .unitDisable c => .host c 0x32 0 true
  | .unitEnable c => .host c 0x33 0 true
  | .unitDrainDone site => .event (decide (siteKind site ∈ [0, 1, 2, 3, 5] ∧ sitePresent (siteElem site)))
  | .unitDrainTimeout site => .event (decide (siteKind site ∈ [0, 1, 2, 3, 5] ∧ sitePresent (siteElem site)))
  | .haltAt c => .host c 0x38 0 true
  | .haltLands => .event true
  | .resume c => .host c 0x39 0 true
  | .resumeLands => .event true
  | .snapshotCapture c => .host c 0x3A 0 true
  | .snapshotCaptureDone => .event true
  | .snapshotCopy c => .host c 0x3A 1 true
  | .snapshotRelease c => .host c 0x3A 2 true
  | .traceConfigure c => .host c 0x40 0 true
  | .traceStart c => .host c 0x40 1 true
  | .traceStop c => .host c 0x40 2 true
  | .traceStopFlushDone => .event true
  | .traceTrigger c => .host c 0x40 3 true
  | .traceMarker c => .host c 0x40 4 true
  | .traceRelease c => .host c 0x40 5 true
  | .traceCopy c => .host c 0x40 6 true
  | .counterConfigure c => .host c 0x41 0 true
  | .counterRunMask c => .host c 0x41 1 true
  | .counterClearMask c => .host c 0x41 2 true
  | .counterSampleAll c => .host c 0x41 3 true
  | .counterGrant c => .host c 0x42 0 true
  | .spanOpen c => .host c 0x48 0 true
  | .spanClose c => .host c 0x48 1 true
  | .spanMeasure c => .host c 0x49 0 true
  | .fwStage c _ => .host c 0x50 0 true
  | .fwStageDone => .event true
  | .fwSwitch c => .host c 0x51 0 true
  | .fwSwitchLands => .event true
  | .fwCoreReady core => .event (decide (core < 2))
  | .fwReadyTimeout core => .event (decide (core < 2))
  | .lifecycleTransition c auth => .host c 0x58 0 (authOp auth == 0)
  | .lifecycleAddKey c auth => .host c 0x58 0 (authOp auth == 1)
  | .lifecycleRevokeImageKey c auth => .host c 0x58 0 (authOp auth == 2)
  | .lifecycleRevokeFwKey c auth => .host c 0x58 0 (authOp auth == 3)
  | .wipeFreeSpace c => .host c 0x59 0 true
  | .wipeFreeSpaceDone => .event true
  | .wipeDevice c => .host c 0x59 1 true
  | .wipeStagedFirmware c => .host c 0x59 2 true
  | .powerSetOperatingPoint c => .host c 0x60 0 true
  | .powerSetCap c => .host c 0x60 1 true
  | .powerSetThermal c => .host c 0x60 2 true
  | .powerSetSleep c => .host c 0x60 3 true
  | .powerSetWake c => .host c 0x60 4 true
  | .powerSetReset c => .host c 0x60 5 true
  | .delayedDeviceReset => .event true
  | .thermalRead c => .host c 0x61 0 true
  | .hifDbSqTail ring _ => .event (decide (ring < 16))
  | .hifDbCqHead ring _ => .event (decide (ring < 16))
  | .ringEnable ring _ => .event (decide (ring < 16))
  | .ringDisable ring _ => .event (decide (ring < 16))
  | .ringDrainDone ring => .event (decide (ring < 16))
  | .packetFetch ring _ => .event (decide (ring < 16))
  | .functionLevelReset => .event true
  | .hotReset => .event true
  | .linkDown => .event true
  | .busMasterEnableClear => .event true
  | .busMasterEnableSet => .event true
  | .powerStateD3hot => .event true
  | .msixVectorUnmask vector _ => .event (decide (vector < 64))
  | .registerWrite bar offset _ => .event (decide ((bar = 0 ∨ bar = 2) ∧ offset % 4 = 0 ∧ offset < 2 ^ 24))
  | .malformedRegisterAccess bar offset size _ => .event (decide ((bar = 0 ∨ bar = 2) ∧ offset % 4 = 0 ∧ offset < 2 ^ 24 ∧ size ≤ 64))
  | .latchedLoRead bar offset => .event (decide ((bar = 0 ∨ bar = 2) ∧ offset % 4 = 0 ∧ offset < 2 ^ 24))
  | .rcRead bar offset => .event (decide ((bar = 0 ∨ bar = 2) ∧ offset % 4 = 0 ∧ offset < 2 ^ 24))
  | .evtPendAck _ _ _ => .event true
  | .evtIdleArm _ _ => .event true
  | .evtLogEnable _ _ => .event true
  | .evtLogDisable _ _ => .event true
  | .evtLogHead _ _ => .event true
  | .evtVecMod vector _ => .event (decide (vector < 64))
  | .halProofCtrl _ => .event true
  | .memMaintCtrl _ => .event true
  | .cntPageSample _ page _ => .event (decide (page < 100))
  | .cntPageClear _ page _ => .event (decide (page < 100))
  | .cntPageRun _ page _ => .event (decide (page < 100))
  | .moderationTimerExpiry vector => .event (decide (vector < 64))
  | .heldRecordWrite _ => .event true
  | .configScrub site hoist dword _ => .event (decide (siteKind site ∈ [0, 1, 2, 3, 4, 5, 8, 10] ∧ sitePresent (siteElem site) ∧ hoist < 4 ∧ dword < 2048))
  | .autoMirrorSwitch => .event true
  | .configRewriteDone site hoist _ _ => .event (decide (siteKind site ∈ [0, 1, 2, 3, 4, 5, 8, 10] ∧ sitePresent (siteElem site) ∧ hoist < 4))
  | .beatSend producer => .event (decide (sitePresent producer.site ∧ producer.port < 64))
  | .beatArrive consumer upset => .event (decide (sitePresent consumer.site ∧ consumer.port < 64 ∧ upset.place < 2 ^ 16))
  | .creditReturnArrive producer => .event (decide (sitePresent producer.site ∧ producer.port < 64))
  | .segmentContention segment => .event (decide (siteKind segment = 9 ∧ sitePresent segment))
  | .voidTackLineReceive input stream => .event (decide (sitePresent input.site ∧ input.port < 64 ∧ stream < Config.streams))
  | .slotBind site => .event (decide (siteKind site ∈ [0, 1, 2] ∧ sitePresent (siteElem site)))
  | .operationIssue site => .event (decide (siteKind site ∈ [0, 1] ∧ sitePresent (siteElem site)))
  | .aloadBeat site slot port => .event (decide (siteKind site = 0 ∧ sitePresent (siteElem site) ∧ slot < 4 ∧ port < 4))
  | .rowExponentFix site slot _ => .event (decide (siteKind site = 0 ∧ sitePresent (siteElem site) ∧ slot < 4))
  | .macFire site slot _ _ => .event (decide (siteKind site = 0 ∧ sitePresent (siteElem site) ∧ slot < 4))
  | .omacFire site slot _ _ => .event (decide (siteKind site = 0 ∧ sitePresent (siteElem site) ∧ slot < 4))
  | .clipCheck site slot => .event (decide (siteKind site = 0 ∧ sitePresent (siteElem site) ∧ slot < 4))
  | .drainFire site slot _ => .event (decide (siteKind site = 0 ∧ sitePresent (siteElem site) ∧ slot < 4))
  | .fetchFire site slot => .event (decide (siteKind site = 0 ∧ sitePresent (siteElem site) ∧ slot < 4))
  | .fetchBeatWrite site port => .event (decide (siteKind site = 0 ∧ sitePresent (siteElem site) ∧ port < 4))
  | .waitComplete site slot => .event (decide (siteKind site = 0 ∧ sitePresent (siteElem site) ∧ slot < 4))
  | .releaseFire site slot => .event (decide (siteKind site = 0 ∧ sitePresent (siteElem site) ∧ slot < 4))
  | .tileWatchdogExpiry site slot index => .event (decide (siteKind site ∈ [0, 1, 2] ∧ sitePresent (siteElem site) ∧ slot < 4 ∧ index < 16))
  | .weightScrub site word _ => .event (decide (siteKind site = 0 ∧ sitePresent (siteElem site) ∧ word < 98304))
  | .weightRewriteDone site region _ => .event (decide (siteKind site = 0 ∧ sitePresent (siteElem site) ∧ region < 192))
  | .vloadBeat site slot => .event (decide (siteKind site = 1 ∧ sitePresent (siteElem site) ∧ slot < 4))
  | .vsendBeat site slot _ => .event (decide (siteKind site = 1 ∧ sitePresent (siteElem site) ∧ slot < 4))
  | .vopFire site slot _ => .event (decide (siteKind site = 1 ∧ sitePresent (siteElem site) ∧ slot < 4))
  | .constantRewriteDone site region _ _ => .event (decide (siteKind site = 1 ∧ sitePresent (siteElem site) ∧ region < 192))
  | .vfuncFire site slot _ => .event (decide (siteKind site = 1 ∧ sitePresent (siteElem site) ∧ slot < 4))
  | .vredFire site slot _ => .event (decide (siteKind site = 1 ∧ sitePresent (siteElem site) ∧ slot < 4))
  | .windowBeatIn site _ => .event (decide (siteKind site = 2 ∧ sitePresent (siteElem site)))
  | .windowRowEmit site slot _ => .event (decide (siteKind site = 2 ∧ sitePresent (siteElem site) ∧ slot < 4))
  | .poolRowEmit site slot _ => .event (decide (siteKind site = 2 ∧ sitePresent (siteElem site) ∧ slot < 4))
  | .glueFcEval site => .event (decide (siteKind site = 4 ∧ sitePresent (siteElem site)))
  | .glueDrainDone site => .event (decide (siteKind site = 4 ∧ sitePresent (siteElem site)))
  | .glueDrainTimeout site => .event (decide (siteKind site = 4 ∧ sitePresent (siteElem site)))
  | .skewEnqueue site port => .event (decide (siteKind site = 3 ∧ sitePresent (siteElem site) ∧ port < 8))
  | .steerSend site port _ => .event (decide (siteKind site = 3 ∧ sitePresent (siteElem site) ∧ port < 8))
  | .pennantPair site port => .event (decide (siteKind site = 3 ∧ sitePresent (siteElem site) ∧ port < 8))
  | .frameEndSettle site port stream => .event (decide (siteKind site = 3 ∧ sitePresent (siteElem site) ∧ port < 8 ∧ stream < Config.streams))
  | .spillWriteRun site queue => .event (decide (siteKind site = 3 ∧ sitePresent (siteElem site) ∧ queue < 16))
  | .spillReadRequest site queue => .event (decide (siteKind site = 3 ∧ sitePresent (siteElem site) ∧ queue < 16))
  | .refillReturn site queue beats => .event (decide (siteKind site = 3 ∧ sitePresent (siteElem site) ∧ queue < 16 ∧ beats < 2 ^ 16))
  | .steerWatchdogExpiry site => .event (decide (siteKind site = 3 ∧ sitePresent (siteElem site)))
  | .queueReadIssue queue => .event (decide (queue < 8 * Config.memPorts))
  | .generatorStep queue => .event (decide (queue < 8 * Config.memPorts))
  | .generatorFrameResume queue => .event (decide (queue < 8 * Config.memPorts))
  | .channelBurstDecision slot => .event (decide (slot.channel < Config.channels))
  | .readReturn queue entry _ _ _ => .event (decide (queue < 8 * Config.memPorts ∧ entry < 2 ^ 64))
  | .fetchRequestArrive queue => .event (decide (queue < 8 * Config.memPorts))
  | .feedBeatSend queue _ => .event (decide (queue < 8 * Config.memPorts))
  | .streamInBeatSend queue _ => .event (decide (queue < 8 * Config.memPorts))
  | .streamOutBeatWrite access => .event (decide (access.queue < 8 * Config.memPorts))
  | .spillQueueWrite access => .event (decide (access.queue < 8 * Config.memPorts))
  | .spillQueueRead access => .event (decide (access.queue < 8 * Config.memPorts))
  | .circularWaitExpiry => .event true
  | .refresh channel bank => .event (decide (channel < Config.channels ∧ bank < 16))
  | .zqCalibration channel => .event (decide (channel < Config.channels))
  | .dqsOscillatorRead channel value => .event (decide (channel < Config.channels ∧ value < 2 ^ 32))
  | .patrolBlock channel _ _ => .event (decide (channel < Config.channels))
  | .retrainingWindowStart channel => .event (decide (channel < Config.channels))
  | .retrainingWindowEnd channel _ => .event (decide (channel < Config.channels))
  | .descStoreScrub word _ => .event (decide (word < 4096))
  | .descRewriteDone word _ => .event (decide (word < 4096))
  | .hostRecordWrite stream => .event (decide (stream < Config.streams))
  | .hostSlotSeal stream => .event (decide (stream < Config.streams))
  | .spanCodewordSend port => .event (decide (port < Config.spanPorts))
  | .spanCodewordReceive port _ _ => .event (decide (port < Config.spanPorts))
  | .spanAckTimeout port => .event (decide (port < Config.spanPorts))
  | .spanLockLoss port wavelength => .event (decide (port < Config.spanPorts ∧ wavelength < 4))
  | .spanTrainingTimeout port => .event (decide (port < Config.spanPorts))
  | .spanProbeTimer port => .event (decide (port < Config.spanPorts))
  | .spanProbeReplace port probe => .event (decide (port < Config.spanPorts ∧ probe < 2 ^ 16))
  | .spanCloseDrained port => .event (decide (port < Config.spanPorts))
  | .spanCloseTimeout port => .event (decide (port < Config.spanPorts))
  | .frameStartReceive stream _ => .event (decide (stream < Config.streams))
  | .lineStartReceive stream _ => .event (decide (stream < Config.streams))
  | .dataBlockReceive stream _ => .event (decide (stream < Config.streams))
  | .lineEndReceive stream _ => .event (decide (stream < Config.streams))
  | .frameEndReceive stream _ => .event (decide (stream < Config.streams))
  | .idleStripeReceive stripe => .event (decide (stripe.stream < Config.streams))
  | .laneLockLoss lane _ => .event (decide (lane < Config.streams))
  | .laneLockRegain lane => .event (decide (lane < Config.streams))
  | .ingressBeatSend stream => .event (decide (stream < Config.streams))
  | .egressFrameStart stream => .event (decide (stream < Config.streams))
  | .egressResultBeat stream => .event (decide (stream < Config.streams))
  | .courierFrameForward stream => .event (decide (stream < Config.streams))
  | .deadlineExpiry stream frame => .event (decide (stream < Config.streams ∧ frame < 2 ^ 32))
  | .vinRise => .event true
  | .powerStageFault _ _ => .event true
  | .powerStageRestart => .event true
  | .vinBelow36V => .event true
  | .pmbusWarnCrossing _ _ _ => .event true
  | .refClockLoss => .event true
  | .refClockRestore => .event true
  | .stagedStartPhaseEnd _ _ => .event true
  | .sectorWakeGroup sector => .event (decide (sector < Config.sectors))
  | .perstAssert => .event true
  | .perstDeassert => .event true
  | .dividerSwitchPoint sector => .event (decide (sector < Config.sectors))
  | .vddSlewDone sector => .event (decide (sector < Config.sectors))
  | .thermalSample sector _ => .event (decide (sector < Config.sectors))
  | .powerCapAverage pin => .event (decide (pin < 2 ^ 16))
  | .neighbourDiffExpiry hotter cooler => .event (decide (hotter < Config.sectors ∧ cooler < Config.sectors))
  | .heartbeatMiss core => .event (decide (core < 2))
  | .coreRestartDone core => .event (decide (core < 2))
  | .halyardParityError => .event true
  | .proofArm => .event true
  | .proofUnitIdle site => .event (decide (siteKind site ∈ [0, 1, 2, 3, 5, 10] ∧ sitePresent (siteElem site)))
  | .proofMaxWaitExpiry site => .event (decide (siteKind site ∈ [0, 1, 2, 3, 5, 10] ∧ sitePresent (siteElem site)))
  | .bistRunDone site _ => .event (decide (siteKind site ∈ [0, 1, 2, 3, 5, 10] ∧ sitePresent (siteElem site)))
  | .proofRestoreDone site => .event (decide (siteKind site ∈ [0, 1, 2, 3, 5, 10] ∧ sitePresent (siteElem site)))
  | .traceLineWrite buffer => .event (decide (buffer < 9))
  | .traceBufferFlushTimer buffer => .event (decide (buffer < 9))
  | .extest => .event true
  | .samplePreload => .event true
  | .idcode => .event true
  | .highz => .event true
  | .clamp => .event true
  | .extestPulse => .event true
  | .extestTrain => .event true
  | .bypass _ => .event true
  | .tapReset => .event true
  | .clearFaults => .event true
  | .writeProtect _ => .event true
  | .capability => .event true
  | .otFaultLimit _ => .event true
  | .otWarnLimit _ => .event true
  | .vinOvFaultLimit _ => .event true
  | .vinOvWarnLimit _ => .event true
  | .vinUvWarnLimit _ => .event true
  | .vinUvFaultLimit _ => .event true
  | .iinOcFaultLimit _ => .event true
  | .iinOcWarnLimit _ => .event true
  | .pinOpWarnLimit _ => .event true
  | .statusWord => .event true
  | .statusInput _ => .event true
  | .statusTemperature _ => .event true
  | .statusCml _ => .event true
  | .readVin _ => .event true
  | .readIin _ => .event true
  | .readTemperature1 _ => .event true
  | .readPin _ => .event true
  | .pmbusRevision => .event true
  | .mfrRestartCount => .event true
  | .pmbusUnsupportedCommand _ => .event true
  | .powerStateD0 => .event true
  | .spanLockAcquire port wavelength => .event (decide (port < Config.spanPorts ∧ wavelength < 4))
  | .snapshotCopyDone => .event true
  | .traceCopyDone => .event true
  | .attestDone => .event true
  | .vinAbove36V addrPins => .event (decide (addrPins < 8))

/-- A packet and a ring as firmware takes them. -/
def hostWf (c : HostCmd) (op form : Nat) : Bool := decide (c.ring < 16) && c.pkt.length == 16 && spells c.pkt op form

/-- The command is well formed. -/
def wellFormed (i : Instr) : Bool :=
  match shapeOf i with
  | .host c op form ok => hostWf c op form && ok
  | .event ok => ok

end Sys2Proof
end

