-- ==== Sys2Proof/Laws/PerInstr.lean ====
section
/-! SUPPORT. The family Wf of LAWS.json: what a well-formed command of each row holds. -/

namespace Sys2Proof.Laws.Wf

open Sys2Proof.Machine

/-- A well-formed host command comes from one of the 16 rings, has 16 dwords, and its packet spells the row it is a command of. -/
def Statement (i : Instr) : Prop :=
  ∀ c op form ok, wellFormed i = true → shapeOf i = .host c op form ok → c.ring < 16 ∧ c.pkt.length = 16 ∧ spells c.pkt op form = true

theorem of_any (i : Instr) : Statement i := by
  intro c op form ok h hs
  simp only [wellFormed, hs, hostWf, Bool.and_eq_true, decide_eq_true_eq, beq_iff_eq] at h
  exact ⟨h.1.1.1, h.1.1.2, h.1.2⟩

theorem nop (c : HostCmd) : Statement (.nop c) := of_any _
theorem identify (c : HostCmd) : Statement (.identify c) := of_any _
theorem attestReport (c : HostCmd) : Statement (.attestReport c) := of_any _
theorem attestCertificate (c : HostCmd) : Statement (.attestCertificate c) := of_any _
theorem imageLoad (c : HostCmd) (file : HostFile) : Statement (.imageLoad c file) := of_any _
theorem imageLoadSection (c : HostCmd) : Statement (.imageLoadSection c) := of_any _
theorem imageLoadDone : Statement (.imageLoadDone) := of_any _
theorem imageVerify (c : HostCmd) (file : HostFile) : Statement (.imageVerify c file) := of_any _
theorem imageVerifyDone : Statement (.imageVerifyDone) := of_any _
theorem hoistArmTarget (c : HostCmd) : Statement (.hoistArmTarget c) := of_any _
theorem hoistArmMirror (c : HostCmd) : Statement (.hoistArmMirror c) := of_any _
theorem mirrorCopyDone : Statement (.mirrorCopyDone) := of_any _
theorem hoistSwitch (c : HostCmd) : Statement (.hoistSwitch c) := of_any _
theorem hoistSwitchLands : Statement (.hoistSwitchLands) := of_any _
theorem hoistRelease (c : HostCmd) : Statement (.hoistRelease c) := of_any _
theorem hoistReleaseImageOnly (c : HostCmd) : Statement (.hoistReleaseImageOnly c) := of_any _
theorem streamOpen (c : HostCmd) : Statement (.streamOpen c) := of_any _
theorem streamClose (c : HostCmd) : Statement (.streamClose c) := of_any _
theorem streamCloseDrained (stream : Nat) : Statement (.streamCloseDrained stream) := of_any _
theorem streamCloseTimeout (stream : Nat) : Statement (.streamCloseTimeout stream) := of_any _
theorem streamMode (c : HostCmd) : Statement (.streamMode c) := of_any _
theorem streamModeLands (stream : Nat) : Statement (.streamModeLands stream) := of_any _
theorem descArm (c : HostCmd) : Statement (.descArm c) := of_any _
theorem descDisarm (c : HostCmd) : Statement (.descDisarm c) := of_any _
theorem scaleSet (c : HostCmd) (table : HostData) : Statement (.scaleSet c table) := of_any _
theorem scaleBankLive (site : Site) : Statement (.scaleBankLive site) := of_any _
theorem scaleBankRetireDone (site : Site) : Statement (.scaleBankRetireDone site) := of_any _
theorem scaleRead (c : HostCmd) : Statement (.scaleRead c) := of_any _
theorem selfTestProveUnit (c : HostCmd) : Statement (.selfTestProveUnit c) := of_any _
theorem selfTestRequestWindow (c : HostCmd) : Statement (.selfTestRequestWindow c) := of_any _
theorem selfTestGrantWindow (c : HostCmd) : Statement (.selfTestGrantWindow c) := of_any _
theorem selfTestReport (c : HostCmd) : Statement (.selfTestReport c) := of_any _
theorem fullWindowStart : Statement (.fullWindowStart) := of_any _
theorem fullWindowEnd (failed : List Site) : Statement (.fullWindowEnd failed) := of_any _
theorem calibrateChannel (c : HostCmd) : Statement (.calibrateChannel c) := of_any _
theorem calibrateAllChannels (c : HostCmd) : Statement (.calibrateAllChannels c) := of_any _
theorem calibrateLane (c : HostCmd) (eyeHeight : Nat) (eyeWidth : Nat) : Statement (.calibrateLane c eyeHeight eyeWidth) := of_any _
theorem unitDisable (c : HostCmd) : Statement (.unitDisable c) := of_any _
theorem unitEnable (c : HostCmd) : Statement (.unitEnable c) := of_any _
theorem unitDrainDone (site : Site) : Statement (.unitDrainDone site) := of_any _
theorem unitDrainTimeout (site : Site) : Statement (.unitDrainTimeout site) := of_any _
theorem haltAt (c : HostCmd) : Statement (.haltAt c) := of_any _
theorem haltLands : Statement (.haltLands) := of_any _
theorem resume (c : HostCmd) : Statement (.resume c) := of_any _
theorem resumeLands : Statement (.resumeLands) := of_any _
theorem snapshotCapture (c : HostCmd) : Statement (.snapshotCapture c) := of_any _
theorem snapshotCaptureDone : Statement (.snapshotCaptureDone) := of_any _
theorem snapshotCopy (c : HostCmd) : Statement (.snapshotCopy c) := of_any _
theorem snapshotRelease (c : HostCmd) : Statement (.snapshotRelease c) := of_any _
theorem traceConfigure (c : HostCmd) : Statement (.traceConfigure c) := of_any _
theorem traceStart (c : HostCmd) : Statement (.traceStart c) := of_any _
theorem traceStop (c : HostCmd) : Statement (.traceStop c) := of_any _
theorem traceStopFlushDone : Statement (.traceStopFlushDone) := of_any _
theorem traceTrigger (c : HostCmd) : Statement (.traceTrigger c) := of_any _
theorem traceMarker (c : HostCmd) : Statement (.traceMarker c) := of_any _
theorem traceRelease (c : HostCmd) : Statement (.traceRelease c) := of_any _
theorem traceCopy (c : HostCmd) : Statement (.traceCopy c) := of_any _
theorem counterConfigure (c : HostCmd) : Statement (.counterConfigure c) := of_any _
theorem counterRunMask (c : HostCmd) : Statement (.counterRunMask c) := of_any _
theorem counterClearMask (c : HostCmd) : Statement (.counterClearMask c) := of_any _
theorem counterSampleAll (c : HostCmd) : Statement (.counterSampleAll c) := of_any _
theorem counterGrant (c : HostCmd) : Statement (.counterGrant c) := of_any _
theorem spanOpen (c : HostCmd) : Statement (.spanOpen c) := of_any _
theorem spanClose (c : HostCmd) : Statement (.spanClose c) := of_any _
theorem spanMeasure (c : HostCmd) : Statement (.spanMeasure c) := of_any _
theorem fwStage (c : HostCmd) (package : HostData) : Statement (.fwStage c package) := of_any _
theorem fwStageDone : Statement (.fwStageDone) := of_any _
theorem fwSwitch (c : HostCmd) : Statement (.fwSwitch c) := of_any _
theorem fwSwitchLands : Statement (.fwSwitchLands) := of_any _
theorem fwCoreReady (core : Nat) : Statement (.fwCoreReady core) := of_any _
theorem fwReadyTimeout (core : Nat) : Statement (.fwReadyTimeout core) := of_any _
theorem lifecycleTransition (c : HostCmd) (auth : HostData) : Statement (.lifecycleTransition c auth) := of_any _
theorem lifecycleAddKey (c : HostCmd) (auth : HostData) : Statement (.lifecycleAddKey c auth) := of_any _
theorem lifecycleRevokeImageKey (c : HostCmd) (auth : HostData) : Statement (.lifecycleRevokeImageKey c auth) := of_any _
theorem lifecycleRevokeFwKey (c : HostCmd) (auth : HostData) : Statement (.lifecycleRevokeFwKey c auth) := of_any _
theorem wipeFreeSpace (c : HostCmd) : Statement (.wipeFreeSpace c) := of_any _
theorem wipeFreeSpaceDone : Statement (.wipeFreeSpaceDone) := of_any _
theorem wipeDevice (c : HostCmd) : Statement (.wipeDevice c) := of_any _
theorem wipeStagedFirmware (c : HostCmd) : Statement (.wipeStagedFirmware c) := of_any _
theorem powerSetOperatingPoint (c : HostCmd) : Statement (.powerSetOperatingPoint c) := of_any _
theorem powerSetCap (c : HostCmd) : Statement (.powerSetCap c) := of_any _
theorem powerSetThermal (c : HostCmd) : Statement (.powerSetThermal c) := of_any _
theorem powerSetSleep (c : HostCmd) : Statement (.powerSetSleep c) := of_any _
theorem powerSetWake (c : HostCmd) : Statement (.powerSetWake c) := of_any _
theorem powerSetReset (c : HostCmd) : Statement (.powerSetReset c) := of_any _
theorem delayedDeviceReset : Statement (.delayedDeviceReset) := of_any _
theorem thermalRead (c : HostCmd) : Statement (.thermalRead c) := of_any _
theorem hifDbSqTail (ring : Nat) (value : Dword) : Statement (.hifDbSqTail ring value) := of_any _
theorem hifDbCqHead (ring : Nat) (value : Dword) : Statement (.hifDbCqHead ring value) := of_any _
theorem ringEnable (ring : Nat) (value : Dword) : Statement (.ringEnable ring value) := of_any _
theorem ringDisable (ring : Nat) (value : Dword) : Statement (.ringDisable ring value) := of_any _
theorem ringDrainDone (ring : Nat) : Statement (.ringDrainDone ring) := of_any _
theorem packetFetch (ring : Nat) (packets : Option (List Packet)) : Statement (.packetFetch ring packets) := of_any _
theorem functionLevelReset : Statement (.functionLevelReset) := of_any _
theorem hotReset : Statement (.hotReset) := of_any _
theorem linkDown : Statement (.linkDown) := of_any _
theorem busMasterEnableClear : Statement (.busMasterEnableClear) := of_any _
theorem busMasterEnableSet : Statement (.busMasterEnableSet) := of_any _
theorem powerStateD3hot : Statement (.powerStateD3hot) := of_any _
theorem msixVectorUnmask (vector : Nat) (functionMask : Bool) : Statement (.msixVectorUnmask vector functionMask) := of_any _
theorem registerWrite (bar : Nat) (offset : Nat) (value : Dword) : Statement (.registerWrite bar offset value) := of_any _
theorem malformedRegisterAccess (bar : Nat) (offset : Nat) (size : Nat) (write : Option Nat) : Statement (.malformedRegisterAccess bar offset size write) := of_any _
theorem latchedLoRead (bar : Nat) (offset : Nat) : Statement (.latchedLoRead bar offset) := of_any _
theorem rcRead (bar : Nat) (offset : Nat) : Statement (.rcRead bar offset) := of_any _
theorem evtPendAck (fast : Bool) (hi : Bool) (value : Dword) : Statement (.evtPendAck fast hi value) := of_any _
theorem evtIdleArm (hi : Bool) (value : Dword) : Statement (.evtIdleArm hi value) := of_any _
theorem evtLogEnable (fast : Bool) (value : Dword) : Statement (.evtLogEnable fast value) := of_any _
theorem evtLogDisable (fast : Bool) (value : Dword) : Statement (.evtLogDisable fast value) := of_any _
theorem evtLogHead (fast : Bool) (value : Dword) : Statement (.evtLogHead fast value) := of_any _
theorem evtVecMod (vector : Nat) (value : Dword) : Statement (.evtVecMod vector value) := of_any _
theorem halProofCtrl (value : Dword) : Statement (.halProofCtrl value) := of_any _
theorem memMaintCtrl (value : Dword) : Statement (.memMaintCtrl value) := of_any _
theorem cntPageSample (bar2 : Bool) (page : Nat) (value : Dword) : Statement (.cntPageSample bar2 page value) := of_any _
theorem cntPageClear (bar2 : Bool) (page : Nat) (value : Dword) : Statement (.cntPageClear bar2 page value) := of_any _
theorem cntPageRun (bar2 : Bool) (page : Nat) (value : Dword) : Statement (.cntPageRun bar2 page value) := of_any _
theorem moderationTimerExpiry (vector : Nat) : Statement (.moderationTimerExpiry vector) := of_any _
theorem heldRecordWrite (fast : Bool) : Statement (.heldRecordWrite fast) := of_any _
theorem configScrub (site : Site) (hoist : Nat) (dword : Nat) (found : Ecc) : Statement (.configScrub site hoist dword found) := of_any _
theorem autoMirrorSwitch : Statement (.autoMirrorSwitch) := of_any _
theorem configRewriteDone (site : Site) (hoist : Nat) (readable : Bool) (rechecked : Bool) : Statement (.configRewriteDone site hoist readable rechecked) := of_any _
theorem beatSend (producer : EndPoint) : Statement (.beatSend producer) := of_any _
theorem beatArrive (consumer : EndPoint) (upset : ArriveUpset) : Statement (.beatArrive consumer upset) := of_any _
theorem creditReturnArrive (producer : EndPoint) : Statement (.creditReturnArrive producer) := of_any _
theorem segmentContention (segment : Site) : Statement (.segmentContention segment) := of_any _
theorem voidTackLineReceive (input : EndPoint) (stream : Nat) : Statement (.voidTackLineReceive input stream) := of_any _
theorem slotBind (site : Site) : Statement (.slotBind site) := of_any _
theorem operationIssue (site : Site) : Statement (.operationIssue site) := of_any _
theorem aloadBeat (site : Site) (slot : Nat) (port : Nat) : Statement (.aloadBeat site slot port) := of_any _
theorem rowExponentFix (site : Site) (slot : Nat) (historyParity : Bool) : Statement (.rowExponentFix site slot historyParity) := of_any _
theorem macFire (site : Site) (slot : Nat) (weight : Ecc) (parity : TileParity) : Statement (.macFire site slot weight parity) := of_any _
theorem omacFire (site : Site) (slot : Nat) (weights : Ecc × Ecc) (parity : TileParity) : Statement (.omacFire site slot weights parity) := of_any _
theorem clipCheck (site : Site) (slot : Nat) : Statement (.clipCheck site slot) := of_any _
theorem drainFire (site : Site) (slot : Nat) (parity : TileParity) : Statement (.drainFire site slot parity) := of_any _
theorem fetchFire (site : Site) (slot : Nat) : Statement (.fetchFire site slot) := of_any _
theorem fetchBeatWrite (site : Site) (port : Nat) : Statement (.fetchBeatWrite site port) := of_any _
theorem waitComplete (site : Site) (slot : Nat) : Statement (.waitComplete site slot) := of_any _
theorem releaseFire (site : Site) (slot : Nat) : Statement (.releaseFire site slot) := of_any _
theorem tileWatchdogExpiry (site : Site) (slot : Nat) (index : Nat) : Statement (.tileWatchdogExpiry site slot index) := of_any _
theorem weightScrub (site : Site) (word : Nat) (found : Ecc) : Statement (.weightScrub site word found) := of_any _
theorem weightRewriteDone (site : Site) (region : Nat) (rechecked : Bool) : Statement (.weightRewriteDone site region rechecked) := of_any _
theorem vloadBeat (site : Site) (slot : Nat) : Statement (.vloadBeat site slot) := of_any _
theorem vsendBeat (site : Site) (slot : Nat) (found : Ecc) : Statement (.vsendBeat site slot found) := of_any _
theorem vopFire (site : Site) (slot : Nat) (found : Ecc) : Statement (.vopFire site slot found) := of_any _
theorem constantRewriteDone (site : Site) (region : Nat) (readable : Bool) (rechecked : Bool) : Statement (.constantRewriteDone site region readable rechecked) := of_any _
theorem vfuncFire (site : Site) (slot : Nat) (found : Ecc) : Statement (.vfuncFire site slot found) := of_any _
theorem vredFire (site : Site) (slot : Nat) (found : Ecc) : Statement (.vredFire site slot found) := of_any _
theorem windowBeatIn (site : Site) (parity : Bool) : Statement (.windowBeatIn site parity) := of_any _
theorem windowRowEmit (site : Site) (slot : Nat) (parity : Bool) : Statement (.windowRowEmit site slot parity) := of_any _
theorem poolRowEmit (site : Site) (slot : Nat) (parity : Bool) : Statement (.poolRowEmit site slot parity) := of_any _
theorem glueFcEval (site : Site) : Statement (.glueFcEval site) := of_any _
theorem glueDrainDone (site : Site) : Statement (.glueDrainDone site) := of_any _
theorem glueDrainTimeout (site : Site) : Statement (.glueDrainTimeout site) := of_any _
theorem skewEnqueue (site : Site) (port : Nat) : Statement (.skewEnqueue site port) := of_any _
theorem steerSend (site : Site) (port : Nat) (parity : Option Nat) : Statement (.steerSend site port parity) := of_any _
theorem pennantPair (site : Site) (port : Nat) : Statement (.pennantPair site port) := of_any _
theorem frameEndSettle (site : Site) (port : Nat) (stream : Nat) : Statement (.frameEndSettle site port stream) := of_any _
theorem spillWriteRun (site : Site) (queue : Nat) : Statement (.spillWriteRun site queue) := of_any _
theorem spillReadRequest (site : Site) (queue : Nat) : Statement (.spillReadRequest site queue) := of_any _
theorem refillReturn (site : Site) (queue : Nat) (beats : Nat) : Statement (.refillReturn site queue beats) := of_any _
theorem steerWatchdogExpiry (site : Site) : Statement (.steerWatchdogExpiry site) := of_any _
theorem queueReadIssue (queue : Nat) : Statement (.queueReadIssue queue) := of_any _
theorem generatorStep (queue : Nat) : Statement (.generatorStep queue) := of_any _
theorem generatorFrameResume (queue : Nat) : Statement (.generatorFrameResume queue) := of_any _
theorem channelBurstDecision (slot : BurstSlot) : Statement (.channelBurstDecision slot) := of_any _
theorem readReturn (queue : Nat) (entry : Nat) (cacheWord : Ecc) (line : ReturnedLine) (mirror : Ecc) : Statement (.readReturn queue entry cacheWord line mirror) := of_any _
theorem fetchRequestArrive (queue : Nat) : Statement (.fetchRequestArrive queue) := of_any _
theorem feedBeatSend (queue : Nat) (parity : Bool) : Statement (.feedBeatSend queue parity) := of_any _
theorem streamInBeatSend (queue : Nat) (parity : Bool) : Statement (.streamInBeatSend queue parity) := of_any _
theorem streamOutBeatWrite (access : StorageAccess) : Statement (.streamOutBeatWrite access) := of_any _
theorem spillQueueWrite (access : StorageAccess) : Statement (.spillQueueWrite access) := of_any _
theorem spillQueueRead (access : StorageAccess) : Statement (.spillQueueRead access) := of_any _
theorem circularWaitExpiry : Statement (.circularWaitExpiry) := of_any _
theorem refresh (channel : Nat) (bank : Nat) : Statement (.refresh channel bank) := of_any _
theorem zqCalibration (channel : Nat) : Statement (.zqCalibration channel) := of_any _
theorem dqsOscillatorRead (channel : Nat) (value : Nat) : Statement (.dqsOscillatorRead channel value) := of_any _
theorem patrolBlock (channel : Nat) (found : List ReturnedLine) (mirror : Ecc) : Statement (.patrolBlock channel found mirror) := of_any _
theorem retrainingWindowStart (channel : Nat) : Statement (.retrainingWindowStart channel) := of_any _
theorem retrainingWindowEnd (channel : Nat) (success : Bool) : Statement (.retrainingWindowEnd channel success) := of_any _
theorem descStoreScrub (word : Nat) (found : Ecc) : Statement (.descStoreScrub word found) := of_any _
theorem descRewriteDone (word : Nat) (success : Bool) : Statement (.descRewriteDone word success) := of_any _
theorem hostRecordWrite (stream : Nat) : Statement (.hostRecordWrite stream) := of_any _
theorem hostSlotSeal (stream : Nat) : Statement (.hostSlotSeal stream) := of_any _
theorem spanCodewordSend (port : Nat) : Statement (.spanCodewordSend port) := of_any _
theorem spanCodewordReceive (port : Nat) (fec : Ecc) (payload : BitVec 5140) : Statement (.spanCodewordReceive port fec payload) := of_any _
theorem spanAckTimeout (port : Nat) : Statement (.spanAckTimeout port) := of_any _
theorem spanLockLoss (port : Nat) (wavelength : Nat) : Statement (.spanLockLoss port wavelength) := of_any _
theorem spanTrainingTimeout (port : Nat) : Statement (.spanTrainingTimeout port) := of_any _
theorem spanProbeTimer (port : Nat) : Statement (.spanProbeTimer port) := of_any _
theorem spanProbeReplace (port : Nat) (probe : Nat) : Statement (.spanProbeReplace port probe) := of_any _
theorem spanCloseDrained (port : Nat) : Statement (.spanCloseDrained port) := of_any _
theorem spanCloseTimeout (port : Nat) : Statement (.spanCloseTimeout port) := of_any _
theorem frameStartReceive (stream : Nat) (start : StartStripe) : Statement (.frameStartReceive stream start) := of_any _
theorem lineStartReceive (stream : Nat) (payload : BitVec 64) : Statement (.lineStartReceive stream payload) := of_any _
theorem dataBlockReceive (stream : Nat) (payload : BitVec 64) : Statement (.dataBlockReceive stream payload) := of_any _
theorem lineEndReceive (stream : Nat) (payload : BitVec 64) : Statement (.lineEndReceive stream payload) := of_any _
theorem frameEndReceive (stream : Nat) (payload : BitVec 64) : Statement (.frameEndReceive stream payload) := of_any _
theorem idleStripeReceive (stripe : IdleStripe) : Statement (.idleStripeReceive stripe) := of_any _
theorem laneLockLoss (lane : Nat) (cause : LaneLoss) : Statement (.laneLockLoss lane cause) := of_any _
theorem laneLockRegain (lane : Nat) : Statement (.laneLockRegain lane) := of_any _
theorem ingressBeatSend (stream : Nat) : Statement (.ingressBeatSend stream) := of_any _
theorem egressFrameStart (stream : Nat) : Statement (.egressFrameStart stream) := of_any _
theorem egressResultBeat (stream : Nat) : Statement (.egressResultBeat stream) := of_any _
theorem courierFrameForward (stream : Nat) : Statement (.courierFrameForward stream) := of_any _
theorem deadlineExpiry (stream : Nat) (frame : Nat) : Statement (.deadlineExpiry stream frame) := of_any _
theorem vinRise : Statement (.vinRise) := of_any _
theorem powerStageFault (cause : StageFault) (t : Telemetry) : Statement (.powerStageFault cause t) := of_any _
theorem powerStageRestart : Statement (.powerStageRestart) := of_any _
theorem vinBelow36V : Statement (.vinBelow36V) := of_any _
theorem pmbusWarnCrossing (limit : WarnLimit) (crossed : Bool) (t : Telemetry) : Statement (.pmbusWarnCrossing limit crossed t) := of_any _
theorem refClockLoss : Statement (.refClockLoss) := of_any _
theorem refClockRestore : Statement (.refClockRestore) := of_any _
theorem stagedStartPhaseEnd (failedUnits : List Site) (failedChannels : List Site) : Statement (.stagedStartPhaseEnd failedUnits failedChannels) := of_any _
theorem sectorWakeGroup (sector : Nat) : Statement (.sectorWakeGroup sector) := of_any _
theorem perstAssert : Statement (.perstAssert) := of_any _
theorem perstDeassert : Statement (.perstDeassert) := of_any _
theorem dividerSwitchPoint (sector : Nat) : Statement (.dividerSwitchPoint sector) := of_any _
theorem vddSlewDone (sector : Nat) : Statement (.vddSlewDone sector) := of_any _
theorem thermalSample (sector : Nat) (sensors : List Int) : Statement (.thermalSample sector sensors) := of_any _
theorem powerCapAverage (pin : Nat) : Statement (.powerCapAverage pin) := of_any _
theorem neighbourDiffExpiry (hotter : Nat) (cooler : Nat) : Statement (.neighbourDiffExpiry hotter cooler) := of_any _
theorem heartbeatMiss (core : Nat) : Statement (.heartbeatMiss core) := of_any _
theorem coreRestartDone (core : Nat) : Statement (.coreRestartDone core) := of_any _
theorem halyardParityError : Statement (.halyardParityError) := of_any _
theorem proofArm : Statement (.proofArm) := of_any _
theorem proofUnitIdle (site : Site) : Statement (.proofUnitIdle site) := of_any _
theorem proofMaxWaitExpiry (site : Site) : Statement (.proofMaxWaitExpiry site) := of_any _
theorem bistRunDone (site : Site) (pass : Bool) : Statement (.bistRunDone site pass) := of_any _
theorem proofRestoreDone (site : Site) : Statement (.proofRestoreDone site) := of_any _
theorem traceLineWrite (buffer : Nat) : Statement (.traceLineWrite buffer) := of_any _
theorem traceBufferFlushTimer (buffer : Nat) : Statement (.traceBufferFlushTimer buffer) := of_any _
theorem extest : Statement (.extest) := of_any _
theorem samplePreload : Statement (.samplePreload) := of_any _
theorem idcode : Statement (.idcode) := of_any _
theorem highz : Statement (.highz) := of_any _
theorem clamp : Statement (.clamp) := of_any _
theorem extestPulse : Statement (.extestPulse) := of_any _
theorem extestTrain : Statement (.extestTrain) := of_any _
theorem bypass (code : BitVec 8) : Statement (.bypass code) := of_any _
theorem tapReset : Statement (.tapReset) := of_any _
theorem clearFaults : Statement (.clearFaults) := of_any _
theorem writeProtect (op : PmOp) : Statement (.writeProtect op) := of_any _
theorem capability : Statement (.capability) := of_any _
theorem otFaultLimit (op : PmOp) : Statement (.otFaultLimit op) := of_any _
theorem otWarnLimit (op : PmOp) : Statement (.otWarnLimit op) := of_any _
theorem vinOvFaultLimit (op : PmOp) : Statement (.vinOvFaultLimit op) := of_any _
theorem vinOvWarnLimit (op : PmOp) : Statement (.vinOvWarnLimit op) := of_any _
theorem vinUvWarnLimit (op : PmOp) : Statement (.vinUvWarnLimit op) := of_any _
theorem vinUvFaultLimit (op : PmOp) : Statement (.vinUvFaultLimit op) := of_any _
theorem iinOcFaultLimit (op : PmOp) : Statement (.iinOcFaultLimit op) := of_any _
theorem iinOcWarnLimit (op : PmOp) : Statement (.iinOcWarnLimit op) := of_any _
theorem pinOpWarnLimit (op : PmOp) : Statement (.pinOpWarnLimit op) := of_any _
theorem statusWord : Statement (.statusWord) := of_any _
theorem statusInput (op : PmOp) : Statement (.statusInput op) := of_any _
theorem statusTemperature (op : PmOp) : Statement (.statusTemperature op) := of_any _
theorem statusCml (op : PmOp) : Statement (.statusCml op) := of_any _
theorem readVin (t : Telemetry) : Statement (.readVin t) := of_any _
theorem readIin (t : Telemetry) : Statement (.readIin t) := of_any _
theorem readTemperature1 (t : Telemetry) : Statement (.readTemperature1 t) := of_any _
theorem readPin (t : Telemetry) : Statement (.readPin t) := of_any _
theorem pmbusRevision : Statement (.pmbusRevision) := of_any _
theorem mfrRestartCount : Statement (.mfrRestartCount) := of_any _
theorem pmbusUnsupportedCommand (code : BitVec 8) : Statement (.pmbusUnsupportedCommand code) := of_any _
theorem powerStateD0 : Statement (.powerStateD0) := of_any _
theorem spanLockAcquire (port : Nat) (wavelength : Nat) : Statement (.spanLockAcquire port wavelength) := of_any _
theorem snapshotCopyDone : Statement (.snapshotCopyDone) := of_any _
theorem traceCopyDone : Statement (.traceCopyDone) := of_any _
theorem attestDone : Statement (.attestDone) := of_any _
theorem vinAbove36V (addrPins : Nat) : Statement (.vinAbove36V addrPins) := of_any _

end Sys2Proof.Laws.Wf
end

