-- ==== Sys2Proof/Laws/State.lean ====
section
/-! SUPPORT. What an update reads back as, and what it leaves alone: one simp lemma for each shared operation, over every piece of the state that it
does not touch, and the queue. -/

namespace Sys2Proof.Machine

/-! ### Association lists and lists by index -/

theorem find?_amErase_other {κ ν : Type} [DecidableEq κ] (m : AMap κ ν) {k j : κ} (h : j ≠ k) :
    (amErase m k).find? (fun p => decide (p.1 = j)) = m.find? (fun p => decide (p.1 = j)) := by
  unfold amErase
  induction m with
  | nil => rfl
  | cons p m ih =>
    by_cases e : p.1 = k
    · rw [List.filter_cons_of_neg (by simp [e]), List.find?_cons_of_neg (by simp [e, Ne.symm h]), ih]
    · rw [List.filter_cons_of_pos (by simp [e])]
      by_cases g : p.1 = j
      · rw [List.find?_cons_of_pos (by simp [g]), List.find?_cons_of_pos (by simp [g])]
      · rw [List.find?_cons_of_neg (by simp [g]), List.find?_cons_of_neg (by simp [g]), ih]

@[simp] theorem amGetD_amSet_same {κ ν : Type} [DecidableEq κ] (m : AMap κ ν) (k : κ) (v d : ν) : amGetD (amSet m k v) k d = v := by
  simp [amGetD, amGet, amSet]

theorem amGetD_amSet_other {κ ν : Type} [DecidableEq κ] (m : AMap κ ν) {k j : κ} (v d : ν) (h : j ≠ k) : amGetD (amSet m k v) j d = amGetD m j d := by
  unfold amGetD amGet amSet
  rw [List.find?_cons_of_neg (by simp [Ne.symm h]), find?_amErase_other m h]

theorem lget_set_same {α : Type} {l : List α} {i : Nat} (x d : α) (h : i < l.length) : lget (l.set i x) i d = x := by simp [lget, h]

theorem lget_set_other {α : Type} (l : List α) {i j : Nat} (x d : α) (h : j ≠ i) : lget (l.set i x) j d = lget l j d := by
  simp [lget, Ne.symm h]

theorem lmod_eq_set {α : Type} {l : List α} {i : Nat} (f : α → α) (d : α) (h : i < l.length) : lmod l i f = l.set i (f (lget l i d)) := by
  simp [lmod, lget, h]

@[simp] theorem length_lmod {α : Type} (l : List α) (i : Nat) (f : α → α) : (lmod l i f).length = l.length := by
  unfold lmod; split <;> simp

/-! ### Reading back -/

@[simp] theorem advance_now (s : State) (t : Fc) : (advance s t).now = max s.now t := rfl
@[simp] theorem emit_out (s : State) (o : Output) : (emit s o).out = s.out ++ [o] := rfl
@[simp] theorem drawn_fresh (s : State) : (drawn s).fresh = s.fresh + 1 := rfl
@[simp] theorem setProof_proof (s : State) (p : Proof) : (setProof s p).hal = { s.hal with proof := p } := rfl
@[simp] theorem tileOf_setTile (s : State) (u : Site) (x : MatrixTile) : tileOf (setTile s u x) u = x := amGetD_amSet_same _ _ _ _
@[simp] theorem vtileOf_setVtile (s : State) (u : Site) (x : VectorTile) : vtileOf (setVtile s u x) u = x := amGetD_amSet_same _ _ _ _
@[simp] theorem wtileOf_setWtile (s : State) (u : Site) (x : WindowTile) : wtileOf (setWtile s u x) u = x := amGetD_amSet_same _ _ _ _
@[simp] theorem glueOf_setGlue (s : State) (u : Site) (x : GlueBlock) : glueOf (setGlue s u x) u = x := amGetD_amSet_same _ _ _ _
@[simp] theorem steerOf_setSteer (s : State) (u : Site) (x : SteeringUnit) : steerOf (setSteer s u x) u = x := amGetD_amSet_same _ _ _ _
@[simp] theorem queueOf_setQueue (s : State) (q : Nat) (x : MemQueue) : queueOf (setQueue s q x) q = x := amGetD_amSet_same _ _ _ _
theorem tileOf_setTile_other (s : State) {u v : Site} (x : MatrixTile) (h : v ≠ u) : tileOf (setTile s u x) v = tileOf s v := amGetD_amSet_other _ _ _ h
theorem vtileOf_setVtile_other (s : State) {u v : Site} (x : VectorTile) (h : v ≠ u) : vtileOf (setVtile s u x) v = vtileOf s v := amGetD_amSet_other _ _ _ h
theorem wtileOf_setWtile_other (s : State) {u v : Site} (x : WindowTile) (h : v ≠ u) : wtileOf (setWtile s u x) v = wtileOf s v := amGetD_amSet_other _ _ _ h
theorem glueOf_setGlue_other (s : State) {u v : Site} (x : GlueBlock) (h : v ≠ u) : glueOf (setGlue s u x) v = glueOf s v := amGetD_amSet_other _ _ _ h
theorem steerOf_setSteer_other (s : State) {u v : Site} (x : SteeringUnit) (h : v ≠ u) : steerOf (setSteer s u x) v = steerOf s v := amGetD_amSet_other _ _ _ h
theorem queueOf_setQueue_other (s : State) {q v : Nat} (x : MemQueue) (h : v ≠ q) : queueOf (setQueue s q x) v = queueOf s v := amGetD_amSet_other _ _ _ h
theorem ringOf_setRing (s : State) {r : Nat} (x : Ring) (h : r < s.hif.rings.length) : ringOf (setRing s r x) r = x := lget_set_same _ _ h
theorem ringOf_setRing_other (s : State) {r k : Nat} (x : Ring) (h : k ≠ r) : ringOf (setRing s r x) k = ringOf s k := lget_set_other _ _ _ h
theorem channelOf_setChannel (s : State) {c : Nat} (x : Channel) (h : c < s.feed.channels.length) : channelOf (setChannel s c x) c = x := lget_set_same _ _ h
theorem streamOf_setStream (s : State) {st : Nat} (x : StreamCtx) (h : st < s.streams.length) : streamOf (setStream s st x) st = x := lget_set_same _ _ h
theorem streamOf_modStream (s : State) {st : Nat} (f : StreamCtx → StreamCtx) (h : st < s.streams.length) : streamOf (modStream s st f) st = f (streamOf s st) := by
  unfold modStream streamOf; rw [lmod_eq_set f {} h]; exact lget_set_same _ _ h
theorem streamOf_setStream_other (s : State) {st k : Nat} (x : StreamCtx) (h : k ≠ st) : streamOf (setStream s st x) k = streamOf s k := lget_set_other _ _ _ h
theorem spanOf_setSpan (s : State) {p : Nat} (x : SpanPort) (h : p < s.span.length) : spanOf (setSpan s p x) p = x := lget_set_same _ _ h
theorem sectorOf_setSector (s : State) {k : Nat} (x : Sector) (h : k < s.power.sectors.length) : sectorOf (setSector s k x) k = x := lget_set_same _ _ h

/-! ### Commands that firmware takes -/

theorem takeCmd_finish {s x : State} {c : HostCmd} {op form st d : Nat} {w : List (Nat × List Byte)} {body : State → Packet → Verdict}
    (h : Ready op form s c) (hb : body (begun s c) c.pkt = .finish st d w x) : takeCmd s c op form body = .next (finishTaken x c st d w) := by
  obtain ⟨h1, h2, h3⟩ := h
  unfold takeCmd; unfold begun at *; simp [h1, h2, h3, done, hb, conclude]

theorem takeCmd_pend {s x : State} {c : HostCmd} {op form : Nat} {k : PendKind} {body : State → Packet → Verdict}
    (h : Ready op form s c) (r : Room s c) (hb : body (begun s c) c.pkt = .pend k x) : takeCmd s c op form body = .next (pendTaken x c k) := by
  obtain ⟨h1, h2, h3⟩ := h
  unfold takeCmd; unfold Room at r; unfold begun at *; simp [h1, h2, h3, done, hb, conclude]; omega


/-! ### What each operation leaves alone -/

@[simp] theorem advance_frame (s : State) (t : Fc) :
    (advance s t).out = s.out ∧ (advance s t).hif = s.hif ∧ (advance s t).evt = s.evt ∧ (advance s t).hal = s.hal ∧ (advance s t).fabric = s.fabric ∧
    (advance s t).tiles = s.tiles ∧ (advance s t).vtiles = s.vtiles ∧ (advance s t).wtiles = s.wtiles ∧ (advance s t).glue = s.glue ∧
    (advance s t).steer = s.steer ∧ (advance s t).feed = s.feed ∧ (advance s t).streams = s.streams ∧ (advance s t).lanes = s.lanes ∧
    (advance s t).span = s.span ∧ (advance s t).power = s.power ∧ (advance s t).pins = s.pins ∧ (advance s t).sec = s.sec ∧
    (advance s t).mgmt = s.mgmt ∧ (advance s t).trace = s.trace ∧ (advance s t).cnt = s.cnt ∧ (advance s t).snap = s.snap ∧
    (advance s t).lostBoxes = s.lostBoxes ∧ (advance s t).fresh = s.fresh ∧ (advance s t).pending = s.pending :=
  ⟨rfl, rfl, rfl, rfl, rfl, rfl, rfl, rfl, rfl, rfl, rfl, rfl, rfl, rfl, rfl, rfl, rfl, rfl, rfl, rfl, rfl, rfl, rfl, rfl⟩

@[simp] theorem emit_frame (s : State) (o : Output) :
    (emit s o).now = s.now ∧ (emit s o).hif = s.hif ∧ (emit s o).evt = s.evt ∧ (emit s o).hal = s.hal ∧ (emit s o).fabric = s.fabric ∧
    (emit s o).tiles = s.tiles ∧ (emit s o).vtiles = s.vtiles ∧ (emit s o).wtiles = s.wtiles ∧ (emit s o).glue = s.glue ∧
    (emit s o).steer = s.steer ∧ (emit s o).feed = s.feed ∧ (emit s o).streams = s.streams ∧ (emit s o).lanes = s.lanes ∧ (emit s o).span = s.span ∧
    (emit s o).power = s.power ∧ (emit s o).pins = s.pins ∧ (emit s o).sec = s.sec ∧ (emit s o).mgmt = s.mgmt ∧ (emit s o).trace = s.trace ∧
    (emit s o).cnt = s.cnt ∧ (emit s o).snap = s.snap ∧ (emit s o).lostBoxes = s.lostBoxes ∧ (emit s o).fresh = s.fresh ∧
    (emit s o).pending = s.pending :=
  ⟨rfl, rfl, rfl, rfl, rfl, rfl, rfl, rfl, rfl, rfl, rfl, rfl, rfl, rfl, rfl, rfl, rfl, rfl, rfl, rfl, rfl, rfl, rfl, rfl⟩

@[simp] theorem drawn_frame (s : State) :
    (drawn s).now = s.now ∧ (drawn s).out = s.out ∧ (drawn s).hif = s.hif ∧ (drawn s).evt = s.evt ∧ (drawn s).hal = s.hal ∧
    (drawn s).fabric = s.fabric ∧ (drawn s).tiles = s.tiles ∧ (drawn s).vtiles = s.vtiles ∧ (drawn s).wtiles = s.wtiles ∧ (drawn s).glue = s.glue ∧
    (drawn s).steer = s.steer ∧ (drawn s).feed = s.feed ∧ (drawn s).streams = s.streams ∧ (drawn s).lanes = s.lanes ∧ (drawn s).span = s.span ∧
    (drawn s).power = s.power ∧ (drawn s).pins = s.pins ∧ (drawn s).sec = s.sec ∧ (drawn s).mgmt = s.mgmt ∧ (drawn s).trace = s.trace ∧
    (drawn s).cnt = s.cnt ∧ (drawn s).snap = s.snap ∧ (drawn s).lostBoxes = s.lostBoxes ∧ (drawn s).pending = s.pending :=
  ⟨rfl, rfl, rfl, rfl, rfl, rfl, rfl, rfl, rfl, rfl, rfl, rfl, rfl, rfl, rfl, rfl, rfl, rfl, rfl, rfl, rfl, rfl, rfl, rfl⟩

@[simp] theorem setRing_frame (s : State) (r : Nat) (x : Ring) :
    (setRing s r x).now = s.now ∧ (setRing s r x).out = s.out ∧ (setRing s r x).evt = s.evt ∧ (setRing s r x).hal = s.hal ∧
    (setRing s r x).fabric = s.fabric ∧ (setRing s r x).tiles = s.tiles ∧ (setRing s r x).vtiles = s.vtiles ∧ (setRing s r x).wtiles = s.wtiles ∧
    (setRing s r x).glue = s.glue ∧ (setRing s r x).steer = s.steer ∧ (setRing s r x).feed = s.feed ∧ (setRing s r x).streams = s.streams ∧
    (setRing s r x).lanes = s.lanes ∧ (setRing s r x).span = s.span ∧ (setRing s r x).power = s.power ∧ (setRing s r x).pins = s.pins ∧
    (setRing s r x).sec = s.sec ∧ (setRing s r x).mgmt = s.mgmt ∧ (setRing s r x).trace = s.trace ∧ (setRing s r x).cnt = s.cnt ∧
    (setRing s r x).snap = s.snap ∧ (setRing s r x).lostBoxes = s.lostBoxes ∧ (setRing s r x).fresh = s.fresh ∧ (setRing s r x).pending = s.pending :=
  ⟨rfl, rfl, rfl, rfl, rfl, rfl, rfl, rfl, rfl, rfl, rfl, rfl, rfl, rfl, rfl, rfl, rfl, rfl, rfl, rfl, rfl, rfl, rfl, rfl⟩

@[simp] theorem setTile_frame (s : State) (u : Site) (x : MatrixTile) :
    (setTile s u x).now = s.now ∧ (setTile s u x).out = s.out ∧ (setTile s u x).hif = s.hif ∧ (setTile s u x).evt = s.evt ∧
    (setTile s u x).hal = s.hal ∧ (setTile s u x).fabric = s.fabric ∧ (setTile s u x).vtiles = s.vtiles ∧ (setTile s u x).wtiles = s.wtiles ∧
    (setTile s u x).glue = s.glue ∧ (setTile s u x).steer = s.steer ∧ (setTile s u x).feed = s.feed ∧ (setTile s u x).streams = s.streams ∧
    (setTile s u x).lanes = s.lanes ∧ (setTile s u x).span = s.span ∧ (setTile s u x).power = s.power ∧ (setTile s u x).pins = s.pins ∧
    (setTile s u x).sec = s.sec ∧ (setTile s u x).mgmt = s.mgmt ∧ (setTile s u x).trace = s.trace ∧ (setTile s u x).cnt = s.cnt ∧
    (setTile s u x).snap = s.snap ∧ (setTile s u x).lostBoxes = s.lostBoxes ∧ (setTile s u x).fresh = s.fresh ∧ (setTile s u x).pending = s.pending :=
  ⟨rfl, rfl, rfl, rfl, rfl, rfl, rfl, rfl, rfl, rfl, rfl, rfl, rfl, rfl, rfl, rfl, rfl, rfl, rfl, rfl, rfl, rfl, rfl, rfl⟩

@[simp] theorem setVtile_frame (s : State) (u : Site) (x : VectorTile) :
    (setVtile s u x).now = s.now ∧ (setVtile s u x).out = s.out ∧ (setVtile s u x).hif = s.hif ∧ (setVtile s u x).evt = s.evt ∧
    (setVtile s u x).hal = s.hal ∧ (setVtile s u x).fabric = s.fabric ∧ (setVtile s u x).tiles = s.tiles ∧ (setVtile s u x).wtiles = s.wtiles ∧
    (setVtile s u x).glue = s.glue ∧ (setVtile s u x).steer = s.steer ∧ (setVtile s u x).feed = s.feed ∧ (setVtile s u x).streams = s.streams ∧
    (setVtile s u x).lanes = s.lanes ∧ (setVtile s u x).span = s.span ∧ (setVtile s u x).power = s.power ∧ (setVtile s u x).pins = s.pins ∧
    (setVtile s u x).sec = s.sec ∧ (setVtile s u x).mgmt = s.mgmt ∧ (setVtile s u x).trace = s.trace ∧ (setVtile s u x).cnt = s.cnt ∧
    (setVtile s u x).snap = s.snap ∧ (setVtile s u x).lostBoxes = s.lostBoxes ∧ (setVtile s u x).fresh = s.fresh ∧
    (setVtile s u x).pending = s.pending :=
  ⟨rfl, rfl, rfl, rfl, rfl, rfl, rfl, rfl, rfl, rfl, rfl, rfl, rfl, rfl, rfl, rfl, rfl, rfl, rfl, rfl, rfl, rfl, rfl, rfl⟩

@[simp] theorem setWtile_frame (s : State) (u : Site) (x : WindowTile) :
    (setWtile s u x).now = s.now ∧ (setWtile s u x).out = s.out ∧ (setWtile s u x).hif = s.hif ∧ (setWtile s u x).evt = s.evt ∧
    (setWtile s u x).hal = s.hal ∧ (setWtile s u x).fabric = s.fabric ∧ (setWtile s u x).tiles = s.tiles ∧ (setWtile s u x).vtiles = s.vtiles ∧
    (setWtile s u x).glue = s.glue ∧ (setWtile s u x).steer = s.steer ∧ (setWtile s u x).feed = s.feed ∧ (setWtile s u x).streams = s.streams ∧
    (setWtile s u x).lanes = s.lanes ∧ (setWtile s u x).span = s.span ∧ (setWtile s u x).power = s.power ∧ (setWtile s u x).pins = s.pins ∧
    (setWtile s u x).sec = s.sec ∧ (setWtile s u x).mgmt = s.mgmt ∧ (setWtile s u x).trace = s.trace ∧ (setWtile s u x).cnt = s.cnt ∧
    (setWtile s u x).snap = s.snap ∧ (setWtile s u x).lostBoxes = s.lostBoxes ∧ (setWtile s u x).fresh = s.fresh ∧
    (setWtile s u x).pending = s.pending :=
  ⟨rfl, rfl, rfl, rfl, rfl, rfl, rfl, rfl, rfl, rfl, rfl, rfl, rfl, rfl, rfl, rfl, rfl, rfl, rfl, rfl, rfl, rfl, rfl, rfl⟩

@[simp] theorem setGlue_frame (s : State) (u : Site) (x : GlueBlock) :
    (setGlue s u x).now = s.now ∧ (setGlue s u x).out = s.out ∧ (setGlue s u x).hif = s.hif ∧ (setGlue s u x).evt = s.evt ∧
    (setGlue s u x).hal = s.hal ∧ (setGlue s u x).fabric = s.fabric ∧ (setGlue s u x).tiles = s.tiles ∧ (setGlue s u x).vtiles = s.vtiles ∧
    (setGlue s u x).wtiles = s.wtiles ∧ (setGlue s u x).steer = s.steer ∧ (setGlue s u x).feed = s.feed ∧ (setGlue s u x).streams = s.streams ∧
    (setGlue s u x).lanes = s.lanes ∧ (setGlue s u x).span = s.span ∧ (setGlue s u x).power = s.power ∧ (setGlue s u x).pins = s.pins ∧
    (setGlue s u x).sec = s.sec ∧ (setGlue s u x).mgmt = s.mgmt ∧ (setGlue s u x).trace = s.trace ∧ (setGlue s u x).cnt = s.cnt ∧
    (setGlue s u x).snap = s.snap ∧ (setGlue s u x).lostBoxes = s.lostBoxes ∧ (setGlue s u x).fresh = s.fresh ∧ (setGlue s u x).pending = s.pending :=
  ⟨rfl, rfl, rfl, rfl, rfl, rfl, rfl, rfl, rfl, rfl, rfl, rfl, rfl, rfl, rfl, rfl, rfl, rfl, rfl, rfl, rfl, rfl, rfl, rfl⟩

@[simp] theorem setSteer_frame (s : State) (u : Site) (x : SteeringUnit) :
    (setSteer s u x).now = s.now ∧ (setSteer s u x).out = s.out ∧ (setSteer s u x).hif = s.hif ∧ (setSteer s u x).evt = s.evt ∧
    (setSteer s u x).hal = s.hal ∧ (setSteer s u x).fabric = s.fabric ∧ (setSteer s u x).tiles = s.tiles ∧ (setSteer s u x).vtiles = s.vtiles ∧
    (setSteer s u x).wtiles = s.wtiles ∧ (setSteer s u x).glue = s.glue ∧ (setSteer s u x).feed = s.feed ∧ (setSteer s u x).streams = s.streams ∧
    (setSteer s u x).lanes = s.lanes ∧ (setSteer s u x).span = s.span ∧ (setSteer s u x).power = s.power ∧ (setSteer s u x).pins = s.pins ∧
    (setSteer s u x).sec = s.sec ∧ (setSteer s u x).mgmt = s.mgmt ∧ (setSteer s u x).trace = s.trace ∧ (setSteer s u x).cnt = s.cnt ∧
    (setSteer s u x).snap = s.snap ∧ (setSteer s u x).lostBoxes = s.lostBoxes ∧ (setSteer s u x).fresh = s.fresh ∧
    (setSteer s u x).pending = s.pending :=
  ⟨rfl, rfl, rfl, rfl, rfl, rfl, rfl, rfl, rfl, rfl, rfl, rfl, rfl, rfl, rfl, rfl, rfl, rfl, rfl, rfl, rfl, rfl, rfl, rfl⟩

@[simp] theorem setQueue_frame (s : State) (q : Nat) (x : MemQueue) :
    (setQueue s q x).now = s.now ∧ (setQueue s q x).out = s.out ∧ (setQueue s q x).hif = s.hif ∧ (setQueue s q x).evt = s.evt ∧
    (setQueue s q x).hal = s.hal ∧ (setQueue s q x).fabric = s.fabric ∧ (setQueue s q x).tiles = s.tiles ∧ (setQueue s q x).vtiles = s.vtiles ∧
    (setQueue s q x).wtiles = s.wtiles ∧ (setQueue s q x).glue = s.glue ∧ (setQueue s q x).steer = s.steer ∧ (setQueue s q x).streams = s.streams ∧
    (setQueue s q x).lanes = s.lanes ∧ (setQueue s q x).span = s.span ∧ (setQueue s q x).power = s.power ∧ (setQueue s q x).pins = s.pins ∧
    (setQueue s q x).sec = s.sec ∧ (setQueue s q x).mgmt = s.mgmt ∧ (setQueue s q x).trace = s.trace ∧ (setQueue s q x).cnt = s.cnt ∧
    (setQueue s q x).snap = s.snap ∧ (setQueue s q x).lostBoxes = s.lostBoxes ∧ (setQueue s q x).fresh = s.fresh ∧
    (setQueue s q x).pending = s.pending :=
  ⟨rfl, rfl, rfl, rfl, rfl, rfl, rfl, rfl, rfl, rfl, rfl, rfl, rfl, rfl, rfl, rfl, rfl, rfl, rfl, rfl, rfl, rfl, rfl, rfl⟩

@[simp] theorem setChannel_frame (s : State) (c : Nat) (x : Channel) :
    (setChannel s c x).now = s.now ∧ (setChannel s c x).out = s.out ∧ (setChannel s c x).hif = s.hif ∧ (setChannel s c x).evt = s.evt ∧
    (setChannel s c x).hal = s.hal ∧ (setChannel s c x).fabric = s.fabric ∧ (setChannel s c x).tiles = s.tiles ∧
    (setChannel s c x).vtiles = s.vtiles ∧ (setChannel s c x).wtiles = s.wtiles ∧ (setChannel s c x).glue = s.glue ∧
    (setChannel s c x).steer = s.steer ∧ (setChannel s c x).streams = s.streams ∧ (setChannel s c x).lanes = s.lanes ∧
    (setChannel s c x).span = s.span ∧ (setChannel s c x).power = s.power ∧ (setChannel s c x).pins = s.pins ∧ (setChannel s c x).sec = s.sec ∧
    (setChannel s c x).mgmt = s.mgmt ∧ (setChannel s c x).trace = s.trace ∧ (setChannel s c x).cnt = s.cnt ∧ (setChannel s c x).snap = s.snap ∧
    (setChannel s c x).lostBoxes = s.lostBoxes ∧ (setChannel s c x).fresh = s.fresh ∧ (setChannel s c x).pending = s.pending :=
  ⟨rfl, rfl, rfl, rfl, rfl, rfl, rfl, rfl, rfl, rfl, rfl, rfl, rfl, rfl, rfl, rfl, rfl, rfl, rfl, rfl, rfl, rfl, rfl, rfl⟩

@[simp] theorem setStream_frame (s : State) (st : Nat) (x : StreamCtx) :
    (setStream s st x).now = s.now ∧ (setStream s st x).out = s.out ∧ (setStream s st x).hif = s.hif ∧ (setStream s st x).evt = s.evt ∧
    (setStream s st x).hal = s.hal ∧ (setStream s st x).fabric = s.fabric ∧ (setStream s st x).tiles = s.tiles ∧
    (setStream s st x).vtiles = s.vtiles ∧ (setStream s st x).wtiles = s.wtiles ∧ (setStream s st x).glue = s.glue ∧
    (setStream s st x).steer = s.steer ∧ (setStream s st x).feed = s.feed ∧ (setStream s st x).lanes = s.lanes ∧ (setStream s st x).span = s.span ∧
    (setStream s st x).power = s.power ∧ (setStream s st x).pins = s.pins ∧ (setStream s st x).sec = s.sec ∧ (setStream s st x).mgmt = s.mgmt ∧
    (setStream s st x).trace = s.trace ∧ (setStream s st x).cnt = s.cnt ∧ (setStream s st x).snap = s.snap ∧
    (setStream s st x).lostBoxes = s.lostBoxes ∧ (setStream s st x).fresh = s.fresh ∧ (setStream s st x).pending = s.pending :=
  ⟨rfl, rfl, rfl, rfl, rfl, rfl, rfl, rfl, rfl, rfl, rfl, rfl, rfl, rfl, rfl, rfl, rfl, rfl, rfl, rfl, rfl, rfl, rfl, rfl⟩

@[simp] theorem modStream_frame (s : State) (st : Nat) (f : StreamCtx → StreamCtx) :
    (modStream s st f).now = s.now ∧ (modStream s st f).out = s.out ∧ (modStream s st f).hif = s.hif ∧ (modStream s st f).evt = s.evt ∧
    (modStream s st f).hal = s.hal ∧ (modStream s st f).fabric = s.fabric ∧ (modStream s st f).tiles = s.tiles ∧
    (modStream s st f).vtiles = s.vtiles ∧ (modStream s st f).wtiles = s.wtiles ∧ (modStream s st f).glue = s.glue ∧
    (modStream s st f).steer = s.steer ∧ (modStream s st f).feed = s.feed ∧ (modStream s st f).lanes = s.lanes ∧ (modStream s st f).span = s.span ∧
    (modStream s st f).power = s.power ∧ (modStream s st f).pins = s.pins ∧ (modStream s st f).sec = s.sec ∧ (modStream s st f).mgmt = s.mgmt ∧
    (modStream s st f).trace = s.trace ∧ (modStream s st f).cnt = s.cnt ∧ (modStream s st f).snap = s.snap ∧
    (modStream s st f).lostBoxes = s.lostBoxes ∧ (modStream s st f).fresh = s.fresh ∧ (modStream s st f).pending = s.pending :=
  ⟨rfl, rfl, rfl, rfl, rfl, rfl, rfl, rfl, rfl, rfl, rfl, rfl, rfl, rfl, rfl, rfl, rfl, rfl, rfl, rfl, rfl, rfl, rfl, rfl⟩

@[simp] theorem setSpan_frame (s : State) (p : Nat) (x : SpanPort) :
    (setSpan s p x).now = s.now ∧ (setSpan s p x).out = s.out ∧ (setSpan s p x).hif = s.hif ∧ (setSpan s p x).evt = s.evt ∧
    (setSpan s p x).hal = s.hal ∧ (setSpan s p x).fabric = s.fabric ∧ (setSpan s p x).tiles = s.tiles ∧ (setSpan s p x).vtiles = s.vtiles ∧
    (setSpan s p x).wtiles = s.wtiles ∧ (setSpan s p x).glue = s.glue ∧ (setSpan s p x).steer = s.steer ∧ (setSpan s p x).feed = s.feed ∧
    (setSpan s p x).streams = s.streams ∧ (setSpan s p x).lanes = s.lanes ∧ (setSpan s p x).power = s.power ∧ (setSpan s p x).pins = s.pins ∧
    (setSpan s p x).sec = s.sec ∧ (setSpan s p x).mgmt = s.mgmt ∧ (setSpan s p x).trace = s.trace ∧ (setSpan s p x).cnt = s.cnt ∧
    (setSpan s p x).snap = s.snap ∧ (setSpan s p x).lostBoxes = s.lostBoxes ∧ (setSpan s p x).fresh = s.fresh ∧ (setSpan s p x).pending = s.pending :=
  ⟨rfl, rfl, rfl, rfl, rfl, rfl, rfl, rfl, rfl, rfl, rfl, rfl, rfl, rfl, rfl, rfl, rfl, rfl, rfl, rfl, rfl, rfl, rfl, rfl⟩

@[simp] theorem setSector_frame (s : State) (k : Nat) (x : Sector) :
    (setSector s k x).now = s.now ∧ (setSector s k x).out = s.out ∧ (setSector s k x).hif = s.hif ∧ (setSector s k x).evt = s.evt ∧
    (setSector s k x).hal = s.hal ∧ (setSector s k x).fabric = s.fabric ∧ (setSector s k x).tiles = s.tiles ∧ (setSector s k x).vtiles = s.vtiles ∧
    (setSector s k x).wtiles = s.wtiles ∧ (setSector s k x).glue = s.glue ∧ (setSector s k x).steer = s.steer ∧ (setSector s k x).feed = s.feed ∧
    (setSector s k x).streams = s.streams ∧ (setSector s k x).lanes = s.lanes ∧ (setSector s k x).span = s.span ∧ (setSector s k x).pins = s.pins ∧
    (setSector s k x).sec = s.sec ∧ (setSector s k x).mgmt = s.mgmt ∧ (setSector s k x).trace = s.trace ∧ (setSector s k x).cnt = s.cnt ∧
    (setSector s k x).snap = s.snap ∧ (setSector s k x).lostBoxes = s.lostBoxes ∧ (setSector s k x).fresh = s.fresh ∧
    (setSector s k x).pending = s.pending :=
  ⟨rfl, rfl, rfl, rfl, rfl, rfl, rfl, rfl, rfl, rfl, rfl, rfl, rfl, rfl, rfl, rfl, rfl, rfl, rfl, rfl, rfl, rfl, rfl, rfl⟩

@[simp] theorem setProof_frame (s : State) (p : Proof) :
    (setProof s p).now = s.now ∧ (setProof s p).out = s.out ∧ (setProof s p).hif = s.hif ∧ (setProof s p).evt = s.evt ∧
    (setProof s p).fabric = s.fabric ∧ (setProof s p).tiles = s.tiles ∧ (setProof s p).vtiles = s.vtiles ∧ (setProof s p).wtiles = s.wtiles ∧
    (setProof s p).glue = s.glue ∧ (setProof s p).steer = s.steer ∧ (setProof s p).feed = s.feed ∧ (setProof s p).streams = s.streams ∧
    (setProof s p).lanes = s.lanes ∧ (setProof s p).span = s.span ∧ (setProof s p).power = s.power ∧ (setProof s p).pins = s.pins ∧
    (setProof s p).sec = s.sec ∧ (setProof s p).mgmt = s.mgmt ∧ (setProof s p).trace = s.trace ∧ (setProof s p).cnt = s.cnt ∧
    (setProof s p).snap = s.snap ∧ (setProof s p).lostBoxes = s.lostBoxes ∧ (setProof s p).fresh = s.fresh ∧ (setProof s p).pending = s.pending :=
  ⟨rfl, rfl, rfl, rfl, rfl, rfl, rfl, rfl, rfl, rfl, rfl, rfl, rfl, rfl, rfl, rfl, rfl, rfl, rfl, rfl, rfl, rfl, rfl, rfl⟩

@[simp] theorem sendMessage_frame (s : State) (v : ℕ) :
    (sendMessage s v).now = s.now ∧ (sendMessage s v).evt = s.evt ∧ (sendMessage s v).hal = s.hal ∧ (sendMessage s v).fabric = s.fabric ∧
    (sendMessage s v).tiles = s.tiles ∧ (sendMessage s v).vtiles = s.vtiles ∧ (sendMessage s v).wtiles = s.wtiles ∧ (sendMessage s v).glue = s.glue ∧
    (sendMessage s v).steer = s.steer ∧ (sendMessage s v).feed = s.feed ∧ (sendMessage s v).streams = s.streams ∧ (sendMessage s v).lanes = s.lanes ∧
    (sendMessage s v).span = s.span ∧ (sendMessage s v).power = s.power ∧ (sendMessage s v).pins = s.pins ∧ (sendMessage s v).sec = s.sec ∧
    (sendMessage s v).mgmt = s.mgmt ∧ (sendMessage s v).trace = s.trace ∧ (sendMessage s v).cnt = s.cnt ∧ (sendMessage s v).snap = s.snap ∧
    (sendMessage s v).lostBoxes = s.lostBoxes ∧ (sendMessage s v).fresh = s.fresh ∧ (sendMessage s v).pending = s.pending := by
  have h : Moves 0x6 s (sendMessage s v) := moves_sendMessage rfl (Moves.refl s)
  have f := h.frame
  exact ⟨f.b0 rfl, f.b3 rfl, f.b4 rfl, f.b5 rfl, f.b6 rfl, f.b7 rfl, f.b8 rfl, f.b9 rfl, f.b10 rfl, f.b11 rfl, f.b12 rfl, f.b13 rfl, f.b14 rfl,
    f.b15 rfl, f.b16 rfl, f.b17 rfl, f.b18 rfl, f.b19 rfl, f.b20 rfl, f.b21 rfl, f.b22 rfl, f.b23 rfl, h.keeps.queue⟩

@[simp] theorem fireSource_frame (s : State) (n : ℕ) (rec1 : Option LogRecord) :
    (fireSource s n rec1).now = s.now ∧ (fireSource s n rec1).hal = s.hal ∧ (fireSource s n rec1).fabric = s.fabric ∧
    (fireSource s n rec1).tiles = s.tiles ∧ (fireSource s n rec1).vtiles = s.vtiles ∧ (fireSource s n rec1).wtiles = s.wtiles ∧
    (fireSource s n rec1).glue = s.glue ∧ (fireSource s n rec1).steer = s.steer ∧ (fireSource s n rec1).feed = s.feed ∧
    (fireSource s n rec1).streams = s.streams ∧ (fireSource s n rec1).lanes = s.lanes ∧ (fireSource s n rec1).span = s.span ∧
    (fireSource s n rec1).power = s.power ∧ (fireSource s n rec1).pins = s.pins ∧ (fireSource s n rec1).sec = s.sec ∧
    (fireSource s n rec1).mgmt = s.mgmt ∧ (fireSource s n rec1).trace = s.trace ∧ (fireSource s n rec1).cnt = s.cnt ∧
    (fireSource s n rec1).snap = s.snap ∧ (fireSource s n rec1).lostBoxes = s.lostBoxes ∧ (fireSource s n rec1).fresh = s.fresh ∧
    (fireSource s n rec1).pending = s.pending := by
  have h : Moves 0xe s (fireSource s n rec1) := moves_fireSource rfl (Moves.refl s)
  have f := h.frame
  exact ⟨f.b0 rfl, f.b4 rfl, f.b5 rfl, f.b6 rfl, f.b7 rfl, f.b8 rfl, f.b9 rfl, f.b10 rfl, f.b11 rfl, f.b12 rfl, f.b13 rfl, f.b14 rfl, f.b15 rfl,
    f.b16 rfl, f.b17 rfl, f.b18 rfl, f.b19 rfl, f.b20 rfl, f.b21 rfl, f.b22 rfl, f.b23 rfl, h.keeps.queue⟩

@[simp] theorem postEvent_frame (s : State) (source : ℕ) (code : ℕ) (stream : Option ℕ) (site : Site) (frame : Dword) (time : Fc) (detail : Dword) :
    (postEvent s source code stream site frame time detail).now = s.now ∧ (postEvent s source code stream site frame time detail).hal = s.hal ∧
    (postEvent s source code stream site frame time detail).fabric = s.fabric ∧
    (postEvent s source code stream site frame time detail).tiles = s.tiles ∧
    (postEvent s source code stream site frame time detail).vtiles = s.vtiles ∧
    (postEvent s source code stream site frame time detail).wtiles = s.wtiles ∧
    (postEvent s source code stream site frame time detail).glue = s.glue ∧ (postEvent s source code stream site frame time detail).steer = s.steer ∧
    (postEvent s source code stream site frame time detail).feed = s.feed ∧
    (postEvent s source code stream site frame time detail).streams = s.streams ∧
    (postEvent s source code stream site frame time detail).lanes = s.lanes ∧ (postEvent s source code stream site frame time detail).span = s.span ∧
    (postEvent s source code stream site frame time detail).power = s.power ∧ (postEvent s source code stream site frame time detail).pins = s.pins ∧
    (postEvent s source code stream site frame time detail).sec = s.sec ∧ (postEvent s source code stream site frame time detail).mgmt = s.mgmt ∧
    (postEvent s source code stream site frame time detail).trace = s.trace ∧ (postEvent s source code stream site frame time detail).cnt = s.cnt ∧
    (postEvent s source code stream site frame time detail).snap = s.snap ∧
    (postEvent s source code stream site frame time detail).lostBoxes = s.lostBoxes ∧
    (postEvent s source code stream site frame time detail).fresh = s.fresh ∧
    (postEvent s source code stream site frame time detail).pending = s.pending := by
  have h : Moves 0xe s (postEvent s source code stream site frame time detail) := moves_postEvent rfl (Moves.refl s)
  have f := h.frame
  exact ⟨f.b0 rfl, f.b4 rfl, f.b5 rfl, f.b6 rfl, f.b7 rfl, f.b8 rfl, f.b9 rfl, f.b10 rfl, f.b11 rfl, f.b12 rfl, f.b13 rfl, f.b14 rfl, f.b15 rfl,
    f.b16 rfl, f.b17 rfl, f.b18 rfl, f.b19 rfl, f.b20 rfl, f.b21 rfl, f.b22 rfl, f.b23 rfl, h.keeps.queue⟩

@[simp] theorem postDev_frame (s : State) (source : ℕ) (code : ℕ) (site : Site) (time : Fc) (detail : ℕ) :
    (postDev s source code site time detail).now = s.now ∧ (postDev s source code site time detail).hal = s.hal ∧
    (postDev s source code site time detail).fabric = s.fabric ∧ (postDev s source code site time detail).tiles = s.tiles ∧
    (postDev s source code site time detail).vtiles = s.vtiles ∧ (postDev s source code site time detail).wtiles = s.wtiles ∧
    (postDev s source code site time detail).glue = s.glue ∧ (postDev s source code site time detail).steer = s.steer ∧
    (postDev s source code site time detail).feed = s.feed ∧ (postDev s source code site time detail).streams = s.streams ∧
    (postDev s source code site time detail).lanes = s.lanes ∧ (postDev s source code site time detail).span = s.span ∧
    (postDev s source code site time detail).power = s.power ∧ (postDev s source code site time detail).pins = s.pins ∧
    (postDev s source code site time detail).sec = s.sec ∧ (postDev s source code site time detail).mgmt = s.mgmt ∧
    (postDev s source code site time detail).trace = s.trace ∧ (postDev s source code site time detail).cnt = s.cnt ∧
    (postDev s source code site time detail).snap = s.snap ∧ (postDev s source code site time detail).lostBoxes = s.lostBoxes ∧
    (postDev s source code site time detail).fresh = s.fresh ∧ (postDev s source code site time detail).pending = s.pending := by
  have h : Moves 0xe s (postDev s source code site time detail) := moves_postDev rfl (Moves.refl s)
  have f := h.frame
  exact ⟨f.b0 rfl, f.b4 rfl, f.b5 rfl, f.b6 rfl, f.b7 rfl, f.b8 rfl, f.b9 rfl, f.b10 rfl, f.b11 rfl, f.b12 rfl, f.b13 rfl, f.b14 rfl, f.b15 rfl,
    f.b16 rfl, f.b17 rfl, f.b18 rfl, f.b19 rfl, f.b20 rfl, f.b21 rfl, f.b22 rfl, f.b23 rfl, h.keeps.queue⟩

@[simp] theorem postStream_frame (s : State) (st : ℕ) (code : ℕ) (frame : Dword) (time : Fc) (detail : ℕ) :
    (postStream s st code frame time detail).now = s.now ∧ (postStream s st code frame time detail).hal = s.hal ∧
    (postStream s st code frame time detail).fabric = s.fabric ∧ (postStream s st code frame time detail).tiles = s.tiles ∧
    (postStream s st code frame time detail).vtiles = s.vtiles ∧ (postStream s st code frame time detail).wtiles = s.wtiles ∧
    (postStream s st code frame time detail).glue = s.glue ∧ (postStream s st code frame time detail).steer = s.steer ∧
    (postStream s st code frame time detail).feed = s.feed ∧ (postStream s st code frame time detail).streams = s.streams ∧
    (postStream s st code frame time detail).lanes = s.lanes ∧ (postStream s st code frame time detail).span = s.span ∧
    (postStream s st code frame time detail).power = s.power ∧ (postStream s st code frame time detail).pins = s.pins ∧
    (postStream s st code frame time detail).sec = s.sec ∧ (postStream s st code frame time detail).mgmt = s.mgmt ∧
    (postStream s st code frame time detail).trace = s.trace ∧ (postStream s st code frame time detail).cnt = s.cnt ∧
    (postStream s st code frame time detail).snap = s.snap ∧ (postStream s st code frame time detail).lostBoxes = s.lostBoxes ∧
    (postStream s st code frame time detail).fresh = s.fresh ∧ (postStream s st code frame time detail).pending = s.pending := by
  have h : Moves 0xe s (postStream s st code frame time detail) := moves_postStream rfl (Moves.refl s)
  have f := h.frame
  exact ⟨f.b0 rfl, f.b4 rfl, f.b5 rfl, f.b6 rfl, f.b7 rfl, f.b8 rfl, f.b9 rfl, f.b10 rfl, f.b11 rfl, f.b12 rfl, f.b13 rfl, f.b14 rfl, f.b15 rfl,
    f.b16 rfl, f.b17 rfl, f.b18 rfl, f.b19 rfl, f.b20 rfl, f.b21 rfl, f.b22 rfl, f.b23 rfl, h.keeps.queue⟩

@[simp] theorem heldDrain_frame (s : State) (fast : Bool) :
    (heldDrain s fast).now = s.now ∧ (heldDrain s fast).hal = s.hal ∧ (heldDrain s fast).fabric = s.fabric ∧ (heldDrain s fast).tiles = s.tiles ∧
    (heldDrain s fast).vtiles = s.vtiles ∧ (heldDrain s fast).wtiles = s.wtiles ∧ (heldDrain s fast).glue = s.glue ∧
    (heldDrain s fast).steer = s.steer ∧ (heldDrain s fast).feed = s.feed ∧ (heldDrain s fast).streams = s.streams ∧
    (heldDrain s fast).lanes = s.lanes ∧ (heldDrain s fast).span = s.span ∧ (heldDrain s fast).power = s.power ∧ (heldDrain s fast).pins = s.pins ∧
    (heldDrain s fast).sec = s.sec ∧ (heldDrain s fast).mgmt = s.mgmt ∧ (heldDrain s fast).trace = s.trace ∧ (heldDrain s fast).cnt = s.cnt ∧
    (heldDrain s fast).snap = s.snap ∧ (heldDrain s fast).lostBoxes = s.lostBoxes ∧ (heldDrain s fast).fresh = s.fresh ∧
    (heldDrain s fast).pending = s.pending := by
  have h : Moves 0xe s (heldDrain s fast) := moves_heldDrain rfl (Moves.refl s)
  have f := h.frame
  exact ⟨f.b0 rfl, f.b4 rfl, f.b5 rfl, f.b6 rfl, f.b7 rfl, f.b8 rfl, f.b9 rfl, f.b10 rfl, f.b11 rfl, f.b12 rfl, f.b13 rfl, f.b14 rfl, f.b15 rfl,
    f.b16 rfl, f.b17 rfl, f.b18 rfl, f.b19 rfl, f.b20 rfl, f.b21 rfl, f.b22 rfl, f.b23 rfl, h.keeps.queue⟩

@[simp] theorem foldCounters_frame (s : State) :
    (foldCounters s).now = s.now ∧ (foldCounters s).hal = s.hal ∧ (foldCounters s).fabric = s.fabric ∧ (foldCounters s).tiles = s.tiles ∧
    (foldCounters s).vtiles = s.vtiles ∧ (foldCounters s).wtiles = s.wtiles ∧ (foldCounters s).glue = s.glue ∧ (foldCounters s).steer = s.steer ∧
    (foldCounters s).feed = s.feed ∧ (foldCounters s).streams = s.streams ∧ (foldCounters s).lanes = s.lanes ∧ (foldCounters s).span = s.span ∧
    (foldCounters s).power = s.power ∧ (foldCounters s).pins = s.pins ∧ (foldCounters s).sec = s.sec ∧ (foldCounters s).mgmt = s.mgmt ∧
    (foldCounters s).trace = s.trace ∧ (foldCounters s).snap = s.snap ∧ (foldCounters s).lostBoxes = s.lostBoxes ∧ (foldCounters s).fresh = s.fresh ∧
    (foldCounters s).pending = s.pending := by
  have h : Moves 0x10000e s (foldCounters s) := moves_foldCounters rfl (Moves.refl s)
  have f := h.frame
  exact ⟨f.b0 rfl, f.b4 rfl, f.b5 rfl, f.b6 rfl, f.b7 rfl, f.b8 rfl, f.b9 rfl, f.b10 rfl, f.b11 rfl, f.b12 rfl, f.b13 rfl, f.b14 rfl, f.b15 rfl,
    f.b16 rfl, f.b17 rfl, f.b18 rfl, f.b19 rfl, f.b21 rfl, f.b22 rfl, f.b23 rfl, h.keeps.queue⟩

@[simp] theorem tally_frame (s : State) (t : Tally) :
    (tally s t).now = s.now ∧ (tally s t).hal = s.hal ∧ (tally s t).fabric = s.fabric ∧ (tally s t).tiles = s.tiles ∧ (tally s t).vtiles = s.vtiles ∧
    (tally s t).wtiles = s.wtiles ∧ (tally s t).glue = s.glue ∧ (tally s t).steer = s.steer ∧ (tally s t).feed = s.feed ∧
    (tally s t).streams = s.streams ∧ (tally s t).lanes = s.lanes ∧ (tally s t).span = s.span ∧ (tally s t).power = s.power ∧
    (tally s t).pins = s.pins ∧ (tally s t).sec = s.sec ∧ (tally s t).mgmt = s.mgmt ∧ (tally s t).trace = s.trace ∧ (tally s t).snap = s.snap ∧
    (tally s t).lostBoxes = s.lostBoxes ∧ (tally s t).fresh = s.fresh ∧ (tally s t).pending = s.pending := by
  have h : Moves 0x10000e s (tally s t) := moves_tally rfl (Moves.refl s)
  have f := h.frame
  exact ⟨f.b0 rfl, f.b4 rfl, f.b5 rfl, f.b6 rfl, f.b7 rfl, f.b8 rfl, f.b9 rfl, f.b10 rfl, f.b11 rfl, f.b12 rfl, f.b13 rfl, f.b14 rfl, f.b15 rfl,
    f.b16 rfl, f.b17 rfl, f.b18 rfl, f.b19 rfl, f.b21 rfl, f.b22 rfl, f.b23 rfl, h.keeps.queue⟩

@[simp] theorem count_frame (s : State) (k : ℕ × ℕ) (n : ℕ) :
    (count s k n).now = s.now ∧ (count s k n).hal = s.hal ∧ (count s k n).fabric = s.fabric ∧ (count s k n).tiles = s.tiles ∧
    (count s k n).vtiles = s.vtiles ∧ (count s k n).wtiles = s.wtiles ∧ (count s k n).glue = s.glue ∧ (count s k n).steer = s.steer ∧
    (count s k n).feed = s.feed ∧ (count s k n).streams = s.streams ∧ (count s k n).lanes = s.lanes ∧ (count s k n).span = s.span ∧
    (count s k n).power = s.power ∧ (count s k n).pins = s.pins ∧ (count s k n).sec = s.sec ∧ (count s k n).mgmt = s.mgmt ∧
    (count s k n).trace = s.trace ∧ (count s k n).snap = s.snap ∧ (count s k n).lostBoxes = s.lostBoxes ∧ (count s k n).fresh = s.fresh ∧
    (count s k n).pending = s.pending := by
  have h : Moves 0x10000e s (count s k n) := moves_count rfl (Moves.refl s)
  have f := h.frame
  exact ⟨f.b0 rfl, f.b4 rfl, f.b5 rfl, f.b6 rfl, f.b7 rfl, f.b8 rfl, f.b9 rfl, f.b10 rfl, f.b11 rfl, f.b12 rfl, f.b13 rfl, f.b14 rfl, f.b15 rfl,
    f.b16 rfl, f.b17 rfl, f.b18 rfl, f.b19 rfl, f.b21 rfl, f.b22 rfl, f.b23 rfl, h.keeps.queue⟩

@[simp] theorem countEvent_frame (s : State) (ev : ℕ) (site : Site) (stream : Option ℕ) (addr : ℕ) (cls : ℕ) (priv : Bool) :
    (countEvent s ev site stream addr cls priv).now = s.now ∧ (countEvent s ev site stream addr cls priv).hal = s.hal ∧
    (countEvent s ev site stream addr cls priv).fabric = s.fabric ∧ (countEvent s ev site stream addr cls priv).tiles = s.tiles ∧
    (countEvent s ev site stream addr cls priv).vtiles = s.vtiles ∧ (countEvent s ev site stream addr cls priv).wtiles = s.wtiles ∧
    (countEvent s ev site stream addr cls priv).glue = s.glue ∧ (countEvent s ev site stream addr cls priv).steer = s.steer ∧
    (countEvent s ev site stream addr cls priv).feed = s.feed ∧ (countEvent s ev site stream addr cls priv).streams = s.streams ∧
    (countEvent s ev site stream addr cls priv).lanes = s.lanes ∧ (countEvent s ev site stream addr cls priv).span = s.span ∧
    (countEvent s ev site stream addr cls priv).power = s.power ∧ (countEvent s ev site stream addr cls priv).pins = s.pins ∧
    (countEvent s ev site stream addr cls priv).sec = s.sec ∧ (countEvent s ev site stream addr cls priv).mgmt = s.mgmt ∧
    (countEvent s ev site stream addr cls priv).trace = s.trace ∧ (countEvent s ev site stream addr cls priv).snap = s.snap ∧
    (countEvent s ev site stream addr cls priv).lostBoxes = s.lostBoxes ∧ (countEvent s ev site stream addr cls priv).fresh = s.fresh ∧
    (countEvent s ev site stream addr cls priv).pending = s.pending := by
  have h : Moves 0x10000e s (countEvent s ev site stream addr cls priv) := moves_countEvent rfl (Moves.refl s)
  have f := h.frame
  exact ⟨f.b0 rfl, f.b4 rfl, f.b5 rfl, f.b6 rfl, f.b7 rfl, f.b8 rfl, f.b9 rfl, f.b10 rfl, f.b11 rfl, f.b12 rfl, f.b13 rfl, f.b14 rfl, f.b15 rfl,
    f.b16 rfl, f.b17 rfl, f.b18 rfl, f.b19 rfl, f.b21 rfl, f.b22 rfl, f.b23 rfl, h.keeps.queue⟩

@[simp] theorem traceEnter_frame (s : State) (r : TraceRec) :
    (traceEnter s r).now = s.now ∧ (traceEnter s r).hal = s.hal ∧ (traceEnter s r).fabric = s.fabric ∧ (traceEnter s r).tiles = s.tiles ∧
    (traceEnter s r).vtiles = s.vtiles ∧ (traceEnter s r).wtiles = s.wtiles ∧ (traceEnter s r).glue = s.glue ∧ (traceEnter s r).steer = s.steer ∧
    (traceEnter s r).feed = s.feed ∧ (traceEnter s r).streams = s.streams ∧ (traceEnter s r).lanes = s.lanes ∧ (traceEnter s r).span = s.span ∧
    (traceEnter s r).power = s.power ∧ (traceEnter s r).pins = s.pins ∧ (traceEnter s r).sec = s.sec ∧ (traceEnter s r).mgmt = s.mgmt ∧
    (traceEnter s r).snap = s.snap ∧ (traceEnter s r).lostBoxes = s.lostBoxes ∧ (traceEnter s r).fresh = s.fresh ∧
    (traceEnter s r).pending = s.pending := by
  have h : Moves 0x18000e s (traceEnter s r) := moves_traceEnter rfl (Moves.refl s)
  have f := h.frame
  exact ⟨f.b0 rfl, f.b4 rfl, f.b5 rfl, f.b6 rfl, f.b7 rfl, f.b8 rfl, f.b9 rfl, f.b10 rfl, f.b11 rfl, f.b12 rfl, f.b13 rfl, f.b14 rfl, f.b15 rfl,
    f.b16 rfl, f.b17 rfl, f.b18 rfl, f.b21 rfl, f.b22 rfl, f.b23 rfl, h.keeps.queue⟩

@[simp] theorem traceTrigger_frame (s : State) (src : ℕ) (byType : ℕ) (buf : ℕ) :
    (traceTrigger s src byType buf).now = s.now ∧ (traceTrigger s src byType buf).hal = s.hal ∧ (traceTrigger s src byType buf).fabric = s.fabric ∧
    (traceTrigger s src byType buf).tiles = s.tiles ∧ (traceTrigger s src byType buf).vtiles = s.vtiles ∧
    (traceTrigger s src byType buf).wtiles = s.wtiles ∧ (traceTrigger s src byType buf).glue = s.glue ∧
    (traceTrigger s src byType buf).steer = s.steer ∧ (traceTrigger s src byType buf).feed = s.feed ∧
    (traceTrigger s src byType buf).streams = s.streams ∧ (traceTrigger s src byType buf).lanes = s.lanes ∧
    (traceTrigger s src byType buf).span = s.span ∧ (traceTrigger s src byType buf).power = s.power ∧ (traceTrigger s src byType buf).pins = s.pins ∧
    (traceTrigger s src byType buf).sec = s.sec ∧ (traceTrigger s src byType buf).mgmt = s.mgmt ∧ (traceTrigger s src byType buf).snap = s.snap ∧
    (traceTrigger s src byType buf).lostBoxes = s.lostBoxes ∧ (traceTrigger s src byType buf).fresh = s.fresh ∧
    (traceTrigger s src byType buf).pending = s.pending := by
  have h : Moves 0x18000e s (traceTrigger s src byType buf) := moves_traceTrigger rfl (Moves.refl s)
  have f := h.frame
  exact ⟨f.b0 rfl, f.b4 rfl, f.b5 rfl, f.b6 rfl, f.b7 rfl, f.b8 rfl, f.b9 rfl, f.b10 rfl, f.b11 rfl, f.b12 rfl, f.b13 rfl, f.b14 rfl, f.b15 rfl,
    f.b16 rfl, f.b17 rfl, f.b18 rfl, f.b21 rfl, f.b22 rfl, f.b23 rfl, h.keeps.queue⟩

@[simp] theorem traceAt_frame (s : State) (type : ℕ) (site : Site) (stream : Option ℕ) (frame : Dword) (d0 : Dword) (d1 : Dword) (d2 : Dword) (time : Fc) :
    (traceAt s type site stream frame d0 d1 d2 time).now = s.now ∧ (traceAt s type site stream frame d0 d1 d2 time).hal = s.hal ∧
    (traceAt s type site stream frame d0 d1 d2 time).fabric = s.fabric ∧ (traceAt s type site stream frame d0 d1 d2 time).tiles = s.tiles ∧
    (traceAt s type site stream frame d0 d1 d2 time).vtiles = s.vtiles ∧ (traceAt s type site stream frame d0 d1 d2 time).wtiles = s.wtiles ∧
    (traceAt s type site stream frame d0 d1 d2 time).glue = s.glue ∧ (traceAt s type site stream frame d0 d1 d2 time).steer = s.steer ∧
    (traceAt s type site stream frame d0 d1 d2 time).feed = s.feed ∧ (traceAt s type site stream frame d0 d1 d2 time).streams = s.streams ∧
    (traceAt s type site stream frame d0 d1 d2 time).lanes = s.lanes ∧ (traceAt s type site stream frame d0 d1 d2 time).span = s.span ∧
    (traceAt s type site stream frame d0 d1 d2 time).power = s.power ∧ (traceAt s type site stream frame d0 d1 d2 time).pins = s.pins ∧
    (traceAt s type site stream frame d0 d1 d2 time).sec = s.sec ∧ (traceAt s type site stream frame d0 d1 d2 time).mgmt = s.mgmt ∧
    (traceAt s type site stream frame d0 d1 d2 time).snap = s.snap ∧ (traceAt s type site stream frame d0 d1 d2 time).lostBoxes = s.lostBoxes ∧
    (traceAt s type site stream frame d0 d1 d2 time).fresh = s.fresh ∧ (traceAt s type site stream frame d0 d1 d2 time).pending = s.pending := by
  have h : Moves 0x18000e s (traceAt s type site stream frame d0 d1 d2 time) := moves_traceAt rfl (Moves.refl s)
  have f := h.frame
  exact ⟨f.b0 rfl, f.b4 rfl, f.b5 rfl, f.b6 rfl, f.b7 rfl, f.b8 rfl, f.b9 rfl, f.b10 rfl, f.b11 rfl, f.b12 rfl, f.b13 rfl, f.b14 rfl, f.b15 rfl,
    f.b16 rfl, f.b17 rfl, f.b18 rfl, f.b21 rfl, f.b22 rfl, f.b23 rfl, h.keeps.queue⟩

@[simp] theorem traceNow_frame (s : State) (type : ℕ) (site : Site) (stream : Option ℕ) (frame : Dword) (d0 : ℕ) (d1 : ℕ) (d2 : ℕ) :
    (traceNow s type site stream frame d0 d1 d2).now = s.now ∧ (traceNow s type site stream frame d0 d1 d2).hal = s.hal ∧
    (traceNow s type site stream frame d0 d1 d2).fabric = s.fabric ∧ (traceNow s type site stream frame d0 d1 d2).tiles = s.tiles ∧
    (traceNow s type site stream frame d0 d1 d2).vtiles = s.vtiles ∧ (traceNow s type site stream frame d0 d1 d2).wtiles = s.wtiles ∧
    (traceNow s type site stream frame d0 d1 d2).glue = s.glue ∧ (traceNow s type site stream frame d0 d1 d2).steer = s.steer ∧
    (traceNow s type site stream frame d0 d1 d2).feed = s.feed ∧ (traceNow s type site stream frame d0 d1 d2).streams = s.streams ∧
    (traceNow s type site stream frame d0 d1 d2).lanes = s.lanes ∧ (traceNow s type site stream frame d0 d1 d2).span = s.span ∧
    (traceNow s type site stream frame d0 d1 d2).power = s.power ∧ (traceNow s type site stream frame d0 d1 d2).pins = s.pins ∧
    (traceNow s type site stream frame d0 d1 d2).sec = s.sec ∧ (traceNow s type site stream frame d0 d1 d2).mgmt = s.mgmt ∧
    (traceNow s type site stream frame d0 d1 d2).snap = s.snap ∧ (traceNow s type site stream frame d0 d1 d2).lostBoxes = s.lostBoxes ∧
    (traceNow s type site stream frame d0 d1 d2).fresh = s.fresh ∧ (traceNow s type site stream frame d0 d1 d2).pending = s.pending := by
  have h : Moves 0x18000e s (traceNow s type site stream frame d0 d1 d2) := moves_traceNow rfl (Moves.refl s)
  have f := h.frame
  exact ⟨f.b0 rfl, f.b4 rfl, f.b5 rfl, f.b6 rfl, f.b7 rfl, f.b8 rfl, f.b9 rfl, f.b10 rfl, f.b11 rfl, f.b12 rfl, f.b13 rfl, f.b14 rfl, f.b15 rfl,
    f.b16 rfl, f.b17 rfl, f.b18 rfl, f.b21 rfl, f.b22 rfl, f.b23 rfl, h.keeps.queue⟩

@[simp] theorem faultAt_frame (s : State) (code : ℕ) (cls : ℕ) (site : Site) (stream : Option ℕ) (frame : Dword) (d0 : Dword) (d1 : Dword) (time : Fc) :
    (faultAt s code cls site stream frame d0 d1 time).now = s.now ∧ (faultAt s code cls site stream frame d0 d1 time).fabric = s.fabric ∧
    (faultAt s code cls site stream frame d0 d1 time).tiles = s.tiles ∧ (faultAt s code cls site stream frame d0 d1 time).vtiles = s.vtiles ∧
    (faultAt s code cls site stream frame d0 d1 time).wtiles = s.wtiles ∧ (faultAt s code cls site stream frame d0 d1 time).glue = s.glue ∧
    (faultAt s code cls site stream frame d0 d1 time).steer = s.steer ∧ (faultAt s code cls site stream frame d0 d1 time).feed = s.feed ∧
    (faultAt s code cls site stream frame d0 d1 time).lanes = s.lanes ∧ (faultAt s code cls site stream frame d0 d1 time).power = s.power ∧
    (faultAt s code cls site stream frame d0 d1 time).sec = s.sec ∧ (faultAt s code cls site stream frame d0 d1 time).mgmt = s.mgmt ∧
    (faultAt s code cls site stream frame d0 d1 time).snap = s.snap ∧ (faultAt s code cls site stream frame d0 d1 time).lostBoxes = s.lostBoxes ∧
    (faultAt s code cls site stream frame d0 d1 time).fresh = s.fresh ∧ (faultAt s code cls site stream frame d0 d1 time).pending = s.pending := by
  have h : Moves 0x19501e s (faultAt s code cls site stream frame d0 d1 time) := moves_faultAt rfl (Moves.refl s)
  have f := h.frame
  exact ⟨f.b0 rfl, f.b5 rfl, f.b6 rfl, f.b7 rfl, f.b8 rfl, f.b9 rfl, f.b10 rfl, f.b11 rfl, f.b13 rfl, f.b15 rfl, f.b17 rfl, f.b18 rfl, f.b21 rfl,
    f.b22 rfl, f.b23 rfl, h.keeps.queue⟩

@[simp] theorem fault_frame (s : State) (code : ℕ) (cls : ℕ) (site : Site) (d0 : Dword) (d1 : Dword) :
    (fault s code cls site d0 d1).now = s.now ∧ (fault s code cls site d0 d1).fabric = s.fabric ∧ (fault s code cls site d0 d1).tiles = s.tiles ∧
    (fault s code cls site d0 d1).vtiles = s.vtiles ∧ (fault s code cls site d0 d1).wtiles = s.wtiles ∧ (fault s code cls site d0 d1).glue = s.glue ∧
    (fault s code cls site d0 d1).steer = s.steer ∧ (fault s code cls site d0 d1).feed = s.feed ∧ (fault s code cls site d0 d1).lanes = s.lanes ∧
    (fault s code cls site d0 d1).power = s.power ∧ (fault s code cls site d0 d1).sec = s.sec ∧ (fault s code cls site d0 d1).mgmt = s.mgmt ∧
    (fault s code cls site d0 d1).snap = s.snap ∧ (fault s code cls site d0 d1).lostBoxes = s.lostBoxes ∧
    (fault s code cls site d0 d1).fresh = s.fresh ∧ (fault s code cls site d0 d1).pending = s.pending := by
  have h : Moves 0x19501e s (fault s code cls site d0 d1) := moves_fault rfl (Moves.refl s)
  have f := h.frame
  exact ⟨f.b0 rfl, f.b5 rfl, f.b6 rfl, f.b7 rfl, f.b8 rfl, f.b9 rfl, f.b10 rfl, f.b11 rfl, f.b13 rfl, f.b15 rfl, f.b17 rfl, f.b18 rfl, f.b21 rfl,
    f.b22 rfl, f.b23 rfl, h.keeps.queue⟩

@[simp] theorem faultFrame_frame (s : State) (code : ℕ) (cls : ℕ) (site : Site) (stream : ℕ) (frame : ℕ) (d0 : Dword) (d1 : Dword) :
    (faultFrame s code cls site stream frame d0 d1).now = s.now ∧ (faultFrame s code cls site stream frame d0 d1).fabric = s.fabric ∧
    (faultFrame s code cls site stream frame d0 d1).tiles = s.tiles ∧ (faultFrame s code cls site stream frame d0 d1).vtiles = s.vtiles ∧
    (faultFrame s code cls site stream frame d0 d1).wtiles = s.wtiles ∧ (faultFrame s code cls site stream frame d0 d1).glue = s.glue ∧
    (faultFrame s code cls site stream frame d0 d1).steer = s.steer ∧ (faultFrame s code cls site stream frame d0 d1).feed = s.feed ∧
    (faultFrame s code cls site stream frame d0 d1).lanes = s.lanes ∧ (faultFrame s code cls site stream frame d0 d1).power = s.power ∧
    (faultFrame s code cls site stream frame d0 d1).sec = s.sec ∧ (faultFrame s code cls site stream frame d0 d1).mgmt = s.mgmt ∧
    (faultFrame s code cls site stream frame d0 d1).snap = s.snap ∧ (faultFrame s code cls site stream frame d0 d1).lostBoxes = s.lostBoxes ∧
    (faultFrame s code cls site stream frame d0 d1).fresh = s.fresh ∧ (faultFrame s code cls site stream frame d0 d1).pending = s.pending := by
  have h : Moves 0x19501e s (faultFrame s code cls site stream frame d0 d1) := moves_faultFrame rfl (Moves.refl s)
  have f := h.frame
  exact ⟨f.b0 rfl, f.b5 rfl, f.b6 rfl, f.b7 rfl, f.b8 rfl, f.b9 rfl, f.b10 rfl, f.b11 rfl, f.b13 rfl, f.b15 rfl, f.b17 rfl, f.b18 rfl, f.b21 rfl,
    f.b22 rfl, f.b23 rfl, h.keeps.queue⟩

@[simp] theorem writeCompletion_frame (s : State) (c : HeldCompletion) :
    (writeCompletion s c).now = s.now ∧ (writeCompletion s c).hal = s.hal ∧ (writeCompletion s c).fabric = s.fabric ∧
    (writeCompletion s c).tiles = s.tiles ∧ (writeCompletion s c).vtiles = s.vtiles ∧ (writeCompletion s c).wtiles = s.wtiles ∧
    (writeCompletion s c).glue = s.glue ∧ (writeCompletion s c).steer = s.steer ∧ (writeCompletion s c).feed = s.feed ∧
    (writeCompletion s c).streams = s.streams ∧ (writeCompletion s c).lanes = s.lanes ∧ (writeCompletion s c).span = s.span ∧
    (writeCompletion s c).power = s.power ∧ (writeCompletion s c).pins = s.pins ∧ (writeCompletion s c).sec = s.sec ∧
    (writeCompletion s c).mgmt = s.mgmt ∧ (writeCompletion s c).snap = s.snap ∧ (writeCompletion s c).lostBoxes = s.lostBoxes ∧
    (writeCompletion s c).fresh = s.fresh ∧ (writeCompletion s c).pending = s.pending := by
  have h : Moves 0x18000e s (writeCompletion s c) := moves_writeCompletion rfl (Moves.refl s)
  have f := h.frame
  exact ⟨f.b0 rfl, f.b4 rfl, f.b5 rfl, f.b6 rfl, f.b7 rfl, f.b8 rfl, f.b9 rfl, f.b10 rfl, f.b11 rfl, f.b12 rfl, f.b13 rfl, f.b14 rfl, f.b15 rfl,
    f.b16 rfl, f.b17 rfl, f.b18 rfl, f.b21 rfl, f.b22 rfl, f.b23 rfl, h.keeps.queue⟩

@[simp] theorem complete_frame (s : State) (c : HeldCompletion) :
    (complete s c).now = s.now ∧ (complete s c).hal = s.hal ∧ (complete s c).fabric = s.fabric ∧ (complete s c).tiles = s.tiles ∧
    (complete s c).vtiles = s.vtiles ∧ (complete s c).wtiles = s.wtiles ∧ (complete s c).glue = s.glue ∧ (complete s c).steer = s.steer ∧
    (complete s c).feed = s.feed ∧ (complete s c).streams = s.streams ∧ (complete s c).lanes = s.lanes ∧ (complete s c).span = s.span ∧
    (complete s c).power = s.power ∧ (complete s c).pins = s.pins ∧ (complete s c).sec = s.sec ∧ (complete s c).mgmt = s.mgmt ∧
    (complete s c).snap = s.snap ∧ (complete s c).lostBoxes = s.lostBoxes ∧ (complete s c).fresh = s.fresh ∧ (complete s c).pending = s.pending := by
  have h : Moves 0x18000e s (complete s c) := moves_complete rfl (Moves.refl s)
  have f := h.frame
  exact ⟨f.b0 rfl, f.b4 rfl, f.b5 rfl, f.b6 rfl, f.b7 rfl, f.b8 rfl, f.b9 rfl, f.b10 rfl, f.b11 rfl, f.b12 rfl, f.b13 rfl, f.b14 rfl, f.b15 rfl,
    f.b16 rfl, f.b17 rfl, f.b18 rfl, f.b21 rfl, f.b22 rfl, f.b23 rfl, h.keeps.queue⟩

@[simp] theorem releaseHeld_frame (s : State) :
    (releaseHeld s).now = s.now ∧ (releaseHeld s).hal = s.hal ∧ (releaseHeld s).fabric = s.fabric ∧ (releaseHeld s).tiles = s.tiles ∧
    (releaseHeld s).vtiles = s.vtiles ∧ (releaseHeld s).wtiles = s.wtiles ∧ (releaseHeld s).glue = s.glue ∧ (releaseHeld s).steer = s.steer ∧
    (releaseHeld s).feed = s.feed ∧ (releaseHeld s).streams = s.streams ∧ (releaseHeld s).lanes = s.lanes ∧ (releaseHeld s).span = s.span ∧
    (releaseHeld s).power = s.power ∧ (releaseHeld s).pins = s.pins ∧ (releaseHeld s).sec = s.sec ∧ (releaseHeld s).mgmt = s.mgmt ∧
    (releaseHeld s).snap = s.snap ∧ (releaseHeld s).lostBoxes = s.lostBoxes ∧ (releaseHeld s).fresh = s.fresh ∧
    (releaseHeld s).pending = s.pending := by
  have h : Moves 0x18000e s (releaseHeld s) := moves_releaseHeld rfl (Moves.refl s)
  have f := h.frame
  exact ⟨f.b0 rfl, f.b4 rfl, f.b5 rfl, f.b6 rfl, f.b7 rfl, f.b8 rfl, f.b9 rfl, f.b10 rfl, f.b11 rfl, f.b12 rfl, f.b13 rfl, f.b14 rfl, f.b15 rfl,
    f.b16 rfl, f.b17 rfl, f.b18 rfl, f.b21 rfl, f.b22 rfl, f.b23 rfl, h.keeps.queue⟩

@[simp] theorem finishPend_frame (s : State) (c : PendCmd) (status : ℕ) (detail : Dword) (time : Fc) (writes : List (ℕ × List Byte)) :
    (finishPend s c status detail time writes).now = s.now ∧ (finishPend s c status detail time writes).hal = s.hal ∧
    (finishPend s c status detail time writes).fabric = s.fabric ∧ (finishPend s c status detail time writes).tiles = s.tiles ∧
    (finishPend s c status detail time writes).vtiles = s.vtiles ∧ (finishPend s c status detail time writes).wtiles = s.wtiles ∧
    (finishPend s c status detail time writes).glue = s.glue ∧ (finishPend s c status detail time writes).steer = s.steer ∧
    (finishPend s c status detail time writes).feed = s.feed ∧ (finishPend s c status detail time writes).streams = s.streams ∧
    (finishPend s c status detail time writes).lanes = s.lanes ∧ (finishPend s c status detail time writes).span = s.span ∧
    (finishPend s c status detail time writes).power = s.power ∧ (finishPend s c status detail time writes).pins = s.pins ∧
    (finishPend s c status detail time writes).sec = s.sec ∧ (finishPend s c status detail time writes).mgmt = s.mgmt ∧
    (finishPend s c status detail time writes).snap = s.snap ∧ (finishPend s c status detail time writes).lostBoxes = s.lostBoxes ∧
    (finishPend s c status detail time writes).fresh = s.fresh ∧ (finishPend s c status detail time writes).pending = s.pending := by
  have h : Moves 0x18000e s (finishPend s c status detail time writes) := moves_finishPend rfl (Moves.refl s)
  have f := h.frame
  exact ⟨f.b0 rfl, f.b4 rfl, f.b5 rfl, f.b6 rfl, f.b7 rfl, f.b8 rfl, f.b9 rfl, f.b10 rfl, f.b11 rfl, f.b12 rfl, f.b13 rfl, f.b14 rfl, f.b15 rfl,
    f.b16 rfl, f.b17 rfl, f.b18 rfl, f.b21 rfl, f.b22 rfl, f.b23 rfl, h.keeps.queue⟩

@[simp] theorem finishFirst_frame (s : State) (p : PendKind → Bool) (status : ℕ) (detail : Dword) (time : Fc) (writes : (List (ℕ × List Byte))) :
    (finishFirst s p status detail time writes).now = s.now ∧ (finishFirst s p status detail time writes).hal = s.hal ∧
    (finishFirst s p status detail time writes).fabric = s.fabric ∧ (finishFirst s p status detail time writes).tiles = s.tiles ∧
    (finishFirst s p status detail time writes).vtiles = s.vtiles ∧ (finishFirst s p status detail time writes).wtiles = s.wtiles ∧
    (finishFirst s p status detail time writes).glue = s.glue ∧ (finishFirst s p status detail time writes).steer = s.steer ∧
    (finishFirst s p status detail time writes).feed = s.feed ∧ (finishFirst s p status detail time writes).streams = s.streams ∧
    (finishFirst s p status detail time writes).lanes = s.lanes ∧ (finishFirst s p status detail time writes).span = s.span ∧
    (finishFirst s p status detail time writes).power = s.power ∧ (finishFirst s p status detail time writes).pins = s.pins ∧
    (finishFirst s p status detail time writes).sec = s.sec ∧ (finishFirst s p status detail time writes).mgmt = s.mgmt ∧
    (finishFirst s p status detail time writes).snap = s.snap ∧ (finishFirst s p status detail time writes).lostBoxes = s.lostBoxes ∧
    (finishFirst s p status detail time writes).fresh = s.fresh ∧ (finishFirst s p status detail time writes).pending = s.pending := by
  have h : Moves 0x18000e s (finishFirst s p status detail time writes) := moves_finishFirst rfl (Moves.refl s)
  have f := h.frame
  exact ⟨f.b0 rfl, f.b4 rfl, f.b5 rfl, f.b6 rfl, f.b7 rfl, f.b8 rfl, f.b9 rfl, f.b10 rfl, f.b11 rfl, f.b12 rfl, f.b13 rfl, f.b14 rfl, f.b15 rfl,
    f.b16 rfl, f.b17 rfl, f.b18 rfl, f.b21 rfl, f.b22 rfl, f.b23 rfl, h.keeps.queue⟩

@[simp] theorem finishEvery_frame (s : State) (p : PendKind → Bool) (status : ℕ) (detail : Dword) (time : Fc) :
    (finishEvery s p status detail time).now = s.now ∧ (finishEvery s p status detail time).hal = s.hal ∧
    (finishEvery s p status detail time).fabric = s.fabric ∧ (finishEvery s p status detail time).tiles = s.tiles ∧
    (finishEvery s p status detail time).vtiles = s.vtiles ∧ (finishEvery s p status detail time).wtiles = s.wtiles ∧
    (finishEvery s p status detail time).glue = s.glue ∧ (finishEvery s p status detail time).steer = s.steer ∧
    (finishEvery s p status detail time).feed = s.feed ∧ (finishEvery s p status detail time).streams = s.streams ∧
    (finishEvery s p status detail time).lanes = s.lanes ∧ (finishEvery s p status detail time).span = s.span ∧
    (finishEvery s p status detail time).power = s.power ∧ (finishEvery s p status detail time).pins = s.pins ∧
    (finishEvery s p status detail time).sec = s.sec ∧ (finishEvery s p status detail time).mgmt = s.mgmt ∧
    (finishEvery s p status detail time).snap = s.snap ∧ (finishEvery s p status detail time).lostBoxes = s.lostBoxes ∧
    (finishEvery s p status detail time).fresh = s.fresh ∧ (finishEvery s p status detail time).pending = s.pending := by
  have h : Moves 0x18000e s (finishEvery s p status detail time) := moves_finishEvery rfl (Moves.refl s)
  have f := h.frame
  exact ⟨f.b0 rfl, f.b4 rfl, f.b5 rfl, f.b6 rfl, f.b7 rfl, f.b8 rfl, f.b9 rfl, f.b10 rfl, f.b11 rfl, f.b12 rfl, f.b13 rfl, f.b14 rfl, f.b15 rfl,
    f.b16 rfl, f.b17 rfl, f.b18 rfl, f.b21 rfl, f.b22 rfl, f.b23 rfl, h.keeps.queue⟩

@[simp] theorem finishTaken_frame (s : State) (c : HostCmd) (status : ℕ) (detail : ℕ) (writes : List (ℕ × List Byte)) :
    (finishTaken s c status detail writes).now = s.now ∧ (finishTaken s c status detail writes).hal = s.hal ∧
    (finishTaken s c status detail writes).fabric = s.fabric ∧ (finishTaken s c status detail writes).tiles = s.tiles ∧
    (finishTaken s c status detail writes).vtiles = s.vtiles ∧ (finishTaken s c status detail writes).wtiles = s.wtiles ∧
    (finishTaken s c status detail writes).glue = s.glue ∧ (finishTaken s c status detail writes).steer = s.steer ∧
    (finishTaken s c status detail writes).feed = s.feed ∧ (finishTaken s c status detail writes).streams = s.streams ∧
    (finishTaken s c status detail writes).lanes = s.lanes ∧ (finishTaken s c status detail writes).span = s.span ∧
    (finishTaken s c status detail writes).power = s.power ∧ (finishTaken s c status detail writes).pins = s.pins ∧
    (finishTaken s c status detail writes).sec = s.sec ∧ (finishTaken s c status detail writes).mgmt = s.mgmt ∧
    (finishTaken s c status detail writes).snap = s.snap ∧ (finishTaken s c status detail writes).lostBoxes = s.lostBoxes ∧
    (finishTaken s c status detail writes).fresh = s.fresh ∧ (finishTaken s c status detail writes).pending = s.pending := by
  have h : Moves 0x18000e s (finishTaken s c status detail writes) := moves_finishTaken rfl (Moves.refl s)
  have f := h.frame
  exact ⟨f.b0 rfl, f.b4 rfl, f.b5 rfl, f.b6 rfl, f.b7 rfl, f.b8 rfl, f.b9 rfl, f.b10 rfl, f.b11 rfl, f.b12 rfl, f.b13 rfl, f.b14 rfl, f.b15 rfl,
    f.b16 rfl, f.b17 rfl, f.b18 rfl, f.b21 rfl, f.b22 rfl, f.b23 rfl, h.keeps.queue⟩

@[simp] theorem pendTaken_frame (s : State) (c : HostCmd) (kind : PendKind) :
    (pendTaken s c kind).now = s.now ∧ (pendTaken s c kind).hal = s.hal ∧ (pendTaken s c kind).fabric = s.fabric ∧
    (pendTaken s c kind).tiles = s.tiles ∧ (pendTaken s c kind).vtiles = s.vtiles ∧ (pendTaken s c kind).wtiles = s.wtiles ∧
    (pendTaken s c kind).glue = s.glue ∧ (pendTaken s c kind).steer = s.steer ∧ (pendTaken s c kind).feed = s.feed ∧
    (pendTaken s c kind).streams = s.streams ∧ (pendTaken s c kind).lanes = s.lanes ∧ (pendTaken s c kind).span = s.span ∧
    (pendTaken s c kind).power = s.power ∧ (pendTaken s c kind).pins = s.pins ∧ (pendTaken s c kind).sec = s.sec ∧
    (pendTaken s c kind).mgmt = s.mgmt ∧ (pendTaken s c kind).snap = s.snap ∧ (pendTaken s c kind).lostBoxes = s.lostBoxes ∧
    (pendTaken s c kind).fresh = s.fresh ∧ (pendTaken s c kind).pending = s.pending := by
  have h : Moves 0x18000e s (pendTaken s c kind) := moves_pendTaken rfl (Moves.refl s)
  have f := h.frame
  exact ⟨f.b0 rfl, f.b4 rfl, f.b5 rfl, f.b6 rfl, f.b7 rfl, f.b8 rfl, f.b9 rfl, f.b10 rfl, f.b11 rfl, f.b12 rfl, f.b13 rfl, f.b14 rfl, f.b15 rfl,
    f.b16 rfl, f.b17 rfl, f.b18 rfl, f.b21 rfl, f.b22 rfl, f.b23 rfl, h.keeps.queue⟩

@[simp] theorem beginTrace_frame (s : State) (c : HostCmd) :
    (beginTrace s c).now = s.now ∧ (beginTrace s c).hal = s.hal ∧ (beginTrace s c).fabric = s.fabric ∧ (beginTrace s c).tiles = s.tiles ∧
    (beginTrace s c).vtiles = s.vtiles ∧ (beginTrace s c).wtiles = s.wtiles ∧ (beginTrace s c).glue = s.glue ∧ (beginTrace s c).steer = s.steer ∧
    (beginTrace s c).feed = s.feed ∧ (beginTrace s c).streams = s.streams ∧ (beginTrace s c).lanes = s.lanes ∧ (beginTrace s c).span = s.span ∧
    (beginTrace s c).power = s.power ∧ (beginTrace s c).pins = s.pins ∧ (beginTrace s c).sec = s.sec ∧ (beginTrace s c).mgmt = s.mgmt ∧
    (beginTrace s c).snap = s.snap ∧ (beginTrace s c).lostBoxes = s.lostBoxes ∧ (beginTrace s c).fresh = s.fresh ∧
    (beginTrace s c).pending = s.pending := by
  have h : Moves 0x18000e s (beginTrace s c) := moves_beginTrace rfl (Moves.refl s)
  have f := h.frame
  exact ⟨f.b0 rfl, f.b4 rfl, f.b5 rfl, f.b6 rfl, f.b7 rfl, f.b8 rfl, f.b9 rfl, f.b10 rfl, f.b11 rfl, f.b12 rfl, f.b13 rfl, f.b14 rfl, f.b15 rfl,
    f.b16 rfl, f.b17 rfl, f.b18 rfl, f.b21 rfl, f.b22 rfl, f.b23 rfl, h.keeps.queue⟩

@[simp] theorem taken_frame (s : State) (c : HostCmd) :
    (taken s c).now = s.now ∧ (taken s c).out = s.out ∧ (taken s c).evt = s.evt ∧ (taken s c).hal = s.hal ∧ (taken s c).fabric = s.fabric ∧
    (taken s c).tiles = s.tiles ∧ (taken s c).vtiles = s.vtiles ∧ (taken s c).wtiles = s.wtiles ∧ (taken s c).glue = s.glue ∧
    (taken s c).steer = s.steer ∧ (taken s c).feed = s.feed ∧ (taken s c).streams = s.streams ∧ (taken s c).lanes = s.lanes ∧
    (taken s c).span = s.span ∧ (taken s c).power = s.power ∧ (taken s c).pins = s.pins ∧ (taken s c).sec = s.sec ∧ (taken s c).mgmt = s.mgmt ∧
    (taken s c).trace = s.trace ∧ (taken s c).cnt = s.cnt ∧ (taken s c).snap = s.snap ∧ (taken s c).lostBoxes = s.lostBoxes ∧
    (taken s c).fresh = s.fresh ∧ (taken s c).pending = s.pending := by
  have h : Moves 0x4 s (taken s c) := moves_taken rfl (Moves.refl s)
  have f := h.frame
  exact ⟨f.b0 rfl, f.b1 rfl, f.b3 rfl, f.b4 rfl, f.b5 rfl, f.b6 rfl, f.b7 rfl, f.b8 rfl, f.b9 rfl, f.b10 rfl, f.b11 rfl, f.b12 rfl, f.b13 rfl,
    f.b14 rfl, f.b15 rfl, f.b16 rfl, f.b17 rfl, f.b18 rfl, f.b19 rfl, f.b20 rfl, f.b21 rfl, f.b22 rfl, f.b23 rfl, h.keeps.queue⟩

@[simp] theorem syncHolds_frame (s : State) (st : ℕ) :
    (syncHolds s st).now = s.now ∧ (syncHolds s st).hal = s.hal ∧ (syncHolds s st).fabric = s.fabric ∧ (syncHolds s st).tiles = s.tiles ∧
    (syncHolds s st).vtiles = s.vtiles ∧ (syncHolds s st).wtiles = s.wtiles ∧ (syncHolds s st).glue = s.glue ∧ (syncHolds s st).steer = s.steer ∧
    (syncHolds s st).feed = s.feed ∧ (syncHolds s st).lanes = s.lanes ∧ (syncHolds s st).span = s.span ∧ (syncHolds s st).power = s.power ∧
    (syncHolds s st).pins = s.pins ∧ (syncHolds s st).sec = s.sec ∧ (syncHolds s st).mgmt = s.mgmt ∧ (syncHolds s st).trace = s.trace ∧
    (syncHolds s st).snap = s.snap ∧ (syncHolds s st).lostBoxes = s.lostBoxes ∧ (syncHolds s st).fresh = s.fresh ∧
    (syncHolds s st).pending = s.pending := by
  have h : Moves 0x10100e s (syncHolds s st) := moves_syncHolds rfl (Moves.refl s)
  have f := h.frame
  exact ⟨f.b0 rfl, f.b4 rfl, f.b5 rfl, f.b6 rfl, f.b7 rfl, f.b8 rfl, f.b9 rfl, f.b10 rfl, f.b11 rfl, f.b13 rfl, f.b14 rfl, f.b15 rfl, f.b16 rfl,
    f.b17 rfl, f.b18 rfl, f.b19 rfl, f.b21 rfl, f.b22 rfl, f.b23 rfl, h.keeps.queue⟩

@[simp] theorem syncAllHolds_frame (s : State) :
    (syncAllHolds s).now = s.now ∧ (syncAllHolds s).hal = s.hal ∧ (syncAllHolds s).fabric = s.fabric ∧ (syncAllHolds s).tiles = s.tiles ∧
    (syncAllHolds s).vtiles = s.vtiles ∧ (syncAllHolds s).wtiles = s.wtiles ∧ (syncAllHolds s).glue = s.glue ∧ (syncAllHolds s).steer = s.steer ∧
    (syncAllHolds s).feed = s.feed ∧ (syncAllHolds s).lanes = s.lanes ∧ (syncAllHolds s).span = s.span ∧ (syncAllHolds s).power = s.power ∧
    (syncAllHolds s).pins = s.pins ∧ (syncAllHolds s).sec = s.sec ∧ (syncAllHolds s).mgmt = s.mgmt ∧ (syncAllHolds s).trace = s.trace ∧
    (syncAllHolds s).snap = s.snap ∧ (syncAllHolds s).lostBoxes = s.lostBoxes ∧ (syncAllHolds s).fresh = s.fresh ∧
    (syncAllHolds s).pending = s.pending := by
  have h : Moves 0x10100e s (syncAllHolds s) := moves_syncAllHolds rfl (Moves.refl s)
  have f := h.frame
  exact ⟨f.b0 rfl, f.b4 rfl, f.b5 rfl, f.b6 rfl, f.b7 rfl, f.b8 rfl, f.b9 rfl, f.b10 rfl, f.b11 rfl, f.b13 rfl, f.b14 rfl, f.b15 rfl, f.b16 rfl,
    f.b17 rfl, f.b18 rfl, f.b19 rfl, f.b21 rfl, f.b22 rfl, f.b23 rfl, h.keeps.queue⟩

@[simp] theorem liftHolds_frame (s : State) :
    (liftHolds s).now = s.now ∧ (liftHolds s).hal = s.hal ∧ (liftHolds s).fabric = s.fabric ∧ (liftHolds s).tiles = s.tiles ∧
    (liftHolds s).vtiles = s.vtiles ∧ (liftHolds s).wtiles = s.wtiles ∧ (liftHolds s).glue = s.glue ∧ (liftHolds s).steer = s.steer ∧
    (liftHolds s).feed = s.feed ∧ (liftHolds s).lanes = s.lanes ∧ (liftHolds s).span = s.span ∧ (liftHolds s).power = s.power ∧
    (liftHolds s).pins = s.pins ∧ (liftHolds s).sec = s.sec ∧ (liftHolds s).mgmt = s.mgmt ∧ (liftHolds s).trace = s.trace ∧
    (liftHolds s).snap = s.snap ∧ (liftHolds s).lostBoxes = s.lostBoxes ∧ (liftHolds s).fresh = s.fresh ∧ (liftHolds s).pending = s.pending := by
  have h : Moves 0x10100e s (liftHolds s) := moves_liftHolds rfl (Moves.refl s)
  have f := h.frame
  exact ⟨f.b0 rfl, f.b4 rfl, f.b5 rfl, f.b6 rfl, f.b7 rfl, f.b8 rfl, f.b9 rfl, f.b10 rfl, f.b11 rfl, f.b13 rfl, f.b14 rfl, f.b15 rfl, f.b16 rfl,
    f.b17 rfl, f.b18 rfl, f.b19 rfl, f.b21 rfl, f.b22 rfl, f.b23 rfl, h.keeps.queue⟩

@[simp] theorem roundOver_frame (s : State) (time : Fc) :
    (roundOver s time).now = s.now ∧ (roundOver s time).fabric = s.fabric ∧ (roundOver s time).tiles = s.tiles ∧
    (roundOver s time).vtiles = s.vtiles ∧ (roundOver s time).wtiles = s.wtiles ∧ (roundOver s time).glue = s.glue ∧
    (roundOver s time).steer = s.steer ∧ (roundOver s time).feed = s.feed ∧ (roundOver s time).streams = s.streams ∧
    (roundOver s time).lanes = s.lanes ∧ (roundOver s time).span = s.span ∧ (roundOver s time).power = s.power ∧ (roundOver s time).pins = s.pins ∧
    (roundOver s time).sec = s.sec ∧ (roundOver s time).mgmt = s.mgmt ∧ (roundOver s time).trace = s.trace ∧ (roundOver s time).cnt = s.cnt ∧
    (roundOver s time).snap = s.snap ∧ (roundOver s time).lostBoxes = s.lostBoxes ∧ (roundOver s time).fresh = s.fresh ∧
    (roundOver s time).pending = s.pending := by
  have h : Moves 0x1e s (roundOver s time) := moves_roundOver rfl (Moves.refl s)
  have f := h.frame
  exact ⟨f.b0 rfl, f.b5 rfl, f.b6 rfl, f.b7 rfl, f.b8 rfl, f.b9 rfl, f.b10 rfl, f.b11 rfl, f.b12 rfl, f.b13 rfl, f.b14 rfl, f.b15 rfl, f.b16 rfl,
    f.b17 rfl, f.b18 rfl, f.b19 rfl, f.b20 rfl, f.b21 rfl, f.b22 rfl, f.b23 rfl, h.keeps.queue⟩

@[simp] theorem endProof_frame (s : State) (status : ℕ) (detail : ℕ) :
    (endProof s status detail).now = s.now ∧ (endProof s status detail).fabric = s.fabric ∧ (endProof s status detail).tiles = s.tiles ∧
    (endProof s status detail).vtiles = s.vtiles ∧ (endProof s status detail).wtiles = s.wtiles ∧ (endProof s status detail).glue = s.glue ∧
    (endProof s status detail).steer = s.steer ∧ (endProof s status detail).feed = s.feed ∧ (endProof s status detail).streams = s.streams ∧
    (endProof s status detail).lanes = s.lanes ∧ (endProof s status detail).span = s.span ∧ (endProof s status detail).power = s.power ∧
    (endProof s status detail).pins = s.pins ∧ (endProof s status detail).sec = s.sec ∧ (endProof s status detail).mgmt = s.mgmt ∧
    (endProof s status detail).snap = s.snap ∧ (endProof s status detail).lostBoxes = s.lostBoxes ∧ (endProof s status detail).fresh = s.fresh ∧
    (endProof s status detail).pending = s.pending := by
  have h : Moves 0x18001e s (endProof s status detail) := moves_endProof rfl (Moves.refl s)
  have f := h.frame
  exact ⟨f.b0 rfl, f.b5 rfl, f.b6 rfl, f.b7 rfl, f.b8 rfl, f.b9 rfl, f.b10 rfl, f.b11 rfl, f.b12 rfl, f.b13 rfl, f.b14 rfl, f.b15 rfl, f.b16 rfl,
    f.b17 rfl, f.b18 rfl, f.b21 rfl, f.b22 rfl, f.b23 rfl, h.keeps.queue⟩

@[simp] theorem setCtl_frame (s : State) (u : Site) (c : UnitCtl) :
    (setCtl s u c).now = s.now ∧ (setCtl s u c).out = s.out ∧ (setCtl s u c).hif = s.hif ∧ (setCtl s u c).evt = s.evt ∧ (setCtl s u c).hal = s.hal ∧
    (setCtl s u c).fabric = s.fabric ∧ (setCtl s u c).streams = s.streams ∧ (setCtl s u c).lanes = s.lanes ∧ (setCtl s u c).span = s.span ∧
    (setCtl s u c).power = s.power ∧ (setCtl s u c).pins = s.pins ∧ (setCtl s u c).sec = s.sec ∧ (setCtl s u c).mgmt = s.mgmt ∧
    (setCtl s u c).trace = s.trace ∧ (setCtl s u c).cnt = s.cnt ∧ (setCtl s u c).snap = s.snap ∧ (setCtl s u c).fresh = s.fresh ∧
    (setCtl s u c).pending = s.pending := by
  have h : Moves 0x400fc0 s (setCtl s u c) := moves_setCtl rfl (Moves.refl s)
  have f := h.frame
  exact ⟨f.b0 rfl, f.b1 rfl, f.b2 rfl, f.b3 rfl, f.b4 rfl, f.b5 rfl, f.b12 rfl, f.b13 rfl, f.b14 rfl, f.b15 rfl, f.b16 rfl, f.b17 rfl, f.b18 rfl,
    f.b19 rfl, f.b20 rfl, f.b21 rfl, f.b23 rfl, h.keeps.queue⟩

@[simp] theorem startDrain_frame (s : State) (u : Site) (limit : Fc) :
    (startDrain s u limit).now = s.now ∧ (startDrain s u limit).fabric = s.fabric ∧ (startDrain s u limit).streams = s.streams ∧
    (startDrain s u limit).lanes = s.lanes ∧ (startDrain s u limit).span = s.span ∧ (startDrain s u limit).power = s.power ∧
    (startDrain s u limit).pins = s.pins ∧ (startDrain s u limit).sec = s.sec ∧ (startDrain s u limit).mgmt = s.mgmt ∧
    (startDrain s u limit).snap = s.snap ∧ (startDrain s u limit).fresh = s.fresh ∧ (startDrain s u limit).pending = s.pending := by
  have h : Moves 0x580fde s (startDrain s u limit) := moves_startDrain rfl (Moves.refl s)
  have f := h.frame
  exact ⟨f.b0 rfl, f.b5 rfl, f.b12 rfl, f.b13 rfl, f.b14 rfl, f.b15 rfl, f.b16 rfl, f.b17 rfl, f.b18 rfl, f.b21 rfl, f.b23 rfl, h.keeps.queue⟩

@[simp] theorem moveUnit_frame (s : State) (u : Site) (c : UnitCtl) :
    (moveUnit s u c).now = s.now ∧ (moveUnit s u c).fabric = s.fabric ∧ (moveUnit s u c).streams = s.streams ∧ (moveUnit s u c).lanes = s.lanes ∧
    (moveUnit s u c).span = s.span ∧ (moveUnit s u c).power = s.power ∧ (moveUnit s u c).pins = s.pins ∧ (moveUnit s u c).sec = s.sec ∧
    (moveUnit s u c).mgmt = s.mgmt ∧ (moveUnit s u c).snap = s.snap ∧ (moveUnit s u c).fresh = s.fresh ∧ (moveUnit s u c).pending = s.pending := by
  have h : Moves 0x580fde s (moveUnit s u c) := moves_moveUnit rfl (Moves.refl s)
  have f := h.frame
  exact ⟨f.b0 rfl, f.b5 rfl, f.b12 rfl, f.b13 rfl, f.b14 rfl, f.b15 rfl, f.b16 rfl, f.b17 rfl, f.b18 rfl, f.b21 rfl, f.b23 rfl, h.keeps.queue⟩

@[simp] theorem deadlineMiss_frame (s : State) (st : ℕ) (f : Frame) :
    (deadlineMiss s st f).now = s.now ∧ (deadlineMiss s st f).fabric = s.fabric ∧ (deadlineMiss s st f).tiles = s.tiles ∧
    (deadlineMiss s st f).vtiles = s.vtiles ∧ (deadlineMiss s st f).wtiles = s.wtiles ∧ (deadlineMiss s st f).glue = s.glue ∧
    (deadlineMiss s st f).steer = s.steer ∧ (deadlineMiss s st f).feed = s.feed ∧ (deadlineMiss s st f).lanes = s.lanes ∧
    (deadlineMiss s st f).power = s.power ∧ (deadlineMiss s st f).sec = s.sec ∧ (deadlineMiss s st f).mgmt = s.mgmt ∧
    (deadlineMiss s st f).snap = s.snap ∧ (deadlineMiss s st f).lostBoxes = s.lostBoxes ∧ (deadlineMiss s st f).fresh = s.fresh ∧
    (deadlineMiss s st f).pending = s.pending := by
  have h : Moves 0x19501e s (deadlineMiss s st f) := moves_deadlineMiss rfl (Moves.refl s)
  have f := h.frame
  exact ⟨f.b0 rfl, f.b5 rfl, f.b6 rfl, f.b7 rfl, f.b8 rfl, f.b9 rfl, f.b10 rfl, f.b11 rfl, f.b13 rfl, f.b15 rfl, f.b17 rfl, f.b18 rfl, f.b21 rfl,
    f.b22 rfl, f.b23 rfl, h.keeps.queue⟩

@[simp] theorem deadlinesAtResume_frame (s : State) :
    (deadlinesAtResume s).now = s.now ∧ (deadlinesAtResume s).fabric = s.fabric ∧ (deadlinesAtResume s).tiles = s.tiles ∧
    (deadlinesAtResume s).vtiles = s.vtiles ∧ (deadlinesAtResume s).wtiles = s.wtiles ∧ (deadlinesAtResume s).glue = s.glue ∧
    (deadlinesAtResume s).steer = s.steer ∧ (deadlinesAtResume s).feed = s.feed ∧ (deadlinesAtResume s).lanes = s.lanes ∧
    (deadlinesAtResume s).power = s.power ∧ (deadlinesAtResume s).sec = s.sec ∧ (deadlinesAtResume s).mgmt = s.mgmt ∧
    (deadlinesAtResume s).snap = s.snap ∧ (deadlinesAtResume s).lostBoxes = s.lostBoxes ∧ (deadlinesAtResume s).fresh = s.fresh ∧
    (deadlinesAtResume s).pending = s.pending := by
  have h : Moves 0x19501e s (deadlinesAtResume s) := moves_deadlinesAtResume rfl (Moves.refl s)
  have f := h.frame
  exact ⟨f.b0 rfl, f.b5 rfl, f.b6 rfl, f.b7 rfl, f.b8 rfl, f.b9 rfl, f.b10 rfl, f.b11 rfl, f.b13 rfl, f.b15 rfl, f.b17 rfl, f.b18 rfl, f.b21 rfl,
    f.b22 rfl, f.b23 rfl, h.keeps.queue⟩

@[simp] theorem abortRecord_frame (s : State) (code : ℕ) (site : Site) (st : ℕ) (frame : ℕ) (d0 : Dword) (d1 : Dword) :
    (abortRecord s code site st frame d0 d1).now = s.now ∧ (abortRecord s code site st frame d0 d1).fabric = s.fabric ∧
    (abortRecord s code site st frame d0 d1).tiles = s.tiles ∧ (abortRecord s code site st frame d0 d1).vtiles = s.vtiles ∧
    (abortRecord s code site st frame d0 d1).wtiles = s.wtiles ∧ (abortRecord s code site st frame d0 d1).glue = s.glue ∧
    (abortRecord s code site st frame d0 d1).steer = s.steer ∧ (abortRecord s code site st frame d0 d1).feed = s.feed ∧
    (abortRecord s code site st frame d0 d1).lanes = s.lanes ∧ (abortRecord s code site st frame d0 d1).power = s.power ∧
    (abortRecord s code site st frame d0 d1).sec = s.sec ∧ (abortRecord s code site st frame d0 d1).mgmt = s.mgmt ∧
    (abortRecord s code site st frame d0 d1).snap = s.snap ∧ (abortRecord s code site st frame d0 d1).lostBoxes = s.lostBoxes ∧
    (abortRecord s code site st frame d0 d1).fresh = s.fresh ∧ (abortRecord s code site st frame d0 d1).pending = s.pending := by
  have h : Moves 0x19501e s (abortRecord s code site st frame d0 d1) := moves_abortRecord rfl (Moves.refl s)
  have f := h.frame
  exact ⟨f.b0 rfl, f.b5 rfl, f.b6 rfl, f.b7 rfl, f.b8 rfl, f.b9 rfl, f.b10 rfl, f.b11 rfl, f.b13 rfl, f.b15 rfl, f.b17 rfl, f.b18 rfl, f.b21 rfl,
    f.b22 rfl, f.b23 rfl, h.keeps.queue⟩

@[simp] theorem setHoist_frame (s : State) (h1 : ℕ) (x : Hoist) :
    (setHoist s h1 x).now = s.now ∧ (setHoist s h1 x).out = s.out ∧ (setHoist s h1 x).hif = s.hif ∧ (setHoist s h1 x).evt = s.evt ∧
    (setHoist s h1 x).fabric = s.fabric ∧ (setHoist s h1 x).tiles = s.tiles ∧ (setHoist s h1 x).vtiles = s.vtiles ∧
    (setHoist s h1 x).wtiles = s.wtiles ∧ (setHoist s h1 x).glue = s.glue ∧ (setHoist s h1 x).steer = s.steer ∧ (setHoist s h1 x).feed = s.feed ∧
    (setHoist s h1 x).streams = s.streams ∧ (setHoist s h1 x).lanes = s.lanes ∧ (setHoist s h1 x).span = s.span ∧ (setHoist s h1 x).power = s.power ∧
    (setHoist s h1 x).pins = s.pins ∧ (setHoist s h1 x).sec = s.sec ∧ (setHoist s h1 x).mgmt = s.mgmt ∧ (setHoist s h1 x).trace = s.trace ∧
    (setHoist s h1 x).cnt = s.cnt ∧ (setHoist s h1 x).snap = s.snap ∧ (setHoist s h1 x).lostBoxes = s.lostBoxes ∧ (setHoist s h1 x).fresh = s.fresh ∧
    (setHoist s h1 x).pending = s.pending := by
  have h : Moves 0x10 s (setHoist s h1 x) := moves_setHoist rfl (Moves.refl s)
  have f := h.frame
  exact ⟨f.b0 rfl, f.b1 rfl, f.b2 rfl, f.b3 rfl, f.b5 rfl, f.b6 rfl, f.b7 rfl, f.b8 rfl, f.b9 rfl, f.b10 rfl, f.b11 rfl, f.b12 rfl, f.b13 rfl,
    f.b14 rfl, f.b15 rfl, f.b16 rfl, f.b17 rfl, f.b18 rfl, f.b19 rfl, f.b20 rfl, f.b21 rfl, f.b22 rfl, f.b23 rfl, h.keeps.queue⟩

@[simp] theorem moveHoist_frame (s : State) (h1 : ℕ) (x : HoistState) :
    (moveHoist s h1 x).now = s.now ∧ (moveHoist s h1 x).fabric = s.fabric ∧ (moveHoist s h1 x).tiles = s.tiles ∧
    (moveHoist s h1 x).vtiles = s.vtiles ∧ (moveHoist s h1 x).wtiles = s.wtiles ∧ (moveHoist s h1 x).glue = s.glue ∧
    (moveHoist s h1 x).steer = s.steer ∧ (moveHoist s h1 x).feed = s.feed ∧ (moveHoist s h1 x).streams = s.streams ∧
    (moveHoist s h1 x).lanes = s.lanes ∧ (moveHoist s h1 x).span = s.span ∧ (moveHoist s h1 x).power = s.power ∧ (moveHoist s h1 x).pins = s.pins ∧
    (moveHoist s h1 x).sec = s.sec ∧ (moveHoist s h1 x).mgmt = s.mgmt ∧ (moveHoist s h1 x).trace = s.trace ∧ (moveHoist s h1 x).cnt = s.cnt ∧
    (moveHoist s h1 x).snap = s.snap ∧ (moveHoist s h1 x).lostBoxes = s.lostBoxes ∧ (moveHoist s h1 x).fresh = s.fresh ∧
    (moveHoist s h1 x).pending = s.pending := by
  have h : Moves 0x1e s (moveHoist s h1 x) := moves_moveHoist rfl (Moves.refl s)
  have f := h.frame
  exact ⟨f.b0 rfl, f.b5 rfl, f.b6 rfl, f.b7 rfl, f.b8 rfl, f.b9 rfl, f.b10 rfl, f.b11 rfl, f.b12 rfl, f.b13 rfl, f.b14 rfl, f.b15 rfl, f.b16 rfl,
    f.b17 rfl, f.b18 rfl, f.b19 rfl, f.b20 rfl, f.b21 rfl, f.b22 rfl, f.b23 rfl, h.keeps.queue⟩

@[simp] theorem setDesc_frame (s : State) (st : ℕ) (d : HostDesc) :
    (setDesc s st d).now = s.now ∧ (setDesc s st d).out = s.out ∧ (setDesc s st d).hif = s.hif ∧ (setDesc s st d).evt = s.evt ∧
    (setDesc s st d).hal = s.hal ∧ (setDesc s st d).fabric = s.fabric ∧ (setDesc s st d).tiles = s.tiles ∧ (setDesc s st d).vtiles = s.vtiles ∧
    (setDesc s st d).wtiles = s.wtiles ∧ (setDesc s st d).glue = s.glue ∧ (setDesc s st d).steer = s.steer ∧ (setDesc s st d).feed = s.feed ∧
    (setDesc s st d).lanes = s.lanes ∧ (setDesc s st d).span = s.span ∧ (setDesc s st d).power = s.power ∧ (setDesc s st d).pins = s.pins ∧
    (setDesc s st d).sec = s.sec ∧ (setDesc s st d).mgmt = s.mgmt ∧ (setDesc s st d).trace = s.trace ∧ (setDesc s st d).cnt = s.cnt ∧
    (setDesc s st d).snap = s.snap ∧ (setDesc s st d).lostBoxes = s.lostBoxes ∧ (setDesc s st d).fresh = s.fresh ∧
    (setDesc s st d).pending = s.pending := by
  have h : Moves 0x1000 s (setDesc s st d) := moves_setDesc rfl (Moves.refl s)
  have f := h.frame
  exact ⟨f.b0 rfl, f.b1 rfl, f.b2 rfl, f.b3 rfl, f.b4 rfl, f.b5 rfl, f.b6 rfl, f.b7 rfl, f.b8 rfl, f.b9 rfl, f.b10 rfl, f.b11 rfl, f.b13 rfl,
    f.b14 rfl, f.b15 rfl, f.b16 rfl, f.b17 rfl, f.b18 rfl, f.b19 rfl, f.b20 rfl, f.b21 rfl, f.b22 rfl, f.b23 rfl, h.keeps.queue⟩

end Sys2Proof.Machine
end

