-- ==== Sys2Proof/Tests/Slice0.lean ====
section
/-! SUPPORT. The model's own tests: for every statement with hypotheses a witness that meets them, clause by clause, and small tests against the
worked examples of the spec. -/

set_option Elab.async false

namespace Sys2Proof.Tests

open Sys2Proof Sys2Proof.Machine


/-! ### States and packets that the witnesses use -/

/-- A ring in service, with the smallest sizes of R340 and one packet waiting. -/
def ring0 : Ring := { state := .enabled, enable := true, sqLog2 := 4, cqLog2 := 4, maxPriority := 3, privileged := true, sqTail := 1 }

/-- The part at stage 2 with ring 0 in service. -/
def part : State :=
  { State.reset with
    hif := { State.reset.hif with fwStage := 2, busMaster := true, linkUp := true, pcieHeld := false, rings := State.reset.hif.rings.set 0 ring0 } }

/-- A command of ring 0 with tag 7, four units long. -/
def cmd (op : Nat) (d : List Dword) : HostCmd := ⟨0, BitVec.ofNat 32 (op + 4 * 2 ^ 16) :: 7 :: d⟩

/-- The part with a pending command of this kind. -/
def partPending (k : PendKind) : State :=
  { part with hif := { part.hif with pendings := [{ id := 0, ring := 0, tag := 7, opcode := 0x10, priority := 0, acked := false, kind := k, takenAt := 0 }] } }

/-! ### Witnesses: a state and operands that meet the hypotheses of a statement, clause by clause -/

theorem witness_StepRunsTheFrontCommand : { part with pending := [.hotReset] }.pending = Instr.hotReset :: [] ∧ part.pending = [] := by decide +kernel

theorem witness_StepKeepsTheForm : Shaped State.reset ∧ Memory.wf State.reset.feed.lpddr = true ∧ State.reset.sec.erase = none ∧
    step State.reset = .next (idle State.reset) := ⟨shaped_reset, by decide +kernel, rfl, rfl⟩

theorem witness_HalyardNeverFalls : Instr.hotReset ≠ .vinRise ∧ Instr.hotReset ≠ .powerStageRestart ∧ exec .hotReset part = .next (hifReset part) :=
  ⟨by decide, by decide, rfl⟩

theorem witness_FusesOnlyGrow : exec .powerStateD3hot part = .next { part with hif := { part.hif with d3hot := true } } := rfl

theorem witness_CommandsTouchTheirPieces :
    exec .powerStateD3hot part = .next { part with hif := { part.hif with d3hot := true } } ∧ Piece.fabric ∉ touches .powerStateD3hot := ⟨rfl, by decide⟩

theorem witness_TakenCommandsCompleteOrPend :
    (spells (cmd 0x01 [5]).pkt 0x02 0 = false ∧ takeable State.reset (cmd 0x01 [5]) = false) ∧
    (spells (cmd 0x7E []).pkt 0x01 0 = true ∧ takeable part (cmd 0x7E []) = true ∧ precheck (begun part (cmd 0x7E [])) (cmd 0x7E []) = some (stBadOpcode, 0)) ∧
    (Ready 0x01 0 part (cmd 0x01 [5]) ∧ Room part (cmd 0x01 [5])) ∧
    64 ≤ (begun { part with hif := { part.hif with pendings := (List.replicate 64 (partPending .fwStage).hif.pendings).flatten } } (cmd 0x01 [5])).hif.pendings.length := by
  decide +kernel

theorem witness_CompletionsAreWrittenInTheirSlot :
    (hostUp part = true ∧ part.hif.heldCompletions = []) ∧ hostUp State.reset = false ∧ HeldCompletion.discarded { ring := 0, tag := 7, status := 0, opcode := 1, detail := 0, time := 0, interim := false, priority := 0, release := 1, writes := [] } = false := by decide +kernel

/-- The words of a box with these entries, output by output. -/
def boxWords (l : List (Nat × Nat)) : List Dword :=
  (List.range 11).map (fun i => BitVec.ofNat 32 ((List.range 4).foldl (fun a k =>
    a + ((l.find? (fun q => q.1 == 4 * i + k)).map Prod.snd |>.getD 0x3F) * 2 ^ (8 * k)) 0)) ++ [1]

/-- A used port with a depth. -/
def usedPort (depth : Nat) : Dword := BitVec.ofNat 32 (1 + 2 * depth)

/-- The part with its sectors ACTIVE and a hoist that holds these words active. -/
def partFab (words : AMap Site (List Dword)) : State :=
  { part with
    hal := { part.hal with active := some 0, hoists := [{ state := .active, words := words }, {}, {}, {}] }
    power := { part.power with sectors := List.replicate 8 { part.power.sectors.headD {} with state := .active } } }

def partOwned : State := { part with sec := { part.sec with life := .deployed, identity := some 1, certificate := some [1, 2] } }

theorem witness_PlainCommandsComplete :
    Ready 0x01 0 part (cmd 0x01 [5]) ∧ (Ready 0x02 0 part (cmd 0x02 [0x40]) ∧ pktQ (cmd 0x02 [0x40]).pkt 2 % 64 = 0) ∧
    (Ready 0x61 0 part (cmd 0x61 [0x40]) ∧ pktOnly (cmd 0x61 [0x40]).pkt [(2, 0xFFFFFFFF), (3, 0xFFFFFFFF)] = true ∧ pktQ (cmd 0x61 [0x40]).pkt 2 % 64 = 0) ∧
    (Ready 0x03 0 partOwned (cmd 0x03 [0, 0x40]) ∧ Room partOwned (cmd 0x03 [0, 0x40]) ∧
      pktOnly (cmd 0x03 [0, 0x40]).pkt ((2, 1) :: (List.range 10).map (fun k => (k + 3, (0xFFFFFFFF : Dword)))) = true ∧
      pktQ (cmd 0x03 [0, 0x40]).pkt 3 % 64 = 0 ∧ (begun partOwned (cmd 0x03 [0, 0x40])).sec.life = .deployed ∧
      (begun partOwned (cmd 0x03 [0, 0x40])).sec.identity ≠ none) ∧
    (Ready 0x03 1 partOwned (cmd 0x03 [1, 0x40]) ∧ Room partOwned (cmd 0x03 [1, 0x40]) ∧
      pktOnly (cmd 0x03 [1, 0x40]).pkt [(2, 1), (3, 0xFFFFFFFF), (4, 0xFFFFFFFF)] = true ∧ pktQ (cmd 0x03 [1, 0x40]).pkt 3 % 64 = 0 ∧
      (begun partOwned (cmd 0x03 [1, 0x40])).sec.certificate = some [1, 2]) ∧
    ((partPending (.attest 0x40 [1])).hif.pendings.head?.map (·.kind) = some (.attest 0x40 [1])) := by decide +kernel

def partRing (x : Ring) : State := { part with hif := { part.hif with rings := part.hif.rings.set 0 x } }

theorem witness_RingsChangeStateAsTheTableSays :
    part.hif.rings.length = 16 ∧
    ((ringOf (partRing {}) 0).state = .disabled ∧ dbit (0xCC1 : Dword) 0 = true ∧ 4 ≤ dbits (0xCC1 : Dword) 7 4 ∧ dbits (0xCC1 : Dword) 7 4 ≤ 12 ∧
      4 ≤ dbits (0xCC1 : Dword) 11 8 ∧ dbits (0xCC1 : Dword) 11 8 ≤ 12 ∧ lohi (ringOf (partRing {}) 0).sqLo (ringOf (partRing {}) 0).sqHi % 4096 = 0 ∧
      lohi (ringOf (partRing {}) 0).cqLo (ringOf (partRing {}) 0).cqHi % 4096 = 0) ∧
    ((ringOf part 0).state = .enabled ∧ dbit (0 : Dword) 0 = false) ∧ ((ringOf (partRing { ring0 with state := .error }) 0).state = .error) ∧
    ((ringOf (partRing { ring0 with state := .draining }) 0).state = .draining ∧ (ringOf (partRing { ring0 with state := .draining }) 0).open_ = 0) := by
  decide +kernel

def partFetch : State := partRing { ring0 with sqTail := 16 }

theorem witness_DoorbellsAndFetchMoveTheirPointer :
    partFetch.hif.rings.length = 16 ∧
    ((ringOf partFetch 0).state = .enabled ∧ ptrCount 5 (ringOf partFetch 0).sqHead ((16 : Dword).toNat % 2 ^ 5) ≤ 2 ^ 4) ∧
    ptrCount 5 (ringOf partFetch 0).cqHead ((0 : Dword).toNat % 2 ^ 5) ≤ ptrCount 5 (ringOf partFetch 0).cqHead (ringOf partFetch 0).cqTail ∧
    (hostUp partFetch = true ∧ partFetch.hif.fetchStopped = false ∧ partFetch.hif.fwStage ≠ 0 ∧
      nextRound partFetch.hif.lastVisited 16 (fun k => (ringOf partFetch k).state == .enabled) = some 0 ∧
      0 < ptrCount 5 (ringOf partFetch 0).sqHead (ringOf partFetch 0).sqTail ∧ fetchable partFetch ⟨0, (cmd 0x01 [5]).pkt⟩ = true) := by decide +kernel

theorem witness_HostResetsClearTheInterfaceAlone : part.streams.length = 32 := by decide +kernel

theorem witness_HostAccessIsHeldAndResumed :
    part.hif.pcieHeld = false ∧ messageHeld part 63 = false ∧
    messageHeld { part with hif := { part.hif with pba := part.hif.pba.set 63 true } } 63 = true := by decide +kernel

/-! An image with one section and no unit: the header, the tables of its three chunks, and the 13 latency records. The signature block is by key 5. -/

def imgBody : List Byte :=
  leBytes 4 0x49505957 ++ leBytes 4 1 ++ leBytes 4 128 ++ leBytes 4 3 ++ leBytes 8 384 ++ leBytes 12 0 ++ leBytes 4 1 ++ List.replicate 88 0
    ++ (leBytes 8 1 ++ leBytes 8 256 ++ List.replicate 16 0) ++ (leBytes 8 6 ++ leBytes 8 256 ++ List.replicate 16 0)
    ++ (leBytes 2 8 ++ leBytes 2 0xFF ++ leBytes 4 13 ++ leBytes 8 256 ++ leBytes 16 104) ++ List.replicate 32 0
    ++ (List.range 13).flatMap (fun k => leBytes 8 (k + 1)) ++ List.replicate 24 0

/-- A signature block by key 5 with this digest (R289). -/
def blockWith (d : BitVec 512) : List Byte :=
  (leBytes 4 sigMagic ++ leBytes 4 sigSize ++ leBytes 16 5) ++ (leBytes 64 d.toNat ++ (List.replicate 4627 0 ++ List.replicate 21 0))

theorem length_leBytes (n x : Nat) : (leBytes n x).length = n := by
  induction n generalizing x with
  | zero => rfl
  | succ n ih => simp [leBytes, ih]

theorem leNat_leBytes (n x : Nat) : leNat (leBytes n x) = x % 256 ^ n := by
  induction n generalizing x with
  | zero => simp [leBytes, leNat, Nat.mod_one]
  | succ n ih =>
    simp only [leBytes, leNat, ih, BitVec.toNat_ofNat]
    rw [show 256 ^ (n + 1) = 256 * 256 ^ n from Nat.pow_succ', Nat.mod_mul]

theorem digest_blockWith (d : BitVec 512) : BitVec.ofNat 512 (leAt (blockWith d) 24 64) = d := by
  have e : ((blockWith d).drop 24).take 64 = leBytes 64 d.toNat := by
    unfold blockWith
    rw [List.drop_left' (by simp [length_leBytes]), List.take_left' (length_leBytes _ _)]
  unfold leAt
  rw [e, leNat_leBytes]
  apply BitVec.eq_of_toNat_eq
  simp only [BitVec.toNat_ofNat]
  have := d.isLt
  omega

/-- A block by an accepted key over the body it follows passes, when the verifier accepts. -/
theorem sigFails_blockWith (body : List Byte) (ok : BitVec 128 → Bool) (h : ok 5 = true) (v : ∀ k d l, Config.mlDsaVerify k d l = true) :
    sigFails (body ++ blockWith (sha3512 body)) body.length ok = none := by
  unfold sigFails
  rw [List.drop_left, List.take_left]
  dsimp only
  rw [digest_blockWith]
  have k : BitVec.ofNat 128 (leAt (blockWith (sha3512 body)) 8 16) = 5 := by
    generalize sha3512 body = d
    have e : ((blockWith d).drop 8).take 16 = leBytes 16 5 := by
      unfold blockWith
      rw [List.append_assoc, List.drop_left' (by simp [length_leBytes]), List.take_left' (length_leBytes _ _)]
    unfold leAt
    rw [e]; decide
  have z : zeroBytes (((blockWith (sha3512 body)).drop 4715).take 21) = true := by
    generalize sha3512 body = d
    have e : (blockWith d).drop 4715 = List.replicate 21 0 := by
      have r : blockWith d = (leBytes 4 sigMagic ++ leBytes 4 sigSize ++ leBytes 16 5 ++ leBytes 64 d.toNat ++ List.replicate 4627 0) ++ List.replicate 21 0 := by
        unfold blockWith; simp only [List.append_assoc]
      rw [r, List.drop_left' (by simp only [List.length_append, length_leBytes, List.length_replicate])]
    rw [e]; decide
  have m : leAt (blockWith (sha3512 body)) 0 4 = sigMagic ∧ leAt (blockWith (sha3512 body)) 4 4 = sigSize := by
    generalize sha3512 body = d
    unfold leAt blockWith
    constructor
    · rw [List.drop_zero, List.append_assoc, List.append_assoc, List.take_left' (length_leBytes _ _)]; decide
    · rw [List.append_assoc, List.append_assoc, List.drop_left' (length_leBytes _ _), List.take_left' (length_leBytes _ _)]; decide
  simp only [k, z, m.1, m.2, v, h]
  simp

def imgFile : List Byte := imgBody ++ blockWith (sha3512 imgBody)

def imgHead : ImgHead :=
  { chunks := 3, body := 384, spanKey := 0, sectioned := false, mirrored := false, sections := 1, batch := 0, sectorMask := 0, spanMask := 0,
    streamMask := 0, portMask := 0, spill := 0, elastic := 0, length := 5120 }

def imgLatency : List (Nat × Nat × Nat × Nat) := (List.range 13).map (fun k => (k + 1, 0, 0, 0))

def imgParsed : ImgBody := { latency := imgLatency, chunks := [(1, 0, 256, 0), (6, 0, 256, 0), (8, 255, 256, 104)] }

theorem imgHead_read : headOfFile imgFile 5120 = imgHead := by decide +kernel

theorem imgFile_parses : parseImage imgFile imgHead = .ok imgParsed := by rfl

/-- A file that the part reads whole, when the verifier accepts. -/
theorem imgFile_reads (c : Sec) (h : imageKeyGood c 5 = true) (v : ∀ k d l, Config.mlDsaVerify k d l = true) :
    readImage c imgFile imgHead = .ok (imgParsed, 0) := by
  have e : checkSignature c imgFile imgHead = .ok () := by
    unfold checkSignature
    rw [show imgHead.body = imgBody.length by decide +kernel, show imgFile = imgBody ++ blockWith (sha3512 imgBody) from rfl, sigFails_blockWith _ _ h v]
  unfold readImage
  rw [e]
  dsimp only
  rw [imgFile_parses]
  rfl

theorem checkSection_ok {s : State} {i : Image} {k : Nat} {r : Nat → Nat → List Byte} (h : firstFinding (sectionFindings s i k r) = none) :
    checkSection s i k r = .ok () := by unfold checkSection; rw [h]

/-- A DEPLOYED part that accepts images of key 5. -/
def partLoad : State := { part with sec := { part.sec with life := .deployed, imageKeys := part.sec.imageKeys.set 0 (.valid 5) } }

def cmdLoad : HostCmd := cmd 0x10 [0, 0x40, 0, 5120, 0]

def imgPlace : Placing := (placeImage (regionsInUse (begun partLoad cmdLoad)) imgHead).getD ⟨0, 0, 0, 0⟩

def imgBuilt : Image := buildImage imgFile imgHead imgParsed 0 1 imgPlace

/-- The hypotheses about the verifier are met by a verifier that accepts the block; every other one is met as it stands. -/
theorem witness_ImageLoadPlacesTheFile (v : ∀ k d l, Config.mlDsaVerify k d l = true) :
    (Ready 0x10 0 partLoad cmdLoad ∧ Room partLoad cmdLoad ∧ (begun partLoad cmdLoad).hal.hoists.length = 4 ∧ imageArgsOk cmdLoad.pkt = true ∧
      (begun partLoad cmdLoad).hal.load = none ∧ FileGiven (begun partLoad cmdLoad) cmdLoad.pkt { list := none, bytes := some imgFile } imgFile ∧
      FileGiven (begun partLoad cmdLoad) (cmd 0x10 [2, 0x40, 0, 5120, 0]).pkt { bytes := some imgFile, list := some (List.replicate 8 0) } imgFile) ∧ headOfFile imgFile (pktQ cmdLoad.pkt 5) = imgHead ∧ checkHeader imgFile imgHead = .ok () ∧
    freeHandle (begun partLoad cmdLoad) = some 1 ∧ placeImage (regionsInUse (begun partLoad cmdLoad)) imgHead = some imgPlace ∧
    readImage (begun partLoad cmdLoad).sec imgFile imgHead = .ok (imgParsed, 0) ∧
    imgBuilt.config.any (usesSleeping (begun partLoad cmdLoad)) = false ∧
    checkSection (begun partLoad cmdLoad) imgBuilt 0 (fun o k => (imgFile.drop o).take k) = .ok () ∧
    stage7 (begun partLoad cmdLoad) imgBuilt 0 = some 0 :=
  ⟨⟨by decide +kernel, by decide +kernel, by decide +kernel, by decide +kernel, by decide +kernel, ⟨by decide +kernel, rfl, fun h => absurd h (by decide +kernel)⟩,
    ⟨by decide +kernel, rfl, fun _ => ⟨_, rfl, by decide +kernel⟩⟩⟩, by decide +kernel, by rfl, by decide +kernel, by decide +kernel, imgFile_reads _ (by decide +kernel) v, by decide +kernel,
    checkSection_ok (by decide +kernel), by decide +kernel⟩

/-- The part with that image resident. -/
def partImage : State := { partLoad with hal := { partLoad.hal with images := [imgBuilt] } }

def cmdSection : HostCmd := cmd 0x10 [0x101, 0, 0, 0, 0]

theorem witness_ImageLoadPlacesTheFile_section :
    (Ready 0x10 1 partImage cmdSection ∧ Room partImage cmdSection ∧ (begun partImage cmdSection).hal.hoists.length = 4 ∧ imageArgsOk cmdSection.pkt = true ∧
      pktQ cmdSection.pkt 3 = 0 ∧ (begun partImage cmdSection).hal.load = none) ∧
    imageOf (begun partImage cmdSection) (dbits (pktDw cmdSection.pkt 2) 15 8) = some imgBuilt ∧
    imageKeyGood (begun partImage cmdSection).sec imgBuilt.keyId = true ∧ dbits (pktDw cmdSection.pkt 2) 21 16 < imgBuilt.sections ∧
    usesSleeping (begun partImage cmdSection) (lget imgBuilt.config 0 []) = false ∧
    checkSection (begun partImage cmdSection) imgBuilt 0 (fun o n => memRead (begun partImage cmdSection).feed.lpddr (imgBuilt.imageBase + o) n) = .ok () ∧
    stage7 (begun partImage cmdSection) imgBuilt 0 = some 0 :=
  ⟨by decide +kernel, by rfl, by decide +kernel, by decide +kernel, by decide +kernel, checkSection_ok (by decide +kernel), by decide +kernel⟩

/-- A load in progress of that image into hoist 0. -/
def partJob (verify : Bool) (fail : Option LoadFail) : State :=
  { part with hal := { part.hal with load := some { verify := verify, sectionForm := false, image := imgBuilt, section_ := 0, hoist := 0, fail := fail } } }

def cmdVerify : HostCmd := cmd 0x11 [0, 0x40, 0, 5120, 0]

theorem witness_ImageLoadsEndLoadedAndVerifiesReport :
    ((partJob false none).hal.load.isSome = true ∧ ((partJob false none).hal.load.map (fun j => (j.verify, j.hoist))) = some (false, 0) ∧
      jobPending (partJob false none) .load = false ∧ (partJob false none).hal.hoists.length = 4) ∧
    (Ready 0x11 0 part cmdVerify ∧ Room part cmdVerify ∧ imageArgsOk cmdVerify.pkt = true ∧ dbit (pktDw cmdVerify.pkt 2) 0 = false ∧
      (begun part cmdVerify).hal.load = none ∧ (hostUp (begun part cmdVerify) = true ∧ dbit (pktDw cmdVerify.pkt 2) 1 = false) ∧ (verifyImage (begun part cmdVerify) [] (headOfFile [] (pktQ cmdVerify.pkt 5))).isSome = true) ∧
    ((partJob true none).hal.load.map (fun j => (j.verify, j.fail)) = some (true, none)) ∧
    ((partJob true (some { status := 8, code := 0x8101 })).hal.load.map (fun j => (j.verify, j.fail)) = some (true, some { status := 8, code := 0x8101 })) := by
  decide +kernel

/-- The part whose hoists are in these states; hoist 0 is the active one. -/
def partHoists (l : List HoistState) : State :=
  { part with hal := { part.hal with hoists := l.map (fun x => { state := x, image := some 1 }), active := some 0 } }

def ready1 : State := partHoists [.active, .loaded, .armed, .free]

theorem witness_HoistsArmAndMirror :
    (Ready 0x12 0 ready1 (cmd 0x12 [1]) ∧ pktOnly (cmd 0x12 [1]).pkt [(2, 0x103)] = true ∧ (hoistOf (begun ready1 (cmd 0x12 [1])) 1).state = .loaded ∧
      (begun ready1 (cmd 0x12 [1])).hal.hoists.length = 4) ∧
    (Ready 0x12 1 ready1 (cmd 0x12 [0x103]) ∧ Room ready1 (cmd 0x12 [0x103]) ∧ pktOnly (cmd 0x12 [0x103]).pkt [(2, 0x103)] = true ∧
      (begun ready1 (cmd 0x12 [0x103])).hal.active = some 0 ∧ (hoistOf (begun ready1 (cmd 0x12 [0x103])) 3).state = .free ∧
      ((begun ready1 (cmd 0x12 [0x103])).hal.hoists.any (fun x => x.state == .mirror || (x.state == .reloading && x.prior == .mirror))) = false ∧
      (begun ready1 (cmd 0x12 [0x103])).hal.mirrorCopy = none) ∧
    ({ ready1 with hal := { ready1.hal with mirrorCopy := some 3 } }.hal.mirrorCopy = some 3 ∧ jobPending ready1 .copy = false ∧
      ready1.hal.hoists.length = 4) := by decide +kernel

def cmdSwitch : HostCmd := cmd 0x13 [0x102, 2048, 0]

def partSwitch (h : Nat) : State := { ready1 with hal := { ready1.hal with hostSwitch := some { target := h, boundary := true, time := 2048 } } }

/-- An automatic switch to hoist 3, due at 256. -/
def partAuto : State := { ready1 with hal := { ready1.hal with autoSwitch := some { mirror := 3, time := 256, damagedHoist := 0 } } }

theorem witness_HoistSwitchesPendAndLand :
    (Ready 0x13 0 ready1 cmdSwitch ∧ Room ready1 cmdSwitch ∧ pktOnly cmdSwitch.pkt [(2, 0x103), (3, 0xFFFFFFFF), (4, 0xFFFFFFFF)] = true ∧
      (hoistOf (begun ready1 cmdSwitch) 2).state = .armed ∧ (begun ready1 cmdSwitch).now + 2048 ≤ pktQ cmdSwitch.pkt 3 ∧
      dbit (pktDw cmdSwitch.pkt 2) 8 = true ∧ (begun ready1 cmdSwitch).hal.hostSwitch = none ∧ (begun ready1 cmdSwitch).hal.autoSwitch = none) ∧
    ((partSwitch 2).hal.hostSwitch = some { target := 2, boundary := true, time := 2048 } ∧ (hoistOf (partSwitch 2) 2).state = .armed ∧ landsNext (partSwitch 2) 2048 1 = true) ∧
    ((hoistOf (partSwitch 1) 1).state = .loaded ∧ landsNext (partSwitch 1) 2048 1 = true) ∧
    (landsNext partAuto 256 0 = true ∧ partAuto.hal.hostSwitch = none) ∧
    (landsNext { partAuto with hal := { partAuto.hal with hostSwitch := some { target := 3, boundary := false, time := 4096 } } } 256 0 = true) := by decide +kernel

theorem witness_HoistsAndImagesAreReleased :
    (∀ d, d = 0x001 ∨ d = 0x101 → Ready 0x14 0 ready1 (cmd 0x14 [d]) ∧ pktOnly (cmd 0x14 [d]).pkt [(2, 0xFF0303)] = true ∧
      switchTargets (begun ready1 (cmd 0x14 [d])) 1 = false ∧ (hoistOf (begun ready1 (cmd 0x14 [d])) 1).state = .loaded ∧
      (hoistOf (begun ready1 (cmd 0x14 [d])) 1).image = some 1) ∧
    (let s := { part with hal := { part.hal with hoists := part.hal.hoists.set 1 { state := .loaded, image := some 1 } } }
     imageHeld (freeHoist (begun s (cmd 0x14 [1])) 1) 1 = false) ∧
    (Ready 0x14 1 partImage (cmd 0x14 [0x10200]) ∧ pktOnly (cmd 0x14 [0x10200]).pkt [(2, 0xFF0303)] = true ∧
      pktOnly (cmd 0x14 [0x10203]).pkt [(2, 0xFF0303)] = true ∧ (imageOf (begun partImage (cmd 0x14 [0x10200])) 1).isSome = true ∧ imageHeld (begun partImage (cmd 0x14 [0x10200])) 1 = false) := by
  refine ⟨?_, by decide +kernel, by decide +kernel⟩
  rintro d (rfl | rfl) <;> decide +kernel

/-- The part whose stream 31 is this one. -/
def partStream (c : StreamCtx) : State := { part with streams := part.streams.set 31 c }

def cmdOpen : HostCmd := cmd 0x20 [0x101F, 0x00EF00FF, 0, 0x3F800000, 0, 100]

theorem witness_StreamsOpenAndClose :
    (Ready 0x20 0 part cmdOpen ∧ (begun part cmdOpen).streams.length = 32 ∧ dbits (pktDw cmdOpen.pkt 2) 4 0 + 2 ^ dbits (pktDw cmdOpen.pkt 2) 9 8 ≤ 32 ∧
      pktOnly cmdOpen.pkt [(2, 0xF71F), (3, 0xFFFFFFFF), (4, 0xFFFF01FF), (5, 0xFFFFFFFF), (6, 0xFFFFFFFF), (7, 0xFFFFFFFF)] = true ∧
      dbits (pktDw cmdOpen.pkt 4) 7 4 ≤ 4 ∧ notFinite32 (pktDw cmdOpen.pkt 5) = false ∧ notFinite32 (pktDw cmdOpen.pkt 6) = false ∧
      dbit (pktDw cmdOpen.pkt 2) 10 = false ∧ dbit (pktDw cmdOpen.pkt 2) 14 = false ∧ (streamOf (begun part cmdOpen) 31).state = .closed ∧
      dbits (pktDw cmdOpen.pkt 2) 4 0 = 31 ∧ laneTaken (begun part cmdOpen) 31 1 = false) ∧
    (∀ d, d = 0x1F ∨ d = 0x11F → ∀ c, c ∈ [({} : StreamCtx), { state := .courier }, { state := .courier, frames := [{ id := 1, arrival := 0, courier := false }] }] →
      Ready 0x21 0 (partStream c) (cmd 0x21 [d, 1000000]) ∧ Room (partStream c) (cmd 0x21 [d, 1000000]) ∧
      pktOnly (cmd 0x21 [d, 1000000]).pkt [(2, 0x11F), (3, 0xFFFFFFFF)] = true ∧ (pktDw (cmd 0x21 [d, 1000000]).pkt 3).toNat ≤ 1000000 ∧
      (streamOf (begun (partStream c) (cmd 0x21 [d, 1000000])) 31).state ≠ .closing) ∧
    (allLeft (streamOf (beginClose (begun (partStream { state := .courier }) (cmd 0x21 [0x1F, 0])) 31) 31) = true ∧
      allLeft (streamOf (beginClose (begun (partStream { state := .courier, frames := [{ id := 1, arrival := 0, courier := false }] }) (cmd 0x21 [0x1F, 0])) 31) 31) = false) ∧
    ((streamOf (partStream { state := .closing }) 31).state = .closing ∧ allLeft (streamOf (partStream { state := .closing }) 31) = true ∧
      allLeft (streamOf (partStream { state := .closing, closeHow := some (false, 5), frames := [{ id := 1, arrival := 0, courier := false }] }) 31) = false ∧ haltedNow part = false ∧ reaches part 5 = true) := by
  refine ⟨by decide +kernel, ?_, by decide +kernel, by decide +kernel⟩
  rintro d (rfl | rfl) <;> decide +kernel

def cmdMode (t : Dword) : HostCmd := cmd 0x22 [0x1F, t, 0]

def partInfer : State := partStream { state := .infer }

theorem witness_StreamModesChangeAtTheirTime :
    (∀ t, t = 5000 ∨ t = 0 → Ready 0x22 0 partInfer (cmdMode t) ∧ Room partInfer (cmdMode t) ∧
      pktOnly (cmdMode t).pkt [(2, 0x31F), (3, 0xFFFFFFFF), (4, 0xFFFFFFFF)] = true ∧ modeAllowed (begun partInfer (cmdMode t)) 31 0 = true ∧
      (streamOf (begun partInfer (cmdMode t)) 31).modePending = none ∧ (streamOf (begun partInfer (cmdMode t)) 31).state ≠ modeState 0 ∧
      (begun partInfer (cmdMode t)).now = 0) ∧
    (let s := partStream { state := .infer, modePending := some (0, 5000) }
     s.streams.length = 32 ∧ (streamOf s 31).modePending = some (0, 5000) ∧
      modeAllowed (modStream (advance s 5000) 31 (fun c => { c with modePending := none })) 31 0 = true ∧ landsNext s 5000 6 = true) ∧
    (let f : Frame := { id := 1, arrival := 7, courier := false }
     let s := { partFab [(siteOf 10 7 1 6 0, boxWords [(42, 0x2E)])] with
       streams := part.streams.set 31 { state := .infer, path := 1, realtime := true, budget := 100, frames := [f] } }
     frameOf (streamOf s 31) 1 = some f ∧ deadlineWatched s 31 f = true ∧ haltedNow s = false ∧ reaches s (deadlineOf (streamOf s 31) f) = true) := by
  refine ⟨?_, by decide +kernel, by decide +kernel⟩
  rintro t (rfl | rfl) <;> decide +kernel

def cmdArm (d : Dword) : HostCmd := cmd 0x23 [d, 0x1000, 0, 0xFF000018]

def partDesc (d : HostDesc) : State := partStream { desc := d }

theorem witness_DescriptorsArmAndDisarm :
    (∀ d, d ∈ [({} : HostDesc), { state := .active }, { state := .active, record := some { frame := 1, arrival := 0, slot := 0 } }] →
      Ready 0x23 0 (partDesc d) (cmdArm 0x1F) ∧ Room (partDesc d) (cmdArm 0x1F) ∧ Ready 0x23 1 (partDesc d) (cmdArm 0x11F) ∧ Room (partDesc d) (cmdArm 0x11F) ∧
      (streamOf (begun (partDesc d) (cmdArm 0x1F)) 31).desc = d) ∧
    (pktOnly (cmdArm 0x1F).pkt [(2, 0x311F), (3, 0xFFFFFFFF), (4, 0xFFFFFFFF), (5, 0xFFFF001F)] = true ∧ (descParams (cmdArm 0x1F).pkt).addr % 4096 = 0 ∧
      (descParams (cmdArm 0x1F).pkt).slotLog2 = 24 ∧ (descParams (cmd 0x23 [0x1F, 0x1000, 0, 0x00FF0018]).pkt).slots * 2 ^ 24 ≤ 2 ^ 32 ∧
      pktOnly (cmdArm 0x11F).pkt [(2, 0x311F), (3, 0xFFFFFFFF), (4, 0xFFFFFFFF), (5, 0xFFFFFFFF)] = true) := by decide +kernel

def tile0 : Site := siteOf 0 0 0 0 0

def cmdScale (op : Nat) (t : Dword) : HostCmd := cmd op [tile0, 0x00000000, 0x40, 0, t, 0]

def partTile (x : MatrixTile) : State := { part with tiles := [(tile0, x)] }

theorem witness_ScaleBanksTakeNewEntries :
    (∀ t, t = 0 ∨ t = 5000 → Ready 0x28 0 part (cmdScale 0x28 t) ∧ Room part (cmdScale 0x28 t) ∧
      scaleArgs (cmdScale 0x28 t).pkt [(6, 0xFFFFFFFF), (7, 0xFFFFFFFF)] = none ∧ unitLost (begun part (cmdScale 0x28 t)) tile0 = false ∧
      (tileOf (begun part (cmdScale 0x28 t)) tile0).bank0.state = .live ∧ (tileOf (begun part (cmdScale 0x28 t)) tile0).bank1.state = .spare ∧
      dbit (cfgDw (begun part (cmdScale 0x28 t)) tile0 4) 0 = false ∧ (begun part (cmdScale 0x28 t)).now + 2048 ≤ 5000 ∧ hostUp (begun part (cmdScale 0x28 t)) = true ∧
      scaleRefused (begun part (cmdScale 0x28 t)) tile0 (scaleTable 0 1 [0, 0, 0x80, 0x3F]) [[], []] = false ∧
      scaleRefused (begun part (cmdScale 0x28 t)) tile0 (scaleTable 0 1 [0, 0, 0x80, 0x3F]) [[]] = false) ∧
    (siteKind tile0 = 0 ∧ liveBank (tileOf (partTile { bank1 := { state := .next }, nextTime := 5000 }) tile0) = 0 ∧
      (bankOf (tileOf (partTile { bank1 := { state := .next }, nextTime := 5000 }) tile0) 1).state = .next ∧
      (bankOf (tileOf (partTile { bank1 := { state := .retired } }) tile0) 1).state = .retired ∧ olderFrames (partTile {}) 5000 = false ∧
      landsNext (partTile { bank1 := { state := .next }, nextTime := 5000 }) 5000 5 = true) ∧
    (Ready 0x29 0 part (cmdScale 0x29 0) ∧ scaleArgs (cmdScale 0x29 0).pkt [(8, 1)] = none) := by
  refine ⟨?_, by decide +kernel, by decide +kernel⟩
  rintro t (rfl | rfl) <;> decide +kernel

def siteE0 : Site := siteOf 0 0 0 0 0

/-- The part whose halyard registers are these. -/
def partHal (f : Hal → Hal) : State := { part with hal := f part.hal }

/-- The part with its sectors ACTIVE. -/
def awake : State := { part with power := { part.power with sectors := List.replicate 8 { part.power.sectors.headD {} with state := .active } } }

theorem witness_SelfTestsForceProofsAndOpenTheWindow :
    (let c := cmd 0x30 [0, siteE0]
     Ready 0x30 0 part c ∧ Room part c ∧ dbits (pktDw c.pkt 2) 2 0 = 0 ∧ siteAbsent (pktDw c.pkt 3) = false ∧
      pktOnly c.pkt [(2, 0x107), (3, 0xFFFFFFFF)] = true ∧ proveSite (pktDw c.pkt 3) = true ∧ sitePresent (siteElem (pktDw c.pkt 3)) = true ∧
      unitLost (begun part c) (siteElem (pktDw c.pkt 3)) = false ∧
      isPending (begun part c) (fun k => match k with | .proveUnit _ => true | _ => false) = false ∧ unitState (begun part c) (siteElem (pktDw c.pkt 3)) ≠ .disabled) ∧
    (let c := cmd 0x30 [0, siteE0]
     let s := setCtl awake siteE0 { state := .disabled }
     Ready 0x30 0 s c ∧ Room s c ∧ unitLost (begun s c) siteE0 = false ∧ unitState (begun s c) (siteElem (pktDw c.pkt 3)) = .disabled ∧ mayArm (begun s c) = true) ∧
    (let c := cmd 0x30 [1]
     Ready 0x30 1 part c ∧ Room part c ∧ pktOnly c.pkt [(2, 7)] = true ∧ windowPends (begun part c) = false) ∧
    (let c := cmd 0x30 [2, 0, 5000]
     let s := partPending .window
     Ready 0x30 2 s c ∧ Room s c ∧ pktOnly c.pkt [(2, 7), (4, 0xFFFFFFFF), (5, 0xFFFFFFFF)] = true ∧ windowPends (begun s c) = true ∧
      (begun s c).now + 2048 ≤ pktQ c.pkt 4 ∧ (begun s c).hal.halt = .running ∧ windowBusy (begun s c).hal.window = false) ∧
    (let c := cmd 0x30 [3, 0, 0x1000]
     Ready 0x30 3 part c ∧ pktOnly c.pkt [(2, 7), (4, 0xFFFFFFFF), (5, 0xFFFFFFFF)] = true ∧ pktQ c.pkt 4 % 64 = 0) ∧
    ((partHal (fun h => { h with window := .scheduled 5000 })).hal.window = .scheduled 5000 ∧ landsNext (partHal (fun h => { h with window := .scheduled 5000 })) 5000 4 = true) ∧
    (partHal (fun h => { h with window := .running 5000 })).hal.window = .running 5000 := by decide +kernel

/-- The part, powered, with the rolling proof in this state. -/
def partProof (p : Proof) : State := partHal (fun h => { h with proof := p })

theorem witness_TheRollingProofRunsUnitByUnit :
    (∀ p, p ∈ [({ enable := true, roundAt := siteE0 } : Proof), { enable := true, roundAt := 0xFFFFFFFE }] →
      let s := { awake with hal := { awake.hal with proof := p } }
      mayArm s = true ∧ s.hal.proof.forced = none ∧ s.hal.proof.enable = true ∧ (nextProof s).isSome = true ∧ reaches s (spacingEnd s) = true) ∧
    (let s := { awake with hal := { awake.hal with proof := { forced := some (siteE0, true) } } }
     mayArm s = true ∧ s.hal.proof.forced = some (siteE0, true) ∧ unitState s siteE0 ≠ .draining ∧ (sectorOf s (siteSector siteE0)).state = .active ∧
      reaches s (spacingEnd s) = true) ∧
    (siteKind (siteOf 10 7 1 6 0) = 10 ∧ siteKind (siteOf 5 0 0 0 0) = 5 ∧ unitState awake (siteOf 5 0 0 0 0) ≠ .disabled) ∧
    (let s := partProof { state := .wait, site := siteE0 }
     proofNames s siteE0 = true ∧ unitIdle s (siteElem siteE0) = true ∧ siteKind siteE0 ≤ 3 ∧ bindStopped s siteE0 = false ∧ reaches s (1000 * Config.us) = true) ∧
    (∀ r, (partProof { state := .proof, site := siteE0, repeated := r }).hal.proof.state = .proof ∧
      (partProof { state := .proof, site := siteE0, repeated := r }).hal.proof.repeated = r ∧
      proofNames (partProof { state := .proof, site := siteE0, repeated := r }) siteE0 = true) ∧
    (proofNames (partProof { state := .restore, site := siteE0 }) siteE0 = true) := by decide +kernel

def partGlue : Site := siteOf 4 0 0 0 0

/-- Output 0 of the glue block leads to its input 1, by the box they share. -/
def glueFab : State := partFab [(partGlue, [1, usedPort 4, usedPort 4]), (siteOf 10 0 7 0 0, boxWords [(39, 0x2A)])]

theorem witness_UnitsDrainAndLeaveService :
    (let c := cmd 0x32 [siteE0, 0]
     Ready 0x32 0 part c ∧ Room part c ∧ disableCheck c.pkt [(2, 0xFFFFFFFF), (3, 0xFFFFFFFF)] = none ∧ (pktDw c.pkt 3).toNat ≤ 1000000 ∧
      unitState (begun part c) siteE0 = .enabled ∧ (ctlOf (begun part c) siteE0).disableAfterProof = false ∧ proofAt (begun part c) siteE0 = false) ∧
    (∀ p, p ∈ [ProofState.wait, .proof, .restore] →
      let c := cmd 0x32 [siteE0, 0]
      let s := partProof { state := p, site := siteE0 }
      Ready 0x32 0 s c ∧ Room s c ∧ unitState (begun s c) siteE0 = .enabled ∧ (ctlOf (begun s c) siteE0).disableAfterProof = false ∧
        proofAt (begun s c) siteE0 = true ∧ (begun s c).hal.proof.state = p) ∧
    (∀ x, x ∈ [UnitState.disabled, .draining, .enabled] →
      let c := cmd 0x33 [siteE0]
      let s := setCtl part siteE0 { state := x }
      Ready 0x33 0 s c ∧ disableCheck c.pkt [(2, 0xFFFFFFFF)] = none ∧ unitState (begun s c) (siteElem (pktDw c.pkt 2)) = x ∧
        (ctlOf (begun s c) siteE0).disableAfterProof = false) ∧
    (let s := setCtl part siteE0 { state := .draining }
     siteElem siteE0 = siteE0 ∧ siteKind siteE0 ≤ 5 ∧ unitState s siteE0 = .draining ∧ unitDrained s siteE0 = true) ∧
    (let s := setTile part siteE0 { ctl := { state := .draining }, rewriting := [{ region := 0, bank := 0, beat := 0, found := 0 }] }
     unitState s siteE0 = .draining ∧ unitDrained s siteE0 = false ∧ siteKind siteE0 ≠ 4 ∧ haltedNow s = false ∧ inProof s siteE0 = false ∧ reaches s 1300 = true) ∧
    (let s := setCtl part partGlue { state := .draining }
     siteElem partGlue = partGlue ∧ siteKind partGlue = 4 ∧ unitState s partGlue = .draining ∧ glueWaiting s partGlue = []) ∧
    (let s := setCtl glueFab partGlue { state := .draining }
     unitState s partGlue = .draining ∧ glueWaiting s partGlue = [1] ∧ reaches s 1300 = true) := by decide +kernel

theorem witness_TheHaltIsConsistentAndResumes :
    (let c := cmd 0x38 [5000, 0]
     Ready 0x38 0 part c ∧ Room part c ∧ pktOnly c.pkt [(2, 0xFFFFFFFF), (3, 0xFFFFFFFF)] = true ∧ (begun part c).now + 2048 ≤ pktQ c.pkt 2 ∧
      (begun part c).hal.halt = .running ∧ windowBusy (begun part c).hal.window = false) ∧
    (∀ h, h ∈ [HaltState.halted, .pending] →
      Ready 0x39 0 (partHal (fun x => { x with halt := h })) (cmd 0x39 []) ∧ pktOnly (cmd 0x39 []).pkt [] = true ∧
      (begun (partHal (fun x => { x with halt := h })) (cmd 0x39 [])).hal.halt = h) ∧
    landsNext (partHal (fun x => { x with halt := .pending, haltTime := 5000 })) 5000 2 = true ∧
    landsNext (partHal (fun x => { x with halt := .resuming, resumeTime := 5000 })) 5000 2 = true := by decide +kernel

theorem witness_SnapshotsAreCapturedCopiedAndReleased :
    (let c := cmd 0x3A [0, 0]
     let s := partHal (fun x => { x with halt := .halted })
     Ready 0x3A 0 s c ∧ Room s c ∧ pktOnly c.pkt [(2, 3), (3, 15)] = true ∧ dbits (pktDw c.pkt 2) 1 0 = 0 ∧ (begun s c).hal.halt = .halted ∧
      (begun s c).snap.capturing = false ∧ snapPlace (begun s c) (snapBytes (begun s c) 0).length = some 0) ∧
    (let s := { part with snap := { part.snap with capturing := true } }
     let T := ((List.range Config.spanPorts).map (echoesBy s)).foldl max 0
     readsInFlight s = false ∧ reaches s T = true ∧ snapPlace (advance s T) (snapBytes (advance s T) 0).length = some 0) ∧
    (let c := cmd 0x3A [1, 0, 0x1000, 0, 0x2000, 0x3000]
     let s := { partHal (fun x => { x with halt := .halted }) with snap := { part.snap with region := some (0x10000, 0x8000) } }
     Ready 0x3A 1 s c ∧ Room s c ∧ (begun s c).snap.region = some (0x10000, 0x8000) ∧ (begun s c).snap.copy = none ∧
      pktOnly c.pkt [(2, 3), (4, 0xFFFFFFFF), (5, 0xFFFFFFFF), (6, 0xFFFFFFFF), (7, 0xFFFFFFFF), (8, 0xFFFFFFFF)] = true ∧
      pktQ c.pkt 4 % 4096 = 0 ∧ (pktDw c.pkt 6).toNat % 4096 = 0 ∧ pktQ c.pkt 7 % 4096 = 0 ∧ (pktDw c.pkt 6).toNat ≤ 2 ^ 24 ∧
      pktQ c.pkt 4 + (pktDw c.pkt 6).toNat ≤ 0x8000 ∧ Ready 0x3A 2 s (cmd 0x3A [2]) ∧ pktOnly (cmd 0x3A [2]).pkt [(2, 3)] = true ∧
      (begun s (cmd 0x3A [2])).snap.region ≠ none) ∧
    (let s := { part with snap := { part.snap with copy := some (0, 4096, 0) } }
     s.snap.copy = some (0, 4096, 0) ∧ jobPending s .snapshot = false) := by decide +kernel

/-- Words of a matrix or vector tile: four or eight port words, the tile word, the frame word and the operations, all else 0. -/
def tileWords (d4 : Dword) (ops : List Dword) : List Dword := [usedPort 4, usedPort 4, 0, 0, d4] ++ List.replicate 15 0 ++ [0xA01, 0, 0] ++ ops

def vecWords (d8 : Dword) (ops : List Dword) : List Dword := [usedPort 4, usedPort 4] ++ List.replicate 6 0 ++ [d8] ++ List.replicate 12 0 ++ [0xA01, 0] ++ ops

def siteV : Site := siteOf 1 0 0 0 0
def siteW : Site := siteOf 2 0 0 0 0

/-- Beats without their CRC, which only the arrival of a beat checks. -/
def tackBeat : Beat := ⟨BitVec.ofNat 512 (7 + 100 * 2 ^ 64), sideOf tyTack 0 3 false false⟩
def dataBeat : Beat := ⟨0x3F80, sideOf tyData 5 3 true false⟩
def slot3 : Slot := { stream := 3, frame := 7, groups := [(0, -7, [0])], clips := [some 0] }

/-- A part whose matrix tile E(0,0,0,0) has this word 4, these operations and this state, and these beats at its port 0. -/
def partE (d4 : Dword) (ops : List Dword) (x : MatrixTile) (l : List Beat) : State :=
  { partFab [(siteE0, tileWords d4 ops)] with tiles := [(siteE0, x)], fabric := { part.fabric with inBufs := [(⟨siteE0, 0⟩, l)] } }

/-- The same of the vector tile, whose output 0 leads to port 0 of E(0,1,0). -/
def partV (ops : List Dword) (x : VectorTile) (l : List Beat) : State :=
  { partFab [(siteV, vecWords 0x90001 ops), (siteOf 10 0 1 0 0, boxWords [(36, 0x2B)])] with
    vtiles := [(siteV, x)], fabric := { part.fabric with inBufs := [(⟨siteV, 0⟩, l)] } }

/-- The same of the window tile: one channel of one row of 32 columns, a 1 × 1 window, two rows of line buffer. -/
def partW (d4 : Dword) (x : WindowTile) (l : List Beat) : State :=
  { partFab [(siteW, [usedPort 4, usedPort 4, 0, 0, d4, 31, 0x2000, 0, 0, 0])] with wtiles := [(siteW, x)], fabric := { part.fabric with inBufs := [(⟨siteW, 0⟩, l)] } }

def opAt (id code : Nat) : Issued := { id := id, slot := 0, stream := 3, frame := 7, index := 0, op := BitVec.ofNat 32 code }

def boundE (e : Issued) : MatrixTile := { slots := [some slot3, none, none, none], board := [e], nextId := 5, staging := [(0, { filled := true, ord := some 0 })] }

def boundV (e : Issued) : VectorTile := { slots := [some slot3, none, none, none], board := [e], nextId := 5 }

theorem witness_TilesBindIssueAndTimeOut :
    (let s := partE 0x901 [] {} [tackBeat]
     tileSees s siteE0 = true ∧ unitState s siteE0 = .enabled ∧ bindStopped s siteE0 = false ∧ isOpenTack tackBeat = true ∧
      (inBuf s ⟨siteE0, framePort s siteE0⟩).head? = some tackBeat ∧
      (List.range (slotsUsed s siteE0)).find? (fun k => (slotAt (tileOf s siteE0).slots k).isNone) = some 0 ∧
      ((takeBeat s ⟨siteE0, framePort s siteE0⟩ (fun _ => true)).isSome = true) ∧ 0 < (tileOf s siteE0).slots.length) ∧
    (let s := partV [] {} [tackBeat]
     siteKind siteV = 1 ∧ tileSees s siteV = true ∧ unitState s siteV = .enabled ∧ bindStopped s siteV = false ∧
      (inBuf s ⟨siteV, vecFramePort s siteV⟩).head? = some tackBeat ∧
      (List.range (vecSlotsUsed s siteV)).find? (fun k => (slotAt (vtileOf s siteV).slots k).isNone) = some 0 ∧
      ((takeBeat s ⟨siteV, vecFramePort s siteV⟩ (fun _ => true)).isSome = true) ∧ 0 < (vtileOf s siteV).slots.length) ∧
    (let s := partW 0x10901 {} [tackBeat]
     siteKind siteW = 2 ∧ tileSees s siteW = true ∧ unitState s siteW = .enabled ∧ bindStopped s siteW = false ∧
      (inBuf s ⟨siteW, (winCfg s siteW).inPort⟩).head? = some tackBeat ∧ winTaking (winCfg s siteW) (wtileOf s siteW) (bStream tackBeat) = none ∧
      unitState (winTackCut s siteW tackBeat) siteW = .enabled ∧ bindStopped (winTackCut s siteW tackBeat) siteW = false ∧
      (List.range (winCfg s siteW).slots).find? (fun k => (winSlotAt (wtileOf s siteW) k).isNone) = some 0 ∧
      ((takeBeat s ⟨siteW, (winCfg s siteW).inPort⟩ (fun x => x == tackBeat)).isSome = true) ∧ 0 < (wtileOf s siteW).slots.length) ∧
    (let s := partE 0x901 [2] { slots := [some slot3, none, none, none] } []
     let x := tileOf s siteE0
     tileActs s siteE0 = true ∧ x.board.length < 32 ∧ reaches s (issueAt s x.nextIssue / 8) = true ∧
      nextIssuer (tileOps s siteE0) (tileLimits s siteE0) (x.slots.map (fun o => o.map (settleNest (tileOps s siteE0) (tileLimits s siteE0)))) x.lastSlot = some (0, 0)) ∧
    (let s := partV [3] { slots := [some slot3, none, none, none] } []
     let x := vtileOf s siteV
     vecActs s siteV = true ∧ x.board.length < 32 ∧ reaches s (issueAt s x.nextIssue / 8) = true ∧
      nextIssuer (vecOps s siteV) (vecLimits s siteV) (x.slots.map (fun o => o.map (settleNest (vecOps s siteV) (vecLimits s siteV)))) x.lastSlot = some (0, 0)) ∧
    (let s := partE 0x901 [2] (boundE (opAt 1 2)) []
     tileActs s siteE0 = true ∧ 10 ≤ watchdogLog s siteE0 ∧ reaches s (2 ^ watchdogLog s siteE0) = true ∧
      (tileOf s siteE0).board.find? (fun x => x.slot == 0 && x.index == 0 && isHead tileKey (tileOf s siteE0).board x) = some (opAt 1 2)) ∧
    (let s := partV [3] (boundV (opAt 1 3)) []
     vecActs s siteV = true ∧ 10 ≤ vecWatchdog s siteV ∧ reaches s (2 ^ vecWatchdog s siteV) = true ∧
      (vtileOf s siteV).board.find? (fun x => x.slot == 0 && x.index == 0 && isHead vecKey (vtileOf s siteV).board x) = some (opAt 1 3)) ∧
    (let sl : WinSlot := { stream := 3, frame := 7 }
     let s := partW 0x0A010901 { slots := [some sl, none, none, none] } []
     winActs s siteW = true ∧ winSlotAt (wtileOf s siteW) 0 = some sl ∧ 10 ≤ (winCfg s siteW).watchdog ∧ reaches s (2 ^ (winCfg s siteW).watchdog) = true) := by
  decide +kernel

theorem witness_LoadsWriteTheStores :
    (let s := partE 0x901 [1] { boundE (opAt 1 1) with staging := [] } [dataBeat]
     let e := opAt 1 1
     tileActs s siteE0 = true ∧ headOf tileKey (tileOf s siteE0).board (0, 2, 0) = some e ∧ entrySlot (tileOf s siteE0) e = slot3 ∧
      entrySlot { tileOf s siteE0 with slots := [none, none, none, none] } e = { stream := 3, frame := 7 } ∧ aloadView s siteE0 0 3 = some dataBeat ∧ isTack dataBeat = false ∧ lineFilled (tileOf s siteE0) ((e.a + e.progress) % 1024) = false ∧
      amGetD (tileOf s siteE0).portFc 0 0 = 0 ∧ reaches s 0 = true ∧ (takeBeat (advance s 0) ⟨siteE0, 0⟩ (fun x => x == dataBeat)).isSome = true) ∧
    (let s := partV [1] (boundV (opAt 1 1)) [dataBeat]
     let e := opAt 1 1
     vecActs s siteV = true ∧ headOf vecKey (vtileOf s siteV).board (0, 0, 0) = some e ∧ slotAt (vtileOf s siteV).slots 0 = some slot3 ∧
      vloadView s siteV (vopPort e.op) 3 = some dataBeat ∧ vecFree s siteV (vtileOf s siteV) e = true ∧
      isTack dataBeat = false ∧ (vtileOf s siteV).ready = [] ∧ reaches s 0 = true ∧ (takeBeat s ⟨siteV, vopPort e.op⟩ (fun x => x == dataBeat)).isSome = true) ∧
    (let sl : WinSlot := { stream := 3, frame := 7 }
     let s := partW 0x10901 { slots := [some sl, none, none, none] } [dataBeat]
     winActs s siteW = true ∧ winPick (winCfg s siteW) (wtileOf s siteW) (inBuf s ⟨siteW, 0⟩) = some dataBeat ∧
      winTaking (winCfg s siteW) (wtileOf s siteW) (bStream dataBeat) = some (some 0, sl) ∧ bLast dataBeat = (sl.inBeat + 1 == winRowBeats (winCfg s siteW)) ∧
      (takeBeat s ⟨siteW, (winCfg s siteW).inPort⟩ (fun x => x == dataBeat)).isSome = true) ∧
    (let sl : WinSlot := { stream := 3, frame := 7 }
     let s := partW 0x10901 { tails := [sl] } [dataBeat]
     winActs s siteW = true ∧ winPick (winCfg s siteW) (wtileOf s siteW) (inBuf s ⟨siteW, 0⟩) = some dataBeat ∧
      winTaking (winCfg s siteW) (wtileOf s siteW) (bStream dataBeat) = some (none, sl) ∧ bLast dataBeat = (sl.inBeat + 1 == winRowBeats (winCfg s siteW)) ∧
      (takeBeat s ⟨siteW, (winCfg s siteW).inPort⟩ (fun x => x == dataBeat)).isSome = true) ∧
    (let s := partE 0x901 [1] { boundE (opAt 1 1) with slots := [some { slot3 with groups := [], nextRow := 1 }, none, none, none] } []
     tileActs s siteE0 = true ∧ isInt s siteE0 = true ∧ groupDue (tileOf s siteE0) 0 { slot3 with groups := [], nextRow := 1 } (rowChannels s siteE0) = some 0) := by
  decide +kernel

theorem witness_ArrayOperationsWriteTheirSet :
    (∀ d, d = 0x901 ∨ d = 0x905 →
      let s := partE d [2] (boundE (opAt 1 2)) []
      let e := opAt 1 2
      tileActs s siteE0 = true ∧ replayHead (tileOf s siteE0) = none ∧ headOf tileKey (tileOf s siteE0).board (0, 0, 0) = some e ∧
        entrySlot (tileOf s siteE0) e = slot3 ∧ arrayFree (tileOf s siteE0) e = true ∧ (macLines s siteE0 e).all (fun i => lineReady s siteE0 slot3 (lineAt (tileOf s siteE0) i)) = true ∧
        unitSound (tileOf s siteE0) e.b = true ∧ isInt s siteE0 = (d == 0x901) ∧ reaches s (fireAt s siteE0 e / 8) = true ∧
        groupClash (settleWrites (fireTurn s siteE0 e) siteE0) siteE0 slot3 e = false ∧
        unitSound (tileOf (partE d [2] { boundE (opAt 1 2) with rewriting := [{ region := 0, bank := 0, beat := 0, found := 0 }] } []) siteE0) e.b = false) ∧
    (let s := partE 0x901 [3] (boundE (opAt 1 3)) []
     let e := opAt 1 3
     tileActs s siteE0 = true ∧ reaches s (fireAt s siteE0 e / 8) = true ∧
      headOf tileKey (tileOf s siteE0).board (0, 1, 0) = some e ∧ arrayFree (tileOf s siteE0) e = true ∧ lineFilled (tileOf s siteE0) e.a = true ∧
      unitSound (tileOf s siteE0) e.b = true ∧ unitSound (tileOf s siteE0) ((e.b + 1) % 24576) = true) ∧
    (∀ n, n = 0 ∨ n = 9 → ∀ d, d = 0x901 ∨ d = 0x911 → ∀ w, w = false ∨ w = true → ∀ a, a = false ∨ a = true →
      let sl := { slot3 with clips := [some n], wide := w }
      let s := partE d [4] { boundE (opAt 1 4) with slots := [some sl, none, none, none], sets := [(0, { ordEnd := 1, anyNarrow := a })] } []
      let set := setOf (tileOf s siteE0) 0
      tileActs s siteE0 = true ∧ isInt s siteE0 = true ∧ slotAt (tileOf s siteE0).slots 0 = some sl ∧ checkNext s (tileOf s siteE0) 0 sl = some (opAt 1 4) ∧
        set.anyNarrow = a ∧ rerunOn s siteE0 = (d == 0x911) ∧
        ((n = 0 ∧ (clipTotals sl set.ordEnd).2 * 65536 ≤ clipThreshold s siteE0 * (clipTotals sl set.ordEnd).1) ∨
          (n = 9 ∧ clipThreshold s siteE0 * (clipTotals sl set.ordEnd).1 < (clipTotals sl set.ordEnd).2 * 65536))) ∧
    (∀ d, d = 0x901 ∨ d = 0x905 →
      let s := partE d [4] { boundE (opAt 1 4) with sets := [(0, { checked := true })] } []
      tileActs s siteE0 = true ∧ drainHead (tileOf s siteE0) 0 = some (opAt 1 4) ∧ (setOf (tileOf s siteE0) 0).checked = true ∧ slotAt (tileOf s siteE0).slots 0 = some slot3 ∧
        reaches s (backFc (setOf (tileOf s siteE0) 0)) = true ∧ (setOf (tileOf s siteE0) 0).todo = [] ∧
        earlier (tileOf s siteE0).board (opAt 1 4) (fun x => (opCode x.op == 2 || opCode x.op == 3) && x.d == 0) = false ∧
        earlier (tileOf s siteE0).board (opAt 1 4) (fun x => opCode x.op == 4 && dbits x.op 8 7 == 0 && !x.fired) = false) := by
  refine ⟨?_, by decide +kernel, ?_, ?_⟩
  · rintro d (rfl | rfl) <;> decide +kernel
  · rintro n (rfl | rfl) d (rfl | rfl) w (rfl | rfl) a (rfl | rfl) <;> decide +kernel
  · rintro d (rfl | rfl) <;> decide +kernel

/-- E(0,3,0), whose port 0 queue 0 of the memory port beside it feeds. -/
def siteF : Site := siteOf 0 0 3 0 0

def partFetchPort (x : MatrixTile) (l : List Beat) : State :=
  { partFab [(siteF, tileWords 0x901 [5]), (siteOf 10 0 3 0 0, boxWords [(36, 0x2A)])] with
    tiles := [(siteF, x)], fabric := { part.fabric with inBufs := [(⟨siteF, 0⟩, l)] } }

/-- An image that keeps no weights, resident under handle 1 and held by hoist 0. -/
def image1 : Image :=
  { handle := 1, keyId := 0, digest := 0, spanKey := 0, sectioned := false, mirrored := false, sections := 1, batch := 1, sectorMask := 0, spanMask := 0,
    streamMask := 0, portMask := 0, fileLength := 0, imageBase := 0, imageSize := 0, mirrorBase := 0, spillBase := 0, spillSize := 0, elasticBase := 0,
    elasticSize := 0, weights := [(255, siteE0, 0, 0x1000, 1)] }

theorem witness_FetchedWeightsAndReleasedLines :
    (let s := partE 0x901 [5] (boundE (opAt 1 5)) []
     tileActs s siteE0 = true ∧ headOf tileKey (tileOf s siteE0).board (0, 4, 0) = some (opAt 1 5) ∧ slotAt (tileOf s siteE0).slots 0 = some slot3 ∧
      (queueOf s (fetchQueue (opAt 1 5).op)).grants.length < 8) ∧
    (let f : FetchRec := { queue := 0, slot := 0, frame := 7, asked := 0, id := 1, first := 0, count := 2 }
     let op (s : State) : MatrixTile := tileOf s siteF
     let s := partFetchPort { boundE (opAt 2 6) with fetches := [f] } [dataBeat]
     tileActs s siteF = true ∧ isFetchPort s siteF 0 = true ∧ (op (settleWrites s siteF)).writeBuf = [] ∧ (op s).reads = [] ∧
      linkProducer (settleWrites s siteF) ⟨siteF, 0⟩ = some ⟨siteOf 5 0 0 0 0, 0⟩ ∧
      (takeBeat (settleWrites s siteF) ⟨siteF, 0⟩ (fun b => bType b == tyData)).isSome = true ∧ sitePort (siteOf 5 0 0 0 0) * 8 + 0 = 0 ∧
      ((takeBeat (settleWrites s siteF) ⟨siteF, 0⟩ (fun b => bType b == tyData)).map (fun r =>
        (op r.2).fetches.find? (fun f => f.queue == 0 && decide (f.written + bufferedOf (op r.2) f < f.count)))) = some (some f)) ∧
    (let s := partE 0x901 [6] (boundE (opAt 1 6)) []
     tileActs s siteE0 = true ∧ headOf tileKey (tileOf s siteE0).board (0, 4, 0) = some (opAt 1 6) ∧ opCode (opAt 1 6).op = 6 ∧ (tileOf (settleWrites s siteE0) siteE0).fetches = []) ∧
    (let s := partE 0x901 [7] (boundE (opAt 1 7)) []
     tileActs s siteE0 = true ∧ headOf tileKey (tileOf s siteE0).board (0, 4, 0) = some (opAt 1 7) ∧ opCode (opAt 1 7).op = 7 ∧
      (∀ p, earlier (tileOf s siteE0).board (opAt 1 7) p = (decide (1 < 1) && p (opAt 1 7))) ∧ (tileOf s siteE0).sets = [] ∧
      ∀ i ∈ releaseLines (opAt 1 7), lineFilled (tileOf s siteE0) i = true → (lineAt (tileOf s siteE0) i).slot < 4 → (lineAt (tileOf s siteE0) i).ord ≠ none) ∧
    (∀ l, l = [] ∨ l = [(0, 1)] →
      let s := partE 0x901 [] { passWrites := l } []
      siteKind siteE0 = 0 ∧ sitePresent siteE0 = true ∧ s.hal.stopped = false ∧ (sectorOf s (siteSector siteE0)).state = .active ∧
        reaches s (tileOf s siteE0).scrubFc = true ∧ writtenInPass (tileOf s siteE0) ((tileOf s siteE0).scrubWord / 8) = (l != [])) ∧
    (∀ m, m = false ∨ m = true →
      let i := { image1 with mirrored := m, mirrorBase := 0x100000 }
      let s := { part with
        tiles := [(siteE0, { rewriting := [{ region := 0, bank := 0, beat := 0, found := 0 }], stalledOn := [0] })]
        feed := { part.feed with poisoned := if m then [0x1000] else [] }
        hal := { part.hal with active := some 0, images := [i], hoists := [{ state := .active, image := some 1 }, {}, {}, {}] } }
      let homes := (List.range' 0 64).filterMap (fun b => (rewriteHome s siteE0 b).map (fun a => (b, a)))
      (tileOf s siteE0).rewriting.find? (fun r => r.region == 0) = some { region := 0, bank := 0, beat := 0, found := 0 } ∧ activeImage s = some i ∧
        rewriteHome s siteE0 0 ≠ none ∧ homes.all (fun h => (lineCopies s i h.2).1) = !m ∧
        homes.all (fun h => (lineCopies s i h.2).1 || (lineCopies s i h.2).2) = true) := by
  refine ⟨by decide +kernel, by decide +kernel, by decide +kernel, ⟨by decide +kernel, by decide +kernel, by decide +kernel, fun p => rfl, by decide +kernel, by decide +kernel⟩, ?_, ?_⟩
  · rintro l (rfl | rfl) <;> decide +kernel
  · rintro m (rfl | rfl) <;> decide +kernel

theorem witness_VectorOperationsWriteTheirEntry :
    (∀ n, n = 3 ∨ n = 5 →
      let s := partV [3] (boundV (opAt 1 n)) []
      vecActs s siteV = true ∧ vecFree s siteV (vtileOf s siteV) (opAt 1 n) = true ∧ reaches s (vecFireAt s siteV (opAt 1 n) / 8) = true ∧ headOf vecKey (vtileOf s siteV).board (0, 2, 0) = some (opAt 1 n) ∧
        opCode (opAt 1 n).op = n) ∧
    (let s := partV [4] (boundV (opAt 1 4)) []
     vecActs s siteV = true ∧ vecFree s siteV (vtileOf s siteV) (opAt 1 4) = true ∧ reaches s (vecFireAt s siteV (opAt 1 4) / 8) = true ∧ headOf vecKey (vtileOf s siteV).board (0, 3, 0) = some (opAt 1 4)) ∧
    (let e : Issued := { opAt 1 2 with op := 0x82 }
     let s := partV [0x82] (boundV e) []
     vecActs s siteV = true ∧ headOf vecKey (vtileOf s siteV).board (0, 1, 0) = some e ∧ slotAt (vtileOf s siteV).slots 0 = some slot3 ∧
      vecFree s siteV (vtileOf s siteV) e = true ∧ outQ s ⟨siteV, vopPort e.op⟩ = [] ∧ (vtileOf s siteV).ready = [] ∧ reaches s 0 = true ∧
      maySend (advance s 0) ⟨siteV, vopPort e.op⟩ = true) ∧
    (let s := partV [3] { boundV (opAt 1 3) with rewriting := [2] } []
     siteKind siteV = 1 ∧ 2 ∈ (vtileOf s siteV).rewriting) := by
  refine ⟨?_, by decide +kernel, by decide +kernel, by decide +kernel⟩
  rintro n (rfl | rfl) <;> decide +kernel

theorem witness_WindowTilesAndGlueBlocksSend :
    (∀ d n, (d, n) ∈ [((0x10901 : Dword), 0), (0x10903, 1), (0x10905, 2)] →
      let sl : WinSlot := { stream := 3, frame := 7, inRow := 1 }
      let s := partW d { slots := [some sl, none, none, none] } []
      winActs s siteW = true ∧ winTurn s siteW 0 = true ∧ winSlotAt (wtileOf s siteW) 0 = some sl ∧ (winCfg s siteW).op = n ∧ (winOuts s siteW).length = 1) ∧
    (∀ st, st ∈ [UnitState.enabled, .draining, .disabled, .lost] →
      let s := setCtl glueFab partGlue { state := st }
      siteKind partGlue = 4 ∧ fabricRuns (advance s (glueOf s partGlue).nextFc) = true ∧ unitHeld (advance s (glueOf s partGlue).nextFc) partGlue = false ∧ unitUsed (advance s (glueOf s partGlue).nextFc) partGlue = true ∧ unitState s partGlue = st) := by
  refine ⟨?_, by decide +kernel⟩
  intro d n h
  simp only [List.mem_cons, Prod.mk.injEq, List.not_mem_nil, or_false] at h
  rcases h with ⟨rfl, rfl⟩ | ⟨rfl, rfl⟩ | ⟨rfl, rfl⟩ <;> decide +kernel

/-- A beat with its CRC. -/
def goodBeat : Beat := ⟨0x3F80, sideOf 0 5 3 true false ||| 446⟩

theorem bitsDown_add (a b x : Nat) : bitsDown (a + b) x = bitsDown a (x >>> b) ++ bitsDown b x := by
  induction a with
  | zero => simp [bitsDown]
  | succ a ih => rw [show a + 1 + b = (a + b) + 1 by omega]; simp [bitsDown, Nat.testBit_shiftRight, Nat.add_comm b a, ih]

theorem crcBits_append (w p c : Nat) (l m : List Bool) : crcBits w p c (l ++ m) = crcBits w p (crcBits w p c l) m := List.foldl_append ..

theorem crc9_halves (d : BitVec 512) (x : BitVec 32) (h l : Nat) (eh : d.toNat >>> 256 = h) (el : d.toNat = l) :
    crc9 d x = crcBits 9 0x139 (crcBits 9 0x139 (crcBits 9 0x139 0x1FF (bitsDown 256 h)) (bitsDown 256 l)) (bitsDown 23 (x.toNat / 2 ^ 9)) := by
  have e : bitsDown 512 d.toNat = bitsDown 256 (d.toNat >>> 256) ++ bitsDown 256 d.toNat := bitsDown_add 256 256 _
  unfold crc9; rw [e, crcBits_append, eh, el]

theorem goodBeat_crc : crc9 goodBeat.data goodBeat.side = bCrc goodBeat := by
  have h2 : crcBits 9 0x139 0x1FF (bitsDown 256 0) = 199 := by decide +kernel
  have h3 : crcBits 9 0x139 199 (bitsDown 256 0x3F80) = 368 := by decide +kernel
  have h4 : crcBits 9 0x139 368 (bitsDown 23 (goodBeat.side.toNat / 2 ^ 9)) = bCrc goodBeat := by decide +kernel
  rw [crc9_halves _ _ 0 0x3F80 (by decide +kernel) (by decide +kernel), h2, h3, h4]

/-- Output 0 of the glue block leads to its input 1; what is under way on the link is this. -/
def partLink (l : Link) (out : List OutBeat) (l1 : List Beat) : State :=
  { glueFab with fabric := { glueFab.fabric with links := [(⟨partGlue, 0⟩, l)], outQs := [(⟨partGlue, 0⟩, out)], inBufs := [(⟨partGlue, 1⟩, l1)] } }

def voidBeat : Beat := ⟨BitVec.ofNat 512 (7 + 2 ^ 32 + 100 * 2 ^ 64), sideOf tyTack 0 3 false false⟩

def siteS : Site := siteOf 3 0 0 0 0

def path0 : LinkPath := ⟨⟨partGlue, 1⟩, [(siteOf 10 0 7 0 0, 39)], [], []⟩

theorem witness_BeatsAndCreditsMoveOnLinks :
    (let s := partLink { free := 4, depth := 4 } [{ beat := dataBeat }] []
     let e : EndPoint := ⟨partGlue, 0⟩
     siteKind e.site ≠ 8 ∧ outQ s e = [{ beat := dataBeat }] ∧ maySend (advance s 0) e = true ∧ unitMuted (advance s 0) e.site = false ∧
      linkDead (advance s 0) (linkPaths (advance s 0) e) = false ∧ formsNoToken dataBeat = false) ∧
    (let f : Flight := { consumer := ⟨partGlue, 1⟩, beat := goodBeat, arrives := 90 }
     let l : Link := { free := 3, depth := 4, flights := [f] }
     let s := partLink l [] []
     let e : EndPoint := ⟨partGlue, 1⟩
     linkProducer s e = some ⟨partGlue, 0⟩ ∧ linkAt s ⟨partGlue, 0⟩ = some l ∧
      (linkPaths s ⟨partGlue, 0⟩).find? (fun q => q.consumer = e) = some ⟨e, [(siteOf 10 0 7 0 0, 39)], [], []⟩ ∧
      l.flights.find? (fun f => f.consumer == e) = some f ∧ fabricRuns (advance s 90) = true ∧ path0.boxes.any (fun b => inProof s b.1) = false ∧ s.lostBoxes = [] ∧
      lostAt s f = none ∧ bType f.beat < 5 ∧ f.beat ≠ noToken ∧ fifoAt f 0 = none ∧ siteKind e.site = 4 ∧ (inBuf s e).length < bufDepth s e l ∧
      discardsAt s e (bStream f.beat) = []) ∧
    beatFault goodBeat = none ∧ (5 ≤ bType (upsetBeat goodBeat (2 ^ 540 + 2 ^ 542)) ∧ upsetBeat goodBeat (2 ^ 540 + 2 ^ 542) ≠ noToken) ∧
    (let c : CreditFlight := ⟨⟨partGlue, 1⟩, 90⟩
     let l : Link := { free := 2, depth := 4, credits := [⟨⟨partGlue, 1⟩, 91⟩, c] }
     let s := partLink l [] []
     linkAt s ⟨partGlue, 0⟩ = some l ∧ linkPaths s ⟨partGlue, 0⟩ = [path0] ∧ l.free < l.depth ∧
      ([c].foldl (fun m c => if c.arrives < m.arrives then c else m) ⟨⟨partGlue, 1⟩, 91⟩) = c ∧
      (linkPaths s ⟨partGlue, 0⟩).any (fun q => q.consumer == c.consumer && q.boxes.any (fun b => inProof s b.1)) = false ∧ path0.consumer = c.consumer ∧
      fabricRuns (advance s 90) = true) ∧
    (∀ u, u = siteE0 ∨ u = siteS →
      let s := { partFab [] with fabric := { part.fabric with inBufs := [(⟨u, 0⟩, [voidBeat])] } }
      (inBuf s ⟨u, 0⟩).find? (fun b => isVoidTack b && bStream b == 3) = some voidBeat ∧ fabricRuns s = true ∧ unitHeld s u = false ∧
        (siteKind u ≤ 2 ∨ siteKind u = 3)) ∧
    (let s := { partFab [] with fabric := { part.fabric with inBufs := [(egressEnd 3, [voidBeat])] } }
     siteKind (egressEnd 3).site = 7 ∧ (inBuf s (egressEnd 3)).find? (fun b => isVoidTack b && bStream b == 3) = some voidBeat ∧
      (inBuf s (egressEnd 3)).head? = some voidBeat ∧ fabricRuns s = true) := by
  have g : beatFault goodBeat = none := by
    unfold beatFault
    rw [if_neg (by decide +kernel), if_neg (fun h => h goodBeat_crc), if_neg (by decide +kernel)]
  refine ⟨by decide +kernel, by decide +kernel, g, by decide +kernel, by decide +kernel, ?_, by decide +kernel⟩
  rintro u (rfl | rfl) <;> decide +kernel

def segment0 : Site := siteOf 9 0 0 0 0

theorem witness_DamageToTheConfigurationIsMended :
    (sitePresent siteE0 = true ∧ asleep part siteE0 = false ∧ part.hal.hoists.length = 4 ∧ (partHal (fun h => { h with active := some 0 })).hal.active = some 0 ∧ siteKind siteE0 ≠ 10) ∧
    (let s := partHal (fun h => { h with hoists := [{ damaged := [(siteE0, 4)] }, {}, {}, {}] })
     s.hal.hoists.length = 4 ∧ (hoistOf s 0).damaged.any (fun d => d.1 == siteE0) = true) ∧
    (siteKind segment0 = 9 ∧ sitePresent segment0 = true ∧ fabricRuns (partFab []) = true ∧ (partFab []).hal.active = some 0 ∧
      amGet (partFab []).fabric.contention segment0 = none) ∧
    (∀ r n, (r, n) ∈ [((none : Option Fc), 0), (some 0, 65536), (some 0, 65537)] →
      let s := { partFab [] with now := n, fabric := { part.fabric with contention := [(segment0, { recoveredAt := r, dead := false })] } }
      amGet s.fabric.contention segment0 = some { recoveredAt := r, dead := false } ∧ Contention.dead { recoveredAt := r, dead := false } = false ∧
        fabricRuns s = true ∧ s.hal.active = some 0) := by
  refine ⟨by decide +kernel, by decide +kernel, by decide +kernel, ?_⟩
  intro r n h
  simp only [List.mem_cons, Prod.mk.injEq, List.not_mem_nil, or_false] at h
  rcases h with ⟨rfl, rfl⟩ | ⟨rfl, rfl⟩ | ⟨rfl, rfl⟩ <;> decide +kernel

/-- A steering unit of this operation: input 0, output 1, pennants on port 2, spill out 3 and in 4; one skew queue of stream 3 with two entries. -/
def steerWords (op : Nat) : List Dword :=
  [usedPort 4, usedPort 4, usedPort 4, usedPort 4, usedPort 4, 0, 0, 0,
   BitVec.ofNat 32 (1 + 2 * op + 2 * 2 ^ 10 + 2 ^ 13 + 1 * 2 ^ 16 + 2 * 2 ^ 18 + 1 * 2 ^ 20 + 2 * 2 ^ 22 + 1 * 2 ^ 24),
   BitVec.ofNat 32 (10 + 3 * 2 ^ 5 + 4 * 2 ^ 8 + 9 * 2 ^ 20), 0, BitVec.ofNat 32 (1 + 3 * 2 ^ 4 + 1 * 2 ^ 18)]

def partS (op : Nat) (x : SteeringUnit) (port : Nat) (l : List Beat) : State :=
  { partFab [(siteS, steerWords op), (siteOf 10 0 0 0 0, boxWords [(36, 0x2B)])] with
    steer := [(siteS, x)]
    fabric := { part.fabric with inBufs := [(⟨siteS, port⟩, l)], headTack := [((⟨siteS, 2⟩, 3), 7)] } }

def pennantBeat : Beat := ⟨BitVec.ofNat 512 (5 + 2 ^ 17), sideOf tyPennant 0 3 false false⟩

theorem witness_SteeringUnitsQueueAndSend :
    (let s := partS 2 {} 0 [dataBeat]
     let d : SkewDesc := ⟨0, 0, 3, 0, 1⟩
     amGetD (steerOf s siteS).portFc 0 0 = 0 ∧ siteKind siteS = 3 ∧ tileSees (advance s 0) siteS = true ∧ steerRefuses (advance s 0) siteS dataBeat = false ∧
      (advance s 0).now = s.now ∧ (steerIns s siteS).contains 0 = true ∧ skewPick s siteS 0 = some dataBeat ∧
      (takeBeat s ⟨siteS, 0⟩ (fun x => x == dataBeat)).isSome = true ∧ bType dataBeat ≠ tyMarker ∧ unitState s siteS = .enabled ∧
      unitWorks s siteS = true ∧ skewFor s siteS 0 dataBeat = some d ∧ steerOp s siteS = 2 ∧ unpairedRuns (steerOf s siteS) 0 = 0) ∧
    (let s := partS 4 {} 0 [dataBeat]
     steerOp s siteS = 4 ∧ bType dataBeat ≠ tyPennant ∧ skewPick s siteS 0 = some dataBeat ∧ (steerIns s siteS).contains 0 = true ∧
      (steerOf s siteS).runs = [] ∧ pennantDue s siteS dataBeat (movedFrame s ⟨siteS, 0⟩ dataBeat) = false) ∧
    (let s := partS 4 {} 2 [pennantBeat]
     steerActs s siteS = true ∧ steerOp s siteS = 4 ∧ 2 = pennantPort s siteS ∧ (inBuf s ⟨siteS, 2⟩).head? = some pennantBeat ∧
      (takeBeat s ⟨siteS, 2⟩ (fun x => x == pennantBeat)).isSome = true ∧ bType pennantBeat = tyPennant ∧
      headFrame s ⟨siteS, 2⟩ (bStream pennantBeat) = some 7 ∧ pennantOk s siteS pennantBeat = true ∧ (steerOf s siteS).pennants = [] ∧
      (steerOf s siteS).runs = [] ∧ unpairedPennants (steerOf s siteS) 2 < 4) ∧
    (let s := partS 4 {} 0 [tackBeat]
     steerActs s siteS = true ∧ 0 ≠ pennantPort s siteS ∧
      (inBuf s ⟨siteS, 0⟩).find? (fun b => bStream b == 3 && decide (bType b ≤ 2)) = some tackBeat ∧ isOpenTack tackBeat = true ∧
      steerRefuses s siteS tackBeat = false ∧ bindStopped s siteS = false) ∧
    (let s := partS 4 {} 2 [tackBeat]
     steerActs s siteS = true ∧ pennantPort s siteS = 2 ∧
      (inBuf s ⟨siteS, 2⟩).find? (fun b => bStream b == 3 && decide (bType b ≤ 2)) = some tackBeat ∧ isOpenTack tackBeat = true ∧
      steerRefuses s siteS tackBeat = false ∧ bindStopped s siteS = false ∧
      (takeBeat (settleItems s siteS 2 3 (tackFrame tackBeat)) ⟨siteS, 2⟩ (fun x => x == tackBeat)).isSome = true) ∧
    (let s := partS 2 { queues := [(0, { beats := [⟨dataBeat, 0, 7⟩] })], frames := [(3, 7)] } 0 []
     let d : SkewDesc := ⟨0, 0, 3, 0, 1⟩
     let p : SteerPlan := ⟨[0], [1], none, false⟩
     let planOf (k : Nat) : Option (SkewDesc × SteerPlan) :=
       ((skewDescs s siteS).find? (fun d => d.idx == k)).bind (fun d => (steerPlan s siteS d).map (fun p => (d, p)))
     (steerOuts s siteS).contains 1 = true ∧
      nextRound (steerOf s siteS).lastQueue 16 (fun k => (planOf k).any (fun x => planReady s siteS 1 x.1 x.2)) = some 0 ∧
      (planOf 0).map Prod.fst = some d ∧ (planOf 0).map (fun q => (q.2.pops, q.2.outs, q.2.fail)) = some (p.pops, p.outs, p.fail) ∧
      headAt (steerOf s siteS) 0 = some dataBeat ∧ fabricRuns (advance s (2 ^ steerWatch s siteS)) = true ∧ 10 ≤ steerWatch s siteS ∧ steerHolds s siteS = true) := by
  refine ⟨?_, ?_, ?_, ?_, ?_, ?_⟩ <;> decide +kernel

theorem witness_ElasticSpillWritesAndRefills :
    (∀ q, q ∈ [({ spill := .spilling } : SkewQueue), { beats := [⟨dataBeat, 0, 7⟩, ⟨dataBeat, 1, 7⟩] }] →
      let s := partS 2 { queues := [(0, q)] } 0 [dataBeat]
      let d : SkewDesc := ⟨0, 0, 3, 0, 1⟩
      steerActs s siteS = true ∧ spillOn s siteS = true ∧ skewDescOf (cfgDw s siteS) 0 = some d ∧ amGetD (steerOf s siteS).portFc 0 0 = 0 ∧
        spillPick (advance s 0) siteS d = some dataBeat ∧ fabricRuns (advance s 0) = true ∧
        (takeBeat (advance s 0) ⟨siteS, d.input⟩ (fun x => x == dataBeat)).isSome = true ∧ steerRefuses s siteS dataBeat = false ∧ skewOf (steerOf s siteS) 0 = q) ∧
    (let q : SkewQueue := { spill := .spilling, subWp := 1, subFrames := [some 7], run := [dataBeat] }
     let s := partS 2 { queues := [(0, q)] } 0 []
     let d : SkewDesc := ⟨0, 0, 3, 0, 1⟩
     steerActs s siteS = true ∧ spillOn s siteS = true ∧ skewDescOf (cfgDw s siteS) 0 = some d ∧ spillPick (advance s 0) siteS d = none ∧
      (skewOf (steerOf s siteS) 0).run = [dataBeat] ∧ reaches s 2 = true) ∧
    (let s := partS 2 { queues := [(0, { spill := .spilling, subWp := 1, subFrames := [none] })] } 0 []
     (settleSpill (2 ^ subLog2 s siteS) (skewOf (steerOf s siteS) 0)).spill = .direct ∧ skewDescOf (cfgDw s siteS) 0 = some ⟨0, 0, 3, 0, 1⟩) ∧
    (let q : SkewQueue := { spill := .spilling, subWp := 1, subFrames := [some 7] }
     let s := partS 2 { queues := [(0, q)] } 0 []
     let d : SkewDesc := ⟨0, 0, 3, 0, 1⟩
     let n := min 16 (min (subCount s siteS q - q.run.length) (2 ^ subLog2 s siteS - q.subRp % 2 ^ subLog2 s siteS))
     skewDescOf (cfgDw s siteS) 0 = some d ∧ settleSpill (2 ^ subLog2 s siteS) (skewOf (steerOf s siteS) 0) = q ∧ q.reading = none ∧ q.voidRead = false ∧ 0 < n ∧
      min 16 (subCount s siteS q) ≤ 2 ^ d.log2 - q.beats.length) ∧
    (let s := partS 2 { refill := some (0, 1, 0) } 4 [dataBeat]
     steerActs s siteS = true ∧ spillOn s siteS = true ∧ refillQueue s siteS = some 0) := by
  refine ⟨?_, ?_, ?_, ?_, ?_⟩ <;> decide +kernel

def siteP : Site := siteOf 5 0 0 0 0

/-- The dword 1 of a used queue of a mode, with sixteen own entries and a read limit of 32. -/
def queueWord (mode : Nat) : Dword := BitVec.ofNat 32 (1 + 2 * mode + 4 * 2 ^ 3 + 31 * 2 ^ 18)

/-- A program of a header and these words. -/
def prog (l : List (List Dword)) : StoredProgram := { dir := 0, first := 0, code := [0, 0, 0, 0] :: l, hoists := [0], image := 1, number := 0 }

/-- The part whose memory port 0 has queue 0 in this mode and state, its output leading to tile E(0,3,0) and its input led to by it, running this program. -/
def partQ (mode : Nat) (x : MemQueue) (code : List (List Dword)) (l : List Beat) : State :=
  let s := partFab [(siteP, [usedPort 4, queueWord mode, 0, 0]), (siteF, tileWords 0x901 [5]), (siteOf 10 0 3 0 0, boxWords [(36, 0x2A), (38, 0x29)])]
  { s with
    hal := { s.hal with images := [{ image1 with imageBase := 0x1000, imageSize := 0x1000, elasticBase := 0x4000, elasticSize := 0x1000 }] }
    feed := { part.feed with queues := [(0, x)], programs := [prog code] }
    fabric := { part.fabric with inBufs := [(⟨siteP, 0⟩, l)] } }

def runWords : List (List Dword) := [[0x04, 0, 0, 0]]

def runGen : Generator := { startedGen with bases := [0x1000, 0, 0, 0], dims := [(1, 0), (1, 0), (1, 0), (1, 0)] }

theorem witness_GeneratorsYieldAndQueuesRead :
    (let s := partQ 0 { gen := runGen } runWords []
     portSlot s (0 / 8) = 0 ∧ (advance s 0).now = s.now ∧ (genNext (queueOf s 0).gen (codeOf s 0)).isSome = true ∧ queueMode s 0 ≤ 1 ∧
      s.feed.channels.length = 32 ∧ queueActs s 0 = true ∧ queueMode s 0 = 0 ∧ queueRoom s 0 = true ∧ readsOut (queueOf s 0) < queueLimit s 0 ∧
      regulatorOpen s 0 = true ∧ readWanted s 0 = true ∧ (nextRead s 0).map (fun r => (r.1, r.2.2)) = some (0x1000, 0) ∧ mayAccess s 0 false 0x1000 = true ∧
      cacheHit s 0x1000 = false ∧ (genRun (queueOf s 0).gen (codeOf s 0)).isSome = true ∧ (queueOf s 0).gen.stalled = false) ∧
    (∀ w r, (w, r) ∈ [([0x02, 0, 0, 0], GenEvent.none), ([(0x00 : Dword), 0, 0, 0], GenEvent.done)] →
      let s := partQ 0 { gen := runGen } [w] []
      queueActs s 0 = true ∧ queueMode s 0 ≤ 2 ∧ (queueOf s 0).gen.state = .running ∧ programSound s 0 = true ∧ (queueOf s 0).gen.stalled = false ∧
        lget (codeOf s 0) (queueOf s 0).gen.pc [] = w ∧ w ≠ [] ∧ insOp w ≠ 0x04 ∧ (genExec (queueOf s 0).gen w).2 = r) ∧
    (let s := partQ 0 { gen := { runGen with dims := [(0, 0), (1, 0), (1, 0), (1, 0)] } } runWords []
     queueActs s 0 = true ∧ queueMode s 0 ≤ 2 ∧ (queueOf s 0).gen.stalled = false ∧ programSound s 0 = true ∧
      (genRun (queueOf s 0).gen (codeOf s 0)).map (fun r => runLength r.dims) = some 0) ∧
    (let s := partQ 2 { gen := { runGen with state := .frameWait } } runWords [tackBeat]
     queueActs s 0 = true ∧ queueMode s 0 = 2 ∧ (queueOf s 0).gen.state = .frameWait ∧ (inBuf s (queueEnd 0)).head? = some tackBeat ∧
      isOpenTack tackBeat = true ∧ (queueOf s 0).seg.stream = none) := by
  refine ⟨by decide +kernel, ?_, by decide +kernel, by decide +kernel⟩
  intro w r h
  simp only [List.mem_cons, Prod.mk.injEq, List.not_mem_nil, or_false] at h
  rcases h with ⟨rfl, rfl⟩ | ⟨rfl, rfl⟩ <;> decide +kernel

theorem witness_ReadsReturnAndFetchesAreGranted :
    (let r : MemReq := { queue := 0, entry := 0, dpa := 0x1000, write := none, deadline := 5, background := true, entered := 0 }
     let s := { partQ 0 {} runWords [] with feed := { part.feed with channels := part.feed.channels.set 0 { requests := [r] } } }
     s.feed.channels.length = 32 ∧ 0 < Config.channels ∧ (channelOf s 0).state ≠ .retraining ∧ s.hal.stopped = false ∧ (channelOf s 0).requests = [r] ∧
      (channelOf s 0).owed = false ∧ s.feed.jobs = [] ∧ reaches s (slotFc (nextSlot s (channelOf s 0))) = true ∧ r.queue < jobQueue ∧
      burstPick s 1 false = none) ∧
    (∀ b, let e : QEntry := { num := 4, dpa := 0x1000, cached := b }
      let s := partQ 0 { entries := [e], issued := 5 } runWords []
      (queueOf s 0).entries.find? (fun x => x.num == 4) = some e ∧ e.filled = false ∧ e.cached = b ∧ reaches s e.due = true ∧
        (queueOf s 0).entries.find? (fun x => x.num == 3) = none) ∧
    (let s := { partQ 0 {} runWords [] with
       feed := { part.feed with queues := [(0, { entries := [{ num := 0, dpa := 0x1000 }], issued := 1 })], channels := part.feed.channels.set 0 { inFlight := [(0, 0, 0x1000)] } } }
     (List.range Config.channels).findSome? (fun c => ((channelOf s c).inFlight.find? (fun r => r.1 == 0 && r.2.1 == 0)).map (fun r => (c, r))) =
       some (0, (0, 0, 0x1000)) ∧ (channelOf s (channelOfDpa 0x1000)).state ≠ .lost ∧ poisoned s 0x1000 = false) ∧
    (let g : Grant := { tile := siteF, slot := 0, stream := 3, frame := 7, count := 1, left := 1, number := 0, due := 9 }
     let s := partQ 0 { fetchOffers := [g] } runWords []
     (queueOf s 0).fetchOffers = [g] ∧ fabricRuns (advance s g.due) = true ∧ unitHeld s (portSite (0 / 8) 0) = false ∧ unitState s (portSite (0 / 8) 0) = .enabled ∧
      (queueOf s 0).grants.length < 8 ∧ (queueOf s 0).leaving = none) ∧
    (let g : Grant := { tile := siteF, slot := 0, stream := 3, frame := 7, count := 1, left := 1, number := 0, due := 9 }
     let s := partQ 0 { fetchOffers := [g], grants := List.replicate 8 g } runWords []
     (queueOf s 0).fetchOffers = [g] ∧ fabricRuns (advance s g.due) = true ∧ 8 ≤ (queueOf s 0).grants.length) ∧
    (jobRequests (addJob part .copy false 0 64) 0).length = 1 ∧ (channelOf (addJob part .copy false 0 64) 0).requests = [] ∧
    ((jobRequests (addJob part .copy false 0 64) 0).all (fun r => decide (jobQueue ≤ r.queue))) = true := by decide +kernel

/-- A bank that is ready whatever the draw: a hypothesis on the open values of Config that burstPick rests on. -/
theorem witness_ReadsReturnAndFetchesAreGranted_burst (h : ∀ c d n, Config.bankReady c d n = true) (s : State) (c : Nat) (r : MemReq)
    (one : (channelOf s c).requests = [r]) (none_ : s.feed.jobs = []) : burstPick s c false = some r := by
  simp [burstPick, jobRequests, h, one, none_]

theorem witness_ReadsReturnAndFetchesAreGranted_job (h : ∀ c d n, Config.bankReady c d n = true) (s : State) (c : Nat) (r : MemReq)
    (one : jobRequests s c = [r]) (none_ : (channelOf s c).requests = []) : burstPick s c false = some r := by
  simp [burstPick, one, h, none_]

theorem witness_QueuesSendAndWriteTheirBeats :
    (∀ m, m = 0 ∨ m = 1 →
      let e : QEntry := { num := 0, dpa := 0x1000, filled := true }
      let s := partQ m { entries := [e], grants := [{ tile := siteF, slot := 0, stream := 3, frame := 7, count := 1, left := 1, number := 0 }] } runWords []
      queueServes s 0 = true ∧ discardEnd (queueOf s 0) = 0 ∧ (queueOf s 0).entries.head? = some e ∧ e.filled = true ∧ e.range = false ∧ e.bad = false ∧ e.segLine = 0 ∧ e.dropCode = none ∧ queueCredit s 0 = true ∧ queueMode s 0 = m ∧
        ((queueOf s 0).grants.head?.map (·.discard)) = some false) ∧
    (∀ n, n = 0 ∨ n = 1 →
      let e : QEntry := { num := 0, dpa := 0x1000, filled := true, segLine := n, dropCode := some 0x0721, data := BitVec.ofNat 512 0x4B43_4154 }
      let s := partQ 1 { entries := [e] } runWords []
      queueServes s 0 = true ∧ (queueOf s 0).entries.head? = some e ∧ e.range = false ∧ e.bad = false ∧ queueCredit s 0 = true ∧
        (segTackOf e.data).isSome = true) ∧
    (let s := { partFab [(siteP, [usedPort 4, queueWord 1, 16, 0]), (siteF, tileWords 0x901 [5]), (siteOf 10 0 3 0 0, boxWords [(36, 0x2A), (38, 0x29)])] with
       hal := { (partFab [(siteP, [usedPort 4, queueWord 1, 16, 0]), (siteF, tileWords 0x901 [5]), (siteOf 10 0 3 0 0, boxWords [(36, 0x2A), (38, 0x29)])]).hal with
         proof := { state := .proof, site := siteP } } }
     queueMode s 0 = 1 ∧ queueServes s 0 = false ∧ proofMisses s 0 = true ∧ queueCredit s 0 = true) ∧
    (let s := partQ 0 { grants := [{ tile := siteF, slot := 0, stream := 3, frame := 7, count := 1, left := 1, number := 0 }] } runWords []
     queueServes s 0 = true ∧ (queueOf s 0).entries = [] ∧ queueMode s 0 = 0) ∧
    (let s := partQ 2 { gen := runGen } runWords [tackBeat]
     portSlot s (0 / 8) = 0 ∧ (queueOf s 0).voidOwed = none ∧ segmentCut (queueOf s 0) tackBeat = false ∧
      queueActs (advance s 0) 0 = true ∧ queueMode s 0 = 2 ∧ (inBuf s (queueEnd 0)).head? = some tackBeat ∧ unitState s (queueEnd 0).site = .enabled ∧
      (queueOf s 0).seg.stream = none ∧ streamOutReady s 0 tackBeat = true ∧ queueRoom s 0 = true ∧ regulatorOpen s 0 = true ∧
      (takeBeat (advance s 0) (queueEnd 0) (fun _ => true)).isSome = true) ∧
    (let w : OwedLine := ⟨0x1000, 7, tackBeat⟩
     let s := partQ 2 { gen := runGen, voidOwed := some w } runWords []
     portSlot s (0 / 8) = 0 ∧ fabricRuns s = true ∧ unitHeld s (queueEnd 0).site = false ∧ 0 / 8 < Config.memPorts ∧ (queueOf s 0).voidOwed = some w ∧
      queueRoom s 0 = true ∧ regulatorOpen s 0 = true) ∧
    (let s := partQ 3 { spillWrite := some (0x4000, 2) } [] [dataBeat]
     portSlot s (0 / 8) = 0 ∧ (queueOf s 0).spillDrop = [] ∧ unitState s (queueSite 0) = .enabled ∧ writeBufferFull s 0x4000 = false ∧
      queueActs (advance s 0) 0 = true ∧ queueMode s 0 = 3 ∧ (inBuf s (queueEnd 0)).head? = some dataBeat ∧ bType dataBeat ≠ tyMarker ∧
      (queueOf s 0).spillWrite = some (0x4000, 2) ∧ queueRoom s 0 = true ∧ regulatorOpen s 0 = true ∧
      (takeBeat (advance s 0) (queueEnd 0) (fun _ => true)).isSome = true ∧ mayAccess s 3 true 0x4000 = true ∧ (channelOf s (channelOfDpa 0x4000)).state ≠ .lost) ∧
    (let k : Beat := ⟨BitVec.ofNat 512 (siteS.toNat + 2 ^ 40 + 0x4000 * 2 ^ 64), sideOf tyMarker 0 3 false false⟩
     let s := partQ 3 {} [] [k]
     (inBuf s (queueEnd 0)).head? = some k ∧ bType k = tyMarker ∧ markDir k = 0 ∧ queueActs s 0 = true ∧ queueMode s 0 = 3 ∧ (takeBeat (advance s 0) (queueEnd 0) (fun _ => true)).isSome = true) ∧
    (let k : Beat := ⟨BitVec.ofNat 512 (siteS.toNat + 2 ^ 36 + 2 ^ 40 + 0x4000 * 2 ^ 64), sideOf tyMarker 0 3 false false⟩
     let s := partQ 3 {} [] [k]
     queueServes s 0 = true ∧ queueActs s 0 = true ∧ queueMode s 0 = 3 ∧ (inBuf s (queueEnd 0)).head? = some k ∧ bType k = tyMarker ∧ markDir k = 1 ∧
      (queueOf s 0).requests.length < 16 ∧ ((takeBeat s (queueEnd 0) (fun _ => true)).map (fun r => (queueOf r.2 0).entries)) = some []) ∧
    (let r : SpillReq := { site := siteS, queue := 0, stream := 3, count := 1, addr := 0x4000, issued := 1 }
     let e : QEntry := { num := 0, dpa := 0x4000, filled := true }
     let s := partQ 3 { requests := [r], entries := [e] } [] []
     queueServes s 0 = true ∧ queueMode s 0 = 3 ∧ inBuf s (queueEnd 0) = [] ∧ (queueOf s 0).requests.head? = some r ∧
      (queueOf s 0).entries.head? = some e ∧ e.filled = true ∧ e.range = false ∧ e.bad = false ∧ queueCredit s 0 = true) := by
  refine ⟨?_, ?_, by decide +kernel, by decide +kernel, by decide +kernel, by decide +kernel, by decide +kernel, by decide +kernel, by decide +kernel, by decide +kernel⟩
  · rintro m (rfl | rfl) <;> decide +kernel
  · rintro n (rfl | rfl) <;> decide +kernel

def channel31 : Site := channelSite 15

theorem witness_ChannelsAreMaintained :
    (let s := { part with feed := { part.feed with channels := part.feed.channels.set 0 { trained := some 5, needsTraining := true } } }
     s.feed.channels.length = 32 ∧ 0 < Config.channels ∧ (channelOf s 0).state = .serving ∧ (channelOf s 0).trained = some 5 ∧
      (channelOf part 0).trained = none ∧ wantsTraining s 0 = true ∧ anyRetraining s = false ∧ s.hal.halt = .running ∧ (List.range 0).any (wantsTraining s) = false ∧
      reaches s (zqPeriod * 1) = true ∧ reaches s (oscPeriod * 1) = true ∧ reaches s (patrolPeriod * 1) = true) ∧
    (let s := { part with feed := { part.feed with channels := part.feed.channels.set 0 { state := .retraining, secondWindow := true } } }
     (channelOf s 0).state = .retraining ∧ (channelOf s 0).secondWindow = true) ∧
    (let c := cmd 0x31 [channel31]
     pktOnly c.pkt [(2, 0xFFFFFFFF)] = true ∧ siteAbsent (pktDw c.pkt 2) = false ∧ Ready 0x31 0 part c ∧ Room part c ∧ siteKind (pktDw c.pkt 2) = 11 ∧
      sitePresent (pktDw c.pkt 2) = true ∧ (channelOf (begun part c) (siteSub (pktDw c.pkt 2))).state ≠ .lost ∧
      calibrating (begun part c) (siteSub (pktDw c.pkt 2)) = false ∧ isPending (begun part c) (fun k => k == .calibrateAll) = false) ∧
    (let c := cmd 0x31 [allChannels]
     pktOnly c.pkt [(2, 0xFFFFFFFF)] = true ∧ siteAbsent (pktDw c.pkt 2) = false ∧ Ready 0x31 1 part c ∧ Room part c ∧ anyCalibrate (begun part c) = false ∧
      (List.range Config.channels).find? (fun k => (channelOf (begun part c) k).state == .serving) = some 0) ∧
    (let c := cmd 0x31 [laneSite 31]
     pktOnly c.pkt [(2, 0xFFFFFFFF)] = true ∧ siteAbsent (pktDw c.pkt 2) = false ∧ Ready 0x31 2 part c ∧ sitePresent (pktDw c.pkt 2) = true) ∧
    (let s := { part with feed := { part.feed with programs := [prog runWords], rewriting := [0] } }
     programAt s 3 = some (prog runWords) ∧ (prog runWords).dir ∈ s.feed.rewriting) ∧
    (let s := { partFab [] with feed := { part.feed with edges := [(1, 2, 0, 5), (2, 1, 0, 9), (3, 4, 0, 11), (4, 3, 0, 12)] } }
     let edges : List (Nat × Nat × Nat × Fc) := [(1, 2, 0, 5), (2, 1, 0, 9)]
     firstCycle s.feed.edges = some ((2, 1, 0, 9), edges) ∧ fabricRuns (advance s (9 + 2 ^ max 10 s.feed.cycleWindow)) = true ∧
      cycleVictim (advance s (9 + 2 ^ max 10 s.feed.cycleWindow)) (dedup (edges.map (fun e => e.2.2.1))) (dedup (edges.flatMap (fun e => [e.1, e.2.1]))) = some 2) := by
  refine ⟨?_, ?_, ?_, ?_, ?_, ?_, ?_⟩ <;> decide +kernel

/-- The part with this trace. -/
def partTrace (t : Trace) : State := { part with trace := t }

def rec0 : TraceRec := ⟨100, noSite, noFrame, 0x0024, none, 8, 1, 2, 0⟩

theorem witness_TheTraceIsConfiguredStartedAndReleased :
    (let c := cmd 0x40 [0x1200, 1, 0x1FF, 0xFFFFFFFF]
     let g := traceCfgOf c.pkt
     Ready 0x40 0 part c ∧ pktOnly c.pkt traceMasks = true ∧ dbits (pktDw c.pkt 2) 2 0 = 0 ∧ g.mode = 2 ∧ g.postShare ≠ 0 ∧ g.triggerSrc ≠ 3 ∧ g.privilege ≠ 3 ∧
      g.streams ≠ 0 ∧ dbits (pktDw c.pkt 3) 8 0 = 1 ∧ (begun part c).trace.state = .off ∧ tracePlace (begun part c) 1 = some 0) ∧
    (∀ x, x ∈ [TraceState.ready, .stopped] →
      let s := partTrace { state := x, units := 1 }
      Ready 0x40 1 s (cmd 0x40 [1]) ∧ (begun s (cmd 0x40 [1])).trace.state = x ∧ Ready 0x40 5 s (cmd 0x40 [5]) ∧ (begun s (cmd 0x40 [5])).trace.state = x ∧
      pktOnly (cmd 0x40 [1]).pkt [(2, 7)] = true ∧ pktOnly (cmd 0x40 [5]).pkt [(2, 7)] = true) ∧
    (∀ x, x ∈ [TraceState.ready, .stopped] → ∀ n, n = 0 ∨ n = 1 →
      let s := partTrace { state := x, units := 1 }
      let c := cmd 0x40 [0x1200, n, 0x1FF, 0xFFFFFFFF]
      Ready 0x40 0 s c ∧ pktOnly c.pkt traceMasks = true ∧ dbits (pktDw c.pkt 2) 2 0 = 0 ∧ (begun s c).trace.state = x ∧
        (dbits (pktDw c.pkt 3) 8 0 = 0 ∨ dbits (pktDw c.pkt 3) 8 0 = (begun s c).trace.units)) ∧
    (∀ m, m = 0 ∨ m = 2 → ∀ f, f = true ∨ f = false →
      let s := partTrace { state := .running, units := 1, cfg := { mode := m }, flushing := f }
      Ready 0x40 3 s (cmd 0x40 [3]) ∧ (begun s (cmd 0x40 [3])).trace.state = .running ∧ (begun s (cmd 0x40 [3])).trace.cfg.mode = m ∧
        (begun s (cmd 0x40 [3])).trace.flushing = f) ∧
    (let s := partTrace { state := .running, units := 1, cfg := { mode := 2 } }
     Ready 0x40 2 s (cmd 0x40 [2]) ∧ Room s (cmd 0x40 [2]) ∧ (begun s (cmd 0x40 [2])).trace.state = .running ∧ pktOnly (cmd 0x40 [2]).pkt [(2, 7)] = true ∧
      Ready 0x40 3 s (cmd 0x40 [3]) ∧ (begun s (cmd 0x40 [3])).trace.state = .running ∧ (begun s (cmd 0x40 [3])).trace.cfg.mode = 2 ∧
      (begun s (cmd 0x40 [3])).trace.flushing = false ∧ pktOnly (cmd 0x40 [3]).pkt [(2, 7)] = true ∧
      Ready 0x40 4 s (cmd 0x40 [4, 1, 2]) ∧ (begun s (cmd 0x40 [4, 1, 2])).trace.state ≠ .off ∧
      pktOnly (cmd 0x40 [4, 1, 2]).pkt [(2, 7), (3, 0xFFFFFFFF), (4, 0xFFFFFFFF)] = true) ∧
    (∀ x, x ∈ [TraceState.running, .off] →
      let s := partTrace { state := x, units := 1, flushing := true, nextLine := 40 }
      s.trace.flushing = true ∧ (x = .running → traceWrites s = true) ∧ traceWaits s.trace = false ∧ reaches s s.trace.nextLine = true) ∧
    (let s := partTrace { state := .stopped, units := 1 }
     let c := cmd 0x40 [6, 0x1000, 0, 0x2000, 0x3000]
     Ready 0x40 6 s c ∧ Room s c ∧ pktOnly c.pkt [(2, 7), (3, 0xFFFFFFFF), (4, 0xFFFFFFFF), (5, 0xFFFFFFFF), (6, 0xFFFFFFFF), (7, 0xFFFFFFFF)] = true ∧
      (begun s c).trace.state ≠ .off ∧ pktQ c.pkt 3 % 4096 = 0 ∧ (pktDw c.pkt 5).toNat % 4096 = 0 ∧ pktQ c.pkt 6 % 4096 = 0 ∧
      (pktDw c.pkt 5).toNat ≤ 2 ^ 24 ∧ pktQ c.pkt 3 + (pktDw c.pkt 5).toNat ≤ traceSpan (begun s c).trace.units ∧ traceSpan (begun s c).trace.units ≠ 0) ∧
    ((partTrace { copies := [(0, 4096, 0, 5)] }).trace.copies = [(0, 4096, 0, 5)] ∧
      (partTrace { copies := [(0, 4096, 0, 5)] }).feed.jobs.any (fun j => j.kind == .traceCopy && j.base == 0 && j.entered == 5) = false) := by
  refine ⟨?_, ?_, ?_, ?_, ?_, ?_, ?_, ?_⟩
  case refine_3 => intro x h n k; simp only [List.mem_cons, List.not_mem_nil, or_false] at h; rcases h with rfl | rfl <;> rcases k with rfl | rfl <;> decide +kernel
  case refine_4 => rintro m (rfl | rfl) f (rfl | rfl) <;> decide +kernel
  all_goals decide +kernel

theorem witness_TraceLinesAreStoredAtTheWritePosition :
    (∀ w, w ∈ [0, 229375] →
     let s := partTrace { state := .running, units := 1, wp := w, bufs := List.replicate 8 {} ++ [{ recs := [rec0, rec0, rec0] }] }
     traceWrites s = true ∧ s.trace.trigPending = none ∧ s.trace.nextLine ≤ s.now ∧ nextRound s.trace.lastBuf 9 (traceDue s.trace) = some 8 ∧
      (lget s.trace.bufs 8 {}).recs = rec0 :: rec0 :: [rec0] ∧ (traceLines s.trace ≤ s.trace.wp + 1 ↔ w = 229375)) ∧
    (let s := partTrace { state := .running, units := 1, bufs := List.replicate 8 {} ++ [{ recs := [rec0] }] }
     traceWrites s = true ∧ s.trace.trigPending = none ∧ 8 < 9 ∧ (lget s.trace.bufs 8 {}).recs = [rec0] ∧ reaches s (max ((lget s.trace.bufs 8 {}).aloneSince + 1024) s.trace.nextLine) = true) ∧
    (∀ l, l = [] ∨ l = [rec0] →
      let s := partTrace { state := .running, units := 1, trigPending := some rec0, bufs := List.replicate 8 {} ++ [{ recs := l }] }
      traceWrites s = true ∧ s.trace.nextLine ≤ s.now ∧ nextRound s.trace.lastBuf 9 (traceDue s.trace) = some 8 ∧
        gapRecord 8 (lget s.trace.bufs 8 {}) = []) := by
  refine ⟨by decide +kernel, by decide +kernel, ?_⟩
  rintro l (rfl | rfl) <;> decide +kernel

theorem witness_CountersAreProgrammedSampledAndCleared :
    (let c := cmd 0x41 [0x13F00, 0x01, 0xFFFFFFFF]
     Ready 0x41 0 part c ∧ counterBad c.pkt = false ∧ (begun part c).cnt.progs.length = 64 ∧ dbits (pktDw c.pkt 2) 13 8 = 63) ∧
    (let c := cmd 0x41 [1, 3, 0, 1]
     Ready 0x41 1 part c ∧ pktOnly c.pkt [(2, 7), (3, 0xFFFFFFFF), (4, 0xFFFFFFFF), (5, 0xFFFFFFFF)] = true ∧ namedCounters c.pkt = [0, 1]) ∧
    (let c := cmd 0x41 [2, 3, 0]
     Ready 0x41 2 part c ∧ pktOnly c.pkt [(2, 7), (3, 0xFFFFFFFF), (4, 0xFFFFFFFF)] = true) ∧
    (let c := cmd 0x41 [3]
     Ready 0x41 3 part c ∧ pktOnly c.pkt [(2, 7)] = true) ∧
    (let c := cmd 0x42 [0x30063]
     Ready 0x42 0 part c ∧ dbits (pktDw c.pkt 2) 10 0 < 100 ∧ pagePresent (dbits (pktDw c.pkt 2) 10 0) = true ∧ pktOnly c.pkt [(2, 0x307FF)] = true) ∧
    (pageWritable part true 0 = false ∧ pageWritable part false 0 = true ∧ pageWritable part false 99 = true ∧ part.cnt.progs.length = 64 ∧
      dbit (6 : Dword) 1 = true ∧ dbit (6 : Dword) 2 = true) := by decide +kernel

/-- A codeword that carries a probe and nothing else, the first of its link. -/
def probeCtl : Nat := 2 ^ 87
def probeBody : Nat := probeCtl * 2 ^ 4896
def probeWord : BitVec 5140 := BitVec.ofNat 5140 (probeBody + 12032 * 2 ^ 5124)

theorem bitsDown_low (n c : Nat) : bitsDown n (c * 2 ^ n) = List.replicate n false := by
  have h : ∀ k, k ≤ n → bitsDown k (c * 2 ^ n) = List.replicate k false := by
    intro k
    induction k with
    | zero => intro _; rfl
    | succ k ih => intro hk; rw [bitsDown, ih (by omega), List.replicate_succ, Nat.testBit_mul_two_pow]; simp; omega
  exact h n (Nat.le_refl n)

theorem bitsDown_shifted (w n c : Nat) : bitsDown (w + n) (c * 2 ^ n) = bitsDown w c ++ List.replicate n false := by
  rw [bitsDown_add, bitsDown_low, Nat.shiftRight_eq_div_pow, Nat.mul_div_cancel _ (Nat.two_pow_pos n)]

theorem crc16_probe : crc16 probeBody = 12032 := by
  have e : bitsDown 5124 probeBody = bitsDown 228 probeCtl ++ List.replicate 4896 false := bitsDown_shifted 228 4896 probeCtl
  have h0 : crcBits 16 0x1021 0xFFFF (bitsDown 228 probeCtl) = 57616 := by decide +kernel
  have z0 : crcBits 16 0x1021 57616 (List.replicate 306 false) = 12186 := by decide +kernel
  have z1 : crcBits 16 0x1021 12186 (List.replicate 306 false) = 35279 := by decide +kernel
  have z2 : crcBits 16 0x1021 35279 (List.replicate 306 false) = 28218 := by decide +kernel
  have z3 : crcBits 16 0x1021 28218 (List.replicate 306 false) = 11808 := by decide +kernel
  have z4 : crcBits 16 0x1021 11808 (List.replicate 306 false) = 21908 := by decide +kernel
  have z5 : crcBits 16 0x1021 21908 (List.replicate 306 false) = 13335 := by decide +kernel
  have z6 : crcBits 16 0x1021 13335 (List.replicate 306 false) = 18688 := by decide +kernel
  have z7 : crcBits 16 0x1021 18688 (List.replicate 306 false) = 50296 := by decide +kernel
  have z8 : crcBits 16 0x1021 50296 (List.replicate 306 false) = 21223 := by decide +kernel
  have z9 : crcBits 16 0x1021 21223 (List.replicate 306 false) = 45649 := by decide +kernel
  have z10 : crcBits 16 0x1021 45649 (List.replicate 306 false) = 31598 := by decide +kernel
  have z11 : crcBits 16 0x1021 31598 (List.replicate 306 false) = 273 := by decide +kernel
  have z12 : crcBits 16 0x1021 273 (List.replicate 306 false) = 46718 := by decide +kernel
  have z13 : crcBits 16 0x1021 46718 (List.replicate 306 false) = 54653 := by decide +kernel
  have z14 : crcBits 16 0x1021 54653 (List.replicate 306 false) = 9538 := by decide +kernel
  have z15 : crcBits 16 0x1021 9538 (List.replicate 306 false) = 12032 := by decide +kernel
  have r : ∀ a b c, crcBits 16 0x1021 c (List.replicate (a + b) false) =
      crcBits 16 0x1021 (crcBits 16 0x1021 c (List.replicate a false)) (List.replicate b false) := by
    intro a b c; rw [List.replicate_add, crcBits_append]
  have f14 : crcBits 16 0x1021 54653 (List.replicate 612 false) = 12032 := (r 306 306 54653).trans (by rw [z14]; exact z15)
  have f13 : crcBits 16 0x1021 46718 (List.replicate 918 false) = 12032 := (r 306 612 46718).trans (by rw [z13]; exact f14)
  have f12 : crcBits 16 0x1021 273 (List.replicate 1224 false) = 12032 := (r 306 918 273).trans (by rw [z12]; exact f13)
  have f11 : crcBits 16 0x1021 31598 (List.replicate 1530 false) = 12032 := (r 306 1224 31598).trans (by rw [z11]; exact f12)
  have f10 : crcBits 16 0x1021 45649 (List.replicate 1836 false) = 12032 := (r 306 1530 45649).trans (by rw [z10]; exact f11)
  have f9 : crcBits 16 0x1021 21223 (List.replicate 2142 false) = 12032 := (r 306 1836 21223).trans (by rw [z9]; exact f10)
  have f8 : crcBits 16 0x1021 50296 (List.replicate 2448 false) = 12032 := (r 306 2142 50296).trans (by rw [z8]; exact f9)
  have f7 : crcBits 16 0x1021 18688 (List.replicate 2754 false) = 12032 := (r 306 2448 18688).trans (by rw [z7]; exact f8)
  have f6 : crcBits 16 0x1021 13335 (List.replicate 3060 false) = 12032 := (r 306 2754 13335).trans (by rw [z6]; exact f7)
  have f5 : crcBits 16 0x1021 21908 (List.replicate 3366 false) = 12032 := (r 306 3060 21908).trans (by rw [z5]; exact f6)
  have f4 : crcBits 16 0x1021 11808 (List.replicate 3672 false) = 12032 := (r 306 3366 11808).trans (by rw [z4]; exact f5)
  have f3 : crcBits 16 0x1021 28218 (List.replicate 3978 false) = 12032 := (r 306 3672 28218).trans (by rw [z3]; exact f4)
  have f2 : crcBits 16 0x1021 35279 (List.replicate 4284 false) = 12032 := (r 306 3978 35279).trans (by rw [z2]; exact f3)
  have f1 : crcBits 16 0x1021 12186 (List.replicate 4590 false) = 12032 := (r 306 4284 12186).trans (by rw [z1]; exact f2)
  have f0 : crcBits 16 0x1021 57616 (List.replicate 4896 false) = 12032 := (r 306 4590 57616).trans (by rw [z0]; exact f1)
  unfold crc16; rw [e, crcBits_append, h0]; exact f0

theorem probe_good : codewordGood probeWord = true := by
  have h1 : nbits probeWord.toNat 5139 5124 = 12032 := by decide +kernel
  have h2 : probeWord.toNat % 2 ^ 5124 = probeBody := by decide +kernel
  unfold codewordGood; rw [h1, h2, crc16_probe]; decide +kernel

/-- The part whose span port 7 is this. -/
def partSpan (x : SpanPort) : State := { part with span := part.span.set 7 x }

def kept (n : Nat) : Kept := ⟨n, 0, 10⟩

theorem witness_SpanPortsOpenMeasureAndClose :
    (let s := { part with hal := { part.hal with active := some 0, images := [{ image1 with spanMask := 0x80 }], hoists := [{ state := .active, image := some 1 }, {}, {}, {}] } }
     let c := cmd 0x48 [7, 0x400040, 0x400040]
     Ready 0x48 0 s c ∧ Room s c ∧ (begun s c).span.length = 8 ∧ 7 < Config.spanPorts ∧ dbits (pktDw c.pkt 2) 2 0 = 7 ∧ spanBad c.pkt = false ∧
      spanDeclared (begun s c) 7 = true ∧ (spanOf (begun s c) 7).state = .closed) ∧
    (∀ x, x ∈ [SpanState.closed, .training, .down, .up, .measuring] →
      Ready 0x48 1 (partSpan { state := x }) (cmd 0x48 [0x107, 0, 0]) ∧ Room (partSpan { state := x }) (cmd 0x48 [0x107, 0, 0]) ∧
      (begun (partSpan { state := x }) (cmd 0x48 [0x107, 0, 0])).span.length = 8 ∧ spanBad (cmd 0x48 [0x107, 0, 0]).pkt = false ∧
      (spanOf (begun (partSpan { state := x }) (cmd 0x48 [0x107, 0, 0])) (dbits (pktDw (cmd 0x48 [0x107, 0, 0]).pkt 2) 2 0)).state = x) ∧
    (let s := partSpan { state := .up }
     let c := cmd 0x49 [7]
     Ready 0x49 0 s c ∧ Room s c ∧ pktOnly c.pkt [(2, 0x7)] = true ∧ (spanOf (begun s c) (dbits (pktDw c.pkt 2) 2 0)).state = .up ∧
      (spanOf (begun s c) (dbits (pktDw c.pkt 2) 2 0)).measuring = false) ∧
    (let s := partSpan { state := .closing }
     s.span.length = 8 ∧ 7 < 8 ∧ (spanOf s 7).state = .closing ∧ spanEmpty s 7 = true ∧ (spanOf s 7).replay = [] ∧ haltedNow s = false ∧
      reaches s ((spanOf s 7).closingAt + 10000 * Config.us) = true) ∧
    (let s := partSpan { state := .training }
     s.span.length = 8 ∧ (spanOf s 7).state = .training ∧ (spanOf s 7).state ≠ .closed ∧ reaches s ((spanOf s 7).openedAt + 100000 * Config.us) = true) ∧
    (∀ x, x ∈ [SpanState.up, .training] →
      (partSpan { state := x, lock := [true, true, true, true] }).span.length = 8 ∧
      lget (spanOf (partSpan { state := x, lock := [true, true, true, true] }) 7).lock 3 false = true ∧
      (spanFlows (spanOf (partSpan { state := x, lock := [true, true, true, true] }) 7) = true ↔ x = .up)) := by
  refine ⟨?_, ?_, ?_, ?_, ?_, ?_⟩ <;> decide +kernel

theorem witness_SpanCodewordsAreSentTakenAndSentAgain :
    (let s := partSpan { state := .up, resend := [5], replay := [kept 5] }
     s.span.length = 8 ∧ 7 < Config.spanPorts ∧ (spanOf s 7).state ≠ .down ∧ (spanOf s 7).state ≠ .closed ∧ (spanOf s 7).resend = [5] ∧
      (spanOf s 7).replay.find? (fun k => decide (k.seq = 5)) = some (kept 5)) ∧
    (let s := partSpan { state := .up, replay := List.replicate 2048 (kept 5) }
     (spanOf s 7).state ≠ .down ∧ (spanOf s 7).state ≠ .closed ∧ (spanOf s 7).resend = [] ∧ 2048 ≤ (spanOf s 7).replay.length) ∧
    (let s := partSpan { state := .up }
     (spanOf s 7).state ≠ .down ∧ (spanOf s 7).resend = [] ∧ (spanOf s 7).replay.length < 2048) ∧
    (let s := partSpan { state := .closed, msgs := [{ kind := 4, id := 0, a := 0, b := 0 }] }
     (spanOf s 7).state ≠ .down ∧ (spanOf s 7).msgs ≠ []) ∧
    (∀ n, n = 0 ∨ n = 9 →
      let s := partSpan { state := .up, lock := [true, true, true, true], expected := n }
      s.span.length = 8 ∧ (spanOf s 7).lock.contains false = false ∧ spanFlows (spanOf s 7) = true ∧ isFiller (readCodeword probeWord) = false ∧
      codewordGood probeWord = true ∧ ((readCodeword probeWord).seq = (spanOf s 7).expected ↔ n = 0)) ∧
    (let s := partSpan { state := .up, replay := [kept 5, kept 6], retries := 14 }
     s.span.length = 8 ∧ (spanOf s 7).replay = kept 5 :: [kept 6] ∧ spanFlows (spanOf s 7) = true ∧ (spanOf s 7).resend = [] ∧ (spanOf s 7).retries < 15 ∧
      reaches s ((kept 5).sentAt + spanWait (spanOf s 7)) = true) ∧
    (∀ m, m = true ∨ m = false →
      let q : Probe := { id := 3, t1 := 0, sentAt := 5, measure := m }
      let s := partSpan { state := .up, probes := [q], codewords := 65536 }
      (spanOf s 7).state = .up ∧ (spanOf s 7).probes.find? (fun r => r.id == q.id) = some q ∧ spanFlows (spanOf s 7) = true ∧ q.measure = m ∧
        (spanOf s 7).probeBlock < (spanOf s 7).codewords / 65536 ∧ reaches s (q.sentAt + spanWait (spanOf s 7)) = true) := by
  refine ⟨by decide +kernel, ⟨by decide +kernel, by decide +kernel, rfl, ?_⟩, by decide +kernel, by decide +kernel, ?_, by decide +kernel, ?_⟩
  · show 2048 ≤ (List.replicate 2048 (kept 5)).length
    rw [List.length_replicate]
  · rintro n (rfl | rfl)
    · exact ⟨by decide +kernel, by decide +kernel, by decide +kernel, by decide +kernel, probe_good, by decide +kernel⟩
    · exact ⟨by decide +kernel, by decide +kernel, by decide +kernel, by decide +kernel, probe_good, by decide +kernel⟩
  · rintro m (rfl | rfl) <;> decide +kernel

/-- A package of one line of main firmware, signed by key 5. -/
def pkgBody : List Byte := leBytes 4 0x57465957 ++ [1, 0, 0, 0] ++ leBytes 4 0x20001 ++ leBytes 2 3 ++ leBytes 2 0xFFFF ++ leBytes 8 64 ++ List.replicate 40 0
def pkgFile : List Byte := pkgBody ++ blockWith (sha3512 pkgBody)

theorem length_blockWith (d : BitVec 512) : (blockWith d).length = sigSize := by
  unfold blockWith; simp only [List.length_append, length_leBytes, List.length_replicate]; rfl

/-- The keys of a deployed part: firmware keys 5 and 6, owner 5, image key 3 in slot 0. -/
def partKeys : State :=
  { part with sec := { part.sec with life := .deployed, fwKeys := [some 5, some 6, none, none], ownerKey := some 5, imageKeys := (List.replicate 8 .empty).set 0 (.valid 3), challenge := 0 } }

/-- The first 64 bytes are what the checks before the signature read. -/
def pkgAlt : List Byte := pkgBody ++ List.replicate 4736 0

theorem pkgFile_reads (v : ∀ k d l, Config.mlDsaVerify k d l = true) : ∃ pkg, readPackage partKeys.sec (pkgFile.take 4800) 4800 = .ok pkg := by
  have t : pkgFile.take 4800 = pkgFile := List.take_of_length_le (by unfold pkgFile; rw [List.length_append, length_blockWith]; decide)
  have g : sigFails pkgFile 64 (fwKeyGood partKeys.sec) = none := sigFails_blockWith pkgBody _ (by decide +kernel) v
  have e : ∀ a n, a + n ≤ 64 → (pkgFile.drop a).take n = (pkgBody.drop a).take n := by
    intro a n h
    unfold pkgFile
    rw [List.drop_append_of_le_length (by show a ≤ 64; omega), List.take_append_of_le_length (by rw [List.length_drop]; show n ≤ 64 - a; omega)]
  have l : ∀ a n, a + n ≤ 64 → leAt pkgFile a n = leAt pkgBody a n := fun a n h => by unfold leAt; rw [e a n h]
  rw [t]
  unfold readPackage
  simp only [l _ _ (by decide : 4 + 1 ≤ 64), l _ _ (by decide : 0x10 + 8 ≤ 64), l _ _ (by decide : 0 + 4 ≤ 64), l _ _ (by decide : 0x0C + 2 ≤ 64),
    l _ _ (by decide : 0x0E + 2 ≤ 64), l _ _ (by decide : 8 + 4 ≤ 64), e _ _ (by decide : 5 + 3 ≤ 64), e _ _ (by decide : 0x18 + 40 ≤ 64)]
  rw [show leAt pkgBody 16 8 = 64 by decide, show leAt pkgBody 4 1 = 1 by decide, show leAt pkgBody 0 4 = 0x57465957 by decide,
    show leAt pkgBody 12 2 = 3 by decide, show leAt pkgBody 14 2 = 0xFFFF by decide, show zeroBytes ((pkgBody.drop 5).take 3) = true by decide,
    show zeroBytes ((pkgBody.drop 24).take 40) = true by decide]
  rw [g]
  exact ⟨_, rfl⟩

/-- A part with this firmware swap. -/
def partSwap (w : Swap) : State := { part with sec := { part.sec with swap := some w, staged := part.sec.slotA, staging := part.sec.slotA.toList } }

theorem witness_FirmwareIsStagedAndSwitched :
    (let c := cmd 0x50 [0x1000, 0, 4800]
     Ready 0x50 0 partKeys c ∧ Room partKeys c ∧ pktOnly c.pkt [(2, 0xFFFFFFFF), (3, 0xFFFFFFFF), (4, 0xFFFFFFFF)] = true ∧ pktQ c.pkt 2 % 64 = 0 ∧
      (begun partKeys c).sec.swap = none ∧ hostUp (begun partKeys c) = true ∧ (pktDw c.pkt 4).toNat = 4800) ∧
    (begun partKeys (cmd 0x50 [0x1000, 0, 4800])).sec = partKeys.sec ∧ readPackage partKeys.sec (([] : List Byte).take 4800) 4800 = .error (stBadParam, 0x8F01) ∧
    (∃ pkg, (partSwap { time := 0, raiseFloor := false }).sec.staging = pkg :: []) ∧
    (let s := { part with sec := { part.sec with staged := part.sec.slotA } }
     let c := cmd 0x51 [5000, 0, 1]
     Ready 0x51 0 s c ∧ Room s c ∧ pktOnly c.pkt [(2, 0xFFFFFFFF), (3, 0xFFFFFFFF), (4, 1)] = true ∧ (begun s c).sec.staged ≠ none ∧
      (begun s c).now + 2048 ≤ pktQ c.pkt 2 ∧ (begun s c).sec.swap = none) ∧
    (∀ n, n ∈ [0, 1, 2] → (partSwap { time := 5000, raiseFloor := true, phase := n }).sec.swap = some { time := 5000, raiseFloor := true, phase := n } ∧
      (partSwap { time := 5000, raiseFloor := true, phase := n }).now ≤ 0 + readyLimit ∧
      (partSwap { time := 5000, raiseFloor := true, phase := n }).sec.staged ≠ none ∧
      (n = 0 → landsNext (partSwap { time := 5000, raiseFloor := true, phase := n }) 5000 3 = true) ∧
      (n ≠ 0 → reaches (partSwap { time := 5000, raiseFloor := true, phase := n }) (0 + readyLimit) = true)) ∧
    (∀ k, k ∈ [0, 1] → k < 2 ∧ part.hal.stopped = false ∧ coreDown part (1 - k) = false ∧ amGet part.mgmt.restarts k = none ∧
      coreDown (setCore part k true) k = true ∧ swapStarts (setCore part k true) k = false ∧ (setCore part k true).hal.stopped = false) := by
  refine ⟨?_, rfl, rfl, ⟨_, rfl⟩, ?_, ?_, ?_⟩ <;> decide +kernel

/-- An authorisation body with n bytes of 0 as its payload. -/
def authHead (op target : Nat) : List Byte := leBytes 4 0x5A544155 ++ [BitVec.ofNat 8 op, BitVec.ofNat 8 target] ++ List.replicate 10 0
def authBody (op target n body : Nat) : List Byte :=
  (authHead op target ++ leBytes 16 Config.serialField.toNat) ++ (List.replicate 32 0 ++ leBytes 4 n ++ List.replicate (body - 0x44) 0)
def authFile (op target n body : Nat) : List Byte := authBody op target n body ++ blockWith (sha3512 (authBody op target n body))
def authOf (op target n body : Nat) : Auth :=
  ⟨op, target, Config.serialField, 0, ((authFile op target n body).drop 0x50).take n, body, authFile op target n body⟩

/-- The four operations, each with a target, its payload and the size of its body. -/
def authCases : List (Nat × Nat × Nat × Nat) := [(0, 4, 0, 128), (1, 7, 2592, 2688), (2, 0, 0, 128), (3, 1, 0, 128)]

theorem length_authBody (op target n body : Nat) (h : 0x44 ≤ body) : (authBody op target n body).length = body := by
  unfold authBody authHead; simp only [List.length_append, length_leBytes, List.length_replicate, List.length_cons, List.length_nil]; omega

theorem authFile_reads : ∀ q, q ∈ authCases → readAuth ((authFile q.1 q.2.1 q.2.2.1 q.2.2.2).take (q.2.2.2 + 4736)) (q.2.2.2 + 4736) = some (authOf q.1 q.2.1 q.2.2.1 q.2.2.2) := by
  intro q hq
  have hb : 0x50 ≤ q.2.2.2 ∧ payloadOf q.1 q.2.1 = q.2.2.1 ∧ roundUp (0x50 + q.2.2.1) 64 = q.2.2.2 ∧ q.1 < 256 ∧ q.2.1 < 256 ∧ q.2.2.1 < 2 ^ 32 ∧ 0x50 + q.2.2.1 ≤ q.2.2.2 := by
    fin_cases hq <;> (refine ⟨by decide, by rfl, by rfl, by decide, by decide, by norm_num, by decide⟩)
  obtain ⟨op, target, n, body⟩ := q
  obtain ⟨h1, h2, h3, h4, h5, h6, h7⟩ := hb
  dsimp only at *
  have t : (authFile op target n body).take (body + 4736) = authFile op target n body :=
    List.take_of_length_le (by unfold authFile; rw [List.length_append, length_blockWith, length_authBody _ _ _ _ (by omega)]; unfold sigSize; omega)
  have e : ∀ a k, a + k ≤ body → ((authFile op target n body).drop a).take k = ((authBody op target n body).drop a).take k := by
    intro a k h
    unfold authFile
    rw [List.drop_append_of_le_length (by rw [length_authBody _ _ _ _ (by omega)]; omega),
      List.take_append_of_le_length (by rw [List.length_drop, length_authBody _ _ _ _ (by omega)]; omega)]
  have l : ∀ a k, a + k ≤ body → leAt (authFile op target n body) a k = leAt (authBody op target n body) a k := fun a k h => by unfold leAt; rw [e a k h]
  have head : ∀ a k, a + k ≤ 16 → ((authBody op target n body).drop a).take k = ((authHead op target).drop a).take k := by
    intro a k h
    unfold authBody
    rw [List.append_assoc, List.drop_append_of_le_length (by show a ≤ 16; omega), List.take_append_of_le_length (by rw [List.length_drop]; show k ≤ 16 - a; omega)]
  have serial : BitVec.ofNat 128 (leAt (authBody op target n body) 0x10 16) = Config.serialField := by
    have e : ((authBody op target n body).drop 0x10).take 16 = leBytes 16 Config.serialField.toNat := by
      unfold authBody
      rw [List.append_assoc, List.drop_left' (by rfl), List.take_left' (length_leBytes _ _)]
    unfold leAt
    rw [e, leNat_leBytes]
    apply BitVec.eq_of_toNat_eq
    simp only [BitVec.toNat_ofNat]
    have := Config.serialField.isLt
    omega
  have tail : ∀ a k, ((authBody op target n body).drop (32 + a)).take k = ((List.replicate 32 0 ++ leBytes 4 n ++ List.replicate (body - 0x44) 0).drop a).take k := by
    intro a k
    unfold authBody
    rw [← List.drop_drop, List.drop_left' (by rw [List.length_append, length_leBytes]; rfl)]
  have zeros : ∀ k, zeroBytes (List.replicate k 0) = true := by intro k; unfold zeroBytes; simp
  have rest : ∀ a k, a + k + 0x24 ≤ body - 0x20 → ((authBody op target n body).drop (0x44 + a)).take k = List.replicate k 0 := by
    intro a k h
    rw [show 0x44 + a = 32 + (36 + a) by omega, tail, ← List.drop_drop, List.drop_left' (by simp only [List.length_append, length_leBytes, List.length_replicate]),
      List.drop_replicate, List.take_replicate]
    congr 1; omega
  have c1 : leAt (authBody op target n body) 0x40 4 = n := by
    unfold leAt
    rw [show 0x40 = 32 + 32 by rfl, tail, List.append_assoc, List.drop_left' (by rw [List.length_replicate]), List.take_left' (length_leBytes _ _), leNat_leBytes]
    omega
  have c2 : leAt (authBody op target n body) 0x20 32 = 0 := by
    unfold leAt
    rw [show 0x20 = 32 + 0 by rfl, tail, List.append_assoc, List.drop_zero, List.take_left' (by rw [List.length_replicate])]
    decide
  have c3 : leAt (authBody op target n body) 4 1 = op := by
    unfold leAt; rw [head _ _ (by decide)]; show leNat [BitVec.ofNat 8 op] = op; simp [leNat]; omega
  have c4 : leAt (authBody op target n body) 5 1 = target := by
    unfold leAt; rw [head _ _ (by decide)]; show leNat [BitVec.ofNat 8 target] = target; simp [leNat]; omega
  have c5 : leAt (authBody op target n body) 0 4 = 0x5A544155 := by unfold leAt; rw [head _ _ (by decide)]; show leNat (leBytes 4 0x5A544155) = 0x5A544155; rw [leNat_leBytes]; norm_num
  have c6 : zeroBytes (((authBody op target n body).drop 6).take 10) = true := by rw [head _ _ (by decide)]; rfl
  have c7 : zeroBytes (((authBody op target n body).drop 0x44).take 12) = true := by rw [show 0x44 = 0x44 + 0 by rfl, rest _ _ (by omega)]; exact zeros _
  have c8 : zeroBytes (((authBody op target n body).drop (0x50 + n)).take (body - (0x50 + n))) = true := by
    rw [show 0x50 + n = 0x44 + (12 + n) by omega, rest _ _ (by omega)]; exact zeros _
  rw [t]
  unfold readAuth
  simp only [l _ _ (show 4 + 1 ≤ body by omega), l _ _ (show 5 + 1 ≤ body by omega), l _ _ (show 0 + 4 ≤ body by omega), l _ _ (show 0x40 + 4 ≤ body by omega),
    l _ _ (show 0x10 + 16 ≤ body by omega), l _ _ (show 0x20 + 32 ≤ body by omega), e _ _ (show 6 + 10 ≤ body by omega), e _ _ (show 0x44 + 12 ≤ body by omega),
    c1, c2, c3, c4, c5, c6, c7, h2, h3, serial]
  rw [e _ _ (show 0x50 + n + (body - (0x50 + n)) ≤ body by omega), c8]
  simp [authOf, sigSize]

theorem authStatus_none {s : State} {ch : BitVec 256} {a : Auth} (h1 : a.serial = Config.serialField) (h2 : a.challenge = ch) (h3 : authAllowed s.sec a = true)
    (h4 : authSlotOk s.sec a = true) (h5 : sigFails a.bytes a.bodySize (authSigner s.sec a) = none) (h6 : a.target ≠ 1 ∨ a.op ≠ 0) (h7 : s.sec.swap = none)
    (h8 : s.feed.wipeRunning = false) : authStatus s ch a = none := by
  unfold authStatus
  rcases h6 with h6 | h6 <;> simp [h1, h2, h3, h4, h5, h6, h7, h8]

theorem authFile_passes (v : ∀ k d l, Config.mlDsaVerify k d l = true) (s : State) (hs : s.sec = { partKeys.sec with challenge := s.sec.challenge })
    (hw : s.feed.wipeRunning = false) : ∀ q, q ∈ authCases → authStatus s 0 (authOf q.1 q.2.1 q.2.2.1 q.2.2.2) = none := by
  intro q hq
  have g : ∀ op target n body, 0x44 ≤ body → ∀ ok : BitVec 128 → Bool, ok 5 = true → sigFails (authFile op target n body) body ok = none := by
    intro op target n body h ok h5
    have := sigFails_blockWith (authBody op target n body) ok h5 v
    rwa [length_authBody _ _ _ _ h] at this
  fin_cases hq
  all_goals
    refine authStatus_none rfl rfl (by rw [hs]; rfl) (by rw [hs]; rfl) (g _ _ _ _ (by decide) _ (by rw [hs]; rfl)) (by decide) (by rw [hs]; rfl) hw

theorem witness_LifecycleAuthorisationsAndWipesAct (v : ∀ k d l, Config.mlDsaVerify k d l = true) :
    (∀ q, q ∈ authCases →
      let c := cmd 0x58 [0x1000, 0, BitVec.ofNat 32 (q.2.2.2 + 4736)]
      let s0 : State := { partKeys with sec := { partKeys.sec with challenge := Config.entropy partKeys.fresh }, fresh := partKeys.fresh + 1 }
      (takeable partKeys c = true ∧ Ready 0x58 0 s0 c ∧ pktOnly c.pkt [(2, 0xFFFFFFFF), (3, 0xFFFFFFFF), (4, 0xFFFFFFFF)] = true ∧ pktQ c.pkt 2 % 64 = 0 ∧ hostUp (begun s0 c) = true) ∧
      partKeys.sec.challenge = 0 ∧ (pktDw c.pkt 4).toNat = q.2.2.2 + 4736 ∧ authOp (some (authFile q.1 q.2.1 q.2.2.1 q.2.2.2)) = q.1 ∧
      readAuth ((authFile q.1 q.2.1 q.2.2.1 q.2.2.2).take (q.2.2.2 + 4736)) (q.2.2.2 + 4736) = some (authOf q.1 q.2.1 q.2.2.1 q.2.2.2) ∧
      authStatus (begun s0 c) 0 (authOf q.1 q.2.1 q.2.2.1 q.2.2.2) = none ∧
      ∃ st d, authStatus (begun s0 c) 0 { authOf q.1 q.2.1 q.2.2.1 q.2.2.2 with challenge := 1 } = some (st, d)) ∧
    (lifeOfCode 4 = some .scrapped ∧ lget partKeys.sec.imageKeys 0 .empty = .valid 3) ∧
    (Ready 0x59 0 part (cmd 0x59 [0]) ∧ Room part (cmd 0x59 [0]) ∧ dbits (pktDw (cmd 0x59 [0]).pkt 2) 1 0 = 0 ∧ (begun part (cmd 0x59 [0])).feed.wipeRunning = false ∧
      Ready 0x59 1 part (cmd 0x59 [1]) ∧ Ready 0x59 2 part (cmd 0x59 [2]) ∧ (begun part (cmd 0x59 [2])).sec.swap = none ∧
      pktOnly (cmd 0x59 [0]).pkt [(2, 3)] = true ∧ pktOnly (cmd 0x59 [1]).pkt [(2, 3)] = true ∧ pktOnly (cmd 0x59 [2]).pkt [(2, 3)] = true) ∧
    (let s := { part with feed := { part.feed with wipeRunning := true, lpddr := [(5, 1)] } }
     s.feed.wipeRunning = true ∧ jobPending s .wipe = false ∧ Memory.wf s.feed.lpddr = true) := by
  refine ⟨?_, by decide +kernel, by decide +kernel, by decide +kernel⟩
  intro q hq
  refine ⟨?_, rfl, ?_, ?_, authFile_reads q hq, authFile_passes v _ (by rfl) (by rfl) q hq, stDenied, 0x8F12, ?_⟩
  · fin_cases hq <;> decide +kernel
  · fin_cases hq <;> decide +kernel
  · fin_cases hq <;> rfl
  · unfold authStatus; rw [if_pos (Or.inr (show (1 : BitVec 256) ≠ 0 by decide))]

/-- The part with its power changed. -/
def partPower (f : Power → Power) : State := { part with power := f part.power }

/-- The part whose sectors are all this. -/
def partSectors (x : Sector) : State := partPower (fun p => { p with sectors := List.replicate 8 x })

theorem witness_PowerSetActsAndResetsAreDelayed :
    (∀ r, r ∈ [0, 3] →
     Ready 0x60 0 part (cmd 0x60 [0, BitVec.ofNat 32 (0xFF + r * 256)]) ∧ Room part (cmd 0x60 [0, BitVec.ofNat 32 (0xFF + r * 256)]) ∧
      dbits (pktDw (cmd 0x60 [0, BitVec.ofNat 32 (0xFF + r * 256)]).pkt 3) 7 0 = 0xFF ∧
      dbits (pktDw (cmd 0x60 [0, BitVec.ofNat 32 (0xFF + r * 256)]).pkt 2) 2 0 = 0 ∧ sectorsAbsent 0xFF = false ∧
      pktOnly (cmd 0x60 [0, BitVec.ofNat 32 (0xFF + r * 256)]).pkt [(2, 7), (3, 0x3FF)] = true ∧
      (∀ k, k ∈ maskSectors 0xFF → (sectorOf (begun part (cmd 0x60 [0, BitVec.ofNat 32 (0xFF + r * 256)])) k).state ≠ .sleep) ∧
      powerBusy (begun part (cmd 0x60 [0, BitVec.ofNat 32 (0xFF + r * 256)])) 0xFF = false ∧
      (begun part (cmd 0x60 [0, BitVec.ofNat 32 (0xFF + r * 256)])).power.sectors.length = 8) ∧
    (∀ v, v ∈ [100, 560] → Ready 0x60 1 part (cmd 0x60 [1, BitVec.ofNat 32 v]) ∧ pktOnly (cmd 0x60 [1, BitVec.ofNat 32 v]).pkt [(2, 7), (3, 0x3FF)] = true ∧
      dbits (pktDw (cmd 0x60 [1, BitVec.ofNat 32 v]).pkt 3) 9 0 = v) ∧
    (∀ v, v ∈ [70, 105] → Ready 0x60 2 part (cmd 0x60 [2, BitVec.ofNat 32 (v + 2 * 256)]) ∧
      pktOnly (cmd 0x60 [2, BitVec.ofNat 32 (v + 2 * 256)]).pkt [(2, 7), (3, 0xFFF)] = true ∧
      dbits (pktDw (cmd 0x60 [2, BitVec.ofNat 32 (v + 2 * 256)]).pkt 3) 7 0 = v ∧ dbits (pktDw (cmd 0x60 [2, BitVec.ofNat 32 (v + 2 * 256)]).pkt 3) 11 8 = 2) ∧
    (let c := cmd 0x60 [3, 0x81]
     let s := partSectors { state := .active }
     sectorsAbsent 0x81 = false ∧ pktOnly c.pkt [(2, 7), (3, 0xFF)] = true ∧ dbits (pktDw c.pkt 3) 7 0 = 0x81 ∧ powerBusy (begun s c) 0x81 = false ∧
      (begun s c).power.sectors.length = 8 ∧ Ready 0x60 3 s c ∧ (maskSectors 0x81).any (hoistUses (begun s c)) = false ∧
      ∀ k, k ∈ maskSectors 0x81 → (sectorOf (begun s c) k).state = .active) ∧
    (let c := cmd 0x60 [4, 0x81]
     let s := partSectors { state := .sleep }
     pktOnly c.pkt [(2, 7), (3, 0xFF)] = true ∧ dbits (pktDw c.pkt 3) 7 0 = 0x81 ∧ powerBusy (begun s c) 0x81 = false ∧
      (begun s c).power.sectors.length = 8 ∧ Ready 0x60 4 s c ∧ Room s c ∧ ∀ k, k ∈ maskSectors 0x81 → (sectorOf (begun s c) k).state = .sleep) ∧
    (Ready 0x60 5 part (cmd 0x60 [5]) ∧ pktOnly (cmd 0x60 [5]).pkt [(2, 7)] = true) ∧
    ({ part with mgmt := { part.mgmt with resetDue := some 5000 } }.mgmt.resetDue = some 5000 ∧ reaches part 5000 = true ∧
      part.hif.heldCompletions.any (fun c => asksReset c 5000) = false) := by
  refine ⟨?_, ?_, ?_, ?_, ?_, ?_, ?_⟩ <;> decide +kernel

theorem witness_SuppliesStartAndStopThePart :
    ((partPower (fun p => { p with powerGood := false })).power.powerGood = false ∧ (partPower (fun p => { p with powerGood := false })).power.shutdown = none) ∧
    (restartAt (partPower (fun p => { p with powerGood := false, shutdown := some .overcurrent, inputSince := some 9 })) ≠ none ∧
      restartAt (partPower (fun p => { p with powerGood := false, shutdown := some .overtemperature, stageCool := some 9 })) ≠ none) ∧
    (part.power.powerGood = true ∧ stageBeyond part { vin := 35000, iin := 0, pin := 0, temp := 0 } .undervoltage = true ∧
      stageBeyond part { vin := 48000, iin := 0, pin := 0, temp := 0 } (.junction 7 (115 * 16)) = true ∧
      stageBeyond part { vin := 48000, iin := 0, pin := 0, temp := 0 } (.rail 0 0) = true) ∧
    (partPower (fun p => { p with pmbus := { p.pmbus with up := false } })).power.pmbus.up = false ∧
    part.power.holdover = false ∧ (partPower (fun p => { p with holdover := true })).power.holdover = true ∧
    (∀ n, n ∈ [0, 1, 2, 3, 4, 5, 6] →
      (partPower (fun p => { p with phasesEnded := n, sectors := List.replicate 8 { state := .active } })).power.phasesEnded = n ∧
      ((partPower (fun p => { p with phasesEnded := n, sectors := List.replicate 8 { state := .active } })).power.sectors.take Config.sectors).all (fun k => k.state == .active) = true) ∧
    (partKeys.sec.life ≠ .scrapped ∧
      ∀ k, pkgPasses { partKeys.sec with fwKeys := [some 5, none, none, none], courier0 := some ⟨0, 0, 0, 1, 5, 0, true⟩, slotA := some ⟨1, 0, 0, 1, 5, 0, true⟩ } k
        (if k = 0 then some ⟨0, 0, 0, 1, 5, 0, true⟩ else if k = 1 then some ⟨1, 0, 0, 1, 5, 0, true⟩ else none) = decide (k ≤ 1)) ∧
    ({ part with pins := { part.pins with perst := false } }.pins.perst = false ∧ part.pins.perst = true ∧
      1 ≤ (partPower (fun p => { p with phasesEnded := 1 })).power.phasesEnded) ∧
    (let p (l : List WarnLimit) := partPower (fun p => { p with pmbus := { p.pmbus with up := true, crossed := l } })
     (p []).power.pmbus.up = true ∧ warns (p []).power.pmbus { vin := 0, iin := 0, pin := 0, temp := 16 * 120 } .otWarn = true ∧ (p []).power.pmbus.crossed.contains .otWarn = false ∧
      warns (p [.otWarn]).power.pmbus { vin := 0, iin := 0, pin := 0, temp := 0 } .otWarn = false ∧ (p [.otWarn]).power.pmbus.crossed.contains .otWarn = true) := by
  refine ⟨?_, ?_, ?_, ?_, ?_, ?_, ?_, ⟨by decide, ?_⟩, ?_, ?_⟩
  any_goals decide +kernel
  intro k
  by_cases h0 : k = 0
  · subst h0; decide +kernel
  · by_cases h1 : k = 1
    · subst h1; decide +kernel
    · simp [h0, h1, pkgPasses]; omega

theorem witness_SectorsWakeAndChangeSpeed :
    (∀ g, g ∈ [0, 9, 10] →
      let s := partSectors { state := .waking, groups := g }
      s.power.sectors.length = 8 ∧ 7 < Config.sectors ∧ (sectorOf s 7).state = .waking ∧ reaches s ((sectorOf s 7).wokeAt + 13000 * (sectorOf s 7).groups) = true ∧
        ((sectorOf s 7).groups + 1 < wakeGroups ↔ g ≠ 10)) ∧
    (let s := partPower (fun p => { p with phasesEnded := 2, wakeFrom := 50, sectors := List.replicate 7 { state := .active } ++ [{}] })
     s.power.sectors.length = 8 ∧ (sectorOf s 7).state = .off ∧ s.power.phasesEnded = 2 ∧ (s.power.sectors.take 7).all (fun y => y.state == .active) = true ∧
      reaches s (s.power.wakeFrom + 260000 * 7) = true) ∧
    (let s := partSectors { switchTo := some 3, decidedAt := 30 }
     s.power.sectors.length = 8 ∧ (sectorOf s 7).switchTo = some 3 ∧ reaches s (((sectorOf s 7).decidedAt / 15 + 1) * 15) = true) ∧
    ((sectorOf (partSectors { op := .raising }) 7).op = .raising ∧ reaches (partSectors { op := .raising }) (slewDone (sectorOf (partSectors { op := .raising }) 7)) = true ∧
      (let s := partSectors { op := .lowering, requested := 2, actual := 2 }
       (sectorOf s 7).op = .lowering ∧ reaches s (slewDone (sectorOf s 7)) = true ∧ (sectorOf s 7).switchTo = none ∧ targetOf (sectorOf s 7) = (sectorOf s 7).actual)) ∧
    (let s := partSectors { state := .active, hotSamples := 1 }
     s.power.sectors.length = 8 ∧ (sectorOf s 7).state = .active ∧ (s.power.threshold : Int) * 16 ≤ hottest [1600, 1500] ∧ 1 ≤ (sectorOf s 7).hotSamples ∧
      sectorFloor (sectorOf s 7) < 3 ∧ mayStep (sectorOf s 7).floorMovedAt s.now = true) ∧
    (16 * part.power.cap < 8961 ∧ mayStep part.power.capMovedAt part.now = true ∧
      mayStep (partPower (fun p => { p with capMovedAt := some 0 })).power.capMovedAt part.now = false) ∧
    (let s := { partSectors { state := .active } with power := { (partSectors { state := .active }).power with neighbours := [((7, 0), 50)] } }
     s.power.sectors.length = 8 ∧ amGet s.power.neighbours (7, 0) = some 50 ∧ reaches s (50 + oneMs) = true ∧ (sectorOf s 7).state = .active ∧ sectorFloor (sectorOf s 7) < 3 ∧
      mayStep (sectorOf s 7).floorMovedAt (max s.now (50 + oneMs)) = true) := by
  refine ⟨?_, ?_, ?_, ?_, ?_, ?_, ?_⟩ <;> decide +kernel

/-- The part whose event controller is changed. -/
def partEvt (f : Evt → Evt) : State := { part with evt := f part.evt }
def partLog (fast : Bool) (l : EvtLog) : State := setLog part fast l

def rec1 : LogRecord := ⟨0x18, false, 5, 0x0040, 0, none, noSite, noFrame, 100, 0, 0⟩

theorem witness_RegisterAccessesAct :
    (2 % 4 ≠ 0 ∧ 0xFFFC < 0x10000 ∧ 0x264000 ≤ 0x264000 ∧ 15 < 16 ∧ 63 < 64 ∧ 99 < 100) ∧
    (∀ n, n ∈ [0, 0x13, 63] → n < 64 ∧ sourceAbsent n = false ∧ part.evt.sources[n]? = some (EvtSource.resetOf n)) ∧
    ((8 ≠ 4 ∨ 0 % 4 ≠ 0) ∧ (4 ≠ 4 ∨ 2 % 4 ≠ 0)) ∧
    (rcBefore part 0x20054 = none ∧ rcBefore (rcNote part 0x20054 6) 0x20054 = some 6) := by decide +kernel

theorem witness_TheEventControllerAcknowledgesModeratesAndLogs :
    (∀ x, x = true ∨ x = false →
      let c : EvtSource := { EvtSource.resetOf 0x12 with pending := x, fastPending := x }
      (partEvt (fun e => { e with sources := e.sources.set 0x12 c })).evt.sources[0x12]? = some c ∧ c.pending = x ∧ c.fastPending = x ∧
        dbit (0xC0000 : Dword) 0x12 = true ∧ dbit (0xC0000 : Dword) 3 = false ∧
        ∀ d ∈ (partEvt (fun e => { e with sources := e.sources.set 0x12 c })).evt.sources, firedNow part true d = 0) ∧
    (part.evt.vectors.length = 64 ∧ dbit (0x80000000 : Dword) 31 = true ∧ dbit (0x80000000 : Dword) 30 = false ∧ (vectorOf part 63).firedIn = 0 ∧ stoodPending part 63 = false ∧
      stoodPending (partEvt (fun e => { e with sources := e.sources.set 63 { EvtSource.resetOf 63 with pending := true, firedVector := 63 } })) 63 = true) ∧
    (∀ f, f ∈ [true, false] →
      ((logOf (partLog f {}) f).enabled = false ∧ dbit (0x601 : Dword) 0 = true ∧ 6 ≤ dbits (0x601 : Dword) 11 8 ∧ dbits (0x501 : Dword) 11 8 < 6) ∧
      ((logOf (partLog f { enabled := true, sizeLog2 := 6, tail := 3 }) f).enabled = true ∧ dbit (0 : Dword) 0 = false ∧
       ptrCount 7 0 (3 % 2 ^ 7) ≤ ptrCount 7 0 3 ∧ ptrCount 7 0 3 < ptrCount 7 0 (4 % 2 ^ 7))) ∧
    (part.evt.vectors.length = 64 ∧ (vectorOf part 63).count = 0 ∧ (vectorOf part 63).timerFrom = none) ∧
    (let s := partEvt (fun e => { e with vectors := e.vectors.set 63 { time := 5, timerFrom := some 10, count := 1 } })
     s.evt.vectors.length = 64 ∧ (vectorOf s 63).timerFrom = some 10 ∧ (vectorOf s 63).time ≠ 0 ∧ reaches s (10 + 5 * Config.us) = true ∧ normalPending s 63 = false ∧
      normalPending { s with evt := { s.evt with sources := s.evt.sources.set 63 { EvtSource.resetOf 63 with pending := true, firedVector := 63 } } } 63 = true) ∧
    (∀ f, f ∈ [true, false] →
      (logOf (partLog f { enabled := true, sizeLog2 := 6, held := [rec1] }) f).held = [rec1] ∧
      (logOf (partLog f { enabled := true, sizeLog2 := 6, held := [rec1] }) f).gapLost = 0 ∧
      logRoom (partLog f { enabled := true, sizeLog2 := 6, held := [rec1] }) (logOf (partLog f { enabled := true, sizeLog2 := 6, held := [rec1] }) f) rec1 = true) := by
  refine ⟨?_, ?_, ?_, ?_, ?_, ?_⟩
  case refine_1 => rintro x (rfl | rfl) <;> decide +kernel
  all_goals decide +kernel

/-- Stream 31 with its lane in, and its ingress led back to its egress by the box that they share. -/
def streamFab (x : StreamCtx) (buf : List Beat) : State :=
  let s := partFab [(siteOf 10 7 1 6 0, boxWords [(42, 0x2E)])]
  { s with
    streams := s.streams.set 31 x, lanes := { s.lanes with lock := List.replicate 32 true }
    fabric := { s.fabric with inBufs := [(egressEnd 31, buf)] } }

def frame5 : Frame := { id := 5, arrival := 0, courier := true }
def taking (r : Reception) : State := streamFab { state := .courier, reception := some r, frames := [frame5] } []

theorem witness_TheIngressTakesFramesBlockByBlock :
    (∀ x, x ∈ [StreamState.courier, .infer, .dip] →
      let s := streamFab { state := x } []
      s.streams.length = 32 ∧ streamReceives s 31 = true ∧ (0x78 : BitVec 64).toNat % 256 = 0x78 ∧ (0x178 : BitVec 64).toNat % 256 = 0x78 ∧
        (streamOf s 31).modePending = none ∧ (streamOf s 31).reception = none ∧ (streamOf s 31).state ≠ .closing ∧ bufferFull (max s.now (streamOf s 31).nextWrite) (streamOf s 31) = false ∧
        startAgrees (streamOf s 31) (0x78 : BitVec 64).toNat = true ∧ startAgrees (streamOf s 31) (0x178 : BitVec 64).toNat = false) ∧
    (let r : Reception := { frame := 5 }
     let s := taking r
     streamReceives s 31 = true ∧ receiving s 31 = some (r, frame5) ∧ (0x2D : BitVec 64).toNat % 256 = 0x2D ∧ r.lineOpen = false ∧
      nbits (0x2D : BitVec 64).toNat 31 8 = r.line ∧ r.line < frameLines (streamOf s 31) ∧ nbits (0x12D : BitVec 64).toNat 31 8 ≠ r.line) ∧
    (let r : Reception := { frame := 5, lineOpen := true }
     let s := taking r
     receiving s 31 = some (r, frame5) ∧ (r.lineBytes ++ leBytes 8 7).length ≤ roundUp (lineLength (streamOf s 31)) 8 ∧
      entriesAt (streamOf s 31) true (r.lineBytes ++ leBytes 8 7).length = 1 ∧
      (writeEntries s.now ((List.range' r.lineEntries 1).map (lineEntry (streamOf s 31) 31 frame5 r.line (r.lineBytes ++ leBytes 8 7))) (streamOf s 31)).isSome = true ∧ blockTypes.contains 0x99 = false) ∧
    (let r : Reception := { frame := 5, lineOpen := true, lineBytes := List.replicate 8 0 }
     let s := taking r
     receiving s 31 = some (r, frame5) ∧ (0x4B : BitVec 64).toNat % 256 = 0x4B ∧ r.lineBytes.length = roundUp (lineLength (streamOf s 31)) 8 ∧
      nbits (0x4B : BitVec 64).toNat 55 40 = r.line % 2 ^ 16 ∧ nbits (0x4B : BitVec 64).toNat 39 8 = crcField r.lineCrc ∧
      nbits (0x14B : BitVec 64).toNat 39 8 ≠ crcField r.lineCrc) ∧
    (let r : Reception := { frame := 5, line := 1 }
     let s := taking r
     receiving s 31 = some (r, frame5) ∧ (0x87 : BitVec 64).toNat % 256 = 0x87 ∧ (0x87 : BitVec 64).toNat.testBit 60 = false ∧ r.lineOpen = false ∧
      r.line = frameLines (streamOf s 31) ∧ nbits (0x87 : BitVec 64).toNat 39 8 = crcField r.frameCrc ∧ nbits (0x87 : BitVec 64).toNat 59 40 + 1 = r.line ∧
      (0x1000000000000087 : BitVec 64).toNat.testBit 60 = true ∧ laneStream s 31 = some 31 ∧ receiving s 31 ≠ none ∧ laneStream part 31 = none) ∧
    (let b : BufEntry := { frame := 5, line := 0, beat := some dataBeat, released := true }
     let s := streamFab { state := .infer, frames := [{ frame5 with courier := false, admitted := true, tackSent := true }], buffer := [b] } []
     (streamOf s 31).proofHold = false ∧ readFrom (streamOf s 31) = 1 ∧ reaches s 1 = true ∧ outQ s (ingressEnd 31) = [] ∧ maySend (advance s 1) (ingressEnd 31) = true ∧
      ingressReady s 31 = some (b, dataBeat) ∧ ingressReady (advance s 1) 31 = some (b, dataBeat)) ∧
    (∀ n, n = 16382 ∨ n = 16383 →
      let c : StreamCtx := { state := .infer, nextWrite := 1, buffer := [{ frame := 5, line := 0, beat := none, entered := 0 }], dropAt := 1, dropN := n }
      let s := streamFab c []
      (streamOf s 31).state ≠ .courier ∧ bufferFull (max s.now (streamOf s 31).nextWrite) (streamOf s 31) = (n == 16383) ∧
        (writeEntries s.now [{ frame := 5, line := 0, beat := none }] (streamOf s 31)).isNone = (n == 16383)) := by
  refine ⟨?_, ?_, ?_, ?_, ?_, ?_, ?_⟩
  case refine_7 => rintro n (rfl | rfl) <;> decide +kernel
  all_goals decide +kernel

def courierEntry : BufEntry := { frame := 5, line := 0, beat := none, payload := 9, bytes := 8, released := true }
def res5 : ResRec := { frame := 5, arrival := 0, rows := 1 }
def buf0 : DescBuf := { addr := 0x10000, slotLog2 := 7, slots := 4, eventRecord := true, eventBuffer := true }

theorem witness_ResultsLeaveByTheirPaths :
    (let s := streamFab { state := .courier, frames := [frame5], buffer := [courierEntry], headSeen := true } []
     s.streams.length = 32 ∧ s.hal.stopped = false ∧ (streamOf s 31).egress = none ∧ (streamOf s 31).headSeen = true ∧ egressNext s 31 = some frame5 ∧
      egressMayBegin s 31 frame5 = true) ∧
    (let f : Frame := { frame5 with courier := false }
     let s := streamFab { state := .infer, path := 1, frames := [f], res := some res5, headSeen := true } [dataBeat]
     egressNext s 31 = some f ∧ egressMayBegin s 31 f = true ∧ resultsMove s 31 = true) ∧
    (∀ x, x = true ∨ x = false →
      let s := streamFab { state := .infer, path := 1, frames := [{ frame5 with courier := false }], res := some { res5 with ended := x }, headSeen := true,
                           egress := some { frame := 5 } } [dataBeat]
      resultHead s 31 0 = (s, some (dataBeat, { res5 with ended := x })) ∧ resultsMove s 31 = true ∧ (streamOf s 31).egress = some { frame := 5 }) ∧
    (let s := streamFab { state := .courier, frames := [frame5], buffer := [courierEntry], egress := some { frame := 5 } } []
     s.hal.stopped = false ∧ egressNext s 31 = some frame5 ∧ frame5.receiving = true ∧ courierLine (streamOf s 31).buffer 5 = some (0, leBytes 8 9, []) ∧
      courierLine [] 5 = none) ∧
    (let s := streamFab { state := .courier, frames := [{ frame5 with receiving := false }], egress := some { frame := 5, line := 2 } } []
     egressNext s 31 = some { frame5 with receiving := false } ∧ (streamOf s 31).buffer.any (fun x => x.frame == 5) = false) ∧
    (∀ x, x = none ∨ x = some { frame := 5, arrival := 0, slot := 0 : HostRec } →
      let s := streamFab { state := .infer, path := 2, frames := [{ frame5 with courier := false }], res := some res5, headSeen := true,
                           desc := { state := .active, buf := some buf0, record := x } } [dataBeat]
      resultHead s 31 1 = (s, some (dataBeat, res5)) ∧ resultsMove s 31 = true ∧ (streamOf s 31).desc.buf = some buf0 ∧ hostUp s = true ∧
        (streamOf s 31).desc.record = x ∧ (frameOf (streamOf s 31) 5).any (·.hostDone) = false ∧ slotFree (streamOf s 31).desc = some buf0 ∧
        64 + 0 + 64 ≤ 2 ^ buf0.slotLog2) ∧
    (let x : HostRec := { frame := 5, arrival := 0, slot := 3, ended := true }
     let s := streamFab { state := .infer, path := 2, desc := { state := .active, buf := some buf0, record := some x } } []
     (streamOf s 31).desc.record = some x ∧ x.ended = true ∧ x.failed = false ∧ hostUp s = true ∧ (streamOf s 31).desc.buf = some buf0) := by
  refine ⟨by decide +kernel, by decide +kernel, ?_, by decide +kernel, by decide +kernel, ?_, by decide +kernel⟩
  all_goals rintro x (rfl | rfl) <;> exact ⟨rfl, by decide +kernel⟩

theorem witness_TheManagementBusAndTheTestPortAct :
    (let s := partPower (fun p => { p with pmbus := { p.pmbus with up := true } })
     s.power.pmbus.up = true ∧ protected_ s = false ∧ protected_ (setPmbus s { s.power.pmbus with writeProtect := 0x80 }) = true) ∧
    (∀ v, v ∈ [90, 125] → ((Config.limitRange 0x4F).2.1 * 2 ^ 16 : Int) ≤ lin16 (BitVec.ofNat 16 v) ∧ lin16 (BitVec.ofNat 16 v) ≤ ((Config.limitRange 0x4F).2.2 * 2 ^ 16 : Int)) ∧
    lin16 89 < ((Config.limitRange 0x4F).2.1 * 2 ^ 16 : Int) ∧ ((Config.limitRange 0x4F).2.2 * 2 ^ 16 : Int) < lin16 126 ∧
    ((0x180 : BitVec 16).setWidth 8 = (0x80 : BitVec 8) ∧ (5 : BitVec 16).setWidth 8 ≠ (0 : BitVec 8) ∧ (5 : BitVec 16).setWidth 8 ≠ (0x80 : BitVec 8)) ∧
    (pmbusCodes.contains (0x20 : BitVec 8).toNat = false ∧ (partPower (fun p => { p with pmbus := { p.pmbus with up := false } })).power.pmbus.up = false ∧ 6 < (7 : BitVec 8).toNat) := by
  refine ⟨?_, ?_, ?_, ?_, ?_, ?_⟩ <;> decide +kernel

theorem witness_TimesTooNearAreRefused :
    (Ready 0x13 0 part (cmd 0x13 [0, 2047, 0]) ∧ pktQ (cmd 0x13 [0, 2047, 0]).pkt 3 < part.now + 2048) ∧
    (Ready 0x38 0 part (cmd 0x38 [2047, 0]) ∧ pktQ (cmd 0x38 [2047, 0]).pkt 2 < part.now + 2048) ∧
    (Ready 0x51 0 part (cmd 0x51 [0, 0, 0]) ∧ pktQ (cmd 0x51 [0, 0, 0]).pkt 2 < part.now + 2048) ∧
    (Ready 0x30 2 part (cmd 0x30 [2, 0, 0, 0]) ∧ pktQ (cmd 0x30 [2, 0, 0, 0]).pkt 4 < part.now + 2048) := by decide +kernel

theorem witness_KeysStayWhileALoadIsInProgress :
    isPending (partPending .fwStage) (fun k => k == .fwStage) = true ∧
    (∀ j : LoadJob, { part with hal := { part.hal with load := some j } }.hal.load ≠ none) ∧ part.sec.erase = none ∧
    (∀ j : LoadJob, ∃ t, exec .powerStateD3hot { part with hal := { part.hal with load := some j } } = .next t) :=
  ⟨by decide +kernel, fun j => by simp, by rfl, fun j => ⟨_, rfl⟩⟩

theorem witness_TheNestCountsThroughEveryIteration :
    (let sl : Slot := { stream := 3, frame := 7, tack := { arrival := 100 } }
     countersOf sl = [0, 0, 0, 0] ∧ sl.nestDone = false ∧ 5 < 1 * 2 * 3 * 65536 ∧ 65536 ∈ limitsOf 0xFFFF0000 0 ∧
      nextDue [0x31] [1, 1, 1, 2] sl = some 0 ∧ nextDue [0x71] [1, 1, 1, 2] { sl with c3 := 1 } = some 0 ∧ nextDue [0x01] [1, 1, 1, 2] { sl with c3 := 1 } = none ∧
      opLevel 0x71 = 3 ∧ opLast 0x71 = true) := by decide +kernel


/-! ### Ill-formed and well-formed commands (R343, R350) -/

/-- A packet of 16 dwords with this opcode and these parameter dwords. -/
def wholeCmd (op : Nat) (d : List Dword) : HostCmd := ⟨0, (BitVec.ofNat 32 (op + 4 * 2 ^ 16) :: 7 :: d ++ List.replicate 16 0).take 16⟩

theorem test_wellformed_nop : wellFormed (.nop (wholeCmd 0x01 [5])) = true := by decide +kernel
theorem test_illformed_ring : wellFormed (.nop ⟨16, (wholeCmd 0x01 [5]).pkt⟩) = false := by decide +kernel
theorem test_illformed_packet_length : wellFormed (.nop (cmd 0x01 [5])) = false := by decide +kernel
theorem test_illformed_opcode : wellFormed (.identify (wholeCmd 0x01 [5])) = false := by decide +kernel
theorem test_illformed_form : wellFormed (.hoistArmMirror (wholeCmd 0x12 [0])) = false := by decide +kernel
theorem test_illformed_lifecycle_op : wellFormed (.lifecycleAddKey (wholeCmd 0x58 []) (some [0, 0, 0, 0, 3])) = false := by decide +kernel
theorem test_illformed_lane_eye : wellFormed (.calibrateLane (wholeCmd 0x31 [2]) 0 256) = false := by decide +kernel
theorem test_illformed_stream : wellFormed (.streamCloseDrained 32) = false := by decide +kernel
theorem test_illformed_queue : wellFormed (.generatorStep (8 * Config.memPorts)) = false := by decide +kernel
theorem test_illformed_register : wellFormed (.registerWrite 1 0 0) = false := by decide +kernel

/-! ### The queue and the words -/

theorem test_word_spells_nothing : decodeTableWord 32 0x12345678 = none := rfl
theorem test_fetch_word_leaves_state : State.reset.withFetchWord 32 1 = State.reset := rfl
theorem test_idle_counts_one_fc : step State.reset = .next { State.reset with now := State.reset.now + 1 } := rfl
theorem test_queue_is_first_in_first_out :
    step { State.reset with pending := [.powerStateD3hot, .hotReset] } = .next { State.reset with pending := [.hotReset], hif := { State.reset.hif with d3hot := true } } := rfl

/-! ### The worked example of spec/04_quantization.md -/

theorem test_row_exponent : rowExponent (num32 0x40C00000) = -5 := by decide +kernel
theorem test_zero_point : zeroPoint (-5) (num16 0xBFA0) = -88 := by decide +kernel
theorem test_code_rounds_away_from_zero : quantLane (-5) (-128) 0x4001 = (-63, false) := by decide +kernel
theorem test_code_is_clipped : quantLane (-5) (-112) 0x4108 = (127, true) := by decide +kernel

/-- The four channels of the example at position 5 and column 9, every other lane 0. -/
def exampleChannels : List MacChannel :=
  let lane (k : Nat) (n : Int) : List Int := (List.replicate 32 0).set k n
  [⟨lane 5 (-43), -88, lane 9 3⟩, ⟨lane 5 (-63), -128, lane 9 (-2)⟩, ⟨lane 5 (-38), -16, lane 9 7⟩, ⟨lane 5 127, -112, lane 9 (-5)⟩]

def exampleSet : AccSet := { macInt {} exampleChannels true with exp := -5 }

theorem test_integer_mac_sums :
    lget exampleSet.acc 169 0 = BitVec.ofInt 32 (-904) ∧ exampleSet.pos.getD 5 0 = -17 ∧ exampleSet.col.getD 9 0 = 440 ∧ exampleSet.zp = -344 := by
  decide +kernel
theorem test_narrow_total : sumT exampleSet 5 9 0x3C400001 = -1671 := by decide +kernel
theorem test_combined_scale : combinedScale 0x3C400001 (-5) = 0x39C00000 := by decide +kernel
theorem test_narrow_result : narrowLane exampleSet (some 0x3E400000) 5 9 0x3C400001 = ⟨0xBED9, 0, false⟩ := by decide +kernel
theorem test_wide_result : wideLane 0xC2697000 (some 0x3E400000) 0x3C400001 = ⟨0xBEFE, 0, false⟩ := by decide +kernel

/-! ### The worked example of spec/05_vector_window_glue.md and the example frame of spec/11_stream_lanes.md -/

theorem test_reciprocal_table : tRecip 1 = 0x3F7E03F8 := by decide +kernel
theorem test_reciprocal : funcRecip 0x3F808000 = (0x3F7F01FC, 0) := by decide +kernel
theorem test_reciprocal_as_sent : rna16 (num32 0x3F7F01FC) = 0x3F7F := by decide +kernel
theorem test_frame_start_agrees : startAgrees { width := 1920, height := 1152, planes := 3 } 0x002902047F077F78 = true := by decide +kernel

/-! ### Counters (R444) -/

/-- Counter 0 runs on event 0x03; happenings of fc 35, 36 and 40, with the halyard at 100. -/
def countFab : State :=
  { State.reset with
    now := 100
    cnt := { State.reset.cnt with
      progs := { cfg := [3, 0xFFFFFFFF, 0, 0, 0, 0, 0, 0], run := true } :: List.replicate 63 {}
      recent := [(35, .event 3 noSite none 0 0 true), (36, .event 3 noSite none 0 0 true), (40, .event 3 noSite none 0 0 true)] } }

/-- R444: at fc 100 the happenings of fc 36 and earlier have been counted; one of fc 36 survives a clear of this fc. -/
theorem test_counter_lags_64_fc : counterNow countFab 0 0x40 = 2 := by decide +kernel
theorem test_clear_leaves_this_fc : counterNow (clearCounter countFab 0) 0 0x40 = 1 := by decide +kernel

end Sys2Proof.Tests
end

section
/-! PROOF. Every command moves the state within the pieces that `touches` names, and keeps the stores and the table sizes. -/

namespace Sys2Proof.Machine

/-- Every command but the two power-ons, which count the halyard from 0 again (R33), keeps what commands keep and changes no piece outside its list. -/
theorem exec_moves {i : Instr} (s : State) (hv : i ≠ .vinRise) (hr : i ≠ .powerStageRestart) : MovesNext (maskOf (touches i)) s (exec i s) := by
  cases i with dsimp only [touches]
  | nop => exact moves_execNop rfl (Moves.refl s)
  | identify => exact moves_execIdentify rfl (Moves.refl s)
  | attestReport => exact moves_execAttestReport rfl (Moves.refl s)
  | attestCertificate => exact moves_execAttestCertificate rfl (Moves.refl s)
  | imageLoad => exact moves_execImageLoad rfl (Moves.refl s)
  | imageLoadSection => exact moves_execImageLoadSection rfl (Moves.refl s)
  | imageLoadDone => exact moves_execImageLoadDone rfl (Moves.refl s)
  | imageVerify => exact moves_execImageVerify rfl (Moves.refl s)
  | imageVerifyDone => exact moves_execImageVerifyDone rfl (Moves.refl s)
  | hoistArmTarget => exact moves_execHoistArmTarget rfl (Moves.refl s)
  | hoistArmMirror => exact moves_execHoistArmMirror rfl (Moves.refl s)
  | mirrorCopyDone => exact moves_execMirrorCopyDone rfl (Moves.refl s)
  | hoistSwitch => exact moves_execHoistSwitch rfl (Moves.refl s)
  | hoistSwitchLands => exact moves_execHoistSwitchLands rfl (Moves.refl s)
  | hoistRelease => exact moves_execHoistRelease rfl (Moves.refl s)
  | hoistReleaseImageOnly => exact moves_execHoistReleaseImageOnly rfl (Moves.refl s)
  | streamOpen => exact moves_execStreamOpen rfl (Moves.refl s)
  | streamClose => exact moves_execStreamClose rfl (Moves.refl s)
  | streamCloseDrained => exact moves_execStreamCloseDrained rfl (Moves.refl s)
  | streamCloseTimeout => exact moves_execStreamCloseTimeout rfl (Moves.refl s)
  | streamMode => exact moves_execStreamMode rfl (Moves.refl s)
  | streamModeLands => exact moves_execStreamModeLands rfl (Moves.refl s)
  | descArm => exact moves_execDescArm rfl (Moves.refl s)
  | descDisarm => exact moves_execDescDisarm rfl (Moves.refl s)
  | scaleSet => exact moves_execScaleSet rfl (Moves.refl s)
  | scaleBankLive => exact moves_execScaleBankLive rfl (Moves.refl s)
  | scaleBankRetireDone => exact moves_execScaleBankRetireDone rfl (Moves.refl s)
  | scaleRead => exact moves_execScaleRead rfl (Moves.refl s)
  | selfTestProveUnit => exact moves_execSelfTestProveUnit rfl (Moves.refl s)
  | selfTestRequestWindow => exact moves_execSelfTestRequestWindow rfl (Moves.refl s)
  | selfTestGrantWindow => exact moves_execSelfTestGrantWindow rfl (Moves.refl s)
  | selfTestReport => exact moves_execSelfTestReport rfl (Moves.refl s)
  | fullWindowStart => exact moves_execFullWindowStart rfl (Moves.refl s)
  | fullWindowEnd => exact moves_execFullWindowEnd rfl (Moves.refl s)
  | calibrateChannel => exact moves_execCalibrateChannel rfl (Moves.refl s)
  | calibrateAllChannels => exact moves_execCalibrateAllChannels rfl (Moves.refl s)
  | calibrateLane => exact moves_execCalibrateLane rfl (Moves.refl s)
  | unitDisable => exact moves_execUnitDisable rfl (Moves.refl s)
  | unitEnable => exact moves_execUnitEnable rfl (Moves.refl s)
  | unitDrainDone => exact moves_execUnitDrainDone rfl (Moves.refl s)
  | unitDrainTimeout => exact moves_execUnitDrainTimeout rfl (Moves.refl s)
  | haltAt => exact moves_execHaltAt rfl (Moves.refl s)
  | haltLands => exact moves_execHaltLands rfl (Moves.refl s)
  | resume => exact moves_execResume rfl (Moves.refl s)
  | resumeLands => exact moves_execResumeLands rfl (Moves.refl s)
  | snapshotCapture => exact moves_execSnapshotCapture rfl (Moves.refl s)
  | snapshotCaptureDone => exact moves_execSnapshotCaptureDone rfl (Moves.refl s)
  | snapshotCopy => exact moves_execSnapshotCopy rfl (Moves.refl s)
  | snapshotRelease => exact moves_execSnapshotRelease rfl (Moves.refl s)
  | traceConfigure => exact moves_execTraceConfigure rfl (Moves.refl s)
  | traceStart => exact moves_execTraceStart rfl (Moves.refl s)
  | traceStop => exact moves_execTraceStop rfl (Moves.refl s)
  | traceStopFlushDone => exact moves_execTraceStopFlushDone rfl (Moves.refl s)
  | traceTrigger => exact moves_execTraceTrigger rfl (Moves.refl s)
  | traceMarker => exact moves_execTraceMarker rfl (Moves.refl s)
  | traceRelease => exact moves_execTraceRelease rfl (Moves.refl s)
  | traceCopy => exact moves_execTraceCopy rfl (Moves.refl s)
  | counterConfigure => exact moves_execCounterConfigure rfl (Moves.refl s)
  | counterRunMask => exact moves_execCounterRunMask rfl (Moves.refl s)
  | counterClearMask => exact moves_execCounterClearMask rfl (Moves.refl s)
  | counterSampleAll => exact moves_execCounterSampleAll rfl (Moves.refl s)
  | counterGrant => exact moves_execCounterGrant rfl (Moves.refl s)
  | spanOpen => exact moves_execSpanOpen rfl (Moves.refl s)
  | spanClose => exact moves_execSpanClose rfl (Moves.refl s)
  | spanMeasure => exact moves_execSpanMeasure rfl (Moves.refl s)
  | fwStage => exact moves_execFwStage rfl (Moves.refl s)
  | fwStageDone => exact moves_execFwStageDone rfl (Moves.refl s)
  | fwSwitch => exact moves_execFwSwitch rfl (Moves.refl s)
  | fwSwitchLands => exact moves_execFwSwitchLands rfl (Moves.refl s)
  | fwCoreReady => exact moves_execFwCoreReady rfl (Moves.refl s)
  | fwReadyTimeout => exact moves_execFwReadyTimeout rfl (Moves.refl s)
  | lifecycleTransition => exact moves_execLifecycleTransition rfl (Moves.refl s)
  | lifecycleAddKey => exact moves_execLifecycleAddKey rfl (Moves.refl s)
  | lifecycleRevokeImageKey => exact moves_execLifecycleRevokeImageKey rfl (Moves.refl s)
  | lifecycleRevokeFwKey => exact moves_execLifecycleRevokeFwKey rfl (Moves.refl s)
  | wipeFreeSpace => exact moves_execWipeFreeSpace rfl (Moves.refl s)
  | wipeFreeSpaceDone => exact moves_execWipeFreeSpaceDone rfl (Moves.refl s)
  | wipeDevice => exact moves_execWipeDevice rfl (Moves.refl s)
  | wipeStagedFirmware => exact moves_execWipeStagedFirmware rfl (Moves.refl s)
  | powerSetOperatingPoint => exact moves_execPowerSetOperatingPoint rfl (Moves.refl s)
  | powerSetCap => exact moves_execPowerSetCap rfl (Moves.refl s)
  | powerSetThermal => exact moves_execPowerSetThermal rfl (Moves.refl s)
  | powerSetSleep => exact moves_execPowerSetSleep rfl (Moves.refl s)
  | powerSetWake => exact moves_execPowerSetWake rfl (Moves.refl s)
  | powerSetReset => exact moves_execPowerSetReset rfl (Moves.refl s)
  | delayedDeviceReset => exact moves_execDelayedDeviceReset rfl (Moves.refl s)
  | thermalRead => exact moves_execThermalRead rfl (Moves.refl s)
  | hifDbSqTail => exact moves_execHifDbSqTail rfl (Moves.refl s)
  | hifDbCqHead => exact moves_execHifDbCqHead rfl (Moves.refl s)
  | ringEnable => exact moves_execRingEnable rfl (Moves.refl s)
  | ringDisable => exact moves_execRingDisable rfl (Moves.refl s)
  | ringDrainDone => exact moves_execRingDrainDone rfl (Moves.refl s)
  | packetFetch => exact moves_execPacketFetch rfl (Moves.refl s)
  | functionLevelReset => exact moves_execFunctionLevelReset rfl (Moves.refl s)
  | hotReset => exact moves_execHotReset rfl (Moves.refl s)
  | linkDown => exact moves_execLinkDown rfl (Moves.refl s)
  | busMasterEnableClear => exact moves_execBusMasterEnableClear rfl (Moves.refl s)
  | busMasterEnableSet => exact moves_execBusMasterEnableSet rfl (Moves.refl s)
  | powerStateD3hot => exact moves_execPowerStateD3hot rfl (Moves.refl s)
  | msixVectorUnmask => exact moves_execMsixVectorUnmask rfl (Moves.refl s)
  | registerWrite => exact moves_execRegisterWrite rfl (Moves.refl s)
  | malformedRegisterAccess bar => exact moves_execMalformedRegisterAccess (xbar := bar) rfl (Moves.refl s)
  | latchedLoRead => exact moves_execLatchedLoRead rfl (Moves.refl s)
  | rcRead => exact moves_execRcRead rfl (Moves.refl s)
  | evtPendAck => exact moves_execEvtPendAck rfl (Moves.refl s)
  | evtIdleArm => exact moves_execEvtIdleArm rfl (Moves.refl s)
  | evtLogEnable => exact moves_execEvtLogEnable rfl (Moves.refl s)
  | evtLogDisable => exact moves_execEvtLogDisable rfl (Moves.refl s)
  | evtLogHead => exact moves_execEvtLogHead rfl (Moves.refl s)
  | evtVecMod => exact moves_execEvtVecMod rfl (Moves.refl s)
  | halProofCtrl => exact moves_execHalProofCtrl rfl (Moves.refl s)
  | memMaintCtrl => exact moves_execMemMaintCtrl rfl (Moves.refl s)
  | cntPageSample => exact moves_execCntPageSample rfl (Moves.refl s)
  | cntPageClear => exact moves_execCntPageClear rfl (Moves.refl s)
  | cntPageRun => exact moves_execCntPageRun rfl (Moves.refl s)
  | moderationTimerExpiry => exact moves_execModerationTimerExpiry rfl (Moves.refl s)
  | heldRecordWrite => exact moves_execHeldRecordWrite rfl (Moves.refl s)
  | configScrub => exact moves_execConfigScrub rfl (Moves.refl s)
  | autoMirrorSwitch => exact moves_execAutoMirrorSwitch rfl (Moves.refl s)
  | configRewriteDone => exact moves_execConfigRewriteDone rfl (Moves.refl s)
  | beatSend => exact moves_execBeatSend rfl (Moves.refl s)
  | beatArrive => exact moves_execBeatArrive rfl (Moves.refl s)
  | creditReturnArrive => exact moves_execCreditReturnArrive rfl (Moves.refl s)
  | segmentContention => exact moves_execSegmentContention rfl (Moves.refl s)
  | voidTackLineReceive => exact moves_execVoidTackLineReceive rfl (Moves.refl s)
  | slotBind => exact moves_execSlotBind rfl (Moves.refl s)
  | operationIssue => exact moves_execOperationIssue rfl (Moves.refl s)
  | aloadBeat => exact moves_execAloadBeat rfl (Moves.refl s)
  | rowExponentFix => exact moves_execRowExponentFix rfl (Moves.refl s)
  | macFire => exact moves_execMacFire rfl (Moves.refl s)
  | omacFire => exact moves_execOmacFire rfl (Moves.refl s)
  | clipCheck => exact moves_execClipCheck rfl (Moves.refl s)
  | drainFire => exact moves_execDrainFire rfl (Moves.refl s)
  | fetchFire => exact moves_execFetchFire rfl (Moves.refl s)
  | fetchBeatWrite => exact moves_execFetchBeatWrite rfl (Moves.refl s)
  | waitComplete => exact moves_execWaitComplete rfl (Moves.refl s)
  | releaseFire => exact moves_execReleaseFire rfl (Moves.refl s)
  | tileWatchdogExpiry => exact moves_execTileWatchdogExpiry rfl (Moves.refl s)
  | weightScrub => exact moves_execWeightScrub rfl (Moves.refl s)
  | weightRewriteDone => exact moves_execWeightRewriteDone rfl (Moves.refl s)
  | vloadBeat => exact moves_execVloadBeat rfl (Moves.refl s)
  | vsendBeat => exact moves_execVsendBeat rfl (Moves.refl s)
  | vopFire => exact moves_execVopFire rfl (Moves.refl s)
  | constantRewriteDone => exact moves_execConstantRewriteDone rfl (Moves.refl s)
  | vfuncFire => exact moves_execVfuncFire rfl (Moves.refl s)
  | vredFire => exact moves_execVredFire rfl (Moves.refl s)
  | windowBeatIn => exact moves_execWindowBeatIn rfl (Moves.refl s)
  | windowRowEmit => exact moves_execWindowRowEmit rfl (Moves.refl s)
  | poolRowEmit => exact moves_execPoolRowEmit rfl (Moves.refl s)
  | glueFcEval => exact moves_execGlueFcEval rfl (Moves.refl s)
  | glueDrainDone => exact moves_execGlueDrainDone rfl (Moves.refl s)
  | glueDrainTimeout => exact moves_execGlueDrainTimeout rfl (Moves.refl s)
  | skewEnqueue => exact moves_execSkewEnqueue rfl (Moves.refl s)
  | steerSend => exact moves_execSteerSend rfl (Moves.refl s)
  | pennantPair => exact moves_execPennantPair rfl (Moves.refl s)
  | frameEndSettle => exact moves_execFrameEndSettle rfl (Moves.refl s)
  | spillWriteRun => exact moves_execSpillWriteRun rfl (Moves.refl s)
  | spillReadRequest => exact moves_execSpillReadRequest rfl (Moves.refl s)
  | refillReturn => exact moves_execRefillReturn rfl (Moves.refl s)
  | steerWatchdogExpiry => exact moves_execSteerWatchdogExpiry rfl (Moves.refl s)
  | queueReadIssue => exact moves_execQueueReadIssue rfl (Moves.refl s)
  | generatorStep => exact moves_execGeneratorStep rfl (Moves.refl s)
  | generatorFrameResume => exact moves_execGeneratorFrameResume rfl (Moves.refl s)
  | channelBurstDecision => exact moves_execChannelBurstDecision rfl (Moves.refl s)
  | readReturn => exact moves_execReadReturn rfl (Moves.refl s)
  | fetchRequestArrive => exact moves_execFetchRequestArrive rfl (Moves.refl s)
  | feedBeatSend => exact moves_execFeedBeatSend rfl (Moves.refl s)
  | streamInBeatSend => exact moves_execStreamInBeatSend rfl (Moves.refl s)
  | streamOutBeatWrite => exact moves_execStreamOutBeatWrite rfl (Moves.refl s)
  | spillQueueWrite => exact moves_execSpillQueueWrite rfl (Moves.refl s)
  | spillQueueRead => exact moves_execSpillQueueRead rfl (Moves.refl s)
  | circularWaitExpiry => exact moves_execCircularWaitExpiry rfl (Moves.refl s)
  | refresh _ bank => exact moves_execRefresh (xbank := bank) rfl (Moves.refl s)
  | zqCalibration => exact moves_execZqCalibration rfl (Moves.refl s)
  | dqsOscillatorRead => exact moves_execDqsOscillatorRead rfl (Moves.refl s)
  | patrolBlock => exact moves_execPatrolBlock rfl (Moves.refl s)
  | retrainingWindowStart => exact moves_execRetrainingWindowStart rfl (Moves.refl s)
  | retrainingWindowEnd => exact moves_execRetrainingWindowEnd rfl (Moves.refl s)
  | descStoreScrub => exact moves_execDescStoreScrub rfl (Moves.refl s)
  | descRewriteDone => exact moves_execDescRewriteDone rfl (Moves.refl s)
  | hostRecordWrite => exact moves_execHostRecordWrite rfl (Moves.refl s)
  | hostSlotSeal => exact moves_execHostSlotSeal rfl (Moves.refl s)
  | spanCodewordSend => exact moves_execSpanCodewordSend rfl (Moves.refl s)
  | spanCodewordReceive => exact moves_execSpanCodewordReceive rfl (Moves.refl s)
  | spanAckTimeout => exact moves_execSpanAckTimeout rfl (Moves.refl s)
  | spanLockLoss => exact moves_execSpanLockLoss rfl (Moves.refl s)
  | spanTrainingTimeout => exact moves_execSpanTrainingTimeout rfl (Moves.refl s)
  | spanProbeTimer => exact moves_execSpanProbeTimer rfl (Moves.refl s)
  | spanProbeReplace => exact moves_execSpanProbeReplace rfl (Moves.refl s)
  | spanCloseDrained => exact moves_execSpanCloseDrained rfl (Moves.refl s)
  | spanCloseTimeout => exact moves_execSpanCloseTimeout rfl (Moves.refl s)
  | frameStartReceive => exact moves_execFrameStartReceive rfl (Moves.refl s)
  | lineStartReceive => exact moves_execLineStartReceive rfl (Moves.refl s)
  | dataBlockReceive => exact moves_execDataBlockReceive rfl (Moves.refl s)
  | lineEndReceive => exact moves_execLineEndReceive rfl (Moves.refl s)
  | frameEndReceive => exact moves_execFrameEndReceive rfl (Moves.refl s)
  | idleStripeReceive => exact moves_execIdleStripeReceive rfl (Moves.refl s)
  | laneLockLoss => exact moves_execLaneLockLoss rfl (Moves.refl s)
  | laneLockRegain => exact moves_execLaneLockRegain rfl (Moves.refl s)
  | ingressBeatSend => exact moves_execIngressBeatSend rfl (Moves.refl s)
  | egressFrameStart => exact moves_execEgressFrameStart rfl (Moves.refl s)
  | egressResultBeat => exact moves_execEgressResultBeat rfl (Moves.refl s)
  | courierFrameForward => exact moves_execCourierFrameForward rfl (Moves.refl s)
  | deadlineExpiry => exact moves_execDeadlineExpiry rfl (Moves.refl s)
  | vinRise => exact absurd rfl hv
  | powerStageFault => exact moves_execPowerStageFault rfl (Moves.refl s)
  | powerStageRestart => exact absurd rfl hr
  | vinBelow36V => exact moves_execVinBelow36V rfl (Moves.refl s)
  | pmbusWarnCrossing => exact moves_execPmbusWarnCrossing rfl (Moves.refl s)
  | refClockLoss => exact moves_execRefClockLoss rfl (Moves.refl s)
  | refClockRestore => exact moves_execRefClockRestore rfl (Moves.refl s)
  | stagedStartPhaseEnd => exact moves_execStagedStartPhaseEnd rfl (Moves.refl s)
  | sectorWakeGroup => exact moves_execSectorWakeGroup rfl (Moves.refl s)
  | perstAssert => exact moves_execPerstAssert rfl (Moves.refl s)
  | perstDeassert => exact moves_execPerstDeassert rfl (Moves.refl s)
  | dividerSwitchPoint => exact moves_execDividerSwitchPoint rfl (Moves.refl s)
  | vddSlewDone => exact moves_execVddSlewDone rfl (Moves.refl s)
  | thermalSample => exact moves_execThermalSample rfl (Moves.refl s)
  | powerCapAverage => exact moves_execPowerCapAverage rfl (Moves.refl s)
  | neighbourDiffExpiry => exact moves_execNeighbourDiffExpiry rfl (Moves.refl s)
  | heartbeatMiss => exact moves_execHeartbeatMiss rfl (Moves.refl s)
  | coreRestartDone => exact moves_execCoreRestartDone rfl (Moves.refl s)
  | halyardParityError => exact moves_execHalyardParityError rfl (Moves.refl s)
  | proofArm => exact moves_execProofArm rfl (Moves.refl s)
  | proofUnitIdle => exact moves_execProofUnitIdle rfl (Moves.refl s)
  | proofMaxWaitExpiry => exact moves_execProofMaxWaitExpiry rfl (Moves.refl s)
  | bistRunDone => exact moves_execBistRunDone rfl (Moves.refl s)
  | proofRestoreDone => exact moves_execProofRestoreDone rfl (Moves.refl s)
  | traceLineWrite => exact moves_execTraceLineWrite rfl (Moves.refl s)
  | traceBufferFlushTimer => exact moves_execTraceBufferFlushTimer rfl (Moves.refl s)
  | extest => exact moves_execExtest rfl (Moves.refl s)
  | samplePreload => exact moves_execSamplePreload rfl (Moves.refl s)
  | idcode => exact moves_execIdcode rfl (Moves.refl s)
  | highz => exact moves_execHighz rfl (Moves.refl s)
  | clamp => exact moves_execClamp rfl (Moves.refl s)
  | extestPulse => exact moves_execExtestPulse rfl (Moves.refl s)
  | extestTrain => exact moves_execExtestTrain rfl (Moves.refl s)
  | bypass => exact moves_execBypass rfl (Moves.refl s)
  | tapReset => exact moves_execTapReset rfl (Moves.refl s)
  | clearFaults => exact moves_execClearFaults rfl (Moves.refl s)
  | writeProtect => exact moves_execWriteProtect rfl (Moves.refl s)
  | capability => exact moves_execCapability rfl (Moves.refl s)
  | otFaultLimit => exact moves_execOtFaultLimit rfl (Moves.refl s)
  | otWarnLimit => exact moves_execOtWarnLimit rfl (Moves.refl s)
  | vinOvFaultLimit => exact moves_execVinOvFaultLimit rfl (Moves.refl s)
  | vinOvWarnLimit => exact moves_execVinOvWarnLimit rfl (Moves.refl s)
  | vinUvWarnLimit => exact moves_execVinUvWarnLimit rfl (Moves.refl s)
  | vinUvFaultLimit => exact moves_execVinUvFaultLimit rfl (Moves.refl s)
  | iinOcFaultLimit => exact moves_execIinOcFaultLimit rfl (Moves.refl s)
  | iinOcWarnLimit => exact moves_execIinOcWarnLimit rfl (Moves.refl s)
  | pinOpWarnLimit => exact moves_execPinOpWarnLimit rfl (Moves.refl s)
  | statusWord => exact moves_execStatusWord rfl (Moves.refl s)
  | statusInput => exact moves_execStatusInput rfl (Moves.refl s)
  | statusTemperature => exact moves_execStatusTemperature rfl (Moves.refl s)
  | statusCml => exact moves_execStatusCml rfl (Moves.refl s)
  | readVin => exact moves_execReadVin rfl (Moves.refl s)
  | readIin => exact moves_execReadIin rfl (Moves.refl s)
  | readTemperature1 => exact moves_execReadTemperature1 rfl (Moves.refl s)
  | readPin => exact moves_execReadPin rfl (Moves.refl s)
  | pmbusRevision => exact moves_execPmbusRevision rfl (Moves.refl s)
  | mfrRestartCount => exact moves_execMfrRestartCount rfl (Moves.refl s)
  | pmbusUnsupportedCommand => exact moves_execPmbusUnsupportedCommand rfl (Moves.refl s)
  | powerStateD0 => exact moves_execPowerStateD0 rfl (Moves.refl s)
  | spanLockAcquire => exact moves_execSpanLockAcquire rfl (Moves.refl s)
  | snapshotCopyDone => exact moves_execSnapshotCopyDone rfl (Moves.refl s)
  | traceCopyDone => exact moves_execTraceCopyDone rfl (Moves.refl s)
  | attestDone => exact moves_execAttestDone rfl (Moves.refl s)
  | vinAbove36V => exact moves_execVinAbove36V rfl (Moves.refl s)

/-- Every command, the power-ons too, keeps the queue, the canonical form of LPDDR5, the fuses and the table sizes. -/
theorem exec_keepsStores {i : Instr} {s t : State} (e : exec i s = .next t) : KeepsStores s t := by
  by_cases hv : i = .vinRise
  · subst hv
    exact (moves_execVinRise (msk := maskOf allPieces) rfl (Moves.refl s) e).1
  by_cases hr : i = .powerStageRestart
  · subst hr
    exact (moves_execPowerStageRestart (msk := maskOf allPieces) rfl (Moves.refl s) e).1
  exact (exec_moves s hv hr t e).keeps.stores

/-- A command that does not list the fuses and the flash leaves them. -/
theorem exec_sec_of_untouched {i : Instr} {s t : State} (h : Piece.sec ∉ touches i) (e : exec i s = .next t) : t.sec = s.sec := by
  have hv : i ≠ .vinRise := by rintro rfl; exact h (by decide)
  have hr : i ≠ .powerStageRestart := by rintro rfl; exact h (by decide)
  exact (exec_moves s hv hr t e).frame.same .sec h

end Sys2Proof.Machine
end

section
/-! PROOF. No command leaves an erase of flash items outstanding where none was (R464): the operations that rewrite the root of trust, then the
commands that list it. -/

namespace Sys2Proof.Machine

/-- No erase of flash items is outstanding. -/
def NoErase (s : State) : Prop := s.sec.erase = none

/-- None is outstanding in the next state either, if there is one. -/
def NoEraseNext (o : Host.Outcome State Fault Refusal) : Prop := ∀ t, o = .next t → NoErase t

/-- None is outstanding in the state that a verdict carries. -/
def NoEraseVerdict : Verdict → Prop
  | .finish _ _ _ s => NoErase s
  | .pend _ s => NoErase s

theorem noEraseNext_done {s : State} (h : NoErase s) : NoEraseNext (done s) := by
  rintro t ⟨⟩
  exact h

theorem NoErase.of_sec {s t : State} (h : NoErase s) (e : t.sec = s.sec) : NoErase t := by
  unfold NoErase; rw [e]; exact h

/-- A change whose mask leaves out the fuses and the flash (bit 17) makes no erase outstanding. -/
theorem NoErase.of_moves {m : Nat} {a s : State} (h : NoErase a) (g : Moves m a s) (hm : m.testBit 17 = false) : NoErase s :=
  h.of_sec (g.frame.b17 hm)

/-! ### The operations -/

@[simp] theorem eraseFor_erase (c : Sec) (l : LifeState) : (eraseFor c l).erase = none := by
  unfold eraseFor; split <;> rfl

@[simp] theorem setUncommitted_erase (c : Sec) (p : Option FwPkg) : (setUncommitted c p).erase = c.erase := by
  unfold setUncommitted; split <;> rfl

@[simp] theorem secAtReset_erase (c : Sec) (n : Nat) : (secAtReset c n).erase = c.erase := rfl

@[simp] theorem releasePcie_sec (s : State) : (releasePcie s).sec = s.sec := by
  unfold releasePcie; split <;> rfl

@[simp] theorem endPhase_sec (s : State) : (endPhase s).sec = s.sec := by
  simp [endPhase]

@[simp] theorem powerOn_sec (s : State) : (powerOn s).sec = secAtReset s.sec s.fresh := rfl

@[simp] theorem deviceReset_sec (s : State) : (deviceReset s).sec = secAtReset s.sec s.fresh := by
  unfold deviceReset
  dsimp only
  split
  · rfl
  · rw [releasePcie_sec]; rfl

theorem noErase_powerOn {s : State} (h : NoErase s) : NoErase (powerOn s) := by
  unfold NoErase; rw [powerOn_sec]; exact h

theorem noErase_deviceReset {s : State} (h : NoErase s) : NoErase (deviceReset s) := by
  unfold NoErase; rw [deviceReset_sec]; exact h

/-- With no erase outstanding, the boot ROM has none to complete (R455). -/
theorem noErase_bootCourier {s : State} (h : NoErase s) : NoErase (bootCourier s) := by
  have hs : s.sec.erase = none := h
  unfold bootCourier
  rw [hs]
  dsimp only
  split
  · exact h
  split
  · simpa [NoErase] using h
  split
  · simpa [NoErase] using h
  · exact h

theorem noErase_bootMain {s : State} (h : NoErase s) : NoErase (bootMain s) := by
  unfold bootMain
  extract_lets c first other hif s1 s2 v
  split
  · simpa [NoErase] using h
  split
  · have h1 : NoErase s1 := h
    clear_value s1 v
    exact h1.of_sec (by simp [s2])
  · exact h.of_sec (by simp)

theorem noErase_commitSwap {s : State} (w : Swap) (h : NoErase s) : NoErase (commitSwap s w) := by
  simpa [NoErase, commitSwap] using h

/-- A transition erases the items at once, and none is left outstanding (R463, R464). -/
theorem noErase_transition (s : State) (a : Auth) (dest : LifeState) : NoErase (transition s a dest) := by
  unfold transition
  extract_lets c c1 erased s1
  have h1 : NoErase s1 := eraseFor_erase { c1 with life := dest } dest
  clear_value s1
  exact h1.of_sec (by simp)

theorem noErase_applyAuth {s : State} (a : Auth) (h : NoErase s) : NoErase (applyAuth s a) := by
  unfold applyAuth
  dsimp only
  split
  · split
    · exact noErase_transition s a _
    · exact h
  all_goals simpa [NoErase] using h

/-! ### Commands that firmware takes -/

theorem noErase_conclude {s : State} {c : HostCmd} {v : Verdict} (h : NoErase s) (hv : NoEraseVerdict v) : NoErase (conclude s c v) := by
  cases v with
  | finish st d w x => exact hv.of_sec (by simp [conclude])
  | pend k x =>
    unfold conclude
    dsimp only
    split
    · exact h.of_sec (by simp)
    · exact hv.of_sec (by simp)

theorem noErase_takeCmd {s : State} {c : HostCmd} {op form : Nat} {body : State → Packet → Verdict} (h : NoErase s)
    (hb : ∀ x p, NoErase x → NoEraseVerdict (body x p)) : NoEraseNext (takeCmd s c op form body) := by
  have h1 : NoErase (beginTrace (taken s c) c) := h.of_sec (by simp)
  unfold takeCmd
  dsimp only
  split
  · split
    · exact noEraseNext_done (h1.of_sec (by simp))
    · exact noEraseNext_done (noErase_conclude h1 (hb _ _ h1))
  · exact noEraseNext_done h

theorem noErase_hostAccessFailed {s : State} {c : HostCmd} {n : Nat} {addr : Nat → Nat} (h : NoErase s) : NoEraseVerdict (hostAccessFailed s c n addr) :=
  h.of_moves (moves_hostAccessFailed (msk := 0x98000e) rfl (Moves.refl s)) rfl

theorem noErase_lifecycleBody {s : State} {challenge : BitVec 256} {c : HostCmd} {auth : HostData} {p : Packet} (h : NoErase s) :
    NoEraseVerdict (lifecycleBody challenge c auth s p) := by
  unfold lifecycleBody
  dsimp only
  split
  · exact h
  split
  · exact h
  split
  · exact noErase_hostAccessFailed h
  split
  · exact h
  split
  · exact h
  · exact noErase_applyAuth _ h

theorem noErase_lifecycleCmd {op : Nat} {c : HostCmd} {auth : HostData} {s : State} (h : NoErase s) : NoEraseNext (lifecycleCmd op c auth s) := by
  unfold lifecycleCmd
  split
  · exact noErase_takeCmd h fun _ _ hx => noErase_lifecycleBody hx
  · exact noEraseNext_done h

theorem noErase_execFwStage {c : HostCmd} {package : HostData} {s : State} (h : NoErase s) : NoEraseNext (execFwStage c package s) := by
  refine noErase_takeCmd h fun x p hx => ?_
  dsimp only
  split
  · exact hx
  split
  · exact hx
  split
  · exact noErase_hostAccessFailed hx
  split
  · exact hx
  · simpa [NoEraseVerdict, NoErase] using hx

theorem noErase_execFwSwitch {c : HostCmd} {s : State} (h : NoErase s) : NoEraseNext (execFwSwitch c s) := by
  refine noErase_takeCmd h fun x p hx => ?_
  dsimp only
  split
  · exact hx
  split <;> exact hx

theorem noErase_execWipeStagedFirmware {c : HostCmd} {s : State} (h : NoErase s) : NoEraseNext (execWipeStagedFirmware c s) := by
  refine noErase_takeCmd h fun x p hx => ?_
  split
  · exact hx
  split
  · exact hx
  · simpa [NoEraseVerdict, NoErase, okAt] using hx

/-! ### Happenings -/

theorem noErase_execFwStageDone {s : State} (h : NoErase s) : NoEraseNext (execFwStageDone s) := by
  unfold execFwStageDone
  split
  · exact noEraseNext_done (by simpa [NoErase] using h)
  · exact noEraseNext_done h

theorem noErase_execFwSwitchLands {s : State} (h : NoErase s) : NoEraseNext (execFwSwitchLands s) := by
  unfold execFwSwitchLands
  split
  · split <;> exact noEraseNext_done h
  · exact noEraseNext_done h

theorem noErase_execFwCoreReady {core : Nat} {s : State} (h : NoErase s) : NoEraseNext (execFwCoreReady core s) := by
  unfold execFwCoreReady
  split
  · split
    · exact noEraseNext_done h
    split
    · exact noEraseNext_done h
    split
    · exact noEraseNext_done (noErase_commitSwap _ h)
    · exact noEraseNext_done h
  · exact noEraseNext_done h

theorem noErase_execFwReadyTimeout {core : Nat} {s : State} (h : NoErase s) : NoEraseNext (execFwReadyTimeout core s) := by
  unfold execFwReadyTimeout
  split
  · split
    · exact noEraseNext_done (by simpa [NoErase] using h)
    · exact noEraseNext_done h
  · exact noEraseNext_done h

theorem noErase_execDelayedDeviceReset {s : State} (h : NoErase s) : NoEraseNext (execDelayedDeviceReset s) := by
  unfold execDelayedDeviceReset
  split
  · split
    · exact noEraseNext_done (noErase_deviceReset (h.of_sec (by simp)))
    · exact noEraseNext_done h
  · exact noEraseNext_done h

theorem noErase_execPerstAssert {s : State} (h : NoErase s) : NoEraseNext (execPerstAssert s) := by
  unfold execPerstAssert
  split
  · exact noEraseNext_done h
  · dsimp only
    split
    · exact noEraseNext_done (noErase_deviceReset h)
    · exact noEraseNext_done h

theorem noErase_execVinRise {s : State} (h : NoErase s) : NoEraseNext (execVinRise s) := by
  unfold execVinRise
  split
  · exact noEraseNext_done h
  · exact noEraseNext_done (noErase_powerOn h)

theorem noErase_execPowerStageRestart {s : State} (h : NoErase s) : NoEraseNext (execPowerStageRestart s) := by
  unfold execPowerStageRestart
  split
  · exact noEraseNext_done h
  · exact noEraseNext_done (noErase_powerOn h)

theorem noErase_execStagedStartPhaseEnd {failedUnits failedChannels : List Site} {s : State} (h : NoErase s) :
    NoEraseNext (execStagedStartPhaseEnd failedUnits failedChannels s) := by
  unfold execStagedStartPhaseEnd
  split
  · exact noEraseNext_done h
  refine noEraseNext_done ?_
  split
  · exact h.of_sec (by simp)
  · exact noErase_bootCourier h
  · split
    · exact h.of_sec (by simp)
    · exact h
  · exact (h.of_moves (Moves.foldl (m := 0x19581e) (Moves.refl s) fun _ _ g => moves_loseChannel rfl g) rfl).of_sec (endPhase_sec _)
  · exact h.of_sec (by simp)
  · exact (h.of_moves (Moves.foldl (m := 0x595fde) (Moves.refl s) fun _ _ g => moves_loseUnit rfl g) rfl).of_sec (endPhase_sec _)
  · exact noErase_bootMain h
  · exact h

/-! ### Every command, and every step -/

/-- The commands that list the fuses and the flash make no erase outstanding. -/
theorem noErase_exec_of_touched {i : Instr} {s : State} (hi : Piece.sec ∈ touches i) (h : NoErase s) : NoEraseNext (exec i s) := by
  cases i with
  | fwStage => exact noErase_execFwStage h
  | fwStageDone => exact noErase_execFwStageDone h
  | fwSwitch => exact noErase_execFwSwitch h
  | fwSwitchLands => exact noErase_execFwSwitchLands h
  | fwCoreReady => exact noErase_execFwCoreReady h
  | fwReadyTimeout => exact noErase_execFwReadyTimeout h
  | lifecycleTransition => exact noErase_lifecycleCmd h
  | lifecycleAddKey => exact noErase_lifecycleCmd h
  | lifecycleRevokeImageKey => exact noErase_lifecycleCmd h
  | lifecycleRevokeFwKey => exact noErase_lifecycleCmd h
  | wipeStagedFirmware => exact noErase_execWipeStagedFirmware h
  | delayedDeviceReset => exact noErase_execDelayedDeviceReset h
  | vinRise => exact noErase_execVinRise h
  | powerStageRestart => exact noErase_execPowerStageRestart h
  | stagedStartPhaseEnd => exact noErase_execStagedStartPhaseEnd h
  | perstAssert => exact noErase_execPerstAssert h
  | _ =>
    -- no other command lists them
    dsimp only [touches] at hi
    exact absurd hi (by decide)

theorem noErase_exec {i : Instr} {s : State} (h : NoErase s) : NoEraseNext (exec i s) := by
  by_cases hi : Piece.sec ∈ touches i
  · exact noErase_exec_of_touched hi h
  · exact fun t e => h.of_sec (exec_sec_of_untouched hi e)

end Sys2Proof.Machine
end

section
/-! PROOF. The reset state and every step keep to the form (R3, R66, R335, R337, R361, R437, R447, R464). -/

namespace Sys2Proof.Machine

theorem moves_idle (s : State) : Moves 0x1 s (idle s) := by
  have ha : { s with now := s.now + 1 } = advance s (s.now + 1) := by simp [advance]
  unfold idle
  rw [ha]
  split
  · exact moves_advance rfl (Moves.refl s)
  · exact Moves.refl s

/-- A step idles on an empty queue, or runs the command at the front with the queue's rest. -/
theorem step_cases {s t : State} (e : step s = .next t) :
    (s.pending = [] ∧ t = idle s) ∨ ∃ c rest, s.pending = c :: rest ∧ exec c { s with pending := rest } = .next t := by
  unfold step at e
  split at e
  · next h => cases e; exact .inl ⟨h, rfl⟩
  · next c rest h => exact .inr ⟨c, rest, h, e⟩

theorem shaped_setPending {s : State} (q : List Instr) (h : Shaped s) : Shaped { s with pending := q } := by
  cases h; constructor <;> assumption

theorem step_keeps_shaped {s t : State} (h : Shaped s) (e : step s = .next t) : Shaped t := by
  obtain ⟨-, rfl⟩ | ⟨c, rest, -, e⟩ := step_cases e
  · exact (moves_idle s).keeps.shape h
  · exact (exec_keepsStores e).shape (shaped_setPending rest h)

theorem step_keeps_memory_wf {s t : State} (h : Memory.wf s.feed.lpddr = true) (e : step s = .next t) : Memory.wf t.feed.lpddr = true := by
  obtain ⟨-, rfl⟩ | ⟨c, rest, -, e⟩ := step_cases e
  · exact (moves_idle s).keeps.memory h
  · exact (exec_keepsStores e).memory h

theorem step_keeps_noErase {s t : State} (h : NoErase s) (e : step s = .next t) : NoErase t := by
  obtain ⟨-, rfl⟩ | ⟨c, rest, -, e⟩ := step_cases e
  · exact h.of_moves (moves_idle s) rfl
  · exact noErase_exec (s := { s with pending := rest }) h t e

/-- Settles O3: the sizes are those of `shaped_reset`; LPDDR5 is empty, and so is the queue. -/
theorem resetStateIsInForm : Obligations.ResetStateIsInForm := ⟨shaped_reset, rfl, rfl, rfl⟩

/-- Settles O4: the sizes and the canonical form are kept because every command moves within what it may move, and an erase never begins because the
commands that rewrite the root of trust only carry an erase record over or clear it. -/
theorem stepKeepsTheForm : Obligations.StepKeepsTheForm :=
  ⟨fun _ _ hs hm e => ⟨step_keeps_shaped hs e, step_keeps_memory_wf hm e⟩, fun _ _ hn e => step_keeps_noErase hn e⟩

end Sys2Proof.Machine
end

section
/-! PROOF. A step runs the front command (R33, R349), no command lowers the halyard but a power-on (R33), and each command leaves every piece outside its
list as it was (R36, R58, R67, R240, R344, R357, R393, R408, R454). -/

namespace Sys2Proof.Machine

theorem step_of_cons {s : State} {c : Instr} {rest : List Instr} (h : s.pending = c :: rest) : step s = exec c { s with pending := rest } := by
  unfold step; rw [h]

theorem step_of_nil {s : State} (h : s.pending = []) : step s = .next (idle s) := by
  unfold step; rw [h]

/-- Settles O1: the step is the match on the queue, and idling the test of the landings. -/
theorem stepRunsTheFrontCommand : Obligations.StepRunsTheFrontCommand := by
  refine ⟨fun c rest s h => step_of_cons h, fun s h r => ?_, fun s h r => ?_⟩
  · rw [step_of_nil h, idle, if_pos r]
  · rw [step_of_nil h, idle, r]; rfl

/-- Settles O5: what every command but the two power-ons keeps includes the halyard's direction. -/
theorem halyardNeverFalls : Obligations.HalyardNeverFalls :=
  fun _ s t hv hr e => (exec_moves s hv hr t e).keeps.time

theorem mem_allPieces (p : Piece) : p ∈ allPieces := by cases p <;> decide

/-- A command leaves the pieces outside its list: a power-on lists them all, and every other command moves within its list. -/
theorem exec_samePiece {c : Instr} {s t : State} (e : exec c s = .next t) {p : Piece} (hp : p ∉ touches c) : samePiece p s t := by
  by_cases hv : c = .vinRise
  · subst hv; exact absurd (mem_allPieces p) hp
  by_cases hr : c = .powerStageRestart
  · subst hr; exact absurd (mem_allPieces p) hp
  exact (exec_moves s hv hr t e).frame.same p hp

/-- Settles O7: the queue is kept by every command, and the pieces by `exec_samePiece`. -/
theorem commandsTouchTheirPieces : Obligations.CommandsTouchTheirPieces :=
  fun _ _ _ e => ⟨(exec_keepsStores e).queue, fun _ hp => exec_samePiece e hp⟩

end Sys2Proof.Machine
end

section
/-! PROOF. A halyard-timed command whose T is too near is refused (R37). -/

namespace Sys2Proof.Machine

@[simp] theorem begun_now (s : State) (c : HostCmd) : (begun s c).now = s.now := by simp [begun]

/-- A T less than 2,048 fc ahead of the take is not allowed (R37). -/
theorem timeOk_of_near {s : State} {T : Nat} (h : T < s.now + 2048) : timeOk s T = false := by
  simp [timeOk, h]

theorem timeOk_of_ahead {s : State} {T : Nat} (h : s.now + 2048 ≤ T) : timeOk s T = true := by
  simp [timeOk, h]

/-- A command that its own rules refuse has no effect but its completion. -/
theorem takeCmd_refuse {s : State} {c : HostCmd} {op form st : Nat} {body : State → Packet → Verdict} (h : Ready op form s c)
    (hb : body (begun s c) c.pkt = refuse (begun s c) st) : takeCmd s c op form body = .next (finishTaken (begun s c) c st 0 []) :=
  takeCmd_finish h hb

theorem hoistSwitch_near {s : State} {p : Packet} (h : timeOk s (pktQ p 3) = false) : hoistSwitch s p = refuse s stBadParam := by
  simp [hoistSwitch, h]

theorem haltAt_near {s : State} {p : Packet} (h : timeOk s (pktQ p 2) = false) : haltAt s p = refuse s stBadParam := by
  simp [haltAt, h]

theorem grantWindow_near {s : State} {p : Packet} (h : timeOk s (pktQ p 4) = false) : grantWindow s p = refuse s stBadParam := by
  simp [grantWindow, h]

theorem execFwSwitch_near {s : State} {c : HostCmd} (h : Ready 0x51 0 s c) (ht : timeOk (begun s c) (pktQ c.pkt 2) = false) :
    execFwSwitch c s = .next (finishTaken (begun s c) c stBadParam 0 []) := by
  unfold execFwSwitch
  exact takeCmd_refuse h (by simp [ht])

/-- Settles O58: each of the four bodies tests T against the take before it does anything. -/
theorem timesTooNearAreRefused : Obligations.TimesTooNearAreRefused := by
  intro s c row op form T hrow hready hT
  suffices exec (row c) s = .next (finishTaken (begun s c) c stBadParam 0 []) by
    rw [this, finishTaken, begun_now]; rfl
  have near {q : Nat} (h : T = q) : timeOk (begun s c) q = false := timeOk_of_near (by simpa [← h] using hT)
  simp only [List.mem_cons, Prod.mk.injEq, List.not_mem_nil, or_false] at hrow
  obtain ⟨rfl, rfl, rfl, e⟩ | ⟨rfl, rfl, rfl, e⟩ | ⟨rfl, rfl, rfl, e⟩ | ⟨rfl, rfl, rfl, e⟩ := hrow
  · exact takeCmd_refuse hready (hoistSwitch_near (near e))
  · exact takeCmd_refuse hready (haltAt_near (near e))
  · exact execFwSwitch_near hready (near e)
  · exact takeCmd_refuse hready (grantWindow_near (near e))

end Sys2Proof.Machine
end

section
/-! PROOF. Giving up frames, moving units and switching hoists leave the halt and the full-array window as they are (R418, R421): no operation under a
switch, a resume or the end of the window writes either. -/

namespace Sys2Proof.Machine

/-- Whether the part runs, and where the full-array window stands. -/
def runOf (s : State) : HaltState × Window := (s.hal.halt, s.hal.window)

theorem halt_of_runOf {s t : State} (e : runOf t = runOf s) : t.hal.halt = s.hal.halt := congrArg Prod.fst e

theorem window_of_runOf {s t : State} (e : runOf t = runOf s) : t.hal.window = s.hal.window := congrArg Prod.snd e

/-- Every piece but the hoists' (bit 4). -/
abbrev offHal : Nat := 0x1ffffef

theorem runOf_of_hal {s t : State} (e : t.hal = s.hal) : runOf t = runOf s := by unfold runOf; rw [e]

theorem runOf_of_moves {s t : State} (h : Moves offHal s t) : runOf t = runOf s := runOf_of_hal (h.frame.b4 rfl)

theorem runOf_foldl {α : Type} {f : State → α → State} (h : ∀ s x, runOf (f s x) = runOf s) (l : List α) (s : State) :
    runOf (l.foldl f s) = runOf s := by
  induction l generalizing s with
  | nil => rfl
  | cons x l ih => exact (ih _).trans (h s x)

/-! ### Records, and the ends of frames -/

@[simp] theorem runOf_faultTraced (s : State) (code cls : Nat) (site : Site) (stream : Option Nat) (frame d0 d1 : Dword) (time : Fc) :
    runOf (faultTraced s code cls site stream frame d0 d1 time) = runOf s :=
  runOf_of_moves (moves_faultTraced rfl (Moves.refl s))

@[simp] theorem runOf_spanClosed (b s : State) : runOf (spanClosed b s) = runOf s := runOf_of_moves (moves_spanClosed rfl (Moves.refl s))

@[simp] theorem runOf_fireSource (s : State) (n : Nat) (r : Option LogRecord) : runOf (fireSource s n r) = runOf s :=
  runOf_of_moves (moves_fireSource rfl (Moves.refl s))

@[simp] theorem runOf_postDev (s : State) (source code : Nat) (site : Site) (time : Fc) (detail : Nat) :
    runOf (postDev s source code site time detail) = runOf s := runOf_of_moves (moves_postDev rfl (Moves.refl s))

@[simp] theorem runOf_finishFirst (s : State) (p : PendKind → Bool) (status : Nat) (detail : Dword) (time : Fc) (w : List (Nat × List Byte)) :
    runOf (finishFirst s p status detail time w) = runOf s := runOf_of_moves (moves_finishFirst rfl (Moves.refl s))

@[simp] theorem runOf_rcNote (s : State) (off old : Nat) : runOf (rcNote s off old) = runOf s := runOf_of_moves (moves_rcNote rfl (Moves.refl s))

@[simp] theorem runOf_faultAt (s : State) (code cls : Nat) (site : Site) (stream : Option Nat) (frame d0 d1 : Dword) (time : Fc) :
    runOf (faultAt s code cls site stream frame d0 d1 time) = runOf s := by
  unfold faultAt
  extract_lets r hal s1 s4 pins s5
  have h1 : runOf s1 = runOf s := by
    unfold s1
    split
    · rfl
    · exact runOf_fireSource _ _ _
  clear_value s1
  have h4 : runOf s4 = runOf s := (runOf_faultTraced _ _ _ _ _ _ _ _ _).trans h1
  clear_value s4
  have h5 : runOf s5 = runOf s := h4
  clear_value s5
  split
  · split
    · exact h5
    · exact (runOf_spanClosed _ _).trans h5
  · exact h4

@[simp] theorem runOf_fault (s : State) (code cls : Nat) (site : Site) (d0 d1 : Dword) : runOf (fault s code cls site d0 d1) = runOf s :=
  runOf_faultAt _ _ _ _ _ _ _ _ _

@[simp] theorem runOf_faultFrame (s : State) (code cls : Nat) (site : Site) (st frame : Nat) (d0 d1 : Dword) :
    runOf (faultFrame s code cls site st frame d0 d1) = runOf s :=
  runOf_faultAt _ _ _ _ _ _ _ _ _

@[simp] theorem runOf_abortRecord (s : State) (code : Nat) (site : Site) (st frame : Nat) (d0 d1 : Dword) :
    runOf (abortRecord s code site st frame d0 d1) = runOf s :=
  (runOf_of_moves (moves_noteAbort rfl (Moves.refl _))).trans (runOf_faultFrame _ _ _ _ _ _ _ _)

theorem runOf_abortRecords (l : List (Nat × Nat)) (s : State) (code : Nat) (site : Site) :
    runOf (l.foldl (fun x f => abortRecord x code site f.1 f.2 0 0) s) = runOf s :=
  runOf_foldl (fun _ _ => runOf_abortRecord _ _ _ _ _ _ _) l s

@[simp] theorem runOf_hostOver (s : State) (st frame : Nat) : runOf (hostOver s st frame) = runOf s :=
  runOf_of_moves (moves_hostOver rfl (Moves.refl s))

@[simp] theorem runOf_hostRecordFails (s : State) (st : Nat) : runOf (hostRecordFails s st) = runOf s := by
  unfold hostRecordFails
  dsimp only
  split
  · split
    · rfl
    · exact (runOf_of_moves (moves_count rfl (Moves.refl _))).trans (runOf_faultFrame _ _ _ _ _ _ _ _)
  · rfl

@[simp] theorem runOf_sealSlot (s : State) (st : Nat) (r : HostRec) (status code : Nat) : runOf (sealSlot s st r status code) = runOf s := by
  unfold sealSlot
  extract_lets d t
  split
  · exact runOf_hostOver _ _ _
  · split
    · exact runOf_hostOver _ _ _
    split
    · exact (runOf_hostOver _ _ _).trans (runOf_hostRecordFails s st)
    · extract_lets a s1 s2 s3 s4
      have h2 : runOf s2 = runOf s := runOf_of_moves (moves_traceNow rfl (moves_emitWrites rfl (Moves.refl s)))
      have h3 : runOf s3 = runOf s := by
        unfold s3; split
        · exact (runOf_of_moves (moves_postStream rfl (Moves.refl s2))).trans h2
        · exact h2
      have h4 : runOf s4 = runOf s := by
        unfold s4; split
        · exact (runOf_of_moves (moves_bufferDone rfl (Moves.refl s3))).trans h3
        · exact h3
      exact (runOf_hostOver _ _ _).trans h4

@[simp] theorem runOf_traceNow (s : State) (type : Nat) (site : Site) (stream : Option Nat) (frame : Dword) (d0 d1 d2 : Nat) :
    runOf (traceNow s type site stream frame d0 d1 d2) = runOf s := runOf_of_moves (moves_traceNow rfl (Moves.refl s))
@[simp] theorem runOf_egressFinish (s : State) (st : Nat) (r : EgressRec) (b : Bool) : runOf (egressFinish s st r b) = runOf s :=
  runOf_of_moves (moves_egressFinish rfl (Moves.refl s))
@[simp] theorem runOf_removeFrame (s : State) (st frame : Nat) : runOf (removeFrame s st frame) = runOf s :=
  runOf_of_moves (moves_removeFrame rfl (Moves.refl s))

@[simp] theorem runOf_endResults (s : State) (st frame code : Nat) : runOf (endResults s st frame code) = runOf s := by
  unfold endResults
  extract_lets s1 s2 s3
  have h1 : runOf s1 = runOf s := by
    unfold s1
    split
    · split
      · extract_lets y
        have hy : runOf y = runOf s := runOf_egressFinish _ _ _ _
        split
        · split
          · exact hy
          · exact (runOf_traceNow _ _ _ _ _ _ _ _).trans hy
        · exact hy
      · rfl
    · rfl
  have h2 : runOf s2 = runOf s := by
    unfold s2
    split
    · split
      · exact (runOf_sealSlot _ _ _ _ _).trans h1
      · exact h1
    · exact h1
  exact h2

@[simp] theorem runOf_ingressAbort (s : State) (st : Nat) (f : Frame) (code : Nat) : runOf (ingressAbort s st f code) = runOf s := by
  unfold ingressAbort
  extract_lets s1 s2 void c c' s3 s4
  have h1 : runOf s1 = runOf s := runOf_abortRecord _ _ _ _ _ _ _
  have h2 : runOf s2 = runOf s := by
    unfold s2; split
    · exact (runOf_traceNow _ _ _ _ _ _ _ _).trans h1
    · exact h1
  have h4 : runOf s4 = runOf s := (runOf_endResults _ _ _ _).trans h2
  split
  · exact h4
  · exact (runOf_removeFrame _ _ _).trans h4

@[simp] theorem runOf_deadlineMiss (s : State) (st : Nat) (f : Frame) : runOf (deadlineMiss s st f) = runOf s := by
  unfold deadlineMiss
  extract_lets c s1 s2 s3
  have h3 : runOf s3 = runOf s := by
    have h1 : runOf s1 = runOf s := runOf_rcNote s _ _
    have h2 : runOf s2 = runOf s1 := runOf_of_moves (moves_countEvent rfl (moves_count rfl (Moves.refl s1)))
    exact (runOf_of_moves (moves_postEvent rfl (Moves.refl s2))).trans (h2.trans h1)
  split
  · exact (runOf_ingressAbort _ _ _ _).trans h3
  · exact h3

@[simp] theorem runOf_deadlinesAtResume (s : State) : runOf (deadlinesAtResume s) = runOf s := by
  unfold deadlinesAtResume
  refine runOf_foldl (fun x st => runOf_foldl (fun y f => ?_) _ _) _ _
  split
  · exact runOf_deadlineMiss _ _ _
  · rfl

/-! ### Elements and links that a switch cuts -/

@[simp] theorem runOf_elementDrop (s : State) (e : EndPoint) (st frame code : Nat) : runOf (elementDrop s e st frame code) = runOf s := by
  unfold elementDrop elementDropWith
  split
  · exact runOf_of_moves (moves_tileFrameDrop rfl (Moves.refl s))
  · exact runOf_of_moves (moves_tileFrameDrop rfl (Moves.refl s))
  · exact runOf_of_moves (moves_tileFrameDrop rfl (Moves.refl s))
  · exact runOf_of_moves (moves_steerDrop rfl (Moves.refl s))
  · have h1 : Moves offHal s (discardInput s e st frame) := moves_discardInput rfl (Moves.refl s)
    dsimp only
    split
    · exact runOf_of_moves h1
    · exact runOf_of_moves (moves_voidOn rfl h1)
  · exact runOf_of_moves (moves_queueDrop rfl (Moves.refl s))
  · rw [runOf_removeFrame, runOf_endResults]
    exact runOf_of_moves (moves_discardInput rfl (Moves.refl s))
  · exact runOf_of_moves (moves_txVoid rfl (Moves.refl s))
  · exact runOf_of_moves (moves_discardInput rfl (Moves.refl s))

@[simp] theorem runOf_emptyLink (s : State) (p : EndPoint) (code : Nat) (frames : List (Nat × Nat)) : runOf (emptyLink s p code frames) = runOf s := by
  unfold emptyLink
  extract_lets paths s0 s1 s2
  have h0 : runOf s0 = runOf s := by
    unfold s0; split
    · exact runOf_of_moves (moves_dropFlights rfl (Moves.refl s))
    · rfl
  have h1 : runOf s1 = runOf s0 := runOf_foldl (fun x _ => runOf_foldl (fun y _ => runOf_elementDrop y _ _ _ _) _ x) _ _
  have h2 : runOf s2 = runOf s1 := runOf_foldl (fun _ _ => runOf_of_moves (moves_setInBuf rfl (Moves.refl _))) _ _
  exact (runOf_of_moves (moves_setLink rfl (Moves.refl s2))).trans (h2.trans (h1.trans h0))

@[simp] theorem runOf_cutLink (s : State) (h k : Nat) (p : EndPoint) : runOf (cutLink s h k p) = runOf s := by
  unfold cutLink
  split
  · rfl
  split
  · rfl
  · extract_lets paths failing frameAt named s1 all site told s2 s3 fabric
    have h1 : runOf s1 = runOf s := runOf_foldl (fun _ _ => runOf_fault _ _ _ _ _ _) _ _
    have h2 : runOf s2 = runOf s1 := runOf_foldl (fun _ _ => runOf_abortRecord _ _ _ _ _ _ _) _ _
    exact (runOf_emptyLink s2 p 0x0902 all).trans (h2.trans h1)

@[simp] theorem runOf_cutSteering (s : State) (h k : Nat) (u : Site) : runOf (cutSteering s h k u) = runOf s := by
  unfold cutSteering
  extract_lets t field frames s1 flushed
  have h1 : runOf s1 = runOf s := runOf_foldl
    (fun _ _ => (runOf_of_moves (moves_steerDrop rfl (Moves.refl _))).trans (runOf_abortRecord _ _ _ _ _ _ _)) _ _
  exact h1

@[simp] theorem runOf_spanCut (s : State) (p : Nat) (same : Nat → Bool → Bool) : runOf (spanCut s p same) = runOf s := by
  unfold spanCut
  refine runOf_foldl (fun x j => ?_) _ _
  exact runOf_foldl (fun _ _ => (runOf_of_moves (moves_subVoid rfl (Moves.refl _))).trans (runOf_abortRecord _ _ _ _ _ _ _)) _ _

@[simp] theorem runOf_cutQueue (s : State) (q : Nat) : runOf (cutQueue s q) = runOf s := by
  unfold cutQueue
  exact (runOf_of_moves (moves_flushContents rfl (Moves.refl _))).trans (runOf_abortRecords _ _ _ _)

@[simp] theorem runOf_leaveQueues (s : State) (h k : Nat) : runOf (leaveQueues s h k) = runOf s := by
  unfold leaveQueues
  refine runOf_foldl (fun x q => ?_) _ _
  split
  · exact runOf_cutQueue x q
  · rfl

@[simp] theorem runOf_settleCut (s : State) (q : Nat) : runOf (settleCut s q) = runOf s := by
  unfold settleCut
  split
  · rfl
  · extract_lets s1 x s2
    have h1 : runOf s1 = runOf s := runOf_cutQueue s q
    have h2 : runOf s2 = runOf s := by
      unfold s2; clear_value s1; split
      · exact h1
      · exact h1
    clear_value s2
    exact (runOf_of_moves (moves_activateQueue rfl (Moves.refl s2))).trans h2

@[simp] theorem runOf_feedResumes (s : State) : runOf (feedResumes s) = runOf s := by
  unfold feedResumes
  refine (runOf_foldl (fun _ _ => runOf_settleCut _ _) _ _).trans ?_
  exact runOf_foldl (fun _ _ => runOf_of_moves (moves_channelServes rfl (Moves.refl _))) _ _

@[simp] theorem runOf_cutElement (s : State) (u : Site) : runOf (cutElement s u) = runOf s := by
  unfold cutElement
  extract_lets holds ends s0 sT s1 recorded s2 s3 tile
  split
  · rfl
  have h0 : runOf s0 = runOf s := runOf_fault _ _ _ _ _ _
  have hT : runOf sT = runOf s0 := runOf_foldl
    (fun _ _ => (runOf_of_moves (moves_tilesGiveUp rfl (Moves.refl _))).trans (runOf_abortRecord _ _ _ _ _ _ _)) _ _
  have h1 : runOf s1 = runOf sT := (runOf_of_moves (moves_clearBoard rfl (Moves.refl _))).trans (runOf_foldl
    (fun _ _ => (runOf_of_moves (moves_tileFrameDrop rfl (Moves.refl _))).trans (runOf_abortRecord _ _ _ _ _ _ _)) _ _)
  have hr : runOf recorded = runOf s1 := runOf_abortRecords _ _ _ _
  have h2 : runOf s2 = runOf recorded := runOf_foldl (fun x _ => runOf_foldl (fun y _ => runOf_foldl
    (fun z _ => runOf_elementDrop z _ _ _ _) _ y) _ x) _ _
  have h3 : runOf s3 = runOf s2 := runOf_foldl
    (fun _ _ => runOf_of_moves (moves_returnCredits rfl (moves_setInBuf rfl (Moves.refl _)))) _ _
  have h : runOf s3 = runOf s := h3.trans (h2.trans (hr.trans (h1.trans (hT.trans h0))))
  split <;> exact h

@[simp] theorem runOf_sectionCut (s : State) (h k : Nat) : runOf (sectionCut s h k) = runOf s := by
  unfold sectionCut
  extract_lets changed s1 s2 s3 same s4
  have h1 : runOf s1 = runOf s := runOf_foldl runOf_cutElement _ _
  have h2 : runOf s2 = runOf s1 := runOf_foldl (fun x u => runOf_cutSteering x h k u) _ _
  have h3 : runOf s3 = runOf s2 := runOf_leaveQueues _ _ _
  have h4 : runOf s4 = runOf s3 := runOf_foldl (fun x p => runOf_spanCut x p _) _ _
  exact (runOf_foldl (fun x p => runOf_cutLink x h k p) _ _).trans (h4.trans (h3.trans (h2.trans h1)))

/-! ### The fabric emptied, and switches -/

@[simp] theorem runOf_cutFrame (s : State) (code st frame : Nat) : runOf (cutFrame s code st frame) = runOf s := by
  unfold cutFrame
  extract_lets s1
  have h1 : runOf s1 = runOf s := runOf_abortRecord _ _ _ _ _ _ _
  clear_value s1
  split
  · exact h1
  · extract_lets s2 s3
    have h2 : runOf s2 = runOf s := by
      unfold s2; split
      · exact (runOf_traceNow _ _ _ _ _ _ _ _).trans h1
      · exact h1
    clear_value s2
    have h3 : runOf s3 = runOf s := h2
    rw [runOf_removeFrame, runOf_endResults, h3]

theorem runOf_cutFrames (gone : List (Nat × Nat)) (code : Nat) (s : State) : runOf (gone.foldl (fun x q => cutFrame x code q.1 q.2) s) = runOf s :=
  runOf_foldl (fun x q => by exact runOf_cutFrame x code q.1 q.2) gone s

theorem runOf_clearTiles (s : State) : runOf (clearTiles s) = runOf s := rfl

@[simp] theorem runOf_flushFabric (s : State) (code : Nat) (gone : List (Nat × Nat)) (after : StreamCtx → StreamCtx) :
    runOf (flushFabric s code gone after) = runOf s := by
  unfold flushFabric
  extract_lets s1 fabric s2
  have h1 : runOf s1 = runOf s := (runOf_clearTiles _).trans (runOf_cutFrames gone code s)
  clear_value s1
  have h2 : runOf s2 = runOf s := h1
  clear_value s2
  exact (runOf_of_moves (moves_startQueues rfl (moves_clearGlue rfl (Moves.refl s2)))).trans h2

@[simp] theorem runOf_boundaryFlush (s : State) (code : Nat) (gone : List (Nat × Nat)) : runOf (boundaryFlush s code gone) = runOf s := by
  unfold boundaryFlush
  exact (runOf_foldl (fun _ _ => runOf_of_moves (moves_spanBoundary rfl (Moves.refl _))) _ _).trans (runOf_flushFabric _ _ _ _)

@[simp] theorem runOf_unbindTiles (s : State) (code : Nat) : runOf (unbindTiles s code) = runOf s :=
  runOf_of_moves (moves_unbindTiles rfl (Moves.refl s))

@[simp] theorem runOf_withHoists (s : State) (hoists : List Hoist) (active : Option Nat) : runOf (withHoists s hoists active) = runOf s := rfl

@[simp] theorem runOf_switchLeaves (s : State) (target : Nat) (boundary : Bool) : runOf (switchLeaves s target boundary) = runOf s := by
  unfold switchLeaves
  split
  · exact runOf_unbindTiles _ _
  · split
    · split
      · rfl
      · exact runOf_sectionCut _ _ _
    · rfl

@[simp] theorem runOf_switchEnters (s : State) (before : Option Nat) (same boundary : Bool) (target : Nat) (gone : List (Nat × Nat)) :
    runOf (switchEnters s before same boundary target gone) = runOf s := by
  unfold switchEnters
  extract_lets s1
  have h1 : runOf s1 = runOf s := by
    unfold s1
    split
    · exact runOf_boundaryFlush _ _ _
    split
    · rfl
    · split
      · exact runOf_of_moves (moves_dropStrayOuts rfl (moves_forgetSection rfl (moves_sectionQueues rfl (Moves.refl s))))
      · rfl
  split
  · exact h1
  · exact h1

@[simp] theorem runOf_lateSwitches (l : List LateSwitch) (s : State) : runOf (lateSwitches s l) = runOf s := by
  induction l generalizing s with
  | nil => rfl
  | cons w rest ih =>
    unfold lateSwitches
    dsimp only
    rw [ih, runOf_withHoists, runOf_switchEnters, runOf_withHoists, runOf_switchLeaves, runOf_withHoists]

/-! ### Units -/

theorem runOf_roundOver (s : State) (time : Fc) : runOf (roundOver s time) = runOf s := by
  unfold roundOver
  extract_lets p
  split
  · rfl
  · exact runOf_postDev _ _ _ _ _ _

theorem runOf_endProof (s : State) (status detail : Nat) : runOf (endProof s status detail) = runOf s := by
  unfold endProof
  extract_lets p ended hal s1
  split
  · exact runOf_finishFirst s1 _ _ _ _ _
  · exact runOf_roundOver s1 _

theorem runOf_unitGone (s : State) (u : Site) : runOf (unitGone s u) = runOf s := by
  unfold unitGone
  extract_lets s1 p
  have h1 : runOf s1 = runOf s := runOf_of_moves (moves_finishEvery rfl (moves_scaleLost rfl (Moves.refl s)))
  split
  · exact (runOf_endProof _ _ _).trans h1
  split
  · exact (runOf_finishFirst _ _ _ _ _ _).trans h1
  · exact h1

@[simp] theorem runOf_moveUnit (s : State) (u : Site) (c : UnitCtl) : runOf (moveUnit s u c) = runOf s := by
  have hc : Moves offHal s (setCtl s u c) := moves_setCtl rfl (Moves.refl s)
  unfold moveUnit
  split
  · exact runOf_of_moves hc
  · have h1 := runOf_of_moves (moves_postDev (source := 0x1B) (code := 0x0076) (site := unitName u) (time := s.now) (detail := unitCode c.state) rfl hc)
    dsimp only
    split
    · exact (runOf_unitGone _ _).trans h1
    · exact h1

end Sys2Proof.Machine
end

section
/-! PROOF. A hoist switch pends and lands (R36, R37, R70, R71, R75, R78, R256). -/

namespace Sys2Proof.Machine

/-- A switch that R75 allows, with no other pending, pends with its target, kind and time. -/
theorem hoistSwitch_allowed {s : State} {p : Packet} (hp : pktOnly p [(2, 0x103), (3, 0xFFFFFFFF), (4, 0xFFFFFFFF)] = true)
    (hx : (hoistOf s (dbits (pktDw p 2) 1 0)).state = .armed ∨ (hoistOf s (dbits (pktDw p 2) 1 0)).state = .mirror)
    (ht : timeOk s (pktQ p 3) = true)
    (hb : dbit (pktDw p 2) 8 = true ∨ (hoistOf s (dbits (pktDw p 2) 1 0)).state = .mirror ∨ isSuccessor s (dbits (pktDw p 2) 1 0) = true)
    (hn : s.hal.hostSwitch = none) (ha : s.hal.autoSwitch = none) :
    hoistSwitch s p = .pend .hoistSwitch { s with hal := { s.hal with
      hostSwitch := some { target := dbits (pktDw p 2) 1 0, boundary := dbit (pktDw p 2) 8, time := pktQ p 3 } } } := by
  have h1 : ((hoistOf s (dbits (pktDw p 2) 1 0)).state == .armed || (hoistOf s (dbits (pktDw p 2) 1 0)).state == .mirror) = true := by
    simpa using hx
  have h2 : (!dbit (pktDw p 2) 8 && !((hoistOf s (dbits (pktDw p 2) 1 0)).state == .mirror || isSuccessor s (dbits (pktDw p 2) 1 0))) = false := by
    rcases hb with h | h | h <;> simp [h]
  unfold hoistSwitch
  dsimp only
  rw [hp, h1, ht, h2, hn, ha]
  rfl

/-- The halyard is at T and no host switch is pending: the state in which the host switch lands or is given up (R36). -/
def atSwitch (s : State) (w : HostSwitch) : State := { s with now := max s.now w.time, hal := { s.hal with hostSwitch := none } }

/-- What the landing of a host switch does. -/
theorem execHoistSwitchLands_eq {s : State} {w : HostSwitch} (hw : s.hal.hostSwitch = some w) (hl : landsNext s w.time 1 = true) :
    execHoistSwitchLands s = .next (if (hoistOf s w.target).state = .armed ∨ (hoistOf s w.target).state = .mirror
      then finishFirst (landSwitch (atSwitch s w) w.target w.boundary false) (fun k => k == .hoistSwitch) stOK 0 w.time
      else finishFirst (atSwitch s w) (fun k => k == .hoistSwitch) stAborted 0 w.time) := by
  unfold execHoistSwitchLands
  rw [hw]
  dsimp only
  rw [hl, if_neg (by decide)]
  exact (apply_ite done _ _ _).symm

/-- The records of the damaged elements told, and the cut to their mirror (R78). -/
def autoSwitched (s : State) (a : AutoSwitch) : State := landSwitch (tellRecovery (advance s a.time) 0x0231 a) a.mirror false true

/-- What the landing of the automatic switch does: with a host switch pending to the same hoist, that one completes (R78). -/
theorem execAutoMirrorSwitch_eq {s : State} {a : AutoSwitch} (ha : s.hal.autoSwitch = some a) (hl : landsNext s a.time 0 = true) :
    execAutoMirrorSwitch s = .next (if s.hal.hostSwitch.any (fun w => w.target == a.mirror)
      then finishFirst { autoSwitched s a with hal := { (autoSwitched s a).hal with hostSwitch := none } } (fun k => k == .hoistSwitch) stOK 0 a.time
      else autoSwitched s a) := by
  unfold execAutoMirrorSwitch autoSwitched
  rw [ha]
  dsimp only
  rw [hl, if_neg (by decide)]
  exact (apply_ite done _ _ _).symm

/-- Settles O18: the body pends, and each landing is its equation. -/
theorem hoistSwitchesPendAndLand : Obligations.HoistSwitchesPendAndLand := by
  refine ⟨?_, ?_, ?_⟩
  · intro s c s1 h hready hroom hp hx ht hb hn ha
    exact takeCmd_pend hready hroom (hoistSwitch_allowed hp hx (timeOk_of_ahead ht) hb hn ha)
  · intro s w hw hl s1
    have e := execHoistSwitchLands_eq hw hl
    refine ⟨fun hx => ?_, fun hx hy => ?_⟩
    · rw [if_pos hx] at e; exact e
    · rw [if_neg (not_or.mpr ⟨hx, hy⟩)] at e; exact e
  · intro s a ha hl t
    have e := execAutoMirrorSwitch_eq ha hl
    have ht : autoSwitched s a = t := rfl
    rw [ht] at e
    clear_value t
    refine ⟨fun hn => ?_, fun w hw hm => ?_⟩
    · have hj : s.hal.hostSwitch.any (fun w => w.target == a.mirror) = false := by
        cases hw : s.hal.hostSwitch with
        | none => rfl
        | some w => simpa using hn w hw
      rw [if_neg (by rw [hj]; decide)] at e; exact e
    · have hj : s.hal.hostSwitch.any (fun w => w.target == a.mirror) = true := by simp [hw, hm]
      rw [if_pos hj] at e; exact e

end Sys2Proof.Machine
end

section
/-! PROOF. The halt lands at T and RESUME ends it (R37, R421, R422, R425). -/

namespace Sys2Proof.Machine

theorem haltAt_allowed {s : State} {p : Packet} (hp : pktOnly p [(2, 0xFFFFFFFF), (3, 0xFFFFFFFF)] = true) (ht : timeOk s (pktQ p 2) = true)
    (hr : s.hal.halt = .running) (hw : windowBusy s.hal.window = false) :
    haltAt s p = .pend .haltAt { s with hal := { s.hal with halt := .pending, haltTime := pktQ p 2 } } := by
  unfold haltAt
  rw [hp]
  simp [ht, hr, hw]

theorem resume_halted {s : State} {p : Packet} (hp : pktOnly p [] = true) (hh : s.hal.halt = .halted) :
    resume s p = .finish stOK 2048 [] { s with hal := { s.hal with halt := .resuming, resumeTime := s.now + 2048 } } := by
  simp [resume, hp, hh, okAt]

theorem resume_pending {s : State} {p : Packet} (hp : pktOnly p [] = true) (hh : s.hal.halt = .pending) :
    resume s p = .finish stOK 0 [] (finishFirst { s with hal := { s.hal with halt := .running } } (fun k => k == .haltAt) stAborted 0 s.now) := by
  simp [resume, hp, hh, okAt]

/-- The state in which the part has just come to stand still at T, behind the record and event 0x0050. -/
def haltedAt (s : State) : State :=
  let s2 := spanHaltEchoes { advance s s.hal.haltTime with hal := { s.hal with halt := .halted } }
  postDev (traceNow s2 0x0021 noSite none noFrame 0 0 0) 0x19 0x0050 noSite s.hal.haltTime 0

theorem execHaltLands_eq {s : State} (hh : s.hal.halt = .pending) (hl : landsNext s s.hal.haltTime 2 = true) :
    execHaltLands s = .next (syncAllHolds (finishFirst (haltedAt s) (fun k => k == .haltAt) stOK 0 s.hal.haltTime)) := by
  unfold execHaltLands
  rw [if_neg (by simp [hh, hl])]
  rfl

@[simp] theorem spanHaltEchoes_frame (s : State) : (spanHaltEchoes s).hal = s.hal ∧ (spanHaltEchoes s).now = s.now := by
  have h : Moves 0x4000 s (spanHaltEchoes s) := moves_spanHaltEchoes rfl (Moves.refl s)
  exact ⟨h.frame.b4 rfl, h.frame.b0 rfl⟩

theorem haltedAt_hal (s : State) : (haltedAt s).hal = { s.hal with halt := .halted } := by simp [haltedAt]

theorem haltedAt_now (s : State) : (haltedAt s).now = max s.now s.hal.haltTime := by simp [haltedAt]

/-! ### The resume -/

/-- The part runs again at the resume's time: what stood still goes on that much later, and the switches that landed meanwhile take hold. -/
def resumedAt (s : State) : State :=
  let s1 := shiftTimes s.hal.haltTime s.hal.resumeTime (advance s s.hal.resumeTime)
  feedResumes (lateSwitches { s1 with hal := { s1.hal with halt := .running, late := [] }
                                      span := s1.span.map (fun x => { x with echoes := [] }) } s1.hal.late)

/-- Every piece but the halyard. -/
abbrev offNow : Nat := 0x1fffffe

theorem now_of_moves {s t : State} (h : Moves offNow s t) : t.now = s.now := h.frame.b0 rfl

theorem resumedAt_halt (s : State) : (resumedAt s).hal.halt = .running := by
  exact halt_of_runOf ((runOf_feedResumes _).trans (runOf_lateSwitches _ _))

theorem resumedAt_now (s : State) : (resumedAt s).now = max s.now s.hal.resumeTime :=
  (now_of_moves (moves_feedResumes rfl (moves_lateSwitches rfl (Moves.refl _)))).trans rfl

/-- The record and event 0x0051 of the resume; a capture that it meets is given up (R425). -/
def resumeTold (s : State) (tr : Fc) : State :=
  let s3 := postDev (traceNow s 0x0022 noSite none noFrame 0 0 0) 0x19 0x0051 noSite tr 0
  if s3.snap.capturing then finishFirst { s3 with snap := { s3.snap with capturing := false } } (fun k => k == .snapshotCapture) stAborted 0 tr else s3

theorem execResumeLands_eq {s : State} (hh : s.hal.halt = .resuming) (hl : landsNext s s.hal.resumeTime 2 = true) :
    execResumeLands s = .next (syncAllHolds (deadlinesAtResume (resumeTold (resumedAt s) s.hal.resumeTime))) := by
  unfold execResumeLands
  rw [if_neg (by simp [hh, hl])]
  rfl

@[simp] theorem resumeTold_hal (s : State) (tr : Fc) : (resumeTold s tr).hal = s.hal := by
  unfold resumeTold
  dsimp only
  split <;> simp

@[simp] theorem resumeTold_now (s : State) (tr : Fc) : (resumeTold s tr).now = s.now := by
  unfold resumeTold
  dsimp only
  split <;> simp

/-- Settles O27: the bodies at the takes, and the two landings; nothing that a resume sets going writes the halt. -/
theorem theHaltIsConsistentAndResumes : Obligations.TheHaltIsConsistentAndResumes := by
  refine ⟨?_, ?_, ?_, ?_⟩
  · intro s c s1 hready hroom hp ht hr hw
    exact takeCmd_pend hready hroom (haltAt_allowed hp (timeOk_of_ahead ht) hr hw)
  · intro s hh hl
    exact ⟨haltedAt s, execHaltLands_eq hh hl, by rw [haltedAt_hal], haltedAt_now s⟩
  · intro s c s1 hready hp
    exact ⟨fun hh => takeCmd_finish hready (resume_halted hp hh), fun hh => takeCmd_finish hready (resume_pending hp hh)⟩
  · intro s hh hl
    refine ⟨_, execResumeLands_eq hh hl, ?_, ?_⟩
    · rw [(syncAllHolds_frame _).2.1, halt_of_runOf (runOf_deadlinesAtResume _), resumeTold_hal, resumedAt_halt]
    · rw [(syncAllHolds_frame _).1, (deadlinesAtResume_frame _).1, resumeTold_now, resumedAt_now]

end Sys2Proof.Machine
end

section
/-! PROOF. SELF_TEST forces proofs and opens the full-array window (R37, R410, R417, R418). -/

namespace Sys2Proof.Machine

/-! ### Op 0: a unit to prove next -/

theorem unitState_setProof (s : State) (p : Proof) (u : Site) : unitState (setProof s p) u = unitState s u := by
  unfold unitState ctlOf
  rfl

/-- A DISABLED unit is armed straight into its proof. -/
theorem armUnit_disabled {s : State} {u : Site} (serving : Bool) (h : unitState s u = .disabled) :
    armUnit s u serving = setProof s { s.hal.proof with
      state := .proof, site := unitName u, repeated := false, armedAt := s.now, serving := serving,
      roundAt := if serving then s.hal.proof.roundAt else u } := by
  simp [armUnit, h]

/-- The unit of a packet is named as the one to be proven next. -/
def forceProof (s : State) (p : Packet) : State :=
  setProof s { s.hal.proof with forced := some (siteElem (pktDw p 3), dbit (pktDw p 2) 8) }

theorem proveUnit_allowed {s : State} {p : Packet} (h2 : dbits (pktDw p 2) 2 0 = 0) (ha : siteAbsent (pktDw p 3) = false)
    (hp : pktOnly p [(2, 0x107), (3, 0xFFFFFFFF)] = true) (hv : proveSite (pktDw p 3) = true) (hs : sitePresent (siteElem (pktDw p 3)) = true)
    (hl : unitLost s (siteElem (pktDw p 3)) = false)
    (hn : isPending s (fun k => match k with | .proveUnit _ => true | _ => false) = false) :
    proveUnit s p = .pend (.proveUnit (siteElem (pktDw p 3)))
      (if unitState s (siteElem (pktDw p 3)) = .disabled ∧ mayArm s then armUnit (forceProof s p) (siteElem (pktDw p 3)) true else forceProof s p) := by
  unfold proveUnit
  dsimp only
  rw [h2, ha, hp, hv, hs, hl, if_neg (by decide), if_neg (by decide), if_neg (by decide), if_neg (by decide)]
  exact if_neg (ne_true_of_eq_false hn)

/-! ### Ops 1 to 3 -/

theorem requestWindow_allowed {s : State} {p : Packet} (hp : pktOnly p [(2, 7)] = true) (hn : windowPends s = false) :
    requestWindow s p = .pend .window (postDev { s with hal := { s.hal with window := .requested } } 0x1B 0x0071 noSite s.now 0) := by
  unfold requestWindow
  rw [hp, hn]
  rfl

theorem grantWindow_allowed {s : State} {p : Packet} (hp : pktOnly p [(2, 7), (4, 0xFFFFFFFF), (5, 0xFFFFFFFF)] = true) (hw : windowPends s = true)
    (ht : timeOk s (pktQ p 4) = true) (hr : s.hal.halt = .running) (hb : windowBusy s.hal.window = false) :
    grantWindow s p = .pend .windowGrant { s with hal := { s.hal with window := .scheduled (pktQ p 4) } } := by
  unfold grantWindow
  dsimp only
  rw [hp, hw, ht, hr, hb]
  rfl

theorem selfTestReport_allowed {s : State} {p : Packet} (hp : pktOnly p [(2, 7), (4, 0xFFFFFFFF), (5, 0xFFFFFFFF)] = true) (ha : pktQ p 4 % 64 = 0) :
    selfTestReport s p = .finish stOK 0 [(pktQ p 4, lostReport s)] s := by
  unfold selfTestReport
  dsimp only
  rw [hp, ha]
  rfl

/-! ### The window starts and ends -/

/-- The fabric is empty at T: every frame with a beat in it has been aborted (R418). -/
def windowFlushed (s : State) (t : Fc) : State :=
  let gone := fabricFrames (advance s t)
  flushFabric (unbindTiles (gone.foldl (fun x q => spanDropFrame x 0x0E20 q) (advance s t)) 0x0E20) 0x0E20 gone leaveFabric

theorem windowFlushed_now (s : State) (t : Fc) : (windowFlushed s t).now = max s.now t := by
  unfold windowFlushed
  refine (now_of_moves (s := advance s t) (moves_flushFabric rfl (moves_unbindTiles rfl ?_))).trans rfl
  exact Moves.foldl (Moves.refl _) fun x q h => moves_spanDropFrame rfl h

theorem execFullWindowStart_eq {s : State} {t : Nat} (hw : s.hal.window = .scheduled t) (hl : landsNext s t 4 = true) :
    execFullWindowStart s = .next (syncAllHolds (finishFirst
      (postDev { windowFlushed s t with hal := { (windowFlushed s t).hal with window := .running t } } 0x1B 0x0073 noSite t 0)
      (fun k => k == .windowGrant) stOK 0 t)) := by
  unfold execFullWindowStart windowFlushed
  rw [hw]
  dsimp only
  rw [hl, if_neg (by decide)]
  dsimp only [done]

/-- The units of which the window's end reports a failure: present, tested by the window, not LOST before, each once. -/
def failedUnits (s : State) (failed : List Site) : List Site :=
  dedup ((failed.filter (fun u => sitePresent (siteElem u) && decide (siteKind u ≤ 5 ∨ siteKind u = 10) && !unitLost s (siteElem u))).map siteElem)

/-- The record 0x0E11, and the unit LOST. -/
def failUnit (s : State) (u : Site) : State := moveUnit (fault s 0x0E11 2 (unitName u) 0 0) u { ctlOf s u with state := .lost }

/-- The window is closed and the units that failed are LOST. -/
def windowClosed (s : State) (units : List Site) : State :=
  units.foldl failUnit (boundaryFlush (unbindTiles { s with hal := { s.hal with window := .none } } 0x0220) 0x0220 (cutFrames s))

theorem windowClosed_window (s : State) (units : List Site) : (windowClosed s units).hal.window = .none := by
  have h (x : State) (u : Site) : runOf (failUnit x u) = runOf x := (runOf_moveUnit _ _ _).trans (runOf_fault _ _ _ _ _ _)
  exact window_of_runOf ((runOf_foldl h units _).trans ((runOf_boundaryFlush _ _ _).trans (runOf_unbindTiles _ _)))

theorem windowClosed_now (s : State) (units : List Site) : (windowClosed s units).now = s.now := by
  refine (now_of_moves (s := { s with hal := { s.hal with window := .none } }) ?_).trans rfl
  exact Moves.foldl (moves_boundaryFlush rfl (moves_unbindTiles rfl (Moves.refl _))) fun x u h => moves_moveUnit rfl (moves_fault rfl h)

theorem execFullWindowEnd_eq {s : State} {t : Nat} {failed : List Site} (hw : s.hal.window = .running t) :
    execFullWindowEnd failed s = .next (syncAllHolds (finishFirst
      (postDev (windowClosed s (failedUnits s failed)) 0x1B 0x0074 noSite s.now (failedUnits s failed).length)
      (fun k => k == .window) stOK (dw (failedUnits s failed).length) s.now)) := by
  have e : execFullWindowEnd failed s = .next (syncAllHolds (finishFirst
      (postDev (windowClosed s (failedUnits s failed)) 0x1B 0x0074 noSite (windowClosed s (failedUnits s failed)).now (failedUnits s failed).length)
      (fun k => k == .window) stOK (dw (failedUnits s failed).length)
      (postDev (windowClosed s (failedUnits s failed)) 0x1B 0x0074 noSite (windowClosed s (failedUnits s failed)).now (failedUnits s failed).length).now)) := by
    unfold execFullWindowEnd
    rw [hw]
    rfl
  rw [e, (postDev_frame _ _ _ _ _ _).1, windowClosed_now]

/-- Settles O24: the four bodies at the takes; the window's start empties the fabric and its end makes the failed units LOST, and neither moves the halyard
on. -/
theorem selfTestsForceProofsAndOpenTheWindow : Obligations.SelfTestsForceProofsAndOpenTheWindow := by
  refine ⟨?_, ?_, ?_, ?_, ?_, ?_⟩
  · intro s c s1 u hready hroom h2 ha hp hv hs hl hn
    have e := takeCmd_pend hready hroom (proveUnit_allowed h2 ha hp hv hs hl hn)
    by_cases hd : unitState s1 u = .disabled ∧ mayArm s1 = true
    · rw [if_pos hd, armUnit_disabled (s := forceProof s1 c.pkt) true ((unitState_setProof s1 _ u).trans hd.1)] at e
      exact ⟨_, e, rfl, rfl, fun _ _ => ⟨rfl, rfl, rfl⟩, fun hnot => by simp [hd.1, hd.2] at hnot⟩
    · rw [if_neg hd] at e
      exact ⟨_, e, rfl, rfl, fun h1 h2 => absurd ⟨h1, h2⟩ hd, fun _ => ⟨rfl, rfl⟩⟩
  · intro s c s1 hready hroom hp hn
    exact takeCmd_pend hready hroom (requestWindow_allowed hp hn)
  · intro s c s1 hready hroom hp hw ht hr hb
    exact takeCmd_pend hready hroom (grantWindow_allowed hp hw (timeOk_of_ahead ht) hr hb)
  · intro s c hready hp ha
    exact takeCmd_finish hready (selfTestReport_allowed hp ha)
  · intro s T hw hl
    exact ⟨windowFlushed s T, execFullWindowStart_eq hw hl, windowFlushed_now s T⟩
  · intro s T failed hw units
    exact ⟨windowClosed s units, execFullWindowEnd_eq hw, windowClosed_window s units, windowClosed_now s units⟩

end Sys2Proof.Machine
end

section
/-! PROOF. Snapshots are captured, copied and released (R37, R424, R427, R428, R434). -/

namespace Sys2Proof.Machine

/-- The halyard time of the last echo that a capture waits for. -/
def captureTime (s : State) : Fc := ((List.range Config.spanPorts).map (echoesBy s)).foldl max 0

/-- The cut stands in its region: the bytes are written and the capture is over. -/
def captured (s : State) (a : Nat) (bytes : List Byte) : State :=
  lpddrPut { s with snap := { s.snap with capturing := false, region := some (a, bytes.length), capturedAt := s.now } } a bytes

theorem execSnapshotCaptureDone_eq {s : State} {a : Nat} {bytes : List Byte} (hc : s.snap.capturing = true) (hr : readsInFlight s = false)
    (ht : reaches s (captureTime s) = true)
    (hb : bytes = snapBytes (advance s (captureTime s)) (advance s (captureTime s)).snap.flags)
    (hp : snapPlace (advance s (captureTime s)) bytes.length = some a) :
    execSnapshotCaptureDone s = .next (finishFirst (captured (advance s (captureTime s)) a bytes) (fun k => k == .snapshotCapture) stOK
      (dw (bytes.length / 4096)) (captured (advance s (captureTime s)) a bytes).now) := by
  unfold captureTime at *
  unfold execSnapshotCaptureDone captured
  dsimp only
  rw [hc, hr, ht, ← hb, hp, if_neg (by decide)]
  rfl

/-- A write to LPDDR5 depends on nothing outside the feed. -/
theorem lpddrPut_lpddr_of_feed {s t : State} (e : t.feed = s.feed) (a : Nat) (bytes : List Byte) :
    (lpddrPut t a bytes).feed.lpddr = (lpddrPut s a bytes).feed.lpddr := by
  unfold lpddrPut channelOf
  rw [e]

theorem captured_lpddr (s : State) (t : Fc) (a : Nat) (bytes : List Byte) :
    (captured (advance s t) a bytes).feed.lpddr = (lpddrPut s a bytes).feed.lpddr :=
  lpddrPut_lpddr_of_feed rfl a bytes

theorem snapshotCapture_allowed {s : State} {p : Packet} {a : Nat} (hp : pktOnly p [(2, 3), (3, 15)] = true) (h2 : dbits (pktDw p 2) 1 0 = 0)
    (hh : s.hal.halt = .halted) (hc : s.snap.capturing = false) (ha : snapPlace s (snapBytes s (dbits (pktDw p 3) 3 0)).length = some a) :
    snapshotCapture s p = .pend .snapshotCapture { s with snap := { s.snap with capturing := true, flags := dbits (pktDw p 3) 3 0 } } := by
  unfold snapshotCapture
  dsimp only
  rw [hp, h2, hh, hc, ha]
  rfl

/-- The part of the region that a copy names lies in it, in units of 4,096 bytes, and is at most 2^24 bytes. -/
theorem snapshotCopy_allowed {s : State} {p : Packet} {r : Nat × Nat} (hr : s.snap.region = some r) (hc : s.snap.copy = none)
    (hp : pktOnly p [(2, 3), (4, 0xFFFFFFFF), (5, 0xFFFFFFFF), (6, 0xFFFFFFFF), (7, 0xFFFFFFFF), (8, 0xFFFFFFFF)] = true)
    (ho : pktQ p 4 % 4096 = 0) (hl : (pktDw p 6).toNat % 4096 = 0) (hh : pktQ p 7 % 4096 = 0) (hm : (pktDw p 6).toNat ≤ 2 ^ 24)
    (hin : pktQ p 4 + (pktDw p 6).toNat ≤ r.2) :
    snapshotCopy s p = .pend .snapshotCopy (addJob { s with snap := { s.snap with copy := some (r.1 + pktQ p 4, (pktDw p 6).toNat, pktQ p 7) } }
      .snapshot false (r.1 + pktQ p 4) (pktDw p 6).toNat) := by
  unfold snapshotCopy
  dsimp only
  rw [hr]
  dsimp only
  rw [hp, hc, ho, hl, hh, decide_eq_false (Nat.not_lt.mpr hm), decide_eq_false (Nat.not_lt.mpr hin)]
  rfl

theorem snapshotRelease_allowed {s : State} {p : Packet} (hp : pktOnly p [(2, 3)] = true) (hr : s.snap.region ≠ none) :
    snapshotRelease s p = .finish stOK 0 [] { s with snap := { s.snap with region := none } } := by
  unfold snapshotRelease
  rw [hp]
  simp [hr, okAt]

/-- A copy whose lines have been read is issued. -/
theorem execSnapshotCopyDone_eq {s : State} {a len host : Nat} (hc : s.snap.copy = some (a, len, host)) (hj : jobPending s .snapshot = false) :
    execSnapshotCopyDone s = .next (finishFirst { s with snap := { s.snap with copy := none }, fresh := s.fresh + len }
      (fun k => k == .snapshotCopy) stOK 0 s.now [(host, jobBytes s a len)]) := by
  unfold execSnapshotCopyDone
  rw [hc]
  dsimp only
  rw [hj, if_neg (by decide)]
  rfl

/-- Settles O28: the bodies at the takes, and the two ends. -/
theorem snapshotsAreCapturedCopiedAndReleased : Obligations.SnapshotsAreCapturedCopiedAndReleased := by
  refine ⟨?_, ?_, ?_, ?_, ?_⟩
  · intro s c a s1 flags hready hroom hp h2 hh hc ha
    exact takeCmd_pend hready hroom (snapshotCapture_allowed hp h2 hh hc ha)
  · intro s a bytes hc hr s1 ht hb hp
    exact ⟨_, execSnapshotCaptureDone_eq hc hr ht hb hp, captured_lpddr s _ a bytes, rfl, rfl⟩
  · intro s c r s1 off len hready hroom hr hc hp ho hl hh hm hin
    exact takeCmd_pend hready hroom (snapshotCopy_allowed hr hc hp ho hl hh hm hin)
  · intro s a len host hc hj
    exact ⟨_, execSnapshotCopyDone_eq hc hj, rfl, rfl⟩
  · intro s c s1 hready hp hr
    exact takeCmd_finish hready (snapshotRelease_allowed hp hr)

end Sys2Proof.Machine
end

section
/-! PROOF. LIFECYCLE authorisations and WIPE (R31, R460, R461, R462, R464, R465, R466, R468). -/

namespace Sys2Proof.Machine

/-! ### LIFECYCLE -/

/-- The state as firmware takes a LIFECYCLE command: a new challenge stands (R466). -/
def challenged (s : State) : State := { s with sec := { s.sec with challenge := Config.entropy s.fresh }, fresh := s.fresh + 1 }

/-- What an authorisation of the right form does, against the challenge read before it. -/
def authorised (s : State) (c : HostCmd) (challenge : BitVec 256) (a : Auth) : State :=
  match authStatus s challenge a with
  | none => finishTaken (applyAuth s a) c stOK 0 []
  | some (st, d) => finishTaken s c st d []

/-- What the body of LIFECYCLE answers to an authorisation of the right form. -/
def authVerdict (s : State) (challenge : BitVec 256) (a : Auth) : Verdict :=
  match authStatus s challenge a with
  | none => okAt (applyAuth s a)
  | some (st, d) => refuse s st d

theorem lifecycleBody_eq {s : State} {c : HostCmd} {p : Packet} {bytes : List Byte} {a : Auth} (challenge : BitVec 256)
    (hp : pktOnly p [(2, 0xFFFFFFFF), (3, 0xFFFFFFFF), (4, 0xFFFFFFFF)] = true) (h64 : pktQ p 2 % 64 = 0) (hup : hostUp s = true)
    (ha : readAuth (bytes.take (pktDw p 4).toNat) (pktDw p 4).toNat = some a) :
    lifecycleBody challenge c (some bytes) s p = authVerdict s challenge a := by
  unfold lifecycleBody authVerdict
  dsimp only
  rw [hp, h64, hostRead, hup, if_pos rfl, if_neg (by decide), if_neg (by decide)]
  dsimp only
  rw [ha]
  dsimp only
  cases authStatus s challenge a <;> rfl

/-- A row of LIFECYCLE whose packet and authorisation have their form. -/
theorem lifecycleCmd_eq {s : State} {c : HostCmd} {bytes : List Byte} {a : Auth} {op : Nat} (ht : takeable s c = true)
    (hready : Ready 0x58 0 (challenged s) c) (hp : pktOnly c.pkt [(2, 0xFFFFFFFF), (3, 0xFFFFFFFF), (4, 0xFFFFFFFF)] = true)
    (h64 : pktQ c.pkt 2 % 64 = 0) (hup : hostUp (begun (challenged s) c) = true)
    (ha : readAuth (bytes.take (pktDw c.pkt 4).toNat) (pktDw c.pkt 4).toNat = some a) (hop : authOp (some bytes) = op) :
    lifecycleCmd op c (some bytes) s = .next (authorised (begun (challenged s) c) c s.sec.challenge a) := by
  have hb := lifecycleBody_eq (c := c) s.sec.challenge hp h64 hup ha
  unfold lifecycleCmd authorised
  rw [if_pos ⟨hop, hready.1, ht⟩]
  unfold authVerdict at hb
  split
  next hn => rw [hn] at hb; exact takeCmd_finish hready hb
  next st d hs => rw [hs] at hb; exact takeCmd_finish hready hb

/-- What a transition erases is neither the life cycle bits, the challenge nor a firmware key's fuse. -/
theorem eraseFor_frame (c : Sec) (l : LifeState) :
    (eraseFor c l).life = c.life ∧ (eraseFor c l).challenge = c.challenge ∧ (eraseFor c l).fwRevoked = c.fwRevoked := by
  cases l <;> exact ⟨rfl, rfl, rfl⟩

/-- What a transition writes of itself before the life cycle bit: the items of the state it goes to. -/
theorem transition_sec (s : State) (a : Auth) (dest : LifeState) :
    (transition s a dest).sec.life = dest ∧ (transition s a dest).sec.challenge = s.sec.challenge ∧
    (transition s a dest).sec.fwRevoked = s.sec.fwRevoked := by
  unfold transition
  extract_lets c c1 s1
  have hc : c1.challenge = s.sec.challenge ∧ c1.fwRevoked = s.sec.fwRevoked := by
    unfold c1
    split <;> exact ⟨rfl, rfl⟩
  obtain ⟨hlife, hchallenge, hrevoked⟩ := eraseFor_frame { c1 with life := dest } dest
  simp only [postDev_frame]
  exact ⟨hlife, hchallenge.trans hc.1, hrevoked.trans hc.2⟩

theorem transition_resetDue (s : State) (a : Auth) (dest : LifeState) :
    (transition s a dest).mgmt.resetDue = (askReset s).mgmt.resetDue := by
  unfold transition
  simp only [postDev_frame]

theorem applyAuth_transition {s : State} {a : Auth} {d : LifeState} (ho : a.op = 0) (hd : lifeOfCode a.target = some d) :
    applyAuth s a = transition s a d := by
  unfold applyAuth
  rw [ho, hd]
  rfl

theorem applyAuth_addKey {s : State} {a : Auth} (ho : a.op = 1) :
    (applyAuth s a).sec = { s.sec with imageKeys := s.sec.imageKeys.set a.target (.valid (keyIdOf a.payload)) } := by
  unfold applyAuth
  rw [ho]
  simp only [postDev_frame]

theorem applyAuth_revokeImageKey {s : State} {a : Auth} {x : BitVec 128} (ho : a.op = 2) (hx : lget s.sec.imageKeys a.target .empty = .valid x) :
    (applyAuth s a).sec = { s.sec with imageKeys := s.sec.imageKeys.set a.target (.revoked x) } := by
  unfold applyAuth
  rw [ho]
  simp only [postDev_frame, hx]

theorem applyAuth_revokeFwKey {s : State} {a : Auth} (ho : a.op = 3) :
    (applyAuth s a).sec = { s.sec with fwRevoked := s.sec.fwRevoked.set a.target true } := by
  unfold applyAuth
  rw [ho]
  simp only [postDev_frame]

/-! ### WIPE -/

/-- A byte that the predicate keeps reads as before, any other as never written. -/
theorem memGet_memKeep (m : Mem) (p : Nat → Bool) (x : Nat) : memGet (memKeep m p) x = if p x then memGet m x else memDefault := by
  unfold memGet memKeep
  rw [List.find?_filter]
  by_cases hx : p x = true
  · have hq : (fun c : Nat × Byte => decide (p c.1 = true ∧ decide (c.1 = x) = true)) = fun c => decide (c.1 = x) := by
      funext c
      by_cases hc : c.1 = x
      · simp [hc, hx]
      · simp [hc]
    rw [if_pos hx, hq]
  · have hn : m.find? (fun c => decide (p c.1 = true ∧ decide (c.1 = x) = true)) = none := by
      simp only [List.find?_eq_none, decide_eq_true_eq, not_and]
      rintro c - hc rfl
      exact hx hc
    rw [if_neg hx, hn]
    rfl

/-- A wipe keeps the bytes of the regions in use and those of a LOST channel (R224, R468). -/
def wipeKeeps (s : State) (x : Nat) : Bool := inRegions (regionsInUse s) x || (channelOf s (channelOfDpa x)).state == .lost

/-- The memory is wiped, behind event 0x0067. -/
def freeWiped (s : State) : State :=
  postDev { s with feed := { s.feed with wipeRunning := false, lpddr := memKeep s.feed.lpddr (wipeKeeps s),
                                         poisoned := s.feed.poisoned.filter (wipeKeeps s) } }
    0x1A 0x0067 (mgmtSite 3) s.now ((Config.memTop - ((regionsInUse s).map (·.2)).foldl (· + ·) 0) / 2 ^ 20)

theorem execWipeFreeSpaceDone_eq {s : State} (hw : s.feed.wipeRunning = true) (hj : jobPending s .wipe = false) :
    ∃ d, execWipeFreeSpaceDone s = .next (finishFirst (freeWiped s) (fun k => k == .wipeFree) stOK d s.now) := by
  unfold execWipeFreeSpaceDone freeWiped
  rw [hw, hj, if_neg (by decide)]
  exact ⟨_, rfl⟩

theorem freeWiped_feed (s : State) : (freeWiped s).feed.wipeRunning = false ∧ (freeWiped s).feed.lpddr = memKeep s.feed.lpddr (wipeKeeps s) := by
  unfold freeWiped
  simp only [postDev_frame, and_self]

theorem wipeFreeSpace_allowed {s : State} {c : HostCmd} (hp : pktOnly c.pkt [(2, 3)] = true) (hready : Ready 0x59 0 s c) (hroom : Room s c)
    (hz : dbits (pktDw c.pkt 2) 1 0 = 0) (hw : (begun s c).feed.wipeRunning = false) :
    execWipeFreeSpace c s = .next (pendTaken (addJobs { begun s c with feed := { (begun s c).feed with wipeRunning := true } } .wipe true
      (freeRanges (regionsInUse (begun s c)))) c .wipeFree) := by
  refine takeCmd_pend hready hroom ?_
  rw [hp, hz, hw]
  rfl

theorem wipeDevice_allowed {s : State} {c : HostCmd} (hp : pktOnly c.pkt [(2, 3)] = true) (hready : Ready 0x59 1 s c) :
    execWipeDevice c s = .next (finishTaken (askReset (begun s c)) c stOK 0 []) := by
  refine takeCmd_finish hready ?_
  rw [hp]
  rfl

theorem wipeStagedFirmware_allowed {s : State} {c : HostCmd} (hp : pktOnly c.pkt [(2, 3)] = true) (hready : Ready 0x59 2 s c)
    (hs : (begun s c).sec.swap = none) :
    execWipeStagedFirmware c s = .next (finishTaken
      { begun s c with sec := { setUncommitted (begun s c).sec none with staged := none } } c stOK 0 []) := by
  refine takeCmd_finish hready ?_
  rw [hp, hs]
  rfl

/-- Settles O49: the four rows share one body, each authorisation is its rule, and a wipe keeps what is in use and what a LOST channel holds. -/
theorem lifecycleAuthorisationsAndWipesAct : Obligations.LifecycleAuthorisationsAndWipesAct := by
  refine ⟨?_, ?_, ?_, ?_⟩
  · intro s c bytes a s0 s1 htake hready hp h64 hup ha
    have e {op : Nat} (hop : authOp (some bytes) = op) := lifecycleCmd_eq htake hready hp h64 hup ha hop
    exact ⟨fun h => e h, fun h => e h, fun h => e h, fun h => e h⟩
  · intro s a
    refine ⟨fun ho d hd => ?_, applyAuth_addKey, fun ho x hx => applyAuth_revokeImageKey ho hx, applyAuth_revokeFwKey⟩
    rw [applyAuth_transition ho hd]
    obtain ⟨hlife, hchallenge, hrevoked⟩ := transition_sec s a d
    exact ⟨hlife, transition_resetDue s a d, hchallenge, hrevoked⟩
  · intro s c s1 hp
    exact ⟨wipeFreeSpace_allowed hp, wipeDevice_allowed hp, wipeStagedFirmware_allowed hp⟩
  · intro s hw hj _
    obtain ⟨d, e⟩ := execWipeFreeSpaceDone_eq hw hj
    obtain ⟨hrun, hmem⟩ := freeWiped_feed s
    refine ⟨freeWiped s, d, e, hrun, fun x => ?_⟩
    rw [hmem, memGet_memKeep]
    rfl

end Sys2Proof.Machine
end

section
/-! PROOF. What the ingress keeps of a stream is its own (R28, R309 to R317): the ends of records, the results' paths and the host descriptor leave the
stream's state, frame ID, reception, buffer and misses as they are. -/

namespace Sys2Proof.Machine

/-- A stream context but for its frames and what the paths of its results keep. -/
def ownOf (c : StreamCtx) : StreamCtx :=
  { c with frames := [], egress := none, res := none, headSeen := false, headTaken := 0, batchCount := 0, desc := {} }

/-- How many streams there are, and what the ingress keeps of one. -/
def intake (s : State) (st : Nat) : Nat × StreamCtx := (s.streams.length, ownOf (streamOf s st))

section
variable {s t : State} {st : Nat}

theorem length_of_intake (e : intake t st = intake s st) : t.streams.length = s.streams.length := congrArg Prod.fst e

theorem own_of_intake (e : intake t st = intake s st) : ownOf (streamOf t st) = ownOf (streamOf s st) := congrArg Prod.snd e

theorem reception_of_intake (e : intake t st = intake s st) : (streamOf t st).reception = (streamOf s st).reception :=
  (congrArg StreamCtx.reception (own_of_intake e) :)

theorem nextId_of_intake (e : intake t st = intake s st) : (streamOf t st).nextId = (streamOf s st).nextId :=
  (congrArg StreamCtx.nextId (own_of_intake e) :)

theorem misses_of_intake (e : intake t st = intake s st) : (streamOf t st).misses = (streamOf s st).misses :=
  (congrArg StreamCtx.misses (own_of_intake e) :)

theorem buffer_of_intake (e : intake t st = intake s st) : (streamOf t st).buffer = (streamOf s st).buffer :=
  (congrArg StreamCtx.buffer (own_of_intake e) :)

theorem state_of_intake (e : intake t st = intake s st) : (streamOf t st).state = (streamOf s st).state :=
  (congrArg StreamCtx.state (own_of_intake e) :)

theorem modePending_of_intake (e : intake t st = intake s st) : (streamOf t st).modePending = (streamOf s st).modePending :=
  (congrArg StreamCtx.modePending (own_of_intake e) :)

end

/-- Every piece but the streams' (bit 12). -/
abbrev offStreams : Nat := 0x1ffefff

theorem streams_of_moves {s t : State} (h : Moves offStreams s t) : t.streams = s.streams := h.frame.b12 rfl

theorem streamOf_of_streams {s t : State} (e : t.streams = s.streams) (st : Nat) : streamOf t st = streamOf s st := by
  unfold streamOf; rw [e]

theorem intake_of_streams {s t : State} (e : t.streams = s.streams) (st : Nat) : intake t st = intake s st := by
  unfold intake streamOf; rw [e]

theorem intake_of_moves {s t : State} (h : Moves offStreams s t) (st : Nat) : intake t st = intake s st := intake_of_streams (streams_of_moves h) st

@[simp] theorem modStream_length (s : State) (st : Nat) (f : StreamCtx → StreamCtx) : (modStream s st f).streams.length = s.streams.length :=
  lmod_length _ _ _

@[simp] theorem setStream_length (s : State) (st : Nat) (c : StreamCtx) : (setStream s st c).streams.length = s.streams.length :=
  List.length_set

theorem intake_setStream {s : State} {st : Nat} {c : StreamCtx} (h : ownOf c = ownOf (streamOf s st)) :
    intake (setStream s st c) st = intake s st := by
  unfold intake
  rw [setStream_length]
  by_cases hl : st < s.streams.length
  · rw [streamOf_setStream _ _ hl, h]
  · rw [streamOf_of_streams (List.set_eq_of_length_le (Nat.le_of_not_lt hl))]

theorem intake_modStream {s : State} {st : Nat} {f : StreamCtx → StreamCtx} (h : ∀ c, ownOf (f c) = ownOf c) :
    intake (modStream s st f) st = intake s st := by
  unfold intake
  rw [modStream_length]
  by_cases hl : st < s.streams.length
  · rw [streamOf_modStream _ _ hl, h]
  · have e : (modStream s st f).streams = s.streams := by
      unfold modStream lmod
      rw [List.getElem?_eq_none (Nat.le_of_not_lt hl)]
    rw [streamOf_of_streams e]

@[simp] theorem intake_modFrame (s : State) (st frame : Nat) (f : Frame → Frame) : intake (modFrame s st frame f) st = intake s st :=
  intake_modStream fun _ => rfl

@[simp] theorem intake_setDesc (s : State) (st : Nat) (d : HostDesc) : intake (setDesc s st d) st = intake s st := intake_modStream fun _ => rfl

@[simp] theorem intake_removeFrame (s : State) (st frame : Nat) : intake (removeFrame s st frame) st = intake s st := by
  unfold removeFrame
  split
  · rfl
  · exact intake_modStream fun _ => rfl

/-- A record that is not of class 3 writes no stream. -/
theorem faultFrame_streams (s : State) (code : Nat) (site : Site) (st frame : Nat) (d0 d1 : Dword) :
    (faultFrame s code 1 site st frame d0 d1).streams = s.streams := by
  unfold faultFrame faultAt
  dsimp only
  rw [if_neg (by decide : ¬ (1 : Nat) = 3), if_neg (fun h : (1 : Nat) = 0 ∧ _ => absurd h.1 (by decide))]
  exact streams_of_moves (moves_faultTraced rfl (moves_fireSource rfl (Moves.refl s)))

@[simp] theorem intake_noteAbort (s : State) (st frame code : Nat) : intake (noteAbort s st frame code) st = intake s st := by
  unfold noteAbort
  dsimp only
  split
  · exact (intake_of_moves (moves_count rfl (Moves.refl _)) st).trans (intake_setStream rfl)
  · rfl

@[simp] theorem intake_abortRecord (s : State) (code : Nat) (site : Site) (st frame : Nat) (d0 d1 : Dword) :
    intake (abortRecord s code site st frame d0 d1) st = intake s st :=
  (intake_noteAbort _ _ _ _).trans (intake_of_streams (faultFrame_streams _ _ _ _ _ _ _) st)

@[simp] theorem intake_settleFrame (s : State) (st frame : Nat) : intake (settleFrame s st frame) st = intake s st := by
  unfold settleFrame
  split
  · split
    · extract_lets s1
      have h1 : intake s1 st = intake s st := intake_removeFrame _ _ _
      split
      · exact h1
      · exact (intake_of_moves (moves_countEvent rfl (moves_count rfl (Moves.refl s1))) st).trans h1
    · rfl
  · rfl

@[simp] theorem intake_descStops (s : State) (st : Nat) : intake (descStops s st) st = intake s st := by
  unfold descStops
  exact (intake_setDesc _ _ _).trans (intake_of_moves (moves_finishEvery rfl (moves_finishEvery rfl (Moves.refl s))) st)

@[simp] theorem intake_bufferDone (s : State) (st : Nat) (b : DescBuf) : intake (bufferDone s st b) st = intake s st := by
  unfold bufferDone
  extract_lets d s1
  have h1 : intake s1 st = intake s st := by
    unfold s1
    split
    · exact intake_of_moves (moves_postStream rfl (Moves.refl s)) st
    · rfl
  split
  · exact h1
  · split
    · exact (intake_of_moves (moves_finishFirst rfl (Moves.refl _)) st).trans ((intake_setDesc _ _ _).trans h1)
    · exact (intake_setDesc _ _ _).trans h1

@[simp] theorem intake_hostOver (s : State) (st frame : Nat) : intake (hostOver s st frame) st = intake s st := by
  unfold hostOver
  extract_lets s1 s2
  have h1 : intake s1 st = intake s st := intake_modStream fun _ => rfl
  have h2 : intake s2 st = intake s st := by
    unfold s2
    split
    · exact (intake_descStops _ _).trans h1
    · exact h1
  exact (intake_settleFrame _ _ _).trans ((intake_modFrame _ _ _ _).trans h2)

@[simp] theorem intake_hostRecordFails (s : State) (st : Nat) : intake (hostRecordFails s st) st = intake s st := by
  unfold hostRecordFails
  dsimp only
  split
  · split
    · rfl
    · refine (intake_of_moves (moves_count rfl (Moves.refl _)) st).trans ((intake_of_streams (faultFrame_streams _ _ _ _ _ _ _) st).trans ?_)
      exact intake_setStream rfl
  · rfl

@[simp] theorem intake_sealSlot (s : State) (st : Nat) (r : HostRec) (status code : Nat) : intake (sealSlot s st r status code) st = intake s st := by
  unfold sealSlot
  extract_lets d t
  split
  · exact intake_hostOver _ _ _
  split
  · exact intake_hostOver _ _ _
  split
  · exact (intake_hostOver _ _ _).trans (intake_hostRecordFails s st)
  · extract_lets a s1 s2 s3 s4
    have h2 : intake s2 st = intake s st := intake_of_moves (moves_traceNow rfl (moves_emitWrites rfl (Moves.refl s))) st
    have h3 : intake s3 st = intake s st := by
      unfold s3
      split
      · exact (intake_of_moves (moves_postStream rfl (Moves.refl s2)) st).trans h2
      · exact h2
    have h4 : intake s4 st = intake s st := by
      unfold s4
      split
      · exact (intake_bufferDone _ _ _).trans h3
      · exact h3
    exact (intake_hostOver _ _ _).trans h4

@[simp] theorem intake_egressFinish (s : State) (st : Nat) (r : EgressRec) (aborted : Bool) :
    intake (egressFinish s st r aborted) st = intake s st := by
  unfold egressFinish
  refine (intake_modStream fun _ => ?_).trans (intake_of_moves (moves_emitBlocks rfl (Moves.refl s)) st)
  rfl

@[simp] theorem intake_endResults (s : State) (st frame code : Nat) : intake (endResults s st frame code) st = intake s st := by
  unfold endResults
  extract_lets s1 s2 s3
  have h1 : intake s1 st = intake s st := by
    unfold s1
    split
    · split
      · extract_lets y
        have hy : intake y st = intake s st := intake_egressFinish _ _ _ _
        split
        · split
          · exact hy
          · exact (intake_of_moves (moves_traceNow rfl (Moves.refl y)) st).trans hy
        · exact hy
      · rfl
    · rfl
  have h2 : intake s2 st = intake s st := by
    unfold s2
    split
    · split
      · exact (intake_sealSlot _ _ _ _ _).trans h1
      · exact h1
    · exact h1
  have h3 : intake s3 st = intake s st := by
    refine (intake_modStream fun c => ?_).trans h2
    split
    · split <;> rfl
    · rfl
  exact (intake_modFrame _ _ _ _).trans h3

@[simp] theorem intake_frameGone (s : State) (st frame : Nat) : intake (frameGone s st frame) st = intake s st := by
  unfold frameGone
  dsimp only
  split
  · split
    · rfl
    split
    · exact intake_settleFrame _ _ _
    split
    · exact intake_removeFrame _ _ _
    · rfl
  · rfl

@[simp] theorem intake_syncHolds (s : State) (st : Nat) : intake (syncHolds s st) st = intake s st := by
  unfold syncHolds
  exact (intake_of_moves (moves_count rfl (Moves.refl _)) st).trans (intake_setStream rfl)

/-! ### The ingress gives a frame up (R317) -/

/-- An aborted frame is received no more; what the stream counts stays. -/
theorem ingressAbort_own {s : State} {st : Nat} (f : Frame) (code : Nat) (h : st < s.streams.length) :
    (ingressAbort s st f code).streams.length = s.streams.length ∧
    (streamOf (ingressAbort s st f code) st).reception =
      (if (streamOf s st).reception.any (fun r => r.frame == f.id) then none else (streamOf s st).reception) ∧
    (streamOf (ingressAbort s st f code) st).nextId = (streamOf s st).nextId ∧
    (streamOf (ingressAbort s st f code) st).misses = (streamOf s st).misses := by
  unfold ingressAbort
  extract_lets s1 s2 void c c' s3 s4
  have h2 : intake s2 st = intake s st := by
    unfold s2
    split
    · exact (intake_of_moves (moves_traceNow rfl (Moves.refl s1)) st).trans (intake_abortRecord _ _ _ _ _ _ _)
    · exact intake_abortRecord _ _ _ _ _ _ _
  clear_value s2
  have h3 : streamOf s3 st = { c' with reception := if c.reception.any (fun r => r.frame == f.id) then none else c.reception } :=
    streamOf_setStream _ _ (by rw [length_of_intake h2]; exact h)
  have hl : s3.streams.length = s.streams.length := (setStream_length _ _ _).trans (length_of_intake h2)
  have h4 : intake (if void then s4 else removeFrame s4 st f.id) st = intake s3 st := by
    have e : intake s4 st = intake s3 st := (intake_endResults _ _ _ _).trans (intake_modFrame _ _ _ _)
    split
    · exact e
    · exact (intake_removeFrame _ _ _).trans e
  refine ⟨(length_of_intake h4).trans hl, ?_, ?_, ?_⟩
  · rw [reception_of_intake h4, h3, ← reception_of_intake h2]
  · rw [nextId_of_intake h4, h3, ← nextId_of_intake h2]
    rfl
  · rw [misses_of_intake h4, h3, ← misses_of_intake h2]
    rfl

end Sys2Proof.Machine
end

section
/-! PROOF. Modes change at their time, and a deadline miss is counted (R36, R322, R323, R324, R327). -/

namespace Sys2Proof.Machine

theorem advance_streams (s : State) (t : Fc) : (advance s t).streams = s.streams := rfl

theorem misses_deadlineMiss {s : State} {st : Nat} (f : Frame) (h : st < s.streams.length) :
    (streamOf (deadlineMiss s st f) st).misses = sat 0xFFFFFFFF ((streamOf s st).misses + 1) := by
  unfold deadlineMiss
  extract_lets c s1 s2 s3
  have hr : (rcNote s (rcMisses st) c.misses).streams = s.streams := streams_of_moves (moves_rcNote rfl (Moves.refl s))
  have h1 : (streamOf s1 st).misses = sat 0xFFFFFFFF ((streamOf s st).misses + 1) := by
    rw [misses_of_intake (intake_modFrame _ _ _ _), streamOf_modStream _ _ (by rw [hr]; exact h), streamOf_of_streams hr]
  have hl : s1.streams.length = s.streams.length := by
    rw [length_of_intake (intake_modFrame _ st _ _), modStream_length, hr]
  have h3 : intake s3 st = intake s1 st :=
    intake_of_moves (moves_postEvent rfl (moves_countEvent rfl (moves_count rfl (Moves.refl s1)))) st
  split
  · rw [(ingressAbort_own _ _ (by rw [length_of_intake h3, hl]; exact h)).2.2.2, misses_of_intake h3, h1]
  · rw [misses_of_intake h3, h1]

/-! ### The change of mode -/

/-- A stream that moves is in its new state, and keeps the mode change that pends. -/
theorem streamOf_moveStream {s : State} {st : Nat} (x : StreamState) (h : st < s.streams.length) :
    streamOf (moveStream s st x) st = { streamOf s st with state := x } := by
  unfold moveStream
  split
  next e => rw [← e]
  next => rw [streamOf_of_streams (streams_of_moves (moves_postStream rfl (Moves.refl _))), streamOf_modStream _ _ h]

/-- After a change of mode the stream is in the mode's state (R322), and no other change of mode comes or goes with it. -/
theorem applyMode_state {s : State} {st : Nat} (m : Nat) (t : Fc) (h : st < s.streams.length) :
    (streamOf (applyMode s st m t) st).state = modeState m ∧ (streamOf (applyMode s st m t) st).modePending = (streamOf s st).modePending := by
  unfold applyMode
  extract_lets c freed fs c'
  split
  next e => exact ⟨e, rfl⟩
  next =>
    have hs := streamOf_moveStream (modeState m) (s := setStream s st { c' with frames := fs }) (st := st) (by rw [setStream_length]; exact h)
    rw [state_of_intake (intake_syncHolds _ _), modePending_of_intake (intake_syncHolds _ _), hs, streamOf_setStream _ _ h]
    exact ⟨rfl, rfl⟩

theorem dbits_stream_lt (x : Dword) : dbits x 4 0 < 32 := Nat.mod_lt _ (by decide)

/-- A stream that may change its mode is open and not closing, and a section of the active image serves it where the mode is INFER. -/
theorem modeAllowed_open {s : State} {st m : Nat} (h : modeAllowed s st m = true) :
    (streamOf s st).state ≠ .closed ∧ (streamOf s st).state ≠ .closing ∧ (m = 1 → servesStream s st = true) := by
  unfold modeAllowed at h
  split at h <;> simp_all

/-- A change of mode that R327 takes: at once where T is not ahead, else at T. -/
theorem streamMode_allowed {s : State} {p : Packet} (hp : pktOnly p [(2, 0x31F), (3, 0xFFFFFFFF), (4, 0xFFFFFFFF)] = true)
    (h3 : dbits (pktDw p 2) 9 8 ≠ 3) (ha : modeAllowed s (dbits (pktDw p 2) 4 0) (dbits (pktDw p 2) 9 8) = true)
    (hn : (streamOf s (dbits (pktDw p 2) 4 0)).modePending = none)
    (hd : (streamOf s (dbits (pktDw p 2) 4 0)).state ≠ modeState (dbits (pktDw p 2) 9 8)) :
    streamMode s p = if max (pktQ p 3) s.now = s.now
      then okAt (applyMode s (dbits (pktDw p 2) 4 0) (dbits (pktDw p 2) 9 8) (max (pktQ p 3) s.now))
      else .pend (.streamMode (dbits (pktDw p 2) 4 0))
        (modStream s (dbits (pktDw p 2) 4 0) (fun x => { x with modePending := some (dbits (pktDw p 2) 9 8, max (pktQ p 3) s.now) })) := by
  obtain ⟨hclosed, hclosing, hserves⟩ := modeAllowed_open ha
  have hst : ¬ Config.streams ≤ dbits (pktDw p 2) 4 0 := Nat.not_le.mpr (dbits_stream_lt _)
  have hm : (dbits (pktDw p 2) 9 8 == 1 && !servesStream s (dbits (pktDw p 2) 4 0)) = false := by
    by_cases h1 : dbits (pktDw p 2) 9 8 = 1
    · simp [hserves h1]
    · simp [h1]
  unfold streamMode
  dsimp only
  rw [if_neg hst, hp, ha, hm, hn, beq_eq_false_iff_ne.mpr h3, beq_eq_false_iff_ne.mpr hclosed, if_neg (by simp), if_neg (by simp [hclosing]),
    if_neg hd]

/-- The landing of a change of mode that is still allowed (R36, R327). -/
theorem execStreamModeLands_eq {s : State} {st m T : Nat} (hp : (streamOf s st).modePending = some (m, T)) (hl : landsNext s T 6 = true)
    (ha : modeAllowed (modStream (advance s T) st (fun c => { c with modePending := none })) st m = true) :
    execStreamModeLands st s = .next (finishFirst (applyMode (modStream (advance s T) st (fun c => { c with modePending := none })) st m T)
      (fun k => k == .streamMode st) stOK 0 T) := by
  have hp' : (streamOf (advance s T) st).modePending = some (m, T) := hp
  unfold execStreamModeLands
  rw [hp]
  dsimp only
  rw [hl, if_pos rfl]
  unfold modeLand
  rw [hp']
  dsimp only
  rw [ha, if_pos rfl]
  rfl

theorem execDeadlineExpiry_eq {s : State} {st fr : Nat} {f : Frame} (hf : frameOf (streamOf s st) fr = some f)
    (hw : deadlineWatched s st f = true) (hh : haltedNow s = false) (hr : reaches s (deadlineOf (streamOf s st) f) = true) :
    execDeadlineExpiry st fr s = .next (deadlineMiss (advance s (deadlineOf (streamOf s st) f)) st f) := by
  unfold execDeadlineExpiry
  rw [hf]
  dsimp only
  rw [hw, hh, hr]
  rfl

/-- Settles O21: the body at the take, the landing, and the count of a miss, which the abort of the late frame leaves standing. -/
theorem streamModesChangeAtTheirTime : Obligations.StreamModesChangeAtTheirTime := by
  refine ⟨?_, ?_, ?_⟩
  · intro s c s1 st m hready hlen hp h3 ha hn hd
    have hb := streamMode_allowed hp h3 ha hn hd
    refine ⟨fun hT hroom => ?_, fun hT => ?_⟩
    · rw [Nat.max_eq_left hT.le, if_neg hT.ne'] at hb
      exact takeCmd_pend hready hroom hb
    · rw [Nat.max_eq_right hT, if_pos rfl] at hb
      have hst : st < s1.streams.length := by rw [hlen]; exact dbits_stream_lt _
      exact ⟨_, takeCmd_finish hready hb, (applyMode_state m s1.now hst).1⟩
  · intro s st m T hlen hst hpend hl ha
    have hst' : st < (advance s T).streams.length := by rw [advance_streams, hlen]; exact hst
    obtain ⟨hstate, hmode⟩ := applyMode_state (s := modStream (advance s T) st (fun c => { c with modePending := none })) m T
      (by rw [modStream_length]; exact hst')
    refine ⟨_, execStreamModeLands_eq hpend hl ha, hstate, ?_, ?_⟩
    · rw [hmode, streamOf_modStream _ _ hst']
    · rw [now_of_moves (moves_applyMode rfl (Moves.refl _))]
      exact Nat.le_max_right _ _
  · intro s st fr f hlen hst hf hw hh hr
    have hst' : st < (advance s (deadlineOf (streamOf s st) f)).streams.length := by
      rw [advance_streams, hlen]; exact hst
    exact ⟨_, execDeadlineExpiry_eq hf hw hh hr, misses_deadlineMiss f hst', (deadlineMiss_frame _ _ _).1⟩

end Sys2Proof.Machine
end

section
/-! PROOF. The ingress takes frames block by block (R28, R309, R311 to R317, R323). -/

namespace Sys2Proof.Machine

/-! ### A framing error ends the reception (R317) -/

theorem frameOf_id {c : StreamCtx} {frame : Nat} {f : Frame} (h : frameOf c frame = some f) : f.id = frame := by
  unfold frameOf at h
  simpa using List.find?_some h

theorem receiving_eq_some {s : State} {st : Nat} {r : Reception} {f : Frame} (h : receiving s st = some (r, f)) :
    (streamOf s st).reception = some r ∧ f.id = r.frame := by
  unfold receiving at h
  dsimp only at h
  split at h
  next r' hr =>
    obtain ⟨g, hg, e⟩ := Option.map_eq_some_iff.mp h
    obtain ⟨rfl, rfl⟩ := Prod.mk.inj e
    exact ⟨hr, frameOf_id hg⟩
  next => exact absurd h (by simp)

theorem receiving_none {s : State} {st : Nat} (h : (streamOf s st).reception = none) : receiving s st = none := by
  unfold receiving
  dsimp only
  rw [h]

/-- An error ends the reception, and takes no frame ID. -/
theorem receiveError_own {s : State} {st : Nat} (code : Nat) (h : st < s.streams.length) :
    (receiveError s st code).streams.length = s.streams.length ∧
    (streamOf (receiveError s st code) st).reception = none ∧ (streamOf (receiveError s st code) st).nextId = (streamOf s st).nextId := by
  unfold receiveError
  split
  next r f hrf =>
    obtain ⟨hr, hf⟩ := receiving_eq_some hrf
    obtain ⟨hlen, hrec, hid, -⟩ := ingressAbort_own f code h
    refine ⟨hlen, ?_, hid⟩
    rw [hrec, hr]
    simp [hf]
  next =>
    rw [streamOf_modStream _ _ h]
    exact ⟨modStream_length _ _ _, rfl, rfl⟩

theorem receiveError_reception {s : State} {st : Nat} (code : Nat) (h : st < s.streams.length) :
    (streamOf (receiveError s st code) st).reception = none := (receiveError_own code h).2.1

/-! ### FRAME_START -/

/-- The frame that a FRAME_START opens. -/
def startedFrame (s : State) (st : Nat) (payload : BitVec 64) : Frame :=
  let c := streamOf s st
  let courier := c.state == .courier
  { id := c.nextId, arrival := s.now, courier := courier, dip := c.state == .dip, start := payload,
    egressDone := !courier && c.path % 2 == 0, hostDone := courier || c.path / 2 % 2 == 0 }

/-- The context with the frame in it, and its reception begun. -/
def startedCtx (s : State) (st : Nat) (payload : BitVec 64) : StreamCtx :=
  let c := streamOf s st
  { c with nextId := frameSucc c.nextId, frames := c.frames ++ [startedFrame s st payload], reception := some { frame := c.nextId } }

/-- The frame is open, counted and traced; nothing of it stands in the buffer yet. -/
def frameStarted (s : State) (st : Nat) (payload : BitVec 64) : State :=
  traceNow (count (count (setStream s st (startedCtx s st payload)) (streamCounter st 0) 1) (streamCounter st 3)
    (b2n ((streamOf s st).state == .courier))) 0x0010 (laneSite st) (some st) (dw (streamOf s st).nextId) 0 0 0

theorem frameStarted_streams (s : State) (st : Nat) (payload : BitVec 64) :
    (frameStarted s st payload).streams = s.streams.set st (startedCtx s st payload) :=
  streams_of_moves (moves_traceNow rfl (moves_count rfl (moves_count rfl (Moves.refl _))))

@[simp] theorem frameStarted_length (s : State) (st : Nat) (payload : BitVec 64) :
    (frameStarted s st payload).streams.length = s.streams.length := by
  rw [frameStarted_streams, List.length_set]

theorem streamOf_frameStarted {s : State} {st : Nat} (payload : BitVec 64) (h : st < s.streams.length) :
    streamOf (frameStarted s st payload) st = startedCtx s st payload :=
  (streamOf_of_streams (frameStarted_streams s st payload) st).trans (streamOf_setStream s _ h)

/-- A new frame is refused, is a courier frame, or goes in behind its open tack line, for which the buffer has room or not. -/
theorem newFrame_eq (s : State) (st : Nat) (payload : BitVec 64) :
    newFrame s st payload =
      if !startAgrees (streamOf s st) payload.toNat then receiveError (frameStarted s st payload) st 0x0B03
      else if (streamOf s st).state == .courier then frameStarted s st payload
      else match writeEntries s.now [openEntry st (startedFrame s st payload)] (streamOf (frameStarted s st payload) st) with
        | some x => syncHolds (setStream (frameStarted s st payload) st x) st
        | none => receiveError (frameStarted s st payload) st 0x0B10 := by
  rfl

/-- One entry into a buffer with room for it. -/
def oneEntry (now : Fc) (e : BufEntry) (c : StreamCtx) : StreamCtx :=
  { withBuffer c (c.buffer ++ [{ e with entered := max now c.nextWrite }]) with nextWrite := max now c.nextWrite + 1 }

theorem writeEntries_one (now : Fc) (e : BufEntry) (c : StreamCtx) :
    writeEntries now [e] c = if bufferFull (max now c.nextWrite) c then none else some (oneEntry now e c) := rfl

section
variable {s : State} {st : Nat} {payload : BitVec 64}

theorem newFrame_disagrees (ha : startAgrees (streamOf s st) payload.toNat = false) :
    newFrame s st payload = receiveError (frameStarted s st payload) st 0x0B03 := by
  rw [newFrame_eq, ha]
  rfl

theorem newFrame_courier (ha : startAgrees (streamOf s st) payload.toNat = true) (hc : (streamOf s st).state = .courier) :
    newFrame s st payload = frameStarted s st payload := by
  rw [newFrame_eq, ha, hc]
  rfl

theorem newFrame_full (h : st < s.streams.length) (ha : startAgrees (streamOf s st) payload.toNat = true) (hc : (streamOf s st).state ≠ .courier)
    (hf : bufferFull (max s.now (streamOf s st).nextWrite) (streamOf s st) = true) :
    newFrame s st payload = receiveError (frameStarted s st payload) st 0x0B10 := by
  have hw : writeEntries s.now [openEntry st (startedFrame s st payload)] (streamOf (frameStarted s st payload) st) = none := by
    rw [streamOf_frameStarted _ h, writeEntries_one]
    exact if_pos hf
  rw [newFrame_eq, ha, beq_eq_false_iff_ne.mpr hc, hw]
  rfl

/-- The context with the frame and its open tack line. -/
def tackedCtx (s : State) (st : Nat) (payload : BitVec 64) : StreamCtx :=
  oneEntry s.now (openEntry st (startedFrame s st payload)) (startedCtx s st payload)

theorem newFrame_room (h : st < s.streams.length) (ha : startAgrees (streamOf s st) payload.toNat = true) (hc : (streamOf s st).state ≠ .courier)
    (hf : bufferFull (max s.now (streamOf s st).nextWrite) (streamOf s st) = false) :
    newFrame s st payload = syncHolds (setStream (frameStarted s st payload) st (tackedCtx s st payload)) st := by
  have hw : writeEntries s.now [openEntry st (startedFrame s st payload)] (streamOf (frameStarted s st payload) st) =
      some (tackedCtx s st payload) := by
    rw [streamOf_frameStarted _ h, writeEntries_one]
    exact if_neg (ne_true_of_eq_false hf)
  rw [newFrame_eq, ha, beq_eq_false_iff_ne.mpr hc, hw, if_neg (by decide), if_neg (by decide)]

end

/-- Admitting frames renames none. -/
theorem admitList_ids (room : Option Nat) (n : Nat) (l : List Frame) : (admitList room n l).1.map (·.id) = l.map (·.id) := by
  induction l generalizing n with
  | nil => rfl
  | cons f rest ih =>
    unfold admitList
    split
    · simp [ih]
    · simp [ih]

theorem syncHolds_ids {s : State} {st : Nat} (h : st < s.streams.length) :
    (streamOf (syncHolds s st) st).frames.map (·.id) = (streamOf s st).frames.map (·.id) := by
  unfold syncHolds
  rw [streamOf_of_streams (streams_of_moves (moves_count rfl (Moves.refl _))), streamOf_setStream _ _ h]
  exact (List.map_map ..).trans (admitList_ids _ _ _)

/-- The stream's context after a FRAME_START that it takes, with room for its open tack line. -/
theorem newFrame_room_own {s : State} {st : Nat} {payload : BitVec 64} (h : st < s.streams.length)
    (ha : startAgrees (streamOf s st) payload.toNat = true) (hc : (streamOf s st).state ≠ .courier)
    (hf : bufferFull (max s.now (streamOf s st).nextWrite) (streamOf s st) = false) :
    intake (newFrame s st payload) st = (s.streams.length, ownOf (tackedCtx s st payload)) ∧
    (streamOf (newFrame s st payload) st).frames.map (·.id) = (streamOf s st).frames.map (·.id) ++ [(streamOf s st).nextId] := by
  have hl : st < (frameStarted s st payload).streams.length := by rw [frameStarted_length]; exact h
  rw [newFrame_room h ha hc hf]
  constructor
  · rw [intake_syncHolds, intake, setStream_length, frameStarted_length, streamOf_setStream _ _ hl]
  · rw [syncHolds_ids (by rw [setStream_length]; exact hl), streamOf_setStream _ _ hl]
    exact List.map_append

/-- A FRAME_START that is refused at once takes its frame ID all the same (R28, R317). -/
theorem frameRefused_own {s : State} {st : Nat} (payload : BitVec 64) (code : Nat) (h : st < s.streams.length) :
    (receiveError (frameStarted s st payload) st code).streams.length = s.streams.length ∧
    (streamOf (receiveError (frameStarted s st payload) st code) st).reception = none ∧
    (streamOf (receiveError (frameStarted s st payload) st code) st).nextId = frameSucc (streamOf s st).nextId := by
  have hl : st < (frameStarted s st payload).streams.length := by rw [frameStarted_length]; exact h
  obtain ⟨hlen, hrec, hid⟩ := receiveError_own code hl
  refine ⟨hlen.trans (frameStarted_length _ _ _), hrec, ?_⟩
  rw [hid, streamOf_frameStarted _ h]
  rfl

/-- A FRAME_START takes the next frame ID, whatever comes of it (R28). -/
theorem newFrame_nextId {s : State} {st : Nat} (payload : BitVec 64) (h : st < s.streams.length) :
    (newFrame s st payload).streams.length = s.streams.length ∧ (streamOf (newFrame s st payload) st).nextId = frameSucc (streamOf s st).nextId := by
  have refused (code : Nat) := frameRefused_own payload code h
  by_cases ha : startAgrees (streamOf s st) payload.toNat = true
  · by_cases hc : (streamOf s st).state = .courier
    · rw [newFrame_courier ha hc, streamOf_frameStarted _ h]
      exact ⟨frameStarted_length _ _ _, rfl⟩
    · by_cases hf : bufferFull (max s.now (streamOf s st).nextWrite) (streamOf s st) = true
      · rw [newFrame_full h ha hc hf]
        exact ⟨(refused _).1, (refused _).2.2⟩
      · obtain ⟨hi, -⟩ := newFrame_room_own h ha hc (Bool.eq_false_iff.mpr hf)
        exact ⟨(congrArg Prod.fst hi :), (congrArg (fun i => i.2.nextId) hi :)⟩
  · rw [newFrame_disagrees (Bool.eq_false_iff.mpr ha)]
    exact ⟨(refused _).1, (refused _).2.2⟩

end Sys2Proof.Machine
end

section
/-! PROOF. The stripes and blocks of the ingress lanes, each taken or refused (R309 to R317). -/

namespace Sys2Proof.Machine

/-! ### FRAME_START and IDLE -/

theorem execFrameStartReceive_eq {s : State} {st : Nat} {w : BitVec 64} (whole : Bool) (hv : streamReceives s st = true) (hw : w.toNat % 256 = 0x78)
    (hm : (streamOf s st).modePending = none) (hr : (streamOf s st).reception = none) (hc : (streamOf s st).state ≠ .closing) :
    execFrameStartReceive st ⟨w, whole⟩ s =
      .next (if whole then newFrame s st w else receiveError (newFrame s st w) st 0x0B02) := by
  unfold execFrameStartReceive
  rw [hv, hw, if_neg (by decide)]
  dsimp only
  rw [hm]
  dsimp only
  rw [receiving_none hr, if_neg (show ¬ (none : Option (Reception × Frame)).isSome = true by decide), if_neg hc]
  cases whole <;> rfl

theorem execIdleStripeReceive_broken {s : State} {st : Nat} (hv : streamReceives s st = true) (hr : receiving s st ≠ none) :
    execIdleStripeReceive ⟨st, false⟩ s = .next (receiveError s st 0x0B02) := by
  unfold execIdleStripeReceive
  dsimp only
  rw [hv, Option.isSome_iff_ne_none.mpr hr]
  rfl

/-- A FRAME_START that agrees and finds its room opens its frame, behind its open tack line unless it is a courier frame (R314, R315). -/
theorem newFrame_opens {s : State} {st : Nat} {w : BitVec 64} (h : st < s.streams.length) (ha : startAgrees (streamOf s st) w.toNat = true)
    (hroom : (streamOf s st).state = .courier ∨ bufferFull (max s.now (streamOf s st).nextWrite) (streamOf s st) = false) :
    (streamOf (newFrame s st w) st).reception = some { frame := (streamOf s st).nextId } ∧
    (streamOf (newFrame s st w) st).frames.map (·.id) = (streamOf s st).frames.map (·.id) ++ [(streamOf s st).nextId] ∧
    (streamOf (newFrame s st w) st).buffer.map (fun e => (e.frame, e.released)) = (streamOf s st).buffer.map (fun e => (e.frame, e.released)) ++
      (if (streamOf s st).state = .courier then [] else [((streamOf s st).nextId, true)]) := by
  by_cases hc : (streamOf s st).state = .courier
  · rw [newFrame_courier ha hc, streamOf_frameStarted _ h, if_pos hc, List.append_nil]
    exact ⟨rfl, List.map_append, rfl⟩
  · obtain ⟨hi, hids⟩ := newFrame_room_own h ha hc (hroom.resolve_left hc)
    refine ⟨(congrArg (fun i => i.2.reception) hi :), hids, ?_⟩
    have hbuf : (streamOf (newFrame s st w) st).buffer = (tackedCtx s st w).buffer := (congrArg (fun i => i.2.buffer) hi :)
    rw [hbuf, if_neg hc]
    exact List.map_append

/-- A FRAME_START that disagrees with the context, or whose stripe is broken, takes its ID and is aborted (R309, R314, R317). -/
theorem frameStart_refused {s : State} {st : Nat} {w : BitVec 64} {whole : Bool} (h : st < s.streams.length)
    (hb : startAgrees (streamOf s st) w.toNat = false ∨ whole = false) :
    (streamOf (if whole then newFrame s st w else receiveError (newFrame s st w) st 0x0B02) st).nextId = frameSucc (streamOf s st).nextId ∧
    (streamOf (if whole then newFrame s st w else receiveError (newFrame s st w) st 0x0B02) st).reception = none := by
  cases whole with
  | true =>
    rw [if_pos rfl, newFrame_disagrees (hb.resolve_right (by decide))]
    obtain ⟨-, hrec, hid⟩ := frameRefused_own w 0x0B03 h
    exact ⟨hid, hrec⟩
  | false =>
    obtain ⟨hlen, hnext⟩ := newFrame_nextId w h
    obtain ⟨-, hrec, hid⟩ := receiveError_own 0x0B02 (hlen ▸ h : st < (newFrame s st w).streams.length)
    exact ⟨hid.trans hnext, hrec⟩

/-! ### Lines and data -/

section
variable {s : State} {st : Nat} {w : BitVec 64} {r : Reception} {f : Frame}

theorem execLineStartReceive_next (hv : streamReceives s st = true) (hr : receiving s st = some (r, f)) (hw : w.toNat % 256 = 0x2D)
    (ho : r.lineOpen = false) (hi : nbits w.toNat 31 8 = r.line) (hl : r.line < frameLines (streamOf s st)) :
    execLineStartReceive st w s =
      .next (setReception s st { r with lineOpen := true, lineBytes := [], lineEntries := 0, lineCrc := 0xFFFFFFFF }) := by
  unfold execLineStartReceive
  rw [hv, hw, hr]
  dsimp only
  rw [ho, hi, decide_eq_false (Nat.not_le.mpr hl)]
  simp [done]

theorem execLineStartReceive_broken (hv : streamReceives s st = true) (hr : receiving s st = some (r, f)) (hw : w.toNat % 256 = 0x2D)
    (hb : r.lineOpen = true ∨ nbits w.toNat 31 8 ≠ r.line ∨ frameLines (streamOf s st) ≤ r.line) :
    execLineStartReceive st w s = .next (receiveError s st 0x0B02) := by
  have h : (r.lineOpen || nbits w.toNat 31 8 != r.line || decide (frameLines (streamOf s st) ≤ r.line)) = true := by
    simpa [or_assoc] using hb
  unfold execLineStartReceive
  rw [hv, hw, hr]
  dsimp only
  rw [h]
  rfl

/-- A control block of no listed type ends the reception (R310, R312). -/
theorem execLineStartReceive_stray (hv : streamReceives s st = true) (hr : receiving s st = some (r, f))
    (hw : blockTypes.contains (w.toNat % 256) = false) : execLineStartReceive st w s = .next (receiveError s st 0x0B02) := by
  have h : (w.toNat % 256 != 0x2D) = true := by
    refine bne_iff_ne.mpr fun e => ?_
    rw [e] at hw
    exact absurd hw (by decide)
  unfold execLineStartReceive strayBlock
  rw [hv, h, hw, hr]
  rfl

theorem execDataBlockReceive_eq (hv : streamReceives s st = true) (hr : receiving s st = some (r, f)) :
    execDataBlockReceive st w s = .next (lineData s st r f w) := by
  unfold execDataBlockReceive
  rw [hv, hr]
  rfl

theorem lineData_closed (ho : r.lineOpen = false) : lineData s st r f w = receiveError s st 0x0B02 := by
  unfold lineData
  dsimp only
  rw [ho]
  rfl

/-- The entries that a line's bytes make, once the block's have come (R315, R316). -/
def blockEntries (s : State) (st : Nat) (r : Reception) (f : Frame) (w : BitVec 64) : List BufEntry :=
  (List.range' r.lineEntries (entriesAt (streamOf s st) f.courier (r.lineBytes ++ leBytes 8 w.toNat).length - r.lineEntries)).map
    (lineEntry (streamOf s st) st f r.line (r.lineBytes ++ leBytes 8 w.toNat))

theorem lineData_full (ho : r.lineOpen = true) (hl : (r.lineBytes ++ leBytes 8 w.toNat).length ≤ roundUp (lineLength (streamOf s st)) 8)
    (hn : writeEntries s.now (blockEntries s st r f w) (streamOf s st) = none) : lineData s st r f w = receiveError s st 0x0B10 := by
  unfold blockEntries at hn
  unfold lineData
  dsimp only
  rw [ho, decide_eq_false (Nat.not_lt.mpr hl), if_neg (by decide), hn]

theorem lineData_room {y : StreamCtx} (ho : r.lineOpen = true)
    (hl : (r.lineBytes ++ leBytes 8 w.toNat).length ≤ roundUp (lineLength (streamOf s st)) 8)
    (hy : writeEntries s.now (blockEntries s st r f w) (streamOf s st) = some y) :
    lineData s st r f w = setReception (setStream s st y) st
      { r with lineBytes := r.lineBytes ++ leBytes 8 w.toNat
               lineEntries := entriesAt (streamOf s st) f.courier (r.lineBytes ++ leBytes 8 w.toNat).length
               lineCrc := crc32Bytes r.lineCrc (leBytes 8 w.toNat), frameCrc := crc32Bytes r.frameCrc (leBytes 8 w.toNat) } := by
  unfold blockEntries at hy
  unfold lineData
  dsimp only
  rw [ho, decide_eq_false (Nat.not_lt.mpr hl), if_neg (by decide), hy]

end

/-- Entries go in behind what the buffer holds, each with the fc of its write. -/
theorem writeEntries_buffer {β : Type} (g : BufEntry → β) (hg : ∀ e n, g { e with entered := n } = g e) {now : Fc} (new : List BufEntry)
    {c y : StreamCtx} (h : writeEntries now new c = some y) : y.buffer.map g = (c.buffer ++ new).map g := by
  induction new generalizing c with
  | nil =>
    obtain rfl := Option.some.inj h
    rw [List.append_nil]
  | cons e rest ih =>
    unfold writeEntries at h
    dsimp only at h
    split at h
    next => exact absurd h (by simp)
    next =>
      rw [ih h]
      simp [withBuffer, hg]

theorem streamOf_setReception {s : State} {st : Nat} (r : Reception) (h : st < s.streams.length) :
    streamOf (setReception s st r) st = { streamOf s st with reception := some r } := streamOf_modStream s _ h

/-- The block's bytes are in the line, and the entries that they fill in the buffer. -/
theorem lineData_room_own {s : State} {st : Nat} {w : BitVec 64} {r : Reception} {f : Frame} {y : StreamCtx} (h : st < s.streams.length)
    (ho : r.lineOpen = true) (hl : (r.lineBytes ++ leBytes 8 w.toNat).length ≤ roundUp (lineLength (streamOf s st)) 8)
    (hy : writeEntries s.now (blockEntries s st r f w) (streamOf s st) = some y) :
    streamOf (lineData s st r f w) st = { y with reception := some { r with
      lineBytes := r.lineBytes ++ leBytes 8 w.toNat
      lineEntries := entriesAt (streamOf s st) f.courier (r.lineBytes ++ leBytes 8 w.toNat).length
      lineCrc := crc32Bytes r.lineCrc (leBytes 8 w.toNat), frameCrc := crc32Bytes r.frameCrc (leBytes 8 w.toNat) } } := by
  rw [lineData_room ho hl hy, streamOf_setReception _ (by rw [setStream_length]; exact h), streamOf_setStream _ _ h]

end Sys2Proof.Machine
end

section
/-! PROOF. The ends of lines and frames, the lanes, and the beats that go into the fabric (R61, R309, R312 to R317). -/

namespace Sys2Proof.Machine

/-! ### LINE_END and FRAME_END -/

section
variable {s : State} {st : Nat} {w : BitVec 64} {r : Reception} {f : Frame}

theorem execLineEndReceive_eq (hv : streamReceives s st = true) (hr : receiving s st = some (r, f)) (hw : w.toNat % 256 = 0x4B) :
    execLineEndReceive st w s = .next (lineEnd s st r w.toNat) := by
  unfold execLineEndReceive
  rw [hv, hw, hr]
  rfl

/-- The buffer with the entries of a line released. -/
def lineReleased (r : Reception) (buf : List BufEntry) : List BufEntry :=
  buf.map (fun e => if e.frame = r.frame ∧ e.line = r.line then { e with released := true } else e)

theorem mem_lineReleased {buf : List BufEntry} {e : BufEntry} (h : e ∈ lineReleased r buf) (hf : e.frame = r.frame) (hl : e.line = r.line) :
    e.released = true := by
  obtain ⟨e', -, rfl⟩ := List.mem_map.mp h
  split at hf
  next hm => rw [if_pos hm]
  next hm =>
    rw [if_neg hm] at hl
    exact absurd ⟨hf, hl⟩ hm

theorem lineEnd_holds {n : Nat} (ho : r.lineOpen = true) (hl : r.lineBytes.length = roundUp (lineLength (streamOf s st)) 8)
    (hi : nbits n 55 40 = r.line % 2 ^ 16) (hc : nbits n 39 8 = crcField r.lineCrc) :
    lineEnd s st r n = setReception (setStream s st { streamOf s st with buffer := lineReleased r (streamOf s st).buffer }) st
      { r with lineOpen := false, line := r.line + 1, lineBytes := [], lineEntries := 0 } := by
  unfold lineEnd lineReleased
  dsimp only
  rw [ho, hl, hi, hc, if_neg (by simp), if_neg (by simp)]

/-- The line's entries are released and the next line may open. -/
theorem lineEnd_holds_own {n : Nat} (h : st < s.streams.length) (ho : r.lineOpen = true)
    (hl : r.lineBytes.length = roundUp (lineLength (streamOf s st)) 8) (hi : nbits n 55 40 = r.line % 2 ^ 16) (hc : nbits n 39 8 = crcField r.lineCrc) :
    streamOf (lineEnd s st r n) st = { streamOf s st with
      buffer := lineReleased r (streamOf s st).buffer
      reception := some { r with lineOpen := false, line := r.line + 1, lineBytes := [], lineEntries := 0 } } := by
  rw [lineEnd_holds ho hl hi hc, streamOf_setReception _ (by rw [setStream_length]; exact h), streamOf_setStream _ _ h]

/-- A LINE_END whose CRC fails is an error of the CRC, or of the framing where that too fails. -/
theorem lineEnd_crcFails {n : Nat} (hc : nbits n 39 8 ≠ crcField r.lineCrc) : ∃ code, lineEnd s st r n = receiveError s st code := by
  unfold lineEnd
  dsimp only
  rw [if_pos hc]
  split
  · exact ⟨_, rfl⟩
  · exact ⟨_, rfl⟩

theorem execFrameEndReceive_eq (hv : streamReceives s st = true) (hr : receiving s st = some (r, f)) (hw : w.toNat % 256 = 0x87) :
    execFrameEndReceive st w s = .next (frameEnd s st r w.toNat) := by
  unfold execFrameEndReceive
  rw [hv, hw, hr]
  rfl

theorem frameEnd_aborts {n : Nat} (h : n.testBit 60 = true) : frameEnd s st r n = receiveError s st 0x0B07 := by
  unfold frameEnd
  dsimp only
  rw [h]
  rfl

/-- The frame is received to its end. -/
def frameReceived (s : State) (st frame : Nat) : State :=
  modFrame (modStream s st (fun x => { x with reception := none })) st frame (fun f => { f with receiving := false })

theorem frameEnd_holds {n : Nat} (ha : n.testBit 60 = false) (ho : r.lineOpen = false) (hl : r.line = frameLines (streamOf s st))
    (hc : nbits n 39 8 = crcField r.frameCrc) (hn : nbits n 59 40 + 1 = r.line) :
    frameEnd s st r n = frameGone (traceNow (frameReceived s st r.frame) 0x0011 (laneSite st) (some st) (dw r.frame) 0 0 0) st r.frame := by
  have hline : (r.line != frameLines (streamOf s st)) = false := by simp [hl]
  unfold frameEnd frameReceived
  dsimp only
  rw [ha, ho, hline, hc, hn, if_neg (by decide), if_neg (by decide), if_neg (by simp)]

end

/-! ### Frames that are over go, and none comes -/

theorem removeFrame_subset {s : State} {st : Nat} (frame : Nat) (h : st < s.streams.length) :
    (streamOf (removeFrame s st frame) st).frames ⊆ (streamOf s st).frames := by
  unfold removeFrame
  split
  · exact List.Subset.refl _
  · rw [streamOf_modStream _ _ h]
    exact List.filter_subset_self _

theorem settleFrame_subset {s : State} {st : Nat} (frame : Nat) (h : st < s.streams.length) :
    (streamOf (settleFrame s st frame) st).frames ⊆ (streamOf s st).frames := by
  unfold settleFrame
  split
  · split
    · dsimp only
      split
      · exact removeFrame_subset frame h
      · rw [streamOf_of_streams (streams_of_moves (moves_countEvent rfl (moves_count rfl (Moves.refl _))))]
        exact removeFrame_subset frame h
    · exact List.Subset.refl _
  · exact List.Subset.refl _

theorem frameGone_subset {s : State} {st : Nat} (frame : Nat) (h : st < s.streams.length) :
    (streamOf (frameGone s st frame) st).frames ⊆ (streamOf s st).frames := by
  unfold frameGone
  dsimp only
  split
  · split
    · exact List.Subset.refl _
    split
    · exact settleFrame_subset frame h
    split
    · exact removeFrame_subset frame h
    · exact List.Subset.refl _
  · exact List.Subset.refl _

theorem frameReceived_length (s : State) (st frame : Nat) : (frameReceived s st frame).streams.length = s.streams.length := by
  unfold frameReceived
  rw [length_of_intake (intake_modFrame _ st _ _), modStream_length]

/-- A frame that has been received to its end is received no more. -/
theorem frameReceived_frames {s : State} {st frame : Nat} (h : st < s.streams.length) {g : Frame}
    (hg : g ∈ (streamOf (frameReceived s st frame) st).frames) (hid : g.id = frame) : g.receiving = false := by
  unfold frameReceived modFrame at hg
  rw [streamOf_modStream _ _ (by rw [modStream_length]; exact h)] at hg
  obtain ⟨x, -, rfl⟩ := List.mem_map.mp hg
  split at hid
  next hx => rw [if_pos hx]
  next hx => exact absurd hid hx

theorem frameReceived_reception {s : State} {st : Nat} (frame : Nat) (h : st < s.streams.length) :
    (streamOf (frameReceived s st frame) st).reception = none := by
  unfold frameReceived
  rw [reception_of_intake (intake_modFrame _ _ _ _), streamOf_modStream _ _ h]

/-- A FRAME_END that holds ends the reception, and the frame is received no more. -/
theorem frameEnd_holds_own {s : State} {st : Nat} {r : Reception} {n : Nat} (h : st < s.streams.length) (ha : n.testBit 60 = false)
    (ho : r.lineOpen = false) (hl : r.line = frameLines (streamOf s st)) (hc : nbits n 39 8 = crcField r.frameCrc) (hn : nbits n 59 40 + 1 = r.line) :
    (streamOf (frameEnd s st r n) st).reception = none ∧
    ∀ g, frameOf (streamOf (frameEnd s st r n) st) r.frame = some g → g.receiving = false := by
  have traced : (traceNow (frameReceived s st r.frame) 0x0011 (laneSite st) (some st) (dw r.frame) 0 0 0).streams =
    (frameReceived s st r.frame).streams := streams_of_moves (moves_traceNow rfl (Moves.refl _))
  rw [frameEnd_holds ha ho hl hc hn]
  refine ⟨?_, fun g hg => ?_⟩
  · rw [reception_of_intake (intake_frameGone _ _ _), streamOf_of_streams traced, frameReceived_reception _ h]
  · have hmem := frameGone_subset r.frame (by rw [traced, frameReceived_length]; exact h) (List.mem_of_find?_eq_some hg)
    rw [streamOf_of_streams traced] at hmem
    exact frameReceived_frames h hmem (frameOf_id hg)

/-! ### Lanes -/

/-- The lanes after a loss. -/
def laneLost (s : State) (lane : Nat) (k : LaneLoss) : State :=
  match k with
  | .blockLock => { s with lanes := { s.lanes with lock := s.lanes.lock.set lane false } }
  | .highBer => { s with lanes := { s.lanes with hiBer := s.lanes.hiBer.set lane true } }
  | .skew => s

theorem laneLost_streams (s : State) (lane : Nat) (k : LaneLoss) : (laneLost s lane k).streams = s.streams := by
  cases k <;> rfl

theorem laneStream_of_streams {s t : State} (e : t.streams = s.streams) (lane : Nat) : laneStream t lane = laneStream s lane := by
  unfold laneStream streamOf
  rw [e]

theorem receiving_of_streams {s t : State} (e : t.streams = s.streams) (st : Nat) : receiving t st = receiving s st := by
  unfold receiving streamOf
  rw [e]

theorem execLaneLockLoss_eq (s : State) {lane : Nat} (k : LaneLoss) (hl : lane < Config.streams) :
    execLaneLockLoss lane k s =
      match laneStream (laneLost s lane k) lane with
      | some st => done (if (receiving (laneLost s lane k) st).isSome then receiveError (laneLost s lane k) st 0x0B06 else laneLost s lane k)
      | none => done (laneLost s lane k) :=
  if_neg (Nat.not_le.mpr hl)

theorem execLaneLockLoss_idle {s : State} {lane : Nat} (k : LaneLoss) (hl : lane < Config.streams) (hn : laneStream s lane = none) :
    execLaneLockLoss lane k s = .next (laneLost s lane k) := by
  rw [execLaneLockLoss_eq s k hl, laneStream_of_streams (laneLost_streams s lane k), hn]
  rfl

theorem execLaneLockLoss_receiving {s : State} {lane st : Nat} (k : LaneLoss) (hl : lane < Config.streams) (hs : laneStream s lane = some st)
    (hr : receiving s st ≠ none) : execLaneLockLoss lane k s = .next (receiveError (laneLost s lane k) st 0x0B06) := by
  rw [execLaneLockLoss_eq s k hl, laneStream_of_streams (laneLost_streams s lane k), hs]
  dsimp only
  rw [receiving_of_streams (laneLost_streams s lane k), Option.isSome_iff_ne_none.mpr hr, if_pos rfl]
  rfl

theorem laneStream_lt {s : State} {lane st : Nat} (h : laneStream s lane = some st) : st < Config.streams :=
  List.mem_range.mp (List.mem_of_find?_eq_some h)

/-! ### Into the fabric -/

/-- The buffer without its head, which has been read, or was owed and took no place (R168, R173). -/
def headTakenFrom (s : State) (st : Nat) (x : BufEntry) : State :=
  modStream s st (fun c => if x.owed then withBuffer c (c.buffer.drop 1) else readEntries s.now c 1 (c.buffer.drop 1))

/-- The head of the buffer has left; of a tack line its frame notes it. -/
def headLeft (s : State) (st : Nat) (x : BufEntry) (b : Beat) : State :=
  if isTack b then modFrame (headTakenFrom s st x) st x.frame (fun f => { f with tackSent := true, held := false }) else headTakenFrom s st x

theorem headLeft_frame (s : State) (st : Nat) (x : BufEntry) (b : Beat) :
    (headLeft s st x b).now = s.now ∧ (headLeft s st x b).fabric = s.fabric := by
  unfold headLeft
  split <;> exact ⟨rfl, rfl⟩

theorem headLeft_buffer {s : State} {st : Nat} (x : BufEntry) (b : Beat) (h : st < s.streams.length) :
    (streamOf (headLeft s st x b) st).buffer = (streamOf s st).buffer.drop 1 := by
  have h1 : (streamOf (headTakenFrom s st x) st).buffer = (streamOf s st).buffer.drop 1 := by
    unfold headTakenFrom
    rw [streamOf_modStream _ _ h]
    split <;> rfl
  unfold headLeft
  split
  · rw [buffer_of_intake (intake_modFrame _ _ _ _), h1]
  · exact h1

theorem outQ_pushOut (s : State) (e : EndPoint) (b : OutBeat) : outQ (pushOut s e b) e = outQ s e ++ [b] := by
  unfold pushOut setOutQ
  rw [if_neg (by simp)]
  exact amGetD_amSet_same _ _ _ _

theorem outQ_advance (s : State) (t : Fc) (e : EndPoint) : outQ (advance s t) e = outQ s e := rfl

theorem outQ_of_fabric {s t : State} (h : t.fabric = s.fabric) (e : EndPoint) : outQ t e = outQ s e := by
  unfold outQ
  rw [h]

theorem frameGone_frame (s : State) (st frame : Nat) : (frameGone s st frame).now = s.now ∧ (frameGone s st frame).fabric = s.fabric := by
  have h : Moves 0x10100e s (frameGone s st frame) := moves_frameGone rfl (Moves.refl s)
  exact ⟨h.frame.b0 rfl, h.frame.b5 rfl⟩

/-- An ingress that the rolling proof does not hold has no hold to lift (R413). -/
theorem liftHold_free {s : State} {st : Nat} (h : (streamOf s st).proofHold = false) : liftHold s st = s := by
  unfold liftHold
  dsimp only
  rw [h]
  rfl

/-- The head of the buffer goes, from the first fc in which the buffer gives it (R61, R168). -/
theorem execIngressBeatSend_eq {s : State} {st : Nat} {x : BufEntry} {b : Beat} (hst : st < Config.streams) (hh : (streamOf s st).proofHold = false)
    (ht : reaches s (readFrom (streamOf s st)) = true) (hq : outQ s (ingressEnd st) = [])
    (hm : maySend (advance s (readFrom (streamOf s st))) (ingressEnd st) = true) (hi : ingressReady s st ≠ none)
    (hx : ingressReady (advance s (readFrom (streamOf s st))) st = some (x, b)) :
    execIngressBeatSend st s = .next (frameGone (pushOut (headLeft (advance s (readFrom (streamOf s st))) st x b) (ingressEnd st) { beat := b }) st
      x.frame) := by
  have hq' : (outQ (advance s (readFrom (streamOf s st))) (ingressEnd st)).isEmpty = true := by
    rw [outQ_advance, hq]
    rfl
  have hnow : ¬ (advance s (readFrom (streamOf s st))).now < readFrom (streamOf (advance s (readFrom (streamOf s st))) st) :=
    Nat.not_lt.mpr (Nat.le_max_right _ _)
  unfold execIngressBeatSend
  rw [if_neg (Nat.not_le.mpr hst), liftHold_free hh]
  dsimp only
  rw [Option.isSome_iff_ne_none.mpr hi, ht]
  simp only [Bool.and_self, if_true]
  rw [if_neg hnow, hq', hm, hx]
  rfl

/-- Settles O55: each stripe and block by its equation; an error ends the reception whatever else the abort of the frame does, and what leaves with a frame
that is over touches nothing that the ingress keeps. -/
theorem theIngressTakesFramesBlockByBlock : Obligations.TheIngressTakesFramesBlockByBlock := by
  refine ⟨?_, ?_, ?_⟩
  · intro s st w hlen hst hv x
    have h : st < s.streams.length := by rw [hlen]; exact hst
    have ended (code : Nat) : (streamOf (receiveError s st code) st).reception = none := receiveError_reception code h
    refine ⟨rfl, fun hr => ⟨_, execIdleStripeReceive_broken hv hr, ended _⟩, ?_, ?_⟩
    · intro hw hm hr hc
      have start (whole : Bool) := execFrameStartReceive_eq whole hv hw hm hr hc
      refine ⟨fun ha hroom => ?_, fun ha hc hf => ?_, fun whole hb => ?_⟩
      · obtain ⟨hrec, hids, hbuf⟩ := newFrame_opens h ha hroom
        exact ⟨_, start true, (newFrame_nextId w h).2, hrec, hids, hbuf⟩
      · obtain ⟨-, hrec, hid⟩ := frameRefused_own w 0x0B10 h
        exact ⟨_, (start true).trans (congrArg _ (newFrame_full h ha hc hf)), hid, hrec⟩
      · obtain ⟨hid, hrec⟩ := frameStart_refused h hb
        exact ⟨_, start whole, hid, hrec⟩
    · intro r f hr
      have hdata := execDataBlockReceive_eq (w := w) hv hr
      refine ⟨execLineStartReceive_next hv hr, fun hw hb => ⟨_, execLineStartReceive_broken hv hr hw hb, ended _⟩, ?_,
        fun hw => ⟨_, execLineStartReceive_stray hv hr hw, ended _⟩, fun ho => ⟨_, hdata.trans (congrArg _ (lineData_closed ho)), ended _⟩, ?_, ?_, ?_, ?_⟩
      · intro got n new ho hl
        refine ⟨fun hn => ⟨_, hdata.trans (congrArg _ (lineData_full ho hl hn)), ended _⟩, fun y hy => ?_⟩
        have hs := lineData_room_own h ho hl hy
        exact ⟨_, hdata, (congrArg StreamCtx.buffer hs :), writeEntries_buffer _ (fun _ _ => rfl) new hy, (congrArg StreamCtx.reception hs :)⟩
      · intro hw ho hl hi hc
        have hs := lineEnd_holds_own h ho hl hi hc
        refine ⟨_, execLineEndReceive_eq hv hr hw, (congrArg StreamCtx.reception hs :), ?_⟩
        rw [hs]
        exact fun e he hf hline => mem_lineReleased he hf hline
      · intro hw hc
        obtain ⟨code, e⟩ := lineEnd_crcFails (s := s) (st := st) hc
        exact ⟨_, (execLineEndReceive_eq hv hr hw).trans (congrArg _ e), ended code⟩
      · intro hw ha ho hl hc hn
        exact ⟨_, execFrameEndReceive_eq hv hr hw, frameEnd_holds_own h ha ho hl hc hn⟩
      · intro hw ha
        exact ⟨_, (execFrameEndReceive_eq hv hr hw).trans (congrArg _ (frameEnd_aborts ha)), ended _⟩
  · intro s lane hl
    refine ⟨if_neg (Nat.not_le.mpr hl), fun hn => ?_, fun st k hs hlen hr => ?_⟩
    · exact ⟨execLaneLockLoss_idle .blockLock hl hn, execLaneLockLoss_idle .highBer hl hn, execLaneLockLoss_idle .skew hl hn⟩
    · refine ⟨_, execLaneLockLoss_receiving k hl hs hr, receiveError_reception _ ?_⟩
      rw [laneLost_streams, hlen]
      exact laneStream_lt hs
  · intro s st x b hlen hst hst32 hh s1 ht hq hm hi hx
    have h : st < s1.streams.length := by rw [advance_streams, hlen]; exact hst32
    obtain ⟨hnow, hfabric⟩ := headLeft_frame s1 st x b
    obtain ⟨hgnow, hgfabric⟩ := frameGone_frame (pushOut (headLeft s1 st x b) (ingressEnd st) { beat := b }) st x.frame
    refine ⟨_, execIngressBeatSend_eq hst hh ht hq hm hi hx, hgnow.trans hnow, ?_, ?_⟩
    · exact (buffer_of_intake (intake_frameGone _ _ _)).trans (headLeft_buffer x b h)
    · rw [outQ_of_fabric hgfabric, outQ_pushOut, outQ_of_fabric hfabric, outQ_advance, hq]
      rfl

end Sys2Proof.Machine
end

section
/-! PROOF. The hoists as the commands on them move them: what a change of state, an erasure and a release read back as (R69, R353). -/

namespace Sys2Proof.Machine

/-- What every hoist holds. -/
def hoistsOf (s : State) : List Hoist := s.hal.hoists

theorem hoistOf_of_hoists {s t : State} (e : hoistsOf t = hoistsOf s) (k : Nat) : hoistOf t k = hoistOf s k := by
  unfold hoistsOf at e
  unfold hoistOf
  rw [e]

theorem imageOf_of_images {s t : State} (e : t.hal.images = s.hal.images) (n : Nat) : imageOf t n = imageOf s n := by
  unfold imageOf
  rw [e]

theorem hoistOf_setHoist {s : State} {h : Nat} (x : Hoist) (hh : h < s.hal.hoists.length) : hoistOf (setHoist s h x) h = x :=
  lget_set_same _ _ hh

theorem hoistOf_setHoist_other (s : State) {h k : Nat} (x : Hoist) (hk : k ≠ h) : hoistOf (setHoist s h x) k = hoistOf s k :=
  lget_set_other _ _ _ hk

theorem setHoist_self {s : State} {h : Nat} : setHoist s h (hoistOf s h) = s := by
  have e : s.hal.hoists.set h (hoistOf s h) = s.hal.hoists := by
    refine List.ext_getElem? fun i => ?_
    rw [List.getElem?_set]
    split
    · next hi => subst hi; split <;> simp_all [hoistOf, lget]
    · rfl
  unfold setHoist
  rw [e]

/-- A hoist's change of state touches nothing else of the hoists, whether it is a change or not. -/
@[simp] theorem moveHoist_hal (s : State) (h : Nat) (x : HoistState) :
    (moveHoist s h x).hal = (setHoist s h { hoistOf s h with state := x }).hal := by
  unfold moveHoist
  split
  · next e => rw [← e, setHoist_self]
  · simp

theorem hoistOf_moveHoist {s : State} {h : Nat} (x : HoistState) (hh : h < s.hal.hoists.length) :
    hoistOf (moveHoist s h x) h = { hoistOf s h with state := x } :=
  (hoistOf_of_hoists (congrArg Hal.hoists (moveHoist_hal s h x)) h).trans (hoistOf_setHoist _ hh)

theorem hoistOf_moveHoist_other (s : State) {h k : Nat} (x : HoistState) (hk : k ≠ h) : hoistOf (moveHoist s h x) k = hoistOf s k :=
  (hoistOf_of_hoists (congrArg Hal.hoists (moveHoist_hal s h x)) k).trans (hoistOf_setHoist_other s _ hk)

@[simp] theorem length_setHoist (s : State) (h : Nat) (x : Hoist) : (setHoist s h x).hal.hoists.length = s.hal.hoists.length :=
  List.length_set

theorem length_moveHoist (s : State) (h : Nat) (x : HoistState) : (moveHoist s h x).hal.hoists.length = s.hal.hoists.length := by simp

theorem switchTargets_moveHoist (s : State) (h : Nat) (x : HoistState) (k : Nat) : switchTargets (moveHoist s h x) k = switchTargets s k := by
  unfold switchTargets
  rw [moveHoist_hal]
  rfl

/-- A two-bit field names one of the four hoists. -/
theorem dbits_hoist_lt (w : Dword) : dbits w 1 0 < 4 := Nat.mod_lt _ (by decide)

/-- A hoist taken to be written: LOADING, with what is known of its contents entered (R69). -/
def claimed (s : State) (h : Nat) (f : Hoist → Hoist) : State :=
  setHoist (moveHoist s h .loading) h (f (hoistOf (moveHoist s h .loading) h))

theorem hoistOf_claimed {s : State} {h : Nat} (f : Hoist → Hoist) (hh : h < s.hal.hoists.length) :
    hoistOf (claimed s h f) h = f { hoistOf s h with state := .loading } := by
  unfold claimed
  rw [hoistOf_setHoist _ (by rw [length_moveHoist]; exact hh), hoistOf_moveHoist _ hh]

@[simp] theorem addJobs_hal (s : State) (kind : JobKind) (write : Bool) (l : List (Nat × Nat)) : (addJobs s kind write l).hal = s.hal := by
  have h : Moves 0x800 s (addJobs s kind write l) := moves_addJobs rfl (Moves.refl s)
  exact h.frame.b4 rfl

/-! ### Releases -/

theorem hoistOf_freeHoist {s : State} {h : Nat} (hh : h < s.hal.hoists.length) : hoistOf (freeHoist s h) h = {} :=
  hoistOf_setHoist (s := moveHoist s h .free) {} (by rw [length_moveHoist]; exact hh)

theorem freeHoist_images (s : State) (h : Nat) : (freeHoist s h).hal.images = s.hal.images := by
  change (moveHoist s h .free).hal.images = _
  rw [moveHoist_hal]
  rfl

theorem imageOf_releaseImage (s : State) (n : Nat) : imageOf (releaseImage s n) n = none := by
  unfold imageOf releaseImage
  simp [List.find?_eq_none]

theorem releaseImage_hoists (s : State) (n : Nat) : hoistsOf (releaseImage s n) = hoistsOf s := rfl

/-- HOIST_RELEASE of a hoist that no switch targets: the hoist goes, and its image when nothing keeps it. -/
theorem hoistRelease_allowed {s : State} {p : Packet} {n : Nat} (hp : pktOnly p [(2, 0xFF0303)] = true)
    (ht : switchTargets s (dbits (pktDw p 2) 1 0) = false)
    (hx : (hoistOf s (dbits (pktDw p 2) 1 0)).state = .loaded ∨ (hoistOf s (dbits (pktDw p 2) 1 0)).state = .armed ∨
      (hoistOf s (dbits (pktDw p 2) 1 0)).state = .mirror)
    (hn : (hoistOf s (dbits (pktDw p 2) 1 0)).image = some n) :
    hoistRelease s p = okAt (if dbit (pktDw p 2) 8 || imageHeld (freeHoist s (dbits (pktDw p 2) 1 0)) n
      then freeHoist s (dbits (pktDw p 2) 1 0) else releaseImage (freeHoist s (dbits (pktDw p 2) 1 0)) n) := by
  have ha : (hoistOf s (dbits (pktDw p 2) 1 0)).state ≠ .active := by
    rcases hx with e | e | e <;> rw [e] <;> decide
  unfold hoistRelease
  dsimp only
  rw [hp, if_neg (by decide), if_neg ha, ht, if_neg (by decide), if_neg (by tauto), hn]

theorem hoistReleaseImageOnly_allowed {s : State} {p : Packet} (hp : pktOnly p [(2, 0xFF0303)] = true)
    (hi : imageOf s (dbits (pktDw p 2) 23 16) ≠ none) (hh : imageHeld s (dbits (pktDw p 2) 23 16) = false) :
    hoistReleaseImageOnly s p = okAt (releaseImage s (dbits (pktDw p 2) 23 16)) := by
  unfold hoistReleaseImageOnly
  dsimp only
  rw [hp, hh, Option.isNone_eq_false_iff.mpr (Option.isSome_iff_ne_none.mpr hi)]
  rfl

/-- Settles O19: each body by its equation; the freed hoist is read back whether the image goes with it or not. -/
theorem hoistsAndImagesAreReleased : Obligations.HoistsAndImagesAreReleased := by
  refine ⟨?_, ?_⟩
  · intro s c n s1 h hready hp ht hlen hx hn
    have hh : h < s1.hal.hoists.length := by rw [hlen]; exact dbits_hoist_lt _
    refine ⟨_, takeCmd_finish hready (hoistRelease_allowed hp ht hx hn), ?_, fun hk => ?_, fun hk hu => ?_⟩
    · split
      · exact hoistOf_freeHoist hh
      · exact (hoistOf_of_hoists (releaseImage_hoists _ n) h).trans (hoistOf_freeHoist hh)
    · rw [if_pos (Bool.or_eq_true_iff.mpr hk), freeHoist_images]
    · rw [if_neg (by simp only [Bool.or_eq_true, not_or, Bool.not_eq_true]; exact ⟨hk, hu⟩)]
      exact imageOf_releaseImage _ n
  · intro s c s1 n hready hp hi hh
    exact ⟨_, takeCmd_finish hready (hoistReleaseImageOnly_allowed hp hi hh), imageOf_releaseImage _ n, releaseImage_hoists _ n⟩

end Sys2Proof.Machine
end

section
/-! PROOF. HOIST_ARM, alone and to mirror, and the end of the copy (R68, R69, R76, R353). -/

namespace Sys2Proof.Machine

/-! ### HOIST_ARM role 0 -/

/-- A hoist that is ARMED for no switch goes back to LOADED. -/
def disarm (s : State) (k : Nat) : State := if (hoistOf s k).state = .armed ∧ !switchTargets s k then moveHoist s k .loaded else s

theorem length_disarm (s : State) (k : Nat) : (disarm s k).hal.hoists.length = s.hal.hoists.length := by
  unfold disarm
  split
  · exact length_moveHoist s k .loaded
  · rfl

theorem switchTargets_disarm (s : State) (j k : Nat) : switchTargets (disarm s j) k = switchTargets s k := by
  unfold disarm
  split
  · exact switchTargets_moveHoist s j .loaded k
  · rfl

/-- A hoist that is ARMED after the step was so before it, and if it is the step's own, a switch targets it. -/
theorem armed_of_disarm {s : State} {j k : Nat} (hj : j < s.hal.hoists.length) (h : (hoistOf (disarm s j) k).state = .armed) :
    (hoistOf s k).state = .armed ∧ (k = j → switchTargets s j = true) := by
  unfold disarm at h
  by_cases hk : k = j
  · subst hk
    split at h
    · rw [hoistOf_moveHoist _ hj] at h
      cases h
    · next hc => exact ⟨h, fun _ => by simpa [h] using hc⟩
  · split at h
    · rw [hoistOf_moveHoist_other s _ hk] at h
      exact ⟨h, fun e => absurd e hk⟩
    · exact ⟨h, fun e => absurd e hk⟩

theorem hoistOf_disarm_of_loaded {s : State} {j k : Nat} (h : (hoistOf s k).state = .loaded) : hoistOf (disarm s j) k = hoistOf s k := by
  unfold disarm
  split
  · next hc =>
    refine hoistOf_moveHoist_other s _ fun e => ?_
    rw [← e, h] at hc
    exact absurd hc.1 (by decide)
  · rfl

/-- Over a list of hoists: a LOADED one stays, and one of the list that is ARMED at the end is the target of a switch. -/
theorem foldl_disarm {l : List Nat} {s : State} (hl : ∀ j ∈ l, j < s.hal.hoists.length) :
    (l.foldl disarm s).hal.hoists.length = s.hal.hoists.length ∧
    (∀ k, (hoistOf s k).state = .loaded → hoistOf (l.foldl disarm s) k = hoistOf s k) ∧
    (∀ k, (hoistOf (l.foldl disarm s) k).state = .armed → (hoistOf s k).state = .armed ∧ (k ∈ l → switchTargets s k = true)) := by
  induction l generalizing s with
  | nil => exact ⟨rfl, fun _ _ => rfl, fun _ h => ⟨h, fun hk => absurd hk (List.not_mem_nil)⟩⟩
  | cons j l ih =>
    have hlen := length_disarm s j
    obtain ⟨ihlen, ihloaded, iharmed⟩ := ih (s := disarm s j) (fun i hi => by rw [hlen]; exact hl i (List.mem_cons_of_mem _ hi))
    refine ⟨ihlen.trans hlen, fun k hk => ?_, fun k hk => ?_⟩
    · have e := hoistOf_disarm_of_loaded (j := j) hk
      exact (ihloaded k (by rw [e]; exact hk)).trans e
    · obtain ⟨h1, h2⟩ := iharmed k hk
      obtain ⟨h3, h4⟩ := armed_of_disarm (hl j List.mem_cons_self) h1
      refine ⟨h3, fun hm => ?_⟩
      rcases List.mem_cons.mp hm with e | hm
      · rw [e]; exact h4 e
      · rw [← switchTargets_disarm s j k]; exact h2 hm

theorem hoistArmTarget_allowed {s : State} {p : Packet} (hp : pktOnly p [(2, 0x103)] = true)
    (hx : (hoistOf s (dbits (pktDw p 2) 1 0)).state = .loaded) :
    hoistArmTarget s p = okAt (moveHoist ((List.range 4).foldl disarm s) (dbits (pktDw p 2) 1 0) .armed) := by
  unfold hoistArmTarget
  dsimp only
  rw [hp, hx]
  rfl

/-! ### HOIST_ARM role 1 -/

/-- A hoist with the image, section, words and pad of another. -/
def withContents (src x : Hoist) : Hoist := { x with image := src.image, section_ := src.section_, words := src.words, pad := src.pad }

/-- The named hoist holds the active hoist's image, section, words and pad, and the copy is under way: its lines are still to be read. -/
def mirrorCopying (s : State) (a h : Nat) : State :=
  let src := hoistOf s a
  let s1 := shareHoist (claimed s h (withContents src)) a h
  addJobs { s1 with hal := { s1.hal with mirrorCopy := some h } } .copy false
    (match src.image.bind (imageOf s) with | some i => chunkRanges i src.section_ [1] | none => [])

theorem hoistArmMirror_allowed {s : State} {p : Packet} {a : Nat} (hp : pktOnly p [(2, 0x103)] = true) (ha : s.hal.active = some a)
    (hx : (hoistOf s (dbits (pktDw p 2) 1 0)).state = .free)
    (hm : (s.hal.hoists.any fun x => x.state == .mirror || (x.state == .reloading && x.prior == .mirror)) = false) (hc : s.hal.mirrorCopy = none) :
    hoistArmMirror s p = .pend (.hoistMirror (dbits (pktDw p 2) 1 0)) (mirrorCopying s a (dbits (pktDw p 2) 1 0)) := by
  unfold hoistArmMirror
  dsimp only
  rw [ha]
  dsimp only
  rw [hp, hx, hm, hc]
  rfl

theorem mirrorCopying_mirrorCopy (s : State) (a h : Nat) : (mirrorCopying s a h).hal.mirrorCopy = some h := by
  unfold mirrorCopying
  dsimp only
  rw [addJobs_hal]

theorem hoistOf_mirrorCopying {s : State} {a h : Nat} (hh : h < s.hal.hoists.length) :
    hoistOf (mirrorCopying s a h) h = withContents (hoistOf s a) { hoistOf s h with state := .loading } := by
  have e : hoistsOf (mirrorCopying s a h) = hoistsOf (claimed s h (withContents (hoistOf s a))) := by
    unfold mirrorCopying hoistsOf
    dsimp only
    rw [addJobs_hal]
    rfl
  rw [hoistOf_of_hoists e, hoistOf_claimed _ hh]

/-- The copy has ended: no copy is under way, and the hoist is MIRROR with no word of it damaged. -/
def mirrorCopied (s : State) (h : Nat) : State :=
  moveHoist (setHoist { s with hal := { s.hal with mirrorCopy := none } } h { hoistOf s h with damaged := [] }) h .mirror

theorem execMirrorCopyDone_eq {s : State} {h : Nat} (hc : s.hal.mirrorCopy = some h) (hj : jobPending s .copy = false) :
    execMirrorCopyDone s = .next (finishFirst (mirrorCopied s h) (fun k => k == .hoistMirror h) stOK 0 s.now) := by
  unfold execMirrorCopyDone
  rw [hc]
  dsimp only
  rw [if_neg (by rw [hj]; decide)]
  rfl

theorem mirrorCopied_mirrorCopy (s : State) (h : Nat) : (mirrorCopied s h).hal.mirrorCopy = none := by
  unfold mirrorCopied
  rw [moveHoist_hal]
  rfl

theorem hoistOf_mirrorCopied {s : State} {h : Nat} (hh : h < s.hal.hoists.length) :
    hoistOf (mirrorCopied s h) h = { hoistOf s h with state := .mirror, damaged := [] } := by
  unfold mirrorCopied
  rw [hoistOf_moveHoist _ (by rw [length_setHoist]; exact hh), hoistOf_setHoist (s := { s with hal := { s.hal with mirrorCopy := none } }) _ hh]

/-- Settles O17: the fold over the four hoists disarms all that no switch targets, and each end of the copy is read back from its own state. -/
theorem hoistsArmAndMirror : Obligations.HoistsArmAndMirror := by
  refine ⟨?_, ?_, ?_⟩
  · intro s c s1 h hready hp hx hlen
    obtain ⟨flen, floaded, farmed⟩ := foldl_disarm (l := List.range 4) (s := s1) (fun j hj => by rw [hlen]; exact List.mem_range.mp hj)
    have hh : h < ((List.range 4).foldl disarm s1).hal.hoists.length := by rw [flen, hlen]; exact dbits_hoist_lt _
    refine ⟨_, takeCmd_finish hready (hoistArmTarget_allowed hp hx), by rw [hoistOf_moveHoist _ hh], fun k hk hne ha => ?_⟩
    rw [hoistOf_moveHoist_other _ _ hne] at ha
    exact (farmed k ha).2 (List.mem_range.mpr hk)
  · intro s c a s1 h hready hroom hp ha hx hm hc hlen
    have e : hoistOf (mirrorCopying s1 a h) h = _ := hoistOf_mirrorCopying (by rw [hlen]; exact dbits_hoist_lt _)
    exact ⟨_, takeCmd_pend hready hroom (hoistArmMirror_allowed hp ha hx hm hc), mirrorCopying_mirrorCopy s1 a h,
      by rw [e]; rfl, by rw [e]; rfl, by rw [e]; rfl, by rw [e]; rfl⟩
  · intro s h hc hj hh hlen
    exact ⟨_, execMirrorCopyDone_eq hc hj, mirrorCopied_mirrorCopy s h, hoistOf_mirrorCopied (by rw [hlen]; exact hh)⟩

end Sys2Proof.Machine
end

section
/-! PROOF. IMAGE_LOAD in both forms places the file and starts the load (R67, R224, R290, R298, R299, R300, R353). -/

namespace Sys2Proof.Machine

/-! ### Work beside the queues -/

theorem addJob_feed_of_feed {s t : State} (hf : t.feed = s.feed) (hn : t.now = s.now) (kind : JobKind) (write : Bool) (base size : Nat) :
    (addJob t kind write base size).feed = (addJob s kind write base size).feed ∧
    (addJob t kind write base size).now = (addJob s kind write base size).now := by
  unfold addJob
  split
  · exact ⟨hf, hn⟩
  · exact ⟨by rw [hf, hn], hn⟩

/-- The work that enters depends on nothing outside the feed and the halyard. -/
theorem addJobs_feed_of_feed {s t : State} (hf : t.feed = s.feed) (hn : t.now = s.now) (kind : JobKind) (write : Bool) (l : List (Nat × Nat)) :
    (addJobs t kind write l).feed = (addJobs s kind write l).feed := by
  unfold addJobs
  induction l generalizing s t with
  | nil => exact hf
  | cons r l ih =>
    obtain ⟨h1, h2⟩ := addJob_feed_of_feed hf hn kind write r.1 r.2
    exact ih h1 h2

theorem addJob_lpddr (s : State) (kind : JobKind) (write : Bool) (base size : Nat) :
    (addJob s kind write base size).feed.lpddr = s.feed.lpddr := by
  unfold addJob
  split <;> rfl

theorem addJobs_lpddr (s : State) (kind : JobKind) (write : Bool) (l : List (Nat × Nat)) :
    (addJobs s kind write l).feed.lpddr = s.feed.lpddr := by
  unfold addJobs
  induction l generalizing s with
  | nil => rfl
  | cons r l ih => exact (ih _).trans (addJob_lpddr _ _ _ _ _)

/-! ### The load under way -/

/-- The hoist is LOADING with the section named, and the load is under way; the section form's reads are still to enter. -/
def loadEntered (s : State) (i : Image) (k h : Nat) (form : Bool) : State :=
  let s1 := claimed s h fun x => { x with image := some i.handle, section_ := k }
  { s1 with hal := { s1.hal with load := some { verify := false, sectionForm := form, image := i, section_ := k, hoist := h } } }

theorem startLoad_full (s : State) (i : Image) (k h : Nat) : startLoad s i k h false = .pend .imageLoad (loadEntered s i k h false) := rfl

theorem startLoad_section (s : State) (i : Image) (k h : Nat) :
    startLoad s i k h true = .pend .imageLoad (addJobs (loadEntered s i k h true) .load false (sectionRanges i k)) := rfl

theorem hoistOf_loadEntered {s : State} {h : Nat} (i : Image) (k : Nat) (form : Bool) (hh : h < s.hal.hoists.length) :
    hoistOf (loadEntered s i k h form) h = { hoistOf s h with state := .loading, image := some i.handle, section_ := k } := by
  have e : hoistsOf (loadEntered s i k h form) = hoistsOf (claimed s h fun x => { x with image := some i.handle, section_ := k }) := rfl
  rw [hoistOf_of_hoists e, hoistOf_claimed _ hh]

theorem loadEntered_images (s : State) (i : Image) (k h : Nat) (form : Bool) : (loadEntered s i k h form).hal.images = s.hal.images := by
  change (moveHoist s h .loading).hal.images = _
  rw [moveHoist_hal]
  rfl

theorem loadEntered_frame (s : State) (i : Image) (k h : Nat) (form : Bool) :
    (loadEntered s i k h form).feed = s.feed ∧ (loadEntered s i k h form).now = s.now := by
  have h1 : Moves 0x1e s (moveHoist s h .loading) := moves_moveHoist rfl (Moves.refl s)
  exact ⟨h1.frame.b11 rfl, h1.frame.b0 rfl⟩

/-- Stage 7 takes one of the four hoists. -/
theorem stage7_lt {s : State} {i : Image} {k h : Nat} (e : stage7 s i k = some h) : h < 4 := by
  unfold stage7 at e
  split at e
  · cases e
  · next hf =>
    split at e
    · cases e
      exact List.mem_range.mp (List.mem_of_find?_eq_some hf)
    · cases e

/-! ### The full form -/

/-- The bytes of a file that the host gives, in one piece or by a chunk list (R351). -/
theorem withFile_given {s : State} {c : HostCmd} {p : Packet} {file : HostFile} {b : List Byte} (f : List Byte → Verdict) (h : FileGiven s p file b) :
    withFile s c p file f = f b := by
  obtain ⟨hup, hb, hl⟩ := h
  have read (d : HostData) : hostRead s d = d := if_pos hup
  unfold withFile
  dsimp only
  rw [read, read, hb]
  split
  · next hd =>
    obtain ⟨l, hl, ha⟩ := hl hd
    rw [hl]
    dsimp only
    rw [ha]
    rfl
  · rfl

/-- The file stands in its region and its image is known under its handle. -/
def filePlaced (s : State) (b : List Byte) (h : ImgHead) (x : ImgBody) (place : Placing) (i : Image) : State :=
  let s0 := lpddrPut s place.image (patchedFile (b.take h.length) x place)
  { s0 with
    feed := { s0.feed with reported := s0.feed.reported.filter (fun a => !within place.image (imageSpan h) a) }
    hal := { s0.hal with images := s0.hal.images ++ [i] } }

theorem imageOf_filePlaced {s : State} (b : List Byte) (h : ImgHead) (x : ImgBody) (place : Placing) {i : Image} (hi : imageOf s i.handle = none) :
    imageOf (filePlaced s b h x place i) i.handle = some i := by
  have e : imageOf (filePlaced s b h x place i) i.handle = (s.hal.images ++ [i]).find? (fun j => decide (j.handle = i.handle)) := rfl
  unfold imageOf at hi
  rw [e, List.find?_append, hi]
  simp

theorem imageOf_freeHandle {s : State} {n : Nat} (h : freeHandle s = some n) : imageOf s n = none := by
  have e := List.find?_some h
  simpa using e

/-- A file that passes every check in its order is placed, and its load starts. -/
theorem imageLoad_allowed {s : State} {c : HostCmd} {p : Packet} {file : HostFile} {b : List Byte} {h : ImgHead} {x : ImgBody} {pad n hoist : Nat}
    {place : Placing} {i : Image} (hh : headOfFile b (pktQ p 5) = h) (hi : buildImage b h x pad n place = i) (hp : imageArgsOk p = true)
    (hl : s.hal.load = none) (hroom : s.hif.pendings.length < 64) (hf : FileGiven s p file b) (hc : checkHeader b h = .ok ())
    (hn : freeHandle s = some n) (hpl : placeImage (regionsInUse s) h = some place) (hr : readImage s.sec b h = .ok (x, pad))
    (hs : i.config.any (usesSleeping s) = false) (hsec : checkSection s i 0 (fun o k => (b.drop o).take k) = .ok ()) (h7 : stage7 s i 0 = some hoist) :
    imageLoad c file s p = .pend .imageLoad (loadEntered (filePlaced s b h x place i) i 0 hoist false) := by
  unfold imageLoad
  rw [hp, hl, if_neg (by decide), if_neg (by decide), if_neg (Nat.not_le.mpr hroom), withFile_given _ hf]
  extract_lets g
  have e : g = h := hh
  clear_value g
  subst e
  rw [hc, hn, hpl, hr]
  dsimp only
  rw [hi, hs, if_neg (by decide), hsec]
  dsimp only
  rw [h7]
  exact startLoad_full (filePlaced s b g x place i) i 0 hoist

/-! ### The section form -/

theorem imageLoadSection_allowed {s : State} {p : Packet} {i : Image} {k hoist : Nat} (hk : dbits (pktDw p 2) 21 16 = k) (hp : imageArgsOk p = true)
    (h3 : pktQ p 3 = 0) (hi : imageOf s (dbits (pktDw p 2) 15 8) = some i) (hl : s.hal.load = none) (hroom : s.hif.pendings.length < 64)
    (hkey : imageKeyGood s.sec i.keyId = true) (hlt : k < i.sections) (hs : usesSleeping s (lget i.config k []) = false)
    (hsec : checkSection s i k (fun o n => memRead s.feed.lpddr (i.imageBase + o) n) = .ok ()) (h7 : stage7 s i k = some hoist) :
    imageLoadSection s p = .pend .imageLoad (addJobs (loadEntered s i k hoist true) .load false (sectionRanges i k)) := by
  unfold imageLoadSection
  dsimp only
  rw [hk, hp, h3, if_neg (by decide), hi]
  dsimp only
  rw [hl, if_neg (by decide), if_neg (Nat.not_le.mpr hroom), hkey, if_neg (by decide), if_neg (Nat.not_le.mpr hlt), hs, if_neg (by decide), hsec]
  dsimp only
  rw [h7]
  exact startLoad_section s i k hoist

/-- Settles O15: each body by its equation; what the hoist, the images and LPDDR5 hold is read back from the load under way. -/
theorem imageLoadPlacesTheFile : Obligations.ImageLoadPlacesTheFile := by
  refine ⟨?_, ?_⟩
  · intro s c file b x pad n hoist place s1 h i hready hroom hlen hp hl hf hc hn hpl hr hs hsec h7
    have hh : hoist < (filePlaced s1 b h x place i).hal.hoists.length := by
      change hoist < s1.hal.hoists.length
      rw [hlen]
      exact stage7_lt h7
    have hhoist := hoistOf_loadEntered i 0 false hh
    refine ⟨_, takeCmd_pend hready hroom (imageLoad_allowed rfl rfl hp hl hroom hf hc hn hpl hr hs hsec h7), ?_, ?_, by rw [hhoist], by rw [hhoist]; rfl,
      by rw [hhoist]⟩
    · rw [(loadEntered_frame _ _ _ _ _).1]
      rfl
    · rw [imageOf_of_images (loadEntered_images _ _ _ _ _)]
      exact imageOf_filePlaced b h x place (imageOf_freeHandle hn)
  · intro s c i hoist s1 k hready hroom hlen hp h3 hi hl hkey hlt hs hsec h7
    have hhoist : hoistOf (addJobs (loadEntered s1 i k hoist true) .load false (sectionRanges i k)) hoist = _ :=
      (hoistOf_of_hoists (congrArg Hal.hoists (addJobs_hal _ _ _ _)) hoist).trans (hoistOf_loadEntered i k true (by rw [hlen]; exact stage7_lt h7))
    obtain ⟨hfeed, hnow⟩ := loadEntered_frame s1 i k hoist true
    refine ⟨_, takeCmd_pend hready hroom (imageLoadSection_allowed rfl hp h3 hi hl hroom hkey hlt hs hsec h7),
      addJobs_feed_of_feed hfeed hnow _ _ _, ?_, by rw [hhoist], by rw [hhoist], by rw [hhoist]⟩
    rw [addJobs_lpddr, hfeed]

end Sys2Proof.Machine
end

section
/-! PROOF. Configuration scrubs and rewrites, and contention on a segment (R76, R77, R81, R82, R83). -/

namespace Sys2Proof.Machine

theorem mem_addNew {α : Type} [DecidableEq α] (l : List α) (x : α) : x ∈ addNew l x := by
  unfold addNew
  split
  · next h => simpa using h
  · simp

@[simp] theorem amGet_amSet_same {κ ν : Type} [DecidableEq κ] (m : AMap κ ν) (k : κ) (v : ν) : amGet (amSet m k v) k = some v := by
  simp [amGet, amSet]

/-! ### Records leave the hoists alone -/

theorem hoistsOf_of_moves {s t : State} (h : Moves offHal s t) : hoistsOf t = hoistsOf s := by
  unfold hoistsOf
  rw [h.frame.b4 rfl]

/-- A record that does not stop the part changes no hoist: at most it waits behind a recovery. -/
theorem hoistsOf_faultAt (s : State) (code : Nat) {cls : Nat} (site : Site) (stream : Option Nat) (frame d0 d1 : Dword) (time : Fc) (hc : cls ≠ 3) :
    hoistsOf (faultAt s code cls site stream frame d0 d1 time) = hoistsOf s := by
  unfold faultAt
  extract_lets r hal s1 s4
  have h1 : hoistsOf s1 = hoistsOf s := by
    unfold s1
    split
    · rfl
    · exact hoistsOf_of_moves (moves_fireSource rfl (Moves.refl s))
  have h4 : hoistsOf s4 = hoistsOf s1 := hoistsOf_of_moves (moves_faultTraced rfl (Moves.refl s1))
  rw [if_neg hc]
  exact h4.trans h1

theorem hoistsOf_fault (s : State) (code : Nat) {cls : Nat} (site : Site) (d0 d1 : Dword) (hc : cls ≠ 3) :
    hoistsOf (fault s code cls site d0 d1) = hoistsOf s :=
  hoistsOf_faultAt s code site none noFrame d0 d1 s.now hc

theorem hoistsOf_foldl {α : Type} {f : State → α → State} (h : ∀ s x, hoistsOf (f s x) = hoistsOf s) (l : List α) (s : State) :
    hoistsOf (l.foldl f s) = hoistsOf s := by
  induction l generalizing s with
  | nil => rfl
  | cons x l ih => exact (ih _).trans (h s x)

theorem hoistsOf_tellRecovery (s : State) (code : Nat) (a : AutoSwitch) : hoistsOf (tellRecovery s code a) = hoistsOf s := by
  unfold tellRecovery
  refine (hoistsOf_foldl (fun x r => ?_) _ _).trans rfl
  split
  · exact hoistsOf_faultAt x code _ none noFrame 0 0 r.1 (by decide)
  · exact hoistsOf_of_moves (moves_fireSource rfl (Moves.refl x))

theorem hoistsOf_cancelAuto (s : State) : hoistsOf (cancelAuto s) = hoistsOf s := by
  unfold cancelAuto
  split
  · exact hoistsOf_tellRecovery s _ _
  · rfl

/-! ### Scrubs -/

theorem length_damageWord (s : State) (h : Nat) (u : Site) (i : Nat) : (damageWord s h u i).hal.hoists.length = s.hal.hoists.length :=
  length_setHoist s h _

theorem mem_damageWord {s : State} {h : Nat} (u : Site) (i : Nat) (hh : h < s.hal.hoists.length) :
    (u, i) ∈ (hoistOf (damageWord s h u i) h).damaged := by
  unfold damageWord
  rw [hoistOf_setHoist _ hh]
  exact mem_addNew _ _

/-- Damage in the active hoist: the word is marked, the element is held or the box's outputs are dead from now on, and nothing else of the fabric and
the hoists changes. -/
theorem activeDamage_frame (s : State) (h : Nat) (u : Site) (i : Nat) :
    hoistsOf (activeDamage s h u i) = hoistsOf (damageWord s h u i) ∧
    (activeDamage s h u i).fabric.contention = s.fabric.contention ∧
    (siteKind u ≠ 10 → (activeDamage s h u i).fabric.held = addNew s.fabric.held (siteElem u)) := by
  unfold activeDamage
  extract_lets s1 fabric s2
  have h2 : hoistsOf s2 = hoistsOf s1 ∧ s2.fabric.contention = s.fabric.contention ∧
      (siteKind u ≠ 10 → s2.fabric.held = addNew s.fabric.held (siteElem u)) := by
    unfold s2
    split
    · next hu => exact ⟨rfl, rfl, fun hn => absurd hu hn⟩
    · exact ⟨rfl, rfl, fun _ => rfl⟩
  clear_value s2
  obtain ⟨hhoists, hcontention, hheld⟩ := h2
  split
  · exact ⟨hhoists, hcontention, hheld⟩
  · rw [hoistsOf_fault s2 _ u 0 0 (by decide), (fault_frame _ _ _ _ _ _).2.1]
    exact ⟨hhoists, hcontention, hheld⟩

theorem mem_idleDamage {s : State} {h : Nat} (u : Site) (i : Nat) (hh : h < s.hal.hoists.length) :
    (u, i) ∈ (hoistOf (idleDamage s h u i) h).damaged := by
  unfold idleDamage
  extract_lets s1 x s2
  have e1 : hoistsOf s1 = hoistsOf (damageWord s h u i) := hoistsOf_fault _ _ u 0 0 (by decide)
  have l1 : h < (hoistsOf s1).length := by rw [e1]; exact (length_damageWord s h u i).symm ▸ hh
  have h1 : (u, i) ∈ x.damaged := by
    unfold x
    rw [hoistOf_of_hoists e1]
    exact mem_damageWord u i hh
  clear_value s1
  have h2 : (u, i) ∈ (hoistOf s2 h).damaged := by
    unfold s2
    rw [hoistOf_moveHoist _ (by rw [length_setHoist]; exact l1), hoistOf_setHoist _ l1]
    exact h1
  split
  · split
    · rw [hoistOf_of_hoists (hoistsOf_cancelAuto s2)]
      exact h2
    · exact h2
  · exact h1

theorem execConfigScrub_eq {s : State} {u : Site} {h : Nat} (i : Nat) (found : Ecc) (hh : h < 4) (hp : sitePresent u = true)
    (ha : asleep s u = false) :
    execConfigScrub u h i found s = match found with
      | .good => .next s
      | .single => .next (fault s 0x0230 0 u 0 0)
      | .uncorrectable => .next (if s.hal.active = some h then activeDamage s h u i else idleDamage s h u i) := by
  unfold execConfigScrub
  rw [hp, ha, if_neg (by simp [hh])]
  cases found with
  | good => rfl
  | single => rfl
  | uncorrectable => exact (apply_ite done _ _ _).symm

/-! ### Rewrites -/

theorem hoistsOf_elementMended (s : State) (u : Site) : hoistsOf (elementMended s u) = hoistsOf s :=
  hoistsOf_of_moves (moves_elementMended rfl (Moves.refl s))

/-- The words of the unit are sound again in the hoist; a RELOADING hoist with no other damage goes back to where it was. -/
def rewritten (s : State) (u : Site) (h : Nat) : State :=
  let x := hoistOf s h
  let left := x.damaged.filter (fun d => decide (d.1 ≠ u))
  let s1 := setHoist s h { x with damaged := left }
  let s2 := if s.hal.active = some h ∧ !(left.any (fun d => siteElem d.1 == siteElem u)) then elementMended s1 (siteElem u) else s1
  if x.state = .reloading ∧ left.isEmpty then moveHoist s2 h x.prior else s2

/-- The rewrite has failed: the unit is lost behind its record, and unless it was so before, the frames in progress in it end. -/
def rewriteFailed (s : State) (u : Site) : State :=
  let s0 := { s with fabric := { s.fabric with held := s.fabric.held.filter (fun v => decide (v ≠ siteElem u)) } }
  if unitLost s (siteElem u) then loseUnit s0 0x0233 u 0 0 else unitStops (loseUnit s0 0x0233 u 0 0) (siteElem u)

theorem execConfigRewriteDone_eq {s : State} {u : Site} {h : Nat} (readable rechecked : Bool) (hh : h < 4)
    (hd : (hoistOf s h).damaged.any (fun d => d.1 == u) = true) :
    execConfigRewriteDone u h readable rechecked s = .next (if (readable && rechecked) = true then rewritten s u h else rewriteFailed s u) := by
  unfold execConfigRewriteDone
  extract_lets x left s1 s2
  rw [if_neg (by simp only [x, hd, Nat.not_le.mpr hh]; decide)]
  split
  · exact (apply_ite done _ _ _).symm
  · rfl

theorem rewritten_damaged {s : State} {h : Nat} (u : Site) (hh : h < s.hal.hoists.length) :
    (hoistOf (rewritten s u h) h).damaged = (hoistOf s h).damaged.filter (fun d => decide (d.1 ≠ u)) := by
  unfold rewritten
  extract_lets x left s1 s2
  have h1 : hoistOf s1 h = { x with damaged := left } := hoistOf_setHoist _ hh
  have e2 : hoistsOf s2 = hoistsOf s1 := by
    unfold s2
    split
    · exact hoistsOf_elementMended s1 _
    · rfl
  have l2 : h < (hoistsOf s2).length := by rw [e2]; exact (length_setHoist s h _).symm ▸ hh
  have h2 : (hoistOf s2 h).damaged = left := by rw [hoistOf_of_hoists e2, h1]
  clear_value s2
  split
  · rw [hoistOf_moveHoist _ l2]
    exact h2
  · exact h2

/-! ### Contention -/

/-- The first contention on a segment, or one long after its recovery: what its links carry is lost, and its drivers' words are damaged. -/
def contentionBegins (s : State) (g : Site) (h : Nat) : State := driversDamaged (noteContention (contentionCut s g false) g {}) h g

/-- The second contention within 65,536 fc: the segment stops. -/
def contentionStops (s : State) (g : Site) (c : Contention) : State :=
  noteContention (fault (contentionCut s g false) 0x0211 2 g (segmentEnds g).1 (segmentEnds g).2) g { c with dead := true }

/-- The word of one driver's output is damaged, where the segment has that driver. -/
def driverDamaged (s : State) (h : Nat) (u : Site) : State := if u = noSite then s else activeDamage s h (siteElem u) (siteSub u / 4)

theorem driversDamaged_eq (s : State) (h : Nat) (g : Site) :
    driversDamaged s h g = driverDamaged (driverDamaged s h (segmentEnds g).1) h (segmentEnds g).2 := rfl

theorem driverDamaged_contention (s : State) (h : Nat) (u : Site) : (driverDamaged s h u).fabric.contention = s.fabric.contention := by
  unfold driverDamaged
  split
  · rfl
  · exact (activeDamage_frame s h _ _).2.1

theorem driversDamaged_contention (s : State) (h : Nat) (g : Site) : (driversDamaged s h g).fabric.contention = s.fabric.contention := by
  rw [driversDamaged_eq, driverDamaged_contention, driverDamaged_contention]

theorem amGet_noteContention (s : State) (g : Site) (c : Contention) : amGet (noteContention s g c).fabric.contention g = some c :=
  amGet_amSet_same _ _ _

theorem amGet_contentionBegins (s : State) (g : Site) (h : Nat) : amGet (contentionBegins s g h).fabric.contention g = some {} := by
  unfold contentionBegins
  rw [driversDamaged_contention]
  exact amGet_noteContention _ _ _

section
variable {s : State} {g : Site} {h : Nat} (hact : s.hal.active = some h) (hk : siteKind g = 9) (hp : sitePresent g = true) (hr : fabricRuns s = true)
include hact hk hp hr

theorem execSegmentContention_first (hn : amGet s.fabric.contention g = none) :
    execSegmentContention g s = .next (contentionBegins s g h) := by
  unfold execSegmentContention
  rw [hact]
  dsimp only
  rw [if_neg (by simp [hk, hp, hr]), hn]
  rfl

/-- A segment that has contended and is not stopped: what the contention comes to now depends on when its last one recovered. -/
theorem execSegmentContention_again {c : Contention} (hc : amGet s.fabric.contention g = some c) (hd : c.dead = false) :
    (c.recoveredAt = none → execSegmentContention g s = .next (contentionCut s g true)) ∧
    (∀ T, c.recoveredAt = some T → execSegmentContention g s =
      .next (if s.now ≤ T + 65536 then contentionStops s g c else contentionBegins s g h)) := by
  unfold execSegmentContention
  rw [hact]
  dsimp only
  rw [if_neg (by simp [hk, hp, hr]), hc]
  dsimp only
  rw [hd, if_neg (by decide)]
  refine ⟨fun e => by rw [e]; rfl, fun T e => ?_⟩
  unfold contentionStops
  rw [e]
  exact (apply_ite done (s.now ≤ T + 65536) _ _).symm

end

/-- Settles O36: each command by its equation; the damage is read back from the hoist, and the contention from the fabric that no record touches. -/
theorem damageToTheConfigurationIsMended : Obligations.DamageToTheConfigurationIsMended := by
  refine ⟨?_, ?_, ?_⟩
  · intro s u h i hh hp ha
    refine ⟨execConfigScrub_eq i .single hh hp ha, fun hlen => ⟨_, execConfigScrub_eq i .uncorrectable hh hp ha, ?_, fun hact => ?_⟩⟩
    · have hl : h < s.hal.hoists.length := by rw [hlen]; exact hh
      split
      · rw [hoistOf_of_hoists (activeDamage_frame s h u i).1]
        exact mem_damageWord u i hl
      · exact mem_idleDamage u i hl
    · rw [if_pos hact]
      refine ⟨rfl, fun hk => ?_⟩
      rw [(activeDamage_frame s h u i).2.2 hk]
      exact mem_addNew _ _
  · intro s u h hh hlen hd
    refine ⟨⟨rewritten s u h, ?_, rewritten_damaged u (by rw [hlen]; exact hh)⟩, fun r c hrc => ?_⟩
    · exact (execConfigRewriteDone_eq true true hh hd).trans (by rw [if_pos (by decide)])
    · exact (execConfigRewriteDone_eq r c hh hd).trans (by rw [hrc, if_neg (by decide)]; rfl)
  · intro s g h hact hk hp hr
    refine ⟨fun hn => ⟨_, execSegmentContention_first hact hk hp hr hn, amGet_contentionBegins s g h⟩, fun c hc hd => ?_⟩
    obtain ⟨lasting, later⟩ := execSegmentContention_again hact hk hp hr hc hd
    refine ⟨lasting, fun T hT hle => ?_, fun T hT hlt => ?_⟩
    · have e := later T hT
      rw [if_pos hle] at e
      exact ⟨_, e, amGet_noteContention _ _ _⟩
    · have e := later T hT
      rw [if_neg (Nat.not_le.mpr hlt)] at e
      exact ⟨_, e, amGet_contentionBegins s g h⟩

end Sys2Proof.Machine
end

section
/-! PROOF. Beats and credits move on the links (R47, R48, R58, R59, R60, R61, R174). -/

namespace Sys2Proof.Machine

/-! ### Reading queues, buffers and links back -/

theorem amGetD_amErase_same {κ ν : Type} [DecidableEq κ] (m : AMap κ ν) (k : κ) (d : ν) : amGetD (amErase m k) k d = d := by
  have h : (amErase m k).find? (fun p => decide (p.1 = k)) = none := List.find?_eq_none.mpr (by simp [amErase])
  unfold amGetD amGet
  rw [h]
  rfl

theorem outQ_setOutQ (s : State) (e : EndPoint) (l : List OutBeat) : outQ (setOutQ s e l) e = l := by
  unfold outQ setOutQ
  cases l with
  | nil => exact amGetD_amErase_same _ _ _
  | cons x l => exact amGetD_amSet_same _ _ _ _

theorem inBuf_setInBuf (s : State) (e : EndPoint) (l : List Beat) : inBuf (setInBuf s e l) e = l := by
  unfold inBuf setInBuf
  cases l with
  | nil => exact amGetD_amErase_same _ _ _
  | cons x l => exact amGetD_amSet_same _ _ _ _

theorem linkAt_setLink (s : State) (e : EndPoint) (l : Link) : linkAt (setLink s e l) e = some l := amGet_amSet_same _ _ _

theorem linkAt_of_fabric {s t : State} (h : t.fabric = s.fabric) (e : EndPoint) : linkAt t e = linkAt s e := by
  unfold linkAt
  rw [h]

theorem inBuf_of_fabric {s t : State} (h : t.fabric = s.fabric) (e : EndPoint) : inBuf t e = inBuf s e := by
  unfold inBuf
  rw [h]

/-! ### A beat leaves -/

/-- The link as a beat leaves it: one credit less, a copy on its way to every consumer (R47, R61). -/
def sentLink (s : State) (e : EndPoint) (b : Beat) (now : Fc) : Link :=
  let l := linkOr s e (linkPaths s e)
  { l with
    free := l.free - 1
    flights := l.flights ++ (linkPaths s e).map (fun p =>
      { consumer := p.consumer, beat := b, sent := now, hops := hopsFrom (crossing s) (now + 1) p.boxes, arrives := now + pathLatency s p })
    lastSend := some now }

theorem foldl_countEvent_frame (l : List Site) (s : State) (st : Option Nat) :
    (l.foldl (fun x g => countEvent x 0x08 g st 0 0 false) s).fabric = s.fabric ∧
    (l.foldl (fun x g => countEvent x 0x08 g st 0 0 false) s).now = s.now := by
  have h : Moves 0x10000e s (l.foldl (fun x g => countEvent x 0x08 g st 0 0 false) s) :=
    Moves.foldl (Moves.refl s) fun _ _ h => moves_countEvent rfl h
  exact ⟨h.frame.b5 rfl, h.frame.b0 rfl⟩

theorem sendOnLink_frame {s : State} (e : EndPoint) {b : Beat} (hb : formsNoToken b = false) :
    (sendOnLink s e b).now = max s.now (sendSlot s e) ∧
    linkAt (sendOnLink s e b) e = some (sentLink s e b (max s.now (sendSlot s e))) ∧
    outQ (sendOnLink s e b) e = outQ s e := by
  unfold sendOnLink
  extract_lets paths l s1 fl s2
  rw [if_neg (by rw [hb]; decide)]
  obtain ⟨hfabric, hnow⟩ := foldl_countEvent_frame (paths.flatMap (·.crossings)) s2 (some (bStream b))
  refine ⟨hnow, ?_, (outQ_of_fabric hfabric e).trans rfl⟩
  rw [linkAt_of_fabric hfabric]
  exact linkAt_setLink _ _ _

theorem winSettle_frame (s : State) (u : Site) : (winSettle s u).now = s.now ∧ (winSettle s u).fabric = s.fabric := by
  have h : Moves 0x18010e s (winSettle s u) := moves_winSettle rfl (Moves.refl s)
  exact ⟨h.frame.b0 rfl, h.frame.b5 rfl⟩

/-- The end of an output whose beat has left: the window tile alone holds back the next beat of the queue. -/
theorem winBeatSent_frame (s : State) (e : EndPoint) (o : OutBeat) :
    (winBeatSent s e o).now = s.now ∧ (winBeatSent s e o).fabric.links = s.fabric.links ∧
    (outQ (winBeatSent s e o) e).map (·.beat) = (outQ s e).map (·.beat) := by
  unfold winBeatSent
  extract_lets u t next
  split
  · exact ⟨rfl, rfl, rfl⟩
  · extract_lets touched s1
    refine ⟨(winSettle_frame _ u).1, (congrArg Fabric.links (winSettle_frame _ u).2).trans rfl, ?_⟩
    rw [outQ_of_fabric (winSettle_frame _ u).2, outQ_setOutQ]
    change _ = (outQ s1 e).map (·.beat)
    cases outQ s1 e <;> rfl

/-- What the sender notes of a beat that has left touches neither the halyard, nor the links, nor the beats that wait at the output. -/
theorem tilesBeatSent_frame (s : State) (e : EndPoint) (o : OutBeat) :
    (tilesBeatSent s e o).now = s.now ∧ (tilesBeatSent s e o).fabric.links = s.fabric.links ∧
    (outQ (tilesBeatSent s e o) e).map (·.beat) = (outQ s e).map (·.beat) := by
  have of_moves {t : State} (h : Moves 0x1fffffe s t) (hf : t.fabric = s.fabric) :
      t.now = s.now ∧ t.fabric.links = s.fabric.links ∧ (outQ t e).map (·.beat) = (outQ s e).map (·.beat) :=
    ⟨h.frame.b0 rfl, by rw [hf], by rw [outQ_of_fabric hf]⟩
  unfold tilesBeatSent
  split
  · have h : Moves 0x18004e s (tileBeatSent s e.site o) := moves_tileBeatSent rfl (Moves.refl s)
    exact of_moves (moves_tileBeatSent rfl (Moves.refl s)) (h.frame.b5 rfl)
  · have h : Moves 0x18008e s (vecBeatSent s e.site o) := moves_vecBeatSent rfl (Moves.refl s)
    exact of_moves (moves_vecBeatSent rfl (Moves.refl s)) (h.frame.b5 rfl)
  · exact winBeatSent_frame s e o
  · exact ⟨rfl, rfl, rfl⟩

/-- The beat at the head of the queue has left, noted by the output's own tack line and by its sender. -/
def beatSent (s : State) (e : EndPoint) (o : OutBeat) (rest : List OutBeat) : State :=
  let s1 := sendOnLink (setOutQ s e rest) e o.beat
  let s2 := if isTack o.beat then
      { s1 with fabric := { s1.fabric with outTack := amSet s1.fabric.outTack (e, bStream o.beat) (tackFrame o.beat) } }
    else s1
  if siteKind e.site = 3 then steerBeatSent s2 e.site else tilesBeatSent s2 e o

theorem execBeatSend_eq {s s0 : State} {e : EndPoint} {o : OutBeat} {rest : List OutBeat}
    (h0 : (if siteKind e.site = 8 then spanDeliver s (siteSub e.site) e.port else s) = s0) (hq : outQ s0 e = o :: rest)
    (hm : maySend (advance s0 o.notBefore) e = true) (hu : unitMuted (advance s0 o.notBefore) e.site = false)
    (hd : linkDead (advance s0 o.notBefore) (linkPaths (advance s0 o.notBefore) e) = false) :
    execBeatSend e s = .next (beatSent (advance s0 o.notBefore) e o rest) := by
  unfold execBeatSend
  extract_lets x
  have hx : x = s0 := h0
  clear_value x
  subst hx
  rw [hq]
  dsimp only
  rw [hm, hu, hd]
  rfl

theorem beatSent_frame {s : State} {e : EndPoint} {o : OutBeat} {rest : List OutBeat} (hb : formsNoToken o.beat = false) :
    (beatSent s e o rest).now = max s.now (sendSlot s e) ∧
    linkAt (beatSent s e o rest) e = some (sentLink s e o.beat (max s.now (sendSlot s e))) ∧
    (outQ (beatSent s e o rest) e).map (·.beat) = rest.map (·.beat) := by
  unfold beatSent
  extract_lets s1 fabric s2
  obtain ⟨hnow, hlink, hq⟩ := sendOnLink_frame (s := setOutQ s e rest) e hb
  rw [outQ_setOutQ] at hq
  have h2 : s2.now = s1.now ∧ s2.fabric.links = s1.fabric.links ∧ outQ s2 e = outQ s1 e := by
    unfold s2
    split
    · exact ⟨rfl, rfl, rfl⟩
    · exact ⟨rfl, rfl, rfl⟩
  obtain ⟨hnow2, hlinks2, hq2⟩ := h2
  have link {t : State} (h : t.fabric.links = s2.fabric.links) : linkAt t e = some (sentLink s e o.beat (max s.now (sendSlot s e))) := by
    unfold linkAt
    rw [h, hlinks2]
    exact hlink
  have outs : (outQ s2 e).map (·.beat) = rest.map (·.beat) := by rw [hq2]; exact congrArg _ hq
  split
  · exact ⟨hnow2.trans hnow, link rfl, outs⟩
  · obtain ⟨hnow3, hlinks3, hq3⟩ := tilesBeatSent_frame s2 e o
    exact ⟨hnow3.trans (hnow2.trans hnow), link hlinks3, hq3.trans outs⟩

/-! ### A beat arrives -/

theorem upsetBeat_none (b : Beat) : upsetBeat b 0 = b := by
  unfold upsetBeat
  have h0 : BitVec.toNat (0 : BitVec 544) = 0 := BitVec.toNat_zero
  rw [h0, Nat.zero_div]
  exact congrArg₂ Beat.mk BitVec.xor_zero BitVec.xor_zero

theorem dropFlights_frame (s : State) (p : EndPoint) (gone : List Flight) :
    (dropFlights s p gone).now = s.now ∧ (dropFlights s p gone).hal = s.hal ∧ (dropFlights s p gone).fabric.inBufs = s.fabric.inBufs ∧
    (dropFlights s p gone).fabric.discarding = s.fabric.discarding := by
  unfold dropFlights
  split <;> exact ⟨rfl, rfl, rfl, rfl⟩

theorem steerArrived_frame (s : State) (u : Site) (port : Nat) (b : Beat) :
    (steerArrived s u port b).now = s.now ∧ (steerArrived s u port b).fabric = s.fabric := by
  have h : Moves 0x10000e s (steerArrived s u port b) := moves_steerArrived rfl (Moves.refl s)
  exact ⟨h.frame.b0 rfl, h.frame.b5 rfl⟩

theorem discardArrival_none {s : State} {e : EndPoint} {b : Beat} (h : discardsAt s e (bStream b) = []) : discardArrival s e b = none := by
  unfold discardArrival
  extract_lets st l
  rw [if_pos (Or.inl (by simp only [l, st, h]; rfl))]

theorem discardsPast_frame (s : State) (e : EndPoint) (b : Beat) :
    (discardsPast s e b).now = s.now ∧ (discardsPast s e b).fabric.inBufs = s.fabric.inBufs := by
  unfold discardsPast
  split <;> exact ⟨rfl, rfl⟩

/-- A beat that no discard takes and that may stand at its input is the last of the input's buffer (R58, R61). -/
theorem beatEnters_frame {s : State} {e : EndPoint} {b : Beat} (hd : discardsAt s e (bStream b) = [])
    (hk : siteKind e.site ≤ 2 → bType b ≠ tyPennant ∧ bType b ≠ tyMarker) :
    inBuf (beatEnters s e b) e = inBuf s e ++ [b] ∧ (beatEnters s e b).now = s.now := by
  unfold beatEnters
  extract_lets st fabric s1 s2 k s3
  have h1 : s1.now = s.now ∧ s1.fabric.inBufs = s.fabric.inBufs ∧ s1.fabric.discarding = s.fabric.discarding := by
    unfold s1
    split <;> exact ⟨rfl, rfl, rfl⟩
  obtain ⟨hnow1, hbufs1, hdisc1⟩ := h1
  have hd1 : discardsAt s1 e (bStream b) = [] := by
    unfold discardsAt at hd ⊢
    rw [hdisc1]
    exact hd
  rw [discardArrival_none hd1]
  dsimp only
  rw [if_neg (by rintro ⟨ht | ht, hle⟩; exacts [(hk hle).1 ht, (hk hle).2 ht])]
  obtain ⟨hnow2, hbufs2⟩ := discardsPast_frame s1 e b
  have hin : inBuf s2 e = inBuf s e := by
    unfold inBuf
    rw [hbufs2, hbufs1]
  have h3 : inBuf s3 e = inBuf s e ++ [b] ∧ s3.now = s.now := ⟨(inBuf_setInBuf _ _ _).trans (by rw [hin]), hnow2.trans hnow1⟩
  split
  · obtain ⟨hnow4, hfabric4⟩ := steerArrived_frame s3 e.site e.port b
    exact ⟨(inBuf_of_fabric hfabric4 e).trans h3.1, hnow4.trans h3.2⟩
  · exact h3

section
variable {s : State} {e p : EndPoint} {l : Link} {path : LinkPath} {f : Flight} (hp : linkProducer s e = some p) (hl : linkAt s p = some l)
  (hpath : (linkPaths s p).find? (fun q => q.consumer = e) = some path) (hf : l.flights.find? (fun f => f.consumer == e) = some f)
  (hr : fabricRuns (advance s f.arrives) = true) (hproof : path.boxes.any (fun b => inProof s b.1) = false)
include hp hl hpath hf hr hproof

/-- A beat that no boundary FIFO on its way discards reaches the input's own checker (R59). -/
theorem execBeatArrive_eq {upset : ArriveUpset} (hfifo : fifoAt f upset.place = none ∨ beatFault (upsetBeat f.beat upset.bits) = none) :
    execBeatArrive e upset s = .next (beatArrive s p e l f (upsetBeat f.beat upset.bits)) := by
  unfold execBeatArrive
  rw [hp]
  dsimp only
  rw [hl, hpath]
  dsimp only
  rw [hf]
  dsimp only
  rw [hr, hproof, if_neg (by decide)]
  rcases hfifo with h | h
  · rw [h]
    rfl
  · rw [h]
    split
    · next h => cases h
    · rfl

end

/-- A good beat with room for it enters the buffer (R58, R61). -/
theorem beatArrive_good {s : State} {p e : EndPoint} {l : Link} {f : Flight} (hlost : lostAt s f = none) (hgood : beatFault f.beat = none)
    (hno : f.beat ≠ noToken) (hroom : (inBuf s e).length < bufDepth s e l) (hd : discardsAt s e (bStream f.beat) = [])
    (hk : siteKind e.site ≤ 2 → bType f.beat ≠ tyPennant ∧ bType f.beat ≠ tyMarker) :
    inBuf (beatArrive s p e l f f.beat) e = inBuf s e ++ [f.beat] ∧ (beatArrive s p e l f f.beat).now = max s.now f.arrives := by
  obtain ⟨hnow, hhal, hbufs, hdisc⟩ := dropFlights_frame (advance s f.arrives) p [f]
  have hin : inBuf (dropFlights (advance s f.arrives) p [f]) e = inBuf s e := by
    unfold inBuf
    rw [hbufs]
    rfl
  have hdepth : bufDepth (dropFlights (advance s f.arrives) p [f]) e l = bufDepth s e l := by
    unfold bufDepth portWord cfgDw hoistWords hoistOf
    rw [hhal]
    rfl
  have hd1 : discardsAt (dropFlights (advance s f.arrives) p [f]) e (bStream f.beat) = [] := by
    unfold discardsAt at hd ⊢
    rw [hdisc]
    exact hd
  unfold beatArrive
  extract_lets sA s1
  rw [hlost]
  dsimp only
  rw [hgood]
  dsimp only
  rw [if_neg hno, if_neg (by rw [hdepth, hin]; exact Nat.not_le.mpr hroom)]
  obtain ⟨hbuf, hn⟩ := beatEnters_frame hd1 hk
  exact ⟨hbuf.trans (by rw [hin]), hn.trans hnow⟩

theorem beatArrive_fails {s : State} (p e : EndPoint) (l : Link) {f : Flight} {b : Beat} {code : Nat} (hlost : lostAt s f = none)
    (hb : beatFault b = some code) :
    beatArrive s p e l f b = beatFails (dropFlights (advance s f.arrives) p [f]) e (inputSite e) code (bStream b) := by
  unfold beatArrive
  extract_lets sA s1
  rw [hlost]
  dsimp only
  rw [hb]

/-! ### A credit comes back -/

theorem branchCredit_free (l : Link) (consumers : List EndPoint) (c : EndPoint) : (branchCredit l consumers c).1.free = l.free := by
  unfold branchCredit
  extract_lets br
  split <;> rfl

theorem liftHold_frame (s : State) (st : Nat) : (liftHold s st).now = s.now ∧ (liftHold s st).fabric = s.fabric := by
  have h : Moves 0x10100e s (liftHold s st) := moves_liftHold rfl (Moves.refl s)
  exact ⟨h.frame.b0 rfl, h.frame.b5 rfl⟩

/-- The earliest of the credits on their way. -/
def firstCredit (c0 : CreditFlight) (rest : List CreditFlight) : CreditFlight := rest.foldl (fun m c => if c.arrives < m.arrives then c else m) c0

/-- The link as the credit finds it: raised by one when every branch has returned one (R48). -/
def creditedLink (s : State) (p : EndPoint) (l : Link) (c : CreditFlight) : Link :=
  let r := branchCredit { l with credits := l.credits.erase c } ((linkPaths s p).map (·.consumer)) c.consumer
  { r.1 with free := l.free + b2n r.2 }

/-- The credit has arrived, and lifts an ingress' hold. -/
def creditArrived (s : State) (p : EndPoint) (l : Link) (c : CreditFlight) : State :=
  let r := branchCredit { l with credits := l.credits.erase c } ((linkPaths s p).map (·.consumer)) c.consumer
  let s1 := setLink (advance s c.arrives) p (creditedLink s p l c)
  if r.2 = true ∧ siteKind p.site = 6 then liftHold s1 (siteSub p.site) else s1

theorem execCreditReturnArrive_eq {s : State} {p : EndPoint} {l : Link} {c0 : CreditFlight} {rest : List CreditFlight} (hl : linkAt s p = some l)
    (hc : l.credits = c0 :: rest)
    (hheld : (linkPaths s p).any (fun q => q.consumer == (firstCredit c0 rest).consumer && q.boxes.any (fun b => inProof s b.1)) = false)
    (hd : l.free < l.depth) (hr : fabricRuns (advance s (firstCredit c0 rest).arrives) = true) :
    execCreditReturnArrive p s = .next (creditArrived s p l (firstCredit c0 rest)) := by
  unfold execCreditReturnArrive
  rw [hl]
  dsimp only
  rw [hc]
  dsimp only
  change (if (!fabricRuns (advance s (firstCredit c0 rest).arrives) ||
    (linkPaths s p).any (fun q => q.consumer == (firstCredit c0 rest).consumer && q.boxes.any (fun b => inProof s b.1))) = true then _ else _) = _
  rw [hr, hheld, if_neg (by decide), ← hc]
  unfold creditArrived creditedLink
  rw [← firstCredit]
  generalize hbr : branchCredit { l with credits := l.credits.erase (firstCredit c0 rest) } ((linkPaths s p).map (·.consumer))
    (firstCredit c0 rest).consumer = r
  have hfree : r.1.free = l.free := by rw [← hbr]; exact branchCredit_free _ _ _
  clear hbr
  obtain ⟨m, full⟩ := r
  dsimp only at hfree ⊢
  cases full with
  | false =>
    rw [if_pos (by decide), if_neg (by simp), ← hfree]
    rfl
  | true =>
    rw [if_neg (by decide), if_neg (Nat.not_le.mpr hd)]
    by_cases hk : siteKind p.site = 6
    · rw [if_pos hk, if_pos ⟨rfl, hk⟩]
      rfl
    · rw [if_neg hk, if_neg (fun h => hk h.2)]
      rfl

theorem creditArrived_frame (s : State) (p : EndPoint) (l : Link) (c : CreditFlight) :
    linkAt (creditArrived s p l c) p = some (creditedLink s p l c) ∧ (creditArrived s p l c).now = max s.now c.arrives := by
  unfold creditArrived
  extract_lets r s1
  have h1 : linkAt s1 p = some (creditedLink s p l c) := linkAt_setLink _ _ _
  split
  · obtain ⟨hnow, hfabric⟩ := liftHold_frame s1 (siteSub p.site)
    exact ⟨(linkAt_of_fabric hfabric p).trans h1, hnow⟩
  · exact ⟨h1, rfl⟩

/-! ### Void tack lines -/

theorem execVoidTackLineReceive_eq {s : State} {e : EndPoint} {st : Nat} {b : Beat}
    (hb : (inBuf s e).find? (fun b => isVoidTack b && bStream b == st) = some b) (hr : fabricRuns s = true) :
    (siteKind e.site ≤ 2 → unitHeld s e.site = false →
      execVoidTackLineReceive e st s = .next (tileFrameDrop s e st (tackFrame b) (tackInfo b) (tackCode b))) ∧
    (siteKind e.site = 3 → unitHeld s e.site = false →
      execVoidTackLineReceive e st s = .next (steerDrop s e.site st (tackFrame b) (tackCode b))) ∧
    (siteKind e.site = 7 → (inBuf s e).head? = some b → execVoidTackLineReceive e st s = .next (resultVoid s (siteSub e.site) b)) := by
  unfold execVoidTackLineReceive
  extract_lets k
  rw [hb]
  dsimp only
  rw [hr]
  refine ⟨fun hk hu => ?_, fun hk hu => ?_, fun hk hh => ?_⟩
  · rw [hu, if_neg (by simp)]
    have hk' : k = 0 ∨ k = 1 ∨ k = 2 := by omega
    rcases hk' with h | h | h <;> rw [h] <;> rfl
  · rw [hu, if_neg (by simp), show k = 3 from hk]
    rfl
  · rw [show k = 7 from hk, if_neg (by simp)]
    exact if_pos hh

/-- Settles O35: the beat's link is read back behind the notes of its sender, the buffer behind the discards that do not take the beat, and the semaphore
behind the hold that the credit lifts. -/
theorem beatsAndCreditsMoveOnLinks : Obligations.BeatsAndCreditsMoveOnLinks := by
  refine ⟨?_, ?_, ?_, ?_⟩
  · intro s e o rest s0 sA hq hm hu hd hb
    have hfree : 1 ≤ (linkOr sA e (linkPaths sA e)).free := by
      unfold maySend at hm
      simp only [Bool.and_eq_true, decide_eq_true_eq] at hm
      exact hm.2
    obtain ⟨hnow, hlink, houts⟩ := beatSent_frame (s := sA) (e := e) (rest := rest) hb
    refine ⟨_, _, execBeatSend_eq rfl hq hm hu hd, hlink, Nat.sub_add_cancel hfree, ?_, hnow, ?_, houts⟩
    · rw [hnow]
      rfl
    · rw [hnow]
      rfl
  · intro s e p l path f hp hl hpath hf hr hproof hlost
    refine ⟨fun hgood hno hk hroom hd => ?_, fun upset place code hfifo hb => ?_⟩
    · have h := execBeatArrive_eq hp hl hpath hf hr hproof (upset := ⟨0, 0⟩) (.inr (by rw [upsetBeat_none]; exact hgood))
      rw [upsetBeat_none] at h
      exact ⟨_, h, beatArrive_good hlost hgood hno hroom hd hk⟩
    · exact (execBeatArrive_eq hp hl hpath hf hr hproof (.inl hfifo)).trans (congrArg _ (beatArrive_fails p e l hlost hb))
  · intro s p l c0 rest hl hc c r hheld hd hr
    exact ⟨_, execCreditReturnArrive_eq hl hc hheld hd hr, creditArrived_frame s p l c⟩
  · intro s e st b hb hr
    exact execVoidTackLineReceive_eq hb hr

end Sys2Proof.Machine
end

section
/-! PROOF. The nest of four counters counts through every iteration, and what is due in an iteration issues in list order (R99, R100). -/

namespace Sys2Proof.Machine

/-! ### Digits: of the next number the last digit is one more, or 0 with one carried -/

theorem succ_digit_of_lt {n l : Nat} (h : n % l + 1 < l) : (n + 1) / l = n / l ∧ (n + 1) % l = n % l + 1 := by
  have hl : 0 < l := by omega
  have e : n + 1 = (n % l + 1) + l * (n / l) := by have := Nat.mod_add_div n l; omega
  rw [e, Nat.add_mul_div_left _ _ hl, Nat.add_mul_mod_self_left, Nat.div_eq_of_lt h, Nat.mod_eq_of_lt h]
  exact ⟨Nat.zero_add _, rfl⟩

theorem succ_digit_of_carry {n l : Nat} (hl : 0 < l) (h : ¬ n % l + 1 < l) : (n + 1) / l = n / l + 1 ∧ (n + 1) % l = 0 := by
  have e : n + 1 = l * (n / l + 1) := by
    have := Nat.mod_add_div n l
    have := Nat.mod_lt n hl
    rw [Nat.mul_add]
    omega
  rw [e]
  exact ⟨Nat.mul_div_cancel_left _ hl, Nat.mul_mod_right _ _⟩

/-! ### Advances (R99) -/

/-- The counters stand at c0 to c3, and the nest is not complete. -/
def CountsAt (sl : Slot) (c0 c1 c2 c3 : Nat) : Prop := countersOf sl = [c0, c1, c2, c3] ∧ sl.nestDone = false

/-- The nest is complete, every counter back at 0. -/
def NestOver (sl : Slot) : Prop := countersOf sl = [0, 0, 0, 0] ∧ sl.nestDone = true

section
variable {l0 l1 l2 l3 n : Nat} {sl : Slot}

/-- An advance from the digits of n gives those of n + 1, or ends the nest when these leave no room for C0. -/
theorem advanceNest_digits (h1 : 0 < l1) (h2 : 0 < l2) (h3 : 0 < l3) (h0 : n / l3 / l2 / l1 < l0)
    (h : CountsAt sl (n / l3 / l2 / l1) (n / l3 / l2 % l1) (n / l3 % l2) (n % l3)) :
    ((n + 1) / l3 / l2 / l1 < l0 →
      CountsAt (advanceNest [l0, l1, l2, l3] sl) ((n + 1) / l3 / l2 / l1) ((n + 1) / l3 / l2 % l1) ((n + 1) / l3 % l2) ((n + 1) % l3)) ∧
    (¬ (n + 1) / l3 / l2 / l1 < l0 → NestOver (advanceNest [l0, l1, l2, l3] sl)) := by
  obtain ⟨hc, hd⟩ := h
  simp only [countersOf, List.cons.injEq, and_true] at hc
  obtain ⟨e0, e1, e2, e3⟩ := hc
  unfold advanceNest CountsAt NestOver
  simp only [countersOf, List.getD_cons_zero, List.getD_cons_succ, e0, e1, e2, e3]
  by_cases g3 : n % l3 + 1 < l3
  · obtain ⟨q3, r3⟩ := succ_digit_of_lt g3
    simp [g3, q3, r3, hd, h0]
  obtain ⟨q3, r3⟩ := succ_digit_of_carry h3 g3
  by_cases g2 : n / l3 % l2 + 1 < l2
  · obtain ⟨q2, r2⟩ := succ_digit_of_lt g2
    simp [g3, g2, q3, r3, q2, r2, hd, h0]
  obtain ⟨q2, r2⟩ := succ_digit_of_carry h2 g2
  by_cases g1 : n / l3 / l2 % l1 + 1 < l1
  · obtain ⟨q1, r1⟩ := succ_digit_of_lt g1
    simp [g3, g2, g1, q3, r3, q2, r2, q1, r1, hd, h0]
  obtain ⟨q1, r1⟩ := succ_digit_of_carry h1 g1
  by_cases g0 : n / l3 / l2 / l1 + 1 < l0 <;> simp [g3, g2, g1, g0, q3, r3, q2, r2, q1, r1, hd]

/-- The digit of C0 is below its limit as long as n is below the product of the limits. -/
theorem digit0_lt_iff (h1 : 0 < l1) (h2 : 0 < l2) (h3 : 0 < l3) : n / l3 / l2 / l1 < l0 ↔ n < l0 * l1 * l2 * l3 := by
  rw [Nat.div_lt_iff_lt_mul h1, Nat.div_lt_iff_lt_mul h2, Nat.div_lt_iff_lt_mul h3]

/-- The nest after n advances from 0. -/
theorem advanceNest_iterate (h0 : 0 < l0) (h1 : 0 < l1) (h2 : 0 < l2) (h3 : 0 < l3) (hs : CountsAt sl 0 0 0 0) :
    (n < l0 * l1 * l2 * l3 →
      CountsAt ((advanceNest [l0, l1, l2, l3])^[n] sl) (n / l3 / l2 / l1) (n / l3 / l2 % l1) (n / l3 % l2) (n % l3)) ∧
    (n = l0 * l1 * l2 * l3 → NestOver ((advanceNest [l0, l1, l2, l3])^[n] sl)) := by
  have lt (m : Nat) := digit0_lt_iff (l0 := l0) (n := m) h1 h2 h3
  induction n with
  | zero =>
    have hp : 0 < l0 * l1 * l2 * l3 := Nat.mul_pos (Nat.mul_pos (Nat.mul_pos h0 h1) h2) h3
    exact ⟨fun _ => by simpa using hs, fun h => absurd h (Nat.ne_of_lt hp)⟩
  | succ n ih =>
    rw [Function.iterate_succ_apply']
    have step (hn : n < l0 * l1 * l2 * l3) := advanceNest_digits (l0 := l0) h1 h2 h3 ((lt n).mpr hn) (ih.1 hn)
    constructor
    · intro hn
      exact (step (Nat.lt_of_succ_lt hn)).1 ((lt (n + 1)).mpr hn)
    · intro hn
      exact (step (hn ▸ Nat.lt_succ_self n)).2 fun h => Nat.ne_of_lt ((lt (n + 1)).mp h) hn

end

/-! ### What is due (R100) -/

theorem limitsOf_bounds {d5 d6 : Dword} {l : Nat} (h : l ∈ limitsOf d5 d6) : 1 ≤ l ∧ l ≤ 65536 := by
  have bound (d : Dword) (hi lo : Nat) (hw : hi + 1 - lo = 16) : dbits d hi lo < 65536 := by
    unfold dbits
    rw [hw]
    exact Nat.mod_lt _ (by decide)
  have b0 := bound d5 15 0 rfl
  have b1 := bound d5 31 16 rfl
  have b2 := bound d6 15 0 rfl
  have b3 := bound d6 31 16 rfl
  simp only [limitsOf, List.mem_cons, List.not_mem_nil, or_false] at h
  omega

theorem settleNest_eq {ops : List Dword} {lims : List Nat} {sl : Slot} (h : sl.nestDone = false) :
    (nextDue ops lims sl = none → settleNest ops lims sl = advanceNest lims sl) ∧ (nextDue ops lims sl ≠ none → settleNest ops lims sl = sl) := by
  unfold settleNest
  rw [if_neg (by simp [h])]
  constructor
  · intro hn
    rw [hn]
  · intro hn
    obtain ⟨i, hi⟩ := Option.ne_none_iff_exists'.mp hn
    rw [hi]

theorem dueIn_iff {lims cs : List Nat} {op : Dword} :
    dueIn lims cs op = true ↔ ∀ k, opLevel op < k → k < 4 → if opLast op then cs.getD k 0 + 1 = lims.getD k 1 else cs.getD k 0 = 0 := by
  have stands (k : Nat) : (if opLast op then cs.getD k 0 + 1 == lims.getD k 1 else cs.getD k 0 == 0) = true ↔
      if opLast op then cs.getD k 0 + 1 = lims.getD k 1 else cs.getD k 0 = 0 := by
    split <;> exact beq_iff_eq
  simp only [dueIn, List.all_eq_true, List.mem_range, Bool.or_eq_true, decide_eq_true_eq, stands]
  exact ⟨fun h k hk h4 => (h k h4).resolve_left (Nat.not_le.mpr hk), fun h k h4 => (Nat.lt_or_ge (opLevel op) k).symm.imp id fun hk => h k hk h4⟩

theorem nextDue_first {ops : List Dword} {lims : List Nat} {sl : Slot} {i : Nat} (h : nextDue ops lims sl = some i) :
    sl.opIdx ≤ i ∧ i < ops.length ∧ dueIn lims (countersOf sl) (ops.getD i 0) = true ∧
      ∀ j, sl.opIdx ≤ j → j < i → dueIn lims (countersOf sl) (ops.getD j 0) = false := by
  obtain ⟨hdue, hmem, hfirst⟩ := List.find?_range'_eq_some.mp h
  obtain ⟨hlow, hhigh⟩ := List.mem_range'_1.mp hmem
  exact ⟨hlow, by omega, hdue, fun j h1 h2 => by simpa using hfirst j h1 h2⟩

/-- Settles O60: the counters are digits, which an advance counts up (`advanceNest_iterate`); the rest reads off what is due. -/
theorem theNestCountsThroughEveryIteration : Obligations.TheNestCountsThroughEveryIteration := by
  refine ⟨fun l0 l1 l2 l3 n sl h0 h1 h2 h3 hc hd => ?_, fun _ _ _ => limitsOf_bounds, fun _ _ _ => settleNest_eq, fun lims cs op => ⟨dueIn_iff, fun h3 => ?_⟩,
    fun _ _ _ _ => nextDue_first⟩
  · obtain ⟨counts, complete⟩ := advanceNest_iterate (n := n) h0 h1 h2 h3 ⟨hc, hd⟩
    refine ⟨fun hn => ?_, complete⟩
    obtain ⟨digits, undone⟩ := counts hn
    have d1 : n / l3 / l2 = n / (l2 * l3) := by rw [Nat.div_div_eq_div_mul, Nat.mul_comm]
    have d0 : n / l3 / l2 / l1 = n / (l1 * l2 * l3) := by rw [d1, Nat.div_div_eq_div_mul, Nat.mul_comm, ← Nat.mul_assoc]
    rw [digits, d0, d1]
    exact ⟨rfl, undone⟩
  · exact dueIn_iff.mpr fun k hk h4 => by omega

end Sys2Proof.Machine
end

section
/-! PROOF. The shared operations of tiles read back: what moves no tile, the scoreboard with its heads marked, and what a beat that is taken leaves alone
(R102, R107, R109). -/

namespace Sys2Proof.Machine

/-! ### Tiles that an operation leaves alone -/

theorem tileOf_of_tiles {s t : State} (h : t.tiles = s.tiles) (u : Site) : tileOf t u = tileOf s u := by
  unfold tileOf
  rw [h]

theorem vtileOf_of_vtiles {s t : State} (h : t.vtiles = s.vtiles) (u : Site) : vtileOf t u = vtileOf s u := by
  unfold vtileOf
  rw [h]

theorem wtileOf_of_wtiles {s t : State} (h : t.wtiles = s.wtiles) (u : Site) : wtileOf t u = wtileOf s u := by
  unfold wtileOf
  rw [h]

@[simp] theorem countUnit_frame (s : State) (u : Site) (j n : Nat) :
    (countUnit s u j n).now = s.now ∧ (countUnit s u j n).fabric = s.fabric ∧ (countUnit s u j n).tiles = s.tiles ∧
    (countUnit s u j n).vtiles = s.vtiles ∧ (countUnit s u j n).wtiles = s.wtiles ∧ (countUnit s u j n).feed = s.feed := by
  have f := (moves_countUnit (msk := 0x10000e) (u := u) (j := j) (n := n) rfl (Moves.refl s)).frame
  exact ⟨f.b0 rfl, f.b5 rfl, f.b6 rfl, f.b7 rfl, f.b8 rfl, f.b11 rfl⟩

@[simp] theorem tileOf_countUnit (s : State) (u v : Site) (j n : Nat) : tileOf (countUnit s u j n) v = tileOf s v := tileOf_of_tiles (by simp) v
@[simp] theorem tileOf_advance (s : State) (t : Fc) (u : Site) : tileOf (advance s t) u = tileOf s u := rfl

@[simp] theorem tileOf_traceNow (s : State) (type : Nat) (site : Site) (stream : Option Nat) (frame : Dword) (d0 d1 d2 : Nat) (u : Site) :
    tileOf (traceNow s type site stream frame d0 d1 d2) u = tileOf s u := tileOf_of_tiles (by simp) u

@[simp] theorem tileOf_countEvent (s : State) (ev : Nat) (site : Site) (stream : Option Nat) (addr cls : Nat) (priv : Bool) (u : Site) :
    tileOf (countEvent s ev site stream addr cls priv) u = tileOf s u := tileOf_of_tiles (by simp) u

@[simp] theorem vtileOf_traceNow (s : State) (type : Nat) (site : Site) (stream : Option Nat) (frame : Dword) (d0 d1 d2 : Nat) (u : Site) :
    vtileOf (traceNow s type site stream frame d0 d1 d2) u = vtileOf s u := vtileOf_of_vtiles (by simp) u

@[simp] theorem wtileOf_traceNow (s : State) (type : Nat) (site : Site) (stream : Option Nat) (frame : Dword) (d0 d1 d2 : Nat) (u : Site) :
    wtileOf (traceNow s type site stream frame d0 d1 d2) u = wtileOf s u := wtileOf_of_wtiles (by simp) u

/-- A beat that is taken from an input changes the fabric alone. -/
theorem takeBeat_frame {s t : State} {e : EndPoint} {p : Beat → Bool} {b : Beat} (h : takeBeat s e p = some (b, t)) :
    t.now = s.now ∧ t.hal = s.hal ∧ t.tiles = s.tiles ∧ t.vtiles = s.vtiles ∧ t.wtiles = s.wtiles := by
  have f := ((moves_takeBeat (msk := 0x20) (e := e) (p := p) rfl (Moves.refl s)).keeps h).frame
  exact ⟨f.b0 rfl, f.b4 rfl, f.b6 rfl, f.b7 rfl, f.b8 rfl⟩

/-! ### Slots and the scoreboard -/

theorem slotAt_set_same {l : List (Option Slot)} {k : Nat} (x : Option Slot) (h : k < l.length) : slotAt (l.set k x) k = x := by
  simp [slotAt, h]

theorem winSlotAt_set_same {l : List (Option WinSlot)} {k : Nat} (t : WindowTile) (x : Option WinSlot) (h : k < l.length) :
    winSlotAt { t with slots := l.set k x } k = x := by
  simp [winSlotAt, h]

theorem lt_length_of_slotAt {l : List (Option Slot)} {k : Nat} {sl : Slot} (h : slotAt l k = some sl) : k < l.length := by
  by_contra hk
  rw [slotAt, List.getD_eq_default _ _ (Nat.not_lt.mp hk)] at h
  cases h

/-- The marks of the heads change nothing but the fc since which an entry is at the head. -/
theorem map_markHeads {β : Type} {f : Issued → β} (hf : ∀ e n, f { e with headSince := n } = f e) (key : Issued → ClassKey) (old new : List Issued) (now : Fc) :
    (markHeads key old new now).map f = new.map f := by
  unfold markHeads
  rw [List.map_map]
  refine List.map_congr_left fun e _ => ?_
  simp only [Function.comp]
  split
  · exact hf _ _
  · rfl

@[simp] theorem tileOf_putTile (s : State) (u : Site) (t : MatrixTile) :
    tileOf (putTile s u t) u = { t with board := markHeads tileKey (tileOf s u).board t.board s.now } := tileOf_setTile _ _ _

@[simp] theorem vtileOf_putVec (s : State) (u : Site) (t : VectorTile) :
    vtileOf (putVec s u t) u = { t with board := markHeads vecKey (vtileOf s u).board t.board s.now } := vtileOf_setVtile _ _ _

/-! ### Which kind of tile acts -/

theorem vecActs_kind {s : State} {u : Site} (h : vecActs s u = true) : siteKind u = 1 := by
  simp only [vecActs, Bool.and_eq_true, beq_iff_eq] at h
  exact h.1.1

theorem winActs_kind {s : State} {u : Site} (h : winActs s u = true) : siteKind u = 2 := by
  simp only [winActs, Bool.and_eq_true, beq_iff_eq] at h
  exact h.1.1

theorem tileActs_of_kind {s : State} {u : Site} (h : siteKind u ≠ 0) : tileActs s u = false := by simp [tileActs, h]

theorem vecActs_of_kind {s : State} {u : Site} (h : siteKind u ≠ 1) : vecActs s u = false := by simp [vecActs, h]

end Sys2Proof.Machine
end

section
/-! PROOF. Tiles bind slots, issue operations and time out (R99, R100, R102, R109, R113, R144, R146, R151, R156). -/

namespace Sys2Proof.Machine

/-! ### A tack line binds a slot -/

section
variable {s s1 : State} {u : Site} {k : Nat} {b b' : Beat}

theorem slotAt_tileBind (hen : unitState s u = .enabled) (hstop : bindStopped s u = false) (htack : isOpenTack b = true)
    (hhead : (inBuf s ⟨u, framePort s u⟩).head? = some b) (hfree : (List.range (slotsUsed s u)).find? (fun k => (slotAt (tileOf s u).slots k).isNone) = some k)
    (htake : takeBeat s ⟨u, framePort s u⟩ (fun _ => true) = some (b', s1)) (hk : k < (tileOf s u).slots.length) :
    slotAt (tileOf (tileBind s u) u).slots k =
      some { stream := bStream b, frame := tackFrame b, tack := tackInfo b, bank := bankFor (tileOf s u) (tackArrival b) } := by
  unfold tileBind
  simp only [hhead, htack, hstop, hen, hfree, htake, Bool.not_true, Bool.or_false, Bool.false_eq_true, if_false, if_true, tileOf_traceNow, tileOf_setTile]
  exact slotAt_set_same _ hk

theorem slotAt_vecBind (hen : unitState s u = .enabled) (hstop : bindStopped s u = false) (htack : isOpenTack b = true)
    (hhead : (inBuf s ⟨u, vecFramePort s u⟩).head? = some b)
    (hfree : (List.range (vecSlotsUsed s u)).find? (fun k => (slotAt (vtileOf s u).slots k).isNone) = some k)
    (htake : takeBeat s ⟨u, vecFramePort s u⟩ (fun _ => true) = some (b', s1)) (hk : k < (vtileOf s u).slots.length) :
    slotAt (vtileOf (vecBind s u) u).slots k = some { stream := bStream b, frame := tackFrame b, tack := tackInfo b } := by
  unfold vecBind
  simp only [hhead, htack, hstop, hen, hfree, htake, Bool.not_true, Bool.or_false, Bool.false_eq_true, if_false, if_true, vtileOf_traceNow, vtileOf_setVtile]
  exact slotAt_set_same _ hk

theorem winSlotAt_winBind {c : State} (hc : winTackCut s u b = c) (hen : unitState c u = .enabled) (hstop : bindStopped c u = false)
    (htack : isOpenTack b = true) (hhead : (inBuf s ⟨u, (winCfg s u).inPort⟩).head? = some b)
    (hfree : (List.range (winCfg s u).slots).find? (fun k => (winSlotAt (wtileOf c u) k).isNone) = some k)
    (htake : takeBeat c ⟨u, (winCfg s u).inPort⟩ (fun x => x == b) = some (b', s1)) (hk : k < (wtileOf c u).slots.length) :
    winSlotAt (wtileOf (winBind s u) u) k = some { stream := bStream b, frame := tackFrame b, tack := tackInfo b, since := s1.now } := by
  unfold winBind
  simp only [hhead, htack, hc, hstop, hen, hfree, htake, Bool.not_true, Bool.false_eq_true, if_false, if_true, wtileOf_traceNow, wtileOf_setWtile]
  exact winSlotAt_set_same _ _ hk

end

/-- A tile that sees its frame port binds by its kind. -/
theorem execSlotBind_eq {s : State} {u : Site} (h : tileSees s u = true) :
    (siteKind u = 0 → execSlotBind u s = .next (tileBind s u)) ∧ (siteKind u = 1 → execSlotBind u s = .next (vecBind s u)) ∧
    (siteKind u = 2 → execSlotBind u s = .next (winBind s u)) := by
  unfold execSlotBind
  rw [h, if_neg (by decide)]
  exact ⟨fun hk => by rw [hk]; rfl, fun hk => by rw [hk]; rfl, fun hk => by rw [hk]; rfl⟩

/-! ### The sequencer issues the next due operation -/

/-- Where an entry comes from: its number, its slot, its place in the operation list and the operation. -/
def issuePlace (e : Issued) : Nat × Nat × Nat × Dword := (e.id, e.slot, e.index, e.op)

theorem nextIssuer_bound {ops : List Dword} {lims : List Nat} {slots : List (Option Slot)} {last k i : Nat}
    (h : nextIssuer ops lims slots last = some (k, i)) : ∃ sl, slotAt slots k = some sl := by
  unfold nextIssuer at h
  split at h
  · obtain ⟨sl, hsl, hi⟩ := Option.bind_eq_some_iff.mp h
    obtain ⟨j, -, hj⟩ := Option.map_eq_some_iff.mp hi
    cases hj
    exact ⟨sl, hsl⟩
  · cases h

/-- The scoreboard behind an issue: the same entries, and the new one behind them. -/
theorem map_issuePlace_markHeads (key : Issued → ClassKey) (old board : List Issued) (e : Issued) (now : Fc) :
    (markHeads key old (board ++ [e]) now).map issuePlace = board.map issuePlace ++ [issuePlace e] := by
  rw [map_markHeads (fun _ _ => rfl), List.map_append, List.map_singleton]

/-- A matrix tile behind an issue. -/
theorem tileIssue_issues {s t : State} {u : Site} {k i : Nat} (he : tileIssue s u = t) (hroom : (tileOf s u).board.length < 32)
    (ht : reaches s (issueAt s (tileOf s u).nextIssue / 8) = true)
    (hnext : nextIssuer (tileOps s u) (tileLimits s u) ((tileOf s u).slots.map (fun o => o.map (settleNest (tileOps s u) (tileLimits s u))))
      (tileOf s u).lastSlot = some (k, i)) :
    (tileOf t u).board.map issuePlace = (tileOf s u).board.map issuePlace ++ [((tileOf s u).nextId, k, i, cfgDw s u (23 + i))] ∧
    (tileOf t u).lastSlot = k ∧ (tileOf t u).nextId = (tileOf s u).nextId + 1 ∧ t.now = max s.now (issueAt s (tileOf s u).nextIssue / 8) ∧
    (tileOf t u).nextIssue = issueAt s (tileOf s u).nextIssue + acRclk s u := by
  obtain ⟨sl, hsl⟩ := nextIssuer_bound hnext
  unfold tileIssue at he
  extract_lets ops lims t0 t1 c at he
  rw [if_neg (Nat.not_le.mpr hroom), show nextIssuer ops lims t1.slots t1.lastSlot = some (k, i) from hnext] at he
  dsimp only at he
  rw [show slotAt t1.slots k = some sl from hsl] at he
  dsimp only at he
  rw [show reaches s (issueAt s t1.nextIssue / 8) = true from ht, if_neg (by decide)] at he
  subst he
  exact ⟨by rw [tileOf_putTile]; exact map_issuePlace_markHeads _ _ _ _ _, by rw [tileOf_putTile], by rw [tileOf_putTile], rfl, by rw [tileOf_putTile]⟩

/-- A vector tile behind an issue. -/
theorem vecIssue_issues {s t : State} {u : Site} {k i : Nat} (he : vecIssue s u = t) (hroom : (vtileOf s u).board.length < 32)
    (ht : reaches s (issueAt s (vtileOf s u).nextIssue / 8) = true)
    (hnext : nextIssuer (vecOps s u) (vecLimits s u) ((vtileOf s u).slots.map (fun o => o.map (settleNest (vecOps s u) (vecLimits s u))))
      (vtileOf s u).lastSlot = some (k, i)) :
    (vtileOf t u).board.map issuePlace = (vtileOf s u).board.map issuePlace ++ [((vtileOf s u).nextId, k, i, cfgDw s u (23 + i))] ∧
    (vtileOf t u).lastSlot = k ∧ (vtileOf t u).nextId = (vtileOf s u).nextId + 1 ∧ t.now = max s.now (issueAt s (vtileOf s u).nextIssue / 8) ∧
    (vtileOf t u).nextIssue = issueAt s (vtileOf s u).nextIssue + acRclk s u := by
  obtain ⟨sl, hsl⟩ := nextIssuer_bound hnext
  unfold vecIssue at he
  extract_lets ops lims t0 t1 c at he
  rw [if_neg (Nat.not_le.mpr hroom), show nextIssuer ops lims t1.slots t1.lastSlot = some (k, i) from hnext] at he
  dsimp only at he
  rw [show slotAt t1.slots k = some sl from hsl] at he
  dsimp only at he
  rw [show reaches s (issueAt s t1.nextIssue / 8) = true from ht, if_neg (by decide)] at he
  subst he
  exact ⟨by rw [vtileOf_putVec]; exact map_issuePlace_markHeads _ _ _ _ _, by rw [vtileOf_putVec], by rw [vtileOf_putVec], rfl, by rw [vtileOf_putVec]⟩

theorem execOperationIssue_eq {s : State} {u : Site} :
    (tileActs s u = true → execOperationIssue u s = .next (tileIssue s u)) ∧ (vecActs s u = true → execOperationIssue u s = .next (vecIssue s u)) := by
  unfold execOperationIssue
  refine ⟨fun h => if_pos h, fun h => ?_⟩
  rw [tileActs_of_kind (by rw [vecActs_kind h]; decide), if_neg (by decide), if_pos h]
  rfl

/-! ### A watchdog runs out (R109, R144, R151) -/

section
variable {s : State} {u : Site} {slot index : Nat} {e : Issued}

theorem tileWatchdog_expires
    (he : (tileOf s u).board.find? (fun x => x.slot == slot && x.index == index && isHead tileKey (tileOf s u).board x) = some e)
    (hlog : 10 ≤ watchdogLog s u) (ht : reaches s (e.headSince + 2 ^ watchdogLog s u) = true) :
    tileWatchdog s u slot index =
      tileAbortAll (fault (advance s (e.headSince + 2 ^ watchdogLog s u)) 0x0320 4 u (dw (index + slot * 16)) 0) u 0x0321 := by
  unfold tileWatchdog
  dsimp only
  rw [he]
  exact if_neg fun h => h.elim (Nat.not_lt.mpr hlog) fun h => by rw [watchEnd, ht] at h; exact absurd h (by decide)

theorem vecWatch_expires
    (he : (vtileOf s u).board.find? (fun x => x.slot == slot && x.index == index && isHead vecKey (vtileOf s u).board x) = some e)
    (hlog : 10 ≤ vecWatchdog s u) (ht : reaches s (e.headSince + 2 ^ vecWatchdog s u) = true) :
    vecWatch s u slot index =
      vecAbortAll (fault (advance s (e.headSince + 2 ^ vecWatchdog s u)) 0x0520 4 u (dw (index + slot * 16)) 0) u 0x0521 := by
  unfold vecWatch
  dsimp only
  rw [he]
  exact if_neg fun h => h.elim (Nat.not_lt.mpr hlog) fun h => by rw [watchEnd, ht] at h; exact absurd h (by decide)

theorem winWatch_expires {sl : WinSlot} (hsl : winSlotAt (wtileOf s u) slot = some sl) (hlog : 10 ≤ (winCfg s u).watchdog)
    (ht : reaches s (sl.since + 2 ^ (winCfg s u).watchdog) = true) :
    winWatch s u slot = winAbortAll (fault (advance s (sl.since + 2 ^ (winCfg s u).watchdog)) 0x0520 4 u (dw (slot * 16)) 0) u 0x0521 := by
  unfold winWatch
  dsimp only
  rw [hsl]
  exact if_neg fun h => h.elim (Nat.not_lt.mpr hlog) fun h => by rw [watchEnd, ht] at h; exact absurd h (by decide)

theorem execTileWatchdogExpiry_eq :
    (tileActs s u = true → execTileWatchdogExpiry u slot index s = .next (tileWatchdog s u slot index)) ∧
    (vecActs s u = true → execTileWatchdogExpiry u slot index s = .next (vecWatch s u slot index)) ∧
    (winActs s u = true → execTileWatchdogExpiry u slot index s = .next (winWatch s u slot)) := by
  unfold execTileWatchdogExpiry
  refine ⟨fun h => if_pos h, fun h => ?_, fun h => ?_⟩
  · rw [tileActs_of_kind (by rw [vecActs_kind h]; decide), if_neg (by decide), if_pos h]
    rfl
  · rw [tileActs_of_kind (by rw [winActs_kind h]; decide), vecActs_of_kind (by rw [winActs_kind h]; decide), if_neg (by decide), if_neg (by decide), if_pos h]
    rfl

end

/-- Settles O29: each command by its tile's kind, then by what that tile's own operation does. -/
theorem tilesBindIssueAndTimeOut : Obligations.TilesBindIssueAndTimeOut := by
  refine ⟨?_, ?_, ?_⟩
  · intro s u k b b' s1 hsees hen hstop htack
    obtain ⟨matrix, vector, window⟩ := execSlotBind_eq hsees
    refine ⟨fun hk hhead hfree htake hlt => ⟨_, matrix hk, slotAt_tileBind hen hstop htack hhead hfree htake hlt⟩,
      fun hk hhead hfree htake hlt => ⟨_, vector hk, slotAt_vecBind hen hstop htack hhead hfree htake hlt⟩, ?_⟩
    intro c hk hhead hen' hstop' hfree htake hlt
    exact ⟨_, window hk, winSlotAt_winBind rfl hen' hstop' htack hhead hfree htake hlt⟩
  · intro s u k i place x v
    exact ⟨fun hacts hroom ht hnext => ⟨_, execOperationIssue_eq.1 hacts, tileIssue_issues rfl hroom ht hnext⟩,
      fun hacts hroom ht hnext => ⟨_, execOperationIssue_eq.2 hacts, vecIssue_issues rfl hroom ht hnext⟩⟩
  · intro s u slot index e
    obtain ⟨matrix, vector, window⟩ := execTileWatchdogExpiry_eq (s := s) (u := u) (slot := slot) (index := index)
    exact ⟨fun hacts he hlog ht => (matrix hacts).trans (congrArg _ (tileWatchdog_expires he hlog ht)),
      fun hacts he hlog ht => (vector hacts).trans (congrArg _ (vecWatch_expires he hlog ht)),
      fun sl hacts hsl hlog ht => (window hacts).trans (congrArg _ (winWatch_expires hsl hlog ht))⟩

end Sys2Proof.Machine
end

section
/-! PROOF. What a slot that unbinds leaves in its tile (R97, R102, R107): a matrix tile keeps its lines, sets, side sets and the entries on its scoreboard, a
vector tile its scratch, a window tile its line buffer. -/

namespace Sys2Proof.Machine

/-- What no step of a fold changes, the fold does not change. -/
theorem read_foldl {α β : Type} {g : State → β} {f : State → α → State} (h : ∀ s x, g (f s x) = g s) (l : List α) (s : State) : g (l.foldl f s) = g s := by
  induction l generalizing s with
  | nil => rfl
  | cons x l ih => exact (ih (f s x)).trans (h s x)

/-! ### The matrix tile -/

theorem amGet_amMap {κ ν : Type} [DecidableEq κ] (m : AMap κ ν) (f : κ → ν → ν) (k : κ) : amGet (amMap m f) k = (amGet m k).map (f k) := by
  unfold amGet amMap
  rw [List.find?_map, Option.map_map, Option.map_map]
  cases h : m.find? (fun p => decide (p.1 = k)) with
  | none => simp [Function.comp_def, h]
  | some p =>
    have hp : p.1 = k := by simpa using List.find?_some h
    simp [Function.comp_def, h, hp]

/-- What g reads of the value at a key, where f changes no value's g. -/
theorem amGetD_amMap {κ ν β : Type} [DecidableEq κ] (m : AMap κ ν) (f : κ → ν → ν) (k : κ) (d : ν) {g : ν → β} (h : ∀ v, g (f k v) = g v) :
    g (amGetD (amMap m f) k d) = g (amGetD m k d) := by
  unfold amGetD
  rw [amGet_amMap]
  cases amGet m k with
  | none => rfl
  | some v => exact h v

/-- What a line of the staging store holds, and whether it is filled. -/
def stagedLine (t : MatrixTile) (i : Nat) : BitVec 512 × Bool := ((lineAt t i).data, lineFilled t i)

/-- Of a matrix tile: the numbers on the scoreboard, the sets but for their owners, the side sets and the lines. -/
def lastingStores (t : MatrixTile) : List Nat × (Nat → AccSet) × AMap Nat (List Dword) × (Nat → BitVec 512 × Bool) :=
  (t.board.map (·.id), fun d => { setOf t d with owner := 0 }, t.side, stagedLine t)

theorem stagingLeft_complete (s : State) (u : Site) (k : Nat) (sl : Slot) (m : AMap Nat StagingLine) :
    stagingLeft s u k 0 sl m =
      amMap m (fun _ l => if l.slot = k then { l with slot := 4, ord := none, fixed := lineKept s u sl l } else l) := by
  unfold stagingLeft amMap
  rw [if_pos rfl]
  refine List.map_congr_left fun p _ => ?_
  dsimp only
  split <;> rfl

theorem lastingStores_tileUnbind (s : State) (u : Site) (k : Nat) : lastingStores (tileOf (tileUnbind s u k 0) u) = lastingStores (tileOf s u) := by
  unfold tileUnbind
  extract_lets t
  split
  · rfl
  · next sl0 _ =>
    extract_lets sl n t1 s1 s2 s3
    have ht : tileOf (traceNow s3 0x0013 u (some sl.stream) (dw sl.frame) k 0 0) u = tileOf s1 u := by simp [s3, s2]
    rw [ht, tileOf_putTile]
    refine Prod.ext (map_markHeads (fun _ _ => rfl) _ _ _ _) (Prod.ext (funext fun d => ?_) (Prod.ext rfl (funext fun i => ?_)))
    · refine amGetD_amMap t.sets (fun _ a => if a.owner = k then { a with owner := 4 } else a) d {} (g := fun a : AccSet => { a with owner := 0 }) fun a => ?_
      split <;> rfl
    · change ((amGetD (stagingLeft s u k 0 sl t.staging) i {}).data, (amGetD (stagingLeft s u k 0 sl t.staging) i {}).filled) = _
      rw [stagingLeft_complete]
      refine amGetD_amMap t.staging _ i {} (g := fun l : StagingLine => (l.data, l.filled)) fun l => ?_
      split <;> rfl

theorem lastingStores_tileSettle (s : State) (u : Site) : lastingStores (tileOf (tileSettle s u) u) = lastingStores (tileOf s u) := by
  refine read_foldl (g := fun st => lastingStores (tileOf st u)) (fun st k => ?_) _ _
  dsimp only
  split
  · split
    · exact lastingStores_tileUnbind st u k
    · rfl
  · rfl

section
variable {t x : MatrixTile}

theorem ids_of_lastingStores (h : lastingStores t = lastingStores x) : t.board.map (·.id) = x.board.map (·.id) := congrArg Prod.fst h

theorem set_of_lastingStores (h : lastingStores t = lastingStores x) (d : Nat) : { setOf t d with owner := 0 } = { setOf x d with owner := 0 } :=
  congrFun (congrArg (fun p => p.2.1) h) d

theorem side_of_lastingStores (h : lastingStores t = lastingStores x) : t.side = x.side := congrArg (fun p => p.2.2.1) h

theorem line_of_lastingStores (h : lastingStores t = lastingStores x) (i : Nat) : stagedLine t i = stagedLine x i :=
  congrFun (congrArg (fun p => p.2.2.2) h) i

end

theorem tileSettle_frame (s : State) (u : Site) : (tileSettle s u).now = s.now ∧ (tileSettle s u).feed = s.feed := by
  have h : Moves 0x18004e s (tileSettle s u) := moves_tileSettle rfl (Moves.refl s)
  exact ⟨h.frame.b0 rfl, h.frame.b11 rfl⟩

/-- The stores of a tile that is put behind a change, whatever heads are marked in it. -/
theorem lastingStores_putTile (s : State) (u : Site) (t : MatrixTile) : lastingStores (tileOf (putTile s u t) u) = lastingStores t := by
  rw [tileOf_putTile]
  exact Prod.ext (map_markHeads (fun _ _ => rfl) _ _ _ _) rfl

/-- An entry that has been dropped is on the scoreboard no more, whatever slots unbind. -/
theorem gone_of_lastingStores {t x : MatrixTile} {id : Nat} (h : lastingStores t = lastingStores x) (hx : id ∉ x.board.map (·.id)) :
    ∀ y ∈ t.board, y.id ≠ id := by
  intro y hy e
  exact hx (ids_of_lastingStores h ▸ e ▸ List.mem_map_of_mem hy)

theorem not_mem_dropEntry (board : List Issued) (id : Nat) : id ∉ (dropEntry board id).map (·.id) := by
  simp [dropEntry]

theorem lastingStores_settled (s : State) (u : Site) (t : MatrixTile) : lastingStores (tileOf (tileSettle (putTile s u t) u) u) = lastingStores t :=
  (lastingStores_tileSettle _ u).trans (lastingStores_putTile s u t)

/-- Behind a change and the slots that unbind with it, an entry that the change drops is gone. -/
theorem settled_drops (s : State) (u : Site) {t : MatrixTile} {board : List Issued} {id : Nat} (h : t.board = dropEntry board id) :
    ∀ y ∈ (tileOf (tileSettle (putTile s u t) u) u).board, y.id ≠ id := by
  refine gone_of_lastingStores (lastingStores_settled s u t) ?_
  rw [h]
  exact not_mem_dropEntry board id

theorem settled_lineFilled (s : State) (u : Site) (t : MatrixTile) (i : Nat) : lineFilled (tileOf (tileSettle (putTile s u t) u) u) i = lineFilled t i := by
  have h := line_of_lastingStores (lastingStores_settled s u t) i
  simp only [stagedLine, Prod.mk.injEq] at h
  exact h.2

/-! ### The vector tile and the window tile -/

theorem scratch_vecUnbind (s : State) (u : Site) (k code : Nat) : (vtileOf (vecUnbind s u k code) u).scratch = (vtileOf s u).scratch := by
  unfold vecUnbind
  extract_lets t s1 s2
  split
  · rfl
  · have h : s2.vtiles = s1.vtiles := by simp only [s2]; split <;> simp
    rw [vtileOf_traceNow, vtileOf_of_vtiles h, vtileOf_putVec]

theorem scratch_vecSettle (s : State) (u : Site) : (vtileOf (vecSettle s u) u).scratch = (vtileOf s u).scratch := by
  refine read_foldl (g := fun st => (vtileOf st u).scratch) (fun st k => ?_) _ _
  dsimp only
  split
  · split
    · exact scratch_vecUnbind st u k 0
    · rfl
  · rfl

theorem lines_winUnbind (s : State) (u : Site) (k code : Nat) : (wtileOf (winUnbind s u k code) u).lines = (wtileOf s u).lines := by
  unfold winUnbind
  extract_lets t s1 s2
  split
  · rfl
  · have h : s2.wtiles = s1.wtiles := by simp only [s2]; split <;> simp
    rw [wtileOf_traceNow, wtileOf_of_wtiles h, wtileOf_setWtile]

theorem lines_winSettle (s : State) (u : Site) : (wtileOf (winSettle s u) u).lines = (wtileOf s u).lines := by
  refine read_foldl (g := fun st => (wtileOf st u).lines) (fun st k => ?_) _ _
  extract_lets c
  split
  · next sl0 _ =>
    extract_lets sl tails
    split
    · rw [lines_winUnbind, wtileOf_setWtile]
    · rw [wtileOf_setWtile]
  · rfl

end Sys2Proof.Machine
end

section
/-! PROOF. Loads write the beats that they take into staging, scratch and line buffer, and scale groups get their exponents (R103, R107, R121, R122, R143,
R145, R153). -/

namespace Sys2Proof.Machine

/-! ### ALOAD -/

/-- Numbering gives a line its order index and its row, and leaves every line's data where they are (R118). -/
theorem stagedLine_numberLine (chans histn : Nat) (outl : List Nat) (a : MatrixTile × Slot) (i : Nat) :
    stagedLine (numberLine chans histn outl a i).1 = stagedLine a.1 := by
  funext j
  by_cases h : j = i
  · subst h
    simp [numberLine, stagedLine, lineAt, lineFilled]
  · simp [numberLine, stagedLine, lineAt, lineFilled, amGetD_amSet_other _ _ _ h]

theorem stagedLine_numberLoads (chans histn : Nat) (outl : List Nat) (loads : List (Nat × Bool × List Nat)) (a : MatrixTile × Slot) :
    stagedLine (numberLoads chans histn outl loads a).2.1 = stagedLine a.1 := by
  have fold (lines : List Nat) (a : MatrixTile × Slot) : stagedLine (lines.foldl (numberLine chans histn outl) a).1 = stagedLine a.1 := by
    induction lines generalizing a with
    | nil => rfl
    | cons i lines ih => exact (ih _).trans (stagedLine_numberLine _ _ _ _ _)
  induction loads generalizing a with
  | nil => rfl
  | cons load rest ih =>
    obtain ⟨id, fin, lines⟩ := load
    unfold numberLoads
    dsimp only
    split
    · exact (ih _).trans (fold lines a)
    · exact fold lines a

/-- The line of the beat holds its data, whatever lines are numbered with it. -/
theorem stagedLine_aloadWrite (s : State) (u : Site) (k : Nat) (sl : Slot) (e : Issued) (b : Beat) :
    stagedLine (tileOf (aloadWrite s u k sl e b) u) ((e.a + e.progress) % 1024) = (b.data, true) := by
  unfold aloadWrite
  extract_lets t i line fin loads t1 sl1 r
  have written : stagedLine t1 i = (b.data, true) := by simp [stagedLine, lineAt, lineFilled, t1, line]
  split
  · exact (congrArg (stagedLine · i) (tileOf_putTile s u t1)).trans written
  split
  · rw [tileOf_putTile]
    exact (congrFun (stagedLine_numberLoads _ _ _ _ _) i).trans written
  · rw [tileOf_putTile]
    exact written

theorem aloadWrite_now (s : State) (u : Site) (k : Nat) (sl : Slot) (e : Issued) (b : Beat) : (aloadWrite s u k sl e b).now = s.now :=
  (moves_aloadWrite (msk := 0x40) rfl (Moves.refl s)).frame.b0 rfl

section
variable {s s1 : State} {u : Site} {slot port : Nat} {e : Issued} {b b' : Beat}

theorem execAloadBeat_eq (hacts : tileActs s u = true) (he : headOf tileKey (tileOf s u).board (slot, 2, port) = some e)
    (hview : aloadView s u port (entrySlot (tileOf s u) e).stream = some b) (hdata : isTack b = false)
    (hline : lineFilled (tileOf s u) ((e.a + e.progress) % 1024) = false) (ht : reaches s (amGetD (tileOf s u).portFc port 0) = true)
    (htake : takeBeat (advance s (amGetD (tileOf s u).portFc port 0)) ⟨u, port⟩ (fun x => x == b) = some (b', s1)) :
    execAloadBeat u slot port s = .next (tileSettle (aloadWrite s1 u slot (entrySlot (tileOf s u) e) e b) u) := by
  unfold execAloadBeat
  simp only [hacts, he, hview, isVoidTack, hdata, hline, ht, htake, Bool.not_true, Bool.not_false, Bool.false_and, Bool.and_false, Bool.or_false,
    Bool.false_eq_true, if_false]
  rfl

/-! ### VLOAD -/

theorem execVloadBeat_eq {sl : Slot} {i : Nat} (hacts : vecActs s u = true) (he : headOf vecKey (vtileOf s u).board (slot, 0, 0) = some e)
    (hsl : slotAt (vtileOf s u).slots slot = some sl) (hview : vloadView s u (vopPort e.op) sl.stream = some b) (hdata : isTack b = false)
    (hfree : vecFree s u (vtileOf s u) e = true)
    (hi : vecEntry s u 17 (wrapD s u) slot e.d (if vopPack e.op then e.progress / 2 else e.progress) = i)
    (ht : reaches s (ceilDiv (amGetD (vtileOf s u).ready i 0) 8) = true) (htake : takeBeat s ⟨u, vopPort e.op⟩ (fun x => x == b) = some (b', s1)) :
    ∃ x t, execVloadBeat u slot s = .next (vecSettle (putVec x u t) u) ∧
      t.scratch = amSet (vtileOf s u).scratch i (loadedEntry (vopPack e.op) e.progress (entryOf (vtileOf s u) i) b.data) := by
  unfold execVloadBeat
  simp only [hacts, he, hsl, hview, isVoidTack, hdata, hfree, hi, ht, htake, Bool.not_true, Bool.not_false, Bool.false_and, Bool.and_false, Bool.or_false,
    Bool.false_eq_true, if_false]
  exact ⟨_, _, rfl, rfl⟩

end

/-! ### The window tile -/

section
variable {s s1 : State} {u : Site} {sl : WinSlot} {b b' : Beat}

/-- A beat of a bound frame goes into the line buffer. -/
theorem execWindowBeatIn_bound {k : Nat} (hacts : winActs s u = true)
    (hpick : winPick (winCfg s u) (wtileOf s u) (inBuf s ⟨u, (winCfg s u).inPort⟩) = some b)
    (htaking : winTaking (winCfg s u) (wtileOf s u) (bStream b) = some (some k, sl)) (hlast : bLast b = (sl.inBeat + 1 == winRowBeats (winCfg s u)))
    (htake : takeBeat s ⟨u, (winCfg s u).inPort⟩ (fun x => x == b) = some (b', s1)) :
    execWindowBeatIn u false s = .next (winSettle (setWtile s1 u { wtileOf s1 u with
      lines := winStore (winCfg s u) (wtileOf s u) k sl b.data
      slots := (wtileOf s u).slots.set k (some { winNext (winCfg s u) sl b with since := s1.now }) }) u) := by
  unfold execWindowBeatIn
  simp only [hacts, hpick, htaking, hlast, htake, Bool.not_true, Bool.false_eq_true, if_false, bne_self_eq_false]
  rfl

/-- A beat of the rest of a frame goes nowhere. -/
theorem execWindowBeatIn_rest (parity : Bool) (hacts : winActs s u = true)
    (hpick : winPick (winCfg s u) (wtileOf s u) (inBuf s ⟨u, (winCfg s u).inPort⟩) = some b)
    (htaking : winTaking (winCfg s u) (wtileOf s u) (bStream b) = some (none, sl)) (hlast : bLast b = (sl.inBeat + 1 == winRowBeats (winCfg s u)))
    (htake : takeBeat s ⟨u, (winCfg s u).inPort⟩ (fun x => x == b) = some (b', s1)) :
    ∃ tails, execWindowBeatIn u parity s = .next (setWtile s1 u { wtileOf s1 u with tails := tails }) := by
  unfold execWindowBeatIn
  simp only [hacts, hpick, htaking, hlast, htake, Bool.not_true, Bool.false_eq_true, if_false, bne_self_eq_false]
  exact ⟨_, rfl⟩

end

/-! ### The next exponent (R122) -/

theorem execRowExponentFix_eq {s : State} {u : Site} {slot g : Nat} {sl : Slot} (hacts : tileActs s u = true) (hint : isInt s u = true)
    (hsl : slotAt (tileOf s u).slots slot = some sl) (hg : groupDue (tileOf s u) slot sl (rowChannels s u) = some g) :
    execRowExponentFix u slot false s = .next (putTile s u { tileOf s u with
      slots := setSlot (tileOf s u).slots slot (withGroup sl (rowChannels s u) g (fixGroup s u sl g)) }) := by
  unfold execRowExponentFix
  simp only [hacts, hint, hsl, hg, Bool.not_true, Bool.or_false, Bool.false_eq_true, if_false]
  rfl

/-- Settles O30: each load by its equation, then what it wrote read back behind the numbering and the slots that unbind. -/
theorem loadsWriteTheStores : Obligations.LoadsWriteTheStores := by
  refine ⟨?_, ?_, ?_, ?_, ?_⟩
  · intro s s1 u slot port e sl b b' hacts at_ he hsl hview hdata hline ht htake t
    subst hsl
    obtain ⟨data, filled⟩ := Prod.ext_iff.mp (stagedLine_aloadWrite s1 u slot (entrySlot (tileOf s u) e) e b)
    exact ⟨execAloadBeat_eq hacts he hview hdata hline ht htake, data, filled, (aloadWrite_now _ _ _ _ _ _).trans (takeBeat_frame htake).1⟩
  · intro s s1 u slot e sl b b' hacts i he hsl hview hdata hfree ht htake
    obtain ⟨x, t, h, hscratch⟩ := execVloadBeat_eq hacts he hsl hview hdata hfree rfl ht htake
    refine ⟨_, h, ?_⟩
    unfold entryOf
    rw [scratch_vecSettle, vtileOf_putVec, hscratch]
    exact amGetD_amSet_same _ _ _ _
  · intro s s1 u k sl b b' hacts c hpick htaking hlast htake
    refine ⟨_, execWindowBeatIn_bound hacts hpick htaking hlast htake, ?_⟩
    rw [lines_winSettle, wtileOf_setWtile]
  · intro s s1 u p sl b b' hacts c hpick htaking hlast htake
    obtain ⟨tails, h⟩ := execWindowBeatIn_rest p hacts hpick htaking hlast htake
    obtain ⟨-, -, -, -, hw⟩ := takeBeat_frame htake
    refine ⟨_, h, ?_⟩
    rw [wtileOf_setWtile, wtileOf_of_wtiles hw]
  · intro s u slot g sl hacts hint hsl hg
    refine ⟨_, withGroup sl (rowChannels s u) g (fixGroup s u sl g), execRowExponentFix_eq hacts hint hsl hg, ?_, rfl⟩
    rw [tileOf_putTile]
    exact slotAt_set_same _ (lt_length_of_slotAt hsl)

end Sys2Proof.Machine
end

section
/-! PROOF. The array writes the sets, the clip check passes them or has them replayed, and DRAIN sends their columns (R87, R92, R96, R104, R107, R120, R126,
R128, R129). -/

namespace Sys2Proof.Machine

/-! ### An entry fires into its set -/

theorem setOf_of_sets {t : MatrixTile} {m : AMap Nat AccSet} {d : Nat} {a : AccSet} (h : t.sets = amSet m d a) : setOf t d = a := by
  unfold setOf
  rw [h]
  exact amGetD_amSet_same _ _ _ _

/-- A tile in which an entry has fired: its set is written, and it has left the scoreboard. -/
def firedTile (t : MatrixTile) (e : Issued) (set : AccSet) : MatrixTile := { t with sets := amSet t.sets e.d set, board := dropEntry t.board e.id }

theorem lastingStores_fireInto (s : State) (u : Site) (sl : Slot) (e : Issued) (set : AccSet) (sats : Nat) :
    lastingStores (tileOf (fireInto s u sl e set sats) u) = lastingStores (firedTile (tileOf s u) e set) := by
  unfold fireInto countSat
  extract_lets t end_ side t1 s1
  rw [lastingStores_tileSettle, tileOf_countEvent, tileOf_countUnit, lastingStores_putTile]
  rfl

theorem setOf_fireInto (s : State) (u : Site) (sl : Slot) (e : Issued) (set : AccSet) (sats : Nat) :
    { setOf (tileOf (fireInto s u sl e set sats) u) e.d with owner := 0 } = { set with owner := 0 } := by
  rw [set_of_lastingStores (lastingStores_fireInto s u sl e set sats) e.d]
  rw [setOf_of_sets (t := firedTile (tileOf s u) e set) rfl]

theorem fireInto_drops (s : State) (u : Site) (sl : Slot) (e : Issued) (set : AccSet) (sats : Nat) :
    ∀ x ∈ (tileOf (fireInto s u sl e set sats) u).board, x.id ≠ e.id :=
  gone_of_lastingStores (lastingStores_fireInto s u sl e set sats) (not_mem_dropEntry _ _)

/-- The set is written at the fc of the turn, which the fetch beats written ahead of it do not move. -/
theorem fireInto_now (s : State) (u : Site) (sl : Slot) (e : Issued) (set : AccSet) (sats : Nat) :
    (fireInto (settleWrites (fireTurn s u e) u) u sl e set sats).now = max s.now (fireAt s u e / 8) :=
  (moves_fireInto (msk := 0x18004e) rfl (moves_settleWrites rfl (Moves.refl (fireTurn s u e)))).frame.b0 rfl

/-! ### MAC and OMAC -/

section
variable {s : State} {u : Site} {slot : Nat} {e : Issued}

section
variable (hacts : tileActs s u = true) (hreplay : replayHead (tileOf s u) = none) (he : headOf tileKey (tileOf s u).board (slot, 0, 0) = some e)
  (hfree : arrayFree (tileOf s u) e = true)
  (hlines : (macLines s u e).all (fun i => lineReady s u (entrySlot (tileOf s u) e) (lineAt (tileOf s u) i)) = true)
  (ht : reaches s (fireAt s u e / 8) = true)
include hacts hreplay he hfree hlines ht

/-- The weight region of the MAC is being rewritten (R96). -/
theorem execMacFire_stalls (hw : unitSound (tileOf s u) e.b = false) : execMacFire u slot .good .clean s = .next (stallOn s u [e.b]) := by
  unfold execMacFire
  simp only [hacts, hreplay, he, hfree, hlines, ht, hw, Bool.not_true, Bool.not_false, Bool.or_false, Bool.false_eq_true, if_false, if_true]
  rfl

theorem execMacFire_int (hw : unitSound (tileOf s u) e.b = true) (hint : isInt s u = true)
    (hgroup : groupClash (settleWrites (fireTurn s u e) u) u (entrySlot (tileOf s u) e) e = false) :
    let s0 := settleWrites (fireTurn s u e) u
    let set := intMacSet s0 u (entrySlot (tileOf s u) e) e
    execMacFire u slot .good .clean s =
      .next (fireInto s0 u (entrySlot (tileOf s u) e) e set (wideSats s0 u (entrySlot (tileOf s u) e) e set)) := by
  unfold execMacFire
  simp only [hacts, hreplay, he, hfree, hlines, ht, hw, hint, hgroup, weightRead, Bool.not_true, Bool.or_false, Bool.false_eq_true, if_false, if_true, ne_eq,
    not_true_eq_false]
  rfl

theorem execMacFire_float (hw : unitSound (tileOf s u) e.b = true) (hint : isInt s u = false) :
    let r := floatMacSet (settleWrites (fireTurn s u e) u) u e
    execMacFire u slot .good .clean s = .next (fireInto (settleWrites (fireTurn s u e) u) u (entrySlot (tileOf s u) e) e r.1 r.2) := by
  unfold execMacFire
  simp only [hacts, hreplay, he, hfree, hlines, ht, hw, hint, weightRead, Bool.not_true, Bool.or_false, Bool.false_eq_true, if_false, ne_eq,
    not_true_eq_false]
  rfl

end

theorem execOmacFire_eq (hacts : tileActs s u = true) (he : headOf tileKey (tileOf s u).board (slot, 1, 0) = some e) (hfree : arrayFree (tileOf s u) e = true)
    (hline : lineFilled (tileOf s u) e.a = true) (ht : reaches s (fireAt s u e / 8) = true) (hw : unitSound (tileOf s u) e.b = true)
    (hw2 : unitSound (tileOf s u) ((e.b + 1) % 24576) = true) :
    let s0 := settleWrites (fireTurn s u e) u
    let x := tileOf s0 u
    let r := rankOne e.clear 32 (sideOf_ x e.d) ((lanesOf (lineAt x e.a).data).map num16)
      (floatWeights false (weightUnit x e.b) ++ floatWeights false (weightUnit x ((e.b + 1) % 24576)))
    ∃ set, execOmacFire u slot (.good, .good) .clean s =
      .next (fireInto (setTile s0 u { x with side := amSet x.side e.d r.1 }) u (entrySlot (tileOf s u) e) e set r.2) := by
  unfold execOmacFire
  simp only [hacts, he, hfree, hline, ht, hw, hw2, weightRead, Except.bind, Bool.not_true, Bool.or_false, Bool.false_eq_true, if_false, ne_eq,
    not_true_eq_false]
  exact ⟨_, rfl⟩

end

/-! ### The clip check (R129, R130) -/

section
variable {s : State} {u : Site} {slot : Nat} {e : Issued} {sl : Slot}
  (hacts : tileActs s u = true) (hint : isInt s u = true) (hsl : slotAt (tileOf s u).slots slot = some sl)
  (he : checkNext s (tileOf s u) slot sl = some e)
include hacts hint hsl he

theorem execClipCheck_wide (hwide : sl.wide = true) :
    execClipCheck u slot s = .next (if (setOf (tileOf s u) e.d).anyNarrow = true then replaySet (advance s (backFc (setOf (tileOf s u) e.d))) u e.d
      else passSet (advance s (backFc (setOf (tileOf s u) e.d))) u e.d) := by
  unfold execClipCheck
  simp only [hacts, hint, hsl, he, hwide, Bool.not_true, Bool.or_false, Bool.false_eq_true, if_false, if_true]
  rfl

theorem execClipCheck_passes (hwide : sl.wide = false)
    (hclip : (clipTotals sl (setOf (tileOf s u) e.d).ordEnd).2 * 65536 ≤ clipThreshold s u * (clipTotals sl (setOf (tileOf s u) e.d).ordEnd).1) :
    execClipCheck u slot s = .next (passSet (advance s (backFc (setOf (tileOf s u) e.d))) u e.d) := by
  unfold execClipCheck
  simp only [hacts, hint, hsl, he, hwide, Nat.not_lt.mpr hclip, Bool.not_true, Bool.or_false, Bool.false_eq_true, if_false]
  rfl

theorem execClipCheck_unreplayed (hwide : sl.wide = false)
    (hclip : clipThreshold s u * (clipTotals sl (setOf (tileOf s u) e.d).ordEnd).1 < (clipTotals sl (setOf (tileOf s u) e.d).ordEnd).2 * 65536)
    (hrerun : rerunOn s u = false) :
    execClipCheck u slot s = .next (passSet (countUnit (advance s (backFc (setOf (tileOf s u) e.d))) u 5 1) u e.d) := by
  unfold execClipCheck
  simp only [hacts, hint, hsl, he, hwide, hclip, hrerun, Bool.not_true, Bool.or_false, Bool.false_eq_true, if_false, if_true]
  rfl

/-- Above the threshold, with reruns on, the set goes to the wide path behind the notes of its frame's rerun, which leave the sets alone. -/
theorem execClipCheck_reruns (hwide : sl.wide = false)
    (hclip : clipThreshold s u * (clipTotals sl (setOf (tileOf s u) e.d).ordEnd).1 < (clipTotals sl (setOf (tileOf s u) e.d).ordEnd).2 * 65536)
    (hrerun : rerunOn s u = true) :
    ∃ x, execClipCheck u slot s = .next (replaySet x u e.d) ∧ (tileOf x u).sets = (tileOf s u).sets := by
  unfold execClipCheck
  simp only [hacts, hint, hsl, he, hwide, hclip, hrerun, Bool.not_true, Bool.or_false, Bool.false_eq_true, if_false, if_true]
  refine ⟨_, rfl, ?_⟩
  rw [tileOf_traceNow, tileOf_countEvent, tileOf_countUnit, tileOf_putTile, tileOf_advance]

end

theorem replaySet_eq (s : State) (u : Site) (d : Nat) :
    (setOf (tileOf (replaySet s u d) u) d).isWide = true ∧ (setOf (tileOf (replaySet s u d) u) d).checked = true ∧
    (setOf (tileOf (replaySet s u d) u) d).todo = (setOf (tileOf s u) d).log ∧ d ∈ (tileOf (replaySet s u d) u).replays := by
  unfold replaySet
  extract_lets t set set1
  have h : setOf (tileOf (setTile s u { t with sets := amSet t.sets d set1, replays := t.replays.filter (fun x => decide (x ≠ d)) ++ [d] }) u) d = set1 := by
    rw [tileOf_setTile]
    exact setOf_of_sets rfl
  rw [h, tileOf_setTile]
  exact ⟨rfl, rfl, rfl, List.mem_append_right _ (List.mem_singleton_self d)⟩

/-! ### DRAIN (R104, R126) -/

theorem outQ_foldl_pushOut {α : Type} (e : EndPoint) (f : α → OutBeat) (l : List α) (s : State) :
    outQ (l.foldl (fun st p => pushOut st e (f p)) s) e = outQ s e ++ l.map f := by
  induction l generalizing s with
  | nil => exact (List.append_nil _).symm
  | cons p l ih => rw [List.foldl_cons, ih, outQ_pushOut, List.map_cons, List.append_assoc, List.singleton_append]

theorem length_drainColumns (s : State) (u : Site) (sl : Slot) (e : Issued) :
    (drainColumns s u sl e).1.length = if isInt s u then 32 else 16 := by
  unfold drainColumns
  dsimp only
  split
  · split <;> simp
  · simp

/-- A DRAIN whose conditions are met puts a beat for each column behind what waits at its port. -/
theorem execDrainFire_eq {s : State} {u : Site} {slot : Nat} {e : Issued} {sl : Slot} (hacts : tileActs s u = true)
    (he : drainHead (tileOf s u) slot = some e) (hsl : slotAt (tileOf s u).slots slot = some sl)
    (hchecked : isInt s u = true → (setOf (tileOf s u) e.d).checked = true)
    (harray : earlier (tileOf s u).board e (fun x => (opCode x.op == 2 || opCode x.op == 3) && x.d == e.d) = false)
    (hport : earlier (tileOf s u).board e (fun x => opCode x.op == 4 && dbits x.op 8 7 == dbits e.op 8 7 && !x.fired) = false)
    (htodo : isInt s u = true → (setOf (tileOf s u) e.d).todo = []) (ht : reaches s (backFc (setOf (tileOf s u) e.d)) = true) :
    let x := advance s (backFc (setOf (tileOf s u) e.d))
    ∃ (f : Column × Nat → OutBeat) (t : MatrixTile) (n : Nat), (∀ p, (f p).beat.data = p.1.data) ∧
      execDrainFire u slot .clean s =
        .next (countSat (putTile ((drainColumns x u sl e).1.zipIdx.foldl (fun st p => pushOut st ⟨u, dbits e.op 8 7⟩ (f p)) x) u t) u n) := by
  have hset : (isInt s u && (!(setOf (tileOf s u) e.d).checked || !(setOf (tileOf s u) e.d).todo.isEmpty)) = false := by
    cases h : isInt s u with
    | false => rfl
    | true => rw [hchecked h, htodo h]; rfl
  unfold execDrainFire
  simp only [hacts, he, hsl, harray, hport, hset, ht, Bool.not_true, Bool.or_false, Bool.false_eq_true, if_false, ne_eq, not_true_eq_false]
  exact ⟨_, _, _, fun _ => rfl, rfl⟩

/-- Settles O31: each command by its equation; what fires is read back behind the slots that unbind, the beats of a DRAIN behind those that waited. -/
theorem arrayOperationsWriteTheirSet : Obligations.ArrayOperationsWriteTheirSet := by
  refine ⟨?_, ?_, ?_, ?_⟩
  · intro s u slot e hacts hreplay he hfree sl hlines ht s0
    refine ⟨fun hw => execMacFire_stalls hacts hreplay he hfree hlines ht hw, fun hw hint hgroup => ?_, fun hw hint => ?_⟩
    · exact ⟨_, execMacFire_int hacts hreplay he hfree hlines ht hw hint hgroup, setOf_fireInto _ _ _ _ _ _, fireInto_now _ _ _ _ _ _,
        fireInto_drops _ _ _ _ _ _⟩
    · exact ⟨_, execMacFire_float hacts hreplay he hfree hlines ht hw hint, setOf_fireInto _ _ _ _ _ _, fireInto_now _ _ _ _ _ _,
        fireInto_drops _ _ _ _ _ _⟩
  · intro s u slot e hacts he hfree hline ht hw hw2 x
    obtain ⟨set, h⟩ := execOmacFire_eq hacts he hfree hline ht hw hw2
    refine ⟨_, h, ?_, fireInto_drops _ _ _ _ _ _⟩
    unfold sideOf_
    rw [side_of_lastingStores (lastingStores_fireInto _ _ _ _ _ _), tileOf_setTile]
    exact amGetD_amSet_same _ _ _ _
  · intro s u slot e sl hacts hint hsl he set n x
    refine ⟨fun hwide hn => ?_, fun hwide hn => ?_, fun hwide hclip => execClipCheck_passes hacts hint hsl he hwide hclip,
      fun hwide hclip hrerun => execClipCheck_unreplayed hacts hint hsl he hwide hclip hrerun, fun hwide hclip hrerun => ?_⟩
    · exact (execClipCheck_wide hacts hint hsl he hwide).trans (congrArg _ (if_neg (by rw [hn]; decide)))
    · exact (execClipCheck_wide hacts hint hsl he hwide).trans (congrArg _ (if_pos hn))
    · obtain ⟨y, h, hsets⟩ := execClipCheck_reruns hacts hint hsl he hwide hclip hrerun
      obtain ⟨wide, checked, todo, replays⟩ := replaySet_eq y u e.d
      exact ⟨_, h, wide, checked, todo.trans (by simp only [setOf, hsets, set]), replays⟩
  · intro s u slot e sl hacts he hsl hchecked harray hport htodo ht out cols
    obtain ⟨f, t, n, hdata, h⟩ := execDrainFire_eq hacts he hsl hchecked harray hport htodo ht
    refine ⟨_, h, ?_⟩
    have queue (y : State) : outQ (countSat (putTile y u t) u n) out = outQ y out :=
      outQ_of_fabric ((countUnit_frame _ _ _ _).2.1.trans rfl) out
    have hlen : cols.length = if isInt s u then 32 else 16 := length_drainColumns _ _ _ _
    have hcols : (cols.zipIdx.map f).map (·.beat.data) = cols.map (·.data) := by
      rw [List.map_map, ← List.zipIdx_map_fst 0 cols, List.map_map, List.zipIdx_map_fst]
      exact List.map_congr_left fun p _ => hdata p
    rw [queue, outQ_foldl_pushOut, outQ_advance]
    exact ⟨by rw [List.length_append, List.length_map, List.length_zipIdx, hlen], by rw [List.drop_left]; exact hcols, List.take_left⟩

end Sys2Proof.Machine
end

section
/-! PROOF. Fetched weights, released lines and rewritten words (R95, R96, R106, R107, R133, R208, R209). -/

namespace Sys2Proof.Machine

theorem queueOf_of_feed {s t : State} (h : t.feed = s.feed) (q : Nat) : queueOf t q = queueOf s q := by
  unfold queueOf
  rw [h]

@[simp] theorem tileOf_traceAt (s : State) (type : Nat) (site : Site) (stream : Option Nat) (frame d0 d1 d2 : Dword) (time : Fc) (u : Site) :
    tileOf (traceAt s type site stream frame d0 d1 d2 time) u = tileOf s u := tileOf_of_tiles (by simp) u

@[simp] theorem tileOf_faultAt (s : State) (code cls : Nat) (site : Site) (stream : Option Nat) (frame d0 d1 : Dword) (time : Fc) (u : Site) :
    tileOf (faultAt s code cls site stream frame d0 d1 time) u = tileOf s u := tileOf_of_tiles (by simp) u

/-! ### Fetch beats are written (R94, R95) -/

theorem writeFetched_stores (s : State) (u : Site) (w : FetchWrite) :
    (tileOf (writeFetched s u w) u).board = (tileOf s u).board ∧
    (tileOf (writeFetched s u w) u).weights = memSetLine (tileOf s u).weights (64 * w.beat) w.data := by
  unfold writeFetched
  extract_lets t mine old rest home s1
  have hboard : (tileOf s1 u).board = (tileOf s u).board := by rw [tileOf_setTile]
  have hweights : (tileOf s1 u).weights = memSetLine (tileOf s u).weights (64 * w.beat) w.data := by rw [tileOf_setTile]
  clear_value s1 home rest old
  cases old with
  | none => exact ⟨hboard, hweights⟩
  | some f =>
    dsimp only
    split
    · rw [tileOf_traceAt]
      exact ⟨hboard, hweights⟩
    · exact ⟨hboard, hweights⟩

theorem board_settleWrites (s : State) (u : Site) : (tileOf (settleWrites s u) u).board = (tileOf s u).board := by
  unfold settleWrites
  extract_lets t due
  rw [read_foldl (g := fun x => (tileOf x u).board) fun x w => (writeFetched_stores x u w).1, tileOf_setTile]

/-- A single buffered beat that is due is written. -/
theorem weights_settleWrites {s : State} {u : Site} {w : FetchWrite} (hbuf : (tileOf s u).writeBuf = [w]) (hdue : w.due < 8 * (s.now + 1)) :
    (tileOf (settleWrites s u) u).weights = memSetLine (tileOf s u).weights (64 * w.beat) w.data := by
  unfold settleWrites
  extract_lets t due
  have hd : due = [w] := by
    change ((tileOf s u).writeBuf.takeWhile _) = _
    rw [hbuf, List.takeWhile_cons_of_pos (by simpa using hdue)]
    rfl
  rw [hd, List.foldl_cons, List.foldl_nil, (writeFetched_stores _ _ _).2, tileOf_setTile]

/-- A beat that finds nothing waiting and nothing read is due now. -/
theorem writeCycle_idle {s : State} {u : Site} (beat : Nat) (hbuf : (tileOf s u).writeBuf = []) (hreads : (tileOf s u).reads = []) :
    writeCycle s u beat = 8 * s.now := by
  unfold writeCycle
  dsimp only
  rw [hbuf, hreads]
  rfl

section
variable {s s1 : State} {u : Site} {slot port : Nat} {e : Issued}

/-! ### The memory class: FETCH, WAIT, RELEASE (R106, R133, R208, R209) -/

/-- The request that a FETCH makes of its queue. -/
def fetchOffer (s : State) (u : Site) (slot : Nat) (e : Issued) : Grant :=
  { tile := u, slot := slot, stream := e.stream, frame := e.frame, count := dbits e.op 24 17 + 1, left := dbits e.op 24 17 + 1, number := 0
    due := s.now + Config.latQr }

theorem execFetchFire_eq (hacts : tileActs s u = true) (he : headOf tileKey (tileOf s u).board (slot, 4, 0) = some e) (hop : opCode e.op = 5)
    (hroom : (queueOf s (fetchQueue e.op)).grants.length < 8) :
    ∃ t, execFetchFire u slot s = .next (tileSettle (putTile (setQueue s (fetchQueue e.op) { queueOf s (fetchQueue e.op) with
      fetchOffers := (queueOf s (fetchQueue e.op)).fetchOffers ++ [fetchOffer s u slot e] }) u t) u) := by
  unfold execFetchFire
  simp only [hacts, he, hop, Nat.not_le.mpr hroom, Bool.not_true, Bool.false_eq_true, if_false, ne_eq, not_true_eq_false, or_self]
  exact ⟨_, rfl⟩

theorem execFetchBeatWrite_eq {prod : EndPoint} {b : Beat} {f : FetchRec} (hacts : tileActs s u = true) (hport : isFetchPort s u port = true)
    (hroom : (tileOf (settleWrites s u) u).writeBuf.length < 8) (hprod : linkProducer (settleWrites s u) ⟨u, port⟩ = some prod)
    (htake : takeBeat (settleWrites s u) ⟨u, port⟩ (fun b => bType b == tyData) = some (b, s1))
    (hf : (tileOf s1 u).fetches.find? (fun f => f.queue == sitePort prod.site * 8 + prod.port &&
      decide (f.written + bufferedOf (tileOf s1 u) f < f.count)) = some f) :
    execFetchBeatWrite u port s = .next (settleWrites (setTile s1 u { tileOf s1 u with writeBuf := (tileOf s1 u).writeBuf ++
      [⟨(f.first + f.written + bufferedOf (tileOf s1 u) f) % 12288, b.data,
        writeCycle s1 u ((f.first + f.written + bufferedOf (tileOf s1 u) f) % 12288), sitePort prod.site * 8 + prod.port, f.id, bStream b⟩] }) u) := by
  unfold execFetchBeatWrite
  simp only [hacts, hport, Nat.not_le.mpr hroom, hprod, htake, hf, Bool.not_true, Bool.or_false, Bool.false_eq_true, if_false]
  rfl

theorem execWaitComplete_eq (hacts : tileActs s u = true) (he : headOf tileKey (tileOf s u).board (slot, 4, 0) = some e) (hop : opCode e.op = 6)
    (hnone : (tileOf (settleWrites s u) u).fetches.any (fun f => f.slot == slot && f.queue == fetchQueue e.op && decide (f.id < e.id)) = false) :
    execWaitComplete u slot s = .next (tileSettle (putTile (settleWrites s u) u { tileOf (settleWrites s u) u with
      board := dropEntry (tileOf (settleWrites s u) u).board e.id }) u) := by
  unfold execWaitComplete
  simp only [hacts, board_settleWrites, he, hop, hnone, Bool.not_true, Bool.false_eq_true, if_false, ne_eq, not_true_eq_false, or_self]
  rfl

/-- A RELEASE that nothing holds leaves the scoreboard, and its lines leave the staging store. -/
theorem execReleaseFire_eq (hacts : tileActs s u = true) (he : headOf tileKey (tileOf s u).board (slot, 4, 0) = some e) (hop : opCode e.op = 7)
    (hreads : earlier (tileOf s u).board e (fun x => (opCode x.op == 2 && (macLines s u x).any (fun i => (releaseLines e).contains i)) ||
      (opCode x.op == 3 && [x.a].any (fun i => (releaseLines e).contains i))) = false)
    (hint : isInt s u = true →
      (∀ p ∈ (tileOf s u).sets, p.2.lines.any (fun i => (releaseLines e).contains i) = true → p.2.checked = true ∧ p.2.todo = []) ∧
      ∀ i ∈ releaseLines e, lineFilled (tileOf s u) i = true → (lineAt (tileOf s u) i).slot < 4 → (lineAt (tileOf s u) i).ord ≠ none) :
    execReleaseFire u slot s = .next (tileSettle (putTile s u { tileOf s u with
      board := dropEntry (tileOf s u).board e.id, staging := (tileOf s u).staging.filter (fun p => !(releaseLines e).contains p.1) }) u) := by
  have hsets : ((if isInt s u = true then (tileOf s u).sets.filter (fun p => p.2.lines.any (fun i => (releaseLines e).contains i)) else []).any
      fun p => !p.2.checked || !p.2.todo.isEmpty) = false := by
    split
    · next h =>
      rw [List.any_eq_false]
      intro p hp
      obtain ⟨hmem, hlines⟩ := List.mem_filter.mp hp
      obtain ⟨hchecked, htodo⟩ := (hint h).1 p hmem hlines
      rw [hchecked, htodo]
      decide
    · rfl
  have hheld : ¬ (isInt s u = true ∧ ((releaseLines e).any fun i =>
      (lineAt (tileOf s u) i).filled && decide ((lineAt (tileOf s u) i).slot < 4) && (lineAt (tileOf s u) i).ord.isNone) = true) := by
    rintro ⟨h, hany⟩
    obtain ⟨i, hi, hline⟩ := List.any_eq_true.mp hany
    simp only [Bool.and_eq_true, decide_eq_true_eq, Option.isNone_iff_eq_none] at hline
    obtain ⟨⟨hfilled, hslot⟩, hord⟩ := hline
    exact (hint h).2 i hi hfilled hslot hord
  unfold execReleaseFire
  dsimp only
  rw [hacts, if_neg (by decide), he]
  dsimp only
  rw [if_neg]
  · rfl
  · rw [hop, hreads, hsets]
    simpa using hheld

end

/-- Lines taken out of the staging store are not filled. -/
theorem lineFilled_filter {t : MatrixTile} {m : AMap Nat StagingLine} {ls : List Nat} {i : Nat} (h : t.staging = m.filter (fun p => !ls.contains p.1))
    (hi : i ∈ ls) : lineFilled t i = false := by
  have hnone : (m.filter (fun p => !ls.contains p.1)).find? (fun p => decide (p.1 = i)) = none := by
    rw [List.find?_eq_none]
    intro p hp hpi
    have := (List.mem_filter.mp hp).2
    rw [of_decide_eq_true hpi, List.contains_iff_mem.mpr hi] at this
    exact absurd this (by decide)
  unfold lineFilled lineAt amGetD amGet
  rw [h, hnone]
  rfl

/-! ### Scrub and rewrite (R96) -/

/-- The tile behind the scrubber's next read. -/
def scrubbed (s : State) (u : Site) : State :=
  setTile (advance s (tileOf s u).scrubFc) u (scrubStep (tileOf s u) (tileOf s u).scrubWord (advance s (tileOf s u).scrubFc).now)

section
variable {s : State} {u : Site}

section
variable (hk : siteKind u = 0) (hp : sitePresent u = true) (hs : s.hal.stopped = false) (ha : (sectorOf s (siteSector u)).state = .active)
  (ht : reaches s (tileOf s u).scrubFc = true)
include hk hp hs ha ht

theorem execWeightScrub_passes {found : Ecc} (h : found = .good ∨ writtenInPass (tileOf s u) ((tileOf s u).scrubWord / 8) = true) :
    execWeightScrub u (tileOf s u).scrubWord found s = .next (scrubbed s u) := by
  unfold execWeightScrub
  simp only [hk, hp, hs, ha, ht, Bool.not_true, Bool.false_eq_true, if_false, ne_eq, not_true_eq_false, or_self]
  obtain rfl | h := h
  · exact ite_self _
  · exact if_pos h

theorem execWeightScrub_finds (hw : writtenInPass (tileOf s u) ((tileOf s u).scrubWord / 8) = false) :
    let w := (tileOf s u).scrubWord
    execWeightScrub u w .single s = .next (fault (scrubbed s u) 0x0301 0 (siteWithSub u (4 * (w / 4 % 4) + w % 4)) 0 0) ∧
    execWeightScrub u w .uncorrectable s = .next (startRewrite (scrubbed s u) u (4 * (w / 4 % 4) + w % 4) (w / 8) false) := by
  unfold execWeightScrub
  simp only [hk, hp, hs, ha, ht, hw, Bool.not_true, Bool.false_eq_true, if_false, ne_eq, not_true_eq_false, or_self]
  exact ⟨rfl, rfl⟩

end

theorem regionBusy_startRewrite (s : State) (u : Site) (bank beat : Nat) (stall : Bool) :
    regionBusy (tileOf (startRewrite s u bank beat stall) u) (beat / 64) = true := by
  unfold startRewrite
  extract_lets t region
  rw [tileOf_setTile]
  unfold regionBusy
  dsimp only
  split
  · assumption
  · simp [region]

/-- The places of the beats of a region that are read again. -/
def regionHomes (s : State) (u : Site) (region : Nat) : List (Nat × Nat) :=
  (List.range' (64 * region) 64).filterMap (fun b => (rewriteHome s u b).map (fun a => (b, a)))

theorem execWeightRewriteDone_eq {region : Nat} {r : Rewrite} {img : Image} (hr : (tileOf s u).rewriting.find? (fun r => r.region == region) = some r)
    (himg : activeImage s = some img) (hhome : rewriteHome s u r.beat ≠ none)
    (hread : (regionHomes s u region).all (fun h => (lineCopies s img h.2).1 || (lineCopies s img h.2).2) = true) :
    ∃ t, execWeightRewriteDone u region true s = .next (faultAt t
        (if (regionHomes s u region).all (fun h => (lineCopies s img h.2).1) = true then 0x0302 else 0x0303) 0 (siteWithSub u r.bank) none noFrame 0 0
        r.found) ∧
      regionBusy (tileOf t u) region = false ∧ region ∉ (tileOf t u).stalledOn ∧
      (tileOf t u).weights = (regionHomes s u region).foldl (fun m h => memSetLine m (64 * h.1) (memLine s.feed.lpddr h.2)) (tileOf s u).weights := by
  have hlost : (((regionHomes s u region).map (fun h => lineCopies s img h.2)).any fun c => !c.1 && !c.2) = false := by
    rw [List.any_map, List.any_eq_false]
    intro h hh
    change ¬ (!(lineCopies s img h.2).1 && !(lineCopies s img h.2).2) = true
    rw [← Bool.not_or, List.all_eq_true.mp hread h hh]
    decide
  have hcode : (if (((regionHomes s u region).map (fun h => lineCopies s img h.2)).any fun c => !c.1) = true then 0x0303 else 0x0302) =
      if (regionHomes s u region).all (fun h => (lineCopies s img h.2).1) = true then 0x0302 else 0x0303 := by
    rw [List.any_map, show ((fun c : Bool × Bool => !c.1) ∘ fun h : Nat × Nat => lineCopies s img h.2) = fun h => !(lineCopies s img h.2).1 from rfl,
      ← List.not_all_eq_any_not]
    cases (regionHomes s u region).all (fun h => (lineCopies s img h.2).1) <;> rfl
  unfold execWeightRewriteDone
  dsimp only
  rw [hr]
  dsimp only
  rw [himg]
  dsimp only
  rw [← regionHomes, hlost, hcode, Option.isNone_eq_false_iff.mpr (Option.isSome_iff_ne_none.mpr hhome), if_neg (by decide)]
  refine ⟨_, rfl, ?_⟩
  simp [regionBusy]

end

/-- Settles O32: each command by its equation; the boards and lines are read back behind the slots that unbind, the weights behind the writes that are due. -/
theorem fetchedWeightsAndReleasedLines : Obligations.FetchedWeightsAndReleasedLines := by
  refine ⟨?_, ?_, ?_, ?_, ?_⟩
  · intro s u slot e hacts he hop q hroom
    obtain ⟨t, h⟩ := execFetchFire_eq hacts he hop hroom
    refine ⟨_, h, ?_⟩
    rw [queueOf_of_feed (tileSettle_frame _ _).2]
    exact congrArg MemQueue.fetchOffers (queueOf_setQueue s _ _)
  · intro s s1 u port prod b f hacts hport s0 t1 beat q hroom hprod htake hf
    have h := execFetchBeatWrite_eq hacts hport hroom hprod htake hf
    refine ⟨h, fun hbuf hreads => ⟨_, h, ?_⟩⟩
    have hdue : writeCycle s1 u beat < 8 * (s1.now + 1) := by rw [writeCycle_idle beat hbuf hreads]; omega
    rw [weights_settleWrites (by rw [tileOf_setTile]; exact congrArg (· ++ _) hbuf) hdue, tileOf_setTile]
  · intro s u slot e hacts he
    refine ⟨fun hop hnone => ⟨_, execWaitComplete_eq hacts he hop hnone, ?_⟩, fun hop hreads hint => ⟨_, execReleaseFire_eq hacts he hop hreads hint, ?_⟩⟩
    · exact settled_drops _ _ rfl
    · exact ⟨settled_drops _ _ rfl, fun i hi => (settled_lineFilled _ _ _ i).trans (lineFilled_filter rfl hi)⟩
  · intro s u hk hp hs ha ht w x s1
    refine ⟨execWeightScrub_passes hk hp hs ha ht (.inl rfl), fun found hw => execWeightScrub_passes hk hp hs ha ht (.inr hw), fun hw => ?_⟩
    obtain ⟨single, uncorrectable⟩ := execWeightScrub_finds hk hp hs ha ht hw
    refine ⟨single, _, uncorrectable, ?_⟩
    have hregion : w * 8 / 4096 = w / 8 / 64 := by omega
    rw [hregion]
    exact regionBusy_startRewrite _ _ _ _ _
  · intro s u region r img hr himg hhome homes hread code
    exact execWeightRewriteDone_eq hr himg hhome hread

end Sys2Proof.Machine
end

section
/-! PROOF. Units drain, leave service and come back (R111, R112, R163, R164, R192, R230, R419, R420). -/

namespace Sys2Proof.Machine

/-! ### The site of an element (R17) -/

theorem siteKind_siteOf {kind sector y x sub : Nat} (hk : kind < 32) (hs : sector < 8) (hy : y < 16) (hx : x < 16) (hsub : sub < 65536) :
    siteKind (siteOf kind sector y x sub) = kind := by
  unfold siteKind siteOf dbits
  rw [BitVec.toNat_ofNat, Nat.shiftRight_eq_div_pow]
  omega

theorem siteKind_siteElem (w : Site) : siteKind (siteElem w) = siteKind w :=
  siteKind_siteOf (Nat.mod_lt _ (by decide)) (Nat.mod_lt _ (by decide)) (Nat.mod_lt _ (by decide)) (Nat.mod_lt _ (by decide)) (by decide)

/-! ### The control of a unit -/

/-- An operation that moves no element, memory port or lost box moves no unit's control. -/
theorem ctlOf_of_moves {m : Nat} {s t : State} (h : Moves m s t) (hm : Nat.land m 0x400fc0 = 0) (u : Site) : ctlOf t u = ctlOf s u := by
  have hclear (i : Nat) (hi : (0x400fc0 : Nat).testBit i = true) : m.testBit i = false := by
    have hbit : (m &&& 0x400fc0).testBit i = false := by
      rw [show m &&& 0x400fc0 = 0 from hm]
      exact Nat.zero_testBit i
    rw [Nat.testBit_and, hi, Bool.and_true] at hbit
    exact hbit
  unfold ctlOf tileOf vtileOf wtileOf steerOf glueOf
  rw [h.frame.b6 (hclear 6 rfl), h.frame.b7 (hclear 7 rfl), h.frame.b8 (hclear 8 rfl), h.frame.b9 (hclear 9 rfl), h.frame.b10 (hclear 10 rfl),
    h.frame.b11 (hclear 11 rfl), h.frame.b22 (hclear 22 rfl)]

theorem ctlOf_setCtl (s : State) {u : Site} (c : UnitCtl) (hk : siteKind u ≤ 5) : ctlOf (setCtl s u c) u = c := by
  unfold ctlOf setCtl
  generalize siteKind u = k at hk
  match k, hk with
  | 0, _ | 1, _ | 2, _ | 3, _ | 4, _ | 5, _ => simp

section
variable {s : State} {u : Site} {c : UnitCtl}

/-- A unit that moves, and is not lost by it, has the control that it is given. -/
theorem ctlOf_moveUnit (hk : siteKind u ≤ 5) (hc : c.state ≠ .lost) : ctlOf (moveUnit s u c) u = c := by
  unfold moveUnit
  dsimp only
  split
  · exact ctlOf_setCtl s c hk
  · rw [ctlOf_of_moves (moves_postDev (msk := 0xe) rfl (Moves.refl _)) rfl]
    exact ctlOf_setCtl s c hk

theorem unitState_moveUnit (hk : siteKind u ≤ 5) (hc : c.state ≠ .lost) : unitState (moveUnit s u c) u = c.state :=
  congrArg UnitCtl.state (ctlOf_moveUnit hk hc)

theorem hal_moveUnit (hc : c.state ≠ .lost) : (moveUnit s u c).hal = s.hal := by
  unfold moveUnit
  dsimp only
  split
  · simp
  · simp

end

/-! ### UNIT_DISABLE (R419, R420) -/

theorem proofState_roundOver (s : State) (time : Fc) : (roundOver s time).hal.proof.state = s.hal.proof.state := by
  unfold roundOver
  dsimp only
  split
  · rfl
  · simp

/-- The wait of a unit's proof is over when the wait is cancelled. -/
theorem cancelWait_proofState {s : State} {u : Site} (h : proofAt s u = true) (hw : s.hal.proof.state = .wait) :
    (cancelWait s u).hal.proof.state = .none := by
  have hcancel : (proofAt s u && s.hal.proof.state == .wait) = true := by
    rw [h, hw]
    rfl
  unfold cancelWait
  simp only [hcancel, if_true]
  split
  · rfl
  · rw [proofState_roundOver]

theorem cancelWait_now (s : State) (u : Site) : (cancelWait s u).now = s.now :=
  (moves_cancelWait (msk := 0x1e) rfl (Moves.refl s)).frame.b0 rfl

theorem ctlOf_startDrain (s : State) {u : Site} (limit : Fc) (hk : siteKind u ≤ 5) :
    ctlOf (startDrain s u limit) u = { state := .draining, drainFrom := s.now, drainLimit := limit } := ctlOf_moveUnit hk (by simp)

theorem hal_startDrain (s : State) (u : Site) (limit : Fc) : (startDrain s u limit).hal = s.hal := by
  unfold startDrain
  rw [hal_moveUnit (by simp)]
  split <;> rfl

/-- The sites that pass the checks of R419 are elements and memory ports. -/
theorem siteKind_of_disableCheck {p : Packet} {masks : List (Nat × Dword)} (h : disableCheck p masks = none) : siteKind (siteElem (pktDw p 2)) ≤ 5 := by
  rw [siteKind_siteElem]
  by_contra hk
  have hsite : disableSite (pktDw p 2) = false := by
    unfold disableSite
    simp only [Bool.or_eq_false_iff, Bool.and_eq_false_iff, decide_eq_false_iff_not, beq_eq_false_iff_ne]
    omega
  unfold disableCheck at h
  dsimp only at h
  rw [hsite] at h
  split at h
  · cases h
  · split at h <;> cases h

section
variable {s : State} {p : Packet}

/-- UNIT_DISABLE of an ENABLED unit. -/
theorem unitDisable_enabled (h : disableCheck p [(2, 0xFFFFFFFF), (3, 0xFFFFFFFF)] = none) (hlimit : (pktDw p 3).toNat ≤ 1000000)
    (he : unitState s (siteElem (pktDw p 2)) = .enabled) (hd : (ctlOf s (siteElem (pktDw p 2))).disableAfterProof = false) :
    unitDisable s p =
      if (proofAt s (siteElem (pktDw p 2)) && s.hal.proof.state != .wait) = true then
        .pend (.unitDisable (siteElem (pktDw p 2))) (setCtl s (siteElem (pktDw p 2))
          { ctlOf s (siteElem (pktDw p 2)) with disableAfterProof := true, drainLimit := drainMicros p * 1300 })
      else .pend (.unitDisable (siteElem (pktDw p 2))) (startDrain (cancelWait s (siteElem (pktDw p 2))) (siteElem (pktDw p 2)) (drainMicros p * 1300)) := by
  have hus : Config.us = 1300 := rfl
  unfold unitDisable
  simp only [h, he, hd, hus, if_neg (Nat.not_lt.mpr hlimit), Bool.false_eq_true, if_false]

/-! ### UNIT_ENABLE (R420) -/

theorem unitEnable_checked (h : disableCheck p [(2, 0xFFFFFFFF)] = none) : unitEnable s p = enableUnit s (siteElem (pktDw p 2)) := by
  unfold unitEnable
  rw [h]

variable {u : Site}

theorem enableUnit_disabled (h : unitState s u = .disabled) : enableUnit s u = okAt (moveUnit (emptyUnit s u) u {}) := by
  unfold enableUnit
  rw [h]

theorem enableUnit_draining (h : unitState s u = .draining) :
    enableUnit s u = okAt (finishFirst (moveUnit s u {}) (fun k => k == .unitDisable u) stAborted 0 s.now) := by
  unfold enableUnit
  rw [h]

theorem enableUnit_enabled (h : unitState s u = .enabled) (hd : (ctlOf s u).disableAfterProof = false) : enableUnit s u = okAt s := by
  unfold enableUnit
  rw [h]
  dsimp only
  rw [hd]
  rfl

/-! ### The end of a drain (R111, R164) -/

theorem execUnitDrainDone_eq (hu : siteElem u = u) (hs : unitState s u = .draining) (hd : unitDrained s u = true) :
    execUnitDrainDone u s = .next (finishFirst (moveUnit (tailsOff s u) u { state := .disabled }) (fun k => k == .unitDisable u) stOK 0 s.now) := by
  unfold execUnitDrainDone
  rw [hu]
  dsimp only
  rw [hs, hd]
  rfl

/-- The time by which a unit's drain is over. -/
def drainEnd (s : State) (u : Site) : Fc := (ctlOf s u).drainFrom + (ctlOf s u).drainLimit

theorem execUnitDrainTimeout_eq (hu : siteElem u = u) (hs : unitState s u = .draining) (hd : unitDrained s u = false) (hk : siteKind u ≠ 4)
    (hh : haltedNow s = false) (hp : inProof s u = false) (ht : reaches s (drainEnd s u) = true) :
    execUnitDrainTimeout u s = .next (finishFirst (moveUnit (drainAbort (advance s (drainEnd s u)) u) u { state := .disabled })
      (fun k => k == .unitDisable u) stTimeout (dw (unitFrames (advance s (drainEnd s u)) u).length) (advance s (drainEnd s u)).now) := by
  change reaches s ((ctlOf s u).drainFrom + (ctlOf s u).drainLimit) = true at ht
  change (ctlOf s u).state = .draining at hs
  unfold execUnitDrainTimeout
  dsimp only
  rw [hu, if_neg]
  · rfl
  · simp [hs, hd, Ne.symm hk, hh, hp, ht]

theorem execGlueDrainDone_eq (hk : siteKind u = 4) (hs : unitState s u = .draining) (hw : glueWaiting s u = []) :
    execGlueDrainDone u s = .next (finishFirst (moveUnit s u { state := .disabled }) (fun k => k == .unitDisable u) stOK 0 s.now) := by
  unfold execGlueDrainDone
  rw [hk, hs, hw]
  rfl

/-- What a glue block does, when its drain's time is over, about a port that still waits: it aborts the frame last begun there, or leaves a record. -/
def abandonPort (g : GlueBlock) (u : Site) (s : State) (p : Nat) : State :=
  match amGet g.tacks p with
  | some q => voidOn (abortRecord s 0x0541 (siteWithSub u p) q.1 q.2.1 0 0) (glueOut s u p) q.1 q.2.1 q.2.2 0x0541
  | none => fault s 0x0541 1 (siteWithSub u p) 0 0

theorem moves_abandonPort (g : GlueBlock) (u : Site) (s : State) (p : Nat) : Moves 0x19503e s (abandonPort g u s p) := by
  unfold abandonPort
  split
  · exact moves_voidOn rfl (moves_abortRecord rfl (Moves.refl s))
  · exact moves_fault rfl (Moves.refl s)

/-- A block whose ports have been abandoned, at the time of its last move. -/
def glueGivenUp (s : State) (u : Site) : State :=
  (glueWaiting s u).foldl (abandonPort (glueOf s u) u) (moveUnit (advance s (drainEnd s u)) u { state := .disabled })

theorem now_glueGivenUp (s : State) (u : Site) : (glueGivenUp s u).now = max s.now (drainEnd s u) := by
  unfold glueGivenUp
  rw [read_foldl (g := State.now) fun x p => (moves_abandonPort _ u x p).frame.b0 rfl, (moveUnit_frame _ _ _).1]
  rfl

theorem unitState_glueGivenUp (hk : siteKind u = 4) : unitState (glueGivenUp s u) u = .disabled := by
  unfold glueGivenUp
  rw [read_foldl (g := fun x => unitState x u) fun x p => congrArg UnitCtl.state (ctlOf_of_moves (moves_abandonPort _ u x p) rfl u)]
  exact unitState_moveUnit (by omega) (by decide)

theorem execGlueDrainTimeout_eq (hk : siteKind u = 4) (hs : unitState s u = .draining) (hw : glueWaiting s u ≠ []) (hh : haltedNow s = false)
    (ht : reaches s (drainEnd s u) = true) :
    execGlueDrainTimeout u s = .next (finishFirst (glueGivenUp s u) (fun k => k == .unitDisable u) stTimeout
      (dw (dedup ((glueWaiting s u).filterMap (fun p => (amGet (glueOf s u).tacks p).map (fun q => (q.1, q.2.1))))).length)
      (max s.now (drainEnd s u))) := by
  rw [← now_glueGivenUp]
  change reaches s ((ctlOf s u).drainFrom + (ctlOf s u).drainLimit) = true at ht
  change (ctlOf s u).state = .draining at hs
  unfold execGlueDrainTimeout
  dsimp only
  rw [if_neg]
  · rfl
  · simp [hk, hs, hw, hh, ht]

end

/-- Settles O26: the verdict of each command at its take, the equation of each end of a drain, and the control that a unit's move leaves in it. -/
theorem unitsDrainAndLeaveService : Obligations.UnitsDrainAndLeaveService := by
  refine ⟨?_, ?_, ?_⟩
  · intro s c s1 u hready hroom hcheck hlimit he hd
    have hk : siteKind u ≤ 5 := siteKind_of_disableCheck hcheck
    have hverdict := unitDisable_enabled hcheck hlimit he hd
    refine ⟨fun hproof => ?_, fun hproof hwait => ?_⟩
    · have hwaits : (proofAt s1 u && s1.hal.proof.state != .wait) = false := by
        rcases hproof with h | h
        · rw [h, Bool.false_and]
        · rw [h, bne_self_eq_false, Bool.and_false]
      rw [if_neg (ne_true_of_eq_false hwaits)] at hverdict
      refine ⟨_, takeCmd_pend hready hroom hverdict, ?_, fun hat => ?_⟩
      · rw [ctlOf_startDrain _ _ hk, cancelWait_now]
      · have hwait : s1.hal.proof.state = .wait := hproof.resolve_left (by rw [hat]; decide)
        rw [hal_startDrain]
        exact cancelWait_proofState hat hwait
    · rw [if_pos (Bool.and_eq_true_iff.mpr ⟨hproof, bne_iff_ne.mpr hwait⟩)] at hverdict
      exact takeCmd_pend hready hroom hverdict
  · intro s c s1 u hready hcheck
    have hk : siteKind u ≤ 5 := siteKind_of_disableCheck hcheck
    have taken {v : Verdict} (hv : enableUnit s1 u = v) : unitEnable (begun s c) c.pkt = v := (unitEnable_checked hcheck).trans hv
    exact ⟨fun h => ⟨_, takeCmd_finish hready (taken (enableUnit_disabled h)), ctlOf_moveUnit hk (by decide)⟩,
      fun h => ⟨_, takeCmd_finish hready (taken (enableUnit_draining h)), ctlOf_moveUnit hk (by decide)⟩,
      fun h hd => takeCmd_finish hready (taken (enableUnit_enabled h hd))⟩
  · intro s u hu hk hs
    exact ⟨fun hd => ⟨_, execUnitDrainDone_eq hu hs hd, unitState_moveUnit hk (by decide)⟩,
      fun hd h4 hh hp ht => ⟨_, _, rfl, rfl, unitState_moveUnit hk (by decide), execUnitDrainTimeout_eq hu hs hd h4 hh hp ht⟩,
      fun h4 hw => ⟨_, execGlueDrainDone_eq h4 hs hw, unitState_moveUnit hk (by decide)⟩,
      fun h4 hw hh ht => ⟨_, execGlueDrainTimeout_eq h4 hs hw hh ht, unitState_glueGivenUp h4⟩⟩

end Sys2Proof.Machine
end

section
/-! PROOF. The scale banks of a matrix tile take new entries and change places at T (R136 to R139). -/

namespace Sys2Proof.Machine

/-! ### The two banks of a tile -/

@[simp] theorem bankOf_setBank_same (t : MatrixTile) (b : Nat) (x : ScaleBank) : bankOf (setBank t b x) b = x := by
  unfold bankOf setBank
  split <;> rfl

/-- Writing one bank leaves the other: `b` and `1 - b` never name the same bank, whatever `b` is. -/
@[simp] theorem bankOf_setBank_other (t : MatrixTile) (b : Nat) (x : ScaleBank) : bankOf (setBank t (1 - b) x) b = bankOf t b := by
  obtain rfl | hb := Nat.eq_zero_or_pos b
  · rfl
  · have h0 : 1 - b = 0 := Nat.sub_eq_zero_of_le hb
    simp [bankOf, setBank, hb.ne', h0]

/-- A SCALE_SET holds a bank, or its last one is still in use (R136). -/
abbrev bankChanging (t : MatrixTile) : Prop :=
  t.bank0.state = .next ∨ t.bank0.state = .retired ∨ t.bank1.state = .next ∨ t.bank1.state = .retired

/-- Both banks with new entries (R137). -/
def withEntries (t : MatrixTile) (l : List (Nat × Dword)) : MatrixTile :=
  { t with bank0 := { t.bank0 with entries := overlay t.bank0.entries l }, bank1 := { t.bank1 with entries := overlay t.bank1.entries l } }

/-- The bank that is not LIVE is NEXT for T, with new entries over the LIVE ones (R136). -/
def withNext (t : MatrixTile) (l : List (Nat × Dword)) (T : Fc) : MatrixTile :=
  { setBank t (1 - liveBank t) { state := .next, entries := overlay (bankOf t (liveBank t)).entries l } with nextTime := T }

theorem next_withNext (t : MatrixTile) (l : List (Nat × Dword)) (T : Fc) :
    bankOf (withNext t l T) (1 - liveBank t) = { state := .next, entries := overlay (bankOf t (liveBank t)).entries l } :=
  bankOf_setBank_same _ _ _

/-- The NEXT bank is LIVE and the LIVE one RETIRED (R136). -/
def banksSwapped (t : MatrixTile) : MatrixTile :=
  { setBank (setBank t (liveBank t) { bankOf t (liveBank t) with state := .retired }) (1 - liveBank t)
      { bankOf t (1 - liveBank t) with state := .live } with liveTime := t.nextTime }

theorem live_banksSwapped (t : MatrixTile) : bankOf (banksSwapped t) (1 - liveBank t) = { bankOf t (1 - liveBank t) with state := .live } :=
  bankOf_setBank_same _ _ _

theorem retired_banksSwapped (t : MatrixTile) : bankOf (banksSwapped t) (liveBank t) = { bankOf t (liveBank t) with state := .retired } :=
  (bankOf_setBank_other _ _ _).trans (bankOf_setBank_same _ _ _)

/-! ### SCALE_SET -/

/-- The entries that a SCALE_SET brings. -/
abbrev packetTable (p : Packet) (b : List Byte) : List (Nat × Dword) := scaleTable (dbits (pktDw p 3) 10 0) (dbits (pktDw p 3) 26 16 + 1) b

section
variable {s : State} {c : HostCmd} {p : Packet} {b : List Byte} (hargs : scaleArgs p [(6, 0xFFFFFFFF), (7, 0xFFFFFFFF)] = none)
  (hlost : unitLost s (pktDw p 2) = false) (hidle : ¬ bankChanging (tileOf s (pktDw p 2))) (hup : hostUp s = true)

include hargs hlost hidle hup

/-- With T 0, on a tile that no stage uses (R137). -/
theorem scaleSet_atOnce (hT : pktQ p 6 = 0) (hunused : dbit (cfgDw s (pktDw p 2) 4) 0 = false)
    (hl : scaleRefused s (pktDw p 2) (packetTable p b) [(tileOf s (pktDw p 2)).bank0.entries, (tileOf s (pktDw p 2)).bank1.entries] = false) :
    scaleSet c (some b) s p = okAt (setTile s (pktDw p 2) (withEntries (tileOf s (pktDw p 2)) (packetTable p b))) := by
  have htime : ¬ ((pktQ p 6 ≠ 0 ∧ !timeOk s (pktQ p 6)) ∨ (pktQ p 6 = 0 ∧ dbit (cfgDw s (pktDw p 2) 4) 0)) := by simp [hT, hunused]
  unfold scaleSet
  rw [hargs]
  dsimp only
  rw [if_neg htime, hlost, if_neg (by decide), if_neg hidle, hostRead, if_pos hup]
  dsimp only
  rw [if_pos hT, hl, if_neg (by decide), if_pos hT]
  rfl

/-- With T ahead (R136, R138). -/
theorem scaleSet_ahead (hT : s.now + 2048 ≤ pktQ p 6)
    (hl : scaleRefused s (pktDw p 2) (packetTable p b) [(bankOf (tileOf s (pktDw p 2)) (liveBank (tileOf s (pktDw p 2)))).entries] = false) :
    scaleSet c (some b) s p =
      .pend (.scaleSet (pktDw p 2)) (setTile s (pktDw p 2) (withNext (tileOf s (pktDw p 2)) (packetTable p b) (pktQ p 6))) := by
  have hne : pktQ p 6 ≠ 0 := ((Nat.succ_pos _).trans_le hT).ne'
  have htime : ¬ ((pktQ p 6 ≠ 0 ∧ !timeOk s (pktQ p 6)) ∨ (pktQ p 6 = 0 ∧ dbit (cfgDw s (pktDw p 2) 4) 0)) := by
    simp [hne, timeOk_of_ahead hT]
  unfold scaleSet
  rw [hargs]
  dsimp only
  rw [if_neg htime, hlost, if_neg (by decide), if_neg hidle, hostRead, if_pos hup]
  dsimp only
  rw [if_neg hne, hl, if_neg (by decide), if_neg hne]
  rfl

end

/-! ### The banks change places, and SCALE_READ -/

theorem execScaleBankLive_eq {s : State} {u : Site} (hk : siteKind u = 0) (hn : (bankOf (tileOf s u) (1 - liveBank (tileOf s u))).state = .next)
    (hl : landsNext s (tileOf s u).nextTime 5 = true) :
    execScaleBankLive u s = .next (finishFirst (setTile (advance s (tileOf s u).nextTime) u (banksSwapped (tileOf s u)))
      (fun k => k == .scaleSet u) stOK 0 (tileOf s u).nextTime) := by
  unfold execScaleBankLive
  dsimp only
  rw [if_neg (by simp [hk, hn, hl])]
  rfl

theorem execScaleBankRetireDone_eq {s : State} {u : Site} (hk : siteKind u = 0)
    (hr : (bankOf (tileOf s u) (1 - liveBank (tileOf s u))).state = .retired) (ho : olderFrames s (tileOf s u).liveTime = false) :
    execScaleBankRetireDone u s = .next (setTile s u (setBank (tileOf s u) (1 - liveBank (tileOf s u))
      { bankOf (tileOf s u) (1 - liveBank (tileOf s u)) with state := .spare })) := by
  unfold execScaleBankRetireDone
  dsimp only
  rw [if_neg (by simp [hk, hr, ho])]
  rfl

theorem scaleRead_allowed {s : State} {p : Packet} (hargs : scaleArgs p [(8, 1)] = none) :
    scaleRead s p = .finish stOK 0 [(pktQ p 4, (List.range' (dbits (pktDw p 3) 10 0) (dbits (pktDw p 3) 26 16 + 1)).flatMap (fun i =>
      dwBytes (tileEntry (tileOf s (pktDw p 2))
        (if dbit (pktDw p 8) 0 then 1 - liveBank (tileOf s (pktDw p 2)) else liveBank (tileOf s (pktDw p 2))) i)))] s := by
  unfold scaleRead
  rw [hargs]

/-- Settles O23: the verdict of each command at its take, the equation of each landing, and the banks of the tile that they leave. -/
theorem scaleBanksTakeNewEntries : Obligations.ScaleBanksTakeNewEntries := by
  refine ⟨?_, ?_, ?_⟩
  · intro s c b s1 u x l live hready hargs hlost hn0 hr0 hn1 hr1
    have hidle : ¬ bankChanging x := by simp [hn0, hr0, hn1, hr1]
    refine ⟨fun hT hunused hup hl => ?_, fun hT hup hl hroom => ?_⟩
    · have hb := scaleSet_atOnce (c := c) hargs hlost hidle hup hT hunused hl
      refine ⟨_, takeCmd_finish hready hb, ?_⟩
      rw [tileOf_setTile]
      exact ⟨rfl, rfl, fun v hv => tileOf_setTile_other s1 _ hv⟩
    · have hb := scaleSet_ahead (c := c) hargs hlost hidle hup hT hl
      refine ⟨_, takeCmd_pend hready hroom hb, ?_⟩
      rw [tileOf_setTile, next_withNext]
      exact ⟨rfl, rfl, rfl⟩
  · intro s u x live hk
    refine ⟨fun hn hl => ⟨_, execScaleBankLive_eq hk hn hl, Nat.le_max_right _ _, ?_⟩, execScaleBankRetireDone_eq hk⟩
    rw [tileOf_setTile, live_banksSwapped, retired_banksSwapped]
    exact ⟨rfl, rfl⟩
  · intro s c s1 x bank hready hargs
    exact takeCmd_finish hready (scaleRead_allowed hargs)

end Sys2Proof.Machine
end

section
/-! PROOF. Vector operations write their result entries, VSEND sends its beats, and rewritten constants are put back (R143, R145, R146, R150, R166). -/

namespace Sys2Proof.Machine

@[simp] theorem vtileOf_countUnit (s : State) (u v : Site) (j n : Nat) : vtileOf (countUnit s u j n) v = vtileOf s v := vtileOf_of_vtiles (by simp) v

/-! ### An operation of the lane or table class fires (R143, R146) -/

/-- The entry that the destination names holds the result, whatever slots unbind with the operation. -/
theorem entryOf_vecFired (s : State) (u : Site) (e : Issued) (lanes : List Dword) (sats ac : Nat) :
    entryOf (vtileOf (vecFired s u e lanes sats ac) u) e.d = lanes := by
  unfold entryOf vecFired
  rw [scratch_vecSettle, vtileOf_countUnit, vtileOf_putVec]
  exact amGetD_amSet_same _ _ _ _

theorem vecFired_now (s : State) (u : Site) (e : Issued) (lanes : List Dword) (sats ac : Nat) : (vecFired s u e lanes sats ac).now = s.now :=
  (moves_vecFired (msk := 0x18008e) rfl (Moves.refl s)).frame.b0 rfl

section
variable {s : State} {u : Site} {slot : Nat} {e : Issued}

/-- What `VOP`, `VFUNC` and `VRED` share: of either class and whatever its result `f`, an operation whose sources have no error leaves `f` in its entry. -/
theorem vecFire_writes {cls code : Nat} (ac : Nat) (f : VectorTile → Issued → List Dword × Nat) (hacts : vecActs s u = true)
    (hfree : vecFree s u (vtileOf s u) e = true) (ht : reaches s (vecFireAt s u e / 8) = true)
    (he : headOf vecKey (vtileOf s u).board (slot, cls, 0) = some e) (hcode : opCode e.op = code) :
    ∃ t, vecFire s u slot cls code .good ac f = .next t ∧ entryOf (vtileOf t u) e.d = (f (vtileOf s u) e).1 ∧
      t.now = max s.now (vecFireAt s u e / 8) := by
  have fires : vecFire s u slot cls code .good ac f =
      .next (vecFired (advance s (vecFireAt s u e / 8)) u e (f (vtileOf s u) e).1 (f (vtileOf s u) e).2 ac) := by
    unfold vecFire
    simp only [hacts, he, hcode, hfree, ht, scratchRead, ne_eq, not_true_eq_false, decide_false, Bool.not_true, Bool.or_false, Bool.false_eq_true, if_false]
    rfl
  exact ⟨_, fires, entryOf_vecFired _ _ _ _ _ _, vecFired_now _ _ _ _ _ _⟩

/-! ### VSEND (R143, R145) -/

/-- A VSEND whose beat may go puts it at its output, and then touches its tile and a counter alone. -/
theorem execVsendBeat_eq {sl : Slot} {i : Nat} (hacts : vecActs s u = true) (he : headOf vecKey (vtileOf s u).board (slot, 1, 0) = some e)
    (hsl : slotAt (vtileOf s u).slots slot = some sl) (hfree : vecFree s u (vtileOf s u) e = true) (hempty : outQ s ⟨u, vopPort e.op⟩ = [])
    (hi : vecEntry s u 11 (wrapA s u) slot e.a (if vopPack e.op then e.progress / 2 else e.progress) = i)
    (ht : reaches s (ceilDiv (amGetD (vtileOf s u).ready i 0) 8) = true)
    (hsend : maySend (advance s (ceilDiv (amGetD (vtileOf s u).ready i 0) 8)) ⟨u, vopPort e.op⟩ = true) :
    ∃ (o : OutBeat) (t : VectorTile) (n : Nat),
      execVsendBeat u slot .good s =
        .next (countUnit (putVec (pushOut (advance s (ceilDiv (amGetD (vtileOf s u).ready i 0) 8)) ⟨u, vopPort e.op⟩ o) u t) u 1 n) ∧
      o.beat = mkBeat tyData e.tag sl.stream ((e.progress + 1 == vopCount e.op) && dbit e.op 21) (dbit e.op 22)
        (sentLanes (vopPack e.op) e.progress (entryOf (vtileOf s u) i)).1 := by
  unfold execVsendBeat
  simp only [hacts, he, hsl, hi, hfree, hempty, ht, hsend, scratchRead, List.isEmpty_nil, Bool.not_true, Bool.or_false, Bool.false_eq_true, if_false]
  exact ⟨_, _, _, rfl, rfl⟩

/-! ### A region of constants is rewritten (R166) -/

theorem execConstantRewriteDone_eq {region : Nat} (hk : siteKind u = 1) (hr : region ∈ (vtileOf s u).rewriting) :
    ∃ x, execConstantRewriteDone u region true true s = .next (setVtile x u { vtileOf s u with
      rewriting := (vtileOf s u).rewriting.filter (fun r => decide (r ≠ region))
      scratch := (constantsOf s u region).foldl (fun m p => amSet m p.1 p.2) (vtileOf s u).scratch }) := by
  unfold execConstantRewriteDone
  simp only [hk, List.contains_iff_mem.mpr hr, vtileOf_setVtile, ne_eq, not_true_eq_false, Bool.not_true, Bool.false_eq_true, or_self, Bool.and_self,
    if_false, if_true]
  exact ⟨_, rfl⟩

end

/-- Settles O33: the three kinds of operation by what they share, VSEND's queue read back behind its notes, and the tile that the rewrite leaves. -/
theorem vectorOperationsWriteTheirEntry : Obligations.VectorOperationsWriteTheirEntry := by
  refine ⟨?_, ?_, ?_⟩
  · intro s u slot e hacts hfree ht
    exact ⟨fun he hcode => vecFire_writes _ vopResult hacts hfree ht he hcode, fun he hcode => vecFire_writes _ vfuncResult hacts hfree ht he hcode,
      fun he hcode => vecFire_writes _ vredResult hacts hfree ht he hcode⟩
  · intro s u slot e sl hacts he k i at_ fin hsl hfree hempty ht hsend
    obtain ⟨o, t, n, h, hbeat⟩ := execVsendBeat_eq hacts he hsl hfree hempty rfl ht hsend
    refine ⟨_, h, ?_⟩
    have queue (y : State) : outQ (countUnit (putVec y u t) u 1 n) ⟨u, vopPort e.op⟩ = outQ y ⟨u, vopPort e.op⟩ :=
      outQ_of_fabric ((countUnit_frame _ _ _ _).2.1.trans rfl) _
    rw [queue, outQ_pushOut, outQ_advance, hempty]
    exact congrArg (fun b => [b]) hbeat
  · intro s u region hk hr
    obtain ⟨x, h⟩ := execConstantRewriteDone_eq hk hr
    refine ⟨_, h, ?_⟩
    rw [vtileOf_setVtile]
    exact ⟨by simp, rfl⟩

end Sys2Proof.Machine
end

section
/-! PROOF. A window tile sends a row on every output, and a glue block runs once in an fc (R154, R155, R161, R164). -/

namespace Sys2Proof.Machine

/-! ### A row goes out on every output port (R154, R155) -/

theorem amGetD_amErase_other {κ ν : Type} [DecidableEq κ] (m : AMap κ ν) {k j : κ} (d : ν) (h : j ≠ k) : amGetD (amErase m k) j d = amGetD m j d := by
  unfold amGetD amGet
  rw [find?_amErase_other m h]

theorem outQ_setOutQ_other (s : State) {e x : EndPoint} (l : List OutBeat) (h : x ≠ e) : outQ (setOutQ s e l) x = outQ s x := by
  unfold outQ setOutQ
  cases l with
  | nil => exact amGetD_amErase_other _ _ h
  | cons b l => exact amGetD_amSet_other _ _ _ h

/-- The same beats behind what waits at an output. -/
def appendOut (beats : List OutBeat) (s : State) (e : EndPoint) : State := setOutQ s e (outQ s e ++ beats)

theorem outQ_foldl_appendOut_other (beats : List OutBeat) {l : List EndPoint} {x : EndPoint} (hx : x ∉ l) (s : State) :
    outQ (l.foldl (appendOut beats) s) x = outQ s x := by
  induction l generalizing s with
  | nil => rfl
  | cons e l ih =>
    obtain ⟨hne, hl⟩ := not_or.mp (List.mem_cons.not.mp hx)
    exact (ih hl _).trans (outQ_setOutQ_other s _ hne)

/-- Each of distinct outputs gets the beats once. -/
theorem outQ_foldl_appendOut (beats : List OutBeat) {l : List EndPoint} (hl : l.Nodup) {x : EndPoint} (hx : x ∈ l) (s : State) :
    outQ (l.foldl (appendOut beats) s) x = outQ s x ++ beats := by
  induction l generalizing s with
  | nil => exact absurd hx List.not_mem_nil
  | cons e l ih =>
    obtain ⟨hel, hl⟩ := List.nodup_cons.mp hl
    rcases List.mem_cons.mp hx with rfl | hxl
    · exact (outQ_foldl_appendOut_other beats hel _).trans (outQ_setOutQ s x _)
    · have hne : x ≠ e := fun h => hel (h ▸ hxl)
      exact (ih hl hxl _).trans (congrArg (· ++ beats) (outQ_setOutQ_other s _ hne))

theorem nodup_winOuts (s : State) (u : Site) : (winOuts s u).Nodup :=
  (List.nodup_range.filter _).map fun _ _ h => congrArg EndPoint.port h

/-- The beats of a row of `c`'s output width, of the frame that `sl` holds. -/
def winRow (c : WinCfg) (sl : WinSlot) (outlier : Bool) (lane : Nat → BitVec 16) : List Beat :=
  (List.range (winOutBeats c)).map (fun b => mkBeat tyData sl.lastTag sl.stream (b + 1 == winOutBeats c) outlier
    (lanesTo ((List.range 32).map (fun j => if 32 * b + j < winWout c then lane (32 * b + j) else 0))))

theorem outQ_winSendRow {s : State} {u : Site} (k : Nat) (sl : WinSlot) (outlier : Bool) (lane : Nat → BitVec 16) {e : EndPoint} (he : e ∈ winOuts s u)
    (hempty : outQ s e = []) : (outQ (winSendRow s u k sl outlier lane) e).map (·.beat) = winRow (winCfg s u) sl outlier lane := by
  unfold winSendRow
  extract_lets c n from_ beats s1 sl1 t
  have queue : outQ s1 e = outQ s e ++ beats := outQ_foldl_appendOut beats (nodup_winOuts s u) he s
  have settled (x : WindowTile) : outQ (winSettle (setWtile s1 u x) u) e = outQ s1 e := outQ_of_fabric ((winSettle_frame _ u).2.trans rfl) e
  rw [settled, queue, hempty, List.nil_append]
  exact List.map_map

section
variable {s : State} {u : Site} {slot : Nat}

theorem outQ_of_winTurn (h : winTurn s u slot = true) {e : EndPoint} (he : e ∈ winOuts s u) : outQ s e = [] := by
  unfold winTurn at h
  obtain ⟨hempty, -⟩ := Bool.and_eq_true_iff.mp h
  exact List.isEmpty_iff.mp (List.all_eq_true.mp hempty e he)

variable {sl : WinSlot} (hacts : winActs s u = true) (hturn : winTurn s u slot = true) (hsl : winSlotAt (wtileOf s u) slot = some sl)
include hacts hturn hsl

theorem execWindowRowEmit_eq (hop : (winCfg s u).op = 0) :
    let c := winCfg s u
    let tap := winTap c sl.outIdx
    execWindowRowEmit u slot false s = .next (winSendRow s u slot sl (c.outliers.contains tap.1) (fun x =>
      if tapIn c sl.outRow tap.2.1 x tap.2.2 then
        winValue c (wtileOf s u) slot tap.1 (tapRow c sl.outRow tap.2.1).toNat (tapCol c x tap.2.2).toNat else c.padValue)) := by
  unfold execWindowRowEmit
  simp only [hacts, hop, hturn, hsl, bne_self_eq_false, Bool.not_true, Bool.or_false, Bool.false_eq_true, if_false]
  rfl

/-- Ops 1 and 2; the row may draw a free value for each of its positions. -/
theorem execPoolRowEmit_eq (hop : (winCfg s u).op = 1 ∨ (winCfg s u).op = 2) :
    let c := winCfg s u
    execPoolRowEmit u slot false s = .next (winSendRow { s with fresh := s.fresh + winWout c } u slot sl false (fun x =>
      let taps := poolTaps c (wtileOf s u) slot sl.outIdx sl.outRow x
      (if c.op = 1 then maxPool taps else avgPool c.divisor c.padValue taps).getD (BitVec.ofNat 16 (Config.free32 (s.fresh + x)).toNat))) := by
  have hpools : ((winCfg s u).op != 1 && (winCfg s u).op != 2) = false := by rcases hop with h | h <;> rw [h] <;> rfl
  unfold execPoolRowEmit
  simp only [hacts, hpools, hturn, hsl, Bool.not_true, Bool.or_false, Bool.false_eq_true, if_false]
  rfl

end

/-! ### A glue block runs (R161, R164) -/

/-- A glue block at the first fc that it has not yet run in. -/
def glueTurn (s : State) (u : Site) : State := advance s (glueOf s u).nextFc

theorem execGlueFcEval_eq {s : State} {u : Site} (hk : siteKind u = 4) (hruns : fabricRuns (glueTurn s u) = true)
    (hheld : unitHeld (glueTurn s u) u = false) (hused : unitUsed (glueTurn s u) u = true) :
    let s1 := setGlue (glueTurn s u) u { glueOf s u with nextFc := (glueTurn s u).now + 1 }
    execGlueFcEval u s = .next (if unitState s u = .enabled ∨ unitState s u = .draining then glueRun s1 u
      else (gluePorts.filter (gluePortUsed s1 u)).foldl (fun x p => glueDiscard x u p) s1) := by
  unfold glueTurn at hruns hheld hused
  unfold execGlueFcEval
  dsimp only
  rw [if_neg (by simp [hk, hruns, hheld, hused])]
  split <;> rfl

/-- Settles O34: each row by its equation and the outputs that it leaves, and the glue block by its state. -/
theorem windowTilesAndGlueBlocksSend : Obligations.WindowTilesAndGlueBlocksSend := by
  refine ⟨?_, ?_⟩
  · intro s u slot sl hacts hturn hsl c n row
    exact ⟨fun hop => ⟨_, execWindowRowEmit_eq hacts hturn hsl hop, fun e he => outQ_winSendRow _ _ _ _ he (outQ_of_winTurn hturn he)⟩,
      fun hop => ⟨_, execPoolRowEmit_eq hacts hturn hsl hop, fun e he => outQ_winSendRow _ _ _ _ he (outQ_of_winTurn hturn he)⟩⟩
  · intro s u s0 s1 hk hruns hheld hused
    have h := execGlueFcEval_eq hk hruns hheld hused
    refine ⟨fun hon => h.trans (congrArg _ (if_pos hon)), fun hoff => h.trans (congrArg _ (if_neg ?_))⟩
    rcases hoff with hoff | hoff <;> rw [hoff] <;> decide

end Sys2Proof.Machine
end

section
/-! PROOF. A full skew queue spills its beats in runs, asks for them again, and refills from what comes back (R168, R187, R188, R189). -/

namespace Sys2Proof.Machine

/-! ### A skew queue and its unit's words behind what leaves them alone -/

theorem steerOf_of_steer {s t : State} (h : t.steer = s.steer) (u : Site) : steerOf t u = steerOf s u := by
  unfold steerOf
  rw [h]

@[simp] theorem steerOf_countUnit (s : State) (u v : Site) (j n : Nat) : steerOf (countUnit s u j n) v = steerOf s v :=
  steerOf_of_steer ((moves_countUnit (msk := 0x10000e) rfl (Moves.refl s)).frame.b10 rfl) v

theorem steerOf_takeBeat {s t : State} {e : EndPoint} {p : Beat → Bool} {b : Beat} (h : takeBeat s e p = some (b, t)) (u : Site) :
    steerOf t u = steerOf s u :=
  steerOf_of_steer (((moves_takeBeat (msk := 0x20) rfl (Moves.refl s)).keeps h).frame.b10 rfl) u

@[simp] theorem skewOf_setSkew (t : SteeringUnit) (k : Nat) (q : SkewQueue) : skewOf (setSkew t k q) k = q := amGetD_amSet_same _ _ _ _

@[simp] theorem skewOf_portMoved (s : State) (u : Site) (port k : Nat) : skewOf (steerOf (portMoved s u port) u) k = skewOf (steerOf s u) k := by
  unfold portMoved
  rw [steerOf_setSteer]
  rfl

theorem subLog2_of_hal {s t : State} (h : t.hal = s.hal) (u : Site) : subLog2 t u = subLog2 s u := by
  unfold subLog2 ringLog2 cfgDw hoistWords hoistOf
  rw [h]

theorem skewDescOf_idx {cfg : Nat → Dword} {k : Nat} {d : SkewDesc} (h : skewDescOf cfg k = some d) : d.idx = k := by
  unfold skewDescOf at h
  dsimp only at h
  split at h
  · exact congrArg SkewDesc.idx (Option.some.inj h).symm
  · cases h

/-! ### A write run takes a beat, and leaves (R188) -/

/-- A run that leaves takes its beats out of the queue, and touches no other part of it. -/
theorem skewOf_sendRun (s : State) (u : Site) (d : SkewDesc) :
    skewOf (steerOf (sendRun s u d) u) d.idx = { skewOf (steerOf s u) d.idx with run := [] } := by
  unfold sendRun
  extract_lets t q n size addr out s1 s2 s3 s4 frame
  split
  case isTrue h => rw [← List.length_eq_zero_iff.mp h]
  case isFalse =>
    have noted : Moves 0x18002e s1 (traceNow s4 0x0017 u (some d.stream) (dw frame) (d.idx + (n - 1) * 2 ^ 8) addr 0) :=
      moves_traceNow rfl (Moves.foldl (moves_countUnit rfl (moves_setOutQ rfl (Moves.refl s1))) fun _ _ h => moves_countEvent rfl h)
    rw [steerOf_of_steer (noted.frame.b10 rfl), steerOf_setSteer, skewOf_setSkew]

theorem subWp_closeRun (s : State) (u : Site) (d : SkewDesc) :
    (skewOf (steerOf (closeRun s u d) u) d.idx).subWp = (skewOf (steerOf s u) d.idx).subWp := by
  unfold closeRun
  split
  · rw [skewOf_sendRun]
  · rfl

theorem skewOf_joinRun (s : State) (u : Site) (d : SkewDesc) (b : Beat) (frame : Nat) :
    (skewOf (steerOf (joinRun s u d b frame) u) d.idx).spill = .spilling ∧
    (skewOf (steerOf (joinRun s u d b frame) u) d.idx).subWp = ((skewOf (steerOf s u) d.idx).subWp + 1) % (2 * 2 ^ subLog2 s u) := by
  unfold joinRun
  extract_lets q size q1 s1 s2
  have joined : skewOf (steerOf s2 u) d.idx = q1 := by
    have counted : steerOf s2 u = steerOf s1 u := by
      unfold s2
      split
      · exact steerOf_countUnit _ _ _ _ _
      · rfl
    rw [counted, steerOf_setSteer, skewOf_setSkew]
  split
  · rw [skewOf_sendRun, joined]
    exact ⟨rfl, rfl⟩
  · rw [joined]
    exact ⟨rfl, rfl⟩

/-! ### SPILL_WRITE_RUN -/

/-- The state in which queue `d` decides about its input's next beat. -/
def spillTurn (s : State) (u : Site) (d : SkewDesc) : State := advance s (amGetD (steerOf s u).portFc d.input 0)

section
variable {s s1 : State} {u : Site} {k : Nat} {d : SkewDesc} {b b' : Beat}

section
variable (hacts : steerActs s u = true) (hspill : spillOn s u = true) (hd : skewDescOf (cfgDw s u) k = some d)
include hacts hspill hd

/-- The beat that the port spills joins the queue's run, behind a run that it comes too late for. -/
theorem execSpillWriteRun_joins (hpick : spillPick (spillTurn s u d) u d = some b) (hruns : fabricRuns (spillTurn s u d) = true)
    (htake : takeBeat (spillTurn s u d) ⟨u, d.input⟩ (fun x => x == b) = some (b', s1)) (hrefuses : steerRefuses (spillTurn s u d) u b = false) :
    execSpillWriteRun u k s =
      .next (joinRun (closeRun (portMoved s1 u d.input) u d) u d b ((movedFrame (spillTurn s u d) ⟨u, d.input⟩ b).getD 0)) := by
  unfold spillTurn at *
  unfold execSpillWriteRun
  simp only [hacts, hspill, hd, hpick, hruns, htake, hrefuses, Option.bind_some, Option.map_some, Bool.not_true, Bool.or_false, Bool.false_eq_true, if_false]
  rfl

/-- A run that no beat joins leaves in the second fc behind its last beat. -/
theorem execSpillWriteRun_sends (hpick : spillPick (spillTurn s u d) u d = none) (hrun : (skewOf (steerOf s u) k).run ≠ [])
    (ht : reaches s ((skewOf (steerOf s u) k).runAt + 2) = true) :
    execSpillWriteRun u k s = .next (sendRun (advance s ((skewOf (steerOf s u) k).runAt + 2)) u d) := by
  unfold spillTurn at hpick
  unfold execSpillWriteRun
  simp only [hacts, hspill, hd, hpick, ht, List.isEmpty_eq_false_iff.mpr hrun, Option.bind_none, Bool.not_true, Bool.or_false, Bool.false_eq_true, if_false]
  rfl

/-! ### SPILL_READ_REQUEST (R187) -/

theorem execSpillReadRequest_direct (hdirect : (settleSpill (2 ^ subLog2 s u) (skewOf (steerOf s u) k)).spill = .direct) :
    execSpillReadRequest u k s =
      .next (setSteer s u (setSkew (steerOf s u) k (settleSpill (2 ^ subLog2 s u) (skewOf (steerOf s u) k)))) := by
  unfold execSpillReadRequest
  simp only [hacts, hspill, hd, hdirect, Bool.not_true, Bool.or_false, Bool.false_eq_true, if_false, ne_eq, reduceCtorEq, not_false_eq_true, if_true]
  rfl

/-- The queue notes how many beats its one request asks for, and the request goes behind what waits at the spill output. -/
theorem execSpillReadRequest_asks {q : SkewQueue} {n : Nat} (hq : settleSpill (2 ^ subLog2 s u) (skewOf (steerOf s u) k) = q)
    (hn : min 16 (min (subCount s u q - q.run.length) (2 ^ subLog2 s u - q.subRp % 2 ^ subLog2 s u)) = n) (hspilling : q.spill = .spilling)
    (hreading : q.reading = none) (hvoid : q.voidRead = false) (hpos : 0 < n) (hroom : min 16 (subCount s u q) ≤ 2 ^ d.log2 - q.beats.length) :
    execSpillReadRequest u k s =
      .next (pushOut (setSteer s u (setSkew (steerOf s u) k { q with reading := some n, readFrame := (q.subFrames.headD none).getD q.tailFrame }))
        ⟨u, spillOutPort s u⟩ { beat := mkMarker d.stream u k 1 n (subAddress s u k (q.subRp % 2 ^ subLog2 s u)) }) := by
  unfold execSpillReadRequest
  simp only [hacts, hspill, hd, hq, hn, hspilling, hreading, hvoid, Nat.pos_iff_ne_zero.mp hpos, Nat.not_lt.mpr hroom, Option.isSome_none, Bool.not_true,
    Bool.or_false, Bool.false_eq_true, or_self, if_false, ne_eq, not_true_eq_false]
  rfl

end

/-! ### REFILL_RETURN (R187, R188) -/

theorem execRefillReturn_eq {n : Nat} (hacts : steerActs s u = true) (hspill : spillOn s u = true) (hqueue : refillQueue s u = some k) :
    execRefillReturn u k n s = .next (refillLoop (min n (refillLength s u)) s u) := by
  unfold execRefillReturn
  simp only [hacts, hspill, hqueue, bne_self_eq_false, Bool.not_true, Bool.or_false, Bool.false_eq_true, if_false]
  rfl

end

/-- Settles O38: each command by its equation; the run's queue is read back behind the run that leaves, the request from the spill output. -/
theorem elasticSpillWritesAndRefills : Obligations.ElasticSpillWritesAndRefills := by
  refine ⟨?_, ?_, ?_, ?_⟩
  · intro s s1 u k d b b' sA q hacts hspill hd hpick hruns htake hrefuses
    obtain rfl := skewDescOf_idx hd
    obtain ⟨-, hhal, -⟩ := takeBeat_frame htake
    have hsub : subLog2 (closeRun (portMoved s1 u d.input) u d) u = subLog2 s u :=
      subLog2_of_hal (((moves_closeRun (msk := 0x18042e) rfl (moves_portMoved rfl (Moves.refl s1))).frame.b4 rfl).trans hhal) u
    have hwp : (skewOf (steerOf (closeRun (portMoved s1 u d.input) u d) u) d.idx).subWp = q.subWp := by
      rw [subWp_closeRun, skewOf_portMoved, steerOf_takeBeat htake]
      rfl
    obtain ⟨spilling, wp⟩ := skewOf_joinRun (closeRun (portMoved s1 u d.input) u d) u d b ((movedFrame sA ⟨u, d.input⟩ b).getD 0)
    rw [hwp, hsub] at wp
    exact ⟨_, execSpillWriteRun_joins hacts hspill hd hpick hruns htake hrefuses, spilling, wp⟩
  · intro s u k d q hacts hspill hd hpick hrun ht
    exact execSpillWriteRun_sends hacts hspill hd hpick hrun ht
  · intro s u k d hacts hspill hd size q n
    refine ⟨execSpillReadRequest_direct hacts hspill hd, fun hspilling hreading hvoid hpos hroom => ?_⟩
    refine ⟨_, execSpillReadRequest_asks hacts hspill hd rfl rfl hspilling hreading hvoid hpos hroom, ?_, outQ_pushOut _ _ _⟩
    rw [steerOf_of_steer ((moves_pushOut (msk := 0x20) rfl (Moves.refl _)).frame.b10 rfl), steerOf_setSteer, skewOf_setSkew]
  · intro s u k n hacts hspill hqueue
    exact execRefillReturn_eq hacts hspill hqueue

end Sys2Proof.Machine
end

section
/-! PROOF. What counts, records, poisoned and restored lines leave alone of the memory feed: its channels, its queues and the work beside them; and what a
freed or taken entry changes of a queue (R197, R198, R203, R224, R226). -/

namespace Sys2Proof.Machine

/-! ### Channels, queues and work beside the queues -/

/-- The tables of the memory feed that nothing moves which only counts, reports, poisons or restores a line. -/
def feedTables (s : State) : List Channel × AMap Nat MemQueue × List MemJob := (s.feed.channels, s.feed.queues, s.feed.jobs)

theorem feedTables_of_feed {s t : State} (h : t.feed = s.feed) : feedTables t = feedTables s := by
  unfold feedTables
  rw [h]

theorem channels_of_feedTables {s t : State} (h : feedTables t = feedTables s) : t.feed.channels = s.feed.channels := congrArg (·.1) h

theorem jobs_of_feedTables {s t : State} (h : feedTables t = feedTables s) : t.feed.jobs = s.feed.jobs := congrArg (·.2.2) h

theorem channelOf_of_channels {s t : State} (h : t.feed.channels = s.feed.channels) (c : Nat) : channelOf t c = channelOf s c := by
  unfold channelOf
  rw [h]

theorem queueOf_of_feedTables {s t : State} (h : feedTables t = feedTables s) (q : Nat) : queueOf t q = queueOf s q :=
  congrArg (fun x : List Channel × AMap Nat MemQueue × List MemJob => amGetD x.2.1 q {}) h

theorem feedTables_foldl {α : Type} {f : State → α → State} (h : ∀ s x, feedTables (f s x) = feedTables s) (l : List α) (s : State) :
    feedTables (l.foldl f s) = feedTables s := by
  induction l generalizing s with
  | nil => rfl
  | cons x l ih => exact (ih _).trans (h s x)

theorem countChannel_feed (s : State) (c j n : Nat) : (countChannel s c j n).feed = s.feed :=
  (moves_countChannel (msk := 0x10000e) rfl (Moves.refl s)).frame.b11 rfl

theorem linkCounts_feed (s : State) (c : Nat) (l : LinkEcc) : (linkCounts s c l).feed = s.feed :=
  (moves_linkCounts (msk := 0x10000e) rfl (Moves.refl s)).frame.b11 rfl

@[simp] theorem linkCounts_clean (s : State) (c : Nat) : linkCounts s c .clean = s := rfl

@[simp] theorem channelFault_feed (s : State) (code cls a : Nat) : (channelFault s code cls a).feed = s.feed := by simp [channelFault]

theorem takeBeat_feed {s t : State} {e : EndPoint} {p : Beat → Bool} {b : Beat} (h : takeBeat s e p = some (b, t)) : t.feed = s.feed :=
  ((moves_takeBeat (msk := 0x20) (e := e) (p := p) rfl (Moves.refl s)).keeps h).frame.b11 rfl

@[simp] theorem feedTables_countChannel (s : State) (c j n : Nat) : feedTables (countChannel s c j n) = feedTables s :=
  feedTables_of_feed (countChannel_feed s c j n)

@[simp] theorem feedTables_linkCounts (s : State) (c : Nat) (l : LinkEcc) : feedTables (linkCounts s c l) = feedTables s :=
  feedTables_of_feed (linkCounts_feed s c l)

@[simp] theorem feedTables_countEvent (s : State) (ev : Nat) (site : Site) (stream : Option Nat) (addr cls : Nat) (priv : Bool) :
    feedTables (countEvent s ev site stream addr cls priv) = feedTables s := feedTables_of_feed (by simp)

@[simp] theorem feedTables_countUnit (s : State) (u : Site) (j n : Nat) : feedTables (countUnit s u j n) = feedTables s := feedTables_of_feed (by simp)

@[simp] theorem feedTables_poison (s : State) (a : Nat) : feedTables (poison s a) = feedTables s := rfl

@[simp] theorem feedTables_channelFault (s : State) (code cls a : Nat) : feedTables (channelFault s code cls a) = feedTables s :=
  feedTables_of_feed (channelFault_feed s code cls a)

@[simp] theorem feedTables_writeLine (s : State) (a : Nat) (d : BitVec 512) : feedTables (writeLine s a d) = feedTables s := by
  unfold writeLine
  split
  · rfl
  · unfold feedTables
    dsimp only

@[simp] theorem feedTables_imageLost (s : State) (a : Nat) : feedTables (imageLost s a) = feedTables s := by
  unfold imageLost
  extract_lets s1
  split
  · rfl
  · rw [feedTables_channelFault]
    rfl

@[simp] theorem feedTables_restoreLine (s : State) (a : Nat) (mirror : Ecc) : feedTables (restoreLine s a mirror) = feedTables s := by
  unfold restoreLine
  split
  · rw [feedTables_channelFault, feedTables_writeLine]
    split
    · exact feedTables_channelFault s _ _ _
    · rfl
  · rfl

@[simp] theorem feedTables_jobRead (s : State) (a : Nat) (line mirror : Ecc) : feedTables (jobRead s a line mirror) = feedTables s := by
  unfold jobRead
  split
  · split
    · exact feedTables_poison s a
    · split
      · exact feedTables_restoreLine s a mirror
      · exact feedTables_imageLost s a
  · split
    · exact feedTables_channelFault s _ _ _
    · rfl

@[simp] theorem feedTables_patrolLine (s : State) (a : Nat) (found mirror : Ecc) : feedTables (patrolLine s a found mirror) = feedTables s := by
  unfold patrolLine
  split
  · rfl
  · exact feedTables_channelFault s _ _ _
  · split
    · split
      · exact feedTables_restoreLine s a mirror
      · exact feedTables_imageLost s a
    · rw [feedTables_channelFault, feedTables_poison]

@[simp] theorem feedTables_checkBursts (s : State) (c : Nat) (r : MemReq) (before : List (Nat × Bool)) (slot : BurstSlot) :
    feedTables (checkBursts s c r before slot) = feedTables s := by
  unfold checkBursts
  extract_lets fetched s1 s2
  have h1 : feedTables s1 = feedTables s := by
    unfold s1
    split
    · exact feedTables_linkCounts s c _
    · rfl
  have h2 : feedTables s2 = feedTables s := by
    unfold s2
    split <;> exact h1
  split
  · split
    · rw [feedTables_foldl (fun x k => feedTables_poison x _), feedTables_linkCounts, h2]
    · rw [feedTables_linkCounts, h2]
  · exact h2

/-! ### Queues -/

@[simp] theorem queueOf_setTile (s : State) (u : Site) (x : MatrixTile) (q : Nat) : queueOf (setTile s u x) q = queueOf s q := rfl

@[simp] theorem queueOf_traceNow (s : State) (type : Nat) (site : Site) (stream : Option Nat) (frame : Dword) (d0 d1 d2 q : Nat) :
    queueOf (traceNow s type site stream frame d0 d1 d2) q = queueOf s q := queueOf_of_feed (by simp) q

@[simp] theorem queueOf_countUnit (s : State) (u : Site) (j n q : Nat) : queueOf (countUnit s u j n) q = queueOf s q := queueOf_of_feed (by simp) q

/-! ### The states of the channels -/

/-- Which channels serve, retrain or are LOST. -/
def chanStates (s : State) : List ChanState := s.feed.channels.map (·.state)

theorem state_of_chanStates {s t : State} (h : chanStates t = chanStates s) (c : Nat) : (channelOf t c).state = (channelOf s c).state := by
  have state (x : State) : (channelOf x c).state = (chanStates x).getD c ({} : Channel).state := (List.getD_map _ _ Channel.state).symm
  rw [state, state, h]

/-- A channel whose requests or reads in flight change is in the state in which it was. -/
theorem chanStates_setChannel {s : State} {c : Nat} {x : Channel} (h : x.state = (channelOf s c).state) : chanStates (setChannel s c x) = chanStates s := by
  unfold chanStates
  refine List.ext_getElem (by simp [setChannel]) fun i hi hi' => ?_
  have hlt : i < s.feed.channels.length := by simpa using hi'
  by_cases hic : c = i
  · subst hic
    simp [setChannel, h, channelOf, lget, hlt]
  · simp [setChannel, List.getElem_set_ne hic]

theorem chanStates_putRequest (s : State) (r : MemReq) : chanStates (putRequest s r) = chanStates s := chanStates_setChannel rfl

theorem chanStates_redirectReads (s : State) (c : Nat) : chanStates (redirectReads s c) = chanStates s := by
  unfold redirectReads
  extract_lets ch moves s1
  have puts (l : List MemReq) (f : MemReq → MemReq) (x : State) : chanStates (l.foldl (fun x r => putRequest x (f r)) x) = chanStates x := by
    induction l generalizing x with
    | nil => rfl
    | cons r l ih => exact (ih _).trans (chanStates_putRequest x _)
  exact (puts moves _ s1).trans (chanStates_setChannel rfl)

/-! ### Entries freed and taken -/

@[simp] theorem queueOf_afterFree (s : State) (q : Nat) (x : MemQueue) : queueOf (afterFree s q x) q = x := by
  unfold afterFree
  split <;> exact queueOf_setQueue s q x

@[simp] theorem afterFree_frame (s : State) (q : Nat) (x : MemQueue) :
    (afterFree s q x).feed.channels = s.feed.channels ∧ (afterFree s q x).feed.jobs = s.feed.jobs ∧ (afterFree s q x).fabric = s.fabric := by
  unfold afterFree
  split <;> exact ⟨rfl, rfl, rfl⟩

/-- The write leaves its queue, if it is still there. -/
theorem beats_writeGone (s : State) (q num : Nat) : ∀ w ∈ (queueOf (writeGone s q num) q).beats, w.num ≠ num := by
  unfold writeGone
  extract_lets x
  split
  · rw [queueOf_afterFree]
    intro w hw
    exact of_decide_eq_true (List.mem_filter.mp hw).2
  case isFalse h =>
    intro w hw heq
    exact h (List.any_eq_true.mpr ⟨w, hw, beq_iff_eq.mpr heq⟩)

@[simp] theorem writeGone_channels (s : State) (q num : Nat) : (writeGone s q num).feed.channels = s.feed.channels := by
  unfold writeGone
  extract_lets x
  split
  · exact (afterFree_frame s q _).1
  · rfl

@[simp] theorem entries_popEntry (s : State) (q : Nat) : (queueOf (popEntry s q) q).entries = (queueOf s q).entries.tail := by
  unfold popEntry
  rw [queueOf_afterFree]

@[simp] theorem popEntry_fabric (s : State) (q : Nat) : (popEntry s q).fabric = s.fabric := (afterFree_frame s q _).2.2

@[simp] theorem entries_grantTaken (s : State) (q : Nat) : (queueOf (grantTaken s q) q).entries = (queueOf s q).entries := by
  unfold grantTaken
  extract_lets x
  split
  · rw [queueOf_setQueue]
  · rfl

@[simp] theorem grantTaken_fabric (s : State) (q : Nat) : (grantTaken s q).fabric = s.fabric := by
  unfold grantTaken
  extract_lets x
  split <;> rfl

end Sys2Proof.Machine
end

section
/-! PROOF. A burst slot issues the pick of its channel, a returned line fills its entry, and an accepted FETCH is granted (R209, R210, R213, R215, R217,
R226, R228). -/

namespace Sys2Proof.Machine

/-! ### Burst slots (R217) -/

/-- The request that the channel's next burst slot issues. -/
def slotPick (s : State) (c : Nat) : Option MemReq := burstPick s c (nextSlot s (channelOf s c) % 16 == 15 || (channelOf s c).owed)

/-- A channel whose burst slot has gone to a request, with the bursts of the request's check line (R197). -/
def issuing (s : State) (c : Nat) (r : MemReq) : Channel :=
  let ch := channelOf s c
  let job := decide (jobQueue ≤ r.queue)
  let chk := useCheck ch.checkBuf (eccBlock r.dpa) r.write.isSome
  slotsTaken { ch with
    requests := if job then ch.requests else ch.requests.erase r
    inFlight := if job || r.write.isSome then ch.inFlight else ch.inFlight ++ [(r.queue, r.entry, r.dpa)]
    checkBuf := chk.1
    owed := false } (nextSlot s ch + 1) chk.2

theorem issuing_requests {s : State} {c : Nat} {r : MemReq} (hqueue : r.queue < jobQueue) :
    (issuing s c r).requests = (channelOf s c).requests.erase r := by
  simp [issuing, slotsTaken, Nat.not_le.mpr hqueue]

theorem issuing_inFlight_read {s : State} {c : Nat} {r : MemReq} (hqueue : r.queue < jobQueue) (hread : r.write = none) :
    (issuing s c r).inFlight = (channelOf s c).inFlight ++ [(r.queue, r.entry, r.dpa)] := by
  simp [issuing, slotsTaken, Nat.not_le.mpr hqueue, hread]

theorem issuing_inFlight_write {s : State} {c : Nat} {r : MemReq} (hwrite : r.write.isSome = true) :
    (issuing s c r).inFlight = (channelOf s c).inFlight := by
  simp [issuing, slotsTaken, hwrite]

theorem issuing_job {s : State} {c : Nat} {r : MemReq} (hjob : jobQueue ≤ r.queue) :
    (issuing s c r).requests = (channelOf s c).requests ∧ (issuing s c r).inFlight = (channelOf s c).inFlight := by
  simp [issuing, slotsTaken, hjob]

/-- The part when the burst and those of its check line have been counted. -/
def burstCounted (s : State) (slot : BurstSlot) (r : MemReq) : State :=
  let c := slot.channel
  let ch := channelOf s c
  let chk := useCheck ch.checkBuf (eccBlock r.dpa) r.write.isSome
  countChannel (checkBursts (countChannel (setChannel (drawn s) c (issuing s c r)) c 2 chk.2) c r ch.checkBuf slot) c
    (if r.write.isSome then 1 else 0) 1

theorem feedTables_burstCounted (s : State) (slot : BurstSlot) (r : MemReq) :
    feedTables (burstCounted s slot r) = (s.feed.channels.set slot.channel (issuing s slot.channel r), s.feed.queues, s.feed.jobs) := by
  unfold burstCounted
  simp only [feedTables_countChannel, feedTables_checkBursts]
  rfl

theorem jobs_jobIssued {s t : State} (h : t.feed.jobs = s.feed.jobs) (k c : Nat) : (jobIssued t k c).feed.jobs = (jobIssued s k c).feed.jobs := by
  unfold jobIssued
  rw [h]

theorem channelOf_of_set {s t : State} {c : Nat} {x : Channel} (h : t.feed.channels = s.feed.channels.set c x) (hc : c < s.feed.channels.length) :
    channelOf t c = x := by
  unfold channelOf
  rw [h]
  exact lget_set_same x {} hc

section
variable {s : State} {slot : BurstSlot} {r : MemReq}

theorem burst_passes (hpick : slotPick s slot.channel = none) :
    burst s slot = setChannel (drawn s) slot.channel
      { channelOf s slot.channel with burstSlot := nextSlot s (channelOf s slot.channel) + 1, owed := false } := by
  unfold slotPick at hpick
  unfold burst
  simp only [hpick]

/-- What a burst does: a line of work beside the queues has been issued, a read is on its way, or a write leaves its queue. -/
theorem burst_cases (hpick : slotPick s slot.channel = some r) :
    (jobQueue ≤ r.queue ∧ feedTables (burst s slot) = feedTables (jobIssued (burstCounted s slot r) (r.queue - jobQueue) slot.channel)) ∨
    (r.queue < jobQueue ∧ r.write = none ∧ feedTables (burst s slot) = feedTables (burstCounted s slot r)) ∨
    (r.queue < jobQueue ∧ r.write.isSome = true ∧ ∃ x, feedTables x = feedTables (burstCounted s slot r) ∧
      feedTables (burst s slot) = feedTables (writeGone x r.queue r.entry)) := by
  unfold burst
  extract_lets c ch k
  split
  case h_1 h => exact absurd (h.symm.trans hpick) (by simp)
  case h_2 r' h =>
    obtain rfl : r' = r := Option.some.inj (h.symm.trans hpick)
    extract_lets job chk ch1 s1 s2 issued read linked stored
    have counted : s2 = burstCounted s slot r' := rfl
    clear_value s2
    subst counted
    split
    case isTrue hjob =>
      refine Or.inl ⟨of_decide_eq_true hjob, ?_⟩
      rw [feedTables_countEvent]
      have hissued : feedTables issued = _ := feedTables_linkCounts _ _ _
      unfold read
      split
      · split
        · exact (feedTables_poison _ _).trans hissued
        · exact hissued
      · exact (feedTables_jobRead _ _ _ _).trans hissued
    case isFalse hjob =>
      have hqueue : r'.queue < jobQueue := Nat.not_le.mp fun h => hjob (decide_eq_true h)
      split
      case h_1 hread =>
        refine Or.inr (Or.inl ⟨hqueue, hread, ?_⟩)
        rw [feedTables_countEvent, feedTables_countUnit]
      case h_2 d hwrite =>
        refine Or.inr (Or.inr ⟨hqueue, by rw [hwrite]; rfl, ?_⟩)
        rw [feedTables_countEvent, feedTables_countUnit]
        refine ⟨stored, ?_, rfl⟩
        have hlinked : feedTables linked = _ := feedTables_linkCounts _ _ _
        unfold stored
        split
        · exact (feedTables_poison _ _).trans hlinked
        · exact hlinked

theorem burst_channels (hpick : slotPick s slot.channel = some r) :
    (burst s slot).feed.channels = s.feed.channels.set slot.channel (issuing s slot.channel r) := by
  have counted : (burstCounted s slot r).feed.channels = _ := congrArg (·.1) (feedTables_burstCounted s slot r)
  rcases burst_cases hpick with ⟨-, h⟩ | ⟨-, -, h⟩ | ⟨-, -, x, hx, h⟩
  · exact (channels_of_feedTables h).trans counted
  · exact (channels_of_feedTables h).trans counted
  · exact (channels_of_feedTables h).trans ((writeGone_channels x _ _).trans ((channels_of_feedTables hx).trans counted))

/-- Work beside the queues: its line has been issued. -/
theorem burst_job (hpick : slotPick s slot.channel = some r) (hjob : jobQueue ≤ r.queue) :
    (burst s slot).feed.jobs = (jobIssued s (r.queue - jobQueue) slot.channel).feed.jobs := by
  have counted := feedTables_burstCounted s slot r
  rcases burst_cases hpick with ⟨-, h⟩ | ⟨hqueue, -⟩ | ⟨hqueue, -⟩
  · exact (jobs_of_feedTables h).trans (jobs_jobIssued (congrArg (·.2.2) counted) _ _)
  · omega
  · omega

/-- A write that has gone out leaves its queue. -/
theorem burst_write (hpick : slotPick s slot.channel = some r) (hqueue : r.queue < jobQueue) (hwrite : r.write.isSome = true) :
    ∀ w ∈ (queueOf (burst s slot) r.queue).beats, w.num ≠ r.entry := by
  rcases burst_cases hpick with ⟨hjob, -⟩ | ⟨-, hread, -⟩ | ⟨-, -, x, -, h⟩
  · omega
  · rw [hread] at hwrite
    cases hwrite
  · rw [queueOf_of_feedTables h]
    exact beats_writeGone x r.queue r.entry

end

/-- The slot of a channel in service decides, when the halyard stands at its beginning. -/
theorem execChannelBurstDecision_eq {s : State} {slot : BurstSlot} (hc : slot.channel < Config.channels)
    (hstate : (channelOf s slot.channel).state ≠ .retraining) (hstopped : s.hal.stopped = false)
    (ht : reaches s (slotFc (nextSlot s (channelOf s slot.channel))) = true) :
    execChannelBurstDecision slot s = .next (burst (advance s (slotFc (nextSlot s (channelOf s slot.channel)))) slot) := by
  unfold execChannelBurstDecision
  simp only [hc, hstate, hstopped, ht, ne_eq, not_false_eq_true, Bool.not_false, and_self, if_true]
  rfl

/-! ### Read returns (R213, R215, R226) -/

theorem settleCut_stays {s : State} {q : Nat} (h : (queueOf s q).leaving = none) : settleCut s q = s := by
  unfold settleCut
  rw [h]
  rfl

theorem inFlight_lostReturn (s : State) (q n : Nat) : ∀ c ∈ (lostReturn s q n).feed.channels, ∀ r ∈ c.inFlight, ¬ (r.1 = q ∧ r.2.1 = n) := by
  intro c hc r hr
  obtain ⟨x, -, rfl⟩ := List.mem_map.mp hc
  have keep := (List.mem_filter.mp hr).2
  rintro ⟨rfl, rfl⟩
  simp at keep

/-- The entry of the number holds the line's bytes, whatever else the queue holds. -/
theorem entry_fillEntry {s : State} {q n : Nat} {e : QEntry} (h : (queueOf s q).entries.find? (fun e => e.num == n) = some e) (a : Nat) :
    ((queueOf (fillEntry s q n a false) q).entries.find? (fun e => e.num == n)).map (fun x => (x.filled, x.bad, x.data)) =
      some (true, false, memLine s.feed.lpddr a) := by
  have hn : e.num = n := by simpa using List.find?_some h
  unfold fillEntry
  rw [queueOf_setQueue, List.find?_map]
  have same : ((fun e : QEntry => e.num == n) ∘ fun e : QEntry => if e.num = n then
      { e with filled := true, bad := false, data := memLine s.feed.lpddr a, side := amGetD s.feed.spillSide e.dpa 0 } else e) = fun e => e.num == n := by
    funext x
    simp only [Function.comp]
    split <;> rfl
  rw [same, h]
  simp only [Option.map_some, hn, if_true]

/-- A line that enters the feed cache changes no queue. -/
theorem queueOf_cacheAlloc (s : State) (a q : Nat) : queueOf (cacheAlloc s a) q = queueOf s q := by
  unfold cacheAlloc
  split
  · rfl
  · extract_lets n t ways victim kept
    split <;> rfl

/-- A sound line goes into the entry that waits for it. -/
theorem lineReturn_good {s : State} {q src : Nat} {e : QEntry} (hlost : (channelOf s (channelOfDpa src)).state ≠ .lost) (hpoison : poisoned s src = false) :
    lineReturn s q e src .good .good = (if queueCaches s q && !inMirror s e.dpa then cacheAlloc (fillEntry s q e.num src false) e.dpa
      else fillEntry s q e.num src false) := by
  have hstate : ((channelOf s (channelOfDpa src)).state == ChanState.lost) = false := beq_eq_false_iff_ne.mpr hlost
  have hecc : ((Ecc.good == Ecc.uncorrectable) || poisoned s src || (channelOf s (channelOfDpa src)).state == .lost) = false := by
    rw [hpoison, hstate]
    rfl
  unfold lineReturn checkLine
  simp only [hecc, Bool.and_false, Bool.not_false, Bool.false_eq_true, if_false, if_true, reduceCtorEq]

theorem readReturn_lost {s : State} {q n : Nat} (h : (queueOf s q).entries.find? (fun e => e.num == n) = none) {cacheWord : Ecc} {line : ReturnedLine}
    {mirror : Ecc} : readReturn s q n cacheWord line mirror = lostReturn s q n := by
  unfold readReturn
  rw [h]

section
variable {s : State} {q n : Nat} {e : QEntry} (hentry : (queueOf s q).entries.find? (fun e => e.num == n) = some e) (hfilled : e.filled = false)
include hentry hfilled

theorem readReturn_cached (hcached : e.cached = true) (hdue : reaches s e.due = true) (line : ReturnedLine) (mirror : Ecc) :
    readReturn s q n .good line mirror = fillEntry (advance s e.due) q n e.dpa false := by
  unfold readReturn
  simp only [hentry, hfilled, hcached, hdue, Bool.not_true, Bool.false_eq_true, if_false, if_true]

/-- The read of an entry that a channel had in flight has returned without error. -/
theorem entry_readReturn (hcached : e.cached = false) {c : Nat} {r : Nat × Nat × Nat}
    (hflight : (List.range Config.channels).findSome? (fun c => ((channelOf s c).inFlight.find? (fun r => r.1 == q && r.2.1 == n)).map (fun r => (c, r))) =
      some (c, r))
    (hlost : (channelOf s (channelOfDpa r.2.2)).state ≠ .lost) (hpoison : poisoned s r.2.2 = false) :
    ((queueOf (readReturn s q n .good ⟨.good, .clean⟩ .good) q).entries.find? (fun e => e.num == n)).map (fun x => (x.filled, x.bad, x.data)) =
      some (true, false, memLine s.feed.lpddr r.2.2) := by
  have hn : e.num = n := by simpa using List.find?_some hentry
  let back := setChannel s c { channelOf s c with inFlight := (channelOf s c).inFlight.erase r }
  have hstate : (channelOf back (channelOfDpa r.2.2)).state ≠ .lost := by
    rw [state_of_chanStates (t := back) (s := s) (chanStates_setChannel rfl)]
    exact hlost
  have good : readReturn s q n .good ⟨.good, .clean⟩ .good = lineReturn back q e r.2.2 .good .good := by
    unfold readReturn
    simp only [hentry, hfilled, hcached, hflight, Bool.false_eq_true, if_false, linkCounts_clean, reduceCtorEq]
    rfl
  rw [good, lineReturn_good hstate hpoison, hn]
  split
  · rw [queueOf_cacheAlloc]
    exact entry_fillEntry hentry _
  · exact entry_fillEntry hentry _

end

/-! ### FETCH (R209, R210) -/

/-- A port that takes the frame of a request does not refuse it. -/
theorem not_refuses {s : State} {u : Site} {l : List (Nat × Nat)} {f : Nat × Nat} (h : unitState s u = .enabled ∨ l.contains f = true) :
    ¬ (unitState s u ≠ .enabled ∧ (!l.contains f) = true) := by
  rintro ⟨hne, hnot⟩
  rcases h with h | h
  · exact hne h
  · rw [h] at hnot
    cases hnot

/-- The queue when the request at the front of its bus is its last grant. -/
def granted (x : MemQueue) (g : Grant) (rest : List Grant) : MemQueue :=
  { x with fetchOffers := rest, grants := x.grants ++ [{ g with number := x.nextFetch }], nextFetch := (x.nextFetch + 1) % 65536 }

section
variable {s : State} {q : Nat} {g : Grant} {rest : List Grant} (hoffers : (queueOf s q).fetchOffers = g :: rest)
  (hruns : fabricRuns (advance s g.due) = true) (hheld : unitHeld s (portSite (q / 8) 0) = false)
  (htakes : unitState s (portSite (q / 8) 0) = .enabled ∨ (portFrames s (q / 8)).contains (g.stream, g.frame) = true)
include hoffers hruns hheld htakes

theorem execFetchRequestArrive_waits (hfull : 8 ≤ (queueOf s q).grants.length ∨ (queueOf s q).leaving.isSome = true) :
    execFetchRequestArrive q s =
      .next (setQueue (advance s g.due) q { queueOf s q with fetchOffers := { g with due := (advance s g.due).now + 1 } :: rest }) := by
  unfold execFetchRequestArrive
  simp only [hoffers, hruns, hheld, hfull, Bool.not_true, Bool.false_eq_true, or_self, if_false, if_true]
  rw [if_neg (not_refuses htakes)]
  rfl

/-- Of what the grant changes beside its queue, which are the FETCH at its tile and a trace record, nothing touches the memory feed. -/
theorem execFetchRequestArrive_grants (hroom : (queueOf s q).grants.length < 8) (hstays : (queueOf s q).leaving = none) :
    ∃ t, execFetchRequestArrive q s = .next t ∧ queueOf t q = granted (queueOf s q) g rest ∧ t.now = max s.now g.due := by
  have hfull : ¬ (8 ≤ (queueOf s q).grants.length ∨ (queueOf s q).leaving.isSome = true) := by
    simp [hroom, hstays]
  unfold execFetchRequestArrive
  simp only [hoffers, hruns, hheld, hfull, Bool.not_true, Bool.false_eq_true, or_self, if_false]
  rw [if_neg (not_refuses htakes)]
  refine ⟨_, rfl, ?_, by simp⟩
  rw [queueOf_traceNow, queueOf_setTile, queueOf_setQueue]
  rfl

end

/-- Settles O40: the burst by what a burst does, the return by the entry that it fills, the request by the queue's grants. -/
theorem readsReturnAndFetchesAreGranted : Obligations.ReadsReturnAndFetchesAreGranted := by
  refine ⟨?_, ?_, ?_⟩
  · intro s0 slot c s ch k hlen hc hc32 hstate hstopped ht
    have hexec := execChannelBurstDecision_eq (s := s0) hc hstate hstopped ht
    have hlt : slot.channel < s.feed.channels.length := hlen ▸ hc32
    refine ⟨fun hpick => ?_, fun r hpick hqueue => ?_, fun r hpick hjob => ?_⟩
    · exact hexec.trans (congrArg _ (burst_passes hpick))
    · have hch := channelOf_of_set (burst_channels hpick) hlt
      refine ⟨_, hexec, ?_, fun hread => ?_, fun hwrite => ⟨?_, burst_write hpick hqueue hwrite⟩⟩
      · rw [hch, issuing_requests hqueue]
      · rw [hch, issuing_inFlight_read hqueue hread]
      · rw [hch, issuing_inFlight_write hwrite]
    · have hch := channelOf_of_set (burst_channels hpick) hlt
      exact ⟨_, hexec, by rw [hch, (issuing_job hjob).1], by rw [hch, (issuing_job hjob).2], burst_job hpick hjob⟩
  · intro s q n
    refine ⟨fun e hentry hfilled => ⟨fun hcached hdue => ?_, fun hcached c r hflight hlost hpoison => ?_⟩, fun hnone w l m k => ?_, settleCut_stays⟩
    · exact congrArg (fun x => Host.Outcome.next (settleCut x q)) (readReturn_cached hentry hfilled hcached hdue _ _)
    · exact ⟨_, rfl, entry_readReturn hentry hfilled hcached hflight hlost hpoison⟩
    · refine ⟨_, congrArg (fun x => Host.Outcome.next (settleCut x q)) (readReturn_lost hnone), inFlight_lostReturn s q n⟩
  · intro s q g rest hoffers hruns hheld htakes
    refine ⟨fun hroom hstays => ?_, fun hfull => ?_⟩
    · obtain ⟨t, hexec, hq, hnow⟩ := execFetchRequestArrive_grants hoffers hruns hheld htakes hroom hstays
      exact ⟨t, hexec, congrArg (·.fetchOffers) hq, congrArg (·.grants) hq, congrArg (·.nextFetch) hq, hnow⟩
    · exact execFetchRequestArrive_waits hoffers hruns hheld htakes (hfull.imp_right Option.isSome_iff_ne_none.mpr)

end Sys2Proof.Machine
end

section
/-! PROOF. FEED and STREAM_IN queues send the beat of a filled entry, STREAM_OUT and SPILL queues write what they take, and a SPILL queue returns what is
asked (R206, R207, R208, R224, R241, R242, R243, R414). -/

namespace Sys2Proof.Machine

theorem queueHere_iff {s : State} {q : Nat} :
    queueHere s q = true ↔ q < 8 * Config.memPorts ∧ queueUsed s q = true ∧ (queueOf s q).leaving = none := by
  simp [queueHere, and_assoc]

/-- A queue that acts stands at a port that works (R228, R410). -/
theorem queueActs_cases {s : State} {q : Nat} (h : queueActs s q = true) :
    queueHere s q = true ∧ fabricRuns s = true ∧ unitHeld s (queueEnd q).site = false := by
  simp only [queueActs, unitWorks, Bool.and_eq_true, Bool.not_eq_true'] at h
  obtain ⟨hhere, ⟨hruns, hheld⟩, -⟩ := h
  exact ⟨hhere, hruns, hheld⟩

theorem port_lt_of_queueHere {s : State} {q : Nat} (h : queueHere s q = true) : q / 8 < Config.memPorts := by
  have hlt := (queueHere_iff.mp h).1
  omega

/-- An output with a credit holds no beat. -/
theorem outQ_of_queueCredit {s : State} {q : Nat} (h : queueCredit s q = true) : outQ s (queueEnd q) = [] := by
  simp only [queueCredit, outFree, Bool.and_eq_true, List.isEmpty_iff] at h
  exact h.1

theorem queueOf_setOutQ (s : State) (e : EndPoint) (l : List OutBeat) (q : Nat) : queueOf (setOutQ s e l) q = queueOf s q := rfl

theorem outQ_setQueue (s : State) (q : Nat) (x : MemQueue) (e : EndPoint) : outQ (setQueue s q x) e = outQ s e := rfl

theorem queueOf_sentBeats (s : State) (q n k : Nat) : queueOf (sentBeats s q n) k = queueOf s k := queueOf_countUnit s _ _ _ k

theorem outQ_sentBeats (s : State) (q n : Nat) (e : EndPoint) : outQ (sentBeats s q n) e = outQ s e := outQ_of_fabric (by simp [sentBeats]) e

/-! ### FEED (R207, R208) -/

/-- The queue has sent the line of its head entry to a grant. -/
def feedSent (s : State) (q : Nat) (g : Grant) (e : QEntry) : State :=
  sentBeats (pushOut (grantTaken (popEntry (fetchSent s q g e.dpa) q) q) (queueEnd q) { beat := mkBeat tyData 0 g.stream false false e.data }) q 1

theorem feedSent_frame {s : State} {q : Nat} {g : Grant} {e : QEntry} (hcredit : queueCredit s q = true) :
    outQ (feedSent s q g e) (queueEnd q) = [{ beat := mkBeat tyData 0 g.stream false false e.data }] ∧
    (queueOf (feedSent s q g e) q).entries = (queueOf s q).entries.tail := by
  have hfabric : (grantTaken (popEntry (fetchSent s q g e.dpa) q) q).fabric = s.fabric := by
    rw [grantTaken_fabric, popEntry_fabric]
    rfl
  have hentries : (queueOf (grantTaken (popEntry (fetchSent s q g e.dpa) q) q) q).entries = (queueOf s q).entries.tail := by
    rw [entries_grantTaken, entries_popEntry]
    rfl
  refine ⟨?_, (congrArg MemQueue.entries (queueOf_sentBeats _ _ _ q)).trans hentries⟩
  unfold feedSent
  rw [outQ_sentBeats, outQ_pushOut, outQ_of_fabric hfabric, outQ_of_queueCredit hcredit, List.nil_append]

section
variable {s : State} {q : Nat} {g : Grant} (hserves : queueServes s q = true) (hmode : queueMode s q = 0) (hgrant : (queueOf s q).grants.head? = some g)
include hserves hmode hgrant

theorem execFeedBeatSend_misses (hempty : ∀ e, (queueOf s q).entries.head? = some e → e.filled = false) (parity : Bool) :
    execFeedBeatSend q parity s = .next (notValid s q) := by
  unfold execFeedBeatSend
  simp only [hserves, hmode, hgrant, Bool.not_true, bne_self_eq_false, Bool.or_self, Bool.false_eq_true, if_false]
  cases hhead : (queueOf s q).entries.head? with
  | none => rfl
  | some e =>
    simp only [hempty e hhead, Bool.not_false, if_true]
    rfl

/-- The line goes to the first grant's stream, and its entry leaves. -/
theorem execFeedBeatSend_sends {e : QEntry} (hhead : (queueOf s q).entries.head? = some e) (hfilled : e.filled = true) (hrange : e.range = false)
    (hbad : e.bad = false) (hcredit : queueCredit s q = true) (hkeep : g.discard = false) :
    execFeedBeatSend q false s = .next (feedSent s q g e) := by
  unfold execFeedBeatSend
  simp only [hserves, hmode, hgrant, hhead, hfilled, hrange, hbad, hcredit, hkeep, Bool.not_true, bne_self_eq_false, Bool.or_self, Bool.false_eq_true,
    if_false]
  rfl

end

/-! ### STREAM_IN (R207, R241, R243) -/

/-- The fc in which the head of a STREAM_IN queue may be read. -/
def headTurn (s : State) (q : Nat) : State := advance s (discardEnd (queueOf s q))

section
variable {s : State} {q : Nat} (hmode : queueMode (headTurn s q) q = 1) (hcredit : queueCredit (headTurn s q) q = true)
include hmode hcredit

theorem execStreamInBeatSend_proof (hserves : queueServes (headTurn s q) q = false) (hproof : proofMisses (headTurn s q) q = true) (parity : Bool) :
    execStreamInBeatSend q parity s = .next (notValid (headTurn s q) q) := by
  unfold headTurn at *
  unfold execStreamInBeatSend
  simp only [hmode, hcredit, hserves, hproof, Bool.not_true, Bool.not_false, bne_self_eq_false, Bool.or_self, Bool.false_eq_true, if_false, if_true]
  rfl

theorem execStreamInBeatSend_misses (hserves : queueServes (headTurn s q) q = true)
    (hempty : ∀ e, (queueOf (headTurn s q) q).entries.head? = some e → e.filled = false) (parity : Bool) :
    execStreamInBeatSend q parity s = .next (notValid (headTurn s q) q) := by
  unfold headTurn at *
  unfold execStreamInBeatSend
  simp only [hmode, hcredit, hserves, Bool.not_true, bne_self_eq_false, Bool.or_self, Bool.false_eq_true, if_false]
  cases hhead : (queueOf (advance s (discardEnd (queueOf s q))) q).entries.head? with
  | none => rfl
  | some e =>
    simp only [hempty e hhead, Bool.not_false, if_true]
    rfl

section
variable {e : QEntry} (hserves : queueServes (headTurn s q) q = true) (hhead : (queueOf (headTurn s q) q).entries.head? = some e)
  (hfilled : e.filled = true) (hrange : e.range = false) (hbad : e.bad = false)
include hserves hhead hfilled hrange hbad

theorem execStreamInBeatSend_line (hline : e.segLine ≠ 0) :
    execStreamInBeatSend q false s = .next (sendLine (popEntry (headTurn s q) q) q e.segLine e.data) := by
  unfold headTurn at *
  unfold execStreamInBeatSend
  simp only [hmode, hcredit, hserves, hhead, hfilled, hrange, hbad, Bool.not_true, bne_self_eq_false, Bool.or_self, Bool.false_eq_true, if_false]
  rw [if_pos hline]
  rfl

theorem execStreamInBeatSend_line0 (hline : e.segLine = 0) (hdrop : e.dropCode = none) :
    execStreamInBeatSend q false s = .next (sendLine0 (popEntry (headTurn s q) q) q e.data) := by
  unfold headTurn at *
  unfold execStreamInBeatSend
  simp only [hmode, hcredit, hserves, hhead, hfilled, hrange, hbad, hline, hdrop, Bool.not_true, bne_self_eq_false, Bool.or_self, Bool.false_eq_true,
    if_false, ne_eq, not_true_eq_false]
  rfl

theorem execStreamInBeatSend_void {code : Nat} {k : SegTack} (hline : e.segLine = 0) (hdrop : e.dropCode = some code) (htack : segTackOf e.data = some k) :
    execStreamInBeatSend q false s = .next (voidSegment (popEntry (headTurn s q) q) q k code) := by
  unfold headTurn at *
  unfold execStreamInBeatSend
  simp only [hmode, hcredit, hserves, hhead, hfilled, hrange, hbad, hline, hdrop, htack, Bool.not_true, bne_self_eq_false, Bool.or_self,
    Bool.false_eq_true, if_false, ne_eq, not_true_eq_false]
  rfl

end

end

/-! ### STREAM_OUT (R205, R241, R242) -/

/-- The first fc in which the queue's port issues nothing else. -/
def portTurn (s : State) (q : Nat) : State := advance s (portSlot s (q / 8))

/-- The void tack line still owed to line 0 goes ahead of every beat. -/
theorem execStreamOutBeatWrite_owed {s : State} {q : Nat} {w : OwedLine} (hruns : fabricRuns (portTurn s q) = true)
    (hheld : unitHeld (portTurn s q) (queueEnd q).site = false) (hport : q / 8 < Config.memPorts) (howed : (queueOf (portTurn s q) q).voidOwed = some w)
    (hroom : queueRoom (portTurn s q) q = true) (hopen : regulatorOpen (portTurn s q) q = true) (parity : Bool) :
    execStreamOutBeatWrite ⟨q, parity⟩ s =
      .next (queueWrite (setQueue (portTurn s q) q { queueOf (portTurn s q) q with voidOwed := none }) q w.addr w.beat w.frame) := by
  unfold portTurn at *
  unfold execStreamOutBeatWrite
  simp only [hruns, hheld, howed, hroom, hopen, Nat.not_le.mpr hport, decide_false, Bool.not_true, Bool.or_self, Bool.false_eq_true, if_false]
  rfl

theorem execStreamOutBeatWrite_takes {s s1 : State} {q : Nat} {b b' : Beat} (hacts : queueActs (portTurn s q) q = true)
    (hmode : queueMode (portTurn s q) q = 2) (howed : (queueOf (portTurn s q) q).voidOwed = none) (hhead : (inBuf (portTurn s q) (queueEnd q)).head? = some b)
    (hfit : unitState (portTurn s q) (queueEnd q).site = .enabled ∨ isOpenTack b = false ∨
      (portFrames (portTurn s q) (q / 8)).contains (bStream b, tackFrame b) = true)
    (hbound : (queueOf (portTurn s q) q).seg.stream = none ∨ (queueOf (portTurn s q) q).seg.stream = some (bStream b))
    (hready : streamOutReady (portTurn s q) q b = true) (hroom : queueRoom (portTurn s q) q = true) (hopen : regulatorOpen (portTurn s q) q = true)
    (hcut : segmentCut (queueOf (portTurn s q) q) b = false) (htake : takeBeat (portTurn s q) (queueEnd q) (fun _ => true) = some (b', s1)) :
    execStreamOutBeatWrite ⟨q, false⟩ s = .next (streamOutTake (countUnit s1 (queueSite q) 5 1) q b
      (if isTack b then tackFrame b else (headFrame (portTurn s q) (queueEnd q) (bStream b)).getD 0)) := by
  obtain ⟨hhere, hruns, hheld⟩ := queueActs_cases hacts
  have hport := port_lt_of_queueHere hhere
  have hunfit : (unitState (portTurn s q) (queueEnd q).site != .enabled && isOpenTack b &&
      !(portFrames (portTurn s q) (q / 8)).contains (bStream b, tackFrame b)) = false := by
    rcases hfit with h | h | h
    · rw [h]
      rfl
    · rw [h, Bool.and_false, Bool.false_and]
    · rw [h, Bool.not_true, Bool.and_false]
  have hstream : ((queueOf (portTurn s q) q).seg.stream.isSome && (queueOf (portTurn s q) q).seg.stream != some (bStream b)) = false := by
    rcases hbound with h | h
    · rw [h]
      rfl
    · rw [h, bne_self_eq_false, Bool.and_false]
  unfold portTurn at *
  unfold execStreamOutBeatWrite
  simp only [hruns, hheld, howed, hhere, hmode, hhead, hunfit, hacts, hstream, hready, hroom, hopen, hcut, htake, Nat.not_le.mpr hport, decide_false,
    Bool.not_true, bne_self_eq_false, Bool.or_self, Bool.false_eq_true, if_false]
  rfl

/-! ### SPILL writes (R206, R224) -/

theorem execSpillQueueWrite_marker {s s1 : State} {q : Nat} {b b' : Beat} (hacts : queueActs (portTurn s q) q = true)
    (hmode : queueMode (portTurn s q) q = 3) (hhead : (inBuf (portTurn s q) (queueEnd q)).head? = some b)
    (htake : takeBeat (portTurn s q) (queueEnd q) (fun _ => true) = some (b', s1)) (htype : bType b = tyMarker) (hdir : markDir b = 0) (parity : Bool) :
    execSpillQueueWrite ⟨q, parity⟩ s = .next (setQueue s1 q { queueOf s1 q with spillWrite := some (markAddr b, markCount b) }) := by
  obtain ⟨hhere, hruns, hheld⟩ := queueActs_cases hacts
  unfold portTurn at *
  unfold execSpillQueueWrite
  simp only [hruns, hheld, hhere, hmode, hhead, htype, hdir, htake, Bool.not_true, bne_self_eq_false, Bool.or_self, Bool.false_eq_true, if_false, if_true,
    ne_eq, not_true_eq_false]
  rfl

/-- The run under way is one beat shorter. -/
def runShorter (s : State) (q a n : Nat) : State := setQueue s q { queueOf s q with spillWrite := if n ≤ 1 then none else some (a + 64, n - 1) }

theorem execSpillQueueWrite_beat {s s1 : State} {q a n : Nat} {b b' : Beat} (hacts : queueActs (portTurn s q) q = true)
    (hmode : queueMode (portTurn s q) q = 3) (hhead : (inBuf (portTurn s q) (queueEnd q)).head? = some b)
    (htake : takeBeat (portTurn s q) (queueEnd q) (fun _ => true) = some (b', s1)) (htype : bType b ≠ tyMarker)
    (hrun : (queueOf (portTurn s q) q).spillWrite = some (a, n)) (hroom : queueRoom (portTurn s q) q = true)
    (hopen : regulatorOpen (portTurn s q) q = true) (parity : Bool) :
    ∃ frame, execSpillQueueWrite ⟨q, parity⟩ s = .next (spillBeatWrite (runShorter (countUnit s1 (queueSite q) 5 1) q a n) q a b frame parity) := by
  obtain ⟨hhere, hruns, hheld⟩ := queueActs_cases hacts
  unfold portTurn at *
  unfold execSpillQueueWrite
  simp only [hruns, hheld, hhere, hmode, hhead, htype, hrun, hroom, hopen, htake, Bool.not_true, bne_self_eq_false, Bool.or_self, Bool.false_eq_true,
    if_false]
  exact ⟨_, rfl⟩

theorem mayAccess_of_hal {s t : State} (h : t.hal = s.hal) (mode : Nat) (write : Bool) (a : Nat) : mayAccess t mode write a = mayAccess s mode write a := by
  unfold mayAccess inImage inMirror inSpill inElastic
  rw [h]

theorem writeBufferFull_of_channels {s t : State} (h : t.feed.channels = s.feed.channels) (a : Nat) : writeBufferFull t a = writeBufferFull s a := by
  unfold writeBufferFull
  rw [channelOf_of_channels h]

theorem countUnit_feed (s : State) (u : Site) (j n : Nat) : (countUnit s u j n).feed = s.feed := by simp

theorem countUnit_hal (s : State) (u : Site) (j n : Nat) : (countUnit s u j n).hal = s.hal :=
  (moves_countUnit (msk := 0x10000e) rfl (Moves.refl s)).frame.b4 rfl

theorem unitState_setQueue (s : State) (q : Nat) (x : MemQueue) (u : Site) : unitState (setQueue s q x) u = unitState s u := by
  unfold unitState ctlOf
  split <;> rfl

theorem unitState_countUnit (s : State) (u v : Site) (j n : Nat) : unitState (countUnit s u j n) v = unitState s v :=
  congrArg UnitCtl.state (ctlOf_of_moves (moves_countUnit (msk := 0x10000e) rfl (Moves.refl s)) rfl v)

theorem writeLine_lpddr {s : State} {a : Nat} (hlost : (channelOf s (channelOfDpa a)).state ≠ .lost) (d : BitVec 512) :
    (writeLine s a d).feed.lpddr = memSetLine s.feed.lpddr a d := by
  unfold writeLine
  rw [if_neg hlost]

theorem putRequest_lpddr (s : State) (r : MemReq) : (putRequest s r).feed.lpddr = s.feed.lpddr := rfl

theorem presentWrite_lpddr {s : State} {w : WBeat} (hlost : (channelOf s (channelOfDpa w.addr)).state ≠ .lost) (q : Nat) :
    (presentWrite s q w).feed.lpddr = memSetLine s.feed.lpddr w.addr w.beat.data := by
  unfold presentWrite
  rw [putRequest_lpddr, writeLine_lpddr hlost]

theorem waitOver_frame (s : State) (port st : Nat) (others : List Nat) :
    (waitOver s port st others).feed.channels = s.feed.channels ∧ (waitOver s port st others).feed.lpddr = s.feed.lpddr := by
  unfold waitOver
  split <;> exact ⟨rfl, rfl⟩

theorem runShorter_frame (s : State) (q a n : Nat) :
    (runShorter s q a n).feed.channels = s.feed.channels ∧ (runShorter s q a n).feed.lpddr = s.feed.lpddr ∧ (runShorter s q a n).hal = s.hal ∧
    (queueOf (runShorter s q a n) q).spillDrop = (queueOf s q).spillDrop ∧ ∀ u, unitState (runShorter s q a n) u = unitState s u :=
  ⟨rfl, rfl, rfl, by rw [runShorter, queueOf_setQueue], unitState_setQueue s q _⟩

/-- A line that its channel takes at once is in LPDDR5 behind the write, at its address. -/
theorem queueWrite_lpddr {s : State} {a : Nat} (hlost : (channelOf s (channelOfDpa a)).state ≠ .lost) (hfull : writeBufferFull s a = false) (q : Nat)
    (b : Beat) (frame : Nat) : (queueWrite s q a b frame).feed.lpddr = memSetLine s.feed.lpddr a b.data := by
  unfold queueWrite
  extract_lets s1 x w s2
  obtain ⟨hchannels, hlpddr⟩ := waitOver_frame (regulatorSpend s q) (q / 8) (bStream b) ((portQueues s (q / 8)).filter (fun k => decide (k ≠ q)))
  have hwaiting : ¬ w.waiting = true := by
    rw [show w.waiting = false from hfull]
    exact Bool.false_ne_true
  have hlost2 : (channelOf s2 (channelOfDpa w.addr)).state ≠ .lost := by
    rw [channelOf_of_channels (show s2.feed.channels = s.feed.channels from hchannels)]
    exact hlost
  rw [if_neg hwaiting, presentWrite_lpddr hlost2, show s2.feed.lpddr = s.feed.lpddr from hlpddr]

/-- A beat of a run whose frame the queue still takes is stored, with its sideband beside it. -/
theorem spillBeatWrite_stores {s : State} {q a : Nat} {b : Beat} (hkeep : isTack b = true ∨ (queueOf s q).spillDrop.contains (bStream b) = false)
    (htakes : unitState s (queueSite q) = .enabled ∨ isOpenTack b = false) (hmay : mayAccess s 3 true a = true)
    (hlost : (channelOf s (channelOfDpa a)).state ≠ .lost) (hfull : writeBufferFull s a = false) (frame : Nat) :
    (spillBeatWrite s q a b frame false).feed.lpddr = memSetLine s.feed.lpddr a b.data ∧
    amGetD (spillBeatWrite s q a b frame false).feed.spillSide a 0 = b.side := by
  have hdropping : ¬ ((queueOf s q).spillDrop.contains (bStream b) && !isTack b) = true := by
    rcases hkeep with h | h
    · rw [h, Bool.not_true, Bool.and_false]
      exact Bool.false_ne_true
    · rw [h, Bool.false_and]
      exact Bool.false_ne_true
  have hnew : ¬ (unitState s (queueSite q) ≠ .enabled ∧ isOpenTack b = true ∧ (!(portFrames s (q / 8)).contains (bStream b, frame)) = true) := by
    rintro ⟨hne, hopen, -⟩
    rcases htakes with h | h
    · exact hne h
    · rw [h] at hopen
      cases hopen
  unfold spillBeatWrite
  extract_lets st site x dropping s1
  have hs1 : s1.feed.channels = s.feed.channels ∧ s1.feed.lpddr = s.feed.lpddr := by
    unfold s1
    split <;> exact ⟨rfl, rfl⟩
  rw [if_neg hdropping, if_neg hnew, if_neg Bool.false_ne_true, if_neg (by rw [hmay]; decide)]
  refine ⟨?_, amGetD_amSet_same _ _ _ _⟩
  have hlost1 : (channelOf s1 (channelOfDpa a)).state ≠ .lost := by rwa [channelOf_of_channels hs1.1]
  rw [← hs1.2]
  exact queueWrite_lpddr hlost1 ((writeBufferFull_of_channels hs1.1 a).trans hfull) q b frame

/-! ### SPILL reads (R206) -/

section
variable {s : State} {q : Nat} (hserves : queueServes s q = true) (hmode : queueMode s q = 3)
include hserves hmode

/-- A read request waits behind the others; without an entry no beat leaves. -/
theorem execSpillQueueRead_asks {s1 : State} {b b' : Beat} (hacts : queueActs s q = true) (hhead : (inBuf s (queueEnd q)).head? = some b)
    (htype : bType b = tyMarker) (hdir : markDir b = 1) (hroom : (queueOf s q).requests.length < 16)
    (htake : takeBeat s (queueEnd q) (fun _ => true) = some (b', s1)) (hempty : (queueOf s1 q).entries = []) (parity : Bool) :
    execSpillQueueRead ⟨q, parity⟩ s = .next (setQueue s1 q { queueOf s1 q with requests := (queueOf s1 q).requests ++
      [{ site := markSite b, queue := markQueue b, stream := bStream b, count := markCount b, addr := markAddr b }] }) := by
  unfold execSpillQueueRead
  simp only [hserves, hmode, hacts, hhead, htype, hdir, hroom, htake, Bool.not_true, bne_self_eq_false, Bool.or_self, Bool.false_eq_true, if_false,
    and_self, if_true, queueOf_setQueue, hempty, List.head?_nil, List.head?_append, List.head?_cons, Option.or_some]
  rfl

/-- The beats that go out for the head entry: ahead of a request's first the marker that names the request. -/
def spillBeats (r : SpillReq) (e : QEntry) : List OutBeat :=
  (if r.sent = 0 then [{ beat := mkMarker r.stream r.site r.queue 2 r.count r.addr }] else []) ++ [{ beat := ⟨e.data, e.side⟩ }]

theorem execSpillQueueRead_sends {r : SpillReq} {e : QEntry} (hin : inBuf s (queueEnd q) = []) (hreq : (queueOf s q).requests.head? = some r)
    (hhead : (queueOf s q).entries.head? = some e) (hfilled : e.filled = true) (hrange : e.range = false) (hbad : e.bad = false)
    (hcredit : queueCredit s q = true) :
    ∃ t, execSpillQueueRead ⟨q, false⟩ s = .next t ∧ (queueOf t q).entries = (queueOf s q).entries.tail ∧ outQ t (queueEnd q) = spillBeats r e := by
  unfold execSpillQueueRead
  simp only [hserves, hmode, hin, hreq, hhead, hfilled, hrange, hbad, hcredit, List.head?_nil, Bool.not_true, bne_self_eq_false, Bool.or_self,
    Bool.false_eq_true, if_false]
  refine ⟨_, rfl, ?_, ?_⟩
  · rw [queueOf_sentBeats, queueOf_setOutQ, queueOf_setQueue]
    exact entries_popEntry s q
  · rw [outQ_sentBeats, outQ_setOutQ, outQ_setQueue, outQ_of_fabric (popEntry_fabric s q), outQ_of_queueCredit hcredit]
    rfl

end

/-- Settles O41: each command by its equation; what leaves is read back from the output, what is written from LPDDR5. -/
theorem queuesSendAndWriteTheirBeats : Obligations.QueuesSendAndWriteTheirBeats := by
  refine ⟨?_, ?_, ?_, ?_, ?_, ?_, ?_⟩
  · intro s q hserves g hmode hgrant
    refine ⟨execFeedBeatSend_misses hserves hmode hgrant, fun e hhead hfilled hrange hbad hcredit hkeep => ?_⟩
    obtain ⟨hout, hentries⟩ := feedSent_frame (g := g) (e := e) hcredit
    exact ⟨_, execFeedBeatSend_sends hserves hmode hgrant hhead hfilled hrange hbad hcredit hkeep, by rw [hout]; rfl, hentries⟩
  · intro s0 q s hmode hcredit
    refine ⟨execStreamInBeatSend_proof hmode hcredit, fun hserves => ⟨execStreamInBeatSend_misses hmode hcredit hserves, ?_⟩⟩
    intro e hhead hfilled hrange hbad
    exact ⟨execStreamInBeatSend_line hmode hcredit hserves hhead hfilled hrange hbad,
      execStreamInBeatSend_line0 hmode hcredit hserves hhead hfilled hrange hbad,
      fun _ _ => execStreamInBeatSend_void hmode hcredit hserves hhead hfilled hrange hbad⟩
  · intro s0 s1 q b b' s hacts hmode howed hhead hfit hbound hready hroom hopen hcut htake
    exact execStreamOutBeatWrite_takes hacts hmode howed hhead hfit hbound hready hroom hopen hcut htake
  · intro s0 q w p s hruns hheld hport howed hroom hopen
    exact execStreamOutBeatWrite_owed hruns hheld hport howed hroom hopen p
  · intro s0 s1 q b b' p s hacts hmode hhead htake
    refine ⟨fun htype hdir => execSpillQueueWrite_marker hacts hmode hhead htake htype hdir p, ?_⟩
    intro a n htype hrun hroom hopen hkeep htakes hmay hlost hfull
    obtain ⟨frame, hexec⟩ := execSpillQueueWrite_beat hacts hmode hhead htake htype hrun hroom hopen false
    obtain ⟨hchannels, hlpddr, hhal, hdrop, hunit⟩ := runShorter_frame (countUnit s1 (queueSite q) 5 1) q a n
    obtain ⟨-, hhal1, -⟩ := takeBeat_frame htake
    have hfeed := (countUnit_feed s1 (queueSite q) 5 1).trans (takeBeat_feed htake)
    rw [hfeed] at hchannels hlpddr
    rw [queueOf_of_feed hfeed] at hdrop
    have stores := spillBeatWrite_stores (s := runShorter (countUnit s1 (queueSite q) 5 1) q a n) (q := q) (a := a) (b := b) (by rwa [hdrop])
      (by rwa [hunit, unitState_countUnit]) ((mayAccess_of_hal (hhal.trans ((countUnit_hal _ _ _ _).trans hhal1)) 3 true a).trans hmay)
      (by rwa [channelOf_of_channels hchannels]) ((writeBufferFull_of_channels hchannels a).trans hfull) frame
    rw [hlpddr] at stores
    exact ⟨_, hexec, stores⟩
  · intro s s1 q b b' p hserves hacts hmode hhead htype hdir hroom htake hempty
    exact execSpillQueueRead_asks hserves hmode hacts hhead htype hdir hroom htake hempty p
  · intro s q r e hserves hmode hin hreq hhead hfilled hrange hbad hcredit
    obtain ⟨t, hexec, hentries, hout⟩ := execSpillQueueRead_sends hserves hmode hin hreq hhead hfilled hrange hbad hcredit
    refine ⟨t, hexec, hentries, ?_⟩
    rw [hout, spillBeats, List.map_append]
    split <;> rfl

end Sys2Proof.Machine
end

section
/-! PROOF. The channels are refreshed, calibrated, patrolled and retrained, the descriptor store is scrubbed, and a circular wait is broken (R222, R223,
R224, R225, R226, R253, R416, R506). -/

namespace Sys2Proof.Machine

theorem channelOf_advance (s : State) (t : Fc) (c : Nat) : channelOf (advance s t) c = channelOf s c := rfl

theorem setChannel_lpddr (s : State) (c : Nat) (x : Channel) : (setChannel s c x).feed.lpddr = s.feed.lpddr := rfl

theorem count_feed (s : State) (k : Nat × Nat) (n : Nat) : (count s k n).feed = s.feed := by simp

/-! ### Refresh, ZQ and oscillator reads (R223) -/

theorem slotsTaken_trained (ch : Channel) (k n : Nat) : (slotsTaken ch k n).trained = ch.trained := rfl

section
variable {s : State} {c : Nat} (hc : c < Config.channels)
include hc

theorem execZqCalibration_eq (ht : reaches s (zqPeriod * ((channelOf s c).zqRuns + 1)) = true) :
    execZqCalibration c s = .next (maintain (advance s (zqPeriod * ((channelOf s c).zqRuns + 1))) c 0 (fun ch => { ch with zqRuns := ch.zqRuns + 1 })) := by
  unfold execZqCalibration
  rw [if_pos ⟨hc, ht⟩]
  rfl

section
variable {v : Nat} (hstate : (channelOf s c).state = .serving) (ht : reaches s (oscPeriod * ((channelOf s c).oscReads + 1)) = true)
include hstate ht

/-- The value read counts against the one at the last training. -/
theorem execDqsOscillatorRead_trained {tr : Nat} (htrained : (channelOf s c).trained = some tr) :
    let x := channelOf s c
    let t := advance s (oscPeriod * (x.oscReads + 1))
    execDqsOscillatorRead c v s = .next (setChannel t c { slotsTaken x (nextSlot t x) 1 with
      osc := v, oscReads := x.oscReads + 1, needsTraining := x.needsTraining || drifted s.feed.driftThreshold tr v }) := by
  unfold execDqsOscillatorRead
  rw [if_pos ⟨hc, hstate, ht⟩]
  unfold maintain
  simp only [slotsTaken_trained, channelOf_advance, htrained]
  rfl

/-- On a channel never trained the first value read stands for the one at the last training. -/
theorem execDqsOscillatorRead_untrained (htrained : (channelOf s c).trained = none) :
    let x := channelOf s c
    let t := advance s (oscPeriod * (x.oscReads + 1))
    execDqsOscillatorRead c v s = .next (setChannel t c { slotsTaken x (nextSlot t x) 1 with
      osc := v, oscReads := x.oscReads + 1, trained := some v }) := by
  unfold execDqsOscillatorRead
  rw [if_pos ⟨hc, hstate, ht⟩]
  unfold maintain
  simp only [slotsTaken_trained, channelOf_advance, htrained]
  rfl

end

end

/-! ### The patrol (R223, R226) -/

/-- What the patrol does with the lines that it meets in a block. -/
def patrolLines (s : State) (c block : Nat) (found : List ReturnedLine) (mirror : Ecc) : State :=
  (found.take 7).zipIdx.foldl (fun x p =>
    patrolLine (linkCounts x c p.1.link) (blockLine c block p.2) (if p.1.link = .failed then .uncorrectable else p.1.ecc) mirror) s

theorem feedTables_patrolLines (s : State) (c block : Nat) (found : List ReturnedLine) (mirror : Ecc) :
    feedTables (patrolLines s c block found mirror) = feedTables s :=
  feedTables_foldl (fun x p => by rw [feedTables_patrolLine, feedTables_linkCounts]) _ s

theorem patrolLines_now (s : State) (c block : Nat) (found : List ReturnedLine) (mirror : Ecc) : (patrolLines s c block found mirror).now = s.now :=
  (Moves.foldl (m := 0x119581e) (Moves.refl s) fun _ _ h => moves_patrolLine rfl (moves_linkCounts rfl h)).frame.b0 rfl

/-- The block is behind the patrol of its channel, which has used the block's check line (R197). -/
def patrolCounts (s : State) (c n : Nat) (chk : List (Nat × Bool) × Nat) : State :=
  maintain (countChannel s c 2 chk.2) c (7 + chk.2) (fun ch => { ch with patrolled := n + 1, checkBuf := chk.1 })

/-- The passes that the patrol has made over every channel. -/
def setPasses (s : State) (passes : Nat) : State := { s with feed := { s.feed with patrolPasses := passes } }

theorem setPasses_frame (s : State) (passes : Nat) :
    (setPasses s passes).now = s.now ∧ (setPasses s passes).feed.lpddr = s.feed.lpddr ∧ (setPasses s passes).feed.channels = s.feed.channels :=
  ⟨rfl, rfl, rfl⟩

theorem patrolCounts_frame (s : State) (c n : Nat) (chk : List (Nat × Bool) × Nat) :
    (patrolCounts s c n chk).now = s.now ∧ (patrolCounts s c n chk).feed.lpddr = s.feed.lpddr ∧
    (c < s.feed.channels.length → (channelOf (patrolCounts s c n chk) c).patrolled = n + 1) := by
  have hfeed := countChannel_feed s c 2 chk.2
  have hnow : (countChannel s c 2 chk.2).now = s.now := (moves_countChannel (msk := 0x10000e) rfl (Moves.refl s)).frame.b0 rfl
  unfold patrolCounts maintain
  refine ⟨?_, ?_, fun hlt => ?_⟩
  · rw [(setChannel_frame _ _ _).1, hnow]
  · rw [setChannel_lpddr, hfeed]
  · rw [channelOf_setChannel _ _ (by rwa [hfeed])]

theorem execPatrolBlock_eq {s : State} {c : Nat} (hc : c < Config.channels) (hstate : (channelOf s c).state = .serving)
    (ht : reaches s (patrolPeriod * ((channelOf s c).patrolled + 1)) = true) (found : List ReturnedLine) (mirror : Ecc) :
    ∃ chk passes, execPatrolBlock c found mirror s = .next (setPasses (patrolCounts (patrolLines (advance s
      (patrolPeriod * ((channelOf s c).patrolled + 1))) c ((channelOf s c).patrolled % blocksPerChannel) found mirror) c (channelOf s c).patrolled chk)
      passes) := by
  unfold execPatrolBlock
  simp only [Nat.not_le.mpr hc, hstate, ht, ne_eq, not_true_eq_false, Bool.not_true, Bool.false_eq_true, or_self, if_false]
  exact ⟨_, _, rfl⟩

/-- A patrol that meets no line of its block counts the block and changes no byte. -/
theorem patrol_frame {s : State} {c : Nat} (hlt : c < s.feed.channels.length) (t : Fc) (block n : Nat) (found : List ReturnedLine) (mirror : Ecc)
    (chk : List (Nat × Bool) × Nat) (passes : Nat) :
    (channelOf (setPasses (patrolCounts (patrolLines (advance s t) c block found mirror) c n chk) passes) c).patrolled = n + 1 ∧
    (found = [] → (setPasses (patrolCounts (patrolLines (advance s t) c block found mirror) c n chk) passes).feed.lpddr = s.feed.lpddr) ∧
    (setPasses (patrolCounts (patrolLines (advance s t) c block found mirror) c n chk) passes).now = max s.now t := by
  obtain ⟨hnow, hlpddr, hcount⟩ := patrolCounts_frame (patrolLines (advance s t) c block found mirror) c n chk
  obtain ⟨hnow', hlpddr', hchannels⟩ := setPasses_frame (patrolCounts (patrolLines (advance s t) c block found mirror) c n chk) passes
  have hlines := channels_of_feedTables (feedTables_patrolLines (advance s t) c block found mirror)
  refine ⟨?_, fun hfound => ?_, ?_⟩
  · rw [channelOf_of_channels hchannels]
    exact hcount (by rw [hlines]; exact hlt)
  · rw [hlpddr', hlpddr, hfound]
    rfl
  · rw [hnow', hnow, patrolLines_now]
    rfl

/-! ### Retraining (R224, R225) -/

theorem execRetrainingWindowStart_eq {s : State} {c : Nat} (hc : c < Config.channels) (hwants : wantsTraining s c = true) (hone : anyRetraining s = false)
    (hruns : s.hal.halt = .running ∨ s.hal.halt = .pending) (hfirst : (List.range c).any (wantsTraining s) = false) :
    execRetrainingWindowStart c s = .next (redirectReads (count (setChannel s c { channelOf s c with state := .retraining, secondWindow := false })
      (unitCounter (channelSite c) 5) 1) c) := by
  have hhalt : ¬ (s.hal.halt ≠ .running ∧ s.hal.halt ≠ .pending) := fun h => hruns.elim h.1 h.2
  unfold execRetrainingWindowStart
  simp only [Nat.not_le.mpr hc, hwants, hone, hhalt, hfirst, Bool.not_true, Bool.false_eq_true, or_self, if_false]
  rfl

/-- The channel whose window begins is RETRAINING, wherever its reads go. -/
theorem state_retrainingWindow {s : State} {c : Nat} (hlt : c < s.feed.channels.length) (k : Nat × Nat) :
    (channelOf (redirectReads (count (setChannel s c { channelOf s c with state := .retraining, secondWindow := false }) k 1) c) c).state = .retraining := by
  rw [state_of_chanStates (chanStates_redirectReads _ c), channelOf_of_channels (congrArg Feed.channels (count_feed _ k 1)), channelOf_setChannel _ _ hlt]

section
variable {s : State} {c : Nat} (hstate : (channelOf s c).state = .retraining)
include hstate

theorem execRetrainingWindowEnd_succeeds :
    execRetrainingWindowEnd c true s = .next (calibrateStep (channelServes (setChannel s c
      { channelOf s c with state := .serving, needsTraining := false, secondWindow := false, trained := some (channelOf s c).osc }) c) c stOK) := by
  unfold execRetrainingWindowEnd
  simp only [hstate, ne_eq, not_true_eq_false, if_false, if_true]
  rfl

theorem execRetrainingWindowEnd_again (hsecond : (channelOf s c).secondWindow = false) :
    execRetrainingWindowEnd c false s = .next (count (setChannel s c { channelOf s c with secondWindow := true }) (unitCounter (channelSite c) 5) 1) := by
  unfold execRetrainingWindowEnd
  simp only [hstate, hsecond, ne_eq, not_true_eq_false, Bool.not_false, Bool.false_eq_true, if_false, if_true]
  rfl

theorem execRetrainingWindowEnd_fails (hsecond : (channelOf s c).secondWindow = true) :
    execRetrainingWindowEnd c false s = .next (calibrateStep (channelServes (loseChannel s 0x0742 c 0 0) c) c stDenied) := by
  unfold execRetrainingWindowEnd
  simp only [hstate, hsecond, ne_eq, not_true_eq_false, Bool.not_true, Bool.false_eq_true, if_false]
  rfl

end

/-! ### CALIBRATE (R225, R416) -/

section
variable {s : State} {p : Packet} (hp : pktOnly p [(2, 0xFFFFFFFF)] = true) (hu : siteAbsent (pktDw p 2) = false)
include hp hu

theorem calibrateChannel_pends (hk : siteKind (pktDw p 2) = 11) (hthere : sitePresent (pktDw p 2) = true)
    (hlost : (channelOf s (siteSub (pktDw p 2))).state ≠ .lost) (hone : calibrating s (siteSub (pktDw p 2)) = false)
    (hall : isPending s (fun k => k == .calibrateAll) = false) : calibrateChannel s p = .pend (.calibrate (siteSub (pktDw p 2))) s := by
  unfold calibrateChannel
  simp only [hp, hu, hk, hthere, hlost, hone, hall, Bool.not_true, bne_self_eq_false, Bool.or_self, Bool.false_eq_true, if_false]

theorem calibrateAllChannels_pends {k : Nat} (hsite : pktDw p 2 = allChannels) (hnone : anyCalibrate s = false)
    (hfirst : (List.range Config.channels).find? (fun k => (channelOf s k).state == .serving) = some k) :
    calibrateAllChannels s p = .pend .calibrateAll { s with feed := { s.feed with calibrating := some k } } := by
  unfold calibrateAllChannels
  simp only [hp, hu, hnone, hfirst, Bool.not_true, Bool.false_or, Bool.false_eq_true, if_false]
  rw [hsite, bne_self_eq_false, if_neg Bool.false_ne_true]

theorem calibrateLane_completes (hthere : sitePresent (pktDw p 2) = true) (h w : Nat) :
    calibrateLane h w s p = .finish stOK (h % 2 ^ 16 + w % 2 ^ 8 * 2 ^ 16 + b2n (lget s.lanes.lock (siteSub (pktDw p 2)) false) * 2 ^ 24) []
      (calibrated s (pktDw p 2) stOK) := by
  unfold calibrateLane
  simp only [hp, hu, hthere, Bool.not_true, Bool.or_self, Bool.false_eq_true, if_false]
  rfl

end

/-! ### The descriptor store (R253) -/

/-- The store word's rewrite has ended. -/
def rewriteEnded (s : State) (dir : Nat) : State :=
  { s with feed := { s.feed with rewriting := s.feed.rewriting.filter (fun d => decide (d ≠ dir)) } }

section
variable {s : State} {w : Nat} {p : StoredProgram} (hp : programAt s w = some p)
include hp

theorem execDescStoreScrub_single : execDescStoreScrub w .single s = .next (fault s 0x0806 0 (programSite s p) 0 0) := by
  unfold execDescStoreScrub
  rw [hp]
  rfl

theorem execDescStoreScrub_uncorrectable :
    execDescStoreScrub w .uncorrectable s = .next { s with feed := { s.feed with rewriting := addNew s.feed.rewriting p.dir } } := by
  unfold execDescStoreScrub
  rw [hp]
  rfl

theorem execDescRewriteDone_succeeds (hrewriting : p.dir ∈ s.feed.rewriting) :
    execDescRewriteDone w true s = .next (fault (rewriteEnded s p.dir) 0x0807 0 (programSite s p) 0 0) := by
  unfold execDescRewriteDone
  simp only [hp, List.contains_iff_mem.mpr hrewriting, Bool.not_true, Bool.false_eq_true, if_false, if_true]
  rfl

end

/-! ### Circular waits (R222) -/

/-- The fc in which a cycle has stood for its window since its closing edge was formed. -/
def cycleTurn (s : State) (edge : Nat × Nat × Nat × Fc) : State := advance s (edge.2.2.2 + 2 ^ max 10 s.feed.cycleWindow)

/-- The part when the cycle's victim has lost the oldest frame that it feeds, behind the two records. -/
def cycleBroken (s : State) (edge : Nat × Nat × Nat × Fc) (edges : List (Nat × Nat × Nat × Fc)) (v : Nat) : State :=
  let s1 := cycleTurn s edge
  let streams := dedup (edges.flatMap (fun e => [e.1, e.2.1]))
  let fr := (oldestFed s1 (dedup (edges.map (fun e => e.2.2.1))) v).getD 0
  let noted := faultFrame s1 0x0720 4 (portSite edge.2.2.1 0x00FF) v fr (dw (if edge.2.1 = v then edge.1 else edge.2.1))
    (dw ((streams.map (fun st => 2 ^ st)).foldl (· + ·) 0))
  feedDrop (abortRecord noted 0x0721 (portSite edge.2.2.1 0) v fr 0 0) v fr 0x0721

theorem feedDrop_now (s : State) (st frame code : Nat) : (feedDrop s st frame code).now = s.now :=
  (moves_feedDrop (msk := 0x180c6e) rfl (Moves.refl s)).frame.b0 rfl

theorem cycleBroken_now (s : State) (edge : Nat × Nat × Nat × Fc) (edges : List (Nat × Nat × Nat × Fc)) (v : Nat) :
    (cycleBroken s edge edges v).now = (cycleTurn s edge).now := by
  unfold cycleBroken
  extract_lets s1 streams fr noted
  have hnoted : noted.now = s1.now := (faultFrame_frame _ _ _ _ _ _ _ _).1
  clear_value noted fr
  rw [feedDrop_now, (abortRecord_frame _ _ _ _ _ _ _).1]
  exact hnoted

/-- The wait edges of a cycle end. -/
def edgesGone (s : State) (edges : List (Nat × Nat × Nat × Fc)) : State :=
  { s with feed := { s.feed with edges := s.feed.edges.filter (fun e => !edges.contains e) } }

theorem execCircularWaitExpiry_eq {s : State} {edge : Nat × Nat × Nat × Fc} {edges : List (Nat × Nat × Nat × Fc)} {v : Nat}
    (hcycle : firstCycle s.feed.edges = some (edge, edges)) (hruns : fabricRuns (cycleTurn s edge) = true)
    (hvictim : cycleVictim (cycleTurn s edge) (dedup (edges.map (fun e => e.2.2.1))) (dedup (edges.flatMap (fun e => [e.1, e.2.1]))) = some v) :
    execCircularWaitExpiry s = .next (edgesGone (cycleBroken s edge edges v) edges) := by
  unfold cycleTurn at hruns hvictim
  unfold execCircularWaitExpiry
  simp only [hcycle, hruns, hvictim, Bool.not_true, Bool.false_eq_true, if_false]
  exact congrArg (fun x => Host.Outcome.next (edgesGone x edges)) rfl

/-- Settles O42: each command by its equation; the patrol's count and the state of a window's channel are read back behind the records and the reads
that go elsewhere. -/
theorem channelsAreMaintained : Obligations.ChannelsAreMaintained := by
  refine ⟨?_, ?_, ?_, fun s v => rfl, ?_⟩
  · intro s c v hlen hc hc32 x
    have hlt : c < s.feed.channels.length := hlen ▸ hc32
    refine ⟨fun b => rfl, execZqCalibration_eq hc, fun hstate ht => ⟨fun tr => execDqsOscillatorRead_trained hc hstate ht,
      execDqsOscillatorRead_untrained hc hstate ht⟩, ?_, ?_, execRetrainingWindowEnd_succeeds, execRetrainingWindowEnd_again,
      execRetrainingWindowEnd_fails⟩
    · intro hstate ht found mirror
      obtain ⟨chk, passes, hexec⟩ := execPatrolBlock_eq hc hstate ht found mirror
      exact ⟨_, hexec, patrol_frame hlt _ _ _ _ _ _ _⟩
    · intro hwants hone hruns hfirst
      exact ⟨_, execRetrainingWindowStart_eq hc hwants hone hruns hfirst, state_retrainingWindow hlt _⟩
  · intro s c s1 u hp hu
    refine ⟨fun hready hroom hk hthere hlost hone hall => ?_, fun k hready hroom hsite hnone hfirst => ?_, fun h w hready hthere => ?_⟩
    · exact takeCmd_pend hready hroom (calibrateChannel_pends hp hu hk hthere hlost hone hall)
    · exact takeCmd_pend hready hroom (calibrateAllChannels_pends hp hu hsite hnone hfirst)
    · exact takeCmd_finish hready (calibrateLane_completes hp hu hthere h w)
  · intro s w p hp
    refine ⟨execDescStoreScrub_single hp, ⟨_, execDescStoreScrub_uncorrectable hp, ?_⟩, fun hrewriting =>
      ⟨_, execDescRewriteDone_succeeds hp hrewriting, ?_⟩⟩
    · exact mem_addNew _ _
    · simp [rewriteEnded]
  · intro s edge edges v
    dsimp only
    intro hcycle hruns hvictim
    exact ⟨cycleBroken s edge edges v, rfl, cycleBroken_now s edge edges v, execCircularWaitExpiry_eq hcycle hruns hvictim⟩

end Sys2Proof.Machine
end

section
/-! PROOF. DESC_ARM arms a host descriptor or waits behind its buffer, and a disarm ends it (R250, R251). -/

namespace Sys2Proof.Machine

/-- The part has every stream that DESC_ARM can name. -/
theorem descArm_stream_present (p : Packet) : ¬ Config.streams ≤ dbits (pktDw p 2) 4 0 := Nat.not_le.mpr (dbits_stream_lt _)

section
variable {s : State} {p : Packet} (hp : pktOnly p [(2, 0x311F), (3, 0xFFFFFFFF), (4, 0xFFFFFFFF), (5, 0xFFFF001F)] = true)
  (haddr : (descParams p).addr % 4096 = 0) (hlow : 7 ≤ (descParams p).slotLog2) (hhigh : (descParams p).slotLog2 ≤ 24)
  (hsize : (descParams p).slots * 2 ^ (descParams p).slotLog2 ≤ 2 ^ 32)
include hp haddr hlow hhigh hsize

/-- Parameters within the bounds of R250 pass the check of DESC_ARM. -/
theorem descArm_params_ok :
    ¬ (!pktOnly p [(2, 0x311F), (3, 0xFFFFFFFF), (4, 0xFFFFFFFF), (5, 0xFFFF001F)] || (descParams p).addr % 4096 != 0
      || decide ((descParams p).slotLog2 < 7) || decide (24 < (descParams p).slotLog2)
      || decide (2 ^ 32 < (descParams p).slots * 2 ^ (descParams p).slotLog2)) = true := by
  simp only [hp, haddr, Nat.not_lt.mpr hlow, Nat.not_lt.mpr hhigh, Nat.not_lt.mpr hsize]
  decide

theorem descArm_arms (h : (streamOf s (dbits (pktDw p 2) 4 0)).desc.state = .idle ∨ (streamOf s (dbits (pktDw p 2) 4 0)).desc.state = .exhausted) :
    let st := dbits (pktDw p 2) 4 0
    let d := (streamOf s st).desc
    descArm s p = okAt (setDesc s st { d with
      state := .active, buf := some (descParams p), heldBuf := none, nextSlot := 0, seq := seqNext d.seq }) (seqNext d.seq) := by
  unfold descArm
  dsimp only
  rw [if_neg (descArm_stream_present p), if_neg (descArm_params_ok hp haddr hlow hhigh hsize)]
  rcases h with h | h <;> rw [h]

theorem descArm_waits (h : (streamOf s (dbits (pktDw p 2) 4 0)).desc.state = .active) :
    let st := dbits (pktDw p 2) 4 0
    descArm s p = .pend (.descArm st) (setDesc s st { (streamOf s st).desc with state := .pending, heldBuf := some (descParams p) }) := by
  unfold descArm
  dsimp only
  rw [if_neg (descArm_stream_present p), if_neg (descArm_params_ok hp haddr hlow hhigh hsize), h]

end

section
variable {s : State} {p : Packet} (hp : pktOnly p [(2, 0x311F), (3, 0xFFFFFFFF), (4, 0xFFFFFFFF), (5, 0xFFFFFFFF)] = true)
include hp

theorem descDisarm_idle (h : (streamOf s (dbits (pktDw p 2) 4 0)).desc.state = .idle ∨ (streamOf s (dbits (pktDw p 2) 4 0)).desc.state = .exhausted) :
    let st := dbits (pktDw p 2) 4 0
    descDisarm s p = okAt (setDesc s st { (streamOf s st).desc with state := .idle, buf := none }) := by
  unfold descDisarm
  dsimp only
  rw [if_neg (descArm_stream_present p), hp, if_neg (by decide)]
  rcases h with h | h <;> rw [h]

/-- A descriptor with a buffer stops at once where no record is open, else once the record has ended (R251). -/
theorem descDisarm_armed
    (h : (streamOf s (dbits (pktDw p 2) 4 0)).desc.state = .active ∨ (streamOf s (dbits (pktDw p 2) 4 0)).desc.state = .pending) :
    let st := dbits (pktDw p 2) 4 0
    let d := (streamOf s st).desc
    descDisarm s p = if d.record.isSome then .pend (.descDisarm st) (setDesc s st { d with disarming := true }) else okAt (descStops s st) := by
  unfold descDisarm
  dsimp only
  rw [if_neg (descArm_stream_present p), hp, if_neg (by decide)]
  rcases h with h | h <;> rw [h]

end

/-- Settles O22: each verdict at the take, by the state in which the command finds the descriptor. -/
theorem descriptorsArmAndDisarm : Obligations.DescriptorsArmAndDisarm := by
  refine ⟨?_, ?_⟩
  · intro s c s1 st b d hready hp haddr hlow hhigh hsize
    exact ⟨fun h => takeCmd_finish hready (descArm_arms hp haddr hlow hhigh hsize h),
      fun h hroom => takeCmd_pend hready hroom (descArm_waits hp haddr hlow hhigh hsize h)⟩
  · intro s c s1 st d hready hp
    refine ⟨fun h => takeCmd_finish hready (descDisarm_idle hp h), fun h hnone => ?_, fun h hopen hroom => ?_⟩
    · exact takeCmd_finish hready ((descDisarm_armed hp h).trans (if_neg (by simp [s1, st, d, hnone])))
    · exact takeCmd_pend hready hroom ((descDisarm_armed hp h).trans (if_pos (Option.isSome_iff_ne_none.mpr hopen)))

end Sys2Proof.Machine
end

section
/-! PROOF. What has gone out of the part stays out, and events, counters, trace records and completions leave its access to host memory as it is (R358). -/

namespace Sys2Proof.Machine

/-- What has gone out stays at the front of what goes out, and the access to host memory is as before. -/
structure Emits (s t : State) : Prop where
  sent : s.out <+: t.out
  access : hostUp t = hostUp s

namespace Emits

theorem of_access {s t : State} (hout : t.out = s.out) (haccess : hostUp t = hostUp s) : Emits s t :=
  ⟨⟨[], (List.append_nil _).trans hout.symm⟩, haccess⟩

theorem of_eq {s t : State} (hout : t.out = s.out) (hhif : t.hif = s.hif) : Emits s t := of_access hout (by unfold hostUp; rw [hhif])

theorem refl (s : State) : Emits s s := of_eq rfl rfl

theorem trans {s t u : State} (h : Emits s t) (g : Emits t u) : Emits s u := ⟨h.sent.trans g.sent, g.access.trans h.access⟩

/-- An operation under a mask without the output and the host interface. -/
theorem of_moves {s t : State} (h : Moves 0x1fffff9 s t) : Emits s t := of_eq (h.frame.b1 rfl) (h.frame.b2 rfl)

theorem mem {s t : State} (h : Emits s t) {o : Output} (ho : o ∈ s.out) : o ∈ t.out := h.sent.subset ho

theorem ite {s t u : State} {p : Prop} [Decidable p] (h : Emits s t) (g : Emits s u) : Emits s (if p then t else u) := by
  split
  · exact h
  · exact g

theorem foldl {α : Type} {f : State → α → State} (h : ∀ x a, Emits x (f x a)) (l : List α) (s : State) : Emits s (l.foldl f s) := by
  induction l generalizing s with
  | nil => exact refl s
  | cons a l ih => exact (h s a).trans (ih (f s a))

end Emits

theorem emits_emit (s : State) (o : Output) : Emits s (emit s o) := ⟨⟨_, rfl⟩, rfl⟩

theorem emits_emitWrites (s : State) (ws : List (Nat × List Byte)) : Emits s (emitWrites s ws) := ⟨⟨_, rfl⟩, rfl⟩

/-! ### Records and messages (R367 to R372) -/

theorem emits_setLog (s : State) (fast : Bool) (l : EvtLog) : Emits s (setLog s fast l) := by
  cases fast <;> exact .of_eq rfl rfl

theorem emits_rcNote (s : State) (off old : Nat) : Emits s (rcNote s off old) := .of_moves (moves_rcNote rfl (Moves.refl s))

theorem emits_logPut (s : State) (fast : Bool) (r : LogRecord) : Emits s (logPut s fast r) := by
  unfold logPut
  exact .ite ((emits_setLog _ _ _).trans (emits_emitWrites _ _)) (.ite (emits_setLog _ _ _) ((emits_rcNote _ _ _).trans (emits_setLog _ _ _)))

theorem emits_sendMessage (s : State) (v : Nat) : Emits s (sendMessage s v) := by
  unfold sendMessage
  exact .ite (.of_access rfl rfl) ⟨⟨_, rfl⟩, rfl⟩

theorem emits_sendBehind (s : State) (v : Nat) (r : Option (Bool × Nat)) : Emits s (sendBehind s v r) := by
  unfold sendBehind
  split
  · split
    · refine .of_access rfl ?_
      unfold hostUp
      dsimp only
      split <;> rfl
    · exact emits_sendMessage _ _
  · exact emits_sendMessage _ _

theorem emits_deliverFast (s : State) (v : Nat) (was : Bool) (r : Option (Bool × Nat)) : Emits s (deliverFast s v was r) := by
  unfold deliverFast
  exact .ite (.refl s) (emits_sendBehind _ _ _)

theorem emits_deliverNormal (s : State) (v : Nat) (r : Option (Bool × Nat)) : Emits s (deliverNormal s v r) := by
  unfold deliverNormal
  extract_lets e put n behind
  split
  · exact Emits.trans (t := put s _) (.of_eq rfl rfl) (emits_sendBehind _ _ _)
  · exact .of_eq rfl rfl

theorem emits_fireSource (s : State) (n : Nat) (r : Option LogRecord) : Emits s (fireSource s n r) := by
  unfold fireSource
  extract_lets c tag l s0 s1 again c' _ s2
  have h1 : Emits s s1 := by
    unfold s1
    split
    · exact .refl s
    · extract_lets r
      have h0 : Emits s s0 := emits_setLog _ _ _
      refine h0.trans (Emits.trans ?_ (emits_logPut _ _ _))
      exact .ite (.of_eq rfl rfl) (.refl s0)
  have h2 : Emits s s2 := h1.trans (.of_eq rfl rfl)
  exact .ite (.refl s) (.ite h2 (.ite (h2.trans (emits_deliverFast _ _ _ _)) (h2.trans (emits_deliverNormal _ _ _))))

theorem emits_postStream (s : State) (st code : Nat) (frame : Dword) (time : Fc) (detail : Nat) : Emits s (postStream s st code frame time detail) := by
  unfold postStream postEvent
  exact emits_fireSource _ _ _

theorem emits_postDev (s : State) (source code : Nat) (site : Site) (time : Fc) (detail : Nat) : Emits s (postDev s source code site time detail) := by
  unfold postDev postEvent
  exact emits_fireSource _ _ _

/-! ### Counters and trace records (R436 to R450) -/

theorem emits_tally (s : State) (t : Tally) : Emits s (tally s t) := by
  unfold tally foldCounters
  extract_lets c full s1
  have h1 : Emits s s1 := Emits.trans (t := { s with cnt := c }) (.of_eq rfl rfl) (Emits.foldl (fun _ _ => emits_postDev _ _ _ _ _ _) _ _)
  exact h1.trans (.of_eq rfl rfl)

theorem emits_count (s : State) (k : Nat × Nat) (n : Nat) : Emits s (count s k n) := by
  unfold count
  exact .ite (.refl s) (emits_tally _ _)

theorem emits_countEvent (s : State) (ev : Nat) (site : Site) (stream : Option Nat) (addr cls : Nat) (priv : Bool) :
    Emits s (countEvent s ev site stream addr cls priv) := emits_tally _ _

theorem emits_traceEnter (s : State) (r : TraceRec) : Emits s (traceEnter s r) := by
  unfold traceEnter
  extract_lets b gap _ s1 b' s0 _ s2 s3
  split
  · exact .ite (Emits.trans (t := s1) (.of_eq rfl rfl) (emits_count _ _ _)) (.of_eq rfl rfl)
  · have h3 : Emits s s3 := ((emits_rcNote _ _ _).trans (t := s0) (u := s2) (.of_eq rfl rfl)).trans (emits_count _ _ _)
    exact .ite (h3.trans (emits_postDev _ _ _ _ _ _)) h3

theorem emits_traceTrigger (s : State) (src byType buf : Nat) : Emits s (traceTrigger s src byType buf) := by
  unfold traceTrigger
  extract_lets r _ s1 first
  split
  · exact .ite (Emits.trans (t := s1) (.of_eq rfl rfl) (emits_postDev _ _ _ _ _ _)) (emits_traceEnter _ _)
  · refine Emits.trans ?_ (emits_count _ _ _)
    exact .ite (.of_eq rfl rfl) (.refl s)
  · exact .refl s

theorem emits_traceAt (s : State) (type : Nat) (site : Site) (stream : Option Nat) (frame d0 d1 d2 : Dword) (time : Fc) :
    Emits s (traceAt s type site stream frame d0 d1 d2 time) := by
  unfold traceAt
  extract_lets r s1
  have h1 : Emits s s1 := emits_traceEnter _ _
  exact .ite (.ite (h1.trans (emits_traceTrigger _ _ _ _)) h1) (.refl s)

theorem emits_traceNow (s : State) (type : Nat) (site : Site) (stream : Option Nat) (frame : Dword) (d0 d1 d2 : Nat) :
    Emits s (traceNow s type site stream frame d0 d1 d2) := emits_traceAt _ _ _ _ _ _ _ _ _

/-! ### Completions (R344, R345, R356) -/

theorem emits_faultTraced (s : State) (code cls : Nat) (site : Site) (stream : Option Nat) (frame d0 d1 : Dword) (time : Fc) :
    Emits s (faultTraced s code cls site stream frame d0 d1 time) := by
  unfold faultTraced
  extract_lets s2 s3
  have h3 : Emits s s3 := (emits_countEvent _ _ _ _ _ _ _).trans (emits_traceAt _ _ _ _ _ _ _ _ _)
  exact .ite (h3.trans (emits_traceTrigger _ _ _ _)) h3

theorem emits_dataFails (s : State) (ring tag addr : Nat) : Emits s (dataFails s ring tag addr) := by
  unfold dataFails faultPlain
  exact (emits_fireSource _ _ _).trans (emits_faultTraced _ _ _ _ _ _ _ _ _)

theorem emits_setRing (s : State) (r : Nat) (x : Ring) : Emits s (setRing s r x) := .of_access rfl rfl

theorem emits_writeCompletion (s : State) (c : HeldCompletion) : Emits s (writeCompletion s c) := by
  unfold writeCompletion
  extract_lets x s0 s1 s2 s3
  have h0 : Emits s s0 := emits_emitWrites _ _
  have h2 : Emits s s2 := (h0.trans (emits_emit _ _)).trans (emits_setRing _ _ _)
  have h3 : Emits s s3 := .ite h2 (h2.trans ((emits_traceNow _ _ _ _ _ _ _ _).trans (emits_countEvent _ _ _ _ _ _ _)))
  exact .ite h0 (h3.trans (emits_fireSource _ _ _))

theorem emits_complete (s : State) (c : HeldCompletion) : Emits s (complete s c) := by
  unfold complete
  exact .ite (.refl s) (.ite (emits_dataFails _ _ _ _) (.ite (emits_writeCompletion _ _) (.of_access rfl rfl)))

theorem emits_finishPend (s : State) (c : PendCmd) (status : Nat) (detail : Dword) (time : Fc) (writes : List (Nat × List Byte)) :
    Emits s (finishPend s c status detail time writes) := by
  unfold finishPend
  extract_lets _ s1
  exact Emits.trans (t := s1) (.of_access rfl rfl) (emits_complete _ _)

theorem emits_finishFirst (s : State) (p : PendKind → Bool) (status : Nat) (detail : Dword) (time : Fc) :
    Emits s (finishFirst s p status detail time) := by
  unfold finishFirst
  split
  · exact emits_finishPend _ _ _ _ _ _
  · exact .refl s

theorem emits_finishEvery (s : State) (p : PendKind → Bool) (status : Nat) (detail : Dword) (time : Fc) :
    Emits s (finishEvery s p status detail time) := .foldl (fun _ _ => emits_finishPend _ _ _ _ _ _) _ _

/-! ### Streams, their host descriptors and their frames (R251, R324) -/

theorem emits_modStream (s : State) (st : Nat) (f : StreamCtx → StreamCtx) : Emits s (modStream s st f) := .of_eq rfl rfl

theorem emits_setDesc (s : State) (st : Nat) (d : HostDesc) : Emits s (setDesc s st d) := emits_modStream _ _ _

theorem emits_settleFrame (s : State) (st frame : Nat) : Emits s (settleFrame s st frame) := by
  unfold settleFrame
  split
  · extract_lets s1
    have h1 : Emits s s1 := .of_moves (moves_removeFrame rfl (Moves.refl s))
    exact .ite (.ite h1 (h1.trans ((emits_count _ _ _).trans (emits_countEvent _ _ _ _ _ _ _)))) (.refl s)
  · exact .refl s

theorem emits_descStops (s : State) (st : Nat) : Emits s (descStops s st) := by
  unfold descStops
  exact ((emits_finishEvery _ _ _ _ _).trans (emits_finishEvery _ _ _ _ _)).trans (emits_setDesc _ _ _)

theorem emits_bufferDone (s : State) (st : Nat) (b : DescBuf) : Emits s (bufferDone s st b) := by
  unfold bufferDone
  extract_lets d s1
  have h1 : Emits s s1 := .ite (emits_postStream _ _ _ _ _ _) (.refl s)
  split
  · exact h1
  · split
    · exact h1.trans ((emits_setDesc _ _ _).trans (emits_finishFirst _ _ _ _ _))
    · exact h1.trans (emits_setDesc _ _ _)

theorem emits_hostOver (s : State) (st frame : Nat) : Emits s (hostOver s st frame) := by
  unfold hostOver
  extract_lets s1 s2
  have h1 : Emits s s1 := emits_modStream _ _ _
  have h2 : Emits s s2 := .ite (h1.trans (emits_descStops _ _)) h1
  exact (h2.trans (emits_modStream _ _ _)).trans (emits_settleFrame _ _ _)

end Sys2Proof.Machine
end

section
/-! PROOF. The egress lanes send a frame from its FRAME_START to its FRAME_END (R309, R310, R316, R318 to R321). -/

namespace Sys2Proof.Machine

/-! ### What the egress and the host descriptor keep of a stream -/

/-- What the egress and the host descriptor keep of a stream. -/
def outlets (s : State) (st : Nat) : Option EgressRec × HostDesc := ((streamOf s st).egress, (streamOf s st).desc)

theorem egress_of_outlets {s t : State} {st : Nat} (h : outlets t st = outlets s st) : (streamOf t st).egress = (streamOf s st).egress :=
  congrArg Prod.fst h

theorem desc_of_outlets {s t : State} {st : Nat} (h : outlets t st = outlets s st) : (streamOf t st).desc = (streamOf s st).desc :=
  congrArg Prod.snd h

/-- What a change of a stream leaves alone, whether the stream exists or not. -/
theorem kept_modStream {β : Type} (g : StreamCtx → β) {s : State} {st : Nat} {f : StreamCtx → StreamCtx} (h : g (f (streamOf s st)) = g (streamOf s st)) :
    g (streamOf (modStream s st f) st) = g (streamOf s st) := by
  by_cases hl : st < s.streams.length
  · rw [streamOf_modStream _ _ hl, h]
  · have e : (modStream s st f).streams = s.streams := by
      unfold modStream lmod
      rw [List.getElem?_eq_none (Nat.le_of_not_lt hl)]
    rw [streamOf_of_streams e]

theorem outlets_of_streams {s t : State} (e : t.streams = s.streams) (st : Nat) : outlets t st = outlets s st := by
  unfold outlets
  rw [streamOf_of_streams e]

theorem outlets_modStream {s : State} {st : Nat} {f : StreamCtx → StreamCtx} (h : ∀ c, (f c).egress = c.egress ∧ (f c).desc = c.desc) :
    outlets (modStream s st f) st = outlets s st :=
  kept_modStream (fun c => (c.egress, c.desc)) (Prod.ext (h _).1 (h _).2)

@[simp] theorem outlets_modFrame (s : State) (st frame : Nat) (f : Frame → Frame) : outlets (modFrame s st frame f) st = outlets s st :=
  outlets_modStream fun _ => ⟨rfl, rfl⟩

@[simp] theorem outlets_settleFrame (s : State) (st frame : Nat) : outlets (settleFrame s st frame) st = outlets s st := by
  unfold settleFrame
  split
  · split
    · extract_lets s1
      have h1 : outlets s1 st = outlets s st := by
        unfold s1 removeFrame
        split
        · rfl
        · exact outlets_modStream fun _ => ⟨rfl, rfl⟩
      split
      · exact h1
      · exact (outlets_of_streams (by simp) st).trans h1
    · rfl
  · rfl

@[simp] theorem outlets_resultPop (s : State) (st : Nat) : outlets (resultPop s st) st = outlets s st := by
  unfold resultPop
  extract_lets s1
  have h1 : outlets s1 st = outlets s st := outlets_modStream fun _ => ⟨rfl, rfl⟩
  split
  next htake =>
    exact (outlets_of_streams (streams_of_moves ((moves_takeBeat (msk := offStreams) rfl (Moves.refl s1)).keeps htake)) st).trans h1
  next => exact h1

@[simp] theorem outlets_resultTaken (s : State) (st bit : Nat) : outlets (resultTaken s st bit) st = outlets s st := by
  unfold resultTaken
  extract_lets s1 c
  have h1 : outlets s1 st = outlets s st := outlets_modStream fun _ => ⟨rfl, rfl⟩
  split
  · exact (outlets_resultPop _ _).trans h1
  · exact h1

@[simp] theorem streamOf_traceNow (s : State) (type : Nat) (site : Site) (stream : Option Nat) (frame : Dword) (d0 d1 d2 k : Nat) :
    streamOf (traceNow s type site stream frame d0 d1 d2) k = streamOf s k :=
  streamOf_of_streams (streams_of_moves (moves_traceNow rfl (Moves.refl s))) k

theorem emits_resultTaken (s : State) (st bit : Nat) : Emits s (resultTaken s st bit) := .of_moves (moves_resultTaken rfl (Moves.refl s))

/-! ### Blocks (R309, R310) -/

@[simp] theorem emitBlocks_streams (s : State) (st : Nat) (l : List (Bool × Nat)) : (emitBlocks s st l).streams = s.streams :=
  streams_of_moves (moves_emitBlocks rfl (Moves.refl s))

theorem emitBlocks_out (s : State) (st : Nat) (l : List (Bool × Nat)) :
    (emitBlocks s st l).out = s.out ++ l.map (fun b => Output.egressBlock st b.1 (BitVec.ofNat 64 b.2)) := by
  unfold emitBlocks
  induction l generalizing s with
  | nil => simp
  | cons b l ih => rw [List.foldl_cons, ih, List.map_cons, emitBlock, emit_out, List.append_assoc]; rfl

theorem mem_emitBlocks {s : State} {st : Nat} {l : List (Bool × Nat)} {b : Bool × Nat} (h : b ∈ l) :
    Output.egressBlock st b.1 (BitVec.ofNat 64 b.2) ∈ (emitBlocks s st l).out := by
  rw [emitBlocks_out]
  exact List.mem_append_right _ (List.mem_map_of_mem h)

theorem emits_emitBlocks (s : State) (st : Nat) (l : List (Bool × Nat)) : Emits s (emitBlocks s st l) :=
  .foldl (fun _ _ => emits_emit _ _) _ _

theorem emits_egressSend (s : State) (st : Nat) (r : EgressRec) (bytes : List Byte) (last : Bool) : Emits s (egressSend s st r bytes last) := by
  unfold egressSend
  extract_lets head lineCrc runCrc tail blocks r'
  exact (emits_emitBlocks _ _ _).trans (emits_modStream _ _ _)

/-- The record that stands once bytes of a line have gone out: its frame, and the line that they leave open or end. -/
theorem egressSend_stream {s : State} {st : Nat} (r : EgressRec) (bytes : List Byte) (last : Bool) (h : st < s.streams.length) :
    ∃ e : EgressRec, streamOf (egressSend s st r bytes last) st = { streamOf s st with egress := some e } ∧
      e.frame = r.frame ∧ e.line = (if last then r.line + 1 else r.line) ∧ e.rowOpen = !last := by
  unfold egressSend
  extract_lets head lineCrc runCrc tail blocks r'
  refine ⟨r', ?_, rfl, rfl, rfl⟩
  rw [streamOf_modStream _ _ (by rw [emitBlocks_streams]; exact h), streamOf_of_streams (emitBlocks_streams _ _ _)]

theorem egressSend_length (s : State) (st : Nat) (r : EgressRec) (bytes : List Byte) (last : Bool) :
    (egressSend s st r bytes last).streams.length = s.streams.length := by
  unfold egressSend
  rw [modStream_length, emitBlocks_streams]

/-- No record is being sent once FRAME_END has gone out. -/
theorem egress_egressFinish {s : State} {st : Nat} (r : EgressRec) (aborted : Bool) (h : st < s.streams.length) :
    (streamOf (egressFinish s st r aborted) st).egress = none := by
  unfold egressFinish
  rw [streamOf_modStream _ _ (by rw [emitBlocks_streams]; exact h)]

theorem egressFinish_sends (s : State) (st : Nat) (r : EgressRec) (aborted : Bool) :
    Output.egressBlock st true (BitVec.ofNat 64 (frameEndWord r.frameCrc r.line aborted)) ∈ (egressFinish s st r aborted).out := by
  unfold egressFinish
  exact mem_emitBlocks (b := (true, _)) List.mem_cons_self

/-! ### FRAME_START (R318) -/

theorem egressBegin_stream {s : State} {st : Nat} (f : Frame) (h : st < s.streams.length) :
    (streamOf (egressBegin s st f) st).egress.map (fun e => (e.frame, e.line, e.rowOpen)) = some (f.id, 1, false) := by
  unfold egressBegin
  extract_lets c start s1
  obtain ⟨e, he, hframe, hline, hrow⟩ := egressSend_stream (s := s1) (st := st) { frame := f.id, line := 0 } (egressHeader st f s.now) true
    (by rw [emitBlocks_streams]; exact h)
  rw [he]
  simp [hframe, hline, hrow]

theorem egressBegin_sends (s : State) (st : Nat) (f : Frame) :
    Output.egressBlock st true (BitVec.ofNat 64 (if f.courier then f.start.toNat else resultStart f.id)) ∈ (egressBegin s st f).out := by
  unfold egressBegin
  extract_lets c start s1
  have hwidth : streamWidth c ≠ 0 := Nat.pos_iff_ne_zero.mp (Nat.two_pow_pos _)
  exact (emits_egressSend _ _ _ _ _).mem (mem_emitBlocks (b := (true, start)) (List.mem_replicate.mpr ⟨hwidth, rfl⟩))

/-- The start of the frame that the egress may begin. -/
theorem egressStart_eq {s : State} {st : Nat} {f : Frame} (hstop : s.hal.stopped = false) (hnone : (streamOf s st).egress = none)
    (hnext : egressNext s st = some f) (hmay : egressMayBegin s st f = true) :
    egressStart s st = if f.courier then egressBegin s st f
      else traceNow (egressBegin s st f) 0x001B (egressSite st) (some st) (dw f.id) 0 0 0 := by
  unfold egressStart
  rw [hstop, hnone, hnext]
  simp [hmay]

theorem egressStart_starts {s : State} {st : Nat} {f : Frame} (h : st < s.streams.length) (hstop : s.hal.stopped = false)
    (hnone : (streamOf s st).egress = none) (hnext : egressNext s st = some f) (hmay : egressMayBegin s st f = true) :
    (streamOf (egressStart s st) st).egress.map (fun e => (e.frame, e.line, e.rowOpen)) = some (f.id, 1, false) ∧
    Output.egressBlock st true (BitVec.ofNat 64 (if f.courier then f.start.toNat else resultStart f.id)) ∈ (egressStart s st).out := by
  have hbegun := egressBegin_stream f h
  have hsent := egressBegin_sends s st f
  rw [egressStart_eq hstop hnone hnext hmay]
  by_cases hc : f.courier = true
  · simp only [hc, if_true] at hsent ⊢
    exact ⟨hbegun, hsent⟩
  · rw [if_neg hc]
    refine ⟨?_, (emits_traceNow _ _ _ _ _ _ _ _).mem hsent⟩
    rw [streamOf_traceNow]
    exact hbegun

theorem egressStart_busy {s : State} {st : Nat} {e : EgressRec} (h : (streamOf s st).egress = some e) : egressStart s st = s := by
  simp [egressStart, h]

/-! ### Results (R319, R320) -/

/-- A counted beat of the frame being sent goes out, and with the last of a record the record ends. -/
theorem execEgressResultBeat_eq {s s1 : State} {st : Nat} {b : Beat} {r : ResRec} {e : EgressRec} (hmove : resultsMove s st = true)
    (hhead : resultHead s st 0 = (s1, some (b, r))) (he : (streamOf s1 st).egress = some e) (hframe : e.frame = r.frame) :
    execEgressResultBeat st s = .next (resultTaken (if r.ended then egressEnds (egressSend s1 st e (leBytes 64 b.data.toNat) (bLast b)) st r.frame
      else egressSend s1 st e (leBytes 64 b.data.toNat) (bLast b)) st 0) := by
  unfold execEgressResultBeat
  simp only [hmove, hhead, he, hframe, Bool.not_true, Bool.false_eq_true, if_false, if_true]
  rfl

theorem egress_egressEnds {s : State} {st : Nat} (frame : Nat) (h : st < s.streams.length) : (streamOf (egressEnds s st frame) st).egress = none := by
  unfold egressEnds
  split
  next r he =>
    extract_lets s1
    rw [egress_of_outlets ((outlets_settleFrame _ _ _).trans (outlets_modFrame _ _ _ _)), streamOf_traceNow]
    exact egress_egressFinish r false h
  next he => exact he

/-! ### Courier frames (R316, R321) -/

theorem courierLine_nil (frame : Nat) : courierLine [] frame = none := rfl

theorem courierLine_of_none {buf : List BufEntry} {frame : Nat} (h : buf.any (fun x => x.frame == frame) = false) : courierLine buf frame = none := by
  cases buf with
  | nil => rfl
  | cons x l =>
    have hx : x.frame ≠ frame := by simp at h; exact h.1
    simp [courierLine, hx]

theorem courierLines_none {s : State} {st frame : Nat} (n : Nat) (h : courierLine (streamOf s st).buffer frame = none) : courierLines n s st frame = s := by
  cases n with
  | zero => rfl
  | succ n => simp [courierLines, h]

/-- The part once one line of a courier frame has left the buffer for the lanes. -/
def courierLineSent (s : State) (st : Nat) (e : EgressRec) (bytes : List Byte) (rest : List BufEntry) : State :=
  egressSend (modStream s st (fun c => readEntries s.now c (c.buffer.length - rest.length) rest)) st e bytes true

theorem courierLineSent_stream {s : State} {st : Nat} (e : EgressRec) (bytes : List Byte) (rest : List BufEntry) (h : st < s.streams.length) :
    ∃ e' : EgressRec, (streamOf (courierLineSent s st e bytes rest) st).egress = some e' ∧ (streamOf (courierLineSent s st e bytes rest) st).buffer = rest := by
  unfold courierLineSent
  obtain ⟨e', he, -⟩ := egressSend_stream (s := modStream s st (fun c => readEntries s.now c (c.buffer.length - rest.length) rest)) (st := st) e bytes true
    (by rw [modStream_length]; exact h)
  rw [he, streamOf_modStream _ _ h]
  exact ⟨e', rfl, rfl⟩

theorem courierLines_one {s : State} {st frame l : Nat} {e : EgressRec} {bytes : List Byte} {rest : List BufEntry} (h : st < s.streams.length)
    (he : (streamOf s st).egress = some e) (hline : courierLine (streamOf s st).buffer frame = some (l, bytes, rest))
    (hrest : courierLine rest frame = none) :
    courierLines (streamOf s st).buffer.length s st frame = courierLineSent s st e bytes rest := by
  obtain ⟨n, hn⟩ : ∃ n, (streamOf s st).buffer.length = n + 1 := by
    cases hb : (streamOf s st).buffer with
    | nil => rw [hb, courierLine_nil] at hline; cases hline
    | cons x l => exact ⟨_, rfl⟩
  obtain ⟨-, -, hbuf⟩ := courierLineSent_stream e bytes rest h
  rw [hn]
  unfold courierLines
  rw [hline, he]
  refine courierLines_none n ?_
  change courierLine (streamOf (courierLineSent s st e bytes rest) st).buffer frame = none
  rw [hbuf, hrest]

section
variable {s : State} {st : Nat} {f : Frame} {e : EgressRec} (hst : st < Config.streams) (hstop : s.hal.stopped = false)
  (hnext : egressNext s st = some f) (hcourier : f.courier = true) (he : (streamOf s st).egress = some e)
include hst hstop hnext hcourier he

/-- More of the frame is to come: the line that stands whole goes out, and the record stays open. -/
theorem execCourierFrameForward_line {l : Nat} {bytes : List Byte} {rest : List BufEntry} (h : st < s.streams.length) (hmore : f.receiving = true)
    (hline : courierLine (streamOf s st).buffer f.id = some (l, bytes, rest)) (hrest : courierLine rest f.id = none) :
    execCourierFrameForward st s = .next (courierLineSent s st e bytes rest) := by
  obtain ⟨e', he', -⟩ := courierLineSent_stream e bytes rest h
  unfold execCourierFrameForward
  simp only [Nat.not_le.mpr hst, hstop, hnext, hcourier, hmore, egressStart_busy he, courierLines_one h he hline hrest, he', Bool.false_eq_true,
    Bool.not_true, or_self, false_and, and_false, if_false, if_true]
  rfl

/-- Nothing of the frame is left: its FRAME_END goes out. -/
theorem execCourierFrameForward_end (hframe : e.frame = f.id) (hover : f.receiving = false)
    (hsent : (streamOf s st).buffer.any (fun x => x.frame == f.id) = false) :
    execCourierFrameForward st s = .next (settleFrame (modFrame (egressFinish s st e false) st f.id
      (fun x => { x with ended := true, egressDone := true })) st f.id) := by
  unfold execCourierFrameForward
  simp only [Nat.not_le.mpr hst, hstop, hnext, hcourier, hover, hsent, hframe, egressStart_busy he, courierLines_none _ (courierLine_of_none hsent), he,
    Bool.false_eq_true, Bool.not_false, or_self, and_self, if_false, if_true]
  rfl

end

end Sys2Proof.Machine
end

section
/-! PROOF. The host record takes its slot, its beats and its seal (R247 to R249, R251), and with the egress the results leave by their paths. -/

namespace Sys2Proof.Machine

theorem mem_emitWrites {s : State} {ws : List (Nat × List Byte)} {w : Nat × List Byte} (h : w ∈ ws) : Output.hostWrite w.1 w.2 ∈ (emitWrites s ws).out :=
  List.mem_append_right _ (List.mem_map_of_mem h)

theorem desc_setDesc {s : State} {st : Nat} (d : HostDesc) (h : st < s.streams.length) : (streamOf (setDesc s st d) st).desc = d := by
  unfold setDesc
  rw [streamOf_modStream _ _ h]

theorem setDesc_setDesc {s : State} {st : Nat} (d d' : HostDesc) (h : st < s.streams.length) : setDesc (setDesc s st d) st d' = setDesc s st d' := by
  unfold setDesc modStream
  simp [lmod, h]

@[simp] theorem setDesc_length (s : State) (st : Nat) (d : HostDesc) : (setDesc s st d).streams.length = s.streams.length := modStream_length _ _ _

/-! ### The beats of a record (R248) -/

/-- One more beat of the record in progress stands in its slot, behind the header. -/
def beatWritten (s : State) (st : Nat) (buf : DescBuf) (x : HostRec) (b : Beat) (ended : Bool) : State :=
  setDesc (emitWrites s [(slotAddr buf x.slot + 64 + x.written, leBytes 64 b.data.toNat)]) st
    { (streamOf s st).desc with record := some { x with written := x.written + 64, lastWrite := s.now, ended := ended } }

theorem desc_beatWritten {s : State} {st : Nat} (buf : DescBuf) (x : HostRec) (b : Beat) (ended : Bool) (h : st < s.streams.length) :
    (streamOf (beatWritten s st buf x b ended) st).desc =
      { (streamOf s st).desc with record := some { x with written := x.written + 64, lastWrite := s.now, ended := ended } } :=
  desc_setDesc _ h

theorem beatWritten_sends (s : State) (st : Nat) (buf : DescBuf) (x : HostRec) (b : Beat) (ended : Bool) :
    Output.hostWrite (slotAddr buf x.slot + 64 + x.written) (leBytes 64 b.data.toNat) ∈ (beatWritten s st buf x b ended).out :=
  (emits_setDesc _ _ _).mem (mem_emitWrites (w := (_, _)) List.mem_cons_self)

section
variable {s : State} {st : Nat} {buf : DescBuf} {x : HostRec} (hbuf : (streamOf s st).desc.buf = some buf) (hup : hostUp s = true)
  (hopen : x.ended = false) (hfailed : x.failed = false) (hfits : 64 + x.written + 64 ≤ 2 ^ buf.slotLog2)
include hbuf hup hopen hfailed hfits

theorem hostBeat_fits (b : Beat) : hostBeat s st x b = beatWritten s st buf x b false := by
  unfold hostBeat beatWritten
  simp only [hbuf, hup, hopen, hfailed, Nat.not_lt.mpr hfits, Bool.not_true, Bool.false_eq_true, if_false]

/-- The beat, and with the last of a record the end that waits for the seal. -/
theorem hostBeat_hostEnds (b : Beat) (ended : Bool) (frame : Nat) (h : st < s.streams.length) :
    (if ended then hostEnds (hostBeat s st x b) st frame else hostBeat s st x b) = beatWritten s st buf x b ended := by
  rw [hostBeat_fits hbuf hup hopen hfailed hfits]
  cases ended with
  | false => rfl
  | true =>
    have hd := desc_beatWritten buf x b false h
    rw [if_pos rfl]
    unfold hostEnds
    rw [hd]
    dsimp only
    rw [if_neg (by simp [hfailed])]
    exact setDesc_setDesc (s := emitWrites s _) _ _ h

end

/-- Where the record of the beat at the results' input is in progress in `y`, the beat goes to its slot. -/
theorem execHostRecordWrite_eq {s s1 y : State} {st : Nat} {b : Beat} {r : ResRec} {x : HostRec} (hmove : resultsMove s st = true)
    (hhead : resultHead s st 1 = (s1, some (b, r))) (hwaits : (streamOf s1 st).desc.record.any (fun x => x.ended) = false)
    (hy : (if (frameOf (streamOf s1 st) r.frame).any (fun f => f.hostDone) || (streamOf s1 st).desc.record.isSome then s1 else hostBegin s1 st r) = y)
    (hx : (streamOf y st).desc.record = some x) :
    execHostRecordWrite st s = .next (resultTaken (if r.ended then hostEnds (hostBeat y st x b) st r.frame else hostBeat y st x b) st 1) := by
  unfold execHostRecordWrite
  simp only [hmove, hhead, hwaits, hy, hx, Bool.not_true, Bool.false_eq_true, if_false]
  rfl

/-- A beat of the record in progress. -/
theorem execHostRecordWrite_goes {s s1 : State} {st : Nat} {b : Beat} {r : ResRec} {x : HostRec} {buf : DescBuf} (h : st < s1.streams.length)
    (hmove : resultsMove s st = true) (hhead : resultHead s st 1 = (s1, some (b, r))) (hbuf : (streamOf s1 st).desc.buf = some buf)
    (hup : hostUp s1 = true) (hx : (streamOf s1 st).desc.record = some x) (hopen : x.ended = false) (hfailed : x.failed = false)
    (hfits : 64 + x.written + 64 ≤ 2 ^ buf.slotLog2) :
    execHostRecordWrite st s = .next (resultTaken (beatWritten s1 st buf x b r.ended) st 1) := by
  rw [execHostRecordWrite_eq hmove hhead (by simp [hx, hopen]) (if_pos (by simp [hx])) hx,
    hostBeat_hostEnds hbuf hup hopen hfailed hfits b r.ended r.frame h]

/-! ### The slot of a record (R248) -/

/-- The record that begins in the next slot. -/
def freshRecord (d : HostDesc) (r : ResRec) : HostRec := { frame := r.frame, arrival := r.arrival, slot := d.nextSlot }

/-- A free slot is one of the buffer. -/
theorem buf_of_slotFree {d : HostDesc} {buf : DescBuf} (h : slotFree d = some buf) : d.buf = some buf := by
  unfold slotFree at h
  split at h
  next hbuf => rw [hbuf, (Option.ite_none_right_eq_some.mp h).2]
  next hbuf => rw [hbuf, (Option.ite_none_right_eq_some.mp h).2]
  next => cases h

/-- The first beat of a record takes the next slot. -/
theorem hostBegin_eq {s : State} {st : Nat} (r : ResRec) {buf : DescBuf} (hfree : slotFree (streamOf s st).desc = some buf) :
    let d := (streamOf s st).desc
    hostBegin s st r = traceNow (setDesc s st { d with nextSlot := d.nextSlot + 1, record := some (freshRecord d r) })
      0x001B noSite (some st) (dw r.frame) (1 + d.nextSlot * 2 ^ 16) 0 0 := by
  unfold hostBegin
  dsimp only
  rw [hfree]
  rfl

/-- The record begun is in progress in the slot taken, and the part's access to the host is as it was. -/
theorem hostBegin_takes {s : State} {st : Nat} (r : ResRec) {buf : DescBuf} (h : st < s.streams.length)
    (hfree : slotFree (streamOf s st).desc = some buf) :
    (hostBegin s st r).streams.length = s.streams.length ∧ (hostBegin s st r).now = s.now ∧ hostUp (hostBegin s st r) = hostUp s ∧
    (streamOf (hostBegin s st r) st).desc = { (streamOf s st).desc with
      nextSlot := (streamOf s st).desc.nextSlot + 1, record := some (freshRecord (streamOf s st).desc r) } := by
  rw [hostBegin_eq r hfree]
  refine ⟨?_, by simp, (emits_traceNow _ _ _ _ _ _ _ _).access, ?_⟩
  · rw [streams_of_moves (moves_traceNow rfl (Moves.refl _)), setDesc_length]
  · rw [streamOf_traceNow]
    exact desc_setDesc _ h

/-- The first beat of a record, with a slot free for it. -/
theorem execHostRecordWrite_begins {s s1 : State} {st : Nat} {b : Beat} {r : ResRec} {buf : DescBuf} (h : st < s1.streams.length)
    (hmove : resultsMove s st = true) (hhead : resultHead s st 1 = (s1, some (b, r))) (hup : hostUp s1 = true)
    (hnone : (streamOf s1 st).desc.record = none) (hgone : (frameOf (streamOf s1 st) r.frame).any (·.hostDone) = false)
    (hfree : slotFree (streamOf s1 st).desc = some buf) (hfits : 128 ≤ 2 ^ buf.slotLog2) :
    execHostRecordWrite st s =
      .next (resultTaken (beatWritten (hostBegin s1 st r) st buf (freshRecord (streamOf s1 st).desc r) b r.ended) st 1) := by
  obtain ⟨hlen, -, haccess, hdesc⟩ := hostBegin_takes r h hfree
  rw [execHostRecordWrite_eq hmove hhead (by simp [hnone]) (if_neg (by simp [hnone, hgone])) (by rw [hdesc]),
    hostBeat_hostEnds (x := freshRecord _ r) (by rw [hdesc]; exact buf_of_slotFree (d := (streamOf s1 st).desc) hfree) (by rw [haccess, hup]) rfl rfl
      (by simpa [freshRecord] using hfits) b r.ended r.frame (by rw [hlen]; exact h)]

/-! ### The seal (R247, R249, R251) -/

/-- A descriptor that stops keeps the record that stands in it. -/
theorem record_descStops (s : State) (st : Nat) : (streamOf (descStops s st) st).desc.record = (streamOf s st).desc.record := by
  unfold descStops
  extract_lets s1 s2 d
  have h2 : streamOf s2 st = streamOf s st := streamOf_of_streams (streams_of_moves (moves_finishEvery rfl (moves_finishEvery rfl (Moves.refl s)))) st
  exact (kept_modStream (fun c => c.desc.record) rfl).trans (congrArg (fun c => c.desc.record) h2)

/-- No record stands once the host record of a frame is over. -/
theorem record_hostOver {s : State} {st : Nat} (frame : Nat) (h : st < s.streams.length) : (streamOf (hostOver s st frame) st).desc.record = none := by
  unfold hostOver
  extract_lets s1 s2
  have h1 : (streamOf s1 st).desc.record = none := by
    unfold s1
    rw [streamOf_modStream _ _ h]
  rw [desc_of_outlets ((outlets_settleFrame _ _ _).trans (outlets_modFrame _ _ _ _))]
  unfold s2
  split
  · rw [record_descStops, h1]
  · exact h1

section
variable {s : State} {st : Nat} {x : HostRec} {buf : DescBuf} {status : Nat} (hbuf : (streamOf s st).desc.buf = some buf) (hfailed : x.failed = false)
  (hup : hostUp s = true) (hstatus : status ≠ 1)
include hbuf hfailed hup hstatus

/-- The seal of a record that has been written: header and sequence number go out ahead of all else, and the record is over behind it. -/
theorem sealSlot_writes (code : Nat) :
    ∃ t, sealSlot s st x status code = hostOver t st x.frame ∧
      Emits (emitWrites s [(slotAddr buf x.slot, slotHeader st x status code x.lastWrite),
        (slotAddr buf x.slot + 60, leBytes 4 (streamOf s st).desc.seq)]) t := by
  unfold sealSlot
  simp only [hbuf, hfailed, hup, hstatus, Bool.not_true, Bool.false_eq_true, if_false]
  refine ⟨_, rfl, ?_⟩
  exact (emits_traceNow _ _ _ _ _ _ _ _).trans (.ite ((Emits.ite (emits_postStream _ _ _ _ _ _) (.refl _)).trans (emits_bufferDone _ _ _))
    (.ite (emits_postStream _ _ _ _ _ _) (.refl _)))

theorem sealSlot_seals (code : Nat) (h : st < s.streams.length) :
    (streamOf (sealSlot s st x status code) st).desc.record = none ∧
    Output.hostWrite (slotAddr buf x.slot) (slotHeader st x status code x.lastWrite) ∈ (sealSlot s st x status code).out ∧
    Output.hostWrite (slotAddr buf x.slot + 60) (leBytes 4 (streamOf s st).desc.seq) ∈ (sealSlot s st x status code).out := by
  obtain ⟨t, heq, hwrites⟩ := sealSlot_writes hbuf hfailed hup hstatus code
  have hlen : t.streams.length = s.streams.length := by
    rw [← length_of_intake (intake_hostOver t st x.frame), ← heq, length_of_intake (intake_sealSlot s st x status code)]
  have hsent := hwrites.trans (emits_hostOver t st x.frame)
  rw [heq]
  exact ⟨record_hostOver _ (hlen ▸ h), hsent.mem (mem_emitWrites (w := (_, _)) List.mem_cons_self),
    hsent.mem (mem_emitWrites (w := (_, _)) (List.mem_cons_of_mem _ List.mem_cons_self))⟩

end

theorem execHostSlotSeal_eq {s : State} {st : Nat} {x : HostRec} (hst : st < Config.streams) (hx : (streamOf s st).desc.record = some x)
    (hended : x.ended = true) : execHostSlotSeal st s = .next (sealSlot s st x (if x.truncated then 2 else 0) 0) := by
  unfold execHostSlotSeal
  rw [if_neg (Nat.not_le.mpr hst), hx]
  dsimp only
  rw [if_pos hended]
  rfl

/-- Settles O56: the frame that starts and the frame that ends are read back behind the records that follow them, the beats by their equations, and the
seal behind all that the end of a buffer sends. -/
theorem resultsLeaveByTheirPaths : Obligations.ResultsLeaveByTheirPaths := by
  refine ⟨?_, ?_, ?_, ?_, ?_⟩
  · intro s st f s1 hlen hst hst32 hstop hnone hnext hmay
    exact ⟨egressStart s1 st, if_neg (Nat.not_le.mpr hst), egressStart_starts (by rw [hlen]; exact hst32) hstop hnone hnext hmay⟩
  · intro s s1 st b r e hlen hst hmove hhead he hframe
    have hexec := execEgressResultBeat_eq hmove hhead he hframe
    refine ⟨fun hgoes => ?_, fun hends => ⟨_, hexec, ?_⟩⟩
    · rw [hgoes] at hexec
      exact hexec
    · rw [egress_of_outlets (outlets_resultTaken _ _ _), if_pos hends, egress_egressEnds _ (by rw [egressSend_length, hlen]; exact hst)]
  · intro s st f e hlen hst hst32 hstop hnext hcourier he hframe
    have hlt : st < s.streams.length := hlen ▸ hst32
    refine ⟨fun l bytes rest hmore hline hrest => execCourierFrameForward_line hst hstop hnext hcourier he hlt hmore hline hrest, fun hover hsent => ?_⟩
    refine ⟨_, execCourierFrameForward_end hst hstop hnext hcourier he hframe hover hsent, ?_, ?_⟩
    · rw [egress_of_outlets ((outlets_settleFrame _ _ _).trans (outlets_modFrame _ _ _ _)), egress_egressFinish _ _ hlt]
    · exact ((emits_modStream _ _ _).trans (emits_settleFrame _ _ _)).mem (egressFinish_sends _ _ _ _)
  · intro s s1 st b r buf hlen hst hmove hhead hbuf hup
    have hlt : st < s1.streams.length := hlen ▸ hst
    refine ⟨fun x hx hopen hfailed hfits => execHostRecordWrite_goes hlt hmove hhead hbuf hup hx hopen hfailed hfits, fun hnone hgone hfree hfits => ?_⟩
    obtain ⟨hlen', hnow, -, hdesc⟩ := hostBegin_takes r hlt hfree
    have hwritten := desc_beatWritten (s := hostBegin s1 st r) buf (freshRecord (streamOf s1 st).desc r) b r.ended (by rw [hlen']; exact hlt)
    rw [hdesc, hnow] at hwritten
    refine ⟨_, execHostRecordWrite_begins hlt hmove hhead hup hnone hgone hfree hfits, ?_, ?_, ?_⟩
    · rw [desc_of_outlets (outlets_resultTaken _ _ _), hwritten]
    · rw [desc_of_outlets (outlets_resultTaken _ _ _), hwritten]
      rfl
    · exact (emits_resultTaken _ _ _).mem (beatWritten_sends _ _ _ _ _ _)
  · intro s st x buf hlen hst hst32 hx hended hfailed hup hbuf
    exact ⟨_, execHostSlotSeal_eq hst hx hended, sealSlot_seals hbuf hfailed hup (by split <;> decide) 0 (hlen ▸ hst32)⟩

end Sys2Proof.Machine
end

section
/-! PROOF. A span port read back, and what each operation on a port keeps of it (R267, R271, R279). -/

namespace Sys2Proof.Machine

/-! ### Records leave the ports alone -/

theorem span_of_moves {s t : State} (h : Moves 0x1ffbfff s t) : t.span = s.span := h.frame.b14 rfl

/-- A record that does not stop the part leaves its span ports alone (R408). -/
theorem span_faultAt (s : State) (code : Nat) {cls : Nat} (site : Site) (stream : Option Nat) (frame d0 d1 : Dword) (time : Fc) (hc : cls ≠ 3) :
    (faultAt s code cls site stream frame d0 d1 time).span = s.span := by
  unfold faultAt
  extract_lets r hal s1 s4
  have h1 : s1.span = s.span := by
    unfold s1
    split
    · rfl
    · simp
  have h4 : s4.span = s1.span := span_of_moves (moves_faultTraced rfl (Moves.refl s1))
  rw [if_neg hc]
  exact h4.trans h1

theorem span_fault (s : State) (code : Nat) {cls : Nat} (site : Site) (d0 d1 : Dword) (hc : cls ≠ 3) : (fault s code cls site d0 d1).span = s.span :=
  span_faultAt s code site none noFrame d0 d1 s.now hc

@[simp] theorem span_abortRecord (s : State) (code : Nat) (site : Site) (st frame : Nat) (d0 d1 : Dword) :
    (abortRecord s code site st frame d0 d1).span = s.span := by
  unfold abortRecord
  exact (span_of_moves (moves_noteAbort rfl (Moves.refl _))).trans (span_faultAt s code site _ _ d0 d1 s.now (by decide))

@[simp] theorem span_discardInput (s : State) (e : EndPoint) (st frame : Nat) : (discardInput s e st frame).span = s.span :=
  span_of_moves (moves_discardInput rfl (Moves.refl s))

@[simp] theorem span_discardLate (s : State) (p : Nat) : (discardLate s p).span = s.span := span_of_moves (moves_discardLate rfl (Moves.refl s))

theorem span_spanPendsEnd (s : State) (p : Nat) : (spanPendsEnd s p).span = s.span := by simp [spanPendsEnd]

/-! ### Reading a port back -/

theorem spanOf_of_span {s t : State} (h : t.span = s.span) (p : Nat) : spanOf t p = spanOf s p := by
  unfold spanOf
  rw [h]

@[simp] theorem spanOf_postDev (s : State) (source code : Nat) (site : Site) (time : Fc) (detail p : Nat) :
    spanOf (postDev s source code site time detail) p = spanOf s p := spanOf_of_span (by simp) p

@[simp] theorem spanOf_finishEvery (s : State) (k : PendKind → Bool) (status : Nat) (detail : Dword) (time : Fc) (p : Nat) :
    spanOf (finishEvery s k status detail time) p = spanOf s p := spanOf_of_span (by simp) p

theorem count_span (s : State) (k : Nat × Nat) (n : Nat) : (count s k n).span = s.span := by simp

@[simp] theorem spanOf_count (s : State) (k : Nat × Nat) (n p : Nat) : spanOf (count s k n) p = spanOf s p := spanOf_of_span (count_span s k n) p

@[simp] theorem spanOf_countEvent (s : State) (ev : Nat) (site : Site) (stream : Option Nat) (addr cls : Nat) (priv : Bool) (p : Nat) :
    spanOf (countEvent s ev site stream addr cls priv) p = spanOf s p := spanOf_of_span (by simp) p

@[simp] theorem spanOf_emitCodeword (s : State) (k : Nat) (w : BitVec 5140) (p : Nat) : spanOf (emitCodeword s k w) p = spanOf s p := rfl

@[simp] theorem setSpan_length (s : State) (p : Nat) (x : SpanPort) : (setSpan s p x).span.length = s.span.length := List.length_set

@[simp] theorem modSpan_length (s : State) (p : Nat) (f : SpanPort → SpanPort) : (modSpan s p f).span.length = s.span.length := length_lmod _ _ _

@[simp] theorem moveSpan_length (s : State) (p : Nat) (x : SpanState) : (moveSpan s p x).span.length = s.span.length := by
  unfold moveSpan
  split
  · rfl
  · simp

theorem spanOf_modSpan {s : State} {p : Nat} (f : SpanPort → SpanPort) (h : p < s.span.length) : spanOf (modSpan s p f) p = f (spanOf s p) := by
  unfold modSpan spanOf
  rw [lmod_eq_set f {} h]
  exact lget_set_same _ _ h

theorem spanOf_moveSpan {s : State} {p : Nat} (x : SpanState) (h : p < s.span.length) : spanOf (moveSpan s p x) p = { spanOf s p with state := x } := by
  unfold moveSpan
  split
  · next hx => rw [← hx]
  · rw [spanOf_postDev, spanOf_modSpan _ h]

/-- A port that is shut keeps of its link what `linkOver` leaves, without its locks; a bye waits where one is to go (R279). -/
theorem spanOf_spanShut {s : State} {p : Nat} (bye : Bool) (h : p < s.span.length) :
    spanOf (spanShut s p bye) p = { linkOver (spanOf s p) with
      lock := List.replicate 4 false, msgs := if bye then [{ kind := 4, id := 0, a := 0, b := 0 }] else [], state := .closed } := by
  unfold spanShut
  rw [spanOf_moveSpan _ (by simpa using h), spanOf_modSpan _ h]

@[simp] theorem linkOver_state (x : SpanPort) : (linkOver x).state = x.state := rfl
@[simp] theorem linkOver_replay (x : SpanPort) : (linkOver x).replay = [] := rfl

/-! ### What a port keeps -/

/-- The part has port p, and the port meets P. -/
def PortHas (P : SpanPort → Prop) (p : Nat) (s : State) : Prop := p < s.span.length ∧ P (spanOf s p)

/-- P says nothing of the sub-ports, and nothing of the state of the port. -/
def SubsFree (P : SpanPort → Prop) : Prop := ∀ x l, P x → P { x with subs := l }
def StateFree (P : SpanPort → Prop) : Prop := ∀ x y, P x → P { x with state := y }

namespace PortHas

variable {P : SpanPort → Prop} {p : Nat} {s : State}

theorem of_span {t : State} (h : PortHas P p s) (e : t.span = s.span) : PortHas P p t :=
  ⟨by rw [e]; exact h.1, by rw [spanOf_of_span e]; exact h.2⟩

theorem setSpan {x : SpanPort} (h : PortHas P p s) (hx : P x) : PortHas P p (setSpan s p x) :=
  ⟨by simpa using h.1, by rw [spanOf_setSpan s x h.1]; exact hx⟩

theorem modSpan {f : SpanPort → SpanPort} (h : PortHas P p s) (hf : ∀ x, P x → P (f x)) : PortHas P p (modSpan s p f) :=
  ⟨by simpa using h.1, by rw [spanOf_modSpan f h.1]; exact hf _ h.2⟩

theorem ite {c : Prop} [Decidable c] {t u : State} (h : PortHas P p t) (g : PortHas P p u) : PortHas P p (if c then t else u) := by
  split
  · exact h
  · exact g

theorem foldl {α : Type} {f : State → α → State} (hf : ∀ x a, PortHas P p x → PortHas P p (f x a)) (l : List α) (h : PortHas P p s) :
    PortHas P p (l.foldl f s) := by
  induction l generalizing s with
  | nil => exact h
  | cons a l ih => exact ih (hf s a h)

theorem moveSpan (hfree : StateFree P) (x : SpanState) (h : PortHas P p s) : PortHas P p (moveSpan s p x) :=
  ⟨by simpa using h.1, by rw [spanOf_moveSpan x h.1]; exact hfree _ _ h.2⟩

theorem fault (h : PortHas P p s) (code : Nat) {cls : Nat} (site : Site) (d0 d1 : Dword) (hc : cls ≠ 3) :
    PortHas P p (fault s code cls site d0 d1) := h.of_span (span_fault s code site d0 d1 hc)

theorem finishEvery (h : PortHas P p s) (k : PendKind → Bool) (status : Nat) (detail : Dword) (time : Fc) :
    PortHas P p (finishEvery s k status detail time) := h.of_span (by simp)

theorem spanPendsEnd (h : PortHas P p s) : PortHas P p (spanPendsEnd s p) := h.of_span (span_spanPendsEnd s p)

section
variable (hfree : SubsFree P)
include hfree

theorem modSub (h : PortHas P p s) (j : Nat) (f : SpanSub → SpanSub) : PortHas P p (Machine.modSpan s p (fun x => modSub x j f)) :=
  h.modSpan fun x hx => hfree x _ hx

theorem rxVoid (h : PortHas P p s) (j st frame code : Nat) : PortHas P p (rxVoid s p j st frame code) := by
  unfold Machine.rxVoid
  exact .ite h (h.modSub hfree _ _)

theorem subDrop (h : PortHas P p s) (j st frame code : Nat) (tx rx : Bool) : PortHas P p (subDrop s p j st frame code tx rx) := by
  unfold Machine.subDrop
  extract_lets s1
  have h1 : PortHas P p s1 := .ite ((h.modSub hfree _ _).of_span (span_discardInput _ _ _ _)) h
  exact .ite (h1.rxVoid hfree _ _ _ _) h1

/-- The frames in a port that are given up take beats from its sub-ports alone. -/
theorem spanAbortAll (h : PortHas P p s) (code : Nat) : PortHas P p (spanAbortAll s p code) := by
  unfold Machine.spanAbortAll
  exact foldl (fun x f hx => foldl (fun y j hy => hy.subDrop hfree _ _ _ _ _ _) _ (hx.of_span (by simp))) _ h

end

end PortHas

/-- Where beats flow, the link fails: the port is DOWN with nothing kept to send again (R271). -/
theorem linkFails_goes_down {s : State} {p : Nat} (h : p < s.span.length) (hflows : spanFlows (spanOf s p) = true) :
    (spanOf (linkFails s p) p).state = .down ∧ (spanOf (linkFails s p) p).replay = [] := by
  have hdown : PortHas (fun x => x.state = .down) p (moveSpan s p .down) := ⟨by simpa using h, by rw [spanOf_moveSpan _ h]⟩
  have hended := (((hdown.fault 0x0920 (spanSite p) 0 0 (cls := 2) (by decide)).spanAbortAll (fun _ _ hx => hx) 0x0921).spanPendsEnd).finishEvery
    (isSpanClose p) stAborted 0 s.now
  unfold linkFails
  rw [if_pos hflows]
  dsimp only
  rw [spanOf_modSpan _ hended.1, linkOver_state]
  exact ⟨hended.2, linkOver_replay _⟩

end Sys2Proof.Machine
end

section
/-! PROOF. SPAN_OPEN, its close, SPAN_MEASURE, their limits, and the locks of the wavelengths (R267, R268, R271, R275, R279). -/

namespace Sys2Proof.Machine

/-! ### The commands -/

theorem dbits_port_lt (w : Dword) : dbits w 2 0 < 8 := Nat.mod_lt _ (by decide)

/-- A port as SPAN_OPEN leaves it behind the check of its shares: its locks and what was measured of the link stay. -/
def reopenedPort (x : SpanPort) (p : Packet) (t : Fc) : SpanPort :=
  { lock := x.lock, offset := x.offset, delay := x.delay, spread := x.spread, offsetHiLatch := x.offsetHiLatch, state := x.state,
    subs := (shareFields p).map (fun k => ({ share := k } : SpanSub)), openedAt := t, switchedAt := x.switchedAt }

theorem reopenedPort_shares (x : SpanPort) (p : Packet) (t : Fc) : (reopenedPort x p t).subs.map (·.share) = shareFields p := by
  unfold reopenedPort
  dsimp only
  rw [List.map_map]
  exact List.map_id _

section
variable {s : State} {p : Packet} (hn : dbits (pktDw p 2) 2 0 < Config.spanPorts)
include hn

theorem spanMeasure_starts (hp : pktOnly p [(2, 0x7)] = true) (hup : (spanOf s (dbits (pktDw p 2) 2 0)).state = .up)
    (hidle : (spanOf s (dbits (pktDw p 2) 2 0)).measuring = false) :
    spanMeasure s p = .pend (.spanMeasure (dbits (pktDw p 2) 2 0)) (modSpan s (dbits (pktDw p 2) 2 0) startMeasure) := by
  unfold spanMeasure
  dsimp only
  rw [if_neg (Nat.not_le.mpr hn), if_neg (by rw [hp, hup]; decide), if_neg (by simp [hidle])]

variable (hbad : spanBad p = false)
include hbad

theorem spanOpen_trains (hdeclared : spanDeclared s (dbits (pktDw p 2) 2 0) = true)
    (hstate : (spanOf s (dbits (pktDw p 2) 2 0)).state = .closed ∨ (spanOf s (dbits (pktDw p 2) 2 0)).state = .down) :
    let n := dbits (pktDw p 2) 2 0
    spanOpen s p = .pend (.spanOpen n) (moveSpan (setSpan s n (reopenedPort (spanOf s n) p s.now)) n .training) := by
  unfold spanOpen
  dsimp only
  rw [if_neg (Nat.not_le.mpr hn), if_neg (by simp [hbad]), if_neg (by simp [hdeclared]), if_neg (by tauto)]
  rfl

theorem spanClose_closed (hstate : (spanOf s (dbits (pktDw p 2) 2 0)).state = .closed) : spanClose s p = okAt s := by
  unfold spanClose
  dsimp only
  rw [if_neg (Nat.not_le.mpr hn), if_neg (by simp [hbad]), hstate]

/-- A port over which no beats flow is shut at once; an open that trains it completes ABORTED (R279). -/
theorem spanClose_shuts (hlen : dbits (pktDw p 2) 2 0 < s.span.length)
    (hstate : (spanOf s (dbits (pktDw p 2) 2 0)).state = .training ∨ (spanOf s (dbits (pktDw p 2) 2 0)).state = .down) :
    ∃ t, spanClose s p = okAt t ∧ (spanOf t (dbits (pktDw p 2) 2 0)).state = .closed := by
  unfold spanClose
  dsimp only
  rw [if_neg (Nat.not_le.mpr hn), if_neg (by simp [hbad])]
  rcases hstate with hstate | hstate <;> rw [hstate]
  · exact ⟨_, rfl, by rw [spanOf_finishEvery, spanOf_spanShut _ hlen]⟩
  · exact ⟨_, rfl, by rw [spanOf_spanShut _ hlen]⟩

theorem spanClose_up (hstate : (spanOf s (dbits (pktDw p 2) 2 0)).state = .up) :
    let n := dbits (pktDw p 2) 2 0
    spanClose s p = .pend (.spanClose n) (beginClosing s n) := by
  unfold spanClose
  dsimp only
  rw [if_neg (Nat.not_le.mpr hn), if_neg (by simp [hbad]), hstate]

theorem spanClose_measuring (hstate : (spanOf s (dbits (pktDw p 2) 2 0)).state = .measuring) :
    let n := dbits (pktDw p 2) 2 0
    spanClose s p = .pend (.spanClose n) (finishEvery (beginClosing s n) (isSpanOpen n) stAborted 0 s.now) := by
  unfold spanClose
  dsimp only
  rw [if_neg (Nat.not_le.mpr hn), if_neg (by simp [hbad]), hstate]

end

theorem beginClosing_closes {s : State} {n : Nat} (h : n < s.span.length) :
    (spanOf (beginClosing s n) n).state = .closing ∧ (spanOf (beginClosing s n) n).closingAt = s.now := by
  unfold beginClosing
  rw [spanOf_moveSpan _ (by simpa using h), spanOf_modSpan _ h]
  exact ⟨rfl, rfl⟩

/-! ### Limits -/

theorem execSpanCloseDrained_eq {s : State} {p : Nat} (hstate : (spanOf s p).state = .closing) (hempty : spanEmpty s p = true)
    (hacked : (spanOf s p).replay = []) :
    execSpanCloseDrained p s = .next (finishEvery (finishEvery (spanShut (discardLate s p) p true) (isSpanMeasure p) stAborted 0 s.now)
      (isSpanClose p) stOK 0 s.now) := by
  unfold execSpanCloseDrained
  dsimp only
  rw [if_pos ⟨hstate, hempty, by simp [hacked]⟩]
  rfl

/-- The port that 10 ms of CLOSING end: the frames in it are given up, and it is shut with a bye (R279). -/
def closeTimedOut (s : State) (p : Nat) : State :=
  spanShut (spanAbortAll (advance s ((spanOf s p).closingAt + 10000 * Config.us)) p 0x0922) p true

theorem execSpanCloseTimeout_eq {s : State} {p : Nat} (hstate : (spanOf s p).state = .closing) (hrun : haltedNow s = false)
    (htime : reaches s ((spanOf s p).closingAt + 10000 * Config.us) = true) :
    execSpanCloseTimeout p s = .next (finishEvery (finishEvery (closeTimedOut s p) (isSpanMeasure p) stAborted 0 (closeTimedOut s p).now)
      (isSpanClose p) stTimeout 0 (closeTimedOut s p).now) := by
  unfold execSpanCloseTimeout
  dsimp only
  rw [if_pos ⟨hstate, by simp [hrun], htime⟩]
  rfl

theorem closeTimedOut_shut {s : State} {p : Nat} (h : p < s.span.length) :
    (spanOf (closeTimedOut s p) p).state = .closed ∧ (closeTimedOut s p).now = max s.now ((spanOf s p).closingAt + 10000 * Config.us) := by
  have hport : PortHas (fun _ => True) p (advance s ((spanOf s p).closingAt + 10000 * Config.us)) := ⟨h, trivial⟩
  have hmoves : Moves 0x1fffffe (advance s ((spanOf s p).closingAt + 10000 * Config.us)) (closeTimedOut s p) :=
    moves_spanShut rfl (moves_spanAbortAll rfl (Moves.refl _))
  refine ⟨?_, hmoves.frame.b0 rfl⟩
  unfold closeTimedOut
  rw [spanOf_spanShut _ (hport.spanAbortAll (fun _ _ _ => trivial) 0x0922).1]

/-- The port that 100 ms of TRAINING end (R267). -/
def trainingTimedOut (s : State) (p : Nat) : State := spanShut (advance s ((spanOf s p).openedAt + 100000 * Config.us)) p false

theorem trainingTimedOut_now (s : State) (p : Nat) : (trainingTimedOut s p).now = max s.now ((spanOf s p).openedAt + 100000 * Config.us) :=
  (moves_spanShut (msk := 0x400e) rfl (Moves.refl _)).frame.b0 rfl

theorem execSpanTrainingTimeout_eq {s : State} {p : Nat} (hstate : (spanOf s p).state = .training)
    (htime : reaches s ((spanOf s p).openedAt + 100000 * Config.us) = true) :
    execSpanTrainingTimeout p s = .next (finishEvery (trainingTimedOut s p) (isSpanOpen p) stTimeout 0 (trainingTimedOut s p).now) := by
  unfold execSpanTrainingTimeout
  dsimp only
  rw [if_pos ⟨hstate, htime⟩, trainingTimedOut_now]
  rfl

/-! ### Locks -/

theorem execSpanLockAcquire_eq {s : State} {p w : Nat} (hp : p < Config.spanPorts) (hstate : (spanOf s p).state ≠ .closed) :
    execSpanLockAcquire p w s = .next (modSpan s p (fun x => { x with lock := x.lock.set w true })) := by
  unfold execSpanLockAcquire
  rw [if_neg (by simp [Nat.not_le.mpr hp, hstate])]
  rfl

theorem execSpanLockLoss_eq {s : State} {p w : Nat} (hp : p < Config.spanPorts) (hlock : lget (spanOf s p).lock w false = true) :
    execSpanLockLoss p w s = .next (linkFails (modSpan s p (fun x => { x with lock := x.lock.set w false })) p) := by
  unfold execSpanLockLoss
  rw [if_neg (by simp [Nat.not_le.mpr hp, hlock])]
  rfl

/-- Settles O46: each verdict at the take by the state of the port, and each wait by what shuts the port. -/
theorem spanPortsOpenMeasureAndClose : Obligations.SpanPortsOpenMeasureAndClose := by
  refine ⟨?_, ?_, ?_, ?_, ?_⟩
  · intro s c s1 n hready hroom hlen hn hbad hdeclared hstate
    have hlt : n < s1.span.length := by rw [hlen]; exact dbits_port_lt _
    refine ⟨_, takeCmd_pend hready hroom (spanOpen_trains hn hbad hdeclared hstate), ?_⟩
    rw [spanOf_moveSpan _ (by simpa using hlt), spanOf_setSpan _ _ hlt]
    exact ⟨rfl, rfl, reopenedPort_shares (spanOf s1 n) c.pkt s1.now, rfl⟩
  · intro s c s1 n hready hroom hlen hn hbad
    have hlt : n < s1.span.length := by rw [hlen]; exact dbits_port_lt _
    refine ⟨fun h => takeCmd_finish hready (spanClose_closed hn hbad h), fun h => ?_, fun h => ?_, fun h => ?_⟩
    · obtain ⟨t, hclose, hclosed⟩ := spanClose_shuts hn hbad hlt h
      exact ⟨t, takeCmd_finish hready hclose, hclosed⟩
    · exact ⟨_, takeCmd_pend hready hroom (spanClose_up hn hbad h), beginClosing_closes hlt⟩
    · exact ⟨_, takeCmd_pend hready hroom (spanClose_measuring hn hbad h), (beginClosing_closes hlt).1⟩
  · intro s c s1 n hready hroom hn hp hup hidle
    exact takeCmd_pend hready hroom (spanMeasure_starts hn hp hup hidle)
  · intro s p hlen hp
    have hlt : p < s.span.length := hlen ▸ hp
    refine ⟨fun hstate hempty hacked => ⟨_, execSpanCloseDrained_eq hstate hempty hacked, ?_⟩,
      fun hstate hrun htime => ⟨_, execSpanCloseTimeout_eq hstate hrun htime, closeTimedOut_shut hlt⟩,
      fun hstate htime => ⟨_, execSpanTrainingTimeout_eq hstate htime, ?_, trainingTimedOut_now s p⟩⟩
    · rw [spanOf_spanShut _ (by simpa using hlt)]
    · unfold trainingTimedOut
      rw [spanOf_spanShut _ (by simpa using hlt)]
  · intro s p w hlen hn hp
    have hlt : p < s.span.length := hlen ▸ hp
    have hflows : spanFlows (spanOf (modSpan s p (fun x => { x with lock := x.lock.set w false })) p) = spanFlows (spanOf s p) := by
      rw [spanOf_modSpan _ hlt]
      rfl
    refine ⟨execSpanLockAcquire_eq hn, fun hlock => ⟨fun h => ⟨_, execSpanLockLoss_eq hn hlock, ?_⟩, fun h => ?_⟩⟩
    · exact linkFails_goes_down (by simpa using hlt) (hflows.trans h)
    · refine (execSpanLockLoss_eq hn hlock).trans ?_
      unfold linkFails
      rw [if_neg (by simp [hflows, h])]

end Sys2Proof.Machine
end

section
/-! PROOF. A port sends one codeword a slot: one again, a filler, or a new one (R269, R270, R272). -/

namespace Sys2Proof.Machine

/-! ### One again, and a filler -/

theorem mem_emitCodeword (s : State) (p : Nat) (w : BitVec 5140) : Output.spanCodeword p w ∈ (emitCodeword s p w).out := List.mem_concat_self

/-- The port sends a codeword that is its turn: its engine is on, or it has a bye to send. -/
theorem spanCodewordSend_turn {s : State} {p : Nat} (hp : p < Config.spanPorts) (hup : (spanOf s p).state ≠ .down)
    (hwork : (spanOf s p).state ≠ .closed ∨ (spanOf s p).msgs ≠ []) :
    ¬(Config.spanPorts ≤ p ∨ (spanOf s p).state = .down ∨ ((spanOf s p).state = .closed ∧ (spanOf s p).msgs.isEmpty = true)) := by
  rintro (h | h | ⟨h, hnone⟩)
  · exact absurd hp (Nat.not_lt.mpr h)
  · exact hup h
  · rcases hwork with hopen | hmsg
    · exact hopen h
    · exact hmsg (List.isEmpty_iff.mp hnone)

section
variable {s : State} {p : Nat} (hp : p < Config.spanPorts) (hup : (spanOf s p).state ≠ .down)
  (hwork : (spanOf s p).state ≠ .closed ∨ (spanOf s p).msgs ≠ [])
include hp hup hwork

theorem execSpanCodewordSend_again {q : Nat} {rest : List Nat} (hresend : (spanOf s p).resend = q :: rest) :
    execSpanCodewordSend p s = .next (sendAgain s p q) := by
  unfold execSpanCodewordSend
  dsimp only
  rw [if_neg (spanCodewordSend_turn hp hup hwork), hresend]
  rfl

theorem execSpanCodewordSend_filler (hresend : (spanOf s p).resend = []) (hfull : 2048 ≤ (spanOf s p).replay.length) :
    execSpanCodewordSend p s = .next (sendFiller s p) := by
  unfold execSpanCodewordSend
  dsimp only
  rw [if_neg (spanCodewordSend_turn hp hup hwork), hresend]
  exact if_pos hfull

theorem execSpanCodewordSend_new (hresend : (spanOf s p).resend = []) (hspace : (spanOf s p).replay.length < 2048) :
    execSpanCodewordSend p s = .next (sendNew s p) := by
  unfold execSpanCodewordSend
  dsimp only
  rw [if_neg (spanCodewordSend_turn hp hup hwork), hresend]
  exact if_neg (Nat.not_le.mpr hspace)

end

/-- A port that has sent the kept codeword q again, at t. -/
def sentAgainPort (x : SpanPort) (q : Nat) (t : Fc) : SpanPort :=
  { x with resend := x.resend.drop 1, codewords := x.codewords + 1, replay := x.replay.map (fun k => if k.seq = q then { k with sentAt := t } else k) }

theorem sendAgain_eq {s : State} {p q : Nat} {k : Kept} (hkept : (spanOf s p).replay.find? (fun k => decide (k.seq = q)) = some k) :
    sendAgain s p q = countEvent (count (emitCodeword (modSpan s p (fun y => sentAgainPort y q s.now)) p
      (resealCodeword k.payload (spanOf s p).accepted (spanOf s p).nak)) (unitCounter (spanSite p) 2) 1) 0x0C (spanSite p) none 0 0 false := by
  unfold sendAgain
  dsimp only
  rw [hkept]
  rfl

/-- A kept codeword goes out with the ack and the nak of now, and is one codeword more (R270). -/
theorem sendAgain_sends {s : State} {p q : Nat} {rest : List Nat} {k : Kept} (h : p < s.span.length) (hresend : (spanOf s p).resend = q :: rest)
    (hkept : (spanOf s p).replay.find? (fun k => decide (k.seq = q)) = some k) :
    (spanOf (sendAgain s p q) p).resend = rest ∧ (spanOf (sendAgain s p q) p).codewords = (spanOf s p).codewords + 1 ∧
    Output.spanCodeword p (resealCodeword k.payload (spanOf s p).accepted (spanOf s p).nak) ∈ (sendAgain s p q).out := by
  have hport : spanOf (sendAgain s p q) p = sentAgainPort (spanOf s p) q s.now := by
    rw [sendAgain_eq hkept, spanOf_countEvent, spanOf_count, spanOf_emitCodeword, spanOf_modSpan _ h]
  rw [hport, sendAgain_eq hkept]
  exact ⟨congrArg (List.drop 1) hresend, rfl, ((emits_count _ _ _).trans (emits_countEvent _ _ _ _ _ _ _)).mem (mem_emitCodeword _ _ _)⟩

/-! ### A new codeword -/

/-- The codewords that a port has sent, and the number of the next new one. -/
def Numbered (n m : Nat) (x : SpanPort) : Prop := x.codewords = n ∧ x.nextSeq = m

theorem numbered_nextMessage {n m p : Nat} {s : State} (h : Numbered n m (spanOf s p)) : Numbered n m (nextMessage s p).2 := by
  unfold nextMessage
  dsimp only
  split
  · split <;> exact h
  · split
    · exact h
    · split <;> exact h

theorem numbered_subSent {n m : Nat} {x : SpanPort} (h : Numbered n m x) (j : Nat) (b : Beat) : Numbered n m (subSent x j b) := h

section
variable {n m p : Nat} {s : State} (h : PortHas (Numbered n m) p s)
include h

theorem numbered_stampProbe (x : SpanMsg) : PortHas (Numbered n m) p (stampProbe s p x).2 := by
  unfold stampProbe
  split
  · exact h.modSpan fun _ hx => hx
  · exact h

/-- What a slot takes is counted, and leaves the numbers of the codewords alone. -/
theorem numbered_slotTake {j : Nat} {b : Beat} {t : State} (htake : slotTake s p = some (j, b, t)) : PortHas (Numbered n m) p t := by
  unfold slotTake at htake
  extract_lets x at htake
  split at htake
  · rw [Option.map_eq_some_iff] at htake
    obtain ⟨e, -, heq⟩ := htake
    cases heq
    exact h.setSpan h.2
  · split at htake
    · cases htake
    · split at htake
      · cases htake
      · split at htake
        · cases htake
        · extract_lets s1 at htake
          have h1 : PortHas (Numbered n m) p s1 := by
            unfold s1
            split
            · split
              · next hbeat => exact h.of_span (span_of_moves ((moves_takeBeat rfl (Moves.refl s)).keeps hbeat))
              · exact h
            · exact h.setSpan h.2
          cases htake
          exact PortHas.of_span (s := setSpan s1 p (subSent (spanOf s1 p) j b)) (h1.setSpan (numbered_subSent h1.2 j b)) (by simp)

end

theorem numbered_fillSlots {n m p : Nat} (k : Nat) {s : State} (h : PortHas (Numbered n m) p s) : PortHas (Numbered n m) p (fillSlots k s p).2 := by
  induction k generalizing s with
  | zero => exact h
  | succ k ih =>
    unfold fillSlots
    split
    · next htake => exact ih (numbered_slotTake h htake)
    · exact h

/-- A codeword with beats, credits or a message takes the next sequence number; a filler takes none (R269). -/
theorem sendNew_sends {s : State} {p : Nat} (h : p < s.span.length) :
    ∃ w, (spanOf (sendNew s p) p).codewords = (spanOf s p).codewords + 1 ∧ Output.spanCodeword p w ∈ (sendNew s p).out ∧
      ((spanOf (sendNew s p) p).nextSeq = (spanOf s p).nextSeq ∨ (spanOf (sendNew s p) p).nextSeq = ((spanOf s p).nextSeq + 1) % 2 ^ 16) := by
  have h0 : PortHas (Numbered (spanOf s p).codewords (spanOf s p).nextSeq) p (discardLate s p) :=
    PortHas.of_span ⟨h, rfl, rfl⟩ (span_discardLate s p)
  unfold sendNew
  extract_lets s0 mx r s1 msg flows f x credits ctl payload keep x1
  have hm := h0.setSpan (numbered_nextMessage h0.2)
  have h1 : PortHas (Numbered (spanOf s p).codewords (spanOf s p).nextSeq) p s1 := by
    unfold s1 r
    cases mx.1 with
    | none => exact hm
    | some y => exact numbered_stampProbe hm y
  have hf : PortHas (Numbered (spanOf s p).codewords (spanOf s p).nextSeq) p f.2 := by
    unfold f
    split
    · exact numbered_fillSlots 9 h1
    · exact h1
  clear_value f
  obtain ⟨hlt, hcount, hnext⟩ := hf
  have hsent : ∀ w, p < (emitCodeword f.2 p w).span.length := fun _ => hlt
  split
  · refine ⟨_, ?_, mem_emitCodeword _ _ _, ?_⟩
    all_goals rw [spanOf_modSpan _ (hsent _), spanOf_emitCodeword]
    · exact congrArg (· + 1) hcount
    · exact .inl hnext
  · refine ⟨payload, ?_, mem_emitCodeword _ _ _, ?_⟩
    all_goals rw [spanOf_emitCodeword, spanOf_setSpan _ _ hlt]
    · exact congrArg (· + 1) hcount
    · exact .inr (congrArg (fun k => (k + 1) % 2 ^ 16) hnext)

end Sys2Proof.Machine
end

section
/-! PROOF. A port takes a sound codeword in sequence only, and rounds and probes run when they are due (R269 to R275, R277). -/

namespace Sys2Proof.Machine

/-! ### What an accepted codeword leaves is kept by all that its contents do -/

/-- The port has accepted the codeword numbered a, expects the one numbered e, and asks for none again. -/
def InSequence (a e : Nat) (x : SpanPort) : Prop := x.accepted = a ∧ x.expected = e ∧ x.nak = false

theorem inSequence_subs (a e : Nat) : SubsFree (InSequence a e) := fun _ _ h => h
theorem inSequence_modSub {a e : Nat} {x : SpanPort} (h : InSequence a e x) (j : Nat) (f : SpanSub → SpanSub) : InSequence a e (modSub x j f) := h
theorem inSequence_state (a e : Nat) : StateFree (InSequence a e) := fun _ _ h => h
theorem inSequence_linkOver {a e : Nat} {x : SpanPort} (h : InSequence a e x) : InSequence a e (linkOver x) := ⟨h.1, h.2.1, rfl⟩

theorem trained_of_flows {x : SpanPort} (hflows : spanFlows x = true) : x.state ≠ .training := by
  intro h
  simp [spanFlows, h] at hflows

/-- A port over which beats flow is past its hello (R267). -/
theorem helloReceived_of_flows {s : State} {p : Nat} (hflows : spanFlows (spanOf s p) = true) (c : Control) : helloReceived s p c = s := by
  unfold helloReceived
  exact if_pos (trained_of_flows hflows)

section
variable {a e p : Nat} {s : State} (h : PortHas (InSequence a e) p s)
include h

theorem inSequence_linkFails : PortHas (InSequence a e) p (linkFails s p) := by
  unfold linkFails
  refine .ite (PortHas.modSpan (((PortHas.spanAbortAll (inSequence_subs a e) ?_ _).spanPendsEnd).finishEvery _ _ _ _) fun _ => inSequence_linkOver) h
  exact (h.moveSpan (inSequence_state a e) _).fault _ _ _ _ (by decide)

theorem inSequence_spanShut (bye : Bool) : PortHas (InSequence a e) p (spanShut s p bye) := by
  unfold spanShut
  refine PortHas.moveSpan (inSequence_state a e) _ (h.modSpan ?_)
  rintro x ⟨ha, he, -⟩
  exact ⟨ha, he, rfl⟩

theorem inSequence_byeReceived : PortHas (InSequence a e) p (byeReceived s p) := by
  have hended := (h.fault 0x0923 (spanSite p) 0 0 (cls := 0) (by decide)).spanAbortAll (inSequence_subs a e) 0x0921
  exact (inSequence_spanShut hended false).spanPendsEnd.finishEvery _ _ _ _

theorem inSequence_measureDone (pairs : List (Int × Int)) : PortHas (InSequence a e) p (measureDone s p pairs) := by
  unfold measureDone
  extract_lets offset delay spread s1 s2 s3 s4
  have h2 : PortHas (InSequence a e) p s2 := PortHas.of_span (s := s1) (h.modSpan fun _ hx => hx) (by simp [s2])
  have h3 : PortHas (InSequence a e) p s3 := .ite (h2.moveSpan (inSequence_state a e) _) h2
  exact (h3.finishEvery _ _ _ _).finishEvery _ _ _ _

theorem inSequence_echoReceived (c : Control) : PortHas (InSequence a e) p (echoReceived s p c) := by
  have hport := h.2
  unfold echoReceived
  extract_lets x
  split
  · exact h
  · extract_lets pair x1 pairs far n s1
    have h0 : PortHas (InSequence a e) p (setSpan s p x1) := h.setSpan hport
    have h1 : PortHas (InSequence a e) p s1 := h.setSpan hport
    split
    · exact .ite (.ite (inSequence_measureDone h0 pairs) (h.setSpan hport)) h0
    · exact .ite (h1.fault _ _ _ _ (by decide)) h1

theorem inSequence_retransmit : PortHas (InSequence a e) p (retransmit s p) := by
  have h1 := h.setSpan (x := { spanOf s p with
    resend := (spanOf s p).replay.map (·.seq), retryAck := ((spanOf s p).replay.head?).map (·.seq)
    retries := if (spanOf s p).retryAck = ((spanOf s p).replay.head?).map (·.seq) then (spanOf s p).retries + 1 else 1 }) h.2
  unfold retransmit
  exact .ite (inSequence_linkFails h1) h1

theorem inSequence_ackReceived (c : Control) : PortHas (InSequence a e) p (ackReceived s p c) := by
  have hport := h.2
  unfold ackReceived
  extract_lets x left x1
  exact .ite (inSequence_retransmit (h.setSpan hport)) (h.setSpan hport)

theorem inSequence_slotBeat (q : Nat × Beat) : PortHas (InSequence a e) p (slotBeat s p q) := by
  have hport := h.2
  have howe : PortHas (InSequence a e) p (modSpan s p (fun y => modSub y q.1 (fun z => { z with owed := z.owed + 1 }))) :=
    h.modSub (inSequence_subs a e) _ _
  unfold slotBeat
  dsimp only
  refine .ite h (.ite h (.ite howe ?_))
  split
  · split
    · exact (howe.of_span (span_abortRecord _ _ _ _ _ _ _)).rxVoid (inSequence_subs a e) _ _ _ _
    · exact howe.fault _ _ _ _ (by decide)
  · refine .ite (h.setSpan hport) (.ite (inSequence_linkFails h) ?_)
    exact PortHas.of_span (h.setSpan (inSequence_modSub hport _ _)) (count_span _ _ _)

theorem inSequence_foreignBeat (late : Bool) (q : Nat × Beat) : PortHas (InSequence a e) p (foreignBeat s p late q) := by
  unfold foreignBeat
  extract_lets b sub s1
  have h1 : PortHas (InSequence a e) p s1 := h.modSub (inSequence_subs a e) _ _
  refine .ite h ?_
  split
  · next f _ =>
    extract_lets s2
    have h2 : PortHas (InSequence a e) p s2 := h1.modSub (inSequence_subs a e) _ _
    exact .ite h1 ((h2.of_span (span_abortRecord _ _ _ _ _ _ _)).rxVoid (inSequence_subs a e) _ _ _ _)
  · exact h1

theorem inSequence_foreignEpoch (c : Control) : PortHas (InSequence a e) p (foreignEpoch s p c) := by
  have hport := h.2
  unfold foreignEpoch
  extract_lets x late raise s1
  have h0 : PortHas (InSequence a e) p (setSpan s p { x with epochRaised := true }) := h.setSpan hport
  have h1 : PortHas (InSequence a e) p s1 := .ite (h0.fault _ _ _ _ (by decide)) h
  exact .foldl (fun y q hy => inSequence_foreignBeat hy late q) _ h1

theorem inSequence_messageReceived (hflows : spanFlows (spanOf s p) = true) (c : Control) : PortHas (InSequence a e) p (messageReceived s p c) := by
  unfold messageReceived
  split
  · exact .ite h (h.modSpan fun _ hx => hx)
  · exact .ite h (inSequence_echoReceived h c)
  · rw [helloReceived_of_flows hflows]
    exact h
  · exact inSequence_byeReceived h
  · exact h

theorem inSequence_codewordTaken (c : Control) : PortHas (InSequence a e) p (codewordTaken s p c) := by
  unfold codewordTaken
  extract_lets s1 s2
  have h1 : PortHas (InSequence a e) p s1 := .ite (.foldl (fun y q hy => inSequence_slotBeat hy q) _ h) (inSequence_foreignEpoch h c)
  have h2 : PortHas (InSequence a e) p s2 := h1.modSpan fun x hx => inSequence_subs a e x _ hx
  split
  · next hflows => exact inSequence_messageReceived h2 hflows c
  · exact h2

end

/-! ### Codewords received -/

section
variable {s : State} {p : Nat} {w : BitVec 5140} (hflows : spanFlows (spanOf s p) = true) (hgood : codewordGood w = true)
  (hbeats : isFiller (readCodeword w) = false)
include hflows hgood hbeats

/-- A sound codeword that is no filler, at a port past its training, is taken where it is the next in sequence (R269, R270). -/
theorem spanReceive_good :
    spanReceive s p .good w =
      if (readCodeword w).seq ≠ (spanOf s p).expected then modSpan s p (fun y => { y with nak := true })
      else
        let s2 := ackReceived (modSpan s p (fun y => { y with expected := (y.expected + 1) % 2 ^ 16, accepted := (readCodeword w).seq, nak := false })) p
          (readCodeword w)
        if spanFlows (spanOf s2 p) then codewordTaken s2 p (readCodeword w) else s2 := by
  unfold spanReceive
  dsimp only
  rw [if_neg (show ¬ Ecc.good = Ecc.single by decide), if_neg (by rw [hgood]; decide), if_neg (trained_of_flows hflows),
    if_neg (by rw [hbeats]; decide)]

theorem spanReceive_inSequence (hlen : p < s.span.length) (hseq : (readCodeword w).seq = (spanOf s p).expected) :
    PortHas (InSequence (readCodeword w).seq (((spanOf s p).expected + 1) % 2 ^ 16)) p (spanReceive s p .good w) := by
  rw [spanReceive_good hflows hgood hbeats, if_neg (not_not_intro hseq)]
  have htaken : PortHas (InSequence (readCodeword w).seq (((spanOf s p).expected + 1) % 2 ^ 16)) p
      (modSpan s p (fun y => { y with expected := (y.expected + 1) % 2 ^ 16, accepted := (readCodeword w).seq, nak := false })) :=
    ⟨by simpa using hlen, by rw [spanOf_modSpan _ hlen]; exact ⟨rfl, rfl, rfl⟩⟩
  have hacked := inSequence_ackReceived htaken (readCodeword w)
  exact .ite (inSequence_codewordTaken hacked _) hacked

end

section
variable {s : State} {p : Nat} {w : BitVec 5140} (hp : p < Config.spanPorts) (hlock : (spanOf s p).lock.contains false = false)
  (hflows : spanFlows (spanOf s p) = true)
include hp hlock hflows

theorem execSpanCodewordReceive_eq (fec : Ecc) : execSpanCodewordReceive p fec w s = .next (spanReceive s p fec w) := by
  unfold execSpanCodewordReceive
  dsimp only
  rw [if_neg (by simpa [hflows, Nat.not_le.mpr hp] using hlock)]
  rfl

theorem execSpanCodewordReceive_uncorrectable :
    execSpanCodewordReceive p .uncorrectable w s = .next (modSpan s p (fun y => { y with nak := true })) := by
  rw [execSpanCodewordReceive_eq hp hlock hflows]
  exact congrArg _ (if_pos hflows)

theorem execSpanCodewordReceive_outOfSequence (hgood : codewordGood w = true) (hbeats : isFiller (readCodeword w) = false)
    (hseq : (readCodeword w).seq ≠ (spanOf s p).expected) :
    execSpanCodewordReceive p .good w s = .next (modSpan s p (fun y => { y with nak := true })) := by
  rw [execSpanCodewordReceive_eq hp hlock hflows, spanReceive_good hflows hgood hbeats, if_pos hseq]

end

/-! ### Rounds and probes -/

theorem execSpanAckTimeout_eq {s : State} {p : Nat} {k : Kept} {rest : List Kept} (hkept : (spanOf s p).replay = k :: rest)
    (hflows : spanFlows (spanOf s p) = true) (hnone : (spanOf s p).resend = []) (htime : reaches s (k.sentAt + spanWait (spanOf s p)) = true) :
    execSpanAckTimeout p s = .next (retransmit (advance s (k.sentAt + spanWait (spanOf s p))) p) := by
  unfold execSpanAckTimeout
  dsimp only
  rw [hkept]
  dsimp only
  rw [if_pos (by rw [hflows, hnone, htime]; rfl)]
  rfl

/-- A round that is not the 16th without an ack sends every kept codeword again, in order (R270, R271). -/
theorem retransmit_resends {s : State} {p : Nat} (h : p < s.span.length) (hfew : (spanOf s p).retries < 15) :
    (spanOf (retransmit s p) p).resend = (spanOf s p).replay.map (·.seq) ∧ (retransmit s p).now = s.now := by
  unfold retransmit
  extract_lets x base n s1
  have hn : ¬ 16 ≤ n := by
    have hretries : x.retries < 15 := hfew
    unfold n
    split <;> omega
  rw [if_neg hn]
  exact ⟨congrArg SpanPort.resend (spanOf_setSpan _ _ h), rfl⟩

theorem execSpanProbeReplace_eq {s : State} {p : Nat} {q : Probe} (hfound : (spanOf s p).probes.find? (fun r => r.id == q.id) = some q)
    (hflows : spanFlows (spanOf s p) = true) (htime : reaches s (q.sentAt + spanWait (spanOf s p)) = true) :
    let x := spanOf s p
    execSpanProbeReplace p q.id s = .next (setSpan (advance s (q.sentAt + spanWait x)) p
      (if q.measure then { x with probes := x.probes.erase q, probesLeft := x.probesLeft + b2n x.measuring }
       else { x with probes := x.probes.erase q, msgs := x.msgs ++ [{ kind := 1, id := x.nextProbe, a := 0, b := 0 }],
                     nextProbe := (x.nextProbe + 1) % 16 })) := by
  unfold execSpanProbeReplace
  dsimp only
  rw [hfound]
  dsimp only
  rw [if_neg (by rw [hflows, htime]; decide)]
  cases q.measure <;> rfl

/-- Settles O47: what goes out by what the port has to send, what comes in by its number, and rounds and probes by their time. -/
theorem spanCodewordsAreSentTakenAndSentAgain : Obligations.SpanCodewordsAreSentTakenAndSentAgain := by
  refine ⟨?_, ?_, ?_, ?_⟩
  · intro s p hlen hp8 hp hup hwork
    have hlt : p < s.span.length := hlen ▸ hp8
    refine ⟨fun q rest k hresend hkept => ⟨_, execSpanCodewordSend_again hp hup hwork hresend, sendAgain_sends hlt hresend hkept⟩,
      execSpanCodewordSend_filler hp hup hwork, fun hresend hspace => ?_⟩
    obtain ⟨w, hsent⟩ := sendNew_sends hlt
    exact ⟨_, w, execSpanCodewordSend_new hp hup hwork hresend hspace, hsent⟩
  · intro s p w x c hlen hp8 hp hlock hflows
    refine ⟨execSpanCodewordReceive_uncorrectable hp hlock hflows, fun hgood hbeats =>
      ⟨execSpanCodewordReceive_outOfSequence hp hlock hflows hgood hbeats, fun hseq => ?_⟩⟩
    exact ⟨_, execSpanCodewordReceive_eq hp hlock hflows .good, (spanReceive_inSequence hflows hgood hbeats (hlen ▸ hp8) hseq).2⟩
  · intro s p k rest hlen hp8 hkept hflows hnone hfew htime
    have hround := retransmit_resends (s := advance s (k.sentAt + spanWait (spanOf s p))) (p := p) (hlen ▸ hp8) hfew
    exact ⟨_, execSpanAckTimeout_eq hkept hflows hnone htime, hround.1.trans (congrArg _ hkept), hround.2⟩
  · intro s p x
    refine ⟨fun hup hdue => if_pos ⟨hup, hdue⟩, fun q hfound hflows htime => ⟨fun hm => ?_, fun hm => ?_⟩⟩
    · exact (execSpanProbeReplace_eq hfound hflows htime).trans (by rw [if_pos hm])
    · exact (execSpanProbeReplace_eq hfound hflows htime).trans (by rw [if_neg (by simp [hm])])

end Sys2Proof.Machine
end

section
/-! PROOF. The end of a load, and IMAGE_VERIFY from its take to its end (R298 to R301, R303). -/

namespace Sys2Proof.Machine

/-! ### Stage 8 -/

/-- Writing the configuration of a section changes no hoist but the one it is for. -/
theorem hoistsOf_writeConfig (s : State) (i : Image) (k h : Nat) : ∃ x, hoistsOf (writeConfig s i k h) = (hoistsOf s).set h x := by
  unfold writeConfig
  extract_lets l words put s0
  have hput (x : State) (a : Nat) (w : List Dword) : hoistsOf (put x a w) = hoistsOf x := by
    unfold put
    split <;> rfl
  have h0 : hoistsOf s0 = hoistsOf s := by
    refine hoistsOf_foldl (fun x r => ?_) _ s
    dsimp only
    split
    · split
      · exact (hput _ _ _).trans (hput _ _ _)
      · exact hput _ _ _
    · rfl
  exact ⟨_, congrArg (List.set · h _) h0⟩

/-- What stage 8 writes of a load: configuration and mirror, pinned lines and resident weights, scales and constants (R135, R201, R288, R298). -/
def loadWritten (s : State) (j : LoadJob) : State :=
  let s1 := writeConfig s j.image j.section_ j.hoist
  let s2 := if j.sectionForm then s1 else writeMirror s1 j.image
  let s3 := writeWeights (writePins s2 j.image j.hoist) j.image (if j.sectionForm then [j.section_] else [j.section_, 0xFF])
  writeConstants (writeScales s3 j.image j.section_) j.image j.section_

/-- Past the configuration, stage 8 touches no hoist. -/
theorem hoistsOf_loadWritten (s : State) (j : LoadJob) :
    hoistsOf (loadWritten s j) = hoistsOf (writeConfig s j.image j.section_ j.hoist) := by
  refine hoistsOf_of_moves (moves_writeConstants rfl (moves_writeScales rfl (moves_writeWeights rfl (moves_writePins rfl ?_))))
  split
  · exact Moves.refl _
  · exact moves_writeMirror rfl (Moves.refl _)

theorem length_loadWritten (s : State) (j : LoadJob) : (hoistsOf (loadWritten s j)).length = (hoistsOf s).length := by
  obtain ⟨x, hx⟩ := hoistsOf_writeConfig s j.image j.section_ j.hoist
  rw [hoistsOf_loadWritten, hx, List.length_set]

/-- The load has ended: its hoist is LOADED, no load is in progress, and its image stands behind all others. -/
def loadEnded (s : State) (j : LoadJob) : State :=
  let s1 := loadWritten s j
  let images := s1.hal.images.filter (fun x => decide (x.handle ≠ j.image.handle)) ++ s1.hal.images.filter (fun x => decide (x.handle = j.image.handle))
  moveHoist { s1 with hal := { s1.hal with load := none, lastImage := some j.image.handle, images := images } } j.hoist .loaded

theorem execImageLoadDone_eq {s : State} {j : LoadJob} (hl : s.hal.load = some j) (hv : j.verify = false) (hj : jobPending s .load = false) :
    execImageLoadDone s =
      .next (finishFirst (loadEnded s j) (fun k => k == .imageLoad) stOK (dw (j.hoist + j.image.handle * 256)) s.now) := by
  unfold execImageLoadDone
  rw [hl]
  dsimp only
  rw [if_neg (by rw [hv, hj]; decide)]
  rfl

theorem hoistOf_loadEnded {s : State} {j : LoadJob} (hh : j.hoist < s.hal.hoists.length) :
    (hoistOf (loadEnded s j) j.hoist).state = .loaded := by
  have hlt : j.hoist < (hoistsOf (loadWritten s j)).length := by
    rw [length_loadWritten]
    exact hh
  unfold loadEnded
  dsimp only
  rw [hoistOf_moveHoist]
  exact hlt

theorem loadEnded_load (s : State) (j : LoadJob) :
    (loadEnded s j).hal.load = none ∧ (loadEnded s j).hal.lastImage = some j.image.handle := by
  unfold loadEnded
  dsimp only
  rw [moveHoist_hal]
  exact ⟨rfl, rfl⟩

/-! ### IMAGE_VERIFY -/

/-- The verify under way: the outcome of the checks is kept for its end. -/
def verifyJob (b : List Byte) (h : ImgHead) (f : Option LoadFail) : LoadJob :=
  { verify := true, sectionForm := false, image := buildImage b h {} 0 0 ⟨0, 0, 0, 0⟩, section_ := 0, hoist := 0, fail := f }

theorem imageVerify_allowed {s : State} {c : HostCmd} {p : Packet} {file : HostFile} {b : List Byte} {f : Option LoadFail}
    (hp : imageArgsOk p = true) (hbit : dbit (pktDw p 2) 0 = false) (hl : s.hal.load = none) (hroom : s.hif.pendings.length < 64)
    (hf : FileGiven s p file b) (hv : verifyImage s b (headOfFile b (pktQ p 5)) = some f) :
    imageVerify c file s p =
      .pend .imageVerify { s with hal := { s.hal with load := some (verifyJob b (headOfFile b (pktQ p 5)) f) } } := by
  unfold imageVerify
  rw [hp, hbit, if_neg (by decide), hl, if_neg (by decide), if_neg (Nat.not_le.mpr hroom), withFile_given _ hf]
  dsimp only
  rw [hv]
  rfl

section
variable {s : State} {j : LoadJob} (hl : s.hal.load = some j) (hv : j.verify = true)
include hl hv

theorem execImageVerifyDone_passed (hf : j.fail = none) : execImageVerifyDone s =
    .next (finishFirst { s with hal := { s.hal with load := none } } (fun k => k == .imageVerify) stOK 0 s.now) := by
  unfold execImageVerifyDone
  rw [hl]
  dsimp only
  rw [hv, hf]
  rfl

theorem execImageVerifyDone_failed {e : LoadFail} (hf : j.fail = some e) : execImageVerifyDone s =
    .next (finishFirst (faultAt { s with hal := { s.hal with load := none } } e.code 4 e.site none noFrame (dw e.d0) (dw e.d1) s.now)
      (fun k => k == .imageVerify) e.status (dw e.code) s.now) := by
  unfold execImageVerifyDone
  rw [hl]
  dsimp only
  rw [hv, hf]
  rfl

end

/-- Settles O16: stage 8 writes no hoist but its own, whose last move is to LOADED; a verify carries its outcome from its take to its end. -/
theorem imageLoadsEndLoadedAndVerifiesReport : Obligations.ImageLoadsEndLoadedAndVerifiesReport := by
  refine ⟨?_, ?_, ?_⟩
  · intro s j hl hv hj hlen hh
    obtain ⟨hload, hlast⟩ := loadEnded_load s j
    exact ⟨_, execImageLoadDone_eq hl hv hj, hoistOf_loadEnded (by rw [hlen]; exact hh), hload, hlast⟩
  · intro s c file b f s1 h hready hroom hp hbit hl hf hv
    exact ⟨_, verifyJob b h f, takeCmd_pend hready hroom (imageVerify_allowed hp hbit hl hroom hf hv), rfl, rfl, rfl⟩
  · intro s j hl hv
    exact ⟨execImageVerifyDone_passed hl hv, fun _ hf => execImageVerifyDone_failed hl hv hf⟩

end Sys2Proof.Machine
end

section
/-! PROOF. No command gives back what fuses hold (R454, R458), and a command that firmware takes completes or pends (R344, R347, R349). -/

namespace Sys2Proof.Machine

/-- Settles O6: what every command keeps, the power-ons too, includes the fuses. -/
theorem fusesOnlyGrow : Obligations.FusesOnlyGrow := fun _ _ _ e =>
  have h := (exec_keepsStores e).fuses
  ⟨h.floor, h.revoked⟩

section
variable {s : State} {c : HostCmd} {op form : Nat} {body : State → Packet → Verdict}

theorem takeCmd_passed_over (h : spells c.pkt op form = false ∨ takeable s c = false) : takeCmd s c op form body = .next s := by
  unfold takeCmd
  rw [if_neg (by simpa using fun g => h.resolve_left (by simp [g]))]
  rfl

theorem takeCmd_fails_check {st d : Nat} (h1 : spells c.pkt op form = true) (h2 : takeable s c = true) (h3 : precheck (begun s c) c = some (st, d)) :
    takeCmd s c op form body = .next (finishTaken (begun s c) c st d []) := by
  unfold takeCmd; unfold begun at *; simp [h1, h2, h3, done]

theorem takeCmd_full {k : PendKind} {x : State} (h : Ready op form s c) (hfull : 64 ≤ (begun s c).hif.pendings.length)
    (hb : body (begun s c) c.pkt = .pend k x) : takeCmd s c op form body = .next (finishTaken (begun s c) c stQueueFull 0 []) := by
  obtain ⟨h1, h2, h3⟩ := h
  unfold takeCmd; unfold begun at *; simp [h1, h2, h3, done, hb, conclude, hfull]

end

/-- Settles O8: one clause for each branch of the take. -/
theorem takenCommandsCompleteOrPend : Obligations.TakenCommandsCompleteOrPend := fun _ _ _ _ _ =>
  ⟨takeCmd_passed_over, fun _ _ => takeCmd_fails_check, fun _ _ _ _ => takeCmd_finish, fun _ _ => takeCmd_pend, fun _ _ => takeCmd_full⟩

end Sys2Proof.Machine
end

section
/-! PROOF. No command ends in a fault or a refusal (R347, R364): every branch of every meaning is `done` of a state. -/

namespace Sys2Proof.Machine

/-- The outcome is a next state. -/
def Answers (o : Host.Outcome State Fault Refusal) : Prop := ∃ t, o = .next t

theorem answers_done (s : State) : Answers (done s) := ⟨s, rfl⟩

theorem answers_takeCmd {s : State} {c : HostCmd} {op form : Nat} {body : State → Packet → Verdict} : Answers (takeCmd s c op form body) := by
  unfold takeCmd
  dsimp only
  repeat' split
  all_goals exact answers_done _

theorem answers_lifecycleCmd {op : Nat} {c : HostCmd} {auth : HostData} {s : State} : Answers (lifecycleCmd op c auth s) := by
  unfold lifecycleCmd
  split
  · exact answers_takeCmd
  · exact answers_done _

/-- A beat that a STREAM_OUT queue takes, or that is not there to take. -/
theorem answers_takeBeat (s0 s : State) (e : EndPoint) (f : State → State) :
    Answers (match takeBeat s e (fun _ => true) with | some (_, s1) => done (f s1) | none => done s0) := by
  split <;> exact answers_done _

theorem answers_streamOutBeatWrite (a : StorageAccess) (s : State) : Answers (execStreamOutBeatWrite a s) := by
  unfold execStreamOutBeatWrite
  split
  extract_lets s1 x e taken
  have ht (f : State → State) : Answers (taken f) := answers_takeBeat s s1 e f
  clear_value taken
  split
  · exact answers_done _
  split
  · split <;> exact answers_done _
  split
  · exact answers_done _
  split
  · exact answers_done _
  extract_lets st frame unfit
  clear_value unfit
  repeat' split
  all_goals first | exact answers_done _ | exact ht _

theorem answers_spillQueueRead (a : StorageAccess) (s : State) : Answers (execSpillQueueRead a s) := by
  unfold execSpillQueueRead
  split
  extract_lets
  repeat' split
  all_goals exact answers_done _

/-- A command from the host is taken or passed over; a happening ends in one of the branches of its meaning. -/
theorem answers_exec (i : Instr) (s : State) : Answers (exec i s) := by
  cases i with
  | nop | identify | attestReport | attestCertificate | imageLoad | imageLoadSection | imageVerify | hoistArmTarget | hoistArmMirror | hoistSwitch |
    hoistRelease | hoistReleaseImageOnly | streamOpen | streamClose | streamMode | descArm | descDisarm | scaleSet | scaleRead | selfTestProveUnit |
    selfTestRequestWindow | selfTestGrantWindow | selfTestReport | calibrateChannel | calibrateAllChannels | calibrateLane | unitDisable |
    unitEnable | haltAt | resume | snapshotCapture | snapshotCopy | snapshotRelease | traceConfigure | traceStart | traceStop | traceTrigger |
    traceMarker | traceRelease | traceCopy | counterConfigure | counterRunMask | counterClearMask | counterSampleAll | counterGrant | spanOpen |
    spanClose | spanMeasure | fwStage | fwSwitch | wipeFreeSpace | wipeDevice | wipeStagedFirmware | powerSetOperatingPoint | powerSetCap |
    powerSetThermal | powerSetSleep | powerSetWake | powerSetReset | thermalRead =>
    dsimp only [exec, execNop, execIdentify, execAttestReport, execAttestCertificate, execImageLoad, execImageLoadSection, execImageVerify,
      execHoistArmTarget, execHoistArmMirror, execHoistSwitch, execHoistRelease, execHoistReleaseImageOnly, execStreamOpen, execStreamClose,
      execStreamMode, execDescArm, execDescDisarm, execScaleSet, execScaleRead, execSelfTestProveUnit, execSelfTestRequestWindow,
      execSelfTestGrantWindow, execSelfTestReport, execCalibrateChannel, execCalibrateAllChannels, execCalibrateLane, execUnitDisable, execUnitEnable,
      execHaltAt, execResume, execSnapshotCapture, execSnapshotCopy, execSnapshotRelease, execTraceConfigure, execTraceStart, execTraceStop,
      execTraceTrigger, execTraceMarker, execTraceRelease, execTraceCopy, execCounterConfigure, execCounterRunMask, execCounterClearMask,
      execCounterSampleAll, execCounterGrant, execSpanOpen, execSpanClose, execSpanMeasure, execFwStage, execFwSwitch, execWipeFreeSpace,
      execWipeDevice, execWipeStagedFirmware, execPowerSetOperatingPoint, execPowerSetCap, execPowerSetThermal, execPowerSetSleep, execPowerSetWake,
      execPowerSetReset, execThermalRead]
    exact answers_takeCmd
  | lifecycleTransition | lifecycleAddKey | lifecycleRevokeImageKey | lifecycleRevokeFwKey =>
    exact answers_lifecycleCmd
  | streamOutBeatWrite => exact answers_streamOutBeatWrite _ s
  | spillQueueRead => exact answers_spillQueueRead _ s
  | hifDbSqTail | hifDbCqHead | ringEnable | ringDisable | packetFetch | functionLevelReset | hotReset | busMasterEnableClear | powerStateD3hot |
    msixVectorUnmask | registerWrite | latchedLoRead | rcRead | evtPendAck | evtIdleArm | evtLogEnable | evtLogDisable | evtLogHead | evtVecMod |
    halProofCtrl | memMaintCtrl | cntPageSample | cntPageClear | cntPageRun | heldRecordWrite | queueReadIssue | readReturn | refresh |
    halyardParityError | extest | samplePreload | idcode | highz | clamp | extestPulse | extestTrain | tapReset | clearFaults | writeProtect |
    capability | otFaultLimit | otWarnLimit | vinOvFaultLimit | vinOvWarnLimit | vinUvWarnLimit | vinUvFaultLimit | iinOcFaultLimit | iinOcWarnLimit |
    pinOpWarnLimit | statusWord | statusInput | statusTemperature | statusCml | readVin | readIin | readTemperature1 | readPin | pmbusRevision |
    mfrRestartCount | powerStateD0 | vinAbove36V =>
    exact answers_done _
  | imageLoadDone | imageVerifyDone | mirrorCopyDone | hoistSwitchLands | streamCloseDrained | streamCloseTimeout | streamModeLands | scaleBankLive |
    scaleBankRetireDone | fullWindowStart | fullWindowEnd | unitDrainDone | unitDrainTimeout | haltLands | resumeLands | snapshotCaptureDone |
    traceStopFlushDone | fwStageDone | fwSwitchLands | fwCoreReady | fwReadyTimeout | wipeFreeSpaceDone | delayedDeviceReset | ringDrainDone |
    linkDown | busMasterEnableSet | malformedRegisterAccess | moderationTimerExpiry | configScrub | autoMirrorSwitch | configRewriteDone | beatSend |
    beatArrive | creditReturnArrive | segmentContention | voidTackLineReceive | slotBind | operationIssue | aloadBeat | rowExponentFix | macFire |
    omacFire | clipCheck | drainFire | fetchFire | fetchBeatWrite | waitComplete | releaseFire | tileWatchdogExpiry | weightScrub |
    weightRewriteDone | vloadBeat | vsendBeat | vopFire | constantRewriteDone | vfuncFire | vredFire | windowBeatIn | windowRowEmit | poolRowEmit |
    glueFcEval | glueDrainDone | glueDrainTimeout | skewEnqueue | steerSend | pennantPair | frameEndSettle | spillWriteRun | spillReadRequest |
    refillReturn | steerWatchdogExpiry | generatorStep | generatorFrameResume | channelBurstDecision | fetchRequestArrive | feedBeatSend |
    streamInBeatSend | spillQueueWrite | circularWaitExpiry | zqCalibration | dqsOscillatorRead | patrolBlock | retrainingWindowStart |
    retrainingWindowEnd | descStoreScrub | descRewriteDone | hostRecordWrite | hostSlotSeal | spanCodewordSend | spanCodewordReceive |
    spanAckTimeout | spanLockLoss | spanTrainingTimeout | spanProbeTimer | spanProbeReplace | spanCloseDrained | spanCloseTimeout |
    frameStartReceive | lineStartReceive | dataBlockReceive | lineEndReceive | frameEndReceive | idleStripeReceive | laneLockLoss | laneLockRegain |
    ingressBeatSend | egressFrameStart | egressResultBeat | courierFrameForward | deadlineExpiry | vinRise | powerStageFault | powerStageRestart |
    vinBelow36V | pmbusWarnCrossing | refClockLoss | refClockRestore | stagedStartPhaseEnd | sectorWakeGroup | perstAssert | perstDeassert |
    dividerSwitchPoint | vddSlewDone | thermalSample | powerCapAverage | neighbourDiffExpiry | heartbeatMiss | coreRestartDone | proofArm |
    proofUnitIdle | proofMaxWaitExpiry | bistRunDone | proofRestoreDone | traceLineWrite | traceBufferFlushTimer | bypass | pmbusUnsupportedCommand |
    spanLockAcquire | snapshotCopyDone | traceCopyDone | attestDone =>
    dsimp only [exec, vecFire, execImageLoadDone, execImageVerifyDone, execMirrorCopyDone, execHoistSwitchLands, execStreamCloseDrained,
      execStreamCloseTimeout, execStreamModeLands, execScaleBankLive, execScaleBankRetireDone, execFullWindowStart, execFullWindowEnd,
      execUnitDrainDone, execUnitDrainTimeout, execHaltLands, execResumeLands, execSnapshotCaptureDone, execTraceStopFlushDone, execFwStageDone,
      execFwSwitchLands, execFwCoreReady, execFwReadyTimeout, execWipeFreeSpaceDone, execDelayedDeviceReset, execRingDrainDone, execLinkDown,
      execBusMasterEnableSet, execMalformedRegisterAccess, execModerationTimerExpiry, execConfigScrub, execAutoMirrorSwitch, execConfigRewriteDone,
      execBeatSend, execBeatArrive, execCreditReturnArrive, execSegmentContention, execVoidTackLineReceive, execSlotBind, execOperationIssue,
      execAloadBeat, execRowExponentFix, execMacFire, execOmacFire, execClipCheck, execDrainFire, execFetchFire, execFetchBeatWrite, execWaitComplete,
      execReleaseFire, execTileWatchdogExpiry, execWeightScrub, execWeightRewriteDone, execVloadBeat, execVsendBeat, execVopFire,
      execConstantRewriteDone, execVfuncFire, execVredFire, execWindowBeatIn, execWindowRowEmit, execPoolRowEmit, execGlueFcEval, execGlueDrainDone,
      execGlueDrainTimeout, execSkewEnqueue, execSteerSend, execPennantPair, execFrameEndSettle, execSpillWriteRun, execSpillReadRequest,
      execRefillReturn, execSteerWatchdogExpiry, execGeneratorStep, execGeneratorFrameResume, execChannelBurstDecision, execFetchRequestArrive,
      execFeedBeatSend, execStreamInBeatSend, execSpillQueueWrite, execCircularWaitExpiry, execZqCalibration, execDqsOscillatorRead, execPatrolBlock,
      execRetrainingWindowStart, execRetrainingWindowEnd, execDescStoreScrub, execDescRewriteDone, execHostRecordWrite, execHostSlotSeal,
      execSpanCodewordSend, execSpanCodewordReceive, execSpanAckTimeout, execSpanLockLoss, execSpanTrainingTimeout, execSpanProbeTimer,
      execSpanProbeReplace, execSpanCloseDrained, execSpanCloseTimeout, execFrameStartReceive, execLineStartReceive, execDataBlockReceive,
      execLineEndReceive, execFrameEndReceive, execIdleStripeReceive, execLaneLockLoss, execLaneLockRegain, execIngressBeatSend, execEgressFrameStart,
      execEgressResultBeat, execCourierFrameForward, execDeadlineExpiry, execVinRise, execPowerStageFault, execPowerStageRestart, execVinBelow36V,
      execPmbusWarnCrossing, execRefClockLoss, execRefClockRestore, execStagedStartPhaseEnd, execSectorWakeGroup, execPerstAssert, execPerstDeassert,
      execDividerSwitchPoint, execVddSlewDone, execThermalSample, execPowerCapAverage, execNeighbourDiffExpiry, execHeartbeatMiss,
      execCoreRestartDone, execProofArm, execProofUnitIdle, execProofMaxWaitExpiry, execBistRunDone, execProofRestoreDone, execTraceLineWrite,
      execTraceBufferFlushTimer, execBypass, execPmbusUnsupportedCommand, execSpanLockAcquire, execSnapshotCopyDone, execTraceCopyDone,
      execAttestDone]
    repeat' split
    all_goals exact answers_done _

/-- Settles O2: `answers_exec`, for every command and state. -/
theorem everyCommandAnswersANextState : Obligations.EveryCommandAnswersANextState := answers_exec

end Sys2Proof.Machine
end

section
/-! PROOF. LIFECYCLE and WIPE wait in the FIFO while a load, a verify or an FW_STAGE is in progress, and nothing else writes the image keys (R467). -/

namespace Sys2Proof.Machine

/-! ### What waits in the FIFO is not taken (R300, R349, R467) -/

theorem nextInService_not_held {s : State} {q : List HostCmd} {c : HostCmd} (h : nextInService s q = some c) : heldInFifo s c.pkt = false := by
  unfold nextInService at h
  generalize hb : (none : Option HostCmd) = best at h
  have hbest : ∀ x, best = some x → heldInFifo s x.pkt = false := by simp [← hb]
  clear hb
  induction q generalizing best with
  | nil => exact hbest c h
  | cons d q ih =>
    refine ih _ h fun x hx => ?_
    by_cases hd : heldInFifo s d.pkt = true
    · exact hbest x (by simpa [hd] using hx)
    cases best with
    | none => simp_all
    | some b =>
      simp only [hd, Bool.false_eq_true, if_false] at hx
      split at hx
      · obtain rfl : d = x := by simpa using hx
        simpa using hd
      · exact hbest x hx

theorem takeable_of_held {s : State} {c : HostCmd} (h : heldInFifo s c.pkt = true) : takeable s c = false := by
  have hn (q : List HostCmd) : (nextInService s q == some c) = false := by
    rw [beq_eq_false_iff_ne]
    intro e
    exact absurd (nextInService_not_held e) (by simp [h])
  simp [takeable, hn]

/-- A LIFECYCLE or a WIPE is not taken during a load, a verify or an FW_STAGE. -/
theorem lifecycle_waits {s : State} {c : HostCmd} {op form : Nat} (hop : op = 0x58 ∨ op = 0x59)
    (hs : s.hal.load ≠ none ∨ isPending s (fun k => k == .fwStage) = true) : spells c.pkt op form = false ∨ takeable s c = false := by
  by_cases h : spells c.pkt op form = true
  · have ho : pktOpcode c.pkt = op := by rcases hop with rfl | rfl <;> simp_all [spells]
    have hb : (s.hal.load.isSome || isPending s (fun k => k == .fwStage)) = true := by simpa [Option.isSome_iff_ne_none] using hs
    exact .inr (takeable_of_held (by rcases hop with rfl | rfl <;> simp [heldInFifo, ho, hb]))
  · exact .inl (by simpa using h)

theorem lifecycleCmd_waits {s : State} {c : HostCmd} (op : Nat) (auth : HostData)
    (hs : s.hal.load ≠ none ∨ isPending s (fun k => k == .fwStage) = true) : lifecycleCmd op c auth s = .next s := by
  unfold lifecycleCmd
  rw [if_neg fun g => ?_]
  · rfl
  · have hw := lifecycle_waits (c := c) (form := 0) (.inl rfl) hs
    simp [g.2.1, g.2.2] at hw

theorem execWipeFreeSpace_waits {s : State} (c : HostCmd) (hs : s.hal.load ≠ none ∨ isPending s (fun k => k == .fwStage) = true) :
    execWipeFreeSpace c s = .next s := by
  unfold execWipeFreeSpace
  exact takeCmd_passed_over (lifecycle_waits (.inr rfl) hs)

theorem execWipeDevice_waits {s : State} (c : HostCmd) (hs : s.hal.load ≠ none ∨ isPending s (fun k => k == .fwStage) = true) :
    execWipeDevice c s = .next s := by
  unfold execWipeDevice
  exact takeCmd_passed_over (lifecycle_waits (.inr rfl) hs)

theorem execWipeStagedFirmware_waits {s : State} (c : HostCmd) (hs : s.hal.load ≠ none ∨ isPending s (fun k => k == .fwStage) = true) :
    execWipeStagedFirmware c s = .next s := by
  unfold execWipeStagedFirmware
  exact takeCmd_passed_over (lifecycle_waits (.inr rfl) hs)

/-! ### The image keys -/

/-- The image keys are these. -/
def HasKeys (k : List KeySlot) (s : State) : Prop := s.sec.imageKeys = k

/-- They are these in the next state too, if there is one. -/
def HasKeysNext (k : List KeySlot) (o : Host.Outcome State Fault Refusal) : Prop := ∀ t, o = .next t → HasKeys k t

/-- They are these in the state that a verdict carries. -/
def HasKeysVerdict (k : List KeySlot) : Verdict → Prop
  | .finish _ _ _ s => HasKeys k s
  | .pend _ s => HasKeys k s

section
variable {k : List KeySlot} {s : State}

theorem hasKeysNext_done (h : HasKeys k s) : HasKeysNext k (done s) := by
  rintro t ⟨⟩
  exact h

theorem HasKeys.of_sec {t : State} (h : HasKeys k s) (e : t.sec = s.sec) : HasKeys k t := by
  unfold HasKeys; rw [e]; exact h

/-- A change whose mask leaves out the fuses and the flash (bit 17) leaves the keys. -/
theorem HasKeys.of_moves {m : Nat} {a : State} (h : HasKeys k a) (g : Moves m a s) (hm : m.testBit 17 = false) : HasKeys k s :=
  h.of_sec (g.frame.b17 hm)

@[simp] theorem setUncommitted_imageKeys (c : Sec) (p : Option FwPkg) : (setUncommitted c p).imageKeys = c.imageKeys := by
  unfold setUncommitted; split <;> rfl

theorem hasKeys_powerOn (h : HasKeys k s) : HasKeys k (powerOn s) := by
  unfold HasKeys; rw [powerOn_sec]; exact h

theorem hasKeys_deviceReset (h : HasKeys k s) : HasKeys k (deviceReset s) := by
  unfold HasKeys; rw [deviceReset_sec]; exact h

/-- With no erase outstanding, the boot ROM erases no key (R455). -/
theorem hasKeys_bootCourier (hn : s.sec.erase = none) (h : HasKeys k s) : HasKeys k (bootCourier s) := by
  unfold bootCourier
  rw [hn]
  dsimp only
  split
  · exact h
  split
  · simpa [HasKeys] using h
  split
  · simpa [HasKeys] using h
  · exact h

theorem hasKeys_bootMain (h : HasKeys k s) : HasKeys k (bootMain s) := by
  unfold bootMain
  extract_lets c first other hif s1 s2 v
  split
  · simpa [HasKeys] using h
  split
  · have h1 : HasKeys k s1 := h
    clear_value s1 v
    exact h1.of_sec (by simp [s2])
  · exact h.of_sec (by simp)

theorem hasKeys_commitSwap (w : Swap) (h : HasKeys k s) : HasKeys k (commitSwap s w) := by
  simpa [HasKeys, commitSwap] using h

/-! ### Commands that firmware takes -/

theorem hasKeys_conclude {c : HostCmd} {v : Verdict} (h : HasKeys k s) (hv : HasKeysVerdict k v) : HasKeys k (conclude s c v) := by
  cases v with
  | finish st d w x => exact HasKeys.of_sec hv (by simp [conclude])
  | pend p x =>
    unfold conclude
    dsimp only
    split
    · exact h.of_sec (by simp)
    · exact HasKeys.of_sec hv (by simp)

theorem hasKeys_takeCmd {c : HostCmd} {op form : Nat} {body : State → Packet → Verdict} (h : HasKeys k s)
    (hb : ∀ x p, HasKeys k x → HasKeysVerdict k (body x p)) : HasKeysNext k (takeCmd s c op form body) := by
  have h1 : HasKeys k (beginTrace (taken s c) c) := h.of_sec (by simp)
  unfold takeCmd
  dsimp only
  split
  · split
    · exact hasKeysNext_done (h1.of_sec (by simp))
    · exact hasKeysNext_done (hasKeys_conclude h1 (hb _ _ h1))
  · exact hasKeysNext_done h

theorem hasKeys_hostAccessFailed {c : HostCmd} {n : Nat} {addr : Nat → Nat} (h : HasKeys k s) : HasKeysVerdict k (hostAccessFailed s c n addr) :=
  h.of_moves (moves_hostAccessFailed (msk := 0x98000e) rfl (Moves.refl s)) rfl

theorem hasKeys_execFwStage {c : HostCmd} {package : HostData} (h : HasKeys k s) : HasKeysNext k (execFwStage c package s) := by
  refine hasKeys_takeCmd h fun x p hx => ?_
  dsimp only
  split
  · exact hx
  split
  · exact hx
  split
  · exact hasKeys_hostAccessFailed hx
  split
  · exact hx
  · simpa [HasKeysVerdict, HasKeys] using hx

theorem hasKeys_execFwSwitch {c : HostCmd} (h : HasKeys k s) : HasKeysNext k (execFwSwitch c s) := by
  refine hasKeys_takeCmd h fun x p hx => ?_
  dsimp only
  split
  · exact hx
  split <;> exact hx

/-! ### Happenings -/

theorem hasKeys_execFwStageDone (h : HasKeys k s) : HasKeysNext k (execFwStageDone s) := by
  unfold execFwStageDone
  split
  · exact hasKeysNext_done (by simpa [HasKeys] using h)
  · exact hasKeysNext_done h

theorem hasKeys_execFwSwitchLands (h : HasKeys k s) : HasKeysNext k (execFwSwitchLands s) := by
  unfold execFwSwitchLands
  split
  · split <;> exact hasKeysNext_done h
  · exact hasKeysNext_done h

theorem hasKeys_execFwCoreReady {core : Nat} (h : HasKeys k s) : HasKeysNext k (execFwCoreReady core s) := by
  unfold execFwCoreReady
  split
  · split
    · exact hasKeysNext_done h
    split
    · exact hasKeysNext_done h
    split
    · exact hasKeysNext_done (hasKeys_commitSwap _ h)
    · exact hasKeysNext_done h
  · exact hasKeysNext_done h

theorem hasKeys_execFwReadyTimeout {core : Nat} (h : HasKeys k s) : HasKeysNext k (execFwReadyTimeout core s) := by
  unfold execFwReadyTimeout
  split
  · split
    · exact hasKeysNext_done (by simpa [HasKeys] using h)
    · exact hasKeysNext_done h
  · exact hasKeysNext_done h

theorem hasKeys_execDelayedDeviceReset (h : HasKeys k s) : HasKeysNext k (execDelayedDeviceReset s) := by
  unfold execDelayedDeviceReset
  split
  · refine hasKeysNext_done ?_
    split
    · exact hasKeys_deviceReset (h.of_sec (by simp))
    · exact h
  · exact hasKeysNext_done h

theorem hasKeys_execPerstAssert (h : HasKeys k s) : HasKeysNext k (execPerstAssert s) := by
  unfold execPerstAssert
  split
  · exact hasKeysNext_done h
  · refine hasKeysNext_done ?_
    split
    · exact hasKeys_deviceReset h
    · exact h

theorem hasKeys_execVinRise (h : HasKeys k s) : HasKeysNext k (execVinRise s) := by
  unfold execVinRise
  split
  · exact hasKeysNext_done h
  · exact hasKeysNext_done (hasKeys_powerOn h)

theorem hasKeys_execPowerStageRestart (h : HasKeys k s) : HasKeysNext k (execPowerStageRestart s) := by
  unfold execPowerStageRestart
  split
  · exact hasKeysNext_done h
  · exact hasKeysNext_done (hasKeys_powerOn h)

theorem hasKeys_execStagedStartPhaseEnd {failedUnits failedChannels : List Site} (hn : s.sec.erase = none) (h : HasKeys k s) :
    HasKeysNext k (execStagedStartPhaseEnd failedUnits failedChannels s) := by
  unfold execStagedStartPhaseEnd
  split
  · exact hasKeysNext_done h
  refine hasKeysNext_done ?_
  split
  · exact h.of_sec (by simp)
  · exact hasKeys_bootCourier hn h
  · split
    · exact h.of_sec (by simp)
    · exact h
  · exact (h.of_moves (Moves.foldl (m := 0x19581e) (Moves.refl s) fun _ _ g => moves_loseChannel rfl g) rfl).of_sec (endPhase_sec _)
  · exact h.of_sec (by simp)
  · exact (h.of_moves (Moves.foldl (m := 0x595fde) (Moves.refl s) fun _ _ g => moves_loseUnit rfl g) rfl).of_sec (endPhase_sec _)
  · exact hasKeys_bootMain h
  · exact h

/-! ### Every command -/

/-- During a load with no erase outstanding, the commands that list the fuses and the flash leave the keys. -/
theorem hasKeys_exec_of_touched {i : Instr} (hi : Piece.sec ∈ touches i) (hl : s.hal.load ≠ none) (hn : s.sec.erase = none) (h : HasKeys k s) :
    HasKeysNext k (exec i s) := by
  cases i with
  | fwStage => exact hasKeys_execFwStage h
  | fwStageDone => exact hasKeys_execFwStageDone h
  | fwSwitch => exact hasKeys_execFwSwitch h
  | fwSwitchLands => exact hasKeys_execFwSwitchLands h
  | fwCoreReady => exact hasKeys_execFwCoreReady h
  | fwReadyTimeout => exact hasKeys_execFwReadyTimeout h
  | lifecycleTransition | lifecycleAddKey | lifecycleRevokeImageKey | lifecycleRevokeFwKey =>
    intro t e
    cases (lifecycleCmd_waits _ _ (.inl hl)).symm.trans e
    exact h
  | wipeStagedFirmware =>
    intro t e
    cases (execWipeStagedFirmware_waits _ (.inl hl)).symm.trans e
    exact h
  | delayedDeviceReset => exact hasKeys_execDelayedDeviceReset h
  | vinRise => exact hasKeys_execVinRise h
  | powerStageRestart => exact hasKeys_execPowerStageRestart h
  | stagedStartPhaseEnd => exact hasKeys_execStagedStartPhaseEnd hn h
  | perstAssert => exact hasKeys_execPerstAssert h
  | _ =>
    -- no other command lists them
    dsimp only [touches] at hi
    exact absurd hi (by decide)

end

theorem exec_keeps_imageKeys {s : State} {i : Instr} {t : State} (hl : s.hal.load ≠ none) (hn : s.sec.erase = none) (e : exec i s = .next t) :
    t.sec.imageKeys = s.sec.imageKeys := by
  by_cases hi : Piece.sec ∈ touches i
  · exact hasKeys_exec_of_touched hi hl hn rfl t e
  · rw [exec_sec_of_untouched hi e]

/-- Settles O59: each row of LIFECYCLE and WIPE is passed over, and no other command writes the keys. -/
theorem keysStayWhileALoadIsInProgress : Obligations.KeysStayWhileALoadIsInProgress := by
  refine ⟨fun s c auth hs => ?_, fun i s t hl hn e => exec_keeps_imageKeys hl hn e⟩
  exact ⟨lifecycleCmd_waits 0 auth hs, lifecycleCmd_waits 1 auth hs, lifecycleCmd_waits 2 auth hs, lifecycleCmd_waits 3 auth hs,
    execWipeFreeSpace_waits c hs, execWipeDevice_waits c hs, execWipeStagedFirmware_waits c hs⟩

end Sys2Proof.Machine
end

section
/-! PROOF. The host interface: rings, doorbells and the fetcher (R339 to R342, R348), its resets (R357, R374), Bus Master Enable and power states
(R358, R372), and the commands that only report (R351, R352, R397, R471 to R473). -/

namespace Sys2Proof.Machine

/-! ### What records leave of the interface: all but the messages held, and the fetcher's stop (R368, R372, R408) -/

/-- The interface, the messages held and the fetcher's stop apart. -/
def hifKept (s : State) : Hif := { s.hif with pba := [], fetchStopped := false }

/-- Every piece but the host interface (bit 2). -/
abbrev offHif : Nat := 0x1fffffb

theorem hifKept_of_moves {s t : State} (h : Moves offHif s t) : hifKept t = hifKept s := by unfold hifKept; rw [h.frame.b2 rfl]

theorem hifKept_foldl {α : Type} {f : State → α → State} (h : ∀ s x, hifKept (f s x) = hifKept s) (l : List α) (s : State) :
    hifKept (l.foldl f s) = hifKept s := by
  induction l generalizing s with
  | nil => rfl
  | cons x l ih => exact (ih _).trans (h s x)

theorem linkUp_of_hifKept {s t : State} (h : hifKept t = hifKept s) : t.hif.linkUp = s.hif.linkUp := (congrArg Hif.linkUp h :)
theorem fwStage_of_hifKept {s t : State} (h : hifKept t = hifKept s) : t.hif.fwStage = s.hif.fwStage := (congrArg Hif.fwStage h :)

@[simp] theorem hifKept_sendMessage (s : State) (v : Nat) : hifKept (sendMessage s v) = hifKept s := by
  unfold sendMessage; dsimp only; split <;> rfl

@[simp] theorem hifKept_sendBehind (s : State) (v : Nat) (r : Option (Bool × Nat)) : hifKept (sendBehind s v r) = hifKept s := by
  unfold sendBehind
  split
  · split
    · unfold hifKept; dsimp only; split <;> rfl
    · exact hifKept_sendMessage s v
  · exact hifKept_sendMessage s v

@[simp] theorem hifKept_deliverFast (s : State) (v : Nat) (was : Bool) (r : Option (Bool × Nat)) : hifKept (deliverFast s v was r) = hifKept s := by
  unfold deliverFast
  split
  · rfl
  · exact hifKept_sendBehind s v r

@[simp] theorem hifKept_deliverNormal (s : State) (v : Nat) (r : Option (Bool × Nat)) : hifKept (deliverNormal s v r) = hifKept s := by
  unfold deliverNormal
  dsimp only
  split
  · exact hifKept_sendBehind _ v r
  · rfl

@[simp] theorem hifKept_logPut (s : State) (fast : Bool) (r : LogRecord) : hifKept (logPut s fast r) = hifKept s :=
  hifKept_of_moves (moves_logPut rfl (Moves.refl s))

/-- The part of a firing ahead of its delivery writes the log and the source alone. -/
@[simp] theorem hifKept_fireSource (s : State) (n : Nat) (rec : Option LogRecord) : hifKept (fireSource s n rec) = hifKept s := by
  unfold fireSource
  split
  · rfl
  extract_lets c tag l s0 s1 again c' evt s2
  have h1 : hifKept s1 = hifKept s := by
    unfold s1
    split
    · rfl
    · dsimp only
      rw [hifKept_logPut]
      exact hifKept_of_moves (by split; exacts [moves_noteFast rfl (moves_setLog rfl (Moves.refl s)), moves_setLog rfl (Moves.refl s)])
  have h2 : hifKept s2 = hifKept s := h1
  clear_value s2
  split
  · exact h2
  split
  · exact (hifKept_deliverFast _ _ _ _).trans h2
  · exact (hifKept_deliverNormal _ _ _).trans h2

@[simp] theorem hifKept_postDev (s : State) (source code : Nat) (site : Site) (time : Fc) (detail : Nat) :
    hifKept (postDev s source code site time detail) = hifKept s := by
  unfold postDev postEvent
  exact hifKept_fireSource _ _ _

@[simp] theorem hifKept_foldCounters (s : State) : hifKept (foldCounters s) = hifKept s :=
  hifKept_foldl (fun _ _ => hifKept_postDev _ _ _ _ _ _) _ _

@[simp] theorem hifKept_tally (s : State) (t : Tally) : hifKept (tally s t) = hifKept s := hifKept_foldCounters s

@[simp] theorem hifKept_countEvent (s : State) (ev : Nat) (site : Site) (stream : Option Nat) (addr cls : Nat) (priv : Bool) :
    hifKept (countEvent s ev site stream addr cls priv) = hifKept s := hifKept_tally _ _

@[simp] theorem hifKept_count (s : State) (k : Nat × Nat) (n : Nat) : hifKept (count s k n) = hifKept s := by
  unfold count
  split
  · rfl
  · exact hifKept_tally _ _

@[simp] theorem hifKept_traceEnter (s : State) (r : TraceRec) : hifKept (traceEnter s r) = hifKept s := by
  unfold traceEnter
  dsimp only
  split
  · split
    · exact hifKept_count _ _ _
    · rfl
  · have h0 : hifKept (rcNote s rcTraceLost s.trace.lost) = hifKept s := hifKept_of_moves (moves_rcNote rfl (Moves.refl s))
    split
    · rw [hifKept_postDev, hifKept_count]; exact h0
    · rw [hifKept_count]; exact h0

@[simp] theorem hifKept_traceTrigger (s : State) (src byType buf : Nat) : hifKept (traceTrigger s src byType buf) = hifKept s := by
  unfold traceTrigger
  dsimp only
  split
  · split
    · exact hifKept_postDev _ _ _ _ _ _
    · exact hifKept_traceEnter _ _
  · rw [hifKept_count]
    split <;> rfl
  · rfl

@[simp] theorem hifKept_traceAt (s : State) (type : Nat) (site : Site) (stream : Option Nat) (frame d0 d1 d2 : Dword) (time : Fc) :
    hifKept (traceAt s type site stream frame d0 d1 d2 time) = hifKept s := by
  unfold traceAt
  dsimp only
  split
  · split
    · exact (hifKept_traceTrigger _ _ _ _).trans (hifKept_traceEnter _ _)
    · exact hifKept_traceEnter _ _
  · rfl

@[simp] theorem hifKept_faultTraced (s : State) (code cls : Nat) (site : Site) (stream : Option Nat) (frame d0 d1 : Dword) (time : Fc) :
    hifKept (faultTraced s code cls site stream frame d0 d1 time) = hifKept s := by
  unfold faultTraced
  dsimp only
  split
  · simp
  · simp

@[simp] theorem hifKept_faultPlain (s : State) (code cls : Nat) (site : Site) (stream : Option Nat) (frame d0 d1 : Dword) (time : Fc) :
    hifKept (faultPlain s code cls site stream frame d0 d1 time) = hifKept s :=
  (hifKept_faultTraced _ _ _ _ _ _ _ _ _).trans (hifKept_fireSource _ _ _)

@[simp] theorem hifKept_spanClosed (b s : State) : hifKept (spanClosed b s) = hifKept s :=
  hifKept_foldl (fun x p => by split; exacts [rfl, hifKept_postDev _ _ _ _ _ _]) _ _

@[simp] theorem hifKept_fatalStop (s : State) : hifKept (fatalStop s) = hifKept s := rfl

@[simp] theorem hifKept_faultAt (s : State) (code cls : Nat) (site : Site) (stream : Option Nat) (frame d0 d1 : Dword) (time : Fc) :
    hifKept (faultAt s code cls site stream frame d0 d1 time) = hifKept s := by
  unfold faultAt
  extract_lets r hal s1 s4 pins s5
  have h1 : hifKept s1 = hifKept s := by
    unfold s1
    split
    · rfl
    · exact hifKept_fireSource _ _ _
  clear_value s1
  have h4 : hifKept s4 = hifKept s := (hifKept_faultTraced _ _ _ _ _ _ _ _ _).trans h1
  clear_value s4
  have h5 : hifKept s5 = hifKept s := h4
  clear_value s5
  split
  · split
    · exact h5
    · exact (hifKept_spanClosed _ _).trans h5
  · exact h4

@[simp] theorem hifKept_fault (s : State) (code cls : Nat) (site : Site) (d0 d1 : Dword) : hifKept (fault s code cls site d0 d1) = hifKept s := by
  unfold fault
  exact hifKept_faultAt _ _ _ _ _ _ _ _ _

@[simp] theorem hifKept_faultFrame (s : State) (code cls : Nat) (site : Site) (st frame : Nat) (d0 d1 : Dword) :
    hifKept (faultFrame s code cls site st frame d0 d1) = hifKept s := by
  unfold faultFrame
  exact hifKept_faultAt _ _ _ _ _ _ _ _ _

/-! ### Rings (R340 to R342) -/

theorem ringCfgWrite_enable {s : State} {r : Nat} {v : Dword} (hr : r < 16) (hst : (ringOf s r).state = .disabled) (hv : dbit v 0 = true)
    (hq : 4 ≤ dbits v 7 4 ∧ dbits v 7 4 ≤ 12) (hc : 4 ≤ dbits v 11 8 ∧ dbits v 11 8 ≤ 12)
    (hb : lohi (ringOf s r).sqLo (ringOf s r).sqHi % 4096 = 0) (hd : lohi (ringOf s r).cqLo (ringOf s r).cqHi % 4096 = 0) :
    ringCfgWrite s r v = setRing s r { ringOf s r with
      sqLog2 := dbits v 7 4, cqLog2 := dbits v 11 8, maxPriority := dbits v 13 12, privileged := dbit v 16, state := .enabled, enable := true,
      cause := 0, sqHead := 0, sqTail := 0, cqHead := 0, cqTail := 0, reserved := 0, open_ := 0 } := by
  unfold ringCfgWrite
  simp only [if_neg (Nat.not_le.2 hr), hst, hv, if_true, if_pos (show _ ∧ _ ∧ _ ∧ _ ∧ _ ∧ _ from ⟨hq.1, hq.2, hc.1, hc.2, hb, hd⟩)]

theorem ringCfgWrite_disable {s : State} {r : Nat} {v : Dword} {u : RingState} (hr : r < 16)
    (hu : ((ringOf s r).state = .enabled ∧ u = .draining) ∨ ((ringOf s r).state = .error ∧ u = .disabled)) (hv : dbit v 0 = false) :
    ringCfgWrite s r v = setRing s r { ringOf s r with state := u, enable := false } := by
  unfold ringCfgWrite
  obtain ⟨h, rfl⟩ | ⟨h, rfl⟩ := hu <;> simp [Nat.not_le.2 hr, h, hv]

/-- Settles O11: enable, disable and drain done, each with the ring that it names and the rings that it leaves. -/
theorem ringsChangeStateAsTheTableSays : Obligations.RingsChangeStateAsTheTableSays := by
  intro s r v hl hr
  have hlen : r < s.hif.rings.length := hl.symm ▸ hr
  refine ⟨fun hst hv h1 h2 h3 h4 h5 h6 => ⟨_, rfl, ?_⟩, fun u hu hv => ⟨_, rfl, ?_⟩, fun hst ho => ⟨_, rfl, ?_⟩⟩
  · rw [if_pos hv, ringCfgWrite_enable hr hst hv ⟨h1, h2⟩ ⟨h3, h4⟩ h5 h6]
    simp only [ringOf_setRing s _ hlen, true_and]
    exact fun k hk => ringOf_setRing_other s _ hk
  · rw [if_neg (by simp [hv]), ringCfgWrite_disable hr hu hv]
    exact ⟨ringOf_setRing s _ hlen, fun k hk => ringOf_setRing_other s _ hk⟩
  · rw [if_pos ⟨hst, ho⟩]
    exact ⟨ringOf_setRing s _ hlen, fun k hk => ringOf_setRing_other s _ hk⟩

theorem ringRuns_of {x : Ring} {r : Nat} (hr : r < 16) (hx : x.state = .enabled ∨ x.state = .draining) :
    ¬ (x.state = .disabled ∨ x.state = .error ∨ 16 ≤ r) := by
  rcases hx with h | h <;> simp [h] <;> omega

theorem doorbellTail_valid {s : State} {r : Nat} {v : Dword} (hr : r < 16) (hx : (ringOf s r).state = .enabled ∨ (ringOf s r).state = .draining)
    (hc : ptrCount ((ringOf s r).sqLog2 + 1) (ringOf s r).sqHead (v.toNat % 2 ^ ((ringOf s r).sqLog2 + 1)) ≤ 2 ^ (ringOf s r).sqLog2) :
    doorbellTail s r v = setRing s r { ringOf s r with sqTail := v.toNat % 2 ^ ((ringOf s r).sqLog2 + 1) } := by
  unfold doorbellTail
  simp only [if_neg (ringRuns_of hr hx), if_neg (Nat.not_lt.2 hc)]

theorem doorbellHead_valid {s : State} {r : Nat} {v : Dword} (hr : r < 16) (hx : (ringOf s r).state = .enabled ∨ (ringOf s r).state = .draining)
    (hc : ptrCount ((ringOf s r).cqLog2 + 1) (ringOf s r).cqHead (v.toNat % 2 ^ ((ringOf s r).cqLog2 + 1)) ≤
      ptrCount ((ringOf s r).cqLog2 + 1) (ringOf s r).cqHead (ringOf s r).cqTail) :
    doorbellHead s r v = setRing s r { ringOf s r with cqHead := v.toNat % 2 ^ ((ringOf s r).cqLog2 + 1) } := by
  unfold doorbellHead
  simp only [if_neg (ringRuns_of hr hx), if_neg (Nat.not_lt.2 hc)]

/-- What R339 allows does not depend on the ring that was visited last. -/
theorem fetchOne_visited {s : State} {r k : Nat} {p : Packet} (h : fetchable s ⟨r, p⟩ = true) :
    fetchOne { s with hif := { s.hif with lastVisited := k } } r p =
      some { s with hif := { s.hif with
        lastVisited := k, rings := (fetched s ⟨r, p⟩).hif.rings, intake := s.hif.intake ++ [⟨r, p⟩] } } := by
  have hv : fetchable { s with hif := { s.hif with lastVisited := k } } ⟨r, p⟩ = true := h
  unfold fetchOne
  rw [if_pos hv]
  rfl

theorem packetFetch_one {s : State} {r : Nat} {p : Packet} (hu : hostUp s = true) (hf : s.hif.fetchStopped = false) (hw : s.hif.fwStage ≠ 0)
    (he : (ringOf s r).state = .enabled) (hn : nextRound s.hif.lastVisited 16 (fun k => (ringOf s k).state == .enabled) = some r)
    (h : fetchable s ⟨r, p⟩ = true) :
    packetFetch s r (some [p]) = { s with hif := { s.hif with
      lastVisited := r, rings := (fetched s ⟨r, p⟩).hif.rings, intake := s.hif.intake ++ [⟨r, p⟩] } } := by
  unfold packetFetch
  rw [if_neg (by simp [hu, hf, hw, he, hn])]
  simp only [List.take_succ_cons, List.take_nil, fetchMany, fetchOne_visited h]

theorem ringOf_fetched {s : State} {c : HostCmd} (h : c.ring < s.hif.rings.length) :
    ringOf (fetched s c) c.ring = { ringOf s c.ring with
      sqHead := ((ringOf s c.ring).sqHead + 1) % 2 ^ ((ringOf s c.ring).sqLog2 + 1)
      reserved := (ringOf s c.ring).reserved + reserveOf c.pkt, open_ := (ringOf s c.ring).open_ + 1 } := by
  unfold fetched modRing ringOf
  rw [lmod_eq_set _ {} h]
  exact lget_set_same _ _ h

/-- Settles O12: the two doorbells and the fetcher's visit. -/
theorem doorbellsAndFetchMoveTheirPointer : Obligations.DoorbellsAndFetchMoveTheirPointer := by
  rintro s r v _ hl hr rfl
  refine ⟨fun hx hc => ⟨_, rfl, ?_⟩, fun hx hc => ⟨_, rfl, ?_⟩, fun p hu hf hw he hn _ h => ⟨_, rfl, ?_⟩⟩
  · rw [doorbellTail_valid hr hx hc]
    rfl
  · rw [doorbellHead_valid hr hx hc]
    rfl
  · rw [packetFetch_one hu hf hw he hn h]
    have hring := ringOf_fetched (s := s) (c := ⟨r, p⟩) (hl.symm ▸ hr)
    exact ⟨rfl, congrArg Ring.sqHead hring, congrArg Ring.reserved hring⟩

/-! ### Resets of the host interface (R357, R374) -/

theorem set_lget_self {α : Type} (l : List α) (i : Nat) (d : α) : l.set i (lget l i d) = l := by
  refine List.ext_getElem? fun j => ?_
  by_cases h : i = j
  · subst h
    by_cases hi : i < l.length <;> simp [lget, hi]
  · simp [h]

theorem hostRecordFails_streams (s : State) (st : Nat) : ∃ c, (hostRecordFails s st).streams = s.streams.set st c := by
  have hself := (set_lget_self s.streams st {}).symm
  unfold hostRecordFails
  dsimp only
  split
  · split
    · exact ⟨_, hself⟩
    · refine ⟨_, ((count_frame _ _ _).2.2.2.2.2.2.2.2.2.1).trans (faultFrame_streams _ _ _ _ _ _ _)⟩
  · exact ⟨_, hself⟩

theorem descToIdle_streams (s : State) (st : Nat) : ∃ c : StreamCtx, c.desc.state = .idle ∧ (descToIdle s st).streams = s.streams.set st c := by
  obtain ⟨c, hc⟩ := hostRecordFails_streams s st
  unfold descToIdle
  dsimp only
  rw [hc]
  exact ⟨_, rfl, List.set_set ..⟩

theorem foldl_descToIdle_idle {l : List Nat} {s : State} {st : Nat} (hst : st < s.streams.length)
    (h : st ∈ l ∨ (streamOf s st).desc.state = .idle) : (streamOf (l.foldl descToIdle s) st).desc.state = .idle := by
  induction l generalizing s with
  | nil => simpa using h
  | cons k l ih =>
    obtain ⟨c, hc, hs⟩ := descToIdle_streams s k
    refine ih (by simpa [hs] using hst) ?_
    by_cases hk : st = k
    · subst hk
      exact .inr (by rw [streamOf, hs, lget_set_same _ _ hst]; exact hc)
    · refine h.imp (fun g => by simpa [hk] using g) fun g => ?_
      rw [streamOf, hs, lget_set_other _ _ _ hk]
      exact g

theorem hifReset_idle {s : State} {st : Nat} (hl : s.streams.length = 32) (hst : st < 32) : (streamOf (hifReset s) st).desc.state = .idle := by
  unfold hifReset
  extract_lets hif s1
  have h1 : (streamOf s1 st).desc.state = .idle := by
    unfold s1
    exact foldl_descToIdle_idle (hl.symm ▸ hst) (.inl (List.mem_range.2 hst))
  clear_value s1
  exact h1

/-- A change of the interface, the events, the halyard, the streams, the span ports, the pins, the trace and the counters alone, behind a reset. -/
theorem hostSideReset_of_moves {s t : State} (h : Moves 0x19501e s t) (hr : t.hif.rings = List.replicate 16 {}) (hi : t.hif.intake = [])
    (hb : t.hif.busMaster = false) (hm : t.hif.msix = List.replicate 64 {}) (hg : t.cnt.grants = []) : hostSideReset s t :=
  ⟨hr, hi, hb, hm, hg, h.frame.b5 rfl, h.frame.b6 rfl, h.frame.b11 rfl, h.frame.b13 rfl, h.frame.b15 rfl, h.frame.b17 rfl⟩

theorem hostSideReset_hifReset (s : State) : hostSideReset s (hifReset s) :=
  hostSideReset_of_moves (moves_hifReset rfl (Moves.refl s)) rfl rfl rfl rfl rfl

theorem linkUp_hostRecordFails (s : State) (st : Nat) : (hostRecordFails s st).hif.linkUp = s.hif.linkUp := by
  unfold hostRecordFails
  dsimp only
  split
  · split
    · rfl
    · exact linkUp_of_hifKept ((hifKept_count _ _ _).trans (hifKept_faultFrame _ _ _ _ _ _ _ _))
  · rfl

theorem linkUp_descToIdle (s : State) (st : Nat) : (descToIdle s st).hif.linkUp = s.hif.linkUp := linkUp_hostRecordFails s st

theorem linkUp_foldl {α : Type} {f : State → α → State} (h : ∀ s x, (f s x).hif.linkUp = s.hif.linkUp) (l : List α) (s : State) :
    (l.foldl f s).hif.linkUp = s.hif.linkUp := by
  induction l generalizing s with
  | nil => rfl
  | cons x l ih => exact (ih _).trans (h s x)

/-- A reset of the interface keeps the link as it is. -/
theorem linkUp_hifReset (s : State) : (hifReset s).hif.linkUp = s.hif.linkUp := by
  unfold hifReset
  extract_lets hif s1
  have h1 : s1.hif.linkUp = s.hif.linkUp := linkUp_foldl linkUp_descToIdle _ _
  clear_value s1
  exact h1

theorem linkUp_ringError (s : State) (r code cause value : Nat) : (ringError s r code cause value).hif.linkUp = s.hif.linkUp := by
  unfold ringError
  extract_lets s1 hif s2
  have h2 : s2.hif.linkUp = s.hif.linkUp := rfl
  clear_value s2
  exact (linkUp_of_hifKept (hifKept_fault _ _ _ _ _ _)).trans h2

theorem linkUp_heldWriteFails (s : State) (c : HeldCompletion) : (heldWriteFails s c).hif.linkUp = s.hif.linkUp := by
  unfold heldWriteFails
  split
  · dsimp only
    split
    · exact linkUp_ringError _ _ _ _ _
    · rfl
  · exact linkUp_of_hifKept (hifKept_faultPlain _ _ _ _ _ _ _ _ _)

theorem linkUp_aerReport (s : State) (e : PcieError) : (aerReport s e).hif.linkUp = s.hif.linkUp := rfl

theorem linkDown_linkUp {s t : State} (h : execLinkDown s = .next t) : t.hif.linkUp = false := by
  unfold execLinkDown at h
  extract_lets hif s0 s1 held at h
  have h1 : s1.hif.linkUp = false := linkUp_foldl linkUp_heldWriteFails _ _
  clear_value s1
  rw [← Host.Outcome.next.inj h, linkUp_aerReport, linkUp_hifReset]
  exact h1

/-- Settles O13: a clause for each of the three host resets. -/
theorem hostResetsClearTheInterfaceAlone : Obligations.HostResetsClearTheInterfaceAlone := fun s =>
  ⟨⟨_, rfl, hostSideReset_hifReset s, fun hl _ hst => hifReset_idle hl hst⟩,
    ⟨_, rfl, hostSideReset_hifReset s, fun hl _ hst => hifReset_idle hl hst⟩, ⟨_, rfl, hostSideReset_of_moves (moves_execLinkDown rfl (Moves.refl s) _ rfl) rfl rfl rfl rfl rfl, linkDown_linkUp rfl⟩⟩

/-! ### Host access held and resumed (R358, R372) -/

/-- Settles O14: a clause for each change of the host's access. -/
theorem hostAccessIsHeldAndResumed : Obligations.HostAccessIsHeldAndResumed := by
  intro s
  refine ⟨rfl, fun h => ?_, rfl, rfl, fun v => ⟨rfl, fun h => ?_, fun h => ?_⟩⟩
  · exact if_neg (by simp [h])
  · exact congrArg Host.Outcome.next (if_neg (Bool.eq_false_iff.1 h))
  · exact congrArg Host.Outcome.next (if_pos h)

/-! ### Commands that report (R351, R352, R397, R471 to R473) -/

theorem execNop_ready {s : State} {c : HostCmd} (h : Ready 0x01 0 s c) :
    execNop c s = .next (finishTaken (begun s c) c stOK (pktDw c.pkt 2).toNat []) := by
  unfold execNop
  exact takeCmd_finish h rfl

theorem execIdentify_ready {s : State} {c : HostCmd} (h : Ready 0x02 0 s c) (ha : pktQ c.pkt 2 % 64 = 0) :
    execIdentify c s = .next (finishTaken (begun s c) c stOK 0 [(pktQ c.pkt 2, identifyBytes (begun s c))]) := by
  unfold execIdentify
  exact takeCmd_finish h (if_neg (by simp [ha]))

theorem execThermalRead_ready {s : State} {c : HostCmd} (h : Ready 0x61 0 s c) (hp : pktOnly c.pkt [(2, 0xFFFFFFFF), (3, 0xFFFFFFFF)] = true)
    (ha : pktQ c.pkt 2 % 64 = 0) :
    execThermalRead c s = .next (finishTaken { begun s c with fresh := (begun s c).fresh + 16 } c stOK 0
      [(pktQ c.pkt 2, thermalBytes (begun s c))]) := by
  unfold execThermalRead
  exact takeCmd_finish h (if_neg (by simp only [hp, ha]; simp))

theorem execAttestReport_ready {s : State} {c : HostCmd} (h : Ready 0x03 0 s c) (r : Room s c)
    (hp : pktOnly c.pkt ((2, 1) :: (List.range 10).map (fun k => (k + 3, (0xFFFFFFFF : Dword)))) = true) (ha : pktQ c.pkt 3 % 64 = 0)
    (h1 : (begun s c).sec.life ≠ .scrapped) (h2 : (begun s c).sec.life ≠ .manufacture) (h3 : (begun s c).sec.identity ≠ none) :
    execAttestReport c s = .next (pendTaken (begun s c) c (.attest (pktQ c.pkt 3)
      (reportBytes (begun s c) ((List.range 8).flatMap (fun k => dwBytes (pktDw c.pkt (5 + k))))))) := by
  unfold execAttestReport
  refine takeCmd_pend h r ?_
  dsimp only
  rw [if_neg (by simp only [hp, ha]; simp), if_neg (by simp [h1, h2, h3])]

theorem execAttestCertificate_ready {s : State} {c : HostCmd} {bytes : List Byte} (h : Ready 0x03 1 s c) (r : Room s c)
    (hp : pktOnly c.pkt [(2, 1), (3, 0xFFFFFFFF), (4, 0xFFFFFFFF)] = true) (ha : pktQ c.pkt 3 % 64 = 0)
    (h1 : (begun s c).sec.life ≠ .manufacture) (h2 : (begun s c).sec.certificate = some bytes) :
    execAttestCertificate c s = .next (pendTaken (begun s c) c (.attest (pktQ c.pkt 3) bytes)) := by
  unfold execAttestCertificate
  refine takeCmd_pend h r ?_
  dsimp only
  rw [if_neg (by simp only [hp, ha]; simp), h2]
  split
  · exact absurd ‹_› h1
  · simp_all
  · simp_all

theorem execAttestDone_first {s : State} {p : PendCmd} {rest : List PendCmd} {addr : Nat} {bytes : List Byte} (h : s.hif.pendings = p :: rest)
    (hk : p.kind = .attest addr bytes) : execAttestDone s = .next (finishPend s p stOK (dw bytes.length) s.now [(addr, bytes)]) := by
  unfold execAttestDone
  rw [h, List.find?_cons_of_pos (by rw [hk])]
  simp only [hk]
  rfl

/-- Settles O10: a clause for each command. -/
theorem plainCommandsComplete : Obligations.PlainCommandsComplete :=
  ⟨fun _ _ => execNop_ready, fun _ _ => execIdentify_ready, fun _ _ h hp ha => ⟨_, execThermalRead_ready h hp ha, rfl⟩,
    fun _ _ => execAttestReport_ready, fun _ _ _ => execAttestCertificate_ready, fun _ _ _ _ _ => execAttestDone_first⟩

end Sys2Proof.Machine
end

section
/-! PROOF. STREAM_OPEN leaves a closed stream in its first mode, and STREAM_CLOSE, the last frame and the timeout leave it CLOSED (R308, R326, R328,
R329). -/

namespace Sys2Proof.Machine

/-! ### Streams that move and close -/

theorem streamOf_modStream_other {s : State} {st k : Nat} (f : StreamCtx → StreamCtx) (h : k ≠ st) :
    streamOf (modStream s st f) k = streamOf s k := by
  unfold modStream lmod streamOf
  dsimp only
  split
  · exact lget_set_other _ _ _ h
  · rfl

theorem streamOf_moveStream_other {s : State} {st k : Nat} (x : StreamState) (h : k ≠ st) : streamOf (moveStream s st x) k = streamOf s k := by
  unfold moveStream
  split
  · rfl
  · rw [streamOf_of_streams (streams_of_moves (moves_postStream rfl (Moves.refl _))), streamOf_modStream_other _ h]

@[simp] theorem moveStream_length (s : State) (st : Nat) (x : StreamState) : (moveStream s st x).streams.length = s.streams.length := by
  unfold moveStream
  split
  · rfl
  · rw [streams_of_moves (moves_postStream rfl (Moves.refl _)), modStream_length]

/-- A closed stream keeps no frame. -/
theorem closeStream_closed {s : State} {st : Nat} (h : st < s.streams.length) :
    (streamOf (closeStream s st) st).state = .closed ∧ (streamOf (closeStream s st) st).frames = [] := by
  have hl : st < (descStops s st).streams.length := by rw [length_of_intake (intake_descStops s st)]; exact h
  unfold closeStream
  dsimp only
  rw [streamOf_moveStream _ (by rw [modStream_length]; exact hl), streamOf_modStream _ _ hl]
  exact ⟨rfl, rfl⟩

theorem abortFrames_length {s : State} {st : Nat} (code : Nat) (h : st < s.streams.length) :
    (abortFrames s st code).1.streams.length = s.streams.length := by
  unfold abortFrames
  dsimp only
  generalize (streamOf s st).frames.filter inFlight = fs
  induction fs generalizing s with
  | nil => rfl
  | cons f fs ih =>
    have hf := (ingressAbort_own f code h).1
    exact (ih (by rw [hf]; exact h)).trans hf

/-- A stream that begins to close, with every stream there still. -/
theorem beginClose_closing {s : State} {st : Nat} (h : st < s.streams.length) :
    (beginClose s st).streams.length = s.streams.length ∧ (streamOf (beginClose s st) st).state = .closing := by
  unfold beginClose
  extract_lets s1
  have hl : s1.streams.length = s.streams.length := by
    unfold s1
    rw [streams_of_moves (moves_finishEvery rfl (Moves.refl _)), modStream_length]
  rw [length_of_intake (intake_syncHolds _ st), state_of_intake (intake_syncHolds _ _), streamOf_moveStream _ (by rw [hl]; exact h),
    moveStream_length]
  exact ⟨hl, rfl⟩

/-! ### STREAM_OPEN (R326) -/

theorem streamOpen_opens {s : State} {p : Packet} (hw : dbits (pktDw p 2) 9 8 ≠ 3)
    (hlast : dbits (pktDw p 2) 4 0 + 2 ^ dbits (pktDw p 2) 9 8 ≤ 32) (hm : dbits (pktDw p 2) 4 0 % 2 ^ dbits (pktDw p 2) 9 8 = 0)
    (hp : pktOnly p [(2, 0xF71F), (3, 0xFFFFFFFF), (4, 0xFFFF01FF), (5, 0xFFFFFFFF), (6, 0xFFFFFFFF), (7, 0xFFFFFFFF)] = true)
    (hf : dbits (pktDw p 4) 7 4 ≤ 4) (h5 : notFinite32 (pktDw p 5) = false) (h6 : notFinite32 (pktDw p 6) = false)
    (hpath : dbit (pktDw p 2) 10 = true → dbits (pktDw p 2) 13 12 ≠ 0) (hbudget : dbit (pktDw p 2) 14 = true → pktDw p 7 ≠ 0)
    (hserve : dbit (pktDw p 2) 10 = true → servesStream s (dbits (pktDw p 2) 4 0) = true)
    (hclosed : (streamOf s (dbits (pktDw p 2) 4 0)).state = .closed)
    (hfree : laneTaken s (dbits (pktDw p 2) 4 0) (2 ^ dbits (pktDw p 2) 9 8) = false) :
    streamOpen s p = okAt (moveStream (setStream (forgetTacks s (dbits (pktDw p 2) 4 0)) (dbits (pktDw p 2) 4 0) (openedStream (streamOf s (dbits (pktDw p 2) 4 0)) p))
      (dbits (pktDw p 2) 4 0) (if dbit (pktDw p 2) 10 then .infer else .courier)) := by
  have hpresent : ¬ (Config.streams ≤ dbits (pktDw p 2) 4 0 ∨
      (dbits (pktDw p 2) 9 8 ≠ 3 ∧ Config.streams < dbits (pktDw p 2) 4 0 + 2 ^ dbits (pktDw p 2) 9 8)) := fun g =>
    g.elim (Nat.not_le.mpr (dbits_stream_lt _)) (fun g => Nat.not_lt.mpr hlast g.2)
  have hgood : (dbits (pktDw p 2) 13 12 == 0 && dbit (pktDw p 2) 10) = false ∧ (dbit (pktDw p 2) 14 && pktDw p 7 == 0) = false ∧
      (dbit (pktDw p 2) 10 && !servesStream s (dbits (pktDw p 2) 4 0)) = false := by
    refine ⟨?_, ?_, ?_⟩
    · cases h : dbit (pktDw p 2) 10
      · simp
      · simpa using hpath h
    · cases h : dbit (pktDw p 2) 14
      · simp
      · simpa using hbudget h
    · cases h : dbit (pktDw p 2) 10
      · simp
      · simpa using hserve h
  obtain ⟨g1, g2, g3⟩ := hgood
  unfold streamOpen
  dsimp only
  rw [if_neg hpresent, hp, beq_eq_false_iff_ne.mpr hw, hm, decide_eq_false (Nat.not_lt.mpr hf), h5, h6, g1, g2, g3, if_neg (by simp),
    if_neg (by simp [hclosed, hfree])]

theorem streamOf_opened {s : State} {st : Nat} (c : StreamCtx) (x : StreamState) (h : st < s.streams.length) :
    streamOf (moveStream (setStream (forgetTacks s st) st c) st x) st = { c with state := x } := by
  rw [streamOf_moveStream _ (by rw [setStream_length]; exact h)]
  exact congrArg (fun c : StreamCtx => { c with state := x }) (streamOf_setStream (forgetTacks s st) _ h)

theorem streamOf_opened_other {s : State} {st k : Nat} (c : StreamCtx) (x : StreamState) (h : k ≠ st) :
    streamOf (moveStream (setStream (forgetTacks s st) st c) st x) k = streamOf s k := by
  rw [streamOf_moveStream_other _ h, streamOf_setStream_other _ _ h]
  rfl

/-! ### STREAM_CLOSE (R328, R329) -/

/-- The limit of a close that pends. -/
theorem streamOf_closeLimit {s : State} {st : Nat} (l : Bool × Fc) (h : st < s.streams.length) :
    (streamOf (modStream s st (fun x => { x with closeHow := some l })) st).state = (streamOf s st).state ∧
    (streamOf (modStream s st (fun x => { x with closeHow := some l })) st).closeHow = some l := by
  rw [streamOf_modStream _ _ h]
  exact ⟨rfl, rfl⟩

/-- A STREAM_CLOSE that is well formed, of a stream that is not closing: at once for a CLOSED stream, with how 1, or with no frame in flight. -/
theorem streamClose_cases {s : State} {p : Packet} (hp : pktOnly p [(2, 0x11F), (3, 0xFFFFFFFF)] = true)
    (hu : (if pktDw p 3 = 0 then 10000 else (pktDw p 3).toNat) ≤ 1000000) (hc : (streamOf s (dbits (pktDw p 2) 4 0)).state ≠ .closing) :
    streamClose s p =
      if (streamOf s (dbits (pktDw p 2) 4 0)).state = .closed then okAt (descStops s (dbits (pktDw p 2) 4 0))
      else if dbit (pktDw p 2) 8 then
        okAt (closeStream (abortFrames (beginClose s (dbits (pktDw p 2) 4 0)) (dbits (pktDw p 2) 4 0) 0x0B30).1 (dbits (pktDw p 2) 4 0))
          (abortFrames (beginClose s (dbits (pktDw p 2) 4 0)) (dbits (pktDw p 2) 4 0) 0x0B30).2
      else if allLeft (streamOf (beginClose s (dbits (pktDw p 2) 4 0)) (dbits (pktDw p 2) 4 0)) then
        okAt (closeStream (beginClose s (dbits (pktDw p 2) 4 0)) (dbits (pktDw p 2) 4 0))
      else .pend (.streamClose (dbits (pktDw p 2) 4 0) false) (modStream (beginClose s (dbits (pktDw p 2) 4 0)) (dbits (pktDw p 2) 4 0)
        (fun x => { x with closeHow := some (false, s.now + (if pktDw p 3 = 0 then 10000 else (pktDw p 3).toNat) * Config.us) })) := by
  unfold streamClose
  dsimp only
  rw [if_neg (show ¬ Config.streams ≤ _ from Nat.not_le.mpr (dbits_stream_lt _)), hp, decide_eq_false (Nat.not_lt.mpr hu), beq_eq_false_iff_ne.mpr hc, if_neg (by simp)]

theorem execStreamCloseDrained_eq {s : State} {st : Nat} (hc : (streamOf s st).state = .closing) (hl : allLeft (streamOf s st) = true) :
    execStreamCloseDrained st s = .next (finishFirst (closeStream s st) (isStreamClose st) stOK 0 s.now) := if_pos ⟨hc, hl⟩

theorem execStreamCloseTimeout_eq {s : State} {st limit : Nat} {how : Bool} (hc : (streamOf s st).state = .closing)
    (hh : (streamOf s st).closeHow = some (how, limit)) (hl : allLeft (streamOf s st) = false) (hr : haltedNow s = false)
    (ht : reaches s limit = true) :
    execStreamCloseTimeout st s = .next (finishFirst (closeStream (abortFrames (advance s limit) st 0x0B30).1 st) (isStreamClose st) stTimeout
      (dw (abortFrames (advance s limit) st 0x0B30).2) (max s.now limit)) := by
  unfold execStreamCloseTimeout
  dsimp only
  rw [hh]
  exact if_pos (by simp [hc, hl, hr, ht])

/-- Settles O20: the open, the close at once or pending, and the two ends of a close that pends. -/
theorem streamsOpenAndClose : Obligations.StreamsOpenAndClose := by
  refine ⟨?_, ?_, ?_⟩
  · intro s c s1 p st w infer h hlen hw hlast hm hp hf h5 h6 hpath hbudget hserve hclosed hfree
    have hst : st < s1.streams.length := hlen.symm ▸ dbits_stream_lt _
    refine ⟨_, takeCmd_finish h (streamOpen_opens hw hlast hm hp hf h5 h6 hpath hbudget hserve hclosed hfree), ?_⟩
    rw [streamOf_opened _ _ hst]
    exact ⟨rfl, rfl, rfl, rfl, rfl, rfl, fun k hk => streamOf_opened_other _ _ hk⟩
  · intro s c s1 p st us h hlen hp hu hc
    have hst : st < s1.streams.length := hlen.symm ▸ dbits_stream_lt _
    obtain ⟨hbl, hbs⟩ := beginClose_closing hst
    have hcases := streamClose_cases hp hu hc
    refine ⟨fun hclosed => ?_, fun hopen hhow => ?_, fun hopen hhow hleft => ?_, fun hopen hhow hleft hr => ?_⟩
    · exact takeCmd_finish h (hcases.trans (if_pos hclosed))
    · refine ⟨_, _, takeCmd_finish h (hcases.trans ((if_neg hopen).trans (if_pos hhow))), closeStream_closed ?_⟩
      rw [abortFrames_length _ (hbl.symm ▸ hst), hbl]
      exact hst
    · refine ⟨_, takeCmd_finish h (hcases.trans ((if_neg hopen).trans ((if_neg (Bool.eq_false_iff.1 hhow)).trans (if_pos hleft)))), ?_⟩
      exact (closeStream_closed (hbl.symm ▸ hst)).1
    · refine ⟨_, takeCmd_pend h hr (hcases.trans ((if_neg hopen).trans ((if_neg (Bool.eq_false_iff.1 hhow)).trans
        (if_neg (Bool.eq_false_iff.1 hleft))))), ?_⟩
      obtain ⟨hstate, hlimit⟩ := streamOf_closeLimit (s := beginClose s1 st) (st := st) (false, s1.now + us * Config.us) (hbl.symm ▸ hst)
      exact ⟨hstate.trans hbs, hlimit⟩
  · intro s st hlen hst hc
    have hst' : st < s.streams.length := hlen.symm ▸ hst
    refine ⟨fun hl => ⟨_, execStreamCloseDrained_eq hc hl, (closeStream_closed hst').1⟩, fun how limit hh hl hr ht =>
      ⟨_, _, execStreamCloseTimeout_eq hc hh hl hr ht, (closeStream_closed ?_).1⟩⟩
    rw [abortFrames_length (s := advance s limit) _ hst']
    exact hst'

end Sys2Proof.Machine
end

section
/-! PROOF. The event controller: acknowledgement, idle waits, the logs, moderation and held records (R366, R367, R369 to R371, R506). -/

namespace Sys2Proof.Machine

/-! ### Lists changed at one place, and the bits of a write -/

theorem getElem?_lmod {α : Type} (l : List α) (i j : Nat) (f : α → α) : (lmod l i f)[j]? = if i = j then l[j]?.map f else l[j]? := by
  unfold lmod
  by_cases h : i = j
  · subst h
    cases hx : l[i]? with
    | none => simp [hx]
    | some x =>
      have hi : i < l.length := (List.getElem?_eq_some_iff.1 hx).1
      simp [hi]
  · cases l[i]? <;> simp [h]

theorem set_eq_lmod {α : Type} (l : List α) (i : Nat) (f : α → α) (d : α) : l.set i (f (lget l i d)) = lmod l i f := by
  by_cases h : i < l.length
  · exact (lmod_eq_set f d h).symm
  · rw [List.set_eq_of_length_le (Nat.le_of_not_lt h)]
    simp [lmod, List.getElem?_eq_none (Nat.le_of_not_lt h)]

theorem lget_eq {α : Type} (l : List α) (i : Nat) (d : α) : lget l i d = (l[i]?).getD d := List.getD_eq_getElem?_getD ..

section
variable {α : Type} {I : State → Prop} {get : State → List α} {step : State → Nat → State} {f : Nat → α → α} {v : Dword} {base : Nat}

/-- What the write of a register does for each bit that is 1. -/
def eachBit (step : State → Nat → State) (v : Dword) (base : Nat) (l : List Nat) (s : State) : State :=
  l.foldl (fun x k => if dbit v k then step x (base + k) else x) s

theorem eachBit_keeps (hI : ∀ x n, I x → I (step x n)) (l : List Nat) {s : State} (hs : I s) : I (eachBit step v base l s) := by
  induction l generalizing s with
  | nil => exact hs
  | cons k l ih =>
    refine ih ?_
    dsimp only
    split
    · exact hI _ _ hs
    · exact hs

/-- An entry that no bit names stays. -/
theorem eachBit_other (hI : ∀ x n, I x → I (step x n)) (hg : ∀ x n, I x → get (step x n) = lmod (get x) n (f n)) {l : List Nat} {n : Nat}
    (hn : ∀ k ∈ l, dbit v k = true → base + k ≠ n) {s : State} (hs : I s) : (get (eachBit step v base l s))[n]? = (get s)[n]? := by
  induction l generalizing s with
  | nil => rfl
  | cons k l ih =>
    have hl := fun j hj => hn j (List.mem_cons_of_mem k hj)
    unfold eachBit
    rw [List.foldl_cons]
    split
    next hk => exact (ih hl (hI _ _ hs)).trans (by rw [hg _ _ hs, getElem?_lmod, if_neg (hn k List.mem_cons_self hk)])
    next => exact ih hl hs

/-- An entry that one bit names is changed once. -/
theorem eachBit_named (hI : ∀ x n, I x → I (step x n)) (hg : ∀ x n, I x → get (step x n) = lmod (get x) n (f n)) {l : List Nat} (hnd : l.Nodup)
    {k : Nat} (hk : k ∈ l) (hb : dbit v k = true) {s : State} (hs : I s) :
    (get (eachBit step v base l s))[base + k]? = (get s)[base + k]?.map (f (base + k)) := by
  induction l generalizing s with
  | nil => cases hk
  | cons j l ih =>
    obtain ⟨hj, hnd'⟩ := List.nodup_cons.1 hnd
    unfold eachBit
    rw [List.foldl_cons]
    by_cases e : j = k
    · subst e
      rw [if_pos hb]
      refine (eachBit_other hI hg (fun i hi _ => ?_) (hI _ _ hs)).trans (by rw [hg _ _ hs, getElem?_lmod, if_pos rfl])
      have : i ≠ j := fun g => hj (g ▸ hi)
      omega
    · have hk' := (List.mem_cons.1 hk).resolve_left (Ne.symm e)
      split
      · exact (ih hnd' hk' (hI _ _ hs)).trans (by rw [hg _ _ hs, getElem?_lmod, if_neg (by omega)])
      · exact ih hnd' hk' hs

end

/-- Of the word with bit k alone, one step is made. -/
theorem eachBit_single (step : State → Nat → State) (base : Nat) {k : Nat} (hk : k < 32) (s : State) :
    eachBit step (BitVec.ofNat 32 (2 ^ k)) base (List.range 32) s = step s (base + k) := by
  have hbit (j : Nat) : dbit (BitVec.ofNat 32 (2 ^ k)) j = decide (j = k) := by
    have hlt : 2 ^ k < 2 ^ 32 := Nat.pow_lt_pow_right (by omega) hk
    rw [dbit, BitVec.getLsbD, BitVec.toNat_ofNat, Nat.mod_eq_of_lt hlt, Nat.testBit_two_pow]
    exact decide_eq_decide.2 eq_comm
  have hnone (l : List Nat) (hl : ∀ j ∈ l, j ≠ k) (x : State) : eachBit step (BitVec.ofNat 32 (2 ^ k)) base l x = x := by
    induction l generalizing x with
    | nil => rfl
    | cons j l ih =>
      unfold eachBit
      rw [List.foldl_cons, hbit j, if_neg (by simpa using hl j List.mem_cons_self)]
      exact ih (fun i hi => hl i (List.mem_cons_of_mem _ hi)) x
  have hsplit : List.range 32 = List.range k ++ k :: List.range' (k + 1) (31 - k) := by
    have h := List.range'_append_1 (s := 0) (m := k) (n := 31 - k + 1)
    rw [show k + (31 - k + 1) = 32 by omega, Nat.zero_add] at h
    rw [List.range_eq_range', List.range_eq_range', ← h, List.range'_succ]
  rw [hsplit]
  unfold eachBit
  rw [List.foldl_append, List.foldl_cons, hbit k, if_pos (by simp)]
  have h1 := hnone (List.range k) (fun j hj => by simp at hj; omega) s
  have h2 := hnone (List.range' (k + 1) (31 - k)) (fun j hj => by simp at hj; omega) (step s (base + k))
  unfold eachBit at h1 h2
  rw [h1, h2]


/-! ### Acknowledgement (R362, R371) -/

/-- A source acknowledged in a bank: pending no more, but for its firings of this fc. -/
def ackedSource (s : State) (fast : Bool) (c : EvtSource) : EvtSource :=
  if !(if fast then c.fastPending else c.pending) then c
  else if fast then { c with fastPending := firedNow s fast c != 0, count := sat 255 (firedNow s fast c), stoodBefore := false }
  else { c with pending := firedNow s fast c != 0, count := sat 255 (firedNow s fast c), stoodBefore := false }

theorem firedNow_of_now {s t : State} (h : t.now = s.now) (fast : Bool) (c : EvtSource) : firedNow t fast c = firedNow s fast c := by
  unfold firedNow; rw [h]

theorem ackedSource_of_now {s t : State} (h : t.now = s.now) (fast : Bool) (c : EvtSource) : ackedSource t fast c = ackedSource s fast c := by
  unfold ackedSource; rw [firedNow_of_now h]

@[simp] theorem firedNow_ackedSource (s : State) (b fast : Bool) (c : EvtSource) : firedNow s b (ackedSource s fast c) = firedNow s b c := by
  unfold ackedSource
  repeat' split
  all_goals rfl

/-- The state with one source acknowledged, ahead of its message. -/
def ackPut (s : State) (fast : Bool) (n : Nat) : State :=
  { s with evt := { s.evt with sources := lmod s.evt.sources n (ackedSource s fast) } }

theorem ackSource_eq (s : State) (fast : Bool) (n : Nat) : ∃ b : Bool, ackSource s fast n = (if b then
    sendMessage (ackPut s fast n) (lget s.evt.sources n (EvtSource.resetOf n)).firedVector else ackPut s fast n) ∧
    (b = true → fast = true ∧ firedNow s fast (lget s.evt.sources n (EvtSource.resetOf n)) ≠ 0) := by
  unfold ackPut
  rw [← set_eq_lmod _ _ _ (EvtSource.resetOf n)]
  unfold ackSource
  dsimp only
  generalize hc : lget s.evt.sources n (EvtSource.resetOf n) = c
  by_cases hp : (!(if fast then c.fastPending else c.pending)) = true
  · have he : ackedSource s fast c = c := if_pos hp
    rw [if_pos hp, he, ← hc, set_lget_self]
    exact ⟨false, rfl, fun h => by cases h⟩
  · have he : ackedSource s fast c = _ := if_neg hp
    rw [if_neg hp, he]
    refine ⟨fast && firedNow s fast c != 0 && c.stoodBefore && c.irqEnable, rfl, fun h => ?_⟩
    simp only [Bool.and_eq_true, bne_iff_ne] at h
    exact h.1.1

theorem ackSource_now (s : State) (fast : Bool) (n : Nat) : (ackSource s fast n).now = s.now := by
  obtain ⟨b, h, -⟩ := ackSource_eq s fast n
  rw [h]
  split
  · exact (sendMessage_frame _ _).1
  · rfl

theorem ackSource_sources (s : State) (fast : Bool) (n : Nat) :
    (ackSource s fast n).evt.sources = lmod s.evt.sources n (ackedSource s fast) := by
  obtain ⟨b, h, -⟩ := ackSource_eq s fast n
  rw [h]
  split
  · rw [(sendMessage_frame _ _).2.1]; rfl
  · rfl

/-- No acknowledgement in the bank can send a message: nothing of it fired in this fc (R368). -/
def AckQuiet (fast : Bool) (s : State) : Prop := fast = false ∨ ∀ c, c ∈ s.evt.sources → firedNow s true c = 0

/-- A state that differs from another in its sources alone. -/
def SourcesOnly (a s : State) : Prop := s = { a with evt := { a.evt with sources := s.evt.sources } }

theorem ackSource_quiet {s : State} {fast : Bool} (n : Nat) (h : AckQuiet fast s) : ackSource s fast n = ackPut s fast n := by
  obtain ⟨b, e, hb⟩ := ackSource_eq s fast n
  cases b with
  | false => exact e
  | true =>
    obtain ⟨hf, hn⟩ := hb rfl
    subst hf
    refine absurd ?_ hn
    rw [lget_eq]
    cases hx : s.evt.sources[n]? with
    | none => simp [EvtSource.resetOf, firedNow]
    | some c => exact (h.resolve_left (by simp)) c (List.mem_of_getElem? hx)

theorem ackQuiet_ackPut {s : State} {fast : Bool} (n : Nat) (h : AckQuiet fast s) : AckQuiet fast (ackPut s fast n) := by
  refine h.imp_right fun hall c hc => ?_
  obtain ⟨i, hi⟩ := List.mem_iff_getElem?.1 hc
  unfold ackPut at hi
  rw [getElem?_lmod] at hi
  split at hi
  · obtain ⟨d, hd, rfl⟩ := Option.map_eq_some_iff.1 hi
    exact (firedNow_ackedSource s true fast d).trans (hall d (List.mem_of_getElem? hd))
  · exact hall c (List.mem_of_getElem? hi)

theorem pendAck_quiet {s : State} {fast : Bool} (hi : Bool) (v : Dword) (h : AckQuiet fast s) : SourcesOnly s (pendAck s fast hi v) :=
  (eachBit_keeps (I := fun x => AckQuiet fast x ∧ SourcesOnly s x) (step := fun x n => ackSource x fast n) (v := v)
    (base := if hi then 32 else 0) (fun x n hx => by
      obtain ⟨hq, ho⟩ := hx
      rw [ackSource_quiet n hq]
      refine ⟨ackQuiet_ackPut n hq, ?_⟩
      unfold SourcesOnly ackPut at *
      rw [ho]) (List.range 32) ⟨h, rfl⟩).2

/-- The sources behind a write of an acknowledgement: a bit that is 1 acknowledges its source, and no other changes. -/
theorem pendAck_sources (s : State) (fast hi : Bool) (v : Dword) (n : Nat) :
    ((if hi then 32 else 0) ≤ n → n < (if hi then 32 else 0) + 32 → dbit v (n - if hi then 32 else 0) = true →
      (pendAck s fast hi v).evt.sources[n]? = s.evt.sources[n]?.map (ackedSource s fast)) ∧
    ((n < (if hi then 32 else 0) ∨ (if hi then 32 else 0) + 32 ≤ n ∨ dbit v (n - if hi then 32 else 0) = false) →
      (pendAck s fast hi v).evt.sources[n]? = s.evt.sources[n]?) := by
  have hI : ∀ (x : State) (m : Nat), x.now = s.now → (ackSource x fast m).now = s.now := fun x m hx => (ackSource_now x fast m).trans hx
  have hg : ∀ (x : State) (m : Nat), x.now = s.now → (ackSource x fast m).evt.sources = lmod x.evt.sources m (ackedSource s fast) :=
    fun x m hx => by rw [ackSource_sources, funext (ackedSource_of_now hx fast)]
  have hf : pendAck s fast hi v = eachBit (fun x n => ackSource x fast n) v (if hi then 32 else 0) (List.range 32) s := rfl
  rw [hf]
  generalize (if hi then 32 else 0) = base
  refine ⟨fun h1 h2 hb => ?_, fun hn => ?_⟩
  · have := eachBit_named (I := fun x => x.now = s.now) (get := fun x => x.evt.sources) (f := fun _ => ackedSource s fast) (base := base) hI hg
      List.nodup_range (k := n - base) (List.mem_range.2 (show n - base < 32 by omega)) hb rfl
    rwa [show base + (n - base) = n by omega] at this
  · refine eachBit_other (I := fun x => x.now = s.now) (get := fun x => x.evt.sources) (f := fun _ => ackedSource s fast) hI hg (fun k hk hb => ?_) rfl
    rintro rfl
    have hk' := List.mem_range.1 hk
    rw [Nat.add_sub_cancel_left] at hn
    rcases hn with hn | hn | hn
    · omega
    · omega
    · simp [hb] at hn

/-! ### Idle waits (R370) -/

/-- The halyard time, the sources and the vectors, which messages leave alone. -/
def waitKept (s : State) : Fc × List EvtSource × List EvtVector := (s.now, s.evt.sources, s.evt.vectors)

theorem waitKept_sendMessage (s : State) (v : Nat) : waitKept (sendMessage s v) = waitKept s := by
  unfold waitKept
  rw [(sendMessage_frame s v).1, (sendMessage_frame s v).2.1]

theorem waitKept_sendBehind (s : State) (v : Nat) (r : Option (Bool × Nat)) : waitKept (sendBehind s v r) = waitKept s := by
  unfold sendBehind
  split
  · split
    · rfl
    · exact waitKept_sendMessage s v
  · exact waitKept_sendMessage s v

theorem waitKept_sendTimes (n : Nat) (s : State) (v : Nat) (r : Option (Bool × Nat)) : waitKept (sendTimes n s v r) = waitKept s := by
  induction n generalizing s with
  | zero => rfl
  | succ n ih => exact (ih _).trans (waitKept_sendBehind s v r)

/-- Firings of a vector in this fc. -/
def firingsNow (s : State) (e : EvtVector) : Nat := if e.firedAt = s.now then e.firedIn else 0

/-- A vector behind an arming (R370). -/
def armedVector (s : State) (v : Nat) (e : EvtVector) : EvtVector :=
  if stoodPending s v || firingsNow s e != 0 then
    let left := if stoodPending s v then firingsNow s e else firingsNow s e - 1
    { e with idleArmed := false, count := left % max 1 e.countThr,
             timerFrom := if left % max 1 e.countThr = 0 ∨ e.time = 0 then none else some s.now, waits := none }
  else { e with idleArmed := true }

theorem waitKept_setVector (s : State) (v : Nat) (e : EvtVector) :
    waitKept (setVector s v e) = (s.now, s.evt.sources, s.evt.vectors.set v e) := rfl

theorem waitKept_idleArm (s : State) (v : Nat) :
    waitKept (idleArm s v) = (s.now, s.evt.sources, lmod s.evt.vectors v (armedVector s v)) := by
  rw [← set_eq_lmod _ _ _ {}]
  change _ = (s.now, s.evt.sources, s.evt.vectors.set v (armedVector s v (vectorOf s v)))
  unfold idleArm armedVector firingsNow
  dsimp only
  generalize (if (vectorOf s v).firedAt = s.now then (vectorOf s v).firedIn else 0) = k
  split
  · rw [waitKept_sendTimes]
    split
    · rw [waitKept_sendMessage, waitKept_setVector]
    · rw [waitKept_setVector]
  · rw [waitKept_setVector]

theorem armedVector_of_kept {s t : State} (h1 : t.now = s.now) (h2 : t.evt.sources = s.evt.sources) (v : Nat) :
    armedVector t v = armedVector s v := by
  funext e
  unfold armedVector stoodPending firingsNow
  rw [h1, h2]

/-- With nothing counted in this fc, the wait is armed where nothing stands pending. -/
theorem armedVector_idleArmed {s : State} {v : Nat} {e : EvtVector} (h : e.firedAt ≠ s.now ∨ e.firedIn = 0) :
    (armedVector s v e).idleArmed = !stoodPending s v := by
  have hk : firingsNow s e = 0 := by unfold firingsNow; split <;> simp_all
  unfold armedVector
  rw [hk]
  cases stoodPending s v <;> rfl

theorem idleArmWrite_sources (s : State) (hi : Bool) (v : Dword) : (idleArmWrite s hi v).evt.sources = s.evt.sources :=
  (eachBit_keeps (I := fun x => x.evt.sources = s.evt.sources) (step := idleArm) (v := v) (base := if hi then 32 else 0)
    (fun x n hx => (congrArg (fun w => w.2.1) (waitKept_idleArm x n)).trans hx) (List.range 32) rfl)

/-- The vectors behind a write to EVT_IDLE_ARM: a bit that is 1 arms its vector, and no other changes. -/
theorem idleArmWrite_vectors (s : State) (hi : Bool) (v : Dword) {k : Nat} (hk : k < 32) :
    (idleArmWrite s hi v).evt.vectors[(if hi then 32 else 0) + k]? =
      if dbit v k then s.evt.vectors[(if hi then 32 else 0) + k]?.map (armedVector s ((if hi then 32 else 0) + k))
      else s.evt.vectors[(if hi then 32 else 0) + k]? := by
  let I : State → Prop := fun x => x.now = s.now ∧ x.evt.sources = s.evt.sources
  have hI : ∀ (x : State) (m : Nat), I x → I (idleArm x m) := fun x m hx =>
    ⟨(congrArg Prod.fst (waitKept_idleArm x m)).trans hx.1, (congrArg (fun w => w.2.1) (waitKept_idleArm x m)).trans hx.2⟩
  have hg : ∀ (x : State) (m : Nat), I x → (idleArm x m).evt.vectors = lmod x.evt.vectors m (armedVector s m) := fun x m hx => by
    rw [← armedVector_of_kept hx.1 hx.2]
    exact congrArg (fun w => w.2.2) (waitKept_idleArm x m)
  have hf : idleArmWrite s hi v = eachBit idleArm v (if hi then 32 else 0) (List.range 32) s := rfl
  rw [hf]
  generalize (if hi then 32 else 0) = base
  split
  next hb => exact eachBit_named (get := fun x => x.evt.vectors) hI hg List.nodup_range (List.mem_range.2 hk) hb ⟨rfl, rfl⟩
  next hb =>
    refine eachBit_other (get := fun x => x.evt.vectors) hI hg (fun j _ hj e => ?_) ⟨rfl, rfl⟩
    have : j = k := by omega
    subst this
    exact hb hj

/-- A vector that is armed alone, with nothing counted in this fc: one message at most. -/
theorem idleArm_eq {s : State} {n : Nat} (h : (vectorOf s n).firedAt ≠ s.now ∨ (vectorOf s n).firedIn = 0) :
    idleArm s n = if stoodPending s n
      then sendMessage (setVector s n { vectorOf s n with idleArmed := false, count := 0, timerFrom := none, waits := none }) n
      else setVector s n { vectorOf s n with idleArmed := true } := by
  have hk : (if (vectorOf s n).firedAt = s.now then (vectorOf s n).firedIn else 0) = 0 := by split <;> simp_all
  unfold idleArm
  dsimp only
  rw [hk]
  cases stoodPending s n
  · rfl
  · simp [sendTimes]

/-! ### Logs (R367) -/

@[simp] theorem logOf_setLog (s : State) (fast : Bool) (l : EvtLog) : logOf (setLog s fast l) fast = l := by cases fast <;> rfl

theorem dbits_log_le (v : Dword) : dbits v 11 8 ≤ 16 := Nat.le_of_lt (Nat.lt_of_lt_of_le (Nat.mod_lt _ (by decide)) (by decide))

theorem logCfgWrite_disabled {s : State} {fast : Bool} {v : Dword} (h : (logOf s fast).enabled = false) (hv : dbit v 0 = true) :
    logCfgWrite s fast v = setLog s fast (if 6 ≤ dbits v 11 8
      then { logOf s fast with sizeLog2 := dbits v 11 8, enabled := true, head := 0, tail := 0 } else { logOf s fast with sizeLog2 := dbits v 11 8 }) := by
  unfold logCfgWrite
  dsimp only
  rw [if_neg (by simp [h]), hv, decide_eq_true (dbits_log_le v)]
  by_cases h6 : 6 ≤ dbits v 11 8 <;> simp [h6]

theorem logCfgWrite_enabled {s : State} {fast : Bool} {v : Dword} (h : (logOf s fast).enabled = true) (hv : dbit v 0 = false) :
    logCfgWrite s fast v = setLog s fast { logOf s fast with enabled := false } := by
  unfold logCfgWrite
  dsimp only
  rw [if_pos h, if_neg (by simp [hv])]

/-! ### Moderation (R369, R506) -/

theorem vecModWrite_idle {s : State} {n : Nat} (v : Dword) (hn : n < 64) (hc : (vectorOf s n).count = 0) (ht : (vectorOf s n).timerFrom = none) :
    vecModWrite s n v = setVector s n { vectorOf s n with countThr := dbits v 7 0, time := dbits v 23 8 } := by
  unfold vecModWrite
  rw [if_neg (Nat.not_le.2 hn)]
  generalize vectorOf s n = e at hc ht ⊢
  simp [hc, ht]

theorem execModerationTimerExpiry_due {s : State} {n f : Nat} (hn : n < 64) (hf : (vectorOf s n).timerFrom = some f) (ht : (vectorOf s n).time ≠ 0)
    (hr : reaches s (f + (vectorOf s n).time * Config.us) = true) :
    execModerationTimerExpiry n s = .next (vectorDue (advance s (f + (vectorOf s n).time * Config.us)) n) := by
  unfold execModerationTimerExpiry
  dsimp only
  rw [hf]
  exact if_neg (by simp only [ht, hr, Nat.not_le.2 hn]; simp)

/-! ### Held records (R367, R373) -/

theorem messagesDue_evt (s : State) (r : Bool × Nat) : (messagesDue s r).evt.normal = s.evt.normal ∧ (messagesDue s r).evt.fastLog = s.evt.fastLog := by
  have hfold (l : List (Nat × Bool × Nat)) (x : State) : (l.foldl (fun st x => sendMessage st x.1) x).evt = x.evt := by
    induction l generalizing x with
    | nil => rfl
    | cons m l ih => exact (ih _).trans (sendMessage_frame _ _).2.1
  unfold messagesDue
  rw [hfold]
  exact ⟨rfl, rfl⟩

theorem logOf_messagesDue (s : State) (r : Bool × Nat) (fast : Bool) : logOf (messagesDue s r) fast = logOf s fast := by
  obtain ⟨h1, h2⟩ := messagesDue_evt s r
  unfold logOf
  rw [h1, h2]

theorem logWrite_held (l : EvtLog) (r : LogRecord) : (logWrite l r).2.held = l.held ∧ (logWrite l r).2.gapLost = l.gapLost := by
  unfold logWrite
  dsimp only
  split <;> exact ⟨rfl, rfl⟩

/-- With nothing held and nothing lost there is nothing to write. -/
theorem heldLoop_empty {s : State} {fast : Bool} (n : Nat) (h : (logOf s fast).held = []) (hg : (logOf s fast).gapLost = 0) :
    heldLoop n s fast = s := by
  have hstep : heldStep s fast = s := by
    unfold heldStep
    dsimp only
    rw [h, hg]
    rfl
  induction n with
  | zero => rfl
  | succ n ih => exact (congrArg (fun x => heldLoop n x fast) hstep).trans ih

/-- One held record that its log has room for. -/
theorem heldDrain_one {s : State} {fast : Bool} {r : LogRecord} (h : (logOf s fast).held = [r]) (hg : (logOf s fast).gapLost = 0)
    (hr : logRoom s (logOf s fast) r = true) :
    heldDrain s fast = messagesDue (emitWrites (setLog s fast (logWrite { logOf s fast with held := [] } r).2)
      (logWrite { logOf s fast with held := [] } r).1) (fast, r.seq) := by
  have hstep : heldStep s fast = messagesDue (emitWrites (setLog s fast (logWrite { logOf s fast with held := [] } r).2)
      (logWrite { logOf s fast with held := [] } r).1) (fast, r.seq) := by
    unfold heldStep
    dsimp only
    split
    next r' rest e =>
      obtain ⟨rfl, rfl⟩ := List.cons.inj (e.symm.trans h)
      rw [if_pos hr]
    next e => exact absurd (e.symm.trans h) (by simp)
  have hlog : logOf (heldStep s fast) fast = (logWrite { logOf s fast with held := [] } r).2 := by
    rw [hstep, logOf_messagesDue]
    exact logOf_setLog s fast _
  obtain ⟨hheld, hgap⟩ := logWrite_held { logOf s fast with held := [] } r
  rw [← hstep]
  exact heldLoop_empty 64 (by rw [hlog, hheld]) (by rw [hlog, hgap]; exact hg)

/-- Settles O54: acknowledgement and arming bit by bit, the logs, the vectors' timers and the held records. -/
theorem theEventControllerAcknowledgesModeratesAndLogs : Obligations.TheEventControllerAcknowledgesModeratesAndLogs := by
  refine ⟨?_, ?_, ?_, ?_, ?_, ?_, ?_⟩
  · intro s fast hi v base
    refine ⟨_, rfl, pendAck_quiet hi v, fun n c hc => ?_⟩
    obtain ⟨hnamed, hother⟩ := pendAck_sources s fast hi v n
    rw [hc] at hnamed hother
    refine ⟨fun h1 h2 hb => ?_, hother⟩
    rw [hnamed h1 h2 hb]
    refine ⟨?_, ?_, ?_⟩
    · rintro rfl hp
      simp [ackedSource, hp]
    · rintro rfl hp
      simp [ackedSource, hp]
    · intro hp
      simp [ackedSource, hp]
  · intro s hi v hl
    refine ⟨_, rfl, idleArmWrite_sources s hi v, fun k hk => ?_⟩
    intro n
    have hv := idleArmWrite_vectors s hi v hk
    have hn : n < s.evt.vectors.length := by
      rw [hl]
      unfold n
      cases hi <;> simp <;> omega
    unfold vectorOf
    rw [lget_eq, lget_eq, hv]
    refine ⟨fun hb => by rw [if_neg (by simp [hb])], fun hb hnow => ?_⟩
    rw [if_pos hb]
    rw [List.getElem?_eq_getElem hn] at hnow ⊢
    exact armedVector_idleArmed hnow
  · intro s hi k hk n hnow
    have he : exec (.evtIdleArm hi (BitVec.ofNat 32 (2 ^ k))) s = .next (idleArm s n) :=
      congrArg Host.Outcome.next (eachBit_single idleArm _ hk s)
    rw [he, idleArm_eq hnow]
    exact ⟨fun h => by rw [if_neg (by simp [h])], fun h => by rw [if_pos h]⟩
  · intro s fast v l h
    refine ⟨fun he hv h6 => ?_, fun he hv h6 => ⟨_, rfl, ?_⟩, fun he hv => ?_, fun he hle => ?_, fun hor => ?_⟩
    · exact congrArg Host.Outcome.next ((if_pos hv).trans ((logCfgWrite_disabled he hv).trans (by rw [if_pos h6])))
    · rw [if_pos hv, logCfgWrite_disabled he hv, if_neg (Nat.not_le.2 h6), logOf_setLog]
      exact he
    · exact congrArg Host.Outcome.next ((if_neg (by simp [hv])).trans (logCfgWrite_enabled he hv))
    · exact congrArg Host.Outcome.next (if_pos (Bool.and_eq_true_iff.2 ⟨he, decide_eq_true hle⟩))
    · refine congrArg Host.Outcome.next (if_neg fun g => ?_)
      obtain ⟨g1, g2⟩ := Bool.and_eq_true_iff.1 g
      exact hor.elim (fun e => by simp [l, e] at g1) (fun e => absurd (of_decide_eq_true g2) (Nat.not_le.2 e))
  · intro s n v hn _ hc ht
    exact congrArg Host.Outcome.next (vecModWrite_idle v hn hc ht)
  · intro s n f hn _ hf ht hr s1 s2
    exact execModerationTimerExpiry_due hn hf ht hr
  · intro s fast r h hg hr w
    exact congrArg Host.Outcome.next (heldDrain_one h hg hr)

end Sys2Proof.Machine
end

section
/-! PROOF. POWER_SET and the reset it asks for (R384, R390, R391, R395, R396). -/

namespace Sys2Proof.Machine

/-! ### Sectors changed one by one -/

theorem sectorOf_setSector_other (s : State) {k j : Nat} (x : Sector) (h : j ≠ k) : sectorOf (setSector s k x) j = sectorOf s j := lget_set_other _ _ _ h

@[simp] theorem setSector_sectors_length (s : State) (k : Nat) (x : Sector) : (setSector s k x).power.sectors.length = s.power.sectors.length :=
  List.length_set

theorem sectorOf_of_power {s t : State} (h : t.power = s.power) (k : Nat) : sectorOf t k = sectorOf s k := by unfold sectorOf; rw [h]

/-- A step for a sector changes that sector alone. -/
structure OneSector (step : State → Nat → State) : Prop where
  size : ∀ x k, (step x k).power.sectors.length = x.power.sectors.length
  other : ∀ x k j, j ≠ k → sectorOf (step x k) j = sectorOf x j

/-- What a round of such steps does to a sector that is not in the list: nothing. -/
theorem OneSector.foldl_other {step : State → Nat → State} (h : OneSector step) {l : List Nat} {j : Nat} (hj : j ∉ l) (s : State) :
    sectorOf (l.foldl step s) j = sectorOf s j := by
  induction l generalizing s with
  | nil => rfl
  | cons k l ih =>
    obtain ⟨hk, hl⟩ := not_or.1 (fun g => hj (List.mem_cons.2 g))
    exact (ih hl _).trans (h.other s k j hk)

/-- To one that is in it: its own step, from where it stood. -/
theorem OneSector.foldl_mem {step : State → Nat → State} (h : OneSector step) {l : List Nat} (hnd : l.Nodup) {j : Nat} (hj : j ∈ l) (s : State) :
    ∃ x, x.power.sectors.length = s.power.sectors.length ∧ sectorOf x j = sectorOf s j ∧ sectorOf (l.foldl step s) j = sectorOf (step x j) j := by
  induction l generalizing s with
  | nil => cases hj
  | cons k l ih =>
    obtain ⟨hk, hnd'⟩ := List.nodup_cons.1 hnd
    by_cases e : j = k
    · subst e
      exact ⟨s, rfl, rfl, h.foldl_other hk _⟩
    · obtain ⟨x, h1, h2, h3⟩ := ih hnd' ((List.mem_cons.1 hj).resolve_left e) (step s k)
      exact ⟨x, h1.trans (h.size s k), h2.trans (h.other s k j e), h3⟩

theorem nodup_maskSectors (m : Nat) : (maskSectors m).Nodup := List.nodup_range.filter _

theorem maskSectors_lt {m k : Nat} (h : k ∈ maskSectors m) : k < 8 := List.mem_range.1 (List.mem_filter.1 h).1

/-- A mask of 8 bits that is not 0 names a sector. -/
theorem exists_mem_maskSectors {m : Nat} (hm : m < 2 ^ 8) (h0 : m ≠ 0) : ∃ k, k ∈ maskSectors m := by
  obtain ⟨k, hk⟩ := Nat.exists_testBit_of_ne_zero h0
  have hlt : k < 8 := Nat.lt_of_not_le fun h => by
    have := Nat.testBit_lt_two_pow (Nat.lt_of_lt_of_le hm (Nat.pow_le_pow_right (by omega) h))
    simp [hk] at this
  exact ⟨k, List.mem_filter.2 ⟨List.mem_range.2 hlt, hk⟩⟩

theorem dbits_mask_lt (v : Dword) : dbits v 7 0 < 2 ^ 8 := Nat.mod_lt _ (by decide)

/-! ### Operating points (R384, R395) -/

theorem retargeted_requested (x : Sector) (now : Fc) : (retargeted x now).requested = x.requested := by
  unfold retargeted
  dsimp only
  repeat' split
  all_goals rfl

theorem sectorOf_retarget {s : State} {k : Nat} (cause : Nat) (h : k < s.power.sectors.length) :
    (sectorOf (retarget s k cause) k).requested = (sectorOf s k).requested := by
  unfold retarget
  dsimp only
  rw [sectorOf_setSector _ _ h]
  exact retargeted_requested _ _

/-- A sector's requested divider is set, and its state meets it. -/
def requestStep (d : Nat) (s : State) (k : Nat) : State := retarget (setSector s k { sectorOf s k with requested := d }) k 0

theorem oneSector_requestStep (d : Nat) : OneSector (requestStep d) where
  size x k := by
    unfold requestStep retarget
    dsimp only
    rw [setSector_sectors_length, setSector_sectors_length]
  other x k j h := by
    unfold requestStep retarget
    dsimp only
    rw [sectorOf_setSector_other _ _ h, sectorOf_setSector_other _ _ h]

theorem requestStep_requested {d : Nat} {s : State} {k : Nat} (h : k < s.power.sectors.length) : (sectorOf (requestStep d s k) k).requested = d := by
  unfold requestStep
  rw [sectorOf_retarget _ (by rw [setSector_sectors_length]; exact h), sectorOf_setSector _ _ h]

theorem execPowerSetOperatingPoint_eq {s : State} {c : HostCmd} (h : Ready 0x60 0 s c) (r : Room s c) (h0 : dbits (pktDw c.pkt 2) 2 0 = 0)
    (ha : sectorsAbsent (dbits (pktDw c.pkt 3) 7 0) = false) (hp : pktOnly c.pkt [(2, 7), (3, 0x3FF)] = true)
    (hm : dbits (pktDw c.pkt 3) 7 0 ≠ 0) (hs : ∀ k, k ∈ maskSectors (dbits (pktDw c.pkt 3) 7 0) → (sectorOf (begun s c) k).state ≠ .sleep)
    (hb : powerBusy (begun s c) (dbits (pktDw c.pkt 3) 7 0) = false) {t : State}
    (ht : t = (maskSectors (dbits (pktDw c.pkt 3) 7 0)).foldl (requestStep (dbits (pktDw c.pkt 3) 9 8)) (begun s c)) :
    execPowerSetOperatingPoint c s = .next (if (maskSectors (dbits (pktDw c.pkt 3) 7 0)).all (atTarget t)
      then finishTaken t c stOK (heldSlower t (dbits (pktDw c.pkt 3) 7 0)) [] else pendTaken t c (.powerOp (dbits (pktDw c.pkt 3) 7 0))) := by
  have hsleep : (maskSectors (dbits (pktDw c.pkt 3) 7 0)).any (fun k => (sectorOf (begun s c) k).state == .sleep) = false := by
    simpa using hs
  unfold execPowerSetOperatingPoint
  have hbody : ∀ (body : State → Packet → Verdict) (b : Bool), body (begun s c) c.pkt =
      (if b then okAt t (heldSlower t (dbits (pktDw c.pkt 3) 7 0)) else .pend (.powerOp (dbits (pktDw c.pkt 3) 7 0)) t) →
      takeCmd s c 0x60 0 body = .next (if b then finishTaken t c stOK (heldSlower t (dbits (pktDw c.pkt 3) 7 0)) []
        else pendTaken t c (.powerOp (dbits (pktDw c.pkt 3) 7 0))) := fun body b hv => by
    cases b
    · exact takeCmd_pend h r hv
    · exact takeCmd_finish h hv
  refine hbody _ _ ?_
  dsimp only
  rw [if_neg (by simp [h0]), if_neg (by simp [ha]), if_neg (by simp only [hp, hm]; simp), if_neg (by simp [hsleep]), if_neg (by simp [hb]), ht]
  rfl

/-! ### The cap, the limits, and the reset asked for (R395, R396) -/

theorem execPowerSetCap_eq {s : State} {c : HostCmd} (h : Ready 0x60 1 s c) (hp : pktOnly c.pkt [(2, 7), (3, 0x3FF)] = true)
    (h1 : 100 ≤ dbits (pktDw c.pkt 3) 9 0) (h2 : dbits (pktDw c.pkt 3) 9 0 ≤ 560) :
    execPowerSetCap c s = .next (finishTaken
      { begun s c with power := { (begun s c).power with cap := dbits (pktDw c.pkt 3) 9 0 } } c stOK 0 []) := by
  unfold execPowerSetCap
  exact takeCmd_finish h (if_neg (by simp only [hp]; simp; omega))

theorem execPowerSetThermal_eq {s : State} {c : HostCmd} (h : Ready 0x60 2 s c) (hp : pktOnly c.pkt [(2, 7), (3, 0xFFF)] = true)
    (h1 : 70 ≤ dbits (pktDw c.pkt 3) 7 0) (h2 : dbits (pktDw c.pkt 3) 7 0 ≤ 105) (h3 : 2 ≤ dbits (pktDw c.pkt 3) 11 8) :
    execPowerSetThermal c s = .next (finishTaken
      { begun s c with power := { (begun s c).power with threshold := dbits (pktDw c.pkt 3) 7 0, hysteresis := dbits (pktDw c.pkt 3) 11 8 } }
      c stOK 0 []) := by
  have h4 : dbits (pktDw c.pkt 3) 11 8 < 16 := Nat.mod_lt _ (by decide)
  unfold execPowerSetThermal
  exact takeCmd_finish h (if_neg (by simp only [hp]; simp; omega))

theorem execPowerSetReset_eq {s : State} {c : HostCmd} (h : Ready 0x60 5 s c) (hp : pktOnly c.pkt [(2, 7)] = true) :
    execPowerSetReset c s = .next (finishTaken (askReset (begun s c)) c stOK 0 []) := by
  unfold execPowerSetReset
  exact takeCmd_finish h (if_neg (by simp only [hp]; simp))

/-! ### Sleep and wake (R391, R395) -/

/-- An ACTIVE sector goes to SLEEP. -/
def sleepStep (s : State) (k : Nat) : State :=
  if (sectorOf s k).state = .active then
    postDev (setSector s k { sectorOf s k with state := .sleep, groups := 0 }) 0x17 0x0034 noSite s.now (k + 3 * 2 ^ 4)
  else s

/-- A sleeping sector is WAKING. -/
def wakeStep (s : State) (k : Nat) : State :=
  if (sectorOf s k).state = .sleep then setSector s k { sectorOf s k with state := .waking, groups := 0, fromSleep := true, wokeAt := s.now } else s

theorem postDev_power (s : State) (source code : Nat) (site : Site) (time : Fc) (detail : Nat) :
    (postDev s source code site time detail).power = s.power := by simp

theorem oneSector_sleepStep : OneSector sleepStep where
  size x k := by
    unfold sleepStep
    split
    · rw [postDev_power, setSector_sectors_length]
    · rfl
  other x k j h := by
    unfold sleepStep
    split
    · rw [sectorOf_of_power (postDev_power _ _ _ _ _ _), sectorOf_setSector_other _ _ h]
    · rfl

theorem oneSector_wakeStep : OneSector wakeStep where
  size x k := by
    unfold wakeStep
    split
    · rw [setSector_sectors_length]
    · rfl
  other x k j h := by
    unfold wakeStep
    split
    · rw [sectorOf_setSector_other _ _ h]
    · rfl

theorem sleepStep_sleeps {s : State} {k : Nat} (h : k < s.power.sectors.length) (ha : (sectorOf s k).state = .active) :
    (sectorOf (sleepStep s k) k).state = .sleep := by
  unfold sleepStep
  rw [if_pos ha, sectorOf_of_power (postDev_power _ _ _ _ _ _), sectorOf_setSector _ _ h]

theorem wakeStep_wakes {s : State} {k : Nat} (h : k < s.power.sectors.length) (ha : (sectorOf s k).state = .sleep) :
    (sectorOf (wakeStep s k) k).state = .waking ∧ (sectorOf (wakeStep s k) k).groups = 0 := by
  unfold wakeStep
  rw [if_pos ha, sectorOf_setSector _ _ h]
  exact ⟨rfl, rfl⟩

theorem execPowerSetSleep_eq {s : State} {c : HostCmd} (h : Ready 0x60 3 s c) (ha : sectorsAbsent (dbits (pktDw c.pkt 3) 7 0) = false)
    (hp : pktOnly c.pkt [(2, 7), (3, 0xFF)] = true) (hm : dbits (pktDw c.pkt 3) 7 0 ≠ 0)
    (hu : (maskSectors (dbits (pktDw c.pkt 3) 7 0)).any (hoistUses (begun s c)) = false)
    (hb : powerBusy (begun s c) (dbits (pktDw c.pkt 3) 7 0) = false) {t : State}
    (ht : t = (maskSectors (dbits (pktDw c.pkt 3) 7 0)).foldl sleepStep (begun s c))
    (hall : ∀ k, k ∈ maskSectors (dbits (pktDw c.pkt 3) 7 0) → (sectorOf t k).state = .sleep) :
    execPowerSetSleep c s = .next (finishTaken t c stOK 0 []) := by
  have hall' : (maskSectors (dbits (pktDw c.pkt 3) 7 0)).all (fun k => (sectorOf t k).state == .sleep) = true := by simpa using hall
  unfold execPowerSetSleep
  refine takeCmd_finish h ?_
  dsimp only
  rw [if_neg (by simp [ha]), if_neg (by simp only [hp, hm]; simp), if_neg (by simp [hu]), if_neg (by simp [hb])]
  subst ht
  exact if_pos hall'

theorem execPowerSetWake_eq {s : State} {c : HostCmd} (h : Ready 0x60 4 s c) (r : Room s c) (ha : sectorsAbsent (dbits (pktDw c.pkt 3) 7 0) = false)
    (hp : pktOnly c.pkt [(2, 7), (3, 0xFF)] = true) (hm : dbits (pktDw c.pkt 3) 7 0 ≠ 0)
    (hb : powerBusy (begun s c) (dbits (pktDw c.pkt 3) 7 0) = false) {t : State}
    (ht : t = (maskSectors (dbits (pktDw c.pkt 3) 7 0)).foldl wakeStep (begun s c))
    (hall : ∀ k, k ∈ maskSectors (dbits (pktDw c.pkt 3) 7 0) → (sectorOf t k).state = .waking) :
    execPowerSetWake c s = .next (pendTaken t c (.powerWake (dbits (pktDw c.pkt 3) 7 0))) := by
  have hany : (maskSectors (dbits (pktDw c.pkt 3) 7 0)).all (fun k => (sectorOf t k).state == .active) = false := by
    obtain ⟨k, hk⟩ := exists_mem_maskSectors (dbits_mask_lt _) hm
    exact List.all_eq_false.2 ⟨k, hk, by simp [hall k hk]⟩
  unfold execPowerSetWake
  refine takeCmd_pend h r ?_
  dsimp only
  rw [if_neg (by simp [ha]), if_neg (by simp only [hp, hm]; simp), if_neg (by simp [hb])]
  subst ht
  exact if_neg (Bool.eq_false_iff.1 hany)

/-! ### The device reset (R390) -/

/-- A device reset keeps the halyard, PWRGD and the supplies, and leaves the interface at reset but for the link. -/
theorem deviceReset_kept (s : State) :
    (deviceReset s).now = s.now ∧ (deviceReset s).hif.fwStage = 0 ∧ (deviceReset s).hif.rings = State.reset.hif.rings ∧
    (deviceReset s).hif.pendings = [] ∧ (deviceReset s).mgmt.resetDue = none ∧ (deviceReset s).power.powerGood = s.power.powerGood ∧
    (deviceReset s).power.phasesEnded = min 1 s.power.phasesEnded ∧ (deviceReset s).pins.perst = s.pins.perst := by
  unfold deviceReset releasePcie
  dsimp only
  repeat' split
  all_goals exact ⟨rfl, rfl, rfl, rfl, rfl, rfl, rfl, rfl⟩

theorem execDelayedDeviceReset_due {s : State} {T : Nat} (h : s.mgmt.resetDue = some T) (hr : reaches s T = true)
    (hh : s.hif.heldCompletions.any (fun c => asksReset c T) = false) : execDelayedDeviceReset s = .next (deviceReset (advance s T)) := by
  unfold execDelayedDeviceReset
  rw [h]
  exact congrArg Host.Outcome.next (if_pos (by simp only [hr, hh]; rfl))

/-- Settles O50: a clause for each op of POWER_SET, and the delayed reset. -/
theorem powerSetActsAndResetsAreDelayed : Obligations.PowerSetActsAndResetsAreDelayed := by
  refine ⟨?_, ?_, ?_, ?_, ?_, ?_⟩
  · intro s c s1 m h r h0 ha hp hm hs hb hl
    refine ⟨_, execPowerSetOperatingPoint_eq h r h0 ha hp hm hs hb rfl, fun k hk => ?_, fun k hk => (oneSector_requestStep _).foldl_other hk _⟩
    obtain ⟨x, hx, -, he⟩ := (oneSector_requestStep (dbits (pktDw c.pkt 3) 9 8)).foldl_mem (nodup_maskSectors m) hk s1
    rw [he]
    exact requestStep_requested (by rw [hx, hl]; exact maskSectors_lt hk)
  · intro s c s1 v h hp h1 h2
    exact execPowerSetCap_eq h hp h1 h2
  · intro s c s1 t x h hp h1 h2 h3
    exact execPowerSetThermal_eq h hp h1 h2 h3
  · intro s c s1 m ha hp hm hb hl
    refine ⟨fun h hu hs => ?_, fun h r hs => ?_⟩
    · have hall : ∀ k, k ∈ maskSectors m → (sectorOf ((maskSectors m).foldl sleepStep s1) k).state = .sleep := fun k hk => by
        obtain ⟨x, hx, hk', he⟩ := oneSector_sleepStep.foldl_mem (nodup_maskSectors m) hk s1
        rw [he]
        exact sleepStep_sleeps (by rw [hx, hl]; exact maskSectors_lt hk) (by rw [hk']; exact hs k hk)
      exact ⟨_, execPowerSetSleep_eq h ha hp hm hu hb rfl hall, hall⟩
    · have hall : ∀ k, k ∈ maskSectors m → (sectorOf ((maskSectors m).foldl wakeStep s1) k).state = .waking ∧
          (sectorOf ((maskSectors m).foldl wakeStep s1) k).groups = 0 := fun k hk => by
        obtain ⟨x, hx, hk', he⟩ := oneSector_wakeStep.foldl_mem (nodup_maskSectors m) hk s1
        rw [he]
        exact wakeStep_wakes (by rw [hx, hl]; exact maskSectors_lt hk) (by rw [hk']; exact hs k hk)
      exact ⟨_, execPowerSetWake_eq h r ha hp hm hb rfl fun k hk => (hall k hk).1, hall⟩
  · intro s c s1 h hp
    exact execPowerSetReset_eq h hp
  · intro s T h hr hh
    obtain ⟨h1, h2, h3, h4, h5, h6, -, -⟩ := deviceReset_kept (advance s T)
    refine ⟨_, execDelayedDeviceReset_due h hr hh, h1, h2, h3, h4, h5, ?_, ?_, h6⟩
    · rw [deviceReset_sec]; rfl
    · rw [deviceReset_sec]; rfl

end Sys2Proof.Machine
end

section
/-! PROOF. The supplies start and stop the part, the staged start, PERST# (R376 to R379, R382, R388, R390, R399, R455, R456), the management bus (R379)
and the test port (R486, R487). -/

namespace Sys2Proof.Machine

/-! ### A record of class 3 (R408) -/

theorem spanClosed_pins (b s : State) : (spanClosed b s).pins = s.pins := (moves_spanClosed (msk := 0xe) rfl (Moves.refl s)).frame.b16 rfl

theorem spanClosed_hal (b s : State) : (spanClosed b s).hal = s.hal := (moves_spanClosed (msk := 0xe) rfl (Moves.refl s)).frame.b4 rfl

/-- FAULT# is latched; but for the power stage's own codes every element stops. -/
theorem fault_fatal (s : State) (code : Nat) (site : Site) (d0 d1 : Dword) :
    (fault s code 3 site d0 d1).pins = { s.pins with faultLatched := true } ∧
    (¬ (0x0D10 ≤ code ∧ code ≤ 0x0D15) → (fault s code 3 site d0 d1).hal.stopped = true) := by
  unfold fault faultAt
  dsimp only
  rw [if_pos (show 3 = 3 from rfl), if_neg (show ¬ (3 = 0 ∧ recordsWait s = true) from fun h => absurd h.1 (by decide))]
  generalize hx : faultTraced (fireSource s (0x10 + 3) _) code 3 site none noFrame d0 d1 s.now = x
  have hpins : x.pins = s.pins := by
    rw [← hx]
    exact (moves_faultTraced (msk := 0x18000e) rfl (moves_fireSource rfl (Moves.refl s))).frame.b16 rfl
  clear hx
  split
  next h => exact ⟨by rw [hpins], fun g => absurd (by simpa using h) g⟩
  next =>
    refine ⟨(spanClosed_pins _ _).trans (by rw [← hpins]; rfl), fun _ => ?_⟩
    rw [spanClosed_hal]
    rfl

/-! ### The input rises, and a stage shut down comes back (R376, R378) -/

theorem fittedRails_up : fittedRails.foldl railUp [] = fittedRails := by decide

theorem fittedRails_inRegulation : inRegulation fittedRails = true := by decide

/-- A power-on: every rail in regulation, the halyard at 0, no phase ended. -/
theorem powerOn_starts (s : State) :
    (powerOn s).now = 0 ∧ (powerOn s).power.powerGood = true ∧ (powerOn s).power.rails = fittedRails ∧ (powerOn s).power.phasesEnded = 0 ∧
    (powerOn s).power.shutdown = none ∧ (powerOn s).power.pmbus = s.power.pmbus ∧ (powerOn s).hif.fwStage = 0 ∧
    (powerOn s).pins.faultLatched = false := by
  unfold powerOn
  dsimp only
  rw [fittedRails_up, fittedRails_inRegulation]
  exact ⟨rfl, rfl, rfl, rfl, rfl, rfl, rfl, rfl⟩

theorem execVinRise_starts {s : State} (hg : s.power.powerGood = false) (hs : s.power.shutdown = none) : execVinRise s = .next (powerOn s) :=
  if_neg (by simp [hg, hs])

theorem execPowerStageRestart_starts {s : State} (hg : s.power.powerGood = false) (hr : restartAt s ≠ none) :
    execPowerStageRestart s = .next (powerOn (setPmbus s { s.power.pmbus with restarts := sat 0xFFFF (s.power.pmbus.restarts + 1) })) :=
  if_neg (by simp [hg, hr])

/-! ### A stage fault (R377) -/

theorem railsOff_all (l : List Nat) : railsOff l.length l = [] := by
  obtain ⟨n, hn⟩ : ∃ n, l.length = n := ⟨_, rfl⟩
  rw [hn]
  induction n generalizing l with
  | zero => exact List.length_eq_zero_iff.1 hn
  | succ n ih => exact ih l.dropLast (by simp [hn])

theorem execPowerStageFault_down {s : State} {f : StageFault} {m : Telemetry} (hg : s.power.powerGood = true) (hb : stageBeyond s m f = true) :
    ∃ t x, execPowerStageFault f m s = .next t ∧ t = railsDown x f ∧ x.now = s.now ∧ x.power.vin = m.vin ∧ x.pins.faultLatched = true := by
  unfold execPowerStageFault
  rw [if_neg (by simp [hg, hb])]
  dsimp only
  refine ⟨_, _, rfl, rfl, ?_, ?_, ?_⟩
  · rw [(fault_frame _ _ _ _ _ _).1]; rfl
  · rw [(moves_fault (msk := 0x19501e) rfl (Moves.refl _)).frame.b15 rfl]; rfl
  · rw [(fault_fatal _ _ _ _ _).1]

/-! ### The staged start (R388, R455, R456) -/

theorem endPhase_power (s : State) : (endPhase s).power = { s.power with phasesEnded := s.power.phasesEnded + 1 } := postDev_power _ _ _ _ _ _

theorem endPhase_fwStage (s : State) : (endPhase s).hif.fwStage = s.hif.fwStage := fwStage_of_hifKept (hifKept_postDev _ _ _ _ _ _)

/-- An erase takes nothing that a courier copy is checked by. -/
theorem pkgPasses_eraseFor (c : Sec) (l : LifeState) (k : Nat) (p : Option FwPkg) : pkgPasses (eraseFor c l) k p = pkgPasses c k p := by
  cases l <;> rfl

theorem courier0_eraseFor (c : Sec) (l : LifeState) : (eraseFor c l).courier0 = c.courier0 := by cases l <;> rfl

/-- Phase 1 starts the first courier copy that passes. -/
theorem bootCourier_starts {s : State} (hl : s.sec.life ≠ .scrapped) (hp : pkgPasses s.sec 0 s.sec.courier0 = true) :
    (bootCourier s).hif.fwStage = 1 ∧ (bootCourier s).sec.courierRunning = s.sec.courier0 ∧
    (bootCourier s).power.phasesEnded = s.power.phasesEnded + 1 := by
  unfold bootCourier
  rw [if_neg hl]
  extract_lets c hif power start
  have hcourier : c.courier0 = s.sec.courier0 ∧ pkgPasses c 0 s.sec.courier0 = true := by
    unfold c
    split
    · exact ⟨courier0_eraseFor _ _, (pkgPasses_eraseFor _ _ _ _).trans hp⟩
    · exact ⟨rfl, hp⟩
  obtain ⟨h1, h2⟩ := hcourier
  clear_value c
  rw [h1, if_pos h2]
  unfold start
  rw [endPhase_fwStage, endPhase_sec, endPhase_power]
  exact ⟨rfl, rfl, rfl⟩

/-- Phase 6 starts the committed package if it passes. -/
theorem bootMain_starts {s : State} (hp : pkgPasses s.sec 1 (if s.sec.committedB then s.sec.slotB else s.sec.slotA) = true) :
    (bootMain s).hif.fwStage = 2 ∧ (bootMain s).sec.running = (if s.sec.committedB then s.sec.slotB else s.sec.slotA) ∧
    (bootMain s).power.phasesEnded = s.power.phasesEnded + 1 := by
  unfold bootMain
  dsimp only
  rw [if_pos hp, endPhase_fwStage, endPhase_sec, endPhase_power]
  exact ⟨rfl, rfl, rfl⟩

/-- The phase in progress ends with no unit and no channel failed. -/
theorem execStagedStartPhaseEnd_eq {s : State} (hg : s.power.powerGood = true) :
    (s.power.phasesEnded = 0 → execStagedStartPhaseEnd [] [] s = .next (releasePcie (endPhase s))) ∧
    (s.power.phasesEnded = 1 → execStagedStartPhaseEnd [] [] s = .next (bootCourier s)) ∧
    (s.power.phasesEnded = 2 → (s.power.sectors.take Config.sectors).all (fun k => k.state == .active) = true →
      execStagedStartPhaseEnd [] [] s = .next (endPhase s)) ∧
    (s.power.phasesEnded = 3 ∨ s.power.phasesEnded = 4 ∨ s.power.phasesEnded = 5 → execStagedStartPhaseEnd [] [] s = .next (endPhase s)) ∧
    (s.power.phasesEnded = 6 → execStagedStartPhaseEnd [] [] s = .next (bootMain s)) := by
  unfold execStagedStartPhaseEnd
  rw [if_neg (by simp [hg])]
  refine ⟨fun h => by rw [h]; rfl, fun h => by rw [h]; rfl, fun h ha => ?_, fun h => ?_, fun h => by rw [h]; rfl⟩
  · rw [h]
    exact congrArg Host.Outcome.next (if_pos ha)
  · rcases h with h | h | h <;> rw [h] <;> rfl

/-! ### PERST# (R390, R493) -/

theorem releasePcie_held {s : State} (h : s.pins.perst = true) : releasePcie s = s := if_pos h

theorem execPerstAssert_resets {s : State} (hg : s.power.powerGood = true) (hp : s.pins.perst = false) :
    ∃ t, execPerstAssert s = .next t ∧ t.pins.perst = true ∧ t.hif.fwStage = 0 ∧ t.hif.linkUp = false ∧ t.hif.pcieHeld = true ∧
      t.now = s.now ∧ t.power.phasesEnded = min 1 s.power.phasesEnded := by
  unfold execPerstAssert
  dsimp only
  rw [if_neg (by simp [hp]), if_pos hg]
  refine ⟨_, rfl, ?_⟩
  unfold deviceReset
  dsimp only
  split
  · exact ⟨rfl, rfl, rfl, rfl, rfl, rfl⟩
  · rw [releasePcie_held rfl]
    exact ⟨rfl, rfl, rfl, rfl, rfl, rfl⟩

theorem execPerstDeassert_trains {s : State} (hg : s.power.powerGood = true) (hp : s.pins.perst = true) (h1 : 1 ≤ s.power.phasesEnded) :
    ∃ t, execPerstDeassert s = .next t ∧ t.pins = { s.pins with perst := false } ∧ t.hif.linkUp = true ∧ t.hif.pcieHeld = false := by
  unfold execPerstDeassert
  dsimp only
  rw [if_pos (by simp [hg, hp, h1])]
  exact ⟨_, rfl, rfl, rfl, rfl⟩

/-! ### Warn limits (R379) -/

theorem or_ne_zero_of_getLsbD {x y : BitVec 8} {k : Nat} (h : y.getLsbD k = true) : x ||| y ≠ 0 := fun e => by
  have := congrArg (fun z : BitVec 8 => z.getLsbD k) e
  simp [h] at this

theorem warnBits_set (b : PmBus) (l : WarnLimit) : (warnBits b l).statusInput ≠ 0 ∨ (warnBits b l).statusTemperature ≠ 0 := by
  cases l with
  | otWarn => exact .inr (or_ne_zero_of_getLsbD (k := 6) rfl)
  | vinOvWarn => exact .inl (or_ne_zero_of_getLsbD (k := 6) rfl)
  | vinUvWarn => exact .inl (or_ne_zero_of_getLsbD (k := 5) rfl)
  | iinOcWarn => exact .inl (or_ne_zero_of_getLsbD (k := 1) rfl)
  | pinOpWarn => exact .inl (or_ne_zero_of_getLsbD (k := 0) rfl)

theorem execPmbusWarnCrossing_notes {s : State} {l : WarnLimit} {b : Bool} {m : Telemetry} (hu : s.power.pmbus.up = true)
    (hw : warns s.power.pmbus m l = b) (hc : s.power.pmbus.crossed.contains l = !b) :
    ∃ t, execPmbusWarnCrossing l b m s = .next t ∧ t.power.pmbus.crossed.contains l = b ∧ t.power.vin = m.vin ∧
      (b = true → (t.power.pmbus.statusInput ≠ 0 ∨ t.power.pmbus.statusTemperature ≠ 0)) := by
  unfold execPmbusWarnCrossing
  dsimp only
  rw [if_neg (by rw [hu, hw, hc]; cases b <;> simp)]
  refine ⟨_, rfl, ?_⟩
  rw [postDev_power]
  cases b with
  | true => exact ⟨by simp [setPmbus], rfl, fun _ => warnBits_set s.power.pmbus l⟩
  | false => exact ⟨by simp [setPmbus], rfl, fun h => by cases h⟩

/-- Settles O51: the starts, the stage fault, the phases, and PERST#. -/
theorem suppliesStartAndStopThePart : Obligations.SuppliesStartAndStopThePart := by
  refine ⟨?_, ?_, ?_, ?_, ?_, ?_⟩
  · intro s hg
    refine ⟨fun hs => ?_, fun hr => ?_⟩
    · obtain ⟨h1, h2, h3, h4, -, -, h7, h8⟩ := powerOn_starts s
      refine ⟨_, execVinRise_starts hg hs, h1, h2, h2, ?_, h3, h4, h7, by rw [powerOn_sec]; rfl⟩
      simp [faultLow, h2, h8]
    · obtain ⟨h1, h2, h3, h4, h5, h6, -, -⟩ :=
        powerOn_starts (setPmbus s { s.power.pmbus with restarts := sat 0xFFFF (s.power.pmbus.restarts + 1) })
      exact ⟨_, execPowerStageRestart_starts hg hr, h1, h2, h3, h4, h5, by rw [h6]; rfl⟩
  · intro s f m hg hb
    obtain ⟨t, x, he, rfl, h1, h2, h3⟩ := execPowerStageFault_down hg hb
    exact ⟨_, he, h1, rfl, railsOff_all _, rfl, rfl, rfl, rfl, h3, by simp [faultLow, railsDown], rfl, h2⟩
  · intro s
    refine ⟨⟨_, rfl, ?_⟩, fun n hu => ?_, fun h => ?_, fun h => ?_⟩
    · split <;> exact ⟨rfl, rfl, rfl, rfl, rfl⟩
    · exact congrArg Host.Outcome.next (if_neg (by simp [hu]))
    · exact if_neg (by simp [h])
    · exact if_pos h
  · intro s hg
    obtain ⟨h0, h1, h2, h3, h6⟩ := execStagedStartPhaseEnd_eq hg
    refine ⟨h0, fun h hl hp => ?_, h2, h3, fun h hp => ?_⟩
    · obtain ⟨g1, g2, g3⟩ := bootCourier_starts hl hp
      exact ⟨_, h1 h, g1, g2, by rw [g3, h]⟩
    · obtain ⟨g1, g2, g3⟩ := bootMain_starts hp
      exact ⟨_, h6 h, g1, g2, by rw [g3, h]⟩
  · intro s hg
    exact ⟨fun hp => execPerstAssert_resets hg hp, fun hp h1 => execPerstDeassert_trains hg hp h1⟩
  · intro s l b m hu hw hc
    exact execPmbusWarnCrossing_notes hu hw hc

/-! ### The management bus (R379) -/

/-- Above 36 V the bus answers (R379). -/
theorem onBus_up {s a b : State} (h : s.power.pmbus.up = true) :
    (Host.Outcome.next (if s.power.pmbus.up then a else b) : Host.Outcome State Fault Refusal) = .next a := congrArg Host.Outcome.next (if_pos h)

/-- Below it every code gets a NACK. -/
theorem onBus_down {s a b : State} (h : s.power.pmbus.up = false) :
    (Host.Outcome.next (if s.power.pmbus.up then a else b) : Host.Outcome State Fault Refusal) = .next b :=
  congrArg Host.Outcome.next (if_neg (by simp [h]))

/-- A limit is stored as it is in its range, and as the nearer end outside it. -/
theorem clampLimit_cases {code : Nat} (hr : ((Config.limitRange code).2.1 : Int) ≤ (Config.limitRange code).2.2) (v : BitVec 16) :
    (((Config.limitRange code).2.1 * 2 ^ 16 : Int) ≤ lin16 v → lin16 v ≤ ((Config.limitRange code).2.2 * 2 ^ 16 : Int) →
      clampLimit code v = (v, false)) ∧
    (lin16 v < ((Config.limitRange code).2.1 * 2 ^ 16 : Int) → clampLimit code v = (Config.linear11 (Config.limitRange code).2.1, true)) ∧
    (((Config.limitRange code).2.2 * 2 ^ 16 : Int) < lin16 v → clampLimit code v = (Config.linear11 (Config.limitRange code).2.2, true)) := by
  unfold clampLimit
  dsimp only
  refine ⟨fun h1 h2 => ?_, fun h => ?_, fun h => ?_⟩
  · rw [if_neg (Int.not_lt.2 h1), if_neg (Int.not_lt.2 h2)]
  · rw [if_pos h]
  · rw [if_neg (by omega), if_pos h]

/-- A limit stands in a field of its own, in a range that is not empty. -/
structure LimitField (code : Nat) (get : PmBus → BitVec 16) (put : PmBus → BitVec 16 → PmBus) : Prop where
  range : ((Config.limitRange code).2.1 : Int) ≤ (Config.limitRange code).2.2
  stored : ∀ b v, get (put b v) = v
  cml : ∀ b v, (put b v).statusCml = b.statusCml
  kept : ∀ b c r n, get { b with statusCml := c, reply := r, nack := n } = get b

/-- A status byte stands in a field of its own. -/
structure StatusField (get : PmBus → BitVec 8) (put : PmBus → BitVec 8 → PmBus) : Prop where
  stored : ∀ b v, get (put b v) = v
  kept : ∀ b r n, get { b with reply := r, nack := n } = get b

theorem limitField_otFault : LimitField 0x4F (·.otFault) (fun b v => { b with otFault := v }) := ⟨by decide, fun _ _ => rfl, fun _ _ => rfl, fun _ _ _ _ => rfl⟩
theorem limitField_otWarn : LimitField 0x51 (·.otWarn) (fun b v => { b with otWarn := v }) := ⟨by decide, fun _ _ => rfl, fun _ _ => rfl, fun _ _ _ _ => rfl⟩
theorem limitField_vinOvFault : LimitField 0x55 (·.vinOvFault) (fun b v => { b with vinOvFault := v }) := ⟨by decide, fun _ _ => rfl, fun _ _ => rfl, fun _ _ _ _ => rfl⟩
theorem limitField_vinOvWarn : LimitField 0x57 (·.vinOvWarn) (fun b v => { b with vinOvWarn := v }) := ⟨by decide, fun _ _ => rfl, fun _ _ => rfl, fun _ _ _ _ => rfl⟩
theorem limitField_vinUvWarn : LimitField 0x58 (·.vinUvWarn) (fun b v => { b with vinUvWarn := v }) := ⟨by decide, fun _ _ => rfl, fun _ _ => rfl, fun _ _ _ _ => rfl⟩
theorem limitField_vinUvFault : LimitField 0x59 (·.vinUvFault) (fun b v => { b with vinUvFault := v }) := ⟨by decide, fun _ _ => rfl, fun _ _ => rfl, fun _ _ _ _ => rfl⟩
theorem limitField_iinOcFault : LimitField 0x5B (·.iinOcFault) (fun b v => { b with iinOcFault := v }) := ⟨by decide, fun _ _ => rfl, fun _ _ => rfl, fun _ _ _ _ => rfl⟩
theorem limitField_iinOcWarn : LimitField 0x5D (·.iinOcWarn) (fun b v => { b with iinOcWarn := v }) := ⟨by decide, fun _ _ => rfl, fun _ _ => rfl, fun _ _ _ _ => rfl⟩
theorem limitField_pinOpWarn : LimitField 0x6B (·.pinOpWarn) (fun b v => { b with pinOpWarn := v }) := ⟨by decide, fun _ _ => rfl, fun _ _ => rfl, fun _ _ _ _ => rfl⟩
theorem statusField_statusInput : StatusField (·.statusInput) (fun b v => { b with statusInput := v }) := ⟨fun _ _ => rfl, fun _ _ _ => rfl⟩
theorem statusField_statusTemperature : StatusField (·.statusTemperature) (fun b v => { b with statusTemperature := v }) := ⟨fun _ _ => rfl, fun _ _ _ => rfl⟩
theorem statusField_statusCml : StatusField (·.statusCml) (fun b v => { b with statusCml := v }) := ⟨fun _ _ => rfl, fun _ _ _ => rfl⟩

theorem limitOp_read {s : State} (h : s.power.pmbus.up = true) {code : Nat} {get : PmBus → BitVec 16} {put : PmBus → BitVec 16 → PmBus}
    (_ : LimitField code get put) : limitOp code get put .read s = .next (replyWith s (get s.power.pmbus).toNat) := onBus_up h

theorem statusOp_read {s : State} (h : s.power.pmbus.up = true) {get : PmBus → BitVec 8} {put : PmBus → BitVec 8 → PmBus}
    (_ : StatusField get put) : statusOp get put .read s = .next (replyWith s (get s.power.pmbus).toNat) := onBus_up h

theorem limitOp_write {s : State} (h : s.power.pmbus.up = true) {code : Nat} {get : PmBus → BitVec 16} {put : PmBus → BitVec 16 → PmBus}
    (hf : LimitField code get put) (v : BitVec 16) : ∃ t, limitOp code get put (.write v) s = .next t ∧ limitWritten s v code get t := by
  refine ⟨_, onBus_up h, fun hp => if_pos hp, fun hp => ?_⟩
  dsimp only
  rw [if_neg (by simp [hp])]
  obtain ⟨hin, hlow, hhigh⟩ := clampLimit_cases hf.range v
  have hget (x : BitVec 16) (c : BitVec 8) : get { put s.power.pmbus x with statusCml := c, reply := none, nack := false } = x :=
    (hf.kept _ _ _ _).trans (hf.stored _ _)
  refine ⟨rfl, rfl, rfl, fun h1 h2 => ?_, fun h1 => ?_, fun h1 => ?_⟩
  · rw [hin h1 h2]
    exact ⟨hget _ _, hf.cml _ _⟩
  · rw [hlow h1]
    exact ⟨hget _ _, congrArg (· ||| 0x40) (hf.cml _ _)⟩
  · rw [hhigh h1]
    exact ⟨hget _ _, congrArg (· ||| 0x40) (hf.cml _ _)⟩

theorem statusOp_write {s : State} (h : s.power.pmbus.up = true) {get : PmBus → BitVec 8} {put : PmBus → BitVec 8 → PmBus}
    (hf : StatusField get put) (v : BitVec 16) : ∃ t, statusOp get put (.write v) s = .next t ∧ statusWritten s v get t := by
  refine ⟨_, onBus_up h, fun hp => if_pos hp, fun hp => ?_⟩
  dsimp only
  rw [if_neg (by simp [hp])]
  exact ⟨rfl, (hf.kept _ _ _).trans (hf.stored _ _)⟩

/-! ### The test port (R487) -/

theorem drivePins_driven (s : State) (k : TapInstr) : pinsDriven (drivePins s k) k := by
  unfold drivePins
  extract_lets s1 pins hif s2
  have h2 : s2.pins.tap = k ∧ s2.pins.pinsTaken = true ∧ s2.hif.linkUp = false := ⟨rfl, rfl, rfl⟩
  clear_value s2
  obtain ⟨htap, htaken, hlink⟩ := h2
  obtain ⟨hpins, hstop⟩ := fault_fatal s2 0x0D40 noSite 0 0
  refine ⟨?_, ?_, ?_, hstop (by omega), (linkUp_of_hifKept (hifKept_fault _ _ _ _ _ _)).trans hlink⟩
  · rw [hpins]; exact htap
  · rw [hpins]; exact htaken
  · rw [hpins]

/-- Settles O57: a read and a write of each limit and status byte, the other commands, and the instructions of the test port. -/
theorem theManagementBusAndTheTestPortAct : Obligations.TheManagementBusAndTheTestPortAct := by
  refine ⟨?_, ?_, ?_, ?_, ?_⟩
  · intro s v h
    exact ⟨limitOp_read h limitField_otFault, limitOp_write h limitField_otFault v,
      limitOp_read h limitField_otWarn, limitOp_write h limitField_otWarn v,
      limitOp_read h limitField_vinOvFault, limitOp_write h limitField_vinOvFault v,
      limitOp_read h limitField_vinOvWarn, limitOp_write h limitField_vinOvWarn v,
      limitOp_read h limitField_vinUvWarn, limitOp_write h limitField_vinUvWarn v,
      limitOp_read h limitField_vinUvFault, limitOp_write h limitField_vinUvFault v,
      limitOp_read h limitField_iinOcFault, limitOp_write h limitField_iinOcFault v,
      limitOp_read h limitField_iinOcWarn, limitOp_write h limitField_iinOcWarn v,
      limitOp_read h limitField_pinOpWarn, limitOp_write h limitField_pinOpWarn v,
      statusOp_read h statusField_statusInput, statusOp_write h statusField_statusInput v,
      statusOp_read h statusField_statusTemperature, statusOp_write h statusField_statusTemperature v,
      statusOp_read h statusField_statusCml, statusOp_write h statusField_statusCml v⟩
  · intro s m h
    refine ⟨onBus_up h, onBus_up h, fun v hv => ?_, fun v h0 h8 => ?_, onBus_up h, onBus_up h, onBus_up h, onBus_up h, onBus_up h,
      onBus_up h, onBus_up h, onBus_up h⟩
    · exact (onBus_up h).trans (congrArg Host.Outcome.next (if_pos hv))
    · exact (onBus_up h).trans (congrArg Host.Outcome.next (if_neg (not_or.2 ⟨h0, h8⟩)))
  · intro s code h
    exact if_neg (by rw [h]; simp)
  · intro s h
    exact ⟨onBus_down h, onBus_down h, onBus_down h⟩
  · intro s
    exact ⟨rfl, rfl, rfl, fun code h => if_neg (Nat.not_le.2 h), ⟨_, rfl, drivePins_driven s _⟩, ⟨_, rfl, drivePins_driven s _⟩,
      ⟨_, rfl, drivePins_driven s _⟩, ⟨_, rfl, drivePins_driven s _⟩, ⟨_, rfl, drivePins_driven s _⟩⟩

end Sys2Proof.Machine
end

section
/-! PROOF. The rolling proof runs unit by unit (R409, R410, R411, R417, R432, R506). -/

namespace Sys2Proof.Machine

/-! ### Arming (R410, R417) -/

theorem execProofArm_forced {s : State} {u : Site} {force : Bool} (hm : mayArm s = true) (hr : reaches s (spacingEnd s) = true)
    (hf : s.hal.proof.forced = some (u, force)) (hd : unitState s u ≠ .draining) (ha : (sectorOf s (siteSector u)).state = .active) :
    execProofArm s = .next (armUnit (advance s (spacingEnd s)) u true) := by
  unfold execProofArm
  rw [if_neg (by simp [hm, hr]), hf]
  exact if_neg (by simp [hd, ha])

theorem execProofArm_round {s : State} {u : Site} {wraps : Bool} (hm : mayArm s = true) (hr : reaches s (spacingEnd s) = true)
    (hf : s.hal.proof.forced = none) (he : s.hal.proof.enable = true) (hn : nextProof s = some (u, wraps)) :
    execProofArm s = .next (armUnit (advance (if wraps then roundOver s s.hal.proof.lastEnd else s) (spacingEnd s)) u false) := by
  unfold execProofArm
  rw [if_neg (by simp [hm, hr]), hf, hn]
  exact if_neg (by simp [he])

theorem armUnit_proof (s : State) (u : Site) (serving : Bool) :
    (armUnit s u serving).now = s.now ∧ (armUnit s u serving).hal.proof.site = unitName u ∧ (armUnit s u serving).hal.proof.serving = serving ∧
    (armUnit s u serving).hal.proof.armedAt = s.now ∧ (armUnit s u serving).hal.proof.state =
      (if siteKind u == 10 || unitState s u == .disabled || (siteKind u ≤ 3 && unitIdle s u) then .proof else .wait) := ⟨rfl, rfl, rfl, rfl, rfl⟩

/-! ### The end of a proof (R410, R411) -/

/-- The end of a round changes neither the state of the proof nor its end, and defers none. -/
theorem roundOver_proof (s : State) (time : Fc) : (roundOver s time).hal.proof.state = s.hal.proof.state ∧
    (roundOver s time).hal.proof.lastEnd = s.hal.proof.lastEnd ∧ (roundOver s time).hal.proof.deferred = s.hal.proof.deferred := by
  unfold roundOver
  dsimp only
  split
  · exact ⟨rfl, rfl, rfl⟩
  · simp

theorem endProof_proof (s : State) (status detail : Nat) :
    (endProof s status detail).hal.proof.state = .none ∧ (endProof s status detail).hal.proof.lastEnd = s.now ∧
    (endProof s status detail).hal.proof.deferred = s.hal.proof.deferred := by
  unfold endProof
  dsimp only
  split
  · simp
  · exact roundOver_proof _ _

theorem execProofMaxWaitExpiry_gives_up {s : State} {u : Site} (hw : s.hal.proof.state = .wait) (hn : proofNames s u = true) (hk : siteKind u ≤ 3)
    (hb : bindStopped s u = false) (hr : reaches s (s.hal.proof.armedAt + max 1 s.hal.proof.maxWaitMs * (1000 * Config.us)) = true) :
    ∃ t, execProofMaxWaitExpiry u s = .next t ∧ t.hal.proof.state = .none ∧ t.hal.proof.deferred = sat 0xFFFFFFFF (s.hal.proof.deferred + 1) ∧
      s.hal.proof.armedAt + max 1 s.hal.proof.maxWaitMs * (1000 * Config.us) ≤ t.now := by
  unfold execProofMaxWaitExpiry
  dsimp only
  rw [if_neg (by simp only [hw, hn, hb, hr, Nat.not_lt.2 hk]; simp)]
  refine ⟨_, rfl, (endProof_proof _ _ _).1, (endProof_proof _ _ _).2.2, ?_⟩
  rw [(endProof_frame _ _ _).1, (setProof_frame _ _).1, (moves_rcNote (msk := 0x8) rfl (Moves.refl _)).frame.b0 rfl, (postDev_frame _ _ _ _ _ _).1]
  exact Nat.le_max_right _ _

/-! ### BIST (R410) -/

theorem execBistRunDone_pass {s : State} {u : Site} (hp : s.hal.proof.state = .proof) (hn : proofNames s u = true) :
    execBistRunDone u true s = .next (setProof (if s.hal.proof.repeated then fault s 0x0E01 0 s.hal.proof.site 0 0 else s)
      { (if s.hal.proof.repeated then fault s 0x0E01 0 s.hal.proof.site 0 0 else s).hal.proof with state := .restore }) := by
  unfold execBistRunDone
  dsimp only
  rw [if_neg (by simp [hp, hn]), if_pos rfl]
  rfl

theorem execBistRunDone_fail {s : State} {u : Site} (hp : s.hal.proof.state = .proof) (hn : proofNames s u = true) :
    execBistRunDone u false s = .next (if s.hal.proof.repeated
      then liftHolds (moveUnit (tailsOff (provenNow (fault s 0x0E10 2 s.hal.proof.site 0 0)) (siteElem u)) (siteElem u)
        { ctlOf (fault s 0x0E10 2 s.hal.proof.site 0 0) (siteElem u) with state := .lost })
      else setProof s { s.hal.proof with repeated := true }) := by
  unfold execBistRunDone
  dsimp only
  rw [if_neg (by simp [hp, hn]), if_neg (by simp)]
  split <;> rfl

/-! ### The unit is given back (R411, R420) -/

theorem afterProof_hal (s : State) (u : Site) (since : Fc) : (afterProof s u since).hal = s.hal := by
  unfold afterProof
  dsimp only
  split
  · exact hal_startDrain _ _ _
  split
  · simp
  · rfl

theorem execProofRestoreDone_over {s : State} {u : Site} (hr : s.hal.proof.state = .restore) (hn : proofNames s u = true) :
    ∃ t, execProofRestoreDone u s = .next t ∧ t.hal.proof.state = .none ∧ t.hal.proof.lastEnd = s.now := by
  unfold execProofRestoreDone
  dsimp only
  rw [if_neg (by simp [hr, hn])]
  refine ⟨_, rfl, ?_⟩
  rw [(liftHolds_frame _).2.1, afterProof_hal]
  obtain ⟨h1, h2, -⟩ := endProof_proof (provenNow s) stOK (b2n s.hal.proof.repeated)
  exact ⟨h1, h2⟩

/-- A write of HAL_PROOF_CTRL is one of the proof alone. -/
theorem proofCtrlWrite_proof (s : State) (v : Dword) :
    proofCtrlWrite s v = { s with hal := { s.hal with proof := (proofCtrlWrite s v).hal.proof } } ∧
    (proofCtrlWrite s v).hal.proof.enable = dbit v 0 ∧ (proofCtrlWrite s v).hal.proof.spacingUs = dbits v 23 8 ∧
    (proofCtrlWrite s v).hal.proof.maxWaitMs = dbits v 31 24 := by
  unfold proofCtrlWrite
  dsimp only
  refine ⟨rfl, ?_⟩
  repeat' split
  all_goals exact ⟨rfl, rfl, rfl⟩

/-- Settles O25: arming, the wait, the runs, the end, and the register. -/
theorem theRollingProofRunsUnitByUnit : Obligations.TheRollingProofRunsUnitByUnit := by
  refine ⟨?_, ?_, ?_, ?_, ?_⟩
  · intro s u hm hr
    refine ⟨fun force hf hd ha => execProofArm_forced hm hr hf hd ha, fun wraps hf he hn => execProofArm_round hm hr hf he hn, fun x serving => ?_⟩
    intro t
    obtain ⟨h1, h2, h3, h4, h5⟩ := armUnit_proof (advance x (spacingEnd s)) u serving
    refine ⟨h1, h2, h3, h4.trans h1.symm, fun hk => ?_, fun hk hd => ?_, ?_⟩
    · rw [h5]
      exact if_pos (by simp [hk])
    · rw [h5]
      exact if_neg (by rw [show unitState (advance x _) u = unitState x u from rfl]; simp [hk, hd])
    · rw [h5]
      split
      · exact .inr rfl
      · exact .inl rfl
  · intro s u hw hn
    exact ⟨fun hi => if_neg (by simp [hw, hn, hi]), fun hk hb hr => execProofMaxWaitExpiry_gives_up hw hn hk hb hr⟩
  · intro s u hp hn
    have hpass := execBistRunDone_pass hp hn
    have hfail := execBistRunDone_fail hp hn
    refine ⟨fun hrep => ⟨?_, ?_⟩, fun hrep => ⟨⟨_, hpass, rfl, ?_⟩, ⟨_, _, hfail.trans (by rw [if_pos hrep]), rfl, rfl⟩⟩⟩
    · rw [if_neg (by simp [hrep])] at hpass
      exact hpass
    · exact hfail.trans (by rw [if_neg (by simp [hrep])])
    · rw [if_pos hrep]
      rfl
  · intro s u hr hn
    exact execProofRestoreDone_over hr hn
  · intro s v
    obtain ⟨h1, h2, h3, h4⟩ := proofCtrlWrite_proof s v
    refine ⟨_, rfl, h1, h2, h3, h4, fun he hv hw hs => ?_, fun he hv => ?_⟩
    · unfold proofCtrlWrite
      simp [he, hv, hw, hs]
    · unfold proofCtrlWrite
      simp [he, hv]

end Sys2Proof.Machine
end

section
/-! PROOF. Counters are programmed, sampled and cleared (R444 to R451). -/

namespace Sys2Proof.Machine

/-! ### What the fold of the waiting happenings leaves alone (R444) -/

/-- The counters with other views. -/
def withViews (c : Counters) (b0 b2 : AMap Nat PageView) : Counters := { c with bar0 := b0, bar2 := b2 }

theorem applyTally_withViews (c : Counters) (b0 b2 : AMap Nat PageView) (t : Tally) :
    applyTally (withViews c b0 b2) t = withViews (applyTally c t) b0 b2 := by cases t <;> rfl

/-- Counting reads no view and writes none. -/
theorem foldTallies_withViews (c : Counters) (b0 b2 : AMap Nat PageView) (t : Fc) :
    foldTallies (withViews c b0 b2) t = withViews (foldTallies c t) b0 b2 := by
  have key : ∀ l : List (Fc × Tally), l.foldl (fun c h => applyTally c h.2) (withViews c b0 b2) =
      withViews (l.foldl (fun c h => applyTally c h.2) c) b0 b2 := fun l =>
    List.foldl_hom (fun c => withViews c b0 b2) fun x (h : Fc × Tally) => applyTally_withViews x b0 b2 h.2
  unfold foldTallies
  dsimp only
  by_cases h : t + 1 - 64 ≤ c.foldedTo
  · rw [if_pos h]
    exact if_pos h
  · rw [if_neg h]
    refine (if_neg h).trans ?_
    rw [show (withViews c b0 b2).recent = c.recent from rfl, key]
    rfl

theorem foldTallies_views (c : Counters) (t : Fc) : (foldTallies c t).bar0 = c.bar0 ∧ (foldTallies c t).bar2 = c.bar2 := by
  have h := foldTallies_withViews c c.bar0 c.bar2 t
  exact ⟨(congrArg Counters.bar0 h :), (congrArg Counters.bar2 h :)⟩

/-- What has been counted up to this fc is not counted again in it. -/
theorem foldTallies_again (c : Counters) (t : Fc) {d : Counters} (h : d.foldedTo = (foldTallies c t).foldedTo) : foldTallies d t = d := by
  have hle : t + 1 - 64 ≤ d.foldedTo := by
    rw [h]
    unfold foldTallies
    dsimp only
    split
    case isTrue h => exact h
    case isFalse => exact Nat.le_refl _
  exact if_pos hle

theorem foldCounters_cnt (s : State) : (foldCounters s).cnt = foldTallies s.cnt s.now := by
  unfold foldCounters
  dsimp only
  exact (Moves.foldl (m := 0xe) (Moves.refl _) fun x k hx => moves_postDev rfl hx).frame.b20 rfl

theorem viewOf_of_views {s t : State} (h : t.cnt.bar0 = s.cnt.bar0 ∧ t.cnt.bar2 = s.cnt.bar2) (bar2 : Bool) (g : Nat) : viewOf t bar2 g = viewOf s bar2 g := by
  unfold viewOf
  rw [h.1, h.2]

theorem viewOf_clearCounter (s : State) (k : Nat) (bar2 : Bool) (g : Nat) : viewOf (clearCounter s k) bar2 g = viewOf s bar2 g := by
  refine viewOf_of_views ?_ _ _
  change (foldCounters s).cnt.bar0 = _ ∧ (foldCounters s).cnt.bar2 = _
  rw [foldCounters_cnt]
  exact foldTallies_views _ _

theorem viewOf_runCounter (s : State) (k : Nat) (run : Bool) (bar2 : Bool) (g : Nat) : viewOf (runCounter s k run) bar2 g = viewOf s bar2 g := by
  refine viewOf_of_views ?_ _ _
  change (foldCounters s).cnt.bar0 = _ ∧ (foldCounters s).cnt.bar2 = _
  rw [foldCounters_cnt]
  exact foldTallies_views _ _

theorem clearCounter_progs (s : State) (k : Nat) : (clearCounter s k).cnt.progs = s.cnt.progs := by
  change (foldCounters s).cnt.progs = _
  rw [foldCounters_cnt, foldTallies_progs]

theorem runCounter_progs (s : State) (k : Nat) (run : Bool) : (runCounter s k run).cnt.progs = lmod s.cnt.progs k (fun c => { c with run := run }) := by
  change lmod (foldCounters s).cnt.progs k _ = _
  rw [foldCounters_cnt, foldTallies_progs]

theorem clearCounter_now (s : State) (k : Nat) : (clearCounter s k).now = s.now := (foldCounters_frame s).1

theorem runCounter_now (s : State) (k : Nat) (run : Bool) : (runCounter s k run).now = s.now := (foldCounters_frame s).1

/-- A cleared counter shows what it got in the last fc counted, whether it then runs or stops. -/
theorem counterNow_run_clear (s : State) (k : Nat) (run : Bool) :
    counterNow (runCounter (clearCounter s k) k run) k 0x40 = lget (foldTallies s.cnt s.now).newest k 0 := by
  have hclear : (clearCounter s k).cnt =
      { foldTallies s.cnt s.now with vals := amSet (foldTallies s.cnt s.now).vals (k, 0x40) (lget (foldTallies s.cnt s.now).newest k 0) } := by
    unfold clearCounter
    dsimp only
    rw [foldCounters_cnt]
  have hclearFolded : (clearCounter s k).cnt.foldedTo = (foldTallies s.cnt s.now).foldedTo := by rw [hclear]
  have hrun : (runCounter (clearCounter s k) k run).cnt = { (clearCounter s k).cnt with progs := lmod (clearCounter s k).cnt.progs k (fun c => { c with run := run }) } := by
    unfold runCounter
    dsimp only
    rw [foldCounters_cnt, clearCounter_now, foldTallies_again s.cnt s.now hclearFolded]
  have hnow : (runCounter (clearCounter s k) k run).now = s.now := (runCounter_now _ _ _).trans (clearCounter_now s k)
  have hfolded : (runCounter (clearCounter s k) k run).cnt.foldedTo = (foldTallies s.cnt s.now).foldedTo := by rw [hrun, hclear]
  unfold counterNow
  rw [hnow, foldTallies_again s.cnt s.now hfolded, hrun, hclear]
  exact amGetD_amSet_same _ _ _ _

/-! ### A write to CNT_PAGE_CTRL (R446, R448, R451) -/

theorem viewOf_setView (s : State) (bar2 : Bool) (g : Nat) (v : PageView) : viewOf (setView s bar2 g v) bar2 g = v := by
  cases bar2 <;> exact amGetD_amSet_same _ _ _ _

theorem setView_cnt (s : State) (bar2 : Bool) (g : Nat) (v : PageView) : ∃ b0 b2, (setView s bar2 g v).cnt = withViews s.cnt b0 b2 := by
  cases bar2 <;> exact ⟨_, _, rfl⟩

theorem setView_now (s : State) (bar2 : Bool) (g : Nat) (v : PageView) : (setView s bar2 g v).now = s.now := by cases bar2 <;> rfl

/-- The cut of a page does not depend on the views. -/
theorem pageCut_setView (s : State) (bar2 : Bool) (g : Nat) (v : PageView) : pageCut (setView s bar2 g v) g = pageCut s g := by
  obtain ⟨b0, b2, h⟩ := setView_cnt s bar2 g v
  unfold pageCut
  rw [h, setView_now, foldTallies_withViews]
  rfl

/-- What a write does to the page's view: its view bit, and the sample that it asks for. -/
def viewWritten (s : State) (bar2 : Bool) (g : Nat) (v : Dword) : State :=
  let s1 := setView s bar2 g { viewOf s bar2 g with sampledView := dbit v 0 }
  if dbit v 1 then samplePage s1 bar2 g else s1

theorem pageCtrlWrite_eq {s : State} {bar2 : Bool} {g : Nat} (hw : pageWritable s bar2 g = true) (v : Dword) :
    pageCtrlWrite s bar2 g v = if g < 64 then
      runCounter (if dbit v 2 then clearCounter (viewWritten s bar2 g v) g else viewWritten s bar2 g v) g (dbit v 3) else viewWritten s bar2 g v := by
  unfold pageCtrlWrite
  rw [hw]
  rfl

theorem viewWritten_cnt (s : State) (bar2 : Bool) (g : Nat) (v : Dword) :
    (viewWritten s bar2 g v).now = s.now ∧ ∃ b0 b2, (viewWritten s bar2 g v).cnt = withViews s.cnt b0 b2 := by
  unfold viewWritten
  dsimp only
  split
  · obtain ⟨c0, c2, hc⟩ := setView_cnt s bar2 g { viewOf s bar2 g with sampledView := dbit v 0 }
    obtain ⟨b0, b2, hb⟩ := setView_cnt (setView s bar2 g { viewOf s bar2 g with sampledView := dbit v 0 }) bar2 g _
    refine ⟨(setView_now _ _ _ _).trans (setView_now _ _ _ _), b0, b2, hb.trans ?_⟩
    rw [hc]
    rfl
  · exact ⟨setView_now _ _ _ _, setView_cnt _ _ _ _⟩

theorem viewOf_viewWritten (s : State) (bar2 : Bool) (g : Nat) (v : Dword) :
    (viewOf (viewWritten s bar2 g v) bar2 g).sampledView = dbit v 0 ∧
    (dbit v 1 = true → (viewOf (viewWritten s bar2 g v) bar2 g).sample = pageCut s g ∧ (viewOf (viewWritten s bar2 g v) bar2 g).sampleTime = s.now - 64) := by
  unfold viewWritten
  dsimp only
  split
  case isTrue h =>
    unfold samplePage
    rw [viewOf_setView, viewOf_setView, pageCut_setView, setView_now]
    exact ⟨rfl, fun _ => ⟨rfl, rfl⟩⟩
  case isFalse h => exact ⟨by rw [viewOf_setView], fun g => absurd g h⟩

/-- Clearing and running a page's counter leave its views as they were written. -/
theorem viewOf_pageCtrlWrite {s : State} {bar2 : Bool} {g : Nat} (hw : pageWritable s bar2 g = true) (v : Dword) :
    viewOf (pageCtrlWrite s bar2 g v) bar2 g = viewOf (viewWritten s bar2 g v) bar2 g := by
  rw [pageCtrlWrite_eq hw]
  split
  · rw [viewOf_runCounter]
    split
    · exact viewOf_clearCounter _ _ _ _
    · rfl
  · rfl

theorem pageCtrlWrite_run {s : State} {bar2 : Bool} {g : Nat} (hw : pageWritable s bar2 g = true) (v : Dword) (hg : g < 64) (hl : s.cnt.progs.length = 64) :
    (lget (pageCtrlWrite s bar2 g v).cnt.progs g {}).run = dbit v 3 := by
  have hview : (viewWritten s bar2 g v).cnt.progs = s.cnt.progs := by
    obtain ⟨-, b0, b2, hc⟩ := viewWritten_cnt s bar2 g v
    rw [hc]
    rfl
  have hprogs : (if dbit v 2 then clearCounter (viewWritten s bar2 g v) g else viewWritten s bar2 g v).cnt.progs = s.cnt.progs := by
    split
    · rw [clearCounter_progs, hview]
    · exact hview
  rw [pageCtrlWrite_eq hw, if_pos hg, runCounter_progs, hprogs, lget_eq, getElem?_lmod, if_pos rfl, List.getElem?_eq_getElem (hl.symm ▸ hg)]
  rfl

theorem pageCtrlWrite_clear {s : State} {bar2 : Bool} {g : Nat} (hw : pageWritable s bar2 g = true) {v : Dword} (hg : g < 64) (hv : dbit v 2 = true) :
    counterNow (pageCtrlWrite s bar2 g v) g 0x40 = lget (foldTallies s.cnt s.now).newest g 0 := by
  obtain ⟨hnow, b0, b2, hc⟩ := viewWritten_cnt s bar2 g v
  rw [pageCtrlWrite_eq hw, if_pos hg, if_pos hv, counterNow_run_clear, hnow, hc, foldTallies_withViews]
  rfl

/-! ### The commands (R446, R449, R450, R451) -/

theorem execCounterConfigure_sound {s : State} {c : HostCmd} (h : Ready 0x41 0 s c) (hp : counterBad c.pkt = false) :
    ∃ t, execCounterConfigure c s = .next (finishTaken t c stOK 0 []) ∧
      t.cnt.progs = (begun s c).cnt.progs.set (dbits (pktDw c.pkt 2) 13 8)
        { cfg := (List.range 8).map (fun i => pktDw c.pkt (3 + i)), run := dbit (pktDw c.pkt 2) 16 } := by
  refine ⟨_, takeCmd_finish h (if_neg (by simp [hp])), ?_⟩
  change (foldCounters (begun s c)).cnt.progs.set _ _ = _
  rw [foldCounters_cnt, foldTallies_progs]

theorem dbits_counter_lt (w : Dword) : dbits w 13 8 < 64 := Nat.mod_lt _ (by decide)

theorem amGet_amErase_same {κ ν : Type} [DecidableEq κ] (m : AMap κ ν) (k : κ) : amGet (amErase m k) k = none := by
  unfold amGet
  rw [List.find?_eq_none.mpr (by simp [amErase])]
  rfl

theorem execCounterGrant_present {s : State} {c : HostCmd} (h : Ready 0x42 0 s c) (hg : dbits (pktDw c.pkt 2) 10 0 < 100)
    (hpres : pagePresent (dbits (pktDw c.pkt 2) 10 0) = true) (hp : pktOnly c.pkt [(2, 0x307FF)] = true) :
    ∃ t, execCounterGrant c s = .next (finishTaken t c stOK 0 []) ∧ viewOf t true (dbits (pktDw c.pkt 2) 10 0) = {} ∧
      amGet t.cnt.grants (dbits (pktDw c.pkt 2) 10 0) = (if dbit (pktDw c.pkt 2) 16 then some (dbit (pktDw c.pkt 2) 17) else none) := by
  have hgt : ¬ (100 ≤ dbits (pktDw c.pkt 2) 10 0 ∨ (!pktOnly c.pkt [(2, 0x307FF)]) = true) := by
    rw [hp]
    simp only [Bool.not_true, Bool.false_eq_true, or_false]
    exact Nat.not_le_of_lt hg
  refine ⟨_, takeCmd_finish h ((if_neg (by rw [hpres]; simp)).trans (if_neg hgt)), amGetD_amErase_same _ _ _, ?_⟩
  change amGet (if _ then _ else _) _ = _
  split
  · exact amGet_amSet_same _ _ _
  · exact amGet_amErase_same _ _

/-- Settles O45: a clause for each op, and what a page write leaves of the views, the run bit and the cleared count. -/
theorem countersAreProgrammedSampledAndCleared : Obligations.CountersAreProgrammedSampledAndCleared := by
  refine ⟨?_, ?_, ?_, ?_, ?_, ?_⟩
  · intro s c k h hp hl
    obtain ⟨t, ht, hprogs⟩ := execCounterConfigure_sound h hp
    refine ⟨t, ht, ?_, fun j hj => ?_⟩
    · have hk : k < 64 := dbits_counter_lt _
      rw [hprogs, lget_eq, List.getElem?_set_self (by omega)]
      rfl
    · rw [hprogs, List.getElem?_set_ne (Ne.symm hj)]
  · intro s c h hp
    exact takeCmd_finish h (if_neg (by rw [hp]; simp))
  · intro s c h hp
    exact takeCmd_finish h (if_neg (by rw [hp]; simp))
  · intro s c h hp
    exact takeCmd_finish h (if_neg (by rw [hp]; simp))
  · intro s c g h hg hpres hp
    exact execCounterGrant_present h hg hpres hp
  · intro s bar2 g v
    refine ⟨fun hw => ?_, fun hw => ⟨⟨_, rfl, ?_, pageCtrlWrite_run hw v⟩, fun hv => ⟨_, congrArg Host.Outcome.next (if_pos hv), ?_⟩, fun hv hg =>
      ⟨_, congrArg Host.Outcome.next (if_pos hv), pageCtrlWrite_clear hw hg hv⟩⟩⟩
    · exact congrArg Host.Outcome.next (if_pos (by rw [hw]; rfl))
    · rw [viewOf_pageCtrlWrite hw]
      exact (viewOf_viewWritten s bar2 g v).1
    · rw [viewOf_pageCtrlWrite hw]
      exact (viewOf_viewWritten s bar2 g v).2 hv

end Sys2Proof.Machine
end

section
/-! PROOF. The trace engine's lines in LPDDR5 (R435, R438, R439, R441). -/

namespace Sys2Proof.Machine

/-! ### A line of LPDDR5 -/

theorem writeLine_feed_of_feed {s t : State} (e : t.feed = s.feed) (a : Nat) (d : BitVec 512) : (writeLine t a d).feed = (writeLine s a d).feed := by
  unfold writeLine channelOf
  rw [e]
  split <;> simp [e]

theorem leBytes_length (n x : Nat) : (leBytes n x).length = n := by
  induction n generalizing x with
  | zero => rfl
  | succ n ih => exact congrArg (· + 1) (ih _)

theorem memGet_memSetLine_other (m : Mem) {a x : Nat} (d : BitVec 512) (h : x < a ∨ a + 64 ≤ x) : memGet (memSetLine m a d) x = memGet m x := by
  unfold memSetLine
  refine memGet_memWrite_other m _ ?_
  rw [leBytes_length]
  exact h

/-- A line written changes no byte outside it. -/
theorem memGet_writeLine_other (s : State) {a x : Nat} (d : BitVec 512) (h : x < a ∨ a + 64 ≤ x) :
    memGet (writeLine s a d).feed.lpddr x = memGet s.feed.lpddr x := by
  by_cases hlost : (channelOf s (channelOfDpa a)).state = .lost
  · unfold writeLine
    rw [if_pos hlost]
  · rw [writeLine_lpddr hlost, memGet_memSetLine_other s.feed.lpddr d h]

/-! ### One line of the region (R439, R441) -/

theorem traceEnds_trace (s : State) (reason : Nat) : (traceEnds s reason).trace = { s.trace with state := .stopped, stopReason := reason } := by
  unfold traceEnds
  exact (moves_postDev (msk := 0xe) rfl (Moves.refl _)).frame.b19 rfl

theorem traceEnds_feed (s : State) (reason : Nat) : (traceEnds s reason).feed = s.feed := (moves_traceEnds (msk := 0x8000e) rfl (Moves.refl s)).frame.b11 rfl

/-- The line stored and the write position moved on, ahead of the trace's end if it is one. -/
def traceStored (s : State) (bytes : List Byte) (after : Nat) : State :=
  let a := s.trace.base + 64 * s.trace.wp
  let last := decide (traceLines s.trace ≤ s.trace.wp + 1)
  let s0 := writeLine s a (BitVec.ofNat 512 (leNat bytes))
  let s1 := { s0 with
    trace := { s0.trace with
      wp := if last then 0 else s.trace.wp + 1
      wrap := if last then !s.trace.wrap else s.trace.wrap
      sinceTrigger := s.trace.sinceTrigger + after
      nextLine := s.now + 4 } }
  addJob (count s1 (99, 0x40) 2) .trace true a 64

theorem traceLine_eq (s : State) (bytes : List Byte) (after : Nat) :
    traceLine s bytes after = traceStored s bytes after ∨ ∃ reason, traceLine s bytes after = traceEnds (traceStored s bytes after) reason := by
  rw [show traceLine s bytes after =
    if s.trace.state = .running ∧ s.trace.cfg.mode = 1 ∧ (decide (traceLines s.trace ≤ s.trace.wp + 1)) = true then traceEnds (traceStored s bytes after) 1
    else if s.trace.state = .post ∧ postRecords s.trace ≤ (traceStored s bytes after).trace.sinceTrigger then traceEnds (traceStored s bytes after) 2
    else traceStored s bytes after from rfl]
  split
  · exact .inr ⟨1, rfl⟩
  · split
    · exact .inr ⟨2, rfl⟩
    · exact .inl rfl

theorem traceStored_trace (s : State) (bytes : List Byte) (after : Nat) :
    (traceStored s bytes after).trace = { s.trace with
      wp := if traceLines s.trace ≤ s.trace.wp + 1 then 0 else s.trace.wp + 1
      wrap := if traceLines s.trace ≤ s.trace.wp + 1 then !s.trace.wrap else s.trace.wrap
      sinceTrigger := s.trace.sinceTrigger + after
      nextLine := s.now + 4 } := by
  unfold traceStored
  extract_lets a last s0 tr s1
  have hs0 : s0.trace = s.trace := (moves_writeLine (msk := 0x1000800) rfl (Moves.refl s)).frame.b19 rfl
  have hs1 : (addJob (count s1 (99, 0x40) 2) .trace true a 64).trace = s1.trace :=
    ((moves_addJob (msk := 0x800) rfl (Moves.refl _)).frame.b19 rfl).trans ((moves_count (msk := 0x10000e) rfl (Moves.refl _)).frame.b19 rfl)
  rw [hs1]
  simp only [s1, tr, last, hs0, decide_eq_true_eq]
  rfl

theorem traceStored_lpddr (s : State) (bytes : List Byte) (after : Nat) :
    (traceStored s bytes after).feed.lpddr = (writeLine s (s.trace.base + 64 * s.trace.wp) (BitVec.ofNat 512 (leNat bytes))).feed.lpddr := by
  unfold traceStored
  dsimp only
  rw [addJob_lpddr, count_feed]

/-- What one line does: the line stored, the write position moved on, and the trigger as it was. -/
theorem traceLine_stores (s : State) (bytes : List Byte) (after : Nat) :
    (traceLine s bytes after).feed.lpddr = (writeLine s (s.trace.base + 64 * s.trace.wp) (BitVec.ofNat 512 (leNat bytes))).feed.lpddr ∧
    (traceLine s bytes after).trace.wp = (if traceLines s.trace ≤ s.trace.wp + 1 then 0 else s.trace.wp + 1) ∧
    (traceLine s bytes after).trace.trigPending = s.trace.trigPending ∧ (traceLine s bytes after).trace.trigLine = s.trace.trigLine := by
  have htrace := traceStored_trace s bytes after
  rw [← traceStored_lpddr s bytes after]
  rcases traceLine_eq s bytes after with h | ⟨reason, h⟩
  · rw [h, htrace]
    exact ⟨rfl, rfl, rfl, rfl⟩
  · rw [h, traceEnds_trace, traceEnds_feed, htrace]
    exact ⟨rfl, rfl, rfl, rfl⟩

theorem traceLine_now (s : State) (bytes : List Byte) (after : Nat) : (traceLine s bytes after).now = s.now :=
  (moves_traceLine (msk := 0x118080e) rfl (Moves.refl s)).frame.b0 rfl

/-! ### What goes out (R435, R438, R441) -/

/-- A buffer's next records taken out of it, at most two. -/
def traceTaken (s : State) (b : Nat) : State :=
  let x := lget s.trace.bufs b {}
  setTrace s { s.trace with lastBuf := b, bufs := s.trace.bufs.set b { x with recs := x.recs.drop 2, aloneSince := s.now } }

/-- The trigger record taken, and with it the control buffer's first record. -/
def triggerTaken (s : State) : State :=
  let x := lget s.trace.bufs 8 {}
  setTrace s { s.trace with trigPending := none, lastBuf := 8, trigLine := s.trace.wp, bufs := s.trace.bufs.set 8 { x with recs := x.recs.drop 1, aloneSince := s.now } }

/-- The 32 bytes behind the trigger record: the control buffer's first record, or a pad. -/
def besideTrigger (s : State) : List Byte :=
  match (lget s.trace.bufs 8 {}).recs.head? with
  | some q => traceBytes q
  | none => padBytes

theorem traceDrain_two {s : State} {b : Nat} {q r : TraceRec} {rest : List TraceRec} (hp : s.trace.trigPending = none)
    (hr : (lget s.trace.bufs b {}).recs = q :: r :: rest) :
    traceDrain s b = traceLine (traceTaken s b) (traceBytes q ++ traceBytes r) (if s.trace.state == .post then 2 else 0) := by
  unfold traceDrain traceTaken
  simp only [hp, hr]

theorem traceDrain_one {s : State} {b : Nat} {r : TraceRec} (hp : s.trace.trigPending = none) (hr : (lget s.trace.bufs b {}).recs = [r]) :
    traceDrain s b = traceLine (traceTaken s b) (traceBytes r ++ padBytes) (if s.trace.state == .post then 2 else 0) := by
  unfold traceDrain traceTaken
  simp only [hp, hr]

theorem traceDrain_trigger {s : State} {b : Nat} {r : TraceRec} (hp : s.trace.trigPending = some r) (hg : gapRecord 8 (lget s.trace.bufs 8 {}) = []) :
    traceDrain s b = traceLine (triggerTaken s) (traceBytes r ++ besideTrigger s) 1 := by
  unfold traceDrain triggerTaken besideTrigger
  simp only [hp, hg] <;> rfl

theorem execTraceLineWrite_turn {s : State} {b : Nat} (hw : traceWrites s = true) (hn : s.trace.nextLine ≤ s.now)
    (hb : nextRound s.trace.lastBuf 9 (traceDue s.trace) = some b) : execTraceLineWrite b s = .next (traceDrain s b) := by
  unfold execTraceLineWrite
  exact if_pos (by simp [hw, hn, hb])

theorem execTraceBufferFlushTimer_alone {s : State} {b : Nat} {r : TraceRec} (hw : traceWrites s = true) (hp : s.trace.trigPending = none) (hb : b < 9)
    (hr : (lget s.trace.bufs b {}).recs = [r]) (ht : reaches s (max ((lget s.trace.bufs b {}).aloneSince + 1024) s.trace.nextLine) = true) :
    execTraceBufferFlushTimer b s = .next (traceDrain (advance s (max ((lget s.trace.bufs b {}).aloneSince + 1024) s.trace.nextLine)) b) := by
  unfold execTraceBufferFlushTimer
  rw [hr]
  exact if_pos (by simp [hw, hp, hb, ht])

/-- Settles O44: the three lines that the engine writes, each one `traceLine` of a state with the same feed. -/
theorem traceLinesAreStoredAtTheWritePosition : Obligations.TraceLinesAreStoredAtTheWritePosition := by
  refine ⟨?_, ?_, ?_⟩
  · intro s b q r rest hw hp hn hb hr
    obtain ⟨hmem, hwp, -, -⟩ := traceLine_stores (traceTaken s b) (traceBytes q ++ traceBytes r) (if s.trace.state == .post then 2 else 0)
    have hline := congrArg Feed.lpddr (writeLine_feed_of_feed (s := s) (t := traceTaken s b) rfl (s.trace.base + 64 * s.trace.wp)
      (BitVec.ofNat 512 (leNat (traceBytes q ++ traceBytes r))))
    refine ⟨_, execTraceLineWrite_turn hw hn hb, ?_⟩
    rw [traceDrain_two hp hr]
    exact ⟨hmem.trans hline, hwp, fun a ha => by rw [hmem.trans hline]; exact memGet_writeLine_other s _ ha⟩
  · intro s b r hw hp hb hr at_ ht
    obtain ⟨hmem, -, -, -⟩ := traceLine_stores (traceTaken (advance s at_) b) (traceBytes r ++ padBytes) (if (advance s at_).trace.state == .post then 2 else 0)
    have hline := congrArg Feed.lpddr (writeLine_feed_of_feed (s := s) (t := traceTaken (advance s at_) b) rfl (s.trace.base + 64 * s.trace.wp)
      (BitVec.ofNat 512 (leNat (traceBytes r ++ padBytes))))
    refine ⟨_, execTraceBufferFlushTimer_alone hw hp hb hr ht, ?_⟩
    rw [traceDrain_one (s := advance s at_) hp hr]
    exact ⟨hmem.trans hline, traceLine_now _ _ _, fun a ha => by rw [hmem.trans hline]; exact memGet_writeLine_other s _ ha⟩
  · intro s r hw hp hn x hb hg
    refine ⟨_, execTraceLineWrite_turn hw hn hb, ?_⟩
    rw [traceDrain_trigger hp hg]
    obtain ⟨hmem, -, hpend, hline⟩ := traceLine_stores (triggerTaken s) (traceBytes r ++ besideTrigger s) 1
    exact ⟨hpend, hline, hmem.trans (congrArg Feed.lpddr (writeLine_feed_of_feed (s := s) (t := triggerTaken s) rfl _ _))⟩

end Sys2Proof.Machine
end

section
/-! PROOF. The trace is configured, started, stopped, copied and released (R434 to R443). -/

namespace Sys2Proof.Machine

/-! ### Op 0 (R436, R439) -/

/-- Op 0 is BAD_PARAM. -/
def traceCfgBad (s : State) (p : Packet) : Bool :=
  !pktOnly p traceMasks || dbits (pktDw p 2) 2 0 != 0 || (traceCfgOf p).mode == 3 || (traceCfgOf p).triggerSrc == 3 || (traceCfgOf p).privilege == 3
    || ((traceCfgOf p).mode == 2 && (traceCfgOf p).postShare == 0) || decide (292 < dbits (pktDw p 3) 8 0)
    || (dbits (pktDw p 3) 8 0 == 0 && s.trace.state == .off) || (traceCfgOf p).streams == 0

/-- What op 0 asks of a packet is there, so nothing turns it away. -/
theorem traceConfigure_sound {s : State} {p : Packet} (hp : pktOnly p traceMasks = true) (hz : dbits (pktDw p 2) 2 0 = 0)
    (hmode : (traceCfgOf p).mode ≠ 3) (hsrc : (traceCfgOf p).triggerSrc ≠ 3) (hpriv : (traceCfgOf p).privilege ≠ 3)
    (hpost : (traceCfgOf p).mode = 2 → (traceCfgOf p).postShare ≠ 0) (hunits : dbits (pktDw p 3) 8 0 ≤ 292)
    (hoff : ¬ (dbits (pktDw p 3) 8 0 = 0 ∧ s.trace.state = .off)) (hst : (traceCfgOf p).streams ≠ 0) :
    traceCfgBad s p = false := by
  rw [← Bool.not_eq_true]
  unfold traceCfgBad
  simp only [hp, hz, Bool.or_eq_true, Bool.and_eq_true, Bool.not_eq_true', beq_iff_eq, bne_iff_ne, decide_eq_true_eq]
  simp only [hmode, hsrc, hpriv, hoff, hst, Nat.not_lt.2 hunits]
  simp only [ne_eq, not_true, or_false, false_or, Bool.true_eq_false]
  exact fun h => hpost h.1 h.2

/-- A trace that is off takes the first free place. -/
theorem traceConfigure_placed {s : State} {p : Packet} {a : Nat}
    (hsound : traceCfgBad s p = false)
    (hs : s.trace.state = .off) (ha : tracePlace s (dbits (pktDw p 3) 8 0) = some a) :
    traceConfigure s p = okAt (setTrace s { s.trace with state := .ready, cfg := traceCfgOf p, units := dbits (pktDw p 3) 8 0, base := a }) := by
  unfold traceCfgBad at hsound
  unfold traceConfigure
  dsimp only
  rw [if_neg (ne_true_of_eq_false hsound), if_neg (by simp [hs]), if_neg (by simp [hs]), ha]

/-- A trace that has its region keeps it. -/
theorem traceConfigure_again {s : State} {p : Packet}
    (hsound : traceCfgBad s p = false)
    (hs : s.trace.state = .ready ∨ s.trace.state = .stopped) (hu : dbits (pktDw p 3) 8 0 = 0 ∨ dbits (pktDw p 3) 8 0 = s.trace.units) :
    traceConfigure s p = okAt (setTrace s { s.trace with state := .ready, cfg := traceCfgOf p }) := by
  have hrun : ¬ (s.trace.state = .running ∨ s.trace.state = .post) := by rcases hs with e | e <;> simp [e]
  have hoff : s.trace.state ≠ .off := by rcases hs with e | e <;> simp [e]
  unfold traceCfgBad at hsound
  unfold traceConfigure
  dsimp only
  rw [if_neg (ne_true_of_eq_false hsound), if_neg hrun, if_pos ⟨hoff, hu⟩]

/-! ### The end of a stop (R441) -/

theorem traceEnds_now (s : State) (reason : Nat) : (traceEnds s reason).now = s.now := (moves_traceEnds (msk := 0x8000e) rfl (Moves.refl s)).frame.b0 rfl

theorem gapWritten_now (s : State) (k : Nat) : (gapWritten s k).now = s.now := (moves_gapWritten (msk := 0x18000e) rfl (Moves.refl s)).frame.b0 rfl

/-- The stop record written, in the fc in which the line may go. -/
def stopWritten (s : State) : State :=
  let ending (x : State) : State := if traceWrites x then traceEnds x 0 else x
  let last := traceBytes (controlRecord s 0x0033 0 0 0)
  let bytes := match gapRecord 8 (lget s.trace.bufs 8 {}) with | g :: _ => traceBytes g ++ last | [] => last ++ padBytes
  if traceWrites s then ending (traceLine (gapWritten s 8) bytes 0) else s

theorem stopWritten_now (s : State) : (stopWritten s).now = s.now := by
  unfold stopWritten
  extract_lets ending last bytes
  have hending : ∀ x, (ending x).now = x.now := by
    intro x
    simp only [ending]
    split
    · exact traceEnds_now x 0
    · rfl
  split
  · rw [hending, traceLine_now, gapWritten_now]
  · rfl

theorem execTraceStopFlushDone_flushed {s : State} (hf : s.trace.flushing = true)
    (hw : traceWrites s = true → traceWaits s.trace = false ∧ reaches s s.trace.nextLine = true) :
    ∃ t, execTraceStopFlushDone s = .next (finishEvery t (fun k => k == .traceStop) stOK 0 t.now) ∧ t.trace.flushing = false ∧
      t.now = if traceWrites s then max s.now s.trace.nextLine else s.now := by
  let s2 := stopWritten (if traceWrites s then advance s s.trace.nextLine else s)
  refine ⟨setTrace s2 { s2.trace with flushing := false, lastBuf := 8 }, ?_, rfl, ?_⟩
  · unfold execTraceStopFlushDone
    refine (if_neg ?_).trans rfl
    cases h : traceWrites s
    · simp [hf]
    · obtain ⟨h1, h2⟩ := hw h
      simp [hf, h1, h2]
  · change s2.now = _
    rw [stopWritten_now]
    split <;> rfl

/-! ### The trigger (R441, R443) -/

theorem traceTrigger_post {s : State} (hs : s.trace.state = .running) (hm : s.trace.cfg.mode = 2) (src byType buf : Nat) :
    (traceTrigger s src byType buf).trace.state = .post ∧ (traceTrigger s src byType buf).trace.trigTime = s.now ∧
    (traceTrigger s src byType buf).trace.trigLine = s.trace.wp := by
  unfold traceTrigger
  dsimp only
  rw [hs]
  dsimp only
  rw [if_pos (by simp [hm]), (moves_postDev (msk := 0xe) rfl (Moves.refl _)).frame.b19 rfl]
  exact ⟨rfl, rfl, rfl⟩

theorem traceTrigger_record {s : State} (hs : s.trace.state = .running) (hm : s.trace.cfg.mode ≠ 2) :
    traceTrigger s 0 0 8 = traceEnter s (controlRecord s 0x0030 0 0 0) := by
  unfold traceTrigger
  dsimp only
  rw [hs]
  dsimp only
  rw [if_neg (by simp [hm])]
  rfl

theorem execTraceTrigger_taken {s : State} {c : HostCmd} (h : Ready 0x40 3 s c) (hp : pktOnly c.pkt [(2, 7)] = true)
    (hs : (begun s c).trace.state = .running ∨ (begun s c).trace.state = .post) :
    execTraceTrigger c s = .next (finishTaken (if (begun s c).trace.flushing then begun s c else traceTrigger (begun s c) 0 0 8) c stOK 0 []) := by
  unfold execTraceTrigger
  refine takeCmd_finish h (if_neg ?_)
  rw [hp]
  rcases hs with e | e <;> simp [e]

/-! ### The copy (R217, R442) -/

theorem traceCopy_inside {s : State} {p : Packet}
    (hp : pktOnly p [(2, 7), (3, 0xFFFFFFFF), (4, 0xFFFFFFFF), (5, 0xFFFFFFFF), (6, 0xFFFFFFFF), (7, 0xFFFFFFFF)] = true)
    (hs : s.trace.state ≠ .off) (hoff : pktQ p 3 % 4096 = 0) (hlen : (pktDw p 5).toNat % 4096 = 0) (hhost : pktQ p 6 % 4096 = 0)
    (hmax : (pktDw p 5).toNat ≤ 2 ^ 24) (hin : pktQ p 3 + (pktDw p 5).toNat ≤ traceSpan s.trace.units) :
    traceCopy s p = .pend .traceCopy (addJob (setTrace s { s.trace with
        copies := s.trace.copies ++ [(s.trace.base + pktQ p 3, (pktDw p 5).toNat, pktQ p 6, s.now)] })
      .traceCopy false (s.trace.base + pktQ p 3) (pktDw p 5).toNat) := by
  unfold traceCopy
  refine if_neg ?_
  rw [hp]
  simp only [hoff, hlen, hhost, Bool.or_eq_true, Bool.not_true, Bool.false_eq_true, beq_iff_eq, bne_self_eq_false, decide_eq_true_eq]
  simp only [hs, Nat.not_lt.2 hmax, Nat.not_lt.2 hin, or_self, not_false_eq_true]

theorem execTraceCopyDone_read {s : State} {a len host : Nat} {at_ : Fc} {rest : List (Nat × Nat × Nat × Fc)} (hc : s.trace.copies = (a, len, host, at_) :: rest)
    (hj : s.feed.jobs.any (fun j => j.kind == .traceCopy && j.base == a && j.entered == at_) = false) :
    ∃ t, execTraceCopyDone s = .next (finishFirst t (fun k => k == .traceCopy) stOK 0 t.now [(host, jobBytes s a len)]) ∧
      t.trace.copies = rest ∧ t.feed = s.feed := by
  refine ⟨{ setTrace s { s.trace with copies := rest } with fresh := s.fresh + len }, ?_, rfl, rfl⟩
  unfold execTraceCopyDone
  rw [hc]
  dsimp only
  rw [if_neg (by simp [hj])]
  rfl

/-- Settles O43: a clause for each op and for the two ends. -/
theorem theTraceIsConfiguredStartedAndReleased : Obligations.TheTraceIsConfiguredStartedAndReleased := by
  refine ⟨?_, ?_, ?_, ?_, ?_, ?_, ?_, ?_, ?_, ?_⟩
  · intro s c a s1 g units h hp hz hmode hsrc hpriv hpost hpos hunits hst hoff hplace
    have hsound : traceCfgBad (begun s c) c.pkt = false := traceConfigure_sound hp hz hmode hsrc hpriv hpost hunits (fun e => Nat.ne_of_gt hpos e.1) hst
    exact takeCmd_finish h (traceConfigure_placed hsound hoff hplace)
  · intro s c s1 g units h hp hz hmode hsrc hpriv hpost hunits hst hstate hsame
    have hoff : (begun s c).trace.state ≠ .off := by rcases hstate with e | e <;> exact e ▸ (by decide)
    have hsound : traceCfgBad (begun s c) c.pkt = false := traceConfigure_sound hp hz hmode hsrc hpriv hpost hunits (fun e => hoff e.2) hst
    exact takeCmd_finish h (traceConfigure_again hsound hstate hsame)
  · intro s c s1 h hp hstate
    refine takeCmd_finish h (if_neg ?_)
    rw [hp]
    rcases hstate with e | e <;> simp [show (begun s c).trace.state = _ from e]
  · intro s c s1 h r hp hstate
    refine takeCmd_pend h r (if_neg ?_)
    rw [hp]
    rcases hstate with e | e <;> simp [show (begun s c).trace.state = _ from e]
  · intro s hf hw
    exact execTraceStopFlushDone_flushed hf hw
  · intro s c s1 h hp hstate
    have htaken := execTraceTrigger_taken h hp hstate
    refine ⟨fun hf => htaken.trans (by rw [if_pos hf]), fun hf => ⟨_, htaken.trans (by rw [if_neg (by rw [hf]; simp)]), rfl, fun hr hm =>
      traceTrigger_post hr hm 0 0 8, fun hr hm => traceTrigger_record hr hm⟩⟩
  · intro s c s1 h hp hstate
    refine takeCmd_finish h (if_neg ?_)
    rw [hp]
    simpa using hstate
  · intro s c s1 h hp hstate
    refine takeCmd_finish h ((if_neg ?_).trans (if_neg ?_))
    · rw [hp]
      rcases hstate with e | e <;> simp [show (begun s c).trace.state = _ from e]
    · rcases hstate with e | e <;> simp [show (begun s c).trace.state = _ from e]
  · intro s c s1 off len h r hp hs hoff hlen hhost hmax hin
    exact takeCmd_pend h r (traceCopy_inside hp hs hoff hlen hhost hmax hin)
  · intro s a len host at_ rest hc hj
    exact execTraceCopyDone_read hc hj

end Sys2Proof.Machine
end
